-- ==== Sys2Proof/Word.lean ====
section
/-!
DEFINITION. The words and the plain data that cross the module's boundary: blocks and footers (R39),
journal records (R89 to R91), Hudom frame headers (R287), layout descriptors (R52), list entries (R211),
the Umaza image (R335, R336), and the small closed sets of names the commands use.
-/
namespace Sys2Proof

/-- One byte. -/
abbrev Byte := BitVec 8

/-- The 4,096 data bytes of a block (R8); byte i is bits [8i+7:8i] (R4). -/
abbrev BlockData := BitVec 32768

/-- A 64-byte unit of a submission ring (R188); byte i is bits [8i+7:8i]. -/
abbrev RingUnit := BitVec 512

/-- One of the two PCIe host ports (R308). -/
abbrev PciePort := Fin 2

/-- One of the sixteen Ethernet ports (R264). -/
abbrev EthPort := Fin 16

/-- The two functions of a port (R311). -/
inductive Fn where
  | pf0 | pf1
  deriving DecidableEq, Repr

/-- Sources of register accesses, in the order R388 takes writes of one cycle. -/
inductive Src where
  | port0 | port1 | mctp
  deriving DecidableEq, Repr

/-- A ring of a function: data pairs live on PF1, admin pairs on PF0 (R183). -/
structure RingRef where
  port : PciePort
  fn   : Fn
  pair : Nat
  deriving DecidableEq, Repr

/-- Where an admin command came from: an admin ring, or the board manager's MCTP path (R224). -/
inductive AdmSrc where
  | ring (q : RingRef)
  | mctp
  deriving DecidableEq, Repr

/-- The block footer (R39). -/
structure Footer where
  guard     : BitVec 64
  role      : BitVec 4
  vol       : BitVec 12
  refTag    : BitVec 48
  tag       : BitVec 128
  gen       : BitVec 56
  flags     : BitVec 8
  vbn       : BitVec 64
  layout    : BitVec 16
  strip     : BitVec 16
  stripeGen : BitVec 64
  crc       : BitVec 32
  deriving DecidableEq, Repr, Inhabited

/-- A block: 4,096 data bytes and the 64-byte footer (R8). -/
structure Block where
  data : BlockData
  foot : Footer
  deriving DecidableEq, Repr, Inhabited

/-- A 16-byte scatter-list entry as it lies in host memory (R211). -/
structure ListEnt where
  addr : BitVec 64
  len  : BitVec 32
  typ  : BitVec 8
  rsvd : BitVec 24
  deriving DecidableEq, Repr

/-- What the header of an entry carries besides opcode and flags (R188), once the entry's extent is known. -/
structure EntryHdr where
  units : Nat
  tag   : BitVec 16
  vol   : BitVec 12
  deriving DecidableEq, Repr

/-- How a read of host memory ended (R196, R259, R321, R329). -/
inductive HostErr where
  | timeout      -- PCIe completion timeout
  | unsupported  -- Unsupported Request
  | aborted      -- Completer Abort
  | poisoned     -- poisoned data
  | translation  -- address translation failure (R321)
  deriving DecidableEq, Repr

/-- The reply to a read of host memory. -/
inductive HostRead (α : Type) where
  | ok (a : α)
  | err (e : HostErr)
  deriving DecidableEq, Repr

/-- A layout descriptor (R52); `rsvdZero` says that its reserved bytes are zero. -/
structure LayoutDesc where
  id       : Nat
  family   : Nat
  stripExp : Nat
  k        : Nat
  m        : Nat
  l        : Nat
  g        : Nat
  n        : Nat
  s        : Nat
  levels   : Nat
  memberList : Nat
  seed     : BitVec 64
  hBase    : Nat
  count    : Nat
  zone     : Nat
  rsvdZero : Bool
  crc      : BitVec 32
  deriving DecidableEq, Repr

/-- An intent record (R89). -/
structure Intent where
  flags  : BitVec 8
  vol    : BitVec 12
  slot   : BitVec 32
  vbn    : BitVec 64
  gen    : BitVec 56
  count  : Nat          -- blocks in the run, 1 to 256
  acc    : BitVec 32
  deriving DecidableEq, Repr

/-- A seal record (R91). -/
structure SealRec where
  first  : BitVec 32
  count  : BitVec 32
  tick   : BitVec 64
  crc    : BitVec 32    -- Records CRC
  blocks : BitVec 32
  own    : BitVec 32    -- the seal's own CRC, at 0x1C
  deriving DecidableEq, Repr

/-- A journal record: intent, retire (R90) or seal. -/
inductive JRec where
  | intent (r : Intent)
  | retire (nums : List (BitVec 32))
  | sealed (r : SealRec)
  deriving DecidableEq, Repr

/-- The header of a Hudom frame (R287), its type being given by the command or output that carries it. -/
structure FrameHdr where
  version : BitVec 8
  retx    : Bool
  ropeId  : BitVec 32
  src     : BitVec 12
  dst     : BitVec 16
  seq     : BitVec 32
  edge    : BitVec 64
  len     : BitVec 32
  crc     : BitVec 32
  deriving DecidableEq, Repr

/-- The module state a HEARTBEAT carries (R293). -/
inductive PeerModState where
  | online | failStop | halted
  deriving DecidableEq, Repr

/-- The belay relation's states (R98). -/
inductive BelaySt where
  | solo | joining | belayed
  deriving DecidableEq, Repr

/-- HEARTBEAT payload (R293, R289). -/
structure HbPayload where
  modState  : PeerModState
  belay     : BelaySt
  lastSeal  : BitVec 64
  lastConf  : BitVec 64
  ackHigh   : BitVec 32
  ackMap    : BitVec 64
  deriving DecidableEq, Repr

/-- BELAY_SETUP payload (R288). -/
structure BelaySetupPayload where
  dirtySlots : Nat
  recvSlots  : Nat
  partner    : BitVec 12
  krCheck    : BitVec 32
  period     : BitVec 3
  deriving DecidableEq, Repr

/-- One entry of a DIR_UPDATE (R288, R301). -/
structure DirEntry where
  vol   : BitVec 12
  pool  : BitVec 16
  owner : BitVec 12
  deriving DecidableEq, Repr

/-! ### Pool metadata as it lies on the journal members (R105) -/

/-- Member states (R119). -/
inductive MemSt where
  | active | standby | missing | returning | failed | copyback
  deriving DecidableEq, Repr

/-- Volume power states (R219). -/
inductive VPower where
  | active | idle | entering | standby | waking
  deriving DecidableEq, Repr

/-- A member of a pool: its image member number and its state. -/
structure MemberRec where
  img   : Nat
  state : MemSt
  deriving DecidableEq, Repr

/-- Volume attributes (R86, R103, R180, R228). -/
structure VolAttrs where
  g        : Nat
  wt       : Bool
  noFill   : Bool
  solo     : Nat       -- 0 write-through, 1 vault-protected, 2 journal-on-members
  fault    : Nat       -- 0 Single, 1 Inverse, 2 Dual
  readOnly : Bool
  deriving DecidableEq, Repr

/-- A volume record in pool metadata. -/
structure VolMeta where
  id      : BitVec 12
  size    : Nat                 -- blocks
  layout  : Nat                 -- layout id in force
  extents : List Nat            -- allocation extents of 256 layout stripes (R53)
  attrs   : VolAttrs
  limit   : Nat                 -- generation reservation limit (R163)
  power   : VPower              -- committed power state (R219)
  deriving DecidableEq, Repr

/-- An entry of the remap table (R60). -/
structure RemapEnt where
  layout : Nat
  stripe : Nat
  strip  : Nat
  member : Nat
  row    : Nat
  deriving DecidableEq, Repr

/-- An entry of the lost-extent list (R128). -/
structure LostExt where
  vbn    : Nat
  count  : Nat
  vol    : BitVec 12
  cause  : Nat
  edge   : Nat
  layout : Nat
  deriving DecidableEq, Repr

/-- Phases of a frond (R152). -/
inductive FrondPhase where
  | copying | paused (fromFinal : Bool) | final | switched
  deriving DecidableEq, Repr

/-- A frond as pool metadata holds it (R152, R154). -/
structure FrondMeta where
  layout  : Nat
  srcPool : BitVec 16
  dstPool : BitVec 16
  phase   : FrondPhase
  vol     : BitVec 12
  vbn     : Nat
  extents : List (BitVec 12 × List Nat)   -- extents of each volume under the frond
  marks   : List Nat                      -- frond marks, one per marked frond stripe (R147)
  deriving DecidableEq, Repr

/-- Scrub cycle counts (R134 to R137). -/
structure ScrubMeta where
  cycle      : Nat
  startEdge  : Nat
  period     : Nat         -- days of this cycle
  total      : Nat         -- N_c
  cursor     : Nat         -- stripes of the cycle checked, in cycle order
  pos        : Nat × Nat   -- the first of them not checked: layout and stripe; 65,536 and k for the metadata zone of journal member k
  endEdge    : Nat         -- edge at which it ended; 0 while it runs
  repaired   : Nat
  parity     : Nat
  unresolved : Nat
  late       : Bool
  takeover   : Bool
  deriving DecidableEq, Repr

/-- A signature block's variable content (R349); `index` is the module-key index, none when unsigned. -/
structure SigBlock where
  purpose : Nat
  cause   : Nat            -- 0 signed, 1 exhausted, 2 could not be persisted
  index   : Option Nat
  digest  : BitVec 256
  deriving DecidableEq, Repr

/-- A Virek statement (R360). -/
structure Virek where
  signer     : BitVec 128
  addr       : BitVec 12
  pool       : BitVec 16
  ropeId     : BitVec 32
  cycle      : Nat
  period     : Nat
  layout     : Nat
  startEdge  : Nat
  endEdge    : Nat
  taiBase    : BitVec 64
  checked    : Nat
  repaired   : Nat
  parity     : Nat
  unresolved : Nat
  lostCount  : Nat
  late       : Bool
  takeover   : Bool
  prev       : BitVec 256
  lostDigest : BitVec 256
  fwDigest   : BitVec 256
  sig        : Option SigBlock
  deriving DecidableEq, Repr

/-- Pool metadata (R105 and the rules that put something into it). -/
structure PoolMeta where
  id        : BitVec 16
  commit    : Nat
  home      : BitVec 12
  layouts   : List LayoutDesc
  lists     : List (Nat × List Nat)      -- member list id, members by index (R52)
  members   : List MemberRec
  jms       : List Nat                   -- journal members (R59)
  remap     : List RemapEnt
  regionExp : Nat
  wrapped   : BitVec 320                 -- K_P under K_R (R159)
  krCheck   : BitVec 32
  lost      : List LostExt
  scrubEn   : Bool
  scrubDays : Nat
  scrub     : Option ScrubMeta
  frond     : Option FrondMeta
  vireks    : List Virek                 -- last 1,024 cycles, newest first
  unrest    : List (Nat × Nat × Nat)     -- strips of replaced members still erased: layout, stripe, strip (R130)
  volumes   : List VolMeta
  deriving DecidableEq, Repr

/-- A copy of pool metadata as read from journal members (R105): what it holds, and its blocks by member LBA. -/
structure MetaCopy where
  content : PoolMeta
  blks    : List (Nat × Block)
  deriving DecidableEq, Repr

/-- What POOL_ASSEMBLY reads of one pool (R337, R279, R105). -/
structure PoolRead where
  id         : BitVec 16                 -- as the labels of its members name it
  copies     : List MetaCopy             -- the copies found on its journal members
  holder     : Option (BitVec 64)        -- reservation holder's key on the journal members
  reachable  : List Bool                 -- per member index: admitted and answering
  deriving DecidableEq, Repr

/-- A journal copy: ticks with their seals and records, and the blocks by slot (R113, R114). -/
structure JournalCopy where
  ticks  : List (SealRec × List (BitVec 32 × JRec))   -- each seal with its records and their numbers
  blocks : List (Nat × Block)
  deriving DecidableEq, Repr

/-- What JOURNAL_RECONCILE finds of one pool (R113). -/
structure ReconInfo where
  pool      : BitVec 16
  mirror    : Option JournalCopy         -- the partner's journal mirror
  cold      : Option (JournalCopy × List (Nat × Block))   -- the cold journal, with the blocks that hold it by member LBA
  coldMark  : Bool                       -- its last entry is a shutdown or yield mark
  bitmaps   : List (List (Nat × Block))  -- of each readable copy of the bitmap its blocks, by their number in the area (R111)
  deriving DecidableEq, Repr

/-- NVMe completion status of a member command, as R273 sorts them. -/
inductive MStatus where
  | success
  | unrecoveredRead
  | guardErr
  | appTagErr
  | refTagErr
  | writeFault
  | notReady (dnr : Bool)
  | resvConflict
  | other
  deriving DecidableEq, Repr

/-- What Identify, the label read and the reservation commands report of a namespace (R271, R279). -/
structure NsInfo where
  reachable    : Bool      -- connection and Identify succeed on some port
  formatOk     : Bool      -- R38 format
  piOk         : Bool      -- type 1, 64b guard, storage tag 0, first bytes
  resvOk       : Bool      -- Write Exclusive – Registrants Only supported
  mdts         : Nat       -- data bytes
  lbas         : Nat       -- capacity
  labelBlank   : Bool
  labelPool    : BitVec 16
  labelIndex   : Nat
  labelBlk     : Option Block   -- block 0 as read; none when the read failed
  deriving DecidableEq, Repr

/-- What an NVMe completion brings besides its status. -/
inductive MPayload where
  | none
  | blocks (bs : List Block)
  | ns (i : NsInfo)
  | resv (holder : Option (BitVec 64))
  | zone (copies : List MetaCopy)     -- blocks of metadata copies, with what those copies hold
  deriving DecidableEq, Repr

/-- Temperature sensors (R429). -/
inductive Sensor where
  | die
  | hbm (i : Fin 4)
  | vault
  deriving DecidableEq, Repr

/-- Kinds of request a port answers with Unsupported Request (R313, R314). -/
inductive UrKind where
  | io | atomicOp | type1Cfg | absentFn | memDisabled | vdm0 | badRead | badWrite
  deriving DecidableEq, Repr

/-- The JTAG instructions (R432); `other` is every code not listed. -/
inductive TapIr where
  | extest | idcode | samplePreload | highz | clamp | extestPulse | extestTrain | bypass
  | other (code : BitVec 8)
  deriving DecidableEq, Repr

/-- An image member entry (R270, R336 section 0x0005). -/
structure ImgMember where
  num   : Nat
  dom1  : Option Nat
  dom2  : Option Nat
  kind  : Nat            -- 0 explicit target, 1 discovery reference
  addr  : BitVec 128
  svc   : BitVec 16
  nsid  : BitVec 32
  nqn   : BitVec 1792
  deriving DecidableEq, Repr

/-- The Umaza image as its header and sections give it (R335, R336). -/
structure Image where
  secVersion  : BitVec 32
  boundSerial : BitVec 128       -- 0 for any module
  variants    : BitVec 8
  build       : BitVec 32
  sectionsOk  : Bool             -- sections, their lengths and their reserved bytes are as R335 and R336 have them
  digest      : BitVec 256
  -- 0x0001 Module
  ropeId      : BitVec 32
  ropeAddr    : BitVec 12
  partner     : Option (BitVec 12)
  period      : BitVec 8
  ppsEn       : BitVec 8
  roles       : BitVec 16
  split       : BitVec 32
  dmvModes    : BitVec 8
  wakeEn      : BitVec 8
  subVendor   : BitVec 16
  subId       : BitVec 16
  joinTicks   : BitVec 32
  discTicks   : BitVec 32
  -- 0x0002 Cache
  metaGib     : Nat
  dirtyGib    : Nat
  belayGib    : Nat
  -- 0x0003 Rope network
  udpPort     : BitVec 16
  handback    : BitVec 8
  timeDscp    : BitVec 8
  ropeVlan    : BitVec 32
  multicast   : BitVec 128
  ropeIps     : List (BitVec 128)
  seeds       : List (BitVec 128)
  -- 0x0004 Member network
  memVlan     : BitVec 32
  pfcEn       : BitVec 8
  memDscp     : BitVec 8
  memIps      : List (BitVec 128)
  discovery   : List (BitVec 144)
  -- 0x0005 Members
  members     : List ImgMember
  -- 0x0006 Pools and defaults
  pools       : List (BitVec 16 × BitVec 12)
  gDefault    : Nat
  wtDefault   : Nat
  rcDefault   : Nat
  soloDefault : Nat
  faultDefault : Nat
  scrubDefault : Nat
  regionDefault : Nat
  -- 0x0007 Policies
  testPerm    : BitVec 8
  exportPerm  : BitVec 8
  deriving DecidableEq, Repr

/-- A signed object as stored in the configuration NVM (R332, R349): its bytes, and the signature block after them. -/
structure SignedObj where
  body  : List Byte
  block : List Byte
  deriving DecidableEq, Repr

/-- What the end of a flush phase reports for the seal record (R370): the pages written, and the digest over them. -/
structure PhaseWrite where
  pages  : Nat
  digest : BitVec 64
  deriving DecidableEq, Repr

/-- The two kinds of object a slot holds (R224, R332). -/
inductive ObjKind where
  | firmware | image
  deriving DecidableEq, Repr

/-- Steps at which FW_STAGE's writing of the inactive slot can end. -/
structure StageWrite where
  writeOk    : Bool
  readBackOk : Bool
  deriving DecidableEq, Repr

/-- DMV spaces (R254). -/
inductive DmvSpace where
  | hbm | host0 | host1 | memberQ | ropeQ | vault
  deriving DecidableEq, Repr

/-- The Translation Completion's outcome (R320, R321): the page asked for, its size, the permissions granted and its translated address. -/
inductive Xlat where
  | ok (page : BitVec 64) (sizeLog2 : Nat) (read write : Bool) (base : BitVec 64)
  | fail
  deriving DecidableEq, Repr

/-- What a configuration write leaves in a function, as far as HIF acts on it: Max_Payload_Size (R309), Enable Relaxed Ordering
(R319), ATS Enable (R320), MSI-X Enable and Function Mask, MSI messages enabled (R318), Completion Timeout Value (R329). -/
structure FnCfg where
  mps    : Nat
  ro     : Bool
  ats    : Bool
  msixEn : Bool
  fnMask : Bool
  msiEn  : Nat
  cto    : BitVec 4
  deriving DecidableEq, Repr

/-- Attributes of CREATE_QUEUE (R204, R224). -/
structure QueueAttrs where
  isCq    : Bool
  isData  : Bool
  base    : BitVec 64
  hostLine : BitVec 64
  devLine : BitVec 64
  exp     : Nat
  pair    : Nat
  cqPair  : Nat
  vector  : Nat          -- 0xFFFF for none
  bh      : Nat          -- units of 0.25 GB/s
  relaxed : Bool
  deriving DecidableEq, Repr

/-- The CREATE parameter block of POOL_OP (R227). -/
structure PoolCreateBlk where
  desc        : LayoutDesc
  regionExp   : Nat
  secretSrc   : Nat
  exportReq   : Nat
  scrubEn     : Nat
  scrubPeriod : Nat
  n           : Nat
  rsvdZero    : Bool
  members     : List Nat      -- image member numbers, in member-index order
  deriving DecidableEq, Repr

/-- The parameter block of FROND_START (R226, R140). -/
structure FrondBlk where
  desc    : LayoutDesc
  dstPool : BitVec 16      -- 0 for none
  members : List Nat       -- member indices of the pool that holds the frond
  rsvdZero : Bool          -- bytes 0x44 to 0x7F, and those after the indices, are zero (R5)
  deriving DecidableEq, Repr

/-- The copy of a recorded seal context that SEAL_SAVE writes and SEAL_RESTORE reads (R174). -/
structure SealCtxImg where
  format    : BitVec 16
  vol       : BitVec 12
  handle    : BitVec 32
  seqNo     : BitVec 64
  length    : BitVec 64
  chain     : BitVec 128
  held      : BitVec 128
  heldLen   : Nat
  prio      : BitVec 8
  openEdge  : BitVec 64
  ropeId    : BitVec 32
  ropeAddr  : BitVec 12
  label     : BitVec 384
  binding   : BitVec 128
  deriving DecidableEq, Repr

end Sys2Proof
end

