-- ==== Sys2Proof/Syntax.lean ====
section
/-!
DEFINITION. The commands the module takes from outside (one constructor for every row of spec/opcode_table.json), with the
operands the rule of each row names. What a read of host memory returned, what a member or a peer sent and what an analogue or
cryptographic unit found stand in the operands, since they come from outside the block.
-/
namespace Sys2Proof

/-- One constructor for each row of spec/opcode_table.json; the docstring names the row and its rule. -/
inductive Instr where
  /-- PWR_FAIL_ASSERTED (R369). -/
  | pwrFailAsserted (heldNs : Nat)
  /-- PWR_FAIL_DEASSERTED (R369). -/
  | pwrFailDeasserted
  /-- SYS_RST_ASSERTED (R340). -/
  | sysRstAsserted (heldNs : Nat)
  /-- SYS_RST_RELEASED (R334). -/
  | sysRstReleased (slotSel testEnLow dirOk : Bool)
  /-- RAILS_VALID (R340). -/
  | railsValid
  /-- RAILS_FALL (R340). -/
  | railsFall
  /-- SYS_CLK_LOSS (R425). -/
  | sysClkLoss
  /-- PPS_IN_PULSE (R23). -/
  | ppsInPulse (at_ : Nat)
  /-- PPS_LOST (R23). -/
  | ppsLost
  /-- SENSOR_WARNING (R429). -/
  | sensorWarning (sensor : Sensor) (tempC : Int)
  /-- CRITICAL_TEMPERATURE (R430). -/
  | criticalTemperature (sensor : Sensor) (tempC : Int)
  /-- HOLD_12V_SAMPLE (R366). -/
  | hold12vSample (mv : BitVec 16)
  /-- HOLD_12V_LOW (R369). -/
  | hold12vLow
  /-- TICK_EDGE (R27). -/
  | tickEdge
  /-- JOURNAL_RELOCATION (R93). -/
  | journalRelocation
  /-- GATHER_WINDOW_EXPIRY (R75). -/
  | gatherWindowExpiry (pool : BitVec 16) (layout : Nat) (stripe : Nat)
  /-- BITMAP_QUIET_EXPIRY (R109). -/
  | bitmapQuietExpiry (pool : BitVec 16) (vol : BitVec 12) (region : Nat)
  /-- SCRUB_CYCLE_END (R136). -/
  | scrubCycleEnd (pool : BitVec 16)
  /-- DOORBELL (R184). -/
  | doorbell (port : PciePort) (fn : Fn) (slot : Nat)
  /-- HOST_LINE_REPLY (R193). -/
  | hostLineReply (q : RingRef) (r : HostRead RingUnit)
  /-- ENTRY_UNIT_REPLY (R193). -/
  | entryUnitReply (q : RingRef) (r : HostRead (List RingUnit))
  /-- LIST_SEGMENT_REPLY (R213). -/
  | listSegmentReply (q : RingRef) (r : HostRead (List ListEnt))
  /-- PAD (R198). -/
  | pad (q : RingRef) (units : Nat)
  /-- READ (R16). -/
  | read (q : RingRef) (hd : EntryHdr) (vbn : BitVec 64) (count : BitVec 32) (noFill : Bool) (list : List ListEnt)
  /-- WRITE (R15). -/
  | write (q : RingRef) (hd : EntryHdr) (vbn : BitVec 64) (count : BitVec 32) (members : Bool) (list : List ListEnt)
  /-- FLUSH (R239). -/
  | flush (q : RingRef) (hd : EntryHdr)
  /-- ABORT (R241). -/
  | abort (q : RingRef) (hd : EntryHdr) (targetQ : BitVec 16) (targetTag : BitVec 16)
  /-- VERIFY (R216). -/
  | verify (q : RingRef) (hd : EntryHdr) (vbn : BitVec 64) (count : BitVec 32)
  /-- SEAL_OPEN (R173). -/
  | sealOpen (q : RingRef) (hd : EntryHdr) (prio : BitVec 8) (label : BitVec 384)
  /-- SEAL_APPEND (R217). -/
  | sealAppend (q : RingRef) (hd : EntryHdr) (vbn : BitVec 64) (bytes : BitVec 32) (handle : BitVec 32) (store members : Bool) (list : List ListEnt)
  /-- SEAL_CLOSE (R218). -/
  | sealClose (q : RingRef) (hd : EntryHdr) (handle : BitVec 32) (addr : BitVec 64)
  /-- SEAL_SAVE (R174). -/
  | sealSave (q : RingRef) (hd : EntryHdr) (handle : BitVec 32) (addr : BitVec 64)
  /-- SEAL_RESTORE (R175). -/
  | sealRestore (q : RingRef) (hd : EntryHdr) (addr : BitVec 64) (ctx : HostRead SealCtxImg)
  /-- VOLUME_POWER (R219). -/
  | volumePower (q : RingRef) (hd : EntryHdr) (target : BitVec 8)
  /-- WRITE_ZEROES (R214). -/
  | writeZeroes (q : RingRef) (hd : EntryHdr) (vbn : BitVec 64) (count : BitVec 32) (members : Bool)
  /-- IDENTIFY_MODULE (R229). -/
  | identifyModule (src : AdmSrc) (tag : BitVec 16) (addr : BitVec 64)
  /-- IDENTIFY_VOLUME (R230). -/
  | identifyVolume (src : AdmSrc) (tag : BitVec 16) (vol : BitVec 12) (addr : BitVec 64)
  /-- CREATE_QUEUE (R204). -/
  | createQueue (src : AdmSrc) (tag : BitVec 16) (a : QueueAttrs)
  /-- DELETE_QUEUE (R205). -/
  | deleteQueue (src : AdmSrc) (tag : BitVec 16) (isCq isData : Bool) (pair : Nat)
  /-- ENABLE_QUEUE (R205). -/
  | enableQueue (src : AdmSrc) (tag : BitVec 16) (isCq isData : Bool) (pair : Nat)
  /-- DISABLE_QUEUE (R206). -/
  | disableQueue (src : AdmSrc) (tag : BitVec 16) (isCq isData : Bool) (pair : Nat)
  /-- LIST_VOLUMES (R230). -/
  | listVolumes (src : AdmSrc) (tag : BitVec 16) (addr : BitVec 64) (len : BitVec 32) (scope : BitVec 8) (first : BitVec 16)
  /-- POOL_OP_CREATE (R227). -/
  | poolOpCreate (src : AdmSrc) (tag : BitVec 16) (pool : BitVec 16) (blkAddr : BitVec 64) (blkLen : BitVec 32) (blk : HostRead PoolCreateBlk)
  /-- POOL_OP_DELETE (R226). -/
  | poolOpDelete (src : AdmSrc) (tag : BitVec 16) (pool : BitVec 16)
  /-- ADD_MEMBERS (R226). -/
  | addMembers (src : AdmSrc) (tag : BitVec 16) (pool : BitVec 16) (blkAddr : BitVec 64) (blkLen : BitVec 32) (blk : HostRead (List Nat))
  /-- REMOVE_MEMBERS (R226). -/
  | removeMembers (src : AdmSrc) (tag : BitVec 16) (pool : BitVec 16) (blkAddr : BitVec 64) (blkLen : BitVec 32) (blk : HostRead (List Nat))
  /-- DECLARE_FAILED (R119). -/
  | declareFailed (src : AdmSrc) (tag : BitVec 16) (pool : BitVec 16) (idx : Nat)
  /-- REPLACE_MEMBER (R130). -/
  | replaceMember (src : AdmSrc) (tag : BitVec 16) (pool : BitVec 16) (idx : Nat) (img : Nat)
  /-- FROND_START (R140). -/
  | frondStart (src : AdmSrc) (tag : BitVec 16) (pool : BitVec 16) (blkAddr : BitVec 64) (blkLen : BitVec 32) (blk : HostRead FrondBlk)
  /-- FROND_CANCEL (R153). -/
  | frondCancel (src : AdmSrc) (tag : BitVec 16) (pool : BitVec 16)
  /-- READ_LOST (R128). -/
  | readLost (src : AdmSrc) (tag : BitVec 16) (pool : BitVec 16) (blkAddr : BitVec 64) (blkLen : BitVec 32) (first : Nat)
  /-- RELEASE_LOST (R129). -/
  | releaseLost (src : AdmSrc) (tag : BitVec 16) (pool : BitVec 16) (vol : BitVec 12) (vbn : BitVec 64) (count : BitVec 32)
  /-- POOL_OP_SET_ATTR (R138). -/
  | poolOpSetAttr (src : AdmSrc) (tag : BitVec 16) (pool : BitVec 16) (scrubEn : Nat) (period : Nat)
  /-- POOL_OP_STATUS (R226). -/
  | poolOpStatus (src : AdmSrc) (tag : BitVec 16) (pool : BitVec 16)
  /-- VOLUME_OP_CREATE (R228). -/
  | volumeOpCreate (src : AdmSrc) (tag : BitVec 16) (vol : BitVec 12) (pool : BitVec 16) (size : BitVec 64)
  /-- VOLUME_OP_DELETE (R228). -/
  | volumeOpDelete (src : AdmSrc) (tag : BitVec 16) (vol : BitVec 12)
  /-- VOLUME_OP_SET_ATTR (R228). -/
  | volumeOpSetAttr (src : AdmSrc) (tag : BitVec 16) (vol : BitVec 12) (attr : Nat) (value : Nat)
  /-- VOLUME_OP_GROW (R228). -/
  | volumeOpGrow (src : AdmSrc) (tag : BitVec 16) (vol : BitVec 12) (size : BitVec 64)
  /-- GET_EVENTS (R381). -/
  | getEvents (src : AdmSrc) (tag : BitVec 16) (addr : BitVec 64) (len : BitVec 32) (first : BitVec 64) (area : BitVec 8)
  /-- AUDIT_REQUEST_REPORT (R359). -/
  | auditRequestReport (src : AdmSrc) (tag : BitVec 16) (addr : BitVec 64) (len : BitVec 32) (nonce : BitVec 256)
  /-- AUDIT_REQUEST_STATEMENT (R360). -/
  | auditRequestStatement (src : AdmSrc) (tag : BitVec 16) (addr : BitVec 64) (len : BitVec 32) (pool : BitVec 16) (cycle : BitVec 32)
  /-- CLEAR_EVENTS (R382). -/
  | clearEvents (src : AdmSrc) (tag : BitVec 16)
  /-- FW_DOWNLOAD (R342). -/
  | fwDownload (src : AdmSrc) (tag : BitVec 16) (addr : BitVec 64) (obj : ObjKind) (off : BitVec 32) (len : BitVec 32) (chunk : HostRead (List Byte))
  /-- FW_STAGE (R342). -/
  | fwStage (src : AdmSrc) (tag : BitVec 16) (obj : ObjKind) (len : BitVec 32) (w : StageWrite)
  /-- FW_ACTIVATE (R344). -/
  | fwActivate (src : AdmSrc) (tag : BitVec 16) (obj : ObjKind)
  /-- ACTIVATE_FIRMWARE (R343). -/
  | activateFirmware (obj : ObjKind)
  /-- KEY_IMPORT_TRANSFER_KEY (R160). -/
  | keyImportTransferKey (src : AdmSrc) (tag : BitVec 16) (addr : BitVec 64) (key : HostRead (BitVec 256))
  /-- KEY_IMPORT_ROPE_KEY (R362). -/
  | keyImportRopeKey (src : AdmSrc) (tag : BitVec 16) (addr : BitVec 64) (key : HostRead (BitVec 256))
  /-- KEY_IMPORT_POOL_SECRET (R160). -/
  | keyImportPoolSecret (src : AdmSrc) (tag : BitVec 16) (addr : BitVec 64) (wrapped : HostRead (BitVec 320))
  /-- DMV_COMPLETION (R261). -/
  | dmvCompletion (ch : Nat) (retries : Nat) (payload : List BlockData)
  /-- DMV_BUS_ERROR (R259). -/
  | dmvBusError (ch : Nat) (err : HostErr) (space : DmvSpace) (inDst : Bool) (entry : Nat)
  /-- DMV_QUEUE_DRAIN (R258). -/
  | dmvQueueDrain (rope : Bool) (port : Nat) (fillPct : Nat)
  /-- COMPLETION_TIMEOUT (R329). -/
  | completionTimeout (port : PciePort) (tag : BitVec 14)
  /-- UNEXPECTED_COMPLETION (R329). -/
  | unexpectedCompletion (port : PciePort) (tag : BitVec 14)
  /-- TAG_QUARANTINE_EXPIRY (R329). -/
  | tagQuarantineExpiry (port : PciePort) (tag : BitVec 14)
  /-- TRANSLATION_COMPLETION (R321). -/
  | translationCompletion (port : PciePort) (tag : BitVec 14) (r : Xlat)
  /-- INVALIDATE_REQUEST (R322). -/
  | invalidateRequest (port : PciePort) (fn : Fn) (itag : BitVec 5) (page : BitVec 64) (sizeLog2 : Nat) (global : Bool)
  /-- INVALIDATE_COMPLETION (R322). -/
  | invalidateCompletion (port : PciePort) (fn : Fn) (itag : BitVec 5)
  /-- PERST_ASSERTED (R326). -/
  | perstAsserted (port : PciePort)
  /-- PERST_RELEASED (R325). -/
  | perstReleased (port : PciePort)
  /-- HOT_RESET (R326). -/
  | hotReset (port : PciePort)
  /-- FLR (R326). -/
  | flr (port : PciePort) (fn : Fn)
  /-- HIF_LINK_DOWN (R328). -/
  | hifLinkDown (port : PciePort)
  /-- LINK_TRAINED (R309). -/
  | linkTrained (port : PciePort) (rate : Nat) (width : Nat)
  /-- MPS_WRITE (R309). -/
  | mpsWrite (port : PciePort) (fn : Fn) (cfg : FnCfg)
  /-- PMCSR_D3HOT (R323). -/
  | pmcsrD3hot (port : PciePort) (fn : Fn) (pmeEn : Bool)
  /-- PMCSR_D0 (R323). -/
  | pmcsrD0 (port : PciePort) (fn : Fn) (pmeEn : Bool)
  /-- PME_TURN_OFF (R323). -/
  | pmeTurnOff (port : PciePort)
  /-- MSIX_UNMASK (R35). -/
  | msixUnmask (port : PciePort) (fn : Fn) (vector : Nat)
  /-- POISONED_REQUEST (R314). -/
  | poisonedRequest (port : PciePort)
  /-- UNSUPPORTED_REQUEST (R314). -/
  | unsupportedRequest (port : PciePort) (kind : UrKind)
  /-- REGISTER_WRITE (R386). -/
  | registerWrite (src : Src) (fn : Fn) (off : BitVec 22) (size : Nat) (data : BitVec 64)
  /-- RC_REGISTER_READ (R6). -/
  | rcRegisterRead (src : Src) (off : BitVec 22)
  /-- LATCHED_PAIR_READ (R37). -/
  | latchedPairRead (src : Src) (off : BitVec 22)
  /-- CCH_WM_APPLY (R87). -/
  | cchWmApply (src : Src)
  /-- SEQ_PACE_APPLY (R139). -/
  | seqPaceApply (src : Src)
  /-- DMV_PACE_APPLY (R263). -/
  | dmvPaceApply (src : Src)
  /-- ROP_WIN_APPLY (R307). -/
  | ropWinApply (src : Src)
  /-- QE_ADM_APPLY (R209). -/
  | qeAdmApply (port : PciePort)
  /-- ERRLOG_CLEAR (R396). -/
  | errlogClear (src : Src)
  /-- GLB_ALERT_CLEAR (R395). -/
  | glbAlertClear (src : Src) (mask : BitVec 4)
  /-- OVR_STAT_CLEAR (R37). -/
  | ovrStatClear (src : Src) (mask : BitVec 5)
  /-- EVR_CURSOR_WRITE (R379). -/
  | evrCursorWrite (src : Src) (high : Bool) (size : Nat) (data : BitVec 64)
  /-- INJECT_ARM (R401). -/
  | injectArm
  /-- INJECT_DISARM (R401). -/
  | injectDisarm
  /-- MCTP_BAR_READ (R393). -/
  | mctpBarRead (size : BitVec 8) (off : BitVec 32)
  /-- MCTP_BAR_WRITE (R393). -/
  | mctpBarWrite (size : BitVec 8) (off : BitVec 32) (data : BitVec 64)
  /-- MEMBER_COMPLETION (R273). -/
  | memberCompletion (id : Nat) (status : MStatus) (payload : MPayload)
  /-- MEMBER_TIMEOUT (R274). -/
  | memberTimeout (id : Nat)
  /-- RDMA_QP_ERROR (R274). -/
  | rdmaQpError (member : Nat) (port : EthPort)
  /-- KEEP_ALIVE_FAILURE (R274). -/
  | keepAliveFailure (member : Nat) (port : EthPort)
  /-- PATH_RECONNECT (R275). -/
  | pathReconnect (member : Nat) (port : EthPort) (ok : Bool)
  /-- MEMBER_RECONN_EXPIRY (R275). -/
  | memberReconnExpiry (member : Nat)
  /-- LABEL_READ_POLL (R275). -/
  | labelReadPoll (member : Nat)
  /-- MISSING_TIMER_EXPIRY (R119). -/
  | missingTimerExpiry (pool : BitVec 16) (idx : Nat)
  /-- SPINUP_LIMIT (R283). -/
  | spinupLimit (pool : BitVec 16) (idx : Nat)
  /-- CNP_RECEIVED (R282). -/
  | cnpReceived (member : Nat) (port : EthPort) (atUs : Nat)
  /-- CE_FRAME_RECEIVED (R282). -/
  | ceFrameReceived (member : Nat) (port : EthPort) (atUs : Nat)
  /-- CC_TIMER (R282). -/
  | ccTimer (member : Nat) (port : EthPort) (atUs : Nat)
  /-- PORT_LINK_DOWN (R292). -/
  | portLinkDown (port : EthPort)
  /-- PORT_LINK_UP (R264). -/
  | portLinkUp (port : EthPort)
  /-- ANNOUNCE (R290). -/
  | announce (h : FrameHdr) (serial : BitVec 128) (period : BitVec 3) (state : BitVec 8) (ips : List (BitVec 128))
  /-- HEARTBEAT (R293). -/
  | heartbeat (h : FrameHdr) (path : Nat) (p : HbPayload)
  /-- TIME_SYNC (R294). -/
  | timeSync (h : FrameHdr) (path : Nat) (t1 t2 : Nat) (refAddr : BitVec 12) (pps : Bool)
  /-- DELAY_REQ (R294). -/
  | delayReq (h : FrameHdr) (path : Nat) (t4 : Nat)
  /-- DELAY_RESP (R294). -/
  | delayResp (h : FrameHdr) (path : Nat) (t4 : Nat)
  /-- BELAY_SETUP (R297). -/
  | belaySetup (h : FrameHdr) (p : BelaySetupPayload)
  /-- BELAY_BLOCK (R298). -/
  | belayBlock (h : FrameHdr) (slot : BitVec 64) (blk : Block)
  /-- BELAY_RECORDS (R94). -/
  | belayRecords (h : FrameHdr) (first : BitVec 32) (recs : List JRec)
  /-- BELAY_SEAL (R96). -/
  | belaySeal (h : FrameHdr) (r : SealRec)
  /-- BELAY_CONFIRM (R96). -/
  | belayConfirm (h : FrameHdr) (tick : BitVec 64)
  /-- SEAL_NAK (R97). -/
  | sealNak (h : FrameHdr) (tick : BitVec 64)
  /-- WIN_NAK (R299). -/
  | winNak (h : FrameHdr) (seq : BitVec 32) (slot : BitVec 64)
  /-- FWD_CMD (R246). -/
  | fwdCmd (h : FrameHdr) (fid : BitVec 64) (port : PciePort) (qid : BitVec 16) (tag : BitVec 16) (entry : List RingUnit)
  /-- FWD_DATA (R302). -/
  | fwdData (h : FrameHdr) (fid : BitVec 64) (off : Nat) (blocks : List Block)
  /-- FWD_REPLY (R247). -/
  | fwdReply (h : FrameHdr) (fid : BitVec 64) (status : BitVec 16) (detail : BitVec 16) (result : BitVec 64) (acc : BitVec 32)
  /-- DIR_CLAIM (R301). -/
  | dirClaim (h : FrameHdr) (vol : BitVec 12) (claimant : BitVec 12) (answer : Option Bool)
  /-- DIR_UPDATE (R301). -/
  | dirUpdate (h : FrameHdr) (es : List DirEntry)
  /-- YIELD (R305). -/
  | yieldFrame (h : FrameHdr) (pools : List (BitVec 16)) (lastSealed : BitVec 64)
  /-- TAKEOVER_ACK (R305). -/
  | takeoverAck (h : FrameHdr) (pools : List (BitVec 16))
  /-- YIELD_SEND (R305). -/
  | yieldSend
  /-- ANNOUNCE_SEND (R290). -/
  | announceSend
  /-- TIME_SYNC_SEND (R294). -/
  | timeSyncSend
  /-- DELAY_REQ_SEND (R294). -/
  | delayReqSend
  /-- FRAME_RETX_TIMEOUT (R289). -/
  | frameRetxTimeout (peer : BitVec 12) (seq : BitVec 32)
  /-- PEER_LOST_TIMEOUT (R291). -/
  | peerLostTimeout (peer : BitVec 12)
  /-- PATH_DOWN_TIMEOUT (R292). -/
  | pathDownTimeout (peer : BitVec 12) (path : Nat)
  /-- PATH_UP (R292). -/
  | pathUp (peer : BitVec 12) (path : Nat)
  /-- PARTNER_SUSPECT (R303). -/
  | partnerSuspect
  /-- PARTNER_CHECK (R303). -/
  | partnerCheck
  /-- PARTNER_CHECK_RETRY (R303). -/
  | partnerCheckRetry
  /-- BELAY_SETUP_RETRY (R297). -/
  | belaySetupRetry
  /-- SEAL_NAK_TIMEOUT (R97). -/
  | sealNakTimeout (tick : BitVec 64)
  /-- YIELD_TIMEOUT (R305). -/
  | yieldTimeout
  /-- HANDBACK_TIMER (R306). -/
  | handbackTimer (pool : BitVec 16)
  /-- TIMING_MESSAGES_MISSING (R24). -/
  | timingMessagesMissing
  /-- CQ_STALLED (R245). -/
  | cqStalled (q : RingRef)
  /-- ROPE_JOIN_EXPIRY (R20). -/
  | ropeJoinExpiry
  /-- MEMBER_DISCOVERY_EXPIRY (R337). -/
  | memberDiscoveryExpiry
  /-- TRUST_BOOT_DONE (R352). -/
  | trustBootDone (body block hdr : List Byte) (evrHeaderValid : Bool)
  /-- CONFIG_LOAD_DONE (R338). -/
  | configLoadDone (img : SignedObj)
  /-- MEMORY_INIT_DONE (R337). -/
  | memoryInitDone (hbmOk : Bool)
  /-- VAULT_RECOVERY_DONE (R371). -/
  | vaultRecoveryDone (ph1Ok ph2Ok : Bool)
  /-- ROPE_JOIN_DONE (R337). -/
  | ropeJoinDone
  /-- MEMBER_DISCOVERY_DONE (R337). -/
  | memberDiscoveryDone
  /-- POOL_ASSEMBLY_DONE (R337). -/
  | poolAssemblyDone (reads : List PoolRead)
  /-- JOURNAL_RECONCILE_DONE (R340). -/
  | journalReconcileDone (infos : List ReconInfo)
  /-- RESYNC_COMPLETE (R339). -/
  | resyncComplete (pool : BitVec 16)
  /-- TRIAL_COMMIT (R345). -/
  | trialCommit
  /-- QUIESCE_DONE (R369). -/
  | quiesceDone
  /-- PHASE1_WRITTEN (R369). -/
  | phase1Written (ms : Nat) (w : PhaseWrite)
  /-- PHASE2_WRITTEN (R369). -/
  | phase2Written (ms : Nat) (w : PhaseWrite)
  /-- BIVOUAC_CLOSE (R369). -/
  | bivouacClose
  /-- VAULT_ERASE_DONE (R365). -/
  | vaultEraseDone (ok : Bool) (die : Nat)
  /-- VAULT_PROGRAM_FAIL (R365). -/
  | vaultProgramFail (die : Nat)
  /-- TRU_SIGNATURE_DONE (R358). -/
  | truSignatureDone (persistOk recordOk : Bool)
  /-- EVR_LOG_PAGE_WRITE (R377). -/
  | evrLogPageWrite
  /-- EVR_NOR_HALF_WRITE (R377). -/
  | evrNorHalfWrite (ok : Bool)
  /-- PME_STATUS_CLEAR (R324). -/
  | pmeStatusClear (port : PciePort) (fn : Fn) (pmeEn : Bool)
  /-- REQUEST_FIRMWARE_DATA (R343). -/
  | requestFirmwareData (obj : ObjKind) (off : BitVec 32) (data : List Byte)
  /-- PFC_PAUSE_FRAME (R265). -/
  | pfcPauseFrame (port : EthPort) (prio : BitVec 3) (quanta : BitVec 16)
  /-- TAP_INSTRUCTION_LOAD (R433). -/
  | tapInstructionLoad (ir : BitVec 8)
  deriving DecidableEq, Repr

end Sys2Proof
end

