-- ==== Sys2Proof/Machine/Bytes.lean ====
section
/-!
DEFINITION. Byte order (R4) and the checksums of R39: the CRC-32C of footers, records and frames, and the 64-bit guard.
-/
namespace Sys2Proof.Machine

/-- The n low bytes of a number, lowest first (R4). -/
def leBytes : Nat → Nat → List Byte
  | 0, _ => []
  | n + 1, v => BitVec.ofNat 8 v :: leBytes n (v / 256)

/-- The n low bytes of a number, highest first (R39: bytes 0x00 to 0x0F of a footer). -/
def beBytes (n v : Nat) : List Byte := (leBytes n v).reverse

/-- The number that bytes spell, lowest first. -/
def ofLe : List Byte → Nat
  | [] => 0
  | b :: bs => b.toNat + 256 * ofLe bs

/-- The bytes of a block's data. -/
def dataBytes (d : BlockData) : List Byte := leBytes 4096 d.toNat

/-- The data that bytes spell; missing bytes are zero. -/
def dataOf (bs : List Byte) : BlockData := BitVec.ofNat 32768 (ofLe (bs.take 4096))

/-- Eight shifts of a reflected CRC register. -/
def crcShift {w : Nat} (poly : BitVec w) : Nat → BitVec w → BitVec w
  | 0, c => c
  | n + 1, c => crcShift poly n (if c.getLsbD 0 then (c >>> 1) ^^^ poly else c >>> 1)

/-- A reflected CRC with all-ones start and final inversion. -/
def crc {w : Nat} (poly : BitVec w) (bs : List Byte) : BitVec w :=
  ~~~ (bs.foldl (fun c b => crcShift poly 8 (c ^^^ b.setWidth w)) (BitVec.allOnes w))

/-- CRC-32C (R39): 0x1EDC_6F41 reflected. -/
def crc32c (bs : List Byte) : BitVec 32 := crc 0x82F63B78 bs

/-- The 64b guard (R39): 0xAD93_D235_94C9_3659 reflected, as the NVM Command Set specification defines it. PRESUMED: its reflection,
start and final inversion are that specification's. -/
def guard64 (d : BlockData) : BitVec 64 := crc 0x9A6C9329AC4BC9B5 (dataBytes d)

/-- Bytes 0x00 to 0x0F of a footer, highest byte first, as the NVMe protection-information format fixes them (R4, R39): guard, application tag (role above
the volume id), reference tag. -/
def footHead (f : Footer) : List Byte := beBytes 8 f.guard.toNat ++ beBytes 2 (f.role ++ f.vol).toNat ++ beBytes 6 f.refTag.toNat

/-- Bytes 0x10 to 0x3B of a footer. -/
def footMid (f : Footer) : List Byte :=
  leBytes 16 f.tag.toNat ++ leBytes 7 f.gen.toNat ++ leBytes 1 f.flags.toNat ++ leBytes 8 f.vbn.toNat ++ leBytes 2 f.layout.toNat
    ++ leBytes 2 f.strip.toNat ++ leBytes 8 f.stripeGen.toNat

/-- The CRC a footer ought to carry. -/
def footCrc (f : Footer) : BitVec 32 := crc32c (footMid f)

/-- The 64 bytes of a footer (R39). -/
def footBytes (f : Footer) : List Byte := footHead f ++ footMid f ++ leBytes 4 f.crc.toNat

/-- The 4,160 bytes of a block as a member holds it (R8). -/
def blockBytes (b : Block) : List Byte := dataBytes b.data ++ footBytes b.foot

/-- The bytes of a text. -/
def ascii (t : String) : List Byte := t.toList.map fun c => BitVec.ofNat 8 c.toNat

/-- Appends the CRC-32C that ends a 32-byte record. -/
def withCrc (bs : List Byte) : List Byte := bs ++ leBytes 4 (crc32c bs).toNat

/-- Bytes 0x00 to 0x1B of a seal record (R91). -/
def sealHead (r : SealRec) : List Byte :=
  leBytes 1 3 ++ leBytes 3 0 ++ leBytes 4 r.first.toNat ++ leBytes 4 r.count.toNat ++ leBytes 8 r.tick.toNat ++ leBytes 4 r.crc.toNat
    ++ leBytes 4 r.blocks.toNat

/-- A seal record with its own CRC (R91). -/
def sealClosed (r : SealRec) : SealRec := { r with own := crc32c (sealHead r) }

/-- Does a seal record pass its own CRC? -/
def sealOwnOk (r : SealRec) : Bool := decide (r.own = crc32c (sealHead r))

/-- The 32 bytes of a journal record (R89, R90, R91). -/
def jrecBytes (r : JRec) : List Byte :=
  match r with
  | .intent r => withCrc (leBytes 1 1 ++ leBytes 1 r.flags.toNat ++ leBytes 2 r.vol.toNat ++ leBytes 4 r.slot.toNat ++ leBytes 8 r.vbn.toNat
      ++ leBytes 7 r.gen.toNat ++ leBytes 1 (r.count - 1) ++ leBytes 4 r.acc.toNat)
  | .retire nums => withCrc (leBytes 1 2 ++ leBytes 1 nums.length ++ leBytes 2 0
      ++ ((nums ++ List.replicate (6 - nums.length) 0).flatMap fun (n : BitVec 32) => leBytes 4 n.toNat))
  | .sealed r => sealHead r ++ leBytes 4 r.own.toNat

/-- The records CRC of a seal: over the 32-byte records of the tick, in record order (R91). -/
def recsCrc (rs : List JRec) : BitVec 32 := crc32c (rs.flatMap jrecBytes)

end Sys2Proof.Machine
end

