-- ==== Sys2Proof/Machine/Crypto.lean ====
section
/-!
DEFINITION. AES-256, CMAC (NIST SP 800-38B), the counter-mode key derivation of R158, key wrap with padding (NIST SP 800-38F) for
32-byte secrets (R159, R160), SHA-256, and the fixity tag of R156. Byte strings run from byte 0; a 256-bit key's byte i is bits
[8i+7:8i] (R4).
-/
namespace Sys2Proof.Machine

/-! ### AES-256 -/

/-- Multiplication by 2 in the field of AES, polynomial 0x11B. -/
def aesX (a : Byte) : Byte := if a.getLsbD 7 then (a <<< 1) ^^^ 0x1B else a <<< 1

/-- The product in the field of AES. -/
def aesMul (a b : Byte) : Byte := (List.range 8).foldr (fun i r => (if b.getLsbD i then a else 0) ^^^ aesX r) 0

/-- The inverse in the field of AES: a^254. -/
def aesInv (a : Byte) : Byte :=
  let a2 := aesMul a a; let a4 := aesMul a2 a2; let a8 := aesMul a4 a4; let a16 := aesMul a8 a8
  let a32 := aesMul a16 a16; let a64 := aesMul a32 a32; let a128 := aesMul a64 a64
  aesMul a128 (aesMul a64 (aesMul a32 (aesMul a16 (aesMul a8 (aesMul a4 a2)))))

/-- The S-box at one byte: inverse and affine map. -/
def aesSub (a : Byte) : Byte :=
  let b := aesInv a
  b ^^^ b.rotateLeft 1 ^^^ b.rotateLeft 2 ^^^ b.rotateLeft 3 ^^^ b.rotateLeft 4 ^^^ 0x63

/-- The S-box. -/
def aesBox : Array Byte := (Array.range 256).map fun i => aesSub (BitVec.ofNat 8 i)

/-- The inverse S-box. -/
def aesBoxInv : Array Byte :=
  (Array.range 256).foldl (fun t i => t.set! (aesSub (BitVec.ofNat 8 i)).toNat (BitVec.ofNat 8 i)) (Array.replicate 256 0)

/-- The S-box on a byte. -/
def sub (b : Byte) : Byte := aesBox.getD b.toNat 0

/-- The sum of two byte strings. -/
def xorBytes (a b : List Byte) : List Byte := List.zipWith (· ^^^ ·) a b

/-- Round constant number i, from 1. -/
def rcon (i : Nat) : Byte := (List.range (i - 1)).foldl (fun c _ => aesX c) 1

/-- Word i of the key schedule appended to the words before it. -/
def keyWord (ws : Array (List Byte)) (i : Nat) : Array (List Byte) :=
  let p := ws.getD (i - 1) []
  let t :=
    if i % 8 = 0 then
      xorBytes ((p.drop 1 ++ p.take 1).map sub) [rcon (i / 8), 0, 0, 0]
    else if i % 8 = 4 then p.map sub
    else p
  ws.push (xorBytes (ws.getD (i - 8) []) t)

/-- The fifteen round keys of a 32-byte key. -/
def roundKeys (key : List Byte) : List (List Byte) :=
  let w0 := ((List.range 8).map fun i => (key.drop (4 * i)).take 4).toArray
  let ws := (List.range 52).foldl (fun ws i => keyWord ws (i + 8)) w0
  (List.range 15).map fun r => (List.range 4).flatMap fun j => ws.getD (4 * r + j) []

/-- The bytes of a state taken in a given order. -/
def permBytes (ix : List Nat) (st : List Byte) : List Byte := ix.map fun i => st.getD i 0

/-- ShiftRows: byte r + 4c comes from column c + r. -/
def shiftIx : List Nat := (List.range 16).map fun i => i % 4 + 4 * ((i / 4 + i % 4) % 4)

/-- Its inverse. -/
def unshiftIx : List Nat := (List.range 16).map fun i => i % 4 + 4 * ((i / 4 + 4 - i % 4) % 4)

/-- MixColumns with the coefficients of its first row. -/
def mixCols (co : List Byte) (st : List Byte) : List Byte :=
  (List.range 16).map fun i =>
    (List.range 4).foldl (fun acc j => acc ^^^ aesMul (st.getD (4 * (i / 4) + (i % 4 + j) % 4) 0) (co.getD j 0)) 0

/-- Encrypts one block under round keys. -/
def aesEncWith (rks : List (List Byte)) (blk : List Byte) : List Byte :=
  let st := xorBytes blk (rks.headD [])
  let st := (rks.drop 1).dropLast.foldl (fun st k => xorBytes (mixCols [2, 3, 1, 1] (permBytes shiftIx (st.map sub))) k) st
  xorBytes (permBytes shiftIx (st.map sub)) (rks.getLastD [])

/-- Decrypts one block under round keys. -/
def aesDecWith (rks : List (List Byte)) (blk : List Byte) : List Byte :=
  let unsub := fun (st : List Byte) => (permBytes unshiftIx st).map fun b => aesBoxInv.getD b.toNat 0
  let st := unsub (xorBytes blk (rks.getLastD []))
  let st := (rks.drop 1).dropLast.reverse.foldl (fun st k => unsub (mixCols [14, 11, 13, 9] (xorBytes st k))) st
  xorBytes st (rks.headD [])

/-! ### CMAC -/

/-- Doubling in GF(2^128) of a block taken highest bit first. -/
def cmacDouble (b : List Byte) : List Byte :=
  let v : BitVec 128 := BitVec.ofNat 128 (ofLe b.reverse)
  let v' := if v.getLsbD 127 then (v <<< 1) ^^^ 0x87 else v <<< 1
  beBytes 16 v'.toNat

/-- Chains full blocks through CMAC's cipher. -/
def cmacChain (rks : List (List Byte)) : Nat → List Byte → List Byte → List Byte
  | 0, c, _ => c
  | n + 1, c, m => cmacChain rks n (aesEncWith rks (xorBytes c (m.take 16))) (m.drop 16)

/-- The last step of CMAC over the held bytes, 1 to 16 of them (0 only for the empty message). -/
def cmacLast (rks : List (List Byte)) (c last : List Byte) : List Byte :=
  let k1 := cmacDouble (aesEncWith rks (List.replicate 16 0))
  let fin :=
    if last.length = 16 then xorBytes last k1
    else xorBytes (last ++ 0x80 :: List.replicate (15 - last.length) 0) (cmacDouble k1)
  aesEncWith rks (xorBytes c fin)

/-- AES-256-CMAC of a message. -/
def cmac (key msg : List Byte) : List Byte :=
  let rks := roundKeys key
  let full := (msg.length - 1) / 16
  cmacLast rks (cmacChain rks full (List.replicate 16 0) msg) (msg.drop (16 * full))

/-- The bytes of a 256-bit key. -/
def keyBytes (k : BitVec 256) : List Byte := leBytes 32 k.toNat

/-- A 256-bit value from its bytes. -/
def keyOf (bs : List Byte) : BitVec 256 := BitVec.ofNat 256 (ofLe bs)

/-- A 128-bit value from its bytes. -/
def tagOf (bs : List Byte) : BitVec 128 := BitVec.ofNat 128 (ofLe bs)

/-! ### Keys (R158) -/

/-- The label of block keys: "LNSL-FIX-V". -/
def labelV : List Byte := [0x4C, 0x4E, 0x53, 0x4C, 0x2D, 0x46, 0x49, 0x58, 0x2D, 0x56]

/-- The label of object-seal keys: "LNSL-FIX-S". -/
def labelS : List Byte := [0x4C, 0x4E, 0x53, 0x4C, 0x2D, 0x46, 0x49, 0x58, 0x2D, 0x53]

/-- The key-derivation function of R158. -/
def kdf (key label ctx : List Byte) : List Byte :=
  let k := fun (i : Nat) => cmac key (leBytes 4 i ++ label ++ [0] ++ ctx ++ leBytes 4 256)
  k 1 ++ k 2

/-- K_v of a volume in the pool with this secret. -/
def volKey (secret : BitVec 256) (vol : BitVec 12) : List Byte := kdf (keyBytes secret) labelV (leBytes 2 vol.toNat ++ [0, 0])

/-- The object-seal key of a volume. -/
def sealKey (secret : BitVec 256) (vol : BitVec 12) : List Byte := kdf (keyBytes secret) labelS (leBytes 2 vol.toNat ++ [0, 0])

/-- The 32 bytes before the data in the message of R156. -/
def tagHead (vol : BitVec 12) (layout : Nat) (vbn : Nat) (gen : Nat) : List Byte :=
  [0x01, 0] ++ leBytes 2 vol.toNat ++ leBytes 2 layout ++ [0, 0] ++ leBytes 8 vbn ++ leBytes 7 gen ++ List.replicate 9 0

/-- The fixity tag of a block (R156): over zero data when it is ZERO-flagged (R41). -/
def fixTag (secret : BitVec 256) (vol : BitVec 12) (layout vbn gen : Nat) (zero : Bool) (d : BlockData) : BitVec 128 :=
  tagOf (cmac (volKey secret vol) (tagHead vol layout vbn gen ++ dataBytes (if zero then 0 else d)))

/-! ### Key wrap with padding, for 32-byte secrets -/

/-- One step of wrapping: A, and the semiblocks in order. -/
def wrapStep (rks : List (List Byte)) (n : Nat) (st : List Byte × List (List Byte)) (t : Nat) : List Byte × List (List Byte) :=
  let i := (t - 1) % n
  let b := aesEncWith rks (st.1 ++ st.2.getD i [])
  (xorBytes (b.take 8) (beBytes 8 t), st.2.set i (b.drop 8))

/-- One step of unwrapping. -/
def unwrapStep (rks : List (List Byte)) (n : Nat) (st : List Byte × List (List Byte)) (t : Nat) : List Byte × List (List Byte) :=
  let i := (t - 1) % n
  let b := aesDecWith rks (xorBytes st.1 (beBytes 8 t) ++ st.2.getD i [])
  (b.take 8, st.2.set i (b.drop 8))

/-- The value that checks an unwrapped 32-byte secret. -/
def kwpIcv : List Byte := [0xA6, 0x59, 0x59, 0xA6, 0, 0, 0, 32]

/-- Wraps a 32-byte secret under a key. -/
def kwpWrap (key secret : BitVec 256) : BitVec 320 :=
  let rks := roundKeys (keyBytes key)
  let p := keyBytes secret
  let (a, r) := (List.range 24).foldl (fun st t => wrapStep rks 4 st (t + 1)) (kwpIcv, (List.range 4).map fun i => (p.drop (8 * i)).take 8)
  BitVec.ofNat 320 (ofLe (a ++ r.flatten))

/-- Unwraps 40 bytes; none when the integrity check fails. -/
def kwpUnwrap (key : BitVec 256) (w : BitVec 320) : Option (BitVec 256) :=
  let rks := roundKeys (keyBytes key)
  let bs := leBytes 40 w.toNat
  let (a, r) := (List.range 24).foldl (fun st t => unwrapStep rks 4 st (24 - t))
    (bs.take 8, (List.range 4).map fun i => (bs.drop (8 + 8 * i)).take 8)
  if a = kwpIcv then some (keyOf r.flatten) else none

/-! ### SHA-256 -/

/-- The least n with n·n·n > v, less one, for the fractional bits of cube roots. -/
def iroot (k v : Nat) : Nat → Nat → Nat
  | 0, lo => lo
  | b + 1, lo => if (lo + 2 ^ b) ^ k ≤ v then iroot k v b (lo + 2 ^ b) else iroot k v b lo

/-- The first 64 primes. -/
def primes64 : List Nat := ((List.range 312).filter fun n => decide (n ≥ 2) && (List.range n).all fun d => decide (d < 2) || decide (n % d ≠ 0)).take 64

/-- The round constants: fractional bits of cube roots. -/
def shaK : Array (BitVec 32) := (primes64.map fun p => BitVec.ofNat 32 (iroot 3 (p * 2 ^ 96) 36 0)).toArray

/-- The initial hash: fractional bits of square roots. -/
def shaH0 : List (BitVec 32) := (primes64.take 8).map fun p => BitVec.ofNat 32 (iroot 2 (p * 2 ^ 64) 38 0)

/-- One word of the message schedule. -/
def shaWord (w : Array (BitVec 32)) (i : Nat) : Array (BitVec 32) :=
  let a := w.getD (i - 15) 0; let b := w.getD (i - 2) 0
  let s0 := a.rotateRight 7 ^^^ a.rotateRight 18 ^^^ (a >>> 3)
  let s1 := b.rotateRight 17 ^^^ b.rotateRight 19 ^^^ (b >>> 10)
  w.push (w.getD (i - 16) 0 + s0 + w.getD (i - 7) 0 + s1)

/-- One round. -/
def shaRound (w : Array (BitVec 32)) (h : List (BitVec 32)) (i : Nat) : List (BitVec 32) :=
  match h with
  | [a, b, c, d, e, f, g, hh] =>
    let t1 := hh + (e.rotateRight 6 ^^^ e.rotateRight 11 ^^^ e.rotateRight 25) + ((e &&& f) ^^^ (~~~ e &&& g)) + shaK.getD i 0 + w.getD i 0
    let t2 := (a.rotateRight 2 ^^^ a.rotateRight 13 ^^^ a.rotateRight 22) + ((a &&& b) ^^^ (a &&& c) ^^^ (b &&& c))
    [t1 + t2, a, b, c, d + t1, e, f, g]
  | _ => h

/-- One 64-byte block. -/
def shaBlock (h : List (BitVec 32)) (blk : List Byte) : List (BitVec 32) :=
  let w0 := ((List.range 16).map fun i => BitVec.ofNat 32 (ofLe ((blk.drop (4 * i)).take 4).reverse)).toArray
  let w := (List.range 48).foldl (fun w i => shaWord w (i + 16)) w0
  List.zipWith (· + ·) h ((List.range 64).foldl (shaRound w) h)

/-- All blocks of a padded message. -/
def shaBlocks : Nat → List (BitVec 32) → List Byte → List (BitVec 32)
  | 0, h, _ => h
  | n + 1, h, m => shaBlocks n (shaBlock h (m.take 64)) (m.drop 64)

/-- SHA-256; byte i of the digest is bits [8i+7:8i]. -/
def sha256 (m : List Byte) : BitVec 256 :=
  let padLen := (119 - m.length % 64) % 64
  let p := m ++ 0x80 :: List.replicate padLen 0 ++ beBytes 8 (8 * m.length)
  let h := shaBlocks (p.length / 64) shaH0 p
  keyOf (h.flatMap fun (x : BitVec 32) => beBytes 4 x.toNat)

end Sys2Proof.Machine
end

