-- ==== Sys2Proof/Machine/Gf.lean ====
section
/-!
DEFINITION. The field GF(2^8) with polynomial 0x11D, vectors and elimination over it, the word code of R44, and the product of a
coefficient with a block.
-/
namespace Sys2Proof.Machine

/-- Multiplication by α = 0x02 modulo 0x11D. -/
def xtime (a : Byte) : Byte := if a.getLsbD 7 then (a <<< 1) ^^^ 0x1D else a <<< 1

/-- The product in GF(2^8). -/
def gmul (a b : Byte) : Byte := (List.range 8).foldr (fun i r => (if b.getLsbD i then a else 0) ^^^ xtime r) 0

/-- The inverse in GF(2^8): a^254 (zero for zero). -/
def ginv (a : Byte) : Byte :=
  let a2 := gmul a a; let a4 := gmul a2 a2; let a8 := gmul a4 a4; let a16 := gmul a8 a8
  let a32 := gmul a16 a16; let a64 := gmul a32 a32; let a128 := gmul a64 a64
  gmul a128 (gmul a64 (gmul a32 (gmul a16 (gmul a8 (gmul a4 a2)))))

/-- The coefficient a(i, j) of R49: y_j · (x_i ⊕ y_j)^-1. -/
def cauchy (m i j : Nat) : Byte := gmul (BitVec.ofNat 8 (m + j)) (ginv (BitVec.ofNat 8 i ^^^ BitVec.ofNat 8 (m + j)))

/-- Every byte of a block multiplied by α. -/
def xtimeData (d : BlockData) : BlockData :=
  let hi : BlockData := BitVec.replicate 4096 (0x80 : Byte)
  let one : BlockData := (d &&& hi) >>> 7
  ((d &&& ~~~ hi) <<< 1) ^^^ (one ^^^ (one <<< 2) ^^^ (one <<< 3) ^^^ (one <<< 4))

/-- Every byte of a block multiplied by a coefficient. -/
def mulData (c : Byte) (d : BlockData) : BlockData :=
  (List.range 8).foldr (fun i r => (if c.getLsbD i then d else 0) ^^^ xtimeData r) 0

/-! ### Vectors over the field -/

/-- A row vector. -/
abbrev GVec := List Byte

/-- The sum of two vectors of one length. -/
def vadd (a b : GVec) : GVec := List.zipWith (· ^^^ ·) a b

/-- A vector times a coefficient. -/
def vscale (c : Byte) (a : GVec) : GVec := a.map (gmul c)

/-- The unit vector of length n at place i. -/
def vunit (n i : Nat) : GVec := (List.range n).map fun j => if j = i then 1 else 0

/-- Index of the first non-zero entry. -/
def vpivot : GVec → Option Nat
  | [] => none
  | b :: r => if b = 0 then (vpivot r).map (· + 1) else some 0

/-- A reduced row: its pivot, the row scaled to 1 there, and how it is made of the rows given (their numbers and coefficients). -/
structure GRow where
  piv  : Nat
  vec  : GVec
  from_ : List (Nat × Byte)
  deriving DecidableEq, Repr

/-- Adds c times a combination to another. -/
def combAdd (a : List (Nat × Byte)) (c : Byte) (b : List (Nat × Byte)) : List (Nat × Byte) :=
  b.foldl (fun acc e =>
    match acc.find? (·.1 == e.1) with
    | some _ => acc.map fun x => if x.1 = e.1 then (x.1, x.2 ^^^ gmul c e.2) else x
    | none => acc ++ [(e.1, gmul c e.2)]) a

/-- Takes the rows held out of a vector: what is left, and the combination of source rows that it equals. -/
def reduceBy (basis : List GRow) (v : GVec) (comb : List (Nat × Byte)) : GVec × List (Nat × Byte) :=
  basis.foldl (fun (v, comb) r =>
    let c := v.getD r.piv 0
    if c = 0 then (v, comb) else (vadd v (vscale c r.vec), combAdd comb c r.from_)) (v, comb)

/-- Offers row number n to a basis: the new basis when it adds rank. -/
def basisAdd (basis : List GRow) (n : Nat) (v : GVec) : Option (List GRow) :=
  let (v', comb) := reduceBy basis v [(n, 1)]
  match vpivot v' with
  | none => none
  | some p =>
    let c := ginv (v'.getD p 0)
    let row : GRow := ⟨p, vscale c v', comb.map fun e => (e.1, gmul c e.2)⟩
    some (basis ++ [row])

/-- The rows of a list that add rank, in the order given, until `k` are chosen; with the basis they span. -/
def chooseRows (k : Nat) (rows : List (Nat × GVec)) : List Nat × List GRow :=
  rows.foldl (fun (ch, basis) (n, v) =>
    if ch.length ≥ k then (ch, basis)
    else match basisAdd basis n v with
      | some b => (ch ++ [n], b)
      | none => (ch, basis)) ([], [])

/-- The combination of chosen rows that gives a vector, none when it lies outside their span. -/
def solveFor (basis : List GRow) (v : GVec) : Option (List (Nat × Byte)) :=
  let (v', comb) := reduceBy basis v []
  if v'.all (· = 0) then some comb else none

/-- The linear combination of blocks that a combination names. -/
def combine (comb : List (Nat × Byte)) (blk : Nat → BlockData) : BlockData :=
  comb.foldl (fun acc e => if e.2 = 0 then acc else acc ^^^ mulData e.2 (blk e.1)) 0

/-! ### The word code (R44) -/

/-- The generator (x ⊕ 1)(x ⊕ α)(x ⊕ α²)(x ⊕ α³), coefficients of x^0 to x^3; that of x^4 is 1. -/
def wordGen : GVec :=
  [1, 2, 4, 8].foldl (fun (g : GVec) (r : Byte) => vadd (0 :: g) (vscale r g ++ [0])) [1]

/-- The remainder after one more data symbol, highest first. -/
def wordShift (rem : GVec) (d : Byte) : GVec :=
  let f := rem.getD 3 0 ^^^ d
  vadd (0 :: rem.take 3) (vscale f (wordGen.take 4))

/-- The four check symbols of 32 data symbols. -/
def wordCheck (data : GVec) : GVec := data.reverse.foldl wordShift [0, 0, 0, 0]

/-- A word of 36 symbols: check symbols 0 to 3, then data symbols 0 to 31 (coefficients of x^0 to x^35). -/
def wordEncode (data : GVec) : GVec := wordCheck data ++ data

/-- Symbols in which two words differ. -/
def wordDist (a b : GVec) : Nat := ((List.zip a b).filter fun p => p.1 ≠ p.2).length

/-- Is the word a codeword? -/
def isCodeword (w : GVec) : Bool := w == wordEncode (w.drop 4)

/-- What the decoder makes of a word (R14, R44): the word with up to two symbols put right, or none when it is flagged. The error
values of a pair of places follow from the first two syndromes; the other two confirm them. -/
def wordDecode (w : GVec) : Option GVec :=
  if isCodeword w then some w
  else
    let pw := fun (e : Nat) => (List.range (e % 255)).foldl (fun c _ => xtime c) (1 : Byte)
    let syn := fun (i : Nat) => (List.range 36).foldl (fun acc j => acc ^^^ gmul (w.getD j 0) (pw (i * j))) (0 : Byte)
    let fix := fun (j : Nat) (e : Byte) (w : GVec) => w.set j (w.getD j 0 ^^^ e)
    let one := (List.range 36).findSome? fun j => let w' := fix j (syn 0) w; if isCodeword w' then some w' else none
    match one with
    | some w' => some w'
    | none => (List.range 36).findSome? fun i => (List.range i).findSome? fun j =>
        -- e_i + e_j = S0 and e_i α^i + e_j α^j = S1
        let ei := gmul (syn 1 ^^^ gmul (syn 0) (pw j)) (ginv (pw i ^^^ pw j))
        let w' := fix i ei (fix j (syn 0 ^^^ ei) w)
        if isCodeword w' then some w' else none

end Sys2Proof.Machine
end

