-- ==== Sys2Proof/Machine/Fields.lean ====
section
/-!
DEFINITION. The register fields of the unit pages and the global page, one name per field of the register tables of the spec
(R37, R65, R87, R116, R139, R155, R182, R209, R248, R249, R263, R285, R307, R330, R346, R363, R373, R384, R394, R396, R405),
and the event codes of R383. The recorder window of R379 is held by EVR itself.
-/
namespace Sys2Proof.Machine

/-- A register field, named as its table names it. -/
inductive Fld where
  | tckNowLoNs  -- TCK_NOW_LO.NS (R37)
  | tckNowHiNs  -- TCK_NOW_HI.NS (R37)
  | tckEdgeLoN  -- TCK_EDGE_LO.N (R37)
  | tckEdgeHiN  -- TCK_EDGE_HI.N (R37)
  | tckCfgPeriod  -- TCK_CFG.PERIOD (R37)
  | tckCfgPpsEn  -- TCK_CFG.PPS_EN (R37)
  | tckCfgPpsOutEn  -- TCK_CFG.PPS_OUT_EN (R37)
  | tckStatLock  -- TCK_STAT.LOCK (R37)
  | tckStatIsRef  -- TCK_STAT.IS_REF (R37)
  | tckStatPpsLock  -- TCK_STAT.PPS_LOCK (R37)
  | tckStatRefAddr  -- TCK_STAT.REF_ADDR (R37)
  | tckOffsetPs  -- TCK_OFFSET.PS (R37)
  | tckOvrCntN  -- TCK_OVR_CNT.N (R37)
  | tckOvrStatHost  -- TCK_OVR_STAT.HOST (R37)
  | tckOvrStatCod  -- TCK_OVR_STAT.COD (R37)
  | tckOvrStatFix  -- TCK_OVR_STAT.FIX (R37)
  | tckOvrStatMbr  -- TCK_OVR_STAT.MBR (R37)
  | tckOvrStatRope  -- TCK_OVR_STAT.ROPE (R37)
  | tckIrqDiv  -- TCK_IRQ.DIV (R37)
  | tckBudlim0Host  -- TCK_BUDLIM0.HOST (R37)
  | tckBudlim0Cod  -- TCK_BUDLIM0.COD (R37)
  | tckBudlim0Fix  -- TCK_BUDLIM0.FIX (R37)
  | tckBudlim0Mbr  -- TCK_BUDLIM0.MBR (R37)
  | tckBudlim1Rope  -- TCK_BUDLIM1.ROPE (R37)
  | tckTaiBaseLoSec  -- TCK_TAI_BASE_LO.SEC (R37)
  | tckTaiBaseHiSec  -- TCK_TAI_BASE_HI.SEC (R37)
  | codStatLaneOk  -- COD_STAT.LANE_OK (R65)
  | codSelfchkCntN  -- COD_SELFCHK_CNT.N (R65)
  | codLaneEnEn  -- COD_LANE_EN.EN (R65)
  | codFenceThrN  -- COD_FENCE_THR.N (R65)
  | codDecmatCntN  -- COD_DECMAT_CNT.N (R65)
  | cchPartDirtyGib  -- CCH_PART.DIRTY_GIB (R87)
  | cchPartBelayGib  -- CCH_PART.BELAY_GIB (R87)
  | cchPartMetaGib  -- CCH_PART.META_GIB (R87)
  | cchCleanSlotsN  -- CCH_CLEAN_SLOTS.N (R87)
  | cchDirtyUsedN  -- CCH_DIRTY_USED.N (R87)
  | cchWmHwm  -- CCH_WM.HWM (R87)
  | cchWmLwm  -- CCH_WM.LWM (R87)
  | cchWmStgHwm  -- CCH_WM_STG.HWM (R87)
  | cchWmStgLwm  -- CCH_WM_STG.LWM (R87)
  | cchWmApplyApply  -- CCH_WM_APPLY.APPLY (R87)
  | cchThrotStatOn  -- CCH_THROT_STAT.ON (R87)
  | cchThrotStatVols  -- CCH_THROT_STAT.VOLS (R87)
  | cchGatherUsedN  -- CCH_GATHER_USED.N (R87)
  | cchForcedCntN  -- CCH_FORCED_CNT.N (R87)
  | cchHoldDeferN  -- CCH_HOLD_DEFER.N (R87)
  | jnlStatBelay  -- JNL_STAT.BELAY (R116)
  | jnlStatVaultReady  -- JNL_STAT.VAULT_READY (R116)
  | jnlStatExposed  -- JNL_STAT.EXPOSED (R116)
  | jnlRingUsedN  -- JNL_RING_USED.N (R116)
  | jnlSealTickN  -- JNL_SEAL_TICK.N (R116)
  | jnlConfTickN  -- JNL_CONF_TICK.N (R116)
  | jnlRelocCntN  -- JNL_RELOC_CNT.N (R116)
  | jnlNakCntN  -- JNL_NAK_CNT.N (R116)
  | jnlBmQuietTicks  -- JNL_BM_QUIET.TICKS (R116)
  | jnlBmWritesN  -- JNL_BM_WRITES.N (R116)
  | seqStatRebuild  -- SEQ_STAT.REBUILD (R139)
  | seqStatCopyback  -- SEQ_STAT.COPYBACK (R139)
  | seqStatScrub  -- SEQ_STAT.SCRUB (R139)
  | seqStatCritRaise  -- SEQ_STAT.CRIT_RAISE (R139)
  | seqStatFloorHeld  -- SEQ_STAT.FLOOR_HELD (R139)
  | seqPaceFloor  -- SEQ_PACE.FLOOR (R139)
  | seqPaceCeil  -- SEQ_PACE.CEIL (R139)
  | seqPaceCrit  -- SEQ_PACE.CRIT (R139)
  | seqPaceStgFloor  -- SEQ_PACE_STG.FLOOR (R139)
  | seqPaceStgCeil  -- SEQ_PACE_STG.CEIL (R139)
  | seqPaceStgCrit  -- SEQ_PACE_STG.CRIT (R139)
  | seqPaceApplyApply  -- SEQ_PACE_APPLY.APPLY (R139)
  | seqPaceShareS  -- SEQ_PACE_SHARE.S (R139)
  | seqPaceLatTicks  -- SEQ_PACE_LAT.TICKS (R139)
  | seqMissLimitTicks  -- SEQ_MISS_LIMIT.TICKS (R139)
  | seqRebuiltCntN  -- SEQ_REBUILT_CNT.N (R139)
  | seqInplaceCntN  -- SEQ_INPLACE_CNT.N (R139)
  | seqLostUsedN  -- SEQ_LOST_USED.N (R139)
  | seqScrubFixCntN  -- SEQ_SCRUB_FIX_CNT.N (R139)
  | seqFrondStatState  -- SEQ_FROND_STAT.STATE (R155)
  | seqFrondStatVol  -- SEQ_FROND_STAT.VOL (R155)
  | seqFrondCurLoVbn  -- SEQ_FROND_CUR_LO.VBN (R155)
  | seqFrondCurHiVbn  -- SEQ_FROND_CUR_HI.VBN (R155)
  | seqFrondMarkedN  -- SEQ_FROND_MARKED.N (R155)
  | seqFrondTailN  -- SEQ_FROND_TAIL.N (R155)
  | seqFrondUnitsN  -- SEQ_FROND_UNITS.N (R155)
  | fixStatCores  -- FIX_STAT.CORES (R182)
  | fixStatKr  -- FIX_STAT.KR (R182)
  | fixStatKt  -- FIX_STAT.KT (R182)
  | fixFenced0Mask  -- FIX_FENCED0.MASK (R182)
  | fixFenced1Mask  -- FIX_FENCED1.MASK (R182)
  | fixFenced2Mask  -- FIX_FENCED2.MASK (R182)
  | fixDummyMax  -- FIX_DUMMY.MAX (R182)
  | fixFenceThrN  -- FIX_FENCE_THR.N (R182)
  | fixFaultCntN  -- FIX_FAULT_CNT.N (R182)
  | fixMismatchCntN  -- FIX_MISMATCH_CNT.N (R182)
  | fixRepairCntN  -- FIX_REPAIR_CNT.N (R182)
  | fixUnrecCntN  -- FIX_UNREC_CNT.N (R182)
  | fixSealOpenN  -- FIX_SEAL_OPEN.N (R182)
  | fixSealSavedN  -- FIX_SEAL_SAVED.N (R182)
  | fixGenStatLow  -- FIX_GEN_STAT.LOW (R182)
  | fixGenStatExh  -- FIX_GEN_STAT.EXH (R182)
  | qeStatFailStop  -- QE_STAT.FAIL_STOP (R209)
  | qeStatHalted  -- QE_STAT.HALTED (R209)
  | qeMalfQQid  -- QE_MALF_Q.QID (R209)
  | qeMalfQPort  -- QE_MALF_Q.PORT (R209)
  | qeMalfQCause  -- QE_MALF_Q.CAUSE (R209)
  | qeMalfIdxC  -- QE_MALF_IDX.C (R209)
  | qeMalfHdrLoB  -- QE_MALF_HDR_LO.B (R209)
  | qeMalfHdrHiB  -- QE_MALF_HDR_HI.B (R209)
  | qeDbIgnCntN  -- QE_DB_IGN_CNT.N (R209)
  | qeIllegalCntN  -- QE_ILLEGAL_CNT.N (R209)
  | qeFetchErrCntN  -- QE_FETCH_ERR_CNT.N (R209)
  | qeQselQid  -- QE_QSEL.QID (R209)
  | qeQselCq  -- QE_QSEL.CQ (R209)
  | qeQselPort  -- QE_QSEL.PORT (R209)
  | qeQstatState  -- QE_QSTAT.STATE (R209)
  | qeQstatPend  -- QE_QSTAT.PEND (R209)
  | qeQstatExp  -- QE_QSTAT.EXP (R209)
  | qeQidx0N  -- QE_QIDX0.N (R209)
  | qeQidx1N  -- QE_QIDX1.N (R209)
  | qeSqEnN  -- QE_SQ_EN.N (R209)
  | qeAdmSqLoAddr  -- QE_ADM_SQ_LO.ADDR (R209)
  | qeAdmSqHiAddr  -- QE_ADM_SQ_HI.ADDR (R209)
  | qeAdmCqLoAddr  -- QE_ADM_CQ_LO.ADDR (R209)
  | qeAdmCqHiAddr  -- QE_ADM_CQ_HI.ADDR (R209)
  | qeAdmHlLoAddr  -- QE_ADM_HL_LO.ADDR (R209)
  | qeAdmHlHiAddr  -- QE_ADM_HL_HI.ADDR (R209)
  | qeAdmDlLoAddr  -- QE_ADM_DL_LO.ADDR (R209)
  | qeAdmDlHiAddr  -- QE_ADM_DL_HI.ADDR (R209)
  | qeAdmSizeSqExp  -- QE_ADM_SIZE.SQ_EXP (R209)
  | qeAdmSizeCqExp  -- QE_ADM_SIZE.CQ_EXP (R209)
  | qeAdmSizeVec  -- QE_ADM_SIZE.VEC (R209)
  | qeAdmApplyApply  -- QE_ADM_APPLY.APPLY (R209)
  | ordLockUsedN  -- ORD_LOCK_USED.N (R248)
  | ordLockWaitN  -- ORD_LOCK_WAIT.N (R248)
  | ordAccLoN  -- ORD_ACC_LO.N (R248)
  | ordAccHiN  -- ORD_ACC_HI.N (R248)
  | ordFullCntN  -- ORD_FULL_CNT.N (R248)
  | ordAbortedCntN  -- ORD_ABORTED_CNT.N (R248)
  | ordLateCntN  -- ORD_LATE_CNT.N (R248)
  | ordNoabortCntN  -- ORD_NOABORT_CNT.N (R248)
  | ordFlushOpenN  -- ORD_FLUSH_OPEN.N (R248)
  | ordFwdOpenN  -- ORD_FWD_OPEN.N (R248)
  | qeOvfHeldN  -- QE_OVF_HELD.N (R249)
  | qeOvfWaitN  -- QE_OVF_WAIT.N (R249)
  | qeOvfCntN  -- QE_OVF_CNT.N (R249)
  | qeStallCntN  -- QE_STALL_CNT.N (R249)
  | qeCplDiscCntN  -- QE_CPL_DISC_CNT.N (R249)
  | dmvCfgMode  -- DMV_CFG.MODE (R263)
  | dmvRetryN  -- DMV_RETRY.N (R263)
  | dmvPaceHwm  -- DMV_PACE.HWM (R263)
  | dmvPaceLwm  -- DMV_PACE.LWM (R263)
  | dmvPaceStgHwm  -- DMV_PACE_STG.HWM (R263)
  | dmvPaceStgLwm  -- DMV_PACE_STG.LWM (R263)
  | dmvPaceApplyApply  -- DMV_PACE_APPLY.APPLY (R263)
  | dmvHaltedN  -- DMV_HALTED.N (R263)
  | dmvCselCh  -- DMV_CSEL.CH (R263)
  | dmvCstatState  -- DMV_CSTAT.STATE (R263)
  | dmvCstatDepth  -- DMV_CSTAT.DEPTH (R263)
  | dmvCstatPrio  -- DMV_CSTAT.PRIO (R263)
  | dmvRetryCntN  -- DMV_RETRY_CNT.N (R263)
  | dmvHaltCntN  -- DMV_HALT_CNT.N (R263)
  | dmvAlignCntN  -- DMV_ALIGN_CNT.N (R263)
  | dmvPauseCntN  -- DMV_PAUSE_CNT.N (R263)
  | dmvPreemptCntN  -- DMV_PREEMPT_CNT.N (R263)
  | dmvCqFullCntN  -- DMV_CQ_FULL_CNT.N (R263)
  | mbrRoleMember  -- MBR_ROLE.MEMBER (R285)
  | mbrSplitMode  -- MBR_SPLIT.MODE (R285)
  | mbrLinkUp  -- MBR_LINK.UP (R285)
  | mbrMembersN  -- MBR_MEMBERS.N (R285)
  | mbrQpUsedN  -- MBR_QP_USED.N (R285)
  | mbrTmoTicks  -- MBR_TMO.TICKS (R285)
  | mbrRetryN  -- MBR_RETRY.N (R285)
  | mbrReconnTicks  -- MBR_RECONN.TICKS (R285)
  | mbrMediaThrN  -- MBR_MEDIA_THR.N (R285)
  | mbrSpinupTicks  -- MBR_SPINUP.TICKS (R285)
  | mbrSpinupMax  -- MBR_SPINUP.MAX (R285)
  | mbrCcStep  -- MBR_CC.STEP (R285)
  | mbrCcMin  -- MBR_CC.MIN (R285)
  | mbrCcTimer  -- MBR_CC.TIMER (R285)
  | mbrTmoCntN  -- MBR_TMO_CNT.N (R285)
  | mbrLateCntN  -- MBR_LATE_CNT.N (R285)
  | mbrMediaCntN  -- MBR_MEDIA_CNT.N (R285)
  | mbrRefusedCntN  -- MBR_REFUSED_CNT.N (R285)
  | mbrResvCntN  -- MBR_RESV_CNT.N (R285)
  | mbrCnpRxCntN  -- MBR_CNP_RX_CNT.N (R285)
  | mbrCnpTxCntN  -- MBR_CNP_TX_CNT.N (R285)
  | ropIdRope  -- ROP_ID.ROPE (R307)
  | ropAddrSelf  -- ROP_ADDR.SELF (R307)
  | ropAddrHasPartner  -- ROP_ADDR.HAS_PARTNER (R307)
  | ropAddrPartner  -- ROP_ADDR.PARTNER (R307)
  | ropCfgUdpPort  -- ROP_CFG.UDP_PORT (R307)
  | ropCfgHandback  -- ROP_CFG.HANDBACK (R307)
  | ropStatPartner  -- ROP_STAT.PARTNER (R307)
  | ropStatPaths  -- ROP_STAT.PATHS (R307)
  | ropStatAddrConflict  -- ROP_STAT.ADDR_CONFLICT (R307)
  | ropPeersUp  -- ROP_PEERS.UP (R307)
  | ropHbMissN  -- ROP_HB_MISS.N (R307)
  | ropWinSelN  -- ROP_WIN_SEL.N (R307)
  | ropWinBaseSlot  -- ROP_WIN_BASE.SLOT (R307)
  | ropWinLenSlots  -- ROP_WIN_LEN.SLOTS (R307)
  | ropWinPeerAddr  -- ROP_WIN_PEER.ADDR (R307)
  | ropWinPeerEn  -- ROP_WIN_PEER.EN (R307)
  | ropWinStgBaseSlot  -- ROP_WIN_STG_BASE.SLOT (R307)
  | ropWinStgLenSlots  -- ROP_WIN_STG_LEN.SLOTS (R307)
  | ropWinStgPeerAddr  -- ROP_WIN_STG_PEER.ADDR (R307)
  | ropWinStgPeerEn  -- ROP_WIN_STG_PEER.EN (R307)
  | ropWinApplyApply  -- ROP_WIN_APPLY.APPLY (R307)
  | ropYieldTmoTicks  -- ROP_YIELD_TMO.TICKS (R307)
  | ropHandbackTicks  -- ROP_HANDBACK.TICKS (R307)
  | ropWinNakCntN  -- ROP_WIN_NAK_CNT.N (R307)
  | ropRetxCntN  -- ROP_RETX_CNT.N (R307)
  | ropPathFailCntN  -- ROP_PATH_FAIL_CNT.N (R307)
  | ropDropCntN  -- ROP_DROP_CNT.N (R307)
  | ropTakeoverCntN  -- ROP_TAKEOVER_CNT.N (R307)
  | hifLstatRate  -- HIF_LSTAT.RATE (R330)
  | hifLstatWidth  -- HIF_LSTAT.WIDTH (R330)
  | hifLstatFlit  -- HIF_LSTAT.FLIT (R330)
  | hifLstatDPf0  -- HIF_LSTAT.D_PF0 (R330)
  | hifLstatDPf1  -- HIF_LSTAT.D_PF1 (R330)
  | hifLstatAts  -- HIF_LSTAT.ATS (R330)
  | hifLstatF  -- HIF_LSTAT.F (R330)
  | hifCfgWakeEn  -- HIF_CFG.WAKE_EN (R330)
  | hifCtoUs  -- HIF_CTO.US (R330)
  | hifQuarN  -- HIF_QUAR.N (R330)
  | hifTmoCntN  -- HIF_TMO_CNT.N (R330)
  | hifLateCntN  -- HIF_LATE_CNT.N (R330)
  | hifDropCntN  -- HIF_DROP_CNT.N (R330)
  | hifPoisonCntN  -- HIF_POISON_CNT.N (R330)
  | hifAtsMissCntN  -- HIF_ATS_MISS_CNT.N (R330)
  | hifAtsFailCntN  -- HIF_ATS_FAIL_CNT.N (R330)
  | hifInvCntN  -- HIF_INV_CNT.N (R330)
  | hifLinkdnCntN  -- HIF_LINKDN_CNT.N (R330)
  | mgtBootStatState  -- MGT_BOOT_STAT.STATE (R346)
  | mgtBootStatSlot  -- MGT_BOOT_STAT.SLOT (R346)
  | mgtBootStatTrial  -- MGT_BOOT_STAT.TRIAL (R346)
  | mgtBootStatFallback  -- MGT_BOOT_STAT.FALLBACK (R346)
  | mgtBootStatSlotSel  -- MGT_BOOT_STAT.SLOT_SEL (R346)
  | mgtBootStatCause  -- MGT_BOOT_STAT.CAUSE (R346)
  | mgtBootMsMs  -- MGT_BOOT_MS.MS (R346)
  | mgtJoinTicks  -- MGT_JOIN.TICKS (R346)
  | mgtDiscTicks  -- MGT_DISC.TICKS (R346)
  | mgtFwStatStagedFw  -- MGT_FW_STAT.STAGED_FW (R346)
  | mgtFwStatStagedImg  -- MGT_FW_STAT.STAGED_IMG (R346)
  | mgtFwStatAttempts  -- MGT_FW_STAT.ATTEMPTS (R346)
  | truStatKeyOk  -- TRU_STAT.KEY_OK (R363)
  | truStatLow  -- TRU_STAT.LOW (R363)
  | truStatExhausted  -- TRU_STAT.EXHAUSTED (R363)
  | truStatPersistFail  -- TRU_STAT.PERSIST_FAIL (R363)
  | truSigNextQ  -- TRU_SIG_NEXT.Q (R363)
  | truSigResQ  -- TRU_SIG_RES.Q (R363)
  | truFusesIdx  -- TRU_FUSES.IDX (R363)
  | truFusesFw  -- TRU_FUSES.FW (R363)
  | truFwFloorV  -- TRU_FW_FLOOR.V (R363)
  | truImgFloorV  -- TRU_IMG_FLOOR.V (R363)
  | truBootCntN  -- TRU_BOOT_CNT.N (R363)
  | truSignCntN  -- TRU_SIGN_CNT.N (R363)
  | vltStatReady  -- VLT_STAT.READY (R373)
  | vltStatTarget  -- VLT_STAT.TARGET (R373)
  | vltStatRecovered  -- VLT_STAT.RECOVERED (R373)
  | vltStatPh2  -- VLT_STAT.PH2 (R373)
  | vltStatNr  -- VLT_STAT.NR (R373)
  | vltDiesN  -- VLT_DIES.N (R373)
  | vltHoldDeclJ  -- VLT_HOLD_DECL.J (R373)
  | vltHoldMvMv  -- VLT_HOLD_MV.MV (R373)
  | vltEReqJ  -- VLT_E_REQ.J (R373)
  | vltWearPct  -- VLT_WEAR.PCT (R373)
  | vltSpareBlk  -- VLT_SPARE.BLK (R373)
  | vltFlushNoN  -- VLT_FLUSH_NO.N (R373)
  | vltLastMsMs  -- VLT_LAST_MS.MS (R373)
  | vltFlushCntN  -- VLT_FLUSH_CNT.N (R373)
  | vltEccCntN  -- VLT_ECC_CNT.N (R373)
  | evrNextLoSeq  -- EVR_NEXT_LO.SEQ (R384)
  | evrNextHiSeq  -- EVR_NEXT_HI.SEQ (R384)
  | evrOldestLoSeq  -- EVR_OLDEST_LO.SEQ (R384)
  | evrOldestHiSeq  -- EVR_OLDEST_HI.SEQ (R384)
  | evrPersistLoSeq  -- EVR_PERSIST_LO.SEQ (R384)
  | evrPersistHiSeq  -- EVR_PERSIST_HI.SEQ (R384)
  | evrStatCairnN  -- EVR_STAT.CAIRN_N (R384)
  | evrStatNorFail  -- EVR_STAT.NOR_FAIL (R384)
  | evrLostCntN  -- EVR_LOST_CNT.N (R384)
  | evrClearCntN  -- EVR_CLEAR_CNT.N (R384)
  | evrNorCntN  -- EVR_NOR_CNT.N (R384)
  | glbIdStepping  -- GLB_ID.STEPPING (R394)
  | glbIdVariant  -- GLB_ID.VARIANT (R394)
  | glbIdUnits  -- GLB_ID.UNITS (R394)
  | glbStateState  -- GLB_STATE.STATE (R394)
  | glbScratchV  -- GLB_SCRATCH.V (R394)
  | glbAlertFailStop  -- GLB_ALERT.FAIL_STOP (R394)
  | glbAlertBootHalt  -- GLB_ALERT.BOOT_HALT (R394)
  | glbAlertAddrConflict  -- GLB_ALERT.ADDR_CONFLICT (R394)
  | glbAlertFatal  -- GLB_ALERT.FATAL (R394)
  | glbApplyStatPend  -- GLB_APPLY_STAT.PEND (R394)
  | glbApplyStatFail  -- GLB_APPLY_STAT.FAIL (R394)
  | mgtErrlogCode  -- MGT_ERRLOG.CODE (R396)
  | mgtErrlogUnit  -- MGT_ERRLOG.UNIT (R396)
  | mgtErrlogSrc  -- MGT_ERRLOG.SRC (R396)
  | mgtErrlogOvf  -- MGT_ERRLOG.OVF (R396)
  | mgtErrlogValid  -- MGT_ERRLOG.VALID (R396)
  | mgtErrlogAddrOffset  -- MGT_ERRLOG_ADDR.OFFSET (R396)
  | mgtErrlogValV  -- MGT_ERRLOG_VAL.V (R396)
  | mgtErrlogEdgeN  -- MGT_ERRLOG_EDGE.N (R396)
  | mgtErrlogCntN  -- MGT_ERRLOG_CNT.N (R396)
  | mgtInjStatPermit  -- MGT_INJ_STAT.PERMIT (R405)
  | mgtInjStatTestEn  -- MGT_INJ_STAT.TEST_EN (R405)
  | mgtInjStatImg  -- MGT_INJ_STAT.IMG (R405)
  | mgtInjStatArmed  -- MGT_INJ_STAT.ARMED (R405)
  | mgtInjSelSlot  -- MGT_INJ_SEL.SLOT (R405)
  | mgtInjDetDet  -- MGT_INJ_DET.DET (R405)
  | mgtInjDetParam  -- MGT_INJ_DET.PARAM (R405)
  | mgtInjDetCount  -- MGT_INJ_DET.COUNT (R405)
  | mgtInjTgtSubj  -- MGT_INJ_TGT.SUBJ (R405)
  | mgtInjTgtKind  -- MGT_INJ_TGT.KIND (R405)
  | mgtInjArmArm  -- MGT_INJ_ARM.ARM (R405)
  | mgtInjLeftN  -- MGT_INJ_LEFT.N (R405)
  | mgtInjDoneN  -- MGT_INJ_DONE.N (R405)
  | mgtInjArmsN  -- MGT_INJ_ARMS.N (R405)
  | mgtWcCorrCntN  -- MGT_WC_CORR_CNT.N (R405)
  | mgtWcUncCntN  -- MGT_WC_UNC_CNT.N (R405)
  deriving DecidableEq, Repr

/-- Event names (R383); `wordUncorrectable` is number 0xF0 of the unit that consumes the word. -/
inductive Ev where
  | hifLinkDegraded
  | hifLinkDown
  | ringLineReserved
  | ringFetchErr
  | ringMalformed
  | cqStalled
  | lockTableFull
  | dirtyThrottleOn
  | dirtyThrottleOff
  | sealNak
  | belayUp
  | belayDown
  | journalMemberReplaced
  | journalExposed
  | resyncUnchecked
  | bivouacDiscarded
  | journalLost
  | codSelfcheck
  | codLaneFenced
  | domainExposed
  | spareExhausted
  | memberMissing
  | memberFailed
  | memberReturned
  | rebuildStart
  | rebuildReplan
  | rebuildDone
  | copybackDone
  | lostExtent
  | poolLost
  | paceFloorHeld
  | paceCriticalRaise
  | scrubLate
  | scrubCycleEnd
  | frondStart
  | frondSwitch
  | frondReleased
  | frondCancelled
  | fixMismatch
  | fixRepaired
  | fixRewriteFailed
  | fixUnrecovered
  | fixDirtyUnrecovered
  | fixFault
  | fixFaultPersist
  | fixCoreFenced
  | staleBlock
  | genLow
  | genExhausted
  | sealCtxRefused
  | dmvAlign
  | dmvListInvalid
  | dmvHalt
  | memberRefused
  | memberMediaLimit
  | resvConflict
  | mbrQpLimit
  | volumeWakeFail
  | ropeAddrConflict
  | belayPairMismatch
  | belaySizeMismatch
  | belayKeyMismatch
  | belayWinNak
  | partnerSuspect
  | partnerBack
  | partnerAbsent
  | takeover
  | vaultReady
  | vaultNotReady
  | vaultDieRetired
  | bivouacStart
  | bivouacSealed
  | bivouacIncomplete
  | vaultFlushBad
  | truPersistFail
  | truKeyLow
  | truKeyExhausted
  | keyExported
  | keyUnavailable
  | evrRestart
  | evrCleared
  | evrNorFail
  | evrLogTrim
  | bootFallback
  | fwRollback
  | configRejected
  | fwStageRejected
  | fwCommitted
  | poolAssemblyFail
  | injectArmed
  | injectDisarmed
  | timeLocked
  | timeHoldover
  | timeSplit
  | ppsLost
  | tickMismatch
  | tickOverrun
  | wordUncorrectable (unit : Nat)
  deriving DecidableEq, Repr

end Sys2Proof.Machine
end

