-- ==== Sys2Proof/Config.lean ====
section
/-!
DEFINITION. The free values: what the spec leaves open and the model does not choose. Each is an opaque constant, so that no
proof can learn a value of it; the counter it is applied to stands in the state (`freeCtr`, or TRU's count of draws).
-/
namespace Sys2Proof.Config
open Sys2Proof.Machine

/-- A draw of the true random number generator (R159, R173, R359): 256 bits, one value per draw. -/
opaque trng : Nat → BitVec 256

/-- What a counter of no stated overflow holds after it passes 2^32 − 1: by field and the value it had. -/
opaque counterOver : Fld → BitVec 32 → BitVec 32

/-- What the partner sends back of a slot of its belay receive area (R169): no frame of R288 carries the request or the answer. -/
opaque partnerBlock : Nat → Block

/-- The generation in the footer of a block of a metadata zone, by edge and member LBA: R39 gives the field, and no rule gives its value. -/
opaque zoneGen : Nat → Nat → BitVec 56

/-- Block k of a copy of pool metadata: R105 gives a copy its commit number, and no rule gives its layout. -/
opaque metaBlock : PoolMeta → Nat → BlockData

/-- Blocks that a copy of pool metadata takes of its area. -/
opaque metaSize : PoolMeta → Nat

/-- Block k of the label of a pool member: R271 says what it names, and no rule gives its layout. -/
opaque labelBlock : BitVec 16 → Nat → Nat → BlockData

/-- Block k of an entry of the cold journal with these records, blocks and seal, and with or without the mark of a shutdown or yield: R106 says what an entry
holds, and no rule gives its layout. -/
opaque coldBlock : List (BitVec 32 × JRec) → List Block → SealRec → Bool → Nat → BlockData

/-- The servo's trim after a timing message (R18, R24 state its bound and its direction, not its gain). -/
opaque servoTrim : Nat → Int

/-- How far into its tick the record of an event between two edges is written, by its place among the records: the spec does not say when within a tick a
command arrives (R18, R26). -/
opaque recordAt : Nat → Nat

/-- The congestion-notification time stamps, rates and other analogue values the spec does not fix, one value per draw. -/
opaque word : Nat → BitVec 64

/-- SEED of the module key's top tree in the fuses, by serial number (R347). -/
opaque seedTop : BitVec 128 → Nat → Byte

/-- I of the module key's top tree in the fuses (R347). -/
opaque identTop : BitVec 128 → Nat → Byte

/-- The bytes of a private one-time element: identifier and seed of its tree, leaf, element (R354 states no derivation). -/
opaque otsKey : List Byte → List Byte → Nat → Nat → Nat → Byte

/-- The randomizer of a one-time signature. -/
opaque otsRandom : List Byte → List Byte → Nat → Nat → Byte

/-- The device-unique key of a module, programmed at manufacture (R347). -/
opaque duk : BitVec 128 → BitVec 256

/-- Q_FW, the firmware root key in ROM (R347): an HSS public key. -/
opaque qFw : List Byte

/-- Q_IA, the image-authority root key in ROM (R347): an HSS public key. -/
opaque qIa : List Byte

/-- The public key of the Quodewald identity root (R351). -/
opaque qId : List Byte

/-- Subject of the device CA's certificate: R351 states that field for kinds 1 and 3 only. -/
opaque caSubject : List Byte

/-- The device CA's public key (R351). -/
opaque caKey : List Byte

/-- The issuer's signature in the certificate of a kind, written at manufacture (R351). -/
opaque certSig : Nat → BitVec 128 → List Byte

/-- The version that a firmware object gives itself (R229): where it stands in the object is not stated. -/
opaque fwOwnVersion : List Byte → BitVec 32

/-- The retry delay of a member in edges (R273): the member gives it, and no event of the spec carries it. -/
opaque retryDelay : Nat → Nat

/-- The belay delay b in ticks (R15, R97): it depends on the length of the rope network. -/
opaque belayDelay : Nat

end Sys2Proof.Config
end

