-- ==== Sys2Proof/Machine/RegMap.lean ====
section
/-!
DEFINITION. What the register tables say of each field (page, offset, bits, access, reset value, change class), and the unit code,
number and severity of each event (R383).
-/
namespace Sys2Proof.Machine

/-- Access codes (R6). -/
inductive Acc where
  | ro | rw | w1c | wo | rc
  deriving DecidableEq, Repr

/-- Change classes (R7). -/
inductive RClass where
  | boot | tick | now | staged
  deriving DecidableEq, Repr

/-- A row of a register table: page base in BAR0, offset, bits [hi:lo], access, reset value, class. -/
structure FSpec where
  page  : Nat
  off   : Nat
  hi    : Nat
  lo    : Nat
  acc   : Acc
  reset : Nat
  cls   : RClass
  deriving DecidableEq, Repr

/-- Rows of the register tables, part 0. -/
def Fld.table0 : List FSpec :=
  [ /- tckNowLoNs -/ ⟨0x30000, 0x000, 31, 0, .ro, 0, .now⟩,
    /- tckNowHiNs -/ ⟨0x30000, 0x004, 31, 0, .ro, 0, .now⟩,
    /- tckEdgeLoN -/ ⟨0x30000, 0x008, 31, 0, .ro, 0, .now⟩,
    /- tckEdgeHiN -/ ⟨0x30000, 0x00C, 31, 0, .ro, 0, .now⟩,
    /- tckCfgPeriod -/ ⟨0x30000, 0x010, 2, 0, .rw, 1, .boot⟩,
    /- tckCfgPpsEn -/ ⟨0x30000, 0x010, 4, 4, .rw, 0, .boot⟩,
    /- tckCfgPpsOutEn -/ ⟨0x30000, 0x010, 5, 5, .rw, 0, .now⟩,
    /- tckStatLock -/ ⟨0x30000, 0x014, 1, 0, .ro, 0, .now⟩,
    /- tckStatIsRef -/ ⟨0x30000, 0x014, 2, 2, .ro, 0, .now⟩,
    /- tckStatPpsLock -/ ⟨0x30000, 0x014, 3, 3, .ro, 0, .now⟩,
    /- tckStatRefAddr -/ ⟨0x30000, 0x014, 15, 4, .ro, 0, .now⟩,
    /- tckOffsetPs -/ ⟨0x30000, 0x018, 31, 0, .ro, 0, .now⟩,
    /- tckOvrCntN -/ ⟨0x30000, 0x01C, 31, 0, .ro, 0, .now⟩,
    /- tckOvrStatHost -/ ⟨0x30000, 0x020, 0, 0, .w1c, 0, .now⟩,
    /- tckOvrStatCod -/ ⟨0x30000, 0x020, 1, 1, .w1c, 0, .now⟩,
    /- tckOvrStatFix -/ ⟨0x30000, 0x020, 2, 2, .w1c, 0, .now⟩,
    /- tckOvrStatMbr -/ ⟨0x30000, 0x020, 3, 3, .w1c, 0, .now⟩,
    /- tckOvrStatRope -/ ⟨0x30000, 0x020, 4, 4, .w1c, 0, .now⟩,
    /- tckIrqDiv -/ ⟨0x30000, 0x024, 2, 0, .rw, 0, .tick⟩,
    /- tckBudlim0Host -/ ⟨0x30000, 0x028, 7, 0, .rw, 64, .tick⟩,
    /- tckBudlim0Cod -/ ⟨0x30000, 0x028, 15, 8, .rw, 64, .tick⟩,
    /- tckBudlim0Fix -/ ⟨0x30000, 0x028, 23, 16, .rw, 64, .tick⟩,
    /- tckBudlim0Mbr -/ ⟨0x30000, 0x028, 31, 24, .rw, 64, .tick⟩,
    /- tckBudlim1Rope -/ ⟨0x30000, 0x02C, 7, 0, .rw, 64, .tick⟩,
    /- tckTaiBaseLoSec -/ ⟨0x30000, 0x030, 31, 0, .rw, 0, .now⟩,
    /- tckTaiBaseHiSec -/ ⟨0x30000, 0x034, 31, 0, .rw, 0, .now⟩,
    /- codStatLaneOk -/ ⟨0x25000, 0x000, 3, 0, .ro, 15, .now⟩,
    /- codSelfchkCntN -/ ⟨0x25000, 0x004, 31, 0, .ro, 0, .now⟩,
    /- codLaneEnEn -/ ⟨0x25000, 0x008, 3, 0, .rw, 15, .tick⟩,
    /- codFenceThrN -/ ⟨0x25000, 0x00C, 7, 0, .rw, 3, .tick⟩,
    /- codDecmatCntN -/ ⟨0x25000, 0x010, 31, 0, .rc, 0, .now⟩,
    /- cchPartDirtyGib -/ ⟨0x23000, 0x000, 7, 0, .ro, 0, .boot⟩,
    /- cchPartBelayGib -/ ⟨0x23000, 0x000, 15, 8, .ro, 0, .boot⟩,
    /- cchPartMetaGib -/ ⟨0x23000, 0x000, 23, 16, .ro, 0, .boot⟩,
    /- cchCleanSlotsN -/ ⟨0x23000, 0x004, 31, 0, .ro, 0, .now⟩,
    /- cchDirtyUsedN -/ ⟨0x23000, 0x008, 31, 0, .ro, 0, .now⟩,
    /- cchWmHwm -/ ⟨0x23000, 0x00C, 6, 0, .ro, 75, .staged⟩,
    /- cchWmLwm -/ ⟨0x23000, 0x00C, 14, 8, .ro, 60, .staged⟩,
    /- cchWmStgHwm -/ ⟨0x23000, 0x010, 6, 0, .rw, 75, .staged⟩,
    /- cchWmStgLwm -/ ⟨0x23000, 0x010, 14, 8, .rw, 60, .staged⟩ ]

/-- Rows of the register tables, part 1. -/
def Fld.table1 : List FSpec :=
  [ /- cchWmApplyApply -/ ⟨0x23000, 0x014, 0, 0, .wo, 0, .staged⟩,
    /- cchThrotStatOn -/ ⟨0x23000, 0x018, 0, 0, .ro, 0, .now⟩,
    /- cchThrotStatVols -/ ⟨0x23000, 0x018, 12, 1, .ro, 0, .now⟩,
    /- cchGatherUsedN -/ ⟨0x23000, 0x01C, 18, 0, .ro, 0, .now⟩,
    /- cchForcedCntN -/ ⟨0x23000, 0x020, 31, 0, .rc, 0, .now⟩,
    /- cchHoldDeferN -/ ⟨0x23000, 0x024, 31, 0, .rc, 0, .now⟩,
    /- jnlStatBelay -/ ⟨0x24000, 0x000, 1, 0, .ro, 0, .now⟩,
    /- jnlStatVaultReady -/ ⟨0x24000, 0x000, 2, 2, .ro, 0, .now⟩,
    /- jnlStatExposed -/ ⟨0x24000, 0x000, 3, 3, .ro, 0, .now⟩,
    /- jnlRingUsedN -/ ⟨0x24000, 0x004, 20, 0, .ro, 0, .now⟩,
    /- jnlSealTickN -/ ⟨0x24000, 0x008, 31, 0, .ro, 0, .now⟩,
    /- jnlConfTickN -/ ⟨0x24000, 0x00C, 31, 0, .ro, 0, .now⟩,
    /- jnlRelocCntN -/ ⟨0x24000, 0x010, 31, 0, .rc, 0, .now⟩,
    /- jnlNakCntN -/ ⟨0x24000, 0x014, 31, 0, .rc, 0, .now⟩,
    /- jnlBmQuietTicks -/ ⟨0x24000, 0x018, 23, 0, .rw, 65536, .tick⟩,
    /- jnlBmWritesN -/ ⟨0x24000, 0x01C, 31, 0, .rc, 0, .now⟩,
    /- seqStatRebuild -/ ⟨0x27000, 0x000, 0, 0, .ro, 0, .now⟩,
    /- seqStatCopyback -/ ⟨0x27000, 0x000, 1, 1, .ro, 0, .now⟩,
    /- seqStatScrub -/ ⟨0x27000, 0x000, 2, 2, .ro, 0, .now⟩,
    /- seqStatCritRaise -/ ⟨0x27000, 0x000, 3, 3, .ro, 0, .now⟩,
    /- seqStatFloorHeld -/ ⟨0x27000, 0x000, 4, 4, .ro, 0, .now⟩,
    /- seqPaceFloor -/ ⟨0x27000, 0x004, 7, 0, .ro, 16, .staged⟩,
    /- seqPaceCeil -/ ⟨0x27000, 0x004, 15, 8, .ro, 128, .staged⟩,
    /- seqPaceCrit -/ ⟨0x27000, 0x004, 23, 16, .ro, 224, .staged⟩,
    /- seqPaceStgFloor -/ ⟨0x27000, 0x008, 7, 0, .rw, 16, .staged⟩,
    /- seqPaceStgCeil -/ ⟨0x27000, 0x008, 15, 8, .rw, 128, .staged⟩,
    /- seqPaceStgCrit -/ ⟨0x27000, 0x008, 23, 16, .rw, 224, .staged⟩,
    /- seqPaceApplyApply -/ ⟨0x27000, 0x00C, 0, 0, .wo, 0, .staged⟩,
    /- seqPaceShareS -/ ⟨0x27000, 0x010, 7, 0, .ro, 16, .now⟩,
    /- seqPaceLatTicks -/ ⟨0x27000, 0x014, 15, 0, .rw, 1250, .tick⟩,
    /- seqMissLimitTicks -/ ⟨0x27000, 0x018, 31, 0, .rw, 7500000, .tick⟩,
    /- seqRebuiltCntN -/ ⟨0x27000, 0x01C, 31, 0, .rc, 0, .now⟩,
    /- seqInplaceCntN -/ ⟨0x27000, 0x020, 31, 0, .rc, 0, .now⟩,
    /- seqLostUsedN -/ ⟨0x27000, 0x024, 22, 0, .ro, 0, .now⟩,
    /- seqScrubFixCntN -/ ⟨0x27000, 0x028, 31, 0, .rc, 0, .now⟩,
    /- seqFrondStatState -/ ⟨0x27000, 0x02C, 2, 0, .ro, 0, .now⟩,
    /- seqFrondStatVol -/ ⟨0x27000, 0x02C, 14, 3, .ro, 0, .now⟩,
    /- seqFrondCurLoVbn -/ ⟨0x27000, 0x030, 31, 0, .ro, 0, .now⟩,
    /- seqFrondCurHiVbn -/ ⟨0x27000, 0x034, 31, 0, .ro, 0, .now⟩,
    /- seqFrondMarkedN -/ ⟨0x27000, 0x038, 31, 0, .ro, 0, .now⟩ ]

/-- Rows of the register tables, part 2. -/
def Fld.table2 : List FSpec :=
  [ /- seqFrondTailN -/ ⟨0x27000, 0x03C, 23, 0, .rw, 1024, .tick⟩,
    /- seqFrondUnitsN -/ ⟨0x27000, 0x040, 31, 0, .rc, 0, .now⟩,
    /- fixStatCores -/ ⟨0x28000, 0x000, 6, 0, .ro, 96, .now⟩,
    /- fixStatKr -/ ⟨0x28000, 0x000, 7, 7, .ro, 0, .now⟩,
    /- fixStatKt -/ ⟨0x28000, 0x000, 8, 8, .ro, 0, .now⟩,
    /- fixFenced0Mask -/ ⟨0x28000, 0x004, 31, 0, .ro, 0, .now⟩,
    /- fixFenced1Mask -/ ⟨0x28000, 0x008, 31, 0, .ro, 0, .now⟩,
    /- fixFenced2Mask -/ ⟨0x28000, 0x00C, 31, 0, .ro, 0, .now⟩,
    /- fixDummyMax -/ ⟨0x28000, 0x010, 2, 0, .rw, 7, .tick⟩,
    /- fixFenceThrN -/ ⟨0x28000, 0x014, 7, 0, .rw, 3, .tick⟩,
    /- fixFaultCntN -/ ⟨0x28000, 0x018, 31, 0, .ro, 0, .now⟩,
    /- fixMismatchCntN -/ ⟨0x28000, 0x01C, 31, 0, .rc, 0, .now⟩,
    /- fixRepairCntN -/ ⟨0x28000, 0x020, 31, 0, .rc, 0, .now⟩,
    /- fixUnrecCntN -/ ⟨0x28000, 0x024, 31, 0, .rc, 0, .now⟩,
    /- fixSealOpenN -/ ⟨0x28000, 0x028, 16, 0, .ro, 0, .now⟩,
    /- fixSealSavedN -/ ⟨0x28000, 0x02C, 24, 0, .ro, 0, .now⟩,
    /- fixGenStatLow -/ ⟨0x28000, 0x030, 11, 0, .ro, 0, .now⟩,
    /- fixGenStatExh -/ ⟨0x28000, 0x030, 23, 12, .ro, 0, .now⟩,
    /- qeStatFailStop -/ ⟨0x21000, 0x000, 0, 0, .ro, 0, .now⟩,
    /- qeStatHalted -/ ⟨0x21000, 0x000, 1, 1, .ro, 0, .now⟩,
    /- qeMalfQQid -/ ⟨0x21000, 0x004, 15, 0, .ro, 0, .now⟩,
    /- qeMalfQPort -/ ⟨0x21000, 0x004, 16, 16, .ro, 0, .now⟩,
    /- qeMalfQCause -/ ⟨0x21000, 0x004, 19, 17, .ro, 0, .now⟩,
    /- qeMalfIdxC -/ ⟨0x21000, 0x008, 31, 0, .ro, 0, .now⟩,
    /- qeMalfHdrLoB -/ ⟨0x21000, 0x00C, 31, 0, .ro, 0, .now⟩,
    /- qeMalfHdrHiB -/ ⟨0x21000, 0x010, 31, 0, .ro, 0, .now⟩,
    /- qeDbIgnCntN -/ ⟨0x21000, 0x014, 31, 0, .rc, 0, .now⟩,
    /- qeIllegalCntN -/ ⟨0x21000, 0x018, 31, 0, .rc, 0, .now⟩,
    /- qeFetchErrCntN -/ ⟨0x21000, 0x01C, 31, 0, .rc, 0, .now⟩,
    /- qeQselQid -/ ⟨0x21000, 0x020, 15, 0, .rw, 0, .now⟩,
    /- qeQselCq -/ ⟨0x21000, 0x020, 16, 16, .rw, 0, .now⟩,
    /- qeQselPort -/ ⟨0x21000, 0x020, 17, 17, .rw, 0, .now⟩,
    /- qeQstatState -/ ⟨0x21000, 0x024, 1, 0, .ro, 0, .now⟩,
    /- qeQstatPend -/ ⟨0x21000, 0x024, 2, 2, .ro, 0, .now⟩,
    /- qeQstatExp -/ ⟨0x21000, 0x024, 7, 3, .ro, 0, .now⟩,
    /- qeQidx0N -/ ⟨0x21000, 0x028, 31, 0, .ro, 0, .now⟩,
    /- qeQidx1N -/ ⟨0x21000, 0x02C, 31, 0, .ro, 0, .now⟩,
    /- qeSqEnN -/ ⟨0x21000, 0x030, 14, 0, .ro, 0, .now⟩,
    /- qeAdmSqLoAddr -/ ⟨0x21000, 0x040, 31, 0, .rw, 0, .staged⟩,
    /- qeAdmSqHiAddr -/ ⟨0x21000, 0x044, 31, 0, .rw, 0, .staged⟩ ]

/-- Rows of the register tables, part 3. -/
def Fld.table3 : List FSpec :=
  [ /- qeAdmCqLoAddr -/ ⟨0x21000, 0x048, 31, 0, .rw, 0, .staged⟩,
    /- qeAdmCqHiAddr -/ ⟨0x21000, 0x04C, 31, 0, .rw, 0, .staged⟩,
    /- qeAdmHlLoAddr -/ ⟨0x21000, 0x050, 31, 0, .rw, 0, .staged⟩,
    /- qeAdmHlHiAddr -/ ⟨0x21000, 0x054, 31, 0, .rw, 0, .staged⟩,
    /- qeAdmDlLoAddr -/ ⟨0x21000, 0x058, 31, 0, .rw, 0, .staged⟩,
    /- qeAdmDlHiAddr -/ ⟨0x21000, 0x05C, 31, 0, .rw, 0, .staged⟩,
    /- qeAdmSizeSqExp -/ ⟨0x21000, 0x060, 4, 0, .rw, 6, .staged⟩,
    /- qeAdmSizeCqExp -/ ⟨0x21000, 0x060, 12, 8, .rw, 6, .staged⟩,
    /- qeAdmSizeVec -/ ⟨0x21000, 0x060, 31, 16, .rw, 0, .staged⟩,
    /- qeAdmApplyApply -/ ⟨0x21000, 0x064, 0, 0, .wo, 0, .staged⟩,
    /- ordLockUsedN -/ ⟨0x22000, 0x000, 16, 0, .ro, 0, .now⟩,
    /- ordLockWaitN -/ ⟨0x22000, 0x004, 16, 0, .ro, 0, .now⟩,
    /- ordAccLoN -/ ⟨0x22000, 0x008, 31, 0, .ro, 0, .now⟩,
    /- ordAccHiN -/ ⟨0x22000, 0x00C, 31, 0, .ro, 0, .now⟩,
    /- ordFullCntN -/ ⟨0x22000, 0x010, 31, 0, .rc, 0, .now⟩,
    /- ordAbortedCntN -/ ⟨0x22000, 0x014, 31, 0, .rc, 0, .now⟩,
    /- ordLateCntN -/ ⟨0x22000, 0x018, 31, 0, .rc, 0, .now⟩,
    /- ordNoabortCntN -/ ⟨0x22000, 0x01C, 31, 0, .rc, 0, .now⟩,
    /- ordFlushOpenN -/ ⟨0x22000, 0x020, 15, 0, .ro, 0, .now⟩,
    /- ordFwdOpenN -/ ⟨0x22000, 0x020, 31, 16, .ro, 0, .now⟩,
    /- qeOvfHeldN -/ ⟨0x21000, 0x068, 14, 0, .ro, 0, .now⟩,
    /- qeOvfWaitN -/ ⟨0x21000, 0x06C, 31, 0, .ro, 0, .now⟩,
    /- qeOvfCntN -/ ⟨0x21000, 0x070, 31, 0, .rc, 0, .now⟩,
    /- qeStallCntN -/ ⟨0x21000, 0x074, 31, 0, .rc, 0, .now⟩,
    /- qeCplDiscCntN -/ ⟨0x21000, 0x078, 31, 0, .rc, 0, .now⟩,
    /- dmvCfgMode -/ ⟨0x29000, 0x000, 3, 0, .rw, 4, .boot⟩,
    /- dmvRetryN -/ ⟨0x29000, 0x004, 2, 0, .rw, 3, .tick⟩,
    /- dmvPaceHwm -/ ⟨0x29000, 0x008, 6, 0, .ro, 80, .staged⟩,
    /- dmvPaceLwm -/ ⟨0x29000, 0x008, 14, 8, .ro, 50, .staged⟩,
    /- dmvPaceStgHwm -/ ⟨0x29000, 0x00C, 6, 0, .rw, 80, .staged⟩,
    /- dmvPaceStgLwm -/ ⟨0x29000, 0x00C, 14, 8, .rw, 50, .staged⟩,
    /- dmvPaceApplyApply -/ ⟨0x29000, 0x010, 0, 0, .wo, 0, .staged⟩,
    /- dmvHaltedN -/ ⟨0x29000, 0x014, 10, 0, .ro, 0, .now⟩,
    /- dmvCselCh -/ ⟨0x29000, 0x018, 9, 0, .rw, 0, .now⟩,
    /- dmvCstatState -/ ⟨0x29000, 0x01C, 2, 0, .ro, 0, .now⟩,
    /- dmvCstatDepth -/ ⟨0x29000, 0x01C, 7, 3, .ro, 0, .now⟩,
    /- dmvCstatPrio -/ ⟨0x29000, 0x01C, 10, 8, .ro, 0, .now⟩,
    /- dmvRetryCntN -/ ⟨0x29000, 0x020, 31, 0, .rc, 0, .now⟩,
    /- dmvHaltCntN -/ ⟨0x29000, 0x024, 31, 0, .rc, 0, .now⟩,
    /- dmvAlignCntN -/ ⟨0x29000, 0x028, 31, 0, .rc, 0, .now⟩ ]

/-- Rows of the register tables, part 4. -/
def Fld.table4 : List FSpec :=
  [ /- dmvPauseCntN -/ ⟨0x29000, 0x02C, 31, 0, .rc, 0, .now⟩,
    /- dmvPreemptCntN -/ ⟨0x29000, 0x030, 31, 0, .rc, 0, .now⟩,
    /- dmvCqFullCntN -/ ⟨0x29000, 0x034, 31, 0, .rc, 0, .now⟩,
    /- mbrRoleMember -/ ⟨0x2A000, 0x000, 15, 0, .rw, 1023, .boot⟩,
    /- mbrSplitMode -/ ⟨0x2A000, 0x004, 31, 0, .rw, 0, .boot⟩,
    /- mbrLinkUp -/ ⟨0x2A000, 0x008, 15, 0, .ro, 0, .now⟩,
    /- mbrMembersN -/ ⟨0x2A000, 0x00C, 12, 0, .ro, 0, .now⟩,
    /- mbrQpUsedN -/ ⟨0x2A000, 0x010, 16, 0, .ro, 0, .now⟩,
    /- mbrTmoTicks -/ ⟨0x2A000, 0x014, 23, 0, .rw, 500000, .tick⟩,
    /- mbrRetryN -/ ⟨0x2A000, 0x018, 2, 0, .rw, 1, .tick⟩,
    /- mbrReconnTicks -/ ⟨0x2A000, 0x01C, 23, 0, .rw, 625000, .tick⟩,
    /- mbrMediaThrN -/ ⟨0x2A000, 0x020, 15, 0, .rw, 64, .tick⟩,
    /- mbrSpinupTicks -/ ⟨0x2A000, 0x024, 23, 0, .rw, 3750000, .tick⟩,
    /- mbrSpinupMax -/ ⟨0x2A000, 0x024, 31, 24, .rw, 4, .tick⟩,
    /- mbrCcStep -/ ⟨0x2A000, 0x028, 7, 0, .rw, 5, .tick⟩,
    /- mbrCcMin -/ ⟨0x2A000, 0x028, 15, 8, .rw, 1, .tick⟩,
    /- mbrCcTimer -/ ⟨0x2A000, 0x028, 23, 16, .rw, 50, .tick⟩,
    /- mbrTmoCntN -/ ⟨0x2A000, 0x02C, 31, 0, .rc, 0, .now⟩,
    /- mbrLateCntN -/ ⟨0x2A000, 0x030, 31, 0, .rc, 0, .now⟩,
    /- mbrMediaCntN -/ ⟨0x2A000, 0x034, 31, 0, .rc, 0, .now⟩,
    /- mbrRefusedCntN -/ ⟨0x2A000, 0x038, 31, 0, .rc, 0, .now⟩,
    /- mbrResvCntN -/ ⟨0x2A000, 0x03C, 31, 0, .rc, 0, .now⟩,
    /- mbrCnpRxCntN -/ ⟨0x2A000, 0x040, 31, 0, .rc, 0, .now⟩,
    /- mbrCnpTxCntN -/ ⟨0x2A000, 0x044, 31, 0, .rc, 0, .now⟩,
    /- ropIdRope -/ ⟨0x2B000, 0x000, 31, 0, .rw, 0, .boot⟩,
    /- ropAddrSelf -/ ⟨0x2B000, 0x004, 11, 0, .rw, 0, .boot⟩,
    /- ropAddrHasPartner -/ ⟨0x2B000, 0x004, 12, 12, .rw, 0, .boot⟩,
    /- ropAddrPartner -/ ⟨0x2B000, 0x004, 27, 16, .rw, 0, .boot⟩,
    /- ropCfgUdpPort -/ ⟨0x2B000, 0x008, 15, 0, .rw, 47600, .boot⟩,
    /- ropCfgHandback -/ ⟨0x2B000, 0x008, 16, 16, .rw, 1, .boot⟩,
    /- ropStatPartner -/ ⟨0x2B000, 0x00C, 2, 0, .ro, 0, .now⟩,
    /- ropStatPaths -/ ⟨0x2B000, 0x00C, 7, 3, .ro, 0, .now⟩,
    /- ropStatAddrConflict -/ ⟨0x2B000, 0x00C, 8, 8, .ro, 0, .now⟩,
    /- ropPeersUp -/ ⟨0x2B000, 0x010, 12, 0, .ro, 0, .now⟩,
    /- ropHbMissN -/ ⟨0x2B000, 0x014, 3, 0, .ro, 0, .now⟩,
    /- ropWinSelN -/ ⟨0x2B000, 0x018, 2, 0, .rw, 0, .now⟩,
    /- ropWinBaseSlot -/ ⟨0x2B000, 0x01C, 23, 0, .ro, 0, .staged⟩,
    /- ropWinLenSlots -/ ⟨0x2B000, 0x020, 23, 0, .ro, 0, .staged⟩,
    /- ropWinPeerAddr -/ ⟨0x2B000, 0x024, 11, 0, .ro, 0, .staged⟩,
    /- ropWinPeerEn -/ ⟨0x2B000, 0x024, 12, 12, .ro, 0, .staged⟩ ]

/-- Rows of the register tables, part 5. -/
def Fld.table5 : List FSpec :=
  [ /- ropWinStgBaseSlot -/ ⟨0x2B000, 0x028, 23, 0, .rw, 0, .staged⟩,
    /- ropWinStgLenSlots -/ ⟨0x2B000, 0x02C, 23, 0, .rw, 0, .staged⟩,
    /- ropWinStgPeerAddr -/ ⟨0x2B000, 0x030, 11, 0, .rw, 0, .staged⟩,
    /- ropWinStgPeerEn -/ ⟨0x2B000, 0x030, 12, 12, .rw, 0, .staged⟩,
    /- ropWinApplyApply -/ ⟨0x2B000, 0x034, 0, 0, .wo, 0, .staged⟩,
    /- ropYieldTmoTicks -/ ⟨0x2B000, 0x038, 23, 0, .rw, 125000, .tick⟩,
    /- ropHandbackTicks -/ ⟨0x2B000, 0x03C, 23, 0, .rw, 7500000, .tick⟩,
    /- ropWinNakCntN -/ ⟨0x2B000, 0x040, 31, 0, .rc, 0, .now⟩,
    /- ropRetxCntN -/ ⟨0x2B000, 0x044, 31, 0, .rc, 0, .now⟩,
    /- ropPathFailCntN -/ ⟨0x2B000, 0x048, 31, 0, .rc, 0, .now⟩,
    /- ropDropCntN -/ ⟨0x2B000, 0x04C, 31, 0, .rc, 0, .now⟩,
    /- ropTakeoverCntN -/ ⟨0x2B000, 0x050, 31, 0, .rc, 0, .now⟩,
    /- hifLstatRate -/ ⟨0x20000, 0x000, 2, 0, .ro, 0, .now⟩,
    /- hifLstatWidth -/ ⟨0x20000, 0x000, 7, 3, .ro, 0, .now⟩,
    /- hifLstatFlit -/ ⟨0x20000, 0x000, 8, 8, .ro, 0, .now⟩,
    /- hifLstatDPf0 -/ ⟨0x20000, 0x000, 10, 9, .ro, 0, .now⟩,
    /- hifLstatDPf1 -/ ⟨0x20000, 0x000, 12, 11, .ro, 0, .now⟩,
    /- hifLstatAts -/ ⟨0x20000, 0x000, 13, 13, .ro, 0, .now⟩,
    /- hifLstatF -/ ⟨0x20000, 0x000, 22, 16, .ro, 0, .now⟩,
    /- hifCfgWakeEn -/ ⟨0x20000, 0x004, 0, 0, .rw, 0, .boot⟩,
    /- hifCtoUs -/ ⟨0x20000, 0x008, 31, 0, .ro, 50000, .now⟩,
    /- hifQuarN -/ ⟨0x20000, 0x00C, 12, 0, .ro, 0, .now⟩,
    /- hifTmoCntN -/ ⟨0x20000, 0x010, 31, 0, .rc, 0, .now⟩,
    /- hifLateCntN -/ ⟨0x20000, 0x014, 31, 0, .rc, 0, .now⟩,
    /- hifDropCntN -/ ⟨0x20000, 0x018, 31, 0, .rc, 0, .now⟩,
    /- hifPoisonCntN -/ ⟨0x20000, 0x01C, 31, 0, .rc, 0, .now⟩,
    /- hifAtsMissCntN -/ ⟨0x20000, 0x020, 31, 0, .rc, 0, .now⟩,
    /- hifAtsFailCntN -/ ⟨0x20000, 0x024, 31, 0, .rc, 0, .now⟩,
    /- hifInvCntN -/ ⟨0x20000, 0x028, 31, 0, .rc, 0, .now⟩,
    /- hifLinkdnCntN -/ ⟨0x20000, 0x02C, 31, 0, .rc, 0, .now⟩,
    /- mgtBootStatState -/ ⟨0x2F000, 0x100, 3, 0, .ro, 2, .now⟩,
    /- mgtBootStatSlot -/ ⟨0x2F000, 0x100, 4, 4, .ro, 0, .now⟩,
    /- mgtBootStatTrial -/ ⟨0x2F000, 0x100, 5, 5, .ro, 0, .now⟩,
    /- mgtBootStatFallback -/ ⟨0x2F000, 0x100, 6, 6, .ro, 0, .now⟩,
    /- mgtBootStatSlotSel -/ ⟨0x2F000, 0x100, 7, 7, .ro, 0, .now⟩,
    /- mgtBootStatCause -/ ⟨0x2F000, 0x100, 15, 8, .ro, 0, .now⟩,
    /- mgtBootMsMs -/ ⟨0x2F000, 0x104, 31, 0, .ro, 0, .now⟩,
    /- mgtJoinTicks -/ ⟨0x2F000, 0x108, 23, 0, .rw, 125000, .boot⟩,
    /- mgtDiscTicks -/ ⟨0x2F000, 0x10C, 31, 0, .rw, 7500000, .boot⟩,
    /- mgtFwStatStagedFw -/ ⟨0x2F000, 0x110, 0, 0, .ro, 0, .now⟩ ]

/-- Rows of the register tables, part 6. -/
def Fld.table6 : List FSpec :=
  [ /- mgtFwStatStagedImg -/ ⟨0x2F000, 0x110, 1, 1, .ro, 0, .now⟩,
    /- mgtFwStatAttempts -/ ⟨0x2F000, 0x110, 3, 2, .ro, 0, .now⟩,
    /- truStatKeyOk -/ ⟨0x2D000, 0x000, 0, 0, .ro, 0, .now⟩,
    /- truStatLow -/ ⟨0x2D000, 0x000, 1, 1, .ro, 0, .now⟩,
    /- truStatExhausted -/ ⟨0x2D000, 0x000, 2, 2, .ro, 0, .now⟩,
    /- truStatPersistFail -/ ⟨0x2D000, 0x000, 3, 3, .ro, 0, .now⟩,
    /- truSigNextQ -/ ⟨0x2D000, 0x004, 25, 0, .ro, 0, .now⟩,
    /- truSigResQ -/ ⟨0x2D000, 0x008, 25, 0, .ro, 0, .now⟩,
    /- truFusesIdx -/ ⟨0x2D000, 0x00C, 8, 0, .ro, 0, .now⟩,
    /- truFusesFw -/ ⟨0x2D000, 0x00C, 15, 9, .ro, 0, .now⟩,
    /- truFwFloorV -/ ⟨0x2D000, 0x010, 31, 0, .ro, 0, .now⟩,
    /- truImgFloorV -/ ⟨0x2D000, 0x014, 31, 0, .ro, 0, .now⟩,
    /- truBootCntN -/ ⟨0x2D000, 0x018, 31, 0, .ro, 0, .now⟩,
    /- truSignCntN -/ ⟨0x2D000, 0x01C, 31, 0, .rc, 0, .now⟩,
    /- vltStatReady -/ ⟨0x2C000, 0x000, 0, 0, .ro, 0, .now⟩,
    /- vltStatTarget -/ ⟨0x2C000, 0x000, 1, 1, .ro, 0, .now⟩,
    /- vltStatRecovered -/ ⟨0x2C000, 0x000, 2, 2, .ro, 0, .now⟩,
    /- vltStatPh2 -/ ⟨0x2C000, 0x000, 3, 3, .ro, 0, .now⟩,
    /- vltStatNr -/ ⟨0x2C000, 0x000, 8, 4, .ro, 31, .now⟩,
    /- vltDiesN -/ ⟨0x2C000, 0x004, 6, 0, .ro, 64, .now⟩,
    /- vltHoldDeclJ -/ ⟨0x2C000, 0x008, 15, 0, .rw, 0, .tick⟩,
    /- vltHoldMvMv -/ ⟨0x2C000, 0x00C, 15, 0, .ro, 0, .now⟩,
    /- vltEReqJ -/ ⟨0x2C000, 0x010, 15, 0, .ro, 0, .now⟩,
    /- vltWearPct -/ ⟨0x2C000, 0x014, 7, 0, .ro, 0, .now⟩,
    /- vltSpareBlk -/ ⟨0x2C000, 0x018, 15, 0, .ro, 0, .now⟩,
    /- vltFlushNoN -/ ⟨0x2C000, 0x01C, 31, 0, .ro, 0, .now⟩,
    /- vltLastMsMs -/ ⟨0x2C000, 0x020, 31, 0, .ro, 0, .now⟩,
    /- vltFlushCntN -/ ⟨0x2C000, 0x024, 31, 0, .rc, 0, .now⟩,
    /- vltEccCntN -/ ⟨0x2C000, 0x028, 31, 0, .rc, 0, .now⟩,
    /- evrNextLoSeq -/ ⟨0x2E000, 0x000, 31, 0, .ro, 0, .now⟩,
    /- evrNextHiSeq -/ ⟨0x2E000, 0x004, 31, 0, .ro, 0, .now⟩,
    /- evrOldestLoSeq -/ ⟨0x2E000, 0x008, 31, 0, .ro, 0, .now⟩,
    /- evrOldestHiSeq -/ ⟨0x2E000, 0x00C, 31, 0, .ro, 0, .now⟩,
    /- evrPersistLoSeq -/ ⟨0x2E000, 0x010, 31, 0, .ro, 0, .now⟩,
    /- evrPersistHiSeq -/ ⟨0x2E000, 0x014, 31, 0, .ro, 0, .now⟩,
    /- evrStatCairnN -/ ⟨0x2E000, 0x018, 16, 0, .ro, 0, .now⟩,
    /- evrStatNorFail -/ ⟨0x2E000, 0x018, 17, 17, .ro, 0, .now⟩,
    /- evrLostCntN -/ ⟨0x2E000, 0x01C, 31, 0, .rc, 0, .now⟩,
    /- evrClearCntN -/ ⟨0x2E000, 0x020, 31, 0, .ro, 0, .now⟩,
    /- evrNorCntN -/ ⟨0x2E000, 0x024, 31, 0, .rc, 0, .now⟩ ]

/-- Rows of the register tables, part 7. -/
def Fld.table7 : List FSpec :=
  [ /- glbIdStepping -/ ⟨0x10000, 0x000, 7, 0, .ro, 177, .now⟩,
    /- glbIdVariant -/ ⟨0x10000, 0x000, 8, 8, .ro, 0, .now⟩,
    /- glbIdUnits -/ ⟨0x10000, 0x000, 23, 16, .ro, 17, .now⟩,
    /- glbStateState -/ ⟨0x10000, 0x004, 3, 0, .ro, 2, .now⟩,
    /- glbScratchV -/ ⟨0x10000, 0x008, 31, 0, .rw, 0, .now⟩,
    /- glbAlertFailStop -/ ⟨0x10000, 0x00C, 0, 0, .w1c, 0, .now⟩,
    /- glbAlertBootHalt -/ ⟨0x10000, 0x00C, 1, 1, .w1c, 0, .now⟩,
    /- glbAlertAddrConflict -/ ⟨0x10000, 0x00C, 2, 2, .w1c, 0, .now⟩,
    /- glbAlertFatal -/ ⟨0x10000, 0x00C, 3, 3, .w1c, 0, .now⟩,
    /- glbApplyStatPend -/ ⟨0x10000, 0x010, 5, 0, .ro, 0, .now⟩,
    /- glbApplyStatFail -/ ⟨0x10000, 0x010, 21, 16, .ro, 0, .now⟩,
    /- mgtErrlogCode -/ ⟨0x2F000, 0x000, 7, 0, .ro, 0, .now⟩,
    /- mgtErrlogUnit -/ ⟨0x2F000, 0x000, 15, 8, .ro, 0, .now⟩,
    /- mgtErrlogSrc -/ ⟨0x2F000, 0x000, 17, 16, .ro, 0, .now⟩,
    /- mgtErrlogOvf -/ ⟨0x2F000, 0x000, 18, 18, .ro, 0, .now⟩,
    /- mgtErrlogValid -/ ⟨0x2F000, 0x000, 31, 31, .w1c, 0, .now⟩,
    /- mgtErrlogAddrOffset -/ ⟨0x2F000, 0x004, 21, 0, .ro, 0, .now⟩,
    /- mgtErrlogValV -/ ⟨0x2F000, 0x008, 31, 0, .ro, 0, .now⟩,
    /- mgtErrlogEdgeN -/ ⟨0x2F000, 0x00C, 31, 0, .ro, 0, .now⟩,
    /- mgtErrlogCntN -/ ⟨0x2F000, 0x010, 31, 0, .rc, 0, .now⟩,
    /- mgtInjStatPermit -/ ⟨0x2F000, 0x200, 0, 0, .ro, 0, .now⟩,
    /- mgtInjStatTestEn -/ ⟨0x2F000, 0x200, 1, 1, .ro, 0, .now⟩,
    /- mgtInjStatImg -/ ⟨0x2F000, 0x200, 2, 2, .ro, 0, .now⟩,
    /- mgtInjStatArmed -/ ⟨0x2F000, 0x200, 6, 3, .ro, 0, .now⟩,
    /- mgtInjSelSlot -/ ⟨0x2F000, 0x204, 1, 0, .rw, 0, .now⟩,
    /- mgtInjDetDet -/ ⟨0x2F000, 0x208, 7, 0, .rw, 0, .now⟩,
    /- mgtInjDetParam -/ ⟨0x2F000, 0x208, 15, 8, .rw, 0, .now⟩,
    /- mgtInjDetCount -/ ⟨0x2F000, 0x208, 31, 16, .rw, 1, .now⟩,
    /- mgtInjTgtSubj -/ ⟨0x2F000, 0x20C, 15, 0, .rw, 0, .now⟩,
    /- mgtInjTgtKind -/ ⟨0x2F000, 0x20C, 19, 16, .rw, 0, .now⟩,
    /- mgtInjArmArm -/ ⟨0x2F000, 0x210, 0, 0, .rw, 0, .tick⟩,
    /- mgtInjLeftN -/ ⟨0x2F000, 0x214, 15, 0, .ro, 0, .now⟩,
    /- mgtInjDoneN -/ ⟨0x2F000, 0x218, 31, 0, .rc, 0, .now⟩,
    /- mgtInjArmsN -/ ⟨0x2F000, 0x21C, 31, 0, .ro, 0, .now⟩,
    /- mgtWcCorrCntN -/ ⟨0x2F000, 0x220, 31, 0, .rc, 0, .now⟩,
    /- mgtWcUncCntN -/ ⟨0x2F000, 0x224, 31, 0, .rc, 0, .now⟩ ]

/-- The rows of the register tables, in the order in which `Fld` names the fields. -/
def Fld.table : List FSpec := Fld.table0 ++ Fld.table1 ++ Fld.table2 ++ Fld.table3 ++ Fld.table4 ++ Fld.table5 ++ Fld.table6 ++ Fld.table7

/-- The row of a field. -/
def Fld.spec (f : Fld) : FSpec := Fld.table.getD f.ctorIdx ⟨0, 0, 0, 0, .ro, 0, .now⟩

/-- Fields in the order of the spec, part 0. -/
def Fld.all0 : List Fld :=
  [.tckNowLoNs, .tckNowHiNs, .tckEdgeLoN, .tckEdgeHiN, .tckCfgPeriod, .tckCfgPpsEn, .tckCfgPpsOutEn, .tckStatLock, .tckStatIsRef, .tckStatPpsLock, .tckStatRefAddr, .tckOffsetPs, .tckOvrCntN, .tckOvrStatHost, .tckOvrStatCod, .tckOvrStatFix, .tckOvrStatMbr, .tckOvrStatRope, .tckIrqDiv, .tckBudlim0Host, .tckBudlim0Cod, .tckBudlim0Fix, .tckBudlim0Mbr, .tckBudlim1Rope, .tckTaiBaseLoSec, .tckTaiBaseHiSec, .codStatLaneOk, .codSelfchkCntN, .codLaneEnEn, .codFenceThrN, .codDecmatCntN, .cchPartDirtyGib, .cchPartBelayGib, .cchPartMetaGib, .cchCleanSlotsN, .cchDirtyUsedN, .cchWmHwm, .cchWmLwm, .cchWmStgHwm, .cchWmStgLwm]

/-- Fields in the order of the spec, part 1. -/
def Fld.all1 : List Fld :=
  [.cchWmApplyApply, .cchThrotStatOn, .cchThrotStatVols, .cchGatherUsedN, .cchForcedCntN, .cchHoldDeferN, .jnlStatBelay, .jnlStatVaultReady, .jnlStatExposed, .jnlRingUsedN, .jnlSealTickN, .jnlConfTickN, .jnlRelocCntN, .jnlNakCntN, .jnlBmQuietTicks, .jnlBmWritesN, .seqStatRebuild, .seqStatCopyback, .seqStatScrub, .seqStatCritRaise, .seqStatFloorHeld, .seqPaceFloor, .seqPaceCeil, .seqPaceCrit, .seqPaceStgFloor, .seqPaceStgCeil, .seqPaceStgCrit, .seqPaceApplyApply, .seqPaceShareS, .seqPaceLatTicks, .seqMissLimitTicks, .seqRebuiltCntN, .seqInplaceCntN, .seqLostUsedN, .seqScrubFixCntN, .seqFrondStatState, .seqFrondStatVol, .seqFrondCurLoVbn, .seqFrondCurHiVbn, .seqFrondMarkedN]

/-- Fields in the order of the spec, part 2. -/
def Fld.all2 : List Fld :=
  [.seqFrondTailN, .seqFrondUnitsN, .fixStatCores, .fixStatKr, .fixStatKt, .fixFenced0Mask, .fixFenced1Mask, .fixFenced2Mask, .fixDummyMax, .fixFenceThrN, .fixFaultCntN, .fixMismatchCntN, .fixRepairCntN, .fixUnrecCntN, .fixSealOpenN, .fixSealSavedN, .fixGenStatLow, .fixGenStatExh, .qeStatFailStop, .qeStatHalted, .qeMalfQQid, .qeMalfQPort, .qeMalfQCause, .qeMalfIdxC, .qeMalfHdrLoB, .qeMalfHdrHiB, .qeDbIgnCntN, .qeIllegalCntN, .qeFetchErrCntN, .qeQselQid, .qeQselCq, .qeQselPort, .qeQstatState, .qeQstatPend, .qeQstatExp, .qeQidx0N, .qeQidx1N, .qeSqEnN, .qeAdmSqLoAddr, .qeAdmSqHiAddr]

/-- Fields in the order of the spec, part 3. -/
def Fld.all3 : List Fld :=
  [.qeAdmCqLoAddr, .qeAdmCqHiAddr, .qeAdmHlLoAddr, .qeAdmHlHiAddr, .qeAdmDlLoAddr, .qeAdmDlHiAddr, .qeAdmSizeSqExp, .qeAdmSizeCqExp, .qeAdmSizeVec, .qeAdmApplyApply, .ordLockUsedN, .ordLockWaitN, .ordAccLoN, .ordAccHiN, .ordFullCntN, .ordAbortedCntN, .ordLateCntN, .ordNoabortCntN, .ordFlushOpenN, .ordFwdOpenN, .qeOvfHeldN, .qeOvfWaitN, .qeOvfCntN, .qeStallCntN, .qeCplDiscCntN, .dmvCfgMode, .dmvRetryN, .dmvPaceHwm, .dmvPaceLwm, .dmvPaceStgHwm, .dmvPaceStgLwm, .dmvPaceApplyApply, .dmvHaltedN, .dmvCselCh, .dmvCstatState, .dmvCstatDepth, .dmvCstatPrio, .dmvRetryCntN, .dmvHaltCntN, .dmvAlignCntN]

/-- Fields in the order of the spec, part 4. -/
def Fld.all4 : List Fld :=
  [.dmvPauseCntN, .dmvPreemptCntN, .dmvCqFullCntN, .mbrRoleMember, .mbrSplitMode, .mbrLinkUp, .mbrMembersN, .mbrQpUsedN, .mbrTmoTicks, .mbrRetryN, .mbrReconnTicks, .mbrMediaThrN, .mbrSpinupTicks, .mbrSpinupMax, .mbrCcStep, .mbrCcMin, .mbrCcTimer, .mbrTmoCntN, .mbrLateCntN, .mbrMediaCntN, .mbrRefusedCntN, .mbrResvCntN, .mbrCnpRxCntN, .mbrCnpTxCntN, .ropIdRope, .ropAddrSelf, .ropAddrHasPartner, .ropAddrPartner, .ropCfgUdpPort, .ropCfgHandback, .ropStatPartner, .ropStatPaths, .ropStatAddrConflict, .ropPeersUp, .ropHbMissN, .ropWinSelN, .ropWinBaseSlot, .ropWinLenSlots, .ropWinPeerAddr, .ropWinPeerEn]

/-- Fields in the order of the spec, part 5. -/
def Fld.all5 : List Fld :=
  [.ropWinStgBaseSlot, .ropWinStgLenSlots, .ropWinStgPeerAddr, .ropWinStgPeerEn, .ropWinApplyApply, .ropYieldTmoTicks, .ropHandbackTicks, .ropWinNakCntN, .ropRetxCntN, .ropPathFailCntN, .ropDropCntN, .ropTakeoverCntN, .hifLstatRate, .hifLstatWidth, .hifLstatFlit, .hifLstatDPf0, .hifLstatDPf1, .hifLstatAts, .hifLstatF, .hifCfgWakeEn, .hifCtoUs, .hifQuarN, .hifTmoCntN, .hifLateCntN, .hifDropCntN, .hifPoisonCntN, .hifAtsMissCntN, .hifAtsFailCntN, .hifInvCntN, .hifLinkdnCntN, .mgtBootStatState, .mgtBootStatSlot, .mgtBootStatTrial, .mgtBootStatFallback, .mgtBootStatSlotSel, .mgtBootStatCause, .mgtBootMsMs, .mgtJoinTicks, .mgtDiscTicks, .mgtFwStatStagedFw]

/-- Fields in the order of the spec, part 6. -/
def Fld.all6 : List Fld :=
  [.mgtFwStatStagedImg, .mgtFwStatAttempts, .truStatKeyOk, .truStatLow, .truStatExhausted, .truStatPersistFail, .truSigNextQ, .truSigResQ, .truFusesIdx, .truFusesFw, .truFwFloorV, .truImgFloorV, .truBootCntN, .truSignCntN, .vltStatReady, .vltStatTarget, .vltStatRecovered, .vltStatPh2, .vltStatNr, .vltDiesN, .vltHoldDeclJ, .vltHoldMvMv, .vltEReqJ, .vltWearPct, .vltSpareBlk, .vltFlushNoN, .vltLastMsMs, .vltFlushCntN, .vltEccCntN, .evrNextLoSeq, .evrNextHiSeq, .evrOldestLoSeq, .evrOldestHiSeq, .evrPersistLoSeq, .evrPersistHiSeq, .evrStatCairnN, .evrStatNorFail, .evrLostCntN, .evrClearCntN, .evrNorCntN]

/-- Fields in the order of the spec, part 7. -/
def Fld.all7 : List Fld :=
  [.glbIdStepping, .glbIdVariant, .glbIdUnits, .glbStateState, .glbScratchV, .glbAlertFailStop, .glbAlertBootHalt, .glbAlertAddrConflict, .glbAlertFatal, .glbApplyStatPend, .glbApplyStatFail, .mgtErrlogCode, .mgtErrlogUnit, .mgtErrlogSrc, .mgtErrlogOvf, .mgtErrlogValid, .mgtErrlogAddrOffset, .mgtErrlogValV, .mgtErrlogEdgeN, .mgtErrlogCntN, .mgtInjStatPermit, .mgtInjStatTestEn, .mgtInjStatImg, .mgtInjStatArmed, .mgtInjSelSlot, .mgtInjDetDet, .mgtInjDetParam, .mgtInjDetCount, .mgtInjTgtSubj, .mgtInjTgtKind, .mgtInjArmArm, .mgtInjLeftN, .mgtInjDoneN, .mgtInjArmsN, .mgtWcCorrCntN, .mgtWcUncCntN]

/-- Every field, in the order of the spec. -/
def Fld.all : List Fld := Fld.all0 ++ Fld.all1 ++ Fld.all2 ++ Fld.all3 ++ Fld.all4 ++ Fld.all5 ++ Fld.all6 ++ Fld.all7

/-- Unit code, event number and severity (0 information, 1 warning, 2 error, 3 fatal). -/
structure EvSpec where
  unit : Nat
  num  : Nat
  sev  : Nat
  deriving DecidableEq, Repr

/-- The event codes of R383. -/
def Ev.spec : Ev → EvSpec
  | .hifLinkDegraded => ⟨0x01, 0x01, 1⟩
  | .hifLinkDown => ⟨0x01, 0x02, 1⟩
  | .ringLineReserved => ⟨0x02, 0x01, 1⟩
  | .ringFetchErr => ⟨0x02, 0x02, 1⟩
  | .ringMalformed => ⟨0x02, 0x03, 3⟩
  | .cqStalled => ⟨0x02, 0x04, 1⟩
  | .lockTableFull => ⟨0x03, 0x01, 1⟩
  | .dirtyThrottleOn => ⟨0x04, 0x01, 1⟩
  | .dirtyThrottleOff => ⟨0x04, 0x02, 0⟩
  | .sealNak => ⟨0x05, 0x01, 1⟩
  | .belayUp => ⟨0x05, 0x02, 0⟩
  | .belayDown => ⟨0x05, 0x03, 1⟩
  | .journalMemberReplaced => ⟨0x05, 0x04, 1⟩
  | .journalExposed => ⟨0x05, 0x05, 2⟩
  | .resyncUnchecked => ⟨0x05, 0x06, 1⟩
  | .bivouacDiscarded => ⟨0x05, 0x07, 0⟩
  | .journalLost => ⟨0x05, 0x08, 3⟩
  | .codSelfcheck => ⟨0x06, 0x01, 1⟩
  | .codLaneFenced => ⟨0x06, 0x02, 2⟩
  | .domainExposed => ⟨0x07, 0x01, 1⟩
  | .spareExhausted => ⟨0x07, 0x02, 2⟩
  | .memberMissing => ⟨0x08, 0x01, 1⟩
  | .memberFailed => ⟨0x08, 0x02, 2⟩
  | .memberReturned => ⟨0x08, 0x03, 0⟩
  | .rebuildStart => ⟨0x08, 0x04, 0⟩
  | .rebuildReplan => ⟨0x08, 0x05, 1⟩
  | .rebuildDone => ⟨0x08, 0x06, 0⟩
  | .copybackDone => ⟨0x08, 0x07, 0⟩
  | .lostExtent => ⟨0x08, 0x08, 2⟩
  | .poolLost => ⟨0x08, 0x09, 3⟩
  | .paceFloorHeld => ⟨0x08, 0x0A, 0⟩
  | .paceCriticalRaise => ⟨0x08, 0x0B, 1⟩
  | .scrubLate => ⟨0x08, 0x0C, 1⟩
  | .scrubCycleEnd => ⟨0x08, 0x0D, 0⟩
  | .frondStart => ⟨0x08, 0x0E, 0⟩
  | .frondSwitch => ⟨0x08, 0x0F, 0⟩
  | .frondReleased => ⟨0x08, 0x10, 0⟩
  | .frondCancelled => ⟨0x08, 0x11, 0⟩
  | .fixMismatch => ⟨0x09, 0x01, 1⟩
  | .fixRepaired => ⟨0x09, 0x02, 0⟩
  | .fixRewriteFailed => ⟨0x09, 0x03, 2⟩
  | .fixUnrecovered => ⟨0x09, 0x04, 2⟩
  | .fixDirtyUnrecovered => ⟨0x09, 0x05, 2⟩
  | .fixFault => ⟨0x09, 0x06, 1⟩
  | .fixFaultPersist => ⟨0x09, 0x07, 2⟩
  | .fixCoreFenced => ⟨0x09, 0x08, 2⟩
  | .staleBlock => ⟨0x09, 0x09, 1⟩
  | .genLow => ⟨0x09, 0x0A, 1⟩
  | .genExhausted => ⟨0x09, 0x0B, 2⟩
  | .sealCtxRefused => ⟨0x09, 0x0C, 1⟩
  | .dmvAlign => ⟨0x0A, 0x01, 2⟩
  | .dmvListInvalid => ⟨0x0A, 0x02, 2⟩
  | .dmvHalt => ⟨0x0A, 0x03, 2⟩
  | .memberRefused => ⟨0x0B, 0x01, 1⟩
  | .memberMediaLimit => ⟨0x0B, 0x02, 2⟩
  | .resvConflict => ⟨0x0B, 0x03, 2⟩
  | .mbrQpLimit => ⟨0x0B, 0x04, 1⟩
  | .volumeWakeFail => ⟨0x0B, 0x05, 2⟩
  | .ropeAddrConflict => ⟨0x0C, 0x01, 3⟩
  | .belayPairMismatch => ⟨0x0C, 0x02, 2⟩
  | .belaySizeMismatch => ⟨0x0C, 0x03, 2⟩
  | .belayKeyMismatch => ⟨0x0C, 0x04, 2⟩
  | .belayWinNak => ⟨0x0C, 0x05, 1⟩
  | .partnerSuspect => ⟨0x0C, 0x06, 1⟩
  | .partnerBack => ⟨0x0C, 0x07, 0⟩
  | .partnerAbsent => ⟨0x0C, 0x08, 2⟩
  | .takeover => ⟨0x0C, 0x09, 1⟩
  | .vaultReady => ⟨0x0D, 0x01, 0⟩
  | .vaultNotReady => ⟨0x0D, 0x02, 1⟩
  | .vaultDieRetired => ⟨0x0D, 0x03, 1⟩
  | .bivouacStart => ⟨0x0D, 0x04, 1⟩
  | .bivouacSealed => ⟨0x0D, 0x05, 0⟩
  | .bivouacIncomplete => ⟨0x0D, 0x06, 2⟩
  | .vaultFlushBad => ⟨0x0D, 0x07, 2⟩
  | .truPersistFail => ⟨0x0E, 0x01, 2⟩
  | .truKeyLow => ⟨0x0E, 0x02, 1⟩
  | .truKeyExhausted => ⟨0x0E, 0x03, 2⟩
  | .keyExported => ⟨0x0E, 0x04, 1⟩
  | .keyUnavailable => ⟨0x0E, 0x05, 2⟩
  | .evrRestart => ⟨0x0F, 0x01, 0⟩
  | .evrCleared => ⟨0x0F, 0x02, 0⟩
  | .evrNorFail => ⟨0x0F, 0x03, 1⟩
  | .evrLogTrim => ⟨0x0F, 0x04, 1⟩
  | .bootFallback => ⟨0x10, 0x01, 1⟩
  | .fwRollback => ⟨0x10, 0x02, 1⟩
  | .configRejected => ⟨0x10, 0x03, 2⟩
  | .fwStageRejected => ⟨0x10, 0x04, 1⟩
  | .fwCommitted => ⟨0x10, 0x05, 0⟩
  | .poolAssemblyFail => ⟨0x10, 0x06, 2⟩
  | .injectArmed => ⟨0x10, 0x07, 1⟩
  | .injectDisarmed => ⟨0x10, 0x08, 0⟩
  | .timeLocked => ⟨0x11, 0x01, 0⟩
  | .timeHoldover => ⟨0x11, 0x02, 1⟩
  | .timeSplit => ⟨0x11, 0x03, 1⟩
  | .ppsLost => ⟨0x11, 0x04, 1⟩
  | .tickMismatch => ⟨0x11, 0x05, 3⟩
  | .tickOverrun => ⟨0x11, 0x06, 1⟩
  | .wordUncorrectable u => ⟨u, 0xF0, 2⟩

end Sys2Proof.Machine
end

