-- ==== Sys2Proof/Machine/State.lean ====
section
/-!
DEFINITION. The state of the module: one structure per unit of R9, everything plain data, and the state right after reset.
Association lists (key, value) hold sparse tables; the operations over them are in Ops.
-/
namespace Sys2Proof.Machine

/-! ### Outcomes -/

/-- Faults. The spec gives every command of the table an effect, so no meaning of this model raises one. -/
inductive Fault where
  /-- Raised by no meaning: the host's interface asks for a fault type. Safe. -/
  | unraised
  deriving DecidableEq, Repr

/-- Refusals. -/
inductive Refusal where
  /-- Answered only by an arm of `exec` whose command has no meaning yet; the argument is the row's mnemonic. Safe. -/
  | notModelled (mnemonic : String)
  deriving DecidableEq, Repr

/-! ### The part, its phases and its pins -/

/-- The two variants (R1). -/
inductive Variant where
  | h96 | h192
  deriving DecidableEq, Repr

/-- How a part is packed (R1): JEDEC tray of five modules, or a single module. -/
inductive Packing where
  | tray | single
  deriving DecidableEq, Repr

/-- What one particular part is: variant and packing, which fix its ordering code (R1), and serial number. -/
structure Part where
  variant  : Variant
  packing  : Packing
  serial   : BitVec 128
  romDigest : BitVec 256
  deriving DecidableEq, Repr

/-- Sub-states of a bivouac (R369). -/
inductive BivSt where
  | quiesce | phase1 | phase2 | close | off
  deriving DecidableEq, Repr

/-- The states of R337 and R340, with FAIL_STOP (R201) and BIVOUAC (R369). -/
inductive Phase where
  | powerOff | reset | trustBoot | configLoad | memoryInit | vaultRecovery | ropeJoin
  | memberDiscovery | poolAssembly | journalReconcile | online | failStop | bivouac (b : BivSt)
  deriving DecidableEq, Repr

/-- Levels of the low-speed pins the module reads or drives (R419, R429, R431). `true` is "asserted", "lit" or "high". -/
structure Pins where
  rails     : Bool        -- main rails in tolerance
  pwrFail   : Bool        -- PWR_FAIL# asserted
  sysRst    : Bool        -- SYS_RST# asserted
  sysRstHeld : Bool       -- a SYS_RST# held off by a bivouac was asserted (R369)
  slotSel   : Bool        -- SLOT_SEL as sampled
  testEn    : Bool        -- TEST_EN# sampled low
  sysClk    : Bool        -- SYS_CLK has transitions
  perst     : List Bool   -- PERST0#, PERST1# asserted
  thermAlert : Bool       -- THERM_ALERT# asserted
  wake      : List Bool   -- WAKE0#, WAKE1# asserted
  tapIr     : BitVec 8    -- instruction in force in the TAP (R433)
  deriving DecidableEq, Repr

/-! ### Timebase (TCK) -/

/-- Lock states of R24. -/
inductive LockSt where
  | free | acquiring | locked | holdover
  deriving DecidableEq, Repr

/-- One delay exchange (R294): round trip and offset, both in picoseconds. -/
structure Exchange where
  roundTrip : Int
  offset    : Int
  deriving DecidableEq, Repr

/-- TCK's state (R18 to R26, R32, R294). -/
structure Tck where
  now      : Nat             -- rope time, ns (R18)
  acc      : Nat             -- the accumulator at the last SYS_CLK cycle before `now`: 64 bits of ns and 32 fractional bits (R18)
  trim     : Int             -- servo trim of the increment, in 2^-32 ns per cycle
  isLocal  : Bool            -- local time, before the step of R20
  lock     : LockSt
  isRef    : Bool
  refAddr  : BitVec 12
  ppsLock  : Bool
  ppsMiss  : Nat             -- missing or rejected pulses in a row
  near     : Nat             -- consecutive messages with offset within ±10 ns
  lastMsg  : Nat             -- edge of the last TIME_SYNC or reference change
  syncers  : List (BitVec 12 × Bool)   -- peers that have sent TIME_SYNC as reference, with their PPS flag (R21)
  syncAt   : Option Nat      -- edge at which TIME_SYNC was last sent
  ppsSec   : Nat             -- second of the last pulse accepted, rejected or found missing
  splitAt  : Option Nat      -- edge of the last TIME_SPLIT record
  exch     : List Exchange   -- last sixteen exchanges, newest first
  sync     : Option (Nat × Nat × Nat × Nat)   -- t1, t2, path, edge of the TIME_SYNC
  reqSent  : Option Nat      -- t3 of the DELAY_REQ in flight
  ovrLast  : Option Nat      -- edge of the last TICK_OVERRUN record
  ovrMask  : BitVec 5        -- classes carried since that record
  ovrUnits : Nat             -- units carried since that record
  ovrEdges : Nat             -- edges with overrun since that record
  ppsOut   : Bool            -- PPS_OUT rose at the last second boundary passed
  deriving DecidableEq, Repr

/-! ### Host rings (QE) -/

/-- An I/O command's opcode and fields (R214). -/
inductive IoOp where
  | read (vbn count : Nat) (noFill : Bool) (list : List ListEnt)
  | write (vbn count : Nat) (members : Bool) (list : List ListEnt)
  | flush
  | abort (tq tt : BitVec 16)
  | verify (vbn count : Nat)
  | sealOpen (prio : BitVec 8) (label : BitVec 384)
  | sealAppend (vbn bytes : Nat) (handle : BitVec 32) (store members : Bool) (list : List ListEnt)
  | sealClose (handle : BitVec 32) (addr : BitVec 64)
  | sealSave (handle : BitVec 32) (addr : BitVec 64)
  | sealRestore (addr : BitVec 64) (ctx : Option (HostRead SealCtxImg))
  | volPower (target : Nat)
  | writeZeroes (vbn count : Nat) (members : Bool)
  deriving DecidableEq, Repr

/-- What QE has in flight for a ring (R192, R193, R213). -/
inductive Fetch where
  | idle
  | line                                   -- host line read
  | first                                  -- first unit at c
  | rest (u : RingUnit)                    -- remaining units of the entry
  | segment (us : List RingUnit) (ents : List ListEnt) (chains : Nat) (next : ListEnt)   -- list segment
  | waiting (cmd : Nat)                    -- an entry offered to ORD and not accepted yet
  | slots (units : Nat) (tag : BitVec 16) (vol : BitVec 12) (op : IoOp)   -- an entry for another module waiting for hold slots (R302)
  deriving DecidableEq, Repr

/-- Submission ring states (R205); an absent ring has no entry in the table. -/
inductive SqSt where
  | disabled | enabled | stopped
  deriving DecidableEq, Repr

/-- A submission ring (R188, R204). -/
structure Sq where
  st       : SqSt
  base     : BitVec 64
  exp      : Nat
  hostLine : BitVec 64
  devLine  : BitVec 64
  cqPair   : Nat
  bh       : Nat           -- host rate share, units of 0.25 GB/s
  relaxed  : Bool
  c        : BitVec 32
  h        : BitVec 32
  p        : BitVec 32     -- producer index last read
  pend     : Bool          -- doorbell pending bit
  fetch    : Fetch
  deriving DecidableEq, Repr

/-- A completion record before it is given its ring position (R220). -/
structure CplRec where
  result : BitVec 64
  tag    : BitVec 16
  sqid   : BitVec 16
  cls    : BitVec 8
  code   : BitVec 8
  detail : BitVec 16
  acc    : BitVec 32
  deriving DecidableEq, Repr

/-- A completion ring (R202, R245). `lineOk` says that the host line has been read since the last test of R244. -/
structure Cq where
  base     : BitVec 64
  exp      : Nat
  hostLine : BitVec 64
  devLine  : BitVec 64
  vector   : Option Nat
  t        : BitVec 32     -- CQ tail
  hc       : BitVec 32     -- CQ consumer head last read
  enabled  : Bool
  held     : Bool
  overflow : List CplRec   -- at most 256
  waiting  : List CplRec   -- finished commands waiting unposted
  idleEdges : Nat          -- consecutive edges HELD with no record posted
  stallLogged : Bool
  lineRead : Bool          -- a read of the host line is in flight for posting
  deriving DecidableEq, Repr

/-- A device index line (R186) as last written; the Edge field is not compared. -/
structure DevLine where
  sqHead : BitVec 32
  cqTail : BitVec 32
  sqSt   : Nat
  cqSt   : Nat
  modSt  : Nat
  deriving DecidableEq, Repr

/-- A record that has become eligible and is not posted yet (R33). -/
structure Elig where
  q    : RingRef         -- submission ring
  cq   : RingRef         -- completion ring it posts to
  accd : Option Nat      -- acceptance number
  cpl  : CplRec
  cmd  : Option Nat      -- command that owns it
  deriving DecidableEq, Repr

/-- QE's state. -/
structure Qe where
  sqs    : List (RingRef × Sq)
  cqs    : List (RingRef × Cq)
  lines  : List (RingRef × DevLine)      -- device lines as last written, by pair
  elig   : List Elig                     -- found eligible since the last step 4
  vecPend : List (PciePort × Fn × Nat)   -- vectors with records posted since their last interrupt (R34)
  failAt : Option Nat                    -- tick F of R201
  halted : Bool
  outAdm : List (RingRef × BitVec 16)    -- admin commands accepted and not completed: ring, tag
  doneAdm : List (RingRef × BitVec 16)   -- admin commands completed whose record is neither posted nor in an overflow area (R199)
  goneAdm : List (RingRef × BitVec 16)   -- of those, the ones whose ring a reset has removed (R208)
  deriving DecidableEq, Repr

/-! ### Commands (R214, R224) and ORD -/

/-- Status of a completion (R221). -/
structure Stat where
  cls    : BitVec 8
  code   : BitVec 8
  detail : BitVec 16
  result : BitVec 64
  deriving DecidableEq, Repr

/-- Where an I/O command came from: a ring of this module, a peer that forwarded it (R246), or a ring that is no more. -/
inductive Origin where
  | ring (q : RingRef)
  | peer (addr : BitVec 12) (fid : BitVec 64) (port : PciePort) (qid : BitVec 16)
  | gone      -- a ring that a reset has removed (R208, R327)
  deriving DecidableEq, Repr

/-- Life of a write slice (R88, R99). -/
inductive SliceSt where
  | moving | landed | journalled | secured | onMembers | failed
  deriving DecidableEq, Repr

/-- An admitted slice (R435): block offset within the command, blocks, generation, dirty slots, intent records. -/
structure Slice where
  id    : Nat
  off   : Nat
  n     : Nat
  gen   : Nat
  slots : List Nat
  recs  : List (BitVec 32)
  st    : SliceSt
  edge  : Nat            -- admitting edge
  tick  : Nat            -- tick in which its records were appended
  retried : Bool         -- the second fetch of R166 has been made
  need  : Bool           -- completes on members (R80, R99)
  deriving DecidableEq, Repr

/-- A block of a READ or VERIFY on its way (R16, R121, R169). -/
inductive RBlkSt where
  | need                 -- a member read is to be admitted
  | wait                 -- member read outstanding
  | recon (task : Nat)   -- being reconstructed
  | ready (d : Block)    -- verified in the hold buffer
  | moving               -- being written to the host
  | poisoned             -- being written to the host, its TLPs marked as poisoned (R171)
  | sent
  | bad (code : Nat)     -- class 0x02 code
  deriving DecidableEq, Repr

/-- A block of an admitted read slice, with its hold slot. -/
structure RBlk where
  vbn : Nat
  st  : RBlkSt
  deriving DecidableEq, Repr

/-- Progress of a command between acceptance and completion. -/
inductive CmdSt where
  | accepted             -- not admitted yet
  | running              -- some slice admitted, or its effect under way
  | held                 -- held with its lock by the volume's power state (R219)
  | forwarded (owner : BitVec 12) (fid : BitVec 64)
  | eligible (s : Stat)  -- completion eligible, record not yet handed to step 4
  | finished             -- record posted or waiting in QE
  deriving DecidableEq, Repr

/-- An accepted I/O command (R231), or, before acceptance, a request waiting for its lock (R233). -/
structure Cmd where
  id       : Nat
  org      : Origin
  units    : Nat
  tag      : BitVec 16
  vol      : BitVec 12
  op       : IoOp
  acc      : Option Nat        -- acceptance number
  accEdge  : Nat               -- tick of acceptance
  st       : CmdSt
  next     : Nat               -- blocks (or bytes, for a non-storing append) admitted so far
  slices   : List Slice
  rblks    : List RBlk
  fail     : Option Stat       -- status that ends it once its admitted slices settle (R164, R166, R259)
  lastGen  : Nat
  repaired : Nat
  set      : List Nat          -- FLUSH: commands of its set not completed; ABORT: its target
  slotsLeft : List Nat         -- FLUSH: dirty slots of its set not yet on members
  mflush   : List Nat          -- FLUSH: member Flush commands outstanding
  credit   : Nat               -- forwarded READ: end of the credit (R302)
  rcvd     : List (Nat × Block) -- forwarded write payload arrived
  aborted  : Bool
  lockHeld : Bool
  pulled   : List (Nat × List Byte)   -- payload that a SEAL_APPEND absorbs, by slice: slices may arrive in any order
  deriving DecidableEq, Repr

/-- A granted lock or waiting request (R232 to R235). -/
structure LockEnt where
  cmd   : Nat
  vol   : BitVec 12
  first : Nat
  count : Nat
  excl  : Bool
  held  : Bool      -- granted
  entry : Bool      -- has an entry of the table
  deriving DecidableEq, Repr

/-- ORD's state. -/
structure Ord where
  acc     : Nat               -- acceptance counter (R231)
  locks   : List LockEnt      -- in the order offered
  cmds    : List Cmd
  nextCmd : Nat
  fullLog : Option Nat        -- edge of the last LOCK_TABLE_FULL record
  deriving DecidableEq, Repr

/-! ### Cache (CCH) -/

/-- State of a dirty slot (R70 to R74). -/
inductive SlotSt where
  | reserved | dirty | superseded | freed
  deriving DecidableEq, Repr

/-- A dirty slot in use (R69). `freed` waits for the partner's confirmation of its retire record (R95). -/
structure Slot where
  pool  : BitVec 16
  vol   : BitVec 12
  vbn   : Nat
  gen   : Nat
  blk   : Option Block        -- once landed
  st    : SlotSt
  destageable : Bool
  mirror : Bool               -- a slot of the belay receive area that serves after takeover (R304)
  holds : Nat                 -- snapshots in flight that hold it
  entries : Nat               -- gather entries that record it (R81)
  freeTick : Option Nat       -- tick whose retire record frees it (R95)
  unreadable : Bool           -- R169
  cmd   : Nat
  deriving DecidableEq, Repr

/-- Gather entry states (R76). -/
inductive GSt where
  | open_ | due | destaging
  deriving DecidableEq, Repr

/-- A gather entry (R75, R436). The bitmaps are lists of (volume block number, slot). -/
structure GEntry where
  pool   : BitVec 16
  vol    : BitVec 12
  layout : Nat
  stripe : Nat              -- layout stripe
  vstripe : Nat             -- volume stripe
  first  : List (Nat × Nat)
  second : List (Nat × Nat)
  snap   : List (Nat × Nat) -- snapshot of the destage in flight
  e0     : Nat
  e0b    : Nat              -- e0 of the second bitmap
  st     : GSt
  offered : Nat             -- order in which it became due
  fua    : Bool             -- its next destage carries FUA (R80, R239)
  curFua : Bool             -- the destage in flight carries FUA
  heldR122 : Bool           -- held DUE under R122
  again  : Bool             -- becomes due again when the destage in flight retires (R80)
  skip   : List Nat         -- strips whose write failed: erased for the next destage (R76, R273)
  badAt  : List (Nat × Nat) -- strips and offsets whose read failed: erased there for the next destage (R77)
  flushFor : List Nat       -- FLUSH commands that have the members flushed when the destage in flight retires (R239)
  deriving DecidableEq, Repr

/-- A slot of the clean read cache (R83). -/
structure CleanSlot where
  pool : BitVec 16
  vol : BitVec 12
  vbn : Nat
  blk : Block
  ref : Bool
  deriving DecidableEq, Repr

/-- CCH's state. -/
structure Cch where
  dirtySlots : Nat                 -- slots of the local dirty area
  recvSlots  : Nat                 -- slots of the belay receive area
  cleanSlots : Nat
  regions : List Nat               -- first byte of each HBM region, in the order of R66 from the lowest address; empty before MEMORY_INIT
  slots   : List (Nat × Slot)      -- slots in use, by slot index
  gather  : List GEntry
  waitq   : List GEntry            -- stripes awaiting entries, in landing order (R75)
  throttled : Bool
  throtVols : List (BitVec 12)
  retired : List (BitVec 12 × Nat) -- slots of each volume retired at the last step 3
  clean   : List CleanSlot         -- in CLOCK order from the hand
  holdUsed : Nat                   -- hold slots in use (R84)
  dueSeq  : Nat
  deriving DecidableEq, Repr

/-! ### Journal (JNL) -/

/-- An intent record that is not retired, with its slots still to secure (R90). -/
structure LiveRec where
  no    : BitVec 32
  intent : Intent
  slots : List Nat      -- slots not freed yet
  all   : List Nat      -- every slot of the run
  anyOn : Bool          -- some block of it is on members
  tick  : Nat
  deriving DecidableEq, Repr

/-- A seal waiting for the belay confirmation (R96, R97). -/
structure SealSt where
  tick    : Nat
  srec    : SealRec
  recs    : List (BitVec 32 × JRec)
  slots   : List Nat         -- dirty slots whose blocks it counts
  conf    : Bool             -- confirmation received
  naks    : Nat
  catchUp : Bool             -- the catch-up seal of R98
  deriving DecidableEq, Repr

/-- Blocks written to the journal members, as R108 waits for them: the members that are to acknowledge, the commands outstanding with their member, and the
members that will not acknowledge. -/
structure JWait where
  targets : List Nat
  waits   : List (Nat × Nat)
  bad     : List Nat
  deriving DecidableEq, Repr

/-- A cold-journal append in flight (R99, R106): the pool, the tick, its records, and whom it waits for. -/
structure ColdWait where
  pool : BitVec 16
  tick : Nat
  recs : List (BitVec 32)
  mark : Bool              -- the mark of a shutdown or yield
  wait : JWait
  deriving DecidableEq, Repr

/-- JNL's state. -/
structure Jnl where
  belay   : BelaySt
  next    : BitVec 32                  -- next record number
  ring    : List (Nat × JRec)          -- ring slot, record (R89)
  live    : List LiveRec               -- unretired intent records, oldest first
  tickRecs : List (BitVec 32 × JRec)   -- records appended in the current tick
  tickSlots : List Nat                 -- slots of the blocks that those records cover
  seals   : List SealSt                -- cut and not confirmed, in tick order
  sealedSlots : List (Nat × List (BitVec 32))   -- ticks and records to secure under the solo policies (R99)
  confIn  : List Nat                   -- confirmations received in the closing tick
  nakIn   : List Nat                   -- SEAL_NAKs received in the closing tick
  lastSeal : Nat
  lastConf : Nat
  reserved : Nat                       -- intent records reserved and not yet appended (R92)
  retireQ : List (BitVec 32)           -- record numbers to name in retire records of the coming tick
  coldWait : List ColdWait             -- cold-journal appends in flight (R99)
  deriving DecidableEq, Repr

/-! ### Pools, LAY and SEQ -/

/-- Pool conditions (R117). -/
inductive Cond where
  | optimal | degraded | critical | lost
  deriving DecidableEq, Repr

/-- A volume's run-time state. -/
structure VolRun where
  id       : BitVec 12
  gen      : Nat
  stamped  : Bool            -- a write slice was admitted at the last edge (R162)
  lowLogged : Bool
  exhausted : Bool
  power    : VPower
  wake     : Bool            -- a wake is pending (R219)
  powerCmd : Option Nat      -- VOLUME_POWER in flight
  powerTgt : VPower          -- state requested by it
  attrsOld : Option VolAttrs -- attributes still in force until the next edge (R86)
  offline  : Bool
  deriving DecidableEq, Repr

/-- A bit of the dirty-region bitmap (R109). -/
inductive BmSt where
  | setting (w : JWait)
  | isSet
  | clearing (w : JWait)
  deriving DecidableEq, Repr

/-- A region whose bit is not clear. -/
structure BmBit where
  vol    : BitVec 12
  region : Nat
  st     : BmSt
  was    : Bool       -- it has been set, and its block is written again at another place (R110)
  touched : Nat       -- edge at which it was last touched
  deriving DecidableEq, Repr

/-- A metadata commit in flight (R105). -/
structure Flight where
  snap : PoolMeta
  wait : JWait
  deriving DecidableEq, Repr

/-- What the row shows of a volume: MGT reads volume entries from it (R10, R230). -/
structure PubVol where
  gen       : Nat
  exhausted : Bool
  offline   : Bool
  power     : VPower
  deriving DecidableEq, Repr

/-- The published copy of a pool's row of the pool state table (R12). -/
structure PubPool where
  cond    : Cond
  emax    : Nat
  rebuilding : Bool
  copyback : Bool
  reshaping : Bool
  members : List MemSt
  layouts : List Nat
  cursor  : BitVec 12 × Nat
  lost    : List LostExt
  holes   : Nat                    -- indices of the member list without a member (R142)
  vols    : List (BitVec 12 × PubVol)
  deriving DecidableEq, Repr

/-- Re-replication of journal structures to a new journal member (R107). -/
structure Rerep where
  src    : Nat
  dst    : Nat
  cursor : Nat           -- blocks copied
  total  : Nat
  n      : Nat           -- blocks of the step under way
  scan   : Bool          -- a scrub's check of the zone of `dst` itself (R134): only blocks that fail are written
  stale  : Bool          -- one of them was written meanwhile, so that the step is made again
  tried  : List Nat      -- sources whose copy of the step failed R43
  bad    : List (Nat × Nat)   -- their blocks that failed, by member and LBA: rewritten from the copy that verifies
  deriving DecidableEq, Repr

/-- An entry of a pool's cold journal (R106): where it begins in the circular log, its blocks, and the records that it holds. -/
structure ColdEnt where
  first : Nat
  n     : Nat
  recs  : List (BitVec 32)
  deriving DecidableEq, Repr

/-- A pool this module owns. -/
structure Pool where
  cur     : PoolMeta                 -- metadata in effect
  nxt     : PoolMeta                 -- with every change asked for
  flight  : Option Flight
  secret  : BitVec 256               -- K_P
  cond    : Cond
  emax    : Nat
  plan    : Bool                     -- a rebuild plan is running (R123)
  planAt  : Option Nat               -- tick in which it was last built
  skipped : List (Nat × Nat × Nat)   -- strips for which R60 found no spare slot: layout, stripe, strip
  held    : List (Nat × Nat)         -- stripes with an offset that cannot be had while a member may come back: held out of the plan (R126)
  badSlots : List (Nat × Nat)        -- spare slots whose write failed: member, row (R441)
  pub     : PubPool
  vols    : List VolRun
  bitmap  : List BmBit
  missAt  : List (Nat × Nat)         -- member index, edge at which its missing timer started
  catchup : List (Nat × BitVec 12 × Nat)   -- returning member, region still to cover
  cuLeft  : List (Nat × BitVec 12 × Nat × Nat × Nat)   -- of those: member, volume, region, layout, stripe still to check (R120)
  rerep   : Option Rerep
  exposed : Bool
  listFull : Bool                    -- the lost-extent list could not record an entry (R129)
  noJournal : Bool                   -- no journal member holds current metadata
  offline : Bool                     -- not assembled, or waiting for resynchronisation (R337, R339)
  unassembled : Bool                 -- it failed POOL_ASSEMBLY (R337)
  resync  : List (BitVec 12 × Nat)   -- dirty regions still to resynchronise
  floorLogged : Bool
  raiseLogged : Bool
  spareLogged : List Nat             -- layouts for which SPARE_EXHAUSTED was logged
  yielded : Bool                     -- preempted or given away (R281, R305)
  belayedFor : Nat                   -- consecutive BELAYED edges, for handback (R306)
  sweep   : List Nat                 -- frond stripes of the sweep under way (R149)
  sweepLast : Bool
  residue : List Nat                 -- R151
  oldLayout : Option Nat             -- old layout kept until R151 is met
  unitsDone : Nat                    -- copy units completed since the last commit
  frCur   : BitVec 12 × Nat          -- frond cursor, pending copy (R143)
  frMarks : List Nat                 -- frond marks set (R147)
  frOffer : List (BitVec 12 × Nat)   -- copy units that the cursor has passed and that are to be offered
  sweepOn : Bool                     -- a sweep of the final pass is under way
  scrubRun : Option ScrubMeta        -- the scrub cycle under way; committed as R137 says
  scrubOff : Nat                     -- stripes of it offered so far, in cycle order
  scrubPos : Nat × Nat               -- the next one to offer, as in ScrubMeta
  deleting : Option Nat              -- commit number whose effect removes the pool (R226)
  scrubRedo : List (Nat × Nat)       -- offered stripes whose check ended without effect: layout, stripe
  rsLeft  : List (BitVec 12 × Nat × Nat × Nat)   -- stripes still to resynchronise: volume, region, layout, stripe
  coldAt  : Nat                      -- next block of the cold journal's circular log (R106)
  coldEnts : List ColdEnt            -- its entries with unretired records, oldest first
  jmPick  : Option (Nat × Nat)       -- the journal member chosen in this tick, and the one that it replaces (R107)
  zscan   : Option Rerep             -- scrub of a journal member's metadata zone under way (R134)
  frCancel : Option Nat              -- FROND_CANCEL: the tick in which it was carried out (R153)
  oldMaps : List (BitVec 12 × List Nat)   -- extents under the old layout after a switch, for what was mapped before (R150)
  passing : List (BitVec 12 × Nat)   -- copy units whose ranges the cursor passes at this edge (R144)
  deriving DecidableEq, Repr

/-- What a task restores, moves or checks. -/
inductive TaskKind where
  | destage                                   -- a gather entry's destage (R77)
  | recon (cmds : List (Nat × Nat)) (unit : Option (Nat × Nat × Nat)) (repair : Bool)
      -- degraded read or repair (R121, R169): for (command, block), and for (copy unit, strip, offset) (R148)
  | rebuild                                   -- R124
  | catchUp (member : Nat) (vol : BitVec 12) (region : Nat)   -- R120
  | copyBack (member : Nat)                   -- R130
  | copyUnit (vol : BitVec 12) (first : Nat)  -- frond copy unit (R145)
  | scrub                                     -- R135
  | sweep                                     -- frond sweep or residue check (R149, R151)
  | mend                                      -- R126 at an offset where a copy unit has found a block that cannot be had (R145)
  | resync (vol : BitVec 12) (region : Nat)   -- R112
  deriving DecidableEq, Repr

/-- Phases of a task (R124). -/
inductive TaskPh where
  | reading | recReady | encReady | encoded | writing
  | ended        -- it has come to nothing, and writes of it are still on their way
  deriving DecidableEq, Repr

/-- A block write a task is to make: strip, offset, member, slot row, block. -/
structure TWrite where
  strip  : Nat
  off    : Nat
  member : Nat
  row    : Nat
  blk    : Block
  deriving DecidableEq, Repr

/-- A unit of work on one layout stripe. -/
structure Task where
  id     : Nat
  kind   : TaskKind
  pool   : BitVec 16
  layout : Nat
  stripe : Nat
  offs   : List Nat
  ph     : TaskPh
  reads  : List Nat                     -- member reads outstanding
  got    : List (Nat × Nat × Block)     -- strip, offset, block that passed R43
  bad    : List (Nat × Nat)             -- strip, offset that failed R43 or could not be read
  outs   : List TWrite                  -- writes to make
  spares : List (Nat × Nat × Nat)       -- strip, member, row chosen under R60
  writes : List Nat                     -- member writes outstanding
  okStrips : List Nat                   -- strips acknowledged
  failed : List Nat                     -- strips whose write failed (R76, R441)
  encN   : Nat                          -- row segments encoded so far (R30)
  edge   : Nat                          -- edge of its last phase change
  injected : Bool                       -- carries an injected mark (R404)
  deriving DecidableEq, Repr

/-- SEQ's state. -/
structure Seq where
  share   : Nat               -- s of R132
  fgDef   : Nat               -- foreground units deferred at the last step 5
  lats    : List (Nat × Nat)  -- edge, latency in ticks of foreground member reads reported
  tasks   : List Task
  nextTask : Nat
  floorHeld : Bool
  critRaise : Bool
  retiredN : Nat              -- retirements since the frond marks were last committed
  deriving DecidableEq, Repr

/-! ### Fixity, DMV, COD -/

/-- An on-module object-seal context (R172, R173). -/
structure SealCtx where
  vol      : BitVec 12
  handle   : BitVec 32
  length   : Nat
  chain    : BitVec 128
  held     : List Byte          -- the last 1 to 16 bytes
  prio     : BitVec 8
  openEdge : Nat
  label    : BitVec 384
  deriving DecidableEq, Repr

/-- FIX's state. -/
structure Fix where
  fenced   : List Nat             -- cores fenced
  cores    : Nat                  -- cores in service that the ceiling counts (R179: from the edge after fencing)
  faults   : List (Nat × Nat)     -- core, edge of comparison faults
  ctxs     : List (Nat × SealCtx) -- by slot
  reuse    : List (Nat × BitVec 16)
  saved    : List (BitVec 32 × BitVec 64)   -- saved-context table: handle, sequence (R174)
  kCtx     : BitVec 256
  saveSeq  : BitVec 64
  deriving DecidableEq, Repr

/-- What a DMV descriptor is for. -/
inductive Purpose where
  | pull (cmd slice : Nat)          -- host payload into dirty slots, or into a seal
  | push (cmd : Nat) (vbns : List Nat)  -- verified blocks to the host
  | sealOut (cmd : Nat)             -- seal record or context to the host
  | sealIn (cmd : Nat)              -- context from the host
  | destage (port : Nat)            -- destage writes to a member port's transmit queue (CCH)
  | journal (port : Nat)            -- cold journal, re-replication and the other writes of the metadata zone (JNL)
  | background (port : Nat)         -- rebuild, catch-up, copy-back, frond copy, scrub and repair writes (SEQ)
  | rope (port : Nat)
  | vault
  deriving DecidableEq, Repr

/-- A 16-byte entry of a source or destination list (R253, R254). -/
structure DmvEnt where
  addr  : BitVec 64
  len   : BitVec 32
  flags : BitVec 32
  deriving DecidableEq, Repr

/-- A list in HBM: the address of its first segment, and its segments by address (R253). -/
structure DmvList where
  at_  : Nat
  segs : List (Nat × List DmvEnt)
  deriving DecidableEq, Repr

/-- A DMV descriptor as held by a channel (R252). -/
structure Desc where
  tag     : BitVec 32
  prio    : Nat
  weight  : Nat
  len     : Nat
  space   : DmvSpace         -- the non-HBM side
  port    : Nat
  purpose : Purpose
  src     : DmvList
  dst     : DmvList
  relaxed : Bool             -- it carries read payload of a queue with relaxed ordering (R254)
  moved   : Nat              -- bytes known to have reached the destination
  cover   : Nat              -- last edge of the ticks that its charge covers (R31)
  retries : Nat              -- retries over the descriptor
  burst   : Nat              -- retries of the current burst
  ptag    : Option (BitVec 14)   -- PCIe tag of the read in flight
  tlpRo   : Bool := false        -- HIF sets the Relaxed Ordering attribute on its transactions (R319)
  deriving DecidableEq, Repr

/-- Channel states (R262). -/
inductive ChanSt where
  | idle | active | paused | halted
  deriving DecidableEq, Repr

/-- A DMV channel in use. -/
structure Chan where
  st     : ChanSt
  active : Option Desc
  queue  : List Desc
  deriving DecidableEq, Repr

/-- A DMV completion record with the descriptor it ends (R261). -/
structure DmvRec where
  ch      : Nat
  status  : Nat
  retries : Nat
  tag     : BitVec 32
  moved   : Nat
  space   : Nat              -- SPACE of the failing access, else of the descriptor's side that is not HBM
  inDst   : Bool
  entry   : Nat
  err     : Option HostErr
  desc    : Desc
  payload : List BlockData
  deriving DecidableEq, Repr

/-- DMV's state. -/
structure Dmv where
  chans : List (Nat × Chan)
  recs  : List DmvRec              -- appended and not yet taken in
  slotsUsed : List Nat             -- completion-queue slots reserved or waiting, per instance
  kept  : List (Purpose × DmvSpace × Nat × Nat × Nat)   -- transfers whose issue was not taken: space, port, bytes, handle (R252)
  fed   : Nat                       -- member commands below this identifier have had their descriptor issued, where they have one
  fill  : List ((Bool × Nat) × Nat) -- transmit queue (rope?, port index) fill percent last reported
  deriving DecidableEq, Repr

/-- COD's state. -/
structure Cod where
  fenced : List Nat                -- lanes fenced
  faults : List (Nat × Nat)        -- lane, edge of self-check mismatches
  mats   : List (Nat × List Nat)   -- decoding matrices held: layout id, erasure pattern; most recent first (R63)
  deriving DecidableEq, Repr

/-! ### Member ports (MBR) -/

/-- A path to a member: one member port (R268). -/
structure MPath where
  port  : Nat
  up    : Bool
  broke : Nat              -- edge at which it broke
  rate  : Nat              -- send rate of its I/O queue pair is rate / 4^rateK Gbit/s (R282): exact under cuts by a quarter
  rateK : Nat
  cnpRx : Option Nat       -- time of the last rate cut, µs
  cnpTx : Option Nat
  lastCnp : Option Nat     -- time of the last CNP received or of the last rise, µs
  deriving DecidableEq, Repr

/-- An image member as MBR knows it (R270, R271, R275). -/
structure IMember where
  num    : Nat
  dom1   : Option Nat
  dom2   : Option Nat
  lbas   : Nat
  mdts   : Nat                -- bytes a command moves at most (R269)
  admitted : Bool
  refused  : Option Nat       -- cause of R271
  checked  : Bool             -- admission decided
  unreach  : Option Nat       -- edge at which it was reported unreachable
  lastBroke : Option Nat      -- edge at which its last path broke
  media  : List Nat           -- edges of media errors in the window (R276)
  lowPower : Bool
  spinning : Option Nat       -- edge at which its spin-up started
  ready  : Bool
  paths  : List MPath
  resvReg : Bool              -- our registration stands on it
  blank  : Bool               -- its label block was blank when it was read (R271)
  label  : Option (BitVec 16 × Nat)   -- pool and member index that its label names, when it passes R43
  deriving DecidableEq, Repr

/-- What a member command is for. -/
inductive MPurpose where
  | task (id : Nat) (strip : Nat)       -- strip and offsets of a task
  | read (cmd layout stripe strip : Nat)      -- a READ or VERIFY miss
  | unitRead (task layout stripe strip : Nat) -- a source of a frond copy unit (R145)
  | meta_ (pool : BitVec 16)            -- pool metadata copy
  | bitmap (pool : BitVec 16)
  | cold (tick : Nat)                   -- cold-journal append
  | flushCmd (cmd : Nat)                -- NVMe Flush for a FLUSH
  | label (member : Nat)
  | resvReport (pool : BitVec 16)
  | preempt (pool : BitVec 16)          -- fencing (R280)
  | poolRead (pool : BitVec 16)         -- metadata read at takeover (R304)
  | repair (layout stripe strip : Nat) (second : Bool)   -- in-place rewrite (R170)
  | readBack (layout stripe strip : Nat) (second : Bool)
  | rerep (scan : Bool)                   -- re-replication (R107), or the scrub of a metadata zone (R134)
  | joining                               -- connection and Identify
  | labelWrite                          -- ADD_MEMBERS, REPLACE_MEMBER
  | other
  deriving DecidableEq, Repr

/-- Kinds of member command. -/
inductive MOp where
  | read | write (fua : Bool) | flush | report | acquire | register | unregister | admin
  deriving DecidableEq, Repr

/-- A member command in flight (R272, R274). -/
structure MCmd where
  id      : Nat
  img     : Nat             -- image member number
  pool    : BitVec 16
  idx     : Nat             -- member index in its pool
  port    : Nat             -- member port it was sent on
  op      : MOp
  lba     : Nat
  count   : Nat
  offs    : List Nat        -- block offsets within the strip, in command order
  blks    : List Block      -- for a write
  purpose : MPurpose
  edge    : Nat             -- admitting edge, of the last issue
  born    : Nat             -- admitting edge of the first issue (R132)
  tries   : Nat
  fg      : Bool            -- foreground read
  inj     : Bool            -- carries an injected mark (R404)
  due     : Option Nat := none   -- waits for the member's retry delay: the edge of its reissue (R273)
  deriving DecidableEq, Repr

/-- A member command to be admitted. -/
structure MReq where
  pool    : BitVec 16
  idx     : Nat
  op      : MOp
  lba     : Nat
  offs    : List Nat
  count   : Nat
  blks    : List Block
  purpose : MPurpose
  fg      : Bool
  deriving DecidableEq, Repr

/-- MBR's state. -/
structure Mbr where
  linkUp  : List Bool                 -- per Ethernet port
  pauseUntil : List (Nat × Nat)       -- port, quanta left of a pause (R265)
  members : List IMember
  cmds    : List MCmd
  dead    : List Nat                  -- identifiers of timed-out commands whose Abort is open (R274)
  done    : List (Nat × MStatus × MPayload)   -- completions that arrived in the closing tick
  nextId  : Nat
  asked   : List MReq                 -- commands that a management command asked for: admitted at the next edge (R11)
  leaving : List Nat                  -- image members whose registration a management command removes (R277)
  qpLimitLogged : Bool
  reports : List (Nat × Nat)          -- image member, 0 unreachable 1 reachable 2 failed: taken in at the next step 3
  deriving DecidableEq, Repr

/-! ### The rope (ROP) -/

/-- Peer states (R291). -/
inductive PeerSt where
  | up | lost
  deriving DecidableEq, Repr

/-- A path to a peer (R292). -/
structure RPath where
  n     : Nat
  up    : Bool
  got   : Bool        -- a frame arrived in the current tick
  run   : Nat         -- consecutive ticks with a frame
  quiet : Nat         -- ticks without one
  deriving DecidableEq, Repr

/-- Payloads of frames the module sends (R288). -/
inductive TxFrame where
  | announce (serial : BitVec 128) (period : BitVec 3) (state : BitVec 8) (ips : List (BitVec 128))
  | heartbeat (p : HbPayload) | timeSync (t1 : Nat) (ref : BitVec 12) (pps : Bool) | delayReq | delayResp (t4 : Nat)
  | belaySetup (p : BelaySetupPayload) | belayBlock (slot : Nat) (b : Block) | belayRecords (rs : List (BitVec 32 × JRec)) | belaySeal (r : SealRec)
  | belayConfirm (tick : Nat) | sealNak (tick : Nat) | winNak (seq : BitVec 32) (slot : Nat)
  | fwdCmd (fid : BitVec 64) (tag : BitVec 16) (vol : BitVec 12) (op : IoOp)
  | fwdData (fid : BitVec 64) (off : Nat) (bs : List Block)
  | fwdReply (fid : BitVec 64) (s : Stat) (acc : BitVec 32)
  | dirClaim (vol claimant : BitVec 12) (answer : Option Bool)
  | dirUpdate (es : List DirEntry)
  | yield_ (pools : List (BitVec 16)) (lastSeal : Nat)
  | takeoverAck (pools : List (BitVec 16))
  deriving DecidableEq, Repr

/-- A sequenced frame sent and not acknowledged (R289). -/
structure Unacked where
  seq  : BitVec 32
  f    : TxFrame
  sent : Nat          -- edge at which it was last sent
  retx : Nat
  deriving DecidableEq, Repr

/-- A peer (R290, R291). -/
structure Peer where
  serial : BitVec 128
  st     : PeerSt
  heard  : Nat                -- edge at which it was last heard
  ips    : List (BitVec 128)  -- addresses of the rope ports it announced
  annState : BitVec 8         -- state it announced
  modState : PeerModState
  paths  : List RPath
  txSeq  : BitVec 32
  unacked : List Unacked
  rxHigh : BitVec 32          -- highest sequence received without a gap
  rxAbove : List (BitVec 32)
  hbDue  : Nat
  deriving DecidableEq, Repr

/-- Partner states (R303). -/
inductive PartnerSt where
  | none | up | suspect (checking : Bool) | fencing | absent
  deriving DecidableEq, Repr

/-- A belay window (R298). -/
structure Win where
  base : BitVec 24
  len  : BitVec 24
  peer : BitVec 12
  en   : Bool
  deriving DecidableEq, Repr

/-- A seal received from the partner and not confirmed (R96, R97). -/
structure RxSeal where
  srec    : SealRec
  edge    : Nat
  naks    : Nat
  refused : Bool              -- refused, and not sent again since (R97)
  deriving DecidableEq, Repr

/-- A command this module forwarded, or a DIR_CLAIM it waits for. -/
structure Claim where
  vol    : BitVec 12
  waits  : List (BitVec 12)      -- peers that have not answered
  refused : Bool
  deriving DecidableEq, Repr

/-- A yield in progress (R305). -/
structure YieldSt where
  pools   : List (BitVec 16)
  sentAt  : Option Nat           -- edge of the YIELD
  reason  : Nat                  -- 0 FAIL_STOP, 1 orderly restart (FW_ACTIVATE), 2 handback
  coldDone : Bool
  ack     : Bool                 -- TAKEOVER_ACK arrived in the closing tick
  deriving DecidableEq, Repr

/-- Stages of a takeover (R303, R304): fencing, fenced, metadata being read, bitmap being read, read and to be published at the next edge. -/
inductive TakeSt where
  | fencing | fenced | reading | mapping | ready
  deriving DecidableEq, Repr

/-- A takeover in progress (R304). -/
structure Takeover where
  pool   : BitVec 16
  imgs   : List (Nat × Nat)      -- member index and image member of every member known
  jms    : List Nat              -- journal members, by index
  acked  : List Nat              -- members that acknowledged the preempt
  waits  : List Nat              -- member commands outstanding
  stage  : TakeSt
  got    : List MetaCopy         -- the metadata copies, as read (R105)
  maps   : List (Nat × List (Nat × Block))   -- the bitmap blocks read of each journal member (R111)
  byYield : Bool
  deriving DecidableEq, Repr

/-- ROP's state. -/
structure Rop where
  peers   : List (BitVec 12 × Peer)
  annAt   : Option Nat                    -- edge at which ANNOUNCE was last sent
  conflicts : List (BitVec 128)           -- serial numbers whose frames are ignored (R291)
  partner : PartnerSt
  hbGot   : Bool                          -- a partner HEARTBEAT arrived in the closing tick
  hbInj   : Bool                          -- the run of missed heartbeats holds discarded ones (R404)
  checkAt : Option Nat                    -- edge of the last reservation check
  checkIds : List (Nat × BitVec 16 × Nat) -- Reservation Reports outstanding: command, pool, member
  checkOk : List (BitVec 16)              -- own pools found under the own key
  setupSent : Option Nat                  -- edge of the last BELAY_SETUP
  setupRx : Option BelaySetupPayload
  setupFailed : Bool
  wins    : List Win                      -- eight windows in force
  winsStg : List Win                      -- staging copies
  win0Off : Bool                          -- window 0 is to be disabled at the next edge (R300)
  winNakLog : Option Nat
  winNakN : Nat
  txq     : List TxFrame                  -- belay frames waiting for their budget, in order (R30)
  recv    : List (Nat × Block)            -- belay receive area by slot (R69)
  mirror  : List (SealRec × List (BitVec 32 × JRec))   -- journal mirror: ticks confirmed, with their record numbers (R94)
  mirNew  : List (BitVec 32 × JRec)       -- mirror: records received whose seal is not confirmed
  rxSeals : List RxSeal
  dir     : List (BitVec 12 × DirEntry)
  dirNew  : List (BitVec 12 × List DirEntry)   -- sender and updates that apply at the next edge
  dirSent : List DirEntry                 -- own volumes as last sent to every peer (R301)
  claims  : List Claim
  fwdNext : BitVec 64
  fwdIn   : List (BitVec 32 × Origin × List RingUnit × BitVec 16)  -- forwarded entries not yet offered, with their sequence numbers
  replies : List (BitVec 64 × Stat × BitVec 32)        -- FWD_REPLYs received in the closing tick
  yielding : Option YieldSt
  takeovers : List Takeover
  known   : List PoolMeta                 -- metadata of the pools that the partner serves, as last read (R280)
  deriving DecidableEq, Repr

/-! ### Host ports (HIF) -/

/-- Device power states (R323). -/
inductive DState where
  | d0 | d3hot | d3cold
  deriving DecidableEq, Repr

/-- An MSI-X table entry (R318). -/
structure MsixEnt where
  addr : BitVec 64
  data : BitVec 32
  mask : Bool
  deriving DecidableEq, Repr

/-- A function of a port (R311, R323). -/
structure Func where
  d      : DState
  mps    : Nat                      -- Max_Payload_Size, bytes
  msixEn : Bool
  fnMask : Bool
  msiEn  : Nat                      -- 0, or the messages enabled
  ats    : Bool
  ro     : Bool
  pmeEn  : Bool
  pmeSt  : Bool
  msix   : List (Nat × MsixEnt)     -- entries written since reset
  pba    : List Nat                 -- pending bits set
  deriving DecidableEq, Repr

/-- What an outstanding non-posted request is for. -/
inductive TagUse where
  | ring (q : RingRef)
  | chan (ch : Nat)
  | cqLine (q : RingRef)
  | xlat (ch : Nat)
  | xlatSeg (q : RingRef)
  | xlatOut (q : RingRef) (tag : BitVec 16)
  deriving DecidableEq, Repr

/-- An entry of the translation cache (R320). -/
structure XlatEnt where
  fn   : Fn
  page : BitVec 64
  log2 : Nat
  rd   : Bool
  wr   : Bool
  base : BitVec 64
  deriving DecidableEq, Repr

/-- What the translation cache says of an access (R320, R321): it may go, it is held for a translation, or a permission is missing. -/
inductive XlatGo where
  | go | held | refused
  deriving DecidableEq, Repr

/-- An admin output that waits for a translation (R320), with the completion of its command. -/
structure HostOut where
  q     : RingRef
  tag   : BitVec 16
  addr  : BitVec 64
  bytes : List Byte
  stat  : Stat
  deriving DecidableEq, Repr

/-- An invalidation in progress (R322). -/
structure Inval where
  fn   : Fn
  itag : BitVec 5
  waits : List (BitVec 14)     -- reads issued under the removed entries
  deriving DecidableEq, Repr

/-- A host port. -/
structure HPort where
  rate   : Nat              -- code of HIF_LSTAT.RATE
  width  : Nat
  f      : Nat              -- link factor in force (R309)
  linkPend : Bool           -- F is recomputed at the next edge
  linkUp : Bool
  pf0    : Func
  pf1    : Func
  tags   : List (BitVec 14 × TagUse)
  quar   : List (BitVec 14)
  injTags : List (BitVec 14)  -- tags whose completion an injection withheld (R404)
  xlat   : List XlatEnt     -- most recently used first
  invals : List Inval
  l1     : Bool
  l23    : Bool
  ready  : Bool             -- configuration space answers
  deriving DecidableEq, Repr

/-- HIF's state. -/
structure Hif where
  ports : List HPort        -- two
  ownVols : List (BitVec 12) -- volumes that this module owned at the last step 4 (R324)
  ddtGen : BitVec 32        -- Generation of the Device Description Table (R315, R317)
  ddt    : List (List Byte) -- each port's table as last written, but for Generation and CRC; empty before the first edge
  outs   : List HostOut
  deriving DecidableEq, Repr

/-! ### Vault (VLT) -/

/-- A flush in a flush area (R369 to R371). -/
structure Flush where
  num     : BitVec 32
  failStop : Bool
  boot    : BitVec 32
  edge    : Nat
  lastSeal : Nat
  ph1     : Option (Nat × BitVec 64)     -- duration ms, page digest: phase 1 sealed
  ph2     : Option (Nat × BitVec 64)
  consumed : Bool
  incLogged : Bool                       -- logged as incomplete (R371)
  jnl     : Option Jnl                   -- phase 1 content
  cch     : Option Cch
  fix     : Option Fix
  pools   : List Pool
  locks   : List LockEnt                 -- the range-lock table, which recovery discards (R236)
  overflow : List (RingRef × List CplRec) -- completion-ring overflow areas
  evRecs  : Nat
  mirror  : List (SealRec × List (BitVec 32 × JRec))   -- phase 2 content
  recv    : List (Nat × Block)
  seals   : List (List Byte) := []       -- seal records written to the seal pages (R370)
  deriving DecidableEq, Repr

/-- Trust-bearing numbers as the vault's trust block and the trust record hold them (R352, R361). -/
structure TrustNums where
  valid   : Bool
  rHi     : Nat
  fwFloor : Nat
  imgFloor : Nat
  deriving DecidableEq, Repr

/-- VLT's state. -/
structure Vlt where
  dies    : List Nat                 -- dies in service
  fails   : List (Nat × Nat)         -- die, failures
  areas   : List (Option Flush)      -- A, B: none when wholly erased
  target  : Nat                      -- 0 A, 1 B
  erasing : Bool
  ready   : Bool
  cycles  : List Nat                 -- erase cycles of the worst block of A and of B
  spare   : Nat                      -- replacement blocks remaining
  holdMv  : Nat
  eReq    : Nat
  nr      : BitVec 5
  recovered : Bool
  ph2Loaded : Bool
  lastMs  : Nat
  cause   : Nat                      -- cause of the bivouac under way (R430)
  failStopFlush : Bool
  sealedFs : Bool                    -- a FAIL_STOP flush has been sealed and the module halts at the next edge (R201)
  onHold  : Bool                     -- the load is on HOLD_12V (R368)
  flushing : Option Nat              -- area being written
  trust   : TrustNums                -- the trust block
  evrLog  : List Nat                 -- highest sequence of each page of the circulating log, newest first (R377)
  evrLow  : Nat                      -- first sequence that the circulating log may still hold
  evrCairn : Nat                     -- records of the cairn in the vault
  loaded  : Option Nat               -- area recovered at this start
  deriving DecidableEq, Repr

/-! ### Trust (TRU) -/

/-- A request for a signature (R358). -/
inductive SigReq where
  | report (src : AdmSrc) (tag : BitVec 16) (addr : BitVec 64) (len : BitVec 32) (nonce : BitVec 256)
  | virek (pool : BitVec 16) (body : Virek)
  deriving DecidableEq, Repr

/-- TRU's state. The trust record stands in the configuration NVM, the fuses in the silicon. -/
structure Tru where
  trec    : TrustNums                -- the trust record, valid copy
  recSeq  : BitVec 32
  recNvm  : List (List Byte)         -- its two copies in the trust-state area (R361)
  krPresent : Bool                   -- K_R in the trust record
  krWrapped : BitVec 320             -- K_R under K_wrap (R347, R361)
  krCheck : BitVec 32
  bootCnt : Nat
  kr      : Option (BitVec 256)      -- rope storage key held
  kt      : Option (BitVec 256)      -- transfer key held
  imported : Option (BitVec 256)     -- imported pool secret
  certStore : Option (List Byte × List Byte)   -- certificate store: device CA's, module's (R351, R361)
  q       : Nat
  rHi     : Nat
  idxFuses : Nat
  fwFuses : Nat
  fwFloor : Nat
  imgFloor : Nat
  low     : Bool
  exhausted : Bool
  persistFail : Bool
  keyOk   : Bool
  reqs    : List SigReq              -- in order
  trng    : Nat                      -- draws made from the TRNG (free values)
  deriving DecidableEq, Repr

/-! ### Event recorder (EVR) -/

/-- An event record (R374); CRC and tail copy follow from it. -/
structure EvRec where
  seq    : Nat
  time   : Nat
  ev     : Ev
  isLocal : Bool
  injected : Bool
  lost   : Nat
  kind   : Nat
  subj   : Nat
  pool   : BitVec 16
  a      : BitVec 64
  b      : BitVec 64
  c      : BitVec 64
  deriving DecidableEq, Repr

/-- A unit's own queue of records that EVR has not taken, at most eight, and its lost-record counter (R13). -/
structure UnitLog where
  queue : List EvRec
  lost  : Nat
  deriving DecidableEq, Repr

/-- EVR's state. `recs` holds the circulating area, newest first, at most 65,536 records. -/
structure Evr where
  next    : Nat
  mark    : Nat                  -- M as the vault's reservation header holds it (R375)
  taken   : Bool                 -- the reservation header has been taken at this start
  intake  : List EvRec           -- records written before that
  units   : List (Nat × UnitLog) -- the units' own queues, by unit code (R13)
  batching : Bool                -- an edge sequence runs: its records reach EVR together
  batch   : List EvRec           -- the records of that edge sequence so far
  recs    : List EvRec
  cairn   : List EvRec           -- newest first, at most 65,536
  cleared : Nat                  -- first sequence not cleared
  persist : Nat                  -- highest sequence in the vault log
  waiting : Nat                  -- records waiting for a full page
  norFail : Bool
  norHalf : Nat                  -- half written last
  norTop  : Nat                  -- next number when a half was last written
  norDirty : Bool                -- records were added since the halves were written
  norAt   : Option Nat           -- rope time of the last half write
  norWant : Bool                 -- a half write is asked for
  cursors : List Nat             -- port 0, port 1, MCTP (R379, R393)
  curLo   : List (BitVec 32)     -- held low words
  clearReq : List (AdmSrc × BitVec 16)   -- CLEAR_EVENTS taken and not yet effective
  deriving DecidableEq, Repr

/-! ### Management (MGT) -/

/-- The slot directory (R333). -/
structure Directory where
  seq     : BitVec 32
  active  : Nat
  trial   : Option Nat
  attempts : Nat
  valid   : List Bool
  deriving DecidableEq, Repr

/-- A slot of the configuration NVM (R332). -/
structure NvmSlot where
  hdr : List Byte        -- slot header
  fw  : Option SignedObj
  img : Option SignedObj
  deriving DecidableEq, Repr

/-- An injection slot (R401). -/
structure InjSlot where
  det   : Nat
  param : Nat
  count : Nat
  kind  : Nat
  subj  : Nat
  armed : Bool
  armReq : Option Bool       -- pending write of ARM
  left  : Nat
  skip  : Nat                -- matching items to let pass before the next
  applied : Nat
  deriving DecidableEq, Repr

/-- A serial admin command waiting for its metadata change, or behind another (R225). -/
structure AdmWait where
  src   : AdmSrc
  tag   : BitVec 16
  pool  : BitVec 16
  also  : Option (BitVec 16) -- a second pool whose change it waits for (R140)
  need  : Nat                -- commit number that carries its change
  stat  : Stat
  claim : Option (BitVec 12) -- volume id claimed in the rope (R301)
  size  : Nat                -- size of the volume that the claim is for
  bytes : Option (BitVec 64 × List Byte)   -- what is written to the host at completion (R160)
  deriving DecidableEq, Repr

/-- An FW_ACTIVATE in progress (R344). Its stage: 0 the yield is under way, 1 every volume is being flushed, 2 the shutdown mark is being written, 3 done,
and the module restarts at the next edge. -/
structure Activation where
  src   : AdmSrc
  tag   : BitVec 16
  stage : Nat
  acc   : Nat          -- acceptance number from which writes were offered meanwhile
  deriving DecidableEq, Repr

/-- MGT's state. -/
structure Mgt where
  slot     : Nat                 -- slot running
  first    : Nat                 -- first slot of this start
  onTrial  : Bool
  fallback : Bool
  triedOther : Bool
  bootHalt : Bool                -- start-up halted (R334)
  cause    : Nat
  dir      : Directory           -- directory in force
  dirNvm   : List (List Byte)    -- its two copies in the NVM (R333)
  dirCur   : Nat                 -- copy that is current
  slots    : List NvmSlot        -- A, B
  staging  : List Host.Cell      -- staging area, by offset
  stagObj  : Option ObjKind      -- object last downloaded since the last FW_STAGE
  stagedFw : Bool
  stagedImg : Bool
  image    : Option Image        -- image in force
  fw       : Option SignedObj    -- firmware running
  joinAt   : Int                 -- edge at which ROPE_JOIN began, moved with the step of R20
  discAt   : Nat
  onlineAt : Option Nat
  relRst   : Int                 -- time of the release of SYS_RST#, moved with the step of R20
  committed : Bool               -- trial decided at this start
  waitCool : Bool                -- SYS_RST# was released while a sensor was above its warning threshold (R430)
  declared : List (BitVec 16 × Nat)   -- members that DECLARE_FAILED named in the closing tick (R11, R119)
  adm      : List AdmWait
  activate : Option Activation   -- FW_ACTIVATE in progress (R344)
  admQ     : List (AdmSrc × BitVec 16 × Instr)    -- serial admin commands accepted and waiting their turn (R225)
  inj      : List InjSlot
  injArms  : Nat
  injNow   : Bool                -- the item being worked on carries an injected mark (R404)
  held     : Bool                -- module held in ROPE_JOIN (R339)
  deriving DecidableEq, Repr

/-- A posted or driven thing that leaves the module. `out` of the state holds those of the last command. -/
inductive Out where
  | cplWrite (cq : RingRef) (index : BitVec 32) (phase : Bool) (edge : BitVec 32) (r : CplRec) (bytes : List Byte)
  | devLine (q : RingRef) (edge : BitVec 32) (l : DevLine) (bytes : List Byte)
  | msix (port : PciePort) (fn : Fn) (vector : Nat) (addr : BitVec 64) (data : BitVec 32)
  | msi (port : PciePort) (message : Nat)
  | hostLineRead (q : RingRef) (tag : BitVec 14)
  | unitRead (q : RingRef) (index : BitVec 32) (n : Nat) (tag : BitVec 14)
  | segRead (q : RingRef) (addr : BitVec 64) (len : BitVec 32) (tag : BitVec 14)
  | hostBytes (src : AdmSrc) (addr : BitVec 64) (bytes : List Byte)
  | payload (cmd : Nat) (blks : List (Nat × BlockData))
  | memberCmd (c : MCmd)
  | memberAbort (id : Nat)
  | announceTo (ip : BitVec 128) (path : Nat) (f : TxFrame)   -- an ANNOUNCE to an address of the seed list (R290)
  | frame (dst : BitVec 16) (path : Nat) (seq : BitVec 32) (retx : Bool) (f : TxFrame)
  | cnp (member : Nat) (port : Nat)
  | ur (port : PciePort)
  | aerAdvisory (port : PciePort)
  | aerPoison (port : PciePort)
  | invalCpl (port : PciePort) (fn : Fn) (itag : BitVec 5)
  | xlatReq (port : PciePort) (fn : Fn) (tag : BitVec 14)
  | pmPme (port : PciePort) (fn : Fn)
  | pmeToAck (port : PciePort)
  | regData (src : Src) (data : BitVec 64)
  | mctpReply (ok : Bool) (data : BitVec 64)
  | mctpCpl (tag : BitVec 16) (s : Stat)
  | ppsOut
  | poison (cmd : Nat) (vbns : List Nat)   -- blocks of a payload whose TLPs are marked as poisoned (R171)
  | trustWrite (copy : Nat) (bytes : List Byte)   -- R361
  deriving DecidableEq, Repr

/-! ### Budgets (R30 to R32) -/

/-- Budget classes. -/
inductive BClass where
  | host (port : Nat) (out : Bool)
  | cod
  | fix
  | mtx (port : Nat)
  | mrx (port : Nat)
  | mcmd (port : Nat)
  | rope (port : Nat)
  deriving DecidableEq, Repr

/-- One budget of the coming tick: what is left, the whole budget in force, whether anything has been charged, and whether a unit larger than it took all
of it. -/
structure Bud where
  left    : Nat
  whole   : Nat
  touched : Bool
  full    : Bool
  deriving DecidableEq, Repr

/-- The scheduler's state. -/
structure Sched where
  buds  : List (BClass × Bud)
  carry : List (BClass × Nat)   -- charges that come first in the next tick (R31, R32)
  defer : List Nat              -- commands with a deferred slice, in the order first offered
  late  : List Nat              -- DMV channels of units that carried over
  deriving DecidableEq, Repr

/-- Key of a register field: the field, and the port, window or slot where the table has several copies. -/
structure RegKey where
  f  : Fld
  ix : Nat
  deriving DecidableEq, Repr

/-- A snapshot of a staged set that awaits its edge (R390). -/
structure Snap where
  set  : Nat
  src  : Src
  vals : List (RegKey × BitVec 32)
  wins : List Win
  deriving DecidableEq, Repr

/-- The register file: values that differ from reset, pending shadows, staged snapshots, latched high halves. -/
structure RegFile where
  vals   : List (RegKey × BitVec 32)
  shadow : List (RegKey × BitVec 32 × Src × BitVec 22 × BitVec 32)   -- value, source, offset and word of the write
  snaps  : List Snap
  latch  : List (Fld × BitVec 32)
  deriving DecidableEq, Repr

/-- The state of the module. -/
structure State where
  pending : List Instr          -- commands waiting, first in first out
  part    : Part
  phase   : Phase
  pins    : Pins
  temps   : List (Sensor × Int) -- last reading of each sensor, °C
  regs    : RegFile
  tck     : Tck
  qe      : Qe
  ord     : Ord
  cch     : Cch
  jnl     : Jnl
  cod     : Cod
  pools   : List Pool
  seq     : Seq
  fix     : Fix
  dmv     : Dmv
  mbr     : Mbr
  rop     : Rop
  hif     : Hif
  vlt     : Vlt
  tru     : Tru
  evr     : Evr
  mgt     : Mgt
  sched   : Sched
  freeCtr : Nat                 -- the model's own: free values drawn so far
  out     : List Out            -- the model's own: what the last command sent
  deriving DecidableEq, Repr

/-! ### Reset -/

/-- A function after PERST# (R326). -/
def Func.reset : Func :=
  { d := .d0, mps := 128, msixEn := false, fnMask := false, msiEn := 0, ats := false, ro := true,
    pmeEn := false, pmeSt := false, msix := [], pba := [] }

/-- A host port after PERST#, its link down. -/
def HPort.reset : HPort :=
  { rate := 0, width := 0, f := 0, linkPend := false, linkUp := false, pf0 := .reset, pf1 := .reset, tags := [], quar := [], injTags := [],
    xlat := [], invals := [], l1 := false, l23 := false, ready := false }

/-- TCK at reset: FREE with rope time at zero (R24). -/
def Tck.reset : Tck :=
  { now := 0, acc := 0, trim := 0, isLocal := true, lock := .free, isRef := false, refAddr := 0, ppsLock := false, ppsMiss := 0,
    near := 0, lastMsg := 0, syncers := [], syncAt := none, ppsSec := 0, splitAt := none, exch := [], sync := none, reqSent := none, ovrLast := none,
    ovrMask := 0, ovrUnits := 0, ovrEdges := 0, ppsOut := false }

/-- QE at reset: no ring. -/
def Qe.reset : Qe :=
  { sqs := [], cqs := [], lines := [], elig := [], vecPend := [], failAt := none, halted := false, outAdm := [], doneAdm := [], goneAdm := [] }

/-- ORD at reset: the acceptance counter is zero (R231). -/
def Ord.reset : Ord := { acc := 0, locks := [], cmds := [], nextCmd := 0, fullLog := none }

/-- CCH at reset: HBM discarded (R85). -/
def Cch.reset : Cch :=
  { dirtySlots := 0, recvSlots := 0, cleanSlots := 0, regions := [], slots := [], gather := [], waitq := [], throttled := false, throtVols := [],
    retired := [], clean := [], holdUsed := 0, dueSeq := 0 }

/-- JNL at reset: SOLO (R98). -/
def Jnl.reset : Jnl :=
  { belay := .solo, next := 0, ring := [], live := [], tickRecs := [], tickSlots := [], seals := [], sealedSlots := [], confIn := [],
    nakIn := [], lastSeal := 0, lastConf := 0, reserved := 0, retireQ := [], coldWait := [] }

/-- COD at reset: every lane in service. -/
def Cod.reset : Cod := { fenced := [], faults := [], mats := [] }

/-- SEQ at reset: s is the floor (R132). -/
def Seq.reset : Seq :=
  { share := 16, fgDef := 0, lats := [], tasks := [], nextTask := 0, floorHeld := false, critRaise := false, retiredN := 0 }

/-- FIX at reset. -/
def Fix.reset : Fix :=
  { fenced := [], cores := 96, faults := [], ctxs := [], reuse := [], saved := [], kCtx := 0, saveSeq := 0 }

/-- DMV at reset: every channel IDLE. -/
def Dmv.reset : Dmv := { chans := [], recs := [], slotsUsed := [0, 0, 0, 0], kept := [], fed := 0, fill := [] }

/-- MBR at reset: no link, no member. -/
def Mbr.reset : Mbr :=
  { linkUp := List.replicate 16 false, pauseUntil := [], members := [], cmds := [], dead := [], done := [], nextId := 0, asked := [], leaving := [],
    qpLimitLogged := false, reports := [] }

/-- A window at reset: disabled. -/
def Win.reset : Win := { base := 0, len := 0, peer := 0, en := false }

/-- ROP at reset: partner NONE. -/
def Rop.reset : Rop :=
  { peers := [], annAt := none, conflicts := [], partner := .none, hbGot := false, hbInj := false, checkAt := none, checkIds := [], checkOk := [], setupSent := none,
    setupRx := none, setupFailed := false, wins := List.replicate 8 .reset, winsStg := List.replicate 8 .reset, win0Off := false, winNakLog := none,
    winNakN := 0, txq := [], recv := [], mirror := [], mirNew := [], rxSeals := [], dir := [], dirNew := [], dirSent := [], claims := [],
    fwdNext := 0, fwdIn := [], replies := [], yielding := none, takeovers := [], known := [] }

/-- HIF at reset. -/
def Hif.reset : Hif := { ports := [.reset, .reset], ownVols := [], ddtGen := 0, ddt := [], outs := [] }

/-- VLT as manufactured: 64 dies, both areas erased, trust block and EVR header valid (R355, R375). -/
def Vlt.reset : Vlt :=
  { dies := List.range 64, fails := [], areas := [none, none], target := 0, erasing := false, ready := false, cycles := [0, 0], spare := 0,
    holdMv := 0, eReq := 0, nr := 0x1F, recovered := false, ph2Loaded := false, lastMs := 0, cause := 0, failStopFlush := false, sealedFs := false, onHold := false,
    flushing := none, trust := ⟨true, 1024, 0, 0⟩, evrLog := [], evrLow := 0, evrCairn := 0, loaded := none }

/-- TRU as manufactured: indices 0 to 1,023 spent, the mark at 1,024, one index fuse blown (R354, R347). -/
def Tru.reset : Tru :=
  { trec := ⟨false, 0, 0, 0⟩, recSeq := 0, recNvm := [[], []], krPresent := false, krWrapped := 0, certStore := none, krCheck := 0, bootCnt := 0, kr := none, kt := none,
    imported := none, q := 0, rHi := 0, idxFuses := 1, fwFuses := 0, fwFloor := 0, imgFloor := 0, low := false, exhausted := false,
    persistFail := false, keyOk := false, reqs := [], trng := 0 }

/-- EVR at reset: nothing assigned. -/
def Evr.reset : Evr :=
  { next := 0, mark := 0, taken := false, intake := [], units := [], batching := false, batch := [], recs := [], cairn := [], cleared := 0, persist := 0, waiting := 0, norFail := false,
    norHalf := 1, norTop := 0, norDirty := false, norAt := none, norWant := false, cursors := [0, 0, 0], curLo := [0, 0, 0], clearReq := [] }

/-- An injection slot at reset (R405: COUNT resets to 1). -/
def InjSlot.reset : InjSlot :=
  { det := 0, param := 0, count := 1, kind := 0, subj := 0, armed := false, armReq := none, left := 0, skip := 0, applied := 0 }

/-- MGT with an erased configuration NVM: slot A active, no trial (R333). -/
def Mgt.reset : Mgt :=
  { slot := 0, first := 0, onTrial := false, fallback := false, triedOther := false, bootHalt := false, cause := 0,
    dir := ⟨0, 0, none, 0, [false, false]⟩, dirNvm := [[], []], dirCur := 0, slots := [⟨[], none, none⟩, ⟨[], none, none⟩], staging := [], stagObj := none, stagedFw := false,
    stagedImg := false, image := none, fw := none, joinAt := 0, discAt := 0, onlineAt := none, relRst := 0, committed := false, waitCool := false,
    declared := [], adm := [], admQ := [], activate := none, inj := List.replicate 4 .reset, injArms := 0, injNow := false, held := false }

/-- The state right after reset: RESET, SYS_RST# asserted, rails in tolerance, every register at its reset value (R340, R391). -/
def State.reset : State :=
  { pending := [],
    part := { variant := .h96, packing := .tray, serial := 0, romDigest := 0 },
    phase := .reset,
    pins := { rails := true, pwrFail := false, sysRst := true, sysRstHeld := false, slotSel := false, testEn := false, sysClk := true,
              perst := [true, true], thermAlert := false, wake := [false, false], tapIr := 0xFF },
    temps := [],
    regs := { vals := [], shadow := [], snaps := [], latch := [] },
    tck := .reset, qe := .reset, ord := .reset, cch := .reset, jnl := .reset, cod := .reset, pools := [], seq := .reset, fix := .reset,
    dmv := .reset, mbr := .reset, rop := .reset, hif := .reset, vlt := .reset, tru := .reset, evr := .reset, mgt := .reset,
    sched := { buds := [], carry := [], defer := [], late := [] },
    freeCtr := 0, out := [] }

end Sys2Proof.Machine
end

