-- ==== Sys2Proof/Machine/Ops.lean ====
section
/-!
DEFINITION. The named operations over tables, register fields, event records and outputs that every meaning uses,
and the staging memory in its canonical form.
-/
namespace Sys2Proof.Machine

/-! ### Tables: association lists with at most one entry per key -/

/-- The value a table holds for a key. -/
def tget {κ α : Type} [DecidableEq κ] (l : List (κ × α)) (k : κ) : Option α :=
  match l with
  | [] => none
  | (k', a) :: r => if k' = k then some a else tget r k

/-- Sets a key: in its place when the table has it, else at the end. -/
def tset {κ α : Type} [DecidableEq κ] (l : List (κ × α)) (k : κ) (a : α) : List (κ × α) :=
  match l with
  | [] => [(k, a)]
  | (k', a') :: r => if k' = k then (k, a) :: r else (k', a') :: tset r k a

/-- Removes a key. -/
def tdel {κ α : Type} [DecidableEq κ] (l : List (κ × α)) (k : κ) : List (κ × α) :=
  l.filter fun e => !decide (e.1 = k)

/-- Changes the value of a key the table has. -/
def tupd {κ α : Type} [DecidableEq κ] (l : List (κ × α)) (k : κ) (f : α → α) : List (κ × α) :=
  l.map fun e => if e.1 = k then (e.1, f e.2) else e

/-- Changes the elements that meet a test. -/
def updIf {α : Type} (l : List α) (p : α → Bool) (f : α → α) : List α :=
  l.map fun a => if p a then f a else a

/-- Puts an element into a sorted list, before the elements that it need not follow. -/
def insertBy {α : Type} (le : α → α → Bool) (a : α) : List α → List α
  | [] => [a]
  | b :: r => if le a b then a :: b :: r else b :: insertBy le a r

/-- Sorts a list, elements that are equal in the order staying as they stood. -/
def sortBy {α : Type} (l : List α) (le : α → α → Bool) : List α := l.foldr (insertBy le) []

/-- The least number of `[from, bound)` that a list does not hold. -/
def lowestFree (used : List Nat) (first : Nat) : Nat → Option Nat
  | 0 => none
  | fuel + 1 => if used.contains first then lowestFree used (first + 1) fuel else some first

/-- The low 32 bits of a number. -/
def w32 (n : Nat) : BitVec 32 := BitVec.ofNat 32 n

/-- The low 64 bits of a number. -/
def w64 (n : Nat) : BitVec 64 := BitVec.ofNat 64 n

/-! ### Register fields -/

/-- The value in force of a stored field: what was last set, else the table's reset value. -/
def RegFile.get (r : RegFile) (f : Fld) (ix : Nat := 0) : BitVec 32 :=
  (tget r.vals ⟨f, ix⟩).getD (w32 f.spec.reset)

/-- Sets a stored field. -/
def RegFile.set (r : RegFile) (f : Fld) (v : BitVec 32) (ix : Nat := 0) : RegFile :=
  { r with vals := tset r.vals ⟨f, ix⟩ v }

/-- Returns a field to its reset value and drops a pending shadow. -/
def RegFile.toReset (r : RegFile) (f : Fld) (ix : Nat := 0) : RegFile :=
  { r with vals := tdel r.vals ⟨f, ix⟩, shadow := tdel r.shadow ⟨f, ix⟩ }

/-- The value in force of a stored field of the module. -/
def State.reg (s : State) (f : Fld) (ix : Nat := 0) : Nat := (s.regs.get f ix).toNat

/-- Sets a stored field of the module. -/
def State.setReg (s : State) (f : Fld) (v : Nat) (ix : Nat := 0) : State :=
  { s with regs := s.regs.set f (w32 v) ix }

/-- The fields whose counts the spec lets saturate (R37, R65, R182). -/
def Fld.saturates (f : Fld) : Bool :=
  match f with
  | .tckOvrCntN | .codSelfchkCntN | .fixFaultCntN => true
  | _ => false

/-- A count raised by n. Past 2^32 − 1 it saturates where the spec says so; elsewhere its value is free. -/
def countUp (f : Fld) (v : BitVec 32) (n : Nat) : BitVec 32 :=
  if v.toNat + n < 2 ^ 32 then w32 (v.toNat + n)
  else if f.saturates then 0xFFFFFFFF
  else Config.counterOver f v

/-- Raises a counter field. -/
def State.bump (s : State) (f : Fld) (n : Nat := 1) (ix : Nat := 0) : State :=
  if n = 0 then s else { s with regs := s.regs.set f (countUp f (s.regs.get f ix) n) ix }

/-! ### Time -/

/-- The tick period in nanoseconds (R25). -/
def State.periodNs (s : State) : Nat := 4000 * 2 ^ (s.reg .tckCfgPeriod)

/-- The tick period in microseconds. -/
def State.periodUs (s : State) : Nat := 4 * 2 ^ (s.reg .tckCfgPeriod)

/-- The number of the last edge (R26). -/
def State.edge (s : State) : Nat := s.tck.now / s.periodNs

/-- Order number of a start-up state (R337, R346). -/
def phaseCode (p : Phase) : Nat :=
  match p with
  | .powerOff => 1 | .reset => 2 | .trustBoot => 3 | .configLoad => 4 | .memoryInit => 5 | .vaultRecovery => 6 | .ropeJoin => 7
  | .memberDiscovery => 8 | .poolAssembly => 9 | .journalReconcile => 10 | .online => 11 | .failStop => 12 | .bivouac _ => 13

/-- The image number that stands at the index of a removed member. -/
def holeImg : Nat := 2 ^ 32

/-! ### The part (R1) -/

/-- The part's ordering code (R1), in the sixteen bytes of identity data and reports. -/
def Part.orderingCode (p : Part) : List Byte :=
  match p.variant, p.packing with
  | .h96, .tray => ascii "AZ-9640-H96-B1T" ++ [0]
  | .h96, .single => ascii "AZ-9640-H96-B1S" ++ [0]
  | .h192, .tray => ascii "AZ-9640-H192-B1T"
  | .h192, .single => ascii "AZ-9640-H192-B1S"

/-! ### Event records (R13, R374 to R376) -/

/-- The latest records the circulating area keeps (R376). -/
def areaSize : Nat := 65536

/-- Assigns the next sequence number to a record and puts it into both areas; the mark moves up by 65,536 before it is assigned (R375). -/
def Evr.assign (e : Evr) (r : EvRec) : Evr :=
  let rec' := { r with seq := e.next }
  { e with
    next := e.next + 1
    mark := if e.next ≥ e.mark then e.next + areaSize else e.mark
    recs := (rec' :: e.recs).take areaSize
    cairn := if e.cairn.length < areaSize then rec' :: e.cairn else e.cairn
    waiting := e.waiting + 1
    norDirty := true }

/-- The unit that writes an event's record. -/
def Ev.unit (e : Ev) : Nat := e.spec.unit

/-- Records that the intake holds before the reservation header is taken (R375). -/
def intakeMax : Nat := 4096

/-- A unit hands a record to EVR. Once the reservation header is taken EVR numbers it at once. Before that it waits in the intake; when the intake is full it
waits in the unit's own queue of eight, and past that it is lost and counted; the next record that the unit writes carries the count (R13, R375). -/
def State.reach (s : State) (r : EvRec) : State :=
  let u := (tget s.evr.units r.ev.unit).getD ⟨[], 0⟩
  let r := { r with lost := u.lost }
  if s.evr.taken then { s with evr := { s.evr.assign r with units := tdel s.evr.units r.ev.unit } }
  else if s.evr.intake.length < intakeMax then
    { s with evr := { s.evr with intake := s.evr.intake ++ [r], units := tdel s.evr.units r.ev.unit } }
  else if u.queue.length < 8 then { s with evr := { s.evr with units := tset s.evr.units r.ev.unit ⟨u.queue ++ [r], 0⟩ } }
  else State.bump { s with evr := { s.evr with units := tset s.evr.units r.ev.unit { u with lost := u.lost + 1 } } } .evrLostCntN

/-- A record is written: in an edge sequence it waits for the others of that sequence, else it goes to EVR. -/
def State.put (s : State) (r : EvRec) : State :=
  if s.evr.batching then { s with evr := { s.evr with batch := s.evr.batch ++ [r] } } else s.reach r

/-- Runs an edge sequence. Its records reach EVR in the same cycle, so they are numbered in ascending order of unit code (R13); the spec does not say in which
cycles of t_edge they are written, and the model takes one for all (DESIGN CHOICE, log entry 110). -/
def State.oneCycle (s : State) (f : State → State) : State :=
  let t := f { s with evr := { s.evr with batching := true, batch := [] } }
  let l := sortBy t.evr.batch fun a b => decide (a.ev.unit ≤ b.ev.unit)
  l.foldl State.reach { t with evr := { t.evr with batching := false, batch := [] } }

/-- The rope time that a record carries: the edge's in an edge sequence; else free within the tick, since the model's commands bear no time (R18, R374). -/
def State.recTime (s : State) : Nat :=
  if s.evr.batching then s.tck.now
  else s.tck.now + Config.recordAt (s.evr.next + s.evr.intake.length) % ((s.edge + 1) * s.periodNs - s.tck.now)

/-- The record of an event with its subject, pool and values (R374). -/
def State.record (s : State) (e : Ev) (kind : Nat := 0) (subj : Nat := 0) (pool : BitVec 16 := 0)
    (a : Nat := 0) (b : Nat := 0) (c : Nat := 0) (inj : Bool := false) : EvRec :=
  { seq := 0, time := s.recTime, ev := e, isLocal := s.tck.isLocal, injected := inj || s.mgt.injNow, lost := 0, kind := kind,
    subj := subj, pool := pool, a := w64 a, b := w64 b, c := w64 c }

/-- Logs an event (R374); a fatal one sets GLB_ALERT.FATAL (R394). -/
def State.log (s : State) (e : Ev) (kind : Nat := 0) (subj : Nat := 0) (pool : BitVec 16 := 0)
    (a : Nat := 0) (b : Nat := 0) (c : Nat := 0) (inj : Bool := false) : State :=
  let t := s.put (s.record e kind subj pool a b c inj)
  if e.spec.sev = 3 then t.setReg .glbAlertFatal 1 else t

/-! ### Outputs and free values -/

/-- Starts a command: the outputs of the command before are no longer shown. -/
def State.clr (s : State) : State := { s with out := [] }

/-- The module sends something. -/
def State.emit (s : State) (o : Out) : State := { s with out := s.out ++ [o] }

/-- The module sends several things. -/
def State.emits (s : State) (os : List Out) : State := { s with out := s.out ++ os }

/-- A fresh free word. -/
def State.freeWord (s : State) : BitVec 64 × State :=
  (Config.word s.freeCtr, { s with freeCtr := s.freeCtr + 1 })

/-- Time passes within the tick before software looks at the clock: how much is free, but the next edge has not fallen (R18, R26). -/
def State.elapse (s : State) : State :=
  let (w, t) := s.freeWord
  { t with tck := { t.tck with now := s.tck.now + w.toNat % ((s.edge + 1) * s.periodNs - s.tck.now) } }

/-- Goes through a list, changing the state at each element. -/
def State.each {α : Type} (s : State) (l : List α) (f : State → α → State) : State := l.foldl f s

/-- Takes an operation when a test holds. -/
def State.iff (s : State) (b : Bool) (f : State → State) : State := if b then f s else s

/-! ### The staging memory (R342): cells in canonical form -/

/-- What an unlisted byte reads as: an erased NOR byte. -/
def erasedByte : Byte := 0xFF

/-- Addresses strictly rising and no cell that equals an unlisted one. -/
def Memory.wf : List Host.Cell → Bool
  | [] => true
  | [(_, b)] => !decide (b = erasedByte)
  | (a, b) :: (a', b') :: r => !decide (b = erasedByte) && decide (a < a') && Memory.wf ((a', b') :: r)

/-- Reads one byte. -/
def Memory.read (m : List Host.Cell) (a : Nat) : Byte :=
  match m with
  | [] => erasedByte
  | (a', b) :: r => if a' = a then b else Memory.read r a

/-- Writes one byte, keeping the canonical form. -/
def Memory.write (m : List Host.Cell) (a : Nat) (b : Byte) : List Host.Cell :=
  match m with
  | [] => if b = erasedByte then [] else [(a, b)]
  | (a', b') :: r =>
    if a < a' then (if b = erasedByte then (a', b') :: r else (a, b) :: (a', b') :: r)
    else if a = a' then (if b = erasedByte then r else (a, b) :: r)
    else (a', b') :: Memory.write r a b

/-- Writes bytes at rising addresses. -/
def Memory.writeAll (m : List Host.Cell) (a : Nat) : List Byte → List Host.Cell
  | [] => m
  | b :: bs => Memory.writeAll (Memory.write m a b) (a + 1) bs

end Sys2Proof.Machine
end

