-- ==== Sys2Proof/Machine/Inject.lean ====
section
/-!
DEFINITION. Injections (R401 to R404): how an armed slot takes an item, the mark that an altered item carries, and the detectors whose findings
only an injection can cause in this model: core faults (R178), lane self-check mismatches (R64) and word errors (R14).
-/
namespace Sys2Proof.Machine

/-- Detectors whose PARAM is a stride (R402, R403). -/
def strided (det : Nat) : Bool := !(det == 0x10 || det == 0x11 || det == 0x13)

/-- Does a slot match an item (R402)? Kind 0 matches any. -/
def InjSlot.matches (x : InjSlot) (dets : List Nat) (attrs : List (Nat × Nat)) : Bool :=
  x.armed && decide (x.left > 0) && dets.contains x.det && (x.kind == 0 || attrs.contains (x.kind, x.subj))

/-- Offers an item to the slots in rising order: a slot inside its stride lets it pass; the first other one that matches applies (R402, R403). -/
def injScan (dets : List Nat) (attrs : List (Nat × Nat)) : List InjSlot → List InjSlot × Option InjSlot
  | [] => ([], none)
  | x :: rest =>
    if !x.matches dets attrs then
      let (r, o) := injScan dets attrs rest
      (x :: r, o)
    else if x.skip > 0 then
      let (r, o) := injScan dets attrs rest
      ({ x with skip := x.skip - 1 } :: r, o)
    else ({ x with left := x.left - 1, applied := x.applied + 1, skip := if strided x.det then x.param else 0 } :: rest, some x)

/-- Offers an item to the slots; the slot that applies, if one does. -/
def State.inject (s : State) (dets : List Nat) (attrs : List (Nat × Nat)) : State × Option InjSlot :=
  if s.mgt.inj.any (·.armed) then
    let (l, o) := injScan dets attrs s.mgt.inj
    (({ s with mgt := { s.mgt with inj := l } } : State).bump .mgtInjDoneN (if o.isSome then 1 else 0), o)
  else (s, none)

/-- Runs work on an item that may carry the injected mark: the records it writes are flagged, the items it makes carry the mark (R404). -/
def State.marked (s : State) (b : Bool) (f : State → State) : State :=
  if b then
    let was := s.mgt.injNow
    let t := f { s with mgt := { s.mgt with injNow := true } }
    { t with mgt := { t.mgt with injNow := was } }
  else f s

/-- One of several, chosen by a free value: which core or lane does a piece of work is not stated. -/
def State.freeOf (s : State) (l : List Nat) : State × Nat :=
  let (w, s) := s.freeWord
  (s, l.getD (w.toNat % l.length) 0)

/-- Edges over which faults are counted towards a fence (R64, R178). -/
def faultWindow : Nat := 1024

/-- A frame is received on an Ethernet port: an injection may invert its FCS, and RoCEv2 or Hudom sends it again (R402, 0x05). -/
def State.etherFrame (s : State) (port : Nat) : State := (s.inject [0x05] [(5, port)]).1

/-! ### Cores (R178) -/

/-- Cores not fenced. -/
def State.coresUp (s : State) : List Nat := (List.range 96).filter fun c => !s.fix.fenced.contains c

/-- A comparison fault of a core: logged, counted, and at the threshold the core is fenced. -/
def State.coreFault (s : State) (core : Nat) : State :=
  let s := (s.log .fixFault 7 core 0 0 0 0 true).bump .fixFaultCntN
  let fs := (core, s.edge) :: s.fix.faults.filter fun e => decide (e.2 + faultWindow > s.edge)
  let s : State := { s with fix := { s.fix with faults := fs } }
  if (fs.filter fun e => e.1 == core).length ≥ s.reg .fixFenceThrN then
    State.log { s with fix := { s.fix with fenced := s.fix.fenced ++ [core] } } .fixCoreFenced 7 core 0 0 0 0 true
  else s

/-- One computation of a tag in Inverse or Dual mode, on up to three cores, each time on one that has not been tried; false when every one of them faults
(FIX_FAULT_PERSIST). The comparison is what an injection inverts, in either mode (R402, 0x0C). -/
def State.tagTry (s : State) (tried : List Nat) : Nat → State × Bool
  | 0 => (s.log .fixFaultPersist 0 0 0 0 0 0 true, false)
  | n + 1 =>
    let cores := s.coresUp.filter fun c => !tried.contains c
    let (s, o) := s.inject [0x0C] (cores.map fun c => (7, c))
    match o with
    | none => (s, true)
    | some x =>
      let (s, c) : State × Nat := if x.kind = 7 then (s, x.subj) else s.freeOf cores
      State.tagTry (s.coreFault c) (c :: tried) n

/-- The computation or check of a block's tag under a volume's fault mode (R178): Single compares nothing. -/
def State.tagCheck (s : State) (fault : Nat) : State × Bool := if fault = 0 then (s, true) else s.tagTry [] 3

/-- The tags of several blocks: whether every one was computed. -/
def State.tagAll (s : State) (fault : Nat) : Nat → State × Bool
  | 0 => (s, true)
  | n + 1 =>
    let (s, a) := s.tagCheck fault
    let (s, b) := State.tagAll s fault n
    (s, a && b)

/-! ### Lanes (R64) -/

/-- Lanes not fenced. -/
def State.lanesUp (s : State) : List Nat :=
  (List.range 4).filter fun i => !s.cod.fenced.contains i && (s.regs.get .codLaneEnEn).getLsbD i

/-- The self-check of one row segment: a mismatch is logged and counted, the segment redone on another lane in the same tick, and at the threshold
the lane is fenced. -/
def State.selfCheck (s : State) : State :=
  let (s, o) := s.inject [0x0D] (s.lanesUp.map fun c => (7, c))
  match o with
  | none => s
  | some x =>
    let (s, lane) : State × Nat := if x.kind = 7 then (s, x.subj) else s.freeOf s.lanesUp
    let s := (s.log .codSelfcheck 7 lane 0 0 0 0 true).bump .codSelfchkCntN
    let fs := (lane, s.edge) :: s.cod.faults.filter fun e => decide (e.2 + faultWindow > s.edge)
    let s : State := { s with cod := { s.cod with faults := fs } }
    if (fs.filter fun e => e.1 == lane).length ≥ s.reg .codFenceThrN then
      State.log { s with cod := { s.cod with fenced := s.cod.fenced ++ [lane] } } .codLaneFenced 7 lane 0 0 0 0 true
    else s

/-! ### Words (R14, R45) and payload blocks at ingress (R166) -/

/-- The first word of a block's data, as the symbols of the word code. -/
def firstWord (d : BlockData) : GVec := leBytes 32 d.toNat

/-- A word with its first n symbols inverted, as the injections 0x01 to 0x03 leave one in HBM. DESIGN CHOICE: which word and symbols they take is not stated. -/
def badWord (n : Nat) (w : GVec) : GVec := (w.take n).map (fun b => ~~~b) ++ w.drop n

/-- A block with bad symbols in one word reaches the unit that consumes it: the decoder corrects the word, which counts, or flags it, which counts and is
logged (R14, R44, R45). Answers whether the data stand. -/
def State.decodeWord (s : State) (unit vol n : Nat) (d : BlockData) : State × Bool :=
  let w := wordEncode (firstWord d)
  match wordDecode (badWord n w) with
  | some v => if v == w then (s.bump .mgtWcCorrCntN, true) else (s.bump .mgtWcCorrCntN, false)
  | none => ((s.log (.wordUncorrectable unit) 4 vol 0 0 0 0 true).bump .mgtWcUncCntN, false)

/-- A block that CCH writes to HBM and FIX then reads for its tag: its words are decoded, and the guard that came with it is compared; false when the block
has to be fetched again. -/
def State.ingress (s : State) (vol port : Nat) (d : BlockData) : State × Bool :=
  let (s, w) := s.inject [0x01, 0x02, 0x03, 0x0A] [(4, vol), (5, port)]
  match w with
  | none => (s, true)
  | some x => if x.det = 0x0A then (s, false) else s.decodeWord 9 vol x.det d

/-- A block that the rope brings is written to HBM, and ROP reads it for its checks (R289): false when a word of it is flagged. -/
def State.ropeWord (s : State) (vol : Nat) (d : BlockData) : State × Bool :=
  let (s, w) : State × Option InjSlot := s.inject [0x01, 0x02, 0x03] []
  match w with
  | none => (s, true)
  | some x => s.decodeWord 0x0C vol x.det d

/-- The blocks of a landed slice, one after the other, with their tags: the places of those whose guard agreed, and whether every tag was computed. -/
def State.ingressAll (s : State) (vol port fault : Nat) (ds : List BlockData) : State × List Bool × Bool :=
  ds.foldl (fun (s, oks, tags) d =>
    let (s, ok) : State × Bool := s.ingress vol port d
    let (s, tag) : State × Bool := s.tagCheck fault
    (s, oks ++ [ok], tags && tag)) (s, [], true)

end Sys2Proof.Machine
end

