-- ==== Sys2Proof/Machine/Layout.lean ====
section
/-!
DEFINITION. Codes, strips and declustered placement (R46 to R63): the limits of a layout, where a volume block and a strip lie,
the permutation table, spare slots, and which strips a reconstruction reads.
-/
namespace Sys2Proof.Machine

/-! ### Layout descriptors -/

/-- Width w of a stripe (R46). -/
def layWidth (d : LayoutDesc) : Nat :=
  match d.family with
  | 1 => d.m + 1
  | 2 => d.k + 1
  | 3 => d.k + d.m
  | 4 => d.k + d.l + d.g
  | _ => 0

/-- Erasures always recoverable, t (R46). -/
def layTol (d : LayoutDesc) : Nat :=
  match d.family with
  | 1 => d.m
  | 2 => 1
  | 3 => d.m
  | 4 => d.g + 1
  | _ => 0

/-- Blocks of a strip, B_s (R51). -/
def layBs (d : LayoutDesc) : Nat := 2 ^ (d.stripExp - 12)

/-- Data strips of a stripe: k, and 1 for a mirror (R53). -/
def layK (d : LayoutDesc) : Nat := if d.family = 1 then 1 else d.k

/-- Data blocks of a stripe (R51). -/
def layData (d : LayoutDesc) : Nat := layK d * layBs d

/-- U = N − s (R55). -/
def layU (d : LayoutDesc) : Nat := d.n - d.s

/-- The ceiling of a quotient. -/
def ceilDiv (a b : Nat) : Nat := (a + b - 1) / b

/-- The code limits of R46. -/
def codeLegal (d : LayoutDesc) : Bool :=
  match d.family with
  | 1 => d.k == 1 && decide (1 ≤ d.m ∧ d.m ≤ 3) && d.l == 0 && d.g == 0
  | 2 => decide (2 ≤ d.k ∧ d.k ≤ 63) && d.m == 1 && d.l == 0 && d.g == 0
  | 3 => decide (2 ≤ d.k) && decide (2 ≤ d.m ∧ d.m ≤ 8) && decide (d.k + d.m ≤ 64) && d.l == 0 && d.g == 0
  | 4 => decide (2 ≤ d.l ∧ d.l ≤ 8) && d.k % d.l == 0 && decide (2 ≤ d.k / d.l) && decide (d.g ≤ 6)
           && decide (d.k + d.l + d.g ≤ 64) && d.m == 0
  | _ => false

/-- The placement limits of R55 and the ranges of R52. -/
def placeLegal (d : LayoutDesc) : Bool :=
  decide (layWidth d ≤ d.n) && decide (d.n ≤ 1024) && decide (d.s ≤ 8) && decide (d.levels ≤ 2)
    && decide (layWidth d ≤ layU d) && decide (ceilDiv (layU d) (layWidth d) * layWidth d ≤ d.n)

/-- R46, R51, R52 and R55 together. -/
def layLegal (d : LayoutDesc) : Bool :=
  codeLegal d && decide (14 ≤ d.stripExp ∧ d.stripExp ≤ 20) && placeLegal d && d.zone == 1048576 && d.rsvdZero
    && decide (1 ≤ d.id ∧ d.id ≤ 0xFFFE)

/-- Bytes 0x00 to 0x3B of a descriptor (R52). -/
def layBytes (d : LayoutDesc) : List Byte :=
  leBytes 2 d.id ++ leBytes 1 d.family ++ leBytes 1 d.stripExp ++ leBytes 1 d.k ++ leBytes 1 d.m ++ leBytes 1 d.l ++ leBytes 1 d.g
    ++ leBytes 2 d.n ++ leBytes 1 d.s ++ leBytes 1 d.levels ++ leBytes 2 d.memberList ++ leBytes 2 0 ++ leBytes 8 d.seed.toNat
    ++ leBytes 8 d.hBase ++ leBytes 8 d.count ++ leBytes 4 d.zone ++ leBytes 16 0

/-- The CRC a descriptor with zero reserved bytes ought to carry. -/
def layCrc (d : LayoutDesc) : BitVec 32 := crc32c (layBytes d)

/-- A descriptor assembles: R46, R51, R55 and its CRC hold. DESIGN CHOICE: R52 names the CRC, R46 and R55; a descriptor with a field outside the range that R52's own
table gives it (id, strip exponent, levels, N, s, zone size, reserved bytes) fails in the same way. -/
def layAssembles (d : LayoutDesc) : Bool := layLegal d && decide (d.crc = layCrc d)

/-- Layout stripes a layout has: those of its slot rows (R55). -/
def layStripes (d : LayoutDesc) : Nat := d.count * layU d / layWidth d

/-- Allocation extents of 256 stripes a layout has (R53). -/
def layExtents (d : LayoutDesc) : Nat := layStripes d / 256

/-! ### Mapping (R53 to R55) -/

/-- Where a volume block lies: volume stripe, data column, offset in the strip. -/
def mapBlock (d : LayoutDesc) (v : Nat) : Nat × Nat × Nat :=
  (v / layData d, (v / layBs d) % layK d, v % layBs d)

/-- The layout stripe of a volume stripe, by the extent map. -/
def layoutStripe (extents : List Nat) (sv : Nat) : Option Nat :=
  (extents[sv / 256]?).map fun e => 256 * e + sv % 256

/-- The volume stripe that a layout stripe is, by the extent map. -/
def volumeStripe (extents : List Nat) (n : Nat) : Option Nat :=
  (extents.findIdx? (· == n / 256)).map fun i => 256 * i + n % 256

/-- Slot row h′ and group q of a layout stripe (R55). -/
def stripeRow (d : LayoutDesc) (n : Nat) : Nat × Nat :=
  let h := ceilDiv ((n + 1) * layWidth d) (layU d) - 1
  (h, n - h * layU d / layWidth d)

/-- Stripes that slot row h′ holds, Q(h′) (R55). -/
def rowStripes (d : LayoutDesc) (h : Nat) : Nat := (h + 1) * layU d / layWidth d - h * layU d / layWidth d

/-- The member LBA of a block: slot row h of the member, offset o (R54). -/
def stripLba (d : LayoutDesc) (row o : Nat) : Nat := 1048576 + row * layBs d + o

/-! ### The permutation table (R56, R57) -/

/-- One draw of the generator: the value and the next state. -/
def rngNext (st : BitVec 64) : BitVec 64 × BitVec 64 :=
  let st := st + 0x9E3779B97F4A7C15
  let z := (st ^^^ (st >>> 30)) * 0xBF58476D1CE4E5B9
  let z := (z ^^^ (z >>> 27)) * 0x94D049BB133111EB
  (z ^^^ (z >>> 31), st)

/-- A number below n: the high 64 bits of the 128-bit product. -/
def rngBelow (n : Nat) (st : BitVec 64) : Nat × BitVec 64 :=
  let (z, st) := rngNext st
  (z.toNat * n / 2 ^ 64, st)

/-- Exchanges two places of a list. -/
def swapAt {α : Type} (l : List α) (i j : Nat) : List α :=
  match l[i]?, l[j]? with
  | some a, some b => (l.set i b).set j a
  | _, _ => l

/-- The shuffle of R56, from place i down to 1. -/
def shuffleFrom {α : Type} : Nat → List α → BitVec 64 → List α × BitVec 64
  | 0, l, st => (l, st)
  | i + 1, l, st =>
    let (j, st) := rngBelow (i + 2) st
    shuffleFrom i (swapAt l (i + 1) j) st

/-- The shuffle of a whole list. -/
def shuffle {α : Type} (l : List α) (st : BitVec 64) : List α × BitVec 64 := shuffleFrom (l.length - 1) l st

/-- First of each, then second of each, and so on. -/
def interleave {α : Type} (ls : List (List α)) : List α :=
  (List.range ((ls.map List.length).foldl max 0)).flatMap fun i => ls.filterMap fun l => l[i]?

/-- Distinct numbers of a list in ascending order. -/
def sortedKeys (l : List Nat) : List Nat := sortBy l.eraseDups fun a b => decide (a ≤ b)

/-- A layout with its members: pool member index and domain keys by position in the member list. A member without a declared domain at
a level has a key of its own after every declared one (R56). -/
structure Geo where
  d    : LayoutDesc
  mem  : List Nat
  dom1 : List Nat
  dom2 : List Nat
  deriving DecidableEq, Repr

/-- The key of a domain declared, or of the member's own. -/
def domKey (declared : Option Nat) (i : Nat) : Nat := declared.getD (2 ^ 32 + i)

/-- The geometry of a layout over members with their declared domains. -/
def geoOf (d : LayoutDesc) (mem : List Nat) (doms : List (Option Nat × Option Nat)) : Geo :=
  { d := d, mem := mem
    dom1 := (List.range mem.length).map fun i => if d.levels = 0 then domKey none i else domKey ((doms.getD i (none, none)).1) i
    dom2 := (List.range mem.length).map fun i => if d.levels < 2 then 0 else domKey ((doms.getD i (none, none)).2) i }

/-- Shuffles each list in turn. -/
def shuffleEach (ls : List (List Nat)) (st : BitVec 64) : List (List Nat) × BitVec 64 :=
  ls.foldl (fun (acc, st) l => let (l', st') := shuffle l st; (acc ++ [l'], st')) ([], st)

/-- Level-1 domains listed under a level-2 domain: by their member of lowest index (R56). -/
def domsUnder (g : Geo) (f : Nat) : List Nat :=
  sortedKeys (g.dom1.filter fun e =>
    match g.dom1.findIdx? (· == e) with
    | some i => g.dom2.getD i 0 == f
    | none => false)

/-- Row t of the permutation table before fix_up, as places of the member list. -/
def rawRow (g : Geo) (t : Nat) : List Nat :=
  let st := g.d.seed ^^^ (BitVec.ofNat 64 t <<< 32)
  let (fs, st) := shuffle (sortedKeys g.dom2) st
  let (es, st) := shuffleEach (fs.map (domsUnder g)) st
  let ds := interleave es
  let (ms, _) := shuffleEach (ds.map fun e => (List.range g.mem.length).filter fun i => g.dom1.getD i 0 == e) st
  interleave ms

/-- The domain caps c1 and c2 (R57). -/
def domCaps (g : Geo) : Nat × Nat :=
  (ceilDiv (layWidth g.d) (sortedKeys g.dom1).length, ceilDiv (layWidth g.d) (sortedKeys g.dom2).length)

/-- Would adding member a to these keep both counts within the caps? -/
def withinCaps (g : Geo) (caps : Nat × Nat) (there : List Nat) (a : Nat) : Bool :=
  decide ((there.filter fun b => g.dom1.getD b 0 == g.dom1.getD a 0).length + 1 ≤ caps.1)
    && decide ((there.filter fun b => g.dom2.getD b 0 == g.dom2.getD a 0).length + 1 ≤ caps.2)

/-- fix_up at one position: the row, and whether it is marked as exposed (R57). -/
def fixPos (g : Geo) (caps : Nat × Nat) (acc : List Nat × Bool) (p : Nat) : List Nat × Bool :=
  let w := layWidth g.d
  let row := acc.1
  let start := p / w * w
  let there := (row.drop start).take (p - start)
  match row[p]? with
  | none => acc
  | some a =>
    if withinCaps g caps there a then acc
    else
      match (List.range (row.length - (start + w))).find? fun i => withinCaps g caps there (row.getD (start + w + i) 0) with
      | some i => (swapAt row p (start + w + i), acc.2)
      | none => (row, true)

/-- Row t of the permutation table and its exposed mark. -/
def permRow (g : Geo) (t : Nat) : List Nat × Bool :=
  let w := layWidth g.d
  (List.range (g.mem.length / w * w)).foldl (fixPos g (domCaps g)) (rawRow g t, false)

/-- Place in the member list that carries strip x of layout stripe n before any remapping (R55). -/
def homePlace (g : Geo) (n x : Nat) : Nat :=
  let (h, q) := stripeRow g.d n
  (permRow g (h % 4096)).1.getD (q * layWidth g.d + x) 0

/-- Where a strip lies: pool member index and slot row. -/
structure StripAt where
  member : Nat
  row    : Nat
  deriving DecidableEq, Repr

/-- Home of a strip: the member by the permutation table, and its slot row. -/
def homeStrip (g : Geo) (n x : Nat) : StripAt :=
  ⟨g.mem.getD (homePlace g n x) 0, g.d.hBase + (stripeRow g.d n).1⟩

/-- Where a strip lies now: the remap table first (R61). -/
def findStrip (g : Geo) (remap : List RemapEnt) (n x : Nat) : StripAt :=
  match remap.find? fun e => e.layout == g.d.id && e.stripe == n && e.strip == x with
  | some e => ⟨e.member, e.row⟩
  | none => homeStrip g n x

/-- Groups of table row t that are stripes of some slot row of the layout: the others hold only spare slots (R55). -/
def tableGroups (d : LayoutDesc) (t : Nat) : Nat :=
  ((List.range (d.count / 4096 + 1)).map fun i => if t + 4096 * i < d.count then rowStripes d (t + 4096 * i) else 0).foldl max 0

/-- Strips of a stripe on one domain of a level at most, over the stripes of the first `n` groups of a row. -/
def rowWorst (g : Geo) (doms : List Nat) (row : List Nat) (n : Nat) : Nat :=
  let w := layWidth g.d
  ((List.range (min n (row.length / w))).map fun q =>
    let grp := (row.drop (q * w)).take w
    (grp.map fun a => (grp.filter fun b => doms.getD b 0 == doms.getD a 0).length).foldl max 0).foldl max 0

/-- Is one level exposed (R58): its cap is above t, or a row marked as exposed puts more than t strips of a stripe into one domain. -/
def levelExposed (g : Geo) (level : Nat) : Bool :=
  let doms := if level = 1 then g.dom1 else g.dom2
  let cap := if level = 1 then (domCaps g).1 else (domCaps g).2
  decide (cap > layTol g.d) || (List.range 4096).any fun t =>
    let (row, ex) := permRow g t
    ex && decide (rowWorst g doms row (tableGroups g.d t) > layTol g.d)

/-- The declared levels of a layout that are exposed. -/
def exposedLevels (g : Geo) : List Nat :=
  ((List.range g.d.levels).map (· + 1)).filter (levelExposed g)

/-! ### Spare slots (R60) -/

/-- Slot rows in the order of the search: h, h+1, h−1, h+2, … at most 4,096 away, within the layout's range. -/
def searchRows (d : LayoutDesc) (h : Nat) : List Nat :=
  (h :: (List.range 4096).flatMap fun i => if h ≥ i + 1 then [h + i + 1, h - (i + 1)] else [h + i + 1]).filter (· < d.count)

/-- Spare places of a slot row in ascending position. -/
def spareRow (g : Geo) (h : Nat) : List Nat := (permRow g (h % 4096)).1.drop (layWidth g.d * rowStripes g.d h)

/-- The spare slot R60 chooses for a strip, with whether the caps were given up. `used` are spare slots taken, `inService` the members
in service, `others` the members of the stripe's other strips. -/
def chooseSpare (g : Geo) (used : List (Nat × Nat)) (inService : Nat → Bool) (others : List Nat) (n : Nat) : Option (StripAt × Bool) :=
  let h := (stripeRow g.d n).1
  let otherPlaces := others.filterMap fun m => g.mem.findIdx? (· == m)
  let ok := fun (caps : Bool) (row a : Nat) =>
    let m := g.mem.getD a 0
    !used.contains (m, g.d.hBase + row) && inService m && !others.contains m && (!caps || withinCaps g (domCaps g) otherPlaces a)
  let search := fun (caps : Bool) => (searchRows g.d h).findSome? fun row =>
    ((spareRow g row).find? (ok caps row)).map fun a => (⟨g.mem.getD a 0, g.d.hBase + row⟩ : StripAt)
  match search true with
  | some x => some (x, false)
  | none => (search false).map fun x => (x, true)

/-! ### Codes (R47 to R50, R63) -/

/-- Strip x as a combination of the data strips (R48 to R50). A mirror's copies are all its one data strip. -/
def stripVec (d : LayoutDesc) (x : Nat) : GVec :=
  let k := layK d
  if x < k then vunit k x
  else
    match d.family with
    | 1 => [1]
    | 4 =>
      if x < k + d.l then (List.range k).map fun j => if j / (k / d.l) = x - k then 1 else 0
      else (List.range k).map fun j => cauchy (d.g + 1) (x - k - d.l + 1) j
    | _ => (List.range k).map fun j => cauchy d.m (x - k) j

/-- The role a strip's blocks carry (R40). -/
def stripRole (d : LayoutDesc) (x : Nat) : Nat :=
  match d.family with
  | 1 => if x = 0 then 0 else 1
  | 4 => if x < d.k then 0 else if x < d.k + d.l then 4 else 5
  | _ => if x < d.k then 0 else if x = d.k then 2 else 3

/-- Is strip x parity? -/
def isParity (d : LayoutDesc) (x : Nat) : Bool := decide (stripRole d x ≥ 2)

/-- Parity strips of a layout. -/
def parityStrips (d : LayoutDesc) : List Nat := (List.range (layWidth d)).filter (isParity d)

/-- Data strips of a layout; for a mirror, every copy. -/
def dataStrips (d : LayoutDesc) : List Nat := (List.range (layWidth d)).filter fun x => !isParity d x

/-- Strips of a local group, its parity last (R48). -/
def localGroup (d : LayoutDesc) (p : Nat) : List Nat :=
  ((List.range d.k).filter fun j => j / (d.k / d.l) = p) ++ [d.k + p]

/-- How a strip is rebuilt: the strips to read and the combination of them that gives it. -/
structure Decode where
  strip : Nat
  comb  : List (Nat × Byte)
  deriving DecidableEq, Repr

/-- The erased strips that a local group with one erasure gives back from its other strips (R47, R63). -/
def localDecodes (d : LayoutDesc) (erased : List Nat) : List Decode :=
  if d.family ≠ 4 then []
  else (List.range d.l).filterMap fun p =>
    let grp := localGroup d p
    match grp.filter erased.contains with
    | [x] => some ⟨x, (grp.filter (· ≠ x)).map fun y => (y, 1)⟩
    | _ => none

/-- The decoding of an erasure pattern (R63): for each erased strip the combination of surviving strips, or none where the pattern is beyond
the code. Strips that local groups restore count as surviving for the rest. -/
def decodePlan (d : LayoutDesc) (erased : List Nat) : List (Nat × Option Decode) :=
  let loc := localDecodes d erased
  let rest := erased.filter fun x => !(loc.any fun e => e.strip == x)
  let surv := (List.range (layWidth d)).filter fun x => !rest.contains x
  let (_, basis) := chooseRows (layK d) (surv.map fun x => (x, stripVec d x))
  erased.map fun x =>
    match loc.find? fun e => e.strip == x with
    | some e => (x, some e)
    | none => (x, (solveFor basis (stripVec d x)).map fun c => ⟨x, c.filter fun e => e.2 ≠ 0⟩)

/-- The strips chosen under R63 for what local groups do not give back, those that they restore among them. -/
def chosenStrips (d : LayoutDesc) (erased : List Nat) : List Nat :=
  let loc := localDecodes d erased
  let rest := erased.filter fun x => !(loc.any fun e => e.strip == x)
  if rest.isEmpty then []
  else (chooseRows (layK d) (((List.range (layWidth d)).filter fun x => !rest.contains x).map fun x => (x, stripVec d x))).1

/-- The strips to read for an erasure pattern: those chosen under R63, none twice; a strip that local groups restore is read through its
group. A pattern with data strips all present needs them for its parity. -/
def readSet (d : LayoutDesc) (erased : List Nat) : List Nat :=
  (((localDecodes d erased).flatMap fun e => e.comb.map (·.1)) ++ (chosenStrips d erased).filter fun x => !erased.contains x).eraseDups

/-- Is every erased strip recoverable? -/
def recoverable (d : LayoutDesc) (erased : List Nat) : Bool := (decodePlan d erased).all fun e => e.2.isSome

/-- The encoding of a parity strip from blocks of the data strips. -/
def encodeStrip (d : LayoutDesc) (x : Nat) (blk : Nat → BlockData) : BlockData :=
  combine ((List.range (layK d)).map fun j => (j, (stripVec d x).getD j 0)) blk

/-- The rebuilt data of each erased strip, strips that local groups restore first (R63). -/
def rebuildStrips (d : LayoutDesc) (erased : List Nat) (blk : Nat → BlockData) : List (Nat × Option BlockData) :=
  let loc := (localDecodes d erased).map fun e => (e.strip, combine e.comb blk)
  let blk' := fun x => (tget loc x).getD (blk x)
  (decodePlan d erased).map fun (x, e) =>
    match tget loc x with
    | some b => (x, some b)
    | none => (x, e.map fun e => combine e.comb blk')

/-- Passes of an encode (R62). -/
def encodePasses (d : LayoutDesc) : Nat :=
  match d.family with
  | 1 => 0
  | 4 => if d.g > 4 then 2 else 1
  | 3 => if d.m > 4 then 2 else 1
  | _ => 1

/-- Passes of a reconstruction: a lane gives four outputs in one, and the XOR tree those of local groups beside them (R62). -/
def reconPasses (d : LayoutDesc) (erased : List Nat) : Nat :=
  if d.family = 1 ∨ erased.isEmpty then 0 else max 1 (ceilDiv (erased.length - (localDecodes d erased).length) 4)

/-- Coder bytes charged for one row segment (R30, R62): encode passes per source byte, 2 per output byte when reconstructing. -/
def encodeCharge (d : LayoutDesc) : Nat := 4096 * d.k * encodePasses d

/-- Does a pattern need a decoding matrix: a data strip that no local group gives back (R63)? -/
def needsMatrix (d : LayoutDesc) (erased : List Nat) : Bool :=
  decide (d.family ≠ 1) && erased.any fun x => !isParity d x && !((localDecodes d erased).any fun e => e.strip == x)

/-- Coder bytes charged for reconstructing n outputs. -/
def reconCharge (d : LayoutDesc) (n : Nat) : Nat := if d.family = 1 then 0 else 2 * 4096 * n

end Sys2Proof.Machine
end

