-- ==== Sys2Proof/Machine/Sched.lean ====
section
/-!
DEFINITION. Budgets and admission (R30 to R32): the budgets of a tick, charging a unit whole or deferring it, the background share of
R131, and the carry of what a charge leaves over.
-/
namespace Sys2Proof.Machine

/-- Is an Ethernet port in the member role (R264)? -/
def State.isMemberPort (s : State) (p : Nat) : Bool := (s.regs.get .mbrRoleMember).getLsbD p

/-- Ports of the member role, ascending. -/
def State.memberPorts (s : State) : List Nat := (List.range 16).filter s.isMemberPort

/-- Ports of the rope role, ascending. -/
def State.ropePorts (s : State) : List Nat := (List.range 16).filter fun p => !s.isMemberPort p

/-- Is an Ethernet port's link up? -/
def State.linkUp (s : State) (p : Nat) : Bool := s.mbr.linkUp.getD p false

/-- A host port. -/
def State.hport (s : State) (p : Nat) : HPort := s.hif.ports.getD p .reset

/-- Coder lanes in service: not fenced, and enabled (R64, R65). -/
def State.lanes (s : State) : Nat := s.lanesUp.length

/-- The whole budget of a class in force (R30): ceiling × L / 64, the host's with its link factor (R309), the coder's with its lanes (R64), the
fixity's with its cores (R179), and none for a port whose link is down (R266). -/
def State.budget (s : State) (c : BClass) : Nat :=
  let t := s.periodUs
  match c with
  | .host p _ => 225000 * t * s.reg .tckBudlim0Host * (s.hport p).f / 4096
  | .cod => 625000 * t * s.lanes / 4 * s.reg .tckBudlim0Cod / 64
  | .fix => (if s.fix.cores < 85 then 200 * t * s.fix.cores / 85 else 200 * t) * s.reg .tckBudlim0Fix / 64
  | .mtx p | .mrx p => if s.linkUp p then 100000 * t * s.reg .tckBudlim0Mbr / 64 else 0
  | .mcmd p => if s.linkUp p then 32 * t * s.reg .tckBudlim0Mbr / 64 else 0
  | .rope p => if s.linkUp p then 100000 * t * s.reg .tckBudlim1Rope / 64 else 0

/-- Every class of budget. -/
def allClasses : List BClass :=
  [.host 0 false, .host 0 true, .host 1 false, .host 1 true, .cod, .fix]
    ++ (List.range 16).flatMap fun p => [.mtx p, .mrx p, .mcmd p, .rope p]

/-- Opens the budgets of the next tick: carried charges come first (R31, R32). -/
def State.openBudgets (s : State) : State :=
  let step := fun (acc : List (BClass × Bud) × List (BClass × Nat)) (c : BClass) =>
    let whole := s.budget c
    let owe := (tget s.sched.carry c).getD 0
    let take := min owe whole
    (acc.1 ++ [(c, ⟨whole - take, whole, decide (owe > 0), false⟩)], if owe - take = 0 then acc.2 else acc.2 ++ [(c, owe - take)])
  let (buds, carry) := allClasses.foldl step ([], [])
  { s with sched := { s.sched with buds := buds, carry := carry } }

/-- The budget of a class as it stands. -/
def Sched.bud (sc : Sched) (c : BClass) : Bud := (tget sc.buds c).getD ⟨0, 0, true, false⟩

/-- Does a charge fit: in what remains, or alone when it is larger than the whole budget (R31)? -/
def Sched.fits (sc : Sched) (c : BClass) (n : Nat) : Bool :=
  let b := sc.bud c
  n == 0 || decide (n ≤ b.left) || (decide (n > b.whole) && decide (b.whole > 0) && !b.touched)

/-- Makes one charge. A unit larger than the whole budget takes all of it; what goes beyond comes first in the following ticks (R31). -/
def Sched.charge (sc : Sched) (c : BClass) (n : Nat) : Sched :=
  let b := sc.bud c
  let owe := fun (k : Nat) => tset sc.carry c ((tget sc.carry c).getD 0 + k)
  if n = 0 then sc
  else if n ≤ b.left then { sc with buds := tset sc.buds c { b with left := b.left - n, touched := true } }
  else if n > b.whole ∧ !b.touched then { sc with buds := tset sc.buds c { b with left := 0, touched := true, full := true }, carry := owe (n - b.whole) }
  else { sc with buds := tset sc.buds c { b with left := 0, touched := true }, carry := owe (n - b.left) }

/-- A unit's charges with those on one budget added up. -/
def sumCharges (l : List (BClass × Nat)) : List (BClass × Nat) := l.foldl (fun m (c, n) => tset m c ((tget m c).getD 0 + n)) []

/-- Marks that a unit waits for these budgets, so that no larger one is admitted alone before it. -/
def Sched.waits (sc : Sched) (l : List (BClass × Nat)) : Sched :=
  (sumCharges l).foldl (fun sc (c, n) => if sc.fits c n then sc else { sc with buds := tset sc.buds c { sc.bud c with touched := true } }) sc

/-- Charges a unit of admission whole, or not at all. -/
def Sched.allot (sc : Sched) (l : List (BClass × Nat)) : Option Sched :=
  (sumCharges l).foldl (fun o (c, n) => o.bind fun sc => if sc.fits c n then some (sc.charge c n) else none) (some sc)

/-- Is a class shared by pace between foreground and background (R131)? -/
def BClass.paced (c : BClass) : Bool :=
  match c with
  | .cod | .fix | .mtx _ | .mrx _ | .mcmd _ => true
  | .host _ _ | .rope _ => false

/-- Admits a unit when its charges fit; else it is deferred, and a foreground unit that lacked a paced budget counts (R31, R132). DESIGN CHOICE: a
unit deferred for another reason is none that "needed" such a budget. -/
def State.allot (s : State) (fg : Bool) (l : List (BClass × Nat)) (go : State → State) : State :=
  match s.sched.allot l with
  | some sc => go { s with sched := sc }
  | none =>
    let needs := (sumCharges l).any fun e => e.1.paced && !s.sched.fits e.1 e.2
    { s with sched := s.sched.waits l
             seq := if fg && needs then { s.seq with fgDef := s.seq.fgDef + 1 } else s.seq }

/-- Charges without a test: reissues and control writes that are always admitted (R274); what does not fit comes first in the next ticks. -/
def State.chargeAlways (s : State) (l : List (BClass × Nat)) : State :=
  { s with sched := l.foldl (fun sc (c, n) => sc.charge c n) s.sched }

/-- Runs background admission within s/256 of each paced budget (R131). -/
def State.withShare (s : State) (f : State → State) : State :=
  let cap := fun (c : BClass) (b : Bud) => if c.paced then min b.left (b.whole * s.seq.share / 256) else b.left
  let capped := s.sched.buds.map fun (c, b) => (c, { b with left := cap c b })
  let t := f { s with sched := { s.sched with buds := capped } }
  let back := t.sched.buds.map fun (c, b) =>
    match tget s.sched.buds c with
    | some b0 => (c, if b.full then b else { b with left := b.left + (b0.left - cap c b0) })
    | none => (c, b)
  { t with sched := { t.sched with buds := back } }

end Sys2Proof.Machine
end

