-- ==== Sys2Proof/Machine/Pools.lean ====
section
/-!
DEFINITION. Pools as LAY, SEQ and FIX see them: lookups, erasures and conditions (R117 to R119), the lost-extent list (R129), metadata
changes (R105), footers and the checks of R43, and the admission of member commands (R269, R272).
-/
namespace Sys2Proof.Machine

/-! ### Lookups -/

/-- A pool this module owns, by id. -/
def State.pool (s : State) (id : BitVec 16) : Option Pool := s.pools.find? fun p => p.cur.id == id

/-- Changes a pool this module owns. -/
def State.updPool (s : State) (id : BitVec 16) (f : Pool → Pool) : State :=
  { s with pools := updIf s.pools (fun p => p.cur.id == id) f }

/-- A volume's record in the metadata in effect. -/
def Pool.vol (p : Pool) (v : BitVec 12) : Option VolMeta := p.cur.volumes.find? fun m => m.id == v

/-- A volume's run-time state. -/
def Pool.run (p : Pool) (v : BitVec 12) : Option VolRun := p.vols.find? fun r => r.id == v

/-- Changes a volume's run-time state. -/
def Pool.updRun (p : Pool) (v : BitVec 12) (f : VolRun → VolRun) : Pool := { p with vols := updIf p.vols (fun r => r.id == v) f }

/-- The owned pool that holds a volume. -/
def State.poolOf (s : State) (v : BitVec 12) : Option Pool := s.pools.find? fun p => (p.vol v).isSome

/-- A layout descriptor of a pool. -/
def Pool.layout (p : Pool) (lid : Nat) : Option LayoutDesc := p.cur.layouts.find? fun d => d.id == lid

/-- The state of a pool member as SEQ holds it (R119). -/
def Pool.memState (p : Pool) (i : Nat) : MemSt := ((p.nxt.members[i]?).map (·.state)).getD .failed

/-- Is a member in service: ACTIVE, STANDBY or COPYBACK? -/
def Pool.inService (p : Pool) (i : Nat) : Bool :=
  match p.memState i with
  | .active | .standby | .copyback => true
  | .missing | .returning | .failed => false

/-- The journal members in service. -/
def Pool.jmsUp (p : Pool) : List Nat := p.nxt.jms.filter p.inService

/-- The image member that serves as a pool member. -/
def State.img (s : State) (p : Pool) (i : Nat) : Option IMember :=
  (p.nxt.members[i]?).bind fun r => s.mbr.members.find? fun m => m.num == r.img

/-- Changes an image member. -/
def State.updImg (s : State) (num : Nat) (f : IMember → IMember) : State :=
  { s with mbr := { s.mbr with members := updIf s.mbr.members (fun m => m.num == num) f } }

/-- Declared domains of a pool member. -/
def State.domsOf (s : State) (p : Pool) (i : Nat) : Option Nat × Option Nat :=
  match s.img p i with
  | some m => (m.dom1, m.dom2)
  | none => (none, none)

/-- The members of a layout, by its member list. -/
def Pool.listOf (p : Pool) (d : LayoutDesc) : List Nat := (tget p.cur.lists d.memberList).getD []

/-- The geometry of a layout of a pool. -/
def State.geo (s : State) (p : Pool) (d : LayoutDesc) : Geo :=
  let mem := p.listOf d
  geoOf d mem (mem.map (s.domsOf p))

/-! ### Volumes, stripes and regions -/

/-- Blocks of a bitmap region (R109). -/
def Pool.regionBlocks (p : Pool) : Nat := 2 ^ (p.cur.regionExp + 8)

/-- The extent maps under a layout: each volume with its extents. A frond's stand in the frond's record until its volumes have come over, and those of the old
layout stay for what was mapped before the switch (R150). -/
def Pool.maps (p : Pool) (lid : Nat) : List (BitVec 12 × List Nat) :=
  let mine := (p.cur.volumes.filter fun v => v.layout == lid).map fun v => (v.id, v.extents)
  mine
    ++ (match p.cur.frond with
        | some f => if f.layout = lid ∧ (if f.dstPool = 0 then f.srcPool else f.dstPool) = p.cur.id then f.extents.filter fun e => !(mine.any fun m => m.1 == e.1) else []
        | none => [])
    ++ (if p.oldLayout = some lid then p.oldMaps.filter fun e => !(mine.any fun m => m.1 == e.1) else [])

/-- The volume and volume stripe that a layout stripe belongs to, none when it is allocated to no volume. -/
def Pool.stripeVol (p : Pool) (lid n : Nat) : Option (BitVec 12 × Nat) :=
  (p.maps lid).findSome? fun (v, ext) => (volumeStripe ext n).map fun sv => (v, sv)

/-- Where a volume block lies under a layout: layout stripe, data column, offset. -/
def Pool.mapVbn (p : Pool) (d : LayoutDesc) (v : BitVec 12) (vbn : Nat) : Option (Nat × Nat × Nat) :=
  let (sv, c, o) := mapBlock d vbn
  ((tget (p.maps d.id) v).bind fun ext => layoutStripe ext sv).map fun n => (n, c, o)

/-- The volume block at a data column and offset of a volume stripe. -/
def blockAt (d : LayoutDesc) (sv c o : Nat) : Nat := sv * layData d + c * layBs d + o

/-- The regions a layout stripe touches. -/
def Pool.stripeRegions (p : Pool) (d : LayoutDesc) (n : Nat) : List (BitVec 12 × Nat) :=
  match p.stripeVol d.id n with
  | none => []
  | some (v, sv) =>
    let first := sv * layData d / p.regionBlocks
    let last := (sv * layData d + layData d - 1) / p.regionBlocks
    (List.range (last - first + 1)).map fun i => (v, first + i)

/-- Does a strip of this stripe lie in a region that catch-up of a RETURNING member still has to cover? -/
def Pool.toCatchUp (p : Pool) (d : LayoutDesc) (n member : Nat) : Bool :=
  (p.stripeRegions d n).any fun (v, r) => p.catchup.contains (member, v, r)

/-- The layout in force for a volume. -/
def Pool.volLayout (p : Pool) (v : BitVec 12) : Option LayoutDesc := (p.vol v).bind fun m => p.layout m.layout

/-! ### Erasures and conditions -/

/-- Is strip x of a stripe erased (R117's opening, R130)? -/
def Pool.stripErased (p : Pool) (g : Geo) (n x : Nat) : Bool :=
  let a := findStrip g p.cur.remap n x
  p.nxt.unrest.contains (g.d.id, n, x) ||
  match p.memState a.member with
  | .missing | .failed => true
  | .returning => p.toCatchUp g.d n a.member
  | .active | .standby | .copyback => false

/-- The erased strips of a stripe. -/
def Pool.erased (p : Pool) (g : Geo) (n : Nat) : List Nat := (List.range (layWidth g.d)).filter (p.stripErased g n)

/-- Is any member out of full service, so that a strip can be erased? -/
def Pool.anyOut (p : Pool) : Bool :=
  !p.nxt.unrest.isEmpty || p.nxt.members.any fun m =>
    match m.state with
    | .missing | .failed | .returning => true
    | .active | .standby | .copyback => false

/-- E_max: the highest erasure count over every layout stripe of the pool (R117). -/
def State.emaxOf (s : State) (p : Pool) : Nat :=
  if p.anyOut then
    (p.cur.layouts.map fun d =>
      let g := s.geo p d
      ((List.range (layStripes d)).map fun n => (p.erased g n).length).foldl max 0).foldl max 0
  else 0

/-- The tolerance that a pool's condition is judged by: the lowest t of its layouts (R117). -/
def Pool.tol (p : Pool) : Nat := (p.cur.layouts.map layTol).foldl min 64

/-- The condition derived from E_max (R117). -/
def Pool.derive (p : Pool) (emax : Nat) : Cond :=
  if p.listFull || p.noJournal then .lost
  else if emax = 0 then .optimal
  else if emax < p.tol then .degraded
  else .critical

/-- Does a strip on a FAILED member, or a catch-up region, remain to be restored: the Rebuilding activity (R117)? -/
def State.rebuildingOf (s : State) (p : Pool) : Bool :=
  !p.catchup.isEmpty || !p.nxt.unrest.isEmpty || p.cur.layouts.any fun d =>
    let g := s.geo p d
    (p.nxt.members.any fun m => m.state == .failed) && (List.range (layStripes d)).any fun n =>
      (List.range (layWidth d)).any fun x => p.memState (findStrip g p.cur.remap n x).member == .failed

/-! ### Metadata changes (R105) -/

/-- Asks for a metadata change: it goes into the next copy. -/
def Pool.change (p : Pool) (f : PoolMeta → PoolMeta) : Pool := { p with nxt := f p.nxt }

/-- The commit number of the copy that will carry a change asked for now. -/
def Pool.nextCommit (p : Pool) : Nat :=
  match p.flight with
  | none => p.cur.commit + 1
  | some f => f.snap.commit + 1

/-- Is a change waiting for a copy? -/
def Pool.wantsCommit (p : Pool) : Bool := p.deleting.isSome || decide ({ p.nxt with commit := p.cur.commit } ≠ p.cur)

/-- The pool that holds a frond. -/
def frondHolder (f : FrondMeta) : BitVec 16 := if f.dstPool = 0 then f.srcPool else f.dstPool

/-- Does a layout of a pool belong to a frond that is not switched? -/
def Pool.isFrond (p : Pool) (lid : Nat) : Bool :=
  match p.cur.frond with
  | some f => f.layout == lid && f.phase != .switched && frondHolder f == p.cur.id
  | none => false

/-- Is a block below a frond cursor (R143)? -/
def belowCursor (cur : BitVec 12 × Nat) (v : BitVec 12) (b : Nat) : Bool :=
  decide (v < cur.1) || (v == cur.1 && decide (b < cur.2))

/-- Commits phase, cursor and marks of a frond to metadata (R152): the marks that stand, those of a sweep under way among them, and after the switch the
residue (R154). -/
def Pool.commitFrond (p : Pool) (ph : FrondPhase) : Pool :=
  p.change fun m => { m with frond := m.frond.map fun f =>
    { f with phase := ph, vol := p.frCur.1, vbn := p.frCur.2, marks := if f.phase = .switched then p.residue else (p.sweep ++ p.frMarks).eraseDups } }

/-- The same, the phase unchanged. -/
def Pool.commitCursor (p : Pool) : Pool :=
  match p.nxt.frond with
  | some f => p.commitFrond f.phase
  | none => p

/-- Sets a member's state (R119). -/
def Pool.setMem (p : Pool) (i : Nat) (st : MemSt) : Pool :=
  p.change fun m => { m with members := m.members.modify i fun r => { r with state := st } }

/-! ### The lost-extent list (R128, R129) -/

/-- Entries that the list holds (R128). -/
def lostMax : Nat := 65536

/-- Is a block lost? -/
def isLost (l : List LostExt) (v : BitVec 12) (b : Nat) : Bool :=
  l.any fun e => e.vol == v && decide (e.vbn ≤ b) && decide (b < e.vbn + e.count)

/-- Enters one block: merged with an entry that it overlaps or adjoins, or as a new one. The flag says whether an entry is new or
enlarged; none when the list is full. -/
def lostAdd (l : List LostExt) (v : BitVec 12) (b cause edge layout : Nat) : Option (List LostExt × Bool) :=
  if isLost l v b then some (l, false)
  else
    match l.findIdx? fun e => e.vol == v && (decide (e.vbn = b + 1) || decide (e.vbn + e.count = b)) && decide (e.count < 0xFFFFFFFF) with
    | some i => some (l.modify i fun e => { e with vbn := min e.vbn b, count := e.count + 1 }, true)
    | none => if l.length < lostMax then some (l ++ [⟨b, 1, v, cause, edge, layout⟩], true) else none

/-- Takes one block out; none when the split has no free entry. -/
def lostCut (l : List LostExt) (v : BitVec 12) (b : Nat) : Option (List LostExt) :=
  match l.findIdx? fun e => e.vol == v && decide (e.vbn ≤ b) && decide (b < e.vbn + e.count) with
  | none => some l
  | some i =>
    match l[i]? with
    | none => some l
    | some e =>
      let lo := { e with count := b - e.vbn }
      let hi := { e with vbn := b + 1, count := e.vbn + e.count - (b + 1) }
      let parts := [lo, hi].filter fun x => x.count ≠ 0
      if l.length - 1 + parts.length ≤ lostMax then some (l.take i ++ parts ++ l.drop (i + 1)) else none

/-- Takes a range out: of each entry what lies before it and after it stays. None where the entries that this makes have no room (R129). -/
def lostCutRange (l : List LostExt) (v : BitVec 12) (b n : Nat) : Option (List LostExt) :=
  let cut := fun (e : LostExt) =>
    if e.vol = v ∧ e.vbn < b + n ∧ b < e.vbn + e.count then
      [{ e with count := b - e.vbn }, { e with vbn := max e.vbn (b + n), count := e.vbn + e.count - max e.vbn (b + n) }].filter fun x => x.count ≠ 0
    else [e]
  let l' := l.flatMap cut
  if l'.length ≤ lostMax then some l' else none

/-- Enters a block into a pool's list; a full list makes the pool Lost at the next evaluation (R129). -/
def State.loseBlock (s : State) (pid : BitVec 16) (v : BitVec 12) (b cause layout : Nat) : State :=
  match s.pool pid with
  | none => s
  | some p =>
    match lostAdd p.nxt.lost v b cause s.edge layout with
    | none => s.updPool pid fun p => { p with listFull := true }
    | some (l, fresh) =>
      let s := s.updPool pid fun p => p.change fun m => { m with lost := l }
      s.iff fresh fun s => s.log .lostExtent 4 v.toNat pid b 1 cause

/-- Contiguous runs of a rising list, each at most n long. -/
def runsOf (n : Nat) : List Nat → List (List Nat)
  | [] => []
  | a :: l =>
    match runsOf n l with
    | (b :: r) :: rest => if b = a + 1 ∧ r.length + 2 ≤ n then (a :: b :: r) :: rest else [a] :: (b :: r) :: rest
    | other => [a] :: other

/-- Removes blocks that new host data covers from a pool's list (R129), in runs. -/
def State.trimLost (s : State) (pid : BitVec 16) (v : BitVec 12) (bs : List Nat) : State :=
  match s.pool pid with
  | none => s
  | some p =>
    let gone := runsOf 0x100000000 (sortedKeys (bs.filter (isLost p.nxt.lost v)))
    if gone.isEmpty then s
    else match gone.foldl (fun o r => o.bind fun l => lostCutRange l v (r.headD 0) r.length) (some p.nxt.lost) with
      | none => s.updPool pid fun p => { p with listFull := true }
      | some l => s.updPool pid fun p => p.change fun m => { m with lost := l }

/-! ### Footers and the checks of R43 -/

/-- What LAY expects of a block (R40, R42, R53, R54). -/
structure Expect where
  vol    : BitVec 12
  role   : Nat
  layout : Nat
  strip  : Nat
  vbn    : Nat
  lba    : Nat
  deriving DecidableEq, Repr

/-- Footer flags (R41). -/
def flagParity : Nat := 1
/-- FROND. -/
def flagFrond : Nat := 2
/-- RECON. -/
def flagRecon : Nat := 4
/-- ZERO. -/
def flagZero : Nat := 8

/-- Is a block ZERO-flagged? -/
def isZeroBlk (b : Block) : Bool := b.foot.flags.getLsbD 3

/-- Writes a block with its footer: guard, tag and CRC are computed (R39, R156). -/
def mkBlock (secret : BitVec 256) (e : Expect) (gen sgen flags : Nat) (d : BlockData) : Block :=
  let f0 : Footer :=
    { guard := guard64 d, role := BitVec.ofNat 4 e.role, vol := e.vol, refTag := BitVec.ofNat 48 e.lba
      tag := fixTag secret e.vol e.layout e.vbn gen (flags / 8 % 2 == 1) d, gen := BitVec.ofNat 56 gen, flags := BitVec.ofNat 8 flags
      vbn := w64 e.vbn, layout := BitVec.ofNat 16 e.layout, strip := BitVec.ofNat 16 e.strip, stripeGen := w64 sgen, crc := 0 }
  { data := d, foot := { f0 with crc := footCrc f0 } }

/-- The first four checks of R43, in their order: those that need no key. -/
def footOk (e : Expect) (b : Block) : Bool :=
  decide (b.foot.crc = footCrc b.foot)
    && decide (b.foot.guard = guard64 b.data)
    && decide (b.foot.refTag = BitVec.ofNat 48 e.lba)
    && (decide (b.foot.vol = e.vol) && decide (b.foot.role.toNat = e.role) && decide (b.foot.layout.toNat = e.layout)
        && decide (b.foot.strip.toNat = e.strip) && decide (b.foot.vbn = w64 e.vbn) && (!isZeroBlk b || decide (b.data = 0)))

/-- The five checks of R43, in their order. -/
def blockOk (secret : BitVec 256) (e : Expect) (b : Block) : Bool :=
  footOk e b && decide (b.foot.tag = fixTag secret e.vol e.layout e.vbn b.foot.gen.toNat (isZeroBlk b) b.data)

/-- FIX's check of a block held in the cache: footer CRC, guard and tag under the fields it carries (R167). -/
def cachedOk (secret : BitVec 256) (b : Block) : Bool :=
  decide (b.foot.crc = footCrc b.foot) && decide (b.foot.guard = guard64 b.data) && (!isZeroBlk b || decide (b.data = 0))
    && decide (b.foot.tag = fixTag secret b.foot.vol b.foot.layout.toNat b.foot.vbn.toNat b.foot.gen.toNat (isZeroBlk b) b.data)

/-- FIX's check of a block held in the cache for a volume block (R167): it is the block of that number, at a strip and with a role that LAY gives it, and
passes. The reference tag names the LBA of a read (R43), and no LBA is read here. -/
def Pool.heldOk (p : Pool) (v : BitVec 12) (vbn : Nat) (b : Block) : Bool :=
  decide (b.foot.vol = v) && decide (b.foot.vbn = w64 vbn) && (match p.layout b.foot.layout.toNat with
    | some d => decide (b.foot.role.toNat = stripRole d b.foot.strip.toNat) && (match p.mapVbn d v vbn with
      | some (_, col, _) => d.family = 1 || decide (b.foot.strip.toNat = col)
      | none => true)
    | none => true) && cachedOk p.secret b

/-- What LAY expects of the block at offset o of strip x of a layout stripe. -/
def Pool.expect (p : Pool) (g : Geo) (n x o : Nat) : Expect :=
  let (v, sv) := (p.stripeVol g.d.id n).getD (0, 0)
  let a := findStrip g p.cur.remap n x
  { vol := v, role := stripRole g.d x, layout := g.d.id, strip := x
    vbn := if isParity g.d x then 2 ^ 63 + sv * layBs g.d + o else blockAt g.d sv (if g.d.family = 1 then 0 else x) o
    lba := stripLba g.d a.row o }

/-- The same for a block at a given member slot row. -/
def Pool.expectAt (p : Pool) (g : Geo) (n x o row : Nat) : Expect := { p.expect g n x o with lba := stripLba g.d row o }

/-! ### Member commands -/

/-- Member ports on which an image member can be reached now. -/
def State.upPorts (s : State) (m : IMember) : List Nat := (m.paths.filter fun x => x.up && s.linkUp x.port).map (·.port)

/-- The port that carries a command: the member's working paths taken in turn. -/
def State.portFor (s : State) (m : IMember) (turn : Nat) : Option Nat :=
  let ps := s.upPorts m
  ps[turn % ps.length]?

/-- Can a pool member take member commands: its pool not yielded, the member not FAILED, not in low power and reachable (R277, R281, R283)? -/
def State.canSend (s : State) (p : Pool) (i : Nat) : Bool :=
  !p.yielded && p.memState i != .failed &&
  match s.img p i with
  | none => false
  | some m => m.admitted && !m.lowPower && m.spinning.isNone && !(s.upPorts m).isEmpty

/-- The charges of a member command on a port (R30): its bytes by direction, one place in the command budget, and a fixity block for each
block that a read brings. -/
def reqCharges (port : Nat) (r : MReq) : List (BClass × Nat) :=
  match r.op with
  | .read => [(.mrx port, 4160 * r.count), (.mcmd port, 1), (.fix, r.count)]
  | .write _ => [(.mtx port, 4160 * r.count), (.mcmd port, 1)]
  | .flush | .report | .acquire | .register | .unregister | .admin => [(.mcmd port, 1)]

/-- Sends a member command on a port; the identifier is the next one. -/
def State.send (s : State) (r : MReq) (img port : Nat) : State :=
  let c : MCmd := { id := s.mbr.nextId, img := img, pool := r.pool, idx := r.idx, port := port, op := r.op, lba := r.lba, count := r.count,
                    offs := r.offs, blks := r.blks, purpose := r.purpose, edge := s.edge, born := s.edge, tries := 0, fg := r.fg, inj := s.mgt.injNow }
  { s with mbr := { s.mbr with cmds := s.mbr.cmds ++ [c], nextId := s.mbr.nextId + 1 } }.emit (.memberCmd c)

/-- Plans a list of member commands: ports, image members and charges; none while one cannot be sent. -/
def State.planReqs (s : State) (rs : List MReq) : Option (List (MReq × Nat × Nat) × List (BClass × Nat)) :=
  rs.foldl (fun o r => o.bind fun (acc, ch) =>
    match s.pool r.pool with
    | none => none
    | some p =>
      if s.canSend p r.idx then
        match s.img p r.idx with
        | none => none
        | some m =>
          match s.portFor m (s.mbr.nextId + acc.length) with
          | none => none
          | some port => some (acc ++ [(r, m.num, port)], ch ++ reqCharges port r)
      else none) (some ([], []))

/-- Sends planned commands; answers their identifiers. -/
def State.sendAll (s : State) (l : List (MReq × Nat × Nat)) : State × List Nat :=
  l.foldl (fun (s, ids) (r, img, port) => (s.send r img port, ids ++ [s.mbr.nextId])) (s, [])

/-- Do planned commands find room on their queue pairs, each of which takes 128 (R269)? -/
def State.qpRoom (s : State) (l : List (MReq × Nat × Nat)) : Bool :=
  l.all fun e => decide ((s.mbr.cmds.filter fun c => c.img == e.2.1 && c.port == e.2.2).length + (l.filter fun x => x.2 == e.2).length ≤ 128)

/-- Admits commands as one unit, with further charges; on admission goes on with their identifiers. -/
def State.admitReqs (s : State) (fg : Bool) (rs : List MReq) (more : List (BClass × Nat)) (go : State → List Nat → State) : State :=
  match s.planReqs rs with
  | none => s
  | some (l, ch) => if s.qpRoom l then s.allot fg (ch ++ more) fun s => let (s, ids) := s.sendAll l; go s ids else s

/-- Admits control writes at once; those whose member cannot be reached are left out. -/
def State.sendNow (s : State) (rs : List MReq) : State × List Nat :=
  rs.foldl (fun (s, ids) r =>
    match s.planReqs [r] with
    | none => (s, ids)
    | some (l, ch) => let (s, i) := (s.chargeAlways ch).sendAll l; (s, ids ++ i)) (s, [])

/-- Blocks that one member command moves at most (R269). -/
def State.maxBlocks (s : State) (p : Pool) (i : Nat) : Nat :=
  match s.img p i with
  | some m => max 1 (min 256 (m.mdts / 4096))
  | none => 256

/-- The reads of some offsets of a strip, one command per contiguous run (R269). -/
def State.stripReads (s : State) (p : Pool) (g : Geo) (n x : Nat) (offs : List Nat) (purpose : MPurpose) (fg : Bool) : List MReq :=
  let a := findStrip g p.cur.remap n x
  (runsOf (s.maxBlocks p a.member) offs).map fun run =>
    { pool := p.cur.id, idx := a.member, op := .read, lba := stripLba g.d a.row (run.headD 0), offs := run, count := run.length, blks := []
      purpose := purpose, fg := fg }

end Sys2Proof.Machine
end

