-- ==== Sys2Proof/Machine/Zone.lean ====
section
/-!
DEFINITION. The metadata zone of members (R54, R104): its blocks with their footers (R39, R40, R157), where its structures lie, the numbers of the bits of
the dirty-region bitmap (R110), and writes to the journal members with what R108 waits for.
-/
namespace Sys2Proof.Machine

/-! ### Blocks of the zone -/

/-- What LAY expects of a block of a metadata zone (R39, R40, R157): role 0x8 under volume 0x000, layout 0x0000 and strip 0, its LBA as its block number. -/
def zoneExpect (lba : Nat) : Expect := ⟨0, 8, 0, 0, lba, lba⟩

/-- A block of a metadata zone as the module writes it, under the key of volume 0x000 (R158). Its generation is a free value. -/
def zoneBlk (secret : BitVec 256) (edge lba : Nat) (d : BlockData) : Block :=
  let g := (Config.zoneGen edge lba).toNat
  mkBlock secret (zoneExpect lba) g g 0 d

/-- The checks of R43 on a block of a metadata zone. -/
def zoneOk (secret : BitVec 256) (lba : Nat) (b : Block) : Bool := blockOk secret (zoneExpect lba) b

/-- Those that need no key. -/
def zoneFoot (lba : Nat) (b : Block) : Bool := footOk (zoneExpect lba) b

/-! ### The layout of the zone (R104) -/

/-- First block and length of the dirty-region bitmap. -/
def mapBase : Nat := 0x14000
/-- Its blocks (R110). -/
def mapLen : Nat := 16384
/-- Blocks of a metadata copy's area. -/
def metaArea : Nat := 32768
/-- First block of the cold journal. -/
def coldBase : Nat := 0x18000
/-- Blocks of the cold journal's circular log: 0x1_8000 to 0xF_FFFF. -/
def coldLen : Nat := 950272

/-- First block of the metadata copy that a commit number uses: copies A and B alternate (R104, R105). DESIGN CHOICE: odd commit numbers lie in copy A. -/
def copyLba (commit : Nat) : Nat := if commit % 2 = 1 then 0x4000 else 0xC000

/-- Blocks that a copy takes of its area: the free value, within 1 and the area. -/
def metaLen (m : PoolMeta) : Nat := max 1 (min metaArea (Config.metaSize m))

/-- The blocks of the copy that holds this metadata, by member LBA. -/
def metaBlks (secret : BitVec 256) (edge : Nat) (m : PoolMeta) : List (Nat × Block) :=
  (List.range (metaLen m)).map fun k => (copyLba m.commit + k, zoneBlk secret edge (copyLba m.commit + k) (Config.metaBlock m k))

/-- The blocks of a member's label: 0x0_0000 to 0x0_000F. -/
def labelBlks (secret : BitVec 256) (edge : Nat) (pid : BitVec 16) (i : Nat) : List Block :=
  (List.range 16).map fun k => zoneBlk secret edge k (Config.labelBlock pid i k)

/-- Place of a block in the order in which re-replication copies it (R107): the bitmap, metadata copies A and B, the cold journal. -/
def copyPos (lba : Nat) : Nat := if lba ≥ coldBase then lba - coldBase + 81920 else if lba ≥ mapBase then lba - mapBase else lba - 0x4000 + mapLen

/-- The block at a place of that order. -/
def posLba (pos : Nat) : Nat := if pos < mapLen then mapBase + pos else if pos < 81920 then 0x4000 + (pos - mapLen) else coldBase + (pos - 81920)

/-! ### The cold journal's circular log (R106) -/

/-- Blocks of an entry with n records and a seal of 32 bytes and with this many journal blocks of 4,160 bytes. DESIGN CHOICE: the fewest that hold them. -/
def coldSize (n blocks : Nat) : Nat := ceilDiv (32 * (n + 1) + 4160 * blocks) 4096

/-- Blocks of the log in use: from the oldest entry with unretired records to the place of the next one. -/
def Pool.coldUsed (p : Pool) : Nat :=
  match p.coldEnts with
  | [] => 0
  | e :: _ => if p.coldAt > e.first then p.coldAt - e.first else p.coldAt + coldLen - e.first

/-- The parts of the log in use, as first block and end. -/
def Pool.coldSegs (p : Pool) : List (Nat × Nat) :=
  p.coldEnts.flatMap fun e =>
    if e.first + e.n ≤ coldLen then [(e.first, e.first + e.n)] else [(e.first, coldLen), (0, e.first + e.n - coldLen)]

/-- Entries at the head of the log none of whose records is unretired give their blocks back. -/
def dropCold (live : List (BitVec 32)) : List ColdEnt → List ColdEnt
  | [] => []
  | e :: l => if e.recs.any live.contains then e :: l else dropCold live l

/-- The next blocks to copy from a place on, within one area: the place, and how many. None when the copy is complete. -/
def Pool.copyNext (p : Pool) (cold : Bool) (pos : Nat) : Option (Nat × Nat) :=
  if pos < mapLen then some (pos, mapLen - pos)
  else if pos < 49152 then some (pos, 49152 - pos)
  else if pos < 81920 then some (pos, 81920 - pos)
  else if !cold then none
  else
    let at_ := pos - 81920
    let segs := (p.coldSegs.filter fun g => decide (g.2 > at_)).map fun g => (max at_ g.1, g.2)
    segs.foldl (fun o g => match o with
      | some (a, n) => if g.1 + 81920 < a then some (g.1 + 81920, g.2 - g.1) else some (a, n)
      | none => some (g.1 + 81920, g.2 - g.1)) none

/-! ### Stripes of a scrub cycle (R137) -/

/-- The first stripe of the cycle that has been offered and not checked, else the next one to offer. -/
def Pool.scrubFrom (p : Pool) : Nat × Nat :=
  let zone := if p.zscan.isSome then [(65536, p.scrubPos.2 - 1)] else []
  (p.scrubRedo ++ zone).foldl (fun a e => if e.1 < a.1 ∨ e.1 = a.1 ∧ e.2 < a.2 then e else a) p.scrubPos

/-- The cycle's counts are committed with the place of the next stripe to check. -/
def Pool.scrubCommit (p : Pool) : Pool :=
  match p.scrubRun with
  | some sc => p.change fun m => { m with scrub := some { sc with pos := p.scrubFrom } }
  | none => p

/-- One more stripe, or metadata zone, of the cycle has been checked: at every 65,536th the cycle is committed. -/
def Pool.scrubChecked (p : Pool) : Pool :=
  let p : Pool := { p with scrubRun := p.scrubRun.map fun sc => { sc with cursor := sc.cursor + 1 } }
  if ((p.scrubRun.map (·.cursor)).getD 1) % 65536 = 0 then p.scrubCommit else p

/-! ### Bits of the bitmap (R110) -/

/-- The volumes whose regions have bits, in ascending id, with their sizes in blocks. DESIGN CHOICE: a pool that holds the frond of another pool's volumes
gives their regions bits as well, over the extents that the frond has for them. -/
def Pool.bitVols (p : Pool) : List (BitVec 12 × Nat) :=
  let own := p.cur.volumes.map fun m => (m.id, m.size)
  let held := match p.cur.frond with
    | some f => if f.srcPool = p.cur.id then [] else f.extents.map fun (e : BitVec 12 × List Nat) =>
        (e.1, 256 * e.2.length * ((p.cur.layouts.find? fun (d : LayoutDesc) => d.id == f.layout).map layData).getD 0)
    | none => []
  sortBy (own ++ held.filter fun e => !(own.any fun o => o.1 == e.1)) fun a b => decide (a.1.toNat ≤ b.1.toNat)

/-- Regions of so many blocks: one bit each. -/
def Pool.regionsIn (p : Pool) (blocks : Nat) : Nat := ceilDiv blocks p.regionBlocks

/-- Every region of a pool with the number of its bit. -/
def Pool.allRegions (p : Pool) : List ((BitVec 12 × Nat) × Nat) :=
  (p.bitVols.foldl (fun (acc : List ((BitVec 12 × Nat) × Nat) × Nat) e =>
    (acc.1 ++ (List.range (p.regionsIn e.2)).map fun r => ((e.1, r), acc.2 + r), acc.2 + p.regionsIn e.2)) ([], 0)).1

/-- Bits that a pool's volumes take. -/
def Pool.bitCount (p : Pool) : Nat := (p.bitVols.map fun e => p.regionsIn e.2).foldl (· + ·) 0

/-- The number of a region's bit: those of the volumes before its own, then its place in it. -/
def Pool.bitNo (p : Pool) (v : BitVec 12) (r : Nat) : Nat :=
  ((p.bitVols.filter fun e => decide (e.1.toNat < v.toNat)).map fun e => p.regionsIn e.2).foldl (· + ·) 0 + r

/-- Is the bit of a region on: set, or being set? -/
def BmSt.on (st : BmSt) : Bool :=
  match st with
  | .setting _ | .isSet => true
  | .clearing _ => false

/-- Block k of the bitmap. DESIGN CHOICE: bit n lies at bit n mod 32,768 of block n / 32,768, counted from bit 0 of byte 0. -/
def Pool.mapData (p : Pool) (k : Nat) : BlockData :=
  p.bitmap.foldl (fun d b => let n := p.bitNo b.vol b.region
    if b.st.on && n / 32768 == k then d ||| ((1 : BlockData) <<< (n % 32768)) else d) 0

/-- The dirty regions that copies of the bitmap show (R111): the bitwise OR of the blocks that pass R43; every region of a block that passes on none. -/
def Pool.mapDirty (p : Pool) (copies : List (List (Nat × Block))) : List (BitVec 12 × Nat) :=
  (p.allRegions.filter fun e =>
    let k := e.2 / 32768
    let good := copies.filterMap fun c => (tget c k).bind fun b => if zoneOk p.secret (mapBase + k) b then some b.data else none
    good.isEmpty || good.any fun d => d.getLsbD (e.2 % 32768)).map (·.1)

/-! ### Writes to the journal members (R107, R108) -/

/-- Nobody is waited for. -/
def JWait.empty : JWait := ⟨[], [], []⟩

/-- A command has ended, with or without an acknowledgement of its member. -/
def JWait.done (w : JWait) (id : Nat) (ok : Bool) : JWait :=
  match w.waits.find? fun e => e.1 == id with
  | none => w
  | some e => { w with waits := w.waits.filter (fun x => x.1 ≠ id), bad := if ok then w.bad else w.bad ++ [e.2] }

/-- Commands that come to nothing. -/
def JWait.lose (w : JWait) (ids : List Nat) : JWait := ids.foldl (fun w id => w.done id false) w

/-- A command has a new identifier (R274). -/
def JWait.rename (w : JWait) (old new : Nat) : JWait := { w with waits := w.waits.map fun e => (if e.1 = old then new else e.1, e.2) }

/-- The members that have acknowledged everything sent to them. -/
def JWait.acked (w : JWait) : List Nat := w.targets.filter fun i => !w.bad.contains i && !(w.waits.any fun e => e.2 == i)

/-- Changes a bit's wait. -/
def BmBit.mapWait (f : JWait → JWait) (b : BmBit) : BmBit :=
  match b.st with
  | .setting w => { b with st := .setting (f w) }
  | .clearing w => { b with st := .clearing (f w) }
  | .isSet => b

/-- Changes every wait of a pool's journal structures. -/
def Pool.mapWaits (f : JWait → JWait) (p : Pool) : Pool :=
  { p with flight := p.flight.map fun x => { x with wait := f x.wait }, bitmap := p.bitmap.map (BmBit.mapWait f) }

/-- R108: every journal member in service that a write went to has acknowledged it, and at least two have. -/
def Pool.jmOk (p : Pool) (w : JWait) : Bool :=
  w.waits.isEmpty && decide (w.acked.length ≥ 2) && p.jmsUp.all fun i => !w.targets.contains i || w.acked.contains i

/-- The journal members in service that hold current metadata and bitmap: a replacement when its copy has passed both (R107). -/
def Pool.jmsCurrent (p : Pool) : List Nat :=
  p.jmsUp.filter fun i => match p.rerep with
    | some r => r.dst ≠ i || decide (r.cursor ≥ 81920)
    | none => true

/-- Do fewer than two journal members hold current structures (R108)? -/
def Pool.oneCopy (p : Pool) : Bool := decide (p.jmsCurrent.length < 2)

/-- Can journal structures be written now: two current copies, and every journal member in service takes commands (R108)? -/
def State.jmReady (s : State) (p : Pool) : Bool := !p.oneCopy && !p.yielded && p.jmsUp.all (s.canSend p)

/-- The blocks of a write that a journal member takes: the replacement, those that the copy cursor has passed (R107). -/
def Pool.jmShare (p : Pool) (i : Nat) (blks : List (Nat × Block)) : List (Nat × Block) :=
  match p.rerep with
  | some r => if r.dst = i then blks.filter fun e => decide (copyPos e.1 < r.cursor) else blks
  | none => blks

/-- The writes of blocks of a zone to a member: one command per contiguous run (R269). -/
def State.zoneWrites (s : State) (p : Pool) (i : Nat) (blks : List (Nat × Block)) (purpose : MPurpose) : List MReq :=
  (runsOf (s.maxBlocks p i) (blks.map (·.1))).map fun run =>
    let bs := run.filterMap (tget blks)
    { pool := p.cur.id, idx := i, op := .write true, lba := run.headD 0, offs := [], count := bs.length, blks := bs, purpose := purpose, fg := true }

/-- Is a block among those that a copy step moves now? The step is then made again. -/
def Rerep.touch (r : Rerep) (blks : List (Nat × Block)) : Rerep :=
  if blks.any fun e => decide (r.cursor ≤ copyPos e.1) && decide (copyPos e.1 < r.cursor + r.n) then { r with stale := true } else r

/-- Writes blocks to every journal member in service (R108). -/
def State.jmSend (s : State) (p : Pool) (blks : List (Nat × Block)) (purpose : MPurpose) : State × JWait :=
  let s := s.updPool p.cur.id fun p => { p with rerep := p.rerep.map (·.touch blks), zscan := p.zscan.map (·.touch blks) }
  p.jmsUp.foldl (fun (acc : State × JWait) i =>
    let (s, w) := acc
    let mine := p.jmShare i blks
    if mine.isEmpty then (s, w)
    else
      let rs := s.zoneWrites p i mine purpose
      let (s, ids) : State × List Nat := s.sendNow rs
      (s, { targets := w.targets ++ [i], waits := w.waits ++ ids.map (fun k => (k, i)), bad := if ids.length < rs.length then w.bad ++ [i] else w.bad }))
    (s, JWait.empty)

end Sys2Proof.Machine
end

