-- ==== Sys2Proof/Machine/Cache.lean ====
section
/-!
DEFINITION. CCH: dirty slots (R69 to R73), gather entries (R75, R76, R436), the read order (R82) and the clean read cache (R83).
-/
namespace Sys2Proof.Machine

/-! ### Dirty slots -/

/-- The lowest n free slot numbers from `i` on, at most `fuel` looked at. -/
def freeFrom (used : List Nat) : Nat → Nat → Nat → List Nat
  | _, _, 0 => []
  | i, n, fuel + 1 =>
    if n = 0 then []
    else if used.contains i then freeFrom used (i + 1) n fuel
    else i :: freeFrom used (i + 1) (n - 1) fuel

/-- Free slots for n blocks, lowest first; none when fewer are free (R70). -/
def Cch.free (c : Cch) (n : Nat) : Option (List Nat) :=
  if (c.slots.filter fun e => decide (e.1 < c.dirtySlots)).length + n ≤ c.dirtySlots then
    let l := freeFrom (c.slots.map (·.1)) 0 n c.dirtySlots
    if l.length = n then some l else none
  else none

/-- A slot. -/
def Cch.slot (c : Cch) (i : Nat) : Option Slot := tget c.slots i

/-- Changes a slot. -/
def Cch.updSlot (c : Cch) (i : Nat) (f : Slot → Slot) : Cch := { c with slots := tupd c.slots i f }

/-- Changes a slot of the module. -/
def State.updSlot (s : State) (i : Nat) (f : Slot → Slot) : State := { s with cch := s.cch.updSlot i f }

/-- Occupancy in percent exceeds / falls below a mark (R72): slots in use against slots of the area. -/
def Cch.above (c : Cch) (pct : Nat) : Bool := decide (c.slots.length * 100 > pct * c.dirtySlots)

/-- Occupancy below a mark. -/
def Cch.below (c : Cch) (pct : Nat) : Bool := decide (c.slots.length * 100 < pct * c.dirtySlots)

/-- The newest version of a block in the dirty area: landed, not superseded, not freed (R82). -/
def Cch.newest (c : Cch) (pool : BitVec 16) (vol : BitVec 12) (vbn : Nat) : Option (Nat × Slot) :=
  (c.slots.filter fun (_, sl) => sl.pool == pool && sl.vol == vol && sl.vbn == vbn && sl.blk.isSome && sl.st == .dirty).foldl
    (fun best e => match best with
      | none => some e
      | some b => if b.2.gen < e.2.gen then some e else some b) none

/-- The newest version of a block that is destageable (R145). -/
def Cch.newestSafe (c : Cch) (pool : BitVec 16) (vol : BitVec 12) (vbn : Nat) : Option Block :=
  ((c.slots.filter fun (_, sl) => sl.pool == pool && sl.vol == vol && sl.vbn == vbn && sl.destageable && !sl.unreadable
      && (sl.st == .dirty || sl.st == .superseded)).foldl
    (fun best e => match best with
      | none => some e
      | some b => if b.2.gen < e.2.gen then some e else some b) none).bind fun e => e.2.blk

/-- Is a newer version of a slot's block destageable, or gone from the dirty area (R71)? -/
def Cch.newerSafe (c : Cch) (sl : Slot) : Bool :=
  let newer := c.slots.filter fun (_, x) => x.pool == sl.pool && x.vol == sl.vol && x.vbn == sl.vbn && decide (x.gen > sl.gen)
  newer.isEmpty || newer.any fun (_, x) => x.destageable || x.st == .freed

/-- Settles a slot in the live records when it is freed (R90). -/
def Jnl.settle (j : Jnl) (i : Nat) (onMembers : Bool) : Jnl :=
  { j with live := updIf j.live (fun r => r.slots.contains i) fun r => { r with slots := r.slots.erase i, anyOn := r.anyOn || onMembers } }

/-- May a freed slot return at once (R95): in SOLO, a slot of the receive area, or one whose retire record's seal has been confirmed? -/
def State.returnsNow (s : State) (sl : Slot) : Bool :=
  s.jnl.belay == .solo || sl.mirror || match sl.freeTick with
    | some k => decide (k < s.edge) && !(s.jnl.seals.any fun x => x.tick == k)
    | none => false

/-- Frees a slot: at once where it may return, else when the seal of the retire record that frees it is confirmed (R95). -/
def State.freeSlot (s : State) (i : Nat) (onMembers : Bool) : State :=
  match s.cch.slot i with
  | none => s
  | some sl =>
    if sl.st = .freed then s
    else
      let c := if s.returnsNow sl then { s.cch with slots := tdel s.cch.slots i }
               else s.cch.updSlot i fun sl => { sl with st := .freed }
      let n := (tget c.retired sl.vol).getD 0
      { s with cch := { c with retired := tset c.retired sl.vol (n + 1) }, jnl := s.jnl.settle i onMembers }

/-- Frees the superseded slots that nothing holds any longer and whose newer version is destageable (R71). -/
def State.freeSuperseded (s : State) : State :=
  s.each (s.cch.slots.filter fun (_, sl) => sl.st == .superseded && sl.holds == 0 && s.cch.newerSafe sl) fun s (i, _) => s.freeSlot i false

/-- A write invalidates the clean copy of each of its blocks (R83). -/
def Cch.cleanDropRange (c : Cch) (v : BitVec 12) (first n : Nat) : Cch :=
  { c with clean := c.clean.filter fun e => !(e.vol == v && decide (first ≤ e.vbn) && decide (e.vbn < first + n)) }

/-- Gives back slots of a slice that never became records (R166, R243). -/
def State.dropSlots (s : State) (l : List Nat) : State :=
  { s with cch := { s.cch with slots := s.cch.slots.filter fun e => !l.contains e.1 } }

/-! ### Gather entries -/

/-- Entries that the gather table holds (R75). -/
def gatherMax : Nat := 262144

/-- Is this the entry of a stripe? -/
def GEntry.isOf (e : GEntry) (pool : BitVec 16) (layout stripe : Nat) : Bool := e.pool == pool && e.layout == layout && e.stripe == stripe

/-- The entry of a stripe, in the table or in the list of stripes awaiting entries. -/
def Cch.entry (c : Cch) (pool : BitVec 16) (layout stripe : Nat) : Option GEntry :=
  (c.gather ++ c.waitq).find? fun e => e.isOf pool layout stripe

/-- Changes the entry of a stripe. -/
def Cch.updEntry (c : Cch) (pool : BitVec 16) (layout stripe : Nat) (f : GEntry → GEntry) : Cch :=
  { c with gather := updIf c.gather (fun e => e.isOf pool layout stripe) f, waitq := updIf c.waitq (fun e => e.isOf pool layout stripe) f }

/-- Puts a block of a slot into a bitmap, in place of an older version. -/
def mapPut (l : List (Nat × Nat)) (vbn slot : Nat) : List (Nat × Nat) := tset l vbn slot

/-- Records a landed block in a gather entry of its stripe, opening one at this edge (R75, R76). When the table is full, or other stripes wait for its places, the
stripe waits, and the OPEN entry of lowest e0 becomes due. DESIGN CHOICE: of several OPEN entries with the same lowest e0 it is the first in the table's order,
and a stripe that waits for no other reason than the stripes before it makes no further entry due. -/
def State.gather (s : State) (pool : BitVec 16) (vol : BitVec 12) (layout stripe vstripe vbn slot : Nat) : State :=
  let c := s.cch
  let s := s.updSlot slot fun sl => { sl with entries := sl.entries + 1 }
  match c.entry pool layout stripe with
  | some e =>
    let put := fun (e : GEntry) =>
      if e.st = .destaging then { e with second := mapPut e.second vbn slot, e0b := if e.second.isEmpty then s.edge else e.e0b }
      else { e with first := mapPut e.first vbn slot, heldR122 := false }
    let old := if e.st = .destaging then tget e.second vbn else tget e.first vbn
    let s := { s with cch := s.cch.updEntry pool layout stripe put }
    match old with
    | some o => s.updSlot o fun sl => { sl with entries := sl.entries - 1 }
    | none => s
  | none =>
    let e : GEntry := { pool := pool, vol := vol, layout := layout, stripe := stripe, vstripe := vstripe, first := [(vbn, slot)], second := []
                        snap := [], e0 := s.edge, e0b := 0, st := .open_, offered := 0, fua := false, curFua := false, heldR122 := false
                        again := false, skip := [], badAt := [], flushFor := [] }
    if c.gather.length < gatherMax then
      (if c.waitq.isEmpty then { s with cch := { s.cch with gather := s.cch.gather ++ [e] } } else { s with cch := { s.cch with waitq := s.cch.waitq ++ [e] } })
    else
      let lows := (c.gather.filter fun x => x.st == .open_).map (·.e0)
      let low := lows.foldl min (lows.headD 0)
      let s := match c.gather.findIdx? fun x => x.st == .open_ && x.e0 == low with
        | some i => { s with cch := { s.cch with gather := s.cch.gather.modify i fun x => { x with st := .due, offered := c.dueSeq }
                                                 dueSeq := c.dueSeq + 1 } }.bump .cchForcedCntN
        | none => s
      { s with cch := { s.cch with waitq := s.cch.waitq ++ [e] } }

/-- Marks an entry due, last in the order of offering. One that waits for its place becomes due with it. -/
def Cch.makeDue (c : Cch) (pool : BitVec 16) (layout stripe : Nat) (fua : Bool) : Cch :=
  match (c.gather.find? fun e => e.isOf pool layout stripe) with
  | none => { c with waitq := updIf c.waitq (fun e => e.isOf pool layout stripe) fun e => { e with again := true, fua := e.fua || fua } }
  | some e =>
    match e.st with
    | .open_ => { c.updEntry pool layout stripe (fun e => { e with st := .due, offered := c.dueSeq, fua := e.fua || fua }) with
                  dueSeq := c.dueSeq + 1 }
    | .due => c.updEntry pool layout stripe fun e => { e with fua := e.fua || fua }
    | .destaging => c.updEntry pool layout stripe fun e => { e with again := true, fua := e.fua || fua }

/-- Opens entries for waiting stripes in the places that are free, in landing order (R75). -/
def State.openWaiting (s : State) : State :=
  let n := gatherMax - s.cch.gather.length
  let es := s.cch.waitq.take n
  let c : Cch := { s.cch with gather := s.cch.gather ++ es.map fun e => { e with again := false }, waitq := s.cch.waitq.drop n }
  { s with cch := (es.filter (·.again)).foldl (fun c e => c.makeDue e.pool e.layout e.stripe e.fua) c }

/-- Entries of a pool that R122 holds may be tried again. -/
def State.unhold122 (s : State) (pool : BitVec 16) : State :=
  { s with cch := { s.cch with gather := updIf s.cch.gather (fun e => e.pool == pool && e.heldR122) fun e => { e with heldR122 := false } } }

/-- Is a block of an entry's bitmap destageable: its slot secured and readable (R74, R169)? -/
def Cch.canDestage (c : Cch) (slot : Nat) : Bool :=
  match c.slot slot with
  | some sl => sl.destageable && sl.st == .dirty && !sl.unreadable
  | none => false

/-- Takes a superseded version out of the bitmaps that still wait with it (R71). -/
def Cch.forget (c : Cch) (slot : Nat) : Cch :=
  let cut := fun (e : GEntry) => { e with first := e.first.filter (·.2 ≠ slot), second := e.second.filter (·.2 ≠ slot) }
  { c with gather := c.gather.map cut, waitq := c.waitq.map cut }

/-- Drops entries whose bitmaps are empty and that no destage uses: they are IDLE. -/
def Cch.dropIdle (c : Cch) : Cch :=
  let live := fun (e : GEntry) => e.st == .destaging || !e.first.isEmpty || !e.second.isEmpty
  { c with gather := c.gather.filter live, waitq := c.waitq.filter live }

/-- A newer version's record supersedes the older slots of the same block (R71). -/
def State.supersede (s : State) (pool : BitVec 16) (vol : BitVec 12) (vbn slot : Nat) : State :=
  let old := s.cch.slots.filter fun (i, sl) => i ≠ slot && sl.pool == pool && sl.vol == vol && sl.vbn == vbn && sl.st == .dirty
  s.each old fun s (i, _) =>
    { s with cch := (s.cch.updSlot i fun sl => { sl with st := .superseded, entries := 0 }).forget i }

/-! ### The clean read cache (R83) -/

/-- Looks a block up; a hit sets the reference bit. -/
def Cch.cleanGet (c : Cch) (pool : BitVec 16) (vol : BitVec 12) (vbn : Nat) : Option Block × Cch :=
  match c.clean.find? fun e => e.pool == pool && e.vol == vol && e.vbn == vbn with
  | none => (none, c)
  | some e => (some e.blk, { c with clean := updIf c.clean (fun x => x == e) fun x => { x with ref := true } })

/-- Invalidates the clean copy of a block. -/
def Cch.cleanDrop (c : Cch) (pool : BitVec 16) (vol : BitVec 12) (vbn : Nat) : Cch :=
  { c with clean := c.clean.filter fun e => !(e.pool == pool && e.vol == vol && e.vbn == vbn) }

/-- CLOCK: passes the hand over slots with the reference bit set, clearing it, and takes the first without. -/
def clockEvict : Nat → List CleanSlot → List CleanSlot
  | 0, l => l.drop 1
  | _, [] => []
  | fuel + 1, e :: l => if e.ref then clockEvict fuel (l ++ [{ e with ref := false }]) else l

/-- Fills the cache with a block (R83). -/
def Cch.cleanFill (c : Cch) (pool : BitVec 16) (vol : BitVec 12) (vbn : Nat) (b : Block) (ref : Bool) : Cch :=
  if c.cleanSlots = 0 then c
  else
    let c := c.cleanDrop pool vol vbn
    let l := if c.clean.length < c.cleanSlots then c.clean else clockEvict (c.clean.length + 1) c.clean
    { c with clean := l ++ [⟨pool, vol, vbn, b, ref⟩] }

/-- Frees hold slots. -/
def State.unhold (s : State) (n : Nat) : State := { s with cch := { s.cch with holdUsed := s.cch.holdUsed - n } }

/-! ### Watermarks (R72, R73) -/

/-- Volumes that hold slots. -/
def Cch.volsIn (c : Cch) : List (BitVec 12) := (c.slots.map (·.2.vol)).eraseDups

/-- Slots of a volume. -/
def Cch.slotsOf (c : Cch) (v : BitVec 12) : Nat := (c.slots.filter fun e => e.2.vol == v).length

/-- The throttle of step 5 (R73): its state by the watermarks in force, and the volumes above the fair share. -/
def State.throttle (s : State) : State :=
  let c := s.cch
  let was := c.throttled
  let on := if was then !c.below (s.reg .cchWmLwm) else c.above (s.reg .cchWmHwm)
  let vols := c.volsIn
  let heavy := if on then vols.filter fun v => decide (c.slotsOf v * vols.length > c.slots.length) else []
  let s := { s with cch := { c with throttled := on, throtVols := heavy } }
  let s := s.iff (on && !was) fun s => s.log .dirtyThrottleOn
  s.iff (was && !on) fun s => s.log .dirtyThrottleOff

/-- May a volume have n more slots in this tick (R73)? -/
def Cch.allows (c : Cch) (v : BitVec 12) (n : Nat) : Bool := !c.throtVols.contains v || decide (n ≤ (tget c.retired v).getD 0)

/-- Uses up the allowance of a throttled volume. -/
def Cch.useAllow (c : Cch) (v : BitVec 12) (n : Nat) : Cch :=
  if c.throtVols.contains v then { c with retired := tupd c.retired v (· - n) } else c

end Sys2Proof.Machine
end

