-- ==== Sys2Proof/Machine/Journal.lean ====
section
/-!
DEFINITION. JNL: intent and retire records, seals, securing under the belay state and the solo policies (R88 to R103), the cold journal
(R106), relocation (R93), and the belay relation (R98).
-/
namespace Sys2Proof.Machine

/-- Slots of the journal ring (R89). -/
def ringSize : Nat := 1048576

/-- The journal's tail: the oldest unretired record number, or the next one. -/
def Jnl.tail (j : Jnl) : BitVec 32 :=
  match j.live with
  | [] => j.next
  | r :: _ => r.no

/-- Records from the tail to the next record number (R92). -/
def Jnl.used (j : Jnl) : Nat := (j.next - j.tail).toNat

/-- Is there room in the ring for n intent records more and the seals of the ticks whose records are reserved (R92)? -/
def Jnl.room (j : Jnl) (n ticks : Nat) : Bool := decide (j.used + j.reserved + n + ticks ≤ ringSize)

/-- Ticks whose records are reserved, with the tick of a slice admitted now (R92). DESIGN CHOICE: the slices admitted at one edge count as one tick. -/
def State.reservedTicks (s : State) : Nat :=
  (s.edge :: s.ord.cmds.flatMap fun c => (c.slices.filter fun sl => sl.st == .moving || sl.st == .landed).map (·.edge)).eraseDups.length

/-- Is the relation JOINING or BELAYED, so that records and blocks stream to the partner (R94)? -/
def Jnl.streams (j : Jnl) : Bool := j.belay != .solo

/-- Queues a belay frame behind those that wait. -/
def State.belaySend (s : State) (f : TxFrame) : State := { s with rop := { s.rop with txq := s.rop.txq ++ [f] } }

/-- Appends a record in the tick that this edge opened: it takes the next record number and its ring slot (R89). -/
def Jnl.push (j : Jnl) (r : JRec) : Jnl :=
  { j with next := j.next + 1, ring := tset j.ring (j.next.toNat % ringSize) r, tickRecs := j.tickRecs ++ [(j.next, r)] }

/-- Appends a record and streams it (R94). -/
def State.jpush (s : State) (r : JRec) : State :=
  let s' := { s with jnl := s.jnl.push r }
  s'.iff s.jnl.streams fun s' => s'.belaySend (.belayRecords [(s.jnl.next, r)])

/-- The runs of a slice (R88, R89): consecutive blocks in consecutive slots within one strip of one layout stripe, at most 256 each. Each run is
its first block, its first slot and its length. -/
def sliceRuns (bs : Nat) : List (Nat × Nat) → List (Nat × Nat × Nat)
  | [] => []
  | (v, sl) :: l =>
    match sliceRuns bs l with
    | (v', sl', n) :: rest =>
      if v' = v + 1 ∧ sl' = sl + 1 ∧ v' / bs = v / bs ∧ n < 256 then (v, sl, n + 1) :: rest else (v, sl, 1) :: (v', sl', n) :: rest
    | [] => [(v, sl, 1)]

/-- Appends the intent record of a run and enters it among the unretired ones. -/
def State.appendIntent (s : State) (flags : Nat) (vol : BitVec 12) (gen acc : Nat) (run : Nat × Nat × Nat) : State :=
  let (v, sl, n) := run
  let r : Intent := { flags := BitVec.ofNat 8 flags, vol := vol, slot := w32 sl, vbn := w64 v, gen := BitVec.ofNat 56 gen, count := n, acc := w32 acc }
  let slots := (List.range n).map (sl + ·)
  let no := s.jnl.next
  let s := s.jpush (.intent r)
  { s with jnl := { s.jnl with live := s.jnl.live ++ [⟨no, r, slots, slots, false, s.edge⟩], tickSlots := s.jnl.tickSlots ++ slots } }

/-- Appends retire records for the record numbers that wait, six to a record (R90), and gives the freed slots their tick (R95). -/
def State.appendRetires (s : State) : Nat → State
  | 0 => s
  | fuel + 1 =>
    match s.jnl.retireQ with
    | [] => s
    | nums =>
      let s := s.jpush (.retire (nums.take 6))
      State.appendRetires { s with jnl := { s.jnl with retireQ := nums.drop 6 } } fuel

/-- The records that retire now (R90): every block on members or superseded, and, when all were superseded, the last slot freed. -/
def State.retirable (s : State) : List LiveRec :=
  s.jnl.live.filter fun r =>
    r.slots.all (fun i => match s.cch.slot i with
      | some sl => sl.st == .superseded || sl.st == .freed
      | none => true) && (r.anyOn || r.slots.isEmpty)

/-- Retires records: their numbers wait for retire records of the coming tick, whose seal their slots wait for once they are freed (R95). -/
def State.retirePass (s : State) : State :=
  let rs := s.retirable
  let nos := rs.map (·.no)
  let mine := fun (i : Nat) (sl : Slot) => rs.any fun r => r.all.contains i && r.intent.vol == sl.vol && r.intent.gen.toNat == sl.gen
  let mark := fun (e : Nat × Slot) => if mine e.1 e.2 then (e.1, { e.2 with freeTick := some s.edge }) else e
  { s with jnl := { s.jnl with live := s.jnl.live.filter (fun r => !nos.contains r.no), retireQ := s.jnl.retireQ ++ nos }
           cch := { s.cch with slots := s.cch.slots.map mark } }

/-- Relocates the tail record when 786,432 records lie between it and the next number (R93): it is appended again with the relocated flag, and the
original retires in the same tick. -/
def State.relocate (s : State) : State :=
  match s.jnl.live with
  | [] => s
  | r :: rest =>
    if s.jnl.used ≥ 786432 then
      let no := s.jnl.next
      let ri := { r.intent with flags := r.intent.flags ||| 16 }
      let s := s.jpush (.intent ri)
      let s := { s with jnl := { s.jnl with live := rest ++ [{ r with no := no, intent := ri, tick := s.edge }], retireQ := s.jnl.retireQ ++ [r.no] } }
      (s.appendRetires (s.jnl.retireQ.length + 1)).bump .jnlRelocCntN
    else s

/-! ### Seals (R91, R96) -/

/-- The seal record over some records and their blocks (R91). -/
def sealOf (first : BitVec 32) (rs : List (BitVec 32 × JRec)) (tick blocks : Nat) : SealRec :=
  sealClosed { first := first, count := w32 rs.length, tick := w64 tick, crc := recsCrc (rs.map (·.2)), blocks := w32 blocks, own := 0 }

/-- Step 2: cuts the seal for the closing tick if it appended records (R91). Streaming, the seal waits for its confirmation; not belayed, its
records are secured under the solo policies at this edge (R99). -/
def State.sealCut (s : State) : State :=
  match s.jnl.tickRecs with
  | [] => s
  | (first, r0) :: more =>
    let j := s.jnl
    let rs := (first, r0) :: more
    let tick := s.edge - 1
    let r := sealOf first rs tick j.tickSlots.length
    let nums := rs.map (·.1)
    let j' := { j with next := j.next + 1, ring := tset j.ring (j.next.toNat % ringSize) (.sealed r), lastSeal := tick, tickRecs := [], tickSlots := []
                       seals := if j.streams then j.seals ++ [⟨tick, r, rs, j.tickSlots, false, 0, false⟩] else j.seals
                       sealedSlots := if j.belay = .belayed then j.sealedSlots else j.sealedSlots ++ [(tick, nums)] }
    let s := { s with jnl := j' }
    let (s, w) : State × Option InjSlot := if j.streams then s.inject [0x0E] [] else (s, none)
    s.iff j.streams fun s => s.belaySend (.belaySeal (if w.isSome then sealClosed { r with crc := ~~~r.crc } else r))

/-! ### Securing (R99) -/

/-- The effective attributes of a volume. -/
def State.attrs (s : State) (v : BitVec 12) : VolAttrs :=
  match s.poolOf v with
  | some p =>
    match (p.run v).bind (·.attrsOld), p.vol v with
    | some a, _ => a
    | none, some m => m.attrs
    | none, none => ⟨64, false, false, 1, 0, false⟩
  | none => ⟨64, false, false, 1, 0, false⟩

/-- A record's write completes "on members" (flag 0 of R89). -/
def Intent.onMembers (r : Intent) : Bool := r.flags.getLsbD 0

/-- The blocks of these slots become destageable (R74). -/
def Cch.secureSlots (c : Cch) (l : List Nat) : Cch :=
  { c with slots := updIf c.slots (fun e => l.contains e.1 && e.2.st == .dirty) fun e => (e.1, { e.2 with destageable := true }) }

/-- Secures records: their blocks become destageable, superseded versions are freed, and entries of writes that complete "on members" become due
with FUA (R74, R80). `need` says that the solo policy makes them complete so (R99). -/
def State.secure (s : State) (need : LiveRec → Bool) (nums : List (BitVec 32)) : State :=
  let rs := s.jnl.live.filter fun r => nums.contains r.no
  let slots := rs.flatMap (·.slots)
  let s : State := { s with cch := s.cch.secureSlots slots }
  let wt := rs.filter fun r => r.intent.flags.getLsbD 0 || need r
  let wtSlots := wt.flatMap (·.slots)
  let due := (s.cch.gather ++ s.cch.waitq).filter fun e => (e.first ++ e.second).any fun b => wtSlots.contains b.2
  let s : State := { s with cch := due.foldl (fun c e => c.makeDue e.pool e.layout e.stripe true) s.cch }
  let touched := fun (sl : Slice) => sl.recs.any nums.contains
  let cmds := s.ord.cmds.map fun c =>
    { c with slices := updIf c.slices touched fun sl =>
        { sl with st := if sl.st = .journalled then .secured else sl.st
                  need := sl.need || rs.any fun r => sl.recs.contains r.no && need r } }
  State.freeSuperseded { s with ord := { s.ord with cmds := cmds } }

/-- Sends the cold-journal append of a tick for a pool's records, or of a shutdown or yield with its mark (R99, R106): an entry of their records, the blocks
they cover and a seal, at the next place of the circular log. DESIGN CHOICE: the seal is over the records of the entry, and the retire records of the tick
stand in it with the intent records. An append waits while the journal members cannot take it or the log has no room (R108). -/
def State.coldAppend (s : State) (pid : BitVec 16) (tick : Nat) (nums : List (BitVec 32)) (mark : Bool) : State :=
  match s.pool pid with
  | none => s
  | some p =>
    let live := s.jnl.live.filter fun r => nums.contains r.no
    let retires := nums.filterMap fun n => match tget s.jnl.ring (n.toNat % ringSize) with
      | some (.retire l) => some (n, JRec.retire l)
      | some (.intent _) | some (.sealed _) | none => none
    let rs := (live.map fun r => (r.no, JRec.intent r.intent)) ++ retires
    let blocks := (live.flatMap (·.slots)).filterMap fun i => (s.cch.slot i).bind (·.blk)
    let size := coldSize rs.length blocks.length
    if !s.jmReady p || decide (p.coldUsed + size > coldLen) then
      s.iff (!mark) fun s => { s with jnl := { s.jnl with sealedSlots := s.jnl.sealedSlots ++ [(tick, nums)] } }
    else
      let sl := sealOf ((rs.head?.map (·.1)).getD s.jnl.next) rs tick blocks.length
      let blks := (List.range size).map fun k =>
        let lba := coldBase + (p.coldAt + k) % coldLen
        (lba, zoneBlk p.secret s.edge lba (Config.coldBlock rs blocks sl mark k))
      let s := s.updPool pid fun p =>
        { p with coldAt := (p.coldAt + size) % coldLen, coldEnts := p.coldEnts ++ [⟨p.coldAt, size, live.map (·.no)⟩] }
      let (s, w) : State × JWait := s.jmSend p blks (.cold tick)
      { s with jnl := { s.jnl with coldWait := s.jnl.coldWait ++ [⟨pid, tick, nums, mark, w⟩] } }

/-- Secures the sealed ticks that wait under the solo policies (R99): at once for write-through and vault-protected volumes, through the cold
journal for journal-on-members volumes. -/
def State.secureSolo (s : State) : State :=
  let work := s.jnl.sealedSlots
  let ready := s.vlt.ready
  let s := { s with jnl := { s.jnl with sealedSlots := [] } }
  s.each work fun s (tick, nums) =>
    let rs := s.jnl.live.filter fun r => nums.contains r.no
    let solo := fun (r : LiveRec) => (s.attrs r.intent.vol).solo
    let cold := rs.filter fun r => solo r == 2
    let now := (rs.filter fun r => solo r != 2).map (·.no)
    let s' := s.secure (fun r => solo r == 0 || (solo r == 1 && !ready)) now
    let pids := (cold.filterMap fun r => (s.poolOf r.intent.vol).map (·.cur.id)).eraseDups
    s'.each pids fun t pid =>
      t.coldAppend pid tick ((cold.filter fun r => decide ((s.poolOf r.intent.vol).map (·.cur.id) = some pid)).map (·.no)
        ++ nums.filter fun n => !(rs.any fun r => r.no == n)) false

/-- Cold-journal appends that have ended (R99, R108): acknowledged by every journal member in service, at least two, the records are secured; else the entry
is appended anew. Entries whose records have retired give their place back (R106). -/
def State.coldDone (s : State) : State :=
  let ended := s.jnl.coldWait.filter fun w => w.wait.waits.isEmpty
  let s : State := { s with
    jnl := { s.jnl with coldWait := s.jnl.coldWait.filter fun w => !w.wait.waits.isEmpty }
    pools := s.pools.map fun p => { p with coldEnts := dropCold (s.jnl.live.map (·.no)) p.coldEnts } }
  s.each ended fun s w =>
    if ((s.pool w.pool).map fun p => p.jmOk w.wait).getD true then s.secure (fun _ => false) w.recs
    else s.coldAppend w.pool w.tick w.recs w.mark

/-! ### The belay relation (R96 to R98, R100) -/

/-- Every freed slot returns at once: the relation is SOLO (R95). -/
def Cch.returnFreed (c : Cch) : Cch := { c with slots := c.slots.filter fun e => e.2.st != .freed }

/-- The relation ends: BELAY_DOWN, SOLO, and unconfirmed writes are secured again under the solo policies at this edge (R98, R100). -/
def State.belayDown (s : State) : State :=
  if s.jnl.belay = .solo then s
  else
    let again := s.jnl.seals.filterMap fun x => if x.catchUp then none else some (x.tick, x.recs.map (·.1))
    let was := s.jnl.belay
    let s := s.log .belayDown
    let more := if was = .belayed then again else []
    { s with jnl := { s.jnl with belay := .solo, seals := [], confIn := [], nakIn := []
                                 sealedSlots := s.jnl.sealedSlots ++ more }
             cch := s.cch.returnFreed
             rop := { s.rop with txq := [], setupSent := none, setupRx := none, win0Off := true } }

/-- Belay frames with the blocks that stand in these slots. -/
def State.slotFrames (s : State) (slots : List Nat) : List TxFrame :=
  slots.filterMap fun i => (s.cch.slot i).bind fun sl => sl.blk.map fun b => TxFrame.belayBlock i b

/-- The belay set-up has succeeded: every unretired record and its blocks are streamed, then a catch-up seal (R98). Blocks that have landed and whose records
are still to be appended are streamed too, behind that seal, whose count leaves them out. -/
def State.join (s : State) : State :=
  let rs := s.jnl.live.map fun r => (r.no, JRec.intent r.intent)
  let slots := s.jnl.live.flatMap (·.slots)
  let blks := s.slotFrames slots
  let landed := (s.cch.slots.filter fun e => e.2.st == .reserved).map (·.1)
  let tick := s.edge - 1
  let r := sealOf s.jnl.tail rs tick blks.length
  let s := { s with jnl := { s.jnl with belay := .joining, seals := [⟨tick, r, rs, slots, false, 0, true⟩] } }
  { s with rop := { s.rop with txq := s.rop.txq ++ blks ++ [.belayRecords rs, .belaySeal r] ++ s.slotFrames landed } }

/-- Honours confirmations strictly in tick order (R96): the records of each confirmed seal are secured, slots that its retire records free
return (R95), and the catch-up seal makes the relation BELAYED (R98). -/
def State.honour (s : State) : Nat → State
  | 0 => s
  | fuel + 1 =>
    match s.jnl.seals with
    | [] => s
    | x :: rest =>
      if x.conf then
        let s := { s with jnl := { s.jnl with seals := rest, lastConf := x.tick } }
        let s := s.iff x.catchUp fun s => ({ s with jnl := { s.jnl with belay := .belayed } } : State).log .belayUp
        let s : State := { s with cch := { s.cch with slots := s.cch.slots.filter fun e => !(e.2.st == .freed && e.2.freeTick == some x.tick) } }
        State.honour (s.iff (s.jnl.belay == .belayed && !x.catchUp) fun s => s.secure (fun _ => false) (x.recs.map (·.1))) fuel
      else s

/-- A seal that was refused is sent again with its records and blocks, ahead of other belay traffic (R97). -/
def State.resendSeal (s : State) (x : SealSt) : State :=
  State.bump { s with rop := { s.rop with txq := s.slotFrames x.slots ++ [.belayRecords x.recs, .belaySeal x.srec] ++ s.rop.txq } } .jnlNakCntN

/-- A NAK for a tick: re-sent once; the second ends belay (R97). -/
def State.nakSeal (s : State) (tick : Nat) : State :=
  match s.jnl.seals.find? fun x => x.tick == tick with
  | none => s
  | some x =>
    if x.naks ≥ 1 then s.belayDown
    else ({ s with jnl := { s.jnl with seals := updIf s.jnl.seals (fun y => y.tick == tick) fun y => { y with naks := y.naks + 1 } } }).resendSeal x

/-- Step 3's belay part: NAKs and confirmations received in the closing tick. -/
def State.takeBelay (s : State) : State :=
  let naks := s.jnl.nakIn
  let confs := s.jnl.confIn
  let s : State := { s with jnl := { s.jnl with nakIn := [], confIn := [], seals := updIf s.jnl.seals (fun x => confs.contains x.tick) fun x => { x with conf := true } } }
  let s := s.each naks fun s t => s.nakSeal t
  s.honour (s.jnl.seals.length + 1)

end Sys2Proof.Machine
end

