-- ==== Sys2Proof/Machine/Recon.lean ====
section
/-!
DEFINITION. What COD and FIX make of the blocks of one offset of a stripe: reconstruction with its conditions and its confirming row
(R63, R167, R437, R168), and the decisions of resynchronisation (R112) and of scrub (R135).
-/
namespace Sys2Proof.Machine

/-- The blocks of one offset that passed R43, by strip. -/
abbrev OffBlks := List (Nat × Block)

/-- Data of a strip's block, zero when it is not there. -/
def offData (l : OffBlks) (x : Nat) : BlockData := ((tget l x).map (·.data)).getD 0

/-- The generation of a block. -/
def genOf (b : Block) : Nat := b.foot.gen.toNat

/-- The stripe generation of a block (R42: bits [55:0]). -/
def sgenOf (b : Block) : Nat := b.foot.stripeGen.toNat % 2 ^ 56

/-- The data columns that a check row covers. -/
def rowCols (d : LayoutDesc) (x : Nat) : List Nat := (List.range (layK d)).filter fun j => (stripVec d x).getD j 0 ≠ 0

/-- The decoding of one strip of a pattern. -/
def decodeOf (d : LayoutDesc) (er : List Nat) (x : Nat) : Option Decode := ((decodePlan d er).find? fun e => e.1 == x).bind (·.2)

/-- Can an erased strip be had again: a data strip by its decoding, a parity strip from the data that it covers (R63)? -/
def restorable (d : LayoutDesc) (er : List Nat) (x : Nat) : Bool :=
  if isParity d x then (rowCols d x).all fun j => !er.contains j || (decodeOf d er j).isSome else (decodeOf d er x).isSome

/-- The strips that a reconstruction of some erased strips produces: those alone when their local groups give each of them back, else every one of the pattern
that can be had (R63). -/
def produced (d : LayoutDesc) (er xs : List Nat) : List Nat :=
  let loc := localDecodes d er
  if xs.all fun x => loc.any fun e => e.strip == x then xs else er.filter (restorable d er)

/-- The strips that the decoding of these strips uses; one that a local group restores counts as a surviving one (R63). -/
def usedStrips (d : LayoutDesc) (er ys : List Nat) : List Nat :=
  ((ys.filter fun y => !isParity d y).flatMap fun y => ((decodeOf d er y).map fun e => e.comb.map (·.1)).getD []).eraseDups

/-- A check row that could confirm a reconstruction (R437): not erased, not used, every block that it covers read or produced, and a produced block among
what it speaks of. -/
def confirmRow (d : LayoutDesc) (er ys : List Nat) : Option Nat :=
  if d.family = 1 then none
  else
    let used := usedStrips d er ys
    (parityStrips d).find? fun r => !er.contains r && !used.contains r
      && (rowCols d r).all (fun j => !er.contains j || ys.contains j)
      && ys.any fun y => if isParity d y then (rowCols d y).any fun j => (rowCols d r).contains j else (rowCols d r).contains y

/-- The strips to read at an offset for some of its erased strips: the survivors of R63, for parity the data that it covers, and for the confirming row its
parity and the data that it covers (R437). Nothing is read for strips that cannot be had. -/
def needStrips (d : LayoutDesc) (er xs : List Nat) : List Nat :=
  let loc := localDecodes d er
  let ys := produced d er xs
  if ys.isEmpty then []
  else
    let base := if ys.all fun y => loc.any fun e => e.strip == y then (loc.filter fun e => ys.contains e.strip).flatMap fun e => e.comb.map (·.1) else readSet d er
    let rows := (ys.filter (isParity d)) ++ (confirmRow d er ys).toList
    (base ++ (confirmRow d er ys).toList ++ (rows.flatMap (rowCols d)).filter fun j => !er.contains j).eraseDups

/-- What reconstruction gives for one strip of an offset. -/
inductive Rec where
  | ok (d : BlockData) (gen : Nat)
  | refused                          -- R167 refuses the result
  | beyond                           -- beyond the code (R122), or a block that it needs is not there
  deriving DecidableEq, Repr

/-- Was it had? -/
def Rec.good (r : Rec) : Bool :=
  match r with
  | .ok _ _ => true
  | .refused | .beyond => false

/-- The generation that a block speaks for: a parity block's stripe generation, another's own. -/
def boundOf (d : LayoutDesc) (x : Nat) (b : Block) : Nat := if isParity d x then sgenOf b else genOf b

/-- The condition of R167 on the generations of a reconstruction: the parity used agrees on one stripe generation, which no used data block's passes. -/
def vouched (par dat : List Nat) : Bool := let gp := par.foldl max 0; par.all (· == gp) && (par.isEmpty || dat.all fun g => decide (g ≤ gp))

/-- One combination of strips, each with its data and generation, or why it is not there. -/
def combineRec (d : LayoutDesc) (view : Nat → Rec) (vouch : List Nat) (e : Decode) : Rec :=
  let gens := fun (par : Bool) => (vouch.filter fun y => isParity d y == par).filterMap fun y => match view y with
    | .ok _ g => some g
    | .refused | .beyond => none
  if vouch.any fun y => view y == .refused then .refused
  else if !vouch.all fun y => (view y).good then .beyond
  else if !vouched (gens true) (gens false) then .refused
  else
    let val := fun (y : Nat) => match view y with
      | .ok b _ => b
      | .refused | .beyond => 0
    .ok (combine e.comb val) ((if (gens true).isEmpty then gens false else gens true).foldl max 0)

/-- A block as it stands at an offset. -/
def viewBlk (d : LayoutDesc) (blks : OffBlks) (x : Nat) : Rec :=
  match tget blks x with
  | some b => .ok b.data (boundOf d x b)
  | none => .beyond

/-- A parity strip made from the data that it covers, at the highest generation among them (R42). -/
def encodeRec (d : LayoutDesc) (view : Nat → Rec) (x : Nat) : Rec := combineRec d view (rowCols d x) ⟨x, (rowCols d x).map fun j => (j, (stripVec d x).getD j 0)⟩

/-- Reconstructs erased strips of an offset under the conditions of R167: each with what it comes to, and whether a row has confirmed them (R437). DESIGN
CHOICE: a strip that a local group restores stands for the rest of its pattern like a surviving block of the generation that vouches for it. -/
def reconOffset (d : LayoutDesc) (er xs : List Nat) (blks : OffBlks) : List (Nat × Rec) × Bool :=
  let ys := produced d er xs
  let none_ := (xs.filter fun x => !ys.contains x).map fun x => (x, Rec.beyond)
  if d.family = 1 then
    (none_ ++ ys.map fun y => (y, ((blks.filter fun e => !er.contains e.1).head?.map fun e => Rec.ok e.2.data (genOf e.2)).getD .beyond), false)
  else
    let here := viewBlk d blks
    let loc := (localDecodes d er).map fun e => (e.strip, combineRec d here (e.comb.map (·.1)) e)
    let near := fun (x : Nat) => (tget loc x).getD (here x)
    let rest := (ys.filter fun y => !isParity d y && (tget loc y).isNone)
    let used := usedStrips d er rest
    let dat := rest.map fun y => (y, ((decodeOf d er y).map fun e => combineRec d near used e).getD .beyond)
    let full := fun (x : Nat) => (tget dat x).getD (near x)
    let par := (ys.filter fun y => isParity d y && (tget loc y).isNone).map fun y => (y, encodeRec d full y)
    let res := ys.map fun y => (y, (tget par y).getD (full y))
    match confirmRow d er ys with
    | none => (none_ ++ res, false)
    | some r =>
      match tget blks r, encodeRec d full r with
      | some b, .ok e _ =>
        if e = b.data then (none_ ++ res, true)
        else (none_ ++ res.map fun (y, v) =>
          if (if isParity d y then rowCols d y else [y]).any fun j => (rowCols d r).contains j then (y, Rec.refused) else (y, v), false)
      | _, _ => (none_ ++ res, false)

/-- The strips that came out, with data and generation. -/
def recOk (l : List (Nat × Rec)) : List (Nat × BlockData × Nat) :=
  l.filterMap fun (x, r) => match r with
    | .ok b g => some (x, b, g)
    | .refused | .beyond => none

/-- Data of every strip of an offset with its reconstruction. -/
def withRec (blks : OffBlks) (l : List (Nat × Rec)) (x : Nat) : BlockData :=
  match tget l x with
  | some (.ok b _) => b
  | some .refused | some .beyond => 0
  | none => offData blks x

/-- Highest generation among the data blocks of an offset. -/
def maxDataGen (d : LayoutDesc) (blks : OffBlks) : Nat := ((blks.filter fun e => !isParity d e.1).map fun e => genOf e.2).foldl max 0

/-- Does every parity row that is there check against the data? -/
def rowsCheck (d : LayoutDesc) (blks : OffBlks) (data : Nat → BlockData) : Bool :=
  (blks.filter fun e => isParity d e.1).all fun (x, b) => decide (encodeStrip d x data = b.data)

/-- A block to write back at an offset: strip, data, generation, flags; in place or into a rebuilt strip. -/
structure OffWrite where
  strip : Nat
  data  : BlockData
  gen   : Nat
  flags : Nat
  deriving DecidableEq, Repr

/-- What a check of one offset decides: writes, data strips lost with a cause, findings counted as repaired, parity rewritten or unresolved,
whether RESYNC_UNCHECKED is logged, and stale blocks found. -/
structure OffFix where
  writes    : List OffWrite
  lost      : List (Nat × Nat)
  repaired  : Nat
  parity    : Nat
  unres     : Nat
  unchecked : Bool
  stale     : List (Nat × Nat × Nat)   -- strip, its generation, the stripe generation (R165)
  deriving DecidableEq, Repr

/-- Nothing to do at an offset. -/
def OffFix.none : OffFix := ⟨[], [], 0, 0, 0, false, []⟩

/-- Parity of every row recomputed from data, at the generation that it covers (R42). -/
def parityWrites (d : LayoutDesc) (skip : List Nat) (data : Nat → BlockData) (gen : Nat) : List OffWrite :=
  ((parityStrips d).filter fun x => !skip.contains x).map fun x => ⟨x, encodeStrip d x data, gen, flagParity⟩

/-- A reconstructed strip as it is written (R168). -/
def recWrite (d : LayoutDesc) (e : Nat × BlockData × Nat) : OffWrite := ⟨e.1, e.2.1, e.2.2, flagRecon + (if isParity d e.1 then flagParity else 0)⟩

/-- Where an offset cannot be had, and no member that holds an erasure may come back (R126, R112, R135): the blocks that came out and, in place of the data
blocks that did not, zero blocks; every parity block recomputed. The second list is the data blocks lost, a mirror's as its one column. -/
def zeroOff (d : LayoutDesc) (l : List (Nat × Rec)) (blks : OffBlks) : List OffWrite × List Nat :=
  let gone := (l.filter fun e => !isParity d e.1 && !e.2.good).map (·.1)
  let good := (recOk l).filter fun e => !isParity d e.1
  let gen := max (maxDataGen d blks) ((good.map (·.2.2)).foldl max 0)
  let par := (parityWrites d [] (withRec blks l) gen).map fun w => if l.any fun e => e.1 == w.strip then { w with flags := flagParity + flagRecon } else w
  (good.map (recWrite d) ++ (gone.map fun x => ⟨x, 0, gen, flagZero + flagRecon⟩) ++ par, if d.family = 1 then gone.take 1 |>.map fun _ => 0 else gone)

/-- Copies of a mirror made equal to the one of highest generation that passes R43 (R135). Where no copy passes and none may come back, the block is lost;
`cause` says under which rule. -/
def fixMirror (d : LayoutDesc) (blks : OffBlks) (er bad : List Nat) (may : Bool) (cause : Nat) : OffFix :=
  let best := blks.foldl (fun b e => match b with
    | Option.none => some e.2
    | some x => if genOf x < genOf e.2 then some e.2 else some x) (Option.none : Option Block)
  match best with
  | Option.none =>
    if bad.isEmpty then OffFix.none
    else if may then { OffFix.none with unres := 1 }
    else
      let z := zeroOff d ((er ++ bad).map fun x => (x, Rec.beyond)) blks
      { OffFix.none with writes := z.1, lost := z.2.map fun x => (x, cause), unres := 1 }
  | some b =>
    let low := (blks.filter fun e => decide (genOf e.2 ≠ genOf b ∨ e.2.data ≠ b.data)).map (·.1)
    let xs := (low ++ bad).filter fun x => decide (x < layWidth d)
    { OffFix.none with writes := xs.map fun x => ⟨x, b.data, genOf b, flagRecon + (if isZeroBlk b then flagZero else 0)⟩, repaired := xs.length }

/-- Resynchronisation of one offset (R112). `er` are strips erased by their members, `bad` blocks that failed R43; X is both. -/
def resyncOffset (d : LayoutDesc) (er bad : List Nat) (blks : OffBlks) : OffFix :=
  if d.family = 1 then fixMirror d blks er bad false 3
  else
    let x := (er ++ bad).eraseDups
    let gd := maxDataGen d blks
    let par := blks.filter fun e => isParity d e.1
    if x.isEmpty then
      if par.all (fun e => sgenOf e.2 == gd) && rowsCheck d blks (offData blks) then OffFix.none
      else { OffFix.none with writes := parityWrites d [] (offData blks) gd, parity := 1 }
    else
      let gp := (par.map fun e => sgenOf e.2).foldl max 0
      let fine := par.all (fun e => sgenOf e.2 == gp) && decide (gd ≤ gp) && !par.isEmpty && decide (x.length ≤ layTol d)
      let r := reconOffset d x x blks
      if fine && r.1.all fun e => e.2.good then
        { OffFix.none with writes := (recOk r.1).map (recWrite d), repaired := r.1.length, unchecked := !r.2 }
      else
        let z := zeroOff d ((x.filter fun y => !isParity d y).map fun y => (y, Rec.beyond)) blks
        { OffFix.none with writes := z.1, lost := z.2.map fun y => (y, 3) }

/-- The data columns whose reconstruction from the rest satisfies every row (R135's trial). -/
def trialCols (d : LayoutDesc) (er : List Nat) (blks : OffBlks) (cands : List Nat) : List (Nat × BlockData) :=
  cands.filterMap fun c =>
    let out := rebuildStrips d (c :: er) (offData blks)
    let full := fun y => ((tget out y).bind id).getD (offData blks y)
    if (tget out c).any (·.isSome) && rowsCheck d blks full then some (c, full c) else none

/-- The candidates of the trial at an offset: it is made only where there are two check rows more than data blocks to reconstruct (R135). -/
def trialCands (d : LayoutDesc) (er lost : List Nat) (blks : OffBlks) : List Nat :=
  if (blks.filter fun e => isParity d e.1).length < 2 + (er.filter fun x => !isParity d x).length then []
  else (dataStrips d).filter fun x => !lost.contains x && (tget blks x).isSome

/-- The patterns whose decoding the trial takes, where one is made. -/
def scrubTrials (d : LayoutDesc) (er lost : List Nat) (blks : OffBlks) : List (List Nat) :=
  let l := (reconOffset d er er blks).1
  let gp := ((blks.filter fun e => isParity d e.1).map fun e => sgenOf e.2).foldl max 0
  if d.family = 1 || (l.any fun e => !e.2.good && !isParity d e.1) || rowsCheck d blks (withRec blks l) || decide (gp < maxDataGen d blks) then []
  else (trialCands d er lost blks).map fun c => c :: er

/-- Findings of the parity rows of an offset whose data is all there or reconstructed (R135). DESIGN CHOICE: the rule's table has no line for rows that all check
beside a stripe generation other than g_d (`skip` are the strips not to be written, `er` those not there): below it, parity is rewritten under g_d and counted; above it, no block is stale and nothing is done. Where the
parity blocks disagree on their stripe generation, the highest is taken. -/
def scrubRows (d : LayoutDesc) (skip er lost : List Nat) (blks : OffBlks) (data : Nat → BlockData) : OffFix :=
  let gd := maxDataGen d blks
  let ps := (blks.filter fun e => isParity d e.1).map fun e => sgenOf e.2
  let gp := ps.foldl max 0
  let checks := rowsCheck d blks data
  if checks && ps.all (fun x => decide (x ≥ gd)) then OffFix.none
  else if checks || decide (gp < gd) then { OffFix.none with writes := parityWrites d skip data gd, parity := 1 }
  else
    match trialCols d er blks (trialCands d er lost blks) with
    | [(c, b)] =>
      { OffFix.none with writes := [⟨c, b, gp, flagRecon⟩], repaired := 1
                         stale := [(c, ((tget blks c).map genOf).getD 0, gp)] }
    | _ =>
      let below := ((dataStrips d).filter fun x => !lost.contains x).filter fun x =>
        match tget blks x with
        | some b => decide (genOf b < gp)
        | none => false
      let data' := fun y => if below.contains y then 0 else data y
      { OffFix.none with writes := (below.map fun y => ⟨y, 0, gd, flagZero⟩) ++ parityWrites d skip data' gd
                         lost := below.map fun y => (y, 4), unres := 1 }

/-- Scrub of one offset (R135). `er` are strips erased by their members, `bad` blocks that failed R43, which are repaired like a media error, `lost` strips whose
blocks stand in the lost-extent list and are skipped; `may` says that a member that holds an erasure may come back. -/
def scrubOffset (d : LayoutDesc) (er bad lost : List Nat) (may : Bool) (blks : OffBlks) : OffFix :=
  let sick := bad.filter fun x => !lost.contains x
  if d.family = 1 then (if bad.isEmpty || !lost.isEmpty then fixMirror d blks er [] may 4 else fixMirror d blks er sick may 4)
  else
    let x := (er ++ bad).eraseDups
    let l := (reconOffset d x x blks).1
    let fixed := (recOk l).filter fun e => sick.contains e.1
    let failed := l.any fun e => !e.2.good && sick.contains e.1
    if failed then
      if may then { OffFix.none with writes := fixed.map (recWrite d), repaired := fixed.length, unres := 1 }
      else
        let z := zeroOff d l blks
        { OffFix.none with writes := z.1, lost := (z.2.filter fun y => !lost.contains y).map fun y => (y, 4), repaired := fixed.length, unres := 1 }
    else if l.any fun e => !e.2.good && !isParity d e.1 then OffFix.none
    else
      let f := scrubRows d er x lost blks (withRec blks l)
      { f with writes := f.writes ++ (fixed.map (recWrite d)).filter (fun w => !(f.writes.any fun v => v.strip == w.strip)), repaired := f.repaired + fixed.length }

end Sys2Proof.Machine
end

