-- ==== Sys2Proof/Machine/Tasks.lean ====
section
/-!
DEFINITION. The work of CCH and SEQ on one layout stripe: destage (R77 to R79), reconstruction (R121, R167), rebuild (R124 to R126, R440, R441),
catch-up (R120), copy-back (R130), scrub and sweeps (R135, R149), resynchronisation (R112). Each is a task that reads, is encoded, writes and completes.
-/
namespace Sys2Proof.Machine

/-! ### Tasks -/

/-- A task by its number. -/
def State.task (s : State) (id : Nat) : Option Task := s.seq.tasks.find? fun t => t.id == id

/-- Changes a task. -/
def State.updTask (s : State) (id : Nat) (f : Task → Task) : State :=
  { s with seq := { s.seq with tasks := updIf s.seq.tasks (fun t => t.id == id) f } }

/-- Ends a task. -/
def State.dropTask (s : State) (id : Nat) : State := { s with seq := { s.seq with tasks := s.seq.tasks.filter fun t => t.id ≠ id } }

/-- A new task in its reading phase. -/
def State.newTask (s : State) (kind : TaskKind) (pool : BitVec 16) (layout stripe : Nat) (offs : List Nat) (bad : List (Nat × Nat)) : State :=
  let t : Task := { id := s.seq.nextTask, kind := kind, pool := pool, layout := layout, stripe := stripe, offs := offs, ph := .reading, reads := [],
                    got := [], bad := bad, outs := [], spares := [], writes := [], okStrips := [], failed := [], encN := 0, edge := s.edge,
                    injected := s.mgt.injNow }
  { s with seq := { s.seq with tasks := s.seq.tasks ++ [t], nextTask := s.seq.nextTask + 1 } }

/-- Does a task keep other work off its stripe (R124's last rule)? Reconstruction for a read does not. -/
def TaskKind.exclusive (k : TaskKind) : Bool :=
  match k with
  | .recon _ _ _ => false
  | .destage | .rebuild | .catchUp _ _ _ | .copyBack _ | .copyUnit _ _ | .scrub | .sweep | .mend | .resync _ _ => true

/-- Is a task foreground work (R131)? -/
def TaskKind.fg (k : TaskKind) : Bool :=
  match k with
  | .destage | .recon _ _ _ => true
  | .rebuild | .catchUp _ _ _ | .copyBack _ | .copyUnit _ _ | .scrub | .sweep | .mend | .resync _ _ => false

/-- The old-layout stripes that a copy unit reads (R146). -/
def Pool.unitStripes (p : Pool) (vol : BitVec 12) (first : Nat) (fd : LayoutDesc) : List (Nat × Nat) :=
  match p.volLayout vol with
  | none => []
  | some d =>
    ((List.range (layData fd)).filterMap fun i => (p.mapVbn d vol (first + i)).map fun m => (d.id, m.1)).eraseDups

/-- Is a stripe taken by work in flight (R124, R146)? DESIGN CHOICE: a task that has come to nothing keeps its stripe while its writes are on their way, so that
none of them can reach a member after a write of the work that follows. -/
def State.busy (s : State) (pool : BitVec 16) (layout stripe : Nat) : Bool :=
  s.seq.tasks.any fun t => t.kind.exclusive &&
    ((t.pool == pool && t.layout == layout && t.stripe == stripe) ||
      match t.kind with
      | .copyUnit vol first =>
        match s.pool pool, (s.pool t.pool).bind fun h => h.layout t.layout with
        | some p, some fd => (p.cur.frond.any fun f => f.srcPool == pool && f.layout == t.layout && frondHolder f == t.pool)
            && (p.unitStripes vol first fd).contains (layout, stripe)
        | _, _ => false
      | _ => false)

/-- Blocks of one offset that a task holds. -/
def Task.at (t : Task) (o : Nat) : OffBlks := t.got.filterMap fun (x, o', b) => if o' = o then some (x, b) else none

/-- Strips that failed at an offset. -/
def Task.badAt (t : Task) (o : Nat) : List Nat := (t.bad.filter fun e => e.2 == o).map (·.1)

/-! ### Destage (R77, R78) -/

/-- The blocks of a snapshot at an offset: strip and slot. -/
def snapAt (d : LayoutDesc) (snap : List (Nat × Nat)) (o : Nat) : List (Nat × Nat) :=
  snap.filterMap fun (v, sl) => if (mapBlock d v).2.2 = o then some ((mapBlock d v).2.1, sl) else none

/-- Offsets at which a snapshot holds a block. -/
def dirtyOffs (d : LayoutDesc) (snap : List (Nat × Nat)) : List Nat := sortedKeys (snap.map fun e => (mapBlock d e.1).2.2)

/-- Methods of R77. -/
inductive Method where
  | full | rmw | rcw | mirror
  deriving DecidableEq, Repr

/-- The method for a snapshot: read-modify-write only without erasures (R77, R78). -/
def methodOf (d : LayoutDesc) (snap : List (Nat × Nat)) (erased bad : Bool) : Method :=
  if d.family = 1 then .mirror
  else if snap.length = layData d then .full
  else if !erased && !bad && decide (2 * (sortedKeys (snap.map fun e => (mapBlock d e.1).2.1)).length < d.k) then .rmw
  else .rcw

/-- Parity strips that read-modify-write reads at an offset: in a local reconstruction code the local parities of the groups touched and the globals. -/
def rmwParity (d : LayoutDesc) (cols : List Nat) : List Nat :=
  (parityStrips d).filter fun x => d.family ≠ 4 || decide (x ≥ d.k + d.l) || cols.any fun c => decide (d.k + c / (d.k / d.l) = x)

/-- The clean data strips of an offset that a destage has to reconstruct (R77, R78). -/
def destGone (d : LayoutDesc) (snap : List (Nat × Nat)) (er : List Nat) (o : Nat) : List Nat :=
  (List.range (layK d)).filter fun x => er.contains x && !((snapAt d snap o).any fun h => h.1 == x)

/-- The strips a destage reads at an offset. -/
def destNeed (d : LayoutDesc) (m : Method) (snap : List (Nat × Nat)) (er : List Nat) (o : Nat) : List Nat :=
  let cols := (snapAt d snap o).map (·.1)
  match m with
  | .full | .mirror => []
  | .rmw => cols ++ rmwParity d cols
  | .rcw => (((List.range (layK d)).filter fun x => !cols.contains x && !er.contains x) ++ needStrips d er (destGone d snap er o)).eraseDups

/-- The gather entry that a destage serves. -/
def State.entryOf (s : State) (t : Task) : Option GEntry := s.cch.entry t.pool t.layout t.stripe

/-- The strips erased for a destage: erased ones, and those whose write failed before (R76). -/
def Pool.destErased (p : Pool) (g : Geo) (n : Nat) (e : GEntry) : List Nat := (p.erased g n ++ e.skip).eraseDups

/-- The method of a destage in flight. -/
def destMethod (p : Pool) (g : Geo) (t : Task) (e : GEntry) : Method :=
  methodOf g.d e.snap (!(p.destErased g t.stripe e).isEmpty) (!t.bad.isEmpty)

/-! ### What each task reads -/

/-- The strips that a restoring task reads at an offset: what reconstruction needs, the strips of RETURNING members, which it compares (R120), and every
remaining data block where a block cannot be had (R126). -/
def restoreNeed (d : LayoutDesc) (er own : List Nat) (blks : OffBlks) : List Nat :=
  let base := (needStrips d er er ++ own).eraseDups
  let rest := blks.filter fun e => !er.contains e.1
  let here := fun (l : List Nat) => l.all fun x => (tget blks x).isSome
  if here (base.filter fun x => !own.contains x) && (reconOffset d er er rest).1.any fun e => !e.2.good then
    (base ++ (dataStrips d).filter fun x => !er.contains x).eraseDups
  else base

/-- Strips of a stripe that stand on RETURNING members in a region still to be covered. -/
def Pool.ownBack (p : Pool) (g : Geo) (n : Nat) : List Nat :=
  (List.range (layWidth g.d)).filter fun x =>
    let m := (findStrip g p.cur.remap n x).member
    p.memState m == .returning && p.toCatchUp g.d n m

/-- The strips that a copy-back moves: with a remap entry asked to stay, and at home on the member. -/
def Pool.goesHome (p : Pool) (g : Geo) (n m : Nat) : List Nat :=
  (p.cur.remap.filter fun e => e.layout == g.d.id && e.stripe == n && (homeStrip g n e.strip).member == m).map (·.strip)

/-- The strip that a reconstruction is for. -/
def Task.wanted (t : Task) : Nat :=
  match t.kind with
  | .recon _ (some (_, x, _)) _ => x
  | _ => (t.bad.head?.map (·.1)).getD 0

/-- The strips that a task reads at an offset, by what is erased or bad there. -/
def State.taskNeed (s : State) (p : Pool) (g : Geo) (t : Task) (o : Nat) : List Nat :=
  let er0 := p.erased g t.stripe
  let er := (er0 ++ t.badAt o).eraseDups
  let live := (List.range (layWidth g.d)).filter fun x => !er.contains x
  let fresh := fun (l : List Nat) => l.filter fun x => !(t.badAt o).contains x
  match t.kind with
  | .destage =>
    match s.entryOf t with
    | some e => destNeed g.d (destMethod p g t e) e.snap (p.destErased g t.stripe e ++ t.badAt o).eraseDups o
    | none => []
  | .recon _ _ _ => if er.contains t.wanted then needStrips g.d er [t.wanted] else [t.wanted]
  | .rebuild | .catchUp _ _ _ | .mend => restoreNeed g.d er (fresh (p.ownBack g t.stripe)) (t.at o)
  | .copyBack m =>
    let xs := p.goesHome g t.stripe m
    (fresh xs ++ needStrips g.d er ((t.badAt o).filter xs.contains)).eraseDups
  | .copyUnit _ _ => []
  | .scrub | .sweep | .resync _ _ => live

/-- The reads a task still has to make: strips with their offsets, not held, not bad, not under way. -/
def State.taskMissing (s : State) (p : Pool) (g : Geo) (t : Task) : List (Nat × List Nat) :=
  let pairs := t.offs.flatMap fun o => ((s.taskNeed p g t o).filter fun x =>
    !(t.got.any fun e => e.1 == x && e.2.1 == o) && !(t.badAt o).contains x).map fun x => (x, o)
  (sortedKeys (pairs.map (·.1))).map fun x => (x, (pairs.filter fun e => e.1 == x).map (·.2))

/-- The member reads of a task, as one unit of admission (R124). -/
def State.taskReqs (s : State) (p : Pool) (g : Geo) (t : Task) : List MReq :=
  (s.taskMissing p g t).flatMap fun (x, offs) => s.stripReads p g t.stripe x offs (.task t.id x) t.kind.fg

/-! ### The decoding matrices (R63) -/

/-- Uses the decoding matrix of a layout and pattern, where the pattern needs one: one not held is computed and takes the place of the one least recently
used. -/
def State.useMatrix (s : State) (d : LayoutDesc) (er : List Nat) : State :=
  if needsMatrix d er then
    let key := (d.id, sortedKeys er)
    let s' := { s with cod := { s.cod with mats := (key :: s.cod.mats.filter (· ≠ key)).take 256 } }
    if s.cod.mats.contains key then s' else s'.bump .codDecmatCntN
  else s

/-! ### Writes -/

/-- The secret of the pool that a task's blocks belong to. -/
def Pool.out (p : Pool) (g : Geo) (n : Nat) (w : OffWrite) (o : Nat) (at_ : StripAt) : TWrite :=
  let e := p.expectAt g n w.strip o at_.row
  let b := mkBlock p.secret e w.gen w.gen (if isParity g.d w.strip then w.flags ||| flagParity else w.flags) w.data
  ⟨w.strip, o, at_.member, at_.row, b⟩

/-- Writes of an offset's decision in place; strips on `skip` are left out. -/
def Pool.outsAt (p : Pool) (g : Geo) (n o : Nat) (ws : List OffWrite) (skip : List Nat) : List TWrite :=
  (ws.filter fun w => !skip.contains w.strip).map fun w => p.out g n w o (findStrip g p.cur.remap n w.strip)

/-- The member writes of a task's waiting blocks, one command per contiguous run of a strip. -/
def State.writeReqs (s : State) (p : Pool) (g : Geo) (t : Task) (fua : Bool) : List (MReq × List TWrite) :=
  (sortedKeys (t.outs.map (·.strip))).flatMap fun x =>
    let ws := t.outs.filter fun w => w.strip == x
    match ws with
    | [] => []
    | w0 :: _ =>
      (runsOf (s.maxBlocks p w0.member) (sortedKeys (ws.map (·.off)))).map fun run =>
        let part := run.filterMap fun o => ws.find? fun w => w.off == o
        ({ pool := p.cur.id, idx := w0.member, op := .write fua, lba := stripLba g.d w0.row (run.headD 0), offs := run, count := run.length
           blks := part.map (·.blk), purpose := .task t.id x, fg := t.kind.fg }, part)

/-! ### Encoding a destage -/

/-- New data of a column at an offset: from the snapshot, read, or reconstructed. -/
def State.destData (s : State) (d : LayoutDesc) (snap : List (Nat × Nat)) (old : OffBlks) (made : List (Nat × BlockData × Nat)) (o x : Nat) :
    BlockData × Nat :=
  match ((tget (snapAt d snap o) x).bind fun i => (s.cch.slot i).bind (·.blk)).or (tget old x) with
  | some b => (b.data, genOf b)
  | none => ((made.find? fun e => e.1 == x).map (·.2)).getD (0, 0)

/-- The writes of a destage at an offset; none where the offset cannot be had (R122). -/
def State.destOff (s : State) (p : Pool) (g : Geo) (t : Task) (e : GEntry) (o : Nat) : Option (List TWrite) :=
  let d := g.d
  let er0 := p.destErased g t.stripe e
  let er := (er0 ++ t.badAt o).eraseDups
  let here := snapAt d e.snap o
  let old := t.at o
  let slotBlk := fun (i : Nat) => (s.cch.slot i).bind (·.blk)
  let dataW : List OffWrite := here.filterMap fun (x, i) => (slotBlk i).map fun b => ⟨x, b.data, genOf b, if isZeroBlk b then flagZero else 0⟩
  match destMethod p g t e with
  | .mirror =>
    let all := dataW.flatMap fun w => (List.range (layWidth d)).map fun c => { w with strip := c }
    some (p.outsAt g t.stripe o all er0)
  | .rmw =>
    let cols := here.map (·.1)
    let oldPar := (rmwParity d cols).filterMap fun x => (tget old x).map fun b => (x, b)
    let gp := max ((oldPar.map fun e => sgenOf e.2).foldl max 0) ((dataW.map (·.gen)).foldl max 0)
    let par : List OffWrite := oldPar.map fun (x, b) =>
      ⟨x, dataW.foldl (fun acc w => acc ^^^ mulData ((stripVec d x).getD w.strip 0) (w.data ^^^ offData old w.strip)) b.data, gp, flagParity⟩
    some (p.outsAt g t.stripe o (dataW ++ par) er0)
  | .full | .rcw =>
    let gone := destGone d e.snap er o
    let r := (reconOffset d er gone old).1
    if gone.all fun x => (((tget r x).getD .beyond).good) then
      let made := recOk r
      let dat := s.destData d e.snap old made o
      let gp := ((List.range (layK d)).map fun x => (dat x).2).foldl max 0
      let back := (made.filter fun e => gone.contains e.1 && !er0.contains e.1).map (recWrite d)
      some (p.outsAt g t.stripe o (dataW ++ back ++ parityWrites d [] (fun x => (dat x).1) gp) er0)
    else none

/-- Coder bytes of a destage's row segment (R79). -/
def destCharge (d : LayoutDesc) (m : Method) (snap : List (Nat × Nat)) (o : Nat) : Nat :=
  match m with
  | .mirror => 0
  | .full | .rcw => encodeCharge d
  | .rmw =>
    let cols := (snapAt d snap o).map (·.1)
    4096 * (2 * cols.length + (rmwParity d cols).length) * encodePasses d

/-! ### Spare slots -/

/-- Spare slots taken: by remap entries asked for or in force, by tasks, and those whose write failed (R441). -/
def State.sparesUsed (s : State) (p : Pool) : List (Nat × Nat) :=
  (p.cur.remap ++ p.nxt.remap).map (fun e => (e.member, e.row)) ++ p.badSlots
    ++ (s.seq.tasks.filter fun t => t.pool == p.cur.id).flatMap fun t => t.spares.map fun e => (e.2.1, e.2.2)

/-- Where a rebuild writes a strip (R124, R130): a strip on a FAILED member into a spare slot (R60), any other into its own slot. `more` are the strips of the
stripe that the task has placed already. The members of the other strips are those in service by the entries in force and by those asked for, with the
spare slots that the task has chosen. -/
def State.rebuildTarget (s : State) (p : Pool) (g : Geo) (n x : Nat) (more : List (Nat × StripAt)) : Option (StripAt × Bool × Bool) :=
  let a := findStrip g p.cur.remap n x
  if p.memState a.member = .failed then
    let ys := (List.range (layWidth g.d)).filter (· ≠ x)
    let at_ := fun (y : Nat) => ((tget more y).getD (findStrip g p.nxt.remap n y)).member
    let old := (ys.map fun y => (findStrip g p.cur.remap n y).member).filter p.inService
    (chooseSpare g (s.sparesUsed p ++ more.map fun e => (e.2.member, e.2.row)) (fun m => p.inService m && !old.contains m) (ys.map at_) n).map fun (at_, exp) => (at_, true, exp)
  else some (a, false, false)

end Sys2Proof.Machine
end

