-- ==== Sys2Proof/Machine/TaskRun.lean ====
section
/-!
DEFINITION. How tasks run: their reads, their encoding admitted by row segments (R30), their writes at the next edge, and what their
completion changes (R76, R90, R124, R120, R130, R135, R145, R112).
-/
namespace Sys2Proof.Machine

/-! ### Commands whose blocks a task brings -/

/-- Changes an accepted command. -/
def State.updCmd (s : State) (id : Nat) (f : Cmd → Cmd) : State :=
  { s with ord := { s.ord with cmds := updIf s.ord.cmds (fun c => c.id == id) f } }

/-- An accepted command. -/
def State.cmd (s : State) (id : Nat) : Option Cmd := s.ord.cmds.find? fun c => c.id == id

/-- Sets the state of a block that a command waits for. -/
def State.setBlk (s : State) (cmd vbn : Nat) (st : RBlkSt) : State :=
  s.updCmd cmd fun c => { c with rblks := updIf c.rblks (fun b => b.vbn == vbn) fun b => { b with st := st } }

/-- Fills the clean read cache with a block that a READ missed (R83): the reference bit is clear for a command of 1 MiB or more. -/
def State.fillFor (s : State) (c : Cmd) (pool : BitVec 16) (vbn : Nat) (b : Block) : State :=
  match c.op with
  | .read _ count noFill _ =>
    if noFill || (s.attrs c.vol).noFill then s
    else { s with cch := s.cch.cleanFill pool c.vol vbn b (decide (count < 256)) }
  | _ => s

/-! ### In-place repair (R170) -/

/-- Rewrites a block in place and has it read back when the member acknowledges. -/
def State.rewrite (s : State) (p : Pool) (g : Geo) (n : Nat) (w : TWrite) (second : Bool) : State :=
  (s.sendNow [{ pool := p.cur.id, idx := w.member, op := .write false, lba := stripLba g.d w.row w.off, offs := [w.off], count := 1, blks := [w.blk]
                purpose := .repair g.d.id n w.strip second, fg := true }]).1

/-! ### Encoding -/

/-- Enters lost data strips of an offset into the list (R126, R112, R135): of a mirror the one block that its copies hold. The list is that of the pool that the volume is in. -/
def State.loseStrips (s : State) (p : Pool) (g : Geo) (n o : Nat) (l : List (Nat × Nat)) : State :=
  match p.stripeVol g.d.id n with
  | none => s
  | some (v, sv) =>
    s.each (if g.d.family = 1 then (l.take 1).map fun e => (0, e.2) else l) fun s (x, cause) =>
      s.loseBlock (((s.poolOf v).map (·.cur.id)).getD p.cur.id) v (blockAt g.d sv x o) cause g.d.id

/-- Are some of these strips on MISSING or RETURNING members (R122)? -/
def Pool.mayReturn (p : Pool) (g : Geo) (n : Nat) (xs : List Nat) : Bool :=
  xs.any fun x =>
    match p.memState (findStrip g p.cur.remap n x).member with
    | .missing | .returning => true
    | .active | .standby | .failed | .copyback => false

/-- What a restoring task makes of an offset (R124, R126): the blocks of the erased strips and of those that failed, or the lost ones as zero blocks with
parity recomputed; none when a member may come back. -/
def Pool.restoreOff (p : Pool) (g : Geo) (t : Task) (o : Nat) : Option (List OffWrite × List (Nat × Nat)) :=
  let d := g.d
  let bad := t.badAt o
  let er := (p.erased g t.stripe ++ bad).eraseDups
  let blks := (t.at o).filter fun e => !er.contains e.1
  let l := (reconOffset d er er blks).1
  if l.all fun e => e.2.good then some ((recOk l).map (recWrite d), [])
  else if p.mayReturn g t.stripe er then none
  else
    let z := zeroOff d l blks
    some (z.1, z.2.map fun x => (x, if !bad.isEmpty || l.any fun e => e.2 == .refused then 2 else 1))

/-- Effects of an offset's check on the counts, the list and the log (R135, R112). -/
def State.fixEffects (s : State) (p : Pool) (g : Geo) (n o : Nat) (f : OffFix) : State :=
  let s := s.loseStrips p g n o f.lost
  let s := s.iff f.unchecked fun s => s.log .resyncUnchecked 3 p.cur.id.toNat p.cur.id n
  s.each f.stale fun s (x, gen, gp) => s.log .staleBlock 2 (findStrip g p.cur.remap n x).member p.cur.id (findStrip g p.cur.remap n x).member gen gp

/-- The lost-extent list that speaks of a layout's blocks: of a frond built in another pool, that of the pool its volumes are still in. -/
def State.lostOf (s : State) (p : Pool) (lid : Nat) : List LostExt :=
  match s.pools.find? fun q => q.cur.id != p.cur.id && q.nxt.frond.any fun f => f.srcPool == q.cur.id && f.layout == lid && frondHolder f == p.cur.id && f.phase != .switched with
  | some q => q.nxt.lost
  | none => p.nxt.lost

/-- The strips whose blocks at an offset are lost. -/
def State.lostStrips (s : State) (p : Pool) (g : Geo) (n o : Nat) : List Nat :=
  match p.stripeVol g.d.id n with
  | none => []
  | some (v, sv) => (List.range (layK g.d)).filter fun x => isLost (s.lostOf p g.d.id) v (blockAt g.d sv x o)

/-- Scrub counts of a pool (R136). -/
def State.countScrub (s : State) (pid : BitVec 16) (f : OffFix) : State :=
  let n := f.repaired + f.parity + f.unres
  let s := s.updPool pid fun p => { p with scrubRun := p.scrubRun.map fun sc =>
    { sc with repaired := sc.repaired + f.repaired, parity := sc.parity + f.parity, unresolved := sc.unresolved + f.unres } }
  s.bump .seqScrubFixCntN n

/-- The check of one offset by a scrub, a sweep or a resynchronisation: its writes join the task's. Only a scrub's count as in-place rewrites (R139). -/
def State.checkOff (s : State) (p : Pool) (g : Geo) (t : Task) (o : Nat) : State :=
  let er := p.erased g t.stripe
  let bad := t.badAt o
  let f := match t.kind with
    | .resync _ _ => resyncOffset g.d er bad (t.at o)
    | _ => scrubOffset g.d er bad (s.lostStrips p g t.stripe o) (p.mayReturn g t.stripe (er ++ bad)) (t.at o)
  let outs := p.outsAt g t.stripe o f.writes er
  let s := s.fixEffects p g t.stripe o f
  let s := match t.kind with
    | .scrub => (s.countScrub p.cur.id f).bump .seqInplaceCntN outs.length
    | _ => s
  s.updTask t.id fun t => { t with outs := t.outs ++ outs }

/-- Spare targets for the strips that a rebuild restores; those for which R60 finds none are skipped, and SPARE_EXHAUSTED is logged once for
the layout (R127). -/
def State.chooseTargets (s : State) (p : Pool) (g : Geo) (t : Task) (xs : List Nat) : State × List (Nat × StripAt × Bool) :=
  xs.foldl (fun (s, acc) x =>
    match s.rebuildTarget p g t.stripe x (acc.map fun e => (e.1, e.2.1)) with
    | some (a, spare, exposed) =>
      (s.iff exposed fun s => s.log .domainExposed 3 p.cur.id.toNat p.cur.id g.d.id t.stripe, acc ++ [(x, a, spare)])
    | none =>
      let s := s.updPool p.cur.id fun p => { p with skipped := (g.d.id, t.stripe, x) :: p.skipped.filter (· ≠ (g.d.id, t.stripe, x)) }
      if p.spareLogged.contains g.d.id then (s, acc)
      else ((s.updPool p.cur.id fun p => { p with spareLogged := g.d.id :: p.spareLogged }).log .spareExhausted 3 p.cur.id.toNat p.cur.id g.d.id, acc))
    (s, [])

/-- The strips of a stripe that a rebuild restores: on FAILED members by the remap entries asked for, or still to be restored to a replaced member, or in a
catch-up region (R124), and not skipped. -/
def Pool.restore (p : Pool) (g : Geo) (n : Nat) : List Nat :=
  ((List.range (layWidth g.d)).filter fun x =>
    (p.memState (findStrip g p.nxt.remap n x).member == .failed || p.nxt.unrest.contains (g.d.id, n, x)) && !p.skipped.contains (g.d.id, n, x))
    ++ p.ownBack g n

/-- Holds a stripe out of the plan (R126), and ends its task without effect. -/
def State.holdStripe (s : State) (t : Task) : State :=
  (s.dropTask t.id).updPool t.pool fun p => { p with held := (t.layout, t.stripe) :: p.held.filter (· ≠ (t.layout, t.stripe)) }

/-- Encodes a rebuild or a catch-up: restored strips go to their targets, blocks that failed are rewritten in place. Of a strip in a catch-up region only the
blocks that differ are written (R120). -/
def State.encodeRestore (s : State) (p : Pool) (g : Geo) (t : Task) : State :=
  let res := t.offs.map fun o => (o, p.restoreOff g t o)
  if res.any fun e => e.2.isNone then s.holdStripe t
  else
    let own := p.ownBack g t.stripe
    let (s, tgts) : State × List (Nat × StripAt × Bool) := match t.kind with
      | .mend => (s, [])
      | .catchUp m _ _ => (s, ((own.map fun x => (x, findStrip g p.cur.remap t.stripe x)).filter fun e => e.2.member == m).map fun e => (e.1, e.2, false))
      | _ => s.chooseTargets p g t (p.restore g t.stripe)
    let er := p.erased g t.stripe
    let same := fun (o : Nat) (w : OffWrite) => own.contains w.strip && decide (w.flags / 8 % 2 = 0) && (match tget (t.at o) w.strip with
      | some b => decide (b.data = w.data)
      | none => false)
    let outs := res.flatMap fun (o, r) =>
      (r.getD ([], [])).1.filterMap fun w =>
        match tgts.find? fun e => e.1 == w.strip with
        | some e => if same o w then none else some (p.out g t.stripe w o e.2.1)
        | none => if er.contains w.strip then none else some (p.out g t.stripe w o (findStrip g p.cur.remap t.stripe w.strip))
    let s := s.each res fun s (o, r) => s.loseStrips p g t.stripe o (r.getD ([], [])).2
    let inPlace := (outs.filter fun w => own.contains w.strip || !(tgts.any fun e => e.1 == w.strip)).length
    (s.updTask t.id fun t => { t with outs := outs, spares := tgts.filterMap fun e => if e.2.2 then some (e.1, e.2.1.member, e.2.1.row) else none,
                                      ph := .encoded, edge := s.edge }).bump .seqInplaceCntN inPlace

/-- Encodes a copy-back: each block goes home with its own footer's values and the RECON flag (R130); one that failed R43 is reconstructed. DESIGN CHOICE: a strip
with a block that cannot be had is not copied, and its remap entry stays. -/
def State.encodeCopyBack (s : State) (p : Pool) (g : Geo) (t : Task) (m : Nat) : State :=
  let xs := p.goesHome g t.stripe m
  let er0 := p.erased g t.stripe
  let made := t.bad.filterMap fun (x, o) =>
    if !xs.contains x then none
    else
      let er := (er0 ++ t.badAt o).eraseDups
      some (x, o, (tget (reconOffset g.d er [x] ((t.at o).filter fun e => !er.contains e.1)).1 x).getD .beyond)
  let gone := made.filterMap fun (x, _, r) => if r.good then none else some x
  let put := fun (x o gen sgen flags : Nat) (b : BlockData) =>
    let a := homeStrip g t.stripe x
    (⟨x, o, a.member, a.row, mkBlock p.secret (p.expectAt g t.stripe x o a.row) gen sgen flags b⟩ : TWrite)
  let par := fun (x : Nat) => if isParity g.d x then flagParity else 0
  let outs := (t.got.filterMap fun (x, o, b) =>
      if xs.contains x && !gone.contains x then some (put x o (genOf b) (sgenOf b) (b.foot.flags.toNat ||| flagRecon) b.data) else none)
    ++ made.filterMap fun (x, o, r) => match r with
      | .ok b gen => if gone.contains x then none else some (put x o gen gen (par x + flagRecon) b)
      | .refused | .beyond => none
  s.updTask t.id fun t => { t with outs := outs, failed := gone.eraseDups, ph := .encoded, edge := s.edge }

/-- Encodes a frond copy unit (R145): data blocks keep their generation and take the FROND flag and the frond's footer, parity covers them; a lost block is
written as a zero block. `p` holds the frond. -/
def State.encodeUnit (s : State) (p : Pool) (g : Geo) (t : Task) : State :=
  let one := fun (o : Nat) =>
    let gone := s.lostStrips p g t.stripe o
    let blks := (t.at o).map fun (x, b) => if gone.contains x then (x, { b with data := 0 }) else (x, b)
    let gd := maxDataGen g.d blks
    let there := blks.map fun (x, b) => (⟨x, b.data, genOf b, flagFrond + (if isZeroBlk b || gone.contains x then flagZero else 0)⟩ : OffWrite)
    let beyondEnd := ((dataStrips g.d).filter fun x => (tget blks x).isNone && g.d.family != 1).map fun x => (⟨x, 0, gd, flagFrond + flagZero⟩ : OffWrite)
    let dat := there ++ beyondEnd
    let copies := if g.d.family = 1 then dat.flatMap fun w => (List.range (layWidth g.d)).map fun c => { w with strip := c } else dat
    let par := (parityWrites g.d [] (offData blks) gd).map fun w => { w with flags := w.flags ||| flagFrond }
    p.outsAt g t.stripe o (copies ++ par) []
  let outs := t.offs.flatMap one
  s.updTask t.id fun t => { t with outs := outs, ph := .encoded, edge := s.edge }

/-- A destage ends without effect: its entry is DUE again with every block, FUA included (R76, R80). `bad` are the strips and offsets whose reads have failed, and
`held` says that R122 holds the entry. -/
def State.undoDestage (s : State) (t : Task) (bad : List (Nat × Nat)) (held : Bool) : State :=
  match s.entryOf t with
  | none => s
  | some e =>
    let back := fun (e : GEntry) =>
      { e with st := .due, first := e.second.foldl (fun l b => mapPut l b.1 b.2) e.snap, second := [], snap := [], fua := e.fua || e.curFua, curFua := false
               again := false, badAt := bad, heldR122 := held }
    let s : State := { s with cch := s.cch.updEntry t.pool t.layout t.stripe back }
    s.each e.snap fun s b => s.updSlot b.2 fun sl => { sl with holds := sl.holds - 1 }

/-- Encodes a destage; where an offset cannot be had the entry stays DUE (R122). -/
def State.encodeDestage (s : State) (p : Pool) (g : Geo) (t : Task) (e : GEntry) : State :=
  let res := t.offs.map fun o => s.destOff p g t e o
  if res.any Option.isNone then (s.undoDestage t t.bad true).dropTask t.id
  else s.updTask t.id fun t => { t with outs := res.flatMap fun r => r.getD [], ph := .encoded, edge := s.edge }

/-- A task that comes to nothing leaves its stripe when none of its writes is on its way any longer. -/
def State.stopTask (s : State) (t : Task) : State :=
  if t.writes.isEmpty then s.dropTask t.id else s.updTask t.id fun t => { t with ph := .ended, reads := [], outs := [], spares := [] }

/-- Ends a task without effect (R125). A reconstruction for a read begins again with the new erasures. -/
def State.endTask (s : State) (t : Task) : State :=
  match t.kind with
  | .destage => (s.undoDestage t t.bad false).stopTask t
  | .recon _ _ _ => s.updTask t.id fun t => { t with ph := .reading, reads := [], encN := 0, edge := s.edge }
  | .scrub => (s.stopTask t).updPool t.pool fun p => { p with scrubRedo := p.scrubRedo ++ [(t.layout, t.stripe)] }
  | .copyUnit v first =>
    { (s.stopTask t) with pools := s.pools.map fun p => match p.cur.frond with
        | some f => if f.layout = t.layout ∧ f.srcPool = p.cur.id then { p with frOffer := (v, first) :: p.frOffer } else p
        | none => p }
  | .rebuild | .catchUp _ _ _ | .copyBack _ | .sweep | .mend | .resync _ _ => s.stopTask t

/-- Does FIX tag a block that a task writes: not a snapshot's block, which has its tag, nor one that copy-back moves? -/
def State.tags (s : State) (g : Geo) (t : Task) (w : TWrite) : Bool :=
  match t.kind with
  | .destage => match s.entryOf t with
    | some e => isParity g.d w.strip || !((snapAt g.d e.snap w.off).any fun h => h.1 == w.strip) && decide (g.d.family ≠ 1)
    | none => true
  | .copyBack _ => t.bad.contains (w.strip, w.off)
  | .recon _ _ _ | .rebuild | .catchUp _ _ _ | .copyUnit _ _ | .scrub | .sweep | .mend | .resync _ _ => true

/-- The tags of an encoded task's blocks under their volume's fault mode (R178). DESIGN CHOICE: where every core faults on one, the task ends without effect and
is offered again. -/
def State.tagTask (s : State) (p : Pool) (g : Geo) (id : Nat) : State :=
  match s.task id with
  | none => s
  | some t =>
    let vol := ((p.stripeVol g.d.id t.stripe).map (·.1)).getD 0
    let (s, ok) : State × Bool := s.tagAll (s.attrs vol).fault (t.outs.filter (s.tags g t)).length
    if ok then s else s.endTask t

/-- Encodes a task whose row segments are all admitted. -/
def State.encodeTask (s : State) (p : Pool) (g : Geo) (t : Task) : State :=
  match t.kind with
  | .destage =>
    match s.entryOf t with
    | some e => (s.encodeDestage p g t e).tagTask p g t.id
    | none => s.dropTask t.id
  | .recon _ _ _ => s.updTask t.id fun t => { t with ph := .encoded, edge := s.edge }
  | .rebuild | .catchUp _ _ _ | .mend => (s.encodeRestore p g t).tagTask p g t.id
  | .copyBack m => (s.encodeCopyBack p g t m).tagTask p g t.id
  | .copyUnit _ _ => (s.encodeUnit p g t).tagTask p g t.id
  | .scrub | .sweep | .resync _ _ =>
    ((s.each t.offs fun s o => s.checkOff p g t o).updTask t.id fun t => { t with ph := .encoded, edge := s.edge }).tagTask p g t.id

/-! ### Row segments -/

/-- The clean data strips that a destage has to reconstruct at an offset. -/
def State.goneAt (s : State) (p : Pool) (g : Geo) (t : Task) (o : Nat) : List Nat :=
  match t.kind, s.entryOf t with
  | .destage, some e => if g.d.family = 1 ∨ destMethod p g t e = .full then [] else destGone g.d e.snap (p.destErased g t.stripe e ++ t.badAt o).eraseDups o
  | _, _ => []

/-- What COD and FIX do for one row segment: charges (R30, R79, R145), passes (R62), and the patterns whose decoding they take (R63). -/
structure SegWork where
  cod    : Nat
  fix    : Nat
  passes : Nat
  pats   : List (List Nat)
  deriving DecidableEq, Repr

/-- The work of a reconstruction of some strips of a pattern. -/
def reconWork (d : LayoutDesc) (er xs : List Nat) : SegWork :=
  let near := xs.all fun x => (localDecodes d er).any fun e => e.strip == x
  ⟨reconCharge d xs.length, xs.length, reconPasses d xs, if near then [] else [er]⟩

/-- The work of one row segment of a task in its phase. -/
def State.segWork (s : State) (p : Pool) (g : Geo) (t : Task) (o : Nat) : SegWork :=
  let d := g.d
  let er := (p.erased g t.stripe ++ t.badAt o).eraseDups
  let rec_ := reconWork d er er
  match t.kind with
  | .destage =>
    match s.entryOf t, t.ph with
    | some e, .recReady =>
      let gone := s.goneAt p g t o
      if gone.isEmpty then ⟨0, 0, 0, []⟩ else reconWork d (p.destErased g t.stripe e ++ t.badAt o).eraseDups gone
    | some e, _ => ⟨destCharge d (destMethod p g t e) e.snap o, (parityStrips d).length, encodePasses d, []⟩
    | none, _ => ⟨0, 0, 0, []⟩
  | .recon c _ _ => { reconWork d er [t.wanted] with cod := reconCharge d (max 1 c.length), fix := max 1 c.length }
  | .rebuild | .catchUp _ _ _ | .mend => rec_
  | .copyBack m =>
    let xs := (t.badAt o).filter (p.goesHome g t.stripe m).contains
    if xs.isEmpty then ⟨0, 0, 0, []⟩ else reconWork d er xs
  | .copyUnit _ _ => ⟨encodeCharge d, layK d, encodePasses d, []⟩
  | .scrub | .sweep | .resync _ _ =>
    let trials := match t.kind with
      | .resync _ _ => []
      | _ => scrubTrials d er (s.lostStrips p g t.stripe o) ((t.at o).filter fun e => !er.contains e.1)
    ⟨encodeCharge d + reconCharge d er.length, er.length, encodePasses d + reconPasses d er, er :: trials⟩

/-- Charges of one row segment. -/
def State.segCharge (s : State) (p : Pool) (g : Geo) (t : Task) (o : Nat) : List (BClass × Nat) :=
  let w := s.segWork p g t o
  [(.cod, w.cod), (.fix, w.fix)]

/-- Admits row segments of a task until one is deferred or all are in; then it is encoded (R30, R31), or, where a destage had to reconstruct first, goes on at the
next edge (R78). Each pass is self-checked (R64). -/
def State.admitSegs (s : State) (p : Pool) (g : Geo) (id : Nat) : Nat → State
  | 0 => s
  | fuel + 1 =>
    match s.task id with
    | none => s
    | some t =>
      match t.offs[t.encN]? with
      | none => if t.ph = .recReady then s.updTask id fun t => { t with ph := .encReady, encN := 0, edge := s.edge } else s.encodeTask p g t
      | some o =>
        match s.sched.allot (s.segCharge p g t o) with
        | none => s.allot t.kind.fg (s.segCharge p g t o) fun s => s
        | some sc =>
          let w := s.segWork p g t o
          let s := { s with sched := sc }.updTask id fun t => { t with encN := t.encN + 1 }
          let s := (s.each (List.range w.passes) fun s _ => s.selfCheck).each w.pats fun s er => s.useMatrix g.d er
          State.admitSegs s p g id fuel

/-! ### Admission of a task's next unit -/

/-- Blocks of a volume that a copy unit covers (R143). `p` holds the frond with layout `d`. -/
def State.unitSize (s : State) (p : Pool) (d : LayoutDesc) (v : BitVec 12) (first : Nat) : Nat :=
  let src := match p.cur.frond with
    | some f => (s.pool f.srcPool).getD p
    | none => p
  match src.vol v with
  | some m => min (layData d) (m.size - first)
  | none => layData d

/-- Admits what a task can do at this edge (R124): its reads, its encoding once they are in, its writes at the edge after. -/
def State.stepTask (s : State) (id : Nat) : State :=
  match s.task id with
  | none => s
  | some t =>
    match s.pool t.pool with
    | none => s
    | some p =>
      match p.layout t.layout with
      | none => s
      | some d =>
        let g := s.geo p d
        match t.ph with
        | .reading =>
          if !t.reads.isEmpty then s
          else
            let enc := fun (_ : Unit) =>
              let ph := if t.offs.any fun o => !(s.goneAt p g t o).isEmpty then TaskPh.recReady else TaskPh.encReady
              (s.updTask id fun t => { t with ph := ph }).admitSegs p g id (t.offs.length + 1)
            match s.taskReqs p g t with
            | [] => match t.kind with
              | .copyUnit v first => if t.got.length ≥ s.unitSize p d v first then enc () else s
              | _ => enc ()
            | rs => s.admitReqs t.kind.fg rs [] fun s ids => s.updTask id fun t => { t with reads := ids }
        | .recReady | .encReady => s.admitSegs p g id (t.offs.length + 1)
        | .encoded =>
          if t.edge < s.edge then
            match t.kind with
            | .recon _ _ _ => s
            | _ => s.updTask id fun t => { t with ph := .writing }
          else s
        | .writing | .ended => s

/-- Admits the member writes of a task in its writing phase, each as one unit (R30). -/
def State.stepWrites (s : State) (id : Nat) : State :=
  match s.task id with
  | none => s
  | some t =>
    match s.pool t.pool with
    | none => s
    | some p =>
      match p.layout t.layout with
      | none => s
      | some d =>
        if t.ph = .writing then
          let g := s.geo p d
          let fua := match s.entryOf t with
            | some e => e.curFua && t.kind == .destage
            | none => false
          s.each (s.writeReqs p g t fua) fun s (r, part) =>
            s.admitReqs t.kind.fg [r] [] fun s ids =>
              s.updTask id fun t => { t with writes := t.writes ++ ids, outs := t.outs.filter fun w => !part.contains w }
        else s

/-- Both. SEQ works on no task of a Lost pool (R118). -/
def State.runTask (s : State) (id : Nat) : State :=
  match s.task id with
  | none => s
  | some t =>
    if ((s.pool t.pool).map (·.cond)).getD .lost = .lost then s
    else s.marked t.injected fun s => (s.stepTask id).stepWrites id

end Sys2Proof.Machine
end

