-- ==== Sys2Proof/Machine/Members.lean ====
section
/-!
DEFINITION. Member states and what follows from their changes (R119, R125, R107, R148), media errors (R276), reservation conflicts (R281), and the
conditions of pools (R117, R118).
-/
namespace Sys2Proof.Machine

/-! ### Reconstruction for reads -/

/-- Is a volume of this module out of reach of commands (R118, R281, R339)? -/
def Pool.volOffline (p : Pool) (v : BitVec 12) : Bool := p.offline || p.yielded || p.cond == .lost || ((p.run v).map (·.offline)).getD false

/-- A block of a command is reconstructed (R121, R169). -/
def State.degrade (s : State) (cmd : Nat) (pid : BitVec 16) (lid n x o vbn : Nat) (repair : Bool) : State :=
  (s.newTask (.recon [(cmd, vbn)] none repair) pid lid n [o] [(x, o)]).setBlk cmd vbn (.recon s.seq.nextTask)

/-- Blocks lost, unrecoverable or not verified: the codes of class 0x02 (R221). -/
def codeLost : Nat := 1
/-- Unrecoverable. -/
def codeUnrec : Nat := 2
/-- Fixity failure not recovered. -/
def codeFix : Nat := 3

/-- What a read of an unrecoverable offset gets (R122): lost when only FAILED members and unreadable blocks stand in the way, and then the erased data
blocks enter the list; unrecoverable when a member may come back. -/
def State.beyond (s : State) (p : Pool) (g : Geo) (n o : Nat) (er : List Nat) : State × Nat :=
  if p.mayReturn g n er then (s, codeUnrec)
  else (s.loseStrips p g n o ((er.filter fun x => !isParity g.d x && !restorable g.d er x).map fun x => (x, 1)), codeLost)

/-! ### Ending work that uses a member -/

/-- Does a task read from or write to a pool member? A copy unit of a frond may read another pool than it writes. -/
def State.taskUses (s : State) (t : Task) (pid : BitVec 16) (i : Nat) : Bool :=
  (t.pool == pid && (t.outs.any (fun w => w.member == i) || t.spares.any (fun e => e.2.1 == i)))
    || s.mbr.cmds.any fun c => c.pool == pid && c.idx == i && (t.reads.contains c.id || t.writes.contains c.id)

/-- Work that a command of a member out of reach was for (R121, R125): its task ends without effect, the blocks of a read are reconstructed. -/
def State.workLost (s : State) (c : MCmd) : State :=
  let stop := fun (id : Nat) =>
    let s := s.updTask id fun t => { t with reads := t.reads.erase c.id, writes := t.writes.erase c.id }
    match s.task id with
    | some t => s.endTask t
    | none => s
  match c.purpose with
  | .task id _ | .unitRead id _ _ _ => stop id
  | .read cmd lid n x =>
    match (s.pool c.pool).bind fun p => (p.layout lid).map fun d => (p, d) with
    | none => s
    | some (p, d) => s.each c.offs fun s o =>
        s.degrade cmd c.pool lid n x o (blockAt d ((p.stripeVol lid n).getD (0, 0)).2 (if d.family = 1 then 0 else x) o) false
  | .meta_ _ | .bitmap _ | .cold _ | .flushCmd _ | .label _ | .resvReport _ | .preempt _ | .poolRead _ | .repair _ _ _ _ | .readBack _ _ _ _ | .rerep _
  | .joining | .labelWrite | .other => s

/-- Ends every task that uses a member, and turns reads that wait for it into degraded reads; its commands are not waited for any longer. -/
def State.leave (s : State) (pid : BitVec 16) (i : Nat) : State :=
  let gone := s.mbr.cmds.filter fun c => c.pool == pid && c.idx == i
  let ids := gone.map (·.id)
  let cut := fun (l : List Nat) => l.filter fun k => !ids.contains k
  let users := (s.seq.tasks.filter fun t => s.taskUses t pid i).map (·.id)
  let s : State := { s with
    mbr := { s.mbr with cmds := s.mbr.cmds.filter fun c => !ids.contains c.id
                        done := s.mbr.done.filter fun e => !ids.contains e.1
                        dead := s.mbr.dead ++ ids }
    seq := { s.seq with tasks := s.seq.tasks.map fun t => { t with reads := cut t.reads, writes := cut t.writes } }
    jnl := { s.jnl with coldWait := s.jnl.coldWait.map fun w => { w with wait := w.wait.lose ids } }
    ord := { s.ord with cmds := s.ord.cmds.map fun c => { c with mflush := cut c.mflush } } }
  let s := s.each users fun s id => match s.task id with
    | some t => s.endTask t
    | none => s
  let s := s.each gone fun s c => match c.purpose with
    | .read _ _ _ _ => s.workLost c
    | _ => s
  s.updPool pid fun p => { p.mapWaits (fun w => w.lose ids) with rerep := p.rerep.map fun r => if r.dst = i then { r with stale := true } else r }

/-! ### Transitions of R119 -/

/-- Does a plan run: work of R123 remains (R125)? -/
def Pool.planning (p : Pool) : Bool := p.plan || !p.catchup.isEmpty

/-- Is a member of a pool on the list of either layout of a frond, whose record stands in `p` (R148)? -/
def State.frondHas (s : State) (p : Pool) (f : FrondMeta) (pid : BitVec 16) (i : Nat) : Bool :=
  (pid == p.cur.id && p.cur.layouts.any fun d => d.id != f.layout && (p.listOf d).contains i)
    || (pid == frondHolder f && match s.pool pid with
      | some h => h.cur.layouts.any fun d => d.id == f.layout && (h.listOf d).contains i
      | none => false)

/-- Pauses a frond, with its place in metadata (R148, R152). -/
def Pool.pauseFrond (p : Pool) : Pool :=
  match p.nxt.frond with
  | some f => match f.phase with
    | .copying => p.commitFrond (.paused false)
    | .final => p.commitFrond (.paused true)
    | .paused _ | .switched => p
  | none => p

/-- An erasure is reported: a running plan is built again (R125), and a frond with the member on one of its lists pauses (R148). -/
def State.onErasure (s : State) (pid : BitVec 16) (i : Nat) : State :=
  let s := (s.updPool pid fun p => if p.planning then { p with planAt := some s.edge } else p).unhold122 pid
  s.each s.pools fun s p => match p.nxt.frond with
    | some f => s.iff (f.srcPool == p.cur.id && s.frondHas p f pid i) fun s => s.updPool p.cur.id Pool.pauseFrond
    | none => s

/-- MBR reports a pool member unreachable (R119). -/
def State.memUnreach (s : State) (pid : BitVec 16) (i : Nat) : State :=
  match s.pool pid with
  | none => s
  | some p =>
    match p.memState i with
    | .active | .standby =>
      let s := (s.leave pid i).updPool pid fun p => { p.setMem i .missing with missAt := tset p.missAt i (s.edge + 1) }
      (s.onErasure pid i).log .memberMissing 2 i pid
    | .returning =>
      let s := (s.leave pid i).updPool pid fun p =>
        { p.setMem i .missing with catchup := p.catchup.filter (fun e => e.1 ≠ i), cuLeft := (p.cuLeft.filter fun e => e.1 ≠ i)
                                   missAt := if (tget p.missAt i).isSome then p.missAt else tset p.missAt i (s.edge + 1) }
      s.onErasure pid i
    | .missing | .failed | .copyback => s

/-- A member becomes FAILED: fenced by MBR, its commands in flight ending as timed out (R277), and the plan is built (R118, R119). -/
def State.memFail (s : State) (pid : BitVec 16) (i : Nat) : State :=
  match s.pool pid with
  | none => s
  | some p =>
    if p.memState i = .failed then s
    else
      let s := s.bump .mbrTmoCntN (s.mbr.cmds.filter fun c => c.pool == pid && c.idx == i).length
      let s := (s.leave pid i).updPool pid fun p =>
        { p.setMem i .failed with missAt := tdel p.missAt i, catchup := p.catchup.filter (fun e => e.1 ≠ i), cuLeft := p.cuLeft.filter fun e => e.1 ≠ i }
      let s := (s.onErasure pid i).updPool pid fun p => { p with plan := true, planAt := some s.edge }
      s.log .memberFailed 2 i pid

/-- The stripes of a region that have a strip on a member: catch-up checks them (R120). -/
def State.regionStripes (s : State) (p : Pool) (v : BitVec 12) (r i : Nat) : List (Nat × BitVec 12 × Nat × Nat × Nat) :=
  p.cur.layouts.flatMap fun d =>
    let g := s.geo p d
    match tget (p.maps d.id) v with
    | none => []
    | some ext =>
      let svs := (List.range (256 * ext.length)).filter fun sv =>
        decide (sv * layData d < (r + 1) * p.regionBlocks) && decide (r * p.regionBlocks < (sv + 1) * layData d)
      svs.filterMap fun sv => (layoutStripe ext sv).bind fun n =>
        if (List.range (layWidth d)).any fun x => (findStrip g p.cur.remap n x).member == i then some (i, v, r, d.id, n) else none

/-- Catch-up of a member has covered its last region: it is ACTIVE (R119). -/
def State.catchUpEnd (s : State) (pid : BitVec 16) (i : Nat) : State :=
  match s.pool pid with
  | none => s
  | some p =>
    if p.memState i = .returning && !(p.catchup.any fun e => e.1 == i) then
      ((s.updPool pid fun p => { p.setMem i .active with missAt := tdel p.missAt i }).unhold122 pid).log .memberReturned 2 i pid
    else s

/-- MBR reports a MISSING member reachable: catch-up begins over every region whose bit is set (R119, R120), and the plan is built again with it (R123). -/
def State.memReach (s : State) (pid : BitVec 16) (i : Nat) : State :=
  match s.pool pid with
  | none => s
  | some p =>
    if p.memState i = .missing then
      let regs := p.bitmap.map fun b => (b.vol, b.region)
      let left := regs.flatMap fun (v, r) => s.regionStripes p v r i
      let s := s.updPool pid fun p =>
        { p.setMem i .returning with
          catchup := p.catchup ++ (regs.filter fun (v, r) => left.any fun e => e.2.1 == v && e.2.2.1 == r).map fun (v, r) => (i, v, r)
          cuLeft := p.cuLeft ++ left
          planAt := if p.planning || !left.isEmpty then some s.edge else p.planAt }
      (s.unhold122 pid).catchUpEnd pid i
    else s

/-- The pools and indices at which an image member serves. -/
def State.placesOf (s : State) (num : Nat) : List (BitVec 16 × Nat) :=
  s.pools.flatMap fun p => (List.range p.nxt.members.length).filterMap fun i =>
    if (p.nxt.members[i]?).map (·.img) = some num then some (p.cur.id, i) else none

/-- Queues a report of MBR for the next step 3 (R275). -/
def State.report (s : State) (num what : Nat) : State := { s with mbr := { s.mbr with reports := s.mbr.reports ++ [(num, what)] } }

/-- Members that DECLARE_FAILED named fail at the edge (R11, R119). -/
def State.takeDeclared (s : State) : State :=
  State.each { s with mgt := { s.mgt with declared := [] } } s.mgt.declared fun s (pid, i) => s.memFail pid i

/-- Takes in the reports of MBR: 0 unreachable, 1 reachable, 2 failed (R275, R119). -/
def State.takeReports (s : State) : State :=
  let rs := s.mbr.reports
  let s := { s with mbr := { s.mbr with reports := [] } }
  s.each rs fun s (num, what) =>
    let s := s.updImg num fun m => match what with
      | 0 => { m with unreach := some (m.unreach.getD s.edge) }
      | 1 => { m with unreach := none }
      | _ => m
    s.each (s.placesOf num) fun s (pid, i) => match what with
      | 0 => s.memUnreach pid i
      | 1 => s.memReach pid i
      | _ => s.memFail pid i

/-- The missing timer of one member (R119): a MISSING member whose timer has reached the limit becomes FAILED. -/
def State.missingExpiry (s : State) (pid : BitVec 16) (i : Nat) : State :=
  match s.pool pid with
  | none => s
  | some p =>
    match tget p.missAt i with
    | some e0 => if p.memState i = .missing && decide (s.edge ≥ e0 + s.reg .seqMissLimitTicks) then s.memFail pid i else s
    | none => s

/-- Tests every missing timer. -/
def State.missingTimers (s : State) : State :=
  s.each s.pools fun s p => s.each p.missAt fun s (i, _) => s.missingExpiry p.cur.id i

/-! ### Media errors and conflicts -/

/-- Window of media errors, in edges (R276). -/
def mediaWindow : Nat := 16777216

/-- Counts a media error of an image member; at the threshold within the window it is reported failed (R276). -/
def State.mediaErr (s : State) (num : Nat) : State :=
  let s := (s.updImg num fun m => { m with media := s.edge :: m.media.filter fun e => decide (e + mediaWindow > s.edge) }).bump .mbrMediaCntN
  match s.mbr.members.find? fun m => m.num == num with
  | some m =>
    if m.media.length ≥ s.reg .mbrMediaThrN then
      (({ s with mbr := { s.mbr with reports := s.mbr.reports ++ [(num, 2)] } } : State).log .memberMediaLimit 9 num).updImg num fun m => { m with media := [] }
    else s
  | none => s

/-- A member block failed R43 (R169): logged and counted. -/
def State.mismatch (s : State) (pid : BitVec 16) (i vbn : Nat) : State :=
  (s.log .fixMismatch 2 i pid vbn).bump .fixMismatchCntN

/-- A Reservation Conflict: the pool is treated as yielded (R281). -/
def State.resvConflict (s : State) (pid : BitVec 16) : State :=
  match s.pool pid with
  | none => s
  | some p =>
    let s := s.bump .mbrResvCntN
    if p.yielded then s else (s.updPool pid fun p => { p with yielded := true }).log .resvConflict 3 pid.toNat pid

/-! ### Journal members (R107, R108) -/

/-- How widely journal members are placed (R59): the distinct level-1 domains among them first, then the level-2 domains. A member without a declared domain
stands in one of its own, as in R56. -/
def State.jmSpread (s : State) (p : Pool) (ms : List Nat) : Nat :=
  let at_ := fun (f : Option Nat × Option Nat → Option Nat) => ((ms.map fun i => domKey (f (s.domsOf p i)) i).eraseDups).length
  4 * at_ (·.1) + at_ (·.2)

/-- Do three journal members keep R59? -/
def State.jmApart (s : State) (p : Pool) (ms : List Nat) : Bool := decide (s.jmSpread p ms ≥ 15)

/-- The first of a list with the greatest measure. -/
def firstBest {α : Type} (m : α → Nat) : List α → Option α
  | [] => none
  | a :: l => match firstBest m l with
    | some b => if m b > m a then some b else some a
    | none => some a

/-- The replacement for a journal member that left (R107): the lowest in-service member that fits R59 with the survivors; where none does, the lowest of those
that place the copies most widely. -/
def State.newJm (s : State) (p : Pool) (out : Nat) : Option Nat :=
  let keep := p.nxt.jms.filter (· ≠ out)
  let cands := (List.range p.nxt.members.length).filter fun i => p.inService i && !p.nxt.jms.contains i
  firstBest (fun i => s.jmSpread p (keep ++ [i])) cands

/-- A journal member that is FAILED has its replacement chosen in the tick after the report (R107). -/
def State.pickJms (s : State) : State :=
  s.each s.pools fun s p =>
    match p.jmPick, p.nxt.jms.find? fun i => p.memState i == .failed with
    | none, some out => match s.newJm p out with
      | some i => s.updPool p.cur.id fun p => { p with jmPick := some (i, out) }
      | none => s
    | _, _ => s

/-- Blocks that re-replication passes over (R107): the bitmap, both metadata copies, and the cold journal. -/
def copyTotal : Nat := 81920 + coldLen

/-- Step 1: the assignment chosen in the closing tick is published, and re-replication to the new journal member begins (R107). The source is a surviving
journal member in service. -/
def State.replaceJms (s : State) : State :=
  s.each s.pools fun s p =>
    match p.jmPick with
    | none => s
    | some (i, out) =>
      let src := (p.jmsUp.filter (· ≠ out)).headD out
      let jms := p.nxt.jms.map fun j => if j = out then i else j
      let s := s.updPool p.cur.id fun p =>
        { (if p.zscan.isSome then Pool.scrubChecked { p with zscan := none } else p).change fun m => { m with jms := jms } with
          jmPick := none
          rerep := some { src := src, dst := i, cursor := 0, total := copyTotal, n := 0, scan := false, stale := false, tried := [], bad := [] } }
      let s := s.log .journalMemberReplaced 2 i p.cur.id out
      s.iff (!s.jmApart p jms) fun s => s.log .domainExposed 3 p.cur.id.toNat p.cur.id

/-- Re-evaluates the exposure of each pool's journal (R108) and whether any journal member with current metadata is left (R117). -/
def State.journalExposure (s : State) : State :=
  s.each s.pools fun s p =>
    let ex := p.oneCopy
    let s := s.updPool p.cur.id fun p => { p with exposed := ex, noJournal := p.jmsCurrent.isEmpty }
    s.iff (ex && !p.exposed) fun s => s.log .journalExposed 3 p.cur.id.toNat p.cur.id

/-! ### Conditions (R117, R118) -/

/-- Derives each pool's condition and logs what its change asks for (R118). -/
def State.conditions (s : State) : State :=
  s.each s.pools fun s p =>
    let em := s.emaxOf p
    let c := p.derive em
    let reb := s.rebuildingOf p
    let wasOut := p.cond == .degraded || p.cond == .critical
    let s := s.updPool p.cur.id fun p =>
      { p with cond := c, emax := em, plan := p.plan && reb, floorLogged := p.floorLogged && c == p.cond, raiseLogged := p.raiseLogged && c == p.cond }
    let s := s.iff (c == .lost && p.cond != .lost) fun s => (s.log .poolLost 3 p.cur.id.toNat p.cur.id)
    s.iff (wasOut && c == .optimal) fun s => s.log .rebuildDone 3 p.cur.id.toNat p.cur.id

/-- Step 1: publishes each pool's row of the pool state table (R12), and a plan built in the closing tick with its record (R118, R125). Strips that were skipped and stripes that were held join it again (R123, R127). -/
def State.publishPools (s : State) : State :=
  s.each s.pools fun s p =>
    let pub : PubPool := { cond := p.cond, emax := p.emax, rebuilding := s.rebuildingOf p, copyback := p.nxt.members.any fun m => m.state == .copyback
                           reshaping := p.nxt.frond.isSome, members := p.nxt.members.map (·.state), layouts := p.cur.layouts.map (·.id)
                           cursor := p.frCur, lost := p.nxt.lost
                           holes := (p.nxt.members.filter fun m => m.img == holeImg).length
                           vols := p.vols.map fun r => (r.id, ⟨r.gen, r.exhausted, p.volOffline r.id, r.power⟩) }
    let started := p.pub.rebuilding
    let s := s.updPool p.cur.id fun p => { p with pub := pub, planAt := none }
    match p.planAt with
    | some _ => (s.updPool p.cur.id fun p => { p with skipped := [], held := [] }).log (if started then .rebuildReplan else .rebuildStart) 3 p.cur.id.toNat p.cur.id
    | none => s

end Sys2Proof.Machine
end

