-- ==== Sys2Proof/Machine/Outcomes.lean ====
section
/-!
DEFINITION. The outcomes of member commands as step 3 takes them in (R273 to R275, R280), the completion of tasks, metadata commits (R105, R61, R150,
R151), the dirty-region bitmap (R109), and re-replication (R107).
-/
namespace Sys2Proof.Machine

/-! ### Blocks that member reads bring -/

/-- What LAY expects of the blocks of a read of a strip. -/
def Pool.expectRead (p : Pool) (g : Geo) (n x o row : Nat) : Expect := p.expectAt g n x o row

/-- Sorts the blocks of a read of a strip: each offset with its block when it passes R43. A read that failed on the member brings none. -/
def sortBlocks (p : Pool) (g : Geo) (n x : Nat) (c : MCmd) (bs : List Block) : List (Nat × Option Block) :=
  let row := (c.lba - 1048576) / layBs g.d
  (List.range c.offs.length).map fun i =>
    let o := c.offs.getD i 0
    (o, (bs[i]?).bind fun b => if blockOk p.secret (p.expectRead g n x o row) b then some b else none)

/-- A read of a task has returned. -/
def State.taskRead (s : State) (c : MCmd) (id x : Nat) (bs : List Block) : State :=
  match s.task id, s.pool c.pool with
  | some t, some p =>
    match p.layout t.layout with
    | none => s
    | some d =>
      let g := s.geo p d
      let got := sortBlocks p g t.stripe x c bs
      let bad := got.filterMap fun (o, b) => if b.isNone then some o else none
      let s := s.each bad fun s o => s.mismatch c.pool c.idx (p.expect g t.stripe x o).vbn
      let mark := s.mgt.injNow
      s.updTask id fun t => { t with injected := t.injected || mark, reads := t.reads.erase c.id, got := t.got ++ got.filterMap fun (o, b) => b.map fun b => (x, o, b),
                                     bad := t.bad ++ bad.map fun o => (x, o) }
  | _, _ => s

/-- A read for a READ or VERIFY has returned: verified blocks are ready and fill the clean cache, others are reconstructed (R169). -/
def State.cmdRead (s : State) (c : MCmd) (cmd lid n x : Nat) (bs : List Block) : State :=
  match s.cmd cmd, s.pool c.pool with
  | some k, some p =>
    match p.layout lid with
    | none => s
    | some d =>
      let g := s.geo p d
      s.each (sortBlocks p g n x c bs) fun s (o, b) =>
        let vbn := blockAt d ((p.stripeVol lid n).getD (0, 0)).2 (if d.family = 1 then 0 else x) o
        match b with
        | some b => (s.setBlk cmd vbn (.ready b)).fillFor k c.pool vbn b
        | none => (s.mismatch c.pool c.idx vbn).degrade cmd c.pool lid n x o vbn true
  | _, _ => s

/-- The source pool of a frond whose layout a task writes. -/
def State.frondSrc (s : State) (lid : Nat) : Option Pool :=
  s.pools.find? fun p => match p.cur.frond with
    | some f => f.layout == lid && f.srcPool == p.cur.id
    | none => false

/-- A source block of a copy unit has come: it stands at its place under the frond (R145). -/
def State.unitPut (s : State) (id : Nat) (vbn : Nat) (b : Block) : State :=
  match s.task id with
  | none => s
  | some t =>
    match (s.pool t.pool).bind fun p => p.layout t.layout with
    | none => s
    | some fd =>
      let (_, c, o) := mapBlock fd vbn
      s.updTask id fun t => { t with got := t.got ++ [(c, o, b)] }

/-- A read for a copy unit has returned. -/
def State.unitRead (s : State) (c : MCmd) (id lid n x : Nat) (bs : List Block) : State :=
  match s.task id, s.pool c.pool with
  | some _, some p =>
    match p.layout lid with
    | none => s
    | some d =>
      let g := s.geo p d
      let s := s.updTask id fun t => { t with reads := t.reads.erase c.id }
      s.each (sortBlocks p g n x c bs) fun s (o, b) =>
        match b with
        | some b => s.unitPut id (blockAt d ((p.stripeVol lid n).getD (0, 0)).2 (if d.family = 1 then 0 else x) o) b
        | none => (s.mismatch c.pool c.idx (p.expect g n x o).vbn).newTask (.recon [] (some (id, x, o)) true) c.pool lid n [o] [(x, o)]
  | _, _ => s

/-! ### Repair (R170) -/

/-- The rewrite of a repaired block is acknowledged: it is read back. -/
def State.repairAcked (s : State) (c : MCmd) (lid n x : Nat) (second : Bool) : State :=
  (s.sendNow [{ pool := c.pool, idx := c.idx, op := .read, lba := c.lba, offs := c.offs, count := 1, blks := [], purpose := .readBack lid n x second,
                fg := false }]).1

/-- A rewrite or its read-back has failed: the block is reconstructed and rewritten once more, and then FIX_REWRITE_FAILED is logged and the member has a media
error (R170); a Write Fault is one by itself (R273), so that `counts` says whether this adds one. -/
def State.repairFailed (s : State) (c : MCmd) (lid n x o : Nat) (second counts : Bool) : State :=
  match (s.pool c.pool).bind fun p => (p.layout lid).map fun d => (p, d) with
  | none => s
  | some (p, d) =>
    if second then (s.log .fixRewriteFailed 2 c.idx c.pool (p.expect (s.geo p d) n x o).vbn).iff counts fun s => s.mediaErr c.img
    else s.newTask (.recon [] none true) c.pool lid n [o] [(x, o)]

/-- A read-back has returned: verified it logs FIX_REPAIRED. One that is not is a mismatch of a member's block. -/
def State.readBackDone (s : State) (c : MCmd) (lid n x : Nat) (second : Bool) (bs : List Block) : State :=
  match s.pool c.pool with
  | none => s
  | some p =>
    match p.layout lid with
    | none => s
    | some d =>
      let o := c.offs.headD 0
      let vbn := (p.expect (s.geo p d) n x o).vbn
      if (sortBlocks p (s.geo p d) n x c bs).all (fun e => e.2.isSome) then (s.log .fixRepaired 2 c.idx c.pool vbn).bump .fixRepairCntN
      else (s.mismatch c.pool c.idx vbn).repairFailed c lid n x o second true

/-! ### Acknowledgements of journal-member writes -/

/-- A command ends, with or without success: nothing waits for it any longer. -/
def State.unwait (s : State) (pid : BitVec 16) (id : Nat) (ok : Bool) : State :=
  let s := s.updPool pid fun p => p.mapWaits fun w => w.done id ok
  { s with jnl := { s.jnl with coldWait := s.jnl.coldWait.map fun w => { w with wait := w.wait.done id ok } }
           ord := { s.ord with cmds := s.ord.cmds.map fun c => { c with mflush := c.mflush.erase id } }
           rop := { s.rop with takeovers := s.rop.takeovers.map fun t => { t with waits := t.waits.erase id } } }

/-- A bit of the bitmap whose writes have ended (R108, R109): set, clear, or not written. A set that failed leaves the bit clear, or to be written again when
its place has changed; a clear that failed leaves it set. -/
def Pool.bitEnd (p : Pool) (b : BmBit) : Option BmBit :=
  match b.st with
  | .setting w =>
    if w.targets.isEmpty || !w.waits.isEmpty then some b
    else if p.jmOk w then some { b with st := .isSet, was := true }
    else if b.was then some { b with st := .setting JWait.empty }
    else none
  | .clearing w =>
    if !w.waits.isEmpty then some b
    else if p.jmOk w then none
    else some { b with st := .isSet }
  | .isSet => some b

/-- The bits of every pool whose writes have ended. -/
def State.bitmapDone (s : State) : State := { s with pools := s.pools.map fun p => { p with bitmap := p.bitmap.filterMap p.bitEnd } }

/-! ### Copying and scrubbing a metadata zone (R107, R134) -/

/-- The copy of a pool that is under way. -/
def Pool.zcopy (p : Pool) (scan : Bool) : Option Rerep := if scan then p.zscan else p.rerep

/-- Puts it. -/
def Pool.setZcopy (p : Pool) (scan : Bool) (r : Option Rerep) : Pool := if scan then { p with zscan := r } else { p with rerep := r }

/-- A step is made again from the place of its cursor. -/
def Rerep.again (r : Rerep) : Rerep := { r with n := 0, stale := false }

/-- A step has come to its end: the cursor moves past its blocks. -/
def Rerep.past (r : Rerep) (k : Nat) : Rerep := { r with cursor := r.cursor + k, n := 0, stale := false, tried := [], bad := [] }

/-- What was read has come: blocks that pass R43 are written to the replacement, and to the members whose copy of the block failed. The first that fails is a
media error (R43), and the next source is read for it. DESIGN CHOICE: no rule says how a failing block of a metadata zone is repaired. -/
def State.zoneRead (s : State) (p : Pool) (r : Rerep) (scan : Bool) (c : MCmd) (bs : List Block) : State :=
  let good := ((List.range bs.length).takeWhile fun i => match bs[i]? with
    | some b => zoneOk p.secret (c.lba + i) b
    | none => false).length
  let put := fun (s : State) (r : Rerep) => s.updPool p.cur.id fun p => p.setZcopy scan (some r)
  if r.stale then put s r.again
  else if good = 0 then
    (put s { r.again with tried := r.tried ++ [c.idx], bad := r.bad ++ [(c.idx, c.lba)] }).mismatch p.cur.id c.idx c.lba
  else
    let dsts := ((if scan then [] else [r.dst]) ++ r.bad.map (·.1)).eraseDups
    let s := s.iff (scan && !r.bad.isEmpty) fun s => s.updPool p.cur.id fun p =>
      { p with scrubRun := p.scrubRun.map fun sc => { sc with repaired := sc.repaired + r.bad.length } }
    if dsts.isEmpty then put s (r.past good)
    else
      let part := bs.take good
      let rq := fun (i : Nat) => ({ pool := p.cur.id, idx := i, op := .write true, lba := c.lba, offs := [], count := good, blks := part, purpose := .rerep scan,
                                    fg := false } : MReq)
      (put (s.sendNow (dsts.map rq)).1 { r with n := good })

/-- A command of a copy has ended. -/
def State.rerepDone (s : State) (c : MCmd) (scan ok : Bool) (bs : List Block) : State :=
  match s.pool c.pool with
  | none => s
  | some p =>
    match p.zcopy scan with
    | none => s
    | some r =>
      match c.op with
      | .read => s.zoneRead p r scan c bs
      | .write _ | .flush | .report | .acquire | .register | .unregister | .admin =>
        let r' := if !ok && (c.idx == r.dst) then { r.again with stale := true } else if r.stale then { r with stale := true } else r
        let more := s.mbr.cmds.any fun x => x.pool == c.pool && x.purpose == .rerep scan
        s.updPool c.pool fun p => p.setZcopy scan (some (if more then r' else if r'.stale then r'.again else r'.past r'.n))

/-! ### Admission (R269, R271) -/

/-- RDMA queue pairs open: an admin and an I/O pair for each working path; the I/O pairs of a FAILED member are deleted (R269, R277). -/
def State.qpUsed (s : State) : Nat :=
  ((s.mbr.members.filter (·.admitted)).map fun m =>
    let up := (m.paths.filter (·.up)).length
    if (s.placesOf m.num).any fun (pid, i) => (s.pool pid).bind (·.pub.members[i]?) == some MemSt.failed then up else 2 * up).foldl (· + ·) 0

/-- RDMA queue pairs that the module holds at most (R269). -/
def qpMax : Nat := 65536

/-- Line rate of a sub-port of a port in Gbit/s (R264). -/
def State.lineRate (s : State) (port : Nat) : Nat := 800 / 2 ^ ((s.regs.get .mbrSplitMode).toNat / 4 ^ port % 4)

/-- Blocks of the largest strip in use; before any pool is assembled, of the smallest strip that a layout can have (R51, R271). -/
def State.largestStrip (s : State) : Nat := ((s.pools.flatMap fun p => p.cur.layouts.map layBs).foldl max 4)

/-- The first failing check of R271 but for the label's, which POOL_ASSEMBLY and the pool commands make. -/
def State.nsCause (s : State) (n : NsInfo) : Option Nat :=
  if !n.reachable then some 1
  else if !n.formatOk then some 2
  else if !n.piOk then some 3
  else if !n.resvOk then some 4
  else if n.mdts < 65536 then some 5
  else if n.lbas < 1048576 + s.largestStrip then some 6
  else none

/-- Refuses a namespace (R271). -/
def State.refuseMember (s : State) (num cause : Nat) : State :=
  ((s.updImg num fun m => { m with checked := true, admitted := false, refused := some cause }).log .memberRefused 9 num 0 cause).bump .mbrRefusedCntN

/-- Opens the paths of a member that is admitted: one over each member port, working where the port's link is up (R269); a connection past the limit is
not opened, and that is logged once. -/
def State.openPaths (s : State) (num : Nat) : State :=
  s.each s.memberPorts fun s port =>
    if s.qpUsed + 2 > qpMax then
      s.iff (!s.mbr.qpLimitLogged) fun s => State.log { s with mbr := { s.mbr with qpLimitLogged := true } } .mbrQpLimit
    else
      s.updImg num fun m =>
        if m.paths.any fun x => x.port == port then m
        else { m with paths := m.paths ++ [⟨port, s.linkUp port, s.edge, s.lineRate port, 0, none, none, none⟩] }

/-- Does the label block that was read pass the checks of R43 that need no key? The pool's secret is not at hand before POOL_ASSEMBLY. -/
def labelFoot (n : NsInfo) : Bool :=
  match n.labelBlk with
  | some b => zoneFoot 0 b
  | none => false

/-- An admission's Identify and label read have ended: the namespace is admitted or refused. -/
def State.admitEnd (s : State) (num : Nat) (info : Option NsInfo) : State :=
  match info with
  | none => s.refuseMember num 1
  | some n =>
    match s.nsCause n with
    | some cause => s.refuseMember num cause
    | none =>
      let s := s.updImg num fun m =>
        { m with checked := true, admitted := true, refused := none, lbas := n.lbas, mdts := min n.mdts 1048576, blank := n.labelBlank
                 label := if !n.labelBlank && labelFoot n then some (n.labelPool, n.labelIndex) else none }
      s.openPaths num

/-- What a completion reports of a namespace. -/
def payInfo (pl : MPayload) : Option NsInfo :=
  match pl with
  | .ns n => some n
  | .none | .blocks _ | .resv _ | .zone _ => none

/-! ### One completion (R273) -/

/-- A member command has ended without success for its blocks: each block that it covers is a media error (R273). -/
def State.memReadFailed (s : State) (c : MCmd) : State :=
  match c.purpose with
  | .task id x => s.taskRead c id x []
  | .read cmd lid n x => s.cmdRead c cmd lid n x []
  | .unitRead id lid n x => s.unitRead c id lid n x []
  | .readBack lid n x second => s.readBackDone c lid n x second []
  | .rerep scan => s.rerepDone c scan false []
  | .meta_ _ | .bitmap _ | .cold _ | .flushCmd _ | .label _ | .resvReport _ | .preempt _ | .poolRead _ | .repair _ _ _ _ | .joining
  | .labelWrite | .other => s.unwait c.pool c.id false

/-- Does a command write? -/
def MOp.isWrite (o : MOp) : Bool :=
  match o with
  | .write _ => true
  | .read | .flush | .report | .acquire | .register | .unregister | .admin => false

/-- A restored strip stands (R124, R441): a remap entry is committed for one in a spare slot, one back in its own slot is restored (R130). It counts. DESIGN CHOICE
(R139): a strip of a catch-up in which no block differed is none that was restored. -/
def State.stripDone (s : State) (t : Task) (x : Nat) : State :=
  let s := s.updPool t.pool fun p => p.change fun m =>
    match t.spares.find? fun e => e.1 == x with
    | some (_, mem, row) =>
      { m with remap := (m.remap.filter fun e => !(e.layout == t.layout && e.stripe == t.stripe && e.strip == x)) ++ [⟨t.layout, t.stripe, x, mem, row⟩] }
    | none => { m with unrest := m.unrest.filter (· ≠ (t.layout, t.stripe, x)) }
  s.bump .seqRebuiltCntN

/-- A write of a task is acknowledged: its strip is when every write of it is and none has failed (R124, R441). -/
def State.stripAcked (s : State) (id x : Nat) : State :=
  match s.task id with
  | none => s
  | some t =>
    let more := t.outs.any (fun w => w.strip == x) || s.mbr.cmds.any fun c => c.op.isWrite && c.purpose == .task id x
    if more || t.ph == .ended || t.failed.contains x || t.okStrips.contains x then s
    else
      let s := s.updTask id fun t => { t with okStrips := t.okStrips ++ [x] }
      match t.kind with
      | .rebuild | .catchUp _ _ _ => s.stripDone t x
      | .destage | .recon _ _ _ | .copyBack _ | .copyUnit _ _ | .scrub | .sweep | .mend | .resync _ _ => s

/-- A write of a task has failed: the strip is erased for the task (R273, R441), and a spare slot is not chosen again. -/
def State.memWriteFailed (s : State) (c : MCmd) : State :=
  match c.purpose with
  | .task id x =>
    match s.task id with
    | none => s
    | some t =>
      let spares := t.spares.filter fun e => e.1 == x
      let s := s.updPool c.pool fun p => { p with badSlots := p.badSlots ++ spares.map fun e => (e.2.1, e.2.2) }
      let s := match t.kind, s.entryOf t with
        | .destage, some _ => { s with cch := s.cch.updEntry t.pool t.layout t.stripe fun e => { e with skip := x :: e.skip } }
        | _, _ => s
      s.updTask id fun t => { t with writes := t.writes.erase c.id, failed := x :: t.failed, outs := t.outs.filter (fun w => w.strip ≠ x)
                                     spares := t.spares.filter fun e => e.1 ≠ x }
  | .repair lid n x second => s.repairFailed c lid n x (c.offs.headD 0) second false
  | .rerep scan => s.rerepDone c scan false []
  | .meta_ _ | .bitmap _ | .cold _ | .flushCmd _ | .label _ | .resvReport _ | .preempt _ | .poolRead _ | .joining | .labelWrite | .other
  | .read _ _ _ _ | .unitRead _ _ _ _ | .readBack _ _ _ _ => s.unwait c.pool c.id false

/-- The blocks of a payload. -/
def payBlocks (pl : MPayload) : List Block :=
  match pl with
  | .blocks bs => bs
  | .none | .ns _ | .resv _ | .zone _ => []

/-- Does a label read name this pool and index and pass R43 (R275)? -/
def labelGood (secret : BitVec 256) (pl : MPayload) (pid : BitVec 16) (i : Nat) : Bool :=
  match pl with
  | .ns n => !n.labelBlank && n.labelPool == pid && n.labelIndex == i && (match n.labelBlk with
    | some b => zoneOk secret 0 b
    | none => false)
  | .none | .blocks _ | .resv _ | .zone _ => false

/-- A label read has succeeded: an unreachable member is reported reachable, a member that spins up is ready (R275, R283). -/
def State.labelDone (s : State) (c : MCmd) (pl : MPayload) : State :=
  match s.mbr.members.find? fun m => m.num == c.img with
  | none => s
  | some m =>
    let places := s.placesOf c.img
    if places.any fun (pid, i) => labelGood (((s.pool pid).map (·.secret)).getD 0) pl pid i then
      let s := s.updImg c.img fun m => { m with ready := true, spinning := none }
      s.iff m.unreach.isSome fun s => s.report c.img 1
    else s

/-- The module's reservation key (R278): rope id, rope address, epoch. -/
def State.resvKey (s : State) : BitVec 64 := w64 (s.tru.bootCnt % 2 ^ 20 + 2 ^ 20 * s.reg .ropAddrSelf + 2 ^ 32 * s.reg .ropIdRope)

/-- Blocks that failed R43 and that a task has rewritten in place are read back (R77, R112, R126, R135, R170); not those that a destage's snapshot or its parity
replaces (R77), nor those that go to a spare slot. -/
def State.readBacks (s : State) (c : MCmd) (id x : Nat) : State :=
  match s.task id with
  | none => s
  | some t =>
    let d := (s.pool c.pool).bind fun p => p.layout t.layout
    let clean := fun (o : Nat) => match d, s.entryOf t with
      | some d, some e => !isParity d x && !((snapAt d e.snap o).any fun h => h.1 == x)
      | _, _ => false
    let mended := c.offs.filter fun o => t.bad.contains (x, o)
    let fixes := match t.kind with
      | .destage => mended.filter clean
      | .scrub | .sweep | .mend | .resync _ _ => mended
      | .rebuild | .catchUp _ _ _ => if t.spares.any fun e => e.1 == x then [] else mended
      | .recon _ _ _ | .copyBack _ | .copyUnit _ _ => []
    s.each fixes fun s o =>
      (s.sendNow [{ pool := c.pool, idx := c.idx, op := .read, lba := c.lba + (o - c.offs.headD 0), offs := [o], count := 1, blks := []
                    purpose := .readBack t.layout t.stripe x false, fg := false }]).1

/-- Blocks of a metadata copy join those of the same copy that other journal members gave (R304). -/
def addCopy (l : List MetaCopy) (c : MetaCopy) : List MetaCopy :=
  if l.any fun x => x.content == c.content then updIf l (fun x => x.content == c.content) fun x => { x with blks := x.blks ++ c.blks } else l ++ [c]

/-- Blocks of the bitmap join those that the same journal member gave. -/
def addMap (l : List (Nat × List (Nat × Block))) (i : Nat) (bs : List (Nat × Block)) : List (Nat × List (Nat × Block)) :=
  tset l i ((tget l i).getD [] ++ bs)

/-- A member command has succeeded. -/
def State.memOk (s : State) (c : MCmd) (pl : MPayload) : State :=
  let bs := payBlocks pl
  match c.purpose with
  | .task id x =>
    match c.op with
    | .read => s.taskRead c id x bs
    | .write _ | .flush | .report | .acquire | .register | .unregister | .admin =>
      ((s.readBacks c id x).updTask id fun t => { t with writes := t.writes.erase c.id }).stripAcked id x
  | .read cmd lid n x => s.cmdRead c cmd lid n x bs
  | .unitRead id lid n x => s.unitRead c id lid n x bs
  | .meta_ _ | .bitmap _ | .cold _ => s.unwait c.pool c.id true
  | .flushCmd cmd => s.updCmd cmd fun k => { k with mflush := k.mflush.erase c.id }
  | .label _ => s.labelDone c pl
  | .repair lid n x second => s.repairAcked c lid n x second
  | .readBack lid n x second => s.readBackDone c lid n x second bs
  | .rerep scan => s.rerepDone c scan true bs
  | .resvReport pid =>
    let holder := match pl with
      | .resv k => k
      | .none | .blocks _ | .ns _ | .zone _ => none
    let s : State := { s with rop := { s.rop with checkIds := s.rop.checkIds.filter fun e => e.1 ≠ c.id } }
    if holder = some s.resvKey then { s with rop := { s.rop with checkOk := pid :: s.rop.checkOk } }
    else if holder.isSome then { s with pools := s.pools.map fun p => { p with yielded := true } }
    else s
  | .preempt pid => { s with rop := { s.rop with takeovers := updIf s.rop.takeovers (fun t => t.pool == pid) fun t =>
      { t with acked := c.idx :: t.acked, waits := t.waits.erase c.id } } }
  | .poolRead pid =>
    let took := fun (t : Takeover) => match pl with
      | .zone cs => { t with waits := t.waits.erase c.id, got := cs.foldl addCopy t.got }
      | .blocks bs => { t with waits := t.waits.erase c.id, maps := addMap t.maps c.idx ((List.range bs.length).filterMap fun k => (bs[k]?).map fun b => (c.lba - mapBase + k, b)) }
      | .none | .ns _ | .resv _ => { t with waits := t.waits.erase c.id }
    { s with rop := { s.rop with takeovers := updIf s.rop.takeovers (fun t => t.pool == pid) took } }
  | .joining => s.admitEnd c.img (payInfo pl)
  | .labelWrite | .other => s

/-- Reissues a member command on the member's next port in ascending index, ahead of other work and always admitted (R274). -/
def State.reissue (s : State) (c : MCmd) (count : Bool) : State :=
  match s.mbr.members.find? fun m => m.num == c.img with
  | none => s
  | some m =>
    let ps := s.upPorts m
    match (ps.find? fun q => decide (q > c.port)).or ps.head? with
    | none => { s with mbr := { s.mbr with cmds := s.mbr.cmds ++ [{ c with edge := s.edge, tries := c.tries + (if count then 1 else 0) }] } }
    | some port =>
      let r : MReq := { pool := c.pool, idx := c.idx, op := c.op, lba := c.lba, offs := c.offs, count := c.count, blks := c.blks, purpose := c.purpose, fg := c.fg }
      let c' := { c with port := port, edge := s.edge, tries := c.tries + (if count then 1 else 0) }
      let s := s.chargeAlways (reqCharges port r)
      State.emit { s with mbr := { s.mbr with cmds := s.mbr.cmds ++ [c'] } } (.memberCmd c')

/-- A command answered Namespace Not Ready is reissued after the member's retry delay (R273), whose length is a free value. -/
def State.delay (s : State) (c : MCmd) : State :=
  { s with freeCtr := s.freeCtr + 1, mbr := { s.mbr with cmds := s.mbr.cmds ++ [{ c with due := some (s.edge + Config.retryDelay s.freeCtr) }] } }

/-- A copy's command has ended without an answer: its step is made again. -/
def State.copyGone (s : State) (c : MCmd) : State :=
  match c.purpose with
  | .rerep scan => s.rerepDone c scan false []
  | _ => s

/-- A member command has run out of tries: the member is reported unreachable (R275) and the command's work ends as on a lost member. -/
def State.cmdGone (s : State) (c : MCmd) : State :=
  if c.purpose = .joining then s.admitEnd c.img none else (((s.report c.img 0).unwait c.pool c.id false).workLost c).copyGone c

/-- The stripe that a strip read or write is of, with the blocks that its task has found bad. -/
def State.stripOf (s : State) (c : MCmd) : Option (Pool × LayoutDesc × Nat × List (Nat × Nat)) :=
  let at_ := fun (lid n : Nat) (bad : List (Nat × Nat)) => (s.pool c.pool).bind fun p => (p.layout lid).map fun d => (p, d, n, bad)
  match c.purpose with
  | .task id _ => (s.task id).bind fun t => at_ t.layout t.stripe t.bad
  | .read _ lid n _ | .unitRead _ lid n _ | .repair lid n _ _ | .readBack lid n _ _ => at_ lid n []
  | .meta_ _ | .bitmap _ | .cold _ | .flushCmd _ | .label _ | .resvReport _ | .preempt _ | .poolRead _ | .rerep _ | .joining | .labelWrite
  | .other => none

/-- May an injection take an item at a block offset? Not where the offset already carries t erasures (R403). -/
def State.mayInject (s : State) (c : MCmd) (o : Nat) : Bool :=
  match s.stripOf c with
  | none => true
  | some (p, d, n, bad) =>
    let er := (p.erased (s.geo p d) n ++ (bad.filter fun e => e.2 == o).map (·.1)).eraseDups
    decide (er.length < layTol d)

/-- A block as a detector's injection alters it (R402): 0x06 its guard, 0x07 its footer CRC, 0x08 its reference tag, 0x09 a data bit in FIX's stream. -/
def alterBlk (det : Nat) (b : Block) : Block :=
  if det = 0x06 then { b with foot := { b.foot with guard := ~~~b.foot.guard } }
  else if det = 0x07 then { b with foot := { b.foot with crc := ~~~b.foot.crc } }
  else if det = 0x08 then { b with foot := { b.foot with refTag := b.foot.refTag + 1 } }
  else { b with data := b.data ^^^ 1 }

/-- The blocks of a strip read pass MBR and FIX: injections may alter them, and the tag check runs under the volume's fault mode (R178, R402). A block
whose check persistently faults is treated as failing verification, and so is one with a word that the word code flags (R14, R45: the error travels to FIX,
which consumes the block). The flag says that some block is marked. -/
def State.receive (s : State) (c : MCmd) (bs : List Block) : State × List Block × Bool :=
  if !(s.mgt.inj.any (·.armed)) then (s, bs, false)
  else
    match s.stripOf c with
    | none => (s, bs, false)
    | some (p, d, n, _) =>
      let vol := ((p.stripeVol d.id n).map fun e => e.1.toNat).getD 0
      let attrs := [(2, c.idx), (4, vol)]
      let fault := (s.attrs (BitVec.ofNat 12 vol)).fault
      (bs.zip c.offs).foldl (fun (s, acc, hit) (b, o) =>
        let (s, w) : State × Option InjSlot := if s.mayInject c o then s.inject [0x01, 0x02, 0x03, 0x06, 0x07, 0x08, 0x09] attrs else (s, none)
        match w with
        | some x =>
          if x.det ≤ 3 then
            let (s, ok) : State × Bool := s.decodeWord 9 vol x.det b.data
            (s, acc ++ [if ok then b else alterBlk 0x09 b], hit || !ok)
          else (s, acc ++ [alterBlk x.det b], true)
        | none =>
          let (s, ok) : State × Bool := s.tagCheck fault
          (s, acc ++ [if ok then b else alterBlk 0x09 b], hit || !ok)) (s, [], false)

/-- One completion as step 3 takes it in (R273). The latency of a foreground read is that from its first admission, whatever it came to (R132). -/
def State.memDone (s : State) (id : Nat) (st : MStatus) (pl : MPayload) : State :=
  match s.mbr.cmds.find? fun c => c.id == id with
  | none => s
  | some c =>
    let s : State := { s with mbr := { s.mbr with cmds := s.mbr.cmds.filter fun c => c.id ≠ id } }
    let s := s.iff (c.fg && c.op == .read && st != .notReady false) fun s => { s with seq := { s.seq with lats := (s.edge, s.edge - c.born) :: s.seq.lats } }
    if c.purpose = .joining ∧ st ≠ .success then s.admitEnd c.img none
    else match st with
    | .success =>
      match pl with
      | .blocks bs =>
        let (s, bs, hit) := s.receive c bs
        s.marked (hit || c.inj) fun s => s.memOk c (.blocks bs)
      | .none | .ns _ | .resv _ | .zone _ => s.marked c.inj fun s => s.memOk c pl
    | .unrecoveredRead | .guardErr | .appTagErr | .refTagErr => s.marked c.inj fun s => (s.memReadFailed c).mediaErr c.img
    | .writeFault => s.marked c.inj fun s => (s.memWriteFailed c).mediaErr c.img
    | .notReady false => s.marked c.inj fun s => if c.tries < s.reg .mbrRetryN then s.delay c else s.cmdGone c
    | .notReady true | .other => (((s.report c.img 2).unwait c.pool id false).workLost c).copyGone c
    | .resvConflict => (((s.resvConflict c.pool).unwait c.pool id false).workLost c).copyGone c

/-- Takes in every completion that arrived in the closing tick. -/
def State.takeDone (s : State) : State :=
  let l := s.mbr.done
  let s := { s with mbr := { s.mbr with done := [] } }
  s.each l fun s (id, st, pl) => s.memDone id st pl

/-- A reissued command has a new identifier (R274): everything that waits for the old one waits for the new one. -/
def State.renameId (s : State) (old new : Nat) : State :=
  let sw := fun (l : List Nat) => l.map fun k => if k = old then new else k
  { s with
    seq := { s.seq with tasks := s.seq.tasks.map fun t => { t with reads := sw t.reads, writes := sw t.writes } }
    pools := s.pools.map (Pool.mapWaits fun w => w.rename old new)
    jnl := { s.jnl with coldWait := s.jnl.coldWait.map fun w => { w with wait := w.wait.rename old new } }
    ord := { s.ord with cmds := s.ord.cmds.map fun c => { c with mflush := sw c.mflush } }
    rop := { s.rop with checkIds := s.rop.checkIds.map fun e => (if e.1 = old then new else e.1, e.2)
                        takeovers := s.rop.takeovers.map fun t => { t with waits := sw t.waits } } }

/-- Does a command's timer stand still: its member spins up (R283), or has no working path, when its commands wait for one with no retry counted (R274)?
A write in FAIL_STOP ends at its timeout in any case. -/
def State.timerStands (s : State) (c : MCmd) : Bool :=
  match s.mbr.members.find? fun m => m.num == c.img with
  | none => false
  | some m => m.spinning.isSome || (m.admitted && !(m.paths.any (·.up)) && !(s.phase == .failStop && c.op.isWrite))

/-- The timeout of one member command (R274), or the end of its retry delay (R273): Abort, then the reissue, or the report of the member; in FAIL_STOP a write ends at its first timeout. -/
def State.memTimeout (s : State) (id : Nat) : State :=
  match s.mbr.cmds.find? fun c => c.id == id with
  | none => s
  | some c =>
    if c.due.isSome then
      if (c.due.map fun e => decide (s.edge ≥ e)) = some true then
        State.reissue { s with mbr := { s.mbr with cmds := s.mbr.cmds.filter fun x => x.id ≠ id } } { c with due := none } true
      else s
    else if s.edge < c.edge + s.reg .mbrTmoTicks ∨ s.timerStands c then s
    else
      let s : State := { s with mbr := { s.mbr with cmds := s.mbr.cmds.filter (fun c => c.id ≠ id), dead := s.mbr.dead ++ [id] } }
      let s := (s.emit (.memberAbort id)).bump .mbrTmoCntN
      s.marked c.inj fun s =>
      if s.phase == .failStop && c.op.isWrite then s
      else if c.purpose == .resvReport c.pool then s
      else if c.purpose == .preempt c.pool then s.cmdGone c
      else if c.tries < s.reg .mbrRetryN then
        (State.renameId { s with mbr := { s.mbr with nextId := s.mbr.nextId + 1 } } id s.mbr.nextId).reissue { c with id := s.mbr.nextId } true
      else s.cmdGone c

/-- Tests every member command's timer; FAILED members' commands are gone already (R274, R277). -/
def State.memTimers (s : State) : State :=
  s.each (s.mbr.cmds.map (·.id)) fun s id => s.memTimeout id

end Sys2Proof.Machine
end

