-- ==== Sys2Proof/Machine/TaskDone.lean ====
section
/-!
DEFINITION. What the completion of a task changes (R76, R90, R124, R441, R120, R130, R145, R135, R149, R112), taken in at step 3.
-/
namespace Sys2Proof.Machine

/-! ### Retiring a destage (R76) -/

/-- A slot leaves the snapshot of a destage that has retired: freed when no other entry records it (R81), its records nearer to retirement (R90). -/
def State.retireSlot (s : State) (i : Nat) : State :=
  let s := s.updSlot i fun sl => { sl with holds := sl.holds - 1, entries := sl.entries - 1 }
  match s.cch.slot i with
  | none => s
  | some sl =>
    if sl.st = .dirty ∧ sl.entries = 0 then s.freeSlot i true else s

/-- Takes the blocks of a bitmap out of an entry that is discarded (R150, R153); a slot recorded nowhere else is freed. -/
def State.unrecord (s : State) (l : List (Nat × Nat)) : State :=
  s.each l fun s (_, i) =>
    let s := s.updSlot i fun sl => { sl with entries := sl.entries - 1 }
    match s.cch.slot i with
    | some sl => if sl.st = .dirty ∧ sl.entries = 0 ∧ sl.holds = 0 then s.freeSlot i true else s
    | none => s

/-- Is a layout of a pool its old layout after a switch (R150)? -/
def State.isOld (s : State) (pid : BitVec 16) (lid : Nat) : Bool :=
  match s.pool pid with
  | some p => decide (p.oldLayout = some lid)
  | none => false

/-- Does the copy unit of a frond stripe wait, run, or lie beyond the cursor? `src` holds the frond's record. -/
def State.unitOpen (s : State) (src : Pool) (f : FrondMeta) (n : Nat) : Bool :=
  match (s.pool (frondHolder f)).bind fun h => (h.layout f.layout).map fun d => (h, d) with
  | none => true
  | some (h, d) =>
    let here := fun (e : BitVec 12 × Nat) => match h.mapVbn d e.1 e.2 with
      | some (m, _, _) => m == n
      | none => false
    let first := (h.stripeVol d.id n).map fun (v, sv) => (v, blockAt d sv 0 0)
    src.frOffer.any here || !(first.any fun e => belowCursor src.frCur e.1 e.2) || s.seq.tasks.any fun t =>
      t.pool == h.cur.id && t.layout == d.id && t.stripe == n && (match t.kind with
        | .copyUnit _ _ => true
        | _ => false)

/-- Sets the frond mark of a frond stripe whose copy unit has completed (R147); marks are committed every 65,536 retirements (R154). -/
def State.markFrond (s : State) (pid : BitVec 16) (lid n : Nat) : State :=
  match s.pools.findSome? fun p => (p.cur.frond.filter fun f => f.layout == lid && frondHolder f == pid && f.srcPool == p.cur.id && f.phase != .switched).map fun f => (p, f) with
  | none => s
  | some (src, f) =>
    let s := if s.unitOpen src f n then s else s.updPool src.cur.id fun p => { p with frMarks := if p.frMarks.contains n then p.frMarks else p.frMarks ++ [n] }
    let k := s.seq.retiredN + 1
    let s : State := { s with seq := { s.seq with retiredN := k % 65536 } }
    s.iff (k % 65536 == 0) fun s => s.updPool src.cur.id Pool.commitCursor

/-- Sends an NVMe Flush to every member that a destage wrote, for the FLUSH commands that wait for it (R239). -/
def State.flushMembers (s : State) (t : Task) (cmds : List Nat) : State :=
  match (s.pool t.pool).bind fun p => (p.layout t.layout).map fun d => (p, d) with
  | none => s
  | some (p, d) =>
    let g := s.geo p d
    s.each cmds fun s c =>
      let rq := fun (x : Nat) => ({ pool := t.pool, idx := (findStrip g p.cur.remap t.stripe x).member, op := .flush, lba := 0, offs := [], count := 0
                                    blks := [], purpose := .flushCmd c, fg := true } : MReq)
      let (s, ids) : State × List Nat := s.sendNow (t.okStrips.map rq)
      s.updCmd c fun c => { c with mflush := c.mflush ++ ids }

/-- Every write of a destage is acknowledged: its snapshot retires (R76). Blocks of new host data leave the lost-extent list (R129). -/
def State.destageRetired (s : State) (t : Task) : State :=
  match s.entryOf t with
  | none => s.dropTask t.id
  | some e =>
    let vol := e.vol
    let s := s.dropTask t.id
    let s := s.each e.snap fun s (_, i) => s.retireSlot i
    let s := s.trimLost (((s.poolOf vol).map (·.cur.id)).getD t.pool) vol (e.snap.map (·.1))
    let s := s.flushMembers t e.flushFor
    let s := s.markFrond t.pool t.layout t.stripe
    let gone := s.isOld t.pool t.layout
    let s := if gone then s.unrecord e.second else s
    let next : GEntry := { e with first := if gone then [] else e.second, second := [], snap := [], st := .open_, e0 := e.e0b, curFua := false, skip := [], badAt := []
                                  flushFor := [], again := false, fua := e.again && e.fua, heldR122 := false }
    let s : State := { s with cch := s.cch.updEntry t.pool t.layout t.stripe fun _ => next }
    let s : State := { s with cch := s.cch.dropIdle }
    s.iff e.again fun s => { s with cch := s.cch.makeDue t.pool t.layout t.stripe e.fua }

/-! ### Rebuild, catch-up and copy-back -/

/-- A stripe of catch-up regions of a member is done: regions covered with it leave, and with the last of them catch-up ends (R119, R120). -/
def State.covered (s : State) (pid : BitVec 16) (m lid n : Nat) : State :=
  let s := s.updPool pid fun p =>
    let left := p.cuLeft.filter fun e => !(e.1 == m && e.2.2.2 == (lid, n))
    let gone := p.cuLeft.filter fun e => e.1 == m && e.2.2.2 == (lid, n) && !(left.any fun x => x.1 == m && x.2.1 == e.2.1 && x.2.2.1 == e.2.2.1)
    { p with cuLeft := left, catchup := p.catchup.filter fun e => !(gone.any fun x => (x.1, x.2.1, x.2.2.1) == e) }
  s.catchUpEnd pid m

/-- A rebuild or a catch-up has ended: its strips stand as they were acknowledged (R124, R441), and what it has checked of catch-up regions is covered. The entries
that R122 holds may be tried again. -/
def State.restoreDone (s : State) (t : Task) : State :=
  let s := (s.dropTask t.id).unhold122 t.pool
  match (s.pool t.pool).bind fun p => (p.layout t.layout).map fun d => (p, d) with
  | none => s
  | some (p, d) =>
    let g := s.geo p d
    let backs := ((p.ownBack g t.stripe).filter fun x => !t.failed.contains x).map fun x => (findStrip g p.cur.remap t.stripe x).member
    let ms := match t.kind with
      | .catchUp m _ _ => backs.filter (· == m)
      | _ => backs
    s.each ms.eraseDups fun s m => s.covered t.pool m t.layout t.stripe

/-- Copy-back of a stripe: the remap entries of the strips that are home are deleted (R130). -/
def State.copyBackDone (s : State) (t : Task) : State :=
  (s.dropTask t.id).updPool t.pool fun p => p.change fun m =>
    { m with remap := m.remap.filter fun e => !(e.layout == t.layout && e.stripe == t.stripe && t.okStrips.contains e.strip) }

/-! ### Frond units, scrub, sweeps, resynchronisation -/

/-- A copy unit has completed (R145): it counts, and every 4,096th commits the cursor (R152). -/
def State.unitDone (s : State) (t : Task) : State :=
  match s.frondSrc t.layout with
  | none => s.dropTask t.id
  | some src =>
    let n := src.unitsDone + 1
    let s := s.updPool src.cur.id fun p => { p with unitsDone := n % 4096 }
    let s := s.iff (n % 4096 == 0) fun s => s.updPool src.cur.id Pool.commitCursor
    (s.dropTask t.id).bump .seqFrondUnitsN

/-- A stripe has been scrubbed (R134); the cursor is committed at every 65,536th (R137). -/
def State.scrubDone (s : State) (t : Task) : State :=
  (s.dropTask t.id).updPool t.pool Pool.scrubChecked

/-- A stripe of a sweep, or of the residue, has been checked (R149, R151). -/
def State.sweepDone (s : State) (t : Task) : State :=
  let s := s.dropTask t.id
  { s with pools := s.pools.map fun p => match p.nxt.frond with
      | some f => if f.layout = t.layout ∧ f.srcPool = p.cur.id ∧ frondHolder f = t.pool then
                    { p with sweep := p.sweep.erase t.stripe, residue := p.residue.erase t.stripe } else p
      | none => p }

/-- A stripe of a dirty region has been resynchronised; the region is covered when it was the last (R112, R339). -/
def State.resyncDone (s : State) (t : Task) (v : BitVec 12) (r : Nat) : State :=
  (s.dropTask t.id).updPool t.pool fun p =>
    let left := p.rsLeft.filter fun e => !(e == (v, r, t.layout, t.stripe))
    { p with rsLeft := left, resync := if left.any fun e => e.1 == v && e.2.1 == r then p.resync else p.resync.filter fun e => !(e == (v, r)) }

/-- Completes a task whose writes have all ended. -/
def State.finishTask (s : State) (t : Task) : State :=
  match t.kind with
  | .destage => s.destageRetired t
  | .recon _ _ _ => s.dropTask t.id
  | .rebuild | .catchUp _ _ _ => s.restoreDone t
  | .copyBack _ => s.copyBackDone t
  | .copyUnit _ _ => if t.failed.isEmpty then s.unitDone t else s.endTask t
  | .scrub => (s.scrubDone t).unhold122 t.pool
  | .sweep => (s.sweepDone t).unhold122 t.pool
  | .mend => (s.dropTask t.id).unhold122 t.pool
  | .resync v r => (s.resyncDone t v r).unhold122 t.pool

/-- Has a read or a write of a destage failed, so that it starts again (R76, R77)? -/
def State.restarts (s : State) (t : Task) : Bool :=
  t.kind == .destage && t.ph != .ended && (!t.failed.isEmpty || t.bad.any fun e => !(((s.entryOf t).map (·.badAt)).getD []).contains e)

/-- Step 3: destages of which a read or a write has failed start again; every task in its writing phase that has nothing more to write completes; those that came
to nothing go with the last of their writes. -/
def State.finishTasks (s : State) : State :=
  let s := s.each (s.seq.tasks.filter s.restarts) fun s t => s.marked t.injected fun s => s.endTask t
  let s := s.each (s.seq.tasks.filter fun t => t.ph == .writing && t.outs.isEmpty && t.writes.isEmpty) fun s t => s.marked t.injected fun s => s.finishTask t
  { s with seq := { s.seq with tasks := s.seq.tasks.filter fun t => !(t.ph == .ended && t.writes.isEmpty) } }

/-! ### Delivering reconstructions (R121, R167 to R170) -/

/-- Rewrites in place the blocks of an offset that failed on members that are in service (R170); `second` says that the rewrite follows a read-back that
failed. -/
def State.repairOff (s : State) (p : Pool) (g : Geo) (t : Task) (o : Nat) (second : Bool) (l : List (Nat × BlockData × Nat)) : State :=
  let er := p.erased g t.stripe
  let ws := l.filterMap fun (x, b, gen) => if (t.badAt o).contains x && !er.contains x then some (⟨x, b, gen, flagRecon⟩ : OffWrite) else none
  s.each (p.outsAt g t.stripe o ws []) fun s w => s.rewrite p g t.stripe w second

/-- Gives the strip that was reconstructed to the commands and to the copy unit that wait for it. -/
def State.giveBlock (s : State) (p : Pool) (g : Geo) (t : Task) (o : Nat) (cmds : List (Nat × Nat)) (unit : Option (Nat × Nat × Nat)) (b : Block) : State :=
  let s := s.each cmds fun s (c, vbn) =>
    match s.cmd c with
    | some k => (s.setBlk c vbn (.ready b)).fillFor k p.cur.id vbn b
    | none => s
  match unit with
  | none => s
  | some (id, x, _) => s.unitPut id (p.expect g t.stripe (if g.d.family = 1 then 0 else x) o).vbn b

/-- A block that could not be reconstructed, for a copy unit: ended without effect when a member may return, else lost, mended in the old layout, and copied as a
zero block (R145, R126). -/
def State.unitLost (s : State) (p : Pool) (g : Geo) (t : Task) (o : Nat) (unit : Option (Nat × Nat × Nat)) (cause : Nat) : State :=
  match unit with
  | none => s
  | some (id, x, _) =>
    let er := (p.erased g t.stripe ++ t.badAt o).eraseDups
    if p.mayReturn g t.stripe er then
      match s.task id with
      | some u => s.endTask u
      | none => s
    else
      let s := (s.loseStrips p g t.stripe o [(x, cause)]).newTask .mend p.cur.id g.d.id t.stripe [o] (t.bad.filter fun e => e.2 == o)
      s.unitPut id (p.expect g t.stripe x o).vbn (mkBlock p.secret (p.expect g t.stripe x o) (maxDataGen g.d (t.at o)) 0 flagZero 0)

/-- A reconstruction ends at the edge after it was admitted: the block is verified under R167 and released, or the command's block ends with the
code that R122 and R169 give. A repair after a read-back that failed comes to FIX_REWRITE_FAILED where no block can be had (R170). -/
def State.reconDone (s : State) (t : Task) (cmds : List (Nat × Nat)) (unit : Option (Nat × Nat × Nat)) (repair : Bool) : State :=
  match s.pool t.pool with
  | none => s.dropTask t.id
  | some p =>
    match p.layout t.layout, t.offs.head? with
    | some d, some o =>
      let g := s.geo p d
      let x := t.wanted
      let er := (p.erased g t.stripe ++ t.badAt o).eraseDups
      let s := s.dropTask t.id
      let vol := ((p.stripeVol d.id t.stripe).map (·.1)).getD 0
      let (s, tagged) : State × Bool := s.tagCheck (s.attrs vol).fault
      let here := (tget (t.at o) x).filter fun _ => !er.contains x
      let r := (tget (reconOffset d er [x] ((t.at o).filter fun e => !er.contains e.1)).1 x).getD .beyond
      let retry := cmds.isEmpty && unit.isNone
      let lost := fun (s : State) => s.iff retry fun s =>
        (s.log .fixRewriteFailed 2 (findStrip g p.cur.remap t.stripe x).member p.cur.id (p.expect g t.stripe x o).vbn).each (s.img p (findStrip g p.cur.remap t.stripe x).member).toList
          fun s m => s.mediaErr m.num
      match here, (if tagged then r else .refused) with
      | some b, _ => s.giveBlock p g t o cmds unit b
      | none, .ok b gen =>
        let blk := mkBlock p.secret (p.expect g t.stripe x o) gen gen (flagRecon + (if isParity d x then flagParity else 0)) b
        let s := s.giveBlock p g t o cmds unit blk
        let s := s.iff repair fun s => s.each cmds fun s (c, _) => s.updCmd c fun c => { c with repaired := c.repaired + 1 }
        s.iff repair fun s => s.repairOff p g t o retry [(x, b, gen)]
      | none, .refused =>
        let s := s.each cmds fun s (c, vbn) => (s.setBlk c vbn (.bad codeFix)).log .fixUnrecovered 4 (((s.cmd c).map (·.vol.toNat)).getD 0) t.pool vbn
        (lost s).unitLost p g t o unit 2
      | none, .beyond =>
        let (s, code) : State × Nat := if cmds.isEmpty then (s, codeLost) else s.beyond p g t.stripe o er
        let s := s.each cmds fun s (c, vbn) => s.setBlk c vbn (.bad code)
        (lost s).unitLost p g t o unit (if t.bad.length > 1 then 2 else 1)
    | _, _ => s.dropTask t.id

/-- Delivers every reconstruction whose encoding was admitted at an earlier edge. -/
def State.deliverRecon (s : State) : State :=
  s.each (s.seq.tasks.filter fun t => t.ph == .encoded && decide (t.edge < s.edge)) fun s t =>
    match t.kind with
    | .recon c u r => s.marked t.injected fun s => s.reconDone t c u r
    | .destage | .rebuild | .catchUp _ _ _ | .copyBack _ | .copyUnit _ _ | .scrub | .sweep | .mend | .resync _ _ => s

/-! ### Slices that complete on members (R80, R99) -/

/-- Is every block of a slice on members, or superseded and gone? -/
def State.sliceOn (s : State) (sl : Slice) : Bool :=
  sl.slots.all fun i => match s.cch.slot i with
    | some x => x.st == .freed || x.st == .superseded
    | none => true

/-- Secured slices that complete on members settle when their blocks are there. -/
def State.settleSlices (s : State) : State :=
  let one := fun (sl : Slice) => if sl.st == .secured && sl.need && s.sliceOn sl then { sl with st := .onMembers } else sl
  { s with ord := { s.ord with cmds := s.ord.cmds.map fun c => { c with slices := c.slices.map one } } }

end Sys2Proof.Machine
end

