-- ==== Sys2Proof/Machine/Meta.lean ====
section
/-!
DEFINITION. Pool metadata commits and what takes effect with them (R105, R61, R150, R151, R153, R130), the dirty-region bitmap (R109), and
re-replication (R107).
-/
namespace Sys2Proof.Machine

/-! ### Metadata commits (R105) -/

/-- Starts the copy that carries every change asked for, when none is in flight and the journal members can take it (R105, R108). -/
def State.startCommit (s : State) (p : Pool) : State :=
  if p.flight.isNone && p.wantsCommit && s.jmReady p && !p.unassembled then
    let snap : PoolMeta := { p.nxt with commit := p.cur.commit + 1 }
    let (s, w) : State × JWait := s.jmSend p (metaBlks p.secret s.edge snap) (.meta_ p.cur.id)
    s.updPool p.cur.id fun p => { p with flight := some ⟨snap, w⟩ }
  else s

/-- A volume's run-time state when it appears. -/
def VolRun.fresh (v : VolMeta) (gen : Nat) : VolRun :=
  { id := v.id, gen := gen, stamped := false, lowLogged := false, exhausted := false, power := v.power, wake := false, powerCmd := none
    powerTgt := .active, attrsOld := none, offline := false }

/-- Generations that a volume has (R162). -/
def genMax : Nat := 2 ^ 56 - 1

/-- The generation from which GEN_LOW stands (R164). -/
def genLow : Nat := 2 ^ 56 - 2 ^ 32

/-- A volume resumes at generation g at least (R163). Generations end at 2^56 − 1: a volume that would resume beyond is read-only (R164). -/
def VolRun.resume (r : VolRun) (g : Nat) : VolRun := { r with gen := max r.gen (min g genMax), exhausted := r.exhausted || decide (g > genMax) }

/-- A volume at POOL_ASSEMBLY: at its committed limit (R163). A limit was raised when the generation came within 2^20 of the one before, so that GEN_LOW has
been logged for sure when that point lies beyond its threshold; nearer to it, it is logged again (DEDUCED: the spec keeps no mark of it). -/
def VolRun.assembled (v : VolMeta) : VolRun :=
  ({ VolRun.fresh v 0 with lowLogged := decide (v.limit ≥ genLow + 2 ^ 24 + 2 ^ 20) } : VolRun).resume v.limit

/-- Takes everything the cache holds of a volume away (R228: DELETE, and a volume that leaves the pool). -/
def State.purgeVol (s : State) (pid : BitVec 16) (v : BitVec 12) : State :=
  let gone := (s.cch.slots.filter fun e => e.2.pool == pid && e.2.vol == v).map (·.1)
  let keep := fun (e : GEntry) => !(e.pool == pid && e.vol == v)
  { s with
    cch := { s.cch with gather := s.cch.gather.filter keep, waitq := s.cch.waitq.filter keep
                        clean := s.cch.clean.filter fun e => !(e.pool == pid && e.vol == v)
                        slots := s.cch.slots.filter fun e => !gone.contains e.1 }
    jnl := { s.jnl with live := s.jnl.live.map fun r => { r with slots := r.slots.filter fun i => !gone.contains i } } }

/-- Volumes that a commit brings or takes away, and attributes that apply at the next edge (R228, R86). -/
def State.commitVols (s : State) (pid : BitVec 16) (old new : PoolMeta) : State :=
  let ids := fun (m : PoolMeta) => m.volumes.map (·.id)
  let gone := (ids old).filter fun v => !(ids new).contains v
  let s := s.each gone fun s v => (s.purgeVol pid v).updPool pid fun p => { p with vols := p.vols.filter fun r => r.id ≠ v }
  let s := s.updPool pid fun p =>
    let fresh := new.volumes.filter fun v => !(p.vols.any fun r => r.id == v.id)
    { p with vols := p.vols ++ fresh.map fun v => VolRun.fresh v 0 }
  s.each new.volumes fun s v =>
    match old.volumes.find? fun o => o.id == v.id with
    | some o =>
      s.iff (o.attrs ≠ v.attrs) fun s =>
        s.updPool pid fun p => p.updRun v.id fun r => { r with attrsOld := some { o.attrs with readOnly := v.attrs.readOnly } }
    | none => s

/-! ### Frond switch, release and cancel -/

/-- Discards the gather entries of a layout that are not DESTAGING; blocks stay held by their other entries (R150, R153). -/
def State.discardEntries (s : State) (pid : BitVec 16) (lid : Nat) : State :=
  let mine := (s.cch.gather ++ s.cch.waitq).filter fun e => e.pool == pid && e.layout == lid && e.st != .destaging
  let s := s.each mine fun s e => s.unrecord (e.first ++ e.second)
  let keep := fun (e : GEntry) => !(e.pool == pid && e.layout == lid && e.st != .destaging)
  { s with cch := { s.cch with gather := s.cch.gather.filter keep, waitq := s.cch.waitq.filter keep } }

/-- The switch edge (R150): the frond's layout holds the volumes, which into another pool take their lost extents with them; where its list has no room for them,
that pool is Lost (R129). -/
def State.switchFrond (s : State) (pid : BitVec 16) (before : PoolMeta) (f : FrondMeta) : State :=
  match s.pool pid with
  | none => s
  | some p =>
    let dst := frondHolder f
    let old := before.volumes.head?.map (·.layout)
    let s := s.updPool pid fun p => Pool.commitCursor
      { p with oldLayout := old, residue := (p.sweep ++ p.frMarks).eraseDups, frMarks := [], sweep := [], sweepOn := false
               oldMaps := before.volumes.map fun v => (v.id, v.extents) }
    let s := match old with
      | some lid => s.discardEntries pid lid
      | none => s
    let s := if dst = pid then s
      else
        let moved := f.extents.filterMap fun (v, ext) => (p.nxt.volumes.find? fun m => m.id == v).map fun m => { m with layout := f.layout, extents := ext }
        let ids := moved.map (·.id)
        let runs := p.vols.filter fun r => ids.contains r.id
        let lost := p.nxt.lost.filter fun e => ids.contains e.vol
        let cut := fun (m : PoolMeta) => { m with volumes := m.volumes.filter fun v => !ids.contains v.id, lost := m.lost.filter fun e => !ids.contains e.vol }
        let put := fun (m : PoolMeta) => { m with volumes := m.volumes.filter (fun v => !ids.contains v.id) ++ moved, lost := (m.lost ++ lost).take lostMax }
        let s := s.updPool pid fun p => { p with cur := cut p.cur, nxt := cut p.nxt, vols := p.vols.filter fun r => !ids.contains r.id }
        let s := s.updPool dst fun q => { q with cur := put q.cur, nxt := put q.nxt, vols := q.vols ++ runs, listFull := q.listFull || decide (q.nxt.lost.length + lost.length > lostMax) }
        let re := fun (e : Nat × Slot) => if e.2.pool == pid && ids.contains e.2.vol then (e.1, { e.2 with pool := dst }) else e
        { s with cch := { s.cch with slots := s.cch.slots.map re
                                     clean := s.cch.clean.map fun e => if e.pool == pid && ids.contains e.vol then { e with pool := dst } else e } }
    s.log .frondSwitch 3 pid.toNat pid f.layout dst.toNat

/-- FROND_CANCEL takes hold (R153): copy, sweeps and the frond's destages end, its gather entries are discarded, and its removal is asked for. -/
def State.stopFrond (s : State) (pid : BitVec 16) (f : FrondMeta) : State :=
  let h := frondHolder f
  let ends := s.seq.tasks.filter fun t => t.pool == h && t.layout == f.layout
  let s := s.each ends fun s t => s.endTask t
  let s := s.discardEntries h f.layout
  let cut := fun (m : PoolMeta) => { m with layouts := m.layouts.filter (fun d => d.id ≠ f.layout), remap := m.remap.filter (fun e => e.layout ≠ f.layout), frond := none }
  let s := s.updPool pid fun q => { (q.change fun m => { m with frond := none }) with frOffer := [], sweep := [], sweepOn := false, frCancel := none }
  s.updPool h fun q => q.change cut

/-- A frond is gone: cancelled or released (R151, R153). -/
def State.endFrond (s : State) (pid : BitVec 16) (f : FrondMeta) : State :=
  let s := s.updPool pid fun p => { p with oldLayout := none, oldMaps := [], residue := [], frMarks := [], frOffer := [], passing := [], sweep := [], sweepOn := false
                                           frCur := (0, 0), unitsDone := 0, skipped := [] }
  s.log (if f.phase != .switched then .frondCancelled else .frondReleased) 3 pid.toNat pid f.layout

/-- What a commit changes of a pool's frond. -/
def State.commitFrond (s : State) (pid : BitVec 16) (old new : PoolMeta) : State :=
  match old.frond, new.frond with
  | none, some f =>
    if f.srcPool = pid then (s.updPool pid fun p => { p with frCur := (f.vol, f.vbn) }).log .frondStart 3 pid.toNat pid f.layout (frondHolder f).toNat
    else s
  | some f, none => if f.srcPool = pid then s.endFrond pid f else s
  | some f, some g => if f.srcPool = pid ∧ f.phase ≠ .switched ∧ g.phase = .switched then s.switchFrond pid old f else s
  | none, none => s

/-! ### Copy-back -/

/-- Members whose copy-back is complete: no remap entry names a stripe whose home is on them and nothing is still to be rebuilt (R130). -/
def State.copyBackEnds (s : State) (pid : BitVec 16) : State :=
  match s.pool pid with
  | none => s
  | some p =>
    let back := (List.range p.nxt.members.length).filter fun i => p.memState i == .copyback
    let homeOf := fun (e : RemapEnt) => (p.layout e.layout).map fun d => (homeStrip (s.geo p d) e.stripe e.strip).member
    let busy := fun (i : Nat) =>
      p.cur.remap.any (fun e => homeOf e == some i) || p.nxt.remap.any (fun e => homeOf e == some i)
        || p.nxt.unrest.any fun (lid, n, x) => match p.layout lid with
          | some d => (findStrip (s.geo p d) p.nxt.remap n x).member == i
          | none => false
    s.each (back.filter fun i => !busy i) fun s i => (s.updPool pid fun p => p.setMem i .active).log .copybackDone 2 i pid

/-! ### Taking a commit in -/

/-- Bits of volumes that are gone are dropped, and those whose number has changed are to be written at their new places (R110). DESIGN CHOICE: blocks on which
no bit is on keep what they hold until a bit on them is written, so that a region there can be resynchronised without need. -/
def Pool.renumber (p old : Pool) : Pool :=
  let kept := p.bitmap.filter fun b => p.bitVols.any fun e => e.1 == b.vol && decide (b.region < p.regionsIn e.2)
  { p with bitmap := kept.map fun b =>
      if p.bitNo b.vol b.region = old.bitNo b.vol b.region then b else { b with st := .setting JWait.empty, was := true } }

/-- A copy that every journal member has acknowledged, at least two, takes effect (R105, R108). One that fewer have ends, and its changes wait for the next. -/
def State.takeCommit (s : State) (pid : BitVec 16) : State :=
  match s.pool pid with
  | none => s
  | some p =>
    match p.flight with
    | none => s
    | some f =>
      if !f.wait.waits.isEmpty then s
      else if !p.jmOk f.wait then s.updPool pid fun p => { p with flight := none }
      else
        let fewer := decide (f.snap.remap.length < p.cur.remap.length)
        let s := s.updPool pid fun p => { p with cur := f.snap, nxt := { p.nxt with commit := f.snap.commit }, flight := none
                                                 skipped := if fewer then [] else p.skipped }
        let s := s.unhold122 pid
        let s := s.commitVols pid p.cur f.snap
        let s := s.commitFrond pid p.cur f.snap
        let s := s.updPool pid fun q => q.renumber p
        s.copyBackEnds pid

/-- Step 3: every pool's commit. -/
def State.takeCommits (s : State) : State := s.each (s.pools.map (·.cur.id)) State.takeCommit

/-- Step 5: starts the copies that are wanted. -/
def State.startCommits (s : State) : State := s.each s.pools State.startCommit

/-! ### The dirty-region bitmap (R109) -/

/-- Writes the bitmap block of a region's bit, as it stands with the bit on or off, to the journal members. DESIGN CHOICE: JNL_BM_WRITES counts the member
write that each journal member is sent (R116). -/
def State.writeBit (s : State) (pid : BitVec 16) (v : BitVec 12) (r : Nat) (on : Bool) : State :=
  let put := fun (w : JWait) (p : Pool) => { p with bitmap := updIf p.bitmap (fun b => b.vol == v && b.region == r) fun b =>
    { b with st := if on then .setting w else .clearing w } }
  let s := s.updPool pid (put JWait.empty)
  match s.pool pid with
  | none => s
  | some p =>
    let k := p.bitNo v r / 32768
    let (s, w) : State × JWait := s.jmSend p [(mapBase + k, zoneBlk p.secret s.edge (mapBase + k) (p.mapData k))] (.bitmap pid)
    (s.updPool pid (put w)).bump .jnlBmWritesN w.waits.length

/-- May work write into these regions now: their bits are set? Bits that are clear are set first; a region whose clear is in flight waits (R109). -/
def State.bitsReady (s : State) (pid : BitVec 16) (regs : List (BitVec 12 × Nat)) : State × Bool :=
  regs.foldl (fun (s, ok) (v, r) =>
    match s.pool pid with
    | none => (s, false)
    | some p =>
      match p.bitmap.find? fun b => b.vol == v && b.region == r with
      | some b => (s.updPool pid fun p => { p with bitmap := updIf p.bitmap (fun x => x == b) fun x => { x with touched := s.edge } }, ok && b.st == .isSet)
      | none =>
        if s.jmReady p then
          let s := s.updPool pid fun p => { p with bitmap := p.bitmap ++ [⟨v, r, .setting JWait.empty, false, s.edge⟩] }
          (s.writeBit pid v r true, false)
        else (s, false)) (s, true)

/-- Writes the bits that stand to be written again at their new places (R110). -/
def State.rewriteBits (s : State) : State :=
  s.each s.pools fun s p =>
    s.iff (s.jmReady p) fun s => s.each (p.bitmap.filter fun b => b.st == .setting JWait.empty) fun s b => s.writeBit p.cur.id b.vol b.region true

/-- Does any gather entry or task touch a region? -/
def State.regionBusy (s : State) (p : Pool) (v : BitVec 12) (r : Nat) : Bool :=
  let hits := fun (lid n : Nat) => match p.layout lid with
    | some d => (p.stripeRegions d n).contains (v, r)
    | none => false
  ((s.cch.gather ++ s.cch.waitq).any fun e => e.pool == p.cur.id && e.vol == v && hits e.layout e.stripe)
    || s.seq.tasks.any fun t => t.pool == p.cur.id && t.kind.exclusive && hits t.layout t.stripe

/-- Clears the bit of a region that has been quiet for JNL_BM_QUIET ticks; no bit is cleared while a member is MISSING or RETURNING (R109, R120). -/
def State.quietExpiry (s : State) (pid : BitVec 16) (v : BitVec 12) (r : Nat) : State :=
  match s.pool pid with
  | none => s
  | some p =>
    let away := p.nxt.members.any fun m => m.state == .missing || m.state == .returning
    match p.bitmap.find? fun b => b.vol == v && b.region == r with
    | none => s
    | some b =>
      if b.st ≠ .isSet then s
      else if s.regionBusy p v r then s.updPool pid fun p => { p with bitmap := updIf p.bitmap (fun x => x == b) fun x => { x with touched := s.edge } }
      else if away || !s.jmReady p || decide (s.edge < b.touched + s.reg .jnlBmQuietTicks) || p.resync.contains (v, r) then s
      else s.writeBit pid v r false

/-- Tests every region whose bit is set. -/
def State.quietTimers (s : State) : State :=
  s.each s.pools fun s p => s.each p.bitmap fun s b => s.quietExpiry p.cur.id b.vol b.region

/-! ### Re-replication (R107) -/

/-- Blocks that one copy step moves at most. -/
def copyStep : Nat := 256

/-- The journal member that a copy reads next: the one scanned, or the source, then the others whose copy of the block has not failed. -/
def Pool.copySrc (p : Pool) (r : Rerep) : Option Nat :=
  let first := if r.scan then r.dst else r.src
  (first :: p.jmsUp).find? fun i => p.inService i && !r.tried.contains i && (r.scan || i != r.dst)

/-- Reads the next blocks of a copy, one step at a time, ahead of the pacing loop (R107). The cold journal is in use unless the module is BELAYED. A block that
no journal member has is passed over. -/
def State.stepCopy (s : State) (p : Pool) (scan : Bool) : State :=
  match p.zcopy scan with
  | none => s
  | some r =>
    if s.mbr.cmds.any fun c => c.pool == p.cur.id && c.purpose == .rerep scan then s
    else
      let put := fun (s : State) (r : Option Rerep) => s.updPool p.cur.id fun p => p.setZcopy scan r
      match p.copyNext (s.jnl.belay != .belayed) r.cursor with
      | none => s.updPool p.cur.id fun p => if scan then { p with zscan := none }.scrubChecked else { p with rerep := none }
      | some (at_, len) =>
        match p.copySrc r with
        | none => if p.jmsUp.all (fun i => i == r.dst) && !scan then s else put s (some ({ r with cursor := at_ }.past 1))
        | some src =>
          let n := if r.tried.isEmpty then min len (min copyStep (min (s.maxBlocks p src) (s.maxBlocks p r.dst))) else 1
          let rq : MReq := { pool := p.cur.id, idx := src, op := .read, lba := posLba at_, offs := List.range n, count := n, blks := [], purpose := .rerep scan
                             fg := false }
          let s := put s (some { r with cursor := at_, n := n, stale := false })
          if scan then s.admitReqs false [rq] [] fun s _ => s else (s.sendNow [rq]).1

/-- Removes the registration from members that REMOVE_MEMBERS or REPLACE_MEMBER took out (R277), once each can be reached. -/
def State.unregister (s : State) : State :=
  State.each { s with mbr := { s.mbr with leaving := [] } } s.mbr.leaving fun s num =>
    match (s.mbr.members.find? fun m => m.num == num).bind fun m => if m.lowPower || m.spinning.isSome then none else (s.upPorts m).head? with
    | none => { s with mbr := { s.mbr with leaving := s.mbr.leaving ++ [num] } }
    | some port =>
      let r : MReq := { pool := 0, idx := 0, op := .unregister, lba := 0, offs := [], count := 0, blks := [], purpose := .other, fg := false }
      ((s.chargeAlways (reqCharges port r)).send r num port).updImg num fun m => { m with resvReg := false }

/-- Step 5: the member commands that management commands asked for are admitted, each when it fits (R11, R30). -/
def State.sendAsked (s : State) : State :=
  let s := s.unregister
  s.mbr.asked.foldl (fun (s : State) r =>
    match s.planReqs [r] with
    | none => { s with mbr := { s.mbr with asked := s.mbr.asked ++ [r] } }
    | some (l, ch) =>
      match s.sched.allot ch with
      | none => { s with sched := s.sched.waits ch, mbr := { s.mbr with asked := s.mbr.asked ++ [r] } }
      | some sc => (State.sendAll { s with sched := sc } l).1) { s with mbr := { s.mbr with asked := [] } }

/-- Step 5: re-replication of every pool. -/
def State.stepRereps (s : State) : State := s.each s.pools fun s p => s.stepCopy p false

end Sys2Proof.Machine
end

