-- ==== Sys2Proof/Machine/Complete.lean ====
section
/-!
DEFINITION. Completions: statuses (R221), the record of R220, and how a command's record becomes eligible (R33).
-/
namespace Sys2Proof.Machine

/-- A status. -/
def stat (cls code : Nat) (result : Nat := 0) (detail : Nat := 0) : Stat :=
  ⟨BitVec.ofNat 8 cls, BitVec.ofNat 8 code, BitVec.ofNat 16 detail, w64 result⟩

/-- Success with a result. -/
def okStat (result : Nat := 0) : Stat := stat 0 0 result

/-- Queue id of a ring in completion records (R183): the pair number of a data pair, 0x4000 and the pair number of an admin pair. -/
def ringQid (q : RingRef) : BitVec 16 := if q.fn = .pf1 then BitVec.ofNat 16 q.pair else BitVec.ofNat 16 (0x4000 + q.pair)

/-- A submission ring. -/
def State.sq (s : State) (q : RingRef) : Option Sq := tget s.qe.sqs q

/-- A completion ring. -/
def State.cq (s : State) (q : RingRef) : Option Cq := tget s.qe.cqs q

/-- Changes a submission ring. -/
def State.updSq (s : State) (q : RingRef) (f : Sq → Sq) : State := { s with qe := { s.qe with sqs := tupd s.qe.sqs q f } }

/-- Changes a completion ring. -/
def State.updCq (s : State) (q : RingRef) (f : Cq → Cq) : State := { s with qe := { s.qe with cqs := tupd s.qe.cqs q f } }

/-- The completion ring of a submission ring. -/
def State.cqOf (s : State) (q : RingRef) : RingRef := { q with pair := ((s.sq q).map (·.cqPair)).getD q.pair }

/-- The record of a command (R220), before it has its position. -/
def cplOf (q : RingRef) (tag : BitVec 16) (st : Stat) (acc : Nat) : CplRec :=
  { result := st.result, tag := tag, sqid := ringQid q, cls := st.cls, code := st.code, detail := st.detail, acc := w32 acc }

/-- A record becomes eligible: it is posted at step 4 of the next edge (R33). -/
def State.eligible (s : State) (q : RingRef) (tag : BitVec 16) (st : Stat) (accd cmd : Option Nat) : State :=
  { s with qe := { s.qe with elig := s.qe.elig ++ [⟨q, s.cqOf q, accd, cplOf q tag st (accd.getD 0), cmd⟩] } }

/-- An admin command completes, to its ring or over MCTP (R224). -/
def State.admDone (s : State) (src : AdmSrc) (tag : BitVec 16) (st : Stat) : State :=
  match src with
  | .ring q =>
    if s.qe.goneAdm.contains (q, tag) then State.bump { s with qe := { s.qe with goneAdm := s.qe.goneAdm.erase (q, tag) } } .qeCplDiscCntN
    else
      let s := { s with qe := { s.qe with outAdm := s.qe.outAdm.filter fun e => !(e.1 == q && e.2 == tag), doneAdm := s.qe.doneAdm ++ [(q, tag)] } }
      s.eligible q tag st none none
  | .mctp => s.emit (.mctpCpl tag st)

end Sys2Proof.Machine
end

