-- ==== Sys2Proof/Machine/Links.lean ====
section
/-!
DEFINITION. Sending Hudom frames (R287 to R289, R292), and the tags of outstanding PCIe requests (R310, R329).
-/
namespace Sys2Proof.Machine

/-! ### Frames -/

/-- Frame type codes (R288). -/
def frameType (f : TxFrame) : Nat :=
  match f with
  | .announce _ _ _ _ => 1 | .heartbeat _ => 2 | .timeSync _ _ _ => 3 | .delayReq => 4 | .delayResp _ => 5
  | .belaySetup _ => 0x10 | .belayBlock _ _ => 0x11 | .belayRecords _ => 0x12 | .belaySeal _ => 0x13 | .belayConfirm _ => 0x14
  | .sealNak _ => 0x15 | .winNak _ _ => 0x16 | .fwdCmd _ _ _ _ => 0x20 | .fwdData _ _ _ => 0x21 | .fwdReply _ _ _ => 0x22
  | .dirClaim _ _ _ => 0x28 | .dirUpdate _ => 0x29 | .yield_ _ _ => 0x30 | .takeoverAck _ => 0x31

/-- The flow key of R292. -/
def flowKey (f : TxFrame) : Nat :=
  match f with
  | .belayBlock slot _ => slot / 64
  | .fwdCmd fid _ _ _ => fid.toNat
  | .fwdData fid _ _ => fid.toNat
  | .announce _ _ _ _ | .heartbeat _ | .timeSync _ _ _ | .delayReq | .delayResp _ | .belaySetup _ | .belayRecords _ | .belaySeal _ | .belayConfirm _ | .sealNak _
  | .winNak _ _ | .fwdReply _ _ _ | .dirClaim _ _ _ | .dirUpdate _ | .yield_ _ _ | .takeoverAck _ => 0

/-- A peer. -/
def State.peer (s : State) (a : BitVec 12) : Option Peer := tget s.rop.peers a

/-- Changes a peer. -/
def State.updPeer (s : State) (a : BitVec 12) (f : Peer → Peer) : State := { s with rop := { s.rop with peers := tupd s.rop.peers a f } }

/-- Numbers of the UP paths to a peer, lowest first. -/
def Peer.upPaths (p : Peer) : List Nat := (p.paths.filter (·.up)).map (·.n)

/-- The path that carries a sequenced frame (R292). -/
def pathOf (p : Peer) (dst : BitVec 12) (f : TxFrame) : Nat :=
  let ups := p.upPaths
  let h := crc32c (leBytes 2 dst.toNat ++ leBytes 1 (frameType f) ++ leBytes 8 (flowKey f))
  ups.getD (h.toNat % ups.length) 0

/-- Sends a sequenced frame to a peer: it takes the next sequence number and waits for its acknowledgement (R289). -/
def State.sendSeq (s : State) (dst : BitVec 12) (f : TxFrame) : State :=
  match s.peer dst with
  | none => s
  | some p =>
    let n := p.txSeq + 1
    let s := s.updPeer dst fun p => { p with txSeq := n, unacked := p.unacked ++ [⟨n, f, s.edge, 0⟩] }
    s.emit (.frame (dst.setWidth 16) (pathOf p dst f) n false f)

/-- Sends an unsequenced frame on a path (R288). -/
def State.sendPlain (s : State) (dst : BitVec 16) (path : Nat) (f : TxFrame) : State := s.emit (.frame dst path 0 false f)

/-- Is a peer UP? -/
def State.peerUp (s : State) (a : BitVec 12) : Bool :=
  match s.peer a with
  | some p => p.st == .up
  | none => false

/-- The partner that the image names (R297). -/
def State.partnerAddr (s : State) : Option (BitVec 12) :=
  if s.reg .ropAddrHasPartner = 1 then some (BitVec.ofNat 12 (s.reg .ropAddrPartner)) else none

/-- This module's rope address. -/
def State.selfAddr (s : State) : BitVec 12 := BitVec.ofNat 12 (s.reg .ropAddrSelf)

/-! ### Host ports and tags -/

/-- Changes a host port. -/
def State.updHport (s : State) (p : PciePort) (f : HPort → HPort) : State :=
  { s with hif := { s.hif with ports := s.hif.ports.modify p.val f } }

/-- Changes a function of a port. -/
def State.updFn (s : State) (p : PciePort) (fn : Fn) (f : Func → Func) : State :=
  s.updHport p fun h => match fn with
    | .pf0 => { h with pf0 := f h.pf0 }
    | .pf1 => { h with pf1 := f h.pf1 }

/-- A function of a port. -/
def State.func (s : State) (p : PciePort) (fn : Fn) : Func :=
  match fn with
  | .pf0 => (s.hport p).pf0
  | .pf1 => (s.hport p).pf1

/-- Non-posted requests outstanding per port (R310). -/
def tagMax : Nat := 4096

/-- The lowest free tag of a port: neither outstanding nor in quarantine (R329); none when no request more may be outstanding. -/
def HPort.freeTag (h : HPort) : Option (BitVec 14) :=
  if h.tags.length < tagMax then
    (lowestFree (h.tags.map (·.1.toNat) ++ h.quar.map (·.toNat)) 0 (2 * tagMax + 1)).map (BitVec.ofNat 14)
  else none

/-- Takes a tag for a request; 0 with the state unchanged when none is free and the request waits. -/
def State.takeTag (s : State) (p : PciePort) (u : TagUse) : State × Option (BitVec 14) :=
  match (s.hport p).freeTag with
  | some t => (s.updHport p fun h => { h with tags := h.tags ++ [(t, u)] }, some t)
  | none => (s, none)

/-- Frees the tags of a use. -/
def State.dropTags (s : State) (p : PciePort) (u : TagUse) : State :=
  s.updHport p fun h => { h with tags := h.tags.filter fun e => e.2 ≠ u }

/-- The translation that covers an address of a function (R320). -/
def HPort.covers (h : HPort) (fn : Fn) (addr : Nat) : Option XlatEnt :=
  h.xlat.find? fun e => e.fn == fn && decide (e.page.toNat / 2 ^ e.log2 = addr / 2 ^ e.log2)

/-- The parts of a range that the cache covers, in order up to the first address that it does not; the flag says that there is such an address. -/
def HPort.walk (h : HPort) (fn : Fn) : Nat → Nat → Nat → List (XlatEnt × Nat × Nat) × Bool
  | 0, _, _ => ([], false)
  | fuel + 1, addr, last =>
    if addr ≥ last then ([], false)
    else match h.covers fn addr with
      | none => ([], true)
      | some e =>
        let next := (addr / 2 ^ e.log2 + 1) * 2 ^ e.log2
        let (es, m) : List (XlatEnt × Nat × Nat) × Bool := h.walk fn fuel next last
        ((e, addr, min next last - addr) :: es, m)

/-- The parts of an access's range under the cache's translations (R320). -/
def HPort.parts (h : HPort) (fn : Fn) (addr len : Nat) : List (XlatEnt × Nat × Nat) × Bool := h.walk fn (len / 4096 + 2) addr (addr + len)

/-- Is a request's use a translation? -/
def TagUse.isXlat (u : TagUse) : Bool :=
  match u with
  | .xlat _ | .xlatSeg _ | .xlatOut _ _ => true
  | .ring _ | .chan _ | .cqLine _ => false

/-- The address that an entry gives an untranslated one. -/
def XlatEnt.target (e : XlatEnt) (addr : Nat) : BitVec 64 := BitVec.ofNat 64 (e.base.toNat / 2 ^ e.log2 * 2 ^ e.log2 + addr % 2 ^ e.log2)

/-- With ATS enabled, looks an access's ranges up in the translation cache of its port (R320, R321): the entries used become the most recently used ones;
a missing permission refuses the access; a miss issues a Translation Request and holds it. -/
def State.lookup (s : State) (port : PciePort) (fn : Fn) (write : Bool) (rs : List (Nat × Nat)) (u : TagUse) : State × XlatGo :=
  if !(s.func port fn).ats then (s, .go)
  else
    let ws := rs.map fun (a, n) => (s.hport port.val).parts fn a n
    let used := ((ws.flatMap (·.1)).map (·.1)).eraseDups
    let s := s.updHport port fun h => { h with xlat := used ++ h.xlat.filter fun e => !used.contains e }
    if used.any fun e => !(if write then e.wr else e.rd) then (s.bump .hifAtsFailCntN 1 port.val, .refused)
    else if ws.any (·.2) then
      let (s, t) : State × Option (BitVec 14) := s.takeTag port u
      ((s.emit (.xlatReq port fn (t.getD 0))).bump .hifAtsMissCntN 1 port.val, .held)
    else (s, .go)

/-- An output buffer of an admin command is written, and the command completes (R224, R320): over MCTP, or to host memory, where a translation may hold
or fail it. A ring that a reset has removed gets nothing (R326). -/
def State.hostOut (s : State) (src : AdmSrc) (tag : BitVec 16) (addr : BitVec 64) (bytes : List Byte) (st : Stat) : State :=
  match src with
  | .mctp => (s.iff (!bytes.isEmpty) fun s => s.emit (.hostBytes src addr bytes)).admDone src tag st
  | .ring q =>
    if s.qe.goneAdm.contains (q, tag) then s.admDone src tag st
    else
      let (s, g) : State × XlatGo := s.lookup q.port q.fn true [(addr.toNat, bytes.length)] (.xlatOut q tag)
      match g with
      | .held => { s with hif := { s.hif with outs := s.hif.outs ++ [⟨q, tag, addr, bytes, st⟩] } }
      | .refused => s.admDone src tag (stat 3 3)
      | .go =>
        let s := if !(s.func q.port q.fn).ats then s.iff (!bytes.isEmpty) fun s => s.emit (.hostBytes src addr bytes)
          else s.each ((s.hport q.port.val).parts q.fn addr.toNat bytes.length).1 fun s (e, a, n) =>
            s.emit (.hostBytes src (e.target a) ((bytes.drop (a - addr.toNat)).take n))
        s.admDone src tag st

/-- Takes the outputs that wait for the translation of an admin command. -/
def State.takeOuts (s : State) (q : RingRef) (tag : BitVec 16) : State × List HostOut :=
  ({ s with hif := { s.hif with outs := s.hif.outs.filter fun o => !(o.q == q && o.tag == tag) } }, s.hif.outs.filter fun o => o.q == q && o.tag == tag)

/-- A host read's completion is withheld by an injection: its tag carries the mark, and the request will time out (R402). -/
def State.withhold (s : State) (port : PciePort) (u : TagUse) : State × Bool :=
  let (s, w) := s.inject [0x11] [(5, port.val)]
  if w.isSome then
    let ts := ((s.hport port.val).tags.filter fun e => e.2 == u).map (·.1)
    (s.updHport port fun h => { h with injTags := h.injTags ++ ts }, true)
  else (s, false)

/-- A packet is received on a PCIe port: an injection may invert its CRC, and the link replays it (R402, 0x04). -/
def State.linkReplay (s : State) (port : PciePort) : State := (s.inject [0x04] [(5, port.val)]).1

/-- A completion of a host read is received; the flag says that it is withheld. -/
def State.hostAnswer (s : State) (port : PciePort) (u : TagUse) : State × Bool := (s.linkReplay port).withhold port u

/-- A request of a port's function is answered with Unsupported Request, or its write dropped, and counted (R313, R314). -/
def State.unsupported (s : State) (port : PciePort) (isRead : Bool) : State :=
  let s := s.bump .hifDropCntN 1 port.val
  if isRead then s.emit (.ur port) else s.emit (.aerAdvisory port)

/-- Is a memory request to a function served? Not in D3hot (R314). -/
def State.fnServes (s : State) (port : PciePort) (fn : Fn) : Bool := (s.func port fn).d == .d0

end Sys2Proof.Machine
end

