-- ==== Sys2Proof/Machine/Ord.lean ====
section
/-!
DEFINITION. ORD: range locks (R232 to R235), acceptance (R231, R233), what acceptance fixes for a FLUSH (R238) and an ABORT (R241), and the volume
power states that commands meet (R219).
-/
namespace Sys2Proof.Machine

/-! ### Fetching goes on (R192 to R194) -/

/-- Entry reads in flight across the module (R194). -/
def fetchMax : Nat := 1024

/-- Does a fetch state have an entry read in flight? -/
def Fetch.reading (f : Fetch) : Bool :=
  match f with
  | .first | .rest _ | .segment _ _ _ _ => true
  | .idle | .line | .waiting _ | .slots _ _ _ _ => false

/-- Entry reads in flight. -/
def Qe.reads (e : Qe) : Nat := (e.sqs.filter fun r => r.2.fetch.reading).length

/-- Issues the read of the host line (R192). -/
def State.readLine (s : State) (q : RingRef) : State :=
  let (s, t) : State × Option (BitVec 14) := s.takeTag q.port (.ring q)
  (s.updSq q fun r => { r with pend := false, fetch := .line }).emit (.hostLineRead q (t.getD 0))

/-- The fetch of a ring stops; it runs again when its pending bit is set (R192). -/
def State.stopFetch (s : State) (q : RingRef) : State :=
  match s.sq q with
  | none => s
  | some r => if r.pend && r.st == .enabled then s.readLine q else s.updSq q fun r => { r with fetch := .idle }

/-- Goes on with the fetch at c (R193): reads the first unit of the next entry, or stops at the producer index. -/
def State.fetchNext (s : State) (q : RingRef) : State :=
  match s.sq q with
  | none => s
  | some r =>
    if r.st ≠ .enabled ∨ s.phase = .failStop then s.updSq q fun r => { r with fetch := .idle }
    else if r.c = r.p then s.stopFetch q
    else if s.qe.reads ≥ fetchMax then s.updSq q fun r => { r with fetch := .idle, pend := true }
    else
      let (s, t) : State × Option (BitVec 14) := s.takeTag q.port (.ring q)
      (s.updSq q fun r => { r with fetch := .first }).emit (.unitRead q r.c 1 (t.getD 0))

/-- An entry of n units is consumed: c and H move past it and fetching goes on (R195). -/
def State.consume (s : State) (q : RingRef) (n : Nat) : State :=
  (s.updSq q fun r => { r with h := r.h + w32 n, c := r.h + w32 n, fetch := .idle }).fetchNext q

/-! ### Locks -/

/-- Entries of the range-lock table (R235). -/
def lockMax : Nat := 65536

/-- The lock that a command takes (R232): first block, blocks, exclusive. -/
def IoOp.lock (op : IoOp) : Option (Nat × Nat × Bool) :=
  match op with
  | .read v n _ _ => some (v, n, false)
  | .verify v n => some (v, n, false)
  | .write v n _ _ => some (v, n, true)
  | .writeZeroes v n _ => some (v, n, true)
  | .sealAppend v b _ store _ _ => if store then some (v, b / 4096, true) else none
  | .flush | .abort _ _ | .sealOpen _ _ | .sealClose _ _ | .sealSave _ _ | .sealRestore _ _ | .volPower _ => none

/-- Do two locks or requests conflict (R232)? -/
def LockEnt.conflicts (a b : LockEnt) : Bool :=
  a.vol == b.vol && (a.excl || b.excl) && decide (a.first < b.first + b.count) && decide (b.first < a.first + a.count)

/-- Entries of the table in use. -/
def Ord.lockUsed (o : Ord) : Nat := (o.locks.filter (·.entry)).length

/-- Can a waiting request be granted (R233, R235)? `earlier` were offered before it and stand in the list before it. -/
def canGrant (earlier later : List LockEnt) (l : LockEnt) : Bool :=
  l.entry && !(earlier.any fun e => e.conflicts l) && !(later.any fun e => e.held && e.conflicts l)

/-- The first request that can be granted. -/
def firstGrant : List LockEnt → List LockEnt → Option LockEnt
  | _, [] => none
  | before, l :: rest => if !l.held && canGrant before rest l then some l else firstGrant (before ++ [l]) rest

/-- Requests without an entry take the free ones in the order offered (R235). -/
def giveEntries (n : Nat) : List LockEnt → List LockEnt
  | [] => []
  | l :: rest => if l.entry || n == 0 then l :: giveEntries n rest else { l with entry := true } :: giveEntries (n - 1) rest

/-! ### Volume power (R219) -/

/-- Sets a volume's power state, and commits it (R219). -/
def State.setPower (s : State) (v : BitVec 12) (st : VPower) : State :=
  { s with pools := s.pools.map fun p =>
      if (p.run v).isSome then
        (p.updRun v fun r => { r with power := st }).change fun m => { m with volumes := updIf m.volumes (fun x => x.id == v) fun x => { x with power := st } }
      else p }

/-- A volume's power state. -/
def State.powerOf (s : State) (v : BitVec 12) : VPower := (((s.poolOf v).bind (·.run v)).map (·.power)).getD .active

/-- Are members of a volume's pool in low power? -/
def State.membersDown (s : State) (v : BitVec 12) : Bool :=
  match s.poolOf v with
  | some p => (List.range p.nxt.members.length).any fun i => ((s.img p i).map fun m => m.lowPower || m.spinning.isSome).getD false
  | none => false

/-- Code of a power state (R230). -/
def powerCode (p : VPower) : Nat :=
  match p with
  | .active => 0 | .idle => 1 | .standby => 2 | .entering => 3 | .waking => 4

/-- A volume in STANDBY is woken: WAKING, or ACTIVE when its members never went down (R219). -/
def State.wakeVol (s : State) (v : BitVec 12) : State :=
  match s.powerOf v with
  | .standby => if s.membersDown v then s.setPower v .waking else s.setPower v .active
  | .active | .idle | .entering | .waking => s

/-- What the acceptance of an I/O command other than VOLUME_POWER does to its volume's power state; the flag says that the command is held. -/
def State.touchVol (s : State) (v : BitVec 12) (isFlush : Bool) : State × Bool :=
  match s.powerOf v with
  | .active => (s, false)
  | .idle => (s.setPower v .active, false)
  | .entering => ({ s with pools := s.pools.map fun p => p.updRun v fun r => { r with wake := true } }, true)
  | .standby => if isFlush then (s, false) else let s := s.wakeVol v; (s, s.powerOf v == .waking)
  | .waking => (s, true)

/-- Marks every gather entry of a volume due, as a FLUSH does (R75, R219). -/
def State.dueVol (s : State) (v : BitVec 12) (fua : Bool) : State :=
  let es := (s.cch.gather ++ s.cch.waitq).filter fun e => e.vol == v
  { s with cch := es.foldl (fun c e => c.makeDue e.pool e.layout e.stripe fua) s.cch }

/-! ### Ending a command -/

/-- A command's outcome is reached: its record is eligible at step 3 of the next edge (R33). Its hold slots are freed. -/
def State.endCmd (s : State) (id : Nat) (st : Stat) : State := s.updCmd id fun c => match c.st with
  | .eligible _ | .finished => c
  | .accepted | .running | .held | .forwarded _ _ => { c with st := .eligible st }

/-- VOLUME_POWER takes effect (R219). -/
def State.doPower (s : State) (c : Cmd) (tgt : Nat) : State :=
  let v := c.vol
  let cur := s.powerOf v
  let done := fun (s : State) => s.endCmd c.id (okStat (powerCode cur))
  let want : VPower := if tgt = 0 then .active else if tgt = 1 then .idle else .standby
  let remember := fun (s : State) => { s with pools := s.pools.map fun p => p.updRun v fun r => { r with powerCmd := some c.id, powerTgt := want } }
  match cur with
  | .active | .idle =>
    if tgt = 2 then State.updCmd (remember ((s.setPower v .entering).dueVol v false)) c.id fun c => { c with st := .running, lastGen := powerCode cur }
    else if want = cur then done s
    else done (s.setPower v want)
  | .standby =>
    if tgt = 2 then done s
    else
      let s := remember (s.wakeVol v)
      if s.powerOf v = .active then done (if tgt = 1 then s.setPower v .idle else s)
      else s.updCmd c.id fun c => { c with st := .held, lastGen := powerCode cur }
  | .entering =>
    State.updCmd { s with pools := s.pools.map fun p => p.updRun v fun r => { r with wake := true } } c.id fun c => { c with st := .held, lastGen := 3 }
  | .waking => s.updCmd c.id fun c => { c with st := .held, lastGen := 4 }

/-! ### Acceptance -/

/-- Is a command a write of volume data? -/
def IoOp.writes (op : IoOp) : Bool :=
  match op with
  | .write _ _ _ _ | .writeZeroes _ _ _ => true
  | .sealAppend _ _ _ store _ _ => store
  | .read _ _ _ _ | .flush | .abort _ _ | .verify _ _ | .sealOpen _ _ | .sealClose _ _ | .sealSave _ _ | .sealRestore _ _ | .volPower _ => false

/-- Is a command's record not yet eligible? -/
def Cmd.open_ (c : Cmd) : Bool :=
  match c.st with
  | .eligible _ | .finished => false
  | .accepted | .running | .held | .forwarded _ _ => true

/-- Does a command stand on the ring that an ABORT of this origin names (R241)? -/
def Origin.names (a t : Origin) (tq : BitVec 16) : Bool :=
  match a, t with
  | .ring q, .ring r => r.port == q.port && r.fn == q.fn && ringQid r == tq
  | .peer x _ p _, .peer y _ p' qid => x == y && p == p' && qid == tq
  | .ring _, .peer _ _ _ _ | .peer _ _ _ _, .ring _ | .gone, _ | .ring _, .gone | .peer _ _ _ _, .gone => false

/-- The target of an ABORT (R241): outstanding on the named ring with the named tag, and not the ABORT itself. -/
def State.abortTarget (s : State) (c : Cmd) (tq tt : BitVec 16) : Option Cmd :=
  s.ord.cmds.find? fun t => t.id ≠ c.id && c.org.names t.org tq && t.tag == tt && (t.acc.isSome || (match t.st with
    | .forwarded _ _ => true
    | .accepted | .running | .held | .eligible _ | .finished => false))

/-- Places a command on the ordered stream to the owner of its volume (R246, R302). -/
def State.placeFwd (s : State) (id : Nat) (owner : BitVec 12) : State :=
  match s.cmd id with
  | none => s
  | some c =>
    let fid := s.rop.fwdNext
    let s : State := { s with rop := { s.rop with fwdNext := fid + 1 } }
    (s.updCmd id fun c => { c with st := .forwarded owner fid }).sendSeq owner (.fwdCmd fid c.tag c.vol c.op)

/-- The volume blocks that a command writes. -/
def writtenBlocks (op : IoOp) : Option (Nat × Nat) :=
  match op with
  | .write v n _ _ | .writeZeroes v n _ => some (v, n)
  | .sealAppend v b _ store _ _ => if store then some (v, b / 4096) else none
  | .read _ _ _ _ | .verify _ _ | .flush | .abort _ _ | .sealOpen _ _ | .sealClose _ _ | .sealSave _ _ | .sealRestore _ _ | .volPower _ => none

/-- ORD accepts a command (R231): it takes its acceptance number, its ring moves on, and what depends on the moment of acceptance is fixed. -/
def State.acceptCmd (s : State) (id : Nat) : State :=
  match s.cmd id with
  | none => s
  | some c =>
    let n := s.ord.acc
    let s : State := { s with ord := { s.ord with acc := n + 1 } }
    let s := s.updCmd id fun c => { c with acc := some n, accEdge := s.edge, lockHeld := c.op.lock.isSome }
    let s := match c.org with
      | .ring q => s.consume q c.units
      | .peer _ _ _ _ | .gone => s
    match c.op with
    | .abort tq tt => match s.abortTarget c tq tt with
      | none => s
      | some t => match t.st with
        | .forwarded owner _ => (s.updCmd id fun c => { c with set := [t.id] }).placeFwd id owner
        | .accepted | .running | .held | .eligible _ | .finished => s.updCmd id fun c => { c with set := [t.id] }
    | .volPower tgt => s.doPower { c with acc := some n } tgt
    | .flush =>
      let ws := (s.ord.cmds.filter fun w => w.vol == c.vol && w.op.writes && w.acc.isSome && w.id ≠ id && (match w.st with
        | .eligible st => st.cls == 0
        | .accepted | .running | .held | .forwarded _ _ => true
        | .finished => false)).map (·.id)
      let slots := (s.cch.slots.filter fun e => e.2.vol == c.vol && e.2.st == .dirty && !e.2.mirror).map (·.1)
      let (s, held) : State × Bool := s.touchVol c.vol true
      s.updCmd id fun c => { c with set := ws, slotsLeft := slots, st := if held then .held else .running }
    | .read _ _ _ _ | .write _ _ _ _ | .verify _ _ | .sealOpen _ _ | .sealAppend _ _ _ _ _ _ | .sealClose _ _ | .sealSave _ _ | .sealRestore _ _
    | .writeZeroes _ _ _ =>
      let s : State := match writtenBlocks c.op with
        | some (v, n) => { s with cch := s.cch.cleanDropRange c.vol v n }
        | none => s
      let (s, held) : State × Bool := s.touchVol c.vol false
      s.updCmd id fun c => { c with st := if held then .held else .accepted }

/-- Grants every request that can be granted, in the order offered (R233, R235). -/
def State.grantAll (s : State) : Nat → State
  | 0 => s
  | fuel + 1 =>
    let locks := giveEntries (lockMax - s.ord.lockUsed) s.ord.locks
    let s : State := { s with ord := { s.ord with locks := locks } }
    match firstGrant [] locks with
    | none => s
    | some l =>
      let s : State := { s with ord := { s.ord with locks := updIf s.ord.locks (fun e => e.cmd == l.cmd) fun e => { e with held := true } } }
      State.grantAll (s.acceptCmd l.cmd) fuel

/-- The number of the next command: above every one in use. -/
def Ord.freshCmd (o : Ord) : Nat := o.cmds.foldl (fun n c => max n (c.id + 1)) o.nextCmd

/-- Offers a command to ORD (R233): without a lock it is accepted at once; with one it waits in the table until granted. -/
def State.offerCmd (s : State) (c : Cmd) : State :=
  let id := s.ord.freshCmd
  let c := { c with id := id }
  let s : State := { s with ord := { s.ord with cmds := s.ord.cmds ++ [c], nextCmd := id + 1 } }
  match c.op.lock with
  | none => s.acceptCmd id
  | some (v, n, x) =>
    let full := decide (s.ord.lockUsed ≥ lockMax)
    let s : State := { s with ord := { s.ord with locks := s.ord.locks ++ [⟨id, c.vol, v, n, x, false, !full⟩] } }
    let s := match c.org with
      | .ring q => s.updSq q fun r => { r with fetch := .waiting id }
      | .peer _ _ _ _ | .gone => s
    let s := s.iff full fun s =>
      let due := match s.ord.fullLog with
        | none => true
        | some e => decide (s.edge ≥ e + 1024)
      let s := s.bump .ordFullCntN
      if due then State.log { s with ord := { s.ord with fullLog := some s.edge } } .lockTableFull else s
    s.grantAll (s.ord.locks.length + 1)

/-- Releases the lock of a command and grants what then can be granted (R234). -/
def State.releaseLock (s : State) (id : Nat) : State :=
  { s with ord := { s.ord with locks := s.ord.locks.filter fun l => l.cmd ≠ id } }

/-- A command before it is offered. -/
def Cmd.new (org : Origin) (units : Nat) (tag : BitVec 16) (vol : BitVec 12) (op : IoOp) : Cmd :=
  { id := 0, org := org, units := units, tag := tag, vol := vol, op := op, acc := none, accEdge := 0, st := .accepted, next := 0, slices := [], rblks := []
    fail := none, lastGen := 0, repaired := 0, set := [], slotsLeft := [], mflush := [], credit := 0, rcvd := [], aborted := false, lockHeld := false
    pulled := [] }

/-- Removes a waiting request, which was never accepted (R236, R206). -/
def State.dropRequest (s : State) (id : Nat) : State :=
  { s with ord := { s.ord with cmds := s.ord.cmds.filter (fun c => c.id ≠ id), locks := s.ord.locks.filter fun l => l.cmd ≠ id } }

end Sys2Proof.Machine
end

