-- ==== Sys2Proof/Machine/Entry.lean ====
section
/-!
DEFINITION. Entries of a submission ring: their bytes (R188, R210, R214, R224), the checks before acceptance in the order of R439 (R199, R212, R438),
and scatter lists (R211, R212).
-/
namespace Sys2Proof.Machine

/-! ### Bytes of a unit -/

/-- Byte i of a unit. -/
def ub (u : RingUnit) (i : Nat) : Nat := ((u >>> (8 * i)).setWidth 8).toNat

/-- n bytes of a unit from offset i, little-endian. -/
def uf (u : RingUnit) (i n : Nat) : Nat := (u >>> (8 * i)).toNat % 256 ^ n

/-- The first unit of an entry. -/
def firstUnit (us : List RingUnit) : RingUnit := us.headD 0

/-- The list slot at an offset of a unit (R211). -/
def slotAt (u : RingUnit) (i : Nat) : ListEnt := ⟨w64 (uf u i 8), w32 (uf u (i + 8) 4), BitVec.ofNat 8 (ub u (i + 12)), BitVec.ofNat 24 (uf u (i + 13) 3)⟩

/-- Every list slot of an entry: at 0x20 of the first unit, then three in each later unit (R210, R212). -/
def entrySlots (us : List RingUnit) : List ListEnt :=
  slotAt (firstUnit us) 0x20 :: (us.drop 1).flatMap fun u => [slotAt u 0x10, slotAt u 0x20, slotAt u 0x30]

/-- Byte offset within the entry of list slot k, counted from 0. -/
def slotOff (k : Nat) : Nat := if k = 0 then 0x20 else 64 * (1 + (k - 1) / 3) + 0x10 + 16 * ((k - 1) % 3)

/-- Units of an inline list of n entries (R212). -/
def inlineUnits (n : Nat) : Nat := 1 + (n - 1 + 2) / 3

/-! ### Scatter lists (R211, R212) -/

/-- The largest data segment (R211). -/
def segMax : Nat := 0xFFFFFFC0

/-- Checks a list entry at place k: its type, its alignment, its range. `chain` says that a chain entry may stand there. -/
def entFault (chain : Bool) (k : Nat) (e : ListEnt) : Option Stat :=
  let d := min k 0xFFFF
  if e.typ.toNat > 1 ∨ (e.typ = 1 ∧ !chain) then some (stat 1 5 0 d)
  else if e.addr.toNat % 64 ≠ 0 ∨ e.len.toNat % 64 ≠ 0 then some (stat 1 4 0 d)
  else if e.typ = 1 then
    if e.len.toNat < 64 ∨ e.len.toNat > 4096 then some (stat 1 5 0 d)
    else if e.addr.toNat % 4096 + e.len.toNat > 4096 then some (stat 1 4 0 d) else none
  else if e.len.toNat < 64 ∨ e.len.toNat > segMax then some (stat 1 5 0 d) else none

/-- Checks an inline list from place k with a sum so far (R212). A sum beyond the transfer length is a fault in the total, detail 0 (log entry 125). -/
def inlineFault (total : Nat) : Nat → Nat → List ListEnt → Option Stat
  | _, sum, [] => if sum = total then none else some (stat 1 5)
  | k, sum, e :: rest =>
    match entFault false k e with
    | some f => some f
    | none => if sum + e.len.toNat > total then some (stat 1 5) else inlineFault total (k + 1) (sum + e.len.toNat) rest

/-- How the reading of a chained list goes on. -/
inductive ListRes where
  | fault (st : Stat)
  | next (e : ListEnt)      -- a chain entry leads to the next segment
  | whole                   -- the data segments reach the transfer length
  deriving DecidableEq, Repr

/-- Reads the entries of one list segment (R212): k counts every entry read, sum the bytes, segs the data segments, chains the chain entries. -/
def segScan (total : Nat) : Nat → Nat → Nat → Nat → List ListEnt → ListRes
  | _, _, _, _, [] => .fault (stat 1 5)
  | k, sum, segs, chains, e :: rest =>
    match entFault true k e with
    | some f => .fault f
    | none =>
      if e.typ = 1 then (if chains + 1 > 65536 then .fault (stat 1 5) else .next e)
      else if segs + 1 > 65536 then .fault (stat 1 5)
      else if sum + e.len.toNat > total then .fault (stat 1 5)
      else if sum + e.len.toNat = total then .whole
      else segScan total (k + 1) (sum + e.len.toNat) (segs + 1) chains rest

/-- Data segments of a list. -/
def dataSegs (l : List ListEnt) : List ListEnt := l.filter fun e => e.typ == 0

/-- Bytes that the data segments of a list carry. -/
def listBytes (l : List ListEnt) : Nat := ((dataSegs l).map fun e => e.len.toNat).foldl (· + ·) 0

/-- Chain entries of a list. -/
def chainCount (l : List ListEnt) : Nat := (l.filter fun e => e.typ == 1).length

/-- Checks a chained list whose entries stand in reading order, chain entries among them (R212). -/
def chainFault (total : Nat) (l : List ListEnt) : Option Stat :=
  match l with
  | [] => some (stat 1 5)
  | e :: rest =>
    if e.typ ≠ 1 then (match entFault true 1 e with
      | some f => some f
      | none => some (stat 1 5 0 1))
    else
      match entFault true 1 e with
      | some f => some f
      | none =>
        let step := fun (acc : Nat × Nat × Nat × Nat × Option Stat × Bool) (e : ListEnt) =>
          let (k, sum, segs, chains, f, fin) := acc
          if f.isSome || fin then acc
          else match entFault true k e with
            | some g => (k, sum, segs, chains, some g, fin)
            | none =>
              if e.typ = 1 then (k + 1, sum, segs, chains + 1, if chains + 1 > 65536 then some (stat 1 5) else none, fin)
              else if segs + 1 > 65536 then (k, sum, segs, chains, some (stat 1 5), fin)
              else if sum + e.len.toNat > total then (k, sum, segs, chains, some (stat 1 5), fin)
              else (k + 1, sum + e.len.toNat, segs + 1, chains, none, sum + e.len.toNat == total)
        let (_, _, _, _, f, fin) := rest.foldl step (2, 0, 0, 1, none, false)
        match f with
        | some g => some g
        | none => if fin then none else some (stat 1 5)

/-! ### Commands from entries -/

/-- Opcodes with their row of R214: the bytes of the first unit that carry fields, and the flag bits in use. -/
def ioFields (opc : Nat) : Option (List (Nat × Nat) × Nat) :=
  match opc with
  | 0x01 => some ([(8, 8), (0x10, 4), (0x14, 2), (0x20, 16)], 3)
  | 0x02 => some ([(8, 8), (0x10, 4), (0x14, 2), (0x20, 16)], 3)
  | 0x03 => some ([], 0)
  | 0x04 => some ([(8, 2), (0xA, 2)], 0)
  | 0x05 => some ([(8, 8), (0x10, 4)], 0)
  | 0x06 => some ([(8, 1), (0x10, 48)], 0)
  | 0x07 => some ([(8, 8), (0x10, 4), (0x14, 2), (0x18, 4), (0x20, 16)], 7)
  | 0x08 => some ([(8, 4), (0x10, 8)], 0)
  | 0x09 => some ([(8, 4), (0x10, 8)], 0)
  | 0x0A => some ([(0x10, 8)], 0)
  | 0x0B => some ([(8, 1)], 0)
  | 0x0C => some ([(8, 8), (0x10, 4)], 2)
  | _ => none

/-- The bytes of an admin entry that carry fields: by opcode (R224), for POOL_OP and VOLUME_OP by operation (R226, R228). -/
def admFields (opc op : Nat) : List (Nat × Nat) :=
  match opc with
  | 0x80 => [(8, 8), (0x18, 1)]
  | 0x81 => [(8, 8), (0x10, 8), (0x18, 8), (0x20, 1), (0x21, 1), (0x22, 2), (0x24, 2), (0x26, 2), (0x28, 2), (0x2A, 1)]
  | 0x82 | 0x83 | 0x84 => [(0x20, 1), (0x22, 2)]
  | 0x88 => [(8, 8), (0x10, 4), (0x18, 1), (0x1A, 2)]
  | 0x89 => [(8, 8), (0x10, 4), (0x18, 1), (0x1A, 2)] ++ (match op with
    | 5 => [(0x1C, 2)]
    | 6 => [(0x1C, 2), (0x20, 4)]
    | 9 => [(0x1C, 4)]
    | 10 => [(0x20, 8), (0x28, 4)]
    | 11 => [(0x1C, 1), (0x1E, 2)]
    | _ => [])
  | 0x8A => [(0x18, 1), (0x19, 1), (0x1A, 2), (0x1C, 4), (0x20, 8)]
  | 0x90 => [(8, 8), (0x10, 4), (0x18, 8), (0x20, 1)]
  | 0x91 => [(8, 8), (0x10, 4), (0x18, 1), (0x1A, 2), (0x1C, 4), (0x20, 32)]
  | 0x98 => [(8, 8), (0x10, 4), (0x18, 1), (0x1C, 4)]
  | 0x99 => [(0x18, 1), (0x1C, 4)]
  | 0x9A => [(8, 8), (0x18, 1)]
  | 0x9B => [(0x18, 1)]
  | _ => []

/-- Case 5 of R439 for an admin entry: flags, header nibble, bytes that no field takes, and the unused bits of CREATE_QUEUE's and its kin's ring byte and of
its relaxed-ordering byte (R5, R224). -/
def admReserved (us : List RingUnit) : Option Stat :=
  let u := firstUnit us
  let opc := ub u 2
  let fs := admFields opc (ub u 0x18)
  let named := fun (i : Nat) => fs.any fun f => decide (f.1 ≤ i) && decide (i < f.1 + f.2)
  let ring := decide (0x81 ≤ opc ∧ opc ≤ 0x84)
  let bad := (if ub u 3 ≠ 0 then [3] else []) ++ (if ub u 7 / 16 ≠ 0 then [7] else [])
    ++ (((List.range 56).map (· + 8)).filter fun i => !named i && ub u i ≠ 0)
    ++ (if ring && ub u 0x20 ≥ 4 then [0x20] else []) ++ (if opc == 0x81 && ub u 0x2A ≥ 2 then [0x2A] else [])
  match sortedKeys bad with
  | [] => none
  | o :: _ => some (stat 1 3 0 o)

/-- Fields of an admin entry with a closed list of values (R224, R226, R228): the offset, the lowest and the highest value. -/
def admRange (opc : Nat) : Option (Nat × Nat × Nat) :=
  match opc with
  | 0x80 => some (0x18, 0, 1)
  | 0x88 => some (0x18, 0, 1)
  | 0x89 => some (0x18, 1, 12)
  | 0x8A => some (0x18, 1, 4)
  | 0x90 => some (0x20, 0, 1)
  | 0x91 => some (0x18, 0, 1)
  | 0x98 => some (0x18, 0, 1)
  | 0x99 => some (0x18, 0, 1)
  | 0x9A => some (0x18, 1, 3)
  | 0x9B => some (0x18, 0, 1)
  | _ => none

/-- Case 6 of R439 for an admin entry that names no row: the header volume id of a POOL_OP other than RELEASE_LOST (R226), and a value outside its list. -/
def admValue (us : List RingUnit) : Option Stat :=
  let u := firstUnit us
  let opc := ub u 2
  if opc = 0x89 ∧ ub u 0x18 ≠ 10 ∧ uf u 6 2 % 4096 ≠ 0 then some (stat 1 2 0 6)
  else match admRange opc with
    | some (off, lo, hi) => if ub u off < lo ∨ hi < ub u off then some (stat 1 2 0 off) else none
    | none => none

/-- Admin opcodes that are assigned (R224). -/
def adminOpcodes : List Nat := [0x80, 0x81, 0x82, 0x83, 0x84, 0x88, 0x89, 0x8A, 0x90, 0x91, 0x92, 0x98, 0x99, 0x9A, 0x9B]

/-- Does an opcode carry a scatter list? -/
def hasList (opc : Nat) : Bool := opc == 1 || opc == 2 || opc == 7

/-- The I/O command that an entry's bytes spell, with its inline list or the first entry of a chained one. -/
def decodeIo (us : List RingUnit) : Option IoOp :=
  let u := firstUnit us
  let fl := ub u 3
  let n := uf u 0x14 2
  let list := if fl % 2 = 1 then [slotAt u 0x20] else (entrySlots us).take n
  match ub u 2 with
  | 0x01 => some (.read (uf u 8 8) (uf u 0x10 4) (fl / 2 % 2 == 1) list)
  | 0x02 => some (.write (uf u 8 8) (uf u 0x10 4) (fl / 2 % 2 == 1) list)
  | 0x03 => some .flush
  | 0x04 => some (.abort (BitVec.ofNat 16 (uf u 8 2)) (BitVec.ofNat 16 (uf u 0xA 2)))
  | 0x05 => some (.verify (uf u 8 8) (uf u 0x10 4))
  | 0x06 => some (.sealOpen (BitVec.ofNat 8 (ub u 8)) (BitVec.ofNat 384 (uf u 0x10 48)))
  | 0x07 => some (.sealAppend (uf u 8 8) (uf u 0x10 4) (w32 (uf u 0x18 4)) (fl / 2 % 2 == 1) (fl / 4 % 2 == 1) list)
  | 0x08 => some (.sealClose (w32 (uf u 8 4)) (w64 (uf u 0x10 8)))
  | 0x09 => some (.sealSave (w32 (uf u 8 4)) (w64 (uf u 0x10 8)))
  | 0x0A => some (.sealRestore (w64 (uf u 0x10 8)) none)
  | 0x0B => some (.volPower (ub u 8))
  | 0x0C => some (.writeZeroes (uf u 8 8) (uf u 0x10 4) (fl / 2 % 2 == 1))
  | _ => none

/-- Cases 1 to 3 of R439 for an entry's bytes: lap tags, opcode, length in units. -/
def earlyFault (isData : Bool) (us : List RingUnit) : Option Stat :=
  let u := firstUnit us
  let lap := ub u 0
  match (List.range us.length).find? fun i => ub (us.getD i 0) 0 ≠ lap with
  | some i => some (stat 1 9 0 i)
  | none =>
    let opc := ub u 2
    if isData && (ioFields opc).isNone then some (stat 1 1)
    else if !isData && !adminOpcodes.contains opc then some (stat 1 1)
    else if us.length ≠ 1 && !(isData && hasList opc) then some (stat 1 2 0 1)
    else if isData && hasList opc then
      if ub u 3 % 2 = 1 then (if us.length ≠ 1 then some (stat 1 5) else none)
      else
        let n := uf u 0x14 2
        if n ≥ 1 ∧ n ≤ 46 ∧ us.length ≠ inlineUnits n then some (stat 1 5) else none
    else none

/-- Case 5 of R439: the lowest byte offset of a reserved field that is not zero (R5, R210, R212). -/
def reservedFault (us : List RingUnit) : Option Stat :=
  let u := firstUnit us
  match ioFields (ub u 2) with
  | none => none
  | some (fs, mask) =>
    let named := fun (i : Nat) => fs.any fun f => decide (f.1 ≤ i) && decide (i < f.1 + f.2)
    let n := if hasList (ub u 2) then (if ub u 3 % 2 = 1 then 1 else uf u 0x14 2) else 0
    let slots := (entrySlots us).length
    let bytesOf := fun (off : Nat) => ub (us.getD (off / 64) 0) (off % 64)
    let head := (if ub u 3 &&& (255 - mask) ≠ 0 then [3] else []) ++ (if ub u 7 / 16 ≠ 0 then [7] else [])
      ++ ((List.range 56).map (· + 8)).filter fun i => !named i && ub u i ≠ 0
    let listRsv := (List.range (min n slots)).flatMap fun k => ((List.range 3).map fun j => slotOff k + 13 + j).filter fun o => bytesOf o ≠ 0
    let later := (List.range (us.length - 1)).flatMap fun i => ((List.range 15).map fun j => 64 * (i + 1) + 1 + j).filter fun o => bytesOf o ≠ 0
    let unused := ((List.range slots).filter fun k => decide (k ≥ n) && decide (k > 0 ∨ hasList (ub u 2))).flatMap fun k =>
      ((List.range 16).map fun j => slotOff k + j).filter fun o => bytesOf o ≠ 0
    match sortedKeys (head ++ listRsv ++ later ++ unused) with
    | [] => none
    | o :: _ => some (stat 1 3 0 o)

/-- Field values that an entry's bytes show and the decoded command does not: the Entries field and the volume of an ABORT (case 6 of R439). -/
def entriesFault (us : List RingUnit) : Option Stat :=
  let u := firstUnit us
  if hasList (ub u 2) then
    let n := uf u 0x14 2
    if ub u 3 % 2 = 1 then (if n ≠ 0 then some (stat 1 2 0 0x14) else none)
    else if n < 1 ∨ n > 46 then some (stat 1 2 0 0x14) else none
  else if ub u 2 = 4 ∧ uf u 6 2 % 4096 ≠ 0 then some (stat 1 2 0 6)
  else none

/-- A block count within R214. -/
def countFault (n : Nat) : Option Stat := if n < 1 ∨ n > 65536 then some (stat 1 2 0 0x10) else none

/-- Case 6 of R439 for a decoded command: illegal field values. -/
def valueFault (op : IoOp) : Option Stat :=
  match op with
  | .read _ n _ _ => countFault n
  | .write _ n _ _ => countFault n
  | .verify _ n => countFault n
  | .writeZeroes _ n _ => countFault n
  | .flush => none
  | .abort _ _ => none
  | .sealOpen p _ => if p.toNat > 1 then some (stat 1 2 0 8) else none
  | .sealAppend v b _ store mem _ =>
    if mem && !store then some (stat 1 2 0 3)
    else if !store && decide (v ≠ 0) then some (stat 1 2 0 8)
    else if b < 1 ∨ b > 268435456 then some (stat 1 2 0 0x10) else none
  | .sealClose _ _ | .sealSave _ _ | .sealRestore _ _ => none
  | .volPower t => if t > 2 then some (stat 1 2 0 8) else none

/-- Case 7 of R439: a misaligned address in the entry's own fields. -/
def alignFault (op : IoOp) : Option Stat :=
  let bad := fun (a : BitVec 64) => if a.toNat % 64 ≠ 0 then some (stat 1 4) else none
  match op with
  | .sealClose _ a => bad a
  | .sealSave _ a => bad a
  | .sealRestore a _ => bad a
  | .read _ _ _ _ | .write _ _ _ _ | .verify _ _ | .writeZeroes _ _ _ | .flush | .abort _ _ | .sealOpen _ _ | .sealAppend _ _ _ _ _ _ | .volPower _ => none

/-- Transfer length of a command (R212). -/
def transferLen (op : IoOp) : Nat :=
  match op with
  | .read _ n _ _ => n * 4096
  | .write _ n _ _ => n * 4096
  | .sealAppend _ b _ _ _ _ => (b + 63) / 64 * 64
  | .verify _ _ | .writeZeroes _ _ _ | .flush | .abort _ _ | .sealOpen _ _ | .sealClose _ _ | .sealSave _ _ | .sealRestore _ _ | .volPower _ => 0

/-- Scatter list of a command. -/
def listOf (op : IoOp) : Option (List ListEnt) :=
  match op with
  | .read _ _ _ l => some l
  | .write _ _ _ l => some l
  | .sealAppend _ _ _ _ _ l => some l
  | .verify _ _ | .writeZeroes _ _ _ | .flush | .abort _ _ | .sealOpen _ _ | .sealClose _ _ | .sealSave _ _ | .sealRestore _ _ | .volPower _ => none

/-- Case 8 of R439: the scatter list. -/
def listFault (op : IoOp) (chained : Bool) : Option Stat :=
  match listOf op with
  | none => none
  | some l => if chained then chainFault (transferLen op) l else inlineFault (transferLen op) 1 0 l

/-- Who serves a volume (R223). -/
inductive VolAt where
  | here (size : Nat)
  | at_ (owner : BitVec 12)
  | unknown
  deriving DecidableEq, Repr

/-- Looks a volume up (R223). -/
def State.lookVol (s : State) (v : BitVec 12) : VolAt :=
  match (s.poolOf v).bind (·.vol v) with
  | some m => .here m.size
  | none =>
    match tget s.rop.dir v with
    | some e => if e.owner = s.selfAddr then .unknown else .at_ e.owner
    | none => .unknown

/-- Cases 9 and 10 of R439: an unknown volume, a range beyond it. -/
def State.rangeFault (s : State) (v : BitVec 12) (op : IoOp) : Option Stat :=
  let past := fun (size first n : Nat) => if first + n > size then some (stat 1 6) else none
  match op with
  | .abort _ _ => none
  | _ =>
    match s.lookVol v with
    | .unknown => some (stat 1 7)
    | .at_ _ => none
    | .here size =>
      match op with
      | .read f n _ _ => past size f n
      | .write f n _ _ => past size f n
      | .verify f n => past size f n
      | .writeZeroes f n _ => past size f n
      | .sealAppend f b _ store _ _ => if store then (if b % 4096 ≠ 0 then some (stat 1 6) else past size f (b / 4096)) else none
      | .flush | .abort _ _ | .sealOpen _ _ | .sealClose _ _ | .sealSave _ _ | .sealRestore _ _ | .volPower _ => none

/-- Is a tag that of a command outstanding on a ring (R199)? -/
def State.dupTag (s : State) (q : RingRef) (tag : BitVec 16) : Bool :=
  (s.ord.cmds.any fun c => c.org == .ring q && c.tag == tag && (c.acc.isSome || (match c.st with
    | .forwarded _ _ => true
    | .accepted | .running | .held | .eligible _ | .finished => false))) || s.qe.outAdm.contains (q, tag) || s.qe.doneAdm.contains (q, tag)

/-- The length in units that a decoded command's entry must have (case 3 of R439). -/
def unitsFault (op : IoOp) (units : Nat) (chained : Bool) : Option Stat :=
  match listOf op with
  | none => if units = 1 then none else some (stat 1 2 0 1)
  | some l =>
    if chained then (if units = 1 then none else some (stat 1 5))
    else if 1 ≤ l.length ∧ l.length ≤ 46 ∧ units ≠ inlineUnits l.length then some (stat 1 5) else none

/-- The Entries field of an inline list (case 6 of R439), for a decoded command. -/
def entriesOf (op : IoOp) (chained : Bool) : Option Stat :=
  match listOf op with
  | none => none
  | some l => if !chained && (decide (l.length < 1) || decide (l.length > 46)) then some (stat 1 2 0 0x14) else none

/-- The reserved bytes of list entries (case 5 of R439), for a decoded command. Detail 0 for an entry of a list segment, which lies in no byte of the entry
(log entry 18). -/
def listReserved (op : IoOp) : Option Stat :=
  match listOf op with
  | none => none
  | some l =>
    match l.findIdx? fun e => e.rsvd ≠ 0 with
    | none => none
    | some k => (l[k]?).map fun e => if k > 0 ∧ (l.head?.map (·.typ)) = some 1 then stat 1 3 else stat 1 3 0 (slotOff k + 13 + (if e.rsvd.toNat % 256 ≠ 0 then 0 else if e.rsvd.toNat / 256 % 256 ≠ 0 then 1 else 2))

/-- Cases 6 to 10 of R439. -/
def State.opFault (s : State) (v : BitVec 12) (op : IoOp) (chained : Bool) : Option Stat :=
  (valueFault op).or ((entriesOf op chained).or ((alignFault op).or ((listFault op chained).or (s.rangeFault v op))))

end Sys2Proof.Machine
end

