-- ==== Sys2Proof/Machine/Lists.lean ====
section
/-!
DEFINITION. DMV's source and destination lists: where the HBM regions lie (R66), the entries and segments of a list (R253, R254), the lists that an owner
builds for a transfer, and the checks of a descriptor and of each entry (R252, R255).
-/
namespace Sys2Proof.Machine

/-! ### Addresses in HBM (R66, R69) -/

/-- HBM of a variant in MiB (R1). -/
def hbmMib (v : Variant) : Nat := (if v = .h96 then 96 else 192) * 1024

/-- The regions of R66. -/
inductive Region where
  | internal | work | ring | hold | metadata | dirty | recv | clean
  deriving DecidableEq, Repr

/-- Place of a region in the order of R66. -/
def Region.ix (r : Region) : Nat :=
  match r with
  | .internal => 0 | .work => 1 | .ring => 2 | .hold => 3 | .metadata => 4 | .dirty => 5 | .recv => 6 | .clean => 7

/-- First byte of a region. -/
def Cch.base (c : Cch) (r : Region) : Nat := c.regions.getD r.ix 0

/-- First byte of a dirty slot; those that serve after a takeover lie in the receive area (R69, R304). -/
def Cch.slotAddr (c : Cch) (i : Nat) : Nat :=
  if i < c.dirtySlots then c.base .dirty + 4160 * i else c.base .recv + 4160 * (i - c.dirtySlots)

/-! ### Entries (R253, R254) -/

/-- SPACE of an entry. -/
def spaceCode (x : DmvSpace) : Nat :=
  match x with
  | .hbm => 0 | .host0 => 1 | .host1 => 2 | .memberQ => 3 | .ropeQ => 4 | .vault => 5

/-- SPACE. -/
def DmvEnt.space (e : DmvEnt) : Nat := e.flags.toNat % 8

/-- LAST. -/
def DmvEnt.last (e : DmvEnt) : Bool := e.flags.getLsbD 3

/-- CHAIN. -/
def DmvEnt.chain (e : DmvEnt) : Bool := e.flags.getLsbD 4

/-- RO. -/
def DmvEnt.ro (e : DmvEnt) : Bool := e.flags.getLsbD 5

/-- PORT. -/
def DmvEnt.port (e : DmvEnt) : Nat := e.flags.toNat / 256 % 16

/-- A data entry. -/
def dataEnt (x : DmvSpace) (port addr len : Nat) (ro : Bool := false) : DmvEnt :=
  { addr := w64 addr, len := w32 len, flags := w32 (spaceCode x + (if ro then 32 else 0) + 256 * port) }

/-- Data entries of a full segment: 4 KiB with its chain entry. -/
def segEnts : Nat := 255

/-- Splits the entries of a list over segments of 4 KiB at rising addresses, each but the last ending in a chain entry. -/
def segments : Nat → Nat → List DmvEnt → List (Nat × List DmvEnt)
  | 0, _, _ => []
  | fuel + 1, at_, l =>
    let now := l.take segEnts
    let rest := l.drop segEnts
    if rest.isEmpty then [(at_, now)]
    else
      let bytes := (16 * min (rest.length) (segEnts + 1) + 63) / 64 * 64
      (at_, now ++ [{ addr := w64 (at_ + 4096), len := w32 bytes, flags := 16 }]) :: segments fuel (at_ + 4096) rest

/-- Marks the last data entry of a list. -/
def markLast (l : List DmvEnt) : List DmvEnt :=
  match l.reverse with
  | [] => []
  | e :: r => ({ e with flags := e.flags ||| 8 } :: r).reverse

/-- A list laid out in HBM from an address on. -/
def buildList (at_ : Nat) (l : List DmvEnt) : DmvList := { at_ := at_, segs := segments (l.length + 1) at_ (markLast l) }

/-! ### Checks (R255) -/

/-- What a check finds. `align`: an address or length is not a multiple of 64; else the list is invalid. `entry` counts from 0. -/
structure ListFault where
  align : Bool
  entry : Nat
  moved : Nat
  dst   : Bool
  space : Nat
  deriving DecidableEq, Repr

/-- The check of one entry on its own: some true when an address or length is not a multiple of 64, some false when it is illegal. -/
def DmvEnt.fault (e : DmvEnt) (dst roOk : Bool) (hbm : Nat) : Option Bool :=
  let sp := e.space
  let port := decide (sp = 3 ∨ sp = 4)
  if e.addr.toNat % 64 ≠ 0 ∨ e.len.toNat % 64 ≠ 0 then some true
  else if sp ≥ 6 ∨ e.flags.toNat / 64 % 4 ≠ 0 ∨ e.flags.toNat / 2 ^ 12 ≠ 0 ∨ (!port && e.port != 0) then some false
  else if port && decide (e.addr.toNat / 2 ^ 56 ≠ 0) then some false
  else if e.ro && !(roOk && dst && decide (sp = 1 ∨ sp = 2)) then some false
  else if e.len.toNat < 64 ∨ e.len.toNat > 0xFFFFFFC0 then some false
  else if e.chain && (decide (sp ≠ 0) || decide (e.len.toNat > 4096) || decide (e.addr.toNat % 4096 + e.len.toNat > 4096) || decide (e.addr.toNat ≥ hbm)) then some false
  else none

/-- Reads a list as DMV does: segment after segment, each entry checked before a byte moves through it. `k` counts the entries read, `n` the data entries,
`pos` the bytes that the data entries so far cover. -/
def scanList (l : DmvList) (dst roOk : Bool) (hbm total : Nat) : Nat → List DmvEnt → Nat → Nat → Nat → Option ListFault
  | 0, _, k, _, pos => some ⟨false, k, pos, dst, 0⟩
  | _ + 1, [], k, _, pos => if pos = total then none else some ⟨false, k - 1, pos, dst, 0⟩
  | fuel + 1, e :: rest, k, n, pos =>
    if pos = total then none
    else match e.fault dst roOk hbm with
      | some a => some ⟨a, k, pos, dst, e.space⟩
      | none =>
        if e.chain then scanList l dst roOk hbm total fuel ((tget l.segs e.addr.toNat).getD []) (k + 1) n pos
        else if n + 1 > 65536 ∨ pos + e.len.toNat > total then some ⟨false, k, pos, dst, e.space⟩
        else scanList l dst roOk hbm total fuel rest (k + 1) (n + 1) (pos + e.len.toNat)

/-- Entries of a list, chain entries included: the reading goes no further. -/
def DmvList.count (l : DmvList) : Nat := (l.segs.map fun e => e.2.length).foldl (· + ·) 0

/-- Checks one list of a descriptor. -/
def Desc.listFault (d : Desc) (dst : Bool) (hbm : Nat) : Option ListFault :=
  let l := if dst then d.dst else d.src
  scanList l dst d.relaxed hbm d.len (l.count + 2) ((tget l.segs l.at_).getD []) 0 0 0

/-- The check of the descriptor when it becomes active: list addresses and length multiples of 64, length, priority and weight in their ranges (R252). -/
def Desc.fault (d : Desc) : Option ListFault :=
  if d.src.at_ % 64 ≠ 0 ∨ d.dst.at_ % 64 ≠ 0 ∨ d.len % 64 ≠ 0 then some ⟨true, 0xFFFF, 0, false, 0⟩
  else if d.len < 64 ∨ d.len > 0xFFFFFFC0 ∨ d.prio > 7 ∨ d.weight < 1 ∨ d.weight > 16 then some ⟨false, 0xFFFF, 0, false, 0⟩
  else none

/-- The fault that the transfer of a descriptor meets first: the one before which fewer bytes move, the source list's when both stand at the same byte. -/
def Desc.firstFault (d : Desc) (hbm : Nat) : Option ListFault :=
  match d.fault, d.listFault false hbm, d.listFault true hbm with
  | some f, _, _ => some f
  | none, some a, some b => some (if b.moved < a.moved then b else a)
  | none, a, b => a.or b

/-- Bytes that the entries of a list before an index cover. -/
def DmvList.upTo (l : DmvList) (entry : Nat) : Nat :=
  (((l.segs.flatMap (·.2)).take entry).filter fun e => !e.chain).foldl (fun n e => n + e.len.toNat) 0

/-! ### The lists of the owners -/

/-- Cuts a range of bytes out of host segments: entries of a host space. -/
def cutSegs (x : DmvSpace) (ro : Bool) : Nat → Nat → List ListEnt → List DmvEnt
  | _, _, [] => []
  | off, n, e :: rest =>
    let len := e.len.toNat
    if n = 0 then []
    else if off ≥ len then cutSegs x ro (off - len) n rest
    else
      let take := min n (len - off)
      dataEnt x 0 (e.addr.toNat + off) take ro :: cutSegs x ro 0 (n - take) rest

/-- Slots of the hold buffer (R84). -/
def holdMax : Nat := 16132

/-- The entry of the hold slot of a block of a command. DESIGN CHOICE: which hold slot a block takes is the model's. -/
def State.holdEnt (s : State) (cmd vbn : Nat) : DmvEnt := dataEnt .hbm 0 (s.cch.base .hold + 4160 * ((2048 * cmd + vbn) % holdMax)) 4096

/-- First block and data segments of a command's payload. -/
def payloadOf (op : IoOp) : Nat × List ListEnt :=
  match op with
  | .read v _ _ l | .write v _ _ l | .sealAppend v _ _ _ _ l => (v, dataSegs l)
  | .flush | .abort _ _ | .verify _ _ | .sealOpen _ _ | .sealClose _ _ | .sealSave _ _ | .sealRestore _ _ | .volPower _ | .writeZeroes _ _ _ => (0, [])

/-- The host address that a seal record or context is written to or read from. -/
def sealAddr (op : IoOp) : Nat :=
  match op with
  | .sealClose _ a | .sealSave _ a => a.toNat
  | .sealRestore a _ => a.toNat
  | .read _ _ _ _ | .write _ _ _ _ | .flush | .abort _ _ | .verify _ _ | .sealOpen _ _ | .sealAppend _ _ _ _ _ _ | .volPower _ | .writeZeroes _ _ _ => 0

/-- Byte offset of a slice within its command's payload, and the HBM entries that its bytes land in: its dirty slots, else the internal region. -/
def State.sliceEnts (s : State) (c : Cmd) (slice len : Nat) : Nat × List DmvEnt :=
  match c.slices.find? fun x => x.id == slice with
  | none => (0, [dataEnt .hbm 0 (s.cch.base .internal) len])
  | some sl =>
    let bytes := match c.op with
      | .sealAppend _ _ _ store _ _ => !store
      | _ => false
    if bytes then (sl.off, [dataEnt .hbm 0 (s.cch.base .internal) len])
    else if sl.slots.isEmpty then (4096 * sl.off, [dataEnt .hbm 0 (s.cch.base .internal) len])
    else (4096 * sl.off, sl.slots.map fun i => dataEnt .hbm 0 (s.cch.slotAddr i) 4096)

/-- Places of a slice whose dirty slots have no block yet: a second fetch takes those alone (R166). -/
def State.lacking (s : State) (c : Cmd) (slice : Nat) : List (Nat × Nat) :=
  match c.slices.find? fun x => x.id == slice with
  | none => []
  | some sl => (sl.slots.zipIdx.filter fun e => match tget s.cch.slots e.1 with
      | some k => k.blk.isNone
      | none => false).map fun e => (sl.off + e.2, e.1)

/-- Source and destination entries of a transfer (R251): what its owner puts into the lists. -/
def State.ents (s : State) (p : Purpose) (x : DmvSpace) (len handle : Nat) (ro : Bool) : List DmvEnt × List DmvEnt :=
  let internal := [dataEnt .hbm 0 (s.cch.base .internal) len]
  let work := [dataEnt .hbm 0 (s.cch.base .work) len]
  let cmdOf := fun (id : Nat) => s.ord.cmds.find? fun c => c.id == id
  match p with
  | .pull id slice => match cmdOf id with
    | none => (internal, internal)
    | some c =>
      let (off, dst) := s.sliceEnts c slice len
      let segs := (payloadOf c.op).2
      if 4096 * dst.length = len then (cutSegs x false off len segs, dst)
      else match s.lacking c slice with
        | [] => (cutSegs x false off len segs, dst)
        | l => (l.flatMap fun e => cutSegs x false (4096 * e.1) 4096 segs, l.map fun e => dataEnt .hbm 0 (s.cch.slotAddr e.2) 4096)
  | .push id vbns => match cmdOf id with
    | none => (internal, internal)
    | some c =>
      let (v, segs) := payloadOf c.op
      (vbns.map (s.holdEnt id), vbns.flatMap fun b => cutSegs x ro (4096 * (b - v)) 4096 segs)
  | .sealOut id => (internal, [dataEnt x 0 (((cmdOf id).map fun c => sealAddr c.op).getD 0) len])
  | .sealIn id => ([dataEnt x 0 (((cmdOf id).map fun c => sealAddr c.op).getD 0) len], internal)
  | .destage port | .journal port | .background port => (work, [dataEnt .memberQ port handle len])
  | .rope port => ([dataEnt .hbm 0 (s.cch.base .dirty) len], [dataEnt .ropeQ port handle len])
  | .vault => (internal, [dataEnt .vault 0 0 len])

/-- The places in the internal region where a channel's lists lie. DESIGN CHOICE: R253 leaves them to the owner. -/
def State.listAt (s : State) (ch : Nat) (dst : Bool) : Nat := s.cch.base .internal + 2 ^ 20 * (2 * ch + (if dst then 1 else 0)) % 2 ^ 29

end Sys2Proof.Machine
end

