-- ==== Sys2Proof/Machine/Rings.lean ====
section
/-!
DEFINITION. QE: doorbells, host lines, the fetch procedure and what becomes of each entry (R184, R185, R192 to R201), and the I/O commands of R214 as
entries offered on a ring.
-/
namespace Sys2Proof.Machine

/-! ### FAIL_STOP (R200, R201) -/

/-- The requests that wait for a lock: read and not accepted. -/
def State.unaccepted (s : State) : List Nat :=
  (s.ord.cmds.filter fun c => c.acc.isNone && (match c.st with
    | .forwarded _ _ => false
    | .accepted | .running | .held | .eligible _ | .finished => true)).map (·.id)

/-- A structural finding (R200): the module enters FAIL_STOP at the first; entries read and not accepted are discarded. -/
def State.malformed (s : State) (q : RingRef) (cause idx lo hi : Nat) : State :=
  if s.phase ≠ .online then s
  else
    let s : State := { s with phase := .failStop, qe := { s.qe with failAt := some s.edge
                                                                    sqs := s.qe.sqs.map fun e => (e.1, { e.2 with fetch := .idle, pend := false }) } }
    let s := s.each s.unaccepted State.dropRequest
    let s := (((s.setReg .qeMalfQQid (ringQid q).toNat).setReg .qeMalfQPort q.port.val).setReg .qeMalfQCause cause).setReg .qeMalfIdxC idx
    let s := ((s.setReg .qeMalfHdrLoB lo).setReg .qeMalfHdrHiB hi).setReg .qeStatFailStop 1
    (s.setReg .glbAlertFailStop 1).log .ringMalformed 1 (ringQid q).toNat 0 idx cause

/-! ### Rejection and offering -/

/-- QE rejects an entry (R199): its completion posts at the next edge, and H moves past it. -/
def State.reject (s : State) (q : RingRef) (units : Nat) (tag : BitVec 16) (st : Stat) : State :=
  ((s.bump .qeIllegalCntN).eligible q tag st none none).consume q units

/-- The credit of a forwarded READ (R302). -/
def fwdCredit (op : IoOp) : Nat :=
  match op with
  | .read _ n _ _ => min n 2048
  | .write _ _ _ _ | .writeZeroes _ _ _ | .flush | .abort _ _ | .verify _ _ | .sealOpen _ _ | .sealAppend _ _ _ _ _ _ | .sealClose _ _ | .sealSave _ _
  | .sealRestore _ _ | .volPower _ => 0

/-- An entry for another module's volume is placed on the stream to its owner when its hold slots can be reserved (R302); a LOST owner ends it with
class 0x03 code 0x05 (R223). -/
def State.forwardEntry (s : State) (q : RingRef) (units : Nat) (tag : BitVec 16) (vol : BitVec 12) (op : IoOp) (owner : BitVec 12) : State :=
  let n := fwdCredit op
  if s.cch.holdUsed + n > holdMax then s.updSq q fun r => { r with fetch := .slots units tag vol op }
  else
    let id := s.ord.freshCmd
    let c := { Cmd.new (.ring q) units tag vol op with id := id, accEdge := s.edge, credit := n }
    let s : State := { s with ord := { s.ord with cmds := s.ord.cmds ++ [c], nextCmd := id + 1 } }
    if s.peerUp owner then
      ((State.placeFwd { s with cch := { s.cch with holdUsed := s.cch.holdUsed + n } } id owner)).consume q units
    else (s.endCmd id (stat 3 5 0 owner.toNat)).consume q units

/-- Offers an I/O entry that passed its checks (R195, R223, R233). -/
def State.offerIo (s : State) (q : RingRef) (units : Nat) (tag : BitVec 16) (vol : BitVec 12) (op : IoOp) : State :=
  match op with
  | .abort _ _ => s.offerCmd (Cmd.new (.ring q) units tag vol op)
  | .read _ _ _ _ | .write _ _ _ _ | .writeZeroes _ _ _ | .flush | .verify _ _ | .sealOpen _ _ | .sealAppend _ _ _ _ _ _ | .sealClose _ _ | .sealSave _ _
  | .sealRestore _ _ | .volPower _ =>
    match s.lookVol vol with
    | .at_ owner => s.forwardEntry q units tag vol op owner
    | .here _ | .unknown => s.offerCmd (Cmd.new (.ring q) units tag vol op)

/-- Entries for other modules that wait for hold slots are offered again (R302). -/
def State.offerWaiting (s : State) : State :=
  s.each s.qe.sqs fun s e => match e.2.fetch with
    | .slots units tag vol op => if e.2.st = .enabled ∧ s.phase = .online then s.offerIo e.1 units tag vol op else s
    | .idle | .line | .first | .rest _ | .segment _ _ _ _ | .waiting _ => s

/-- Does a ring take an entry now: enabled, the module ONLINE, no entry of it waiting? -/
def State.takesEntry (s : State) (q : RingRef) : Bool :=
  match s.sq q with
  | some r => r.st == .enabled && s.phase == .online && (match r.fetch with
    | .waiting _ | .slots _ _ _ _ => false
    | .idle | .line | .first | .rest _ | .segment _ _ _ _ => true)
  | none => false

/-- An I/O entry whose fields are given (the rows READ to WRITE_ZEROES): the checks of R439, then the offer. -/
def State.offerRow (s : State) (q : RingRef) (hd : EntryHdr) (op : IoOp) : State :=
  if !s.takesEntry q then s
  else
    let chained := match listOf op with
      | some (e :: _) => e.typ == 1
      | some [] | none => false
    let f := if q.fn = .pf0 then some (stat 1 1)
      else (unitsFault op hd.units chained).or ((if s.dupTag q hd.tag then some (stat 1 8) else none).or ((listReserved op).or (s.opFault hd.vol op chained)))
    match f with
    | some st => s.reject q hd.units hd.tag st
    | none => s.offerIo q hd.units hd.tag hd.vol op

/-- The translation of a list segment fails (R321): its command completes with class 0x03 code 0x03, and the ring goes on (R320). -/
def State.segFailed (s : State) (q : RingRef) (units : Nat) (tag : BitVec 16) : State :=
  (s.eligible q tag (stat 3 3) none none).consume q units

/-- Reads a list segment (R213), at its translated address where ATS is enabled (R320). -/
def State.readSeg (s : State) (q : RingRef) (units : Nat) (tag : BitVec 16) (e : ListEnt) : State :=
  let (s, g) : State × XlatGo := s.lookup q.port q.fn false [(e.addr.toNat, e.len.toNat)] (.xlatSeg q)
  match g with
  | .held => s
  | .refused => s.segFailed q units tag
  | .go =>
    let (s, t) : State × Option (BitVec 14) := s.takeTag q.port (.ring q)
    let addr := if !(s.func q.port q.fn).ats then e.addr else (((s.hport q.port.val).covers q.fn e.addr.toNat).map fun x => x.target e.addr.toNat).getD e.addr
    s.emit (.segRead q addr e.len (t.getD 0))

/-- Does a list segment of a ring wait for its translation? -/
def State.segHeld (s : State) (q : RingRef) : Bool := (s.hport q.port.val).tags.any fun e => e.2 == .xlatSeg q

/-- A whole entry has been read: cases 1 to 7 of R439, then a chained list is read (R213), else the offer. A reserved field of an admin entry, or a value that no
row takes, is a finding of MGT (R438), not a rejection by QE. -/
def State.entryRead (s : State) (q : RingRef) (us : List RingUnit) : State :=
  let u := firstUnit us
  let tag := BitVec.ofNat 16 (uf u 4 2)
  let vol := BitVec.ofNat 12 (uf u 6 2)
  let isData := q.fn == .pf1
  let pre := (earlyFault isData us).or (if s.dupTag q tag then some (stat 1 8) else none)
  match pre with
  | some st => s.reject q us.length tag st
  | none =>
    if !isData then
      match (admReserved us).or (admValue us) with
      | some st => (s.eligible q tag st none none).consume q us.length
      | none => State.consume { s with qe := { s.qe with outAdm := s.qe.outAdm ++ [(q, tag)] } } q us.length
    else
      match decodeIo us with
      | none => s.reject q us.length tag (stat 1 1)
      | some op =>
        match (reservedFault us).or ((valueFault op).or ((entriesFault us).or (alignFault op))) with
        | some st => s.reject q us.length tag st
        | none =>
          if hasList (ub u 2) ∧ ub u 3 % 2 = 1 then
            let e := slotAt u 0x20
            match (entFault true 1 e).or (if e.typ = 1 then none else some (stat 1 5 0 1)) with
            | some st => s.reject q us.length tag st
            | none =>
              (s.updSq q fun r => { r with fetch := .segment us [e] 1 e }).readSeg q us.length tag e
          else
            match (listFault op false).or (s.rangeFault vol op) with
            | some st => s.reject q us.length tag st
            | none => s.offerIo q us.length tag vol op

/-! ### Fetching (R193, R196) -/

/-- A fetch is abandoned (R196): nothing moves, and the ring waits for the next doorbell. -/
def State.fetchErr (s : State) (q : RingRef) : State :=
  match s.sq q with
  | none => s
  | some r =>
    ((s.updSq q fun r => { r with fetch := .idle, pend := false }).log .ringFetchErr 1 (ringQid q).toNat 0 r.c.toNat).bump .qeFetchErrCntN

/-- Takes the CQ consumer head of a host line (R197). -/
def State.takeHead (s : State) (q : RingRef) (hc : BitVec 32) : State :=
  match s.cq q with
  | none => s
  | some r =>
    if (r.t - hc).toNat > 2 ^ r.exp then s.malformed q 4 (((s.sq q).map (·.h.toNat)).getD 0) 0 0
    else s.updCq q fun r => { r with hc := hc }

/-- A doorbell (R184, R192): ignored and counted unless the pair has an enabled submission ring on this function of this port. -/
def State.ring (s : State) (port : PciePort) (fn : Fn) (slot : Nat) : State :=
  let q : RingRef := ⟨port, fn, slot⟩
  match s.sq q with
  | none => s.bump .qeDbIgnCntN
  | some r =>
    if s.phase ≠ .online then s
    else match r.st with
      | .disabled => s.bump .qeDbIgnCntN
      | .enabled | .stopped =>
        let s := s.updSq q fun r => { r with pend := true }
        match s.cq { q with pair := r.cqPair } with
        | some c => if c.held then (if r.st = .stopped then
            let (s, t) : State × Option (BitVec 14) := s.takeTag port (.cqLine { q with pair := r.cqPair })
            (s.updCq { q with pair := r.cqPair } fun c => { c with lineRead := true }).emit (.hostLineRead { q with pair := r.cqPair } (t.getD 0)) else s)
          else if r.fetch = .idle ∧ r.st = .enabled then s.readLine q else s
        | none => if r.fetch = .idle ∧ r.st = .enabled then s.readLine q else s

/-- A host line has been read (R185, R193). -/
def State.lineRead (s : State) (q : RingRef) (u : RingUnit) : State :=
  let rsvd := (List.range 56).any fun i => ub u (i + 8) ≠ 0
  let fetching := ((s.sq q).map (·.fetch)) == some .line
  let s := s.updCq q fun c => { c with lineRead := false }
  if rsvd then
    let s := (s.log .ringLineReserved 1 (ringQid q).toNat).bump .qeIllegalCntN
    s.iff fetching fun s => s.stopFetch q
  else
    let s := s.takeHead q (w32 (uf u 4 4))
    if !fetching ∨ s.phase ≠ .online then s
    else
      match s.sq q with
      | none => s
      | some r =>
        let p := w32 (uf u 0 4)
        if (p - r.h).toNat > 2 ^ r.exp then s.malformed q 3 r.h.toNat 0 0
        else (s.updSq q fun r => { r with p := p }).fetchNext q

/-- The first unit of an entry has been read (R193). -/
def State.firstRead (s : State) (q : RingRef) (u : RingUnit) : State :=
  match s.sq q with
  | none => s
  | some r =>
    let size := 2 ^ r.exp
    let d := (ub u 0 + 256 - r.c.toNat / size % 256) % 256
    let n := ub u 1
    let bad := fun (cause : Nat) => s.malformed q cause r.c.toNat (uf u 0 4) (uf u 4 4)
    if d = 255 then s.stopFetch q
    else if d ≠ 0 then bad 5
    else if n = 0 then bad 0
    else if n > 16 then bad 1
    else if r.c.toNat % size + n > size then bad 2
    else if (r.p - r.c).toNat < n then bad 6
    else if ub u 2 = 0x3F then s.consume q n
    else if n = 1 then s.entryRead q [u]
    else
      let (s, t) : State × Option (BitVec 14) := s.takeTag q.port (.ring q)
      (s.updSq q fun r => { r with fetch := .rest u }).emit (.unitRead q (r.c + 1) (n - 1) (t.getD 0))

/-- The entries of a segment up to the one that reaches the transfer length. -/
def usedSegs (total : Nat) : Nat → List ListEnt → List ListEnt
  | _, [] => []
  | sum, e :: rest => if sum ≥ total then [] else e :: usedSegs total (sum + e.len.toNat) rest

/-- The entries of a segment that are read (R212): up to a chain entry, or to the one that reaches the transfer length. -/
def readSegs (total : Nat) : Nat → List ListEnt → List ListEnt
  | _, [] => []
  | sum, e :: rest => if sum ≥ total then [] else if e.typ = 1 then [e] else e :: readSegs total (sum + e.len.toNat) rest

/-- A list segment has been read (R213): reserved fields count only in the entries that are read (R5, R212). -/
def State.segmentRead (s : State) (q : RingRef) (us : List RingUnit) (ents : List ListEnt) (chains : Nat) (seg : List ListEnt) : State :=
  let u := firstUnit us
  let tag := BitVec.ofNat 16 (uf u 4 2)
  let vol := BitVec.ofNat 12 (uf u 6 2)
  match decodeIo us with
  | none => s
  | some op =>
    match (readSegs (transferLen op) (listBytes ents) seg).findIdx? fun e => e.rsvd ≠ 0 with
    | some _ => s.reject q us.length tag (stat 1 3)
    | none =>
      match segScan (transferLen op) (ents.length + 1) (listBytes ents) (dataSegs ents).length chains seg with
      | .fault st => s.reject q us.length tag st
      | .next e =>
        let used := seg.takeWhile fun x => x.typ != 1
        (s.updSq q fun r => { r with fetch := .segment us (ents ++ used ++ [e]) (chains + 1) e }).readSeg q us.length tag e
      | .whole =>
        let all := ents ++ usedSegs (transferLen op) (listBytes ents) seg
        let op := match op with
          | .read v n nf _ => IoOp.read v n nf all
          | .write v n m _ => IoOp.write v n m all
          | .sealAppend v b h st m _ => IoOp.sealAppend v b h st m all
          | .verify _ _ | .writeZeroes _ _ _ | .flush | .abort _ _ | .sealOpen _ _ | .sealClose _ _ | .sealSave _ _ | .sealRestore _ _ | .volPower _ => op
        match s.rangeFault vol op with
        | some st => s.reject q us.length tag st
        | none => s.offerIo q us.length tag vol op

/-! ### Meanings -/

/-- DOORBELL (R184, R192). -/
def execDoorbell (port : PciePort) (fn : Fn) (slot : Nat) (s : State) : Host.Outcome State Fault Refusal :=
  let s := s.clr.linkReplay port
  .next (if s.fnServes port fn then s.ring port fn slot else s.unsupported port false)

/-- HOST_LINE_REPLY (R193, R196). -/
def execHostLineReply (q : RingRef) (r : HostRead RingUnit) (s : State) : Host.Outcome State Fault Refusal :=
  let fetching := ((s.sq q).map (·.fetch)) == some .line
  let use : TagUse := if fetching then .ring q else .cqLine q
  let (s, lost) : State × Bool := if fetching || (((s.cq q).map (·.lineRead)).getD false) then s.clr.hostAnswer q.port use else (s.clr, true)
  let s := if lost then s else s.dropTags q.port use
  if lost then .next s
  else match r with
    | .ok u => .next (s.lineRead q u)
    | .err _ => .next (if fetching then s.fetchErr q else s.updCq q fun c => { c with lineRead := false })

/-- ENTRY_UNIT_REPLY (R193, R196): the first unit at c, or the rest of the entry. -/
def execEntryUnitReply (q : RingRef) (r : HostRead (List RingUnit)) (s : State) : Host.Outcome State Fault Refusal :=
  let s := s.clr
  match s.sq q with
  | none => .next s
  | some k =>
    let (s, lost) : State × Bool := s.hostAnswer q.port (.ring q)
    if lost then .next s
    else match k.fetch with
    | .first =>
      let s := s.dropTags q.port (.ring q)
      match r with
      | .ok us => .next (s.firstRead q (firstUnit us))
      | .err _ => .next (s.fetchErr q)
    | .rest u =>
      let s := s.dropTags q.port (.ring q)
      match r with
      | .ok us => .next (s.entryRead q (u :: us.take (ub u 1 - 1)))
      | .err _ => .next (s.fetchErr q)
    | .idle | .line | .segment _ _ _ _ | .waiting _ | .slots _ _ _ _ => .next s

/-- LIST_SEGMENT_REPLY (R213, R196). -/
def execListSegmentReply (q : RingRef) (r : HostRead (List ListEnt)) (s : State) : Host.Outcome State Fault Refusal :=
  let s := s.clr
  match if s.segHeld q then none else s.sq q with
  | none => .next s
  | some k =>
    let (s, lost) : State × Bool := s.hostAnswer q.port (.ring q)
    if lost then .next s
    else match k.fetch with
    | .segment us ents chains e =>
      let s := s.dropTags q.port (.ring q)
      match r with
      | .ok seg => .next (s.segmentRead q us ents chains (seg.take (e.len.toNat / 16)))
      | .err .translation => .next (s.segFailed q us.length (BitVec.ofNat 16 (uf (firstUnit us) 4 2)))
      | .err _ => .next (s.fetchErr q)
    | .idle | .line | .first | .rest _ | .waiting _ | .slots _ _ _ _ => .next s

/-- PAD (R198): it consumes its units and does nothing else. -/
def execPad (q : RingRef) (units : Nat) (s : State) : Host.Outcome State Fault Refusal :=
  let s := s.clr
  .next (if s.takesEntry q ∧ 1 ≤ units ∧ units ≤ 16 then s.consume q units else s)

/-- READ (R16, R214). -/
def execRead (q : RingRef) (hd : EntryHdr) (vbn : BitVec 64) (count : BitVec 32) (noFill : Bool) (list : List ListEnt) (s : State) :
    Host.Outcome State Fault Refusal := .next (s.clr.offerRow q hd (.read vbn.toNat count.toNat noFill list))

/-- WRITE (R15, R214). -/
def execWrite (q : RingRef) (hd : EntryHdr) (vbn : BitVec 64) (count : BitVec 32) (members : Bool) (list : List ListEnt) (s : State) :
    Host.Outcome State Fault Refusal := .next (s.clr.offerRow q hd (.write vbn.toNat count.toNat members list))

/-- FLUSH (R238, R239). -/
def execFlush (q : RingRef) (hd : EntryHdr) (s : State) : Host.Outcome State Fault Refusal := .next (s.clr.offerRow q hd .flush)

/-- ABORT (R241): its header volume id is zero. -/
def execAbort (q : RingRef) (hd : EntryHdr) (targetQ targetTag : BitVec 16) (s : State) : Host.Outcome State Fault Refusal :=
  let s := s.clr
  .next (if s.takesEntry q ∧ q.fn = .pf1 ∧ hd.vol ≠ 0 ∧ hd.units = 1 ∧ !s.dupTag q hd.tag then s.reject q hd.units hd.tag (stat 1 2 0 6)
         else s.offerRow q hd (.abort targetQ targetTag))

/-- VERIFY (R216). -/
def execVerify (q : RingRef) (hd : EntryHdr) (vbn : BitVec 64) (count : BitVec 32) (s : State) : Host.Outcome State Fault Refusal :=
  .next (s.clr.offerRow q hd (.verify vbn.toNat count.toNat))

/-- SEAL_OPEN (R173). -/
def execSealOpen (q : RingRef) (hd : EntryHdr) (prio : BitVec 8) (label : BitVec 384) (s : State) : Host.Outcome State Fault Refusal :=
  .next (s.clr.offerRow q hd (.sealOpen prio label))

/-- SEAL_APPEND (R217). -/
def execSealAppend (q : RingRef) (hd : EntryHdr) (vbn : BitVec 64) (bytes : BitVec 32) (handle : BitVec 32) (store members : Bool)
    (list : List ListEnt) (s : State) : Host.Outcome State Fault Refusal :=
  .next (s.clr.offerRow q hd (.sealAppend vbn.toNat bytes.toNat handle store members list))

/-- SEAL_CLOSE (R218). -/
def execSealClose (q : RingRef) (hd : EntryHdr) (handle : BitVec 32) (addr : BitVec 64) (s : State) : Host.Outcome State Fault Refusal :=
  .next (s.clr.offerRow q hd (.sealClose handle addr))

/-- SEAL_SAVE (R174). -/
def execSealSave (q : RingRef) (hd : EntryHdr) (handle : BitVec 32) (addr : BitVec 64) (s : State) : Host.Outcome State Fault Refusal :=
  .next (s.clr.offerRow q hd (.sealSave handle addr))

/-- SEAL_RESTORE (R175): the operand is what the read of its input address returns. -/
def execSealRestore (q : RingRef) (hd : EntryHdr) (addr : BitVec 64) (ctx : HostRead SealCtxImg) (s : State) : Host.Outcome State Fault Refusal :=
  .next (s.clr.offerRow q hd (.sealRestore addr (some ctx)))

/-- VOLUME_POWER (R219). -/
def execVolumePower (q : RingRef) (hd : EntryHdr) (target : BitVec 8) (s : State) : Host.Outcome State Fault Refusal :=
  .next (s.clr.offerRow q hd (.volPower target.toNat))

/-- WRITE_ZEROES (R214). -/
def execWriteZeroes (q : RingRef) (hd : EntryHdr) (vbn : BitVec 64) (count : BitVec 32) (members : Bool) (s : State) :
    Host.Outcome State Fault Refusal := .next (s.clr.offerRow q hd (.writeZeroes vbn.toNat count.toNat members))

end Sys2Proof.Machine
end

