-- ==== Sys2Proof/Machine/Dmv.lean ====
section
/-!
DEFINITION. DMV: channels, descriptors, bus errors, pacing and completion records (R251 to R262).
-/
namespace Sys2Proof.Machine

/-- The instance of a channel (R251). -/
def chanInst (ch : Nat) : Nat := ch / 256

/-- Slots of an instance's completion queue (R261). -/
def dmvSlots : Nat := 4096

/-- Descriptors that a channel holds (R252): one active and 15 more. -/
def chanDepth : Nat := 16

/-- First channel, number of channels and priority of the owner of a purpose (R251). -/
def chanRange (p : Purpose) : Nat × Nat × Nat :=
  match p with
  | .pull _ _ => (0, 128, 6)
  | .sealIn _ => (0, 128, 6)
  | .push _ _ => (128, 128, 6)
  | .sealOut _ => (128, 128, 6)
  | .destage _ => (256, 192, 4)
  | .journal _ => (704, 64, 3)
  | .background _ => (768, 256, 2)
  | .rope _ => (512, 128, 7)
  | .vault => (640, 64, 7)

/-- Is a channel QE's? -/
def chanQe (ch : Nat) : Bool := decide (ch < 256)

/-- A channel; one with no entry is IDLE. -/
def State.chan (s : State) (ch : Nat) : Chan := (tget s.dmv.chans ch).getD ⟨.idle, none, []⟩

/-- Sets a channel; an IDLE one has no entry. -/
def State.setChan (s : State) (ch : Nat) (c : Chan) : State :=
  { s with dmv := { s.dmv with chans := if c.active.isNone && c.queue.isEmpty && c.st == .idle then tdel s.dmv.chans ch else tset s.dmv.chans ch c } }

/-- Descriptors that a channel holds. -/
def Chan.depth (c : Chan) : Nat := c.queue.length + (if c.active.isSome then 1 else 0)

/-- The channel of an owner that holds the fewest descriptors, the lowest first; none when each holds 16 or is HALTED. -/
def State.pickChan (s : State) (p : Purpose) : Option Nat :=
  let (first, n, _) := chanRange p
  let room := ((List.range n).map (first + ·)).filter fun ch => decide ((s.chan ch).depth < chanDepth) && (s.chan ch).st != .halted
  room.foldl (fun best ch => match best with
    | none => some ch
    | some b => if (s.chan ch).depth < (s.chan b).depth then some ch else some b) none

/-- Appends a completion record (R261). -/
def State.dmvRecord (s : State) (ch status : Nat) (d : Desc) (moved space : Nat) (payload : List BlockData) (inDst : Bool) (entry : Nat)
    (err : Option HostErr) : State :=
  { s with dmv := { s.dmv with recs := s.dmv.recs ++ [⟨ch, status, min d.retries 255, d.tag, moved, space, inDst, entry, err, d, payload⟩] } }

/-- Is a transmit queue filled above the high watermark (R258)? -/
def State.fillAbove (s : State) (d : Desc) : Bool :=
  match d.space with
  | .memberQ => decide (((tget s.dmv.fill (false, d.port)).getD 0) > s.reg .dmvPaceHwm)
  | .ropeQ => decide (((tget s.dmv.fill (true, d.port)).getD 0) > s.reg .dmvPaceHwm)
  | _ => false

/-- Pre-emption (R257): in an instance in pre-empt mode a transfer of higher priority that becomes ready interrupts an active one of lower priority. -/
def State.preempts (s : State) (ch prio : Nat) : Bool :=
  (s.reg .dmvCfgMode) / 2 ^ chanInst ch % 2 == 1 &&
    s.dmv.chans.any fun e => chanInst e.1 == chanInst ch && e.1 != ch && e.2.st == .active && (match e.2.active with
      | some d => decide (d.prio < prio)
      | none => false)

/-- Does a descriptor read host memory, so that its reads carry PCIe tags (R310)? -/
def Desc.readsHost (d : Desc) : Bool :=
  (d.space == .host0 || d.space == .host1) && match d.purpose with
    | .pull _ _ | .sealIn _ => true
    | .push _ _ | .sealOut _ | .destage _ | .journal _ | .background _ | .rope _ | .vault => false

/-- The host port of a descriptor. -/
def Desc.hostPort (d : Desc) : PciePort := if d.space = .host1 then 1 else 0

/-- The function and the data segments of the host memory that a payload descriptor moves (R254, R320). -/
def State.descSegs (s : State) (d : Desc) : Option (Fn × List ListEnt) :=
  let of := fun (id : Nat) => (s.cmd id).bind fun c => match c.org with
    | .ring q => (listOf c.op).map fun l => (q.fn, dataSegs l)
    | .peer _ _ _ _ | .gone => none
  match d.purpose with
  | .pull id _ | .push id _ => if d.space = .host0 ∨ d.space = .host1 then of id else none
  | .sealOut _ | .sealIn _ | .destage _ | .journal _ | .background _ | .rope _ | .vault => none

/-- A payload access looks its segments up in the translation cache (R320). -/
def State.xlate (s : State) (ch : Nat) (d : Desc) : State × XlatGo :=
  match s.descSegs d with
  | none => (s, .go)
  | some (fn, segs) => s.lookup d.hostPort fn (!d.readsHost) (segs.map fun e => (e.addr.toNat, e.len.toNat)) (.xlat ch)

/-- The active descriptor of a channel fails at an entry (R259): a record with status 2 is written and the channel halts. -/
def State.dmvFail (s : State) (ch : Nat) (err : HostErr) (space : DmvSpace) (inDst : Bool) (entry : Nat) : State :=
  let c := s.chan ch
  match c.active with
  | none => s
  | some d =>
    let s := s.dropTags d.hostPort (.chan ch)
    let moved := max d.moved (min d.len ((if inDst then d.dst else d.src).upTo entry))
    let s := s.dmvRecord ch 2 d moved (spaceCode space) [] inDst entry (some err)
    ((s.setChan ch { c with st := .halted, active := some { d with moved := moved } }).log .dmvHalt 0 ch 0 ch entry).bump .dmvHaltCntN

/-- The function whose ring a transfer serves, and its queue's relaxed-ordering attribute. -/
def State.ringOf (s : State) (p : Purpose) : Option (Fn × Bool) :=
  match p with
  | .pull id _ | .push id _ | .sealOut id | .sealIn id => (s.cmd id).bind fun c => match c.org with
    | .ring q => some (q.fn, ((s.sq q).map (·.relaxed)).getD false)
    | .peer _ _ _ _ | .gone => none
  | .destage _ | .journal _ | .background _ | .rope _ | .vault => none

/-- May HIF set Relaxed Ordering on a transfer's transactions (R319)? On the reads of write payload and the writes of read payload, where the function's
Enable Relaxed Ordering bit and the queue's attribute are both 1. -/
def State.tlpRelaxed (s : State) (d : Desc) : Bool :=
  match d.purpose with
  | .pull _ _ | .push _ _ => (d.space == .host0 || d.space == .host1) && (match s.ringOf d.purpose with
    | some (fn, ro) => ro && (s.func d.hostPort fn).ro
    | none => false)
  | .sealOut _ | .sealIn _ | .destage _ | .journal _ | .background _ | .rope _ | .vault => false

/-- A descriptor starts, or starts again, on a channel with the descriptors queued behind it: with ATS its addresses are translated (R320, R321), and a host
read takes a PCIe tag (R310). -/
def State.startDesc (s : State) (ch : Nat) (st : ChanSt) (d : Desc) (rest : List Desc) : State :=
  let (s, g) : State × XlatGo := s.xlate ch d
  let d := { d with tlpRo := s.tlpRelaxed d }
  if g == .refused then (s.setChan ch ⟨st, some d, rest⟩).dmvFail ch .translation d.space false 0
  else if d.readsHost then
    let (s, t) : State × Option (BitVec 14) := s.takeTag d.hostPort (.chan ch)
    s.setChan ch ⟨st, some { d with ptag := t }, rest⟩
  else s.setChan ch ⟨st, some d, rest⟩

/-- Bytes of HBM: chains lie below them (R255). -/
def State.hbmBytes (s : State) : Nat := hbmMib s.part.variant * 2 ^ 20

/-- A programming error (R255): no further byte moves, a record with status 1 or 3 is written, and the channel halts. -/
def State.dmvBadList (s : State) (ch : Nat) (f : ListFault) : State :=
  let c := s.chan ch
  match c.active with
  | some d =>
    let s := s.dmvRecord ch (if f.align then 1 else 3) d f.moved f.space [] f.dst f.entry none
    ((s.setChan ch { c with st := .halted }).log (if f.align then .dmvAlign else .dmvListInvalid) 0 ch 0 ch f.entry).bump .dmvAlignCntN |>.bump .dmvHaltCntN
  | none => s

/-- A descriptor becomes active with those queued behind it: it is checked (R255), paused while its transmit queue is full (R258), else started. -/
def State.activate (s : State) (ch : Nat) (d : Desc) (rest : List Desc) : State :=
  match d.fault with
  | some f => (s.setChan ch ⟨.active, some d, rest⟩).dmvBadList ch f
  | none =>
    let paused := s.fillAbove d
    (s.startDesc ch (if paused then .paused else .active) d rest).iff paused fun s => s.bump .dmvPauseCntN

/-- Issues a descriptor to a channel (R252): a record slot is reserved first; a full or HALTED channel refuses it with a record. The flag says that
the issue was taken. -/
def State.issue (s : State) (ch : Nat) (d : Desc) : State × Bool :=
  let i := chanInst ch
  let used := s.dmv.slotsUsed.getD i 0
  if used ≥ dmvSlots then (s.bump .dmvCqFullCntN, false)
  else
    let s : State := { s with dmv := { s.dmv with slotsUsed := s.dmv.slotsUsed.set i (used + 1) } }
    let c := s.chan ch
    if c.st = .halted then (s.dmvRecord ch 6 d 0 (spaceCode d.space) [] false 0xFFFF none, true)
    else if c.depth ≥ chanDepth then (s.dmvRecord ch 5 d 0 (spaceCode d.space) [] false 0xFFFF none, true)
    else if c.active.isNone then
      let paused := s.fillAbove d
      ((s.activate ch d c.queue).iff (!paused && s.preempts ch d.prio) fun s => s.bump .dmvPreemptCntN, true)
    else (s.setChan ch { c with queue := c.queue ++ [d] }, true)

/-- Does a transfer carry read payload of a queue with relaxed ordering (R204, R254)? -/
def State.relaxedFor (s : State) (p : Purpose) : Bool :=
  match p with
  | .push _ _ => ((s.ringOf p).map (·.2)).getD false
  | .pull _ _ | .sealOut _ | .sealIn _ | .destage _ | .journal _ | .background _ | .rope _ | .vault => false

/-- Ticks that the charge of a transfer covers (R31): more than one when it is larger than the whole budget. -/
def State.coverOf (s : State) (p : Purpose) (x : DmvSpace) (len : Nat) : Nat :=
  let ticks := fun (c : BClass) => max 1 (ceilDiv len (max 1 (s.sched.bud c).whole))
  match p with
  | .pull _ _ => ticks (.host (if x = .host1 then 1 else 0) false)
  | .push _ _ => ticks (.host (if x = .host1 then 1 else 0) true)
  | .destage i | .journal i | .background i => ticks (.mtx (s.memberPorts.getD i 16))
  | .rope i => ticks (.rope (s.ropePorts.getD i 16))
  | .sealOut _ | .sealIn _ | .vault => 1

/-- Issues a transfer for a purpose on a channel of its owner, which lays out its two lists. Its length is rounded up to a multiple of 64 (R252). -/
def State.transfer (s : State) (p : Purpose) (space : DmvSpace) (port bytes : Nat) (handle : Nat := 0) : State × Bool :=
  match s.pickChan p with
  | none => (s, false)
  | some ch =>
    let (_, _, prio) := chanRange p
    let len := (bytes + 63) / 64 * 64
    let ro := s.relaxedFor p
    let (src, dst) : List DmvEnt × List DmvEnt := s.ents p space len handle ro
    s.issue ch { tag := w32 handle, prio := prio, weight := 1, len := len, space := space, port := port, purpose := p
                 src := buildList (s.listAt ch false) src, dst := buildList (s.listAt ch true) dst, relaxed := ro, moved := 0
                 cover := s.edge + s.coverOf p space len, retries := 0, burst := 0, ptag := none }

/-- Issues a transfer that its owner keeps while no issue of it is taken (R252). -/
def State.transferKept (s : State) (p : Purpose) (space : DmvSpace) (port bytes : Nat) (handle : Nat := 0) : State :=
  let (t, ok) : State × Bool := s.transfer p space port bytes handle
  if ok then t else { t with dmv := { t.dmv with kept := t.dmv.kept ++ [(p, space, port, bytes, handle)] } }

/-- Does the owner of a transfer still wait for it? -/
def State.wants (s : State) (p : Purpose) : Bool :=
  match p with
  | .pull id sl => ((s.cmd id).map fun c => c.slices.any fun x => x.id == sl && x.st == .moving).getD false
  | .push id vbns => ((s.cmd id).map fun c => c.rblks.any fun b => vbns.contains b.vbn && (b.st == .moving || b.st == .poisoned)).getD false
  | .sealOut id | .sealIn id => ((s.cmd id).map Cmd.open_).getD false
  | .destage _ | .journal _ | .background _ | .rope _ | .vault => true

/-- Issues what owners keep once more, after step 3 has freed record slots (R252). -/
def State.reissueKept (s : State) : State :=
  let l := s.dmv.kept
  let s : State := { s with dmv := { s.dmv with kept := [] } }
  s.each l fun s (p, space, port, bytes, handle) => if s.wants p then s.transferKept p space port bytes handle else s

/-- Takes the next descriptor of a channel, or goes IDLE (R262). -/
def State.nextDesc (s : State) (ch : Nat) : State :=
  match (s.chan ch).queue with
  | [] => s.setChan ch ⟨.idle, none, []⟩
  | d :: rest => s.activate ch d rest

/-- The last burst of the active descriptor is visible (R256, R262): every entry of its lists has been read and checked on the way (R255). -/
def State.dmvFinish (s : State) (ch retries : Nat) (payload : List BlockData) : State :=
  let c := s.chan ch
  match c.st, c.active with
  | .active, some d =>
    let s := s.bump .dmvRetryCntN retries
    match d.firstFault s.hbmBytes with
    | some f => (s.dropTags d.hostPort (.chan ch)).dmvBadList ch f
    | none =>
      ((s.dmvRecord ch 0 { d with retries := d.retries + retries } d.len (spaceCode d.space) payload false 0 none).dropTags d.hostPort (.chan ch)).nextDesc ch
  | _, _ => s

/-- A bus error at an entry (R259): the burst is retried up to DMV_RETRY.N times, a host read under a new tag, then a record is written and the channel
halts. A translation failure is not retried (R321). What the entries before it cover has moved. -/
def State.dmvError (s : State) (ch : Nat) (err : HostErr) (space : DmvSpace) (inDst : Bool) (entry : Nat) : State :=
  let c := s.chan ch
  match c.st, c.active with
  | .active, some d =>
    if d.burst < s.reg .dmvRetryN ∧ err ≠ .translation then
      let s := s.dropTags d.hostPort (.chan ch)
      let moved := max d.moved (min d.len ((if inDst then d.dst else d.src).upTo entry))
      (s.startDesc ch .active { d with moved := moved, burst := d.burst + 1, retries := d.retries + 1 } c.queue).bump .dmvRetryCntN
    else s.dmvFail ch err space inDst entry
  | _, _ => s

/-- Clears a HALTED channel (R260): the active descriptor and each queued one get a record with status 4. The record that halted the channel has taken the
active one's slot, so its second record takes another. -/
def State.dmvClear (s : State) (ch : Nat) : State :=
  let c := s.chan ch
  if c.st = .halted then
    let s : State := { s with dmv := { s.dmv with slotsUsed := s.dmv.slotsUsed.modify (chanInst ch) (· + (if c.active.isSome then 1 else 0)) } }
    (s.each (c.active.toList ++ c.queue) fun s d => s.dmvRecord ch 4 d 0 (spaceCode d.space) [] false 0xFFFF none).setChan ch ⟨.idle, none, []⟩
  else s

/-- Resumes a HALTED channel (R260): the failing burst has a new retry count, and the descriptor a new record slot. -/
def State.dmvResume (s : State) (ch : Nat) : State :=
  let c := s.chan ch
  let i := chanInst ch
  let used := s.dmv.slotsUsed.getD i 0
  match c.st, c.active with
  | .halted, some d =>
    if used ≥ dmvSlots then s
    else State.activate { s with dmv := { s.dmv with slotsUsed := s.dmv.slotsUsed.set i (used + 1) } } ch { d with burst := 0 } c.queue
  | _, _ => s

/-- Takes every record out of the completion queues, which releases their slots (R261). -/
def State.takeRecs (s : State) : State × List DmvRec :=
  let rs := s.dmv.recs
  let n := fun (i : Nat) => (rs.filter fun r => chanInst r.ch == i).length
  ({ s with dmv := { s.dmv with recs := [], slotsUsed := s.dmv.slotsUsed.zipIdx.map fun (u, i) => u - n i } }, rs)

/-- The fill level of a transmit queue (R258): channels above the high watermark pause, below the low one they resume. -/
def State.dmvFill (s : State) (rope : Bool) (port pct : Nat) : State :=
  let s : State := { s with dmv := { s.dmv with fill := tset s.dmv.fill (rope, port) pct } }
  s.each s.dmv.chans fun s (ch, c) =>
    match c.active with
    | none => s
    | some d =>
      let mine := d.port == port && d.space == (if rope then .ropeQ else .memberQ)
      if !mine then s
      else if c.st = .active ∧ pct > s.reg .dmvPaceHwm then (s.setChan ch { c with st := .paused }).bump .dmvPauseCntN
      else if c.st = .paused ∧ pct < s.reg .dmvPaceLwm then s.setChan ch { c with st := .active }
      else s

/-- The last burst of a channel's descriptor has been answered: an injection may withhold the answer (R402, 0x11) or turn one burst into a bus error
of HBM (0x14), which is retried under R259. -/
def State.dmvDone (s : State) (ch retries : Nat) (payload : List BlockData) : State :=
  match (s.chan ch).active with
  | none => s
  | some d =>
    let (s, lost) : State × Bool := if d.readsHost then s.withhold d.hostPort (.chan ch) else (s, false)
    if lost then s
    else
      let (s, w) := s.inject [0x14] [(6, ch)]
      if w.isNone then s.dmvFinish ch retries payload
      else if d.burst < s.reg .dmvRetryN then s.dmvFinish ch (retries + 1) payload
      else s.marked true fun s => s.dmvError ch .unsupported .hbm d.readsHost 0

/-- The purpose under which a member write's data pass to the transmit queue of its port (R251). DESIGN CHOICE: JNL's channels carry every write of the
metadata zone, CCH's those of destages, SEQ's all others. -/
def State.writePurpose (s : State) (c : MCmd) (port : Nat) : Purpose :=
  match c.purpose with
  | .task id _ => if s.seq.tasks.any fun t => t.id == id && t.kind == .destage then .destage port else .background port
  | .meta_ _ | .bitmap _ | .cold _ | .label _ | .rerep _ | .labelWrite => .journal port
  | .read _ _ _ _ | .unitRead _ _ _ _ | .flushCmd _ | .resvReport _ | .preempt _ | .poolRead _ | .repair _ _ _ _ | .readBack _ _ _ _ | .joining | .other =>
    .background port

/-- Step 5: the data of every member write sent since the last are handed to a channel (R251, R258), with the handle that MBR gives. An issue that finds no
record slot, or no channel, is made again at the next edge (R252). -/
def State.feedQueues (s : State) : Nat → State
  | 0 => s
  | fuel + 1 =>
    if s.dmv.fed ≥ s.mbr.nextId then s
    else
      let done : State := { s with dmv := { s.dmv with fed := s.dmv.fed + 1 } }
      match s.mbr.cmds.find? fun c => c.id == s.dmv.fed with
      | none => done.feedQueues fuel
      | some c =>
        if !c.op.isWrite || c.count == 0 then done.feedQueues fuel
        else
          let port := s.memberPorts.idxOf c.port
          let (t, ok) : State × Bool := State.transfer done (s.writePurpose c port) .memberQ port (4160 * c.count) c.id
          if ok then t.feedQueues fuel else { t with dmv := { t.dmv with fed := s.dmv.fed } }

/-- Step 5: hands over whatever waits. -/
def State.feed (s : State) : State := s.feedQueues (s.mbr.nextId - s.dmv.fed + 1)

/-- DMV_COMPLETION (R261): the active descriptor of a channel is done, with the blocks that a pull brought. -/
def execDmvCompletion (ch retries : Nat) (payload : List BlockData) (s : State) : Host.Outcome State Fault Refusal :=
  .next (s.clr.dmvDone ch retries payload)

/-- DMV_BUS_ERROR (R259). -/
def execDmvBusError (ch : Nat) (err : HostErr) (space : DmvSpace) (inDst : Bool) (entry : Nat) (s : State) : Host.Outcome State Fault Refusal :=
  .next (s.clr.dmvError ch err space inDst entry)

/-- DMV_QUEUE_DRAIN (R258): the fill level of a transmit queue, in percent. -/
def execDmvQueueDrain (rope : Bool) (port fillPct : Nat) (s : State) : Host.Outcome State Fault Refusal :=
  .next (s.clr.dmvFill rope port fillPct)

end Sys2Proof.Machine
end

