-- ==== Sys2Proof/Machine/IoRun.lean ====
section
/-!
DEFINITION. I/O commands at step 5: the class 0x05 conditions (R222), host slices (R435), read slices and their blocks (R16, R82, R84, R121, R169), write
slices and their landing (R15, R70, R166, R88), and the intent records of landed slices (R88, R89, R144).
-/
namespace Sys2Proof.Machine

/-! ### Conditions and slices -/

/-- Is a command offered while FW_ACTIVATE has every volume of a solo module flushed (R344)? -/
def State.restarting (s : State) (c : Cmd) : Bool :=
  match s.mgt.activate with
  | some a => a.stage != 0 && (match c.acc with
    | some n => decide (n ≥ a.acc)
    | none => true)
  | none => false

/-- The class 0x05 condition that a command meets when it is first offered (R222, R118, R228, R164), or its volume's new owner (R221). -/
def State.gate (s : State) (c : Cmd) : Option Stat :=
  match s.poolOf c.vol with
  | none => match tget s.rop.dir c.vol with
    | some e => if e.owner = s.selfAddr then some (stat 5 1) else some (stat 3 4 0 e.owner.toNat)
    | none => some (stat 5 1)
  | some p =>
    let r := p.run c.vol
    if p.cond == .lost || p.offline || p.yielded || (r.map (·.offline)).getD true then some (stat 5 1)
    else if c.op.writes && s.restarting c then some (stat 5 1)
    else if c.op.writes && (s.attrs c.vol).readOnly then some (stat 5 2)
    else if c.op.writes && (r.map (·.exhausted)).getD false then some (stat 5 4 c.lastGen)
    else none

/-- Does a command absorb its payload by bytes, storing nothing? -/
def byteOp (op : IoOp) : Bool :=
  match op with
  | .sealAppend _ _ _ store _ _ => !store
  | .read _ _ _ _ | .write _ _ _ _ | .flush | .abort _ _ | .verify _ _ | .sealOpen _ _ | .sealClose _ _ | .sealSave _ _ | .sealRestore _ _ | .volPower _
  | .writeZeroes _ _ _ => false

/-- Bytes of host memory that a command's payload has. -/
def transferBytes (op : IoOp) : Nat :=
  match op with
  | .write _ n _ _ => 4096 * n
  | .sealAppend _ b _ _ _ _ => b
  | .sealRestore _ _ => 144
  | .read _ _ _ _ | .flush | .abort _ _ | .verify _ _ | .sealOpen _ _ | .sealClose _ _ | .sealSave _ _ | .volPower _ | .writeZeroes _ _ _ => 0

/-- What the accepting module pulls of a forwarded command, in the units of its slices: bytes for one that absorbs bytes, else blocks. -/
def pullTotal (op : IoOp) : Nat := if byteOp op then transferBytes op else ceilDiv (transferBytes op) 4096

/-- Host bytes that a command's queue moves in a tick (R435). A command of a peer has no queue here: its slices take the largest rate share of R204. -/
def State.queueBytes (s : State) (c : Cmd) (out host : Bool) : Nat :=
  match c.org with
  | .ring q =>
    let bytes := ((s.sq q).map (·.bh)).getD 1 * 250 * s.periodUs
    if host && decide ((s.hport q.port).f < 64) then min bytes (s.budget (.host q.port.val out)) else bytes
  | .peer _ _ _ _ | .gone => 900 * 250 * s.periodUs

/-- Blocks of a command's next slice (R435, R309). -/
def State.sliceLen (s : State) (c : Cmd) (total : Nat) (out host : Bool) : Nat := min (total - c.next) (max 1 (s.queueBytes c out host / 4096))

/-- The host-byte charge of a command's slice; a forwarded command charges it on the accepting module. -/
def hostCharge (c : Cmd) (out : Bool) (bytes : Nat) : List (BClass × Nat) :=
  match c.org with
  | .ring q => [(.host q.port.val out, bytes)]
  | .peer _ _ _ _ | .gone => []

/-- The host side of a command's transfers. -/
def hostSpace (c : Cmd) : DmvSpace :=
  match c.org with
  | .ring q => if q.port = 0 then .host0 else .host1
  | .peer _ _ _ _ | .gone => .hbm

/-- Is a command one that a peer forwarded? -/
def Cmd.fromPeer (c : Cmd) : Bool :=
  match c.org with
  | .ring _ | .gone => false
  | .peer _ _ _ _ => true

/-! ### Reads -/

/-- Where a block is found (R82, R129). -/
inductive Found where
  | dirty (slot : Nat) (b : Block)
  | clean (b : Block)
  | lost
  | members
  deriving DecidableEq, Repr

/-- Looks a block up; VERIFY takes the dirty area or members (R216). -/
def State.findBlk (s : State) (p : Pool) (v : BitVec 12) (b : Nat) (verify : Bool) : Found :=
  match s.cch.newest p.cur.id v b with
  | some (i, sl) => match sl.blk with
    | some blk => .dirty i blk
    | none => .members
  | none =>
    if isLost p.nxt.lost v b then .lost
    else match (if verify then none else (s.cch.cleanGet p.cur.id v b).1) with
    | some blk => .clean blk
    | none => .members

/-- FIX verifies a block that the cache holds (R167, R178): an injection may alter its stream (R402, 0x09). -/
def State.verifyHeld (s : State) (p : Pool) (v : BitVec 12) (b : Nat) (blk : Block) : State × Bool :=
  let (s, w) := s.inject [0x09] [(4, v.toNat)]
  match w with
  | some _ => (s, false)
  | none =>
    let (s, tag) : State × Bool := s.tagCheck (s.attrs v).fault
    (s, tag && p.heldOk v b blk)

/-- A block that fails verification is logged and counted as a mismatch, whatever its source (R169, R182). -/
def State.heldMismatch (s : State) (p : Pool) (v : BitVec 12) (b : Nat) : State :=
  (s.log .fixMismatch 4 v.toNat p.cur.id b).bump .fixMismatchCntN

/-- The copy of a slot in the partner's belay receive area (R69), as it is fetched: what the partner sends back is free, and it is verified like any other
block, for the block and the generation that the slot holds. -/
def State.partnerCopy (s : State) (p : Pool) (sl : Slot) : State × Option Block :=
  let b := Config.partnerBlock s.freeCtr
  let s : State := { s with freeCtr := s.freeCtr + 1 }
  (s, if p.heldOk sl.vol sl.vbn b && decide (b.foot.gen.toNat = sl.gen) then some b else none)

/-- Takes one block of an admitted slice (R82, R167, R169): hits are verified, lost blocks end, others need a member read. A dirty block that fails is
fetched from the partner while BELAYED, and is unreadable when that copy fails too. -/
def State.startBlk (s : State) (p : Pool) (c : Cmd) (b : Nat) (verify : Bool) : State :=
  let add := fun (s : State) (st : RBlkSt) => s.updCmd c.id fun c => { c with rblks := c.rblks ++ [⟨b, st⟩] }
  match s.findBlk p c.vol b verify with
  | .dirty i blk =>
    let bad := fun (s : State) =>
      (((add s (.bad codeFix)).updSlot i fun sl => { sl with unreadable := true }).log .fixDirtyUnrecovered 4 c.vol.toNat p.cur.id b)
    if ((s.cch.slot i).map (·.unreadable)).getD false then add s (.bad codeFix)
    else
      let (s, ok) : State × Bool := s.verifyHeld p c.vol b blk
      if ok then add s (.ready blk)
      else
        let s := s.heldMismatch p c.vol b
        match s.cch.slot i with
        | some sl =>
          if s.jnl.belay = .belayed then
            let (s, copy) : State × Option Block := s.partnerCopy p sl
            match copy with
            | some good => (add s (.ready good)).updSlot i fun sl => { sl with blk := some good }
            | none => bad s
          else bad s
        | none => bad s
  | .clean blk =>
    let (s, ok) : State × Bool := s.verifyHeld p c.vol b blk
    if ok then add { s with cch := (s.cch.cleanGet p.cur.id c.vol b).2 } (.ready blk)
    else
      let s := s.heldMismatch p c.vol b
      add { s with cch := s.cch.cleanDrop p.cur.id c.vol b } .need
  | .lost => add s (.bad codeLost)
  | .members => add s .need

/-- Blocks of a READ or VERIFY, and whether it is a VERIFY. -/
def readRange (op : IoOp) : Option (Nat × Nat × Bool) :=
  match op with
  | .read v n _ _ => some (v, n, false)
  | .verify v n => some (v, n, true)
  | .write _ _ _ _ | .writeZeroes _ _ _ | .flush | .abort _ _ | .sealOpen _ _ | .sealAppend _ _ _ _ _ _ | .sealClose _ _ | .sealSave _ _
  | .sealRestore _ _ | .volPower _ => none

/-- Admits the next slice of a READ or VERIFY (R84, R30): its hold slots, its host bytes, and a fixity block for each hit. -/
def State.admitRead (s : State) (p : Pool) (c : Cmd) (v total : Nat) (verify : Bool) : State :=
  let n := s.sliceLen c total true (!verify && !c.fromPeer)
  if n = 0 then s
  else if s.cch.holdUsed + n > holdMax then (s.bump .cchHoldDeferN)
  else if c.fromPeer && !verify && decide (c.credit < c.next + n) then s
  else
    let bs := (List.range n).map fun i => v + c.next + i
    let hits := (bs.filter fun b => match s.findBlk p c.vol b verify with
      | .dirty _ _ | .clean _ => true
      | .lost | .members => false).length
    s.allot true ((if verify then [] else hostCharge c true (4096 * n)) ++ [(.fix, hits)]) fun s =>
      let s : State := { s with cch := { s.cch with holdUsed := s.cch.holdUsed + n } }
      let s := s.updCmd c.id fun c => { c with next := c.next + n, st := .running }
      s.each bs fun s b => s.startBlk p c b verify

/-- The copy or column that a block is read from: the first copy of a mirror that is not erased (R63). -/
def readStrip (g : Geo) (er : List Nat) (col : Nat) : Nat :=
  if g.d.family = 1 then ((List.range (layWidth g.d)).find? fun x => !er.contains x).getD 0 else col

/-- Sends the member reads that a command's blocks need (R30, R121): one command for each contiguous run of a strip; blocks of erased strips are
reconstructed. -/
def State.sendNeeds (s : State) (p : Pool) (c : Cmd) : State :=
  let need := c.rblks.filter fun b => b.st == .need
  if need.isEmpty then s
  else
    match p.volLayout c.vol with
    | none => s
    | some d =>
      let g := s.geo p d
      let at_ := need.filterMap fun b => (p.mapVbn d c.vol b.vbn).map fun (n, col, o) => (n, readStrip g (p.erased g n) col, o, b.vbn)
      let gone := at_.filter fun e => (p.erased g e.1).contains e.2.1
      let s := s.each gone fun s (n, x, o, vbn) => s.degrade c.id p.cur.id d.id n x o vbn false
      let live := at_.filter fun e => !(p.erased g e.1).contains e.2.1
      let keys := (live.map fun e => (e.1, e.2.1)).eraseDups
      s.each keys fun s (n, x) =>
        let offs := sortedKeys ((live.filter fun e => e.1 == n && e.2.1 == x).map fun e => e.2.2.1)
        s.each (s.stripReads p g n x offs (.read c.id d.id n x) true) fun s r =>
          s.admitReqs true [r] [] fun s _ => s.updCmd c.id fun k => { k with
            rblks := k.rblks.map fun b => if live.any (fun e => e.1 == n && e.2.1 == x && r.offs.contains e.2.2.1 && e.2.2.2 == b.vbn) then { b with st := .wait } else b }

/-- The host port whose memory a command's payload lies in. -/
def hostPortOf (c : Cmd) : Nat := if hostSpace c = .host1 then 1 else 0

/-- A command fails with a status: no further slice is admitted, and the first status in R222's order stays. -/
def State.failCmd (s : State) (id : Nat) (st : Stat) : State :=
  s.updCmd id fun c => match c.fail with
    | some _ => c
    | none => { c with fail := some st }

/-- HIF recomputes the guard of each block that it sends (R171): the blocks whose guard differs from the one FIX verified, as injections make them
(R402, 0x0B). -/
def State.egress (s : State) (c : Cmd) (vbns : List Nat) : State × List Nat :=
  vbns.foldl (fun (s, bad) v =>
    let (s, w) : State × Option InjSlot := s.inject [0x0B] [(4, c.vol.toNat), (5, hostPortOf c)]
    (s, if w.isSome then bad ++ [v] else bad)) (s, [])

/-- Releases verified blocks (R16): a VERIFY has no more to do with them, a forwarded READ sends them to its accepting module, and a local READ has DMV
write them to the host. -/
def State.releaseBlks (s : State) (c : Cmd) : State :=
  let rdy := c.rblks.filterMap fun b => match b.st with
    | .ready d => some (b.vbn, d)
    | .need | .wait | .recon _ | .moving | .poisoned | .sent | .bad _ => none
  if rdy.isEmpty then s
  else
    let mark := fun (s : State) (st : RBlkSt) => s.updCmd c.id fun c => { c with rblks := c.rblks.map fun b => if rdy.any (fun e => e.1 == b.vbn) then { b with st := st } else b }
    match c.op, c.org with
    | .read v _ _ _, .peer a fid _ _ =>
      ((mark s .sent).unhold rdy.length).each rdy fun s (b, d) => s.sendSeq a (.fwdData fid (b - v) [d])
    | .read _ _ _ _, .ring _ =>
      let (t, ok) : State × Bool := s.transfer (.push c.id (rdy.map (·.1))) (hostSpace c) 0 (4096 * rdy.length)
      if ok then
        let (t, bad) : State × List Nat := t.egress c (rdy.map (·.1))
        let t := (mark t .moving).updCmd c.id fun c => { c with rblks := c.rblks.map fun b => if bad.contains b.vbn then { b with st := .poisoned } else b }
        (t.iff (!bad.isEmpty) fun t => (t.failCmd c.id (stat 2 codeFix)).emit (.poison c.id bad)).emit (.payload c.id (rdy.map fun e => (e.1, e.2.data)))
      else t
    | _, _ => (mark s .sent).unhold rdy.length

/-- The status of a READ or VERIFY whose blocks are all settled (R222). -/
def readStat (c : Cmd) (verify : Bool) : Stat :=
  let bad := fun (k : Nat) => c.rblks.filter fun b => b.st == .bad k
  let worst := [codeFix, codeUnrec, codeLost].find? fun k => !(bad k).isEmpty
  match c.fail with
  | some st => st
  | none =>
    match worst with
    | some k => stat 2 k (if verify then c.repaired else (((bad k).map (·.vbn)).foldl min (((bad k).map (·.vbn)).headD 0))) (min (bad k).length 0xFFFF)
    | none => okStat (if verify then c.repaired else 0)

/-- Is a block settled? -/
def RBlk.settled (b : RBlk) : Bool :=
  match b.st with
  | .sent | .bad _ => true
  | .need | .wait | .recon _ | .ready _ | .moving | .poisoned => false

/-- Step 3: a READ or VERIFY ends when every block is delivered or has failed, or when a transfer failed and none is moving (R222, R259). -/
def State.endRead (s : State) (c : Cmd) (total : Nat) (verify : Bool) : State :=
  let all := decide (c.next ≥ total) && c.rblks.all RBlk.settled
  let broke := c.fail.isSome && !(c.rblks.any fun b => b.st == .moving || b.st == .poisoned)
  if all || broke then
    let held := (c.rblks.filter fun b => b.st != .sent).length
    ((s.unhold held).updCmd c.id fun c => { c with rblks := [] }).endCmd c.id (readStat c verify)
  else s

/-! ### Writes -/

/-- Blocks of a write, whether it is WRITE_ZEROES, and the MEMBERS flag. -/
def writeRange (op : IoOp) : Option (Nat × Nat × Bool × Bool) :=
  match op with
  | .write v n m _ => some (v, n, false, m)
  | .writeZeroes v n m => some (v, n, true, m)
  | .sealAppend v b _ store m _ => if store then some (v, b / 4096, false, m) else none
  | .read _ _ _ _ | .verify _ _ | .flush | .abort _ _ | .sealOpen _ _ | .sealClose _ _ | .sealSave _ _ | .sealRestore _ _ | .volPower _ => none

/-- Has a pool's cold journal room for n blocks more, beside those of its journal-on-members writes that have no entry yet (R106)? -/
def State.coldRoom (s : State) (p : Pool) (n : Nat) : Bool :=
  let waiting := s.ord.cmds.flatMap fun c =>
    if (p.vol c.vol).isSome && (s.attrs c.vol).solo == 2 then
      c.slices.filter fun sl => (sl.st == .moving || sl.st == .landed || sl.st == .journalled)
        && !(p.coldEnts.any fun e => sl.recs.any e.recs.contains)
    else []
  decide (p.coldUsed + (waiting.map fun sl => coldSize sl.n sl.n).foldl (· + ·) 0 + coldSize n n ≤ coldLen)

/-- The block of a write as it stands in its dirty slot, with the footer that LAY expects of it (R39, R42, R156). -/
def State.dirtyBlk (s : State) (p : Pool) (d : LayoutDesc) (v : BitVec 12) (vbn gen : Nat) (zero : Bool) (data : BlockData) : Block :=
  match p.mapVbn d v vbn with
  | some (n, col, o) => mkBlock p.secret (p.expect (s.geo p d) n col o) gen gen (if zero then flagZero else 0) data
  | none => mkBlock p.secret ⟨v, 0, d.id, 0, vbn, 0⟩ gen gen (if zero then flagZero else 0) data

/-- Admits the next slice of a write (R30, R70, R73, R92, R162): slots, ring space, host bytes and fixity blocks; its blocks are stamped with the
generation in force. -/
def State.admitWrite (s : State) (p : Pool) (d : LayoutDesc) (r : VolRun) (c : Cmd) (v total : Nat) (zero : Bool) : State :=
  let n0 := s.sliceLen c total false (!zero && !c.fromPeer)
  let here := if c.fromPeer && !zero then ((List.range n0).takeWhile fun i => (c.rcvd.any fun e => e.1 == c.next + i)).length else n0
  let n := if c.fromPeer && !zero then here else n0
  let at_ := (s.attrs c.vol).solo
  if n = 0 then s
  else if decide (r.gen ≥ ((p.vol c.vol).map (·.limit)).getD 0) then s
  else if at_ = 2 ∧ s.jnl.belay ≠ .belayed ∧ (!s.coldRoom p n ∨ p.oneCopy) then s
  else if !s.cch.allows c.vol n then s
  else
    match s.cch.free n with
    | none => s
    | some slots =>
      let bs := (List.range n).map fun i => v + c.next + i
      let runs := sliceRuns (layBs d) (bs.zip slots)
      let host := if zero then [] else hostCharge c false (4096 * n)
      if !s.jnl.room runs.length s.reservedTicks then s
      else
        let more := match c.op with
          | .sealAppend _ _ _ _ _ _ => n
          | _ => 0
        let local_ := !zero && !c.fromPeer
        if local_ && (s.pickChan (.pull c.id 0)).isNone then s
        else
          s.allot true (host ++ [(.fix, n + more)]) fun s =>
            let sid := c.slices.length
            let blkOf := fun (i b : Nat) =>
              if zero then some (s.dirtyBlk p d c.vol b r.gen true 0)
              else if c.fromPeer then (c.rcvd.find? fun e => e.1 == c.next + i).map fun e => s.dirtyBlk p d c.vol b r.gen false e.2.data
              else none
            let slot := fun (i b : Nat) => ({ pool := p.cur.id, vol := c.vol, vbn := b, gen := r.gen, blk := blkOf i b, st := .reserved, destageable := false
                                              mirror := false, holds := 0, entries := 0, freeTick := none, unreadable := false, cmd := c.id } : Slot)
            let ents := (List.range n).map fun i => (slots.getD i 0, slot i (bs.getD i 0))
            let s : State := { s with cch := { (s.cch.useAllow c.vol n) with slots := s.cch.slots ++ ents }
                                      jnl := { s.jnl with reserved := s.jnl.reserved + runs.length } }
            let sl : Slice := { id := sid, off := c.next, n := n, gen := r.gen, slots := slots, recs := [], st := .moving, edge := s.edge, tick := 0
                                retried := false, need := false }
            let s := s.updCmd c.id fun c => { c with next := c.next + n, st := .running, slices := c.slices ++ [sl], lastGen := r.gen
                                                     rcvd := c.rcvd.filter fun e => decide (e.1 ≥ c.next + n) }
            let s := s.updPool p.cur.id fun p => p.updRun c.vol fun r => { r with stamped := true }
            if local_ then s.transferKept (.pull c.id sid) (hostSpace c) 0 (4096 * n) else s

/-- Payload bytes of the blocks of a slice, as its slots hold them. -/
def State.sliceBytes (s : State) (sl : Slice) : List Byte :=
  sl.slots.flatMap fun i => (((s.cch.slot i).bind (·.blk)).map fun b => dataBytes b.data).getD []

/-- The places of a slice whose blocks are not there yet. -/
def State.missing (s : State) (sl : Slice) : List Nat :=
  (List.range sl.n).filter fun i => (((s.cch.slot (sl.slots.getD i 0)).bind (·.blk))).isNone

/-- Blocks that have landed in these slots stream to the partner in JOINING and BELAYED, as soon as they land (R15, R94). -/
def State.streamSlots (s : State) (slots : List Nat) : State :=
  s.iff s.jnl.streams fun s => { s with rop := { s.rop with txq := s.rop.txq ++ s.slotFrames slots } }

/-- Blocks of a slice go into their slots (R166); with the last of them the slice has landed, and a SEAL_APPEND has its bytes (R217). -/
def State.landSlice (s : State) (c : Cmd) (sl : Slice) (blks : List (Nat × BlockData)) : State :=
  match s.poolOf c.vol with
  | none => s
  | some p =>
    match p.volLayout c.vol, writeRange c.op with
    | some d, some (v, _, zero, _) =>
      let s := s.each blks fun s (i, x) =>
        s.updSlot (sl.slots.getD i 0) fun k => { k with blk := k.blk.or (some (s.dirtyBlk p d c.vol (v + sl.off + i) sl.gen zero x)) }
      let s := s.streamSlots (blks.map fun e => sl.slots.getD e.1 0)
      if !(s.missing sl).isEmpty then s
      else
        let isSeal := match c.op with
          | .sealAppend _ _ _ _ _ _ => true
          | .read _ _ _ _ | .write _ _ _ _ | .flush | .abort _ _ | .verify _ _ | .sealOpen _ _ | .sealClose _ _ | .sealSave _ _ | .sealRestore _ _
          | .volPower _ | .writeZeroes _ _ _ => false
        let bytes := s.sliceBytes sl
        s.updCmd c.id fun c => { c with slices := updIf c.slices (fun x => x.id == sl.id) fun x => { x with st := .landed }
                                        pulled := if isSeal then c.pulled ++ [(sl.id, bytes)] else c.pulled }
    | _, _ => s

/-- Bytes of a SEAL_APPEND's payload in stream order (R172): those of its slices in the order in which they were admitted. -/
def Cmd.stream (c : Cmd) : List Byte := (sortBy c.pulled fun a b => decide (a.1 ≤ b.1)).flatMap (·.2)

/-- Runs of a slice (R88). -/
def Slice.runs (sl : Slice) (v bs : Nat) : List (Nat × Nat × Nat) := sliceRuns bs (((List.range sl.n).map fun i => v + sl.off + i).zip sl.slots)

/-- A slice ends without records (R166, R243): its slots are freed and its ring space returned. -/
def State.failSlice (s : State) (c : Cmd) (sl : Slice) : State :=
  let bs := (((s.poolOf c.vol).bind fun p => p.volLayout c.vol).map layBs).getD 1
  let v := ((writeRange c.op).map (·.1)).getD 0
  let s := s.dropSlots sl.slots
  let s : State := { s with jnl := { s.jnl with reserved := s.jnl.reserved - (sl.runs v bs).length } }
  s.updCmd c.id fun c => { c with slices := updIf c.slices (fun x => x.id == sl.id) fun x => { x with st := .failed } }

/-- Every slice of a command that has no record yet ends without one. -/
def State.failUnjournalled (s : State) (c : Cmd) : State :=
  s.each (c.slices.filter fun sl => sl.st == .moving || sl.st == .landed) fun s sl => s.failSlice c sl

/-- A slice fails, and with it every later slice of the command that has no record yet (R166, R259). -/
def State.failFrom (s : State) (c : Cmd) (slice : Nat) : State :=
  s.each (c.slices.filter fun sl => decide (sl.id ≥ slice) && (sl.st == .moving || sl.st == .landed)) fun s sl => s.failSlice c sl

/-- The frond of the volume's pool with its holder, when the pool has one that is not switched. -/
def State.frondOf (s : State) (p : Pool) : Option (FrondMeta × Pool × LayoutDesc) :=
  match p.cur.frond with
  | some f =>
    if f.srcPool = p.cur.id ∧ f.phase ≠ .switched ∧ p.nxt.frond.isSome then
      (s.pool (frondHolder f)).bind fun h => (h.layout f.layout).map fun d => (f, h, d)
    else none
  | none => none

/-- Records a landed block of a slot in the gather entry of the volume's layout (R75). -/
def State.gatherOld (s : State) (p : Pool) (d : LayoutDesc) (vol : BitVec 12) (b slot : Nat) : State :=
  match p.mapVbn d vol b with
  | some (n, _, _) => s.gather p.cur.id vol d.id n (b / layData d) b slot
  | none => s

/-- Records a landed block of a slot in its gather entries: the volume's layout, and the frond's when it is below the cursor (R81, R144). DEDUCED: the cursor that
tells is the one published when the block's record is appended; a block admitted above it that the cursor has passed since needs the second entry as much as a
late one that has landed. -/
def State.gatherBlk (s : State) (p : Pool) (d : LayoutDesc) (vol : BitVec 12) (b slot : Nat) : State :=
  let s := s.gatherOld p d vol b slot
  match s.frondOf p with
  | some (f, h, fd) =>
    if belowCursor p.pub.cursor vol b then
      match h.mapVbn fd vol b with
      | some (n, _, _) => s.gather h.cur.id vol f.layout n (b / layData fd) b slot
      | none => s
    else s
  | none => s

/-- Flags of a write's intent records (R89). -/
def State.intentFlags (s : State) (p : Pool) (c : Cmd) (b : Nat) (zero members : Bool) : Nat :=
  let wt := (s.attrs c.vol).wt
  (if members || wt then 1 else 0) + (if (s.frondOf p).isSome && belowCursor p.pub.cursor c.vol b then 2 else 0) + (if zero then 4 else 0)
    + (if c.fromPeer then 8 else 0)

/-- Appends the records of a landed slice in the tick that this edge opens (R88): older versions are superseded, and blocks enter their gather entries. -/
def State.journalSlice (s : State) (c : Cmd) (sl : Slice) : State :=
  match s.poolOf c.vol with
  | none => s.failSlice c sl
  | some p =>
    match p.volLayout c.vol, writeRange c.op with
    | some d, some (v, _, zero, members) =>
      let runs := sl.runs v (layBs d)
      let first := s.jnl.next
      let s := s.each runs fun s r => s.appendIntent (s.intentFlags p c r.1 zero members) c.vol sl.gen (c.acc.getD 0) r
      let recs := (List.range runs.length).map fun i => first + w32 i
      let one := fun (s : State) (i : Nat) =>
        let slot := sl.slots.getD i 0
        let b := v + sl.off + i
        let s := s.updSlot slot fun k => { k with st := .dirty }
        (s.gatherBlk p d c.vol b slot).supersede p.cur.id c.vol b slot
      let s := s.each (List.range sl.n) one
      let s : State := { s with jnl := { s.jnl with reserved := s.jnl.reserved - runs.length } }
      s.updCmd c.id fun c => { c with slices := updIf c.slices (fun x => x.id == sl.id) fun x =>
        { x with st := .journalled, recs := recs, tick := s.edge, need := members || (s.attrs c.vol).wt } }
    | _, _ => s.failSlice c sl

/-- After step 5: appends the records of every landed slice, in acceptance order (R88). -/
def State.journalAll (s : State) : State :=
  let cs := sortBy (s.ord.cmds.filter fun c => c.acc.isSome && c.slices.any fun sl => sl.st == .landed) fun a b => decide (a.acc.getD 0 ≤ b.acc.getD 0)
  s.each cs fun s c => s.each (c.slices.filter fun sl => sl.st == .landed) fun s sl => s.journalSlice c sl

/-- Is a slice settled: secured, on members, or failed? -/
def Slice.settled (sl : Slice) : Bool :=
  match sl.st with
  | .secured => !sl.need
  | .onMembers | .failed => true
  | .moving | .landed | .journalled => false

/-- Step 3: a write ends when every slice has settled (R15, R80, R99, R164, R166). -/
def State.endWrite (s : State) (c : Cmd) (total : Nat) : State :=
  if !(c.slices.all Slice.settled) then s
  else
    match c.fail with
    | some st => s.endCmd c.id st
    | none => if c.next ≥ total then s.endCmd c.id (stat 0 (if c.slices.any (·.need) then 2 else 1) c.lastGen) else s

end Sys2Proof.Machine
end

