-- ==== Sys2Proof/Machine/Seals.lean ====
section
/-!
DEFINITION. Object seals (R172 to R175, R217, R218): contexts and handles, the stream, the seal record, the saved-context table and the structure that
SEAL_SAVE writes and SEAL_RESTORE reads.
-/
namespace Sys2Proof.Machine

/-! ### Handles -/

/-- Slots for contexts on the module (R173). -/
def sealSlots : Nat := 65536

/-- Entries of the saved-context table (R174). -/
def savedMax : Nat := 16777216

/-- The slot of a handle. -/
def handleSlot (h : BitVec 32) : Nat := h.toNat % 65536

/-- The context that a handle names in a command for a volume (R173, R217). -/
def State.sealCtx (s : State) (vol : BitVec 12) (h : BitVec 32) : Option SealCtx :=
  match tget s.fix.ctxs (handleSlot h) with
  | some c => if c.handle = h ∧ c.vol = vol then some c else none
  | none => none

/-- Puts a context into the lowest free slot under a new handle; none when no slot is free. -/
def State.newCtx (s : State) (c : SealCtx) : Option (State × BitVec 32) :=
  (lowestFree (s.fix.ctxs.map (·.1)) 0 sealSlots).map fun slot =>
    let n : BitVec 16 := match tget s.fix.reuse slot with
      | some k => k + 1
      | none => 0
    let h : BitVec 32 := w32 (slot + 65536 * n.toNat)
    ({ s with fix := { s.fix with ctxs := s.fix.ctxs ++ [(slot, { c with handle := h })], reuse := tset s.fix.reuse slot n } }, h)

/-- Frees the slot of a handle. -/
def State.dropCtx (s : State) (h : BitVec 32) : State := { s with fix := { s.fix with ctxs := tdel s.fix.ctxs (handleSlot h) } }

/-- Replaces a context. -/
def State.setCtx (s : State) (c : SealCtx) : State := { s with fix := { s.fix with ctxs := tset s.fix.ctxs (handleSlot c.handle) c } }

/-! ### The stream -/

/-- Absorbs bytes: every full block but the last is chained, and 1 to 16 bytes are held back (R172). -/
def SealCtx.absorb (c : SealCtx) (secret : BitVec 256) (bs : List Byte) : SealCtx :=
  if bs.isEmpty then c
  else
    let all := c.held ++ bs
    let full := (all.length - 1) / 16
    { c with chain := tagOf (cmacChain (roundKeys (sealKey secret c.vol)) full (leBytes 16 c.chain.toNat) all)
             held := all.drop (16 * full), length := c.length + bs.length }

/-- The seal of a stream: CMAC's last step over the held bytes (R172). -/
def SealCtx.close (c : SealCtx) (secret : BitVec 256) : BitVec 128 :=
  tagOf (cmacLast (roundKeys (sealKey secret c.vol)) (leBytes 16 c.chain.toNat) c.held)

/-- The 64-byte record of SEAL_CLOSE (R218). -/
def sealRecord (c : SealCtx) (sl : BitVec 128) (edge : Nat) : List Byte :=
  leBytes 16 sl.toNat ++ leBytes 8 c.length ++ leBytes 2 c.vol.toNat ++ List.replicate 6 0 ++ leBytes 8 c.openEdge ++ leBytes 8 edge
    ++ List.replicate 16 0

/-! ### The saved structure (R174) -/

/-- Bytes 0x00 to 0x7F of a saved context. -/
def ctxBytes (i : SealCtxImg) : List Byte :=
  leBytes 2 i.format.toNat ++ leBytes 2 i.vol.toNat ++ leBytes 4 i.handle.toNat ++ leBytes 8 i.seqNo.toNat ++ leBytes 8 i.length.toNat
    ++ leBytes 16 i.chain.toNat ++ leBytes 16 i.held.toNat ++ leBytes 1 i.heldLen ++ leBytes 1 i.prio.toNat ++ List.replicate 6 0
    ++ leBytes 8 i.openEdge.toNat ++ leBytes 4 i.ropeId.toNat ++ leBytes 2 i.ropeAddr.toNat ++ [0, 0] ++ leBytes 48 i.label.toNat

/-- The binding of a saved context under the context key. -/
def ctxBinding (kCtx : BitVec 256) (i : SealCtxImg) : BitVec 128 := tagOf (cmac (keyBytes kCtx) (ctxBytes i))

/-- What SEAL_SAVE writes for a context (R174). -/
def State.saveImg (s : State) (c : SealCtx) : SealCtxImg :=
  let i : SealCtxImg :=
    { format := 1, vol := c.vol, handle := c.handle, seqNo := s.fix.saveSeq, length := w64 c.length, chain := c.chain
      held := BitVec.ofNat 128 (ofLe c.held), heldLen := c.held.length, prio := c.prio, openEdge := w64 c.openEdge
      ropeId := w32 (s.reg .ropIdRope), ropeAddr := s.selfAddr, label := c.label, binding := 0 }
  { i with binding := ctxBinding s.fix.kCtx i }

/-- The context in the 144 bytes that SEAL_RESTORE reads; none when reserved bytes are not zero, since the binding covers them. -/
def ctxOfBytes (bs : List Byte) : Option SealCtxImg :=
  let f := fun (i n : Nat) => ofLe ((bs.drop i).take n)
  if f 0x3A 6 ≠ 0 ∨ f 0x4E 2 ≠ 0 ∨ f 2 2 ≥ 4096 ∨ f 0x4C 2 ≥ 4096 then none
  else some
    { format := BitVec.ofNat 16 (f 0 2), vol := BitVec.ofNat 12 (f 2 2), handle := w32 (f 4 4), seqNo := w64 (f 8 8), length := w64 (f 0x10 8)
      chain := BitVec.ofNat 128 (f 0x18 16), held := BitVec.ofNat 128 (f 0x28 16), heldLen := f 0x38 1, prio := BitVec.ofNat 8 (f 0x39 1)
      openEdge := w64 (f 0x40 8), ropeId := w32 (f 0x48 4), ropeAddr := BitVec.ofNat 12 (f 0x4C 2), label := BitVec.ofNat 384 (f 0x50 48)
      binding := BitVec.ofNat 128 (f 0x80 16) }

/-- Is a context accepted for restoring (R175)? -/
def State.ctxAccepted (s : State) (vol : BitVec 12) (i : SealCtxImg) : Bool :=
  decide (i.binding = ctxBinding s.fix.kCtx i) && i.format == 1 && i.ropeId == w32 (s.reg .ropIdRope) && i.ropeAddr == s.selfAddr
    && i.vol == vol && tget s.fix.saved i.handle == some i.seqNo

/-- SEAL_RESTORE takes effect on what its input address held (R175). An accepted context that finds no free slot ends the command as SEAL_OPEN ends there
(R173), and stays in the table (DESIGN CHOICE: R175 does not say). -/
def State.restoreCtx (s : State) (c : Cmd) (img : Option SealCtxImg) : State :=
  let refuse := fun (s : State) => (s.log .sealCtxRefused 4 c.vol.toNat (((s.poolOf c.vol).map (·.cur.id)).getD 0)).endCmd c.id (stat 1 0x0A)
  match img with
  | none => refuse s
  | some i =>
    if s.ctxAccepted c.vol i then
      let ctx : SealCtx := { vol := i.vol, handle := 0, length := i.length.toNat, chain := i.chain, held := leBytes i.heldLen i.held.toNat
                             prio := i.prio, openEdge := i.openEdge.toNat, label := i.label }
      match s.newCtx ctx with
      | none => s.endCmd c.id (stat 6 1)
      | some (s, h) => State.endCmd { s with fix := { s.fix with saved := tdel s.fix.saved i.handle } } c.id (okStat h.toNat)
    else refuse s

/-! ### Seal commands at step 5 -/

/-- The handle that a command names. -/
def IoOp.handle (op : IoOp) : Option (BitVec 32) :=
  match op with
  | .sealAppend _ _ h _ _ _ => some h
  | .sealClose h _ => some h
  | .sealSave h _ => some h
  | .sealOpen _ _ | .sealRestore _ _ | .read _ _ _ _ | .write _ _ _ _ | .writeZeroes _ _ _ | .flush | .abort _ _ | .verify _ _ | .volPower _ => none

/-- Has every earlier command that names the same handle completed (R217)? -/
def State.handleTurn (s : State) (c : Cmd) : Bool :=
  match c.op.handle with
  | none => true
  | some h => !(s.ord.cmds.any fun k => k.op.handle == some h && k.acc.isSome && k.open_ && decide (k.acc.getD 0 < c.acc.getD 0))

/-- Sends the bytes that a seal command writes: by DMV to its output address, or to the accepting module of a forwarded command. The flag says that they are on
their way. -/
def State.sealOut (s : State) (c : Cmd) (addr : BitVec 64) (bs : List Byte) : State × Bool :=
  match c.org with
  | .ring q =>
    let (t, ok) : State × Bool := s.transfer (.sealOut c.id) (hostSpace c) 0 bs.length
    if ok then (State.emit (t.updCmd c.id fun c => { c with st := .running, next := 1 }) (.hostBytes (.ring q) addr bs), true) else (t, false)
  | .gone => (s.endCmd c.id (stat 3 1), false)
  | .peer a fid _ _ =>
    let foot : Footer := { guard := 0, role := 0, vol := c.vol, refTag := 0, tag := 0, gen := 0, flags := 0, vbn := 0, layout := 0, strip := 0
                           stripeGen := 0, crc := 0 }
    ((s.updCmd c.id fun c => { c with st := .running, next := 1 }).sendSeq a (.fwdData fid 0 [⟨dataOf bs, foot⟩]), true)

/-- The output of a SEAL_CLOSE or SEAL_SAVE stands at its address: the slot is freed, and a saved context enters the table (R174, R218). -/
def State.sealWritten (s : State) (c : Cmd) : State :=
  match c.op with
  | .sealClose h _ => match s.sealCtx c.vol h with
    | some x => (s.dropCtx h).endCmd c.id (okStat x.length)
    | none => s.endCmd c.id (stat 1 0x0A)
  | .sealSave h _ =>
    let n := c.lastGen
    let s := s.dropCtx h
    State.endCmd { s with fix := { s.fix with saved := tset s.fix.saved h (w64 n) } } c.id (okStat n)
  | .sealOpen _ _ | .sealAppend _ _ _ _ _ _ | .sealRestore _ _ | .read _ _ _ _ | .write _ _ _ _ | .writeZeroes _ _ _ | .flush | .abort _ _ | .verify _ _
  | .volPower _ => s

/-- SEAL_OPEN (R173). -/
def State.openSeal (s : State) (c : Cmd) (prio : BitVec 8) (label : BitVec 384) : State :=
  match s.newCtx { vol := c.vol, handle := 0, length := 0, chain := 0, held := [], prio := prio, openEdge := s.edge, label := label } with
  | none => s.endCmd c.id (stat 6 1)
  | some (s, h) => s.endCmd c.id (okStat h.toNat)

/-- SEAL_CLOSE (R218): its close edge is the edge at which it takes effect. -/
def State.closeSeal (s : State) (p : Pool) (c : Cmd) (h : BitVec 32) (addr : BitVec 64) : State :=
  match s.sealCtx c.vol h with
  | none => s.endCmd c.id (stat 1 0x0A)
  | some x => (s.sealOut c addr (sealRecord x (x.close p.secret) s.edge)).1

/-- Saves whose context is on its way to the host: each takes an entry of the table when it is written. -/
def State.savesOut (s : State) : Nat :=
  (s.ord.cmds.filter fun c => c.st == .running && match c.op with
    | .sealSave _ _ => true
    | .read _ _ _ _ | .write _ _ _ _ | .writeZeroes _ _ _ | .flush | .abort _ _ | .verify _ _ | .sealOpen _ _ | .sealAppend _ _ _ _ _ _ | .sealClose _ _
    | .sealRestore _ _ | .volPower _ => false).length

/-- SEAL_SAVE (R174): one sequence number per save, taken when its bytes are on their way. -/
def State.saveSeal (s : State) (c : Cmd) (h : BitVec 32) (addr : BitVec 64) : State :=
  match s.sealCtx c.vol h with
  | none => s.endCmd c.id (stat 1 0x0A)
  | some x =>
    if s.fix.saved.length + s.savesOut ≥ savedMax then s.endCmd c.id (stat 6 2)
    else
      let i := s.saveImg x
      let n := s.fix.saveSeq
      let (s, ok) : State × Bool := (s.updCmd c.id fun c => { c with lastGen := n.toNat }).sealOut c addr (ctxBytes i ++ leBytes 16 i.binding.toNat)
      s.iff ok fun s => { s with fix := { s.fix with saveSeq := n + 1 } }

/-- SEAL_RESTORE (R175): the structure is read from its input address, unless the command brought what that read returns. -/
def State.restoreSeal (s : State) (c : Cmd) (ctx : Option (HostRead SealCtxImg)) : State :=
  match ctx with
  | some (.ok i) => s.restoreCtx c (some i)
  | some (.err e) => s.endCmd c.id (stat 3 (match e with
    | .timeout => 1
    | .unsupported | .aborted | .poisoned => 2
    | .translation => 3))
  | none =>
    match c.org with
    | .ring _ =>
      let (t, ok) : State × Bool := s.transfer (.sealIn c.id) (hostSpace c) 0 144
      if ok then t.updCmd c.id fun c => { c with st := .running, next := 1 } else t
    | .gone => s.endCmd c.id (stat 3 1)
    | .peer _ _ _ _ => match c.rcvd.head? with
      | some e => s.restoreCtx c (ctxOfBytes (dataBytes e.2.data))
      | none => s

/-- Admits the next slice of a SEAL_APPEND that does not store (R435, R172). -/
def State.admitAppend (s : State) (c : Cmd) (bytes : Nat) (h : BitVec 32) : State :=
  match s.sealCtx c.vol h with
  | none => s.endCmd c.id (stat 1 0x0A)
  | some _ =>
    let cap := max 64 (s.queueBytes c false (!c.fromPeer) / 64 * 64)
    let there := ((List.range (ceilDiv (bytes - c.next) 4096)).takeWhile fun i => c.rcvd.any fun e => e.1 == c.next / 4096 + i).length
    let n := min (min (bytes - c.next) cap) (if c.fromPeer then 4096 * there - c.next % 4096 else bytes)
    if n = 0 then s
    else if !c.fromPeer && (s.pickChan (.pull c.id 0)).isNone then s
    else
      s.allot true (hostCharge c false n ++ [(.fix, ceilDiv n 4096)]) fun s =>
        let sid := c.slices.length
        let sl : Slice := { id := sid, off := c.next, n := n, gen := 0, slots := [], recs := [], st := if c.fromPeer then .onMembers else .moving
                            edge := s.edge, tick := 0, retried := false, need := false }
        let got := ((List.range there).flatMap fun i => ((tget c.rcvd (c.next / 4096 + i)).map fun b => dataBytes b.data).getD []).drop (c.next % 4096)
        let s := s.updCmd c.id fun c => { c with next := c.next + n, st := .running, slices := c.slices ++ [sl]
                                                 pulled := if c.fromPeer then c.pulled ++ [(sid, got.take n)] else c.pulled }
        if c.fromPeer then s else s.transferKept (.pull c.id sid) (hostSpace c) 0 n

/-- Step 3: a SEAL_APPEND whose bytes are all here absorbs them at once (R217); a storing one when its write has settled. -/
def State.endAppend (s : State) (c : Cmd) (bytes : Nat) (h : BitVec 32) (store : Bool) : State :=
  if !(c.slices.all Slice.settled) then s
  else
    match c.fail with
    | some st => s.endCmd c.id st
    | none =>
      if c.next < (if store then bytes / 4096 else bytes) then s
      else
        match s.sealCtx c.vol h, s.poolOf c.vol with
        | some x, some p =>
          let y := x.absorb p.secret (c.stream.take bytes)
          (s.setCtx y).endCmd c.id (stat 0 (if store then (if c.slices.any (·.need) then 2 else 1) else 0) y.length)
        | _, _ => s.endCmd c.id (stat 1 0x0A)

end Sys2Proof.Machine
end

