-- ==== Sys2Proof/Machine/CmdRun.lean ====
section
/-!
DEFINITION. What step 3 takes in for commands (R259, R166, R238 to R240, R219, R247) and what step 5 offers for them (R31, R217, R222, R164).
-/
namespace Sys2Proof.Machine

/-! ### Ends of data-mover descriptors (R261, R259) -/

/-- Code of class 0x03 for an error of host memory (R221). -/
def hostErrCode (e : HostErr) : Nat :=
  match e with
  | .timeout => 1
  | .unsupported | .aborted | .poisoned => 2
  | .translation => 3

/-- A block as it travels in FWD_DATA: its data with the guard and the footer CRC that the receiver checks. -/
def wireBlock (vol : BitVec 12) (vbn : Nat) (d : BlockData) : Block :=
  let f0 : Footer := { guard := guard64 d, role := 0, vol := vol, refTag := 0, tag := 0, gen := 0, flags := 0, vbn := w64 vbn, layout := 0, strip := 0
                       stripeGen := 0, crc := 0 }
  { data := d, foot := { f0 with crc := footCrc f0 } }

/-- The accepting module sends what it has pulled of a forwarded SEAL_APPEND that stores nothing: whole blocks of the stream, and with its last byte the rest
(R302, R435). `credit` counts the blocks sent. -/
def State.sendStream (s : State) (c : Cmd) (owner : BitVec 12) (fid : BitVec 64) (total : Nat) : State :=
  let done := (sortBy (c.slices.filter fun sl => sl.st == .onMembers) fun a b => decide (a.id ≤ b.id)).zipIdx.takeWhile fun e => e.1.id == e.2
  let have_ := (done.map fun e => e.1.n).foldl (· + ·) 0
  let bytes := c.stream.take have_
  let upTo := if have_ ≥ total then ceilDiv total 4096 else have_ / 4096
  if upTo ≤ c.credit then s
  else
    let blk := fun (i : Nat) => wireBlock c.vol i (dataOf ((bytes.drop (4096 * i)).take 4096))
    (s.updCmd c.id fun c => { c with credit := upTo }).sendSeq owner (.fwdData fid c.credit ((List.range (upTo - c.credit)).map fun i => blk (c.credit + i)))

/-- A pull is done: its slice has landed, or its bytes join those that a SEAL_APPEND absorbs; a forwarded command's payload goes to its owner (R302). A block
whose guard differs is fetched once more by itself; a second failure, or one of tagging, ends this slice and every later one (R166). -/
def State.pulled (s : State) (c : Cmd) (slice : Nat) (payload : List BlockData) : State :=
  match c.slices.find? fun sl => sl.id == slice && sl.st == .moving with
  | none => s
  | some sl =>
    let gone := fun (s : State) => s.updCmd c.id fun c => { c with
      slices := updIf c.slices (fun x => x.id == slice) fun x => { x with st := .onMembers }
      pulled := if byteOp c.op then c.pulled ++ [(slice, (payload.flatMap dataBytes).take sl.n)] else c.pulled }
    match c.st with
    | .forwarded owner fid =>
      if byteOp c.op then
        let t := gone s
        match t.cmd c.id with
        | some k => t.sendStream k owner fid (transferBytes c.op)
        | none => t
      else
        let bs := (List.range (min sl.n payload.length)).map fun i => wireBlock c.vol (sl.off + i) (payload.getD i 0)
        (gone s).sendSeq owner (.fwdData fid sl.off bs)
    | .accepted | .running | .held | .eligible _ | .finished =>
    if c.op.lock.isSome then
      let want := s.missing sl
      let new := want.zip ((List.range want.length).map fun i => payload.getD i 0)
      let (s, oks, tagged) := s.ingressAll c.vol.toNat (hostPortOf c) (s.attrs c.vol).fault (new.map (·.2))
      let all := oks.all id
      if !tagged || (!all && sl.retried) then (s.failFrom c slice).failCmd c.id (stat 2 codeFix c.lastGen)
      else
        let s := s.landSlice c sl ((new.zip oks).filterMap fun e => if e.2 then some e.1 else none)
        if all then s
        else
          let s := s.updCmd c.id fun c => { c with slices := updIf c.slices (fun x => x.id == slice) fun x => { x with retried := true } }
          s.transferKept (.pull c.id slice) (hostSpace c) 0 (4096 * (oks.filter (!·)).length)
    else gone s

/-- A pull has failed: its slice and every later one of the command have no records (R259, R321). -/
def State.pullFailed (s : State) (c : Cmd) (slice : Nat) (e : HostErr) : State :=
  match c.slices.find? fun sl => sl.id == slice && sl.st == .moving with
  | none => s
  | some _ => (s.failFrom c slice).failCmd c.id (stat 3 (hostErrCode e) c.lastGen)

/-- A push is done: its hold slots are free (R84). A forwarded READ reserves them again for its next blocks and extends the owner's credit (R302). -/
def State.pushed (s : State) (c : Cmd) (vbns : List Nat) (st : RBlkSt) : State :=
  let here := c.rblks.filter fun b => vbns.contains b.vbn && (b.st == .moving || b.st == .poisoned)
  let after := fun (b : RBlk) => if b.st = .poisoned then RBlkSt.bad codeFix else st
  let s := s.updCmd c.id fun c => { c with rblks := c.rblks.map fun b => if here.contains b then { b with st := after b } else b }
  let gone := (here.filter fun b => b.st == .moving).length
  match st, c.st, c.op with
  | .sent, .forwarded owner fid, .read _ n _ _ =>
    let more := min gone (n - c.credit)
    let s := (s.unhold (gone - more)).updCmd c.id fun c => { c with credit := c.credit + more }
    s.iff (decide (more > 0)) fun s => s.sendSeq owner (.fwdData fid (c.credit + more) [])
  | .sent, .forwarded _ _, _ => s
  | .sent, _, _ => s.unhold gone
  | .need, _, _ | .wait, _, _ | .recon _, _, _ | .ready _, _, _ | .moving, _, _ | .poisoned, _, _ | .bad _, _, _ => s

/-- The end of one descriptor. -/
def State.descEnd (s : State) (r : DmvRec) : State :=
  match r.status with
  | 0 => match r.desc.purpose with
    | .pull cmd sl => match s.cmd cmd with
      | some c => s.pulled c sl r.payload
      | none => s
    | .push cmd vbns => match s.cmd cmd with
      | some c => s.pushed c vbns .sent
      | none => s
    | .sealOut cmd => match s.cmd cmd with
      | some c => if c.open_ then s.sealWritten c else s
      | none => s
    | .sealIn cmd => match s.cmd cmd with
      | some c => if c.open_ then s.restoreCtx c (ctxOfBytes ((r.payload.flatMap dataBytes).take 144)) else s
      | none => s
    | .destage _ | .journal _ | .background _ | .rope _ | .vault => s
  | 4 | 5 | 6 => if s.wants r.desc.purpose then s.transferKept r.desc.purpose r.desc.space r.desc.port r.desc.len r.desc.tag.toNat else s
  | _ =>
    let e := r.err.getD .unsupported
    match r.desc.purpose with
    | .pull cmd sl => match s.cmd cmd with
      | some c => s.pullFailed c sl e
      | none => s
    | .push cmd vbns => match s.cmd cmd with
      | some c => (s.pushed c vbns (.bad 0)).failCmd cmd (stat 3 (hostErrCode e))
      | none => s
    | .sealOut cmd => s.endCmd cmd (stat 3 (hostErrCode e))
    | .sealIn cmd => s.endCmd cmd (stat 3 (hostErrCode e))
    | .destage _ | .journal _ | .background _ | .rope _ | .vault => s

/-- Step 3: takes in every completion record. QE clears a channel of its own that halted, other owners resume theirs (R260). -/
def State.takeDmv (s : State) : State :=
  let (s, rs) : State × List DmvRec := s.takeRecs
  let s := (s.each rs State.descEnd).reissueKept
  s.each ((rs.filter fun r => r.status == 1 || r.status == 2 || r.status == 3).map (·.ch)).eraseDups fun s ch =>
    if chanQe ch then s.dmvClear ch else s.dmvResume ch

/-- Slices whose blocks need no pull land at the edge after their admission: WRITE_ZEROES, and forwarded writes whose payload is here. FIX tags them as it does
all others (R166, R178). -/
def State.landLocal (s : State) : State :=
  s.each s.ord.cmds fun s c =>
    let noPull := match c.op with
      | .writeZeroes _ _ _ => true
      | .write _ _ _ _ | .sealAppend _ _ _ _ _ _ => c.fromPeer
      | .read _ _ _ _ | .flush | .abort _ _ | .verify _ _ | .sealOpen _ _ | .sealClose _ _ | .sealSave _ _ | .sealRestore _ _ | .volPower _ => false
    if noPull then
      s.each (c.slices.filter fun sl => sl.st == .moving && decide (sl.edge < s.edge)) fun s sl =>
        let (s, tagged) : State × Bool := s.tagAll (s.attrs c.vol).fault sl.n
        if tagged then (s.streamSlots sl.slots).landSlice c sl []
        else (s.failFrom c sl.id).failCmd c.id (stat 2 codeFix c.lastGen)
    else s

/-! ### FLUSH (R238 to R240) -/

/-- The slots that stand for the blocks of a FLUSH: those of its set, a superseded one by the newest version of its block. -/
def State.flushSlots (s : State) (c : Cmd) : List Nat :=
  let mine := s.cch.slots.filter fun e => e.2.vol == c.vol && (c.slotsLeft.contains e.1 || c.set.contains e.2.cmd) && (e.2.st == .dirty || e.2.st == .superseded)
  (mine.filterMap fun e => if e.2.st = .dirty then some e.1 else (s.cch.newest e.2.pool e.2.vol e.2.vbn).map (·.1)).eraseDups

/-- Follows the blocks of every open FLUSH to the versions that hold them now. -/
def State.flushTrack (s : State) : State :=
  s.each (s.ord.cmds.filter fun c => c.open_ && c.acc.isSome && c.op == .flush) fun s c =>
    let l := s.flushSlots c
    s.updCmd c.id fun c => { c with slotsLeft := l }

/-- Makes the gather entries that hold a FLUSH's blocks due with FUA; a destage in flight without FUA is followed by member Flushes (R239). -/
def State.flushDue (s : State) (c : Cmd) : State :=
  let has := fun (l : List (Nat × Nat)) => l.any fun b => c.slotsLeft.contains b.2
  s.each ((s.cch.gather ++ s.cch.waitq).filter fun e => e.vol == c.vol && (has e.first || has e.second || has e.snap)) fun s e =>
    let s : State := if e.st = .destaging ∧ !has e.second then s else { s with cch := s.cch.makeDue e.pool e.layout e.stripe true }
    if e.st = .destaging ∧ has e.snap ∧ !e.curFua ∧ !e.flushFor.contains c.id then
      { s with cch := s.cch.updEntry e.pool e.layout e.stripe fun e => { e with flushFor := e.flushFor ++ [c.id] } }
    else s

/-- Is a slot held back: in an entry held DUE under R122, or unreadable (R240)? -/
def State.slotStuck (s : State) (i : Nat) : Bool :=
  ((s.cch.slot i).map (·.unreadable)).getD false || s.cch.gather.any fun e => e.heldR122 && e.first.any fun b => b.2 == i

/-- Step 3 for one FLUSH. -/
def State.stepFlush (s : State) (c : Cmd) : State :=
  match s.poolOf c.vol with
  | none => s
  | some p =>
    if c.st = .held then s
    else if p.pub.cond = .lost then s.endCmd c.id (stat 5 1)
    else
      let writesOpen := c.set.any fun i => ((s.cmd i).map Cmd.open_).getD false
      let s := s.flushDue c
      let stuck := c.slotsLeft.filter s.slotStuck
      if writesOpen then s
      else if (s.attrs c.vol).wt then s.endCmd c.id okStat
      else if !c.mflush.isEmpty then s
      else if c.slotsLeft.isEmpty then s.endCmd c.id okStat
      else if stuck.length = c.slotsLeft.length then s.endCmd c.id (stat 2 2 0 (min stuck.length 0xFFFF))
      else s

/-- Step 3 for every open FLUSH. -/
def State.stepFlushes (s : State) : State :=
  let s := s.flushTrack
  s.each (s.ord.cmds.filter fun c => c.open_ && c.acc.isSome && c.op == .flush) State.stepFlush

/-! ### Volume power (R219, R283) -/

/-- Is no destage of a volume left? -/
def State.volClean (s : State) (v : BitVec 12) : Bool :=
  !((s.cch.gather ++ s.cch.waitq).any fun e => e.vol == v)

/-- Are a pool's members to stand in low power: every volume Idle or Standby (R219)? -/
def Pool.mayRest (p : Pool) : Bool := !p.vols.isEmpty && p.vols.all fun r => r.power == .idle || r.power == .standby

/-- Places a pool's members in low power: ACTIVE ones become STANDBY (R119, R283). -/
def State.spinDown (s : State) (p : Pool) : State :=
  s.each (List.range p.nxt.members.length) fun s i =>
    if p.memState i = .active then
      match s.img p i with
      | some m =>
        let port := (s.upPorts m).headD 0
        let s := (s.updPool p.cur.id fun p => p.setMem i .standby).updImg m.num fun m => { m with lowPower := true, ready := false }
        (s.chargeAlways [(.mcmd port, 1)]).emit
          (.memberCmd { id := 0, img := m.num, pool := p.cur.id, idx := i, port := port, op := .admin, lba := 0, count := 0, offs := []
                        blks := [], purpose := .other, edge := s.edge, born := s.edge, tries := 0, fg := true, inj := false })
      | none => s
    else s

/-- Starts the spin-up of members, at most MBR_SPINUP.MAX of each level-1 domain at once, in ascending member index (R283). -/
def State.spinUp (s : State) (p : Pool) : State :=
  s.each (List.range p.nxt.members.length) fun s i =>
    match s.img p i with
    | none => s
    | some m =>
      if !m.lowPower then s
      else
        let going := s.mbr.members.filter fun x => x.spinning.isSome && (match m.dom1 with
          | some d => x.dom1 == some d
          | none => x.num == m.num)
        if going.length ≥ s.reg .mbrSpinupMax then s
        else
          let s := s.updImg m.num fun m => { m with lowPower := false, spinning := some s.edge, ready := false }
          let port := (s.upPorts m).headD 0
          let r : MReq := { pool := p.cur.id, idx := i, op := .read, lba := 0, offs := [0], count := 1, blks := [], purpose := .label m.num, fg := false }
          (s.chargeAlways (reqCharges port r)).send r m.num port

/-- Releases the commands held for a volume, in acceptance order. -/
def State.releaseHeld (s : State) (v : BitVec 12) : State :=
  { s with ord := { s.ord with cmds := updIf s.ord.cmds (fun c => c.vol == v && c.st == .held) fun c => match c.op with
      | .volPower _ => c
      | .flush => { c with st := .running }
      | .read _ _ _ _ | .write _ _ _ _ | .writeZeroes _ _ _ | .abort _ _ | .verify _ _ | .sealOpen _ _ | .sealAppend _ _ _ _ _ _ | .sealClose _ _
      | .sealSave _ _ | .sealRestore _ _ => { c with st := .accepted } } }

/-- Ends every VOLUME_POWER under way for a volume with the state that it found. -/
def State.endPower (s : State) (v : BitVec 12) : State :=
  let s := s.each (s.ord.cmds.filter fun c => c.vol == v && c.open_ && c.acc.isSome && (match c.op with
    | .volPower _ => true
    | _ => false)) fun s c => s.endCmd c.id (okStat c.lastGen)
  { s with pools := s.pools.map fun p => p.updRun v fun r => { r with powerCmd := none } }

/-- Ends the VOLUME_POWER that put a volume into ENTERING (R219). -/
def State.endEntering (s : State) (r : VolRun) : State :=
  let s := match r.powerCmd with
    | some id => match s.cmd id with
      | some c => s.endCmd id (okStat c.lastGen)
      | none => s
    | none => s
  { s with pools := s.pools.map fun p => p.updRun r.id fun r => { r with powerCmd := none } }

/-- Members of a pool that a spin-up still waits for. -/
def State.spinWaits (s : State) (p : Pool) : Bool :=
  (List.range p.nxt.members.length).any fun i => match s.img p i with
    | some m => (m.lowPower || m.spinning.isSome) && p.inService i
    | none => false

/-- The last VOLUME_POWER that waits for a volume asks for Idle. -/
def State.wantsIdle (s : State) (v : BitVec 12) : Bool :=
  match ((s.ord.cmds.filter fun c => c.vol == v && c.open_ && c.acc.isSome).filterMap fun c => match c.op with
    | .volPower t => some t
    | _ => none).getLast? with
  | some t => t == 1
  | none => false

/-- Step 3 for one volume's power state. -/
def State.stepVolPower (s : State) (v : BitVec 12) : State :=
  match s.poolOf v with
  | none => s
  | some p =>
    match p.run v with
    | none => s
    | some r =>
      match r.power with
      | .entering =>
        if s.volClean v then
          let others := p.vols.all fun x => x.id == v || x.power == .standby
          let s := s.setPower v (if r.wake then .waking else .standby)
          let s := s.iff (others && !r.wake) fun s => s.spinDown p
          (s.updPool p.cur.id fun p => p.updRun v fun r => { r with wake := false }).endEntering r
        else s
      | .waking =>
        let s := s.iff (s.membersDown v) fun s => s.spinUp p
        if s.spinWaits p then s
        else
          let s := s.setPower v (if s.wantsIdle v then .idle else .active)
          let s : State := { s with pools := updIf s.pools (fun q => q.cur.id == p.cur.id) fun q =>
            (List.range q.nxt.members.length).foldl (fun q i => if q.memState i = .standby then q.setMem i .active else q) q }
          (s.releaseHeld v).endPower v
      | .active | .idle | .standby => s

/-- Step 3 for every volume; members rest when every volume of their pool is Idle or Standby. -/
def State.stepPowers (s : State) : State :=
  let s := s.each (s.pools.flatMap fun p => p.vols.map (·.id)) State.stepVolPower
  s.each s.pools fun s p =>
    s.iff (p.mayRest && s.seq.tasks.all (fun t => t.pool != p.cur.id) && p.vols.all fun r => s.volClean r.id) fun s => s.spinDown p

/-- The spin-up limit of a pool has passed (R219): held commands end with class 0x05 code 0x03, and the volumes are in STANDBY. -/
def State.wakeFailed (s : State) (pid : BitVec 16) : State :=
  match s.pool pid with
  | none => s
  | some p => s.each (p.vols.filter fun r => r.power == .waking) fun s r =>
      let s := s.each (s.ord.cmds.filter fun c => c.vol == r.id && c.st == .held) fun s c => s.endCmd c.id (stat 5 3)
      (s.setPower r.id .standby).log .volumeWakeFail 4 r.id.toNat pid

/-- Spins up the members of a pool that work needs (R119): a command or a background task. -/
def State.needMembers (s : State) (p : Pool) : State :=
  let down := (List.range p.nxt.members.length).any fun i => ((s.img p i).map (·.lowPower)).getD false
  let held := p.vols.any fun r => r.power == .waking
  let work := p.vols.any fun r => r.power == .active
  s.iff (down && (held || work)) fun s => s.spinUp p

/-! ### Ends of commands at step 3 -/

/-- What step 3 finds for one accepted command. -/
def State.settleCmd (s : State) (id : Nat) : State :=
  match s.cmd id with
  | none => s
  | some c =>
    if c.st ≠ .running then s
    else match c.op with
      | .read _ n _ _ => s.endRead c n false
      | .verify _ n => s.endRead c n true
      | .write _ n _ _ => s.endWrite c n
      | .writeZeroes _ n _ => s.endWrite c n
      | .sealAppend _ b h st _ _ => s.endAppend c b h st
      | .sealClose _ _ | .sealSave _ _ =>
        if c.fromPeer then s.sealWritten c else s
      | .flush | .abort _ _ | .sealOpen _ _ | .sealRestore _ _ | .volPower _ => s

/-- Accepted commands in acceptance order. -/
def State.inOrder (s : State) : List Nat :=
  (sortBy (s.ord.cmds.filter fun c => c.acc.isSome && c.open_) fun a b => decide (a.acc.getD 0 ≤ b.acc.getD 0)).map (·.id)

/-- Has everything that comes with a forwarded command's reply reached the host (R247, R302)? A successful READ waits for every block of it, a seal command
for its output. -/
def Cmd.delivered (c : Cmd) (st : Stat) : Bool :=
  let sent := (c.rblks.filter fun b => b.st == .sent).length
  let still := c.rblks.any fun b => !b.settled
  if still then false
  else if st.cls ≠ 0 ∨ c.fail.isSome then true
  else match c.op with
    | .read _ n _ _ => decide (sent ≥ n)
    | .sealClose _ _ | .sealSave _ _ => decide (sent ≥ 1)
    | .write _ _ _ _ | .writeZeroes _ _ _ | .flush | .abort _ _ | .verify _ _ | .sealOpen _ _ | .sealAppend _ _ _ _ _ _ | .sealRestore _ _ | .volPower _ => true

/-- Hold slots that a forwarded READ still has reserved. -/
def Cmd.creditHeld (c : Cmd) : Nat :=
  match c.op with
  | .read _ _ _ _ => c.credit - (c.rblks.filter fun b => b.st == .sent).length
  | .write _ _ _ _ | .writeZeroes _ _ _ | .flush | .abort _ _ | .verify _ _ | .sealOpen _ _ | .sealAppend _ _ _ _ _ _ | .sealClose _ _ | .sealSave _ _
  | .sealRestore _ _ | .volPower _ => 0

/-- Ends a forwarded command with its owner's status, or with the class 0x03 status of its own transfer. -/
def State.endFwd (s : State) (c : Cmd) (st : Stat) (acc : Nat) : State :=
  (s.unhold c.creditHeld).updCmd c.id fun c => { c with st := .eligible (c.fail.getD st), lastGen := acc, rblks := [] }

/-- Replies of owners that arrived in the closing tick (R247), and forwarded commands whose own transfer has failed. -/
def State.takeReplies (s : State) : State :=
  let l := s.rop.replies
  let s : State := { s with rop := { s.rop with replies := [] } }
  let fwdId := fun (c : Cmd) => match c.st with
    | .forwarded _ f => some f
    | .accepted | .running | .held | .eligible _ | .finished => none
  let s := s.each l fun s (fid, st, acc) =>
    match s.ord.cmds.find? fun c => fwdId c == some fid with
    | some c => if c.delivered st then s.endFwd c st acc.toNat else { s with rop := { s.rop with replies := s.rop.replies ++ [(fid, st, acc)] } }
    | none => s
  s.each (s.ord.cmds.filter fun c => (fwdId c).isSome && c.fail.isSome && c.rblks.all RBlk.settled) fun s c => s.endFwd c okStat 0

/-- Step 3: what the accepted commands have come to, in acceptance order. -/
def State.settleCmds (s : State) : State := s.each s.inOrder State.settleCmd

/-! ### Step 5 for commands -/

/-- The queue of a command (R435). -/
def Cmd.queue (c : Cmd) : Origin :=
  match c.org with
  | .ring q => .ring q
  | .peer a _ p q => .peer a 0 p q
  | .gone => .gone

/-- Does a command still have a slice to offer? -/
def Cmd.hasSlice (c : Cmd) : Bool :=
  c.fail.isNone && (match c.st with
    | .accepted => true
    | .running => match c.op with
      | .read _ n _ _ => decide (c.next < n)
      | .verify _ n => decide (c.next < n)
      | .write _ n _ _ => decide (c.next < n)
      | .writeZeroes _ n _ => decide (c.next < n)
      | .sealAppend _ b _ st _ _ => decide (c.next < if st then b / 4096 else b)
      | .sealClose _ _ | .sealSave _ _ | .sealRestore _ _ => decide (c.next = 0)
      | .flush | .abort _ _ | .sealOpen _ _ | .volPower _ => false
    | .forwarded _ _ => decide (c.next < pullTotal c.op)
    | .held | .eligible _ | .finished => false)

/-- Step 5 at the accepting module: the next slice of a forwarded command's payload, against its own host-byte budget (R302, R435). -/
def State.pullFwd (s : State) (c : Cmd) : State :=
  let total := pullTotal c.op
  let n := if byteOp c.op then min (total - c.next) (max 64 (s.queueBytes c false true / 64 * 64)) else s.sliceLen c total false true
  let bytes := if byteOp c.op then n else min (4096 * n) (transferBytes c.op - 4096 * c.next)
  if (s.pickChan (.pull c.id 0)).isNone then s
  else s.allot true (hostCharge c false bytes) fun s =>
    let sid := c.slices.length
    let sl : Slice := { id := sid, off := c.next, n := n, gen := 0, slots := [], recs := [], st := .moving, edge := s.edge, tick := 0, retried := false
                        need := false }
    State.transferKept (s.updCmd c.id fun c => { c with next := c.next + n, slices := c.slices ++ [sl] }) (.pull c.id sid) (hostSpace c) 0 bytes

/-- Commands that this module has forwarded, in the order in which it took them up. -/
def State.forwardedCmds (s : State) : List Nat :=
  (s.ord.cmds.filter fun c => match c.st with
    | .forwarded _ _ => true
    | .accepted | .running | .held | .eligible _ | .finished => false).map (·.id)

/-- Is a pool being yielded, so that it admits no new host slice (R305)? -/
def State.yields (s : State) (pid : BitVec 16) : Bool :=
  match s.rop.yielding with
  | some y => y.pools.contains pid
  | none => false

/-- Offers the next slice of a command at step 5: class 0x05 conditions with its first slice (R222), the end of a write whose volume's generation is
exhausted (R164), then admission. -/
def State.offerLocal (s : State) (c : Cmd) : State :=
  if !s.handleTurn c then s
  else
    match (if c.st = .accepted then s.gate c else none) with
    | some st => s.endCmd c.id st
    | none =>
      match s.poolOf c.vol with
      | none => s
      | some p =>
        if s.yields p.cur.id then s else
        match p.run c.vol, p.volLayout c.vol with
        | some r, some d =>
          if c.op.writes && r.exhausted then s.failCmd c.id (stat 5 4 c.lastGen)
          else match c.op with
            | .read v n _ _ => s.admitRead p c v n false
            | .verify v n => s.admitRead p c v n true
            | .write v n _ _ => s.admitWrite p d r c v n false
            | .writeZeroes v n _ => s.admitWrite p d r c v n true
            | .sealAppend v b h store _ _ =>
              if (s.sealCtx c.vol h).isNone then s.endCmd c.id (stat 1 0x0A)
              else if store then s.admitWrite p d r c v (b / 4096) false else s.admitAppend c b h
            | .sealOpen prio label => s.openSeal c prio label
            | .sealClose h a => s.closeSeal p c h a
            | .sealSave h a => s.saveSeal c h a
            | .sealRestore _ ctx => s.restoreSeal c ctx
            | .flush | .abort _ _ | .volPower _ => s
        | _, _ => s

/-- Offers the next slice of a command: at the accepting module that of a forwarded command's payload. -/
def State.offerSlice (s : State) (c : Cmd) : State :=
  match c.st with
  | .forwarded _ _ => s.pullFwd c
  | .accepted | .running | .held | .eligible _ | .finished => s.offerLocal c

/-- Step 5 for host commands: deferred slices first, in the order first offered, then in acceptance order, then the forwarded commands, whose owners accept
them; one slice of a queue per edge (R30, R31). A command granted in this edge's step 4 waits for the next (R234). DESIGN CHOICE (R31): a unit that was
deferred does not stop a newer, smaller one of its class at the same edge. -/
def State.offerSlices (s : State) : State :=
  let order := (s.sched.defer ++ (s.inOrder ++ s.forwardedCmds).filter fun i => !s.sched.defer.contains i)
  let one := fun (acc : State × List Origin × List Nat) (id : Nat) =>
    let (s, used, left) := acc
    match s.cmd id with
    | none => (s, used, left)
    | some c =>
      if !c.hasSlice || decide (c.accEdge ≥ s.edge) then (s, used, left)
      else if used.contains c.queue then (s, used, if s.sched.defer.contains id then left ++ [id] else left)
      else
        let t := s.offerSlice c
        match t.cmd id with
        | none => (t, used, left)
        | some k =>
          if k.next = c.next ∧ k.hasSlice then (t, used, left ++ [id])
          else (t, c.queue :: used, left)
  let (t, _, left) := order.foldl one (s, [], [])
  { t with sched := { t.sched with defer := left } }

/-- Sends what reads wait for: member reads, and verified blocks to the host (R16, R121). -/
def State.moveReads (s : State) : State :=
  s.each s.inOrder fun s id =>
    match s.cmd id with
    | none => s
    | some c =>
      if c.rblks.isEmpty then s
      else
        let s := match s.poolOf c.vol with
          | some p => if c.fail.isSome then s else s.sendNeeds p c
          | none => s
        match s.cmd id with
        | some c => if c.fail.isSome then s else s.releaseBlks c
        | none => s

end Sys2Proof.Machine
end

