-- ==== Sys2Proof/Machine/Hss.lean ====
section
/-!
DEFINITION. Signatures that the module verifies: HSS (R348, by RFC 8554, section 6.3), certificates (R351), signature blocks (R349, R350), and the keys that
TRU derives from the device-unique key (R347).
-/
namespace Sys2Proof.Machine

/-! ### Byte strings -/

/-- SHA-256 as its 32 bytes. -/
def sha (m : List Byte) : List Byte := keyBytes (sha256 m)

/-- A field of n bytes at an offset. -/
def fieldAt (bs : List Byte) (off n : Nat) : List Byte := (bs.drop off).take n

/-- A big-endian field (R4, RFC 8554). -/
def beAt (bs : List Byte) (off n : Nat) : Nat := ofLe (fieldAt bs off n).reverse

/-- A little-endian field (R4). -/
def leAt (bs : List Byte) (off n : Nat) : Nat := ofLe (fieldAt bs off n)

/-! ### LM-OTS (RFC 8554, section 4) -/

/-- Width w of a coefficient, their number p, and the shift ls of the checksum. -/
structure OtsType where
  w  : Nat
  p  : Nat
  ls : Nat
  deriving DecidableEq, Repr

/-- The LM-OTS types that TRU takes, by typecode (R348). -/
def otsType (code : Nat) : Option OtsType :=
  match code with
  | 1 => some ⟨1, 265, 7⟩
  | 2 => some ⟨2, 133, 6⟩
  | 3 => some ⟨4, 67, 4⟩
  | 4 => some ⟨8, 34, 0⟩
  | _ => none

/-- Coefficient i of a string: w bits, the highest of a byte first. -/
def coef (w : Nat) (bs : List Byte) (i : Nat) : Nat :=
  let b := ((bs[i * w / 8]?).map (·.toNat)).getD 0
  b / 2 ^ (8 - (w * (i % (8 / w)) + w)) % 2 ^ w

/-- The checksum of a 32-byte string. -/
def otsSum (t : OtsType) (q : List Byte) : Nat := ((List.range (256 / t.w)).map fun i => 2 ^ t.w - 1 - coef t.w q i).foldl (· + ·) 0 * 2 ^ t.ls

/-- A chain from step a on, n steps. -/
def otsChain (pre : List Byte) (i : Nat) : Nat → Nat → List Byte → List Byte
  | 0, _, x => x
  | n + 1, a, x => otsChain pre i n (a + 1) (sha (pre ++ beBytes 2 i ++ beBytes 1 a ++ x))

/-- Bytes of an LM-OTS signature. -/
def OtsType.sigLen (t : OtsType) : Nat := 4 + 32 * (t.p + 1)

/-- The candidate public key that a signature of a message gives, for a key of this identifier and leaf. -/
def otsCandidate (t : OtsType) (ident : List Byte) (leaf : Nat) (msg sig : List Byte) : List Byte :=
  let pre := ident ++ beBytes 4 leaf
  let q := sha (pre ++ beBytes 2 0x8181 ++ fieldAt sig 4 32 ++ msg)
  let qc := q ++ beBytes 2 (otsSum t q)
  let z := (List.range t.p).flatMap fun i =>
    let a := coef t.w qc i
    otsChain pre i (2 ^ t.w - 1 - a) a (fieldAt sig (36 + 32 * i) 32)
  sha (pre ++ beBytes 2 0x8080 ++ z)

/-! ### LMS (RFC 8554, section 5) -/

/-- Height of the LMS types that TRU takes, by typecode (R348). -/
def lmsHeight (code : Nat) : Option Nat :=
  match code with
  | 5 => some 5
  | 6 => some 10
  | 7 => some 15
  | 8 => some 20
  | 9 => some 25
  | _ => none

/-- An LMS public key: 56 bytes. -/
structure LmsKey where
  h     : Nat
  code  : Nat
  ots   : OtsType
  otsCode : Nat
  ident : List Byte
  root  : List Byte
  deriving DecidableEq, Repr

/-- Reads an LMS public key; none for another length or for types that TRU rejects. -/
def lmsKey (bs : List Byte) : Option LmsKey :=
  if bs.length ≠ 56 then none
  else
    match lmsHeight (beAt bs 0 4), otsType (beAt bs 4 4) with
    | some h, some t => some ⟨h, beAt bs 0 4, t, beAt bs 4 4, fieldAt bs 8 16, fieldAt bs 24 32⟩
    | _, _ => none

/-- Bytes of an LMS signature under this key. -/
def LmsKey.sigLen (k : LmsKey) : Nat := 4 + k.ots.sigLen + 4 + 32 * k.h

/-- Climbs from a node to the root over the path of a signature. -/
def lmsClimb (k : LmsKey) (path : List Byte) : Nat → Nat → Nat → List Byte → List Byte
  | 0, _, _, x => x
  | n + 1, i, node, x =>
    let sib := fieldAt path (32 * i) 32
    let pre := k.ident ++ beBytes 4 (node / 2) ++ beBytes 2 0x8383
    lmsClimb k path n (i + 1) (node / 2) (sha (if node % 2 = 1 then pre ++ sib ++ x else pre ++ x ++ sib))

/-- Does a signature of a message verify under an LMS key? Its types are the key's, and its leaf exists. -/
def lmsVerify (k : LmsKey) (msg sig : List Byte) : Bool :=
  let q := beAt sig 0 4
  let ots := fieldAt sig 4 k.ots.sigLen
  let node := 2 ^ k.h + q
  decide (sig.length = k.sigLen) && decide (q < 2 ^ k.h) && decide (beAt ots 0 4 = k.otsCode) && decide (beAt sig (4 + k.ots.sigLen) 4 = k.code) &&
    (let leaf := sha (k.ident ++ beBytes 4 node ++ beBytes 2 0x8282 ++ otsCandidate k.ots k.ident q msg ots)
     lmsClimb k (sig.drop (8 + k.ots.sigLen)) k.h 0 node leaf == k.root)

/-! ### HSS (RFC 8554, section 6.3) -/

/-- Verifies the rest of an HSS signature under the key of one level, with the levels below it and the tree heights that remain. -/
def hssWalk (msg : List Byte) : Nat → Nat → List Byte → List Byte → Bool
  | below, room, key, sig =>
    match lmsKey key with
    | none => false
    | some k =>
      decide (k.h ≤ room) &&
      match below with
      | 0 => lmsVerify k msg sig
      | n + 1 =>
        let next := fieldAt sig k.sigLen 56
        lmsVerify k next (sig.take k.sigLen) && hssWalk msg n (room - k.h) next (sig.drop (k.sigLen + 56))

/-- Does an HSS signature of a message verify under a 60-byte public key? One to three levels, with heights of 25 in all at most (R348). -/
def hssVerify (key msg sig : List Byte) : Bool :=
  let l := beAt key 0 4
  decide (key.length = 60) && decide (1 ≤ l ∧ l ≤ 3) && decide (4 ≤ sig.length) && decide (beAt sig 0 4 + 1 = l) &&
    hssWalk msg (l - 1) 25 (key.drop 4) (sig.drop 4)

/-! ### The module key (R354): HSS with L = 2, a top tree of height 15 and bottom trees of height 10, LMOTS_SHA256_N32_W8 -/

/-- Exactly n bytes of a string. -/
def fit (n : Nat) (bs : List Byte) : List Byte := (List.range n).map fun k => bs.getD k 0

/-- LMOTS_SHA256_N32_W8. -/
def otsW8 : OtsType := ⟨8, 34, 0⟩

/-- The private element i of a leaf's one-time key: the manual gives no derivation from a tree's seed, so its bytes are free. -/
def otsSecret (ident seed : List Byte) (leaf i : Nat) : List Byte := (List.range 32).map (Config.otsKey ident seed leaf i)

/-- The one-time public key of a leaf. -/
def otsPublic (ident seed : List Byte) (leaf : Nat) : List Byte :=
  let pre := ident ++ beBytes 4 leaf
  sha (pre ++ beBytes 2 0x8080 ++ (List.range 34).flatMap fun i => otsChain pre i 255 0 (otsSecret ident seed leaf i))

/-- The one-time signature of a message; its randomizer is free. -/
def otsSign (ident seed : List Byte) (leaf : Nat) (msg : List Byte) : List Byte :=
  let pre := ident ++ beBytes 4 leaf
  let c := (List.range 32).map (Config.otsRandom ident seed leaf)
  let q := sha (pre ++ beBytes 2 0x8181 ++ c ++ msg)
  let qc := q ++ beBytes 2 (otsSum otsW8 q)
  beBytes 4 4 ++ c ++ (List.range 34).flatMap fun i => fit 32 (otsChain pre i (coef 8 qc i) 0 (otsSecret ident seed leaf i))

/-- A node of a tree of height h: the i-th of those that stand k levels above the leaves. -/
def lmsNode (ident seed : List Byte) (h : Nat) : Nat → Nat → List Byte
  | 0, i => sha (ident ++ beBytes 4 (2 ^ h + i) ++ beBytes 2 0x8282 ++ otsPublic ident seed i)
  | k + 1, i => sha (ident ++ beBytes 4 (2 ^ (h - (k + 1)) + i) ++ beBytes 2 0x8383 ++ lmsNode ident seed h k (2 * i) ++ lmsNode ident seed h k (2 * i + 1))

/-- Typecode of the LMS type of a height that the module key uses. -/
def lmsCode (h : Nat) : Nat := if h = 15 then 7 else 6

/-- The public key of a tree: 56 bytes. -/
def lmsPublic (ident seed : List Byte) (h : Nat) : List Byte := beBytes 4 (lmsCode h) ++ beBytes 4 4 ++ fit 16 ident ++ lmsNode ident seed h h 0

/-- A tree's signature of a message with a leaf. -/
def lmsSign (ident seed : List Byte) (h leaf : Nat) (msg : List Byte) : List Byte :=
  beBytes 4 leaf ++ otsSign ident seed leaf msg ++ beBytes 4 (lmsCode h)
    ++ (List.range h).flatMap fun k => let i := leaf / 2 ^ k; lmsNode ident seed h k (if i % 2 = 0 then i + 1 else i - 1)

/-- SEED of the top tree, from the fuses (R347). -/
def seedTop (serial : BitVec 128) : List Byte := (List.range 32).map (Config.seedTop serial)

/-- I of the top tree, from the fuses (R347). -/
def identTop (serial : BitVec 128) : List Byte := (List.range 16).map (Config.identTop serial)

/-- The seed of bottom tree j. -/
def seedBottom (serial : BitVec 128) (j : Nat) : List Byte := sha (identTop serial ++ beBytes 4 j ++ [0xFF, 0xFF] ++ seedTop serial)

/-- I of bottom tree j. -/
def identBottom (serial : BitVec 128) (j : Nat) : List Byte := (sha (identTop serial ++ beBytes 4 j ++ [0xFF, 0xFE] ++ seedTop serial)).take 16

/-- The module's public key: 60 bytes. -/
def moduleKey (serial : BitVec 128) : List Byte := beBytes 4 2 ++ lmsPublic (identTop serial) (seedTop serial) 15

/-- The module's signature with index q: top leaf j signs bottom tree j's public key, and a leaf of that tree the message. -/
def moduleSign (serial : BitVec 128) (q : Nat) (msg : List Byte) : List Byte :=
  let j := q / 1024
  let pk := lmsPublic (identBottom serial j) (seedBottom serial j) 10
  beBytes 4 1 ++ lmsSign (identTop serial) (seedTop serial) 15 j pk ++ pk ++ lmsSign (identBottom serial j) (seedBottom serial j) 10 (q % 1024) msg

/-! ### Certificates (R351) -/

/-- A certificate. -/
structure Cert where
  kind    : Nat
  subject : List Byte     -- 32 bytes
  issuer  : List Byte     -- SHA-256 of the issuer's public key
  serial  : List Byte     -- serial restriction, 16 bytes
  key     : List Byte     -- the subject's HSS public key, 60 bytes
  sig     : List Byte     -- the issuer's signature
  deriving DecidableEq, Repr

/-- Bytes 0x00 to 0x9F of a certificate: what the issuer signs. -/
def Cert.body (c : Cert) : List Byte :=
  [0x4C, 0x4E, 0x43, 0x54] ++ leBytes 1 c.kind ++ [0, 0, 0] ++ leBytes 4 (160 + c.sig.length) ++ leBytes 4 c.sig.length ++ c.subject ++ c.issuer ++ c.serial
    ++ c.key ++ [0, 0, 0, 0]

/-- A whole certificate. -/
def Cert.bytes (c : Cert) : List Byte := c.body ++ c.sig

/-- Reads a certificate at the start of these bytes, with what follows it; none when a field is not as R351 has it. -/
def readCert (bs : List Byte) : Option (Cert × List Byte) :=
  let n := leAt bs 12 4
  let c : Cert := ⟨leAt bs 4 1, fieldAt bs 16 32, fieldAt bs 48 32, fieldAt bs 80 16, fieldAt bs 96 60, fieldAt bs 160 n⟩
  if c.body = bs.take 160 ∧ c.sig.length = n then some (c, bs.drop (160 + n)) else none

/-- Is a certificate one of this kind, issued under this public key? -/
def Cert.issuedBy (c : Cert) (kind : Nat) (key : List Byte) : Bool := decide (c.kind = kind) && c.issuer == sha key && hssVerify key c.body c.sig

/-- May the key of an image certificate sign for the module of this serial number (R350)? -/
def Cert.admits (c : Cert) (serial : BitVec 128) : Bool := decide (ofLe c.serial = 0 ∨ c.serial = leBytes 16 serial.toNat)

/-! ### Signature blocks (R349, R350) -/

/-- Security version of the object, in its signature block. -/
def blkVersion (blk : List Byte) : Nat := leAt blk 12 4

/-- Digest in a signature block. -/
def blkDigest (blk : List Byte) : BitVec 256 := keyOf (fieldAt blk 16 32)

/-- Does the fixed part of a block stand as R349 has it, for this purpose, number of certificates and covered bytes, and not unsigned? -/
def blkHead (blk : List Byte) (purpose certs : Nat) (covered : List Byte) : Bool :=
  decide (64 ≤ blk.length) && fieldAt blk 0 5 == [0x4C, 0x4E, 0x53, 0x47, 0x01] && decide (leAt blk 5 1 = purpose) && decide (leAt blk 6 1 = certs)
    && decide (leAt blk 7 1 = 0) && decide (leAt blk 8 4 = covered.length) && decide (leAt blk 52 12 = 0) && blkDigest blk == sha256 covered

/-- Does the signature that ends a block verify under a key? -/
def blkSigned (key blk rest : List Byte) : Bool := decide (rest.length = leAt blk 48 4) && hssVerify key (blk.take 48) rest

/-- The signature block of a firmware object verifies: under Q_FW, with no certificate (R350). -/
def fwVerifies (fw : SignedObj) : Bool := blkHead fw.block 1 0 fw.body && blkSigned Config.qFw fw.block (fw.block.drop 64)

/-- The firmware version that a module reports (R229, R316). -/
def fwOwnVersion (fw : SignedObj) : Nat := (Config.fwOwnVersion fw.body).toNat

/-- Security version of a firmware object: its signature block's (R349). -/
def fwVersion (fw : SignedObj) : Nat := blkVersion fw.block

/-- The signature block of an image verifies: under the subject key of a certificate of kind 1 that Q_IA has issued and that admits this module (R350). The
block's security version is the one of the image's header (R349). -/
def imgVerifies (o : SignedObj) (serial : BitVec 128) : Bool :=
  blkHead o.block 2 1 o.body && decide (blkVersion o.block = leAt o.body 0x0C 4) &&
    match readCert (o.block.drop 64) with
    | none => false
    | some (x, rest) => x.issuedBy 1 Config.qIa && x.admits serial && blkSigned x.key o.block rest

/-! ### The module's own keys and certificates (R347, R351) -/

/-- K_wrap, which wraps K_R. -/
def kWrap (serial : BitVec 128) : BitVec 256 :=
  keyOf (kdf (keyBytes (Config.duk serial)) [0x4C, 0x4E, 0x53, 0x4C, 0x2D, 0x54, 0x52, 0x55, 0x2D, 0x57] [0, 0, 0, 0])

/-- K_rec, which authenticates the trust record. -/
def kRec (serial : BitVec 128) : List Byte :=
  kdf (keyBytes (Config.duk serial)) [0x4C, 0x4E, 0x53, 0x4C, 0x2D, 0x54, 0x52, 0x55, 0x2D, 0x52] [0, 0, 0, 0]

/-- The device CA's certificate, as written at manufacture to the vault's trust block. -/
def caCert : Cert :=
  ⟨2, Config.caSubject, sha Config.qId, List.replicate 16 0, Config.caKey, Config.certSig 2 0⟩

/-- The module's certificate: its subject is the serial number and the ordering code. -/
def modCert (p : Part) : Cert :=
  ⟨3, leBytes 16 p.serial.toNat ++ p.orderingCode, sha Config.caKey, List.replicate 16 0, moduleKey p.serial, Config.certSig 3 p.serial⟩

end Sys2Proof.Machine
end

