-- ==== Sys2Proof/Machine/Posting.lean ====
section
/-!
DEFINITION. Step 4: the completion arbiter (R242, R243), lock release (R234), posting and overflow (R33, R202, R244, R245), interrupts (R34, R35,
R203, R318), power management events (R324) and device lines (R186, R187).
-/
namespace Sys2Proof.Machine

/-! ### The arbiter -/

/-- Has any intent record of a command been appended? -/
def Cmd.journalled (c : Cmd) : Bool := c.slices.any fun sl => !sl.recs.isEmpty

/-- Can a command be aborted at all (R242)? -/
def IoOp.abortable (op : IoOp) : Bool :=
  match op with
  | .read _ _ _ _ | .write _ _ _ _ | .writeZeroes _ _ _ | .flush | .verify _ _ | .sealAppend _ _ _ _ _ _ => true
  | .abort _ _ | .sealOpen _ _ | .sealClose _ _ | .sealSave _ _ | .sealRestore _ _ | .volPower _ => false

/-- Aborts a command (R243): its slices without records and its hold slots are given back; its record is eligible at this step 4. -/
def State.abortCmd (s : State) (t : Cmd) : State :=
  let held := (t.rblks.filter fun b => b.st != .sent).length
  let s := ((s.failUnjournalled t).unhold held).updCmd t.id fun c => { c with rblks := [], aborted := true }
  let s : State := { s with sched := { s.sched with defer := s.sched.defer.filter (· ≠ t.id) } }
  (s.endCmd t.id (stat 4 1)).bump .ordAbortedCntN

/-- Decides one ABORT (R241, R242). -/
def State.decideAbort (s : State) (a : Cmd) : State :=
  match a.set with
  | [] => (s.endCmd a.id (stat 4 3)).bump .ordNoabortCntN
  | i :: _ =>
    match s.cmd i with
    | none => (s.endCmd a.id (stat 4 2)).bump .ordLateCntN
    | some t =>
      if !t.open_ then (s.endCmd a.id (stat 4 2)).bump .ordLateCntN
      else if !t.op.abortable || t.journalled then (s.endCmd a.id (stat 4 4)).bump .ordNoabortCntN
      else (s.abortCmd t).endCmd a.id okStat

/-- Decides every ABORT accepted before this edge, in acceptance order, before any record of the edge posts. -/
def State.arbitrate (s : State) : State :=
  s.each s.inOrder fun s id =>
    match s.cmd id with
    | none => s
    | some a => match a.op with
      | .abort _ _ => if a.st = .accepted ∧ a.accEdge < s.edge then s.decideAbort a else s
      | .read _ _ _ _ | .write _ _ _ _ | .writeZeroes _ _ _ | .flush | .verify _ _ | .sealOpen _ _ | .sealAppend _ _ _ _ _ _ | .sealClose _ _
      | .sealSave _ _ | .sealRestore _ _ | .volPower _ => s

/-! ### Records of commands -/

/-- The acceptance number that a command's record carries: its own, or the owner's for a forwarded one (R220, R247). -/
def Cmd.accNo (c : Cmd) : Nat := c.acc.getD c.lastGen

/-- Takes the commands that became eligible: their locks are released, a peer's command is answered, and the records of local ones stand before those
without an acceptance number (R33, R234, R247). Those that end "fixity failure not recovered" are counted (R182). -/
def State.collect (s : State) : State :=
  let done := s.ord.cmds.filterMap fun c => match c.st with
    | .eligible st => some (c, st)
    | .accepted | .running | .held | .forwarded _ _ | .finished => none
  let es := sortBy done fun a b => decide (a.1.accNo ≤ b.1.accNo)
  let s := (s.each es fun s (c, _) => s.releaseLock c.id).bump .fixUnrecCntN (es.filter fun e => e.2.cls == 2 && e.2.code.toNat == codeFix).length
  let news := es.filterMap fun (c, st) => match c.org with
    | .ring q => some (⟨q, s.cqOf q, some c.accNo, cplOf q c.tag st c.accNo, some c.id⟩ : Elig)
    | .peer _ _ _ _ | .gone => none
  let s := s.each es fun s (c, st) => match c.org with
    | .ring _ => s.updCmd c.id fun c => { c with st := .finished }
    | .gone => State.bump { s with ord := { s.ord with cmds := s.ord.cmds.filter fun k => k.id ≠ c.id } } .qeCplDiscCntN
    | .peer a fid _ _ =>
      State.sendSeq { s with ord := { s.ord with cmds := s.ord.cmds.filter fun k => k.id ≠ c.id } } a (.fwdReply fid st (w32 c.accNo))
  { s with qe := { s.qe with elig := news ++ s.qe.elig } }

/-! ### Completion rings -/

/-- Free space of a completion ring (R197). -/
def Cq.room (r : Cq) : Nat := 2 ^ r.exp - (r.t - r.hc).toNat

/-- Records that an overflow area holds (R244). -/
def ovfMax : Nat := 256

/-- The 32 bytes of a completion record (R4, R220). -/
def CplRec.bytes (r : CplRec) (edge : BitVec 32) (phase : Bool) : List Byte :=
  leBytes 8 r.result.toNat ++ leBytes 4 edge.toNat ++ leBytes 2 r.tag.toNat ++ leBytes 2 r.sqid.toNat ++ leBytes 2 (r.cls ++ r.code).toNat
    ++ leBytes 2 r.detail.toNat ++ leBytes 4 r.acc.toNat ++ List.replicate 7 0 ++ [if phase then 1 else 0]

/-- Posts one record at the tail (R202, R220). -/
def State.postOne (s : State) (k : RingRef) (r : CplRec) : State :=
  match s.cq k with
  | none => s
  | some c =>
    let phase := c.t.toNat / 2 ^ c.exp % 2 == 0
    (s.updCq k fun c => { c with t := c.t + 1 }).emit (.cplWrite k c.t phase (w32 s.edge) r (r.bytes (w32 s.edge) phase))

/-- The command of a record that is posted or goes to the overflow area is no longer outstanding (R199). -/
def State.recOut (s : State) (k : RingRef) (r : CplRec) : State :=
  let of := fun (q : RingRef) => q.port == k.port && q.fn == k.fn && ringQid q == r.sqid
  let mine := s.qe.doneAdm.find? fun e => of e.1 && e.2 == r.tag
  { s with ord := { s.ord with cmds := s.ord.cmds.filter fun x => !(x.st == .finished && x.tag == r.tag && (match x.org with
             | .ring q => of q
             | .peer _ _ _ _ | .gone => false)) }
           qe := { s.qe with doneAdm := match mine with
             | some e => s.qe.doneAdm.erase e
             | none => s.qe.doneAdm } }

/-- The function of a ring is in D3hot: its completion rings behave as disabled (R323). -/
def State.ringDown (s : State) (k : RingRef) : Bool := (s.func k.port k.fn).d != .d0

/-- Reads the host line again for a completion ring (R244, R245). -/
def State.reread (s : State) (k : RingRef) : State :=
  match s.cq k with
  | none => s
  | some c =>
    if c.lineRead then s
    else
      let (s, t) : State × Option (BitVec 14) := s.takeTag k.port (.cqLine k)
      (s.updCq k fun c => { c with lineRead := true }).emit (.hostLineRead k (t.getD 0))

/-- Submission rings that name a completion ring. -/
def State.sqsOf (s : State) (k : RingRef) : List RingRef :=
  (s.qe.sqs.filter fun e => e.1.port == k.port && e.1.fn == k.fn && e.2.cqPair == k.pair).map (·.1)

/-- Posts to one completion ring (R245): what waits first, then the records of this edge; the rest goes to the overflow area and the waiting list. -/
def State.postRing (s : State) (k : RingRef) (news : List CplRec) : State :=
  match s.cq k with
  | none => s.bump .qeCplDiscCntN news.length
  | some c =>
    let all := c.overflow ++ c.waiting ++ news
    let on := c.enabled && !s.ringDown k
    let n := if on then min c.room all.length else 0
    let rest := all.drop n
    let ovf := rest.take ovfMax
    let hold := !rest.isEmpty || !on
    let s := s.iff (!rest.isEmpty && on) fun s => s.reread k
    let s := s.each ((all.take (n + ovf.length)).drop c.overflow.length) fun s r => s.recOut k r
    let s := s.each (all.take n) fun s r => s.postOne k r
    let s := s.bump .qeOvfCntN (ovf.length - min ovf.length (c.overflow.length - min n c.overflow.length))
    let s := s.updCq k fun c => { c with overflow := ovf, waiting := rest.drop ovfMax, held := hold, idleEdges := if hold && n == 0 then c.idleEdges + 1 else 0
                                         stallLogged := c.stallLogged && hold }
    let s := s.iff (decide (n > 0)) fun s => match c.vector with
      | some v => if s.qe.vecPend.contains (k.port, k.fn, v) then s else { s with qe := { s.qe with vecPend := s.qe.vecPend ++ [(k.port, k.fn, v)] } }
      | none => s
    if hold then
      s.each (s.sqsOf k) fun s q => s.updSq q fun r => { r with st := if r.st = .enabled then .stopped else r.st }
    else
      s.each (if c.held then s.sqsOf k else []) fun s q => match s.sq q with
        | some r => if r.st = .stopped then
            let s := s.updSq q fun r => { r with st := .enabled, pend := true }
            match r.fetch with
            | .idle => s.readLine q
            | .line | .first | .rest _ | .segment _ _ _ _ | .waiting _ | .slots _ _ _ _ => s
          else s
        | none => s

/-- A ring has been HELD for 1,024 edges with no record posted (R245): logged once per hold. -/
def State.cqStall (s : State) (k : RingRef) : State :=
  match s.cq k with
  | none => s
  | some c =>
    if c.held && decide (c.idleEdges ≥ 1024) && !c.stallLogged then
      ((s.updCq k fun c => { c with stallLogged := true }).log .cqStalled 1 (ringQid k).toNat 0 (c.overflow.length + c.waiting.length)).bump .qeStallCntN
    else s

/-- Posts the records of this edge on every ring (R33). -/
def State.postAll (s : State) : State :=
  let es := s.qe.elig
  let s : State := { s with qe := { s.qe with elig := [] } }
  let there := s.qe.cqs.map (·.1)
  let s := s.bump .qeCplDiscCntN (es.filter fun e => !there.contains e.cq).length
  let s : State := { s with ord := { s.ord with cmds := s.ord.cmds.filter fun c => !(c.st == .finished && es.any fun e => e.cmd == some c.id && !there.contains e.cq) } }
  s.each there fun s k => (s.postRing k ((es.filter fun e => e.cq == k).map (·.cpl))).cqStall k

/-! ### Interrupts -/

/-- An MSI-X entry; one not written since reset is masked. -/
def Func.entry (f : Func) (v : Nat) : MsixEnt := (tget f.msix v).getD ⟨0, 0, true⟩

/-- Raises the interrupt of a vector (R203, R318). -/
def State.raise (s : State) (p : PciePort) (fn : Fn) (v : Nat) : State :=
  let f := s.func p fn
  if f.msixEn then
    let e := f.entry v
    if f.fnMask || e.mask then s.updFn p fn fun f => { f with pba := if f.pba.contains v then f.pba else f.pba ++ [v] }
    else s.emit (.msix p fn v e.addr e.data)
  else if fn = .pf0 ∧ f.msiEn > 0 then s.emit (.msi p (v % f.msiEn))
  else s

/-- Raises what is due at this edge: PF0 at every edge, PF1 at qualifying edges (R34). -/
def State.interrupts (s : State) : State :=
  let q := decide (s.edge % 2 ^ (s.reg .tckIrqDiv) = 0)
  let now := s.qe.vecPend.filter fun e => e.2.1 == .pf0 || q
  let s : State := { s with qe := { s.qe with vecPend := s.qe.vecPend.filter fun e => !(e.2.1 == .pf0 || q) } }
  s.each now fun s (p, fn, v) => s.raise p fn v

/-- PME_Status of a function is set (R324). -/
def State.setPme (s : State) (p : PciePort) (fn : Fn) : State :=
  let f := s.func p fn
  if f.pmeEn && !f.pmeSt then
    let s := s.updFn p fn fun f => { f with pmeSt := true }
    match f.d with
    | .d3hot => s.emit (.pmPme p fn)
    | .d3cold => if s.reg .hifCfgWakeEn p.val = 1 then { s with pins := { s.pins with wake := s.pins.wake.set p.val true } } else s
    | .d0 => s
  else s

/-- The same for both functions of both ports. -/
def State.pmeAll (s : State) : State :=
  s.each [(0, Fn.pf0), (0, .pf1), (1, .pf0), (1, .pf1)] fun s (p, fn) => s.setPme p fn

/-- A completion record waits for a ring of a function in D3hot (R324). -/
def State.pmeWaits (s : State) : State :=
  s.each s.qe.cqs fun s (k, c) =>
    s.iff ((s.func k.port k.fn).d == .d3hot && !(c.overflow.isEmpty && c.waiting.isEmpty)) fun s => s.setPme k.port k.fn

/-! ### Device lines (R186, R187) -/

/-- The module state of a device line. -/
def State.modCode (s : State) : Nat := if s.qe.halted then 2 else if s.phase = .failStop then 1 else 0

/-- The device line of a pair as it ought to read now. -/
def State.devLineNow (s : State) (q : RingRef) : DevLine :=
  { sqHead := ((s.sq q).map (·.h)).getD 0, cqTail := ((s.cq q).map (·.t)).getD 0
    sqSt := match s.sq q with
      | none => 0
      | some r => match r.st with
        | .disabled => 1
        | .enabled => 2
        | .stopped => 3
    cqSt := match s.cq q with
      | none => 0
      | some c => if !c.enabled then 1 else if c.held then 3 else 2
    modSt := s.modCode }

/-- The 64 bytes of a device line (R4, R186). -/
def DevLine.bytes (l : DevLine) (edge : BitVec 32) : List Byte :=
  leBytes 4 l.sqHead.toNat ++ leBytes 4 l.cqTail.toNat ++ leBytes 4 edge.toNat ++ leBytes 1 l.sqSt ++ leBytes 1 l.cqSt ++ leBytes 1 l.modSt
    ++ List.replicate 49 0

/-- Writes the device line of each pair whose fields other than Edge have changed (R187). -/
def State.devLines (s : State) : State :=
  s.each (s.qe.sqs.map (·.1) ++ s.qe.cqs.map (·.1)).eraseDups fun s q =>
    let l := s.devLineNow q
    if tget s.qe.lines q = some l then s
    else State.emit { s with qe := { s.qe with lines := tset s.qe.lines q l } } (.devLine q (w32 s.edge) l (l.bytes (w32 s.edge)))

/-- Step 4 (R27): the arbiter, the records, the device lines, the interrupts; then requests that the released locks let in (R234). -/
def State.post (s : State) : State :=
  let s := s.arbitrate.collect.postAll.devLines.interrupts.pmeWaits
  s.grantAll (s.ord.locks.length + 1)

/-- CQ_STALLED (R245). -/
def execCqStalled (q : RingRef) (s : State) : Host.Outcome State Fault Refusal := .next (s.clr.cqStall q)

end Sys2Proof.Machine
end

