-- ==== Sys2Proof/Machine/Trust.lean ====
section
/-!
DEFINITION. TRU: floors, the module key's index and its reservation (R353 to R357), signature blocks (R349), attestation reports (R359) and Virek
statements (R360).
-/
namespace Sys2Proof.Machine

/-- Code of the variant (R229). -/
def State.variantCode (s : State) : Nat := if s.part.variant = .h96 then 0 else 1

/-! ### Signature blocks (R349) -/

/-- Bytes of an HSS signature by the module key (R354). -/
def sigLen : Nat := 3124

/-- Bytes 0x00 to 0x2F of a signature block: what the signature covers. -/
def sigHeader (b : SigBlock) (covered : Nat) : List Byte :=
  [0x4C, 0x4E, 0x53, 0x47, 0x01] ++ leBytes 1 b.purpose ++ [0x00] ++ leBytes 1 b.cause ++ leBytes 4 covered ++ leBytes 4 0 ++ leBytes 32 b.digest.toNat

/-- A signature block over an object of `covered` bytes by the module with this serial number. -/
def sigBytes (serial : BitVec 128) (b : SigBlock) (covered : Nat) : List Byte :=
  let hd := sigHeader b covered
  match b.index with
  | some q => hd ++ leBytes 4 sigLen ++ List.replicate 12 0 ++ moduleSign serial q hd
  | none => hd ++ leBytes 4 0 ++ List.replicate 12 0

/-! ### The trust-state area (R361) -/

/-- Bytes 0x000 to 0xFEF of the trust record. -/
def State.trustBody (s : State) : List Byte :=
  let t := s.tru
  [0x4C, 0x4E, 0x54, 0x52] ++ leBytes 4 t.recSeq.toNat ++ leBytes 16 s.part.serial.toNat ++ leBytes 4 t.trec.rHi ++ leBytes 4 t.trec.fwFloor
    ++ leBytes 4 t.trec.imgFloor ++ leBytes 4 t.bootCnt ++ leBytes 1 (if t.krPresent then 1 else 0) ++ [0, 0, 0]
    ++ leBytes 40 (if t.krPresent then t.krWrapped.toNat else 0) ++ leBytes 4 (if t.krPresent then t.krCheck.toNat else 0) ++ List.replicate 3992 0

/-- The trust record with its tag. -/
def State.trustBytes (s : State) : List Byte := s.trustBody ++ cmac (kRec s.part.serial) s.trustBody

/-- TRU writes the trust record: the copy that is not current, with a sequence number one higher. -/
def State.writeTrust (s : State) : State :=
  let s : State := { s with tru := { s.tru with recSeq := s.tru.recSeq + 1 } }
  let at_ := s.tru.recSeq.toNat % 2
  State.emit { s with tru := { s.tru with recNvm := s.tru.recNvm.set at_ s.trustBytes } } (.trustWrite at_ s.trustBytes)

/-- Reads a copy of the trust record: its sequence number, and TRU with what it holds; none when its serial number or its tag is not this module's. -/
def Tru.readCopy (t : Tru) (serial : BitVec 128) (bs : List Byte) : Option (Nat × Tru) :=
  if bs.length = 4096 ∧ bs.take 4 = [0x4C, 0x4E, 0x54, 0x52] ∧ fieldAt bs 8 16 = leBytes 16 serial.toNat ∧ bs.drop 4080 = cmac (kRec serial) (bs.take 4080) then
    let kr := leAt bs 0x28 1 == 1
    some (leAt bs 4 4, { t with trec := ⟨true, leAt bs 0x18 4, leAt bs 0x1C 4, leAt bs 0x20 4⟩, recSeq := w32 (leAt bs 4 4), bootCnt := leAt bs 0x24 4, krPresent := kr
                                krWrapped := BitVec.ofNat 320 (leAt bs 0x2C 40), krCheck := BitVec.ofNat 32 (leAt bs 0x54 4) })
  else none

/-- At start, TRU takes the valid copy with the higher sequence number; with none, no record stands and K_R is absent (R361). -/
def State.readTrust (s : State) : State :=
  let c := fun (i : Nat) => s.tru.readCopy s.part.serial (s.tru.recNvm.getD i [])
  let none_ : Tru := { s.tru with trec := ⟨false, 0, 0, 0⟩, recSeq := 0, bootCnt := 0, krPresent := false, krWrapped := 0, krCheck := 0 }
  let t := match c 0, c 1 with
    | some (a, x), some (b, y) => if a < b then y else x
    | some (_, x), none | none, some (_, x) => x
    | none, none => none_
  { s with tru := t }

/-- TRU copies both certificates from the vault's trust block into the certificate store, when that copy is missing or differs (R351). -/
def State.copyCerts (s : State) : State :=
  let c := (caCert.bytes, (modCert s.part).bytes)
  if s.tru.certStore = some c then s else { s with tru := { s.tru with certStore := some c } }

/-! ### The index (R354 to R357) -/

/-- Indices that one index fuse stands for. -/
def fuseStep : Nat := 131072

/-- Signatures that the module key gives. -/
def sigMax : Nat := 2 ^ 25

/-- Reserves the next 1,024 indices (R355): the fuse, the vault's trust block, then the trust record. The flag says that TRU may sign. -/
def State.reserve (s : State) (persistOk recordOk : Bool) : State × Bool :=
  let r := s.tru.rHi + 1024
  let s : State := if r > s.tru.idxFuses * fuseStep ∧ s.tru.idxFuses < 256 then { s with tru := { s.tru with idxFuses := s.tru.idxFuses + 1 } } else s
  if !persistOk then (State.log { s with tru := { s.tru with persistFail := true } } .truPersistFail, false)
  else
    let s : State := { s with tru := { s.tru with rHi := r, persistFail := false }, vlt := { s.vlt with trust := { s.vlt.trust with valid := true, rHi := r } } }
    if recordOk then
      (State.writeTrust { s with tru := { s.tru with trec := { s.tru.trec with rHi := r } } }, true)
    else (s.log .truPersistFail, true)

/-- Takes the next index for a signature: the cause of an unsigned object, or the index (R355, R357). -/
def State.nextIndex (s : State) (persistOk recordOk : Bool) : State × Nat × Option Nat :=
  if s.tru.q ≥ sigMax then (s, 1, none)
  else
    let (s, ok) : State × Bool := if s.tru.q = s.tru.rHi then s.reserve persistOk recordOk else (s, true)
    if !ok then (s, 2, none)
    else
      let q := s.tru.q
      let s : State := { s with tru := { s.tru with q := q + 1 } }
      let s := s.iff (decide (q + 1 ≥ sigMax - 1048576) && !s.tru.low) fun s => State.log { s with tru := { s.tru with low := true } } .truKeyLow
      let s := s.iff (decide (q + 1 ≥ sigMax) && !s.tru.exhausted) fun s => State.log { s with tru := { s.tru with exhausted := true } } .truKeyExhausted
      (s.bump .truSignCntN, 0, some q)

/-- A signature block of a purpose over these bytes. -/
def signObj (purpose : Nat) (obj : List Byte) (index : State × Nat × Option Nat) : SigBlock :=
  { purpose := purpose, cause := index.2.1, index := index.2.2, digest := sha256 obj }

/-! ### Floors (R352, R353) -/

/-- The firmware floor in force: the highest of fuses, trust record and vault. -/
def State.fwFloorNow (s : State) : Nat :=
  max s.tru.fwFuses (max (if s.tru.trec.valid then s.tru.trec.fwFloor else 0) (if s.vlt.trust.valid then s.vlt.trust.fwFloor else 0))

/-- The image floor in force. -/
def State.imgFloorNow (s : State) : Nat :=
  max (if s.tru.trec.valid then s.tru.trec.imgFloor else 0) (if s.vlt.trust.valid then s.vlt.trust.imgFloor else 0)

/-- Raises the floors to the security versions of a committed pair (R353). -/
def State.raiseFloors (s : State) (fw img : Nat) : State :=
  let f := max s.fwFloorNow fw
  let i := max s.imgFloorNow img
  State.writeTrust { s with
    vlt := { s.vlt with trust := { s.vlt.trust with valid := true, rHi := s.tru.rHi, fwFloor := f, imgFloor := i } }
    tru := { s.tru with trec := { s.tru.trec with valid := true, rHi := s.tru.rHi, fwFloor := f, imgFloor := i }
                        fwFloor := f, imgFloor := i, fwFuses := max s.tru.fwFuses (min 64 f) } }

/-! ### Reports (R359) -/

/-- Boot flags of a report. -/
def State.bootFlags (s : State) : Nat :=
  let b := fun (x : Bool) (n : Nat) => if x then 2 ^ n else 0
  b (s.mgt.slot == 1) 0 + b s.mgt.onTrial 1 + b s.mgt.fallback 2 + b s.pins.testEn 3 + b ((s.mgt.image.map (·.testPerm)) == some 1) 4
    + b (s.mgt.inj.any (·.armed)) 5

/-- The body of an attestation report for an index. -/
def State.reportBody (s : State) (nonce : BitVec 256) (q : Nat) : List Byte :=
  let fw := s.mgt.fw
  let im := s.mgt.image
  [0x4C, 0x4E, 0x41, 0x52] ++ leBytes 2 1 ++ leBytes 2 256 ++ leBytes 16 s.part.serial.toNat ++ s.part.orderingCode
    ++ leBytes 1 s.variantCode ++ [0xB1] ++ leBytes 2 s.selfAddr.toNat ++ leBytes 4 (s.reg .ropIdRope) ++ leBytes 32 nonce.toNat
    ++ leBytes 32 ((fw.map fun o => (blkDigest o.block).toNat).getD 0) ++ leBytes 32 ((im.map (·.digest.toNat)).getD 0) ++ leBytes 32 s.part.romDigest.toNat
    ++ leBytes 4 ((fw.map fwVersion).getD 0) ++ leBytes 4 ((im.map (·.secVersion.toNat)).getD 0) ++ leBytes 4 s.fwFloorNow
    ++ leBytes 4 s.imgFloorNow ++ leBytes 8 s.edge ++ leBytes 8 (s.reg .tckTaiBaseLoSec + 2 ^ 32 * s.reg .tckTaiBaseHiSec) ++ leBytes 4 q
    ++ leBytes 4 s.tru.bootCnt ++ leBytes 8 s.evr.next ++ leBytes 1 s.bootFlags ++ leBytes 1 (phaseCode s.phase) ++ [0, 0]
    ++ leBytes 4 s.mgt.injArms ++ List.replicate 24 0

/-- A whole report: body, signature block, device CA certificate, module certificate. -/
def State.report_ (s : State) (nonce : BitVec 256) (b : SigBlock) (q : Nat) : List Byte :=
  s.reportBody nonce q ++ sigBytes s.part.serial b 256 ++ caCert.bytes ++ (modCert s.part).bytes

/-- TRU finishes a report: written whole when its buffer holds it; the result gives its bytes (R359, R224). -/
def State.finishReport (s : State) (src : AdmSrc) (tag : BitVec 16) (addr : BitVec 64) (len : BitVec 32) (nonce : BitVec 256) (persistOk recordOk : Bool) :
    State :=
  let ix := s.nextIndex persistOk recordOk
  let q := ix.2.2.getD ix.1.tru.q
  let b := signObj 3 (ix.1.reportBody nonce q) ix
  let bytes := ix.1.report_ nonce b q
  ix.1.hostOut src tag addr (if bytes.length ≤ len.toNat then bytes else []) (okStat bytes.length)

/-! ### Virek statements (R360) -/

/-- The 256-byte body of a statement. -/
def virekBody (v : Virek) : List Byte :=
  [0x4C, 0x4E, 0x56, 0x4B] ++ leBytes 2 1 ++ leBytes 2 256 ++ leBytes 16 v.signer.toNat ++ leBytes 2 v.addr.toNat ++ leBytes 2 v.pool.toNat
    ++ leBytes 4 v.ropeId.toNat ++ leBytes 4 v.cycle ++ leBytes 2 v.period ++ leBytes 2 v.layout ++ leBytes 8 v.startEdge ++ leBytes 8 v.endEdge
    ++ leBytes 8 v.taiBase.toNat ++ leBytes 8 v.checked ++ leBytes 8 v.repaired ++ leBytes 8 v.parity ++ leBytes 8 v.unresolved ++ leBytes 4 v.lostCount
    ++ leBytes 1 ((if v.late then 1 else 0) + (if v.takeover then 2 else 0)) ++ List.replicate 11 0 ++ leBytes 32 v.prev.toNat
    ++ leBytes 32 v.lostDigest.toNat ++ leBytes 32 v.fwDigest.toNat ++ List.replicate 48 0

/-- A whole statement. -/
def virekBytes (v : Virek) : List Byte :=
  virekBody v ++ (match v.sig with
    | some b => sigBytes v.signer b 256
    | none => [])

/-- The 32-byte entry of the lost-extent list (R128): first block, count, volume, cause, edge, layout, CRC. -/
def lostBytes (e : LostExt) : List Byte :=
  withCrc (leBytes 8 e.vbn ++ leBytes 4 e.count ++ leBytes 2 e.vol.toNat ++ leBytes 1 e.cause ++ [0] ++ leBytes 8 e.edge ++ leBytes 2 e.layout ++ [0, 0])

/-- The body that SEQ hands TRU at the end of a scrub cycle. -/
def State.virekOf (s : State) (p : Pool) (sc : ScrubMeta) (layout : Nat) : Virek :=
  { signer := s.part.serial, addr := s.selfAddr, pool := p.cur.id, ropeId := w32 (s.reg .ropIdRope), cycle := sc.cycle, period := sc.period
    layout := layout, startEdge := sc.startEdge, endEdge := s.edge, taiBase := w64 (s.reg .tckTaiBaseLoSec + 2 ^ 32 * s.reg .tckTaiBaseHiSec)
    checked := sc.total, repaired := sc.repaired, parity := sc.parity, unresolved := sc.unresolved, lostCount := p.nxt.lost.length
    late := sc.late, takeover := sc.takeover, prev := 0, lostDigest := sha256 (p.nxt.lost.flatMap lostBytes)
    fwDigest := (s.mgt.fw.map fun o => blkDigest o.block).getD 0, sig := none }

/-- Statements that pool metadata keeps. -/
def virekMax : Nat := 1024

/-- TRU finishes a statement: chained to the one before it and committed to pool metadata. -/
def State.finishVirek (s : State) (pool : BitVec 16) (body : Virek) (persistOk recordOk : Bool) : State :=
  match s.pool pool with
  | none => s
  | some p =>
    let prev : BitVec 256 := match p.nxt.vireks with
      | v :: _ => if body.cycle = 1 then 0 else sha256 (virekBytes v)
      | [] => 0
    let v : Virek := { body with prev := prev }
    let ix := s.nextIndex persistOk recordOk
    let b := signObj 4 (virekBody v) ix
    ix.1.updPool pool fun p => p.change fun m => { m with vireks := (({ v with sig := some b } : Virek) :: m.vireks).take virekMax }

/-- TRU_SIGNATURE_DONE (R358): the first request is signed; the operands say whether steps 1 and 2 and step 3 of a reservation succeeded. PWR_FAIL# has
ended signing (R36). -/
def State.signDone (s : State) (persistOk recordOk : Bool) : State :=
  match if s.pins.pwrFail then [] else s.tru.reqs with
  | [] => s
  | r :: rest =>
    let s : State := { s with tru := { s.tru with reqs := rest } }
    match r with
    | .report src tag addr len nonce => s.finishReport src tag addr len nonce persistOk recordOk
    | .virek pool body => s.finishVirek pool body persistOk recordOk

/-- TRU_SIGNATURE_DONE (R358). -/
def execTruSignatureDone (persistOk recordOk : Bool) (s : State) : Host.Outcome State Fault Refusal := .next (s.clr.signDone persistOk recordOk)

end Sys2Proof.Machine
end

