-- ==== Sys2Proof/Machine/Events.lean ====
section
/-!
DEFINITION. EVR: the bytes of a record (R374), what the two areas hold (R376), the cursor window (R379), clearing (R382), and the copies in the vault and
the configuration NVM (R375, R377, R378).
-/
namespace Sys2Proof.Machine

/-! ### Records -/

/-- The 64 bytes of a record (R374). -/
def evBytes (r : EvRec) : List Byte :=
  let sp := r.ev.spec
  let flags := (if r.isLocal then 1 else 0) + (if r.injected then 2 else 0) + 4 * sp.sev
  withCrc (leBytes 8 r.seq ++ leBytes 8 r.time ++ leBytes 1 sp.num ++ leBytes 1 sp.unit ++ leBytes 1 sp.unit ++ leBytes 1 flags ++ leBytes 2 (min r.lost 0xFFFF)
    ++ leBytes 1 r.kind ++ [0] ++ leBytes 2 r.subj ++ leBytes 2 r.pool.toNat ++ leBytes 8 r.a.toNat ++ leBytes 8 r.b.toNat ++ leBytes 8 r.c.toNat)
    ++ leBytes 8 r.seq

/-- The oldest sequence held in the circulating area (R376). -/
def Evr.oldest (e : Evr) : Nat := max (e.next - areaSize) e.cleared

/-- The records that the circulating area holds, newest first. -/
def Evr.held (e : Evr) : List EvRec := e.recs.filter fun r => decide (e.oldest ≤ r.seq)

/-- The record of a sequence: in the circulating area, else in the cairn (R379). -/
def Evr.find (e : Evr) (seq : Nat) : Option EvRec := (e.held.find? fun r => r.seq == seq).or (e.cairn.find? fun r => r.seq == seq)

/-- EVR_WSTAT.STATE for a cursor (R379): 0 VALID, 1 MOVED, 2 NOT_YET, 3 CLEARED, 4 LOST. -/
def Evr.state (e : Evr) (seq : Nat) : Nat :=
  if (e.find seq).isSome then 0
  else if seq ≥ e.next then 2
  else if seq < e.cleared then 3
  else if seq < e.oldest then 1
  else 4

/-- The 64 bytes of EVR_WIN for a cursor: zeros unless it is VALID (R379). -/
def Evr.window (e : Evr) (seq : Nat) : List Byte :=
  match e.find seq with
  | some r => evBytes r
  | none => List.replicate 64 0

/-- What GET_EVENTS copies (R381): records of an area from a sequence, ascending, at most n. -/
def Evr.get (e : Evr) (cairn : Bool) (first n : Nat) : List EvRec :=
  (((if cairn then e.cairn else e.held).filter fun r => decide (first ≤ r.seq)).reverse).take n

/-! ### Clearing (R382) -/

/-- One CLEAR_EVENTS takes effect: EVR_CLEARED is numbered, ahead of the other records of the edge (R13), and every lower sequence is cleared:
it is held no longer (R376), though copies that other places hold may stand. -/
def State.clearEvents (s : State) (src : AdmSrc) (tag : BitVec 16) : State :=
  let q := s.evr.next
  let s := s.reach (s.record .evrCleared 0 0 0 s.evr.oldest s.evr.held.length)
  let s : State := { s with evr := { s.evr with cleared := q, norWant := true } }
  (s.bump .evrClearCntN).admDone src tag (okStat q)

/-- Step 1: every CLEAR_EVENTS that MGT has taken. -/
def State.clearAll (s : State) : State :=
  let l := s.evr.clearReq
  State.each { s with evr := { s.evr with clearReq := [] } } l fun s (src, tag) => s.clearEvents src tag

/-! ### The vault log (R377) -/

/-- Records of a log page. -/
def logPage : Nat := 256

/-- Pages of the circulating log. -/
def logPages : Nat := 3584

/-- Writes a page of the circulating log: a full one when 256 records wait, a padded one when it is asked for. -/
def State.writeLog (s : State) (padded : Bool) : State :=
  let e := s.evr
  let n := if e.waiting ≥ logPage then logPage else if padded then e.waiting else 0
  if n = 0 then s
  else
    let top := ((e.recs.drop (e.waiting - n)).head?.map (·.seq)).getD e.persist
    let full := decide (s.vlt.evrLog.length ≥ logPages)
    let keep := if full then s.vlt.evrLog.dropLast else s.vlt.evrLog
    let out := (s.vlt.evrLog.getLast?).getD 0
    let before := (keep.getLast?).getD 0
    let lost := if full && decide (out + areaSize ≥ e.next) then before - out else 0
    let s : State := { s with evr := { e with waiting := e.waiting - n, persist := top }
                              vlt := { s.vlt with evrLog := top :: keep, evrLow := if full then out + 1 else s.vlt.evrLow, evrCairn := s.evr.cairn.length } }
    s.iff (decide (lost > 0)) fun s => s.log .evrLogTrim 0 0 0 lost

/-- Orderly shutdown, FW_ACTIVATE and the FAIL_STOP halt: every waiting record is written, and a NOR half is wanted (R377). -/
def State.saveEvents (s : State) : State :=
  let s := (List.range (s.evr.waiting / logPage)).foldl (fun s _ => s.writeLog false) s
  let s := s.writeLog true
  { s with evr := { s.evr with norWant := true } }

/-- Rope time between NOR half writes that nothing asks for (R377). -/
def norGap : Nat := 2 ^ 46

/-- Is a NOR half write due? -/
def State.norDue (s : State) : Bool :=
  s.evr.norWant || (s.evr.norDirty && (match s.evr.norAt with
    | none => true
    | some t => decide (s.tck.now ≥ t + norGap)))

/-- A NOR half has been erased and rewritten, or that has failed (R377). -/
def State.norWrite (s : State) (ok : Bool) : State :=
  if !s.norDue then s
  else
    let e := s.evr
    let e : Evr := { e with norHalf := 1 - e.norHalf, norAt := some s.tck.now, norWant := false, norDirty := false, norFail := !ok
                            norTop := if ok then e.next else e.norTop }
    let s : State := { s with evr := e }
    if ok then s.bump .evrNorCntN else s.log .evrNorFail

/-! ### Starts (R375, R378) -/

/-- HBM is lost: what is left of the records is what the vault log, the NOR halves, the cairn copies and a sealed flush hold; the
latest EVR_CLEARED among them marks what is cleared (R378). -/
def Evr.restart (e : Evr) (low flushed : Nat) : Evr :=
  let stays := fun (r : EvRec) => decide (low ≤ r.seq ∧ r.seq ≤ e.persist) || decide (r.seq < e.norTop) || (e.cairn.any fun c => c.seq == r.seq)
  let left := e.recs.take flushed ++ (e.recs.drop flushed).filter stays
  let marks := (left ++ e.cairn).filter fun r => r.ev == .evrCleared
  { e with taken := false, intake := [], units := [], recs := left, cleared := marks.foldl (fun m r => max m r.seq) 0, waiting := min flushed e.waiting, norFail := false, norWant := false
           norAt := some 0, cursors := [0, 0, 0], curLo := [0, 0, 0], clearReq := [] }

/-- EVR takes the reservation header at TRUST_BOOT: the next number, EVR_RESTART, then the records that waited in the intake, then those of the units' own
queues (R13, R375). -/
def State.takeHeader (s : State) (valid : Bool) : State :=
  let e := s.evr
  let top := (e.recs ++ e.cairn).foldl (fun (t : Option Nat) r => some (max (t.getD 0) r.seq)) none
  let next := if valid then max e.mark ((top.map (· + 1)).getD 0) else (top.map (· + 131073)).getD 131072
  let left := (sortBy e.units fun a b => decide (a.1 ≤ b.1)).flatMap fun u => u.2.queue
  let units := (e.units.filter fun u => decide (u.2.lost > 0)).map fun u => (u.1, { u.2 with queue := [] })
  let e : Evr := { e with taken := true, next := next, mark := if valid then e.mark else next, intake := [], units := units }
  let restart := s.record .evrRestart 0 0 0 (top.getD 0xFFFFFFFFFFFFFFFF) next
  { s with evr := (restart :: s.evr.intake ++ left).foldl Evr.assign e }

/-! ### The cursor (R379, R393) -/

/-- Place of a source's cursor. -/
def srcIx (src : Src) : Nat :=
  match src with
  | .port0 => 0
  | .port1 => 1
  | .mctp => 2

/-- Writes the cursor: a 4-byte write of the low half is held until the high half is written; an 8-byte write sets both (R379). -/
def State.writeCursor (s : State) (src : Src) (high : Bool) (size : Nat) (data : BitVec 64) : State :=
  let i := srcIx src
  let lo := (s.evr.curLo[i]?).getD 0
  if size = 8 ∧ !high then { s with evr := { s.evr with cursors := s.evr.cursors.set i data.toNat, curLo := s.evr.curLo.set i (data.setWidth 32) } }
  else if size = 4 then
    if high then { s with evr := { s.evr with cursors := s.evr.cursors.set i (lo.toNat + 2 ^ 32 * (data.setWidth 32).toNat) } }
    else { s with evr := { s.evr with curLo := s.evr.curLo.set i (data.setWidth 32) } }
  else s

/-! ### Meanings -/

/-- EVR_LOG_PAGE_WRITE (R377): a full page whenever 256 records wait. -/
def execEvrLogPageWrite (s : State) : Host.Outcome State Fault Refusal := .next (s.clr.writeLog false)

/-- EVR_NOR_HALF_WRITE (R377): the operand says whether the program or erase succeeds. -/
def execEvrNorHalfWrite (ok : Bool) (s : State) : Host.Outcome State Fault Refusal := .next (s.clr.norWrite ok)

end Sys2Proof.Machine
end

