-- ==== Sys2Proof/Machine/Admin.lean ====
section
/-!
DEFINITION. MGT: how admin commands are taken and serialised (R224, R225, R341, R438), identity and lists (R229, R230), queue commands (R204 to R207), events
(R381, R382), audit requests (R359, R360) and keys (R159, R160, R362).
-/
namespace Sys2Proof.Machine

/-! ### Taking an admin command -/

/-- Is an admin command of this tag carried out now, or waiting its turn? -/
def State.admBusy (s : State) (src : AdmSrc) (tag : BitVec 16) : Bool :=
  s.mgt.adm.any (fun w => w.src == src && w.tag == tag) || s.evr.clearReq.contains (src, tag)
    || s.mgt.admQ.any (fun w => w.1 == src && w.2.1 == tag)
    || (match s.mgt.activate with
      | some a => a.src == src && a.tag == tag
      | none => false)
    || s.tru.reqs.any (fun r => match r with
      | .report q t _ _ _ => q == src && t == tag
      | .virek _ _ => false)

/-- Has CONFIG_LOAD ended, with the module running (R341)? -/
def State.configured (s : State) : Bool :=
  match s.phase with
  | .memoryInit | .vaultRecovery | .ropeJoin | .memberDiscovery | .poolAssembly | .journalReconcile | .online | .failStop => true
  | .powerOff | .reset | .trustBoot | .configLoad | .bivouac _ => false

/-- The status of an admin command that the module's state does not serve (R341). -/
def notOnline : Stat := stat 5 6

/-- MGT takes an admin command (R195, R224, R341, R438). From a ring, its entry has been read already and is outstanding, or it is the entry that the ring
offers now. Over MCTP, before ONLINE, only the commands that R341 names are carried out. -/
def State.takeAdm (s : State) (src : AdmSrc) (tag : BitVec 16) (early : Bool) (go : State → State) : State :=
  match src with
  | .mctp =>
    if s.phase == .online || (early && s.configured) then go s
    else match s.phase with
      | .powerOff | .reset | .bivouac _ => s
      | .trustBoot | .configLoad | .memoryInit | .vaultRecovery | .ropeJoin | .memberDiscovery | .poolAssembly | .journalReconcile | .online | .failStop =>
        s.admDone .mctp tag notOnline
  | .ring q =>
    let known := s.qe.outAdm.contains (q, tag)
    if q.fn = .pf1 then (if s.takesEntry q then s.reject q 1 tag (stat 1 1) else s)
    else if known && !s.admBusy src tag then go s
    else if !s.takesEntry q then s
    else if known || s.qe.doneAdm.contains (q, tag) then s.reject q 1 tag (stat 1 8)
    else go (State.consume { s with qe := { s.qe with outAdm := s.qe.outAdm ++ [(q, tag)] } } q 1)

/-- Is no serial admin command under way (R225)? -/
def State.admFree (s : State) : Bool := s.mgt.adm.isEmpty && s.mgt.admQ.isEmpty && s.mgt.activate.isNone

/-- Takes a serial command (R225): it is carried out at once when none is under way, and else waits in acceptance order. -/
def State.takeSerial (s : State) (src : AdmSrc) (tag : BitVec 16) (early : Bool) (i : Instr) (run : State → State) : State :=
  s.takeAdm src tag early fun s =>
    if s.admFree then run s else { s with mgt := { s.mgt with admQ := s.mgt.admQ ++ [(src, tag, i)] } }

/-- A field check of MGT (R438, R439): the first that fails ends the command. -/
def State.checked (s : State) (src : AdmSrc) (tag : BitVec 16) (fs : List (Option Stat)) (go : State → State) : State :=
  match fs.findSome? id with
  | some st => s.admDone src tag st
  | none => go s

/-- An illegal field value at a byte offset of the entry (class 0x01 code 0x02). -/
def badIf (b : Bool) (off : Nat) : Option Stat := if b then some (stat 1 2 0 off) else none

/-- A misaligned buffer address or length of the entry's own fields (R224). -/
def misaligned (ns : List Nat) : Option Stat := if ns.any fun n => n % 64 ≠ 0 then some (stat 1 4) else none

/-- Reads an input buffer: a failed read ends the command with class 0x03 (R221). -/
def State.withRead {α : Type} (s : State) (src : AdmSrc) (tag : BitVec 16) (r : HostRead α) (go : State → α → State) : State :=
  match r with
  | .ok a => go s a
  | .err e => s.admDone src tag (stat 3 (hostErrCode e))

/-! ### Identity and lists (R229, R230) -/

/-- The port that answers a command; MCTP commands answer as port 0. -/
def admPort (src : AdmSrc) : Nat :=
  match src with
  | .ring q => q.port.val
  | .mctp => 0

/-- The module identity (R229), padded to 4,096 bytes. -/
def State.identity (s : State) (port : Nat) : List Byte :=
  let fw := s.mgt.fw
  let body := s.part.orderingCode ++ leBytes 16 s.part.serial.toNat ++ leBytes 1 s.variantCode ++ [0xB1] ++ leBytes 2 s.selfAddr.toNat
    ++ leBytes 4 (s.reg .ropIdRope) ++ leBytes 2 ((s.partnerAddr.map (·.toNat)).getD 0xFFFF) ++ leBytes 1 (s.reg .tckCfgPeriod) ++ leBytes 1 port
    ++ leBytes 4 ((fw.map fwOwnVersion).getD 0) ++ leBytes 32 ((fw.map fun o => (blkDigest o.block).toNat).getD 0)
    ++ leBytes 32 ((s.mgt.image.map (·.digest.toNat)).getD 0) ++ leBytes 4 65536 ++ leBytes 2 46 ++ leBytes 2 16384
  body ++ List.replicate (4096 - body.length) 0

/-- A 32-byte volume entry (R230): what the control plane tells of the volume is as published at the last edge (R10, R12). -/
def State.volEntry (s : State) (v : BitVec 12) : List Byte :=
  let b := fun (x : Bool) (n : Nat) => if x then 2 ^ n else 0
  match (s.poolOf v).bind fun p => (p.vol v).map fun m => (p, m) with
  | some (p, m) =>
    let a := s.attrs v
    let r := (tget p.pub.vols v).getD ⟨0, false, false, .active⟩
    let flags := b r.exhausted 0 + b r.offline 1 + b a.readOnly 2 + b a.wt 3 + b a.noFill 4
    leBytes 2 v.toNat ++ leBytes 2 p.cur.id.toNat ++ leBytes 2 s.selfAddr.toNat ++ leBytes 1 (powerCode r.power) ++ leBytes 1 flags
      ++ leBytes 8 m.size ++ leBytes 7 r.gen ++ leBytes 1 (a.solo + 4 * a.fault) ++ leBytes 2 a.g ++ leBytes 2 m.layout ++ [0, 0, 0, 0]
  | none =>
    match tget s.rop.dir v with
    | some e => leBytes 2 v.toNat ++ leBytes 2 e.pool.toNat ++ leBytes 2 e.owner.toNat ++ List.replicate 26 0
    | none => leBytes 2 v.toNat ++ List.replicate 30 0

/-- Volumes that this module owns. -/
def State.ownVols (s : State) : List Nat := s.pools.flatMap fun p => p.cur.volumes.map fun v => v.id.toNat

/-- Does the rope know a volume id (R223)? -/
def State.volKnown (s : State) (v : BitVec 12) : Bool := (s.poolOf v).isSome || (tget s.rop.dir v).isSome

/-! ### Rings (R204 to R209) -/

/-- Bytes that a ring takes: units of 64, records of 32. -/
def ringBytes (isCq : Bool) (exp : Nat) : Nat := (if isCq then 32 else 64) * 2 ^ exp

/-- The index lines and the extent of the other ring of a pair, when it exists. -/
def State.otherRing (s : State) (q : RingRef) (isCq : Bool) : Option (BitVec 64 × BitVec 64 × Nat × Nat) :=
  if isCq then (s.sq q).map fun r => (r.hostLine, r.devLine, r.base.toNat, ringBytes false r.exp)
  else (s.cq q).map fun r => (r.hostLine, r.devLine, r.base.toNat, ringBytes true r.exp)

/-- The byte offset in CREATE_QUEUE of the first attribute that R204 makes illegal. -/
def State.queueFault (s : State) (port : PciePort) (a : QueueAttrs) : Option Nat :=
  let fn : Fn := if a.isData then .pf1 else .pf0
  let q : RingRef := ⟨port, fn, a.pair⟩
  let other := s.otherRing q a.isCq
  let inside := fun (l : BitVec 64) => (decide (a.base.toNat ≤ l.toNat + 63) && decide (l.toNat < a.base.toNat + ringBytes a.isCq a.exp))
    || (match other with
      | some (_, _, b, n) => decide (b ≤ l.toNat + 63) && decide (l.toNat < b + n)
      | none => false)
  let differs := fun (l m : BitVec 64) => l != m
  let hlBad := a.hostLine.toNat % 64 ≠ 0 || inside a.hostLine || (match other with
    | some (h, _, _, _) => differs h a.hostLine
    | none => false)
  let dlBad := a.devLine.toNat % 64 ≠ 0 || inside a.devLine || a.devLine == a.hostLine || (match other with
    | some (_, d, _, _) => differs d a.devLine
    | none => false)
  let held := a.isData && (s.qe.sqs.any (fun e => e.1.fn == .pf1 && e.1.pair == a.pair && e.1.port != port)
    || s.qe.cqs.any fun e => e.1.fn == .pf1 && e.1.pair == a.pair && e.1.port != port)
  let there := if a.isCq then (s.cq q).isSome else (s.sq q).isSome
  let limit := 225000 * s.periodUs * s.reg .tckBudlim0Host / 64
  if a.base.toNat % 4096 ≠ 0 then some 0x08
  else if hlBad then some 0x10
  else if dlBad then some 0x18
  else if a.exp < 6 ∨ a.exp > 16 then some 0x21
  else if a.pair ≥ (if a.isData then 16384 else 8) || held || there then some 0x22
  else if !a.isCq && (s.cq { q with pair := a.cqPair }).isNone then some 0x24
  else if a.isCq && a.vector ≠ 0xFFFF && decide (a.vector > (if a.isData then 2047 else 31)) then some 0x26
  else if !a.isCq && a.isData && (a.bh == 0 || decide (a.bh > 900) || decide (a.bh * 250 * s.periodUs > limit)) then some 0x28
  else none

/-- Creates a ring (R204): a submission ring disabled, a completion ring enabled, both at index zero. -/
def State.makeRing (s : State) (port : PciePort) (a : QueueAttrs) : State :=
  let q : RingRef := ⟨port, if a.isData then .pf1 else .pf0, a.pair⟩
  if a.isCq then
    let r : Cq := { base := a.base, exp := a.exp, hostLine := a.hostLine, devLine := a.devLine, vector := if a.vector = 0xFFFF then none else some a.vector
                    t := 0, hc := 0, enabled := true, held := false, overflow := [], waiting := [], idleEdges := 0, stallLogged := false, lineRead := false }
    { s with qe := { s.qe with cqs := tset s.qe.cqs q r } }
  else
    let r : Sq := { st := .disabled, base := a.base, exp := a.exp, hostLine := a.hostLine, devLine := a.devLine, cqPair := a.cqPair, bh := a.bh
                    relaxed := a.relaxed, c := 0, h := 0, p := 0, pend := false, fetch := .idle }
    { s with qe := { s.qe with sqs := tset s.qe.sqs q r } }

/-- The status of a disable or delete that R205 or R207 rejects. -/
def notRemovable : Stat := stat 1 12

/-- Is this admin pair 0 (R207)? -/
def isAdmin0 (q : RingRef) : Bool := q.fn == .pf0 && q.pair == 0

/-- Has a submission ring a command outstanding (R205)? -/
def State.ringBusy (s : State) (q : RingRef) : Bool :=
  s.ord.cmds.any (fun c => c.org == .ring q) || s.qe.outAdm.any (fun e => e.1 == q) || s.qe.doneAdm.any (fun e => e.1 == q) || s.qe.elig.any fun e => e.q == q

/-- Forgets the device line of a pair that has no ring left. -/
def State.dropPair (s : State) (q : RingRef) : State :=
  if (s.sq q).isNone && (s.cq q).isNone then { s with qe := { s.qe with lines := tdel s.qe.lines q } } else s

/-- DELETE_QUEUE (R205, R207). -/
def State.deleteRing (s : State) (q : RingRef) (isCq : Bool) : State × Stat :=
  if isCq then
    match s.cq q with
    | none => (s, stat 1 2 0 0x22)
    | some r =>
      let named := s.qe.sqs.any fun e => e.1.port == q.port && e.1.fn == q.fn && e.2.cqPair == q.pair
      if isAdmin0 q || named || !r.overflow.isEmpty || !r.waiting.isEmpty || s.qe.elig.any (fun e => e.cq == q) then (s, notRemovable)
      else (State.dropPair { s with qe := { s.qe with cqs := tdel s.qe.cqs q } } q, okStat)
  else
    match s.sq q with
    | none => (s, stat 1 2 0 0x22)
    | some r =>
      if isAdmin0 q || r.st != .disabled || s.ringBusy q then (s, notRemovable)
      else (State.dropPair { s with qe := { s.qe with sqs := tdel s.qe.sqs q } } q, okStat)

/-- ENABLE_QUEUE (R205): a submission ring starts fetching at H as after a doorbell. -/
def State.enableRing (s : State) (q : RingRef) (isCq : Bool) : State × Stat :=
  if isCq then
    match s.cq q with
    | none => (s, stat 1 2 0 0x22)
    | some _ => (s.updCq q fun r => { r with enabled := true }, okStat)
  else
    match s.sq q with
    | none => (s, stat 1 2 0 0x22)
    | some r =>
      if r.st ≠ .disabled then (s, okStat)
      else
        let held := ((s.cq (s.cqOf q)).map (·.held)).getD false
        let s := s.updSq q fun r => { r with c := r.h, st := if held then .stopped else .enabled, fetch := .idle }
        (s.ring q.port q.fn q.pair, okStat)

/-- DISABLE_QUEUE (R205, R206): fetching stops, an entry read and not accepted is discarded, and the result of a submission ring holds H. -/
def State.disableRing (s : State) (q : RingRef) (isCq : Bool) : State × Stat :=
  if isCq then
    match s.cq q with
    | none => (s, stat 1 2 0 0x22)
    | some r =>
      let live := s.qe.sqs.any fun e => e.1.port == q.port && e.1.fn == q.fn && e.2.cqPair == q.pair && e.2.st != .disabled
      if isAdmin0 q then (s, notRemovable)
      else if !r.enabled then (s, okStat)
      else if live then (s, notRemovable)
      else (s.updCq q fun r => { r with enabled := false }, okStat)
  else
    match s.sq q with
    | none => (s, stat 1 2 0 0x22)
    | some r =>
      if isAdmin0 q then (s, notRemovable)
      else
        let h := r.h.toNat
        if r.st = .disabled then (s, okStat h)
        else
          let s := match r.fetch with
            | .waiting id => (s.dropRequest id).grantAll (s.ord.locks.length + 1)
            | .idle | .line | .first | .rest _ | .segment _ _ _ _ | .slots _ _ _ _ => s
          let s := s.dropTags q.port (.ring q)
          (s.updSq q fun r => { r with st := .disabled, fetch := .idle, pend := false }, okStat h)

/-- The ring that a queue command names: admin and data pairs live on the functions of the port that issued it (R183). -/
def State.queueCmd (s : State) (src : AdmSrc) (tag : BitVec 16) (isData : Bool) (pair : Nat) (go : State → RingRef → State × Stat) : State :=
  match src with
  | .mctp => s.admDone src tag (stat 1 11)
  | .ring q =>
    let (s, st) : State × Stat := go s ⟨q.port, if isData then .pf1 else .pf0, pair⟩
    s.admDone src tag st

/-! ### Keys (R159, R160, R362) -/

/-- The check value of a rope storage key (R361): the first four bytes of the CMAC of "LNSL-KCV". -/
def keyCheck (k : BitVec 256) : BitVec 32 :=
  w32 (ofLe ((cmac (keyBytes k) [0x4C, 0x4E, 0x53, 0x4C, 0x2D, 0x4B, 0x43, 0x56]).take 4))

/-- KEY_IMPORT of K_T: only over MCTP (R160). -/
def State.importKt (s : State) (src : AdmSrc) (tag : BitVec 16) (key : HostRead (BitVec 256)) : State :=
  match src with
  | .ring _ => s.admDone src tag (stat 1 11)
  | .mctp => s.withRead src tag key fun s k => State.admDone { s with tru := { s.tru with kt := some k } } src tag okStat

/-- KEY_IMPORT of K_R: only over MCTP, and not beneath pools that another K_R wraps (R362). It goes into the trust record (R159). -/
def State.importKr (s : State) (src : AdmSrc) (tag : BitVec 16) (key : HostRead (BitVec 256)) : State :=
  match src with
  | .ring _ => s.admDone src tag (stat 1 11)
  | .mctp => s.withRead src tag key fun s k =>
    let cv := keyCheck k
    if s.pools.any fun p => p.nxt.krCheck != cv then s.admDone src tag (stat 5 5)
    else
      let t : Tru := { s.tru with kr := some k, krPresent := true, krWrapped := kwpWrap (kWrap s.part.serial) k, krCheck := cv
                                  trec := { s.tru.trec with valid := true, rHi := s.tru.rHi, fwFloor := s.tru.fwFloor, imgFloor := s.tru.imgFloor } }
      (State.writeTrust { s with tru := t }).admDone src tag okStat

/-- KEY_IMPORT of a pool secret wrapped under K_T (R160). -/
def State.importSecret (s : State) (src : AdmSrc) (tag : BitVec 16) (w : HostRead (BitVec 320)) : State :=
  s.withRead src tag w fun s w =>
    match s.tru.kt.map fun kt => kwpUnwrap kt w with
    | none => s.admDone src tag (stat 5 5)
    | some none => s.admDone src tag (stat 1 2 0 8)
    | some (some k) => State.admDone { s with tru := { s.tru with imported := some k } } src tag okStat

/-! ### Bodies of the commands that run concurrently -/

/-- IDENTIFY of the module (R229). -/
def State.identify (s : State) (src : AdmSrc) (tag : BitVec 16) (addr : BitVec 64) : State :=
  s.checked src tag [misaligned [addr.toNat]] fun s => s.hostOut src tag addr (s.identity (admPort src)) okStat

/-- IDENTIFY of a volume (R230). -/
def State.identifyVol (s : State) (src : AdmSrc) (tag : BitVec 16) (vol : BitVec 12) (addr : BitVec 64) : State :=
  s.checked src tag [misaligned [addr.toNat], if s.volKnown vol then none else some (stat 1 7)] fun s =>
    s.hostOut src tag addr (s.volEntry vol) okStat

/-- LIST_VOLUMES (R224, R230). -/
def State.listVols (s : State) (src : AdmSrc) (tag : BitVec 16) (addr : BitVec 64) (len : BitVec 32) (scope : BitVec 8) (first : BitVec 16) : State :=
  s.checked src tag [badIf (decide (scope.toNat > 1)) 0x18, misaligned [addr.toNat, len.toNat]] fun s =>
    let ids := (sortedKeys (s.ownVols ++ (if scope = 1 then s.rop.dir.map (·.1.toNat) else []))).filter fun v => decide (first.toNat ≤ v)
    let out := ids.take (len.toNat / 32)
    s.hostOut src tag addr (out.flatMap fun v => s.volEntry (BitVec.ofNat 12 v)) (okStat (out.length + 2 ^ 32 * ids.length))

/-- GET_EVENTS (R381). -/
def State.getEvents (s : State) (src : AdmSrc) (tag : BitVec 16) (addr : BitVec 64) (len : BitVec 32) (first : BitVec 64) (area : BitVec 8) : State :=
  s.checked src tag [badIf (decide (area.toNat > 1)) 0x20, misaligned [addr.toNat, len.toNat]] fun s =>
    let rs := s.evr.get (area == 1) first.toNat (len.toNat / 64)
    s.hostOut src tag addr (rs.flatMap evBytes) (okStat rs.length)

/-- AUDIT_REQUEST of a report: TRU signs it (R359). -/
def State.auditReport (s : State) (src : AdmSrc) (tag : BitVec 16) (addr : BitVec 64) (len : BitVec 32) (nonce : BitVec 256) : State :=
  s.checked src tag [misaligned [addr.toNat, len.toNat]] fun s => { s with tru := { s.tru with reqs := s.tru.reqs ++ [.report src tag addr len nonce] } }

/-- AUDIT_REQUEST of a Virek statement: the named cycle, or the latest (R360). -/
def State.auditVirek (s : State) (src : AdmSrc) (tag : BitVec 16) (addr : BitVec 64) (len : BitVec 32) (pool : BitVec 16) (cycle : BitVec 32) : State :=
  let held := (s.pool pool).bind fun p => if cycle = 0xFFFFFFFF then p.cur.vireks.head? else p.cur.vireks.find? fun v => v.cycle == cycle.toNat
  s.checked src tag [badIf (s.pool pool).isNone 0x1A, badIf held.isNone 0x1C, misaligned [addr.toNat, len.toNat]] fun s =>
    match held with
    | none => s
    | some v =>
      let bs := virekBytes v
      s.hostOut src tag addr (if bs.length ≤ len.toNat then bs else []) (okStat bs.length)

/-! ### Meanings -/

/-- IDENTIFY, selector 0x00 (R229). -/
def execIdentifyModule (src : AdmSrc) (tag : BitVec 16) (addr : BitVec 64) (s : State) : Host.Outcome State Fault Refusal :=
  .next (s.clr.takeAdm src tag true fun s => s.identify src tag addr)

/-- IDENTIFY, selector 0x01 (R230). -/
def execIdentifyVolume (src : AdmSrc) (tag : BitVec 16) (vol : BitVec 12) (addr : BitVec 64) (s : State) : Host.Outcome State Fault Refusal :=
  .next (s.clr.takeAdm src tag true fun s => s.identifyVol src tag vol addr)

/-- CREATE_QUEUE (R204). -/
def execCreateQueue (src : AdmSrc) (tag : BitVec 16) (a : QueueAttrs) (s : State) : Host.Outcome State Fault Refusal :=
  .next (s.clr.takeAdm src tag false fun s => s.queueCmd src tag a.isData a.pair fun s q =>
    match s.queueFault q.port a with
    | some off => (s, stat 1 2 0 off)
    | none => (s.makeRing q.port a, okStat))

/-- DELETE_QUEUE (R205). -/
def execDeleteQueue (src : AdmSrc) (tag : BitVec 16) (isCq isData : Bool) (pair : Nat) (s : State) : Host.Outcome State Fault Refusal :=
  .next (s.clr.takeAdm src tag false fun s => s.queueCmd src tag isData pair fun s q => s.deleteRing q isCq)

/-- ENABLE_QUEUE (R205). -/
def execEnableQueue (src : AdmSrc) (tag : BitVec 16) (isCq isData : Bool) (pair : Nat) (s : State) : Host.Outcome State Fault Refusal :=
  .next (s.clr.takeAdm src tag false fun s => s.queueCmd src tag isData pair fun s q => s.enableRing q isCq)

/-- DISABLE_QUEUE (R206). -/
def execDisableQueue (src : AdmSrc) (tag : BitVec 16) (isCq isData : Bool) (pair : Nat) (s : State) : Host.Outcome State Fault Refusal :=
  .next (s.clr.takeAdm src tag false fun s => s.queueCmd src tag isData pair fun s q => s.disableRing q isCq)

/-- LIST_VOLUMES (R230). -/
def execListVolumes (src : AdmSrc) (tag : BitVec 16) (addr : BitVec 64) (len : BitVec 32) (scope : BitVec 8) (first : BitVec 16) (s : State) :
    Host.Outcome State Fault Refusal := .next (s.clr.takeAdm src tag false fun s => s.listVols src tag addr len scope first)

/-- GET_EVENTS (R381). -/
def execGetEvents (src : AdmSrc) (tag : BitVec 16) (addr : BitVec 64) (len : BitVec 32) (first : BitVec 64) (area : BitVec 8) (s : State) :
    Host.Outcome State Fault Refusal := .next (s.clr.takeAdm src tag true fun s => s.getEvents src tag addr len first area)

/-- AUDIT_REQUEST, kind 0 (R359). -/
def execAuditRequestReport (src : AdmSrc) (tag : BitVec 16) (addr : BitVec 64) (len : BitVec 32) (nonce : BitVec 256) (s : State) :
    Host.Outcome State Fault Refusal := .next (s.clr.takeAdm src tag true fun s => s.auditReport src tag addr len nonce)

/-- AUDIT_REQUEST, kind 1 (R360). -/
def execAuditRequestStatement (src : AdmSrc) (tag : BitVec 16) (addr : BitVec 64) (len : BitVec 32) (pool : BitVec 16) (cycle : BitVec 32) (s : State) :
    Host.Outcome State Fault Refusal := .next (s.clr.takeAdm src tag true fun s => s.auditVirek src tag addr len pool cycle)

/-- CLEAR_EVENTS (R382): it takes effect at step 1 of the first edge after MGT takes it. -/
def execClearEvents (src : AdmSrc) (tag : BitVec 16) (s : State) : Host.Outcome State Fault Refusal :=
  .next (s.clr.takeAdm src tag false fun s => { s with evr := { s.evr with clearReq := s.evr.clearReq ++ [(src, tag)] } })

/-- KEY_IMPORT, type 0x01 (R160). -/
def execKeyImportTransferKey (src : AdmSrc) (tag : BitVec 16) (addr : BitVec 64) (key : HostRead (BitVec 256)) (s : State) : Host.Outcome State Fault Refusal :=
  .next (s.clr.takeSerial src tag true (.keyImportTransferKey src tag addr key) fun s => s.checked src tag [misaligned [addr.toNat]] fun s => s.importKt src tag key)

/-- KEY_IMPORT, type 0x02 (R160, R362). -/
def execKeyImportRopeKey (src : AdmSrc) (tag : BitVec 16) (addr : BitVec 64) (key : HostRead (BitVec 256)) (s : State) : Host.Outcome State Fault Refusal :=
  .next (s.clr.takeSerial src tag true (.keyImportRopeKey src tag addr key) fun s => s.checked src tag [misaligned [addr.toNat]] fun s => s.importKr src tag key)

/-- KEY_IMPORT, type 0x03 (R160). -/
def execKeyImportPoolSecret (src : AdmSrc) (tag : BitVec 16) (addr : BitVec 64) (key : HostRead (BitVec 320)) (s : State) : Host.Outcome State Fault Refusal :=
  .next (s.clr.takeSerial src tag true (.keyImportPoolSecret src tag addr key) fun s => s.checked src tag [misaligned [addr.toNat]] fun s => s.importSecret src tag key)

end Sys2Proof.Machine
end

