-- ==== Sys2Proof/Machine/AdminPool.lean ====
section
/-!
DEFINITION. POOL_OP and VOLUME_OP (R226 to R228), with the rules they refer to: pools and journal members (R58, R59, R159, R160), members (R119, R130, R142),
fronds (R140, R141, R153), the lost-extent list (R128, R129), scrub attributes (R138), volumes (R110, R223, R301), and completion with the metadata
commit (R105, R225).
-/
namespace Sys2Proof.Machine

/-! ### Completion with a commit (R105, R225) -/

/-- A command waits for the commit that carries its change to a pool. -/
def State.admWait (s : State) (src : AdmSrc) (tag : BitVec 16) (pid : BitVec 16) (st : Stat) (also : Option (BitVec 16) := none)
    (bytes : Option (BitVec 64 × List Byte) := none) : State :=
  let need := ((s.pool pid).map (·.nextCommit)).getD 0
  let w : AdmWait := { src := src, tag := tag, pool := pid, also := also, need := need, stat := st, claim := none, size := 0, bytes := bytes }
  { s with mgt := { s.mgt with adm := s.mgt.adm ++ [w] } }

/-- Is every change that a pool was asked for in effect? -/
def Pool.settled (p : Pool) : Bool := p.flight.isNone && !p.wantsCommit

/-- Is what a command waits for in effect? -/
def State.inEffect (s : State) (w : AdmWait) : Bool :=
  let ok := fun (id : BitVec 16) => match s.pool id with
    | none => true
    | some p => decide (p.cur.commit ≥ w.need) || p.settled
  w.claim.isNone && ok w.pool && (match w.also with
    | none => true
    | some q => ((s.pool q).map (·.settled)).getD true)

/-- Pools whose removal has taken effect leave (R226 DELETE). -/
def State.dropPools (s : State) : State :=
  { s with pools := s.pools.filter fun p => match p.deleting with
      | none => true
      | some n => decide (p.cur.commit < n) }

/-- Step 3: commands whose change is in effect complete. A pool that was Lost only because its list was full is judged again at the next edge (R129). -/
def State.admCommits (s : State) : State :=
  let s := s.dropPools
  let done := s.mgt.adm.filter s.inEffect
  let s : State := { s with mgt := { s.mgt with adm := s.mgt.adm.filter fun w => !s.inEffect w } }
  s.each done fun s w =>
    let s := s.updPool w.pool fun p => { p with listFull := p.listFull && decide (p.nxt.lost.length ≥ lostMax) }
    match w.bytes with
    | some (a, bs) => s.hostOut w.src w.tag a bs w.stat
    | none => s.admDone w.src w.tag w.stat

/-- A POOL_OP on a pool that this module owns: another pool id is an illegal field. -/
def State.onPool (s : State) (src : AdmSrc) (tag : BitVec 16) (pid : BitVec 16) (go : State → Pool → State) : State :=
  match s.pool pid with
  | some p => if p.deleting.isSome then s.admDone src tag (stat 1 2 0 0x1A) else go s p
  | none => s.admDone src tag (stat 1 2 0 0x1A)

/-! ### Members -/

/-- Is an image member in use by some pool? -/
def State.imgUsed (s : State) (num : Nat) : Bool := s.pools.any fun p => p.nxt.members.any (fun m => m.img == num)

/-- May a namespace join a pool at an index (R271)? Its label is blank, or names that place. -/
def State.mayJoin (s : State) (num : Nat) (pid : BitVec 16) (i : Nat) : Bool :=
  match s.mbr.members.find? fun m => m.num == num with
  | none => false
  | some m => m.admitted && m.refused.isNone && (m.blank || m.label == some (pid, i))

/-- Members that join: registration, the reservation and the label's blocks are asked for, to be admitted at the next edge (R11, R104, R271, R278). -/
def State.joinMembers (s : State) (pid : BitVec 16) (idxs : List Nat) : State :=
  let req := fun (i : Nat) (op : MOp) (purpose : MPurpose) (bs : List Block) =>
    ({ pool := pid, idx := i, op := op, lba := 0, offs := [], count := bs.length, blks := bs, purpose := purpose, fg := false } : MReq)
  s.each idxs fun s i =>
    match s.pool pid with
    | none => s
    | some p =>
      match p.nxt.members[i]? with
      | none => s
      | some m =>
        let s := s.updImg m.img fun x => { x with blank := false, label := some (pid, i), resvReg := true }
        { s with mbr := { s.mbr with asked := s.mbr.asked ++
            [req i .register .other [], req i .acquire .other [], req i (.write true) .labelWrite (labelBlks p.secret s.edge pid i)] } }

/-- Slot rows of the smallest of some members (R54). -/
def State.rowsOf (s : State) (nums : List Nat) (bs : Nat) : Nat :=
  let rows := nums.map fun n => ((s.mbr.members.find? fun m => m.num == n).map fun m => (m.lbas - 1048576) / bs).getD 0
  rows.foldl min (rows.headD 0)

/-- Logs the exposure of a layout at each level it declares (R58). -/
def State.checkDomains (s : State) (pid : BitVec 16) (g : Geo) : State :=
  s.each (exposedLevels g) fun s level => s.log .domainExposed 3 pid.toNat pid g.d.id level

/-! ### CREATE (R227) -/

/-- A pool that is being created: nothing of it is in effect before its first commit. -/
def Pool.fresh (m : PoolMeta) (secret : BitVec 256) : Pool :=
  { cur := { m with layouts := [], lists := [], commit := 0 }, nxt := m, flight := none, secret := secret, cond := .optimal, emax := 0, plan := false
    planAt := none, skipped := [], held := [], badSlots := []
    pub := { cond := .optimal, emax := 0, rebuilding := false, copyback := false, reshaping := false, members := m.members.map (·.state), layouts := []
             cursor := (0, 0), lost := [], holes := 0, vols := [] }
    vols := [], bitmap := [], missAt := [], catchup := [], cuLeft := [], rerep := none, exposed := false, listFull := false, noJournal := false
    offline := false, unassembled := false, resync := [], floorLogged := false, raiseLogged := false, spareLogged := [], yielded := false, belayedFor := 0, sweep := []
    sweepLast := false, residue := [], oldLayout := none, unitsDone := 0, frCur := (0, 0), frMarks := [], frOffer := [], sweepOn := false
    scrubRun := none, scrubOff := 0, scrubPos := (0, 0), deleting := none, scrubRedo := [], rsLeft := [], coldAt := 0, coldEnts := [], jmPick := none, zscan := none, frCancel := none, oldMaps := [], passing := [] }

/-- The journal members of a new pool (R59): three that stand as widely apart as the domains allow. DESIGN CHOICE: of several such triples, the first in
member-index order. -/
def State.chooseJms (s : State) (p : Pool) (n : Nat) : List Nat :=
  let ix := List.range n
  let triples := ix.flatMap fun a => (ix.drop (a + 1)).flatMap fun b => (ix.drop (b + 1)).map fun c => [a, b, c]
  (firstBest (s.jmSpread p) triples).getD (ix.take 3)

/-- The checks of CREATE's parameter block that are of class 0x01 (R46, R55, R138, R227). -/
def State.createFault (s : State) (pid : BitVec 16) (len : BitVec 32) (b : PoolCreateBlk) : Option Stat :=
  let want := (0x80 + 4 * b.n + 63) / 64 * 64
  let bad := stat 1 2 0 8
  if len.toNat < want then some (stat 1 2 0 0x10)
  else if !b.rsvdZero || !b.desc.rsvdZero then some (stat 1 3 0 8)
  else if b.desc.memberList ≠ 0 ∨ b.desc.crc ≠ layCrc b.desc ∨ b.n ≠ b.desc.n ∨ b.members.length ≠ b.n then some bad
  else if b.regionExp < 4 ∨ b.regionExp > 10 ∨ b.secretSrc > 1 ∨ b.exportReq > 1 then some bad
  else if b.scrubEn > 1 ∨ b.scrubPeriod < 1 ∨ b.scrubPeriod > 3650 ∨ !layLegal b.desc then some (stat 1 13)
  else if b.members.eraseDups.length ≠ b.members.length then some bad
  else if (List.range b.n).any fun i => s.imgUsed (b.members.getD i holeImg) || !s.mayJoin (b.members.getD i holeImg) pid i then some bad
  else if b.desc.hBase + b.desc.count > s.rowsOf b.members (layBs b.desc) then some (stat 1 14)
  else if b.exportReq = 1 && !(s.tru.kt.isSome && (s.mgt.image.map (·.exportPerm)) == some 1) then some (stat 1 11)
  else none

/-- POOL_OP CREATE (R226, R227, R159, R160). -/
def State.poolCreate (s : State) (src : AdmSrc) (tag : BitVec 16) (pid : BitVec 16) (addr : BitVec 64) (len : BitVec 32) (blk : HostRead PoolCreateBlk) :
    State :=
  let used := (s.pool pid).isSome || s.rop.dir.any fun e => e.2.pool == pid
  s.checked src tag [badIf (used || decide (pid.toNat < 1) || decide (pid.toNat > 0xFFFE)) 0x1A, misaligned [addr.toNat, len.toNat]] fun s =>
    s.withRead src tag blk fun s b =>
      s.checked src tag [s.createFault pid len b] fun s =>
        match s.tru.kr with
        | none => (s.log .keyUnavailable 3 pid.toNat pid).admDone src tag (stat 5 5)
        | some kr =>
          if b.secretSrc = 1 && s.tru.imported.isNone then s.admDone src tag (stat 5 5)
          else if s.pools.length ≥ 64 then s.admDone src tag (stat 6 3)
          else
            let secret := if b.secretSrc = 1 then s.tru.imported.getD 0 else Config.trng s.tru.trng
            let s : State := { s with tru := if b.secretSrc = 1 then { s.tru with imported := none } else { s.tru with trng := s.tru.trng + 1 } }
            let d0 := { b.desc with memberList := 1 }
            let d := { d0 with crc := layCrc d0 }
            let m : PoolMeta :=
              { id := pid, commit := 0, home := s.selfAddr, layouts := [d], lists := [(1, List.range b.n)], members := b.members.map fun n => ⟨n, .active⟩
                jms := [], remap := [], regionExp := b.regionExp, wrapped := kwpWrap kr secret, krCheck := keyCheck kr, lost := [], scrubEn := b.scrubEn == 1
                scrubDays := b.scrubPeriod, scrub := none, frond := none, vireks := [], unrest := [], volumes := [] }
            let p0 := Pool.fresh m secret
            let jms := s.chooseJms p0 b.n
            let s : State := { s with pools := s.pools ++ [Pool.fresh { m with jms := jms } secret] }
            let s := s.joinMembers pid (List.range b.n)
            let doms := b.members.map fun n => ((s.mbr.members.find? fun m => m.num == n).map fun m => (m.dom1, m.dom2)).getD (none, none)
            let s := s.checkDomains pid (geoOf d (List.range b.n) doms)
            let s := s.iff (!s.jmApart p0 jms) fun s => s.log .domainExposed 3 pid.toNat pid
            let out := if b.exportReq = 1 then s.tru.kt.map fun kt => (addr + 0x50, leBytes 40 (kwpWrap kt secret).toNat) else none
            let s := s.iff (b.exportReq == 1) fun s => s.log .keyExported 3 pid.toNat pid
            s.admWait src tag pid (okStat b.exportReq) none out

/-! ### The other operations of POOL_OP (R226) -/

/-- DELETE: refused while the pool holds a volume, or a frond. -/
def State.poolDelete (s : State) (src : AdmSrc) (tag pid : BitVec 16) : State :=
  s.onPool src tag pid fun s p =>
    if !p.cur.volumes.isEmpty || !p.nxt.volumes.isEmpty || p.nxt.frond.isSome || p.cur.frond.isSome then s.admDone src tag (stat 5 5)
    else (s.updPool pid fun p => { p with deleting := some p.nextCommit }).admWait src tag pid okStat

/-- Numbers that ADD_MEMBERS may not take (R226, R271). -/
def State.joinFault (s : State) (p : Pool) (nums : List Nat) : Bool :=
  let n := p.nxt.members.length
  decide (nums.eraseDups.length ≠ nums.length)
    || (List.range nums.length).any fun i => s.imgUsed (nums.getD i holeImg) || !s.mayJoin (nums.getD i holeImg) p.cur.id (n + i)

/-- ADD_MEMBERS: the namespaces take the next member indices. -/
def State.poolAdd (s : State) (src : AdmSrc) (tag pid : BitVec 16) (addr : BitVec 64) (len : BitVec 32) (blk : HostRead (List Nat)) : State :=
  s.onPool src tag pid fun s p => s.checked src tag [misaligned [addr.toNat, len.toNat]] fun s => s.withRead src tag blk fun s nums =>
    let n := p.nxt.members.length
    if s.joinFault p nums then s.admDone src tag (stat 1 2 0 8)
    else if n + nums.length > 1024 then s.admDone src tag (stat 6 3)
    else
      let s := s.updPool pid fun p => p.change fun m => { m with members := m.members ++ nums.map fun k => ⟨k, .active⟩ }
      (s.joinMembers pid ((List.range nums.length).map (· + n))).admWait src tag pid okStat

/-- Does a layout, a remap entry or an unrestored strip use a member? -/
def Pool.usesMember (p : Pool) (i : Nat) : Bool :=
  let ofMeta := fun (m : PoolMeta) => m.layouts.any (fun d => ((tget m.lists d.memberList).getD []).contains i) || m.remap.any fun e => e.member == i
  ofMeta p.cur || ofMeta p.nxt

/-- Does a journal copy use a member? -/
def Pool.journalUses (p : Pool) (i : Nat) : Bool :=
  p.cur.jms.contains i || p.nxt.jms.contains i || (match p.rerep with
    | some r => r.src == i || r.dst == i
    | none => false)

/-- REMOVE_MEMBERS (R142): refused while a layout, a remap entry or a journal copy uses a member. Where only a journal copy stands in the way, JNL begins to
move its structures to a member that stays, by R107. -/
def State.poolRemove (s : State) (src : AdmSrc) (tag pid : BitVec 16) (addr : BitVec 64) (len : BitVec 32) (blk : HostRead (List Nat)) : State :=
  s.onPool src tag pid fun s p => s.checked src tag [misaligned [addr.toNat, len.toNat]] fun s => s.withRead src tag blk fun s idxs =>
    let gone := fun (i : Nat) => match p.nxt.members[i]? with
      | some m => m.img == holeImg
      | none => true
    if idxs.any gone || decide (idxs.eraseDups.length ≠ idxs.length) then s.admDone src tag (stat 1 2 0 8)
    else if idxs.any p.usesMember then s.admDone src tag (stat 5 5)
    else
      match idxs.find? p.journalUses with
      | none =>
        let out := idxs.filterMap fun i => (p.nxt.members[i]?).map (·.img)
        let s : State := { s with mbr := { s.mbr with leaving := s.mbr.leaving ++ out } }
        let s := s.updPool pid fun p => p.change fun m =>
          { m with members := idxs.foldl (fun l i => l.modify i fun _ => ⟨holeImg, .failed⟩) m.members }
        s.admWait src tag pid okStat
      | some out =>
        let stay := { p with nxt := { p.nxt with members := idxs.foldl (fun l i => l.modify i fun r => { r with state := .failed }) p.nxt.members } }
        let s := s.iff (p.rerep.isNone && p.jmPick.isNone && p.nxt.jms.contains out) fun s => match s.newJm stay out with
          | some i => s.updPool pid fun p => { p with jmPick := some (i, out) }
          | none => s
        s.admDone src tag (stat 5 5)

/-- DECLARE_FAILED (R119): the control plane takes it in at the next edge (R11). -/
def State.poolFail (s : State) (src : AdmSrc) (tag pid : BitVec 16) (i : Nat) : State :=
  s.onPool src tag pid fun s p =>
    match p.nxt.members[i]? with
    | none => s.admDone src tag (stat 1 2 0 0x1C)
    | some m => if m.img = holeImg then s.admDone src tag (stat 1 2 0 0x1C) else State.admWait { s with mgt := { s.mgt with declared := s.mgt.declared ++ [(pid, i)] } } src tag pid okStat

/-- The strips that a member's replacement has still to hold (R130): those of allocated stripes whose home is on it and that no remap entry serves. -/
def State.unrestored (s : State) (p : Pool) (i : Nat) : List (Nat × Nat × Nat) :=
  p.cur.layouts.flatMap fun d =>
    let g := s.geo p d
    if !(p.listOf d).contains i then []
    else ((List.range (layStripes d)).filter fun n => (p.stripeVol d.id n).isSome).flatMap fun n =>
      ((List.range (layWidth d)).filter fun x => (findStrip g p.cur.remap n x).member == i).map fun x => (d.id, n, x)

/-- REPLACE_MEMBER (R119, R130): the namespace takes the index of a FAILED member, and copy-back begins. -/
def State.poolReplace (s : State) (src : AdmSrc) (tag pid : BitVec 16) (i img : Nat) : State :=
  s.onPool src tag pid fun s p =>
    match p.nxt.members[i]? with
    | none => s.admDone src tag (stat 1 2 0 0x1C)
    | some m =>
      if m.img = holeImg then s.admDone src tag (stat 1 2 0 0x1C)
      else if s.imgUsed img || !s.mayJoin img pid i then s.admDone src tag (stat 1 2 0 0x20)
      else if m.state ≠ .failed then s.admDone src tag (stat 5 5)
      else
        let left := s.unrestored p i
        let s : State := { s with mbr := { s.mbr with leaving := s.mbr.leaving ++ [m.img] } }
        let s := s.updPool pid fun p => p.change fun m => { m with members := m.members.modify i (fun _ => ⟨img, .copyback⟩), unrest := m.unrest ++ left }
        let s := s.joinMembers pid [i]
        let s := match s.pool pid with
          | some q => s.each (q.cur.layouts.filter fun d => (q.listOf d).contains i) fun s d => s.checkDomains pid (s.geo q d)
          | none => s
        s.admWait src tag pid okStat

/-- READ_LOST (R128): the whole entries that fit, as published at the last edge (R12). -/
def State.poolReadLost (s : State) (src : AdmSrc) (tag pid : BitVec 16) (addr : BitVec 64) (len : BitVec 32) (first : Nat) : State :=
  s.onPool src tag pid fun s p => s.checked src tag [misaligned [addr.toNat, len.toNat]] fun s =>
    let es := (p.pub.lost.drop first).take (len.toNat / 32)
    s.hostOut src tag addr (es.flatMap lostBytes) (okStat (es.length + 2 ^ 32 * p.pub.lost.length))

/-- Listed blocks of a range. -/
def lostIn (l : List LostExt) (v : BitVec 12) (b n : Nat) : Nat :=
  ((l.filter fun e => e.vol == v).map fun e => min (e.vbn + e.count) (b + n) - max e.vbn b).foldl (· + ·) 0

/-- RELEASE_LOST (R129): the result is the number of blocks released; a split that finds no free entry makes the pool Lost. -/
def State.poolRelease (s : State) (src : AdmSrc) (tag pid : BitVec 16) (v : BitVec 12) (vbn : BitVec 64) (count : BitVec 32) : State :=
  s.onPool src tag pid fun s p =>
    if (p.vol v).isNone then s.admDone src tag (stat 1 7)
    else
      let n := lostIn p.nxt.lost v vbn.toNat count.toNat
      match lostCutRange p.nxt.lost v vbn.toNat count.toNat with
      | none => (s.updPool pid fun p => { p with listFull := true }).admWait src tag pid okStat
      | some l => (s.updPool pid fun p => p.change fun m => { m with lost := l }).admWait src tag pid (okStat n)

/-- SET_ATTR of a pool (R138). -/
def State.poolAttr (s : State) (src : AdmSrc) (tag pid : BitVec 16) (en days : Nat) : State :=
  s.onPool src tag pid fun s _ =>
    if en > 1 ∨ days < 1 ∨ days > 3650 then s.admDone src tag (stat 1 13)
    else (s.updPool pid fun p => p.change fun m => { m with scrubEn := en == 1, scrubDays := days }).admWait src tag pid okStat

/-- Code of a condition (R117). -/
def condCode (c : Cond) : Nat :=
  match c with
  | .optimal => 0
  | .degraded => 1
  | .critical => 2
  | .lost => 3

/-- The STATUS word of a pool (R226), from the published pool state table (R12). -/
def Pool.statusWord (p : Pool) : Nat :=
  let b := fun (x : Bool) (n : Nat) => if x then 2 ^ n else 0
  let out := (p.pub.members.filter fun m => m != .active).length - p.pub.holes
  condCode p.pub.cond + b p.pub.rebuilding 2 + b p.pub.copyback 3 + b p.pub.reshaping 4 + 2 ^ 8 * p.pub.emax + 2 ^ 16 * out + 2 ^ 32 * p.pub.lost.length

/-- STATUS. -/
def State.poolStatus (s : State) (src : AdmSrc) (tag pid : BitVec 16) : State :=
  s.onPool src tag pid fun s p => s.admDone src tag (okStat p.statusWord)

/-! ### Fronds (R140, R141, R153) -/

/-- Extents that each volume takes under a frond, in ascending volume id (R53, R141). -/
def frondExtents (d : LayoutDesc) (vols : List VolMeta) : List (BitVec 12 × List Nat) :=
  let ids := sortedKeys (vols.map fun v => v.id.toNat)
  (ids.foldl (fun (acc : List (BitVec 12 × List Nat) × Nat) i =>
    match vols.find? fun v => v.id.toNat == i with
    | none => acc
    | some v =>
      let n := ceilDiv v.size (256 * layData d)
      (acc.1 ++ [(v.id, (List.range n).map (· + acc.2))], acc.2 + n)) ([], 0)).1

/-- The slot rows that a frond needs (R141). -/
def frondRows (d : LayoutDesc) (vols : List VolMeta) : Nat :=
  let sf := 256 * ((frondExtents d vols).map fun e => e.2.length).foldl (· + ·) 0
  if layU d = 0 then 0 else ceilDiv (sf * layWidth d) (layU d)

/-- Do a descriptor's rows meet those of another layout on a member of both (R141)? -/
def Pool.rowsTaken (h : Pool) (d : LayoutDesc) (mem : List Nat) : Bool :=
  (h.cur.layouts ++ h.nxt.layouts).any fun e =>
    decide (d.hBase * layBs d < (e.hBase + e.count) * layBs e) && decide (e.hBase * layBs e < (d.hBase + d.count) * layBs d)
      && (((tget h.nxt.lists e.memberList).getD []).any mem.contains || ((tget h.cur.lists e.memberList).getD []).any mem.contains)

/-- The refusals of FROND_START (R140): class 0x01, then class 0x05. DESIGN CHOICE: a descriptor whose member-list id is not 0 is refused like one of CREATE (R227),
since the list is the one that the command brings. -/
def State.frondFault (s : State) (p h : Pool) (b : FrondBlk) : Option Stat :=
  let d := b.desc
  let nums := b.members.map fun i => ((h.nxt.members[i]?).map (·.img)).getD holeImg
  let busy := fun (q : Pool) => q.cur.frond.isSome || q.nxt.frond.isSome || q.cond == .lost
  if !d.rsvdZero || !b.rsvdZero then some (stat 1 3 0 8)
  else if d.memberList ≠ 0 ∨ d.crc ≠ layCrc d ∨ b.members.length ≠ d.n ∨ !(sortedKeys b.members == b.members) ∨ nums.contains holeImg
    then some (stat 1 2 0 8)
  else if !layLegal d || (h.cur.layouts ++ h.nxt.layouts).any (fun e => e.id == d.id) then some (stat 1 13)
  else if d.count ≠ frondRows d p.nxt.volumes ∨ h.rowsTaken d b.members ∨ d.hBase + d.count > s.rowsOf nums (layBs d) then some (stat 1 14)
  else if b.dstPool ≠ 0 && p.nxt.volumes.any (fun v => h.nxt.volumes.any fun w => w.id == v.id) then some (stat 1 2 0 8)
  else if busy p || busy h || s.rebuildingOf p || p.plan then some (stat 5 5)
  else none

/-- FROND_START (R140 to R142): the frond's layout is committed, with the cursor at the start of the lowest volume id (R152). DESIGN CHOICE: a destination pool that is
the source pool is refused as an illegal value; the spec says nothing of one. -/
def State.frondStart (s : State) (src : AdmSrc) (tag pid : BitVec 16) (addr : BitVec 64) (len : BitVec 32) (blk : HostRead FrondBlk) : State :=
  s.onPool src tag pid fun s p => s.checked src tag [misaligned [addr.toNat, len.toNat]] fun s => s.withRead src tag blk fun s b =>
    match if b.dstPool = 0 then some p else (if b.dstPool = pid then none else s.pool b.dstPool) with
    | none => s.admDone src tag (stat 1 2 0 8)
    | some h =>
      s.checked src tag [s.frondFault p h b] fun s =>
        let list := ((h.nxt.lists.map (·.1)).foldl max 0) + 1
        let seed := ((h.nxt.layouts.head?).map (·.seed)).getD b.desc.seed
        let d0 := { b.desc with memberList := list, seed := seed }
        let d := { d0 with crc := layCrc d0 }
        let first := (sortedKeys (p.nxt.volumes.map fun v => v.id.toNat)).headD 0
        let f : FrondMeta := { layout := d.id, srcPool := pid, dstPool := b.dstPool, phase := .copying, vol := BitVec.ofNat 12 first, vbn := 0
                               extents := frondExtents d p.nxt.volumes, marks := [] }
        let s := s.updPool h.cur.id fun q => q.change fun m => { m with layouts := m.layouts ++ [d], lists := m.lists ++ [(list, b.members)], frond := some f }
        let s := s.updPool pid fun q => q.change fun m => { m with frond := some f }
        let s := s.checkDomains h.cur.id (geoOf d b.members (b.members.map (s.domsOf h)))
        s.admWait src tag pid okStat (if b.dstPool = 0 then none else some b.dstPool)

/-- FROND_CANCEL (R152, R153): rejected once switched. DEDUCED: it completes as soon as it is carried out, since R153 has the removal committed after that; R225 speaks
of the change that a command makes itself. -/
def State.frondCancel (s : State) (src : AdmSrc) (tag pid : BitVec 16) : State :=
  s.onPool src tag pid fun s p =>
    match p.nxt.frond with
    | none => s.admDone src tag (stat 5 5)
    | some f =>
      if f.phase = .switched ∨ f.srcPool ≠ pid then s.admDone src tag (stat 5 5)
      else (s.updPool pid fun q => { q with frCancel := some s.edge }).admDone src tag okStat

/-! ### VOLUME_OP (R228) -/

/-- The layout in which a pool's new extents are taken. -/
def Pool.mainLayout (p : Pool) : Option LayoutDesc :=
  p.cur.layouts.find? fun d => !p.isFrond d.id && p.oldLayout != some d.id

/-- The frond layout that new extents of a pool are also taken in, while the frond has not switched. -/
def State.frondLay (s : State) (p : Pool) : Option (FrondMeta × LayoutDesc) :=
  match p.nxt.frond with
  | some f => if f.phase = .switched ∨ f.srcPool ≠ p.cur.id then none
      else ((s.pool (frondHolder f)).bind fun h => h.nxt.layouts.find? fun d => d.id == f.layout).map fun d => (f, d)
  | none => none

/-- The lowest n extents of a layout that are not taken. -/
def freeExtents (d : LayoutDesc) (taken : List Nat) (n : Nat) : Option (List Nat) :=
  let l := (((List.range (layExtents d)).filter fun e => !taken.contains e)).take n
  if l.length = n then some l else none

/-- Bits that a pool's volumes take in the bitmap (R110), with one volume at another size. -/
def Pool.bits (p : Pool) (v : BitVec 12) (size : Nat) : Nat :=
  ((p.nxt.volumes.filter fun m => m.id ≠ v).map fun m => ceilDiv m.size p.regionBlocks).foldl (· + ·) 0 + ceilDiv size p.regionBlocks

/-- The extents that take a volume to a size: in its layout, and in the frond's. Class 0x06 code 0x03 under R110, code 0x04 without a free extent. -/
def State.extentsFor (s : State) (p : Pool) (v : BitVec 12) (size : Nat) : Except Stat (Nat × List Nat × List Nat) :=
  let m := p.nxt.volumes.find? fun m => m.id == v
  if p.bits v size > 2 ^ 29 then .error (stat 6 3)
  else
    match (match m with
      | some m => p.layout m.layout
      | none => p.mainLayout) with
    | none => .error (stat 6 4)
    | some d =>
      let old := (m.map (·.extents)).getD []
      let taken := (p.nxt.volumes.filter fun w => w.layout == d.id).flatMap (·.extents)
      match freeExtents d taken (ceilDiv size (256 * layData d) - old.length) with
      | none => .error (stat 6 4)
      | some l =>
        match s.frondLay p with
        | none => .ok (d.id, old ++ l, [])
        | some (f, fd) =>
          let fold := (tget f.extents v).getD []
          match freeExtents fd (f.extents.flatMap (·.2)) (ceilDiv size (256 * layData fd) - fold.length) with
          | none => .error (stat 6 4)
          | some fl => .ok (d.id, old ++ l, fold ++ fl)

/-- Changes the frond's record in every pool that holds it. -/
def State.updFrond (s : State) (p : Pool) (g : FrondMeta → FrondMeta) : State :=
  match p.nxt.frond with
  | none => s
  | some f =>
    let ids := [f.srcPool, frondHolder f]
    { s with pools := s.pools.map fun q => if ids.contains q.cur.id then q.change fun m => { m with frond := m.frond.map g } else q }

/-- The attributes of a new volume: the image's defaults (R228). -/
def State.defaultAttrs (s : State) : VolAttrs :=
  match s.mgt.image with
  | some i => ⟨i.gDefault, i.wtDefault == 1, i.rcDefault == 1, i.soloDefault, i.faultDefault, false⟩
  | none => ⟨64, false, false, 1, 0, false⟩

/-- How far above zero the first reservation limit of a volume lies (R163). -/
def genStep : Nat := 2 ^ 24

/-- Creates the volume in the metadata asked for. -/
def State.addVolume (s : State) (p : Pool) (v : BitVec 12) (size lid : Nat) (ext fext : List Nat) : State :=
  let m : VolMeta := { id := v, size := size, layout := lid, extents := ext, attrs := s.defaultAttrs, limit := genStep, power := .active }
  let s := s.updPool p.cur.id fun q => q.change fun x => { x with volumes := x.volumes ++ [m] }
  if (s.frondLay p).isSome then s.updFrond p fun f => { f with extents := f.extents ++ [(v, fext)] } else s

/-- VOLUME_OP CREATE (R228, R301): the id is claimed in the rope first. -/
def State.volCreate (s : State) (src : AdmSrc) (tag : BitVec 16) (v : BitVec 12) (pid : BitVec 16) (size : BitVec 64) : State :=
  let used := s.volKnown v || v == 0 || s.pools.any fun p => p.nxt.volumes.any fun m => m.id == v
  s.checked src tag [badIf used 6, badIf ((s.pool pid).isNone || ((s.pool pid).map (·.deleting.isSome)) == some true) 0x1A,
      badIf (decide (size.toNat < 1) || decide (size.toNat > 2 ^ 48)) 0x20] fun s =>
    match s.pool pid with
    | none => s
    | some p =>
      match s.extentsFor p v size.toNat with
      | .error st => s.admDone src tag st
      | .ok (lid, ext, fext) =>
        let peers := (s.rop.peers.filter fun e => e.2.st == .up).map (·.1)
        if peers.isEmpty then (s.addVolume p v size.toNat lid ext fext).admWait src tag pid okStat
        else
          let w : AdmWait := { src := src, tag := tag, pool := pid, also := none, need := 0, stat := okStat, claim := some v, size := size.toNat, bytes := none }
          let s : State := { s with mgt := { s.mgt with adm := s.mgt.adm ++ [w] }, rop := { s.rop with claims := s.rop.claims ++ [⟨v, peers, false⟩] } }
          s.each peers fun s a => s.sendSeq a (.dirClaim v s.selfAddr none)

/-- Claims that every peer has answered (R301): the volume is created, or the command completes with class 0x01 code 0x02. A peer that is LOST is not
waited for. -/
def State.settleClaims (s : State) : State :=
  s.each s.mgt.adm fun s w =>
    match w.claim with
    | none => s
    | some v =>
      match s.rop.claims.find? fun c => c.vol == v with
      | none => s
      | some c =>
        let drop := fun (s : State) => ({ s with rop := { s.rop with claims := s.rop.claims.filter fun c => c.vol ≠ v }
                                                 mgt := { s.mgt with adm := s.mgt.adm.filter fun x => x.claim ≠ some v } } : State)
        if c.refused then (drop s).admDone w.src w.tag (stat 1 2 0 6)
        else if c.waits.any s.peerUp then s
        else
          let s := drop s
          match s.pool w.pool with
          | none => s.admDone w.src w.tag (stat 1 2 0 0x1A)
          | some p =>
            match s.extentsFor p v w.size with
            | .error st => s.admDone w.src w.tag st
            | .ok (lid, ext, fext) => (s.addVolume p v w.size lid ext fext).admWait w.src w.tag w.pool okStat

/-- A VOLUME_OP on a volume that this module owns. -/
def State.onVolume (s : State) (src : AdmSrc) (tag : BitVec 16) (v : BitVec 12) (go : State → Pool → VolMeta → State) : State :=
  match (s.poolOf v).bind fun p => (p.nxt.volumes.find? fun m => m.id == v).map fun m => (p, m) with
  | some (p, m) => go s p m
  | none => s.admDone src tag (stat 1 7)

/-- VOLUME_OP DELETE: refused while a command or a seal context of the volume is outstanding. -/
def State.volDelete (s : State) (src : AdmSrc) (tag : BitVec 16) (v : BitVec 12) : State :=
  s.onVolume src tag v fun s p _ =>
    if s.ord.cmds.any (fun c => c.vol == v && c.acc.isSome) || s.fix.ctxs.any (fun e => e.2.vol == v) then s.admDone src tag (stat 5 7)
    else
      let s := s.updPool p.cur.id fun q => q.change fun m =>
        { m with volumes := m.volumes.filter (fun x => x.id ≠ v), lost := m.lost.filter fun e => e.vol ≠ v }
      let s := s.updFrond p fun f => { f with extents := f.extents.filter fun e => e.1 ≠ v }
      s.admWait src tag p.cur.id okStat

/-- The attributes with one of them changed: none for an attribute id that does not exist, else whether the value is legal (R86, R103, R180, R228). -/
def setAttr (a : VolAttrs) (attr value : Nat) : Option (Option VolAttrs) :=
  match attr with
  | 1 => some (if 1 ≤ value ∧ value ≤ 4096 then some { a with g := value } else none)
  | 2 => some (if value ≤ 1 then some { a with wt := value == 1 } else none)
  | 3 => some (if value ≤ 1 then some { a with noFill := value == 1 } else none)
  | 4 => some (if value ≤ 2 then some { a with solo := value } else none)
  | 5 => some (if value ≤ 2 then some { a with fault := value } else none)
  | 6 => some (if value ≤ 1 then some { a with readOnly := value == 1 } else none)
  | _ => none

/-- VOLUME_OP SET_ATTR. -/
def State.volAttr (s : State) (src : AdmSrc) (tag : BitVec 16) (v : BitVec 12) (attr value : Nat) : State :=
  s.onVolume src tag v fun s p m =>
    match setAttr m.attrs attr value with
    | none => s.admDone src tag (stat 1 2 0 0x19)
    | some none => s.admDone src tag (stat 1 13)
    | some (some a) =>
      (s.updPool p.cur.id fun q => q.change fun x => { x with volumes := updIf x.volumes (fun y => y.id == v) fun y => { y with attrs := a } }).admWait
        src tag p.cur.id okStat

/-- VOLUME_OP GROW. -/
def State.volGrow (s : State) (src : AdmSrc) (tag : BitVec 16) (v : BitVec 12) (size : BitVec 64) : State :=
  s.onVolume src tag v fun s p m =>
    if size.toNat < m.size ∨ size.toNat > 2 ^ 48 then s.admDone src tag (stat 1 2 0 0x20)
    else
      match s.extentsFor p v size.toNat with
      | .error st => s.admDone src tag st
      | .ok (_, ext, fext) =>
        let fr := (s.frondLay p).isSome
        let s := s.updPool p.cur.id fun q => q.change fun x =>
          { x with volumes := updIf x.volumes (fun y => y.id == v) fun y => { y with size := size.toNat, extents := ext } }
        let s := s.iff fr fun s => s.updFrond p fun f => { f with extents := tset f.extents v fext }
        s.admWait src tag p.cur.id okStat

/-! ### Meanings -/

/-- POOL_OP CREATE (R227). -/
def execPoolOpCreate (src : AdmSrc) (tag : BitVec 16) (pool : BitVec 16) (blkAddr : BitVec 64) (blkLen : BitVec 32) (blk : HostRead PoolCreateBlk)
    (s : State) : Host.Outcome State Fault Refusal :=
  .next (s.clr.takeSerial src tag false (.poolOpCreate src tag pool blkAddr blkLen blk) fun s => s.poolCreate src tag pool blkAddr blkLen blk)

/-- POOL_OP DELETE (R226). -/
def execPoolOpDelete (src : AdmSrc) (tag : BitVec 16) (pool : BitVec 16) (s : State) : Host.Outcome State Fault Refusal :=
  .next (s.clr.takeSerial src tag false (.poolOpDelete src tag pool) fun s => s.poolDelete src tag pool)

/-- POOL_OP ADD_MEMBERS (R226). -/
def execAddMembers (src : AdmSrc) (tag : BitVec 16) (pool : BitVec 16) (blkAddr : BitVec 64) (blkLen : BitVec 32) (blk : HostRead (List Nat)) (s : State) :
    Host.Outcome State Fault Refusal :=
  .next (s.clr.takeSerial src tag false (.addMembers src tag pool blkAddr blkLen blk) fun s => s.poolAdd src tag pool blkAddr blkLen blk)

/-- POOL_OP REMOVE_MEMBERS (R226, R142). -/
def execRemoveMembers (src : AdmSrc) (tag : BitVec 16) (pool : BitVec 16) (blkAddr : BitVec 64) (blkLen : BitVec 32) (blk : HostRead (List Nat)) (s : State) :
    Host.Outcome State Fault Refusal :=
  .next (s.clr.takeSerial src tag false (.removeMembers src tag pool blkAddr blkLen blk) fun s => s.poolRemove src tag pool blkAddr blkLen blk)

/-- POOL_OP DECLARE_FAILED (R119). -/
def execDeclareFailed (src : AdmSrc) (tag : BitVec 16) (pool : BitVec 16) (idx : Nat) (s : State) : Host.Outcome State Fault Refusal :=
  .next (s.clr.takeSerial src tag false (.declareFailed src tag pool idx) fun s => s.poolFail src tag pool idx)

/-- POOL_OP REPLACE_MEMBER (R130). -/
def execReplaceMember (src : AdmSrc) (tag : BitVec 16) (pool : BitVec 16) (idx : Nat) (img : Nat) (s : State) : Host.Outcome State Fault Refusal :=
  .next (s.clr.takeSerial src tag false (.replaceMember src tag pool idx img) fun s => s.poolReplace src tag pool idx img)

/-- POOL_OP FROND_START (R140). -/
def execFrondStart (src : AdmSrc) (tag : BitVec 16) (pool : BitVec 16) (blkAddr : BitVec 64) (blkLen : BitVec 32) (blk : HostRead FrondBlk) (s : State) :
    Host.Outcome State Fault Refusal :=
  .next (s.clr.takeSerial src tag false (.frondStart src tag pool blkAddr blkLen blk) fun s => s.frondStart src tag pool blkAddr blkLen blk)

/-- POOL_OP FROND_CANCEL (R153). -/
def execFrondCancel (src : AdmSrc) (tag : BitVec 16) (pool : BitVec 16) (s : State) : Host.Outcome State Fault Refusal :=
  .next (s.clr.takeSerial src tag false (.frondCancel src tag pool) fun s => s.frondCancel src tag pool)

/-- POOL_OP READ_LOST (R128). -/
def execReadLost (src : AdmSrc) (tag : BitVec 16) (pool : BitVec 16) (blkAddr : BitVec 64) (blkLen : BitVec 32) (first : Nat) (s : State) :
    Host.Outcome State Fault Refusal :=
  .next (s.clr.takeSerial src tag false (.readLost src tag pool blkAddr blkLen first) fun s => s.poolReadLost src tag pool blkAddr blkLen first)

/-- POOL_OP RELEASE_LOST (R129). -/
def execReleaseLost (src : AdmSrc) (tag : BitVec 16) (pool : BitVec 16) (vol : BitVec 12) (vbn : BitVec 64) (count : BitVec 32) (s : State) :
    Host.Outcome State Fault Refusal :=
  .next (s.clr.takeSerial src tag false (.releaseLost src tag pool vol vbn count) fun s => s.poolRelease src tag pool vol vbn count)

/-- POOL_OP SET_ATTR (R138). -/
def execPoolOpSetAttr (src : AdmSrc) (tag : BitVec 16) (pool : BitVec 16) (scrubEn : Nat) (period : Nat) (s : State) : Host.Outcome State Fault Refusal :=
  .next (s.clr.takeSerial src tag false (.poolOpSetAttr src tag pool scrubEn period) fun s => s.poolAttr src tag pool scrubEn period)

/-- POOL_OP STATUS (R226). -/
def execPoolOpStatus (src : AdmSrc) (tag : BitVec 16) (pool : BitVec 16) (s : State) : Host.Outcome State Fault Refusal :=
  .next (s.clr.takeSerial src tag false (.poolOpStatus src tag pool) fun s => s.poolStatus src tag pool)

/-- VOLUME_OP CREATE (R228). -/
def execVolumeOpCreate (src : AdmSrc) (tag : BitVec 16) (vol : BitVec 12) (pool : BitVec 16) (size : BitVec 64) (s : State) :
    Host.Outcome State Fault Refusal :=
  .next (s.clr.takeSerial src tag false (.volumeOpCreate src tag vol pool size) fun s => s.volCreate src tag vol pool size)

/-- VOLUME_OP DELETE (R228). -/
def execVolumeOpDelete (src : AdmSrc) (tag : BitVec 16) (vol : BitVec 12) (s : State) : Host.Outcome State Fault Refusal :=
  .next (s.clr.takeSerial src tag false (.volumeOpDelete src tag vol) fun s => s.volDelete src tag vol)

/-- VOLUME_OP SET_ATTR (R228). -/
def execVolumeOpSetAttr (src : AdmSrc) (tag : BitVec 16) (vol : BitVec 12) (attr : Nat) (value : Nat) (s : State) : Host.Outcome State Fault Refusal :=
  .next (s.clr.takeSerial src tag false (.volumeOpSetAttr src tag vol attr value) fun s => s.volAttr src tag vol attr value)

/-- VOLUME_OP GROW (R228). -/
def execVolumeOpGrow (src : AdmSrc) (tag : BitVec 16) (vol : BitVec 12) (size : BitVec 64) (s : State) : Host.Outcome State Fault Refusal :=
  .next (s.clr.takeSerial src tag false (.volumeOpGrow src tag vol size) fun s => s.volGrow src tag vol size)

end Sys2Proof.Machine
end

