-- ==== Sys2Proof/Machine/Image.lean ====
section
/-!
DEFINITION. What the configuration NVM holds (R331 to R336): the slot directory, slot headers, signed objects, and the Umaza image, read from its bytes.
-/
namespace Sys2Proof.Machine

/-! ### The slot directory (R333) -/

/-- Do these bytes end in the CRC-32C of the ones before it? -/
def crcEnds (bs : List Byte) : Bool := decide (4 ≤ bs.length) && decide (leAt bs (bs.length - 4) 4 = (crc32c (bs.take (bs.length - 4))).toNat)

/-- A directory record. -/
def dirBytes (d : Directory) : List Byte :=
  let v := (if d.valid.getD 0 false then 1 else 0) + (if d.valid.getD 1 false then 2 else 0)
  withCrc ([0x4C, 0x4E, 0x53, 0x44] ++ leBytes 4 d.seq.toNat ++ leBytes 1 d.active ++ leBytes 1 (d.trial.getD 0xFF) ++ leBytes 1 d.attempts ++ leBytes 1 v
    ++ List.replicate 16 0)

/-- Reads a copy of the directory: none when its magic or its CRC fails. -/
def dirOf (bs : List Byte) : Option Directory :=
  if bs.length = 32 ∧ bs.take 4 = [0x4C, 0x4E, 0x53, 0x44] ∧ crcEnds bs then
    let t := leAt bs 9 1
    some ⟨BitVec.ofNat 32 (leAt bs 4 4), leAt bs 8 1, if t = 0xFF then none else some t, leAt bs 10 1, [leAt bs 11 1 % 2 == 1, leAt bs 11 1 / 2 % 2 == 1]⟩
  else none

/-- The directory in force at start with the copy that holds it: of the valid copies the one with the higher sequence number; with none, slot A is active and
no trial is pending. -/
def dirAtStart (copies : List (List Byte)) : Directory × Nat :=
  match dirOf (copies.getD 0 []), dirOf (copies.getD 1 []) with
  | some a, some b => if a.seq < b.seq then (b, 1) else (a, 0)
  | some a, none => (a, 0)
  | none, some b => (b, 1)
  | none, none => (⟨0, 0, none, 0, [false, false]⟩, 0)

/-! ### Slots (R332) -/

/-- Bytes of an object with its signature block. -/
def objLen (o : SignedObj) : Nat := o.body.length + o.block.length

/-- Slot offset of the image that stands behind a firmware object: the next multiple of 64 KiB. -/
def imageOffset (fw : SignedObj) : Nat := (0x1000 + objLen fw + 0xFFFF) / 0x10000 * 0x10000

/-- The slot header's fields. Objects that a slot lacks count as empty. -/
def slotHeader (fw img : SignedObj) : List Byte :=
  withCrc ([0x4C, 0x4E, 0x53, 0x53] ++ leBytes 4 (objLen fw) ++ leBytes 4 (imageOffset fw) ++ leBytes 4 (objLen img) ++ sha fw.body ++ sha img.body)

/-- Firmware digest of a slot header whose magic and CRC hold. -/
def headerFw (hdr : List Byte) : Option (BitVec 256) :=
  if hdr.length = 0x54 ∧ hdr.take 4 = [0x4C, 0x4E, 0x53, 0x53] ∧ crcEnds hdr then some (keyOf (fieldAt hdr 0x10 32)) else none

/-- Do both objects, with the header, fit within a slot? -/
def pairFits (fw img : SignedObj) : Bool := decide (imageOffset fw + objLen img ≤ 16777216)

/-! ### Signed objects (R349) -/

/-- The place of an object's signature block: the first that holds the block's magic and counts the bytes before it as its signed length. -/
def sigAt : Nat → List Byte → Option Nat
  | _, [] => none
  | p, b :: bs => if (b :: bs).take 4 = [0x4C, 0x4E, 0x53, 0x47] ∧ leAt (b :: bs) 8 4 = p then some p else sigAt (p + 1) bs

/-- Splits stored bytes into an object and its signature block. An image's header gives its length without the signature (R335). -/
def splitObj (kind : ObjKind) (bs : List Byte) : SignedObj :=
  let n := match kind with
    | .image => leAt bs 8 4
    | .firmware => (sigAt 0 bs).getD bs.length
  ⟨bs.take n, bs.drop n⟩

/-! ### The Umaza image (R335, R336) -/

/-- An entry of the section directory. -/
structure Sect where
  typ  : Nat
  off  : Nat
  len  : Nat
  crc  : Nat
  rsvd : Nat
  deriving DecidableEq, Repr

/-- The section directory: it follows the header. -/
def sects (bs : List Byte) : List Sect :=
  (List.range (leAt bs 0x21 1)).map fun i =>
    let e := fieldAt bs (64 + 16 * i) 16
    ⟨leAt e 0 2, leAt e 4 4, leAt e 8 4, leAt e 12 4, leAt e 2 2⟩

/-- Bytes of a section. -/
def Sect.bytes (x : Sect) (bs : List Byte) : List Byte := fieldAt bs x.off x.len

/-- Can the header and the sections be read, and do their CRCs hold (R338, step 2)? -/
def imageCrcs (bs : List Byte) : Bool :=
  decide (64 ≤ bs.length) && bs.take 8 == [0x55, 0x4D, 0x5A, 0x49, 1, 0, 64, 0] && decide (leAt bs 8 4 = bs.length) && crcEnds (bs.take 64)
    && (sects bs).all fun x => decide (x.off + x.len ≤ bs.length) && decide ((crc32c (x.bytes bs)).toNat = x.crc)

/-- The bytes of the section of a type; empty without one. -/
def sectOf (bs : List Byte) (typ : Nat) : List Byte := (((sects bs).find? fun x => x.typ == typ).map fun x => x.bytes bs).getD []

/-- Fields of so many bytes, one after the other. -/
def chunks (n : Nat) : Nat → List Byte → List (List Byte)
  | 0, _ => []
  | k + 1, bs => bs.take n :: chunks n k (bs.drop n)

/-- Ports of the rope role that a role field leaves (R336, R420). -/
def ropeCount (roles : Nat) : Nat := 16 - ((List.range 16).filter fun p => roles / 2 ^ p % 2 = 1).length

/-- A domain id: 0xFFFF declares none. -/
def domainOf (v : Nat) : Option Nat := if v = 0xFFFF then none else some v

/-- A member entry of 256 bytes. -/
def imgMember (e : List Byte) : ImgMember :=
  { num := leAt e 0 2, dom1 := domainOf (leAt e 2 2), dom2 := domainOf (leAt e 4 2), kind := leAt e 6 1, addr := BitVec.ofNat 128 (leAt e 8 16)
    svc := BitVec.ofNat 16 (leAt e 24 2), nsid := BitVec.ofNat 32 (leAt e 26 4), nqn := BitVec.ofNat 1792 (leAt e 32 224) }

/-- IP addresses of 16 bytes. -/
def ips (bs : List Byte) (off n : Nat) : List (BitVec 128) := (chunks 16 n (bs.drop off)).map fun a => BitVec.ofNat 128 (ofLe a)

/-- Are the sections those that an image must have (R336)? The first six stand once, the seventh at most once; no other type below 0x8000. Their places,
lengths and reserved bytes are as R335 and R336 have them, and ids fit their fields. -/
def sectionsOk (bs : List Byte) : Bool :=
  let xs := sects bs
  let n := fun (t : Nat) => (xs.filter fun x => x.typ == t).length
  let m := sectOf bs 1
  let r := sectOf bs 3
  let v := sectOf bs 4
  let rope := ropeCount (leAt m 10 2)
  let pools := sectOf bs 6
  decide (1 ≤ xs.length ∧ xs.length ≤ 32) && [1, 2, 3, 4, 5, 6].all (fun t => n t == 1) && decide (n 7 ≤ 1)
    && xs.all (fun x => (decide (1 ≤ x.typ ∧ x.typ ≤ 7) || decide (0x8000 ≤ x.typ)) && decide (x.off % 64 = 0) && x.rsvd == 0 && decide (64 + 16 * xs.length ≤ x.off))
    && leAt bs 0x20 1 < 4 && leAt bs 0x22 2 == 0 && leAt bs 0x28 20 == 0
    && m.length == 30 && decide (leAt m 4 2 < 4096) && decide (leAt m 6 2 < 4096 ∨ leAt m 6 2 = 0xFFFF) && decide (leAt m 17 1 < 4)
    && (sectOf bs 2).length == 3
    && decide (r.length = 26 + 16 * (rope + leAt r (24 + 16 * rope) 2))
    && decide (v.length = 8 + 16 * (16 - rope) + 18 * leAt v (6 + 16 * (16 - rope)) 2)
    && decide ((sectOf bs 5).length % 256 = 0) && (chunks 256 ((sectOf bs 5).length / 256) (sectOf bs 5)).all (fun e => leAt e 7 1 == 0 && leAt e 30 2 == 0)
    && decide (9 ≤ pools.length) && decide ((pools.length - 9) % 4 = 0) && (chunks 4 ((pools.length - 9) / 4) pools).all (fun e => decide (leAt e 2 2 < 4096))
    && decide ((sectOf bs 7).length = if n 7 = 1 then 2 else 0)

/-- An image as its bytes give it, with the digest that its signature block names. -/
def readImage (bs : List Byte) (digest : BitVec 256) : Image :=
  let b := fun (n : Nat) (v : Nat) => BitVec.ofNat n v
  let m := sectOf bs 1
  let c := sectOf bs 2
  let r := sectOf bs 3
  let v := sectOf bs 4
  let p := sectOf bs 6
  let k := (p.length - 9) / 4
  let d := p.drop (4 * k)
  let rope := ropeCount (leAt m 10 2)
  let seeds := 24 + 16 * rope
  let disc := 6 + 16 * (16 - rope)
  { secVersion := b 32 (leAt bs 0x0C 4), boundSerial := b 128 (leAt bs 0x10 16), variants := b 8 (leAt bs 0x20 1), build := b 32 (leAt bs 0x24 4)
    sectionsOk := sectionsOk bs, digest := digest
    ropeId := b 32 (leAt m 0 4), ropeAddr := b 12 (leAt m 4 2), partner := if leAt m 6 2 = 0xFFFF then none else some (b 12 (leAt m 6 2))
    period := b 8 (leAt m 8 1), ppsEn := b 8 (leAt m 9 1), roles := b 16 (leAt m 10 2), split := b 32 (leAt m 12 4), dmvModes := b 8 (leAt m 16 1)
    wakeEn := b 8 (leAt m 17 1), subVendor := b 16 (leAt m 18 2), subId := b 16 (leAt m 20 2), joinTicks := b 32 (leAt m 22 4), discTicks := b 32 (leAt m 26 4)
    metaGib := leAt c 0 1, dirtyGib := leAt c 1 1, belayGib := leAt c 2 1
    udpPort := b 16 (leAt r 0 2), handback := b 8 (leAt r 2 1), timeDscp := b 8 (leAt r 3 1), ropeVlan := b 32 (leAt r 4 4), multicast := b 128 (leAt r 8 16)
    ropeIps := ips r 24 rope, seeds := ips r (seeds + 2) (leAt r seeds 2)
    memVlan := b 32 (leAt v 0 4), pfcEn := b 8 (leAt v 4 1), memDscp := b 8 (leAt v 5 1), memIps := ips v 6 (16 - rope)
    discovery := (chunks 18 (leAt v disc 2) (v.drop (disc + 2))).map fun a => b 144 (ofLe a)
    members := (chunks 256 ((sectOf bs 5).length / 256) (sectOf bs 5)).map imgMember
    pools := (chunks 4 k p).map fun e => (b 16 (leAt e 0 2), b 12 (leAt e 2 2))
    gDefault := leAt d 0 2, wtDefault := leAt d 2 1, rcDefault := leAt d 3 1, soloDefault := leAt d 4 1, faultDefault := leAt d 5 1
    scrubDefault := leAt d 6 2, regionDefault := leAt d 8 1
    testPerm := b 8 (leAt (sectOf bs 7) 0 1), exportPerm := b 8 (leAt (sectOf bs 7) 1 1) }

end Sys2Proof.Machine
end

