-- ==== Sys2Proof/Machine/Peers.lean ====
section
/-!
DEFINITION. ROP's links: the checks of an incoming frame (R286, R287), exactly-once delivery (R289), the peer table (R290, R291), paths (R292) and
heartbeats (R293).
-/
namespace Sys2Proof.Machine

/-! ### Incoming frames -/

/-- Bytes 0x00 to 0x1B of a frame's header (R287). -/
def hdrBytes (typ : Nat) (h : FrameHdr) : List Byte :=
  leBytes 1 h.version.toNat ++ leBytes 1 typ ++ leBytes 2 (if h.retx then 1 else 0) ++ leBytes 4 h.ropeId.toNat ++ leBytes 2 h.src.toNat
    ++ leBytes 2 h.dst.toNat ++ leBytes 4 h.seq.toNat ++ leBytes 8 h.edge.toNat ++ leBytes 4 h.len.toNat

/-- Does the rope receive frames in this phase: from ROPE_JOIN on, until a bivouac or a halt? -/
def State.ropeOn (s : State) : Bool :=
  match s.phase with
  | .ropeJoin | .memberDiscovery | .poolAssembly | .journalReconcile | .online | .failStop => true
  | .powerOff | .reset | .trustBoot | .configLoad | .memoryInit | .vaultRecovery | .bivouac _ => false

/-- Version, header CRC and rope id are right (R286, R287). -/
def State.hdrGood (s : State) (typ : Nat) (h : FrameHdr) : Bool :=
  decide (h.version = 1) && decide (h.crc = crc32c (hdrBytes typ h)) && decide (h.ropeId.toNat = s.reg .ropIdRope)

/-- Is the frame for this module, from another one? -/
def State.forMe (s : State) (h : FrameHdr) : Bool :=
  (decide (h.dst = s.selfAddr.setWidth 16) || decide (h.dst = 0xFFFF)) && decide (h.src ≠ s.selfAddr)

/-- Takes a frame that passes the header checks; others are dropped and counted (R286, R287). -/
def State.withFrame (s : State) (typ : Nat) (h : FrameHdr) (go : State → State) : State :=
  if !s.ropeOn then s
  else if !s.hdrGood typ h then s.bump .ropDropCntN
  else if s.forMe h then go s else s

/-- Moves the highest gap-free sequence over what has arrived above it. -/
def advance : Nat → BitVec 32 → List (BitVec 32) → BitVec 32 × List (BitVec 32)
  | 0, hi, above => (hi, above)
  | fuel + 1, hi, above => if above.contains (hi + 1) then advance fuel (hi + 1) (above.erase (hi + 1)) else (hi, above)

/-- Has a sequence been received before? -/
def Peer.seen (p : Peer) (n : BitVec 32) : Bool := decide ((n - p.rxHigh - 1).toNat ≥ 2 ^ 31) || p.rxAbove.contains n

/-- Enters a sequence among those received. -/
def Peer.got (p : Peer) (n : BitVec 32) : Peer :=
  let r := advance (p.rxAbove.length + 2) p.rxHigh (p.rxAbove ++ [n])
  { p with rxHigh := r.1, rxAbove := r.2 }

/-! ### The peer table (R290, R291) -/

/-- The volumes that this module owns (R301). -/
def State.ownDir (s : State) : List DirEntry :=
  (s.pools.filter fun p => !p.yielded).flatMap fun p => p.cur.volumes.map fun v => ⟨v.id, p.cur.id, s.selfAddr⟩

/-- Fresh paths to a peer, one for each rope port, UP while the local link is (R292). -/
def State.freshPaths (s : State) : List RPath := s.ropePorts.map fun n => { n := n, up := s.linkUp n, got := false, run := 0, quiet := 0 }

/-- A peer is heard: it becomes UP, and is sent every volume that this module owns (R291, R301). -/
def State.hear (s : State) (a : BitVec 12) (fresh : Option (BitVec 128 × List (BitVec 128) × BitVec 8)) : State :=
  match s.peer a with
  | some p =>
    let f := fresh.getD (p.serial, p.ips, p.annState)
    let s' := s.updPeer a fun q => { q with heard := s.edge, serial := f.1, ips := f.2.1, annState := f.2.2 }
    if p.st = .up then s'
    else (s'.updPeer a fun q => { q with st := .up, paths := s.freshPaths }).sendSeq a (.dirUpdate s.ownDir)
  | none =>
    let f := fresh.getD (0, [], 0)
    let p : Peer := { serial := f.1, st := .up, heard := s.edge, ips := f.2.1, annState := f.2.2, modState := .online, paths := s.freshPaths, txSeq := 0, unacked := []
                      rxHigh := 0, rxAbove := [], hbDue := s.edge }
    State.sendSeq { s with rop := { s.rop with peers := s.rop.peers ++ [(a, p)] } } a (.dirUpdate s.ownDir)

/-- Takes a sequenced frame once (R289): a duplicate is dropped and counted; one from no known peer belongs to no stream. -/
def State.withSeq (s : State) (typ : Nat) (h : FrameHdr) (go : State → State) : State :=
  s.withFrame typ h fun s =>
    match s.peer h.src with
    | none => s
    | some p =>
      if p.seen h.seq then (s.hear h.src none).bump .ropDropCntN
      else go ((s.updPeer h.src fun q => q.got h.seq).hear h.src none)

/-- The same for frames that a content check may refuse before they count as received (R289, R299). -/
def State.withSeqIf (s : State) (typ : Nat) (h : FrameHdr) (ok : State → State × Bool) (go bad : State → State) : State :=
  s.withFrame typ h fun s =>
    match s.peer h.src with
    | none => s
    | some p =>
      if p.seen h.seq then (s.hear h.src none).bump .ropDropCntN
      else
        let (s, good) : State × Bool := ok s
        if good then go ((s.updPeer h.src fun q => q.got h.seq).hear h.src none) else bad (s.hear h.src none)

/-- A block of a frame passes its footer CRC and guard (R289). -/
def blockWhole (b : Block) : Bool := decide (b.foot.crc = footCrc b.foot) && decide (b.foot.guard = guard64 b.data)

/-- A peer becomes LOST (R291): its streams end, claims no longer wait for it, and the commands forwarded to it end with class 0x03 code 0x05 (R223,
R302). -/
def State.losePeer (s : State) (a : BitVec 12) : State :=
  match s.peer a with
  | none => s
  | some p =>
    if p.st = .lost then s
    else
      let s := s.updPeer a fun p => { p with st := .lost, unacked := [], txSeq := 0, rxHigh := 0, rxAbove := [] }
      let s : State := { s with rop := { s.rop with claims := s.rop.claims.map fun c => { c with waits := c.waits.erase a } } }
      let s : State := if s.partnerAddr = some a then { s with rop := { s.rop with setupSent := none, setupRx := none } } else s
      let mine := s.ord.cmds.filter fun c => match c.st with
        | .forwarded o _ => o == a
        | .accepted | .running | .held | .eligible _ | .finished => false
      s.each mine fun s c => (s.unhold c.creditHeld).updCmd c.id fun c => { c with st := .eligible (stat 3 5 0 a.toNat), rblks := [] }

/-- The stream to a peer is broken (R289): belay ends with the partner, any other peer is LOST. -/
def State.breakStream (s : State) (a : BitVec 12) : State :=
  if s.partnerAddr = some a then (s.updPeer a fun p => { p with unacked := [] }).belayDown else s.losePeer a

/-- Heartbeat interval of a peer in ticks (R291, R293): one for the partner and for a peer with a sequenced frame outstanding in either direction. -/
def State.hbInterval (s : State) (a : BitVec 12) (p : Peer) : Nat :=
  if s.partnerAddr = some a ∨ !p.unacked.isEmpty ∨ !p.rxAbove.isEmpty then 1 else 1024

/-- Tests one peer: nothing heard for three heartbeat intervals, or no path UP, makes it LOST (R291, R292). -/
def State.peerTimeout (s : State) (a : BitVec 12) : State :=
  match s.peer a with
  | none => s
  | some p => if p.st = .up ∧ (s.edge ≥ p.heard + 3 * s.hbInterval a p ∨ p.upPaths.isEmpty) then s.losePeer a else s

/-! ### Acknowledgement and retransmission (R289) -/

/-- Is a sequence acknowledged by a heartbeat's fields? -/
def acked (hi : BitVec 32) (map : BitVec 64) (n : BitVec 32) : Bool :=
  let d := (n - hi - 1).toNat
  decide (d ≥ 2 ^ 31) || (decide (d < 64) && map.getLsbD d)

/-- Does the map show a sequence missing: a higher one has arrived? -/
def gapAt (hi : BitVec 32) (map : BitVec 64) (n : BitVec 32) : Bool :=
  let d := (n - hi - 1).toNat
  decide (d < 64) && !map.getLsbD d && (List.range 64).any fun i => decide (i > d) && map.getLsbD i

/-- Takes the acknowledgement fields of a peer: frames that the map shows missing are sent again in the next tick. -/
def State.takeAcks (s : State) (a : BitVec 12) (hi : BitVec 32) (map : BitVec 64) : State :=
  let again := fun (u : Unacked) => if gapAt hi map u.seq then { u with sent := u.sent - 4 } else u
  s.updPeer a fun p => { p with unacked := (p.unacked.filter fun u => !acked hi map u.seq).map again }

/-- Sends one frame again that has waited four ticks; after eight retransmissions the stream is broken. -/
def State.retxOne (s : State) (a : BitVec 12) (n : BitVec 32) : State :=
  match s.peer a with
  | none => s
  | some p =>
    match p.unacked.find? fun u => u.seq == n with
    | none => s
    | some u =>
      if s.edge < u.sent + 4 then s
      else if u.retx ≥ 8 then s.breakStream a
      else
        let s := s.updPeer a fun p => { p with unacked := updIf p.unacked (fun x => x.seq == n) fun x => { x with sent := s.edge, retx := x.retx + 1 } }
        (s.emit (.frame (a.setWidth 16) (pathOf p a u.f) n true u.f)).bump .ropRetxCntN

/-- Tests every frame that waits for its acknowledgement. -/
def State.retxAll (s : State) : State :=
  s.each s.rop.peers fun s e => s.each e.2.unacked fun s u => s.retxOne e.1 u.seq

/-! ### Paths (R292) -/

/-- A frame has arrived on a path. -/
def State.onPath (s : State) (a : BitVec 12) (n : Nat) : State :=
  s.updPeer a fun p => { p with paths := updIf p.paths (fun x => x.n == n) fun x => { x with got := true } }

/-- A path goes DOWN: its link is down, or it has been quiet for three ticks. The partner sends on every path in every tick; a path to another peer
follows its link. -/
def State.pathDown (s : State) (a : BitVec 12) (n : Nat) : State :=
  match (s.peer a).bind fun p => p.paths.find? fun x => x.n == n with
  | none => s
  | some x =>
    if x.up && (!s.linkUp n || (decide (s.partnerAddr = some a) && decide (x.quiet ≥ 3))) then
      State.bump (s.updPeer a fun p => { p with paths := updIf p.paths (fun y => y.n == n) fun y => { y with up := false, run := 0 } }) .ropPathFailCntN
    else s

/-- A path is UP again after sixteen consecutive ticks with a frame; to a peer that sends no frame in every tick, when its link is back. -/
def State.pathUp (s : State) (a : BitVec 12) (n : Nat) : State :=
  match (s.peer a).bind fun p => p.paths.find? fun x => x.n == n with
  | none => s
  | some x =>
    if !x.up && s.linkUp n && (decide (s.partnerAddr ≠ some a) || decide (x.run ≥ 16)) then
      s.updPeer a fun p => { p with paths := updIf p.paths (fun y => y.n == n) fun y => { y with up := true, quiet := 0 } }
    else s

/-- Closes a tick on one path: consecutive ticks with and without a frame. -/
def RPath.tick (x : RPath) : RPath :=
  if x.got then { x with got := false, run := x.run + 1, quiet := 0 } else { x with run := 0, quiet := x.quiet + 1 }

/-- Closes a tick on every path. -/
def State.pathTicks (s : State) : State :=
  let s : State := { s with rop := { s.rop with peers := s.rop.peers.map fun e => (e.1, { e.2 with paths := e.2.paths.map RPath.tick }) } }
  s.each s.rop.peers fun s e => s.each e.2.paths fun s x => (s.pathDown e.1 x.n).pathUp e.1 x.n

/-- Tests every peer. -/
def State.peerTimeouts (s : State) : State := s.each s.rop.peers fun s e => s.peerTimeout e.1

/-! ### Heartbeats (R293) -/

/-- The module's own heartbeat payload to a peer. -/
def State.hbOf (s : State) (p : Peer) : HbPayload :=
  { modState := if s.qe.halted then .halted else if s.phase = .failStop then .failStop else .online
    belay := s.jnl.belay, lastSeal := w64 s.jnl.lastSeal, lastConf := w64 s.jnl.lastConf, ackHigh := p.rxHigh
    ackMap := p.rxAbove.foldl (fun m n => let d := (n - p.rxHigh - 1).toNat; if d < 64 then m ||| (1 <<< d) else m) 0 }

/-- Sends the heartbeats of an edge: on every UP path to the partner, one to a peer with a sequenced frame outstanding, one in 1,024 edges to any other. -/
def State.heartbeats (s : State) : State :=
  s.each s.rop.peers fun s e =>
    let (a, p) := e
    if p.st ≠ .up then s
    else if s.partnerAddr = some a then s.each p.upPaths fun s n => s.sendPlain (a.setWidth 16) n (.heartbeat (s.hbOf p))
    else if s.hbInterval a p = 1 ∨ s.edge ≥ p.hbDue then
      (s.updPeer a fun p => { p with hbDue := s.edge + 1024 }).sendPlain (a.setWidth 16) (p.upPaths.headD 0) (.heartbeat (s.hbOf p))
    else s

/-- A HEARTBEAT (R289, R291, R293). -/
def State.heartbeatIn (s : State) (h : FrameHdr) (path : Nat) (p : HbPayload) : State :=
  s.withFrame 0x02 h fun s =>
    let fromPartner := decide (s.partnerAddr = some h.src)
    if fromPartner && s.mgt.inj.any fun x => x.matches [0x13] [] then { s with rop := { s.rop with hbInj := true } }
    else
    let s := ((s.hear h.src none).onPath h.src path).takeAcks h.src p.ackHigh p.ackMap
    let s := s.updPeer h.src fun q => { q with modState := p.modState }
    s.iff (decide (s.partnerAddr = some h.src)) fun s => { s with rop := { s.rop with hbGot := true, hbInj := false } }

/-! ### Announcements (R290, R291) -/

/-- Another module announces this module's address: held in ROPE_JOIN, or ignored from now on (R291). -/
def State.addrConflict (s : State) (serial : BitVec 128) : State :=
  if s.rop.conflicts.contains serial then s
  else
    let s := s.log .ropeAddrConflict 8 s.selfAddr.toNat
    if s.phase = .ropeJoin then { s with mgt := { s.mgt with held := true, cause := 0x0D } }
    else State.setReg { s with rop := { s.rop with conflicts := s.rop.conflicts ++ [serial] } } .glbAlertAddrConflict 1

/-- An ANNOUNCE: the peer enters the table, but for one that announces another tick period; in ROPE_JOIN that one holds this module there (R25, R290). -/
def State.announceIn (s : State) (h : FrameHdr) (serial : BitVec 128) (period : BitVec 3) (state : BitVec 8) (ips : List (BitVec 128)) : State :=
  if !s.ropeOn then s
  else if !s.hdrGood 0x01 h then s.bump .ropDropCntN
  else if s.rop.conflicts.contains serial then s
  else if h.src = s.selfAddr then (if serial = s.part.serial then s else s.addrConflict serial)
  else if period.toNat ≠ s.reg .tckCfgPeriod then
    (if s.phase = .ropeJoin ∧ !s.mgt.held then
      ({ s with mgt := { s.mgt with held := true, cause := 0x0C } } : State).log .tickMismatch 8 h.src.toNat
     else s)
  else s.hear h.src (some (serial, ips, state))

/-- This module's ANNOUNCE. Its state is the number of R337. -/
def State.announceOf (s : State) : TxFrame :=
  .announce s.part.serial (BitVec.ofNat 3 (s.reg .tckCfgPeriod)) (BitVec.ofNat 8 (phaseCode s.phase)) ((s.mgt.image.map (·.ropeIps)).getD [])

/-- Is this an edge at which ANNOUNCE is to be sent, and has it not been: every 1,024th, or every 16th in ROPE_JOIN? -/
def State.announceDue (s : State) : Bool :=
  s.ropeOn && (s.edge % 1024 == 0 || (s.phase == .ropeJoin && s.edge % 16 == 0)) && s.rop.annAt != some s.edge

/-- Sends ANNOUNCE to the multicast group and to every address of the image's seed list (R290), on every rope port whose link is up, when it is due. -/
def State.announceAll (s : State) : State :=
  if s.announceDue then
    State.each { s with rop := { s.rop with annAt := some s.edge } } (s.ropePorts.filter s.linkUp) fun s n =>
      State.each (s.sendPlain 0xFFFF n s.announceOf) ((s.mgt.image.map (·.seeds)).getD []) fun s ip => s.emit (.announceTo ip n s.announceOf)
  else s

end Sys2Proof.Machine
end

