-- ==== Sys2Proof/Machine/Patrol.lean ====
section
/-!
DEFINITION. Step 5 for CCH and SEQ: entries that become due (R75, R73), destages (R76, R78, R122, R109), and the background passes in the order of
R131: rebuild and catch-up (R123, R440), copy-back (R130), fronds (R143 to R151), scrub (R134 to R137), resynchronisation (R112, R339); the pacing loop
(R132, R133).
-/
namespace Sys2Proof.Machine

/-! ### Becoming due (R75, R73) -/

/-- The gather window of a volume in ticks. -/
def State.window (s : State) (v : BitVec 12) : Nat := (s.attrs v).g

/-- Does every data block of an entry's stripe stand destageable in its bitmap? -/
def State.fullStripe (s : State) (e : GEntry) : Bool :=
  match (s.pool e.pool).bind fun p => p.layout e.layout with
  | some d => decide (e.first.length = layData d) && e.first.all fun b => s.cch.canDestage b.2
  | none => false

/-- Has an OPEN entry reached a condition of R75 or of step 3 of R73? -/
def State.nowDue (s : State) (e : GEntry) : Bool :=
  let g := s.window e.vol
  s.fullStripe e || decide (s.edge ≥ e.e0 + g) || (s.cch.throtVols.contains e.vol && decide (s.edge ≥ e.e0 + ceilDiv g 4))

/-- The window of one entry (R75). -/
def State.windowExpiry (s : State) (pid : BitVec 16) (layout stripe : Nat) : State :=
  match s.cch.gather.find? fun e => e.isOf pid layout stripe with
  | some e => if e.st = .open_ ∧ s.edge ≥ e.e0 + s.window e.vol then { s with cch := s.cch.makeDue pid layout stripe false } else s
  | none => s

/-- Marks every OPEN entry whose time has come. -/
def State.markDue (s : State) : State :=
  s.each (s.cch.gather.filter fun e => e.st == .open_ && s.nowDue e) fun s e => { s with cch := s.cch.makeDue e.pool e.layout e.stripe e.fua }

/-! ### Destages -/

/-- The regions that a stripe's writes touch. -/
def Pool.regionsOf (p : Pool) (lid n : Nat) : List (BitVec 12 × Nat) :=
  match p.layout lid with
  | some d => p.stripeRegions d n
  | none => []

/-- Has a task got anything admitted, or ended already? -/
def State.begun (s : State) (id : Nat) : Bool :=
  match s.task id with
  | some t => !t.reads.isEmpty || decide (t.encN > 0) || t.ph != .reading && t.ph != .encReady
  | none => true

/-- A deferred try leaves the state as it was, but for the marks of R31 and the count of R132. -/
def State.deferredOf (s t : State) : State := { s with sched := t.sched, seq := { s.seq with fgDef := t.seq.fgDef } }

/-- Is a copy unit of this frond stripe ready, so that it goes before a destage (R146)? -/
def State.unitFirst (s : State) (pool : BitVec 16) (layout stripe : Nat) : Bool :=
  s.pools.any fun p => p.cur.frond.any fun f => f.layout == layout && frondHolder f == pool && f.srcPool == p.cur.id &&
    match (s.pool pool).bind fun h => (h.layout layout).map fun d => (h, d) with
    | some (h, d) => p.frOffer.any fun e => belowCursor p.pub.cursor e.1 e.2 && match h.mapVbn d e.1 e.2 with
      | some (n, _, _) => n == stripe
      | none => false
    | none => false

/-- Offers one DUE entry (R76, R77, R436): its destageable blocks are its snapshot, the others move to the second bitmap. One that R122 holds waits for what may
restore its stripe. -/
def State.offerDestage (s : State) (e0 : GEntry) : State :=
  match s.cch.entry e0.pool e0.layout e0.stripe, s.pool e0.pool with
  | some e, some p =>
    match p.layout e.layout with
    | none => s
    | some d =>
      let g := s.geo p d
      let snap := e.first.filter fun b => s.cch.canDestage b.2
      let rest := e.first.filter fun b => !s.cch.canDestage b.2
      let er := p.destErased g e.stripe e
      if e.st ≠ .due ∨ snap.isEmpty ∨ p.cond = .lost ∨ p.yielded ∨ p.offline ∨ s.busy e.pool e.layout e.stripe ∨ e.heldR122 ∨ s.unitFirst e.pool e.layout e.stripe then s
      else if !recoverable d er then
        { s with cch := s.cch.updEntry e.pool e.layout e.stripe fun e => { e with heldR122 := true } }
      else
        let (s, ready) : State × Bool := s.bitsReady e.pool (p.regionsOf e.layout e.stripe)
        if !ready then s
        else
          let begin_ := fun (e : GEntry) => { e with st := .destaging, snap := snap, first := [], second := rest, e0b := e.e0, curFua := e.fua, fua := false
                                                     heldR122 := false, again := false }
          let t : State := { s with cch := s.cch.updEntry e.pool e.layout e.stripe begin_ }
          let t := t.each snap fun s b => s.updSlot b.2 fun sl => { sl with holds := sl.holds + 1 }
          let id := t.seq.nextTask
          let t := (t.newTask .destage e.pool e.layout e.stripe (dirtyOffs d snap) e.badAt).runTask id
          if t.begun id then t else s.deferredOf t
  | _, _ => s

/-- Offers every DUE entry in the order in which they became due. -/
def State.offerDestages (s : State) : State :=
  let due := sortBy (s.cch.gather.filter fun e => e.st == .due) fun a b => decide (a.offered ≤ b.offered)
  s.each due State.offerDestage

/-- Goes on with some of the tasks. -/
def State.runSome (s : State) (f : Task → Bool) : State := s.each ((s.seq.tasks.filter f).map (·.id)) State.runTask

/-- Goes on with the foreground's tasks (R131). -/
def State.runFg (s : State) : State := s.runSome fun t => t.kind.fg

/-! ### Rebuild and catch-up (R123, R440) -/

/-- A stripe of the plan: erasures, whether it is a frond's, layout, stripe, and the catch-up it belongs to. -/
structure PlanItem where
  count  : Nat
  frond  : Bool
  layout : Nat
  stripe : Nat
  back   : Option (Nat × BitVec 12 × Nat)
  deriving DecidableEq, Repr

/-- Is an item admitted before another (R123)? -/
def PlanItem.before (a b : PlanItem) : Bool :=
  decide (a.count > b.count) || (a.count == b.count && ((!a.frond && b.frond) || (a.frond == b.frond && decide (a.stripe ≤ b.stripe))))

/-- The stripes of a pool that its plan covers and that are not held out of it, in the order of R123; none while it is built again. A stripe with strips on FAILED
members is restored whole by one task (R124). -/
def State.planOf (s : State) (p : Pool) : List PlanItem :=
  if p.planAt.isSome then []
  else
    let failed := p.nxt.members.any (fun m => m.state == .failed) || !p.nxt.unrest.isEmpty
    let item := fun (d : LayoutDesc) (n : Nat) (back : Option (Nat × BitVec 12 × Nat)) =>
      (⟨(p.erased (s.geo p d) n).length, p.isFrond d.id, d.id, n, back⟩ : PlanItem)
    let stripes := if !failed then [] else p.cur.layouts.flatMap fun d =>
      let g := s.geo p d
      (List.range (layStripes d)).filterMap fun n => if (p.restore g n).all (p.ownBack g n).contains then none else some (item d n none)
    let backs := p.cuLeft.filterMap fun (m, v, r, lid, n) =>
      if stripes.any fun i => i.layout == lid && i.stripe == n then none else (p.layout lid).map fun d => item d n (some (m, v, r))
    let held := fun (i : PlanItem) => p.held.contains (i.layout, i.stripe) || match p.layout i.layout with
      | some d =>
        let g := s.geo p d
        let er := p.erased g i.stripe
        !recoverable d er && p.mayReturn g i.stripe er
      | none => true
    sortBy ((stripes ++ backs).filter fun i => !held i) PlanItem.before

/-- A stripe that is allocated to no volume is remapped without a read or a write (R440). -/
def State.remapFree (s : State) (p : Pool) (g : Geo) (n : Nat) : State :=
  let t : Task := { id := 0, kind := .rebuild, pool := p.cur.id, layout := g.d.id, stripe := n, offs := [], ph := .writing, reads := [], got := [], bad := []
                    outs := [], spares := [], writes := [], okStrips := [], failed := [], encN := 0, edge := s.edge, injected := false }
  let (s, l) : State × List (Nat × StripAt × Bool) := s.chooseTargets p g t (p.restore g n)
  let t : Task := { t with spares := l.filterMap fun e => if e.2.2 then some (e.1, e.2.1.member, e.2.1.row) else none }
  s.each (l.map (·.1)) fun s x => s.stripDone t x

/-- Offers a stripe: a new task when nothing else is on it; the flag says that it was deferred. -/
def State.offerStripe (s : State) (kind : TaskKind) (p : Pool) (d : LayoutDesc) (n : Nat) (offs : List Nat) : State × Bool :=
  if s.busy p.cur.id d.id n then (s, false)
  else
    let id := s.seq.nextTask
    let t := (s.newTask kind p.cur.id d.id n offs []).runTask id
    if t.begun id then (t, false) else (s.deferredOf t, true)

/-- Every offset of a layout's strips. -/
def allOffs (d : LayoutDesc) : List Nat := List.range (layBs d)

/-- Offers items until one is deferred. -/
def State.offerWhile {α : Type} (s : State) (l : List α) (f : State → α → State × Bool) : State :=
  (l.foldl (fun (acc : State × Bool) a => if acc.2 then acc else f acc.1 a) (s, false)).1

/-- Offers one item of a plan. -/
def State.offerItem (s : State) (pid : BitVec 16) (i : PlanItem) : State × Bool :=
  match (s.pool pid).bind fun p => (p.layout i.layout).map fun d => (p, d) with
  | none => (s, false)
  | some (p, d) =>
    match i.back with
    | some (m, v, r) => s.offerStripe (.catchUp m v r) p d i.stripe (allOffs d)
    | none =>
      if (p.stripeVol d.id i.stripe).isNone then (s.remapFree p (s.geo p d) i.stripe, false)
      else s.offerStripe .rebuild p d i.stripe (allOffs d)

/-- Does SEQ work on a pool: owned, assembled, not Lost (R118)? -/
def Pool.works (p : Pool) : Bool := p.cond != .lost && !p.yielded && !p.offline

/-- Pools that SEQ works on, Critical ones first, then by E_max (R131). -/
def State.ranked (s : State) : List Pool :=
  let rank := fun (p : Pool) => (if p.cond = .critical then 1000 else 0) + p.emax
  sortBy (s.pools.filter Pool.works) fun a b => decide (rank a ≥ rank b)

/-- Rebuild and catch-up of a pool: the tasks in flight, then the stripes of its plan. -/
def State.offerRebuild (s : State) (p : Pool) : State :=
  let s := s.runSome fun t => t.pool == p.cur.id && (match t.kind with
    | .rebuild | .catchUp _ _ _ => true
    | .destage | .recon _ _ _ | .copyBack _ | .copyUnit _ _ | .scrub | .sweep | .mend | .resync _ _ => false)
  match s.pool p.cur.id with
  | none => s
  | some p => s.offerWhile (s.planOf p) fun s i => s.offerItem p.cur.id i

/-! ### Copy-back (R130) -/

/-- Copies remap entries home once the pool has no erased strip; those of unallocated stripes are deleted without a copy. -/
def State.offerCopyBack (s : State) (p : Pool) : State :=
  let back := (List.range p.nxt.members.length).filter fun i => p.memState i == .copyback
  if back.isEmpty || decide (p.emax > 0) || !p.nxt.unrest.isEmpty then s
  else
    let home := fun (e : RemapEnt) => (p.layout e.layout).map fun d => (homeStrip (s.geo p d) e.stripe e.strip).member
    let mine := p.cur.remap.filter fun e => p.nxt.remap.contains e && back.any fun i => home e == some i
    s.offerWhile mine fun s e =>
      match p.layout e.layout with
      | none => (s, false)
      | some d =>
        if (p.stripeVol e.layout e.stripe).isNone then
          (s.updPool p.cur.id fun p => p.change fun m => { m with remap := m.remap.filter (· ≠ e) }, false)
        else s.offerStripe (.copyBack ((home e).getD 0)) p d e.stripe (allOffs d)

/-! ### Fronds -/

/-- The frond of a pool with the pool that holds it and its layout; none once its removal has been asked for. -/
def State.frondParts (s : State) (p : Pool) : Option (FrondMeta × Pool × LayoutDesc) :=
  match p.cur.frond with
  | some f => if f.srcPool = p.cur.id ∧ p.nxt.frond.isSome then (s.pool (frondHolder f)).bind fun h => (h.layout f.layout).map fun d => (f, h, d) else none
  | none => none

/-- Offers a copy unit (R145, R146): blocks with a destageable version come from the cache, the others from the old layout, by reconstruction where it is erased.
DESIGN CHOICE: a version that fails its check is no source; the old layout's block is. -/
def State.offerUnit (s : State) (p h : Pool) (fd : LayoutDesc) (v : BitVec 12) (first : Nat) : State × Bool :=
  match h.mapVbn fd v first, p.volLayout v with
  | some (n, _, _), some d =>
    let g := s.geo p d
    let size := s.unitSize h fd v first
    let old := p.unitStripes v first fd
    if s.busy h.cur.id fd.id n || old.any fun e => s.busy p.cur.id e.1 e.2 then (s, false)
    else
      let (s, ready) : State × Bool := s.bitsReady h.cur.id (h.regionsOf fd.id n)
      if !ready then (s, false)
      else
        let bs := (List.range size).map (first + ·)
        let here := bs.filterMap fun b => (s.cch.newestSafe p.cur.id v b).bind fun k => if p.heldOk v b k then some (b, k) else none
        let there := (bs.filter fun b => !(here.any fun e => e.1 == b)).filterMap fun b => (p.mapVbn d v b).map fun (m, c, o) =>
          (m, readStrip g (p.erased g m) c, o)
        let gone := there.filter fun e => (p.erased g e.1).contains e.2.1
        let live := there.filter fun e => !(p.erased g e.1).contains e.2.1
        let keys := (live.map fun e => (e.1, e.2.1)).eraseDups
        let id := s.seq.nextTask
        let reqs := keys.flatMap fun (m, x) =>
          s.stripReads p g m x (sortedKeys ((live.filter fun e => e.1 == m && e.2.1 == x).map fun e => e.2.2)) (.unitRead id d.id m x) false
        match (s.planReqs reqs).bind fun (l, ch) => if s.qpRoom l then (s.sched.allot (ch ++ [(.fix, here.length)])).map fun sc => (l, sc) else none with
        | none =>
          match s.planReqs reqs with
          | some (_, ch) => ({ s with sched := s.sched.waits (ch ++ [(.fix, here.length)]) }, true)
          | none => (s, true)
        | some (l, sc) =>
          let s : State := { s with sched := sc }
          let s := s.newTask (.copyUnit v first) h.cur.id fd.id n (allOffs fd) []
          let (s, ids) : State × List Nat := s.sendAll l
          let got := here.map fun (b, k) => let (_, c, o) := mapBlock fd b; (c, o, k)
          let s := s.updTask id fun t => { t with reads := ids, got := got }
          let s := s.each gone fun s (m, x, o) => s.newTask (.recon [] (some (id, x, o)) false) p.cur.id d.id m [o] []
          (s.updPool p.cur.id fun p => { p with frOffer := p.frOffer.erase (v, first) }, false)
  | _, _ => (s.updPool p.cur.id fun p => { p with frOffer := p.frOffer.erase (v, first) }, false)

/-- The volume after one under a frond. -/
def frondNext (f : FrondMeta) (v : BitVec 12) : Option (BitVec 12) :=
  let l := (sortBy (f.extents.map (·.1.toNat)) fun a b => decide (a ≤ b)).find? fun x => decide (x > v.toNat)
  l.map (BitVec.ofNat 12)

/-- Moves the cursor past the next unit, in the tick before the unit is offered (R143): the unit, and the cursor after it. -/
def State.nextUnit (p : Pool) (f : FrondMeta) (fd : LayoutDesc) : Option ((BitVec 12 × Nat) × (BitVec 12 × Nat)) :=
  let (v, c) := p.frCur
  let sizeOf := fun (v : BitVec 12) => ((p.vol v).map (·.size)).getD 0
  if c < sizeOf v then some ((v, c), (v, c + layData fd))
  else match frondNext f v with
    | some w => some ((w, 0), (w, layData fd))
    | none => none

/-- At the edge at which the cursor passes a range, dirty slots that are not destageable yet enter the frond's gather entries (R144): no snapshot taken there can
hold them. -/
def State.passRange (s : State) (p h : Pool) (fd : LayoutDesc) (v : BitVec 12) (first : Nat) : State :=
  let size := s.unitSize h fd v first
  let late := s.cch.slots.filter fun (_, sl) => sl.pool == p.cur.id && sl.vol == v && sl.st == .dirty && !sl.destageable && decide (first ≤ sl.vbn) && decide (sl.vbn < first + size)
  s.each late fun s (i, sl) => match h.mapVbn fd v sl.vbn with
    | some (n, _, _) => s.gather h.cur.id v fd.id n (sl.vbn / layData fd) sl.vbn i
    | none => s

/-- Are copy units of a frond waiting or in flight? -/
def State.unitsOpen (s : State) (p : Pool) (lid : Nat) : Bool :=
  !p.frOffer.isEmpty || s.seq.tasks.any fun t => t.layout == lid && (match t.kind with
    | .copyUnit _ _ => true
    | _ => false)

/-- Begins a sweep of the final pass over the stripes marked now, with those that an interrupted one has left (R149). -/
def State.beginSweep (s : State) (pid : BitVec 16) : State :=
  let tail := s.reg .seqFrondTailN
  s.updPool pid fun p =>
    let l := (p.sweep ++ p.frMarks).eraseDups
    let p : Pool := { p with sweep := l, frMarks := [], sweepOn := true, sweepLast := decide (l.length ≤ tail) }
    p.commitFrond .final

/-- Offers the checks of frond stripes (R149, R151). -/
def State.offerSweep (s : State) (h : Pool) (fd : LayoutDesc) (l : List Nat) : State :=
  s.offerWhile l fun s n => s.offerStripe .sweep h fd n (allOffs fd)

/-- Commits the switch-over (R150): with a destination pool its metadata first, then the source's. -/
def State.commitSwitch (s : State) (p h : Pool) (f : FrondMeta) : State :=
  let same := h.cur.id == p.cur.id
  let arrived := h.cur.frond.any fun x => x.phase == .switched
  if !same && !arrived then s.updPool h.cur.id fun q => q.change fun m => { m with frond := m.frond.map fun x => { x with phase := .switched } }
  else s.updPool p.cur.id fun p =>
    let p := p.commitFrond .switched
    if same then p.change fun m => { m with volumes := m.volumes.map fun v => match tget f.extents v.id with
      | some ext => { v with layout := f.layout, extents := ext }
      | none => v }
    else p

/-- Is any read or destage mapped to a layout of a pool in flight? -/
def State.mapped (s : State) (pid : BitVec 16) (lid : Nat) : Bool :=
  (s.seq.tasks.any fun t => t.pool == pid && t.layout == lid) || (s.mbr.cmds.any fun c => c.pool == pid && (match c.purpose with
    | .read _ l _ _ => l == lid
    | .unitRead _ l _ _ => l == lid
    | _ => false)) || s.cch.gather.any fun e => e.pool == pid && e.layout == lid && e.st == .destaging

/-- Releases the old layout when its residue is checked and nothing is mapped to it (R151). -/
def State.releaseOld (s : State) (p : Pool) (f : FrondMeta) : State :=
  match p.oldLayout with
  | none => s
  | some lid =>
    if !p.residue.isEmpty || s.mapped p.cur.id lid then s
    else
      let s := s.updPool p.cur.id fun p => p.change fun m =>
        { m with layouts := m.layouts.filter (fun d => d.id ≠ lid), remap := m.remap.filter (fun e => e.layout ≠ lid), frond := none }
      if frondHolder f = p.cur.id then s else s.updPool (frondHolder f) fun q => q.change fun m => { m with frond := none }

/-- May a paused frond resume (R148)? -/
def State.mayResume (s : State) (p h : Pool) (f : FrondMeta) : Bool :=
  let away := fun (q : Pool) => (List.range q.nxt.members.length).any fun i =>
    (q.memState i == .missing || q.memState i == .returning) && s.frondHas p f q.cur.id i
  !away p && !away h && p.cond != .lost && (s.planOf p).isEmpty && (s.planOf h).isEmpty && p.planAt.isNone && h.planAt.isNone

/-- Step 5 for a pool's frond. -/
def State.stepFrond (s : State) (p : Pool) : State :=
  match s.frondParts p with
  | none => s
  | some (f, h, fd) =>
    if p.frCancel.any fun e => decide (s.edge > e) then s.stopFrond p.cur.id f
    else match (p.nxt.frond.map (·.phase)).getD f.phase with
    | .copying =>
      let pub := p.frOffer.filter fun e => belowCursor p.pub.cursor e.1 e.2
      let s := s.offerWhile pub fun s e => match s.pool p.cur.id, s.pool h.cur.id with
        | some p, some h => s.offerUnit p h fd e.1 e.2
        | _, _ => (s, true)
      match s.pool p.cur.id with
      | none => s
      | some q =>
        if !q.frOffer.isEmpty then s
        else match State.nextUnit q f fd with
          | some (u, cur) => s.updPool p.cur.id fun p => { p with frCur := cur, frOffer := p.frOffer ++ [u] }
          | none => if s.unitsOpen q fd.id then s else s.beginSweep p.cur.id
    | .paused fromFinal =>
      if s.mayResume p h f then
        if fromFinal then s.beginSweep p.cur.id else s.updPool p.cur.id fun p => p.commitFrond .copying
      else s
    | .final =>
      if !p.sweepOn then s.beginSweep p.cur.id
      else if !p.sweep.isEmpty then s.offerSweep h fd p.sweep
      else if s.seq.tasks.any fun t => t.layout == fd.id && t.kind == .sweep then s
      else if p.sweepLast then s.commitSwitch p h f
      else s.beginSweep p.cur.id
    | .switched => if f.phase = .switched then s.releaseOld p f else s

/-- The checks of a pool's residue, ahead of its other background work (R151). -/
def State.offerResidue (s : State) (p : Pool) : State :=
  match s.frondParts p with
  | some (f, h, fd) =>
    if f.phase = .switched then (s.runSome fun t => t.pool == h.cur.id && t.layout == fd.id && t.kind == .sweep).offerSweep h fd p.residue else s
  | none => s

/-- Step 1: the units whose ranges the cursor passes with this publication (R143, R144). -/
def State.passCursors (s : State) : State :=
  { s with pools := s.pools.map fun p => { p with passing := p.frOffer.filter fun e => belowCursor p.frCur e.1 e.2 && !belowCursor p.pub.cursor e.1 e.2 } }

/-- At step 5 of the same edge, late slots of those ranges go into the frond's entries (R144). -/
def State.passSlots (s : State) : State :=
  s.each s.pools fun s p =>
    let s := match s.frondParts p with
      | some (_, h, fd) => s.each p.passing fun s e => s.passRange p h fd e.1 e.2
      | none => s
    s.updPool p.cur.id fun p => { p with passing := [] }

/-! ### Scrub (R134 to R137) -/

/-- The allocated stripes of a pool in cycle order: layout, stripe; the frond's layout is left out (R147), and after the switch the old one. -/
def Pool.scrubList (p : Pool) : List (Nat × Nat) :=
  (sortedKeys ((p.cur.layouts.filter fun d => !p.isFrond d.id && p.oldLayout != some d.id).map (·.id))).flatMap fun lid =>
    match p.layout lid with
    | none => []
    | some d => ((List.range (layStripes d)).filter fun n => (p.stripeVol lid n).isSome).map fun n => (lid, n)

/-- The deadline of a cycle (R134). -/
def State.scrubDeadline (s : State) (sc : ScrubMeta) : Nat := sc.startEdge + sc.period * 86400000000000 / s.periodNs

/-- The stripe of a cycle from a position on: the next allocated stripe, then the metadata zones of the journal members (R134). -/
def Pool.scrubNext (p : Pool) (l : List (Nat × Nat)) (pos : Nat × Nat) : Option (Nat × Nat) :=
  match l.find? fun e => decide (e.1 > pos.1) || (e.1 == pos.1 && decide (e.2 ≥ pos.2)) with
  | some e => some e
  | none =>
    let k := if pos.1 = 65536 then pos.2 else 0
    if k < p.cur.jms.length then some (65536, k) else none

/-- Starts the next cycle when the one before has ended and its deadline has come, at the earliest at the edge after its end (R134). DESIGN CHOICE: the first
cycle of a pool starts at the first edge at which scrub works on it. -/
def State.scrubStart (s : State) (p : Pool) : State :=
  let go := fun (n : Nat) => s.updPool p.cur.id fun p =>
    let sc : ScrubMeta := { cycle := n, startEdge := s.edge, period := p.cur.scrubDays, total := p.scrubList.length + p.cur.jms.length, cursor := 0, pos := (0, 0)
                            endEdge := 0, repaired := 0, parity := 0, unresolved := 0, late := false, takeover := false }
    { (p.change fun m => { m with scrub := some sc }) with scrubRun := some sc, scrubOff := 0, scrubPos := (0, 0), scrubRedo := [] }
  match p.scrubRun with
  | some _ => s
  | none => match p.nxt.scrub with
    | none => go 1
    | some sc => if s.edge ≥ s.scrubDeadline sc ∧ s.edge > sc.endEdge then go (sc.cycle + 1) else s

/-- Stripes that are due at this edge (R134). -/
def State.scrubDue (s : State) (sc : ScrubMeta) : Nat :=
  let span := s.scrubDeadline sc - sc.startEdge
  min sc.total (ceilDiv (sc.total * (s.edge - sc.startEdge + 1)) span)

/-- Offers one stripe of a cycle, or the metadata zone of a journal member (R134). DESIGN CHOICE: of a zone, scrub reads what every journal member holds alike:
the bitmap, both metadata copies and the cold journal in use. -/
def State.scrubOne (s : State) (pid : BitVec 16) (l : List (Nat × Nat)) : State × Bool :=
  match s.pool pid with
  | none => (s, true)
  | some p =>
    let moved := fun (e : Nat × Nat) (s : State) => s.updPool pid fun p => { p with scrubOff := p.scrubOff + 1, scrubPos := (e.1, e.2 + 1) }
    match p.scrubRedo with
    | (lid, n) :: rest =>
      match p.layout lid with
      | none => (s.updPool pid fun p => { p with scrubRedo := rest }, false)
      | some d =>
        if s.busy pid lid n then (s, true)
        else
          let (t, deferred) : State × Bool := s.offerStripe .scrub p d n (allOffs d)
          if deferred then (t, true) else (t.updPool pid fun p => { p with scrubRedo := rest }, false)
    | [] =>
      match p.scrubNext l p.scrubPos with
      | none => (s, true)
      | some (lid, n) =>
        match p.layout lid with
        | none =>
          let jm := p.cur.jms.getD n 0
          if p.zscan.isSome then (s, true)
          else (moved (lid, n) (s.updPool pid fun p =>
            { p with zscan := some { src := jm, dst := jm, cursor := 0, total := copyTotal, n := 0, scan := true, stale := false, tried := [], bad := [] } }), false)
        | some d =>
          if s.busy pid lid n then (s, true)
          else
            let (t, deferred) : State × Bool := s.offerStripe .scrub p d n (allOffs d)
            if deferred then (t, true) else (moved (lid, n) t, false)

/-- Are stripes of a pool's cycle in flight? -/
def State.scrubBusy (s : State) (p : Pool) : Bool :=
  p.zscan.isSome || !p.scrubRedo.isEmpty || s.seq.tasks.any fun t => t.pool == p.cur.id && t.kind == .scrub

/-- Are scrub tasks in flight on any of some pools? An orderly stop waits for them (R137). -/
def State.scrubbing (s : State) (pids : List (BitVec 16)) : Bool := s.seq.tasks.any fun t => pids.contains t.pool && t.kind == .scrub

/-- Is the module about to stop in order, so that scrub offers nothing more (R137)? -/
def State.stopping (s : State) : Bool := s.mgt.activate.isSome || s.rop.yielding.isSome

/-- The end of a cycle (R136): SCRUB_CYCLE_END, SCRUB_LATE after the deadline, and a body for TRU. -/
def State.scrubEnd (s : State) (pid : BitVec 16) : State :=
  match s.pool pid with
  | none => s
  | some p =>
    match p.scrubRun with
    | none => s
    | some sc =>
      if s.scrubBusy p || (p.scrubNext p.scrubList p.scrubPos).isSome then s
      else
        let late := decide (s.edge > s.scrubDeadline sc)
        let sc : ScrubMeta := { sc with late := late, pos := p.scrubPos, endEdge := s.edge }
        let lid := (p.cur.volumes.head?.map (·.layout)).getD ((p.cur.layouts.head?.map (·.id)).getD 0)
        let body := s.virekOf p sc lid
        let s := s.updPool pid fun p => { (p.change fun m => { m with scrub := some sc }) with scrubRun := none, scrubOff := 0, scrubPos := (0, 0), scrubRedo := [] }
        let s := s.iff late fun s => s.log .scrubLate 3 pid.toNat pid sc.cycle
        let s := s.log .scrubCycleEnd 3 pid.toNat pid sc.cycle
        { s with tru := { s.tru with reqs := s.tru.reqs ++ [.virek pid body] } }

/-- Step 5 for a pool's scrub. DESIGN CHOICE: its cursor is committed at every 65,536th stripe when the stripes before are all checked, and no further one is
offered before, so that no count is added twice (R137); a cycle goes on to the last stripe allocated, its pace being that of the N_c stripes counted at its
start. -/
def State.stepScrub (s : State) (p : Pool) : State :=
  if !p.cur.scrubEn then s
  else
    let s := (s.scrubEnd p.cur.id)
    match s.pool p.cur.id with
    | none => s
    | some p =>
      let s := s.scrubStart p
      match s.pool p.cur.id with
      | none => s
      | some p =>
        match p.scrubRun with
        | none => s
        | some sc =>
          if p.pub.rebuilding then s
          else
            let due := s.scrubDue sc
            let l := p.scrubList
            let rest := if due = sc.total then l.length + p.cur.jms.length else due
            let room := 65536 - p.scrubOff % 65536
            let held := s.stopping || (p.scrubOff > 0 && p.scrubOff % 65536 == 0 && decide (sc.cursor < p.scrubOff))
            let n := if held then p.scrubRedo.length else min (rest - (p.scrubOff - p.scrubRedo.length)) (room + p.scrubRedo.length)
            (s.offerWhile (List.replicate n l) fun s l => s.scrubOne p.cur.id l).stepCopy p true

/-! ### Resynchronisation (R112, R339) -/

/-- Stripes of a dirty region, with the offsets at which a block lies in it. -/
def Pool.resyncOffs (p : Pool) (d : LayoutDesc) (n : Nat) (v : BitVec 12) (r : Nat) : List Nat :=
  match p.stripeVol d.id n with
  | some (w, sv) =>
    if w = v then (allOffs d).filter fun o => (List.range (layK d)).any fun c => decide (blockAt d sv c o / p.regionBlocks = r) else []
  | none => []

/-- Every stripe of a pool's dirty regions (R147: of either layout). -/
def Pool.resyncList (p : Pool) (regs : List (BitVec 12 × Nat)) : List (BitVec 12 × Nat × Nat × Nat) :=
  regs.flatMap fun (v, r) => p.cur.layouts.flatMap fun d =>
    (List.range (layStripes d)).filterMap fun n => if (p.resyncOffs d n v r).isEmpty then none else some (v, r, d.id, n)

/-- Offers the stripes that a resynchronisation still has to examine. -/
def State.offerResync (s : State) (p : Pool) : State :=
  s.offerWhile p.rsLeft fun s (v, r, lid, n) =>
    match p.layout lid with
    | some d => s.offerStripe (.resync v r) p d n (p.resyncOffs d n v r)
    | none => (s, false)

/-- A pool whose resynchronisation has covered every region returns to service; the state is published at the next edge (R339). -/
def State.resyncEnd (s : State) (pid : BitVec 16) : State :=
  match s.pool pid with
  | none => s
  | some p => if p.offline && !p.unassembled && p.resync.isEmpty && p.rsLeft.isEmpty && p.cur.commit > 0 then s.updPool pid fun p => { p with offline := false } else s

/-! ### Pacing (R132, R133) -/

/-- Pools with background work. -/
def State.bgPools (s : State) : List Pool :=
  s.pools.filter fun p => p.works && (p.pub.rebuilding || p.pub.copyback || p.cur.frond.isSome || s.seq.tasks.any fun t => t.pool == p.cur.id && !t.kind.fg)

/-- The share of the coming tick (R132), with the records of R133. -/
def State.pace (s : State) : State :=
  let lats := s.seq.lats.filter fun e => decide (e.1 + 16 > s.edge)
  let low := decide ((lats.map (·.2)).foldl (· + ·) 0 ≤ s.reg .seqPaceLatTicks * lats.length)
  let sh := s.seq.share
  let want := if s.seq.fgDef = 0 ∧ low then sh + 4 else sh - ceilDiv sh 4
  let bg := s.bgPools
  let fl := s.reg .seqPaceFloor
  let ce := s.reg .seqPaceCeil
  let hi := if bg.any fun p => p.cond == .critical then max ce (s.reg .seqPaceCrit) else ce
  let now := max fl (min hi want)
  let floorHeld := decide (want < fl)
  let raised := decide (now > ce)
  let s : State := { s with seq := { s.seq with share := now, fgDef := 0, lats := lats, floorHeld := floorHeld, critRaise := raised } }
  let s := s.each (if floorHeld then bg.filter fun p => !p.floorLogged else []) fun s p =>
    (s.updPool p.cur.id fun p => { p with floorLogged := true }).log .paceFloorHeld 3 p.cur.id.toNat p.cur.id now
  s.each (if raised && decide (sh ≤ ce) then bg.filter fun p => p.cond == .critical && !p.raiseLogged else []) fun s p =>
    (s.updPool p.cur.id fun p => { p with raiseLogged := true }).log .paceCriticalRaise 3 p.cur.id.toNat p.cur.id now

/-! ### The background pass (R131) -/

/-- Background work in the order of R131. DESIGN CHOICE: within a rank what is in flight goes on before what is new, and resynchronisation, which the rule does not
name, ranks before scrub. -/
def State.background (s : State) : State :=
  let s := s.each s.ranked fun s p => (s.offerResidue p).offerRebuild p
  let s := s.runSome fun t => match t.kind with
    | .copyBack _ => true
    | .destage | .recon _ _ _ | .rebuild | .catchUp _ _ _ | .copyUnit _ _ | .scrub | .sweep | .mend | .resync _ _ => false
  let s := s.each (s.pools.filter Pool.works) State.offerCopyBack
  let s := s.runSome fun t => match t.kind with
    | .copyUnit _ _ | .sweep | .mend => true
    | .destage | .recon _ _ _ | .rebuild | .catchUp _ _ _ | .copyBack _ | .scrub | .resync _ _ => false
  let s := s.each (s.pools.filter Pool.works) State.stepFrond
  let s := s.runSome fun t => match t.kind with
    | .scrub | .resync _ _ => true
    | .destage | .recon _ _ _ | .rebuild | .catchUp _ _ _ | .copyBack _ | .copyUnit _ _ | .sweep | .mend => false
  let s := s.each (s.pools.filter fun p => p.offline && !p.yielded) State.offerResync
  s.each (s.pools.filter Pool.works) State.stepScrub

/-! ### Meanings of the rows -/

/-- GATHER_WINDOW_EXPIRY (R75). -/
def execGatherWindowExpiry (pool : BitVec 16) (layout stripe : Nat) (s : State) : Host.Outcome State Fault Refusal :=
  .next (s.clr.windowExpiry pool layout stripe)

/-- BITMAP_QUIET_EXPIRY (R109). -/
def execBitmapQuietExpiry (pool : BitVec 16) (vol : BitVec 12) (region : Nat) (s : State) : Host.Outcome State Fault Refusal :=
  .next (s.clr.quietExpiry pool vol region)

/-- SCRUB_CYCLE_END (R136). -/
def execScrubCycleEnd (pool : BitVec 16) (s : State) : Host.Outcome State Fault Refusal := .next (s.clr.scrubEnd pool)

/-- RESYNC_COMPLETE (R339). -/
def execResyncComplete (pool : BitVec 16) (s : State) : Host.Outcome State Fault Refusal := .next (s.clr.resyncEnd pool)

/-- JOURNAL_RELOCATION (R93). -/
def execJournalRelocation (s : State) : Host.Outcome State Fault Refusal := .next s.clr.relocate

/-- MISSING_TIMER_EXPIRY (R119). -/
def execMissingTimerExpiry (pool : BitVec 16) (idx : Nat) (s : State) : Host.Outcome State Fault Refusal := .next (s.clr.missingExpiry pool idx)

end Sys2Proof.Machine
end

