-- ==== Sys2Proof/Machine/Recover.lean ====
section
/-!
DEFINITION. Bringing pools into service: assembly from committed metadata (R105, R119, R152, R337), and the recovery of unretired writes from a
journal copy (R113, R114) or by bitmap resynchronisation (R112, R339).
-/
namespace Sys2Proof.Machine

/-! ### Journal copies (R114) -/

/-- The ticks of the journal ring: each seal with the records it counts (R91). -/
def ringTicks (ring : List (Nat × JRec)) : List (SealRec × List (BitVec 32 × JRec)) :=
  ring.filterMap fun e => match e.2 with
    | .sealed r => some (r, (List.range r.count.toNat).filterMap fun i =>
        (tget ring ((r.first.toNat + i) % ringSize)).map fun x => (r.first + w32 i, x))
    | .intent _ | .retire _ => none

/-- A tick whose seal is present and passes both CRCs (R114): its own, and that of the records. -/
def tickGood (t : SealRec × List (BitVec 32 × JRec)) : Bool :=
  sealOwnOk t.1 && decide (t.2.length = t.1.count.toNat) && decide (recsCrc (t.2.map (·.2)) = t.1.crc)

/-- The ticks of a copy that replay takes, in tick order. -/
def goodTicks (c : JournalCopy) : List (SealRec × List (BitVec 32 × JRec)) :=
  sortBy (c.ticks.filter tickGood) fun a b => decide (a.1.tick.toNat ≤ b.1.tick.toNat)

/-- The last sealed tick of a copy. -/
def lastTick (c : JournalCopy) : Nat := ((goodTicks c).map fun t => t.1.tick.toNat).foldl max 0

/-- The records of a copy that replay takes, in record order within each tick. -/
def copyRecs (c : JournalCopy) : List (BitVec 32 × JRec) := (goodTicks c).flatMap (·.2)

/-- The numbers that the retire records of a list name (R90). -/
def retiredNos (rs : List (BitVec 32 × JRec)) : List (BitVec 32) :=
  rs.flatMap fun e => match e.2 with
    | .retire l => l
    | .intent _ | .sealed _ => []

/-- The intent records of a list that no retire record of it names. -/
def unretired (rs : List (BitVec 32 × JRec)) : List Intent :=
  let gone := retiredNos rs
  rs.filterMap fun e => match e.2 with
    | .intent r => if gone.contains e.1 then none else some r
    | .retire _ | .sealed _ => none

/-- R95's check of a slot on replay: volume id, a block number within the run, and the generation. -/
def replayFits (r : Intent) (b : Block) : Bool :=
  b.foot.vol == r.vol && b.foot.gen == r.gen && decide (r.vbn.toNat ≤ b.foot.vbn.toNat) && decide (b.foot.vbn.toNat < r.vbn.toNat + r.count)

/-- The slot that a replayed block takes: its own when nothing else uses it, else the lowest that is free. -/
def replaySlot (used : List Nat) (i : Nat) : Nat := if used.contains i then (lowestFree used 0 (used.length + 1)).getD i else i

/-- Loads one unretired intent record's blocks into dirty slots (R114). They are destageable: their writes were secured. In a takeover they stay in
their slots of the belay receive area, numbered above the local ones (R304). The record enters this module's own journal anew. -/
def State.loadIntent (s : State) (pid : BitVec 16) (area : Bool) (blocks : List (Nat × Block)) (r : Intent) : State :=
  match s.pool pid with
  | none => s
  | some p =>
    match p.volLayout r.vol with
    | none => s
    | some d =>
      let found := (List.range r.count).filterMap fun i => (tget blocks (r.slot.toNat + i)).bind fun b =>
        if replayFits r b then some (r.slot.toNat + i, b) else none
      let load := fun (acc : State × List (Nat × Nat)) (e : Nat × Block) =>
        let s := acc.1
        let k := if area then s.cch.dirtySlots + e.1 else replaySlot (s.cch.slots.map (·.1)) e.1
        let b := e.2.foot.vbn.toNat
        let sl : Slot := { pool := pid, vol := r.vol, vbn := b, gen := r.gen.toNat, blk := some e.2, st := .dirty, destageable := true, mirror := area
                           holds := 0, entries := 0, freeTick := none, unreadable := false, cmd := 2 ^ 64 }
        let s : State := { s with cch := { s.cch with slots := tset s.cch.slots k sl } }
        let dual := r.flags.getLsbD 1 && (p.cur.frond.any fun f => belowCursor (f.vol, f.vbn) r.vol b)
        let s := if dual then s.gatherBlk p d r.vol b k else s.gatherOld p d r.vol b k
        (s.supersede pid r.vol b k, acc.2 ++ [(b, k)])
      let (s, placed) : State × List (Nat × Nat) := found.foldl load (s, [])
      let s := s.each (sliceRuns (layBs d) placed) fun s run => s.appendIntent r.flags.toNat r.vol r.gen.toNat r.acc.toNat run
      s.updPool pid fun p => p.updRun r.vol fun v => v.resume (r.gen.toNat + 1)

/-- Replays a journal copy for the volumes of a pool (R114). -/
def State.replay (s : State) (pid : BitVec 16) (area : Bool) (c : JournalCopy) : State :=
  State.freeSuperseded (s.each (unretired (copyRecs c)) fun s r => s.loadIntent pid area c.blocks r)

/-! ### Assembly (R119, R337) -/

/-- The state in which a member enters at POOL_ASSEMBLY (R119). -/
def stateAt (reachable : Bool) (st : MemSt) : MemSt :=
  match st with
  | .failed => .failed
  | .copyback => .copyback
  | .missing | .returning => if reachable then .returning else .missing
  | .active | .standby => if reachable then .active else .missing

/-- The power state in which a volume enters: a transition does not outlive the restart. -/
def powerAt (p : VPower) : VPower :=
  match p with
  | .entering | .waking => .active
  | .active => .active
  | .idle => .idle
  | .standby => .standby

/-- A pool as POOL_ASSEMBLY puts it together from committed metadata: member states by R119 (DESIGN CHOICE: the missing timer of a member that is then RETURNING
counts from there), generations at the committed limits (R163), the frond in
its committed state (R152), the scrub cycle at its committed counts (R137). -/
def Pool.assembled (m : PoolMeta) (secret : BitVec 256) (reach : List Bool) (edge : Nat) (taken : Bool) : Pool :=
  let n := m.members.length
  let ms := (List.range n).map fun i =>
    let r := m.members.getD i ⟨0, .failed⟩
    { r with state := stateAt (reach.getD i false) r.state }
  let away := (List.range n).filter fun i => decide ((ms[i]?).map (·.state) = some MemSt.missing ∨ (ms[i]?).map (·.state) = some MemSt.returning)
  let p := Pool.fresh m secret
  let fr := match m.frond with
    | some f => if f.srcPool = m.id then some f else none
    | none => none
  let cur := (fr.map fun f => (f.vol, f.vbn)).getD (0, 0)
  let sw := (fr.map fun f => f.phase == .switched).getD false
  let marks := (fr.map (·.marks)).getD []
  { p with
    cur := m
    nxt := { m with members := ms }
    plan := ms.any fun r => r.state == .failed
    missAt := away.map fun i => (i, edge + 1)
    vols := m.volumes.map fun v => { VolRun.assembled v with power := powerAt v.power }
    pub := { p.pub with members := ms.map (·.state), cursor := cur }
    frCur := cur
    frMarks := if sw then [] else marks
    residue := if sw then marks else []
    oldLayout := if sw then (m.layouts.find? fun d => some d.id ≠ fr.map (·.layout)).map (·.id) else none
    scrubRun := m.scrub.bind fun c => if c.endEdge > 0 then none else some { c with takeover := c.takeover || taken }
    scrubOff := (m.scrub.map (·.cursor)).getD 0
    scrubPos := (m.scrub.map (·.pos)).getD (0, 0) }

/-- The pool's secret, unwrapped under the rope storage key (R159). -/
def State.poolSecret (s : State) (m : PoolMeta) : Option (BitVec 256) :=
  s.tru.kr.bind fun kr => if keyCheck kr = m.krCheck then kwpUnwrap kr m.wrapped else none

/-- Do the blocks of a metadata copy all verify (R105, R43)? They lie in the area of its commit number; without the pool's secret, the checks that need
no key are made. -/
def State.copyOk (s : State) (c : MetaCopy) : Bool :=
  !c.blks.isEmpty && c.blks.all fun e =>
    decide (copyLba c.content.commit ≤ e.1) && decide (e.1 < copyLba c.content.commit + metaArea) && (match s.poolSecret c.content with
      | some k => zoneOk k e.1 e.2
      | none => zoneFoot e.1 e.2)

/-- The copy with the highest commit number whose blocks all verify (R105). -/
def State.bestCopy (s : State) (l : List MetaCopy) : Option PoolMeta :=
  (firstBest (fun (c : MetaCopy) => c.content.commit) (l.filter s.copyOk)).map (·.content)

/-- Puts a pool among those that this module owns. -/
def State.addPool (s : State) (p : Pool) : State := { s with pools := s.pools.filter (fun q => q.cur.id ≠ p.cur.id) ++ [p] }

/-- A pool that fails POOL_ASSEMBLY (R337): its volumes are offline, and the module goes on with its other pools. -/
def State.assemblyFail (s : State) (m : PoolMeta) : State :=
  (s.addPool { Pool.assembled m 0 [] s.edge false with offline := true, unassembled := true }).log .poolAssemblyFail 3 m.id.toNat m.id

/-- Assembles one pool of this module from its metadata; each layout's domain exposure is logged as at creation (R58). -/
def State.assemble (s : State) (m : PoolMeta) (reach : List Bool) (taken : Bool) : State :=
  match s.poolSecret m with
  | none => s.log .keyUnavailable 3 m.id.toNat m.id
  | some k => s.addPool (Pool.assembled m k reach s.edge taken)

/-- The rope address in a reservation key (R278). -/
def keyAddr (k : BitVec 64) : BitVec 12 := BitVec.ofNat 12 (k.toNat / 2 ^ 20)

/-- Is a pool served by the partner: does the holder's key carry its address (R279)? -/
def State.heldByPartner (s : State) (holder : Option (BitVec 64)) : Bool :=
  match holder, s.partnerAddr with
  | some k, some a => keyAddr k == a
  | _, _ => false

/-- The labels cause of R271: an image member whose label names this pool's index of a member that was replaced, or another pool, is refused. -/
def State.checkLabels (s : State) (m : PoolMeta) : State :=
  s.each s.mbr.members fun s x => match x.label with
    | some (pid, i) =>
      if pid = m.id ∧ (m.members[i]?).map (·.img) ≠ some x.num then
        ((s.updImg x.num fun x => { x with refused := some 7, admitted := false }).log .memberRefused 9 x.num m.id 7).bump .mbrRefusedCntN
      else s
    | none => s

/-- Can an image member be reached now? -/
def State.reachImg (s : State) (num : Nat) : Bool :=
  s.mbr.members.any fun m => m.num == num && m.admitted && m.unreach.isNone && !(s.upPorts m).isEmpty

/-- Registers with every member of a pool that can be reached (R278). -/
def State.registerAll (s : State) (m : PoolMeta) : State :=
  s.each (List.range m.members.length) fun s i =>
    match (m.members[i]?).bind fun r => s.mbr.members.find? fun x => x.num == r.img with
    | none => s
    | some x =>
      match (s.upPorts x).head? with
      | none => s
      | some port =>
        let r : MReq := { pool := m.id, idx := i, op := .register, lba := 0, offs := [], count := 0, blks := [], purpose := .other, fg := false }
        (State.updImg ((s.chargeAlways (reqCharges port r)).send r x.num port) x.num) fun x => { x with resvReg := true }

/-- A pool without current metadata fails POOL_ASSEMBLY (R337). -/
def State.noMeta (s : State) (pid : BitVec 16) : State := s.log .poolAssemblyFail 3 pid.toNat pid

/-- POOL_ASSEMBLY of what was read of one pool (R337, R279, R159). The partner serves a pool whose reservation it holds. -/
def State.takePool (s : State) (r : PoolRead) : State :=
  match s.bestCopy r.copies with
  | none => s.iff (!s.heldByPartner r.holder) fun s => s.noMeta r.id
  | some m =>
    if s.heldByPartner r.holder then State.registerAll { s with rop := { s.rop with known := s.rop.known.filter (fun x => x.id ≠ m.id) ++ [m] } } m
    else
      let s := s.checkLabels m
      if (s.poolSecret m).isNone then (s.log .keyUnavailable 3 m.id.toNat m.id).assemblyFail m
      else if !(m.layouts.all layAssembles) then s.assemblyFail m
      else
        let reach := (List.range m.members.length).map fun i => r.reachable.getD i false && ((m.members[i]?).map fun x => s.reachImg x.img).getD false
        let s := s.assemble m reach false
        let req := fun (op : MOp) (i : Nat) =>
          ({ pool := m.id, idx := i, op := op, lba := 0, offs := [], count := 0, blks := [], purpose := .other, fg := false } : MReq)
        let all := List.range m.members.length
        (s.registerAll m).sendNow (all.map (req .acquire)) |>.1

/-- A switch-over to a destination pool that a stop cut in two is completed from the destination's record (R150). -/
def State.finishSwitches (s : State) : State :=
  s.each s.pools fun s h => match h.cur.frond with
    | some f =>
      if f.dstPool = h.cur.id ∧ f.phase = .switched then
        s.updPool f.srcPool fun p => p.change fun m => { m with frond := m.frond.map fun x => { x with phase := .switched } }
      else s
    | none => s

/-- Assembles every pool read (R337). -/
def State.assemblePools (s : State) (rs : List PoolRead) : State := (s.each rs State.takePool).finishSwitches

/-! ### Reconciliation (R113, R339) -/

/-- The journal copy of the own vault flush that was loaded (R371). -/
def State.ownCopy (s : State) : Option JournalCopy :=
  (s.vlt.loaded.bind fun a => (s.vlt.areas.getD a none)).bind fun f =>
    match f.jnl, f.cch with
    | some j, some c => some ⟨ringTicks j.ring, c.slots.filterMap fun e => e.2.blk.map fun b => (e.1, b)⟩
    | _, _ => none

/-- The cold journal that was read, when its blocks verify (R43). -/
def Pool.coldCopy (p : Pool) (i : ReconInfo) : Option JournalCopy :=
  match i.cold with
  | some (c, blks) => if blks.all fun e => zoneOk p.secret e.1 e.2 then some c else none
  | none => none

/-- The source of R113 for a pool that this module owns: the later sealed copy, its own when both are equal, then the cold journal. -/
def State.source (s : State) (p : Pool) (i : ReconInfo) : Option (JournalCopy × Bool) :=
  let live := p.cur.volumes.any fun v => v.attrs.solo == 2
  match s.ownCopy, i.mirror with
  | some a, some b => some (if lastTick b > lastTick a then b else a, true)
  | some a, none => some (a, true)
  | none, some b => some (b, true)
  | none, none => match p.coldCopy i with
    | some c => if i.coldMark || live then some (c, i.coldMark) else none
    | none => none

/-- Catch-up of the members that return, over dirty regions of the bitmap (R120). -/
def State.catchUpBack (s : State) (pid : BitVec 16) (dirty : List (BitVec 12 × Nat)) : State :=
  match s.pool pid with
  | none => s
  | some p0 =>
    s.each ((List.range p0.nxt.members.length).filter fun k => p0.memState k == .returning) fun s k => match s.pool pid with
      | some p =>
        let left := dirty.flatMap fun e => s.regionStripes p e.1 e.2 k
        (s.updPool pid fun p => { p with
          catchup := p.catchup ++ (dirty.filter fun e => left.any fun x => x.2.1 == e.1 && x.2.2.1 == e.2).map fun e => (k, e.1, e.2)
          cuLeft := p.cuLeft ++ left }).catchUpEnd pid k
      | none => s

/-- Reconciles one pool: its bitmap, catch-up of members that return (R120), the replay of its source, and resynchronisation of the dirty regions that
the source does not cover (R114, R339). DESIGN CHOICE: JOURNAL_LOST (R115, cases 5 and 12) is logged where the image declares a partner: whether the module
was belayed when it stopped is not recorded anywhere. -/
def State.reconcilePool (s : State) (i : ReconInfo) : State :=
  match s.pool i.pool with
  | none => s.iff ((s.ownCopy).isSome && s.rop.known.any fun m => m.id == i.pool) fun s => s.log .bivouacDiscarded 3 i.pool.toNat i.pool
  | some p =>
    if p.unassembled then s
    else
      let dirty := p.mapDirty i.bitmaps
      let s := s.updPool i.pool fun p => { p with bitmap := dirty.map fun e => ⟨e.1, e.2, .isSet, true, s.edge⟩ }
      let s := s.catchUpBack i.pool dirty
      let src := s.source p i
      let s := match src with
        | some (c, _) => s.replay i.pool false c
        | none => s
      let cold := fun (v : BitVec 12) => ((p.vol v).map fun m => m.attrs.solo) == some 2
      let bare := match src with
        | some (_, true) => []
        | some (_, false) => dirty.filter fun e => !cold e.1
        | none => dirty
      let s := s.iff (src.isNone && s.partnerAddr.isSome && !dirty.isEmpty) fun s => s.log .journalLost 3 i.pool.toNat i.pool dirty.length
      s.iff (!bare.isEmpty) fun s => s.updPool i.pool fun p => { p with offline := true, resync := bare, rsLeft := p.resyncList bare }

/-- JOURNAL_RECONCILE (R113). -/
def State.reconcile (s : State) (is : List ReconInfo) : State := s.each is State.reconcilePool

/-! ### Takeover (R304) -/

/-- Steps 1 to 3 of R304 for one pool: its secret, its metadata and the replay of the journal mirror. Its dirty-region bitmap is the one on its
journal members (R111). -/
def State.takeOver (s : State) (t : Takeover) : State :=
  match s.bestCopy t.got with
  | none => s
  | some m =>
    match s.poolSecret m with
    | none => s.log .keyUnavailable 3 m.id.toNat m.id
    | some k =>
      let reach := m.members.map fun r => s.reachImg r.img
      let p := Pool.assembled m k reach s.edge true
      let dirty := p.mapDirty (t.maps.map (·.2))
      let s := s.addPool { p with bitmap := dirty.map fun e => ⟨e.1, e.2, .isSet, true, s.edge⟩ }
      let s := s.replay m.id true ⟨s.rop.mirror, s.rop.recv⟩
      s.catchUpBack m.id dirty

end Sys2Proof.Machine
end

