-- ==== Sys2Proof/Machine/Belay.lean ====
section
/-!
DEFINITION. Belay between partners: set-up and its checks (R297, R68), windows (R298 to R300), what the receiver stores and confirms (R94 to R97), and
the sending of belay frames under the rope budgets (R30).
-/
namespace Sys2Proof.Machine

/-! ### Set-up (R297) -/

/-- Edges between two tries of the set-up. -/
def setupRetry : Nat := 125000

/-- This module's BELAY_SETUP payload. -/
def State.setupOf (s : State) : BelaySetupPayload :=
  { dirtySlots := s.cch.dirtySlots, recvSlots := s.cch.recvSlots, partner := s.partnerAddr.getD 0
    krCheck := if s.tru.krPresent then s.tru.krCheck else 0, period := BitVec.ofNat 3 (s.reg .tckCfgPeriod) }

/-- Sends BELAY_SETUP to the partner. -/
def State.sendSetup (s : State) (a : BitVec 12) : State :=
  (State.sendSeq { s with rop := { s.rop with setupSent := some s.edge } } a (.belaySetup s.setupOf))

/-- The first check of R297 that fails, with its event. -/
def State.setupFault (s : State) (p : BelaySetupPayload) : Option Ev :=
  if p.partner ≠ s.selfAddr then some .belayPairMismatch
  else if p.dirtySlots > s.cch.recvSlots ∨ s.cch.dirtySlots > p.recvSlots then some .belaySizeMismatch
  else if !s.tru.krPresent || p.krCheck != s.tru.krCheck then some .belayKeyMismatch
  else none

/-- The relation enters JOINING (R98): window 0 opens for the partner's slots (R300), the receive area and the mirror start empty, and everything
unretired is streamed. -/
def State.joinPartner (s : State) (a : BitVec 12) (p : BelaySetupPayload) : State :=
  let w : Win := { base := 0, len := BitVec.ofNat 24 p.dirtySlots, peer := a, en := true }
  let s : State := { s with rop := { s.rop with wins := s.rop.wins.set 0 w, win0Off := false, recv := [], mirror := [], mirNew := [], rxSeals := [], txq := []
                                                partner := .up, setupRx := none, setupFailed := false } }
  s.join

/-- Takes the partner's BELAY_SETUP against this module's own (R297): the first failing check is logged, and the exchange waits for its retry. -/
def State.checkSetup (s : State) (a : BitVec 12) : State :=
  match s.rop.setupRx, s.rop.setupSent with
  | some p, some _ =>
    match s.setupFault p with
    | some ev => State.log { s with rop := { s.rop with setupRx := none, setupFailed := true } } ev 8 a.toNat
    | none => s.joinPartner a p
  | _, _ => s

/-- May belay be set up now: ONLINE, SOLO, the partner UP and not being fenced? -/
def State.mayJoinPartner (s : State) (a : BitVec 12) : Bool :=
  s.phase == .online && s.jnl.belay == .solo && s.peerUp a && (match s.rop.partner with
    | .none | .absent | .up => true
    | .suspect _ | .fencing => false)

/-- Step 3: the exchange of BELAY_SETUP at the first edge at which the partner is UP, and the retry every 125,000 edges. -/
def State.stepSetup (s : State) : State :=
  match s.partnerAddr with
  | none => s
  | some a =>
    if !s.mayJoinPartner a then s
    else
      let s := match s.rop.setupSent with
        | none => s.sendSetup a
        | some e => if s.edge ≥ e + setupRetry then s.sendSetup a else s
      s.checkSetup a

/-- BELAY_SETUP arrives. -/
def State.setupIn (s : State) (h : FrameHdr) (p : BelaySetupPayload) : State :=
  s.withSeq 0x10 h fun s =>
    if s.partnerAddr = some h.src then { s with rop := { s.rop with setupRx := some p } }
    else s.log .belayPairMismatch 8 h.src.toNat

/-! ### Windows (R298, R299) -/

/-- Does a window take a block of this source at this slot? -/
def Win.takes (w : Win) (src : BitVec 12) (slot : Nat) : Bool :=
  w.en && w.peer == src && decide (w.base.toNat ≤ slot) && decide (slot < w.base.toNat + w.len.toNat)

/-- Does some window in force take it? -/
def State.windowTakes (s : State) (src : BitVec 12) (slot : Nat) : Bool := s.rop.wins.any fun w => w.takes src slot

/-- A block outside every window (R299): refused, counted, and logged at most once in 1,024 edges with the count. -/
def State.refuseBlock (s : State) (h : FrameHdr) (slot : Nat) : State :=
  let s := (s.sendSeq h.src (.winNak h.seq slot)).bump .ropWinNakCntN
  let n := s.rop.winNakN + 1
  let due := match s.rop.winNakLog with
    | some e => decide (s.edge ≥ e + 1024)
    | none => true
  if due then State.log { s with rop := { s.rop with winNakLog := some s.edge, winNakN := 0 } } .belayWinNak 8 h.src.toNat 0 n
  else { s with rop := { s.rop with winNakN := n } }

/-- BELAY_BLOCK arrives: it is stored in its slot of the receive area when a window takes it. One that fails its footer CRC or guard is dropped (R289). -/
def State.belayBlockIn (s : State) (h : FrameHdr) (slot : Nat) (b : Block) : State :=
  s.withSeqIf 0x11 h (fun s => if blockWhole b && s.windowTakes h.src slot then s.ropeWord b.foot.vol.toNat b.data else (s, false))
    (fun s => { s with rop := { s.rop with recv := tset s.rop.recv slot b } })
    (fun s => if blockWhole b && !s.windowTakes h.src slot then s.refuseBlock h slot else s)

/-- WIN_NAK arrives: the block is sent again in the next tick (R299). -/
def State.winNakIn (s : State) (h : FrameHdr) (n : BitVec 32) : State :=
  s.withSeq 0x16 h fun s => s.updPeer h.src fun p => { p with unacked := updIf p.unacked (fun u => u.seq == n) fun u => { u with sent := u.sent - 4 } }

/-! ### Records and seals (R94 to R97) -/

/-- Slots of the receive area that an unretired record of the mirror still covers. -/
def State.mirrorSlots (s : State) : List Nat :=
  (unretired ((s.rop.mirror.flatMap (·.2)) ++ s.rop.mirNew)).flatMap fun r => (List.range r.count).map (r.slot.toNat + ·)

/-- Frees the blocks whose last covering record has retired (R94). -/
def State.freeRecv (s : State) (rs : List (BitVec 32 × JRec)) : State :=
  let gone := retiredNos rs
  if gone.isEmpty then s
  else
    let slots := ((s.rop.mirror.flatMap (·.2)) ++ s.rop.mirNew).flatMap fun e => match e.2 with
      | .intent r => if gone.contains e.1 then (List.range r.count).map (r.slot.toNat + ·) else []
      | .retire _ | .sealed _ => []
    let keep := s.mirrorSlots
    { s with rop := { s.rop with recv := s.rop.recv.filter fun e => !slots.contains e.1 || keep.contains e.1 } }

/-- BELAY_RECORDS arrives: the records go to the journal mirror, ring slot for ring slot (R94, R298). -/
def State.recordsIn (s : State) (h : FrameHdr) (first : BitVec 32) (recs : List JRec) : State :=
  s.withSeq 0x12 h fun s =>
    let rs := (List.range recs.length).filterMap fun i => (recs[i]?).map fun r => (first + w32 i, r)
    let s : State := { s with rop := { s.rop with mirNew := rs.foldl (fun l e => tset l e.1 e.2) s.rop.mirNew } }
    s.freeRecv rs

/-- BELAY_SEAL arrives: it waits to be confirmed (R96). -/
def State.sealIn (s : State) (h : FrameHdr) (r : SealRec) : State :=
  s.withSeq 0x13 h fun s =>
    let old := s.rop.rxSeals.find? fun x => x.srec.tick == r.tick
    let x : RxSeal := { srec := r, edge := s.edge, naks := (old.map (·.naks)).getD 0, refused := false }
    { s with rop := { s.rop with rxSeals := s.rop.rxSeals.filter (fun y => y.srec.tick != r.tick) ++ [x] } }

/-- Is the next seal to be confirmed the catch-up seal of R98, whose records are the unretired ones of many ticks? No seal is confirmed yet. -/
def State.catchesUp (s : State) : Bool := s.rop.mirror.isEmpty

/-- The records that a seal counts and that are here: the first of its count from its first record on. A tick's records have consecutive numbers (R91); those
of a catch-up seal need not (R98). -/
def State.sealedRecs (s : State) (r : SealRec) : List (BitVec 32 × JRec) :=
  let bound := if s.catchesUp then 2 ^ 31 else r.count.toNat
  (sortBy (s.rop.mirNew.filter fun e => decide ((e.1 - r.first).toNat < bound)) fun a b => decide ((a.1 - r.first).toNat ≤ (b.1 - r.first).toNat)).take
    r.count.toNat

/-- Blocks of the receive area that these records cover. A seal's block count takes in the blocks landed in its tick only (R91), so the relocated copy of a
record (R93) counts none but in a catch-up seal, whose blocks are all streamed with it. -/
def State.sealedBlocks (s : State) (rs : List (BitVec 32 × JRec)) : Nat :=
  (rs.map fun e => match e.2 with
    | .intent r =>
      if r.flags.getLsbD 4 && !s.catchesUp then 0
      else ((List.range r.count).filter fun i => match tget s.rop.recv (r.slot.toNat + i) with
        | some b => replayFits r b
        | none => false).length
    | .retire _ | .sealed _ => 0).foldl (· + ·) 0

/-- A seal is refused (R97): a NAK names its tick; the second for the same tick ends belay. It waits to be sent again, and so do records that failed the CRC. -/
def State.refuseSeal (s : State) (a : BitVec 12) (x : RxSeal) (drop : List (BitVec 32)) : State :=
  let s := (s.sendSeq a (.sealNak x.srec.tick.toNat)).log .sealNak 8 a.toNat 0 x.srec.tick.toNat
  if x.naks ≥ 1 then
    let s : State := { s with rop := { s.rop with rxSeals := [], win0Off := true } }
    if s.jnl.belay = .solo then s.log .belayDown else s.belayDown
  else
    { s with rop := { s.rop with rxSeals := updIf s.rop.rxSeals (fun y => y.srec.tick == x.srec.tick) fun y => { y with naks := y.naks + 1, refused := true }
                                 mirNew := s.rop.mirNew.filter fun e => !drop.contains e.1 } }

/-- The number of a tick's last record. -/
def lastNo (t : SealRec × List (BitVec 32 × JRec)) : BitVec 32 := (t.2.getLast?.map (·.1)).getD t.1.first

/-- A tick whose seal is confirmed goes to the mirror, ring slot for ring slot (R94). A tick leaves once records a whole ring later have overwritten its last
record; until then the retired ones among its earlier records stand beside their retire records, which are younger, so no replay loads them. -/
def mirrorPut (m : List (SealRec × List (BitVec 32 × JRec))) (t : SealRec × List (BitVec 32 × JRec)) : List (SealRec × List (BitVec 32 × JRec)) :=
  (m.filter fun u => decide ((lastNo t - lastNo u).toNat < ringSize)) ++ [t]

/-- Tests one seal received: confirmed once its records are all here, their CRC matches and every block it covers has arrived (R96); refused when the CRC
fails, or when it is still incomplete 2·b ticks after it arrived (R97). A refused seal is not refused again before it has been sent again. With a catch-up
seal a later tick's record may stand in the place of a missing one, so that a failing CRC counts there as incomplete (DESIGN CHOICE). -/
def State.testSeal (s : State) (a : BitVec 12) (x : RxSeal) : State :=
  let rs := s.sealedRecs x.srec
  let full := decide (rs.length = x.srec.count.toNat)
  let good := full && decide (recsCrc (rs.map (·.2)) = x.srec.crc)
  let nos := rs.map (·.1)
  if good ∧ s.sealedBlocks rs ≥ x.srec.blocks.toNat then
    State.sendSeq { s with rop := { s.rop with rxSeals := s.rop.rxSeals.filter (fun y => y.srec.tick != x.srec.tick)
                                               mirNew := s.rop.mirNew.filter fun e => !nos.contains e.1
                                               mirror := mirrorPut s.rop.mirror (x.srec, rs) } } a (.belayConfirm x.srec.tick.toNat)
  else if x.refused then s
  else if full ∧ !good ∧ !s.catchesUp then s.refuseSeal a x nos
  else if s.edge ≥ x.edge + 2 * max 1 Config.belayDelay then s.refuseSeal a x []
  else s

/-- Tests every seal received, in tick order. -/
def State.testSeals (s : State) : State :=
  match s.partnerAddr with
  | none => s
  | some a => s.each (sortBy s.rop.rxSeals fun x y => decide (x.srec.tick.toNat ≤ y.srec.tick.toNat)) fun s x => s.testSeal a x

/-- BELAY_CONFIRM arrives (R96). -/
def State.confirmIn (s : State) (h : FrameHdr) (tick : Nat) : State :=
  s.withSeq 0x14 h fun s => { s with jnl := { s.jnl with confIn := s.jnl.confIn ++ [tick] } }

/-- SEAL_NAK arrives (R97). -/
def State.sealNakIn (s : State) (h : FrameHdr) (tick : Nat) : State :=
  s.withSeq 0x15 h fun s => { s with jnl := { s.jnl with nakIn := s.jnl.nakIn ++ [tick] } }

/-! ### Sending under the rope budgets (R30) -/

/-- Bytes of a belay frame that its budget counts. -/
def belayBytes (f : TxFrame) : Nat :=
  match f with
  | .belayBlock _ _ => 4200
  | .belayRecords rs => 32 + 32 * rs.length
  | .announce _ _ _ _ | .heartbeat _ | .timeSync _ _ _ | .delayReq | .delayResp _ | .belaySetup _ | .belaySeal _ | .belayConfirm _ | .sealNak _ | .winNak _ _
  | .fwdCmd _ _ _ _ | .fwdData _ _ _ | .fwdReply _ _ _ | .dirClaim _ _ _ | .dirUpdate _ | .yield_ _ _ | .takeoverAck _ => 64

/-- How many of these records, up to 32, share a frame (R288): their numbers are consecutive, since the frame gives only the first (a log entry). -/
def frameRun : List (BitVec 32 × JRec) → Nat → Nat
  | [], _ => 0
  | [_], _ => 1
  | _, 0 => 1
  | e :: f :: more, fuel + 1 => if f.1 = e.1 + 1 then frameRun (f :: more) fuel + 1 else 1

/-- Sends waiting belay frames in order while their port's budget lasts. -/
def State.drainBelay (s : State) : Nat → State
  | 0 => s
  | fuel + 1 =>
    match s.partnerAddr, s.rop.txq with
    | some a, f :: rest =>
      match s.peer a with
      | none => s
      | some p =>
        if p.st ≠ .up then s
        else
          let (now, later) : TxFrame × List TxFrame := match f with
            | .belayRecords rs => (.belayRecords (rs.take (frameRun rs 31)), if rs.length > frameRun rs 31 then [.belayRecords (rs.drop (frameRun rs 31))] else [])
            | _ => (f, [])
          let port := pathOf p a now
          match s.sched.allot [(.rope port, belayBytes now)] with
          | none => { s with sched := s.sched.waits [(.rope port, belayBytes now)] }
          | some sc =>
            let (s, ok) : State × Bool := match now with
              | .belayBlock slot _ => let i := s.ropePorts.idxOf port; s.transfer (.rope i) .ropeQ i 4160 slot
              | _ => (s, true)
            if !ok then s
            else State.drainBelay (State.sendSeq { s with sched := sc, rop := { s.rop with txq := later ++ rest } } a now) fuel
    | _, _ => s

end Sys2Proof.Machine
end

