-- ==== Sys2Proof/Machine/Forward.lean ====
section
/-!
DEFINITION. The rope directory (R301) and the movement of forwarded commands between the accepting module and the owner (R246, R247, R302).
-/
namespace Sys2Proof.Machine

/-! ### The directory (R301) -/

/-- Sends this module's volumes to every UP peer when they have changed. The list is whole: a volume that it no longer names has gone. -/
def State.dirSync (s : State) : State :=
  let now := s.ownDir
  if now = s.rop.dirSent then s
  else
    let s : State := { s with rop := { s.rop with dirSent := now } }
    s.each (s.rop.peers.filter fun e => e.2.st == .up) fun s e => s.sendSeq e.1 (.dirUpdate now)

/-- DIR_UPDATE arrives; it applies at the next edge. -/
def State.dirUpdateIn (s : State) (h : FrameHdr) (es : List DirEntry) : State :=
  s.withSeq 0x29 h fun s => { s with rop := { s.rop with dirNew := s.rop.dirNew ++ [(h.src, es)] } }

/-- Applies the updates that arrived in the closing tick: each replaces what the directory showed of its sender. -/
def State.applyDir (s : State) : State :=
  let l := s.rop.dirNew
  let one := fun (d : List (BitVec 12 × DirEntry)) (u : BitVec 12 × List DirEntry) =>
    (u.2.filter fun e => e.owner == u.1).foldl (fun d e => tset d e.vol e) (d.filter fun x => x.2.owner != u.1)
  { s with rop := { s.rop with dirNew := [], dir := l.foldl one s.rop.dir } }

/-- DIR_CLAIM arrives: a claim is answered, an answer is counted. When two claims for one id cross, the lower rope address wins. -/
def State.claimIn (s : State) (h : FrameHdr) (vol : BitVec 12) (claimant : BitVec 12) (answer : Option Bool) : State :=
  s.withSeq 0x28 h fun s =>
    match answer with
    | none =>
      let own := s.rop.claims.any fun c => c.vol == vol
      let taken := (s.poolOf vol).isSome || (tget s.rop.dir vol).isSome
      let win := own && decide (s.selfAddr < claimant)
      let s : State := if own && !win then { s with rop := { s.rop with claims := updIf s.rop.claims (fun c => c.vol == vol) fun c => { c with refused := true } } } else s
      s.sendSeq h.src (.dirClaim vol claimant (some (!taken && !win)))
    | some free =>
      { s with rop := { s.rop with claims := updIf s.rop.claims (fun c => c.vol == vol) fun c =>
        { c with waits := c.waits.erase h.src, refused := c.refused || !free } } }

/-! ### The owner's side -/

/-- FWD_CMD arrives: it waits to be offered (R302). -/
def State.fwdCmdIn (s : State) (h : FrameHdr) (fid : BitVec 64) (port : PciePort) (qid tag : BitVec 16) (entry : List RingUnit) : State :=
  s.withSeq 0x20 h fun s => { s with rop := { s.rop with fwdIn := s.rop.fwdIn ++ [(h.seq, .peer h.src fid port qid, entry, tag)] } }

/-- The peer of an origin. -/
def Origin.addr (o : Origin) : BitVec 12 :=
  match o with
  | .ring _ => 0
  | .peer a _ _ _ => a
  | .gone => 0

/-- The originating ring of a forwarded command. -/
def Origin.ringOf (o : Origin) : BitVec 12 × Nat × BitVec 16 :=
  match o with
  | .ring q => (0, q.port.val, ringQid q)
  | .peer a _ p q => (a, p.val, q)
  | .gone => (0, 0, 0)

/-- The checks of R439 that the owner makes anew: the entry, its volume and its range. -/
def State.fwdFault (s : State) (us : List RingUnit) : Option Stat :=
  match decodeIo us with
  | none => some (stat 1 1)
  | some op =>
    let vol := BitVec.ofNat 12 (uf (firstUnit us) 6 2)
    match s.lookVol vol with
    | .at_ owner => some (stat 3 4 0 owner.toNat)
    | .unknown => match op with
      | .abort _ _ => none
      | .read _ _ _ _ | .write _ _ _ _ | .writeZeroes _ _ _ | .flush | .verify _ _ | .sealOpen _ _ | .sealAppend _ _ _ _ _ _ | .sealClose _ _
      | .sealSave _ _ | .sealRestore _ _ | .volPower _ => some (stat 1 7)
    | .here _ => s.rangeFault vol op

/-- Offers one forwarded entry to ORD, or answers it with its fault. -/
def State.offerOne (s : State) (org : Origin) (us : List RingUnit) (tag : BitVec 16) : State :=
  match org with
  | .ring _ | .gone => s
  | .peer a fid _ _ =>
    match s.fwdFault us with
    | some st => s.sendSeq a (.fwdReply fid st 0)
    | none =>
      match decodeIo us with
      | none => s
      | some op =>
        let vol := BitVec.ofNat 12 (uf (firstUnit us) 6 2)
        let id := s.ord.freshCmd
        let s := s.offerCmd (Cmd.new org us.length tag vol op)
        s.updCmd id fun c => { c with credit := fwdCredit op }

/-- Does a forwarded command of an originating ring wait for its lock? -/
def State.ringWaits (s : State) (o : Origin) : Bool :=
  s.ord.cmds.any fun c => c.fromPeer && c.acc.isNone && c.org.ringOf == o.ringOf

/-- Offers forwarded entries in sequence order (R289), those of one originating ring each after the one before it has been accepted (R246). -/
def State.offerFwds (s : State) : State :=
  let sorted := sortBy s.rop.fwdIn fun a b => decide ((b.1 - a.1).toNat < 2 ^ 31)
  let one := fun (acc : State × List (BitVec 32 × Origin × List RingUnit × BitVec 16)) (e : BitVec 32 × Origin × List RingUnit × BitVec 16) =>
    let s := acc.1
    let blocked := acc.2.any fun x => x.2.1.ringOf == e.2.1.ringOf
    let inOrd := match s.peer e.2.1.addr with
      | some p => decide ((p.rxHigh - e.1).toNat < 2 ^ 31)
      | none => true
    if blocked || !inOrd || s.ringWaits e.2.1 then (s, acc.2 ++ [e]) else (s.offerOne e.2.1 e.2.2.1 e.2.2.2, acc.2)
  let (t, left) : State × List (BitVec 32 × Origin × List RingUnit × BitVec 16) := sorted.foldl one (s, [])
  { t with rop := { t.rop with fwdIn := left } }

/-! ### FWD_DATA -/

/-- The command that this module forwarded to an owner under an id. -/
def State.forwardedAs (s : State) (owner : BitVec 12) (fid : BitVec 64) : Option Cmd :=
  s.ord.cmds.find? fun c => c.st == .forwarded owner fid

/-- The command that a peer forwarded to this module under an id. -/
def State.servedFor (s : State) (a : BitVec 12) (fid : BitVec 64) : Option Cmd :=
  s.ord.cmds.find? fun c => match c.org with
    | .peer b f _ _ => b == a && f == fid
    | .ring _ | .gone => false

/-- Data of a forwarded read reach the accepting module: each block is checked and held in its reserved slot until it is written to the host. -/
def State.readData (s : State) (c : Cmd) (v off : Nat) (bs : List Block) : State :=
  s.updCmd c.id fun c => { c with rblks := c.rblks ++ (List.range bs.length).filterMap fun i => (bs[i]?).map fun b => ⟨v + off + i, .ready b⟩ }

/-- Data for a forwarded write, or more credit for a forwarded read, reach the owner. -/
def State.writeData (s : State) (c : Cmd) (off : Nat) (bs : List Block) : State :=
  if bs.isEmpty then s.updCmd c.id fun c => { c with credit := max c.credit off }
  else s.updCmd c.id fun c => { c with rcvd := c.rcvd ++ (List.range bs.length).filterMap fun i => (bs[i]?).map fun b => (off + i, b) }

/-- FWD_DATA arrives; a frame with a block that fails its footer CRC or guard is dropped and left to retransmission (R289). -/
def State.fwdDataIn (s : State) (h : FrameHdr) (fid : BitVec 64) (off : Nat) (bs : List Block) : State :=
  s.withSeqIf 0x21 h (fun s => if bs.all blockWhole then
      bs.foldl (fun (s, good) b =>
        let (s, ok) : State × Bool := s.ropeWord b.foot.vol.toNat b.data
        (s, good && ok)) (s, true) else (s, false))
    (fun s => match s.forwardedAs h.src fid with
      | some c => match c.op with
        | .read v _ _ _ => s.readData c v off bs
        | .sealClose _ _ | .sealSave _ _ | .sealRestore _ _ => s.readData c 0 off bs
        | .write _ _ _ _ | .writeZeroes _ _ _ | .flush | .abort _ _ | .verify _ _ | .sealOpen _ _ | .sealAppend _ _ _ _ _ _ | .volPower _ => s
      | none => match s.servedFor h.src fid with
        | some c => s.writeData c off bs
        | none => s)
    (fun s => s)

/-- FWD_REPLY arrives (R247). -/
def State.fwdReplyIn (s : State) (h : FrameHdr) (fid : BitVec 64) (st : Stat) (acc : BitVec 32) : State :=
  s.withSeq 0x22 h fun s => { s with rop := { s.rop with replies := s.rop.replies ++ [(fid, st, acc)] } }

/-! ### The accepting module's side (R302) -/

/-- Step 5: what has arrived of forwarded reads goes to the host, one slice of a queue per edge against the host-byte budget (R302, R435). -/
def State.moveFwds (s : State) : State :=
  let one := fun (acc : State × List Origin) (c0 : Cmd) =>
    let (s, used) := acc
    match s.cmd c0.id with
    | none => (s, used)
    | some c =>
      match c.st with
      | .forwarded _ _ =>
        let rdy := (c.rblks.filterMap fun b => match b.st with
          | .ready d => some (b.vbn, d)
          | .need | .wait | .recon _ | .moving | .poisoned | .sent | .bad _ => none).take (s.sliceLen { c with next := 0 } 65536 true true)
        if rdy.isEmpty ∨ c.fail.isSome ∨ used.contains c.org ∨ (s.pickChan (.push c.id [])).isNone then (s, used)
        else
          let t := s.allot true (hostCharge c true (4096 * rdy.length)) fun s =>
            let s := s.updCmd c.id fun c => { c with rblks := c.rblks.map fun b => if rdy.any (fun e => e.1 == b.vbn) then { b with st := .moving } else b }
            (s.transferKept (.push c.id (rdy.map (·.1))) (hostSpace c) 0 (4096 * rdy.length)).emit (.payload c.id (rdy.map fun e => (e.1, e.2.data)))
          (t, c.org :: used)
      | .accepted | .running | .held | .eligible _ | .finished => (s, used)
  (s.ord.cmds.foldl one (s, [])).1

end Sys2Proof.Machine
end

