-- ==== Sys2Proof/Machine/Takeover.lean ====
section
/-!
DEFINITION. Partner absence (R303), fencing (R280) and takeover (R304), pools that another module has taken (R281), yield (R305) and handback (R306).
-/
namespace Sys2Proof.Machine

/-! ### Pools that leave this module -/

/-- Ends a request that waits for its lock and was never accepted, with a status of its own. -/
def State.refuseRequest (s : State) (c : Cmd) (st : Stat) : State :=
  match c.org with
  | .ring q => ((s.dropRequest c.id).eligible q c.tag st none none).consume q c.units
  | .gone => s.dropRequest c.id
  | .peer a fid _ _ => (s.dropRequest c.id).sendSeq a (.fwdReply fid st 0)

/-- Has a command been accepted, here or by being placed on the stream to its owner? -/
def Cmd.taken (c : Cmd) : Bool :=
  c.acc.isSome || match c.st with
    | .forwarded _ _ => true
    | .accepted | .running | .held | .eligible _ | .finished => false

/-- Ends every accepted command that a test names, giving back its hold slots and slices without records. -/
def State.endAll (s : State) (who : Cmd → Bool) (st : Stat) : State :=
  s.each (s.ord.cmds.filter fun c => c.open_ && c.taken && who c) fun s c =>
    let held := (c.rblks.filter fun b => b.st != .sent).length
    (((s.failUnjournalled c).unhold (max held c.creditHeld)).updCmd c.id fun c => { c with rblks := [] }).endCmd c.id st

/-- A pool leaves this module: what the cache, the scheduler and the member ports hold of it goes, and its metadata stays known (R280). -/
def State.dropPool (s : State) (pid : BitVec 16) : State :=
  match s.pool pid with
  | none => s
  | some p =>
    let s := s.each p.cur.volumes fun s v => s.purgeVol pid v.id
    let cmds := (s.mbr.cmds.filter fun c => c.pool == pid).map (·.id)
    { s with
      pools := s.pools.filter fun q => q.cur.id ≠ pid
      seq := { s.seq with tasks := s.seq.tasks.filter fun t => t.pool ≠ pid }
      cch := { s.cch with gather := s.cch.gather.filter (fun e => e.pool ≠ pid), waitq := s.cch.waitq.filter fun e => e.pool ≠ pid }
      mbr := { s.mbr with cmds := s.mbr.cmds.filter (fun c => c.pool ≠ pid), dead := s.mbr.dead ++ cmds }
      rop := { s.rop with known := s.rop.known.filter (fun m => m.id ≠ pid) ++ [p.cur] } }

/-- The status of a command whose volume has moved to another module (R304, R305). -/
def movedStat (a : BitVec 12) : Stat := stat 3 4 0 a.toNat

/-- Completes the commands of a pool's volumes as moved and lets the pool go. -/
def State.movePool (s : State) (pid : BitVec 16) (owner : BitVec 12) : State :=
  match s.pool pid with
  | none => s
  | some p =>
    let here := fun (c : Cmd) => p.cur.volumes.any fun v => v.id == c.vol
    let s := s.endAll here (movedStat owner)
    let s := s.each (s.ord.cmds.filter fun c => c.open_ && !c.taken && here c) fun s c => s.refuseRequest c (movedStat owner)
    s.dropPool pid

/-- Step 3: pools that another registrant has preempted are handled as yielded (R281); their new owner is the partner. -/
def State.dropYielded (s : State) : State :=
  s.each (s.pools.filter fun p => p.yielded && !s.yields p.cur.id) fun s p => s.movePool p.cur.id (s.partnerAddr.getD 0)

/-! ### Member commands to pools of the partner -/

/-- Sends a member command to an image member on its lowest port that is up; answers its identifier. -/
def State.sendImg (s : State) (img idx : Nat) (pool : BitVec 16) (op : MOp) (lba count : Nat) (purpose : MPurpose) : State × List Nat :=
  match s.mbr.members.find? fun m => m.num == img && m.admitted with
  | none => (s, [])
  | some m =>
    match (s.upPorts m).head? with
    | none => (s, [])
    | some port =>
      let r : MReq := { pool := pool, idx := idx, op := op, lba := lba, offs := [], count := count, blks := [], purpose := purpose, fg := false }
      ((s.chargeAlways (reqCharges port r)).send r img port, [s.mbr.nextId])

/-- The same to several members. -/
def State.sendImgs (s : State) (l : List (Nat × Nat)) (pool : BitVec 16) (op : MOp) (lba count : Nat) (purpose : MPurpose) : State × List Nat :=
  l.foldl (fun (s, ids) (idx, img) => let (s, i) := s.sendImg img idx pool op lba count purpose; (s, ids ++ i)) (s, [])

/-- Members and journal members of a pool of the partner: from its metadata as last read, else from the labels of image members. -/
def State.membersOf (s : State) (pid : BitVec 16) : List (Nat × Nat) × List Nat :=
  match s.rop.known.find? fun m => m.id == pid with
  | some m => ((List.range m.members.length).filterMap fun i => (m.members[i]?).map fun r => (i, r.img), m.jms)
  | none =>
    let l := s.mbr.members.filterMap fun m => match m.label with
      | some (p, i) => if p = pid then some (i, m.num) else none
      | none => none
    (l, l.map (·.1))

/-- Pools of the partner that this module knows of: read at POOL_ASSEMBLY, given to it, or shown by the directory. -/
def State.partnerPools (s : State) (a : BitVec 12) : List (BitVec 16) :=
  let seen := (s.rop.known.map (·.id)) ++ (s.rop.dir.filter fun e => e.2.owner == a).map (·.2.pool)
  seen.eraseDups.filter fun pid => (s.pool pid).isNone && !(s.membersOf pid).1.isEmpty

/-- Begins to fence a pool (R280): Preempt with the absent module's key to every member, journal members first. -/
def State.startFence (s : State) (pid : BitVec 16) (byYield : Bool) : State :=
  if s.rop.takeovers.any fun t => t.pool == pid then s
  else
    let (imgs, jms) := s.membersOf pid
    let order := (imgs.filter fun e => jms.contains e.1) ++ imgs.filter fun e => !jms.contains e.1
    let (s, ids) : State × List Nat := s.sendImgs order pid .acquire 0 0 (.preempt pid)
    let t : Takeover := { pool := pid, imgs := imgs, jms := jms, acked := [], waits := ids, stage := .fencing, got := [], maps := [], byYield := byYield }
    { s with rop := { s.rop with takeovers := s.rop.takeovers ++ [t] } }

/-- Changes a takeover. -/
def State.updTake (s : State) (pid : BitVec 16) (f : Takeover → Takeover) : State :=
  { s with rop := { s.rop with takeovers := updIf s.rop.takeovers (fun t => t.pool == pid) f } }

/-- Fencing of a pool is confirmed: every reachable member has acknowledged, at least two journal members among them (R280). -/
def Takeover.confirmed (t : Takeover) : Bool := t.waits.isEmpty && decide ((t.jms.filter t.acked.contains).length ≥ 2)

/-- Reads blocks of a metadata zone from an image member, one command per run that it can move (R269); answers their identifiers. -/
def State.zoneReads (s : State) (e : Nat × Nat) (pid : BitVec 16) (lba n : Nat) : State × List Nat :=
  let most := match s.mbr.members.find? fun m => m.num == e.2 with
    | some m => max 1 (min 256 (m.mdts / 4096))
    | none => 256
  (runsOf most ((List.range n).map (lba + ·))).foldl (fun (acc : State × List Nat) run =>
    let (s, i) : State × List Nat := acc.1.sendImg e.2 e.1 pid .read (run.headD 0) run.length (.poolRead pid)
    (s, acc.2 ++ i)) (s, [])

/-- The journal members of a fenced pool that acknowledged. -/
def Takeover.sources (t : Takeover) : List (Nat × Nat) := t.imgs.filter fun e => t.jms.contains e.1 && t.acked.contains e.1

/-- Reads the metadata of a fenced pool, a share of each copy from each journal member that acknowledged (R304: one third of three). -/
def State.readTaken (s : State) (t : Takeover) : State :=
  let from_ := t.sources
  let part := ceilDiv metaArea from_.length
  let (s, ids) : State × List Nat := (List.range from_.length).foldl (fun (acc : State × List Nat) k =>
    let n := min part (metaArea - k * part)
    let (s, a) : State × List Nat := acc.1.zoneReads (from_.getD k (0, 0)) t.pool (copyLba 1 + k * part) n
    let (s, b) : State × List Nat := s.zoneReads (from_.getD k (0, 0)) t.pool (copyLba 0 + k * part) n
    (s, acc.2 ++ a ++ b)) (s, [])
  s.updTake t.pool fun t => { t with stage := .reading, waits := ids }

/-- With its metadata read, the blocks of its bitmap that hold bits are read from every journal member that acknowledged (R111). -/
def State.readMaps (s : State) (t : Takeover) : State :=
  let n := match s.bestCopy t.got with
    | some m => ceilDiv ({ Pool.fresh m 0 with cur := m } : Pool).bitCount 32768
    | none => 0
  let (s, ids) : State × List Nat := t.sources.foldl (fun (acc : State × List Nat) e =>
    let (s, a) : State × List Nat := acc.1.zoneReads e t.pool mapBase n
    (s, acc.2 ++ a)) (s, [])
  s.updTake t.pool fun t => { t with stage := .mapping, waits := ids }

/-- The edge after a pool's metadata has been read and its mirror replayed: it is published, and this module serves it (R304). -/
def State.publishTaken (s : State) (t : Takeover) : State :=
  let s : State := { s with rop := { s.rop with takeovers := s.rop.takeovers.filter fun x => x.pool ≠ t.pool } }
  match s.bestCopy t.got with
  | none => s.log .poolAssemblyFail 3 t.pool.toNat t.pool
  | some _ =>
    let s := s.takeOver t
    if (s.pool t.pool).isNone then s
    else
      let s := ((s.log .takeover 3 t.pool.toNat t.pool).bump .ropTakeoverCntN)
      let s : State := { s with rop := { s.rop with known := s.rop.known.filter fun m => m.id ≠ t.pool } }
      match t.byYield, s.partnerAddr with
      | true, some a => s.sendSeq a (.takeoverAck [t.pool])
      | _, _ => s

/-- Step 3 for the takeovers whose fencing is done. A pool taken under a YIELD goes on by itself; the others wait for every pool of the partner (R303). -/
def State.stepTakeovers (s : State) : State :=
  s.each s.rop.takeovers fun s t =>
    match t.stage with
    | .fencing => if t.confirmed then s.updTake t.pool fun t => { t with stage := .fenced } else s
    | .fenced => if t.byYield ∨ s.rop.partner = .absent then s.readTaken t else s
    | .reading => if t.waits.isEmpty then s.readMaps t else s
    | .mapping => if t.waits.isEmpty then s.updTake t.pool fun t => { t with stage := .ready } else s
    | .ready => s.publishTaken t

/-! ### The partner's states (R303) -/

/-- Own pools whose reservation the check asks for. -/
def State.ownPools (s : State) : List Pool := s.pools.filter fun p => !p.yielded && !p.unassembled

/-- Asks one journal member of a pool for its reservation: the lowest in service from an index on. -/
def State.askReport (s : State) (p : Pool) (lo : Nat) : State :=
  match (sortedKeys p.jmsUp).find? fun i => decide (i ≥ lo) with
  | none => s
  | some i =>
    match s.img p i with
    | none => s
    | some m =>
      let (s, ids) : State × List Nat := s.sendImg m.num i p.cur.id .report 0 0 (.resvReport p.cur.id)
      { s with rop := { s.rop with checkIds := s.rop.checkIds ++ ids.map fun k => (k, p.cur.id, i) } }

/-- Begins the reservation check. -/
def State.startCheck (s : State) : State :=
  let s : State := { s with rop := { s.rop with partner := .suspect true, checkAt := some s.edge, checkIds := [], checkOk := [] } }
  s.each s.ownPools fun s p => s.askReport p 0

/-- Missed heartbeats at which this module acts: the third for the lower rope address, the sixth for the higher. -/
def State.actAt (s : State) (a : BitVec 12) : Nat := if s.selfAddr < a then 3 else 6

/-- Begins to fence the partner's pools. -/
def State.startFencing (s : State) (a : BitVec 12) : State :=
  let s : State := { s with rop := { s.rop with partner := .fencing } }
  s.each (s.partnerPools a) fun s pid => s.startFence pid false

/-- Reports that a journal member did not give in time: the next one is asked (R303). -/
def State.nextReports (s : State) : State :=
  let gone := s.rop.checkIds.filter fun e => !(s.mbr.cmds.any fun c => c.id == e.1) && !s.rop.checkOk.contains e.2.1
  let s : State := { s with rop := { s.rop with checkIds := s.rop.checkIds.filter fun e => !gone.contains e } }
  s.each gone fun s e => match s.pool e.2.1 with
    | some p => s.askReport p (e.2.2 + 1)
    | none => s

/-- What the check has come to: fencing once every own pool is held under the own key; repeated every 125,000 edges while some pool gives no answer. -/
def State.stepCheck (s : State) (a : BitVec 12) : State :=
  let s := s.nextReports
  if s.pools.any (·.yielded) then s
  else if s.ownPools.all fun p => s.rop.checkOk.contains p.cur.id then s.startFencing a
  else match s.rop.checkAt with
    | some e => if s.edge ≥ e + setupRetry ∧ s.rop.checkIds.isEmpty then s.startCheck else s
    | none => s.startCheck

/-- The partner is suspected at the third missed heartbeat. -/
def State.suspect (s : State) (a : BitVec 12) : State :=
  if s.rop.partner = .up ∧ s.reg .ropHbMissN ≥ 3 then State.log { s with rop := { s.rop with partner := .suspect false } } .partnerSuspect 8 a.toNat else s

/-- The check begins when the missed count reaches 3 or 6. -/
def State.beginCheck (s : State) (a : BitVec 12) : State :=
  if s.rop.partner = .suspect false ∧ s.reg .ropHbMissN ≥ s.actAt a then s.startCheck else s

/-- Fencing is confirmed for every pool of the partner: it is absent, belay ends, and the pools are taken over. -/
def State.fenceDone (s : State) (a : BitVec 12) : State :=
  if s.rop.partner = .fencing ∧ s.rop.takeovers.all (fun t => t.byYield || t.stage == .fenced || t.confirmed) then
    (State.log { s with rop := { s.rop with partner := .absent } } .partnerAbsent 8 a.toNat).belayDown
  else s

/-- Step 3: counts missed heartbeats and moves the partner's state. -/
def State.stepPartner (s : State) : State :=
  match s.partnerAddr with
  | none => s
  | some a =>
    let got := s.rop.hbGot
    let s : State := { s with rop := { s.rop with hbGot := false } }
    match s.rop.partner with
    | .none => s
    | .absent => s.setReg .ropHbMissN (if got then 0 else min 15 (s.reg .ropHbMissN + 1))
    | .up | .suspect _ | .fencing =>
      let s := s.setReg .ropHbMissN (if got then 0 else min 15 (s.reg .ropHbMissN + 1))
      match s.rop.partner with
      | .suspect _ =>
        if got then State.log { s with rop := { s.rop with partner := .up, checkIds := [], checkOk := [], checkAt := none } } .partnerBack 8 a.toNat
        else if s.rop.partner = .suspect true then s.stepCheck a else s.beginCheck a
      | .up => (s.suspect a).beginCheck a
      | .fencing => s.fenceDone a
      | .none | .absent => s

/-! ### Yield (R305) and handback (R306) -/

/-- Begins to yield pools to the partner. Handback turns away the requests that wait for a lock (R306). -/
def State.startYield (s : State) (pools : List (BitVec 16)) (reason : Nat) : State :=
  let s : State := { s with rop := { s.rop with yielding := some ⟨pools, none, reason, false, false⟩ } }
  if reason = 2 then
    let here := fun (c : Cmd) => match s.poolOf c.vol with
      | some p => pools.contains p.cur.id
      | none => false
    s.each (s.ord.cmds.filter fun c => c.open_ && !c.taken && here c) fun s c => s.refuseRequest c (movedStat (s.partnerAddr.getD 0))
  else s

/-- Every seal is confirmed and no slice of the pools is still on its way to its record. -/
def State.yieldQuiet (s : State) (y : YieldSt) : Bool :=
  !(s.scrubbing y.pools) && s.jnl.seals.isEmpty && s.jnl.tickRecs.isEmpty && s.jnl.sealedSlots.isEmpty && s.ord.cmds.all fun c =>
    match s.poolOf c.vol with
    | some p => !y.pools.contains p.cur.id || c.slices.all fun sl => sl.st != .moving && sl.st != .landed
    | none => true

/-- An NVMe Flush to every member of these pools at orderly shutdown (R272). -/
def State.flushAll (s : State) (pools : List (BitVec 16)) : State :=
  s.each (s.pools.filter fun p => pools.contains p.cur.id) fun s p =>
    (s.sendNow ((List.range p.cur.members.length).map fun i =>
      ({ pool := p.cur.id, idx := i, op := .flush, lba := 0, offs := [], count := 0, blks := [], purpose := .other, fg := true } : MReq))).1

/-- Has every Flush of an orderly shutdown ended? -/
def State.flushesDone (s : State) : Bool := s.mbr.cmds.all fun c => !(c.op == .flush && c.purpose == .other)

/-- The cold-journal append of a yield or a shutdown: every unretired record of the pools, with its blocks and the mark (R106). -/
def State.coldAll (s : State) (pools : List (BitVec 16)) : State :=
  s.each pools fun s pid =>
    let s := s.updPool pid fun p => p.commitCursor.scrubCommit
    let nums := (s.jnl.live.filter fun r => decide ((s.poolOf r.intent.vol).map (·.cur.id) = some pid)).map (·.no)
    s.coldAppend pid s.edge nums true

/-- Sends YIELD; from now on no member write of these pools is issued (R305). -/
def State.sendYield (s : State) (y : YieldSt) : State :=
  match s.partnerAddr with
  | none => s
  | some a =>
    let s := s.sendSeq a (.yield_ y.pools s.jnl.lastSeal)
    { s with
      pools := s.pools.map fun p => if y.pools.contains p.cur.id then { p with yielded := true } else p
      rop := { s.rop with yielding := some { y with sentAt := some s.edge } } }

/-- Steps 1 to 3 of R305, each at the first edge at which what it waits for is done. -/
def State.stepYield (s : State) : State :=
  match s.rop.yielding with
  | none => s
  | some y =>
    if y.sentAt.isSome ∨ s.jnl.belay ≠ .belayed then s
    else if !y.coldDone then
      (if s.yieldQuiet y then
        (State.coldAll { s with rop := { s.rop with yielding := some { y with coldDone := true } } } y.pools).iff (y.reason == 1) fun s => s.flushAll y.pools
       else s)
    else if s.flushesDone && s.jnl.coldWait.isEmpty && s.jnl.sealedSlots.isEmpty && s.jnl.seals.isEmpty
        && s.pools.all (fun p => !y.pools.contains p.cur.id || p.settled || p.oneCopy) then s.sendYield y
    else s

/-- Has a yield's acknowledgement not been honoured in time (R305)? -/
def State.yieldLate (s : State) : Bool :=
  match s.rop.yielding with
  | some y => (match y.sentAt with
      | some e => decide (s.edge ≥ e + s.reg .ropYieldTmoTicks) && !y.ack
      | none => decide (s.jnl.belay ≠ .belayed))
  | none => false

/-- FW_ACTIVATE's conditions are met: it completes, and the module restarts at the next edge (R344). -/
def State.activated (s : State) : State :=
  match s.mgt.activate with
  | some a => State.admDone { s with mgt := { s.mgt with activate := some { a with stage := 3 } } } a.src a.tag okStat
  | none => s

/-- The acknowledgement of a yield is honoured (R305): the commands of the pools complete as moved at this edge's step 4, and the pools are gone. In
FAIL_STOP every accepted command does, and the module halts (R201); so does every one when FW_ACTIVATE yields, which completes with them (R344). -/
def State.honourYield (s : State) : State :=
  match s.rop.yielding with
  | none => s
  | some y =>
    if !y.ack then s
    else
      let a := s.partnerAddr.getD 0
      let s := s.iff (y.reason != 2) fun s => s.endAll (fun _ => true) (movedStat a)
      let s := s.each y.pools fun s pid => s.movePool pid a
      let s : State := { s with rop := { s.rop with yielding := none } }
      let s := s.iff (y.reason == 1) State.activated
      s.iff (y.reason == 0) fun s => State.setReg { s with qe := { s.qe with halted := true } } .qeStatHalted 1

/-- Counts the consecutive edges BELAYED for one pool, and yields it home when its time has come (R306). -/
def State.handback (s : State) (pid : BitVec 16) : State :=
  match s.pool pid, s.partnerAddr with
  | some p, some a =>
    if s.phase = .online ∧ s.reg .ropCfgHandback = 1 ∧ p.cur.home = a ∧ s.jnl.belay = .belayed ∧ p.belayedFor ≥ s.reg .ropHandbackTicks
        ∧ s.rop.yielding.isNone ∧ !p.yielded then s.startYield [pid] 2
    else s
  | _, _ => s

/-- Every edge: the belayed edges of each pool, and handback. -/
def State.handbacks (s : State) : State :=
  let up := s.jnl.belay == .belayed
  let s : State := { s with pools := s.pools.map fun p => { p with belayedFor := if up then p.belayedFor + 1 else 0 } }
  s.each s.pools fun s p => s.handback p.cur.id

/-- YIELD arrives: the pools named are fenced at once and taken over (R303, R305). -/
def State.yieldIn (s : State) (h : FrameHdr) (pools : List (BitVec 16)) : State :=
  s.withSeq 0x30 h fun s => if s.partnerAddr = some h.src then s.each pools fun s pid => s.startFence pid true else s

/-- TAKEOVER_ACK arrives; it is honoured at the next step 3, once every pool of the yield has been taken. -/
def State.ackIn (s : State) (h : FrameHdr) (pools : List (BitVec 16)) : State :=
  s.withSeq 0x31 h fun s =>
    match s.rop.yielding with
    | none => s
    | some y =>
      let taken := fun pid => pools.contains pid || (s.pool pid).isNone
      let rest := y.pools.filter fun pid => !taken pid
      if s.partnerAddr ≠ some h.src ∨ y.sentAt.isNone then s
      else { s with rop := { s.rop with yielding := some { y with ack := rest.isEmpty } } }

end Sys2Proof.Machine
end

