-- ==== Sys2Proof/Machine/Rope.lean ====
section
/-!
DEFINITION. The rope's commands: what arrives from peers, and the rope's timers when their row is commanded by itself (R290 to R307). The same timers run at
every tick edge.
-/
namespace Sys2Proof.Machine

/-! ### Frames that arrive -/

/-- ANNOUNCE (R290, R291). -/
def execAnnounce (h : FrameHdr) (serial : BitVec 128) (period : BitVec 3) (state : BitVec 8) (ips : List (BitVec 128)) (s : State) :
    Host.Outcome State Fault Refusal := .next (s.clr.announceIn h serial period state ips)

/-- HEARTBEAT (R293). -/
def execHeartbeat (h : FrameHdr) (path : Nat) (p : HbPayload) (s : State) : Host.Outcome State Fault Refusal := .next ((s.clr.etherFrame path).heartbeatIn h path p)

/-- BELAY_SETUP (R297). -/
def execBelaySetup (h : FrameHdr) (p : BelaySetupPayload) (s : State) : Host.Outcome State Fault Refusal := .next (s.clr.setupIn h p)

/-- BELAY_BLOCK (R298, R299). -/
def execBelayBlock (h : FrameHdr) (slot : BitVec 64) (blk : Block) (s : State) : Host.Outcome State Fault Refusal :=
  .next (s.clr.belayBlockIn h slot.toNat blk)

/-- BELAY_RECORDS (R94). -/
def execBelayRecords (h : FrameHdr) (first : BitVec 32) (recs : List JRec) (s : State) : Host.Outcome State Fault Refusal :=
  .next (s.clr.recordsIn h first recs)

/-- BELAY_SEAL (R96). -/
def execBelaySeal (h : FrameHdr) (r : SealRec) (s : State) : Host.Outcome State Fault Refusal := .next (s.clr.sealIn h r)

/-- BELAY_CONFIRM (R96). -/
def execBelayConfirm (h : FrameHdr) (tick : BitVec 64) (s : State) : Host.Outcome State Fault Refusal := .next (s.clr.confirmIn h tick.toNat)

/-- SEAL_NAK (R97). -/
def execSealNak (h : FrameHdr) (tick : BitVec 64) (s : State) : Host.Outcome State Fault Refusal := .next (s.clr.sealNakIn h tick.toNat)

/-- WIN_NAK (R299). -/
def execWinNak (h : FrameHdr) (seq : BitVec 32) (_slot : BitVec 64) (s : State) : Host.Outcome State Fault Refusal := .next (s.clr.winNakIn h seq)

/-- FWD_CMD (R246, R302). -/
def execFwdCmd (h : FrameHdr) (fid : BitVec 64) (port : PciePort) (qid tag : BitVec 16) (entry : List RingUnit) (s : State) :
    Host.Outcome State Fault Refusal := .next (s.clr.fwdCmdIn h fid port qid tag entry)

/-- FWD_DATA (R302). -/
def execFwdData (h : FrameHdr) (fid : BitVec 64) (off : Nat) (blocks : List Block) (s : State) : Host.Outcome State Fault Refusal :=
  .next (s.clr.fwdDataIn h fid off blocks)

/-- FWD_REPLY (R247). -/
def execFwdReply (h : FrameHdr) (fid : BitVec 64) (status detail : BitVec 16) (result : BitVec 64) (acc : BitVec 32) (s : State) :
    Host.Outcome State Fault Refusal :=
  .next (s.clr.fwdReplyIn h fid ⟨status.extractLsb' 0 8, status.extractLsb' 8 8, detail, result⟩ acc)

/-- DIR_CLAIM (R301). -/
def execDirClaim (h : FrameHdr) (vol claimant : BitVec 12) (answer : Option Bool) (s : State) : Host.Outcome State Fault Refusal :=
  .next (s.clr.claimIn h vol claimant answer)

/-- DIR_UPDATE (R301). -/
def execDirUpdate (h : FrameHdr) (es : List DirEntry) (s : State) : Host.Outcome State Fault Refusal := .next (s.clr.dirUpdateIn h es)

/-- YIELD (R303, R305). -/
def execYieldFrame (h : FrameHdr) (pools : List (BitVec 16)) (_lastSealed : BitVec 64) (s : State) : Host.Outcome State Fault Refusal :=
  .next (s.clr.yieldIn h pools)

/-- TAKEOVER_ACK (R305). -/
def execTakeoverAck (h : FrameHdr) (pools : List (BitVec 16)) (s : State) : Host.Outcome State Fault Refusal := .next (s.clr.ackIn h pools)

/-! ### Sending and timers -/

/-- With the partner that the image names. -/
def State.withPartner (s : State) (go : State → BitVec 12 → State) : State :=
  match s.partnerAddr with
  | some a => go s a
  | none => s

/-- YIELD_SEND: the steps of R305 that are due. -/
def execYieldSend (s : State) : Host.Outcome State Fault Refusal := .next s.clr.stepYield

/-- ANNOUNCE_SEND (R290). -/
def execAnnounceSend (s : State) : Host.Outcome State Fault Refusal := .next s.clr.announceAll

/-- FRAME_RETX_TIMEOUT (R289). -/
def execFrameRetxTimeout (peer : BitVec 12) (seq : BitVec 32) (s : State) : Host.Outcome State Fault Refusal := .next (s.clr.retxOne peer seq)

/-- PEER_LOST_TIMEOUT (R291). -/
def execPeerLostTimeout (peer : BitVec 12) (s : State) : Host.Outcome State Fault Refusal := .next (s.clr.peerTimeout peer)

/-- PATH_DOWN_TIMEOUT (R292). -/
def execPathDownTimeout (peer : BitVec 12) (path : Nat) (s : State) : Host.Outcome State Fault Refusal := .next (s.clr.pathDown peer path)

/-- PATH_UP (R292). -/
def execPathUp (peer : BitVec 12) (path : Nat) (s : State) : Host.Outcome State Fault Refusal := .next (s.clr.pathUp peer path)

/-- PARTNER_SUSPECT (R303). -/
def execPartnerSuspect (s : State) : Host.Outcome State Fault Refusal := .next (s.clr.withPartner State.suspect)

/-- PARTNER_CHECK (R303). -/
def execPartnerCheck (s : State) : Host.Outcome State Fault Refusal := .next (s.clr.withPartner State.beginCheck)

/-- PARTNER_CHECK_RETRY (R303). -/
def execPartnerCheckRetry (s : State) : Host.Outcome State Fault Refusal :=
  .next (s.clr.withPartner fun s a => if s.rop.partner = .suspect true then s.stepCheck a else s)

/-- BELAY_SETUP_RETRY (R297). -/
def execBelaySetupRetry (s : State) : Host.Outcome State Fault Refusal := .next s.clr.stepSetup

/-- SEAL_NAK_TIMEOUT (R97). -/
def execSealNakTimeout (tick : BitVec 64) (s : State) : Host.Outcome State Fault Refusal :=
  .next (s.clr.withPartner fun s a => s.each (s.rop.rxSeals.filter fun x => x.srec.tick == tick) fun s x => s.testSeal a x)

/-- HANDBACK_TIMER (R306). -/
def execHandbackTimer (pool : BitVec 16) (s : State) : Host.Outcome State Fault Refusal := .next (s.clr.handback pool)

end Sys2Proof.Machine
end

