-- ==== Sys2Proof/Machine/Time.lean ====
section
/-!
DEFINITION. TCK: the reference (R21), the servo (R18, R19), the lock states (R24), the one step before ONLINE (R20), PPS (R23), and the time messages of
R294. Stamps and offsets are in picoseconds.
-/
namespace Sys2Proof.Machine

/-! ### The servo -/

/-- ±100 ppm of the 40 ns increment, in 2^-32 ns (R18). -/
def trimMax : Int := 17179869

/-- The servo takes a message: its new trim is free within its bound, since the spec gives no gain. -/
def State.servo (s : State) : State :=
  { s with tck := { s.tck with trim := max (-trimMax) (min trimMax (Config.servoTrim s.freeCtr)) }, freeCtr := s.freeCtr + 1 }

/-- A stamp of a departure in the tick under way, taken at a port's PCS to 0.625 ns (R18, R294): when within the tick is free. -/
def State.stamp (s : State) : Nat × State :=
  let (w, s) := s.freeWord
  (s.tck.now * 1000 + 625 * (w.toNat % (s.periodNs * 8 / 5)), s)

/-! ### The reference (R21) -/

/-- Peers that are UP. -/
def State.upPeers (s : State) : List (BitVec 12) := (s.rop.peers.filter fun e => e.2.st == .up).map (·.1)

/-- The lower of two rope addresses. -/
def lower (a b : BitVec 12) : BitVec 12 := if b < a then b else a

/-- The reference that R21 names, as far as this module can tell: the lowest address of those that have PPS locked, else the lowest. A peer counts once it
has sent TIME_SYNC, and every UP peer does when the reference so far is gone. -/
def State.refNow (s : State) : BitVec 12 :=
  let ups := s.upPeers
  let sync := s.tck.syncers.filter fun e => ups.contains e.1
  let pps := (if s.tck.ppsLock then [s.selfAddr] else []) ++ (sync.filter (·.2)).map (·.1)
  let all := if s.tck.isRef || ups.contains s.tck.refAddr then sync.map (·.1) else ups
  match pps with
  | a :: r => r.foldl lower a
  | [] => all.foldl lower s.selfAddr

/-- This module becomes the reference (R24): the servo stops; PPS_IN disciplines it if locked, else it runs at the nominal increment. -/
def State.takeRef (s : State) : State :=
  let s : State := { s with tck := { s.tck with isRef := true, refAddr := s.selfAddr, lock := .locked, trim := 0, exch := [], sync := none, reqSent := none } }
  s.iff s.tck.ppsLock State.servo

/-- Follows R21 once the module has rope time. -/
def State.chooseRef (s : State) : State :=
  if s.tck.lock = .free then s
  else
    let r := s.refNow
    if r = s.selfAddr then (if s.tck.isRef then s else s.takeRef)
    else if r = s.tck.refAddr ∧ !s.tck.isRef then s
    else { s with tck := { s.tck with isRef := false, refAddr := r, exch := [], sync := none, reqSent := none, near := 0, lastMsg := s.edge } }

/-! ### The step of R20 -/

/-- Moves rope time by a number of nanoseconds, and with it every edge number that was taken in local time. -/
def State.stepTime (s : State) (d : Int) : State :=
  let old := s.edge
  let s : State := { s with tck := { s.tck with now := ((s.tck.now : Int) + d).toNat, acc := ((s.tck.acc : Int) + d * 2 ^ 32).toNat, isLocal := false } }
  let e := s.edge
  let move := fun (p : Peer) => { p with heard := e, hbDue := e, unacked := p.unacked.map fun u => { u with sent := e } }
  { s with
    mgt := { s.mgt with joinAt := s.mgt.joinAt + ((e : Int) - old), relRst := s.mgt.relRst + d }
    rop := { s.rop with peers := s.rop.peers.map fun x => (x.1, move x.2) }
    tck := { s.tck with lastMsg := e } }

/-- Local time becomes rope time, and this module the reference (R20, R24). -/
def State.adoptLocal (s : State) : State := State.takeRef { s with tck := { s.tck with isLocal := false } }

/-! ### Lock states (R24) -/

/-- The offset as `TCK_OFFSET` shows it: it saturates (R37). -/
def showOffset (o : Int) : BitVec 32 := BitVec.ofInt 32 (max (-(2 ^ 31 - 1)) (min (2 ^ 31 - 1) o))

/-- Enters HOLDOVER with the increment frozen. -/
def State.holdover (s : State) : State := { s with tck := { s.tck with lock := .holdover, near := 0 } }

/-- TIME_SPLIT is logged at most once in 1,024 edges while the module stays in HOLDOVER. -/
def State.split (s : State) : State :=
  let due : Bool := match s.tck.splitAt with
    | some e => s.tck.lock != .holdover || decide (s.edge ≥ e + 1024)
    | none => true
  if due then State.log { s with tck := { s.tck with splitAt := some s.edge } } .timeSplit else s

/-- One message with its offset drives the lock states (R24). -/
def State.takeOffset (s : State) (o : Int) : State :=
  let s := s.setReg .tckOffsetPs (showOffset o).toNat
  let close := decide (o.natAbs ≤ 10000)
  let inSlew := decide (o.natAbs ≤ 1000000)
  match s.tck.lock with
  | .free =>
    if s.phase = .ropeJoin then
      let s := (s.stepTime (-(o / 1000))).servo
      { s with tck := { s.tck with lock := .acquiring, near := 0, exch := [] } }
    else s
  | .acquiring =>
    let s := s.servo
    let n := if close then s.tck.near + 1 else 0
    if n ≥ 16 then State.log { s with tck := { s.tck with near := n, lock := .locked } } .timeLocked
    else { s with tck := { s.tck with near := n } }
  | .locked => if inSlew then s.servo else s.split.holdover
  | .holdover =>
    if inSlew then
      let s := s.servo
      { s with tck := { s.tck with lock := .acquiring, near := if close then 1 else 0 } }
    else s.split

/-- Four consecutive expected messages are missing: one is expected at every 16th edge (R21, R24). -/
def State.syncMissing (s : State) : Bool :=
  !s.tck.isRef && (s.tck.lock == .acquiring || s.tck.lock == .locked) && decide (s.edge > s.tck.lastMsg + 64)

/-- The move to HOLDOVER when they are; the silent reference no longer counts as PPS-locked. -/
def State.testSync (s : State) : State :=
  if s.syncMissing then
    let s := s.holdover.log .timeHoldover
    { s with tck := { s.tck with syncers := s.tck.syncers.map fun e => if e.1 = s.tck.refAddr then (e.1, false) else e } }
  else s

/-! ### Time messages (R294) -/

/-- TIME_SYNC arrives with its departure stamp t1 and arrival stamp t2. -/
def State.syncIn (s : State) (h : FrameHdr) (path t1 t2 : Nat) (ref : BitVec 12) (pps : Bool) : State :=
  s.withFrame 0x03 h fun s =>
    let s := (s.hear h.src none).onPath h.src path
    if ref ≠ h.src then s
    else
      let s := State.chooseRef { s with tck := { s.tck with syncers := tset s.tck.syncers h.src pps } }
      if s.tck.lock = .free ∨ (!s.tck.isRef ∧ s.tck.refAddr = h.src) then
        { s with tck := { s.tck with refAddr := h.src, sync := some (t1, t2, path, s.edge), reqSent := none, lastMsg := s.edge } }
      else s

/-- DELAY_REQ arrives, stamped t4 at its arrival: the reference answers on the same path. -/
def State.delayReqIn (s : State) (h : FrameHdr) (path t4 : Nat) : State :=
  s.withFrame 0x04 h fun s =>
    let s := (s.hear h.src none).onPath h.src path
    if s.tck.isRef then s.sendPlain (h.src.setWidth 16) path (.delayResp t4) else s

/-- The exchange with the shortest round trip. -/
def bestOf (l : List Exchange) : Option Exchange :=
  l.foldl (fun b x => match b with
    | none => some x
    | some y => if x.roundTrip < y.roundTrip then some x else some y) none

/-- DELAY_RESP arrives: with all four stamps the offset of the best of the last sixteen exchanges is taken. -/
def State.delayRespIn (s : State) (h : FrameHdr) (path t4 : Nat) : State :=
  s.withFrame 0x05 h fun s =>
    let s := (s.hear h.src none).onPath h.src path
    match s.tck.sync, s.tck.reqSent with
    | some (t1, t2, _, _), some t3 =>
      if h.src ≠ s.tck.refAddr ∨ s.tck.isRef then s
      else
        let a : Int := (t2 : Int) - t1
        let b : Int := (t4 : Int) - t3
        let x : Exchange := { roundTrip := a + b, offset := (a - b) / 2 }
        let l := (x :: s.tck.exch).take 16
        let s : State := { s with tck := { s.tck with exch := l, sync := none, reqSent := none } }
        s.takeOffset ((bestOf l).getD x).offset
    | _, _ => s

/-- The reference sends TIME_SYNC at every 16th edge to every UP peer, on the lowest UP path. -/
def State.sendSync (s : State) : State :=
  if s.tck.isRef && s.ropeOn && s.edge % 16 == 0 && s.tck.syncAt != some s.edge then
    State.each { s with tck := { s.tck with syncAt := some s.edge } } (s.rop.peers.filter fun e => e.2.st == .up) fun s e =>
      match e.2.upPaths with
      | n :: _ =>
        let (t1, s) : Nat × State := s.stamp
        s.sendPlain (e.1.setWidth 16) n (.timeSync t1 s.selfAddr s.tck.ppsLock)
      | [] => s
  else s

/-- DELAY_REQ goes out on the path of the TIME_SYNC, 8 edges after it. -/
def State.sendDelayReq (s : State) : State :=
  match s.tck.sync, s.tck.reqSent with
  | some (_, _, path, e), none =>
    if s.edge ≥ e + 8 ∧ s.ropeOn then
      let (t3, s) : Nat × State := s.stamp
      State.sendPlain { s with tck := { s.tck with reqSent := some t3 } } (s.tck.refAddr.setWidth 16) path .delayReq
    else s
  | _, _ => s

/-! ### PPS (R23) -/

/-- PPS_IN unlocks: discipline falls back to timing messages, and the reference passes on under R21. -/
def State.ppsUnlock (s : State) : State :=
  if s.tck.ppsLock then State.chooseRef (State.log { s with tck := { s.tck with ppsLock := false, ppsMiss := 0 } } .ppsLost) else s

/-- One more pulse missing or rejected: at the third in a row PPS_IN unlocks. -/
def State.ppsBad (s : State) (sec : Nat) : State :=
  let s : State := { s with tck := { s.tck with ppsSec := max s.tck.ppsSec sec, ppsMiss := s.tck.ppsMiss + 1 } }
  s.iff (decide (s.tck.ppsMiss ≥ 3)) State.ppsUnlock

/-- A rising edge of PPS_IN at a rope time. Within 1 µs of a second boundary it is accepted, and locks PPS_IN; farther off, a locked PPS_IN rejects it. An
accepted pulse, or any pulse while unlocked, disciplines a reference. -/
def State.ppsPulse (s : State) (t : Nat) : State :=
  if s.reg .tckCfgPpsEn ≠ 1 ∨ s.tck.lock = .free then s
  else
    let sec := (t + 500000000) / 1000000000
    let off := ((t : Int) - sec * 1000000000).natAbs
    if off ≤ 1000 then
      let s := State.chooseRef { s with tck := { s.tck with ppsLock := true, ppsMiss := 0, ppsSec := sec } }
      s.iff s.tck.isRef State.servo
    else if s.tck.ppsLock then s.ppsBad sec
    else s.iff s.tck.isRef State.servo

/-- The seconds that have passed, and PPS_OUT (R23): it rises at a second boundary and stays high for 100 µs. -/
def State.ppsEdge (s : State) (before : Nat) : State :=
  let s := s.iff (s.tck.ppsLock && decide (s.tck.now > (s.tck.ppsSec + 1) * 1000000000 + 1000)) fun s => s.ppsBad (s.tck.ppsSec + 1)
  let en := decide (s.reg .tckCfgPpsOutEn = 1) && !s.tck.isLocal
  let rise := decide (before / 1000000000 < s.tck.now / 1000000000)
  let s : State := { s with tck := { s.tck with ppsOut := en && decide (s.tck.now % 1000000000 < 100000) } }
  s.iff (en && rise) fun s => s.emit .ppsOut

/-! ### The clock -/

/-- Does TCK produce edges: SYS_RST# is released and the module is powered? -/
def State.ticking (s : State) : Bool :=
  match s.phase with
  | .powerOff | .reset | .bivouac .off => false
  | .trustBoot | .configLoad | .memoryInit | .vaultRecovery | .ropeJoin | .memberDiscovery | .poolAssembly | .journalReconcile | .online | .failStop
  | .bivouac .quiesce | .bivouac .phase1 | .bivouac .phase2 | .bivouac .close => true

/-- What TCK adds to its accumulator on a cycle of SYS_CLK: 40 ns and the servo's trim, in 2^-32 ns (R18). -/
def Tck.increment (t : Tck) : Nat := ((40 * 2 ^ 32 : Int) + t.trim).toNat

/-- The accumulator at the last cycle of SYS_CLK up to a rope time: as many increments as fit (R18). -/
def Tck.runTo (t : Tck) (now : Nat) : Tck := { t with now := now, acc := t.acc + (now * 2 ^ 32 - t.acc) / t.increment * t.increment }

/-- The next edge falls: rope time is its number times T (R26); between two cycles of SYS_CLK the core clock finds it (R18). -/
def State.advance (s : State) : State :=
  let before := s.tck.now
  State.ppsEdge { s with tck := s.tck.runTo ((s.edge + 1) * s.periodNs) } before

/-! ### Meanings -/

/-- TIME_SYNC (R294). -/
def execTimeSync (h : FrameHdr) (path t1 t2 : Nat) (refAddr : BitVec 12) (pps : Bool) (s : State) : Host.Outcome State Fault Refusal :=
  .next ((s.clr.etherFrame path).syncIn h path t1 t2 refAddr pps)

/-- DELAY_REQ (R294). -/
def execDelayReq (h : FrameHdr) (path t4 : Nat) (s : State) : Host.Outcome State Fault Refusal := .next ((s.clr.etherFrame path).delayReqIn h path t4)

/-- DELAY_RESP (R294). -/
def execDelayResp (h : FrameHdr) (path t4 : Nat) (s : State) : Host.Outcome State Fault Refusal := .next ((s.clr.etherFrame path).delayRespIn h path t4)

/-- TIME_SYNC_SEND (R294). -/
def execTimeSyncSend (s : State) : Host.Outcome State Fault Refusal := .next s.clr.sendSync

/-- DELAY_REQ_SEND (R294). -/
def execDelayReqSend (s : State) : Host.Outcome State Fault Refusal := .next s.clr.sendDelayReq

/-- TIMING_MESSAGES_MISSING (R24). -/
def execTimingMessagesMissing (s : State) : Host.Outcome State Fault Refusal := .next s.clr.testSync

/-- PPS_IN_PULSE (R23). -/
def execPpsInPulse (at_ : Nat) (s : State) : Host.Outcome State Fault Refusal := .next (s.clr.ppsPulse at_)

/-- PPS_LOST (R23). -/
def execPpsLost (s : State) : Host.Outcome State Fault Refusal := .next s.clr.ppsUnlock

end Sys2Proof.Machine
end

