-- ==== Sys2Proof/Machine/Power.lean ====
section
/-!
DEFINITION. Resets of the whole module and the choice of a slot (R85, R334, R340, R426, R427), the vault's readiness and dies (R365 to R367), the bivouac
(R368 to R370), and the temperature, clock and rail events that start it or power the module down (R425, R429, R430).
-/
namespace Sys2Proof.Machine

/-! ### What a reset leaves (R85, R340) -/

/-- Everything that SYS_RST# or a loss of power discards is at its reset value; what the vault, the configuration NVM and the fuses hold stays. A number of
the newest event records has reached the vault in a bivouac. -/
def State.cold (s : State) (flushed : Nat) : State :=
  let r := State.reset
  { r with
    pending := s.pending
    part := s.part
    pins := { s.pins with wake := [false, false], sysRstHeld := false }
    temps := s.temps
    vlt := { r.vlt with dies := s.vlt.dies, fails := s.vlt.fails, areas := s.vlt.areas, target := s.vlt.target, cycles := s.vlt.cycles, spare := s.vlt.spare,
                        trust := s.vlt.trust, evrLog := s.vlt.evrLog, evrLow := s.vlt.evrLow, evrCairn := s.vlt.evrCairn, cause := s.vlt.cause }
    tru := { r.tru with trec := s.tru.trec, recSeq := s.tru.recSeq, recNvm := s.tru.recNvm, krPresent := s.tru.krPresent, krWrapped := s.tru.krWrapped, krCheck := s.tru.krCheck, certStore := s.tru.certStore,
                        bootCnt := s.tru.bootCnt, idxFuses := s.tru.idxFuses, fwFuses := s.tru.fwFuses, low := s.tru.low, exhausted := s.tru.exhausted,
                        trng := s.tru.trng }
    evr := s.evr.restart s.vlt.evrLow flushed
    mgt := { r.mgt with dir := s.mgt.dir, dirNvm := s.mgt.dirNvm, dirCur := s.mgt.dirCur, slots := s.mgt.slots, staging := s.mgt.staging }
    freeCtr := s.freeCtr
    out := s.out }

/-- SYS_RST# takes effect. -/
def State.enterReset (s : State) (flushed : Nat := 0) : State := { s.cold flushed with phase := .reset }

/-! ### Start (R334, R426) -/

/-- Writes the slot directory: the other copy, with a sequence number one higher (R333). -/
def State.writeDir (s : State) (f : Directory → Directory) : State :=
  let d : Directory := { f s.mgt.dir with seq := s.mgt.dir.seq + 1 }
  let at_ := 1 - s.mgt.dirCur
  { s with mgt := { s.mgt with dir := d, dirNvm := s.mgt.dirNvm.set at_ (dirBytes d), dirCur := at_ } }

/-- Halts in the state that failed (R334, R340). -/
def State.bootHalt (s : State) (cause : Nat) : State :=
  State.setReg { s with mgt := { s.mgt with bootHalt := true, cause := cause } } .glbAlertBootHalt 1

/-- A slot runs: is it the one on trial? -/
def State.runSlot (s : State) (slot : Nat) : State :=
  { s with phase := .trustBoot, mgt := { s.mgt with slot := slot, onTrial := s.mgt.dir.trial == some slot } }

/-- The slot fails: the other one is tried once, else the module halts (R334). -/
def State.slotFail (s : State) (cause : Nat) : State :=
  if s.mgt.triedOther then s.bootHalt cause
  else
    let s : State := { s with mgt := { s.mgt with triedOther := true, fallback := true } }
    (s.runSlot (1 - s.mgt.slot)).log .bootFallback

/-- Ports whose PERST# is not asserted become ready: R325 counts from the release of SYS_RST# (R427). -/
def State.readyPorts (s : State) : State :=
  { s with hif := { s.hif with ports := s.hif.ports.zipIdx.map fun (p, i) => { p with ready := !(s.pins.perst.getD i true) } } }

/-- The directory in force is read from its copies (R333). -/
def State.readDir (s : State) : State :=
  let d := dirAtStart s.mgt.dirNvm
  { s with mgt := { s.mgt with dir := d.1, dirCur := d.2 } }

/-- Chooses the first slot and enters TRUST_BOOT (R334). When the directory cannot be written, the first slot fails with cause 0x01. -/
def State.startBoot (s : State) (dirOk : Bool) : State :=
  let s : State := s.readyPorts
  let s : State := State.readDir { s with mgt := { s.mgt with waitCool := false, relRst := s.tck.now } }
  let d := s.mgt.dir
  let swap := fun (n : Nat) => if s.pins.slotSel then 1 - n else n
  match d.trial with
  | some t =>
    if d.attempts > 0 then
      let first := swap t
      if dirOk then
        let s := s.writeDir fun d => { d with attempts := d.attempts - 1 }
        State.runSlot { s with mgt := { s.mgt with first := first } } first
      else ((State.runSlot { s with mgt := { s.mgt with first := first } } first).slotFail 1)
    else
      let first := swap d.active
      let s : State := { s with mgt := { s.mgt with first := first } }
      if dirOk then ((s.writeDir fun d => { d with trial := none, attempts := 0 }).log .fwRollback).runSlot first
      else (s.runSlot first).slotFail 1
  | none => State.runSlot { s with mgt := { s.mgt with first := swap d.active } } (swap d.active)

/-! ### Temperatures (R429, R430) -/

/-- Warning threshold in °C. -/
def warnAt (x : Sensor) : Int :=
  match x with
  | .die => 100
  | .hbm _ => 90
  | .vault => 80

/-- Critical threshold in °C. -/
def critAt (x : Sensor) : Int := warnAt x + 10

/-- Takes a reading and drives THERM_ALERT#: asserted while a sensor is at or above its warning threshold, deasserted when every one is 5 °C below it. -/
def State.sense (s : State) (x : Sensor) (t : Int) : State :=
  let ts := tset s.temps x t
  let hot := ts.any fun e => decide (e.2 ≥ warnAt e.1)
  let cool := ts.all fun e => decide (e.2 ≤ warnAt e.1 - 5)
  { s with temps := ts, pins := { s.pins with thermAlert := if hot then true else if cool then false else s.pins.thermAlert } }

/-- Is a sensor above its warning threshold? -/
def State.tooHot (s : State) : Bool := s.temps.any fun e => decide (e.2 > warnAt e.1)

/-- Is every sensor below it? -/
def State.cooled (s : State) : Bool := s.temps.all fun e => decide (e.2 < warnAt e.1)

/-! ### The vault's dies and readiness (R365 to R367) -/

/-- A die has failed a program or an erase; the third failure retires it. -/
def State.dieFail (s : State) (die : Nat) : State :=
  if !s.vlt.dies.contains die then s
  else
    let n := (tget s.vlt.fails die).getD 0 + 1
    let s : State := { s with vlt := { s.vlt with fails := tset s.vlt.fails die n } }
    if n < 3 then s else State.log { s with vlt := { s.vlt with dies := s.vlt.dies.erase die } } .vaultDieRetired 0 0 0 die

/-- Flushes the areas hold, with their area. -/
def Vlt.flushes (v : Vlt) : List (Nat × Flush) := (List.range 2).filterMap fun a => (v.areas.getD a none).map fun f => (a, f)

/-- The highest flush number found in either area (R370, R373). -/
def Vlt.topFlush (v : Vlt) : BitVec 32 := v.flushes.foldl (fun n e => if n < e.2.num then e.2.num else n) 0

/-- The target of the next flush: the area that does not hold the most recent one (R365). -/
def Vlt.retarget (v : Vlt) : Vlt :=
  let top := v.topFlush
  { v with target := match v.flushes.find? fun e => e.2.num == top with
      | some (a, _) => 1 - a
      | none => v.target }

/-- Starts to erase the target when it is not erased (R365). -/
def Vlt.eraseTarget (v : Vlt) : Vlt :=
  let v := v.retarget
  { v with erasing := (v.areas.getD v.target none).isSome }

/-- ⌈1.15 × E⌉ of R367 in joules, for a dirty limit in GiB and d dies in service; the register holds no more than 65,535. -/
def energyReq (dirtyGib d : Nat) : Nat :=
  if d = 0 then 65535
  else
    let data := (dirtyGib + 1) * 2 ^ 30
    let num := 9775 * (25000000000 * d + 320 * data)
    let den := 12500000000000 * d
    min 65535 ((num + den - 1) / den)

/-- Worst block wear in percent of 60,000 cycles (R373). -/
def Vlt.wearPct (v : Vlt) : Nat := (v.cycles.foldl max 0) / 600

/-- The failing conditions of R366. -/
def State.notReadyBits (s : State) : BitVec 5 :=
  let v := s.vlt
  let b := fun (bad : Bool) (i : Nat) => if bad then 2 ^ i else 0
  BitVec.ofNat 5 (b (v.erasing || (v.areas.getD v.target none).isSome) 0 + b (decide (v.dies.length < 56) || decide (v.wearPct ≥ 100)) 1
    + b (decide (v.holdMv < 11400)) 2 + b (decide (s.reg .vltHoldDeclJ < v.eReq)) 3 + b (!v.trust.valid) 4)

/-- Step 1: readiness (R366). -/
def State.vaultEdge (s : State) : State :=
  let s : State := { s with vlt := { s.vlt with eReq := energyReq (s.reg .cchPartDirtyGib) s.vlt.dies.length } }
  let nr := s.notReadyBits
  let now := nr == 0
  let was := s.vlt.ready
  let s : State := { s with vlt := { s.vlt with nr := nr, ready := now } }
  if now = was then s else s.log (if now then .vaultReady else .vaultNotReady)

/-! ### The bivouac (R369) -/

/-- Starts a bivouac. Its cause: 0x00 PWR_FAIL#, 0x01 temperature, 0x02 SYS_CLK, 0x03 a solo FAIL_STOP flush. -/
def State.startBivouac (s : State) (cause : Nat) : State :=
  let s := s.log .bivouacStart 0 0 0 cause
  { s with phase := .bivouac .quiesce, vlt := { s.vlt with cause := cause, failStopFlush := cause == 3, onHold := cause == 0 } }

/-- What phase 1 and phase 2 hold: the state as quiescence leaves it. The tick left open has no seal, and its records are left out (R114). A pool secret
is never stored unwrapped (R159): the pools' metadata hold it wrapped. -/
def State.flushOf (s : State) : Flush :=
  { num := s.vlt.topFlush + 1, failStop := s.vlt.failStopFlush, boot := w32 s.tru.bootCnt, edge := s.edge, lastSeal := s.jnl.lastSeal, ph1 := none, ph2 := none
    consumed := false, incLogged := false, jnl := some s.jnl, cch := some s.cch, fix := some s.fix, pools := s.pools.map fun p => { p with secret := 0 }
    locks := s.ord.locks, overflow := s.qe.cqs.map fun e => (e.1, e.2.overflow), evRecs := s.evr.waiting
    mirror := s.rop.mirror, recv := s.rop.recv }

/-- Ports power down at the end of quiescence (R284, R369). -/
def State.portsDown (s : State) : State :=
  { s with
    mbr := { s.mbr with linkUp := s.mbr.linkUp.map fun _ => false, cmds := [], dead := [], done := [] }
    rop := { s.rop with peers := [], partner := .none, txq := [], takeovers := [], yielding := none } }

/-- QUIESCE ends: the admitted transfers have ended, the ports power down, and phase 1 begins in the target area. In a FAIL_STOP flush the PCIe ports stay up
and SYS_CLK keeps running. -/
def State.quiesced (s : State) : State :=
  if s.phase ≠ .bivouac .quiesce then s
  else
    let fs := s.vlt.failStopFlush
    let s := s.portsDown
    let s := s.iff (!fs) fun s => State.holdover { s with hif := { s.hif with ports := s.hif.ports.map fun _ => HPort.reset } }
    let s : State := { s with vlt := s.vlt.retarget, dmv := { Dmv.reset with slotsUsed := s.dmv.slotsUsed.map fun _ => 0 }, tru := { s.tru with reqs := [] } }
    let f := s.flushOf
    { s with phase := .bivouac .phase1
             vlt := { s.vlt with areas := s.vlt.areas.set s.vlt.target (some f), erasing := false, flushing := some s.vlt.target } }

/-- Changes the flush being written. -/
def State.updFlush (s : State) (g : Flush → Flush) : State :=
  match s.vlt.flushing with
  | some a => { s with vlt := { s.vlt with areas := s.vlt.areas.modify a fun f => f.map g } }
  | none => s

/-- A seal record of a flush (R370): kind, duration, pages, slots and page digest. -/
def Flush.sealRec (f : Flush) (kind ms pages slots : Nat) (digest : BitVec 64) : List Byte :=
  withCrc ([0x4C, 0x4E, 0x42, 0x56] ++ leBytes 4 f.num.toNat ++ leBytes 1 kind ++ leBytes 1 (if f.failStop then 1 else 0) ++ [0, 0] ++ leBytes 4 f.boot.toNat
    ++ leBytes 8 f.edge ++ leBytes 8 f.lastSeal ++ leBytes 8 pages ++ leBytes 8 slots ++ leBytes 8 digest.toNat ++ leBytes 4 ms)

/-- Phase 1 is written and sealed (R370); phase 2 is skipped when the belay receive area has size 0. -/
def State.sealed1 (s : State) (ms pages : Nat) (digest : BitVec 64) : State :=
  if s.phase ≠ .bivouac .phase1 then s
  else State.updFlush { s with phase := .bivouac (if s.cch.recvSlots = 0 then .close else .phase2) } fun f =>
    { f with ph1 := some (ms, digest), seals := f.seals ++ [f.sealRec 1 ms pages ((f.cch.map (·.slots.length)).getD 0) digest] }

/-- Phase 2 is written and sealed. -/
def State.sealed2 (s : State) (ms pages : Nat) (digest : BitVec 64) : State :=
  if s.phase ≠ .bivouac .phase2 then s
  else State.updFlush { s with phase := .bivouac .close } fun f => { f with ph2 := some (ms, digest), seals := f.seals ++ [f.sealRec 2 ms pages f.recv.length digest] }

/-- The module is OFF: what was volatile is gone. Records that waited for the log went with phase 1, when it was sealed. -/
def State.turnOff (s : State) (flushed : Bool) : State :=
  let held := s.pins.sysRstHeld
  let s' := s.cold (if flushed then s.evr.waiting else 0)
  { s' with phase := .bivouac .off, pins := { s'.pins with sysRstHeld := held } }

/-- Leaves OFF for RESET, and when SYS_RST# has been released for TRUST_BOOT, unless the module is still too hot (R369, R430). -/
def State.offRelease (s : State) (dirOk : Bool) : State :=
  let hot := s.vlt.cause == 1 && s.tooHot
  let s := s.enterReset
  if hot then { s with mgt := { s.mgt with waitCool := true } } else s.startBoot dirOk

/-- The bivouac closes (R369): BIVOUAC_SEALED is written; a FAIL_STOP flush halts the module, any other powers it down. A SYS_RST# that was held off takes
effect now. -/
def State.closeBivouac (s : State) : State :=
  if s.phase ≠ .bivouac .close then s
  else
    let s := s.log .bivouacSealed
    if s.vlt.failStopFlush then
      let s := s.saveEvents
      if !s.pins.rails then { s.cold 0 with phase := .powerOff }
      else if s.pins.sysRstHeld then
        (if s.pins.sysRst then s.enterReset else s.enterReset.startBoot true)
      else { s with phase := .failStop, vlt := { s.vlt with flushing := none, sealedFs := true } }
    else
      let s := s.turnOff true
      if !s.pins.rails then { s with phase := .powerOff }
      else if s.pins.sysRstHeld && !s.pins.sysRst then s.offRelease true
      else s

/-- HOLD_12V falls below 7.5 V while a phase is written: nothing more is written (R369). -/
def State.holdLow (s : State) : State :=
  match s.phase with
  | .bivouac .phase1 => let s := s.turnOff false; s.iff (!s.pins.rails) fun s => { s with phase := .powerOff }
  | .bivouac .phase2 => let s := s.turnOff true; s.iff (!s.pins.rails) fun s => { s with phase := .powerOff }
  | .powerOff | .reset | .trustBoot | .configLoad | .memoryInit | .vaultRecovery | .ropeJoin | .memberDiscovery | .poolAssembly | .journalReconcile
  | .online | .failStop | .bivouac .quiesce | .bivouac .close | .bivouac .off => s

/-- A cause of a bivouac on main power, or of a power-down without one (R425, R430). -/
def State.emergency (s : State) (cause : Nat) : State :=
  match s.phase with
  | .online | .failStop => s.startBivouac cause
  | .trustBoot | .configLoad | .memoryInit | .vaultRecovery | .ropeJoin | .memberDiscovery | .poolAssembly | .journalReconcile =>
    let s' := s.cold 0
    { s' with phase := .bivouac .off, vlt := { s'.vlt with cause := cause } }
  | .powerOff | .reset | .bivouac .quiesce | .bivouac .phase1 | .bivouac .phase2 | .bivouac .close | .bivouac .off => s

/-- May start-up go on: not halted, not held by PWR_FAIL# (R340)? -/
def State.booting (s : State) (p : Phase) : Bool := s.phase == p && !s.mgt.bootHalt && !s.pins.pwrFail

/-! ### Meanings: power, reset, clock and temperature -/

/-- PWR_FAIL_ASSERTED (R368, R369): shorter than 1 µs it is ignored. In start-up nothing more is admitted, and no bivouac runs (R340). -/
def execPwrFailAsserted (heldNs : Nat) (s : State) : Host.Outcome State Fault Refusal :=
  let s := s.clr
  if heldNs < 1000 then .next s
  else
    let s : State := { s with pins := { s.pins with pwrFail := true } }
    .next (match s.phase with
      | .online | .failStop => s.startBivouac 0
      | .bivouac .quiesce | .bivouac .phase1 | .bivouac .phase2 | .bivouac .close => { s with vlt := { s.vlt with onHold := true } }
      | .powerOff | .reset | .trustBoot | .configLoad | .memoryInit | .vaultRecovery | .ropeJoin | .memberDiscovery | .poolAssembly | .journalReconcile
      | .bivouac .off => s)

/-- PWR_FAIL_DEASSERTED (R369): a running bivouac goes on; a module turned off by PWR_FAIL# with valid rails goes to RESET. -/
def execPwrFailDeasserted (s : State) : Host.Outcome State Fault Refusal :=
  let s : State := s.clr
  let s : State := { s with pins := { s.pins with pwrFail := false } }
  .next (if s.phase = .bivouac .off ∧ s.vlt.cause = 0 ∧ s.pins.rails then s.enterReset else s)

/-- SYS_RST_ASSERTED (R340, R369, R426): held off while a bivouac runs; OFF waits for its release. -/
def execSysRstAsserted (heldNs : Nat) (s : State) : Host.Outcome State Fault Refusal :=
  let s := s.clr
  if heldNs < 1000 then .next s
  else
    let s : State := { s with pins := { s.pins with sysRst := true } }
    .next (match s.phase with
      | .powerOff | .bivouac .off => s
      | .bivouac .quiesce | .bivouac .phase1 | .bivouac .phase2 | .bivouac .close => { s with pins := { s.pins with sysRstHeld := true } }
      | .reset | .trustBoot | .configLoad | .memoryInit | .vaultRecovery | .ropeJoin | .memberDiscovery | .poolAssembly | .journalReconcile
      | .online | .failStop => s.enterReset)

/-- SYS_RST_RELEASED (R334): the straps are sampled, and the start begins. -/
def execSysRstReleased (slotSel testEnLow dirOk : Bool) (s : State) : Host.Outcome State Fault Refusal :=
  let s := s.clr
  if !s.pins.sysRst then .next s
  else
    let s : State := { s with pins := { s.pins with sysRst := false, slotSel := slotSel, testEn := testEnLow, sysClk := true } }
    .next (match s.phase with
      | .reset => s.startBoot dirOk
      | .bivouac .off => if s.pins.rails then s.offRelease dirOk else s
      | .powerOff | .trustBoot | .configLoad | .memoryInit | .vaultRecovery | .ropeJoin | .memberDiscovery | .poolAssembly | .journalReconcile
      | .online | .failStop | .bivouac .quiesce | .bivouac .phase1 | .bivouac .phase2 | .bivouac .close => s)

/-- RAILS_VALID (R340): POWER_OFF ends in RESET; so does OFF after a PWR_FAIL# that is no longer asserted (R369). -/
def execRailsValid (s : State) : Host.Outcome State Fault Refusal :=
  let s : State := s.clr
  let s : State := { s with pins := { s.pins with rails := true } }
  .next (match s.phase with
    | .powerOff => s.enterReset
    | .bivouac .off => if s.vlt.cause = 0 ∧ !s.pins.pwrFail then s.enterReset else s
    | .reset | .trustBoot | .configLoad | .memoryInit | .vaultRecovery | .ropeJoin | .memberDiscovery | .poolAssembly | .journalReconcile | .online
    | .failStop | .bivouac .quiesce | .bivouac .phase1 | .bivouac .phase2 | .bivouac .close => s)

/-- RAILS_FALL (R340): POWER_OFF from any state, but for a bivouac that runs on hold-up, which goes on. -/
def execRailsFall (s : State) : Host.Outcome State Fault Refusal :=
  let s : State := s.clr
  let s : State := { s with pins := { s.pins with rails := false } }
  let running := match s.phase with
    | .bivouac .quiesce | .bivouac .phase1 | .bivouac .phase2 | .bivouac .close => s.vlt.onHold
    | .powerOff | .reset | .trustBoot | .configLoad | .memoryInit | .vaultRecovery | .ropeJoin | .memberDiscovery | .poolAssembly | .journalReconcile
    | .online | .failStop | .bivouac .off => false
  .next (if running then s else { s.cold 0 with phase := .powerOff })

/-- SYS_CLK_LOSS (R425): after PWR_FAIL# the module runs on its own oscillator and ignores SYS_CLK. -/
def execSysClkLoss (s : State) : Host.Outcome State Fault Refusal :=
  let s : State := s.clr
  let s : State := { s with pins := { s.pins with sysClk := false } }
  .next (if s.pins.pwrFail then s else s.emergency 2)

/-- SENSOR_WARNING (R429); a module that waits in RESET to cool starts when every sensor is below its threshold (R430). -/
def execSensorWarning (sensor : Sensor) (tempC : Int) (s : State) : Host.Outcome State Fault Refusal :=
  let s := s.clr.sense sensor tempC
  .next (if s.phase = .reset ∧ s.mgt.waitCool ∧ s.cooled then s.startBoot true else s)

/-- CRITICAL_TEMPERATURE (R430): a sensor at or above its critical threshold for 1 ms. -/
def execCriticalTemperature (sensor : Sensor) (tempC : Int) (s : State) : Host.Outcome State Fault Refusal :=
  let s := s.clr.sense sensor tempC
  .next (if tempC ≥ critAt sensor then s.emergency 1 else s)

/-- HOLD_12V_SAMPLE (R366). -/
def execHold12vSample (mv : BitVec 16) (s : State) : Host.Outcome State Fault Refusal :=
  let s : State := s.clr
  .next { s with vlt := { s.vlt with holdMv := mv.toNat } }

/-- HOLD_12V_LOW (R369). -/
def execHold12vLow (s : State) : Host.Outcome State Fault Refusal := .next s.clr.holdLow

/-! ### Meanings: the bivouac -/

/-- QUIESCE_DONE (R369). -/
def execQuiesceDone (s : State) : Host.Outcome State Fault Refusal := .next s.clr.quiesced

/-- PHASE1_WRITTEN (R369, R370). -/
def execPhase1Written (ms : Nat) (w : PhaseWrite) (s : State) : Host.Outcome State Fault Refusal := .next (s.clr.sealed1 ms w.pages w.digest)

/-- PHASE2_WRITTEN (R369, R370). -/
def execPhase2Written (ms : Nat) (w : PhaseWrite) (s : State) : Host.Outcome State Fault Refusal := .next (s.clr.sealed2 ms w.pages w.digest)

/-- BIVOUAC_CLOSE (R369). -/
def execBivouacClose (s : State) : Host.Outcome State Fault Refusal := .next s.clr.closeBivouac

/-- VAULT_ERASE_DONE (R365): the target is erased, or one die has failed and the erase goes on. -/
def execVaultEraseDone (ok : Bool) (die : Nat) (s : State) : Host.Outcome State Fault Refusal :=
  let s := s.clr
  .next (if !s.vlt.erasing then s
    else if ok then
      { s with vlt := { s.vlt with areas := s.vlt.areas.set s.vlt.target none, erasing := false, cycles := s.vlt.cycles.modify s.vlt.target (· + 1) } }
    else s.dieFail die)

/-- VAULT_PROGRAM_FAIL (R365): the page is written again on the next die. -/
def execVaultProgramFail (die : Nat) (s : State) : Host.Outcome State Fault Refusal := .next (s.clr.dieFail die)


end Sys2Proof.Machine
end

