-- ==== Sys2Proof/Machine/Regs.lean ====
section
/-!
DEFINITION. Registers: what a field may hold (R386, R387), the error latch (R396, R397), what a read returns, writes under the
change classes (R6, R7, R386, R388), the staged sets (R389, R390), the Device Description Table (R315 to R317), the recorder
window (R379) and the management path (R393).
-/
namespace Sys2Proof.Machine

/-! ### Legal values -/

/-- The target kinds a detector allows (R402); none for a value that is no detector. -/
def detKinds (det : Nat) : List Nat :=
  if det = 0 then [] else if det ≤ 3 then [0] else if det ≤ 5 then [5] else if det ≤ 9 then [0, 2, 4] else if det ≤ 0x0B then [4, 5]
  else if det ≤ 0x0D then [0, 7] else if det ≤ 0x10 then [0] else if det = 0x11 then [5] else if det = 0x12 then [0, 2]
  else if det = 0x13 then [0] else if det = 0x14 then [0, 6] else []

/-- Values legal for a field by that field alone (R387), the register tables' "illegal" remarks. -/
def Fld.legal (f : Fld) (v : Nat) : Bool :=
  match f with
  | .tckCfgPeriod => decide (v ≤ 4)
  | .tckIrqDiv => decide (v ≠ 7)
  | .tckBudlim0Host | .tckBudlim0Cod | .tckBudlim0Fix | .tckBudlim0Mbr | .tckBudlim1Rope => decide (1 ≤ v ∧ v ≤ 64)
  | .codLaneEnEn | .codFenceThrN | .fixFenceThrN | .seqPaceLatTicks | .seqFrondTailN | .mbrMediaThrN | .mbrSpinupTicks | .mbrSpinupMax
  | .mbrCcStep | .mbrCcMin | .mbrCcTimer | .ropCfgUdpPort | .ropHandbackTicks | .mgtInjDetCount => decide (v ≠ 0)
  | .jnlBmQuietTicks | .seqMissLimitTicks => decide (1024 ≤ v)
  | .mbrTmoTicks | .ropYieldTmoTicks | .mgtJoinTicks => decide (1250 ≤ v)
  | .mbrReconnTicks | .mgtDiscTicks => decide (125000 ≤ v)
  | .qeQselQid => decide (v ≤ 0x4007)
  | .qeAdmSizeSqExp | .qeAdmSizeCqExp => decide (6 ≤ v ∧ v ≤ 16)
  | .qeAdmSizeVec => decide (v ≤ 31 ∨ v = 0xFFFF)
  | .qeAdmSqLoAddr | .qeAdmCqLoAddr => decide (v % 4096 = 0)
  | .qeAdmHlLoAddr | .qeAdmDlLoAddr => decide (v % 64 = 0)
  | .mbrSplitMode => (List.range 16).all fun i => decide (v / 4 ^ i % 4 ≠ 3)
  | .mgtInjDetDet => !(detKinds v).isEmpty
  | _ => true

/-! ### The error latch (R396) -/

/-- Unit code of the page an offset lies in; 0 for the global page. -/
def pageUnit (off : Nat) : Nat := if off < 0x20000 then 0 else (off - 0x20000) / 0x1000 + 1

/-- Code of a source in MGT_ERRLOG.SRC. -/
def srcCode (src : Src) : Nat := srcIx src

/-- A rejection: the first after the latch is cleared fills it; later ones set OVF; each one counts. -/
def State.reject_ (s : State) (src : Src) (code off val : Nat) : State :=
  let s := s.bump .mgtErrlogCntN
  if s.reg .mgtErrlogValid = 1 then s.setReg .mgtErrlogOvf 1
  else
    let s := (((s.setReg .mgtErrlogCode code).setReg .mgtErrlogUnit (pageUnit off)).setReg .mgtErrlogSrc (srcCode src))
    (((s.setReg .mgtErrlogAddrOffset off).setReg .mgtErrlogValV val).setReg .mgtErrlogEdgeN s.edge).setReg .mgtErrlogValid 1

/-! ### Values that follow from the state -/

/-- A number with a bit set for each index listed. -/
def bitsOf (l : List Nat) : Nat := l.eraseDups.foldl (fun n i => n + 2 ^ i) 0

/-- The number of a Bool. -/
def b01 (b : Bool) : Nat := if b then 1 else 0

/-- Code of a lock state (R37). -/
def lockCode (l : LockSt) : Nat :=
  match l with
  | .free => 0 | .acquiring => 1 | .locked => 2 | .holdover => 3

/-- Code of a belay state (R116). -/
def belayCode (b : BelaySt) : Nat :=
  match b with
  | .solo => 0 | .joining => 1 | .belayed => 2

/-- Code of a partner state (R307). -/
def partnerCode (p : PartnerSt) : Nat :=
  match p with
  | .none => 0 | .up => 1 | .suspect _ => 2 | .fencing => 3 | .absent => 4

/-- Code of a device power state (R330). -/
def dCode (d : DState) : Nat :=
  match d with
  | .d0 => 0 | .d3hot => 3 | .d3cold => 3

/-- Code of a channel state (R263). -/
def chanCode (c : ChanSt) : Nat :=
  match c with
  | .idle => 0 | .active => 1 | .paused => 2 | .halted => 3

/-- The pool whose frond SEQ_FROND_* reports, with the frond (R155). -/
def State.frondPool (s : State) : Option (Pool × FrondMeta) :=
  s.pools.findSome? fun p => (p.cur.frond.filter fun f => f.srcPool == p.cur.id).map fun f => (p, f)

/-- Code of a frond's phase (R155). -/
def frondCode (f : FrondPhase) : Nat :=
  match f with
  | .copying => 1 | .paused _ => 2 | .final => 3 | .switched => 4

/-- The ring that QE_QSEL selects. -/
def State.selRing (s : State) : RingRef :=
  let qid := s.reg .qeQselQid
  if qid < 0x4000 then
    let all := s.qe.sqs.map (·.1) ++ s.qe.cqs.map (·.1)
    (all.find? fun q => q.fn == .pf1 && q.pair == qid).getD ⟨0, .pf1, qid⟩
  else ⟨if s.reg .qeQselPort = 1 then 1 else 0, .pf0, qid - 0x4000⟩

/-- The members admitted, for MBR_MEMBERS and MBR_QP_USED. -/
def State.admittedMembers (s : State) : List IMember := s.mbr.members.filter (·.admitted)

/-- Is injection permitted (R399)? -/
def State.injPermit (s : State) : Bool :=
  s.pins.testEn && (s.mgt.image.map (·.testPerm)).getD 0 == 1 && s.phase == .online

/-- The injection slot that MGT_INJ_SEL selects. -/
def State.injSel (s : State) : InjSlot := s.mgt.inj.getD (s.reg .mgtInjSelSlot) .reset

/-- The window that ROP_WIN_SEL selects, in force and staged. -/
def State.winSel (s : State) (stg : Bool) : Win :=
  (if stg then s.rop.winsStg else s.rop.wins).getD (s.reg .ropWinSelN) .reset

/-- The high half that the last read of its low half latched. -/
def State.latched (s : State) (f : Fld) : Nat := ((tget s.regs.latch f).getD 0).toNat

/-- TCK's fields that follow from its state (R37). -/
def State.tckVal (s : State) (f : Fld) : Option Nat :=
  match f with
  | .tckNowLoNs => some s.tck.now
  | .tckEdgeLoN => some s.edge
  | .tckNowHiNs | .tckEdgeHiN => some (s.latched f)
  | .tckStatLock => some (lockCode s.tck.lock)
  | .tckStatIsRef => some (b01 s.tck.isRef)
  | .tckStatPpsLock => some (b01 s.tck.ppsLock)
  | .tckStatRefAddr => some s.tck.refAddr.toNat
  | _ => none

/-- The fields of COD, CCH and JNL that follow from the state (R65, R87, R116). -/
def State.cacheVal (s : State) (f : Fld) : Option Nat :=
  match f with
  | .codStatLaneOk => some (bitsOf ((List.range 4).filter fun i => !s.cod.fenced.contains i))
  | .cchCleanSlotsN => some s.cch.cleanSlots
  | .cchThrotStatOn => some (b01 s.cch.throttled)
  | .cchThrotStatVols => some s.cch.throtVols.length
  | .cchGatherUsedN => some s.cch.gather.length
  | .jnlStatBelay => some (belayCode s.jnl.belay)
  | .jnlStatVaultReady => some (b01 s.vlt.ready)
  | .jnlStatExposed => some (b01 (s.pools.any (·.exposed)))
  | .jnlRingUsedN => some s.jnl.used
  | .jnlSealTickN => some s.jnl.lastSeal
  | .jnlConfTickN => some s.jnl.lastConf
  | _ => none

/-- SEQ's and FIX's fields that follow from the state (R139, R155, R182). -/
def State.seqVal (s : State) (f : Fld) : Option Nat :=
  let runs := s.pools.flatMap fun p => p.vols
  match f with
  | .seqStatRebuild => some (b01 (s.pools.any (·.pub.rebuilding)))
  | .seqStatCopyback => some (b01 (s.pools.any (·.pub.copyback)))
  | .seqStatScrub => some (b01 (s.pools.any (·.scrubRun.isSome)))
  | .seqStatCritRaise => some (b01 s.seq.critRaise)
  | .seqStatFloorHeld => some (b01 s.seq.floorHeld)
  | .seqPaceShareS => some s.seq.share
  | .seqLostUsedN => some ((s.pools.map fun p => p.nxt.lost.length).foldl (· + ·) 0)
  | .seqFrondStatState => some ((s.frondPool.map fun e => frondCode e.2.phase).getD 0)
  | .seqFrondStatVol => some ((s.frondPool.map fun e => e.1.pub.cursor.1.toNat).getD 0)
  | .seqFrondCurLoVbn => some ((s.frondPool.map fun e => e.1.pub.cursor.2).getD 0)
  | .seqFrondCurHiVbn => some (s.latched f)
  | .fixStatCores => some (96 - s.fix.fenced.length)
  | .fixStatKr => some (b01 s.tru.kr.isSome)
  | .fixStatKt => some (b01 s.tru.kt.isSome)
  | .fixFenced0Mask => some (bitsOf (s.fix.fenced.filter fun c => decide (c < 32)))
  | .fixFenced1Mask => some (bitsOf ((s.fix.fenced.filter fun c => decide (32 ≤ c ∧ c < 64)).map (· - 32)))
  | .fixFenced2Mask => some (bitsOf ((s.fix.fenced.filter fun c => decide (64 ≤ c)).map (· - 64)))
  | .fixSealOpenN => some s.fix.ctxs.length
  | .fixSealSavedN => some s.fix.saved.length
  | .fixGenStatLow => some (runs.filter (·.lowLogged)).length
  | .fixGenStatExh => some (runs.filter (·.exhausted)).length
  | _ => none

/-- QE's and ORD's fields that follow from the state (R209, R248, R249). -/
def State.qeVal (s : State) (f : Fld) : Option Nat :=
  let q := s.selRing
  let isCq := decide (s.reg .qeQselCq = 1)
  match f with
  | .qeStatFailStop => some (b01 s.qe.failAt.isSome)
  | .qeStatHalted => some (b01 s.qe.halted)
  | .qeQstatState => some (if isCq then (s.devLineNow q).cqSt else (s.devLineNow q).sqSt)
  | .qeQstatPend => some (if isCq then 0 else b01 (((s.sq q).map (·.pend)).getD false))
  | .qeQstatExp => some (if isCq then ((s.cq q).map (·.exp)).getD 0 else ((s.sq q).map (·.exp)).getD 0)
  | .qeQidx0N => some (if isCq then ((s.cq q).map (·.t.toNat)).getD 0 else ((s.sq q).map (·.c.toNat)).getD 0)
  | .qeQidx1N => some (if isCq then ((s.cq q).map (·.hc.toNat)).getD 0 else ((s.sq q).map (·.h.toNat)).getD 0)
  | .qeSqEnN => some (s.qe.sqs.filter fun e => e.2.st == .enabled).length
  | .ordLockUsedN => some s.ord.lockUsed
  | .ordLockWaitN => some (s.ord.locks.filter fun l => l.entry && !l.held).length
  | .ordAccLoN => some s.ord.acc
  | .ordAccHiN => some (s.latched f)
  | .ordFlushOpenN => some (s.ord.cmds.filter fun c => c.op == .flush && c.acc.isSome && c.st != .finished).length
  | .ordFwdOpenN =>
    let n := (s.ord.cmds.filter fun c => match c.st with
      | .forwarded _ _ => true
      | _ => false).length
    some (min n 0xFFFF)
  | .qeOvfHeldN => some (s.qe.cqs.filter (·.2.held)).length
  | .qeOvfWaitN => some ((s.qe.cqs.map fun e => e.2.waiting.length).foldl (· + ·) 0)
  | _ => none

/-- DMV's, MBR's and ROP's fields that follow from the state (R263, R285, R307). -/
def State.portVal (s : State) (f : Fld) : Option Nat :=
  let c := s.chan (s.reg .dmvCselCh)
  let peer := s.partnerAddr.bind fun a => s.peer a
  match f with
  | .dmvHaltedN => some (s.dmv.chans.filter fun e => e.2.st == .halted).length
  | .dmvCstatState => some (chanCode c.st)
  | .dmvCstatDepth => some c.depth
  | .dmvCstatPrio => some ((c.active.map (·.prio)).getD 0)
  | .mbrLinkUp => some (bitsOf ((List.range 16).filter s.linkUp))
  | .mbrMembersN => some s.admittedMembers.length
  | .mbrQpUsedN => some s.qpUsed
  | .ropStatPartner => some (partnerCode s.rop.partner)
  | .ropStatPaths => some ((peer.map fun p => p.upPaths.length).getD 0)
  | .ropStatAddrConflict => some (b01 (!s.rop.conflicts.isEmpty))
  | .ropPeersUp => some s.upPeers.length
  | .ropWinBaseSlot => some (s.winSel false).base.toNat
  | .ropWinLenSlots => some (s.winSel false).len.toNat
  | .ropWinPeerAddr => some (s.winSel false).peer.toNat
  | .ropWinPeerEn => some (b01 (s.winSel false).en)
  | .ropWinStgBaseSlot => some (s.winSel true).base.toNat
  | .ropWinStgLenSlots => some (s.winSel true).len.toNat
  | .ropWinStgPeerAddr => some (s.winSel true).peer.toNat
  | .ropWinStgPeerEn => some (b01 (s.winSel true).en)
  | _ => none

/-- HIF's fields that follow from a port's state (R330). -/
def HPort.val (h : HPort) (f : Fld) : Option Nat :=
  match f with
  | .hifLstatRate => some h.rate
  | .hifLstatWidth => some h.width
  | .hifLstatFlit => some (b01 (decide (h.rate ≥ 6)))
  | .hifLstatDPf0 => some (dCode h.pf0.d)
  | .hifLstatDPf1 => some (dCode h.pf1.d)
  | .hifLstatAts => some (b01 (h.pf0.ats || h.pf1.ats))
  | .hifLstatF => some h.f
  | .hifQuarN => some h.quar.length
  | _ => none

/-- MGT's and TRU's fields that follow from the state (R346, R363). -/
def State.mgtVal (s : State) (f : Fld) : Option Nat :=
  match f with
  | .mgtBootStatState | .glbStateState => some (phaseCode s.phase)
  | .mgtBootStatSlot => some s.mgt.slot
  | .mgtBootStatTrial => some (b01 s.mgt.onTrial)
  | .mgtBootStatFallback => some (b01 s.mgt.fallback)
  | .mgtBootStatSlotSel => some (b01 s.pins.slotSel)
  | .mgtBootStatCause => some s.mgt.cause
  | .mgtFwStatStagedFw => some (b01 s.mgt.stagedFw)
  | .mgtFwStatStagedImg => some (b01 s.mgt.stagedImg)
  | .mgtFwStatAttempts => some s.mgt.dir.attempts
  | .truStatKeyOk => some (b01 (s.tru.keyOk && decide (s.tru.q < sigMax)))
  | .truStatLow => some (b01 s.tru.low)
  | .truStatExhausted => some (b01 s.tru.exhausted)
  | .truStatPersistFail => some (b01 s.tru.persistFail)
  | .truSigNextQ => some s.tru.q
  | .truSigResQ => some s.tru.rHi
  | .truFusesIdx => some s.tru.idxFuses
  | .truFusesFw => some s.tru.fwFuses
  | .truFwFloorV => some s.fwFloorNow
  | .truImgFloorV => some s.imgFloorNow
  | .truBootCntN => some s.tru.bootCnt
  | .glbIdVariant => some s.variantCode
  | .glbApplyStatPend => some (bitsOf (s.regs.snaps.map (·.set)))
  | _ => none

/-- VLT's and EVR's fields that follow from the state (R373, R384). -/
def State.vltVal (s : State) (f : Fld) : Option Nat :=
  match f with
  | .vltStatReady => some (b01 s.vlt.ready)
  | .vltStatTarget => some s.vlt.target
  | .vltStatRecovered => some (b01 s.vlt.recovered)
  | .vltStatPh2 => some (b01 s.vlt.ph2Loaded)
  | .vltStatNr => some s.vlt.nr.toNat
  | .vltDiesN => some s.vlt.dies.length
  | .vltHoldMvMv => some s.vlt.holdMv
  | .vltEReqJ => some s.vlt.eReq
  | .vltWearPct => some s.vlt.wearPct
  | .vltSpareBlk => some s.vlt.spare
  | .vltFlushNoN => some s.vlt.topFlush.toNat
  | .vltLastMsMs => some s.vlt.lastMs
  | .evrNextLoSeq => some s.evr.next
  | .evrOldestLoSeq => some s.evr.oldest
  | .evrPersistLoSeq => some s.evr.persist
  | .evrNextHiSeq | .evrOldestHiSeq | .evrPersistHiSeq => some (s.latched f)
  | .evrStatCairnN => some s.evr.cairn.length
  | .evrStatNorFail => some (b01 s.evr.norFail)
  | _ => none

/-- MGT's injection fields (R405); those of 0x208 to 0x214 are the selected slot's. -/
def State.injVal (s : State) (f : Fld) : Option Nat :=
  let x := s.injSel
  match f with
  | .mgtInjStatPermit => some (b01 s.injPermit)
  | .mgtInjStatTestEn => some (b01 s.pins.testEn)
  | .mgtInjStatImg => some (b01 ((s.mgt.image.map (·.testPerm)).getD 0 == 1))
  | .mgtInjStatArmed => some (bitsOf ((List.range 4).filter fun i => (s.mgt.inj.getD i .reset).armed))
  | .mgtInjDetDet => some x.det
  | .mgtInjDetParam => some x.param
  | .mgtInjDetCount => some x.count
  | .mgtInjTgtSubj => some x.subj
  | .mgtInjTgtKind => some x.kind
  | .mgtInjArmArm => some (b01 x.armed)
  | .mgtInjLeftN => some x.left
  | .mgtInjArmsN => some s.mgt.injArms
  | _ => none

/-- The value in force of a field: what follows from the state, else what the register file holds; WO reads zero (R6). -/
def State.fieldVal (s : State) (f : Fld) (ix : Nat) : Nat :=
  if f.spec.acc = .wo then 0
  else
    let found := (s.tckVal f).or ((s.cacheVal f).or ((s.seqVal f).or ((s.qeVal f).or ((s.portVal f).or (((s.hport ix).val f).or
      ((s.mgtVal f).or ((s.vltVal f).or (s.injVal f))))))))
    found.getD (s.reg f ix)

/-! ### Registers by offset -/

/-- Fields with their rows. -/
def Fld.rows : List (Fld × FSpec) := Fld.all.zip Fld.table

/-- The fields of the register at a BAR0 offset, in rising bit order, and which port's copy it is (R330: port 1's lie 0x40 above). -/
def fieldsAt (off : Nat) : List (Fld × FSpec) × Nat :=
  let o := if 0x20040 ≤ off ∧ off < 0x20070 then off - 0x40 else off
  (Fld.rows.filter fun e => e.2.page + e.2.off == o, if o = off then 0 else 1)

/-- Registers that a source cannot reach: the injection registers from a port (R400), QE_ADM_* over MCTP (R393). -/
def hidden (src : Src) (off : Nat) : Bool :=
  match src with
  | .mctp => decide (0x21040 ≤ off ∧ off ≤ 0x21067)
  | .port0 | .port1 => decide (0x2F200 ≤ off ∧ off ≤ 0x2F2FF)

/-- The copy of a field that a source reaches: QE_ADM_* are the accessing port's own (R389). -/
def copyIx (src : Src) (off ix : Nat) : Nat :=
  if 0x21040 ≤ off ∧ off ≤ 0x21067 then (if src = .port1 then 1 else 0) else ix

/-- A field's place in its register. -/
def FSpec.put (e : FSpec) (v : Nat) : Nat := v % 2 ^ (e.hi + 1 - e.lo) * 2 ^ e.lo

/-- A field's bits of a register word. -/
def FSpec.take (e : FSpec) (w : BitVec 32) : Nat := w.toNat / 2 ^ e.lo % 2 ^ (e.hi + 1 - e.lo)

/-- The word that a register holds for a source. -/
def State.wordVal (s : State) (src : Src) (off : Nat) : BitVec 32 :=
  if hidden src off then 0
  else
    let (fs, ix) := fieldsAt off
    w32 ((fs.map fun (f, e) => e.put (s.fieldVal f (copyIx src off ix))).foldl (· + ·) 0)

/-- The high half that a read of a low half latches, with its value (R37, R155, R248, R384). -/
def State.pairHigh (s : State) (f : Fld) : Option (Fld × Nat) :=
  match f with
  | .tckNowLoNs => some (.tckNowHiNs, s.tck.now / 2 ^ 32)
  | .tckEdgeLoN => some (.tckEdgeHiN, s.edge / 2 ^ 32)
  | .seqFrondCurLoVbn => some (.seqFrondCurHiVbn, ((s.frondPool.map fun e => e.1.pub.cursor.2).getD 0) / 2 ^ 32)
  | .ordAccLoN => some (.ordAccHiN, s.ord.acc / 2 ^ 32)
  | .evrNextLoSeq => some (.evrNextHiSeq, s.evr.next / 2 ^ 32)
  | .evrOldestLoSeq => some (.evrOldestHiSeq, s.evr.oldest / 2 ^ 32)
  | .evrPersistLoSeq => some (.evrPersistHiSeq, s.evr.persist / 2 ^ 32)
  | _ => none

/-- What a read of one field leaves: RC fields are cleared, low halves latch their high halves. -/
def State.readEffect (s : State) (f : Fld) (e : FSpec) (ix : Nat) : State :=
  let s := if e.acc = .rc then s.setReg f 0 ix else s
  match s.pairHigh f with
  | some (h, v) => { s with regs := { s.regs with latch := tset s.regs.latch h (w32 v) } }
  | none => s

/-- A 4-byte register read: its value and what it leaves. -/
def State.readWord (s : State) (src : Src) (off : Nat) : BitVec 32 × State :=
  let v := s.wordVal src off
  if hidden src off then (v, s)
  else
    let (fs, ix) := fieldsAt off
    (v, s.each fs fun s (f, e) => s.readEffect f e (copyIx src off ix))

/-! ### The Device Description Table (R315 to R317) -/

/-- A TLV entry: type, length, value, padding to a multiple of 8 (R316). -/
def tlv (typ : Nat) (v : List Byte) : List Byte :=
  let bs := leBytes 2 typ ++ leBytes 2 v.length ++ v
  bs ++ List.replicate ((8 - bs.length % 8) % 8) 0

/-- Max_Payload_Size in use at a port: the lower of its functions' (R309). -/
def HPort.mps (h : HPort) : Nat := min h.pf0.mps h.pf1.mps

/-- The Readiness byte. -/
def State.readiness (s : State) : Nat :=
  if s.qe.halted then 3 else match s.phase with
    | .online => 1
    | .failStop => 2
    | _ => 0

/-- The table of a port, with Generation and CRC zero. -/
def State.ddtBody (s : State) (port : Nat) : List Byte :=
  let h := s.hport port
  let ts := tlv 1 (s.part.orderingCode ++ leBytes 16 s.part.serial.toNat ++ leBytes 1 s.variantCode ++ [0xB1] ++ leBytes 1 port ++ [0]
      ++ leBytes 4 ((s.mgt.fw.map fwOwnVersion).getD 0))
    ++ tlv 2 ([0, 0x10000, 0x20000, 0x100000, 0x200000, 0x280000, 0x300000, 64].flatMap (leBytes 4))
    ++ tlv 3 (leBytes 4 16384 ++ leBytes 2 8 ++ [6, 16, 16, 46, 0, 0])
    ++ tlv 4 ([65536, 65536, 268435456, 64].flatMap (leBytes 4))
    ++ tlv 5 (leBytes 1 (s.reg .tckCfgPeriod) ++ leBytes 1 (s.reg .tckIrqDiv) ++ [0, 0] ++ leBytes 4 s.periodNs)
    ++ tlv 6 (leBytes 2 32 ++ leBytes 2 2048)
    ++ tlv 7 (leBytes 4 (s.reg .ropIdRope) ++ leBytes 2 s.selfAddr.toNat ++ leBytes 2 ((s.partnerAddr.map (·.toNat)).getD 0xFFFF))
    ++ tlv 8 (leBytes 1 h.rate ++ leBytes 1 h.width ++ leBytes 2 h.mps ++ leBytes 1 h.f ++ [0, 0, 0])
    ++ tlv 0 []
  [0x4C, 0x4E, 0x44, 0x54] ++ leBytes 2 1 ++ leBytes 2 32 ++ leBytes 4 (32 + ts.length) ++ leBytes 4 0 ++ leBytes 1 s.readiness
    ++ leBytes 1 (phaseCode s.phase) ++ List.replicate 10 0 ++ leBytes 4 0 ++ ts

/-- Puts bytes over others, from an offset. -/
def overlay (l : List Byte) (off : Nat) (bs : List Byte) : List Byte := l.take off ++ bs ++ l.drop (off + bs.length)

/-- The table as it reads: Generation and the CRC-32C of the whole put in (R315). -/
def State.ddt (s : State) (port : Nat) : List Byte :=
  let b := overlay (s.hif.ddt.getD port (s.ddtBody port)) 0x0C (leBytes 4 s.hif.ddtGen.toNat)
  overlay b 0x1C (leBytes 4 (crc32c b).toNat)

/-- Step 1: the table is rewritten when an entry changed; Generation goes to odd and then to the next even value (R317). -/
def State.ddtStep (s : State) : State :=
  let now := [s.ddtBody 0, s.ddtBody 1]
  if s.hif.ddt = now then s
  else { s with hif := { s.hif with ddt := now, ddtGen := if s.hif.ddt.isEmpty then s.hif.ddtGen else s.hif.ddtGen + 2 } }

/-! ### Reads by region (R312, R313, R385, R393) -/

/-- Is an offset in a register page? -/
def isPage (off : Nat) : Bool := decide (0x10000 ≤ off ∧ off < 0x11000) || decide (0x20000 ≤ off ∧ off < 0x31000)

/-- Is an offset in the recorder region? -/
def isRecorder (off : Nat) : Bool := decide (0x300000 ≤ off ∧ off < 0x301000)

/-- The port a source reads through; the management path answers as port 0. -/
def srcPort (src : Src) : PciePort := if src = .port1 then 1 else 0

/-- n bytes of a list from an offset, zeros beyond it, as a number. -/
def bytesAt (l : List Byte) (off n : Nat) : Nat := ofLe ((l.drop off).take n)

/-- The recorder region as a source reads it (R379). -/
def State.recorder (s : State) (src : Src) (off : Nat) : BitVec 32 :=
  let cur := s.evr.cursors.getD (srcIx src) 0
  if off = 0 then w32 cur else if off = 4 then w32 (cur / 2 ^ 32) else if off = 8 then w32 (s.evr.state cur)
  else if 0x40 ≤ off ∧ off < 0x80 then w32 (bytesAt (s.evr.window cur) (off - 0x40) 4)
  else 0

/-- One word of an MSI-X table (R312). -/
def Func.msixWord (f : Func) (limit off : Nat) : BitVec 32 :=
  let e := f.entry (off / 16)
  if off / 16 ≥ limit then 0
  else if off % 16 = 0 then e.addr.setWidth 32 else if off % 16 = 4 then (e.addr >>> 32).setWidth 32 else if off % 16 = 8 then e.data
  else w32 (b01 e.mask)

/-- MSI-X vectors of a function (R311). -/
def vectors (fn : Fn) : Nat := if fn = .pf0 then 32 else 2048

/-- A 4-byte read of BAR0 through PF0 or the management path. -/
def State.barRead4 (s : State) (src : Src) (off : Nat) : BitVec 32 × State :=
  if off < 0x10000 then (w32 (bytesAt (s.ddt (srcPort src)) off 4), s)
  else if isPage off then s.readWord src off
  else if isRecorder off then (s.recorder src (off - 0x300000), s)
  else if src = .mctp then (0, s)
  else if 0x200000 ≤ off ∧ off < 0x280000 then ((s.func (srcPort src) .pf0).msixWord 32 (off - 0x200000), s)
  else if 0x280000 ≤ off ∧ off < 0x300000 then
    (w32 (bitsOf (((s.func (srcPort src) .pf0).pba.filter fun v => decide (32 * ((off - 0x280000) / 4) ≤ v ∧ v < 32 * ((off - 0x280000) / 4) + 32)).map (· % 32))), s)
  else (0, s)

/-- A read of 4 or 8 bytes; an 8-byte read takes the lower address first. -/
def State.barRead (s : State) (src : Src) (off size : Nat) : BitVec 64 × State :=
  let (lo, s) := s.barRead4 src off
  if size = 8 then
    let (hi, s) := s.barRead4 src (off + 4)
    (hi ++ lo, s)
  else (lo.setWidth 64, s)

/-! ### Whether an access is served -/

/-- Is the module powered and out of reset, so that its ports and its management path answer? -/
def State.powered (s : State) : Bool :=
  match s.phase with
  | .powerOff | .reset => false
  | .bivouac .off => false
  | _ => true

/-- Does a source's access to PF0's map reach it? -/
def State.reaches (s : State) (src : Src) : Bool :=
  match src with
  | .mctp => !(s.phase == .trustBoot && s.mgt.bootHalt)
  | .port0 => s.fnServes 0 .pf0
  | .port1 => s.fnServes 1 .pf0

/-- A register read by a source: what comes back is shown as an output (R6, R313). A read of rope time comes some way into the tick (R18). -/
def State.readReg (s : State) (src : Src) (off size : Nat) : State :=
  if !s.powered then s
  else if !s.reaches src then (if src = .mctp then s else s.unsupported (srcPort src) true)
  else if off % size ≠ 0 ∨ off + size > 2 ^ 22 then (if src = .mctp then s.emit (.mctpReply false 0) else s.unsupported (srcPort src) true)
  else
    let (v, s) := (s.iff (decide (off = 0x30000)) State.elapse).barRead src off size
    s.emit (if src = .mctp then .mctpReply true v else .regData src v)

/-! ### Unmasking MSI-X vectors (R35, R318) -/

/-- Sends the messages of the pending vectors of a function that nothing masks any more. -/
def State.sendUnmasked (s : State) (port : PciePort) (fn : Fn) : State :=
  let f := s.func port fn
  if !f.msixEn || f.fnMask then s
  else
    let go := f.pba.filter fun v => !(f.entry v).mask
    let s : State := s.updFn port fn fun f => { f with pba := f.pba.filter fun v => !go.contains v }
    s.each go fun s v => s.emit (.msix port fn v (f.entry v).addr (f.entry v).data)

/-- Writes a word of a function's MSI-X table; clearing a mask sends a pending message at once (R35). -/
def State.writeMsix (s : State) (port : PciePort) (fn : Fn) (off : Nat) (w : BitVec 32) : State :=
  let v := off / 16
  if v ≥ vectors fn then s
  else
    let s : State := s.updFn port fn fun f =>
      let e := f.entry v
      let e : MsixEnt := if off % 16 = 0 then { e with addr := (e.addr.extractLsb' 32 32) ++ w } else if off % 16 = 4 then { e with addr := w ++ (e.addr.setWidth 32) }
        else if off % 16 = 8 then { e with data := w } else { e with mask := w.getLsbD 0 }
      { f with msix := tset f.msix v e }
    if off % 16 = 12 then s.sendUnmasked port fn else s

/-! ### Writes (R386 to R390) -/

/-- Staged sets: their number and APPLY register (R389). -/
def Fld.applySet (f : Fld) (src : Src) : Option Nat :=
  match f with
  | .cchWmApplyApply => some 0
  | .seqPaceApplyApply => some 1
  | .dmvPaceApplyApply => some 2
  | .ropWinApplyApply => some 3
  | .qeAdmApplyApply => if src = .port1 then some 5 else some 4
  | _ => none

/-- The staging fields of a set, and the copy they are. -/
def setFields (n : Nat) : List Fld × Nat :=
  if n = 0 then ([.cchWmStgHwm, .cchWmStgLwm], 0)
  else if n = 1 then ([.seqPaceStgFloor, .seqPaceStgCeil, .seqPaceStgCrit], 0)
  else if n = 2 then ([.dmvPaceStgHwm, .dmvPaceStgLwm], 0)
  else if n = 3 then ([], 0)
  else ([.qeAdmSqLoAddr, .qeAdmSqHiAddr, .qeAdmCqLoAddr, .qeAdmCqHiAddr, .qeAdmHlLoAddr, .qeAdmHlHiAddr, .qeAdmDlLoAddr, .qeAdmDlHiAddr,
         .qeAdmSizeSqExp, .qeAdmSizeCqExp, .qeAdmSizeVec], n - 4)

/-- Offset of a set's APPLY register. -/
def applyOff (n : Nat) : Nat :=
  if n = 0 then 0x23014 else if n = 1 then 0x2700C else if n = 2 then 0x29010 else if n = 3 then 0x2B034 else 0x21064

/-- A write of 1 to APPLY takes a snapshot of the whole staging copy; it replaces one taken earlier in the tick (R390). -/
def State.snapSet (s : State) (src : Src) (n : Nat) : State :=
  let (fs, ix) := setFields n
  let x : Snap := { set := n, src := src, vals := fs.map fun f => (⟨f, ix⟩, s.regs.get f ix), wins := if n = 3 then s.rop.winsStg else [] }
  { s with regs := { s.regs with snaps := s.regs.snaps.filter (fun y => y.set ≠ n) ++ [x] } }

/-- Writes a field of the selected window's staging copy (R307). -/
def State.stageWin (s : State) (f : Fld) (v : Nat) : State :=
  let upd := fun (w : Win) => match f with
    | .ropWinStgBaseSlot => { w with base := BitVec.ofNat 24 v }
    | .ropWinStgLenSlots => { w with len := BitVec.ofNat 24 v }
    | .ropWinStgPeerAddr => { w with peer := BitVec.ofNat 12 v }
    | .ropWinStgPeerEn => { w with en := decide (v = 1) }
    | _ => w
  { s with rop := { s.rop with winsStg := s.rop.winsStg.modify (s.reg .ropWinSelN) upd } }

/-- Changes the selected injection slot. -/
def State.updInj (s : State) (f : InjSlot → InjSlot) : State :=
  { s with mgt := { s.mgt with inj := s.mgt.inj.modify (s.reg .mgtInjSelSlot) f } }

/-- Is a write to a field of the selected injection slot legal (R401, R405)? -/
def State.injLegal (s : State) (f : Fld) (v : Nat) : Bool :=
  let x := s.injSel
  match f with
  | .mgtInjDetDet | .mgtInjDetCount | .mgtInjTgtSubj => !x.armed
  | .mgtInjDetParam => !x.armed && !(x.det == 0x11 && decide (v ≥ 2))
  | .mgtInjTgtKind => !x.armed && (detKinds x.det).contains v
  | _ => true

/-- Gives a legal value to a field under its change class. -/
def State.putField (s : State) (src : Src) (f : Fld) (e : FSpec) (ix off v : Nat) (w : BitVec 32) : State :=
  match f with
  | .ropWinStgBaseSlot | .ropWinStgLenSlots | .ropWinStgPeerAddr | .ropWinStgPeerEn => s.stageWin f v
  | .mgtInjDetDet => s.updInj fun x => { x with det := v }
  | .mgtInjDetParam => s.updInj fun x => { x with param := v }
  | .mgtInjDetCount => s.updInj fun x => { x with count := v }
  | .mgtInjTgtSubj => s.updInj fun x => { x with subj := v }
  | .mgtInjTgtKind => s.updInj fun x => { x with kind := v }
  | .mgtInjArmArm => s.updInj fun x => { x with armReq := some (decide (v = 1)) }
  | .mgtErrlogValid => (s.setReg .mgtErrlogValid 0).setReg .mgtErrlogOvf 0
  | _ =>
    if e.acc = .w1c then s.setReg f 0 ix
    else match e.cls with
      | .tick => { s with regs := { s.regs with shadow := tset s.regs.shadow ⟨f, ix⟩ (w32 v, src, BitVec.ofNat 22 off, w) } }
      | .now | .staged | .boot => s.setReg f v ix

/-- Judges one field of a write (R386): read-only and unchanged Boot fields are no write; an illegal value is latched. -/
def State.writeField (s : State) (src : Src) (off ix : Nat) (w : BitVec 32) (f : Fld) (e : FSpec) : State :=
  let v := e.take w
  match e.acc with
  | .ro | .rc => s
  | .wo => if v = 1 then (match f.applySet src with
      | some n => s.snapSet src n
      | none => s) else s
  | .w1c => if v = 1 then s.putField src f e ix off v w else s
  | .rw =>
    if e.cls = .boot then (if v = s.reg f ix then s else s.reject_ src 2 off w.toNat)
    else if !f.legal v || !s.injLegal f v then s.reject_ src 1 off w.toNat
    else s.putField src f e ix off v w

/-- A 4-byte register write carries every field of its register (R386). -/
def State.writeWord (s : State) (src : Src) (off : Nat) (w : BitVec 32) : State :=
  if hidden src off then (if src = .mctp then s else s.bump .hifDropCntN 1 (srcPort src).val)
  else
    let (fs, ix) := fieldsAt off
    s.each fs fun s (f, e) => s.writeField src off (copyIx src off ix) w f e

/-- A write that no region takes: dropped; a port counts it, and reports it when it is outside R313. -/
def State.dropWrite (s : State) (src : Src) (aer : Bool) : State :=
  if src = .mctp then s
  else if aer then s.unsupported (srcPort src) false
  else s.bump .hifDropCntN 1 (srcPort src).val

/-- A write to BAR0 that reaches PF0's map, or PF1's when `fn` says so. -/
def State.barWrite (s : State) (src : Src) (fn : Fn) (off size : Nat) (data : BitVec 64) : State :=
  let port := srcPort src
  let lo : BitVec 32 := data.setWidth 32
  let hi : BitVec 32 := (data >>> 32).setWidth 32
  let ok := (size == 4 || size == 8) && decide (off % size = 0)
  if 0x100000 ≤ off ∧ off < 0x200000 then (if src = .mctp then s else s.ring port fn ((off - 0x100000) / 64))
  else if 0x200000 ≤ off ∧ off < 0x280000 then
    if src = .mctp then s
    else if !ok then s.dropWrite src true
    else
      let s := s.writeMsix port fn (off - 0x200000) lo
      if size = 8 then s.writeMsix port fn (off + 4 - 0x200000) hi else s
  else if off < 0x10000 ∨ (0x280000 ≤ off ∧ off < 0x300000) then s.dropWrite src true
  else if fn = .pf1 ∧ src ≠ .mctp then s.dropWrite src false
  else if isPage off then
    if !ok then (s.reject_ src 5 off lo.toNat).dropWrite src true
    else
      let s := s.writeWord src off lo
      if size = 8 then s.writeWord src (off + 4) hi else s
  else if isRecorder off then
    if !ok then s.dropWrite src true
    else if off = 0x300000 then s.writeCursor src false size data
    else if off = 0x300004 then s.writeCursor src true 4 data
    else s
  else s.dropWrite src false

/-- A write request by a source. -/
def State.writeReg (s : State) (src : Src) (fn : Fn) (off size : Nat) (data : BitVec 64) : State :=
  if !s.powered then s
  else match src with
    | .mctp => if s.reaches .mctp then s.barWrite src .pf0 off size data else s
    | .port0 | .port1 => if s.fnServes (srcPort src) fn then s.barWrite src fn off size data else s.unsupported (srcPort src) false

/-! ### Step 1: shadows and staged sets take effect (R27, R387, R390) -/

/-- Does the state allow a pending value? The host budget must keep every enabled queue's B_h legal (R31, R37). -/
def State.shadowOk (s : State) (f : Fld) (v : Nat) : Bool :=
  match f with
  | .tckBudlim0Host => s.qe.sqs.all fun e => e.2.st == .disabled || e.1.fn == .pf0 || decide (e.2.bh * 250 * s.periodUs ≤ 225000 * s.periodUs * v / 64)
  | _ => true

/-- Pending shadows take effect, or are latched as illegal. -/
def State.applyShadows (s : State) : State :=
  let pend := s.regs.shadow
  State.each { s with regs := { s.regs with shadow := [] } } pend fun s (k, v, src, off, w) =>
    if s.shadowOk k.f v.toNat then s.setReg k.f v.toNat k.ix else s.reject_ src 1 off.toNat w.toNat

/-- A value of a snapshot. -/
def Snap.val (x : Snap) (f : Fld) (ix : Nat := 0) : Nat := ((tget x.vals ⟨f, ix⟩).getD 0).toNat

/-- Do two windows overlap? -/
def Win.overlaps (a b : Win) : Bool :=
  decide (a.base.toNat < b.base.toNat + b.len.toNat) && decide (b.base.toNat < a.base.toNat + a.len.toNat)

/-- The consistency check of the belay windows (R307). -/
def State.winsOk (s : State) (ws : List Win) : Bool :=
  let on := ws.filter (·.en)
  on.all fun w => decide (w.len.toNat ≠ 0) && decide (w.base.toNat + w.len.toNat ≤ s.cch.recvSlots) && w.peer != s.selfAddr
    && on.all fun x => x.peer == w.peer || !w.overlaps x

/-- The two admin rings of pair 0 that a snapshot asks for (R209). -/
def Snap.admin (x : Snap) (p : Nat) : QueueAttrs × QueueAttrs :=
  let a64 := fun (lo hi : Fld) => w64 (x.val lo p + 2 ^ 32 * x.val hi p)
  let mk : Bool → QueueAttrs := fun isCq =>
    { isCq := isCq, isData := false, base := if isCq then a64 .qeAdmCqLoAddr .qeAdmCqHiAddr else a64 .qeAdmSqLoAddr .qeAdmSqHiAddr
      hostLine := a64 .qeAdmHlLoAddr .qeAdmHlHiAddr, devLine := a64 .qeAdmDlLoAddr .qeAdmDlHiAddr
      exp := if isCq then x.val .qeAdmSizeCqExp p else x.val .qeAdmSizeSqExp p
      pair := 0, cqPair := 0, vector := x.val .qeAdmSizeVec p, bh := 0, relaxed := false }
  (mk true, mk false)

/-- Checks a snapshot and, when it passes, answers the state with the set in force; else the code it is latched with. -/
def State.trySet (s : State) (x : Snap) : Except Nat State :=
  if x.set = 0 then
    let h := x.val .cchWmStgHwm; let l := x.val .cchWmStgLwm
    if 10 ≤ l ∧ l < h ∧ h ≤ 95 then .ok ((s.setReg .cchWmHwm h).setReg .cchWmLwm l) else .error 3
  else if x.set = 1 then
    let f := x.val .seqPaceStgFloor; let c := x.val .seqPaceStgCeil; let r := x.val .seqPaceStgCrit
    if f ≤ c ∧ c ≤ r ∧ 1 ≤ c then .ok (((s.setReg .seqPaceFloor f).setReg .seqPaceCeil c).setReg .seqPaceCrit r) else .error 3
  else if x.set = 2 then
    let h := x.val .dmvPaceStgHwm; let l := x.val .dmvPaceStgLwm
    if 10 ≤ l ∧ l < h ∧ h ≤ 95 then .ok ((s.setReg .dmvPaceHwm h).setReg .dmvPaceLwm l) else .error 3
  else if x.set = 3 then
    if s.winsOk x.wins then .ok { s with rop := { s.rop with wins := (List.range 8).map fun i => x.wins.getD i .reset } } else .error 3
  else
    let port : PciePort := if x.set = 5 then 1 else 0
    let q : RingRef := ⟨port, .pf0, 0⟩
    if s.phase ≠ .online ∨ (s.sq q).isSome ∨ (s.cq q).isSome then .error 4
    else
      let (cq, sq) := x.admin port.val
      if (s.queueFault port cq).isSome then .error 3
      else
        let t := s.makeRing port cq
        if (t.queueFault port sq).isSome then .error 3
        else .ok ((t.makeRing port sq).updSq q fun r => { r with st := .enabled })

/-- FAIL bits of GLB_APPLY_STAT with one bit changed. -/
def setBit (n i : Nat) (b : Bool) : Nat := n - n / 2 ^ i % 2 * 2 ^ i + (if b then 2 ^ i else 0)

/-- Every pending set is checked and takes effect whole, or not at all. -/
def State.applySets (s : State) : State :=
  let pend := s.regs.snaps
  State.each { s with regs := { s.regs with snaps := [] } } pend fun s x =>
    match s.trySet x with
    | .ok t => t.setReg .glbApplyStatFail (setBit (t.reg .glbApplyStatFail) x.set false)
    | .error code =>
      (s.setReg .glbApplyStatFail (setBit (s.reg .glbApplyStatFail) x.set true)).reject_ x.src code (applyOff x.set) x.set

/-- Alert bits 0 to 2 are set again while their condition holds (R395). -/
def State.alerts (s : State) : State :=
  let s := if s.qe.failAt.isSome then s.setReg .glbAlertFailStop 1 else s
  let s := if s.mgt.bootHalt then s.setReg .glbAlertBootHalt 1 else s
  if s.rop.conflicts.isEmpty then s else s.setReg .glbAlertAddrConflict 1

/-- A reset that removes a port's admin rings returns its QE_ADM_* set and its cursor (R392). -/
def State.portRegs (s : State) (port : PciePort) : State :=
  let (fs, ix) := setFields (4 + port.val)
  let regs := fs.foldl (fun r f => r.toReset f ix) s.regs
  let e := s.evr
  { s with regs := { regs with snaps := regs.snaps.filter fun x => x.set ≠ 4 + port.val }
           evr := { e with cursors := e.cursors.set port.val 0, curLo := e.curLo.set port.val 0 } }

/-! ### Meanings -/

/-- REGISTER_WRITE (R386). -/
def execRegisterWrite (src : Src) (fn : Fn) (off : BitVec 22) (size : Nat) (data : BitVec 64) (s : State) : Host.Outcome State Fault Refusal :=
  .next (s.clr.writeReg src fn off.toNat size data)

/-- RC_REGISTER_READ (R6). -/
def execRcRegisterRead (src : Src) (off : BitVec 22) (s : State) : Host.Outcome State Fault Refusal :=
  .next (s.clr.readReg src off.toNat 4)

/-- LATCHED_PAIR_READ (R37). -/
def execLatchedPairRead (src : Src) (off : BitVec 22) (s : State) : Host.Outcome State Fault Refusal :=
  .next (s.clr.readReg src off.toNat 4)

/-- CCH_WM_APPLY (R87). -/
def execCchWmApply (src : Src) (s : State) : Host.Outcome State Fault Refusal := .next (s.clr.writeReg src .pf0 (applyOff 0) 4 1)

/-- SEQ_PACE_APPLY (R139). -/
def execSeqPaceApply (src : Src) (s : State) : Host.Outcome State Fault Refusal := .next (s.clr.writeReg src .pf0 (applyOff 1) 4 1)

/-- DMV_PACE_APPLY (R263). -/
def execDmvPaceApply (src : Src) (s : State) : Host.Outcome State Fault Refusal := .next (s.clr.writeReg src .pf0 (applyOff 2) 4 1)

/-- ROP_WIN_APPLY (R307). -/
def execRopWinApply (src : Src) (s : State) : Host.Outcome State Fault Refusal := .next (s.clr.writeReg src .pf0 (applyOff 3) 4 1)

/-- QE_ADM_APPLY (R209). -/
def execQeAdmApply (port : PciePort) (s : State) : Host.Outcome State Fault Refusal :=
  .next (s.clr.writeReg (if port = 1 then .port1 else .port0) .pf0 (applyOff 4) 4 1)

/-- ERRLOG_CLEAR (R396). -/
def execErrlogClear (src : Src) (s : State) : Host.Outcome State Fault Refusal := .next (s.clr.writeReg src .pf0 0x2F000 4 0x80000000)

/-- GLB_ALERT_CLEAR (R395). -/
def execGlbAlertClear (src : Src) (mask : BitVec 4) (s : State) : Host.Outcome State Fault Refusal :=
  .next (s.clr.writeReg src .pf0 0x1000C 4 (mask.setWidth 64))

/-- OVR_STAT_CLEAR (R37). -/
def execOvrStatClear (src : Src) (mask : BitVec 5) (s : State) : Host.Outcome State Fault Refusal :=
  .next (s.clr.writeReg src .pf0 0x30020 4 (mask.setWidth 64))

/-- EVR_CURSOR_WRITE (R379). -/
def execEvrCursorWrite (src : Src) (high : Bool) (size : Nat) (data : BitVec 64) (s : State) : Host.Outcome State Fault Refusal :=
  .next (s.clr.writeReg src .pf0 (if high then 0x300004 else 0x300000) size data)

/-- INJECT_ARM (R401): a write over the management path. -/
def execInjectArm (s : State) : Host.Outcome State Fault Refusal := .next (s.clr.writeReg .mctp .pf0 0x2F210 4 1)

/-- INJECT_DISARM (R401): a write over the management path. -/
def execInjectDisarm (s : State) : Host.Outcome State Fault Refusal := .next (s.clr.writeReg .mctp .pf0 0x2F210 4 0)

/-- MCTP_BAR_READ (R393): completion 0x01 for an access outside R313. -/
def execMctpBarRead (size : BitVec 8) (off : BitVec 32) (s : State) : Host.Outcome State Fault Refusal :=
  let s := s.clr
  if (size = 4 ∨ size = 8) ∨ !s.powered ∨ !s.reaches .mctp then .next (s.readReg .mctp off.toNat size.toNat)
  else .next (s.emit (.mctpReply false 0))

/-- MCTP_BAR_WRITE (R393): completion 0x01 for an access outside R313, which on a register page is latched too (R397). -/
def execMctpBarWrite (size : BitVec 8) (off : BitVec 32) (data : BitVec 64) (s : State) : Host.Outcome State Fault Refusal :=
  let s := s.clr
  let ok := (size == 4 || size == 8) && decide (off.toNat % size.toNat = 0) && decide (off.toNat + size.toNat ≤ 2 ^ 22)
  let outside := decide (off.toNat < 0x10000) || !ok
  if !s.powered || !s.reaches .mctp then .next s
  else if off.toNat ≥ 2 ^ 22 then .next (s.emit (.mctpReply false 0))
  else .next ((s.writeReg .mctp .pf0 off.toNat size.toNat data).emit (.mctpReply (!outside) 0))

end Sys2Proof.Machine
end

