-- ==== Sys2Proof/Machine/Hif.lean ====
section
/-!
DEFINITION. The host ports: link and link factor (R308, R309), requests not served (R314), translation (R320 to R322), power states (R323, R324),
resets and removal (R208, R325 to R328), completion timeouts and late completions (R329).
-/
namespace Sys2Proof.Machine

/-! ### Link factor (R309) -/

/-- F of a link's rate code, width and Max_Payload_Size. -/
def linkFactor (rate width mps : Nat) : Nat :=
  let x16 := if rate = 7 then 64 else if rate = 6 then 32 else if rate = 5 then 16 else 0
  let base := if width ≥ 16 then x16 else if width ≥ 8 then x16 / 2 else 0
  base * (if mps ≥ 512 then 64 else if mps ≥ 256 then 61 else 56) / 64

/-- At the first edge after a retrain or a change of Max_Payload_Size, F is computed anew. -/
def State.linkFactors (s : State) : State :=
  { s with hif := { s.hif with ports := s.hif.ports.map fun h =>
      if h.linkPend then { h with linkPend := false, f := if h.linkUp then linkFactor h.rate h.width h.mps else 0 } else h } }

/-- A link has trained (R308): below 32 GT/s or x8 it is degraded. -/
def State.trained (s : State) (port : PciePort) (rate width : Nat) : State :=
  if !s.powered || s.pins.perst.getD port.val true then s
  else
    let s := s.updHport port fun h => { h with linkUp := true, rate := rate % 8, width := min width 16, linkPend := true, l1 := false }
    s.iff (decide (rate % 8 < 5) || decide (width < 8)) fun s => s.log .hifLinkDegraded 5 port.val 0 (rate % 8) width

/-! ### Configuration writes -/

/-- The completion timeout of an encoding of Device Control 2, in µs (R329): the upper bound of its sub-range in ranges A to C, else 50 ms. -/
def ctoUs (c : BitVec 4) : Nat :=
  if c = 1 then 100 else if c = 2 then 10000 else if c = 5 then 55000 else if c = 6 then 210000 else if c = 9 then 900000
  else if c = 10 then 3500000 else 50000

/-- A configuration write leaves these values in a function (R309, R318 to R320, R329). The port's timeout is PF0's. -/
def State.config (s : State) (port : PciePort) (fn : Fn) (c : FnCfg) : State :=
  if !s.powered || !(s.hport port.val).ready then s
  else
    let s := s.updFn port fn fun f => { f with mps := min c.mps 512, ro := c.ro, ats := c.ats, msixEn := c.msixEn, fnMask := c.fnMask
                                               msiEn := if fn = .pf0 then min c.msiEn 32 else 0 }
    let s := s.updHport port fun h => { h with linkPend := true, xlat := if c.ats then h.xlat else h.xlat.filter fun e => e.fn ≠ fn }
    let s := s.iff (fn == .pf0) fun s => s.setReg .hifCtoUs (ctoUs c.cto) port.val
    s.sendUnmasked port fn

/-! ### Removal of rings by a reset (R208, R327) -/

/-- Drops a channel's descriptors that a test names; their record slots are free again. -/
def State.dropDescs (s : State) (gone : Desc → Bool) : State :=
  s.each s.dmv.chans fun s (ch, c) =>
    let i := chanInst ch
    let back := fun (s : State) (n : Nat) => { s with dmv := { s.dmv with slotsUsed := s.dmv.slotsUsed.set i (s.dmv.slotsUsed.getD i 0 - n) } }
    let rest := c.queue.filter fun d => !gone d
    let s := (back s (c.queue.length - rest.length)).setChan ch { c with queue := rest }
    match c.active with
    | some d => if gone d then (back s 1).nextDesc ch else s
    | none => s

/-- Is the payload of a command of a removed ring still to be fetched (R327)? -/
def Cmd.payloadOpen (c : Cmd) : Bool :=
  match c.op with
  | .write _ n _ _ => decide (c.next < n) || c.slices.any fun sl => sl.st == .moving
  | .sealAppend _ b _ _ _ _ => decide (c.next < (if c.op.lock.isSome then ceilDiv b 4096 else b)) || c.slices.any fun sl => sl.st == .moving
  | .read _ _ _ _ | .flush | .abort _ _ | .verify _ _ | .sealOpen _ _ | .sealClose _ _ | .sealSave _ _ | .sealRestore _ _ | .volPower _
  | .writeZeroes _ _ _ => false

/-- An accepted command of a removed ring runs on without host memory: a write whose payload is not all here admits no further slice (R327). -/
def State.orphan (s : State) (c : Cmd) : State :=
  let s := s.updCmd c.id fun c => { c with org := .gone }
  let moving := c.rblks.filter fun b => b.st == .moving || b.st == .poisoned
  let s := (s.unhold moving.length).updCmd c.id fun c => { c with rblks := c.rblks.map fun b => if b.st == .moving || b.st == .poisoned then { b with st := .sent } else b }
  if c.payloadOpen then
    let s := (s.failUnjournalled c).failCmd c.id (stat 3 1)
    let s : State := { s with sched := { s.sched with defer := s.sched.defer.filter (· ≠ c.id) } }
    match c.st with
    | .forwarded _ _ => s.endCmd c.id (stat 3 1)
    | .accepted | .running | .held | .eligible _ | .finished => if c.op.lock.isNone then s.endCmd c.id (stat 3 1) else s
  else
    match c.op with
    | .sealClose _ _ | .sealSave _ _ | .sealRestore _ _ => if c.open_ then s.endCmd c.id (stat 3 1) else s
    | .read _ _ _ _ => match c.st with
      | .forwarded _ _ => ((s.unhold (c.credit - moving.length)).updCmd c.id fun c => { c with rblks := [] }).endCmd c.id (stat 3 1)
      | .accepted | .running | .held | .eligible _ | .finished => s
    | .write _ _ _ _ | .sealAppend _ _ _ _ _ _ | .flush | .abort _ _ | .verify _ _ | .sealOpen _ _ | .volPower _ | .writeZeroes _ _ _ => s

/-- Removes the rings of a scope: what waits on them is discarded and counted, accepted commands run on (R208). -/
def State.removeRings (s : State) (inScope : RingRef → Bool) : State :=
  let waitingRecs := ((s.qe.cqs.filter fun e => inScope e.1).map fun e => e.2.overflow.length + e.2.waiting.length).foldl (· + ·) 0
  let news := (s.qe.elig.filter fun e => inScope e.cq).length
  let mine := s.ord.cmds.filter fun c => match c.org with
    | .ring q => inScope q
    | .peer _ _ _ _ | .gone => false
  let ids := (mine.filter fun c => c.taken).map (·.id)
  let s := s.each mine fun s c => if c.st == .finished then { s with ord := { s.ord with cmds := s.ord.cmds.filter fun k => k.id ≠ c.id } }
    else if c.taken then s.orphan c else s.dropRequest c.id
  let s := s.dropDescs fun d => match d.purpose with
    | .pull id _ | .push id _ | .sealOut id | .sealIn id => ids.contains id
    | .destage _ | .journal _ | .background _ | .rope _ | .vault => false
  let e := s.qe
  let s : State := { s with qe := { e with sqs := e.sqs.filter fun x => !inScope x.1
                                           cqs := e.cqs.filter fun x => !inScope x.1
                                           lines := e.lines.filter fun x => !inScope x.1
                                           elig := e.elig.filter fun x => !inScope x.cq
                                           vecPend := e.vecPend.filter fun x => !inScope ⟨x.1, x.2.1, 0⟩
                                           outAdm := e.outAdm.filter fun x => !inScope x.1
                                           doneAdm := e.doneAdm.filter fun x => !inScope x.1
                                           goneAdm := e.goneAdm ++ e.outAdm.filter fun x => inScope x.1 } }
  let outs := s.hif.outs.filter fun o => inScope o.q
  let s : State := { s with hif := { s.hif with outs := s.hif.outs.filter fun o => !inScope o.q } }
  let s := s.each outs fun s o => State.bump { s with qe := { s.qe with goneAdm := s.qe.goneAdm.erase (o.q, o.tag) } } .qeCplDiscCntN
  s.bump .qeCplDiscCntN (waitingRecs + news)

/-! ### Resets of a port and of a function (R325 to R328) -/

/-- Everything that a PERST#, a hot reset or the loss of the link of a port resets (R326, R208, R392). -/
def State.resetPort (s : State) (port : PciePort) (ready : Bool) : State :=
  let s := (s.removeRings fun q => q.port == port).portRegs port
  let s := s.setReg .hifCtoUs 50000 port.val
  s.updHport port fun _ => { HPort.reset with ready := ready }

/-- Function-level reset (R326): its configuration, interrupts, translations and power management. Tags of its outstanding reads are quarantined, so that
late completions are recognised (R329). -/
def State.resetFn (s : State) (port : PciePort) (fn : Fn) : State :=
  let h := s.hport port.val
  let cmdFn := fun (id : Nat) => (s.cmd id).map (·.org)
  let ofFn := fun (u : TagUse) => match u with
    | .ring q | .cqLine q | .xlatSeg q | .xlatOut q _ => q.fn == fn
    | .chan ch | .xlat ch => match (s.chan ch).active with
      | some d => (match d.purpose with
        | .pull id _ | .push id _ | .sealOut id | .sealIn id => (match cmdFn id with
          | some (.ring q) => q.fn == fn
          | some (.peer _ _ _ _) | some .gone | none => false)
        | .destage _ | .journal _ | .background _ | .rope _ | .vault => false)
      | none => false
  let late := (h.tags.filter fun e => ofFn e.2).map (·.1)
  let s := s.removeRings fun q => q.port == port && q.fn == fn
  let s := s.updFn port fn fun _ => Func.reset
  let s := s.updHport port fun h => { h with xlat := h.xlat.filter fun e => e.fn ≠ fn
                                             invals := h.invals.filter fun e => e.fn ≠ fn
                                             tags := h.tags.filter fun e => !late.contains e.1
                                             quar := h.quar ++ late
                                             linkPend := true }
  if fn = .pf0 then (s.portRegs port).setReg .hifCtoUs 50000 port.val else s

/-! ### Power states (R323, R324) -/

/-- PMCSR is written with a power state and PME_En. -/
def State.pmcsr (s : State) (port : PciePort) (fn : Fn) (d3 pmeEn : Bool) : State :=
  let f := s.func port fn
  let s := s.updFn port fn fun f => { f with pmeEn := pmeEn }
  match f.d with
  | .d3cold => s
  | .d0 =>
    if d3 then
      let s := s.updFn port fn fun f => { f with d := .d3hot }
      let s : State := { s with qe := { s.qe with sqs := s.qe.sqs.map fun e =>
        if e.1.port == port && e.1.fn == fn && e.2.st == .enabled then (e.1, { e.2 with st := .stopped }) else e } }
      s.updHport port fun h => { h with l1 := h.pf0.d == .d3hot && h.pf1.d == .d3hot }
    else s
  | .d3hot =>
    if d3 then s
    else
      let s := (s.updFn port fn fun f => { f with d := .d0 }).updHport port fun h => { h with l1 := false }
      s.each (s.qe.sqs.filter fun e => e.1.port == port && e.1.fn == fn && e.2.st == .stopped) fun s (q, r) =>
        if ((s.cq { q with pair := r.cqPair }).map (·.held)).getD false then s
        else
          let s := s.updSq q fun r => { r with st := .enabled, pend := true }
          match r.fetch with
          | .idle => if s.phase = .online then s.readLine q else s
          | .line | .first | .rest _ | .segment _ _ _ _ | .waiting _ | .slots _ _ _ _ => s

/-- PME_Turn_Off: it is acknowledged, and functions in D3hot go to D3cold. -/
def State.turnOffPort (s : State) (port : PciePort) : State :=
  if !(s.hport port.val).linkUp then s
  else
    let off := fun (f : Func) => if f.d == .d3hot then { f with d := .d3cold } else f
    (s.updHport port fun h => { h with l23 := h.pf0.d == .d3hot && h.pf1.d == .d3hot, pf0 := off h.pf0, pf1 := off h.pf1 }).emit (.pmeToAck port)

/-- PME_Status is cleared; WAKE# goes when no function of the port holds it (R324). -/
def State.clearPme (s : State) (port : PciePort) (fn : Fn) (pmeEn : Bool) : State :=
  let s := s.updFn port fn fun f => { f with pmeSt := false, pmeEn := pmeEn }
  let h := s.hport port.val
  if h.pf0.pmeSt || h.pf1.pmeSt then s else { s with pins := { s.pins with wake := s.pins.wake.set port.val false } }

/-! ### Timeouts and late completions (R329) -/

/-- A translation fails (R321): the burst is a bus error without retry, the command of a list segment or of an output buffer completes with class 0x03
code 0x03. -/
def State.xlatFail (s : State) (port : PciePort) (u : TagUse) : State :=
  match u with
  | .xlat ch => s.dmvFail ch .translation (if port = 1 then .host1 else .host0) false 0
  | .xlatSeg q => match (s.sq q).map fun (r : Sq) => r.fetch with
    | some (.segment us _ _ _) => s.segFailed q us.length (BitVec.ofNat 16 (uf (firstUnit us) 4 2))
    | some _ | none => s
  | .xlatOut q tag =>
    let (s, os) : State × List HostOut := s.takeOuts q tag
    s.each os fun s o => s.admDone (.ring o.q) o.tag (stat 3 3)
  | .ring _ | .chan _ | .cqLine _ => s

/-- An access that was held for a translation looks its ranges up again. -/
def State.xlatAgain (s : State) (u : TagUse) : State :=
  match u with
  | .xlat ch => match (s.chan ch).active with
    | none => s
    | some d =>
      let (s, g) : State × XlatGo := s.xlate ch d
      if g == .refused then s.dmvFail ch .translation d.space false 0 else s
  | .xlatSeg q => match (s.sq q).map fun (r : Sq) => r.fetch with
    | some (.segment us _ _ e) => s.readSeg q us.length (BitVec.ofNat 16 (uf (firstUnit us) 4 2)) e
    | some _ | none => s
  | .xlatOut q tag =>
    let (s, os) : State × List HostOut := s.takeOuts q tag
    s.each os fun s o => s.hostOut (.ring o.q) o.tag o.addr o.bytes o.stat
  | .ring _ | .chan _ | .cqLine _ => s

/-- The function on whose behalf a translation was asked for. -/
def State.xlatFn (s : State) (u : TagUse) : Fn :=
  match u with
  | .xlat ch => (((s.chan ch).active.bind fun d => s.descSegs d).map (·.1)).getD .pf1
  | .xlatSeg q | .xlatOut q _ | .ring q | .cqLine q => q.fn
  | .chan _ => .pf1

/-- A non-posted request has timed out: it fails as its kind says, and its tag is quarantined. -/
def State.timedOut (s : State) (port : PciePort) (tag : BitVec 14) : State :=
  match tget (s.hport port.val).tags tag with
  | none => s
  | some u =>
    let mark := (s.hport port.val).injTags.contains tag
    let s := s.updHport port fun h => { h with tags := tdel h.tags tag, quar := h.quar ++ [tag] }
    let s := s.bump .hifTmoCntN 1 port.val
    s.marked mark fun s => match u with
      | .ring q => s.fetchErr q
      | .cqLine q => s.updCq q fun c => { c with lineRead := false }
      | .chan ch =>
        let space : DmvSpace := if port = 1 then .host1 else .host0
        s.dmvError ch .timeout space false 0
      | .xlat _ | .xlatSeg _ | .xlatOut _ _ => (s.bump .hifAtsFailCntN 1 port.val).xlatFail port u

/-- A completion arrives for a tag in quarantine or for no outstanding request: it is dropped, reported and counted. -/
def State.lateCpl (s : State) (port : PciePort) (tag : BitVec 14) : State :=
  if (tget (s.hport port.val).tags tag).isSome then s
  else (s.emit (.aerAdvisory port)).bump .hifLateCntN 1 port.val

/-! ### Translation (R320 to R322) -/

/-- Entries of a port's translation cache. -/
def xlatMax : Nat := 4096

/-- A Translation Completion: the entry enters the cache, least recently used out first, and the access that waited goes on; a failure fails it (R321). -/
def State.translated (s : State) (port : PciePort) (tag : BitVec 14) (r : Xlat) : State :=
  match tget (s.hport port.val).tags tag with
  | some u =>
    if u.isXlat then
      let s := s.updHport port fun h => { h with tags := tdel h.tags tag }
      match r with
      | .fail => (s.bump .hifAtsFailCntN 1 port.val).xlatFail port u
      | .ok page log2 rd wr base =>
        let fn := s.xlatFn u
        let s := s.updHport port fun h => { h with xlat := (⟨fn, page, log2, rd, wr, base⟩ :: h.xlat.filter fun e => !(e.fn == fn && e.page == page && e.log2 == log2)).take xlatMax }
        s.xlatAgain u
    else s
  | none => s

/-- Ends the invalidations of a port whose reads have all completed or timed out (R322). -/
def State.invalDone (s : State) (port : PciePort) (which : Inval → Bool) : State :=
  let h := s.hport port.val
  let done := h.invals.filter fun i => which i && i.waits.all fun t => (tget h.tags t).isNone
  let s := s.updHport port fun h => { h with invals := h.invals.filter fun i => !done.contains i }
  (s.each done fun s i => s.emit (.invalCpl port i.fn i.itag)).bump .hifInvCntN done.length port.val

/-- Invalidations that HIF holds in progress per port. -/
def invalMax : Nat := 32

/-- An Invalidate Request (R322): every matching entry of the function goes at once; its completion waits for the reads issued under them. -/
def State.invalidate (s : State) (port : PciePort) (fn : Fn) (itag : BitVec 5) (page : BitVec 64) (log2 : Nat) : State :=
  let h := s.hport port.val
  if h.invals.length ≥ invalMax then s
  else
    let size := max log2 12
    let hit := fun (e : XlatEnt) => e.fn == fn && (decide (e.page.toNat / 2 ^ size = page.toNat / 2 ^ size) || decide (e.page.toNat / 2 ^ e.log2 = page.toNat / 2 ^ e.log2))
    let waits := (h.tags.filter fun e => match e.2 with
      | .chan _ => true
      | .ring q => q.fn == fn && (match (s.sq q).map fun (r : Sq) => r.fetch with
        | some (.segment _ _ _ _) => true
        | some _ | none => false)
      | .cqLine _ | .xlat _ | .xlatSeg _ | .xlatOut _ _ => false).map (·.1)
    let s := s.updHport port fun h => { h with xlat := h.xlat.filter (fun e => !hit e)
                                               invals := h.invals ++ [⟨fn, itag, if (h.xlat.any hit) then waits else []⟩] }
    s.invalDone port fun i => i.itag == itag && i.fn == fn

/-! ### Meanings -/

/-- COMPLETION_TIMEOUT (R329). -/
def execCompletionTimeout (port : PciePort) (tag : BitVec 14) (s : State) : Host.Outcome State Fault Refusal := .next (s.clr.timedOut port tag)

/-- UNEXPECTED_COMPLETION (R329). -/
def execUnexpectedCompletion (port : PciePort) (tag : BitVec 14) (s : State) : Host.Outcome State Fault Refusal := .next (s.clr.lateCpl port tag)

/-- TAG_QUARANTINE_EXPIRY (R329). -/
def execTagQuarantineExpiry (port : PciePort) (tag : BitVec 14) (s : State) : Host.Outcome State Fault Refusal :=
  .next (s.clr.updHport port fun h => { h with quar := h.quar.filter (· ≠ tag), injTags := h.injTags.filter (· ≠ tag) })

/-- TRANSLATION_COMPLETION (R321). -/
def execTranslationCompletion (port : PciePort) (tag : BitVec 14) (r : Xlat) (s : State) : Host.Outcome State Fault Refusal :=
  .next (s.clr.translated port tag r)

/-- INVALIDATE_REQUEST (R322): no request carries a PASID (R310), so Global Invalidate adds no entry to those that match. -/
def execInvalidateRequest (port : PciePort) (fn : Fn) (itag : BitVec 5) (page : BitVec 64) (sizeLog2 : Nat) (_global : Bool) (s : State) :
    Host.Outcome State Fault Refusal := .next (s.clr.invalidate port fn itag page sizeLog2)

/-- INVALIDATE_COMPLETION (R322): sent once every read under the removed entries has ended. -/
def execInvalidateCompletion (port : PciePort) (fn : Fn) (itag : BitVec 5) (s : State) : Host.Outcome State Fault Refusal :=
  .next (s.clr.invalDone port fun i => i.itag == itag && i.fn == fn)

/-- PERST_ASSERTED (R326). -/
def execPerstAsserted (port : PciePort) (s : State) : Host.Outcome State Fault Refusal :=
  let s := s.clr
  .next (State.resetPort { s with pins := { s.pins with perst := s.pins.perst.set port.val true } } port false)

/-- PERST_RELEASED (R325): the configuration space is ready whatever the start-up state, and WAKE# is deasserted. -/
def execPerstReleased (port : PciePort) (s : State) : Host.Outcome State Fault Refusal :=
  let s := s.clr
  let s : State := { s with pins := { s.pins with perst := s.pins.perst.set port.val false, wake := s.pins.wake.set port.val false } }
  .next (if s.powered then s.updHport port fun h => { h with ready := true } else s)

/-- HOT_RESET (R326). -/
def execHotReset (port : PciePort) (s : State) : Host.Outcome State Fault Refusal := .next (s.clr.resetPort port (s.hport port.val).ready)

/-- FLR (R326). -/
def execFlr (port : PciePort) (fn : Fn) (s : State) : Host.Outcome State Fault Refusal := .next (s.clr.resetFn port fn)

/-- HIF_LINK_DOWN (R328): a link that was up goes down with no reset signalled. -/
def execHifLinkDown (port : PciePort) (s : State) : Host.Outcome State Fault Refusal :=
  let s := s.clr
  if (s.hport port.val).linkUp then
    .next (((s.log .hifLinkDown 5 port.val).bump .hifLinkdnCntN 1 port.val).resetPort port (s.hport port.val).ready)
  else .next s

/-- LINK_TRAINED (R309). -/
def execLinkTrained (port : PciePort) (rate width : Nat) (s : State) : Host.Outcome State Fault Refusal := .next (s.clr.trained port rate width)

/-- MPS_WRITE (R309). -/
def execMpsWrite (port : PciePort) (fn : Fn) (cfg : FnCfg) (s : State) : Host.Outcome State Fault Refusal := .next (s.clr.config port fn cfg)

/-- PMCSR_D3HOT (R323). -/
def execPmcsrD3hot (port : PciePort) (fn : Fn) (pmeEn : Bool) (s : State) : Host.Outcome State Fault Refusal := .next (s.clr.pmcsr port fn true pmeEn)

/-- PMCSR_D0 (R323). -/
def execPmcsrD0 (port : PciePort) (fn : Fn) (pmeEn : Bool) (s : State) : Host.Outcome State Fault Refusal := .next (s.clr.pmcsr port fn false pmeEn)

/-- PME_TURN_OFF (R323). -/
def execPmeTurnOff (port : PciePort) (s : State) : Host.Outcome State Fault Refusal := .next (s.clr.turnOffPort port)

/-- MSIX_UNMASK (R35). -/
def execMsixUnmask (port : PciePort) (fn : Fn) (vector : Nat) (s : State) : Host.Outcome State Fault Refusal :=
  let s := s.clr
  if !s.fnServes port fn then .next (s.unsupported port false)
  else if vector ≥ vectors fn then .next s
  else
    let s := s.updFn port fn fun f => { f with msix := tset f.msix vector { f.entry vector with mask := false } }
    .next (s.sendUnmasked port fn)

/-- POISONED_REQUEST (R314): dropped, counted, reported; it has no other effect. -/
def execPoisonedRequest (port : PciePort) (s : State) : Host.Outcome State Fault Refusal :=
  .next ((s.clr.emit (.aerPoison port)).bump .hifPoisonCntN 1 port.val)

/-- UNSUPPORTED_REQUEST (R314): answered with Unsupported Request, or its write dropped; counted. -/
def execUnsupportedRequest (port : PciePort) (kind : UrKind) (s : State) : Host.Outcome State Fault Refusal :=
  .next (s.clr.unsupported port (match kind with
    | .badWrite | .vdm0 => false
    | .io | .atomicOp | .type1Cfg | .absentFn | .memDisabled | .badRead => true))

/-- PME_STATUS_CLEAR (R324). -/
def execPmeStatusClear (port : PciePort) (fn : Fn) (pmeEn : Bool) (s : State) : Host.Outcome State Fault Refusal := .next (s.clr.clearPme port fn pmeEn)

end Sys2Proof.Machine
end

