-- ==== Sys2Proof/Machine/Mbr.lean ====
section
/-!
DEFINITION. MBR's commands: completions and timeouts of member commands, broken and restored paths, label reads, spin-up, the congestion response, and the
links of the Ethernet ports (R264 to R266, R273 to R276, R282, R283, R292), with the TAP's instruction (R433).
-/
namespace Sys2Proof.Machine

/-! ### Completions -/

/-- An image member by its number. -/
def State.member (s : State) (num : Nat) : Option IMember := s.mbr.members.find? fun m => m.num == num

/-- A completion arrives from a member: it waits for the next step 3, is discarded when its command has timed out (R274), or is withheld by an injection
(R402, 0x12). -/
def State.memCompletion (s : State) (id : Nat) (st : MStatus) (pl : MPayload) : State :=
  if s.mbr.dead.contains id then s.bump .mbrLateCntN
  else
    match s.mbr.cmds.find? fun c => c.id == id && c.due.isNone with
    | none => s
    | some c =>
      let s := s.etherFrame c.port
      let (s, w) := s.inject [0x12] [(2, c.idx)]
      if w.isSome then { s with mbr := { s.mbr with cmds := updIf s.mbr.cmds (fun c => c.id == id) fun c => { c with inj := true } } }
      else if s.mbr.done.any fun e => e.1 == id then s
      else { s with mbr := { s.mbr with done := s.mbr.done ++ [(id, st, pl)] } }

/-! ### Paths (R274, R275) -/

/-- Edges between reconnections of a broken path, and between label reads of an unreachable member (R275). -/
def pollTicks : Nat := 125000

/-- Reissues the commands of a member that stand on a port, with no retry counted. -/
def State.moveCmds (s : State) (num : Nat) (stuck : Nat → Bool) : State :=
  s.each (s.mbr.cmds.filter fun c => c.img == num && stuck c.port && c.due.isNone) fun s c =>
    State.reissue { s with mbr := { s.mbr with cmds := s.mbr.cmds.filter fun x => x.id ≠ c.id } } c false

/-- A path breaks: its commands are reissued on the member's other paths (R274). -/
def State.breakPath (s : State) (num port : Nat) : State :=
  match s.member num with
  | none => s
  | some m =>
    if m.paths.any fun x => x.port == port && x.up then
      let s := s.updImg num fun m =>
        let ps := updIf m.paths (fun x => x.port == port) fun x => { x with up := false, broke := s.edge }
        { m with paths := ps, lastBroke := if ps.any (·.up) then m.lastBroke else some s.edge }
      s.moveCmds num fun q => q == port
    else s

/-- A label read of a member on one of its ports (R275): one for each path and edge. -/
def State.labelRead (s : State) (num port : Nat) : State :=
  if s.mbr.cmds.any fun c => c.img == num && c.port == port && c.purpose == .label num && c.born == s.edge then s
  else
    match s.placesOf num with
    | [] => s
    | (pid, i) :: _ =>
      let r : MReq := { pool := pid, idx := i, op := .read, lba := 0, offs := [0], count := 1, blks := [], purpose := .label num, fg := false }
      (s.chargeAlways (reqCharges port r)).send r num port

/-- Begins the admission of an image member: connection, Identify and label read (R271). -/
def State.askAdmit (s : State) (num port : Nat) : State :=
  (s.chargeAlways [(.mcmd port, 1)]).send { pool := 0, idx := 0, op := .admin, lba := 0, offs := [], count := 0, blks := [], purpose := .joining, fg := false } num port

/-- A reconnection of a broken path ends (R275): restored, it takes the commands that wait for a path, and an unreachable member's label is read on it. -/
def State.reconnect (s : State) (num port : Nat) (ok : Bool) : State :=
  match s.member num with
  | none => s
  | some m =>
    match m.paths.find? fun x => x.port == port with
    | none => s
    | some x =>
      if x.up || !ok || !s.linkUp port || decide (s.edge < x.broke + pollTicks) then s
      else
        let s := s.updImg num fun m =>
          { m with lastBroke := none, paths := updIf m.paths (fun x => x.port == port) fun x => { x with up := true, rate := s.lineRate port, rateK := 0 } }
        let s := s.moveCmds num fun q => !(m.paths.any fun y => y.port == q && y.up)
        if !m.admitted then s.iff m.refused.isNone fun s => s.askAdmit num port
        else s.iff m.unreach.isSome fun s => s.labelRead num port

/-- An admitted member without a working path for MBR_RECONN.TICKS edges is reported unreachable (R275). -/
def State.reconnExpiry (s : State) (num : Nat) : State :=
  match s.member num with
  | none => s
  | some m =>
    match m.lastBroke with
    | some e0 =>
      if m.admitted && m.unreach.isNone && !(m.paths.any (·.up)) && decide (s.edge ≥ e0 + s.reg .mbrReconnTicks) && !(s.mbr.reports.contains (num, 0)) then
        s.report num 0
      else s
    | none => s

/-- Label reads of an unreachable member on every path that is up, once per 125,000 edges (R275). -/
def State.labelPoll (s : State) (num : Nat) : State :=
  match s.member num with
  | none => s
  | some m =>
    match m.unreach with
    | some e0 => if s.edge > e0 ∧ (s.edge - e0) % pollTicks = 0 ∧ m.admitted then s.each (s.upPorts m) fun s port => s.labelRead num port else s
    | none => s

/-- Tests every member's timers of R275. -/
def State.memberTimers (s : State) : State := s.each (s.mbr.members.map (·.num)) fun s n => (s.reconnExpiry n).labelPoll n

/-! ### Spin-up (R283) -/

/-- A member not ready within MBR_SPINUP.TICKS edges of its own start is reported unreachable, and the spin-up limit of its pool has passed. -/
def State.spinLimit (s : State) (pid : BitVec 16) (i : Nat) : State :=
  match (s.pool pid).bind fun p => s.img p i with
  | none => s
  | some m =>
    match m.spinning with
    | some e0 =>
      if s.edge ≥ e0 + s.reg .mbrSpinupTicks then
        let s : State := { s with mbr := { s.mbr with cmds := s.mbr.cmds.filter fun c => !(c.img == m.num && c.purpose == .label m.num)
                                                      dead := s.mbr.dead ++ (s.mbr.cmds.filter fun c => c.img == m.num && c.purpose == .label m.num).map (·.id) } }
        ((s.updImg m.num fun m => { m with spinning := none }).report m.num 0).wakeFailed pid
      else s
    | none => s

/-- Tests every member that spins up. -/
def State.spinLimits (s : State) : State :=
  s.each s.pools fun s p => s.each (List.range p.nxt.members.length) fun s i => s.spinLimit p.cur.id i

/-! ### Congestion (R282) -/

/-- Changes one path of a member. -/
def State.updPath (s : State) (num port : Nat) (f : MPath → MPath) : State :=
  s.updImg num fun m => { m with paths := updIf m.paths (fun x => x.port == port) f }

/-- A path of a member. -/
def State.path (s : State) (num port : Nat) : Option MPath := (s.member num).bind fun m => m.paths.find? fun x => x.port == port

/-- Has a rate timer passed since a time? -/
def State.ccPassed (s : State) (since : Option Nat) (now : Nat) : Bool :=
  match since with
  | none => true
  | some t => decide (now ≥ t + s.reg .mbrCcTimer)

/-- The rate after a cut: three quarters of it, at least MBR_CC.MIN. -/
def MPath.cut (x : MPath) (least : Nat) : MPath :=
  if 3 * x.rate ≥ least * 4 ^ (x.rateK + 1) then { x with rate := 3 * x.rate, rateK := x.rateK + 1 } else { x with rate := least, rateK := 0 }

/-- The rate after a rise, up to line rate. -/
def MPath.rise (x : MPath) (step line : Nat) : MPath :=
  let r := x.rate + step * 4 ^ x.rateK
  if r ≥ line * 4 ^ x.rateK then { x with rate := line, rateK := 0 } else { x with rate := r }

/-- A CNP arrives for a queue pair: its rate is cut, at most once per rate timer. -/
def State.cnpIn (s : State) (num port now : Nat) : State :=
  match s.path num port with
  | none => s
  | some x =>
    let s := (s.updPath num port fun x => { x with lastCnp := some now }).bump .mbrCnpRxCntN
    s.iff (s.ccPassed x.cnpRx now) fun s => s.updPath num port fun x => { x.cut (s.reg .mbrCcMin) with cnpRx := some now }

/-- CE-marked frames arrive: at most one CNP per queue pair and rate timer. -/
def State.ceIn (s : State) (num port now : Nat) : State :=
  match s.path num port with
  | none => s
  | some x =>
    s.iff (s.ccPassed x.cnpTx now) fun s => ((s.updPath num port fun x => { x with cnpTx := some now }).bump .mbrCnpTxCntN).emit (.cnp num port)

/-- The rate timer passes with no CNP: the rate rises. -/
def State.ccRise (s : State) (num port now : Nat) : State :=
  match s.path num port with
  | none => s
  | some x =>
    s.iff (s.ccPassed x.lastCnp now) fun s => s.updPath num port fun x => { x.rise (s.reg .mbrCcStep) (s.lineRate port) with lastCnp := some now }

/-! ### Ethernet ports -/

/-- An Ethernet port's link goes up or down. A member port's queue pairs are found broken by themselves (R266); a rope port's paths go DOWN (R292). -/
def State.portLink (s : State) (port : Nat) (up : Bool) : State :=
  if !s.configured then s
  else
    let s : State := { s with mbr := { s.mbr with linkUp := s.mbr.linkUp.set port up, pauseUntil := tdel s.mbr.pauseUntil port } }
    s.iff (!up && !s.isMemberPort port) fun s => s.each s.rop.peers fun s e => s.pathDown e.1 port

/-- A pause frame: honoured on a member port when the image enables it, on the one priority that the image gives (R265). -/
def State.pauseIn (s : State) (port prio quanta : Nat) : State :=
  match s.mgt.image with
  | some im =>
    if s.configured && s.linkUp port && s.isMemberPort port && im.pfcEn == 1 && im.memVlan.toNat / 2 ^ 13 % 8 == prio then
      { s with mbr := { s.mbr with pauseUntil := if quanta = 0 then tdel s.mbr.pauseUntil port else tset s.mbr.pauseUntil port quanta } }
    else s
  | none => s

/-- A tick passes on every paused port: a quantum is 512 bit times at the sub-port's rate. -/
def State.pauseTick (s : State) : State :=
  { s with mbr := { s.mbr with pauseUntil := s.mbr.pauseUntil.filterMap fun e =>
      let gone := s.periodNs * s.lineRate e.1 / 512
      if e.2 ≤ gone then none else some (e.1, e.2 - gone) } }

/-! ### The TAP (R432, R433) -/

/-- The instruction that the TAP takes: a code not listed is BYPASS, and so is everything but IDCODE, SAMPLE/PRELOAD and BYPASS while SYS_RST# is
released. -/
def tapTakes (sysRst : Bool) (ir : BitVec 8) : BitVec 8 :=
  let always : List (BitVec 8) := [0x01, 0x02]
  let inReset : List (BitVec 8) := [0x00, 0x05, 0x06, 0x09, 0x0A]
  if always.contains ir || (sysRst && inReset.contains ir) then ir else 0xFF

/-! ### Meanings -/

/-- MEMBER_COMPLETION (R273, R274). -/
def execMemberCompletion (id : Nat) (status : MStatus) (payload : MPayload) (s : State) : Host.Outcome State Fault Refusal :=
  .next (s.clr.memCompletion id status payload)

/-- MEMBER_TIMEOUT (R274). -/
def execMemberTimeout (id : Nat) (s : State) : Host.Outcome State Fault Refusal := .next (s.clr.memTimeout id)

/-- RDMA_QP_ERROR (R274). -/
def execRdmaQpError (member : Nat) (port : EthPort) (s : State) : Host.Outcome State Fault Refusal := .next (s.clr.breakPath member port.val)

/-- KEEP_ALIVE_FAILURE (R274). -/
def execKeepAliveFailure (member : Nat) (port : EthPort) (s : State) : Host.Outcome State Fault Refusal := .next (s.clr.breakPath member port.val)

/-- PATH_RECONNECT (R275). -/
def execPathReconnect (member : Nat) (port : EthPort) (ok : Bool) (s : State) : Host.Outcome State Fault Refusal :=
  .next (s.clr.reconnect member port.val ok)

/-- MEMBER_RECONN_EXPIRY (R275). -/
def execMemberReconnExpiry (member : Nat) (s : State) : Host.Outcome State Fault Refusal := .next (s.clr.reconnExpiry member)

/-- LABEL_READ_POLL (R275). -/
def execLabelReadPoll (member : Nat) (s : State) : Host.Outcome State Fault Refusal := .next (s.clr.labelPoll member)

/-- SPINUP_LIMIT (R283). -/
def execSpinupLimit (pool : BitVec 16) (idx : Nat) (s : State) : Host.Outcome State Fault Refusal := .next (s.clr.spinLimit pool idx)

/-- CNP_RECEIVED (R282). -/
def execCnpReceived (member : Nat) (port : EthPort) (atUs : Nat) (s : State) : Host.Outcome State Fault Refusal :=
  .next (s.clr.cnpIn member port.val atUs)

/-- CE_FRAME_RECEIVED (R282). -/
def execCeFrameReceived (member : Nat) (port : EthPort) (atUs : Nat) (s : State) : Host.Outcome State Fault Refusal :=
  .next (s.clr.ceIn member port.val atUs)

/-- CC_TIMER (R282). -/
def execCcTimer (member : Nat) (port : EthPort) (atUs : Nat) (s : State) : Host.Outcome State Fault Refusal := .next (s.clr.ccRise member port.val atUs)

/-- PORT_LINK_DOWN (R266, R292). -/
def execPortLinkDown (port : EthPort) (s : State) : Host.Outcome State Fault Refusal := .next (s.clr.portLink port.val false)

/-- PORT_LINK_UP (R264, R266). -/
def execPortLinkUp (port : EthPort) (s : State) : Host.Outcome State Fault Refusal := .next (s.clr.portLink port.val true)

/-- PFC_PAUSE_FRAME (R265). -/
def execPfcPauseFrame (port : EthPort) (prio : BitVec 3) (quanta : BitVec 16) (s : State) : Host.Outcome State Fault Refusal :=
  .next (s.clr.pauseIn port.val prio.toNat quanta.toNat)

/-- TAP_INSTRUCTION_LOAD (R432, R433). -/
def execTapInstructionLoad (ir : BitVec 8) (s : State) : Host.Outcome State Fault Refusal :=
  let s : State := s.clr
  .next { s with pins := { s.pins with tapIr := tapTakes s.pins.sysRst ir } }

end Sys2Proof.Machine
end

