-- ==== Sys2Proof/Machine/Detect.lean ====
section
/-!
DEFINITION. What step 1 of an edge does for the detectors' injections (R401 to R403) and for the fixity cores in service (R179).
-/
namespace Sys2Proof.Machine

/-- The injection slots, each changed with its number. -/
def State.mapInj (s : State) (f : InjSlot → InjSlot) : State := { s with mgt := { s.mgt with inj := s.mgt.inj.map f } }

/-- A tick of discarded heartbeats closes (0x13), or an edge brings a test read of the recorder's pages (0x0F): each slot takes its own item. -/
def InjSlot.tick (x : InjSlot) : InjSlot :=
  if x.skip > 0 then { x with skip := x.skip - 1 } else { x with left := x.left - 1, applied := x.applied + 1, skip := if strided x.det then x.param else 0 }

/-- Does a slot apply at this edge by itself? -/
def InjSlot.due (x : InjSlot) (det : Nat) : Bool := x.armed && decide (x.left > 0) && x.det == det

/-- Takes one item for every slot of a detector; answers how many were injected. -/
def State.tickInj (s : State) (det : Nat) : State × Nat :=
  let n := (s.mgt.inj.filter fun x => x.due det && x.skip == 0).length
  ((s.mapInj fun x => if x.due det then x.tick else x).bump .mgtInjDoneN n, n)

/-- Is a slot disarmed at this edge (R401)? -/
def State.injEnds (s : State) (x : InjSlot) : Bool := x.armed && (x.left == 0 || x.armReq == some false || s.phase != .online)

/-- Disarms the slots whose injections have ended. -/
def State.disarm (s : State) : State :=
  let ended := s.mgt.inj.filter s.injEnds
  let s := s.mapInj fun x => if s.injEnds x then { x with armed := false, armReq := none } else x
  s.each ended fun s x => s.log .injectDisarmed 0 0 0 x.det x.applied

/-- Arms the slots that ask for it; without permission the arm is refused (R401). -/
def State.arm (s : State) : State :=
  let asks := fun (x : InjSlot) => !x.armed && x.armReq == some true
  let new := s.mgt.inj.filter asks
  let ok := s.injPermit
  let s := s.mapInj fun x =>
    { (if asks x && ok then { x with armed := true, left := x.count, skip := 0, applied := 0 } else x) with armReq := none }
  if ok then
    s.each new fun s x =>
      (({ s with mgt := { s.mgt with injArms := s.mgt.injArms + 1 } } : State).log .injectArmed 0 0 0 x.det x.count (x.kind * 65536 + x.subj))
  else s.each new fun s _ => s.reject_ .mctp 1 0x2F210 1

/-- Step 1 for the injections. -/
def State.injectStep (s : State) : State :=
  let (s, _) := s.tickInj 0x13
  let s := s.disarm.arm
  let (s, n) := s.tickInj 0x0F
  s.bump .vltEccCntN n

/-- Step 1: the fixity ceiling follows the cores in service (R179). -/
def State.countCores (s : State) : State := { s with fix := { s.fix with cores := s.coresUp.length } }

end Sys2Proof.Machine
end

