-- ==== Sys2Proof/Machine/Boot.lean ====
section
/-!
DEFINITION. Start-up (R331 to R341): what the boot code, the readers and the members report ends each state of R337. The checks of firmware (R352) and of the
Umaza image (R336, R338), the partition of HBM (R66), the recovery of a flush (R371), and the states that end by the module's own state or by their period.
-/
namespace Sys2Proof.Machine

/-! ### The image's fields (R336) -/

/-- The register fields that an image loads: field, copy, value. -/
def imageFields (i : Image) : List (Fld × Nat × Nat) :=
  [(.ropIdRope, 0, i.ropeId.toNat), (.ropAddrSelf, 0, i.ropeAddr.toNat), (.ropAddrHasPartner, 0, if i.partner.isSome then 1 else 0),
   (.ropAddrPartner, 0, (i.partner.map (·.toNat)).getD 0), (.tckCfgPeriod, 0, i.period.toNat), (.tckCfgPpsEn, 0, i.ppsEn.toNat),
   (.mbrRoleMember, 0, i.roles.toNat), (.mbrSplitMode, 0, i.split.toNat), (.dmvCfgMode, 0, i.dmvModes.toNat),
   (.hifCfgWakeEn, 0, i.wakeEn.toNat % 2), (.hifCfgWakeEn, 1, i.wakeEn.toNat / 2 % 2), (.mgtJoinTicks, 0, i.joinTicks.toNat),
   (.mgtDiscTicks, 0, i.discTicks.toNat), (.ropCfgUdpPort, 0, i.udpPort.toNat), (.ropCfgHandback, 0, i.handback.toNat)]

/-- Does a value fit its field, and is it legal there? -/
def fieldOk (e : Fld × Nat × Nat) : Bool := decide (e.2.2 < 2 ^ (e.1.spec.hi + 1 - e.1.spec.lo)) && e.1.legal e.2.2

/-- The ceiling of the local dirty area in GiB (R1). -/
def dirtyCeiling (v : Variant) : Nat := if v = .h96 then 32 else 64

/-- Is every field of an image within the range of its register or rule (R336, step 5 of R338)? -/
def State.fieldsLegal (s : State) (i : Image) : Bool :=
  (imageFields i).all fieldOk && i.partner != some i.ropeAddr
    && decide (4 ≤ i.metaGib ∧ i.metaGib ≤ 16) && decide (1 ≤ i.dirtyGib ∧ i.dirtyGib ≤ dirtyCeiling s.part.variant)
    && decide (i.pfcEn.toNat ≤ 1) && i.members.all (fun m => decide (m.kind ≤ 1))
    && i.pools.all (fun p => decide (1 ≤ p.1.toNat ∧ p.1.toNat ≤ 0xFFFE))
    && decide (1 ≤ i.gDefault ∧ i.gDefault ≤ 4096) && decide (i.wtDefault ≤ 1) && decide (i.rcDefault ≤ 1) && decide (i.soloDefault ≤ 2)
    && decide (i.faultDefault ≤ 2) && decide (1 ≤ i.scrubDefault ∧ i.scrubDefault ≤ 3650) && decide (4 ≤ i.regionDefault ∧ i.regionDefault ≤ 10)
    && decide (i.testPerm.toNat ≤ 1) && decide (i.exportPerm.toNat ≤ 1)

/-! ### The partition (R66, R67) -/

/-- The belay receive area of an image in GiB: none without a partner. -/
def recvGib (i : Image) : Nat := if i.partner.isSome then i.belayGib else 0

/-- MiB that the regions before the clean read cache take: internal, work area, journal ring, hold buffer, metadata, dirty and receive areas. -/
def regionsMib (i : Image) : Nat := (1 + 2 + i.metaGib + i.dirtyGib + recvGib i) * 1024 + 32 + 64

/-- Sizes in MiB of the HBM regions in the order of R66. -/
def regionSizes (i : Image) (v : Variant) : List Nat :=
  [1024, 2048, 32, 64, i.metaGib * 1024, i.dirtyGib * 1024, recvGib i * 1024, hbmMib v - regionsMib i]

/-- First byte of each region: they lie one after the other from the lowest HBM address (R66). -/
def regionBases (i : Image) (v : Variant) : List Nat :=
  ((regionSizes i v).foldl (fun (acc : List Nat × Nat) n => (acc.1 ++ [acc.2], acc.2 + n * 2 ^ 20)) ([], 0)).1

/-- Does the partition fit, with at least 4 GiB for the clean read cache (R67)? -/
def State.partitionFits (s : State) (i : Image) : Bool := decide (regionsMib i + 4096 ≤ hbmMib s.part.variant)

/-- Dirty slots of 4,160 bytes in an area of so many MiB (R69). -/
def slotsIn (mib : Nat) : Nat := mib * 2 ^ 20 / 4160

/-! ### The check of an image (R338) -/

/-- Does the member table name a number beyond 4,095, one twice, or too many? -/
def badMembers (i : Image) : Bool :=
  i.members.any (fun m => decide (m.num > 4095)) || decide ((i.members.map (·.num)).eraseDups.length ≠ i.members.length) || decide (i.members.length > 4096)

/-- Steps 2 to 7: the cause of the first failure. -/
def State.contentCause (s : State) (o : SignedObj) : Option Nat :=
  let i := readImage o.body (blkDigest o.block)
  if !imageCrcs o.body then some 6
  else if i.boundSerial ≠ 0 ∧ i.boundSerial ≠ s.part.serial then some 7
  else if !i.variants.getLsbD (if s.part.variant = .h96 then 0 else 1) then some 8
  else if !i.sectionsOk || !s.fieldsLegal i then some 9
  else if !s.partitionFits i then some 0x0A
  else if badMembers i then some 0x0B
  else none

/-- All of R338. -/
def State.imageCause (s : State) (o : SignedObj) : Option Nat :=
  if !imgVerifies o s.part.serial then some 4
  else if blkVersion o.block < s.imgFloorNow then some 5
  else s.contentCause o

/-- The check of firmware (R352): its signature block, then the security version. -/
def State.fwCause (s : State) (fw : SignedObj) : Option Nat :=
  if !fwVerifies fw then some 2
  else if fwVersion fw < s.fwFloorNow then some 3
  else none

/-- TRUST_BOOT's check of a slot (R352): between the two, the block's digest is held against the slot header's. -/
def State.slotCause (s : State) (fw : SignedObj) (hdr : List Byte) : Option Nat :=
  if !fwVerifies fw || headerFw hdr != some (blkDigest fw.block) then some 2 else s.fwCause fw

/-! ### TRUST_BOOT and CONFIG_LOAD -/

/-- The boot code's own work in TRUST_BOOT: the boot count, the index (R356), the floors, K_R, the recorder's reservation header (R375); the trust record is
written with them (R361), and the certificate store is put right (R351). -/
def State.trustStart (s : State) (evrValid : Bool) : State :=
  let s := s.readTrust
  let v := s.vlt.trust
  let r := s.tru.trec
  let q := max (if v.valid then v.rHi else s.tru.idxFuses * fuseStep) (if r.valid then r.rHi else 0)
  let f := s.fwFloorNow
  let i := s.imgFloorNow
  let kr := r.valid && s.tru.krPresent
  let t : Tru := { s.tru with q := q, rHi := q, bootCnt := s.tru.bootCnt + 1, trec := ⟨true, q, f, i⟩, fwFloor := f, imgFloor := i
                              krPresent := kr, kr := if kr then kwpUnwrap (kWrap s.part.serial) s.tru.krWrapped else none, keyOk := true }
  let s := State.copyCerts (State.writeTrust { s with tru := t })
  s.iff (!s.evr.taken) fun s => s.takeHeader evrValid

/-- What TRUST_BOOT reads of a slot: its firmware and its header. Of a slot that FW_STAGE has written, both are what it wrote (R332, R342). -/
def State.slotFw (s : State) (fw : SignedObj) (hdr : List Byte) : SignedObj × List Byte :=
  match s.mgt.slots[s.mgt.slot]? with
  | some n => (match n.fw with
    | some f => (f, n.hdr)
    | none => (fw, hdr))
  | none => (fw, hdr)

/-- TRUST_BOOT ends: the firmware of the slot is verified (R352). -/
def State.trustBooted (s : State) (fw : SignedObj) (hdr : List Byte) (evrValid : Bool) : State :=
  if !s.booting .trustBoot then s
  else
    let s := s.trustStart evrValid
    let (fw, hdr) := s.slotFw fw hdr
    match s.slotCause fw hdr with
    | some cause => s.slotFail cause
    | none => { s with phase := .configLoad, mgt := { s.mgt with fw := some fw } }

/-- Loads the Boot fields, and the partition that R66 derives. -/
def State.loadImage (s : State) (i : Image) : State :=
  let s := s.each (imageFields i) fun s (f, ix, v) => s.setReg f v ix
  let s := ((s.setReg .cchPartMetaGib i.metaGib).setReg .cchPartDirtyGib i.dirtyGib).setReg .cchPartBelayGib (recvGib i)
  { s with mgt := { s.mgt with image := some i } }

/-- CONFIG_LOAD ends: the image is checked and its Boot fields are loaded (R338). -/
def State.configLoaded (s : State) (o : SignedObj) : State :=
  if !s.booting .configLoad then s
  else
    let o := (((s.mgt.slots[s.mgt.slot]?).bind (·.img))).getD o
    match s.imageCause o with
    | some cause => (s.log .configRejected 0 0 0 cause).slotFail cause
    | none => { s.loadImage (readImage o.body (blkDigest o.block)) with phase := .memoryInit }

/-! ### MEMORY_INIT and VAULT_RECOVERY -/

/-- MEMORY_INIT ends: HBM is laid out (R66, R69), or has failed (cause 0x0E). -/
def State.memoryReady (s : State) (hbmOk : Bool) : State :=
  if !s.booting .memoryInit then s
  else if !hbmOk then s.bootHalt 0x0E
  else
    match s.mgt.image with
    | none => s
    | some i =>
      { s with phase := .vaultRecovery
               cch := { s.cch with dirtySlots := slotsIn (i.dirtyGib * 1024), recvSlots := slotsIn (recvGib i * 1024)
                                   regions := regionBases i s.part.variant, cleanSlots := slotsIn (hbmMib s.part.variant - regionsMib i) } }

/-- Changes a flush in its area. -/
def State.updArea (s : State) (a : Nat) (g : Flush → Flush) : State :=
  { s with vlt := { s.vlt with areas := s.vlt.areas.modify a fun f => f.map g } }

/-- Logs each area that holds a flush number and no phase 1 seal, once (R371). How many pages were found is not stated here: a free value. -/
def State.logIncomplete (s : State) : State :=
  s.each (s.vlt.flushes.filter fun e => e.2.ph1.isNone && !e.2.incLogged) fun s e =>
    let (w, s) := s.freeWord
    (s.updArea e.1 fun f => { f with incLogged := true }).log .bivouacIncomplete 0 0 0 w.toNat

/-- The flush to recover: sealed and not consumed, the higher number of two (R371). -/
def Vlt.candidate (v : Vlt) : Option (Nat × Flush) :=
  let l := v.flushes.filter fun e => e.2.ph1.isSome && !e.2.consumed
  l.foldl (fun o e => match o with
    | none => some e
    | some b => if b.2.num < e.2.num then some e else o) none

/-- Loads a flush: the seal contexts, the saved-context table and its key from phase 1; the journal mirror and the belay receive area from phase 2. The
journal and the dirty area are replayed from the area itself (R113). -/
def State.loadFlush (s : State) (a : Nat) (f : Flush) (ph2Ok : Bool) : State :=
  let two := f.ph2.isSome && ph2Ok
  let fx := f.fix.getD s.fix
  State.bump { s with
    fix := { s.fix with ctxs := fx.ctxs, reuse := fx.reuse, saved := fx.saved, kCtx := fx.kCtx, saveSeq := fx.saveSeq }
    rop := if two then { s.rop with mirror := f.mirror, recv := f.recv } else s.rop
    vlt := { s.vlt with loaded := some a, recovered := true, ph2Loaded := two, lastMs := ((if two then f.ph2 else f.ph1).map (·.1)).getD 0 } }
    .vltFlushCntN

/-- The saved-context table is created empty: K_ctx is drawn from the TRNG (R175). -/
def State.newSaved (s : State) : State :=
  { s with fix := { s.fix with saved := [], kCtx := Config.trng s.tru.trng }, tru := { s.tru with trng := s.tru.trng + 1 } }

/-- VAULT_RECOVERY ends (R371); the next target begins to be erased (R365), and ROPE_JOIN begins. -/
def State.vaultRecovered (s : State) (ph1Ok ph2Ok : Bool) : State :=
  if !s.booting .vaultRecovery then s
  else
    let s := s.logIncomplete
    let s := match s.vlt.candidate with
      | none => s.newSaved
      | some (a, f) => if ph1Ok then s.loadFlush a f ph2Ok else (s.log .vaultFlushBad).newSaved
    { s with phase := .ropeJoin, vlt := s.vlt.eraseTarget, mgt := { s.mgt with joinAt := s.edge } }

/-! ### ROPE_JOIN -/

/-- An image member that has not been asked yet. -/
def IMember.fresh (m : ImgMember) : IMember :=
  { num := m.num, dom1 := m.dom1, dom2 := m.dom2, lbas := 0, mdts := 65536, admitted := false, refused := none, checked := false, unreach := none
    lastBroke := none, media := [], lowPower := false, spinning := none, ready := false, paths := [], resvReg := false, blank := false, label := none }

/-- MEMBER_DISCOVERY begins: every member of the image is connected to (R270, R271). -/
def State.startDiscovery (s : State) : State :=
  match s.mgt.image with
  | none => s
  | some i =>
    let port := ((s.memberPorts.find? s.linkUp).or s.memberPorts.head?).getD 0
    let s : State := { s with phase := .memberDiscovery, mgt := { s.mgt with discAt := s.edge }
                              mbr := { s.mbr with members := i.members.map IMember.fresh } }
    s.each i.members fun s m => s.askAdmit m.num port

/-- Is ROPE_JOIN's work done: TCK LOCKED, and the partner UP if one is declared (R337)? -/
def State.joined (s : State) : Bool :=
  s.tck.lock == .locked && (match s.partnerAddr with
    | some a => s.peerUp a
    | none => true)

/-- ROPE_JOIN ends early (R337), unless the module is held there (R339). -/
def State.joinDone (s : State) : State :=
  if s.booting .ropeJoin && !s.mgt.held && s.joined then s.startDiscovery else s

/-- ROPE_JOIN's period ends; a module that has found no rope time makes its own the rope's (R20). -/
def State.joinExpiry (s : State) : State :=
  if s.booting .ropeJoin && !s.mgt.held && decide ((s.edge : Int) ≥ s.mgt.joinAt + s.reg .mgtJoinTicks) then
    (s.iff s.tck.isLocal State.adoptLocal).startDiscovery
  else s

/-! ### MEMBER_DISCOVERY -/

/-- A member not admitted when MEMBER_DISCOVERY ends is unreachable (R337, R271). -/
def State.endDiscovery (s : State) : State :=
  { s with phase := .poolAssembly
           mbr := { s.mbr with members := s.mbr.members.map fun m => if m.admitted then m else { m with unreach := some s.edge } } }

/-- MEMBER_DISCOVERY ends early: every member of the image has been admitted or refused. -/
def State.discoveryDone (s : State) : State :=
  if s.booting .memberDiscovery && s.mbr.members.all (·.checked) then s.endDiscovery else s

/-- MEMBER_DISCOVERY's period ends. -/
def State.discoveryExpiry (s : State) : State :=
  if s.booting .memberDiscovery && decide (s.edge ≥ s.mgt.discAt + s.reg .mgtDiscTicks) then s.endDiscovery else s

/-! ### POOL_ASSEMBLY and JOURNAL_RECONCILE -/

/-- POOL_ASSEMBLY ends (R337). -/
def State.poolsAssembled (s : State) (reads : List PoolRead) : State :=
  if s.booting .poolAssembly then { s.assemblePools reads with phase := .journalReconcile } else s

/-- The module reaches ONLINE (R340): the flush it loaded is consumed (R372), and PME (R324). -/
def State.goOnline (s : State) : State :=
  let s := match s.vlt.loaded with
    | some a => s.updArea a fun f => { f with consumed := true, seals := f.seals ++ [f.sealRec 0x0C 0 0 0 0] }
    | none => s
  let ms := ((s.tck.now : Int) - s.mgt.relRst).toNat / 1000000
  let s := State.setReg { s with phase := .online, mgt := { s.mgt with onlineAt := some s.edge } } .mgtBootMsMs ms
  State.pmeAll { s with hif := { s.hif with ownVols := s.ownDir.map (·.vol) } }

/-- JOURNAL_RECONCILE ends: every pool is replayed, or waits under R339. -/
def State.reconciled (s : State) (infos : List ReconInfo) : State :=
  if s.booting .journalReconcile then (s.reconcile infos).goOnline else s

/-- The start-up states that end by themselves, at an edge. -/
def State.stepStart (s : State) : State := s.joinDone.joinExpiry.discoveryDone.discoveryExpiry

/-! ### Meanings -/

/-- TRUST_BOOT_DONE (R352): the firmware object's bytes and its signature block, the slot header, and whether the recorder's header is valid. -/
def execTrustBootDone (body block hdr : List Byte) (evrHeaderValid : Bool) (s : State) : Host.Outcome State Fault Refusal :=
  .next (s.clr.trustBooted ⟨body, block⟩ hdr evrHeaderValid)

/-- CONFIG_LOAD_DONE (R338). -/
def execConfigLoadDone (img : SignedObj) (s : State) : Host.Outcome State Fault Refusal := .next (s.clr.configLoaded img)

/-- MEMORY_INIT_DONE (R337, R66). -/
def execMemoryInitDone (hbmOk : Bool) (s : State) : Host.Outcome State Fault Refusal := .next (s.clr.memoryReady hbmOk)

/-- VAULT_RECOVERY_DONE (R371). -/
def execVaultRecoveryDone (ph1Ok ph2Ok : Bool) (s : State) : Host.Outcome State Fault Refusal := .next (s.clr.vaultRecovered ph1Ok ph2Ok)

/-- ROPE_JOIN_DONE (R337). -/
def execRopeJoinDone (s : State) : Host.Outcome State Fault Refusal := .next s.clr.joinDone

/-- ROPE_JOIN_EXPIRY (R20, R337). -/
def execRopeJoinExpiry (s : State) : Host.Outcome State Fault Refusal := .next s.clr.joinExpiry

/-- MEMBER_DISCOVERY_DONE (R337). -/
def execMemberDiscoveryDone (s : State) : Host.Outcome State Fault Refusal := .next s.clr.discoveryDone

/-- MEMBER_DISCOVERY_EXPIRY (R337). -/
def execMemberDiscoveryExpiry (s : State) : Host.Outcome State Fault Refusal := .next s.clr.discoveryExpiry

/-- POOL_ASSEMBLY_DONE (R337). -/
def execPoolAssemblyDone (reads : List PoolRead) (s : State) : Host.Outcome State Fault Refusal := .next (s.clr.poolsAssembled reads)

/-- JOURNAL_RECONCILE_DONE (R340). -/
def execJournalReconcileDone (infos : List ReconInfo) (s : State) : Host.Outcome State Fault Refusal := .next (s.clr.reconciled infos)

end Sys2Proof.Machine
end

