-- ==== Sys2Proof/Machine/Firmware.lean ====
section
/-!
DEFINITION. Staging and activation of firmware and images (R342 to R345), and the serial admin commands that wait their turn (R225).
-/
namespace Sys2Proof.Machine

/-! ### Staging (R342, R343) -/

/-- Bytes of the staging area (R331). -/
def stagingSize : Nat := 16777216

/-- Writes a chunk into the staging area; another object than the one downloaded last discards the area first (R342). -/
def State.stageChunk (s : State) (obj : ObjKind) (off : Nat) (data : List Byte) : State :=
  let keep := s.mgt.stagObj.isNone || s.mgt.stagObj == some obj
  let old := if keep then s.mgt.staging else []
  { s with mgt := { s.mgt with staging := Memory.writeAll old off data, stagObj := some obj } }

/-- Are a chunk's length and offset legal (R224)? The first fault of the entry. -/
def chunkFault (off len : Nat) : Option Stat :=
  if len % 4096 ≠ 0 ∨ len > 1048576 then some (stat 1 2 0 0x10)
  else if off % 4096 ≠ 0 ∨ off + len > stagingSize then some (stat 1 2 0 0x1C)
  else none

/-- FW_DOWNLOAD. -/
def State.download (s : State) (src : AdmSrc) (tag : BitVec 16) (addr : BitVec 64) (obj : ObjKind) (off len : BitVec 32) (chunk : HostRead (List Byte)) :
    State :=
  s.checked src tag [chunkFault off.toNat len.toNat, misaligned [addr.toNat]] fun s => s.withRead src tag chunk fun s bs =>
    (s.stageChunk obj off.toNat (bs.take len.toNat)).admDone src tag okStat

/-- The object of a given length in the staging area. -/
def State.staged (s : State) (kind : ObjKind) (len : Nat) : SignedObj := splitObj kind ((List.range len).map (Memory.read s.mgt.staging))

/-- The cause for which FW_STAGE refuses an object: the checks of R352 or of R338. -/
def State.stageCause (s : State) (kind : ObjKind) (o : SignedObj) : Option Nat :=
  match kind with
  | .firmware => s.fwCause o
  | .image => s.imageCause o

/-- The slot that FW_STAGE writes: not the active one. -/
def State.otherSlot (s : State) : Nat := 1 - s.mgt.dir.active

/-- FW_STAGE has failed: class 0x01 code 0x02, and FW_STAGE_REJECTED with the cause (R342). -/
def State.stageFailed (s : State) (src : AdmSrc) (tag : BitVec 16) (cause : Nat) : State :=
  (s.log .fwStageRejected 0 0 0 cause).admDone src tag (stat 1 2 0 0x18)

/-- The slot that FW_STAGE writes: the staged object, the other one from the active slot, and their header (R332). -/
def State.stagedPair (s : State) (kind : ObjKind) (o : SignedObj) : NvmSlot :=
  let old := (s.mgt.slots[s.mgt.dir.active]?).getD ⟨[], none, none⟩
  let n : NvmSlot := match kind with
    | .firmware => { old with fw := some o }
    | .image => { old with img := some o }
  { n with hdr := slotHeader (n.fw.getD ⟨[], []⟩) (n.img.getD ⟨[], []⟩) }

/-- Does the pair fit within a slot (R332)? -/
def NvmSlot.fits (n : NvmSlot) : Bool := pairFits (n.fw.getD ⟨[], []⟩) (n.img.getD ⟨[], []⟩)

/-- FW_STAGE (R342): the object is verified, the inactive slot written and read back. The cause of a pair that does not fit, or of a failed write or read-back,
is not stated: a free value. -/
def State.stageObj (s : State) (src : AdmSrc) (tag : BitVec 16) (kind : ObjKind) (len : BitVec 32) (w : StageWrite) : State :=
  s.checked src tag [badIf (decide (len.toNat > stagingSize)) 0x1C] fun s =>
    let o := s.staged kind len.toNat
    let s : State := { s with mgt := { s.mgt with stagObj := none } }
    match s.stageCause kind o with
    | some cause => s.stageFailed src tag cause
    | none =>
      let pair := s.stagedPair kind o
      if !pair.fits then
        let (c, s) := s.freeWord
        s.stageFailed src tag c.toNat
      else
        let at_ := s.otherSlot
        let s := s.writeDir fun d => { d with valid := d.valid.set at_ false }
        let (s, x) := s.inject [0x10] []
        if w.writeOk && w.readBackOk && x.isNone then
          let s : State := { s with mgt := { s.mgt with slots := s.mgt.slots.set at_ pair, stagedFw := kind == .firmware, stagedImg := kind == .image } }
          (s.writeDir fun d => { d with valid := d.valid.set at_ true }).admDone src tag okStat
        else
          let s : State := { s with mgt := { s.mgt with slots := s.mgt.slots.set at_ ⟨[], none, none⟩, stagedFw := false, stagedImg := false } }
          let (c, s) := s.freeWord
          s.marked x.isSome fun s => s.stageFailed src tag c.toNat

/-! ### Activation (R344) -/

/-- Begins an activation: the trial slot is entered in the directory; a belayed module with pools yields them, any other has its volumes flushed. -/
def State.startActivate (s : State) (src : AdmSrc) (tag : BitVec 16) : State :=
  let t := s.otherSlot
  if !(s.mgt.dir.valid.getD t false) then s.admDone src tag (stat 1 2)
  else
    let s := s.writeDir fun d => { d with trial := some t, attempts := 2 }
    let go := fun (stage : Nat) (s : State) => { s with mgt := { s.mgt with activate := some ⟨src, tag, stage, s.ord.acc⟩ } }
    if s.phase ≠ .online then (go 3 s).admDone src tag okStat
    else if s.jnl.belay = .belayed ∧ !s.ownPools.isEmpty ∧ s.rop.yielding.isNone then (go 0 s).startYield (s.ownPools.map (·.cur.id)) 1
    else go 1 s

/-- Is every volume flushed: no write accepted before is open, and every dirty slot is on members or held back (R240, R344)? -/
def State.allFlushed (s : State) : Bool :=
  s.ord.cmds.all (fun c => !(c.open_ && c.acc.isSome && c.op.writes))
    && s.cch.slots.all (fun e => e.2.st == .freed || s.slotStuck e.1) && !(s.scrubbing (s.pools.map (·.cur.id)))

/-- The shutdown mark of the cold journal, with every unretired record (R106); the cursors of scrub and of a frond are committed (R137, R152). -/
def State.shutdownMark (s : State) : State :=
  s.each s.ownPools fun s p =>
    let s := s.updPool p.cur.id fun p => p.commitCursor.scrubCommit
    s.coldAppend p.cur.id s.edge ((s.jnl.live.filter fun r => decide ((s.poolOf r.intent.vol).map (·.cur.id) = some p.cur.id)).map (·.no)) true

/-- Step 3 of an activation: flush, mark, completion. -/
def State.stepActivate (s : State) : State :=
  match s.mgt.activate with
  | none => s
  | some a =>
    if a.stage = 1 then
      let s := s.each (s.pools.flatMap fun p => p.vols.map (·.id)) fun s v => s.dueVol v true
      if s.allFlushed then State.flushAll (State.shutdownMark { s with mgt := { s.mgt with activate := some { a with stage := 2 } } }) (s.ownPools.map (·.cur.id)) else s
    else if a.stage = 2 ∧ s.flushesDone ∧ s.jnl.coldWait.isEmpty ∧ (s.ownPools.all fun p => p.settled || p.oneCopy) then s.activated
    else s

/-- The module restarts as if SYS_RST# had been asserted (R344): the records that wait for the log are written first (R377). -/
def State.restart (s : State) : State :=
  let s := s.saveEvents.enterReset
  s.startBoot true

/-- Step 1 of an activation that completed at the edge before. -/
def State.mayRestart (s : State) : Bool :=
  match s.mgt.activate with
  | some a => a.stage == 3
  | none => false

/-! ### The commit of a trial slot (R345, R353) -/

/-- Is this the edge at which the trial slot becomes active? -/
def State.trialDue (s : State) : Bool :=
  s.phase == .online && s.mgt.onTrial && !s.mgt.committed &&
  (s.jnl.belay == .belayed || (s.mgt.onlineAt.map (· + s.reg .mgtJoinTicks) == some s.edge && (match s.partnerAddr with
    | some a => !s.peerUp a
    | none => true)))

/-- Commits the trial slot: the directory, the floors, FW_COMMITTED. -/
def State.commitTrial (s : State) : State :=
  if s.trialDue then
    let at_ := s.mgt.slot
    let s := s.writeDir fun d => { d with active := at_, trial := none, attempts := 0 }
    let s : State := { s with mgt := { s.mgt with committed := true, onTrial := false } }
    let s := s.raiseFloors ((s.mgt.fw.map fwVersion).getD 0) ((s.mgt.image.map (·.secVersion.toNat)).getD 0)
    s.log .fwCommitted
  else s

/-! ### Serial admin commands that wait (R225) -/

/-- Carries out a serial command whose turn has come. -/
def State.runSerial (s : State) (i : Instr) : State :=
  match i with
  | .poolOpCreate src tag pool a n blk => s.poolCreate src tag pool a n blk
  | .poolOpDelete src tag pool => s.poolDelete src tag pool
  | .addMembers src tag pool a n blk => s.poolAdd src tag pool a n blk
  | .removeMembers src tag pool a n blk => s.poolRemove src tag pool a n blk
  | .declareFailed src tag pool idx => s.poolFail src tag pool idx
  | .replaceMember src tag pool idx img => s.poolReplace src tag pool idx img
  | .frondStart src tag pool a n blk => s.frondStart src tag pool a n blk
  | .frondCancel src tag pool => s.frondCancel src tag pool
  | .readLost src tag pool a n first => s.poolReadLost src tag pool a n first
  | .releaseLost src tag pool vol vbn count => s.poolRelease src tag pool vol vbn count
  | .poolOpSetAttr src tag pool en period => s.poolAttr src tag pool en period
  | .poolOpStatus src tag pool => s.poolStatus src tag pool
  | .volumeOpCreate src tag vol pool size => s.volCreate src tag vol pool size
  | .volumeOpDelete src tag vol => s.volDelete src tag vol
  | .volumeOpSetAttr src tag vol attr value => s.volAttr src tag vol attr value
  | .volumeOpGrow src tag vol size => s.volGrow src tag vol size
  | .keyImportTransferKey src tag addr key => s.checked src tag [misaligned [addr.toNat]] fun s => s.importKt src tag key
  | .keyImportRopeKey src tag addr key => s.checked src tag [misaligned [addr.toNat]] fun s => s.importKr src tag key
  | .keyImportPoolSecret src tag addr key => s.checked src tag [misaligned [addr.toNat]] fun s => s.importSecret src tag key
  | .fwStage src tag obj len w => s.stageObj src tag obj len w
  | .fwActivate src tag _ => s.startActivate src tag
  | .activateFirmware _ => s.startActivate .mctp 0
  | _ => s

/-- Carries out the serial commands whose turn has come: the next one begins when the one before has completed. -/
def State.stepSerial (s : State) : Nat → State
  | 0 => s
  | fuel + 1 =>
    match s.mgt.admQ with
    | [] => s
    | (_, _, i) :: rest =>
      if s.mgt.adm.isEmpty && s.mgt.activate.isNone then
        State.stepSerial (State.runSerial { s with mgt := { s.mgt with admQ := rest } } i) fuel
      else s

/-! ### Meanings -/

/-- FW_DOWNLOAD (R342). -/
def execFwDownload (src : AdmSrc) (tag : BitVec 16) (addr : BitVec 64) (obj : ObjKind) (off len : BitVec 32) (chunk : HostRead (List Byte)) (s : State) :
    Host.Outcome State Fault Refusal := .next (s.clr.takeAdm src tag true fun s => s.download src tag addr obj off len chunk)

/-- FW_STAGE (R342). -/
def execFwStage (src : AdmSrc) (tag : BitVec 16) (obj : ObjKind) (len : BitVec 32) (w : StageWrite) (s : State) : Host.Outcome State Fault Refusal :=
  .next (s.clr.takeSerial src tag true (.fwStage src tag obj len w) fun s => s.stageObj src tag obj len w)

/-- FW_ACTIVATE (R344). -/
def execFwActivate (src : AdmSrc) (tag : BitVec 16) (obj : ObjKind) (s : State) : Host.Outcome State Fault Refusal :=
  .next (s.clr.takeSerial src tag false (.fwActivate src tag obj) fun s => s.startActivate src tag)

/-- Does the boot code in the silicon run, which takes PLDM updates of a module halted in TRUST_BOOT (R334)? -/
def State.bootCodeRuns (s : State) : Bool := s.phase == .trustBoot && s.mgt.bootHalt

/-- ActivateFirmware over PLDM (R343): as FW_ACTIVATE; a module halted in TRUST_BOOT has nothing to flush and restarts. -/
def execActivateFirmware (obj : ObjKind) (s : State) : Host.Outcome State Fault Refusal :=
  let s := s.clr
  .next (if s.bootCodeRuns then s.startActivate .mctp 0 else s.takeSerial .mctp 0 false (.activateFirmware obj) fun s => s.startActivate .mctp 0)

/-- RequestFirmwareData over PLDM (R343): it fills the staging area as FW_DOWNLOAD does. -/
def execRequestFirmwareData (obj : ObjKind) (off : BitVec 32) (data : List Byte) (s : State) : Host.Outcome State Fault Refusal :=
  let s := s.clr
  .next (if (s.bootCodeRuns || s.configured) && decide (off.toNat + data.length ≤ stagingSize) then s.stageChunk obj off.toNat data else s)

/-- TRIAL_COMMIT (R345). -/
def execTrialCommit (s : State) : Host.Outcome State Fault Refusal := .next s.clr.commitTrial

end Sys2Proof.Machine
end

