-- ==== Sys2Proof/Machine/Tick.lean ====
section
/-!
DEFINITION. The tick edge (R27): overrun (R32), the five steps in their order, what PWR_FAIL# and FAIL_STOP leave of them (R36, R201), generations
(R162 to R164), and the two rows TICK_EDGE and YIELD_TIMEOUT.
-/
namespace Sys2Proof.Machine

/-! ### Overrun (R32) -/

/-- What a transfer that has not finished still has to do: the bytes not yet moved, and for a write the blocks not yet tagged (R32). -/
def State.remainder (s : State) (d : Desc) : List (BClass × Nat) :=
  let port := d.hostPort.val
  let left := d.len - d.moved
  match d.purpose with
  | .pull _ _ => [(.host port false, left), (.fix, left / 4096)]
  | .push _ _ => [(.host port true, left)]
  | .destage i | .journal i | .background i => [(.mtx (s.memberPorts.getD i 16), left)]
  | .rope i => [(.rope (s.ropePorts.getD i 16), left)]
  | .sealOut _ | .sealIn _ | .vault => []

/-- Transfers of admitted units that have not finished within the ticks that their charges cover (R31, R32). -/
def State.carried (s : State) : List (Nat × Desc) :=
  s.dmv.chans.flatMap fun (ch, c) =>
    match c.st with
    | .active | .paused => ((c.active.toList ++ c.queue).filter fun d => !(s.remainder d).isEmpty && decide (s.edge ≥ d.cover)).map fun d => (ch, d)
    | .idle | .halted => []

/-- Bit of TCK_OVR_STAT that a class sets. -/
def BClass.ovrBit (c : BClass) : Nat :=
  match c with
  | .host _ _ => 1 | .cod => 2 | .fix => 4 | .mtx _ | .mrx _ | .mcmd _ => 8 | .rope _ => 16

/-- The sticky bits of the classes that carried. -/
def State.setOvr (s : State) (m : BitVec 5) : State :=
  s.each [(0, Fld.tckOvrStatHost), (1, .tckOvrStatCod), (2, .tckOvrStatFix), (3, .tckOvrStatMbr), (4, .tckOvrStatRope)] fun s e =>
    s.iff (m.getLsbD e.1) fun s => s.setReg e.2 1

/-- Saturating addition of half a record value. -/
def sat32 (a b : Nat) : Nat := min 0xFFFFFFFF (a + b)

/-- The edge falls with units unfinished: their remainders come first in the next tick, the edge counts, the sticky bits are set, and TICK_OVERRUN is logged
at most once in 1,024 edges. -/
def State.overrun (s : State) : State :=
  let l := s.carried
  let s : State := { s with sched := { s.sched with late := (l.map (·.1)).eraseDups } }
  if l.isEmpty then s
  else
    let owe := l.flatMap fun e => s.remainder e.2
    let carry := owe.foldl (fun m (c, n) => tset m c ((tget m c).getD 0 + n)) s.sched.carry
    let now : BitVec 5 := owe.foldl (fun m e => m ||| BitVec.ofNat 5 e.1.ovrBit) 0
    let mask := s.tck.ovrMask ||| now
    let units := sat32 s.tck.ovrUnits l.length
    let edges := sat32 s.tck.ovrEdges 1
    let s : State := { s with sched := { s.sched with carry := carry } }
    let s := (s.bump .tckOvrCntN).setOvr now
    let due := match s.tck.ovrLast with
      | none => true
      | some e => decide (s.edge ≥ e + 1024)
    if due then
      State.log { s with tck := { s.tck with ovrLast := some s.edge, ovrMask := 0, ovrUnits := 0, ovrEdges := 0 } } .tickOverrun 0 0 0 s.edge mask.toNat
        (units + 2 ^ 32 * edges)
    else { s with tck := { s.tck with ovrMask := mask, ovrUnits := units, ovrEdges := edges } }

/-! ### Step 1 -/

/-- Generations of a pool's volumes advance where a slice was admitted at the edge before, and their limits are raised in time (R162 to R164). -/
def State.stepGen (s : State) (pid : BitVec 16) (v : BitVec 12) : State :=
  match (s.pool pid).bind fun p => (p.run v).map fun r => (p, r) with
  | none => s
  | some (p, r) =>
    let last := r.stamped && decide (r.gen ≥ genMax)
    let gen := if r.stamped && !last then r.gen + 1 else r.gen
    let low := decide (gen ≥ genLow) && !r.lowLogged
    let s := s.updPool pid fun p => p.updRun v fun r =>
      { r with gen := gen, stamped := false, exhausted := r.exhausted || last, lowLogged := r.lowLogged || low, attrsOld := none }
    let cur := ((p.vol v).map (·.limit)).getD 0
    let nxt := ((p.nxt.volumes.find? fun m => m.id == v).map (·.limit)).getD 0
    let raise := decide (gen + 2 ^ 20 ≥ cur) && decide (nxt = cur) && decide (cur < genMax + 1)
    let s := s.iff raise fun s => s.updPool pid fun p => p.change fun m =>
      { m with volumes := updIf m.volumes (fun x => x.id == v) fun x => { x with limit := min (genMax + 1) (x.limit + genStep) } }
    let s := s.iff low fun s => s.log .genLow 4 v.toNat pid gen
    s.iff (last && !r.exhausted) fun s => s.log .genExhausted 4 v.toNat pid

/-- The same for every volume. A changed attribute is in force from now on (R86). -/
def State.stepGens (s : State) : State :=
  s.each (s.pools.flatMap fun p => p.vols.map fun r => (p.cur.id, r.id)) fun s (pid, v) => s.stepGen pid v

/-- Window 0 is disabled at the edge after BELAY_DOWN, over a set that software applied (R300). -/
def State.dropWin0 (s : State) : State :=
  if s.rop.win0Off then { s with rop := { s.rop with win0Off := false, wins := s.rop.wins.modify 0 fun w => { w with en := false } } } else s

/-- A HELD completion ring's host line is read at every edge (R245). -/
def State.heldLines (s : State) : State :=
  s.each (s.qe.cqs.filter fun e => e.2.held && !s.ringDown e.1) fun s e => s.reread e.1

/-- Step 1 (R27): registers, staged sets and the pool state table are published, and what takes effect at an edge does. -/
def State.step1 (s : State) : State :=
  let s := s.applyShadows.applySets.dropWin0
  let s := s.vaultEdge.injectStep.countCores
  let s := s.linkFactors.pauseTick.pathTicks
  let s := s.passCursors.stepGens.replaceJms.publishPools
  let s := s.clearAll.applyDir.heldLines
  s.chooseRef.testSync.alerts.ddtStep

/-! ### Step 3 -/

/-- The yield has come to nothing (R305): the module flushes to the vault as a solo one; when belay ended before YIELD was sent, what the yield was for goes
on without it. -/
def State.lateYield (s : State) : State :=
  match s.rop.yielding with
  | none => s
  | some y =>
    if !s.yieldLate then s
    else
      let s : State := { s with rop := { s.rop with yielding := none } }
      let s := s.iff (decide (y.reason = 1)) fun s =>
        match s.mgt.activate with
        | none => s
        | some a =>
          if y.sentAt.isSome then State.admDone { s with mgt := { s.mgt with activate := none } } a.src a.tag (stat 5 1)
          else { s with mgt := { s.mgt with activate := some { a with stage := 1 } } }
      if y.sentAt.isSome then s.startBivouac 3 else s

/-- FAIL_STOP's sequence from the edge after the finding on (R201): belayed, the module yields; solo, it flushes to the vault when no member write is in
flight, and ends its commands at the edge after the flush is sealed. -/
def State.failStopStep (s : State) : State :=
  if s.phase ≠ .failStop ∨ s.qe.halted then s
  else if s.vlt.sealedFs then
    let s := s.endAll (fun _ => true) (stat 5 1)
    State.setReg { s with qe := { s.qe with halted := true } } .qeStatHalted 1
  else
    let all := s.ownPools.map (·.cur.id)
    match s.rop.yielding with
    | some y => match y.reason, y.sentAt with
      | 0, _ => s
      | 1, some _ => { s with rop := { s.rop with yielding := some { y with reason := 0 } } }
      | _, some _ => s
      | _, none => s.startYield all 0
    | none =>
      if s.jnl.belay = .belayed ∧ !all.isEmpty then s.startYield all 0
      else if s.mbr.cmds.any fun c => c.op.isWrite then s
      else s.startBivouac 3

/-- Invalidations whose reads have all ended complete (R322). -/
def State.invalidations (s : State) : State := (s.invalDone 0 fun _ => true).invalDone 1 fun _ => true

/-- Step 3 (R27): confirmations first, then the partner and the peers, outcomes of member and host transfers, and what commands, pools, start-up and
activation come to. -/
def State.step3 (s : State) : State :=
  let s : State := { s with cch := { s.cch with retired := [] } }
  let s := s.takeBelay.testSeals.retxAll.peerTimeouts
  let s := s.stepSetup.marked s.rop.hbInj State.stepPartner
  let s := s.stepTakeovers.dropYielded.honourYield
  let s := s.takeDone.memTimers.memberTimers.spinLimits.missingTimers.takeReports.takeDeclared
  let s := s.secureSolo.coldDone.bitmapDone.takeCommits
  let s := s.finishTasks.openWaiting.deliverRecon.takeDmv.landLocal
  let s := s.admCommits.settleClaims.settleSlices.freeSuperseded.retirePass
  let s := s.takeReplies.stepFlushes.settleCmds.stepPowers
  let s := s.each s.pools State.needMembers
  let s := s.journalExposure.conditions.pickJms
  let s := s.stepYield.lateYield.handbacks.invalidations
  let s := s.failStopStep.stepStart.commitTrial.stepActivate
  s.stepSerial (s.mgt.admQ.length + 1)

/-! ### Step 4 -/

/-- PME events of an edge (R324): FAIL_STOP was entered in the closing tick, or the set of owned volumes has changed. -/
def State.pmeEvents (s : State) : State :=
  let s := s.iff (s.qe.failAt == some (s.edge - 1)) State.pmeAll
  let own := s.ownDir.map (·.vol)
  if s.phase = .online ∧ own ≠ s.hif.ownVols then State.pmeAll { s with hif := { s.hif with ownVols := own } } else s

/-- Step 4 (R27), and the messages that go out at every edge. -/
def State.step4 (s : State) : State := s.post.pmeEvents.heartbeats.announceAll.sendSync.sendDelayReq

/-! ### Step 5 -/

/-- Retire records for every number that waits (R90). -/
def State.retireAll (s : State) : State := s.appendRetires (s.jnl.retireQ.length + 1)

/-- Belay frames within the budget (R30), oldest first. -/
def State.sendBelay (s : State) : State :=
  s.drainBelay (s.rop.txq.foldl (fun n f => n + match f with
    | .belayRecords rs => rs.length / 32 + 1
    | _ => 1) 1)

/-- Counts of the edge that registers show. -/
def State.showCounts (s : State) : State :=
  let marked := s.pools.foldl (fun n p => if p.cur.frond.isSome then n + p.frMarks.length else n) 0
  (s.setReg .cchDirtyUsedN s.cch.slots.length).setReg .seqFrondMarkedN marked

/-- Step 5 in ONLINE (R27, R30, R131): the background's share, then host work and destages in their order, then what is left to the background; at the end the
records of the coming tick. -/
def State.step5 (s : State) : State :=
  let s := s.openBudgets.throttle.markDue.pace.passSlots
  let s := s.withShare State.background
  let s := s.offerWaiting.offerFwds
  let s := s.runFg.offerSlices.moveReads.moveFwds
  let s := s.offerDestages.background
  let s := s.sendAsked.startCommits.rewriteBits.stepRereps.quietTimers
  let s := s.journalAll.flushTrack.relocate.retireAll
  s.sendBelay.feed.dirSync.showCounts.writeLog false

/-- Step 5 in FAIL_STOP (R36, R201): the records of landed slices and the yield's belay frames; nothing new is admitted. -/
def State.step5Stop (s : State) : State :=
  if s.qe.halted then s.openBudgets.pace.showCounts.writeLog false
  else s.openBudgets.pace.journalAll.retireAll.sendBelay.feed.showCounts.writeLog false

/-- Step 5 in start-up: metadata commits of assembled pools (R337), and belay. -/
def State.step5Start (s : State) : State :=
  if s.pins.pwrFail then s else s.openBudgets.pace.startCommits.sendBelay.feed.showCounts.writeLog false

/-! ### The edge -/

/-- Steps 1 to 4. What a unit charges before step 5 comes first in the coming tick. -/
def State.steps1to4 (s : State) : State :=
  let s : State := { s with sched := { s.sched with buds := [] } }
  s.step1.sealCut.step3.step4

/-- Step 5 in the phase that the steps before have left. -/
def State.lastStep (s : State) : State :=
  match s.phase with
  | .online => s.step5
  | .failStop => s.step5Stop
  | .trustBoot | .configLoad | .memoryInit | .vaultRecovery | .ropeJoin | .memberDiscovery | .poolAssembly | .journalReconcile => s.step5Start
  | .powerOff | .reset | .bivouac .quiesce | .bivouac .phase1 | .bivouac .phase2 | .bivouac .close | .bivouac .off => s

/-- An edge while a bivouac writes: rope time and the registers go on, readiness and alerts are evaluated (R366, R392, R395), and in a FAIL_STOP flush the
completion records post as well (R201). -/
def State.flushEdge (s : State) : State :=
  let s := s.applyShadows.applySets.vaultEdge.alerts.ddtStep
  s.iff s.vlt.failStopFlush State.post

/-- Everything that an edge does after rope time has reached it. -/
def State.edgeWork (s : State) : State :=
  match s.phase with
  | .bivouac .phase1 | .bivouac .phase2 | .bivouac .close => s.flushEdge
  | .powerOff | .reset | .bivouac .off => s
  | .trustBoot | .configLoad | .memoryInit | .vaultRecovery | .ropeJoin | .memberDiscovery | .poolAssembly | .journalReconcile | .online | .failStop
  | .bivouac .quiesce => if s.mayRestart then s.restart else s.steps1to4.lastStep

/-- The next edge falls; the records of its sequence reach EVR together (R13). -/
def State.tick (s : State) : State := if s.ticking then s.advance.oneCycle fun s => s.overrun.edgeWork else s

/-! ### Meanings -/

/-- TICK_EDGE (R26, R27). -/
def execTickEdge (s : State) : Host.Outcome State Fault Refusal := .next s.clr.tick

/-- YIELD_TIMEOUT (R305). -/
def execYieldTimeout (s : State) : Host.Outcome State Fault Refusal := .next s.clr.lateYield

end Sys2Proof.Machine
end

