-- ==== Sys2Proof/Machine/Dispatch.lean ====
section
/-!
DEFINITION. One arm for each command: the meaning of each row of the table.
-/
namespace Sys2Proof.Machine

/-- The effect of a command on everything but the queue. -/
def exec (i : Instr) (s : State) : Host.Outcome State Fault Refusal :=
  match i with
  | .pwrFailAsserted heldNs => Sys2Proof.Machine.execPwrFailAsserted heldNs s
  | .pwrFailDeasserted => Sys2Proof.Machine.execPwrFailDeasserted s
  | .sysRstAsserted heldNs => Sys2Proof.Machine.execSysRstAsserted heldNs s
  | .sysRstReleased slotSel testEnLow dirOk => Sys2Proof.Machine.execSysRstReleased slotSel testEnLow dirOk s
  | .railsValid => Sys2Proof.Machine.execRailsValid s
  | .railsFall => Sys2Proof.Machine.execRailsFall s
  | .sysClkLoss => Sys2Proof.Machine.execSysClkLoss s
  | .ppsInPulse at_ => Sys2Proof.Machine.execPpsInPulse at_ s
  | .ppsLost => Sys2Proof.Machine.execPpsLost s
  | .sensorWarning sensor tempC => Sys2Proof.Machine.execSensorWarning sensor tempC s
  | .criticalTemperature sensor tempC => Sys2Proof.Machine.execCriticalTemperature sensor tempC s
  | .hold12vSample mv => Sys2Proof.Machine.execHold12vSample mv s
  | .hold12vLow => Sys2Proof.Machine.execHold12vLow s
  | .tickEdge => Sys2Proof.Machine.execTickEdge s
  | .journalRelocation => Sys2Proof.Machine.execJournalRelocation s
  | .gatherWindowExpiry pool layout stripe => Sys2Proof.Machine.execGatherWindowExpiry pool layout stripe s
  | .bitmapQuietExpiry pool vol region => Sys2Proof.Machine.execBitmapQuietExpiry pool vol region s
  | .scrubCycleEnd pool => Sys2Proof.Machine.execScrubCycleEnd pool s
  | .doorbell port fn slot => Sys2Proof.Machine.execDoorbell port fn slot s
  | .hostLineReply q r => Sys2Proof.Machine.execHostLineReply q r s
  | .entryUnitReply q r => Sys2Proof.Machine.execEntryUnitReply q r s
  | .listSegmentReply q r => Sys2Proof.Machine.execListSegmentReply q r s
  | .pad q units => Sys2Proof.Machine.execPad q units s
  | .read q hd vbn count noFill list => Sys2Proof.Machine.execRead q hd vbn count noFill list s
  | .write q hd vbn count members list => Sys2Proof.Machine.execWrite q hd vbn count members list s
  | .flush q hd => Sys2Proof.Machine.execFlush q hd s
  | .abort q hd targetQ targetTag => Sys2Proof.Machine.execAbort q hd targetQ targetTag s
  | .verify q hd vbn count => Sys2Proof.Machine.execVerify q hd vbn count s
  | .sealOpen q hd prio label => Sys2Proof.Machine.execSealOpen q hd prio label s
  | .sealAppend q hd vbn bytes handle store members list => Sys2Proof.Machine.execSealAppend q hd vbn bytes handle store members list s
  | .sealClose q hd handle addr => Sys2Proof.Machine.execSealClose q hd handle addr s
  | .sealSave q hd handle addr => Sys2Proof.Machine.execSealSave q hd handle addr s
  | .sealRestore q hd addr ctx => Sys2Proof.Machine.execSealRestore q hd addr ctx s
  | .volumePower q hd target => Sys2Proof.Machine.execVolumePower q hd target s
  | .writeZeroes q hd vbn count members => Sys2Proof.Machine.execWriteZeroes q hd vbn count members s
  | .identifyModule src tag addr => Sys2Proof.Machine.execIdentifyModule src tag addr s
  | .identifyVolume src tag vol addr => Sys2Proof.Machine.execIdentifyVolume src tag vol addr s
  | .createQueue src tag a => Sys2Proof.Machine.execCreateQueue src tag a s
  | .deleteQueue src tag isCq isData pair => Sys2Proof.Machine.execDeleteQueue src tag isCq isData pair s
  | .enableQueue src tag isCq isData pair => Sys2Proof.Machine.execEnableQueue src tag isCq isData pair s
  | .disableQueue src tag isCq isData pair => Sys2Proof.Machine.execDisableQueue src tag isCq isData pair s
  | .listVolumes src tag addr len scope first => Sys2Proof.Machine.execListVolumes src tag addr len scope first s
  | .poolOpCreate src tag pool blkAddr blkLen blk => Sys2Proof.Machine.execPoolOpCreate src tag pool blkAddr blkLen blk s
  | .poolOpDelete src tag pool => Sys2Proof.Machine.execPoolOpDelete src tag pool s
  | .addMembers src tag pool blkAddr blkLen blk => Sys2Proof.Machine.execAddMembers src tag pool blkAddr blkLen blk s
  | .removeMembers src tag pool blkAddr blkLen blk => Sys2Proof.Machine.execRemoveMembers src tag pool blkAddr blkLen blk s
  | .declareFailed src tag pool idx => Sys2Proof.Machine.execDeclareFailed src tag pool idx s
  | .replaceMember src tag pool idx img => Sys2Proof.Machine.execReplaceMember src tag pool idx img s
  | .frondStart src tag pool blkAddr blkLen blk => Sys2Proof.Machine.execFrondStart src tag pool blkAddr blkLen blk s
  | .frondCancel src tag pool => Sys2Proof.Machine.execFrondCancel src tag pool s
  | .readLost src tag pool blkAddr blkLen first => Sys2Proof.Machine.execReadLost src tag pool blkAddr blkLen first s
  | .releaseLost src tag pool vol vbn count => Sys2Proof.Machine.execReleaseLost src tag pool vol vbn count s
  | .poolOpSetAttr src tag pool scrubEn period => Sys2Proof.Machine.execPoolOpSetAttr src tag pool scrubEn period s
  | .poolOpStatus src tag pool => Sys2Proof.Machine.execPoolOpStatus src tag pool s
  | .volumeOpCreate src tag vol pool size => Sys2Proof.Machine.execVolumeOpCreate src tag vol pool size s
  | .volumeOpDelete src tag vol => Sys2Proof.Machine.execVolumeOpDelete src tag vol s
  | .volumeOpSetAttr src tag vol attr value => Sys2Proof.Machine.execVolumeOpSetAttr src tag vol attr value s
  | .volumeOpGrow src tag vol size => Sys2Proof.Machine.execVolumeOpGrow src tag vol size s
  | .getEvents src tag addr len first area => Sys2Proof.Machine.execGetEvents src tag addr len first area s
  | .auditRequestReport src tag addr len nonce => Sys2Proof.Machine.execAuditRequestReport src tag addr len nonce s
  | .auditRequestStatement src tag addr len pool cycle => Sys2Proof.Machine.execAuditRequestStatement src tag addr len pool cycle s
  | .clearEvents src tag => Sys2Proof.Machine.execClearEvents src tag s
  | .fwDownload src tag addr obj off len chunk => Sys2Proof.Machine.execFwDownload src tag addr obj off len chunk s
  | .fwStage src tag obj len w => Sys2Proof.Machine.execFwStage src tag obj len w s
  | .fwActivate src tag obj => Sys2Proof.Machine.execFwActivate src tag obj s
  | .activateFirmware obj => Sys2Proof.Machine.execActivateFirmware obj s
  | .keyImportTransferKey src tag addr key => Sys2Proof.Machine.execKeyImportTransferKey src tag addr key s
  | .keyImportRopeKey src tag addr key => Sys2Proof.Machine.execKeyImportRopeKey src tag addr key s
  | .keyImportPoolSecret src tag addr wrapped => Sys2Proof.Machine.execKeyImportPoolSecret src tag addr wrapped s
  | .dmvCompletion ch retries payload => Sys2Proof.Machine.execDmvCompletion ch retries payload s
  | .dmvBusError ch err space inDst entry => Sys2Proof.Machine.execDmvBusError ch err space inDst entry s
  | .dmvQueueDrain rope port fillPct => Sys2Proof.Machine.execDmvQueueDrain rope port fillPct s
  | .completionTimeout port tag => Sys2Proof.Machine.execCompletionTimeout port tag s
  | .unexpectedCompletion port tag => Sys2Proof.Machine.execUnexpectedCompletion port tag s
  | .tagQuarantineExpiry port tag => Sys2Proof.Machine.execTagQuarantineExpiry port tag s
  | .translationCompletion port tag r => Sys2Proof.Machine.execTranslationCompletion port tag r s
  | .invalidateRequest port fn itag page sizeLog2 global => Sys2Proof.Machine.execInvalidateRequest port fn itag page sizeLog2 global s
  | .invalidateCompletion port fn itag => Sys2Proof.Machine.execInvalidateCompletion port fn itag s
  | .perstAsserted port => Sys2Proof.Machine.execPerstAsserted port s
  | .perstReleased port => Sys2Proof.Machine.execPerstReleased port s
  | .hotReset port => Sys2Proof.Machine.execHotReset port s
  | .flr port fn => Sys2Proof.Machine.execFlr port fn s
  | .hifLinkDown port => Sys2Proof.Machine.execHifLinkDown port s
  | .linkTrained port rate width => Sys2Proof.Machine.execLinkTrained port rate width s
  | .mpsWrite port fn cfg => Sys2Proof.Machine.execMpsWrite port fn cfg s
  | .pmcsrD3hot port fn pmeEn => Sys2Proof.Machine.execPmcsrD3hot port fn pmeEn s
  | .pmcsrD0 port fn pmeEn => Sys2Proof.Machine.execPmcsrD0 port fn pmeEn s
  | .pmeTurnOff port => Sys2Proof.Machine.execPmeTurnOff port s
  | .msixUnmask port fn vector => Sys2Proof.Machine.execMsixUnmask port fn vector s
  | .poisonedRequest port => Sys2Proof.Machine.execPoisonedRequest port s
  | .unsupportedRequest port kind => Sys2Proof.Machine.execUnsupportedRequest port kind s
  | .registerWrite src fn off size data => Sys2Proof.Machine.execRegisterWrite src fn off size data s
  | .rcRegisterRead src off => Sys2Proof.Machine.execRcRegisterRead src off s
  | .latchedPairRead src off => Sys2Proof.Machine.execLatchedPairRead src off s
  | .cchWmApply src => Sys2Proof.Machine.execCchWmApply src s
  | .seqPaceApply src => Sys2Proof.Machine.execSeqPaceApply src s
  | .dmvPaceApply src => Sys2Proof.Machine.execDmvPaceApply src s
  | .ropWinApply src => Sys2Proof.Machine.execRopWinApply src s
  | .qeAdmApply port => Sys2Proof.Machine.execQeAdmApply port s
  | .errlogClear src => Sys2Proof.Machine.execErrlogClear src s
  | .glbAlertClear src mask => Sys2Proof.Machine.execGlbAlertClear src mask s
  | .ovrStatClear src mask => Sys2Proof.Machine.execOvrStatClear src mask s
  | .evrCursorWrite src high size data => Sys2Proof.Machine.execEvrCursorWrite src high size data s
  | .injectArm => Sys2Proof.Machine.execInjectArm s
  | .injectDisarm => Sys2Proof.Machine.execInjectDisarm s
  | .mctpBarRead size off => Sys2Proof.Machine.execMctpBarRead size off s
  | .mctpBarWrite size off data => Sys2Proof.Machine.execMctpBarWrite size off data s
  | .memberCompletion id status payload => Sys2Proof.Machine.execMemberCompletion id status payload s
  | .memberTimeout id => Sys2Proof.Machine.execMemberTimeout id s
  | .rdmaQpError member port => Sys2Proof.Machine.execRdmaQpError member port s
  | .keepAliveFailure member port => Sys2Proof.Machine.execKeepAliveFailure member port s
  | .pathReconnect member port ok => Sys2Proof.Machine.execPathReconnect member port ok s
  | .memberReconnExpiry member => Sys2Proof.Machine.execMemberReconnExpiry member s
  | .labelReadPoll member => Sys2Proof.Machine.execLabelReadPoll member s
  | .missingTimerExpiry pool idx => Sys2Proof.Machine.execMissingTimerExpiry pool idx s
  | .spinupLimit pool idx => Sys2Proof.Machine.execSpinupLimit pool idx s
  | .cnpReceived member port atUs => Sys2Proof.Machine.execCnpReceived member port atUs s
  | .ceFrameReceived member port atUs => Sys2Proof.Machine.execCeFrameReceived member port atUs s
  | .ccTimer member port atUs => Sys2Proof.Machine.execCcTimer member port atUs s
  | .portLinkDown port => Sys2Proof.Machine.execPortLinkDown port s
  | .portLinkUp port => Sys2Proof.Machine.execPortLinkUp port s
  | .announce h serial period state ips => Sys2Proof.Machine.execAnnounce h serial period state ips s
  | .heartbeat h path p => Sys2Proof.Machine.execHeartbeat h path p s
  | .timeSync h path t1 t2 refAddr pps => Sys2Proof.Machine.execTimeSync h path t1 t2 refAddr pps s
  | .delayReq h path t4 => Sys2Proof.Machine.execDelayReq h path t4 s
  | .delayResp h path t4 => Sys2Proof.Machine.execDelayResp h path t4 s
  | .belaySetup h p => Sys2Proof.Machine.execBelaySetup h p s
  | .belayBlock h slot blk => Sys2Proof.Machine.execBelayBlock h slot blk s
  | .belayRecords h first recs => Sys2Proof.Machine.execBelayRecords h first recs s
  | .belaySeal h r => Sys2Proof.Machine.execBelaySeal h r s
  | .belayConfirm h tick => Sys2Proof.Machine.execBelayConfirm h tick s
  | .sealNak h tick => Sys2Proof.Machine.execSealNak h tick s
  | .winNak h seq slot => Sys2Proof.Machine.execWinNak h seq slot s
  | .fwdCmd h fid port qid tag entry => Sys2Proof.Machine.execFwdCmd h fid port qid tag entry s
  | .fwdData h fid off blocks => Sys2Proof.Machine.execFwdData h fid off blocks s
  | .fwdReply h fid status detail result acc => Sys2Proof.Machine.execFwdReply h fid status detail result acc s
  | .dirClaim h vol claimant answer => Sys2Proof.Machine.execDirClaim h vol claimant answer s
  | .dirUpdate h es => Sys2Proof.Machine.execDirUpdate h es s
  | .yieldFrame h pools lastSealed => Sys2Proof.Machine.execYieldFrame h pools lastSealed s
  | .takeoverAck h pools => Sys2Proof.Machine.execTakeoverAck h pools s
  | .yieldSend => Sys2Proof.Machine.execYieldSend s
  | .announceSend => Sys2Proof.Machine.execAnnounceSend s
  | .timeSyncSend => Sys2Proof.Machine.execTimeSyncSend s
  | .delayReqSend => Sys2Proof.Machine.execDelayReqSend s
  | .frameRetxTimeout peer seq => Sys2Proof.Machine.execFrameRetxTimeout peer seq s
  | .peerLostTimeout peer => Sys2Proof.Machine.execPeerLostTimeout peer s
  | .pathDownTimeout peer path => Sys2Proof.Machine.execPathDownTimeout peer path s
  | .pathUp peer path => Sys2Proof.Machine.execPathUp peer path s
  | .partnerSuspect => Sys2Proof.Machine.execPartnerSuspect s
  | .partnerCheck => Sys2Proof.Machine.execPartnerCheck s
  | .partnerCheckRetry => Sys2Proof.Machine.execPartnerCheckRetry s
  | .belaySetupRetry => Sys2Proof.Machine.execBelaySetupRetry s
  | .sealNakTimeout tick => Sys2Proof.Machine.execSealNakTimeout tick s
  | .yieldTimeout => Sys2Proof.Machine.execYieldTimeout s
  | .handbackTimer pool => Sys2Proof.Machine.execHandbackTimer pool s
  | .timingMessagesMissing => Sys2Proof.Machine.execTimingMessagesMissing s
  | .cqStalled q => Sys2Proof.Machine.execCqStalled q s
  | .ropeJoinExpiry => Sys2Proof.Machine.execRopeJoinExpiry s
  | .memberDiscoveryExpiry => Sys2Proof.Machine.execMemberDiscoveryExpiry s
  | .trustBootDone body block hdr evrHeaderValid => Sys2Proof.Machine.execTrustBootDone body block hdr evrHeaderValid s
  | .configLoadDone img => Sys2Proof.Machine.execConfigLoadDone img s
  | .memoryInitDone hbmOk => Sys2Proof.Machine.execMemoryInitDone hbmOk s
  | .vaultRecoveryDone ph1Ok ph2Ok => Sys2Proof.Machine.execVaultRecoveryDone ph1Ok ph2Ok s
  | .ropeJoinDone => Sys2Proof.Machine.execRopeJoinDone s
  | .memberDiscoveryDone => Sys2Proof.Machine.execMemberDiscoveryDone s
  | .poolAssemblyDone reads => Sys2Proof.Machine.execPoolAssemblyDone reads s
  | .journalReconcileDone infos => Sys2Proof.Machine.execJournalReconcileDone infos s
  | .resyncComplete pool => Sys2Proof.Machine.execResyncComplete pool s
  | .trialCommit => Sys2Proof.Machine.execTrialCommit s
  | .quiesceDone => Sys2Proof.Machine.execQuiesceDone s
  | .phase1Written ms w => Sys2Proof.Machine.execPhase1Written ms w s
  | .phase2Written ms w => Sys2Proof.Machine.execPhase2Written ms w s
  | .bivouacClose => Sys2Proof.Machine.execBivouacClose s
  | .vaultEraseDone ok die => Sys2Proof.Machine.execVaultEraseDone ok die s
  | .vaultProgramFail die => Sys2Proof.Machine.execVaultProgramFail die s
  | .truSignatureDone persistOk recordOk => Sys2Proof.Machine.execTruSignatureDone persistOk recordOk s
  | .evrLogPageWrite => Sys2Proof.Machine.execEvrLogPageWrite s
  | .evrNorHalfWrite ok => Sys2Proof.Machine.execEvrNorHalfWrite ok s
  | .pmeStatusClear port fn pmeEn => Sys2Proof.Machine.execPmeStatusClear port fn pmeEn s
  | .requestFirmwareData obj off data => Sys2Proof.Machine.execRequestFirmwareData obj off data s
  | .pfcPauseFrame port prio quanta => Sys2Proof.Machine.execPfcPauseFrame port prio quanta s
  | .tapInstructionLoad ir => Sys2Proof.Machine.execTapInstructionLoad ir s

end Sys2Proof.Machine
end

