-- ==== Sys2Proof/Machine/Flags.lean ====
section
/-!
DEFINITION. The status outputs that follow from the state at every moment: ALERT# (R395, R431) and the LEDs (R431). The status bits that registers show are
computed where they are read, in Regs.
-/
namespace Sys2Proof.Machine

/-- ALERT#: some bit of GLB_ALERT is set. -/
def State.alert (s : State) : Bool :=
  s.reg .glbAlertFailStop = 1 || s.reg .glbAlertBootHalt = 1 || s.reg .glbAlertAddrConflict = 1 || s.reg .glbAlertFatal = 1

/-- What a status LED shows: 0 off, 1 lit, 2 blinking at 1 Hz, 3 blinking at 4 Hz (R431). -/
def State.led (s : State) (n : Fin 4) : Nat :=
  match n with
  | 0 => (match s.phase with
    | .powerOff => 0
    | .online => 1
    | .failStop => 3
    | .reset | .trustBoot | .configLoad | .memoryInit | .vaultRecovery | .ropeJoin | .memberDiscovery | .poolAssembly | .journalReconcile
    | .bivouac _ => if s.mgt.bootHalt then 3 else 2)
  | 1 => if s.alert then 1 else 0
  | 2 => (match s.jnl.belay with
    | .solo => 0
    | .belayed => 1
    | .joining => 2)
  | 3 => (match s.phase with
    | .bivouac _ => 1
    | .powerOff | .reset | .trustBoot | .configLoad | .memoryInit | .vaultRecovery | .ropeJoin | .memberDiscovery | .poolAssembly | .journalReconcile
    | .online | .failStop => if s.vlt.ready then 0 else 2)

end Sys2Proof.Machine
end

