-- ==== Sys2Proof/Machine/Operands.lean ====
section
/-!
DEFINITION. The forms of an I/O entry as its encoding tables give them (R188, R210 to R212, R214): the ring units that spell a command, written from the
tables and not from the decoder.
-/
namespace Sys2Proof.Machine

/-- A unit from its fields: offset, size in bytes and value of each, little-endian; every other byte is zero. -/
def unitOf (fs : List (Nat × Nat × Nat)) : RingUnit :=
  BitVec.ofNat 512 ((fs.map fun (off, n, v) => v % 256 ^ n * 256 ^ off).foldl (· + ·) 0)

/-- The fields of a list entry at an offset (R211). -/
def slotFields (off : Nat) (e : ListEnt) : List (Nat × Nat × Nat) :=
  [(off, 8, e.addr.toNat), (off + 8, 4, e.len.toNat), (off + 12, 1, e.typ.toNat), (off + 13, 3, e.rsvd.toNat)]

/-- Three slots to each unit after the first; a unit opens with the entry's lap tag (R210). -/
def laterUnits (lap : Nat) : Nat → List ListEnt → List RingUnit
  | 0, _ => []
  | fuel + 1, l =>
    match l with
    | [] => []
    | a :: rest =>
      let b := (rest.take 1).flatMap (slotFields 0x20)
      let c := ((rest.drop 1).take 1).flatMap (slotFields 0x30)
      unitOf ((0, 1, lap) :: slotFields 0x10 a ++ b ++ c) :: laterUnits lap fuel (rest.drop 2)

/-- Opcode of R214, its flags without LIST, and the fields of the first unit but for the scatter list. -/
def ioEncoding (op : IoOp) : Nat × Nat × List (Nat × Nat × Nat) :=
  let flag := fun (b : Bool) (v : Nat) => if b then v else 0
  match op with
  | .read vbn count noFill _ => (0x01, flag noFill 2, [(8, 8, vbn), (0x10, 4, count)])
  | .write vbn count members _ => (0x02, flag members 2, [(8, 8, vbn), (0x10, 4, count)])
  | .flush => (0x03, 0, [])
  | .abort tq tt => (0x04, 0, [(8, 2, tq.toNat), (0x0A, 2, tt.toNat)])
  | .verify vbn count => (0x05, 0, [(8, 8, vbn), (0x10, 4, count)])
  | .sealOpen prio label => (0x06, 0, [(8, 1, prio.toNat), (0x10, 48, label.toNat)])
  | .sealAppend vbn bytes handle store members _ => (0x07, flag store 2 + flag members 4, [(8, 8, vbn), (0x10, 4, bytes), (0x18, 4, handle.toNat)])
  | .sealClose handle addr => (0x08, 0, [(8, 4, handle.toNat), (0x10, 8, addr.toNat)])
  | .sealSave handle addr => (0x09, 0, [(8, 4, handle.toNat), (0x10, 8, addr.toNat)])
  | .sealRestore addr _ => (0x0A, 0, [(0x10, 8, addr.toNat)])
  | .volPower target => (0x0B, 0, [(8, 1, target)])
  | .writeZeroes vbn count members => (0x0C, flag members 2, [(8, 8, vbn), (0x10, 4, count)])

/-- The units of an entry. With `chained` the list's one entry is the chain entry of R212; else the list is inline. -/
def encodeEntry (lap : Nat) (tag : BitVec 16) (vol : BitVec 12) (chained : Bool) (op : IoOp) : List RingUnit :=
  let l := (listOf op).getD []
  let n := if (listOf op).isSome && !chained then l.length else 0
  let (opc, fl, fs) := ioEncoding op
  let more := if chained then [] else laterUnits lap l.length (l.drop 1)
  let list := match l with
    | [] => []
    | e :: _ => (0x14, 2, n) :: slotFields 0x20 e
  unitOf ([(0, 1, lap), (1, 1, 1 + more.length), (2, 1, opc), (3, 1, fl + (if chained then 1 else 0)), (4, 2, tag.toNat), (6, 2, vol.toNat)] ++ fs ++ list) :: more

/-- Is a command one that an entry can spell: its numbers within their fields, one to 46 inline list entries or one chain entry, and no context read yet? -/
def IoOp.spelled (op : IoOp) (chained : Bool) : Bool :=
  let list := fun (l : List ListEnt) => if chained then l.length == 1 else decide (1 ≤ l.length ∧ l.length ≤ 46)
  match op with
  | .read vbn count _ l => decide (vbn < 2 ^ 64 ∧ count < 2 ^ 32) && list l
  | .write vbn count _ l => decide (vbn < 2 ^ 64 ∧ count < 2 ^ 32) && list l
  | .sealAppend vbn bytes _ _ _ l => decide (vbn < 2 ^ 64 ∧ bytes < 2 ^ 32) && list l
  | .verify vbn count => decide (vbn < 2 ^ 64 ∧ count < 2 ^ 32) && !chained
  | .writeZeroes vbn count _ => decide (vbn < 2 ^ 64 ∧ count < 2 ^ 32) && !chained
  | .volPower target => decide (target < 256) && !chained
  | .sealRestore _ ctx => ctx.isNone && !chained
  | .flush | .abort _ _ | .sealOpen _ _ | .sealClose _ _ | .sealSave _ _ => !chained

end Sys2Proof.Machine
end

