-- ==== Sys2Proof/Safety.lean ====
section
/-!
DEFINITION. The vocabulary of the statements: the parts of the state, the frame of a change, which parts each command may write, and the conditions under
which commands have their effect.
-/
namespace Sys2Proof.Machine

/-- The parts of the state that a statement may name as written. -/
inductive Sec where
  | phase | pins | temps | regs | tck | qe | ord | cch | jnl | cod | pools | seq | fix | dmv | mbr | rop | hif | vlt | tru | evr | nvm | staging | mgt | sched | freeCtr | out
  deriving DecidableEq, Repr

/-- A part is the same in two states. -/
def Sec.same (k : Sec) (s t : State) : Prop :=
  match k with
  | .phase => t.phase = s.phase
  | .pins => t.pins = s.pins
  | .temps => t.temps = s.temps
  | .regs => t.regs = s.regs
  | .tck => t.tck = s.tck
  | .qe => t.qe = s.qe
  | .ord => t.ord = s.ord
  | .cch => t.cch = s.cch
  | .jnl => t.jnl = s.jnl
  | .cod => t.cod = s.cod
  | .pools => t.pools = s.pools
  | .seq => t.seq = s.seq
  | .fix => t.fix = s.fix
  | .dmv => t.dmv = s.dmv
  | .mbr => t.mbr = s.mbr
  | .rop => t.rop = s.rop
  | .hif => t.hif = s.hif
  | .vlt => t.vlt = s.vlt
  | .tru => t.tru = s.tru
  | .evr => t.evr = s.evr
  | .nvm => t.mgt.slots = s.mgt.slots ∧ t.mgt.dir = s.mgt.dir ∧ t.mgt.dirNvm = s.mgt.dirNvm
  | .staging => t.mgt.staging = s.mgt.staging
  | .mgt => t.mgt = s.mgt
  | .sched => t.sched = s.sched
  | .freeCtr => t.freeCtr = s.freeCtr
  | .out => t.out = s.out

/-- The frame of a change: what it leaves alone. The queue of waiting commands and the identity of the part are never written, and no part outside the list
is. -/
def Frame (s t : State) (ws : List Sec) : Prop :=
  t.pending = s.pending ∧ t.part = s.part ∧ ∀ k, k ∉ ws → k.same s t

/-- The parts that a command may write, whatever the state. -/
def writes (i : Instr) : List Sec :=
  match i with
  | .announceSend | .pathUp .. => [.rop, .out]
  | .gatherWindowExpiry .. => [.cch, .out]
  | .hold12vSample .. => [.vlt, .out]
  | .memberReconnExpiry .. | .ccTimer .. | .pfcPauseFrame .. => [.mbr, .out]
  | .resyncComplete .. => [.pools, .out]
  | .tagQuarantineExpiry .. | .pmeTurnOff .. => [.hif, .out]
  | .tapInstructionLoad .. => [.pins, .out]
  | .unexpectedCompletion .. | .poisonedRequest .. | .unsupportedRequest .. => [.regs, .out]
  | .belayRecords .. | .belaySeal .. | .winNak .. | .fwdCmd .. | .fwdReply .. | .dirClaim .. | .dirUpdate .. | .takeoverAck ..
  | .pathDownTimeout .. => [.regs, .rop, .out]
  | .cnpReceived .. | .ceFrameReceived .. => [.regs, .mbr, .out]
  | .dmvQueueDrain .. => [.regs, .dmv, .out]
  | .evrNorHalfWrite .. => [.regs, .evr, .out]
  | .invalidateRequest .. | .invalidateCompletion .. | .mpsWrite .. | .msixUnmask .. => [.regs, .hif, .out]
  | .memberDiscoveryExpiry | .memberDiscoveryDone => [.phase, .mbr, .out]
  | .pad .. | .pmcsrD3hot .. | .pmcsrD0 .. => [.qe, .hif, .out]
  | .perstReleased .. | .pmeStatusClear .. => [.pins, .hif, .out]
  | .phase1Written .. | .phase2Written .. => [.phase, .vlt, .out]
  | .rdmaQpError .. | .keepAliveFailure .. | .pathReconnect .. | .labelReadPoll .. => [.mbr, .sched, .out]
  | .requestFirmwareData .. => [.staging, .mgt, .out]
  | .timeSyncSend | .delayReqSend => [.tck, .freeCtr, .out]
  | .belaySetup .. | .partnerSuspect => [.regs, .rop, .evr, .out]
  | .cqStalled .. => [.regs, .qe, .evr, .out]
  | .heartbeat .. | .delayReq .. => [.regs, .rop, .mgt, .out]
  | .identifyModule .. | .identifyVolume .. | .createQueue .. | .deleteQueue .. | .enableQueue .. | .listVolumes .. | .getEvents ..
  | .auditRequestStatement .. => [.regs, .qe, .hif, .out]
  | .journalRelocation | .belayConfirm .. | .sealNak .. => [.regs, .jnl, .rop, .out]
  | .linkTrained .. => [.regs, .hif, .evr, .out]
  | .memberCompletion .. => [.regs, .mbr, .mgt, .out]
  | .partnerCheck | .partnerCheckRetry => [.mbr, .rop, .sched, .out]
  | .peerLostTimeout .. => [.ord, .cch, .rop, .out]
  | .portLinkDown .. | .portLinkUp .. => [.regs, .mbr, .rop, .out]
  | .rcRegisterRead .. | .latchedPairRead .. | .mctpBarRead .. => [.regs, .tck, .freeCtr, .out]
  | .timingMessagesMissing => [.regs, .tck, .evr, .out]
  | .vaultEraseDone .. | .vaultProgramFail .. | .evrLogPageWrite => [.regs, .vlt, .evr, .out]
  | .announce .. | .belayBlock .. => [.regs, .rop, .evr, .mgt, .out]
  | .auditRequestReport .. => [.regs, .qe, .hif, .tru, .out]
  | .belaySetupRetry => [.regs, .jnl, .rop, .evr, .out]
  | .bitmapQuietExpiry .. => [.regs, .pools, .mbr, .sched, .out]
  | .clearEvents .. => [.regs, .qe, .hif, .evr, .out]
  | .configLoadDone .. => [.phase, .regs, .evr, .mgt, .out]
  | .dmvBusError .. => [.regs, .dmv, .hif, .evr, .out]
  | .doorbell .. | .declareFailed .. | .readLost .. | .poolOpStatus .. => [.regs, .qe, .hif, .mgt, .out]
  | .handbackTimer .. => [.qe, .ord, .rop, .hif, .out]
  | .memoryInitDone .. => [.phase, .regs, .cch, .mgt, .out]
  | .ppsInPulse .. | .ppsLost => [.regs, .tck, .evr, .freeCtr, .out]
  | .ropeJoinDone => [.phase, .mbr, .mgt, .sched, .out]
  | .scrubCycleEnd .. => [.regs, .pools, .tru, .evr, .out]
  | .yieldFrame .. => [.regs, .mbr, .rop, .sched, .out]
  | .dmvCompletion .. => [.regs, .dmv, .hif, .evr, .mgt, .out]
  | .fwDownload .. => [.regs, .qe, .hif, .staging, .mgt, .out]
  | .fwdData .. => [.regs, .ord, .rop, .evr, .mgt, .out]
  | .keyImportTransferKey .. | .keyImportRopeKey .. | .keyImportPoolSecret .. => [.regs, .qe, .hif, .tru, .mgt, .out]
  | .poolOpDelete .. | .frondCancel .. | .releaseLost .. | .poolOpSetAttr .. | .volumeOpDelete .. | .volumeOpSetAttr .. | .volumeOpGrow .. =>
    [.regs, .qe, .pools, .hif, .mgt, .out]
  | .pwrFailAsserted .. => [.phase, .pins, .regs, .vlt, .evr, .out]
  | .sealNakTimeout .. => [.regs, .cch, .jnl, .rop, .evr, .out]
  | .spinupLimit .. => [.regs, .ord, .pools, .mbr, .evr, .out]
  | .timeSync .. => [.regs, .tck, .rop, .mgt, .freeCtr, .out]
  | .translationCompletion .. => [.regs, .qe, .dmv, .hif, .evr, .out]
  | .trustBootDone .. => [.phase, .regs, .tru, .evr, .mgt, .out]
  | .yieldSend => [.jnl, .pools, .mbr, .rop, .sched, .out]
  | .addMembers .. | .removeMembers .. => [.regs, .qe, .pools, .mbr, .hif, .mgt, .out]
  | .completionTimeout .. => [.regs, .qe, .dmv, .hif, .evr, .mgt, .out]
  | .delayResp .. => [.regs, .tck, .rop, .evr, .mgt, .freeCtr, .out]
  | .frameRetxTimeout .. => [.regs, .ord, .cch, .jnl, .rop, .evr, .out]
  | .frondStart .. => [.regs, .qe, .pools, .hif, .evr, .mgt, .out]
  | .registerWrite .. | .cchWmApply .. | .seqPaceApply .. | .dmvPaceApply .. | .ropWinApply .. | .qeAdmApply .. | .errlogClear ..
  | .glbAlertClear .. | .ovrStatClear .. | .evrCursorWrite .. | .injectArm | .injectDisarm | .mctpBarWrite .. => [.regs, .qe, .rop, .hif, .evr, .mgt, .out]
  | .ropeJoinExpiry => [.phase, .tck, .mbr, .mgt, .sched, .freeCtr, .out]
  | .trialCommit => [.regs, .vlt, .tru, .evr, .nvm, .mgt, .out]
  | .volumeOpCreate .. => [.regs, .qe, .pools, .rop, .hif, .mgt, .out]
  | .disableQueue .. => [.regs, .qe, .ord, .cch, .pools, .rop, .hif, .out]
  | .fwActivate .. | .activateFirmware .. => [.regs, .qe, .ord, .rop, .hif, .nvm, .mgt, .out]
  | .fwStage .. => [.regs, .qe, .hif, .evr, .nvm, .mgt, .freeCtr, .out]
  | .hostLineReply .. => [.phase, .regs, .qe, .ord, .hif, .evr, .mgt, .out]
  | .poolAssemblyDone .. => [.phase, .regs, .pools, .mbr, .rop, .evr, .sched, .out]
  | .replaceMember .. => [.regs, .qe, .pools, .mbr, .hif, .evr, .mgt, .out]
  | .truSignatureDone .. => [.regs, .qe, .pools, .hif, .vlt, .tru, .evr, .out]
  | .yieldTimeout => [.phase, .regs, .qe, .rop, .vlt, .evr, .mgt, .out]
  | .missingTimerExpiry .. => [.regs, .ord, .cch, .jnl, .pools, .seq, .mbr, .evr, .out]
  | .poolOpCreate .. => [.regs, .qe, .pools, .mbr, .hif, .tru, .evr, .mgt, .out]
  | .quiesceDone => [.phase, .tck, .dmv, .mbr, .rop, .hif, .vlt, .tru, .out]
  | .read .. | .write .. | .flush .. | .abort .. | .verify .. | .sealOpen .. | .sealAppend .. | .sealClose .. | .sealSave .. | .sealRestore ..
  | .volumePower .. | .writeZeroes .. => [.regs, .qe, .ord, .cch, .pools, .rop, .hif, .evr, .out]
  | .sensorWarning .. => [.phase, .pins, .temps, .regs, .hif, .evr, .nvm, .mgt, .out]
  | .hotReset .. | .flr .. | .hifLinkDown .. => [.regs, .qe, .ord, .cch, .jnl, .dmv, .hif, .evr, .sched, .out]
  | .listSegmentReply .. => [.regs, .qe, .ord, .cch, .pools, .rop, .hif, .evr, .mgt, .out]
  | .vaultRecoveryDone .. => [.phase, .regs, .fix, .rop, .vlt, .tru, .evr, .mgt, .freeCtr, .out]
  | .entryUnitReply .. => [.phase, .regs, .qe, .ord, .cch, .pools, .rop, .hif, .evr, .mgt, .out]
  | .perstAsserted .. => [.pins, .regs, .qe, .ord, .cch, .jnl, .dmv, .hif, .evr, .sched, .out]
  | .journalReconcileDone .. => [.phase, .pins, .regs, .cch, .jnl, .pools, .rop, .hif, .vlt, .evr, .mgt, .out]
  | .memberTimeout .. => [.regs, .ord, .cch, .jnl, .pools, .seq, .mbr, .rop, .evr, .mgt, .sched, .out]
  | .pwrFailDeasserted | .sysRstAsserted .. | .railsValid | .railsFall | .sysClkLoss | .hold12vLow =>
    [.phase, .pins, .regs, .tck, .qe, .ord, .cch, .jnl, .cod, .pools, .seq, .fix, .dmv, .mbr, .rop, .hif, .vlt, .tru, .evr, .mgt, .sched, .out]
  | .criticalTemperature .. =>
    [.phase, .pins, .temps, .regs, .tck, .qe, .ord, .cch, .jnl, .cod, .pools, .seq, .fix, .dmv, .mbr, .rop, .hif, .vlt, .tru, .evr, .mgt, .sched, .out]
  | .sysRstReleased .. | .bivouacClose =>
    [.phase, .pins, .regs, .tck, .qe, .ord, .cch, .jnl, .cod, .pools, .seq, .fix, .dmv, .mbr, .rop, .hif, .vlt, .tru, .evr, .nvm, .mgt, .sched, .out]
  | .tickEdge =>
    [.phase, .pins, .regs, .tck, .qe, .ord, .cch, .jnl, .cod, .pools, .seq, .fix, .dmv, .mbr, .rop, .hif, .vlt, .tru, .evr, .nvm, .mgt, .sched, .freeCtr, .out]

/-! ### Power and resets -/

/-- What a reset of the module or a loss of power leaves (R85, R340): everything volatile is at its reset value; the vault's areas, the configuration NVM, the
fuses and the trust record are as they were. -/
structure AfterReset (s t : State) : Prop where
  pending : t.pending = s.pending
  part    : t.part = s.part
  temps   : t.temps = s.temps
  volatile_ : t.regs = State.reset.regs ∧ t.tck = .reset ∧ t.qe = .reset ∧ t.ord = .reset ∧ t.cch = .reset ∧ t.jnl = .reset ∧ t.cod = .reset ∧ t.pools = []
    ∧ t.seq = .reset ∧ t.fix = .reset ∧ t.dmv = .reset ∧ t.mbr = .reset ∧ t.rop = .reset ∧ t.hif = .reset ∧ t.sched = State.reset.sched
  vault   : t.vlt.areas = s.vlt.areas ∧ t.vlt.dies = s.vlt.dies ∧ t.vlt.fails = s.vlt.fails ∧ t.vlt.cycles = s.vlt.cycles ∧ t.vlt.trust = s.vlt.trust
  trust   : t.tru.trec = s.tru.trec ∧ t.tru.recSeq = s.tru.recSeq ∧ t.tru.recNvm = s.tru.recNvm ∧ t.tru.krPresent = s.tru.krPresent ∧
    t.tru.krWrapped = s.tru.krWrapped ∧ t.tru.krCheck = s.tru.krCheck ∧ t.tru.certStore = s.tru.certStore ∧ t.tru.bootCnt = s.tru.bootCnt ∧ t.tru.idxFuses = s.tru.idxFuses
    ∧ t.tru.fwFuses = s.tru.fwFuses ∧ t.tru.kr = none ∧ t.tru.kt = none ∧ t.tru.imported = none
  nvm     : t.mgt.slots = s.mgt.slots ∧ t.mgt.dir = s.mgt.dir ∧ t.mgt.dirNvm = s.mgt.dirNvm ∧ t.mgt.staging = s.mgt.staging

/-- A bivouac that runs on hold-up (R369). -/
def State.onHoldUp (s : State) : Prop :=
  s.phase ∈ [.bivouac .quiesce, .bivouac .phase1, .bivouac .phase2, .bivouac .close] ∧ s.vlt.onHold = true

/-- In a start-up state after RESET (R337). -/
def State.starting (s : State) : Prop :=
  s.phase ∈ [.trustBoot, .configLoad, .memoryInit, .vaultRecovery, .ropeJoin, .memberDiscovery, .poolAssembly, .journalReconcile]

/-- In no state of a bivouac. -/
def State.notInBivouac (s : State) : Prop := ∀ b, s.phase ≠ .bivouac b

/-- The directory that a start reads from its two copies (R333). -/
def State.startDir (s : State) : Directory := (dirAtStart s.mgt.dirNvm).1

/-- The slot that a start tries first (R334). -/
def State.firstSlot (s : State) (slotSel : Bool) : Nat :=
  let n := match s.startDir.trial with
    | some t => if 0 < s.startDir.attempts then t else s.startDir.active
    | none => s.startDir.active
  if slotSel then 1 - n else n

/-- A slot has failed with a cause: the other slot is tried once, and then the module halts where it stands (R334). -/
def SlotFails (s t : State) (cause : Nat) : Prop :=
  if s.mgt.triedOther then t.phase = s.phase ∧ t.mgt.bootHalt = true ∧ t.mgt.cause = cause ∧ t.reg .glbAlertBootHalt = 1
  else t.phase = .trustBoot ∧ t.mgt.slot = 1 - s.mgt.slot ∧ t.mgt.triedOther = true ∧ t.mgt.fallback = true ∧ t.mgt.bootHalt = false

/-! ### Host rings -/

/-- No injection slot is armed (R401). -/
def State.NoInjection (s : State) : Prop := ∀ x ∈ s.mgt.inj, x.armed = false

/-- Does an I/O command's scatter list begin with a chain entry? -/
def IoOp.chained (op : IoOp) : Bool :=
  match listOf op with
  | some (e :: _) => e.typ == 1
  | some [] | none => false

/-- The rows of R214: ring, header and command. -/
def ioOf (c : Instr) : Option (RingRef × EntryHdr × IoOp) :=
  match c with
  | .read q hd v n nf l => some (q, hd, .read v.toNat n.toNat nf l)
  | .write q hd v n m l => some (q, hd, .write v.toNat n.toNat m l)
  | .flush q hd => some (q, hd, .flush)
  | .abort q hd tq tt => some (q, hd, .abort tq tt)
  | .verify q hd v n => some (q, hd, .verify v.toNat n.toNat)
  | .sealOpen q hd p l => some (q, hd, .sealOpen p l)
  | .sealAppend q hd v b h st m l => some (q, hd, .sealAppend v.toNat b.toNat h st m l)
  | .sealClose q hd h a => some (q, hd, .sealClose h a)
  | .sealSave q hd h a => some (q, hd, .sealSave h a)
  | .sealRestore q hd a x => some (q, hd, .sealRestore a (some x))
  | .volumePower q hd t => some (q, hd, .volPower t.toNat)
  | .writeZeroes q hd v n m => some (q, hd, .writeZeroes v.toNat n.toNat m)
  | _ => none

/-- Does a command name no volume of its own (R241)? -/
def IoOp.volless (op : IoOp) : Bool :=
  match op with
  | .abort _ _ => true
  | _ => false

/-- A data ring takes an entry, and the entry passes the checks of R439: its length, its tag, its reserved bytes, its values, its list and its range. This
module serves its volume; an ABORT names none (R241). -/
structure State.RowReady (s : State) (q : RingRef) (hd : EntryHdr) (op : IoOp) : Prop where
  takes : s.takesEntry q = true
  data  : q.fn = .pf1
  units : unitsFault op hd.units op.chained = none
  tag   : s.dupTag q hd.tag = false
  rsvd  : listReserved op = none
  checks : s.opFault hd.vol op op.chained = none
  vol   : if op.volless then hd.vol = 0 else ∃ n, s.lookVol hd.vol = VolAt.here n

/-- Nothing stands in the way of a lock on a volume: the table has an entry free, and every lock of it is granted and for another volume. -/
def State.LockFree (s : State) (v : BitVec 12) : Prop :=
  s.ord.lockUsed < lockMax ∧ ∀ l ∈ s.ord.locks, l.held = true ∧ l.entry = true ∧ l.vol ≠ v

/-- A command has been accepted: it has the next acceptance number (R231), every other command stands as it was, and its ring has moved past its entry. -/
structure Accepted (s t : State) (q : RingRef) (hd : EntryHdr) (op : IoOp) (c : Cmd) : Prop where
  mem    : c ∈ t.ord.cmds
  cmd    : c.id = s.ord.freshCmd ∧ c.org = .ring q ∧ c.units = hd.units ∧ c.tag = hd.tag ∧ c.vol = hd.vol ∧ c.op = op
  acc    : c.acc = some s.ord.acc ∧ c.accEdge = s.edge ∧ t.ord.acc = s.ord.acc + 1
  others : ∀ k, k ∈ s.ord.cmds → k ∈ t.ord.cmds
  moved  : (t.sq q).map (·.h) = (s.sq q).map fun r => r.h + w32 hd.units

/-- An entry has been rejected (R199): a completion record with the status is eligible, ORD is as it was, and the ring has moved past the entry. -/
structure Rejected (s t : State) (q : RingRef) (hd : EntryHdr) (st : Stat) : Prop where
  cpl   : t.qe.elig = s.qe.elig ++ [⟨q, s.cqOf q, none, cplOf q hd.tag st 0, none⟩]
  ord   : t.ord = s.ord
  moved : (t.sq q).map (·.h) = (s.sq q).map fun r => r.h + w32 hd.units

/-! ### Admin commands -/

/-- An admin command's turn (R195, R341): over MCTP the module's state serves it; from an admin ring of PF0, its entry has been read and is outstanding, or the
ring offers it now. -/
def State.AdmTurn (s : State) (src : AdmSrc) (tag : BitVec 16) (early : Bool) : Prop :=
  match src with
  | .mctp => s.phase = .online ∨ (early = true ∧ s.configured = true)
  | .ring q => q.fn = .pf0 ∧ (q, tag) ∉ s.qe.goneAdm ∧
    (((q, tag) ∈ s.qe.outAdm ∧ s.admBusy src tag = false) ∨ ((q, tag) ∉ s.qe.outAdm ∧ (q, tag) ∉ s.qe.doneAdm ∧ s.takesEntry q = true))

/-- A command has completed with a status, to its ring or over MCTP (R224). -/
def Completes (s t : State) (src : AdmSrc) (tag : BitVec 16) (st : Stat) : Prop :=
  match src with
  | .mctp => Out.mctpCpl tag st ∈ t.out
  | .ring q => t.qe.elig = s.qe.elig ++ [⟨q, t.cqOf q, none, cplOf q tag st 0, none⟩] ∧ (q, tag) ∉ t.qe.outAdm

/-- What a command hands to the host goes out with it: over MCTP, or to a function whose ATS is off (R320). -/
def State.OutNow (s : State) (src : AdmSrc) : Prop :=
  match src with
  | .mctp => True
  | .ring q => (s.func q.port q.fn).ats = false

/-- Bytes go out to the buffer of a command; none when there are none. -/
def Hands (t : State) (src : AdmSrc) (addr : BitVec 64) (bytes : List Byte) : Prop := bytes = [] ∨ Out.hostBytes src addr bytes ∈ t.out

/-- A command waits for the commit that carries its change to a pool, to complete then with a status (R105, R225). -/
def WaitsFor (t : State) (src : AdmSrc) (tag : BitVec 16) (pid : BitVec 16) (st : Stat) : Prop :=
  ∃ w ∈ t.mgt.adm, w.src = src ∧ w.tag = tag ∧ w.pool = pid ∧ w.stat = st ∧ w.claim = none ∧ w.need = ((t.pool pid).map (·.nextCommit)).getD 0

/-- The ring that a queue command of an admin ring names (R183). -/
def named (q : RingRef) (isData : Bool) (pair : Nat) : RingRef := ⟨q.port, if isData then .pf1 else .pf0, pair⟩

/-! ### Shapes -/

/-- The lists of the state that stand for a fixed number of things have that many: two host ports, PERST# and WAKE# pins, flush areas, slots, copies of the slot
directory and of the trust record, three event cursors, four injection slots and DMV instances, eight windows and staged windows, sixteen member and rope ports. -/
structure State.Shaped (s : State) : Prop where
  pins : s.pins.perst.length = 2 ∧ s.pins.wake.length = 2
  hif  : s.hif.ports.length = 2
  vlt  : s.vlt.areas.length = 2 ∧ s.vlt.cycles.length = 2
  mgt  : s.mgt.slots.length = 2 ∧ s.mgt.dir.valid.length = 2 ∧ s.mgt.dirNvm.length = 2 ∧ s.mgt.inj.length = 4
  evr  : s.evr.cursors.length = 3 ∧ s.evr.curLo.length = 3
  dmv  : s.dmv.slotsUsed.length = 4
  rop  : s.rop.wins.length = 8 ∧ s.rop.winsStg.length = 8
  mbr  : s.mbr.linkUp.length = 16
  tru  : s.tru.recNvm.length = 2

/-- No ring of a scope is left, and no record or admin command of one waits (R208). -/
def RingsGone (t : State) (scope : RingRef → Prop) : Prop :=
  ∀ q, scope q → t.sq q = none ∧ t.cq q = none ∧ (∀ e ∈ t.qe.elig, e.cq ≠ q) ∧ (∀ tag, (q, tag) ∉ t.qe.outAdm) ∧ ∀ c ∈ t.ord.cmds, c.org ≠ .ring q

/-! ### Registers -/

/-- A source's access of 4 bytes falls on a register that the source reaches (R312, R313, R393, R400). -/
structure State.RegTurn (s : State) (src : Src) (off : BitVec 22) : Prop where
  powered : s.powered = true
  reaches : s.reaches src = true
  page    : isPage off.toNat = true
  aligned : off.toNat % 4 = 0
  shown   : hidden src off.toNat = false

/-- A field's copies other than the one named hold what they held. -/
def OtherFields (s t : State) (ks : List RegKey) : Prop :=
  ∀ f ix, (⟨f, ix⟩ : RegKey) ∉ ks → t.regs.get f ix = s.regs.get f ix

/-- The fields of the error latch (R396). -/
def latchKeys : List RegKey :=
  [⟨.mgtErrlogCode, 0⟩, ⟨.mgtErrlogUnit, 0⟩, ⟨.mgtErrlogSrc, 0⟩, ⟨.mgtErrlogOvf, 0⟩, ⟨.mgtErrlogValid, 0⟩, ⟨.mgtErrlogAddrOffset, 0⟩,
   ⟨.mgtErrlogValV, 0⟩, ⟨.mgtErrlogEdgeN, 0⟩, ⟨.mgtErrlogCntN, 0⟩]

/-- The error latch took a rejection: when it was clear it holds the rejection whole, else only OVF is set (R396). -/
def Latched (s t : State) (src : Src) (code off val : Nat) : Prop :=
  (s.reg .mgtErrlogValid = 1 → t.reg .mgtErrlogOvf = 1 ∧ t.reg .mgtErrlogValid = 1 ∧ t.reg .mgtErrlogCode = s.reg .mgtErrlogCode ∧
    t.reg .mgtErrlogAddrOffset = s.reg .mgtErrlogAddrOffset) ∧
  (s.reg .mgtErrlogValid ≠ 1 → t.reg .mgtErrlogValid = 1 ∧ t.reg .mgtErrlogCode = code ∧ t.reg .mgtErrlogUnit = pageUnit off ∧ t.reg .mgtErrlogSrc = srcIx src ∧
    t.reg .mgtErrlogAddrOffset = off ∧ t.reg .mgtErrlogValV = val ∧ t.reg .mgtErrlogEdgeN = s.edge % 2 ^ 32 ∧ t.reg .mgtErrlogOvf = s.reg .mgtErrlogOvf)

/-- The staging fields of the selected belay window. -/
def winStaging : List Fld := [.ropWinStgBaseSlot, .ropWinStgLenSlots, .ropWinStgPeerAddr, .ropWinStgPeerEn]

/-- The fields of the selected injection slot. -/
def injSlotFields : List Fld := [.mgtInjDetDet, .mgtInjDetParam, .mgtInjDetCount, .mgtInjTgtSubj, .mgtInjTgtKind, .mgtInjArmArm]

/-! ### The rope -/

/-- A frame of a type arrives that this module takes: the rope receives, version, header CRC and rope id are right, it is for this module, and its sender is a
peer that is UP (R286, R287, R291). -/
structure State.FrameFrom (s : State) (typ : Nat) (h : FrameHdr) (p : Peer) : Prop where
  on    : s.ropeOn = true
  good  : s.hdrGood typ h = true
  forMe : s.forMe h = true
  peer  : s.peer h.src = some p
  up    : p.st = .up

/-- The sequence of a frame stands among those received, and its sender has been heard at this edge (R289, R291). -/
def Received (s t : State) (h : FrameHdr) (p : Peer) : Prop :=
  (t.peer h.src).map (fun q => (q.rxHigh, q.rxAbove, q.heard)) = some ((p.got h.seq).rxHigh, (p.got h.seq).rxAbove, s.edge)

/-- A frame goes out to a peer. -/
def Sent (t : State) (dst : BitVec 12) (f : TxFrame) : Prop := ∃ path n, Out.frame (dst.setWidth 16) path n false f ∈ t.out

end Sys2Proof.Machine
end

