-- ==== Sys2Proof/Certificates/Slice0/Obligations.lean ====
section
/-!
DEFINITION. The statements for the provers.
-/

open Sys2Proof Sys2Proof.Machine

/-! ### The block: its queue, its parts, what every command keeps -/

/-- A step on a queue that is not empty is `exec` of the front command on the state with the queue's rest. The queue itself is the model's (log entry 1). -/
def Obligations.StepRunsTheFrontCommand : Prop :=
  ∀ (s : State) (c : Instr) (rest : List Instr), s.pending = c :: rest → step s = exec c { s with pending := rest }

/-- Every step completes: no command faults or is refused. It takes exactly the front command out of the queue, and the part that the module is (variant,
serial number, ordering code, boot ROM) never changes. On an empty queue nothing changes (the model's choice, log entry 2: a tick edge is a command of the
table, TICK_EDGE). -/
def Obligations.EveryStepCompletesAndKeepsQueueAndPart : Prop :=
  ∀ s : State, ∃ t, step s = .next t ∧ t.pending = s.pending.tail ∧ t.part = s.part ∧ (s.pending = [] → t = s)

/-- Every command completes, with its frame: whatever the state and the operands, `exec` answers a next state that is as before but for the parts of the
command's row of `writes`. Completes: every command of the table, all 182 constructors. -/
def Obligations.CommandsWriteOnlyTheirParts : Prop :=
  ∀ (c : Instr) (s : State), ∃ t, exec c s = .next t ∧ Frame s t (writes c)

/-- Fuses are blown and never mended, by no command and in no state (R347, R353, R355): neither the firmware floor fuses nor the index fuses fall. -/
def Obligations.FusesNeverFall : Prop :=
  ∀ s t : State, step s = .next t → s.tru.fwFuses ≤ t.tru.fwFuses ∧ s.tru.idxFuses ≤ t.tru.idxFuses

/-- The staging memory keeps its canonical form over every step. -/
def Obligations.StagingMemoryStaysCanonical : Prop :=
  ∀ s t : State, Memory.wf s.mgt.staging = true → step s = .next t → Memory.wf t.mgt.staging = true

/-- The state right after reset: memory canonical and empty, rope time 0 and FREE (R24), the acceptance counter 0 (R231), no ring, belay SOLO, an empty queue; the
register fields whose value a table gives (R6); every list of a fixed length at its length. -/
def Obligations.ResetState : Prop :=
  (Memory.wf State.reset.mgt.staging = true ∧ State.reset.mgt.staging = [] ∧ State.reset.tck.now = 0 ∧ State.reset.tck.lock = .free ∧
    State.reset.ord.acc = 0 ∧ State.reset.qe.sqs = [] ∧ State.reset.qe.cqs = [] ∧ State.reset.jnl.belay = .solo ∧ State.reset.phase = .reset ∧
    State.reset.evr.recs = [] ∧ State.reset.fix.ctxs = [] ∧ State.reset.pools = [] ∧ State.reset.pending = [] ∧ State.reset.out = []) ∧
  (State.reset.reg .tckCfgPeriod = 1 ∧ State.reset.reg .tckBudlim0Host = 64 ∧ State.reset.reg .cchWmHwm = 75 ∧ State.reset.reg .cchWmLwm = 60 ∧
    State.reset.reg .jnlBmQuietTicks = 65536 ∧ State.reset.reg .seqPaceFloor = 16 ∧ State.reset.reg .seqPaceCeil = 128 ∧
    State.reset.reg .seqPaceCrit = 224 ∧ State.reset.reg .fixDummyMax = 7 ∧ State.reset.reg .seqFrondTailN = 1024 ∧
    State.reset.reg .codFenceThrN = 3 ∧ State.reset.reg .glbAlertFatal = 0) ∧
  (State.reset.Shaped)

/-- Shapes stay: the lists that stand for a fixed number of things keep their lengths over every step, from every state that has them. -/
def Obligations.ShapesStay : Prop :=
  ∀ s t : State, s.Shaped → step s = .next t → t.Shaped

/-! ### Power, resets, clock and temperature -/

/-- PWR_FAIL# of at least 1 µs starts a bivouac on hold-up in ONLINE and FAIL_STOP, goes on with one that runs, and elsewhere changes only the pin (R340,
R368, R369); when it is deasserted a running bivouac goes on, and a module that PWR_FAIL# turned off restarts on valid rails. The rails: POWER_OFF ends in
RESET when they are valid, and their fall ends in POWER_OFF from every state but a bivouac that runs on hold-up (R340, R369). Completes: pwrFailAsserted,
pwrFailDeasserted, railsValid, railsFall. -/
def Obligations.PowerPins : Prop :=
  ((∀ (s : State) (ns : Nat), 1000 ≤ ns → ∃ t, exec (.pwrFailAsserted ns) s = .next t ∧ t.pins = { s.pins with pwrFail := true } ∧
    (s.phase = .online ∨ s.phase = .failStop → t.phase = .bivouac .quiesce ∧ t.vlt = { s.vlt with cause := 0, failStopFlush := false, onHold := true }) ∧
    (s.phase ∈ [.bivouac .quiesce, .bivouac .phase1, .bivouac .phase2, .bivouac .close] → Frame s t [.pins, .vlt, .out] ∧
      t.vlt = { s.vlt with onHold := true }) ∧
    (s.phase ∈ [.powerOff, .reset, .trustBoot, .configLoad, .memoryInit, .vaultRecovery, .ropeJoin, .memberDiscovery, .poolAssembly, .journalReconcile,
      .bivouac .off] → Frame s t [.pins, .out]) ∧
    Frame s t [.phase, .pins, .regs, .vlt, .evr, .out]) ∧
  (∀ (s : State) (ns : Nat), ns < 1000 → exec (.pwrFailAsserted ns) s = .next { s with out := [] }) ∧
  (∀ s : State, s.phase ≠ .bivouac .off ∨ s.vlt.cause ≠ 0 ∨ s.pins.rails = false →
    exec .pwrFailDeasserted s = .next { s with out := [], pins := { s.pins with pwrFail := false } }) ∧
  (∀ s : State, s.phase = .bivouac .off → s.vlt.cause = 0 → s.pins.rails = true →
    ∃ t, exec .pwrFailDeasserted s = .next t ∧ t.phase = .reset ∧ t.pins.pwrFail = false ∧ AfterReset s t)) ∧
  ((∀ s : State, s.phase = .powerOff → ∃ t, exec .railsValid s = .next t ∧ t.phase = .reset ∧ t.pins.rails = true ∧ AfterReset s t) ∧
  (∀ s : State, s.phase = .bivouac .off → s.vlt.cause = 0 → s.pins.pwrFail = false →
    ∃ t, exec .railsValid s = .next t ∧ t.phase = .reset ∧ t.pins.rails = true ∧ AfterReset s t) ∧
  (∀ s : State, s.phase ≠ .powerOff → s.phase ≠ .bivouac .off ∨ s.vlt.cause ≠ 0 ∨ s.pins.pwrFail = true →
    exec .railsValid s = .next { s with out := [], pins := { s.pins with rails := true } }) ∧
  (∀ s : State, ¬ s.onHoldUp → ∃ t, exec .railsFall s = .next t ∧ t.phase = .powerOff ∧ t.pins.rails = false ∧ AfterReset s t) ∧
  (∀ s : State, s.onHoldUp → exec .railsFall s = .next { s with out := [], pins := { s.pins with rails := false } }))

/-- SYS_RST# of at least 1 µs discards everything volatile from every start-up and run state; a running bivouac holds it off, and OFF and POWER_OFF only see
the pin (R85, R340, R369, R426). The release of SYS_RST# in RESET samples the straps and begins TRUST_BOOT with the slot of R334: the trial slot while
attempts remain, else the active one, and the other one when SLOT_SEL is high. An attempt is charged in the slot directory before it is made. Completes:
sysRstAsserted, sysRstReleased. -/
def Obligations.SystemReset : Prop :=
  ((∀ (s : State) (ns : Nat), 1000 ≤ ns → s.phase ≠ .powerOff → s.notInBivouac →
    ∃ t, exec (.sysRstAsserted ns) s = .next t ∧ t.phase = .reset ∧ t.pins.sysRst = true ∧ AfterReset s t) ∧
  (∀ (s : State) (ns : Nat), 1000 ≤ ns → s.phase ∈ [.bivouac .quiesce, .bivouac .phase1, .bivouac .phase2, .bivouac .close] →
    exec (.sysRstAsserted ns) s = .next { s with out := [], pins := { s.pins with sysRst := true, sysRstHeld := true } }) ∧
  (∀ (s : State) (ns : Nat), 1000 ≤ ns → s.phase = .powerOff ∨ s.phase = .bivouac .off →
    exec (.sysRstAsserted ns) s = .next { s with out := [], pins := { s.pins with sysRst := true } }) ∧
  (∀ (s : State) (ns : Nat), ns < 1000 → exec (.sysRstAsserted ns) s = .next { s with out := [] })) ∧
  (∀ (s : State) (sel ten : Bool), s.pins.sysRst = true → s.phase = .reset →
    ∃ t, exec (.sysRstReleased sel ten true) s = .next t ∧ t.phase = .trustBoot ∧
      t.pins = { s.pins with sysRst := false, slotSel := sel, testEn := ten, sysClk := true } ∧ t.mgt.slot = s.firstSlot sel ∧
      t.mgt.first = s.firstSlot sel ∧ t.mgt.slots = s.mgt.slots ∧ t.mgt.staging = s.mgt.staging ∧
      (∀ n, s.startDir.trial = some n → 0 < s.startDir.attempts →
        t.mgt.dir = { s.startDir with seq := s.startDir.seq + 1, attempts := s.startDir.attempts - 1 }) ∧
      (∀ n, s.startDir.trial = some n → s.startDir.attempts = 0 →
        t.mgt.dir = { s.startDir with seq := s.startDir.seq + 1, trial := none, attempts := 0 }) ∧
      (∀ n, s.startDir.trial = some n → t.mgt.dirNvm = s.mgt.dirNvm.set (1 - (dirAtStart s.mgt.dirNvm).2) (dirBytes t.mgt.dir)) ∧
      (s.startDir.trial = none → t.mgt.dir = s.startDir ∧ t.mgt.dirNvm = s.mgt.dirNvm) ∧
      Frame s t [.phase, .pins, .regs, .hif, .evr, .nvm, .mgt, .out])

/-- The loss of SYS_CLK starts a bivouac with cause 0x02 in ONLINE and FAIL_STOP, powers down a module in start-up, and does nothing once PWR_FAIL# is
asserted (R340, R425). Sensors: a reading is taken, THERM_ALERT# follows the warning thresholds with 5 °C of hysteresis (R429), and a critical one starts a
bivouac with cause 0x01 (R430). HOLD_12V samples are taken as they come (R366). Completes: sysClkLoss, sensorWarning, criticalTemperature, hold12vSample. -/
def Obligations.ClockAndSensors : Prop :=
  ((∀ s : State, s.pins.pwrFail = false → s.phase = .online ∨ s.phase = .failStop →
    ∃ t, exec .sysClkLoss s = .next t ∧ t.phase = .bivouac .quiesce ∧ t.vlt = { s.vlt with cause := 2, failStopFlush := false, onHold := false } ∧
      t.pins = { s.pins with sysClk := false } ∧ Frame s t [.phase, .pins, .regs, .vlt, .evr, .out]) ∧
  (∀ s : State, s.pins.pwrFail = false → s.starting → ∃ t, exec .sysClkLoss s = .next t ∧ t.phase = .bivouac .off ∧ t.vlt.cause = 2 ∧ AfterReset s t) ∧
  (∀ s : State, s.pins.pwrFail = true ∨ s.phase ∈ [.powerOff, .reset, .bivouac .quiesce, .bivouac .phase1, .bivouac .phase2, .bivouac .close, .bivouac .off] →
    exec .sysClkLoss s = .next { s with out := [], pins := { s.pins with sysClk := false } })) ∧
  ((∀ (s : State) (x : Sensor) (v : Int), s.phase ≠ .reset ∨ s.mgt.waitCool = false →
    ∃ t, exec (.sensorWarning x v) s = .next t ∧ t.temps = tset s.temps x v ∧ (warnAt x ≤ v → t.pins.thermAlert = true) ∧
      ((∀ e ∈ tset s.temps x v, e.2 ≤ warnAt e.1 - 5) → t.pins.thermAlert = false) ∧ Frame s t [.temps, .pins, .out]) ∧
  (∀ (s : State) (x : Sensor) (v : Int), s.phase = .reset → s.mgt.waitCool = true → s.startDir.trial = none →
    (∀ e ∈ tset s.temps x v, e.2 < warnAt e.1) → ∃ t, exec (.sensorWarning x v) s = .next t ∧ t.temps = tset s.temps x v ∧ t.phase = .trustBoot ∧
      t.mgt.slot = s.firstSlot s.pins.slotSel ∧ t.mgt.waitCool = false) ∧
  (∀ (s : State) (x : Sensor) (v : Int), critAt x ≤ v → s.phase = .online ∨ s.phase = .failStop →
    ∃ t, exec (.criticalTemperature x v) s = .next t ∧ t.phase = .bivouac .quiesce ∧ t.temps = tset s.temps x v ∧
      t.pins = { s.pins with thermAlert := true } ∧
      t.vlt = { s.vlt with cause := 1, failStopFlush := false, onHold := false } ∧ Frame s t [.phase, .pins, .temps, .regs, .vlt, .evr, .out]) ∧
  (∀ (s : State) (mv : BitVec 16), exec (.hold12vSample mv) s = .next { s with out := [], vlt := { s.vlt with holdMv := mv.toNat } }))

/-! ### The bivouac and the vault -/

/-- The steps of a bivouac (R368 to R370): quiescence, phase 1 and phase 2, each sealed in the target area with its duration and digest, and the close, which
leaves the module OFF; a FAIL_STOP flush leaves it halted in FAIL_STOP. Completes: quiesceDone, phase1Written, phase2Written, bivouacClose. -/
def Obligations.BivouacSteps : Prop :=
  (∀ s : State, s.phase = .bivouac .quiesce → ∃ t f, exec .quiesceDone s = .next t ∧ t.phase = .bivouac .phase1 ∧
    t.vlt.flushing = some s.vlt.retarget.target ∧ t.vlt.areas = s.vlt.areas.set s.vlt.retarget.target (some f) ∧ f.num = s.vlt.topFlush + 1 ∧
    f.ph1 = none ∧ f.ph2 = none ∧ f.consumed = false ∧ f.cch = some s.cch ∧ f.jnl = some s.jnl ∧
    f.pools = s.pools.map (fun p => { p with secret := 0 }) ∧ f.fix = some s.fix ∧ f.locks = s.ord.locks ∧ f.mirror = s.rop.mirror ∧ f.recv = s.rop.recv ∧
    f.overflow = s.qe.cqs.map (fun e => (e.1, e.2.overflow)) ∧ f.lastSeal = s.jnl.lastSeal ∧ f.failStop = s.vlt.failStopFlush ∧ f.seals = [] ∧ Frame s t [.phase, .tck, .dmv, .mbr, .rop, .hif, .vlt, .tru, .out]) ∧
  (∀ (s : State) (a ms : Nat) (w : PhaseWrite), s.phase = .bivouac .phase1 → s.vlt.flushing = some a →
    ∃ t, exec (.phase1Written ms w) s = .next t ∧ t.phase = (if s.cch.recvSlots = 0 then .bivouac .close else .bivouac .phase2) ∧
      t.vlt = { s.vlt with areas := s.vlt.areas.modify a fun f => f.map fun f => { f with
        ph1 := some (ms, w.digest), seals := f.seals ++ [f.sealRec 1 ms w.pages ((f.cch.map (·.slots.length)).getD 0) w.digest] } } ∧ Frame s t [.phase, .vlt, .out]) ∧
  (∀ (s : State) (a ms : Nat) (w : PhaseWrite), s.phase = .bivouac .phase2 → s.vlt.flushing = some a →
    ∃ t, exec (.phase2Written ms w) s = .next t ∧ t.phase = .bivouac .close ∧
      t.vlt = { s.vlt with areas := s.vlt.areas.modify a fun f => f.map fun f => { f with
        ph2 := some (ms, w.digest), seals := f.seals ++ [f.sealRec 2 ms w.pages f.recv.length w.digest] } } ∧ Frame s t [.phase, .vlt, .out]) ∧
  (∀ s : State, s.phase = .bivouac .close → s.vlt.failStopFlush = false → s.pins.rails = true → s.pins.sysRstHeld = false →
    ∃ t, exec .bivouacClose s = .next t ∧ t.phase = .bivouac .off ∧ t.vlt.areas = s.vlt.areas ∧ AfterReset s t) ∧
  (∀ s : State, s.phase = .bivouac .close → s.vlt.failStopFlush = true → s.pins.rails = true → s.pins.sysRstHeld = false →
    ∃ t, exec .bivouacClose s = .next t ∧ t.phase = .failStop ∧ t.vlt.sealedFs = true ∧ t.vlt.flushing = none ∧ t.vlt.areas = s.vlt.areas ∧
      t.pools = s.pools ∧ t.ord = s.ord ∧ t.cch = s.cch ∧ t.jnl = s.jnl) ∧
  (∀ s : State, s.phase = .bivouac .close → s.pins.rails = false →
    ∃ t, exec .bivouacClose s = .next t ∧ t.phase = .powerOff ∧ t.vlt.areas = s.vlt.areas ∧ AfterReset s t) ∧
  (∀ s : State, s.phase = .bivouac .close → s.vlt.failStopFlush = false → s.pins.rails = true → s.pins.sysRstHeld = true → s.pins.sysRst = false →
    s.vlt.cause ≠ 1 → s.startDir.trial = none →
    ∃ t, exec .bivouacClose s = .next t ∧ t.phase = .trustBoot ∧ t.mgt.slot = s.firstSlot s.pins.slotSel ∧ t.vlt.areas = s.vlt.areas)

/-- HOLD_12V below 7.5 V ends a write of phase 1 or phase 2 at once: nothing more is written, and what is sealed stands (R369, R371). The vault between
bivouacs (R365, R377): the target is erased as a whole and counts one cycle; a die that fails a program or an erase for the third time retires, and a die that
is not in service fails nothing. Completes: hold12vLow, vaultEraseDone, vaultProgramFail. -/
def Obligations.VaultWrites : Prop :=
  ((∀ s : State, s.phase = .bivouac .phase1 ∨ s.phase = .bivouac .phase2 →
    ∃ t, exec .hold12vLow s = .next t ∧ t.phase = (if s.pins.rails then .bivouac .off else .powerOff) ∧ t.vlt.areas = s.vlt.areas ∧ AfterReset s t) ∧
  (∀ s : State, s.phase ≠ .bivouac .phase1 → s.phase ≠ .bivouac .phase2 → exec .hold12vLow s = .next { s with out := [] })) ∧
  ((∀ (s : State) (die : Nat), s.vlt.erasing = true → exec (.vaultEraseDone true die) s = .next { s with out := [], vlt := { s.vlt with
      areas := s.vlt.areas.set s.vlt.target none, erasing := false, cycles := s.vlt.cycles.modify s.vlt.target (· + 1) } }) ∧
  (∀ (s : State) (die : Nat), s.vlt.erasing = true → exec (.vaultEraseDone false die) s = exec (.vaultProgramFail die) s) ∧
  (∀ (s : State) (die n : Nat), s.vlt.dies.contains die = true → (tget s.vlt.fails die).getD 0 = n → n < 2 →
    exec (.vaultProgramFail die) s = .next { s with out := [], vlt := { s.vlt with fails := tset s.vlt.fails die (n + 1) } }) ∧
  (∀ (s : State) (die n : Nat), s.vlt.dies.contains die = true → (tget s.vlt.fails die).getD 0 = n → 2 ≤ n →
    ∃ t, exec (.vaultProgramFail die) s = .next t ∧
      t.vlt = { s.vlt with fails := tset s.vlt.fails die (n + 1), dies := s.vlt.dies.erase die } ∧ Frame s t [.regs, .vlt, .evr, .out]) ∧
  (∀ (s : State) (die : Nat), s.vlt.dies.contains die = false → exec (.vaultProgramFail die) s = .next { s with out := [] }))

/-! ### Start-up -/

/-- TRUST_BOOT takes the newer of the two copies of the trust record, counts the boot, writes the record back in the copy that was not current, and puts the
floors in force to the highest of fuses, trust record and vault (R353, R361). Then it checks the firmware of the slot: when its signature block verifies, the
slot header names its digest and its security version is at or above the floor, CONFIG_LOAD follows; otherwise the other slot is tried once, and then the
module halts with cause 2 (signature or digest) or 3 (security version) (R334, R337, R352). Completes: trustBootDone. -/
def Obligations.TrustBootVerifiesFirmware : Prop :=
  ∀ (s : State) (fw fw' : SignedObj) (hdr hdr' : List Byte) (ev : Bool), s.booting .trustBoot = true → s.slotFw fw hdr = (fw', hdr') →
    ∃ t, exec (.trustBootDone fw.body fw.block hdr ev) s = .next t ∧ t.tru.bootCnt = s.readTrust.tru.bootCnt + 1 ∧
      t.tru.fwFloor = s.readTrust.fwFloorNow ∧ t.tru.imgFloor = s.readTrust.imgFloorNow ∧
      t.tru.trec = ⟨true, t.tru.rHi, s.readTrust.fwFloorNow, s.readTrust.imgFloorNow⟩ ∧ t.tru.recSeq = s.readTrust.tru.recSeq + 1 ∧
      t.tru.recNvm = s.tru.recNvm.set (t.tru.recSeq.toNat % 2) t.trustBytes ∧ Out.trustWrite (t.tru.recSeq.toNat % 2) t.trustBytes ∈ t.out ∧
      t.tru.certStore = some (caCert.bytes, (modCert s.part).bytes) ∧
      (if (fwVerifies fw' && headerFw hdr' == some (blkDigest fw'.block)) = false then SlotFails s t 2
       else if blkVersion fw'.block < s.readTrust.fwFloorNow then SlotFails s t 3
       else t.phase = .configLoad ∧ t.mgt = { s.mgt with fw := some fw' }) ∧
      Frame s t [.phase, .regs, .tru, .evr, .mgt, .out]

/-- CONFIG_LOAD makes the checks of R338 in their order, each with its cause: signature (4), floor (5), CRC (6), bound serial number (7), variant (8), a field
out of range (9), a partition that does not fit (0x0A), the member table (0x0B). When all pass, the image's Boot fields are in force and MEMORY_INIT follows.
The image is the one that FW_STAGE wrote into the slot; of a slot it has not written, what the readers report. Completes: configLoadDone. -/
def Obligations.ConfigLoadChecksTheImage : Prop :=
  ∀ (s : State) (c o : SignedObj) (i : Image), s.booting .configLoad = true → ((s.mgt.slots[s.mgt.slot]?).bind (·.img)).getD c = o →
    readImage o.body (blkDigest o.block) = i → ∃ t, exec (.configLoadDone c) s = .next t ∧
      (if imgVerifies o s.part.serial = false then SlotFails s t 4
       else if blkVersion o.block < s.imgFloorNow then SlotFails s t 5
       else if imageCrcs o.body = false then SlotFails s t 6
       else if i.boundSerial ≠ 0 ∧ i.boundSerial ≠ s.part.serial then SlotFails s t 7
       else if i.variants.getLsbD (if s.part.variant = .h96 then 0 else 1) = false then SlotFails s t 8
       else if (i.sectionsOk && s.fieldsLegal i) = false then SlotFails s t 9
       else if hbmMib s.part.variant < regionsMib i + 4096 then SlotFails s t 0x0A
       else if badMembers i = true then SlotFails s t 0x0B
       else t.phase = .memoryInit ∧ t.mgt = { s.mgt with image := some i } ∧ (∀ e ∈ imageFields i, t.reg e.1 e.2.1 = e.2.2) ∧
         t.reg .cchPartMetaGib = i.metaGib ∧ t.reg .cchPartDirtyGib = i.dirtyGib ∧ t.reg .cchPartBelayGib = recvGib i) ∧
      Frame s t [.phase, .regs, .evr, .mgt, .out]

/-- MEMORY_INIT lays HBM out into slots of 4,160 bytes and the regions one after the other (R66, R69), or halts with cause 0x0E; VAULT_RECOVERY loads the
newest sealed flush that no start has consumed (R371) and ends in ROPE_JOIN, whose period counts from the edge it begins at (R337). Without a flush, or when
what phase 1 sealed cannot be read, the saved-context table is made anew under a key from the TRNG (R175). ROPE_JOIN and MEMBER_DISCOVERY end early when their
work is done and otherwise with their periods (R337); a module held in ROPE_JOIN stays (R339). Every member of the image is then asked, and one not admitted
at the end is unreachable from that edge. Completes: memoryInitDone, vaultRecoveryDone, ropeJoinDone, ropeJoinExpiry, memberDiscoveryDone,
memberDiscoveryExpiry. -/
def Obligations.StartMemoryAndJoin : Prop :=
  ((∀ (s : State) (i : Image), s.booting .memoryInit = true → s.mgt.image = some i →
    exec (.memoryInitDone true) s = .next { s with out := [], phase := .vaultRecovery, cch := { s.cch with
      dirtySlots := i.dirtyGib * 2 ^ 30 / 4160, recvSlots := recvGib i * 2 ^ 30 / 4160,
      cleanSlots := (hbmMib s.part.variant - regionsMib i) * 2 ^ 20 / 4160, regions := regionBases i s.part.variant } }) ∧
  (∀ (i : Image) (v : Variant) (k : Nat), (regionBases i v)[0]? = some 0 ∧ (k < 7 → ∃ a, (regionBases i v)[k]? = some a ∧
    (regionBases i v)[k + 1]? = some (a + (regionSizes i v).getD k 0 * 2 ^ 20))) ∧
  (∀ s : State, s.booting .memoryInit = true → ∃ t, exec (.memoryInitDone false) s = .next t ∧ t.phase = .memoryInit ∧
    t.mgt = { s.mgt with bootHalt := true, cause := 0x0E } ∧ t.reg .glbAlertBootHalt = 1 ∧ Frame s t [.regs, .mgt, .out]) ∧
  (∀ (s : State) (a : Nat) (f g : Flush), s.booting .vaultRecovery = true → f.ph1.isSome = true → f.consumed = false →
    (s.vlt.areas = [some f, none] ∧ a = 0 ∨ s.vlt.areas = [none, some f] ∧ a = 1 ∨
      g.ph1.isSome = true ∧ g.num < f.num ∧ (s.vlt.areas = [some f, some g] ∧ a = 0 ∨ s.vlt.areas = [some g, some f] ∧ a = 1)) →
    ∃ t, exec (.vaultRecoveryDone true true) s = .next t ∧ t.phase = .ropeJoin ∧ t.mgt = { s.mgt with joinAt := s.edge } ∧ t.vlt.loaded = some a ∧
      t.vlt.recovered = true ∧ t.vlt.ph2Loaded = f.ph2.isSome ∧
      (∀ x, f.fix = some x → t.fix = { s.fix with ctxs := x.ctxs, reuse := x.reuse, saved := x.saved, kCtx := x.kCtx, saveSeq := x.saveSeq }) ∧
      (f.ph2.isSome = true → t.rop = { s.rop with mirror := f.mirror, recv := f.recv }) ∧ (f.ph2.isSome = false → t.rop = s.rop) ∧
      Frame s t [.phase, .regs, .fix, .rop, .vlt, .mgt, .out]) ∧
  (∀ (s : State) (a : Nat) (f : Flush) (b : Bool), s.booting .vaultRecovery = true → f.ph1.isSome = true → f.consumed = false →
    (s.vlt.areas = [some f, none] ∧ a = 0 ∨ s.vlt.areas = [none, some f] ∧ a = 1) → ∃ t, exec (.vaultRecoveryDone false b) s = .next t ∧
      t.phase = .ropeJoin ∧ t.vlt.loaded = s.vlt.loaded ∧ t.vlt.areas = s.vlt.areas ∧
      t.fix = { s.fix with saved := [], kCtx := Config.trng s.tru.trng } ∧ Frame s t [.phase, .regs, .fix, .vlt, .tru, .evr, .mgt, .out]) ∧
  (∀ (s : State) (a b : Bool), s.booting .vaultRecovery = true → s.vlt.areas = [none, none] →
    exec (.vaultRecoveryDone a b) s = .next { s with
      out := [], phase := .ropeJoin, vlt := s.vlt.eraseTarget, mgt := { s.mgt with joinAt := s.edge },
      fix := { s.fix with saved := [], kCtx := Config.trng s.tru.trng }, tru := { s.tru with trng := s.tru.trng + 1 } })) ∧
  ((∀ (s : State) (i : Image), s.booting .ropeJoin = true → s.mgt.held = false → s.mgt.image = some i → s.tck.lock = .locked →
    (∀ a, s.partnerAddr = some a → s.peerUp a = true) → ∃ t, exec .ropeJoinDone s = .next t ∧ t.phase = .memberDiscovery ∧
      t.mgt = { s.mgt with discAt := s.edge } ∧ t.mbr.members = i.members.map IMember.fresh ∧ Frame s t [.phase, .mbr, .mgt, .sched, .out]) ∧
  (∀ (s : State) (i : Image), s.booting .ropeJoin = true → s.mgt.held = false → s.mgt.image = some i → s.tck.isLocal = false →
    s.mgt.joinAt + s.reg .mgtJoinTicks ≤ (s.edge : Int) → ∃ t, exec .ropeJoinExpiry s = .next t ∧ t.phase = .memberDiscovery ∧
      t.mgt = { s.mgt with discAt := s.edge } ∧ t.mbr.members = i.members.map IMember.fresh ∧ Frame s t [.phase, .mbr, .mgt, .sched, .out]) ∧
  (∀ s : State, s.booting .ropeJoin = true → s.mgt.held = true → exec .ropeJoinDone s = .next { s with out := [] } ∧
    exec .ropeJoinExpiry s = .next { s with out := [] }) ∧
  (∀ s : State, s.booting .memberDiscovery = true → (∀ m ∈ s.mbr.members, m.checked = true) →
    exec .memberDiscoveryDone s = .next { s with out := [], phase := .poolAssembly, mbr := { s.mbr with
      members := s.mbr.members.map fun m => if m.admitted then m else { m with unreach := some s.edge } } }) ∧
  (∀ s : State, s.booting .memberDiscovery = true → s.mgt.discAt + s.reg .mgtDiscTicks ≤ s.edge →
    exec .memberDiscoveryExpiry s = .next { s with out := [], phase := .poolAssembly, mbr := { s.mbr with
      members := s.mbr.members.map fun m => if m.admitted then m else { m with unreach := some s.edge } } }) ∧
  (∀ s : State, s.booting .memberDiscovery = true → s.edge < s.mgt.discAt + s.reg .mgtDiscTicks →
    exec .memberDiscoveryExpiry s = .next { s with out := [] }))

/-- POOL_ASSEMBLY takes in what was read of each pool, JOURNAL_RECONCILE replays it, and the module is ONLINE from the coming edge on (R337, R340). A pool
whose metadata could not be read is logged and not owned; the flush that a start loaded is consumed (R372). Completes: poolAssemblyDone, journalReconcileDone.
-/
def Obligations.AssemblyToOnline : Prop :=
  (∀ (s : State) (rs : List PoolRead), s.booting .poolAssembly = true →
    ∃ t, exec (.poolAssemblyDone rs) s = .next t ∧ t.phase = .journalReconcile ∧ Frame s t [.phase, .regs, .pools, .mbr, .rop, .evr, .sched, .out]) ∧
  (∀ (s : State) (r : PoolRead), s.booting .poolAssembly = true → s.pools = [] → s.heldByPartner r.holder = false → r.copies = [] →
    ∃ t, exec (.poolAssemblyDone [r]) s = .next t ∧ t.phase = .journalReconcile ∧ t.pools = [] ∧ Frame s t [.phase, .regs, .evr, .out]) ∧
  (∀ (s : State) (is : List ReconInfo), s.booting .journalReconcile = true →
    ∃ t, exec (.journalReconcileDone is) s = .next t ∧ t.phase = .online ∧ t.mgt.onlineAt = some s.edge ∧
      t.reg .mgtBootMsMs = (((s.tck.now : Int) - s.mgt.relRst).toNat / 1000000) % 2 ^ 32 ∧
      (∀ a f, s.vlt.loaded = some a → s.vlt.areas[a]? = some (some f) → t.vlt.areas[a]? =
        some (some { f with consumed := true, seals := f.seals ++ [f.sealRec 0x0C 0 0 0 0] })) ∧
      Frame s t [.phase, .pins, .regs, .cch, .jnl, .pools, .rop, .hif, .vlt, .evr, .mgt, .out])

/-- A trial slot commits at the edge R345 names: it becomes active, the trial ends, and the floors rise to the security versions of the pair (R353). A pool
that waits for its resynchronisation returns to service when no dirty region is left and a metadata commit stands (R339). Completes: trialCommit,
resyncComplete. -/
def Obligations.CommitAndResync : Prop :=
  ((∀ (s : State) (fw : SignedObj) (i : Image), s.phase = .online → s.mgt.onTrial = true → s.mgt.committed = false → s.jnl.belay = .belayed →
    s.mgt.fw = some fw → s.mgt.image = some i → ∃ t, exec .trialCommit s = .next t ∧
      t.mgt = { s.mgt with dir := { s.mgt.dir with seq := s.mgt.dir.seq + 1, active := s.mgt.slot, trial := none, attempts := 0 },
                           dirNvm := s.mgt.dirNvm.set (1 - s.mgt.dirCur) (dirBytes t.mgt.dir), dirCur := 1 - s.mgt.dirCur,
                           committed := true, onTrial := false } ∧
      t.tru.fwFloor = max s.fwFloorNow (blkVersion fw.block) ∧ t.tru.imgFloor = max s.imgFloorNow i.secVersion.toNat ∧
      t.tru.fwFuses = max s.tru.fwFuses (min 64 t.tru.fwFloor) ∧ t.tru.trec.fwFloor = t.tru.fwFloor ∧ t.tru.trec.imgFloor = t.tru.imgFloor ∧
      t.vlt.trust.fwFloor = t.tru.fwFloor ∧ t.vlt.trust.imgFloor = t.tru.imgFloor ∧ Out.trustWrite (t.tru.recSeq.toNat % 2) t.trustBytes ∈ t.out ∧
      Frame s t [.regs, .vlt, .tru, .evr, .nvm, .mgt, .out]) ∧
  (∀ s : State, s.phase ≠ .online ∨ s.mgt.onTrial = false ∨ s.mgt.committed = true → exec .trialCommit s = .next { s with out := [] })) ∧
  ((∀ (s : State) (p : Pool), s.pool p.cur.id = some p → p.offline = true → p.unassembled = false → p.resync = [] → p.rsLeft = [] → 0 < p.cur.commit →
    exec (.resyncComplete p.cur.id) s = .next ({ s with out := [] }.updPool p.cur.id fun p => { p with offline := false })) ∧
  (∀ (s : State) (p : Pool), s.pool p.cur.id = some p → p.resync ≠ [] ∨ p.rsLeft ≠ [] → exec (.resyncComplete p.cur.id) s = .next { s with out := [] }))

/-! ### Tick edges -/

/-- A tick edge (R26, R27): while the module is powered and out of reset, rope time goes to the next multiple of T, and the accumulator by whole increments to
the last that fits (R18); ONLINE, FAIL_STOP and start-up then go through the five steps in their order, a writing bivouac only through time and registers, and
without power or in reset no edge falls. Completes: tickEdge. -/
def Obligations.TickEdges : Prop :=
  (∀ s : State, s.phase ∈ [.powerOff, .reset, .bivouac .off] → exec .tickEdge s = .next { s with out := [] }) ∧
  (∀ s : State, s.clr.advance.tck.now = (s.edge + 1) * s.periodNs ∧ (0 < s.tck.increment → s.tck.acc ≤ s.clr.advance.tck.now * 2 ^ 32 →
    (∃ k, s.clr.advance.tck.acc = s.tck.acc + k * s.tck.increment) ∧ s.clr.advance.tck.acc ≤ s.clr.advance.tck.now * 2 ^ 32 ∧
      s.clr.advance.tck.now * 2 ^ 32 < s.clr.advance.tck.acc + s.tck.increment)) ∧
  (∀ s : State, s.phase ∈ [.bivouac .phase1, .bivouac .phase2, .bivouac .close] → s.vlt.failStopFlush = false →
    ∃ t, exec .tickEdge s = .next t ∧ t.tck.now = (s.edge + 1) * s.periodNs ∧ t.vlt.areas = s.vlt.areas ∧ t.vlt.flushing = s.vlt.flushing ∧
      Frame s t [.regs, .tck, .qe, .rop, .hif, .vlt, .evr, .sched, .freeCtr, .out]) ∧
  (∀ s : State, s.ticking = true → s.phase ∉ [.bivouac .phase1, .bivouac .phase2, .bivouac .close] → s.mayRestart = false →
    exec .tickEdge s = .next (s.clr.advance.oneCycle fun s => State.lastStep (State.step4 (State.step3 (State.sealCut (State.step1
      { s.overrun with sched := { s.overrun.sched with buds := [] } }))))))

/-! ### Host rings and I/O commands -/

/-- Doorbells (R184, R192): one for an enabled ring sets its pending bit, or begins the read of its host line when nothing is being fetched and the completion
ring is not HELD; one that names no ring is counted; one for a function in D3hot is an unsupported request. The answers of a fetch (R193, R197, R198): a host
line gives producer index and consumer head, the unit at c is read while they differ, an entry of more than one unit has its rest read, and PAD units are
passed over. Completes: doorbell, hostLineReply, entryUnitReply, pad. -/
def Obligations.DoorbellsAndFetches : Prop :=
  ((∀ (s : State) (port : PciePort) (fn : Fn) (pair : Nat) (r : Sq), s.NoInjection → s.fnServes port fn = true → s.sq ⟨port, fn, pair⟩ = some r →
    r.st = .enabled → s.phase = .online → r.fetch = .idle → (∀ c, s.cq ⟨port, fn, r.cqPair⟩ = some c → c.held = false) →
    ∃ t tag, exec (.doorbell port fn pair) s = .next t ∧ t.sq ⟨port, fn, pair⟩ = some { r with pend := false, fetch := .line } ∧
      t.out = [.hostLineRead ⟨port, fn, pair⟩ tag] ∧ Frame s t [.qe, .hif, .out]) ∧
  (∀ (s : State) (port : PciePort) (fn : Fn) (pair : Nat) (r : Sq), s.NoInjection → s.fnServes port fn = true → s.sq ⟨port, fn, pair⟩ = some r →
    r.st = .enabled → s.phase = .online → r.fetch ≠ .idle → (∀ c, s.cq ⟨port, fn, r.cqPair⟩ = some c → c.held = false) →
    ∃ t, exec (.doorbell port fn pair) s = .next t ∧ t.sq ⟨port, fn, pair⟩ = some { r with pend := true } ∧ t.out = [] ∧ Frame s t [.qe, .out]) ∧
  (∀ (s : State) (port : PciePort) (fn : Fn) (pair : Nat), s.NoInjection → s.fnServes port fn = true → s.sq ⟨port, fn, pair⟩ = none →
    s.reg .qeDbIgnCntN < 2 ^ 32 - 1 →
    ∃ t, exec (.doorbell port fn pair) s = .next t ∧ t.reg .qeDbIgnCntN = s.reg .qeDbIgnCntN + 1 ∧ Frame s t [.regs, .out]) ∧
  (∀ (s : State) (port : PciePort) (fn : Fn) (pair : Nat), s.NoInjection → s.fnServes port fn = false →
    ∃ t, exec (.doorbell port fn pair) s = .next t ∧ t.out = [.aerAdvisory port] ∧ Frame s t [.regs, .out])) ∧
  ((∀ (s : State) (q : RingRef) (r : Sq) (k : Cq) (u : RingUnit), s.NoInjection → s.sq q = some r → r.fetch = .line → r.st = .enabled → s.phase = .online →
    s.cq q = some k → (∀ i, 8 ≤ i → i < 64 → ub u i = 0) → (k.t - w32 (uf u 4 4)).toNat ≤ 2 ^ k.exp → (w32 (uf u 0 4) - r.h).toNat ≤ 2 ^ r.exp →
    w32 (uf u 0 4) ≠ r.c → s.qe.reads < fetchMax → ∃ t tag, exec (.hostLineReply q (.ok u)) s = .next t ∧
      t.sq q = some { r with p := w32 (uf u 0 4), fetch := .first } ∧ t.cq q = some { k with hc := w32 (uf u 4 4), lineRead := false } ∧
      t.out = [.unitRead q r.c 1 tag] ∧ Frame s t [.qe, .hif, .out]) ∧
  (∀ (s : State) (q : RingRef) (r : Sq) (u : RingUnit), s.NoInjection → s.sq q = some r → r.fetch = .first → ub u 0 = r.c.toNat / 2 ^ r.exp % 256 →
    2 ≤ ub u 1 → ub u 1 ≤ 16 → r.c.toNat % 2 ^ r.exp + ub u 1 ≤ 2 ^ r.exp → ub u 1 ≤ (r.p - r.c).toNat → ub u 2 ≠ 0x3F →
    ∃ t tag, exec (.entryUnitReply q (.ok [u])) s = .next t ∧ t.sq q = some { r with fetch := .rest u } ∧
      t.out = [.unitRead q (r.c + 1) (ub u 1 - 1) tag] ∧ Frame s t [.qe, .hif, .out]) ∧
  (∀ (s : State) (q : RingRef) (r : Sq) (n : Nat), s.takesEntry q = true → s.sq q = some r → 1 ≤ n → n ≤ 16 →
    ∃ t, exec (.pad q n) s = .next t ∧ (t.sq q).map (·.h) = some (r.h + w32 n) ∧ (t.sq q).map (·.c) = some (r.h + w32 n) ∧ t.qe.elig = s.qe.elig ∧
      Frame s t [.qe, .hif, .out]))

/-- Structural faults of a ring stop the module (R200, R201): a producer index beyond the ring, a consumer head beyond the tail, a wrong lap tag, a length of 0
or beyond 16 units, an entry beyond the ring's end or beyond the producer index. Each enters FAIL_STOP at the finding, with its cause in QE_MALF. -/
def Obligations.RingFaultsStop : Prop :=
  (∀ (s : State) (q : RingRef) (r : Sq) (u : RingUnit) (cause : Nat), s.NoInjection → s.sq q = some r → r.fetch = .first → s.phase = .online →
    (let d := (ub u 0 + 256 - r.c.toNat / 2 ^ r.exp % 256) % 256
     d ≠ 0 ∧ d ≠ 255 ∧ cause = 5 ∨ d = 0 ∧ ub u 1 = 0 ∧ cause = 0 ∨ d = 0 ∧ 16 < ub u 1 ∧ cause = 1 ∨
       d = 0 ∧ 1 ≤ ub u 1 ∧ ub u 1 ≤ 16 ∧ 2 ^ r.exp < r.c.toNat % 2 ^ r.exp + ub u 1 ∧ cause = 2 ∨
       d = 0 ∧ 1 ≤ ub u 1 ∧ ub u 1 ≤ 16 ∧ r.c.toNat % 2 ^ r.exp + ub u 1 ≤ 2 ^ r.exp ∧ (r.p - r.c).toNat < ub u 1 ∧ cause = 6) →
    ∃ t, exec (.entryUnitReply q (.ok [u])) s = .next t ∧ t.phase = .failStop ∧ t.qe.failAt = some s.edge ∧ t.reg .qeMalfQCause = cause ∧
      t.reg .qeMalfQQid = (ringQid q).toNat ∧ t.reg .qeMalfQPort = q.port.val ∧ t.reg .qeMalfIdxC = r.c.toNat ∧ t.reg .qeStatFailStop = 1 ∧
      t.reg .glbAlertFailStop = 1) ∧
  (∀ (s : State) (q : RingRef) (r : Sq) (k : Cq) (u : RingUnit), s.NoInjection → s.sq q = some r → r.fetch = .line → s.phase = .online →
    s.cq q = some k → (∀ i, 8 ≤ i → i < 64 → ub u i = 0) → (k.t - w32 (uf u 4 4)).toNat ≤ 2 ^ k.exp → 2 ^ r.exp < (w32 (uf u 0 4) - r.h).toNat →
    ∃ t, exec (.hostLineReply q (.ok u)) s = .next t ∧ t.phase = .failStop ∧ t.reg .qeMalfQCause = 3) ∧
  (∀ (s : State) (q : RingRef) (r : Sq) (k : Cq) (u : RingUnit), s.NoInjection → s.sq q = some r → r.fetch = .line → s.phase = .online →
    s.cq q = some k → (∀ i, 8 ≤ i → i < 64 → ub u i = 0) → 2 ^ k.exp < (k.t - w32 (uf u 4 4)).toNat →
    ∃ t, exec (.hostLineReply q (.ok u)) s = .next t ∧ t.phase = .failStop ∧ t.reg .qeMalfQCause = 4)

/-- The units that the encoding tables give for a command (R188, R210 to R212, R214) decode to that command, with every operand at every value that its field
holds, inline or chained; the tag, the volume and the length in units stand where R188 has them. -/
def Obligations.EntriesDecodeAsEncoded : Prop :=
  ∀ (lap : Nat) (tag : BitVec 16) (vol : BitVec 12) (chained : Bool) (op : IoOp), op.spelled chained = true →
    decodeIo (encodeEntry lap tag vol chained op) = some op ∧ uf (firstUnit (encodeEntry lap tag vol chained op)) 4 2 = tag.toNat ∧
      uf (firstUnit (encodeEntry lap tag vol chained op)) 6 2 = vol.toNat ∧
      ub (firstUnit (encodeEntry lap tag vol chained op)) 1 = (encodeEntry lap tag vol chained op).length

/-- READ, WRITE, FLUSH, VERIFY, SEAL_OPEN, SEAL_APPEND, SEAL_CLOSE, SEAL_SAVE, SEAL_RESTORE and WRITE_ZEROES: an entry that passes its checks is accepted when
its lock is free and its volume is ACTIVE (R231, R233): it takes the next acceptance number and, for a command of a range, the lock; a write drops the clean
copies of its blocks (R83); nothing else changes but the ring. Completes: read, write, flush, verify, sealOpen, sealAppend, sealClose, sealSave, sealRestore,
writeZeroes. -/
def Obligations.IoCommandsAccepted : Prop :=
  ∀ (s : State) (c : Instr) (q : RingRef) (hd : EntryHdr) (op : IoOp), ioOf c = some (q, hd, op) → s.RowReady q hd op → (∀ x, op ≠ .volPower x) →
    (∀ a b, op ≠ .abort a b) → s.powerOf hd.vol = .active → (op.lock ≠ none → s.LockFree hd.vol) → ∃ t k, exec c s = .next t ∧ Accepted s t q hd op k ∧
      k.st = (if op = .flush then .running else .accepted) ∧ k.lockHeld = op.lock.isSome ∧
      (∀ v n x, op.lock = some (v, n, x) → t.ord.locks = s.ord.locks ++ [⟨k.id, hd.vol, v, n, x, true, true⟩]) ∧
      (op.lock = none → t.ord.locks = s.ord.locks) ∧
      (writtenBlocks op = none → t.cch = s.cch) ∧ (∀ v n, writtenBlocks op = some (v, n) → t.cch = { s.cch with clean := t.cch.clean } ∧
        ∀ e, e ∈ t.cch.clean ↔ e ∈ s.cch.clean ∧ ¬(e.vol = hd.vol ∧ v ≤ e.vbn ∧ e.vbn < v + n)) ∧ Frame s t [.qe, .ord, .cch, .hif, .out]

/-- What acceptance fixes for a FLUSH, an ABORT and a VOLUME_POWER: a FLUSH covers the accepted writes and the dirty slots of its volume (R238), an ABORT its
target if one is outstanding (R241), and VOLUME_POWER answers with the state before it (R219). Completes: flush, abort, volumePower. -/
def Obligations.FlushAbortVolumePower : Prop :=
  (∀ (s : State) (q : RingRef) (hd : EntryHdr), s.RowReady q hd .flush → s.powerOf hd.vol = .active → ∃ t k, exec (.flush q hd) s = .next t ∧
    Accepted s t q hd .flush k ∧ (∀ i, i ∈ k.slotsLeft ↔ ∃ x, (i, x) ∈ s.cch.slots ∧ x.vol = hd.vol ∧ x.st = .dirty ∧ x.mirror = false) ∧
    (∀ w ∈ s.ord.cmds, w.vol = hd.vol → w.op.writes = true → w.acc.isSome = true → w.st = .running → w.id ∈ k.set) ∧
    (∀ i ∈ k.set, ∃ w ∈ s.ord.cmds, w.id = i ∧ w.vol = hd.vol ∧ w.op.writes = true ∧ w.acc.isSome = true ∧ w.st ≠ .finished)) ∧
  (∀ (s : State) (q : RingRef) (hd : EntryHdr) (tq tt : BitVec 16) (w : Cmd), s.RowReady q hd (.abort tq tt) → s.ord.cmds = [w] → w.org = .ring q →
    ringQid q = tq → w.tag = tt → w.acc.isSome = true → w.st = .running → ∃ t k, exec (.abort q hd tq tt) s = .next t ∧
    Accepted s t q hd (.abort tq tt) k ∧ k.set = [w.id] ∧ Frame s t [.qe, .ord, .hif, .out]) ∧
  (∀ (s : State) (q : RingRef) (hd : EntryHdr) (tq tt : BitVec 16), s.RowReady q hd (.abort tq tt) → s.ord.cmds = [] →
    ∃ t k, exec (.abort q hd tq tt) s = .next t ∧ Accepted s t q hd (.abort tq tt) k ∧ k.set = [] ∧ Frame s t [.qe, .ord, .hif, .out]) ∧
  (∀ (s : State) (q : RingRef) (hd : EntryHdr) (x : BitVec 8), s.RowReady q hd (.volPower x.toNat) → x.toNat < 2 →
    ((s.poolOf hd.vol).bind (·.run hd.vol)).isSome = true → s.powerOf hd.vol = .active ∨ s.powerOf hd.vol = .idle →
    ∃ t k, exec (.volumePower q hd x) s = .next t ∧ Accepted s t q hd (.volPower x.toNat) k ∧
      k.st = .eligible (okStat (if s.powerOf hd.vol = .active then 0 else 1)) ∧ t.powerOf hd.vol = (if x = 0 then .active else .idle)) ∧
  (∀ (s : State) (q : RingRef) (hd : EntryHdr), s.RowReady q hd (.volPower 2) → ((s.poolOf hd.vol).bind (·.run hd.vol)).isSome = true →
    s.powerOf hd.vol = .active → ∃ t k, exec (.volumePower q hd 2) s = .next t ∧ Accepted s t q hd (.volPower 2) k ∧ k.st = .running ∧
      t.powerOf hd.vol = .entering)

/-- Entries that fail a check are completed with the status that the first failing check of R439 gives, and count in QE_ILLEGAL_CNT: on an administrative ring
(1/1), a repeated tag (1/8), an illegal count (1/2, detail 0x10), an unknown volume (1/7), a range beyond the volume (1/6). -/
def Obligations.IoEntriesRejected : Prop :=
  (∀ (s : State) (c : Instr) (q : RingRef) (hd : EntryHdr) (op : IoOp), ioOf c = some (q, hd, op) → s.takesEntry q = true → q.fn = .pf0 →
    ∃ t, exec c s = .next t ∧ Rejected s t q hd (stat 1 1) ∧ Frame s t [.regs, .qe, .hif, .out]) ∧
  (∀ (s : State) (c : Instr) (q : RingRef) (hd : EntryHdr) (op : IoOp), ioOf c = some (q, hd, op) → s.takesEntry q = true → q.fn = .pf1 →
    unitsFault op hd.units op.chained = none → s.dupTag q hd.tag = true →
    ∃ t, exec c s = .next t ∧ Rejected s t q hd (stat 1 8) ∧ Frame s t [.regs, .qe, .hif, .out]) ∧
  (∀ (s : State) (c : Instr) (q : RingRef) (hd : EntryHdr) (op : IoOp) (v n : Nat), ioOf c = some (q, hd, op) → s.takesEntry q = true → q.fn = .pf1 →
    unitsFault op hd.units op.chained = none → s.dupTag q hd.tag = false → listReserved op = none →
    ((∃ nf l, op = .read v n nf l) ∨ (∃ m l, op = .write v n m l) ∨ op = .verify v n ∨ (∃ m, op = .writeZeroes v n m)) →
    (n < 1 ∨ 65536 < n → ∃ t, exec c s = .next t ∧ Rejected s t q hd (stat 1 2 0 0x10)) ∧
    (1 ≤ n → n ≤ 65536 → entriesOf op op.chained = none → listFault op op.chained = none → s.lookVol hd.vol = .unknown → ∃ t, exec c s = .next t ∧ Rejected s t q hd (stat 1 7)) ∧
    (1 ≤ n → n ≤ 65536 → entriesOf op op.chained = none → listFault op op.chained = none → ∀ size, s.lookVol hd.vol = .here size → size < v + n →
      ∃ t, exec c s = .next t ∧ Rejected s t q hd (stat 1 6)))

/-- A whole entry read from a ring is offered as the command it spells (R195, R213): when its bytes pass the checks of R439, it is accepted as the row of its
opcode is, and a chained list is read to its end first. A read that fails leaves the entry where it is (R196); a list segment whose translation fails ends the
command with class 3 code 3 (R321). Completes: entryUnitReply, listSegmentReply. -/
def Obligations.EntriesRunTheirCommands : Prop :=
  (∀ (s : State) (q : RingRef) (r : Sq) (hd : EntryHdr) (u : RingUnit) (op : IoOp), s.NoInjection → s.sq q = some r → r.fetch = .first →
    ub u 0 = r.c.toNat / 2 ^ r.exp % 256 → ub u 1 = 1 → 1 ≤ (r.p - r.c).toNat → hd.units = 1 → hd.tag = BitVec.ofNat 16 (uf u 4 2) →
    hd.vol = BitVec.ofNat 12 (uf u 6 2) → ub u 2 ≠ 0x3F → earlyFault true [u] = none → decodeIo [u] = some op → reservedFault [u] = none →
    entriesFault [u] = none → op.chained = false → s.RowReady q hd op → (∀ x, op ≠ .volPower x) → (∀ a b, op ≠ .abort a b) →
    s.powerOf hd.vol = .active → (op.lock ≠ none → s.LockFree hd.vol) →
    ∃ t k, exec (.entryUnitReply q (.ok [u])) s = .next t ∧ Accepted s t q hd op k) ∧
  (∀ (s : State) (q : RingRef) (r : Sq) (u : RingUnit) (e : ListEnt) (v n : Nat) (nf : Bool) (seg : List ListEnt), s.NoInjection → s.sq q = some r →
    r.fetch = .segment [u] [e] 1 e → s.takesEntry q = true → q.fn = .pf1 → decodeIo [u] = some (.read v n nf [e]) → e.typ = 1 → seg.length = e.len.toNat / 16 →
    (∀ x ∈ readSegs (n * 4096) 0 seg, x.rsvd = 0) → s.segHeld q = false → segScan (n * 4096) 2 0 0 1 seg = .whole → s.rangeFault (BitVec.ofNat 12 (uf u 6 2)) (.read v n nf [e]) = none →
    (∃ m, s.lookVol (BitVec.ofNat 12 (uf u 6 2)) = .here m) → s.powerOf (BitVec.ofNat 12 (uf u 6 2)) = .active → s.LockFree (BitVec.ofNat 12 (uf u 6 2)) →
    ∃ t k, exec (.listSegmentReply q (.ok seg)) s = .next t ∧
      Accepted s t q ⟨1, BitVec.ofNat 16 (uf u 4 2), BitVec.ofNat 12 (uf u 6 2)⟩ (.read v n nf (e :: usedSegs (n * 4096) 0 seg)) k) ∧
  (∀ (s : State) (q : RingRef) (r : Sq) (u : RingUnit) (us : List RingUnit) (ents : List ListEnt) (n : Nat) (e : ListEnt), s.NoInjection →
    s.sq q = some r → r.fetch = .first ∨ r.fetch = .rest u ∨ r.fetch = .segment us ents n e → s.reg .qeFetchErrCntN < 2 ^ 32 - 1 → ∀ err : HostErr,
    (r.fetch ≠ .segment us ents n e → ∃ t, exec (.entryUnitReply q (.err err)) s = .next t ∧ t.sq q = some { r with fetch := .idle, pend := false } ∧
      t.reg .qeFetchErrCntN = s.reg .qeFetchErrCntN + 1) ∧
    (r.fetch = .segment us ents n e → s.segHeld q = false → err ≠ .translation → ∃ t, exec (.listSegmentReply q (.err err)) s = .next t ∧
      t.sq q = some { r with fetch := .idle, pend := false } ∧ t.reg .qeFetchErrCntN = s.reg .qeFetchErrCntN + 1)) ∧
  (∀ (s : State) (q : RingRef) (r : Sq) (us : List RingUnit) (ents : List ListEnt) (n : Nat) (e : ListEnt), s.NoInjection → s.sq q = some r →
    r.fetch = .segment us ents n e → s.segHeld q = false → ∃ t, exec (.listSegmentReply q (.err .translation)) s = .next t ∧
      t.qe.elig = s.qe.elig ++ [⟨q, s.cqOf q, none, cplOf q (BitVec.ofNat 16 (uf (firstUnit us) 4 2)) (stat 3 3) 0, none⟩] ∧
      (t.sq q).map (·.h) = some (r.h + w32 us.length) ∧ t.ord = s.ord ∧ Frame s t [.qe, .hif, .out])

/-- Object seals (R172 to R175, R217, R218), in the terms of the operations that steps 3 and 5 of an edge run for an accepted command. A stream absorbed in any
pieces stands as it does absorbed at once, and its seal is the CMAC of the whole stream under the seal key. SEAL_OPEN takes the lowest free slot with an empty
stream, under a handle that counts the slot's reuses; with no slot free it ends with 6/1. SEAL_APPEND changes its context alone, and the other way round a
handle that names no context of the volume ends the command with 1/0x0A. A close or save that has been written frees the slot; SEAL_RESTORE takes an accepted
structure out of the saved table and its stream into a slot, and refuses any other. -/
def Obligations.ObjectSeals : Prop :=
  (∀ (x : SealCtx) (secret : BitVec 256) (a b : List Byte), (x.absorb secret a).absorb secret b = x.absorb secret (a ++ b)) ∧
  (∀ (x : SealCtx) (secret : BitVec 256) (bs : List Byte), x.chain = 0 → x.held = [] →
    (x.absorb secret bs).close secret = tagOf (cmac (sealKey secret x.vol) bs)) ∧
  (∀ (s : State) (c : Cmd) (prio : BitVec 8) (label : BitVec 384) (slot : Nat), slot < sealSlots → tget s.fix.ctxs slot = none →
    (∀ i < slot, tget s.fix.ctxs i ≠ none) → ∃ t h x, s.openSeal c prio label = State.endCmd t c.id (okStat h.toNat) ∧
      t.fix.ctxs = s.fix.ctxs ++ [(slot, x)] ∧ x.handle = h ∧ handleSlot h = slot ∧ x.vol = c.vol ∧ x.length = 0 ∧ x.chain = 0 ∧ x.held = [] ∧
      x.prio = prio ∧ x.label = label ∧ x.openEdge = s.edge ∧ h.toNat / 65536 = (match tget s.fix.reuse slot with | some k => (k + 1).toNat | none => 0) ∧
      t.sealCtx c.vol h = some x ∧ Frame s t [.fix]) ∧
  (∀ (s : State) (c : Cmd) (prio : BitVec 8) (label : BitVec 384), (∀ i < sealSlots, tget s.fix.ctxs i ≠ none) →
    s.openSeal c prio label = s.endCmd c.id (stat 6 1)) ∧
  (∀ (s : State) (c : Cmd) (bytes : Nat) (h : BitVec 32) (x : SealCtx) (p : Pool), (∀ l ∈ c.slices, l.settled = true) → c.fail = none → bytes ≤ c.next →
    s.sealCtx c.vol h = some x → s.poolOf c.vol = some p → ∃ t, s.endAppend c bytes h false =
      State.endCmd t c.id (stat 0 0 (x.length + (c.stream.take bytes).length)) ∧ t.sealCtx c.vol h = some (x.absorb p.secret (c.stream.take bytes)) ∧
      (∀ i, i ≠ handleSlot h → tget t.fix.ctxs i = tget s.fix.ctxs i) ∧ t.fix.saved = s.fix.saved ∧ Frame s t [.fix]) ∧
  (∀ (s : State) (c : Cmd) (bytes : Nat) (h : BitVec 32) (st : Bool) (f : Stat), (∀ l ∈ c.slices, l.settled = true) → c.fail = some f →
    s.endAppend c bytes h st = s.endCmd c.id f) ∧
  (∀ (s : State) (p : Pool) (c : Cmd) (h : BitVec 32) (a : BitVec 64), s.sealCtx c.vol h = none →
    s.closeSeal p c h a = s.endCmd c.id (stat 1 0x0A) ∧ s.saveSeal c h a = s.endCmd c.id (stat 1 0x0A)) ∧
  (∀ (s : State) (c : Cmd) (h : BitVec 32) (a : BitVec 64) (x : SealCtx), s.sealCtx c.vol h = some x →
    (c.op = .sealClose h a → ∃ t, s.sealWritten c = State.endCmd t c.id (okStat x.length) ∧ t.sealCtx c.vol h = none ∧
      (∀ i, i ≠ handleSlot h → tget t.fix.ctxs i = tget s.fix.ctxs i) ∧ t.fix.saved = s.fix.saved ∧ Frame s t [.fix]) ∧
    (c.op = .sealSave h a → ∃ t, s.sealWritten c = State.endCmd t c.id (okStat c.lastGen) ∧ t.sealCtx c.vol h = none ∧
      (∀ i, i ≠ handleSlot h → tget t.fix.ctxs i = tget s.fix.ctxs i) ∧ tget t.fix.saved h = some (w64 c.lastGen) ∧ Frame s t [.fix])) ∧
  (∀ (s : State) (c : Cmd) (i : SealCtxImg) (slot : Nat), s.ctxAccepted c.vol i = true → slot < sealSlots → tget s.fix.ctxs slot = none →
    (∀ j < slot, tget s.fix.ctxs j ≠ none) → ∃ t h x, s.restoreCtx c (some i) = State.endCmd t c.id (okStat h.toNat) ∧
      t.fix.ctxs = s.fix.ctxs ++ [(slot, x)] ∧ x.handle = h ∧ x.vol = c.vol ∧ x.length = i.length.toNat ∧ x.chain = i.chain ∧
      x.held = leBytes i.heldLen i.held.toNat ∧ x.prio = i.prio ∧ x.openEdge = i.openEdge.toNat ∧ x.label = i.label ∧
      tget t.fix.saved i.handle = none ∧ Frame s t [.fix]) ∧
  (∀ (s : State) (c : Cmd) (i : SealCtxImg), s.ctxAccepted c.vol i = false → ∃ t, s.restoreCtx c (some i) = State.endCmd t c.id (stat 1 0x0A) ∧
    t.fix = s.fix ∧ Frame s t [.regs, .evr])

/-! ### Admin commands -/

/-- The commands that hand data to the host (R229, R230, R360, R381): the module's identity, a volume's entry, the list of volumes with the number copied and
the number there are, event records, a statement; a buffer that does not hold a statement whole gets nothing, and the result says how long it is. A request
for a report waits for TRU's signature in order (R358, R359); CLEAR_EVENTS waits for step 1 of the next edge (R382). Completes: identifyModule,
identifyVolume, listVolumes, getEvents, auditRequestStatement, auditRequestReport, clearEvents. -/
def Obligations.IdentityAndRequests : Prop :=
  ((∀ (s : State) (src : AdmSrc) (tag : BitVec 16) (addr : BitVec 64), s.AdmTurn src tag true → s.OutNow src →
    addr.toNat % 64 = 0 → ∃ t, exec (.identifyModule src tag addr) s = .next t ∧ Out.hostBytes src addr (s.identity (admPort src)) ∈ t.out ∧ Completes s t src tag okStat ∧
      Frame s t [.qe, .hif, .out]) ∧
  (∀ (s : State) (src : AdmSrc) (tag : BitVec 16) (vol : BitVec 12) (addr : BitVec 64), s.AdmTurn src tag true → s.OutNow src →
    addr.toNat % 64 = 0 → s.volKnown vol = true → ∃ t, exec (.identifyVolume src tag vol addr) s = .next t ∧ Out.hostBytes src addr (s.volEntry vol) ∈ t.out ∧
      Completes s t src tag okStat ∧ Frame s t [.qe, .hif, .out]) ∧
  (∀ (s : State) (src : AdmSrc) (tag : BitVec 16) (vol : BitVec 12) (addr : BitVec 64), s.AdmTurn src tag true → addr.toNat % 64 = 0 →
    s.volKnown vol = false → ∃ t, exec (.identifyVolume src tag vol addr) s = .next t ∧ Completes s t src tag (stat 1 7) ∧ Frame s t [.qe, .hif, .out]) ∧
  (∀ (s : State) (src : AdmSrc) (tag : BitVec 16) (addr : BitVec 64) (len : BitVec 32) (scope : BitVec 8) (first : BitVec 16), s.AdmTurn src tag false →
    s.OutNow src → scope.toNat ≤ 1 → addr.toNat % 64 = 0 → len.toNat % 64 = 0 →
    (let all := (sortedKeys (s.ownVols ++ (if scope = 1 then s.rop.dir.map (·.1.toNat) else []))).filter fun v => decide (first.toNat ≤ v)
     let got := all.take (len.toNat / 32)
     ∃ t, exec (.listVolumes src tag addr len scope first) s = .next t ∧ Hands t src addr (got.flatMap fun v => s.volEntry (BitVec.ofNat 12 v)) ∧
       Completes s t src tag (okStat (got.length + 2 ^ 32 * all.length)) ∧ Frame s t [.qe, .hif, .out])) ∧
  (∀ (s : State) (src : AdmSrc) (tag : BitVec 16) (addr : BitVec 64) (len : BitVec 32) (first : BitVec 64) (area : BitVec 8), s.AdmTurn src tag true →
    s.OutNow src → area.toNat ≤ 1 → addr.toNat % 64 = 0 → len.toNat % 64 = 0 → (let rs := s.evr.get (area == 1) first.toNat (len.toNat / 64)
     ∃ t, exec (.getEvents src tag addr len first area) s = .next t ∧ Hands t src addr (rs.flatMap evBytes) ∧
       Completes s t src tag (okStat rs.length) ∧ (∀ r ∈ rs, first.toNat ≤ r.seq) ∧ Frame s t [.qe, .hif, .out])) ∧
  (∀ (s : State) (src : AdmSrc) (tag : BitVec 16) (addr : BitVec 64) (len : BitVec 32) (pool : BitVec 16) (p : Pool) (v : Virek) (more : List Virek),
    s.AdmTurn src tag true → s.OutNow src → s.pool pool = some p → p.cur.vireks = v :: more → addr.toNat % 64 = 0 → len.toNat % 64 = 0 →
    ∃ t, exec (.auditRequestStatement src tag addr len pool 0xFFFFFFFF) s = .next t ∧ Completes s t src tag (okStat (virekBytes v).length) ∧
      ((virekBytes v).length ≤ len.toNat → Out.hostBytes src addr (virekBytes v) ∈ t.out) ∧ Frame s t [.qe, .hif, .out])) ∧
  ((∀ (s : State) (src : AdmSrc) (tag : BitVec 16) (addr : BitVec 64) (len : BitVec 32) (nonce : BitVec 256), s.AdmTurn src tag true →
    addr.toNat % 64 = 0 → len.toNat % 64 = 0 → ∃ t, exec (.auditRequestReport src tag addr len nonce) s = .next t ∧
      t.tru = { s.tru with reqs := s.tru.reqs ++ [.report src tag addr len nonce] } ∧ Frame s t [.qe, .hif, .tru, .out]) ∧
  (∀ (s : State) (src : AdmSrc) (tag : BitVec 16), s.AdmTurn src tag false → ∃ t, exec (.clearEvents src tag) s = .next t ∧
    t.evr = { s.evr with clearReq := s.evr.clearReq ++ [(src, tag)] } ∧ Frame s t [.qe, .hif, .evr, .out]))

/-- Keys (R159, R160): the transfer key and the rope storage key are taken over MCTP alone, and a pool secret that unwraps under the transfer key over either
path; without a transfer key, or when the wrap fails, what TRU holds stays as it was. Completes: keyImportTransferKey, keyImportRopeKey, keyImportPoolSecret.
-/
def Obligations.KeyImports : Prop :=
  (∀ (s : State) (tag : BitVec 16) (addr : BitVec 64) (k : BitVec 256), s.AdmTurn .mctp tag true → s.admFree = true → addr.toNat % 64 = 0 →
    exec (.keyImportTransferKey .mctp tag addr (.ok k)) s = .next { s with tru := { s.tru with kt := some k }, out := [.mctpCpl tag okStat] }) ∧
  (∀ (s : State) (q : RingRef) (tag : BitVec 16) (addr : BitVec 64) (k : HostRead (BitVec 256)), s.AdmTurn (.ring q) tag true → s.admFree = true →
    addr.toNat % 64 = 0 → (∃ t, exec (.keyImportTransferKey (.ring q) tag addr k) s = .next t ∧ Completes s t (.ring q) tag (stat 1 11) ∧
      Frame s t [.qe, .hif, .out]) ∧ (∃ t, exec (.keyImportRopeKey (.ring q) tag addr k) s = .next t ∧ Completes s t (.ring q) tag (stat 1 11) ∧
      Frame s t [.qe, .hif, .out])) ∧
  (∀ (s : State) (src : AdmSrc) (tag : BitVec 16) (addr : BitVec 64) (w : BitVec 320) (kt : BitVec 256), s.AdmTurn src tag true → s.admFree = true →
    addr.toNat % 64 = 0 → s.tru.kt = some kt → ∃ t, exec (.keyImportPoolSecret src tag addr (.ok w)) s = .next t ∧
      t.tru = { s.tru with imported := (kwpUnwrap kt w).or s.tru.imported } ∧
      Completes s t src tag (if (kwpUnwrap kt w).isSome then okStat else stat 1 2 0 8) ∧ Frame s t [.qe, .hif, .tru, .out]) ∧
  (∀ (s : State) (src : AdmSrc) (tag : BitVec 16) (addr : BitVec 64) (w : BitVec 320), s.AdmTurn src tag true → s.admFree = true → addr.toNat % 64 = 0 →
    s.tru.kt = none → ∃ t, exec (.keyImportPoolSecret src tag addr (.ok w)) s = .next t ∧ Completes s t src tag (stat 5 5) ∧ Frame s t [.qe, .hif, .out])

/-- KEY_IMPORT of K_R (R159, R362): it goes into the trust record, wrapped under the key of this module (R347), and the record is written; while the module
owns a pool whose wrapped secret carries another check value, it is refused with class 0x05 code 0x05 and the key stays as it was. Completes:
keyImportRopeKey. -/
def Obligations.RopeKeyImport : Prop :=
  (∀ (s : State) (tag : BitVec 16) (addr : BitVec 64) (k : BitVec 256), s.AdmTurn .mctp tag true → s.admFree = true → addr.toNat % 64 = 0 →
    (∀ p ∈ s.pools, p.nxt.krCheck = keyCheck k) → ∃ t, exec (.keyImportRopeKey .mctp tag addr (.ok k)) s = .next t ∧ t.tru.kr = some k ∧
      t.tru.krWrapped = kwpWrap (kWrap s.part.serial) k ∧ t.tru.krPresent = true ∧ t.tru.krCheck = keyCheck k ∧ t.tru.trec.valid = true ∧
      t.tru.recSeq = s.tru.recSeq + 1 ∧ Out.trustWrite (t.tru.recSeq.toNat % 2) t.trustBytes ∈ t.out ∧
      Out.mctpCpl tag okStat ∈ t.out ∧ Frame s t [.tru, .out]) ∧
  (∀ (s : State) (tag : BitVec 16) (addr : BitVec 64) (k : BitVec 256) (p : Pool), s.AdmTurn .mctp tag true → s.admFree = true → addr.toNat % 64 = 0 →
    p ∈ s.pools → p.nxt.krCheck ≠ keyCheck k →
    exec (.keyImportRopeKey .mctp tag addr (.ok k)) s = .next { s with out := [.mctpCpl tag (stat 5 5)] })

/-- Queue commands (R204 to R206): a new submission ring is disabled at index zero and a new completion ring enabled; enabling starts the fetch at H,
disabling holds H and gives it as the result, deleting needs a ring that is disabled and done. They come from admin rings alone. Admin pair 0 cannot be
disabled or deleted by command (R207): the command completes with class 0x01, and both rings stand as they were. Completes: createQueue, enableQueue,
deleteQueue, disableQueue. -/
def Obligations.QueueCommands : Prop :=
  ((∀ (s : State) (q : RingRef) (tag : BitVec 16) (a : QueueAttrs), s.AdmTurn (.ring q) tag false → s.queueFault q.port a = none → a.isCq = false →
    ∃ t k, exec (.createQueue (.ring q) tag a) s = .next t ∧ t.sq (named q a.isData a.pair) = some k ∧ k.st = .disabled ∧ k.base = a.base ∧ k.exp = a.exp ∧
      k.hostLine = a.hostLine ∧ k.devLine = a.devLine ∧ k.cqPair = a.cqPair ∧ k.bh = a.bh ∧ k.relaxed = a.relaxed ∧ k.c = 0 ∧ k.h = 0 ∧ k.p = 0 ∧
      k.pend = false ∧ k.fetch = .idle ∧ Completes s t (.ring q) tag okStat ∧ Frame s t [.qe, .hif, .out]) ∧
  (∀ (s : State) (q : RingRef) (tag : BitVec 16) (a : QueueAttrs), s.AdmTurn (.ring q) tag false → s.queueFault q.port a = none → a.isCq = true →
    ∃ t k, exec (.createQueue (.ring q) tag a) s = .next t ∧ t.cq (named q a.isData a.pair) = some k ∧ k.base = a.base ∧ k.exp = a.exp ∧ k.t = 0 ∧ k.hc = 0 ∧
      k.enabled = true ∧ k.held = false ∧ k.overflow = [] ∧ k.vector = (if a.vector = 0xFFFF then none else some a.vector) ∧
      Completes s t (.ring q) tag okStat ∧ Frame s t [.qe, .hif, .out]) ∧
  (∀ (s : State) (q : RingRef) (tag : BitVec 16) (a : QueueAttrs) (off : Nat), s.AdmTurn (.ring q) tag false → s.queueFault q.port a = some off →
    ∃ t, exec (.createQueue (.ring q) tag a) s = .next t ∧ Completes s t (.ring q) tag (stat 1 2 0 off) ∧ Frame s t [.qe, .hif, .out]) ∧
  (∀ (s : State) (q : RingRef) (tag : BitVec 16) (d : Bool) (n : Nat) (r : Sq), s.AdmTurn (.ring q) tag false → named q d n ≠ q →
    s.sq (named q d n) = some r → isAdmin0 (named q d n) = false → r.st = .disabled →
    (∃ t, exec (.enableQueue (.ring q) tag false d n) s = .next t ∧ Completes s t (.ring q) tag okStat ∧ Frame s t [.regs, .qe, .hif, .out] ∧
      ((∀ k, s.cq { named q d n with pair := r.cqPair } = some k → k.held = false) →
        ∃ x, t.sq (named q d n) = some x ∧ x.st = .enabled ∧ x.c = r.h ∧ x.h = r.h)) ∧
    (s.ringBusy (named q d n) = false → ∃ t, exec (.deleteQueue (.ring q) tag false d n) s = .next t ∧ t.sq (named q d n) = none ∧
      Completes s t (.ring q) tag okStat ∧ Frame s t [.qe, .hif, .out]) ∧
    (∃ t, exec (.disableQueue (.ring q) tag false d n) s = .next t ∧ Completes s t (.ring q) tag (okStat r.h.toNat) ∧ t.sq (named q d n) = some r)) ∧
  (∀ (s : State) (q : RingRef) (tag : BitVec 16) (d : Bool) (n : Nat) (r : Sq), s.AdmTurn (.ring q) tag false → named q d n ≠ q →
    s.sq (named q d n) = some r → isAdmin0 (named q d n) = false → r.st ≠ .disabled → (∀ id, r.fetch ≠ .waiting id) →
    (∃ t, exec (.disableQueue (.ring q) tag false d n) s = .next t ∧ Completes s t (.ring q) tag (okStat r.h.toNat) ∧
      t.sq (named q d n) = some { r with st := .disabled, fetch := .idle, pend := false } ∧ Frame s t [.qe, .hif, .out]) ∧
    (∃ t, exec (.deleteQueue (.ring q) tag false d n) s = .next t ∧ Completes s t (.ring q) tag (stat 1 12) ∧ t.sq (named q d n) = some r)) ∧
  (∀ (s : State) (tag : BitVec 16) (a : QueueAttrs) (c d : Bool) (n : Nat), s.phase = .online →
    exec (.createQueue .mctp tag a) s = .next { s with out := [.mctpCpl tag (stat 1 11)] } ∧
    exec (.deleteQueue .mctp tag c d n) s = .next { s with out := [.mctpCpl tag (stat 1 11)] } ∧
    exec (.enableQueue .mctp tag c d n) s = .next { s with out := [.mctpCpl tag (stat 1 11)] } ∧
    exec (.disableQueue .mctp tag c d n) s = .next { s with out := [.mctpCpl tag (stat 1 11)] })) ∧
  (∀ (s : State) (q : RingRef) (tag : BitVec 16) (isCq : Bool), s.AdmTurn (.ring q) tag false → s.sq ⟨q.port, .pf0, 0⟩ ≠ none → s.cq ⟨q.port, .pf0, 0⟩ ≠ none →
    (∃ t st, exec (.disableQueue (.ring q) tag isCq false 0) s = .next t ∧ Completes s t (.ring q) tag st ∧ st.cls = 1 ∧
      (t.sq ⟨q.port, .pf0, 0⟩).map (·.st) = (s.sq ⟨q.port, .pf0, 0⟩).map (·.st) ∧ t.cq ⟨q.port, .pf0, 0⟩ = s.cq ⟨q.port, .pf0, 0⟩) ∧
    (∃ t st, exec (.deleteQueue (.ring q) tag isCq false 0) s = .next t ∧ Completes s t (.ring q) tag st ∧ st.cls = 1 ∧
      (t.sq ⟨q.port, .pf0, 0⟩).map (·.st) = (s.sq ⟨q.port, .pf0, 0⟩).map (·.st) ∧ t.cq ⟨q.port, .pf0, 0⟩ = s.cq ⟨q.port, .pf0, 0⟩))

/-- Serial commands wait in acceptance order behind the one under way (R225), and an admin command that the module's state does not serve completes over MCTP
with class 0x05 code 0x06 (R341). -/
def Obligations.SerialAndEarlyCommands : Prop :=
  (∀ (s : State) (src : AdmSrc) (tag pool : BitVec 16), s.AdmTurn src tag false → s.admFree = false →
    ∃ t, exec (.poolOpDelete src tag pool) s = .next t ∧ t.mgt = { s.mgt with admQ := s.mgt.admQ ++ [(src, tag, .poolOpDelete src tag pool)] } ∧
      Frame s t [.qe, .hif, .mgt, .out]) ∧
  (∀ (s : State) (tag pool : BitVec 16), s.phase ∈ [.trustBoot, .configLoad, .memoryInit, .vaultRecovery, .ropeJoin, .memberDiscovery, .poolAssembly,
    .journalReconcile, .failStop] → exec (.poolOpDelete .mctp tag pool) s = .next { s with out := [.mctpCpl tag (stat 5 6)] } ∧
      exec (.clearEvents .mctp tag) s = .next { s with out := [.mctpCpl tag (stat 5 6)] })

/-! ### Pools and volumes -/

/-- POOL_OP CREATE (R226, R227, R159, R160): the pool is asked for with its members ACTIVE and its secret drawn from the TRNG or taken from the import,
wrapped under K_R; the command completes with the pool's first commit. Without K_R, or when the imported secret is asked for and there is none, nothing is
created. Completes: poolOpCreate. -/
def Obligations.PoolCreation : Prop :=
  (∀ (s : State) (src : AdmSrc) (tag pid : BitVec 16) (addr : BitVec 64) (len : BitVec 32) (b : PoolCreateBlk) (kr : BitVec 256),
    s.AdmTurn src tag false → s.admFree = true → 1 ≤ pid.toNat → pid.toNat ≤ 0xFFFE → s.pool pid = none → (∀ e ∈ s.rop.dir, e.2.pool ≠ pid) →
    addr.toNat % 64 = 0 → len.toNat % 64 = 0 → s.createFault pid len b = none → s.tru.kr = some kr → b.exportReq = 0 → s.pools.length < 64 →
    (b.secretSrc = 0 ∨ b.secretSrc = 1 ∧ s.tru.imported ≠ none) →
    ∃ t p, exec (.poolOpCreate src tag pid addr len (.ok b)) s = .next t ∧ t.pools = s.pools ++ [p] ∧ p.cur.id = pid ∧ p.nxt.id = pid ∧ p.cur.commit = 0 ∧
      p.nxt.members = b.members.map (fun n => ⟨n, .active⟩) ∧ p.nxt.scrubEn = (b.scrubEn == 1) ∧ p.nxt.scrubDays = b.scrubPeriod ∧
      p.secret = (if b.secretSrc = 1 then s.tru.imported.getD 0 else Config.trng s.tru.trng) ∧ p.nxt.wrapped = kwpWrap kr p.secret ∧
      p.nxt.krCheck = keyCheck kr ∧ p.nxt.jms.length ≤ 3 ∧ WaitsFor t src tag pid (okStat 0) ∧
      (b.secretSrc = 1 → t.tru.imported = none) ∧ (b.secretSrc = 0 → t.tru.trng = s.tru.trng + 1) ∧
      Frame s t [.regs, .qe, .pools, .mbr, .hif, .tru, .evr, .mgt, .sched, .out]) ∧
  (∀ (s : State) (src : AdmSrc) (tag pid : BitVec 16) (addr : BitVec 64) (len : BitVec 32) (b : PoolCreateBlk), s.AdmTurn src tag false → s.admFree = true →
    1 ≤ pid.toNat → pid.toNat ≤ 0xFFFE → s.pool pid = none → (∀ e ∈ s.rop.dir, e.2.pool ≠ pid) → addr.toNat % 64 = 0 → len.toNat % 64 = 0 →
    s.createFault pid len b = none → s.tru.kr = none ∨ b.secretSrc = 1 ∧ s.tru.imported = none →
    ∃ t, exec (.poolOpCreate src tag pid addr len (.ok b)) s = .next t ∧ Completes s t src tag (stat 5 5) ∧ Frame s t [.regs, .qe, .hif, .evr, .out])

/-- POOL_OP on a pool of this module (R226): DELETE is refused while it holds a volume, SET_ATTR takes a period of 1 to 3,650 days (R138), STATUS reads the
published state (R12), READ_LOST copies the published list (R12, R128), RELEASE_LOST takes the blocks of a range, and no other, off the list (R129); a pool
that the module does not own is an illegal field. What changes the pool completes with the commit that carries it (R105). Completes: poolOpDelete,
poolOpSetAttr, poolOpStatus, readLost, releaseLost. -/
def Obligations.PoolOperations : Prop :=
  (∀ (s : State) (src : AdmSrc) (tag : BitVec 16) (p : Pool), s.AdmTurn src tag false → s.admFree = true → s.pool p.cur.id = some p → p.deleting = none →
    ((p.cur.volumes = [] ∧ p.nxt.volumes = [] ∧ p.cur.frond = none ∧ p.nxt.frond = none) → ∃ t, exec (.poolOpDelete src tag p.cur.id) s = .next t ∧
      t.pool p.cur.id = some { p with deleting := some p.nextCommit } ∧ WaitsFor t src tag p.cur.id okStat ∧ Frame s t [.qe, .hif, .pools, .mgt, .out]) ∧
    (p.cur.volumes ≠ [] ∨ p.nxt.volumes ≠ [] → ∃ t, exec (.poolOpDelete src tag p.cur.id) s = .next t ∧ Completes s t src tag (stat 5 5) ∧
      Frame s t [.qe, .hif, .out]) ∧
    (∀ en days, en ≤ 1 → 1 ≤ days → days ≤ 3650 → ∃ t, exec (.poolOpSetAttr src tag p.cur.id en days) s = .next t ∧
      t.pool p.cur.id = some { p with nxt := { p.nxt with scrubEn := en == 1, scrubDays := days } } ∧ WaitsFor t src tag p.cur.id okStat ∧
      Frame s t [.qe, .hif, .pools, .mgt, .out]) ∧
    (∀ en days, 1 < en ∨ days < 1 ∨ 3650 < days → ∃ t, exec (.poolOpSetAttr src tag p.cur.id en days) s = .next t ∧ Completes s t src tag (stat 1 13) ∧
      Frame s t [.qe, .hif, .out]) ∧
    (∃ t, exec (.poolOpStatus src tag p.cur.id) s = .next t ∧ Completes s t src tag (okStat p.statusWord) ∧ Frame s t [.qe, .hif, .out]) ∧
    (∀ (addr : BitVec 64) (len : BitVec 32) (first : Nat), addr.toNat % 64 = 0 → len.toNat % 64 = 0 → s.OutNow src →
      ∃ t, exec (.readLost src tag p.cur.id addr len first) s = .next t ∧
        Hands t src addr (((p.pub.lost.drop first).take (len.toNat / 32)).flatMap lostBytes) ∧
        Completes s t src tag (okStat (((p.pub.lost.drop first).take (len.toNat / 32)).length + 2 ^ 32 * p.pub.lost.length)) ∧ Frame s t [.qe, .hif, .out]) ∧
    (∀ (v : BitVec 12) (vbn : BitVec 64) (count : BitVec 32) (l : List LostExt), p.vol v ≠ none →
      lostCutRange p.nxt.lost v vbn.toNat count.toNat = some l → ∃ t, exec (.releaseLost src tag p.cur.id v vbn count) s = .next t ∧
        t.pool p.cur.id = some { p with nxt := { p.nxt with lost := l } } ∧
        WaitsFor t src tag p.cur.id (okStat (lostIn p.nxt.lost v vbn.toNat count.toNat)) ∧ Frame s t [.qe, .hif, .pools, .mgt, .out])) ∧
  (∀ (s : State) (src : AdmSrc) (tag pid : BitVec 16), s.AdmTurn src tag false → s.admFree = true → s.pool pid = none →
    (∃ t, exec (.poolOpStatus src tag pid) s = .next t ∧ Completes s t src tag (stat 1 2 0 0x1A) ∧ Frame s t [.qe, .hif, .out]) ∧
    (∃ t, exec (.poolOpDelete src tag pid) s = .next t ∧ Completes s t src tag (stat 1 2 0 0x1A) ∧ Frame s t [.qe, .hif, .out])) ∧
  (∀ (l l' : List LostExt) (v : BitVec 12) (b n : Nat), lostCutRange l v b n = some l' → ∀ (w : BitVec 12) (k : Nat),
    (∃ e ∈ l', e.vol = w ∧ e.vbn ≤ k ∧ k < e.vbn + e.count) ↔ (∃ e ∈ l, e.vol = w ∧ e.vbn ≤ k ∧ k < e.vbn + e.count) ∧ ¬(w = v ∧ b ≤ k ∧ k < b + n))

/-- Members of a pool (R119, R130, R142, R226): ADD_MEMBERS gives the namespaces the next indices, REMOVE_MEMBERS leaves a hole, DECLARE_FAILED makes a member
FAILED at the next edge (R11), and REPLACE_MEMBER puts a namespace that may join in its place, in COPYBACK. Completes: addMembers, removeMembers,
declareFailed, replaceMember. -/
def Obligations.PoolMembers : Prop :=
  (∀ (s : State) (src : AdmSrc) (tag : BitVec 16) (p : Pool) (addr : BitVec 64) (len : BitVec 32) (nums : List Nat), s.AdmTurn src tag false →
    s.admFree = true → s.pool p.cur.id = some p → p.deleting = none → addr.toNat % 64 = 0 → len.toNat % 64 = 0 → s.joinFault p nums = false →
    p.nxt.members.length + nums.length ≤ 1024 → ∃ t x, exec (.addMembers src tag p.cur.id addr len (.ok nums)) s = .next t ∧ t.pool p.cur.id = some x ∧
      x.nxt.members = p.nxt.members ++ nums.map (fun k => ⟨k, .active⟩) ∧ WaitsFor t src tag p.cur.id okStat ∧
      Frame s t [.qe, .pools, .mbr, .hif, .mgt, .out]) ∧
  (∀ (s : State) (src : AdmSrc) (tag : BitVec 16) (p : Pool) (addr : BitVec 64) (len : BitVec 32) (i : Nat) (m : MemberRec), s.AdmTurn src tag false →
    s.admFree = true → s.pool p.cur.id = some p → p.deleting = none → addr.toNat % 64 = 0 → len.toNat % 64 = 0 → p.nxt.members[i]? = some m → m.img ≠ holeImg →
    p.usesMember i = false → p.journalUses i = false → ∃ t x, exec (.removeMembers src tag p.cur.id addr len (.ok [i])) s = .next t ∧
      t.pool p.cur.id = some x ∧ x.nxt.members = p.nxt.members.set i ⟨holeImg, .failed⟩ ∧
      t.mbr = { s.mbr with leaving := s.mbr.leaving ++ [m.img] } ∧ WaitsFor t src tag p.cur.id okStat ∧ Frame s t [.qe, .pools, .mbr, .hif, .mgt, .out]) ∧
  (∀ (s : State) (src : AdmSrc) (tag : BitVec 16) (p : Pool) (i : Nat) (m : MemberRec), s.AdmTurn src tag false → s.admFree = true →
    s.pool p.cur.id = some p → p.deleting = none → p.nxt.members[i]? = some m → m.img ≠ holeImg →
    s.mgt.declared = [] → ∃ t x, exec (.declareFailed src tag p.cur.id i) s = .next t ∧ t.mgt.declared = [(p.cur.id, i)] ∧
      (State.takeDeclared t).pool p.cur.id = some x ∧ x.nxt.members[i]? = some ⟨m.img, .failed⟩ ∧ WaitsFor t src tag p.cur.id okStat ∧
      Frame s t [.qe, .hif, .mgt, .out]) ∧
  (∀ (s : State) (src : AdmSrc) (tag : BitVec 16) (p : Pool) (i img : Nat) (m : MemberRec), s.AdmTurn src tag false → s.admFree = true →
    s.pool p.cur.id = some p → p.deleting = none → p.nxt.members[i]? = some m → m.img ≠ holeImg → m.state = .failed → s.imgUsed img = false →
    s.mayJoin img p.cur.id i = true → ∃ t x, exec (.replaceMember src tag p.cur.id i img) s = .next t ∧ t.pool p.cur.id = some x ∧
      x.nxt.members = p.nxt.members.set i ⟨img, .copyback⟩ ∧ x.nxt.unrest = p.nxt.unrest ++ s.unrestored p i ∧ WaitsFor t src tag p.cur.id okStat ∧
      t.mbr.leaving = s.mbr.leaving ++ [m.img] ∧ Frame s t [.regs, .qe, .pools, .mbr, .hif, .evr, .mgt, .out])

/-- Fronds (R140, R141, R152, R153): FROND_START asks for the frond's layout with the cursor at the start of the lowest volume id; FROND_CANCEL completes at
once (the model's reading of R153 beside R225, log entry 151), and in the next tick both are asked out again; it is refused once the frond has switched.
Completes: frondStart, frondCancel. -/
def Obligations.Fronds : Prop :=
  (∀ (s : State) (src : AdmSrc) (tag : BitVec 16) (p : Pool) (addr : BitVec 64) (len : BitVec 32) (b : FrondBlk), s.AdmTurn src tag false →
    s.admFree = true → s.pool p.cur.id = some p → p.deleting = none → addr.toNat % 64 = 0 → len.toNat % 64 = 0 → b.dstPool = 0 → s.frondFault p p b = none →
    ∃ t x f d, exec (.frondStart src tag p.cur.id addr len (.ok b)) s = .next t ∧ t.pool p.cur.id = some x ∧ x.nxt.frond = some f ∧
      x.nxt.layouts = p.nxt.layouts ++ [d] ∧ d.id = b.desc.id ∧ f.layout = b.desc.id ∧ f.srcPool = p.cur.id ∧ f.dstPool = 0 ∧ f.phase = .copying ∧ f.vbn = 0 ∧
      f.vol = BitVec.ofNat 12 ((sortedKeys (p.nxt.volumes.map fun v => v.id.toNat)).headD 0) ∧ WaitsFor t src tag p.cur.id okStat ∧
      Frame s t [.regs, .qe, .pools, .hif, .evr, .mgt, .out]) ∧
  (∀ (s : State) (src : AdmSrc) (tag : BitVec 16) (p : Pool) (f : FrondMeta), s.AdmTurn src tag false → s.admFree = true → s.pool p.cur.id = some p →
    p.deleting = none → p.nxt.frond = some f → f.srcPool = p.cur.id →
    (f.phase ≠ .switched → ∃ t, exec (.frondCancel src tag p.cur.id) s = .next t ∧ t.pool p.cur.id = some { p with frCancel := some s.edge } ∧
      Completes s t src tag okStat ∧ Frame s t [.qe, .pools, .hif, .out] ∧
      (f.dstPool = 0 → ∃ x, (State.stopFrond t p.cur.id f).pool p.cur.id = some x ∧ x.nxt.frond = none ∧ ∀ d ∈ x.nxt.layouts, d.id ≠ f.layout)) ∧
    (f.phase = .switched → ∃ t, exec (.frondCancel src tag p.cur.id) s = .next t ∧ Completes s t src tag (stat 5 5) ∧ Frame s t [.qe, .hif, .out])) ∧
  (∀ (s : State) (src : AdmSrc) (tag : BitVec 16) (p : Pool), s.AdmTurn src tag false → s.admFree = true → s.pool p.cur.id = some p → p.deleting = none →
    p.nxt.frond = none → ∃ t, exec (.frondCancel src tag p.cur.id) s = .next t ∧ Completes s t src tag (stat 5 5) ∧ Frame s t [.qe, .hif, .out])

/-- Volumes (R228, R301): CREATE claims the id at every peer that is UP, and without one asks for the volume at once, with the image's default attributes;
DELETE is refused while a command or a seal context of the volume is outstanding (5/7); SET_ATTR takes the values of R86, R103, R180 and R228 and refuses
others with class 0x01; GROW never shrinks. Completes: volumeOpCreate, volumeOpDelete, volumeOpSetAttr, volumeOpGrow. -/
def Obligations.Volumes : Prop :=
  (∀ (s : State) (src : AdmSrc) (tag : BitVec 16) (v : BitVec 12) (p : Pool) (size : BitVec 64) (lid : Nat) (ext fext : List Nat), s.AdmTurn src tag false →
    s.admFree = true → s.volKnown v = false → v ≠ 0 → (∀ x ∈ s.pools, ∀ m ∈ x.nxt.volumes, m.id ≠ v) → s.pool p.cur.id = some p → p.deleting = none →
    1 ≤ size.toNat → size.toNat ≤ 2 ^ 48 → s.extentsFor p v size.toNat = .ok (lid, ext, fext) →
    ((∀ e ∈ s.rop.peers, e.2.st ≠ .up) → p.nxt.frond = none → ∃ t x, exec (.volumeOpCreate src tag v p.cur.id size) s = .next t ∧ t.pool p.cur.id = some x ∧
      x.nxt.volumes = p.nxt.volumes ++ [{ id := v, size := size.toNat, layout := lid, extents := ext, attrs := s.defaultAttrs, limit := genStep, power := .active }] ∧
      WaitsFor t src tag p.cur.id okStat ∧ Frame s t [.qe, .pools, .hif, .mgt, .out]) ∧
    (∀ a y, s.rop.peers = [(a, y)] → y.st = .up → ∃ t path n, exec (.volumeOpCreate src tag v p.cur.id size) s = .next t ∧
      t.rop.claims = s.rop.claims ++ [⟨v, [a], false⟩] ∧ Out.frame (a.setWidth 16) path n false (.dirClaim v s.selfAddr none) ∈ t.out ∧ t.pools = s.pools)) ∧
  (∀ (s : State) (src : AdmSrc) (tag : BitVec 16) (v : BitVec 12) (p : Pool) (m : VolMeta), s.AdmTurn src tag false → s.admFree = true →
    s.poolOf v = some p → s.pool p.cur.id = some p → (p.nxt.volumes.find? fun m => m.id == v) = some m →
    ((∃ c ∈ s.ord.cmds, c.vol = v ∧ c.acc ≠ none) → ∃ t, exec (.volumeOpDelete src tag v) s = .next t ∧ Completes s t src tag (stat 5 7) ∧
      Frame s t [.qe, .hif, .out]) ∧
    ((∀ c ∈ s.ord.cmds, c.vol ≠ v) → (∀ e ∈ s.fix.ctxs, e.2.vol ≠ v) → p.nxt.frond = none → ∃ t x, exec (.volumeOpDelete src tag v) s = .next t ∧
      t.pool p.cur.id = some x ∧ x.nxt.volumes = p.nxt.volumes.filter (fun y => y.id ≠ v) ∧ (∀ e ∈ x.nxt.lost, e.vol ≠ v) ∧
      WaitsFor t src tag p.cur.id okStat ∧ Frame s t [.qe, .pools, .hif, .mgt, .out]) ∧
    (∀ attr value a, setAttr m.attrs attr value = some (some a) → ∃ t x, exec (.volumeOpSetAttr src tag v attr value) s = .next t ∧
      t.pool p.cur.id = some x ∧ (x.nxt.volumes.find? fun m => m.id == v) = some { m with attrs := a } ∧ WaitsFor t src tag p.cur.id okStat ∧
      Frame s t [.qe, .pools, .hif, .mgt, .out]) ∧
    (∀ value, 3 ≤ value → ∃ t, exec (.volumeOpSetAttr src tag v 5 value) s = .next t ∧ Completes s t src tag (stat 1 13) ∧ Frame s t [.qe, .hif, .out]) ∧
    (∀ size : BitVec 64, size.toNat < m.size → ∃ t, exec (.volumeOpGrow src tag v size) s = .next t ∧ Completes s t src tag (stat 1 2 0 0x20) ∧
      Frame s t [.qe, .hif, .out]) ∧
    (∀ (size : BitVec 64) (lid : Nat) (ext fext : List Nat), m.size ≤ size.toNat → size.toNat ≤ 2 ^ 48 → p.nxt.frond = none →
      s.extentsFor p v size.toNat = .ok (lid, ext, fext) → ∃ t x, exec (.volumeOpGrow src tag v size) s = .next t ∧ t.pool p.cur.id = some x ∧
        (x.nxt.volumes.find? fun m => m.id == v) = some { m with size := size.toNat, extents := ext } ∧ WaitsFor t src tag p.cur.id okStat ∧
        Frame s t [.qe, .pools, .hif, .mgt, .out]))

/-! ### Firmware and images -/

/-- The staging area (R331, R342, R343): a chunk is stored at its offset and nowhere else; another object than the one downloaded last discards what was
staged. RequestFirmwareData fills it as FW_DOWNLOAD does. Every byte outside the chunk reads as before. FW_STAGE verifies the staged object and writes the
pair into the slot that is not active, with its header (R332, R342, R352): the staged object and the other one from the active slot. An object that fails its
checks, or a pair that does not fit, is refused with class 0x01 code 0x02 and the slot is left; a failed write or read-back leaves the slot empty and marked
invalid. Completes: fwDownload, requestFirmwareData, fwStage. -/
def Obligations.StagedObjects : Prop :=
  ((∀ (s : State) (src : AdmSrc) (tag : BitVec 16) (addr : BitVec 64) (obj : ObjKind) (off len : BitVec 32) (bs : List Byte), s.AdmTurn src tag true →
    Memory.wf s.mgt.staging = true → addr.toNat % 64 = 0 → len.toNat % 4096 = 0 → len.toNat ≤ 1048576 → off.toNat % 4096 = 0 →
    off.toNat + len.toNat ≤ 16777216 → bs.length = len.toNat → s.mgt.stagObj = none ∨ s.mgt.stagObj = some obj →
    ∃ t, exec (.fwDownload src tag addr obj off len (.ok bs)) s = .next t ∧ (∀ i b, bs[i]? = some b → Memory.read t.mgt.staging (off.toNat + i) = b) ∧
      (∀ a, a < off.toNat ∨ off.toNat + len.toNat ≤ a → Memory.read t.mgt.staging a = Memory.read s.mgt.staging a) ∧ t.mgt.stagObj = some obj ∧
      Completes s t src tag okStat ∧ Frame s t [.qe, .hif, .staging, .mgt, .out]) ∧
  (∀ (s : State) (obj : ObjKind) (off : BitVec 32) (bs : List Byte), s.configured = true ∨ s.phase = .trustBoot ∧ s.mgt.bootHalt = true →
    Memory.wf s.mgt.staging = true → off.toNat + bs.length ≤ 16777216 → ∃ t, exec (.requestFirmwareData obj off bs) s = .next t ∧
      (∀ i b, bs[i]? = some b → Memory.read t.mgt.staging (off.toNat + i) = b) ∧
      (∀ a, a < off.toNat ∨ off.toNat + bs.length ≤ a → Memory.read t.mgt.staging a =
        (if s.mgt.stagObj = none ∨ s.mgt.stagObj = some obj then Memory.read s.mgt.staging a else erasedByte)) ∧
      t.mgt.stagObj = some obj ∧ Frame s t [.staging, .mgt, .out])) ∧
  (∀ (s : State) (src : AdmSrc) (tag : BitVec 16) (kind : ObjKind) (len : BitVec 32) (w : StageWrite) (o : SignedObj) (a : Nat) (old n : NvmSlot),
    s.AdmTurn src tag true → s.admFree = true → s.NoInjection → len.toNat ≤ 16777216 → s.staged kind len.toNat = o → s.mgt.dir.active = a → a < 2 →
    s.mgt.slots.length = 2 → s.mgt.dir.valid.length = 2 → s.mgt.slots[a]? = some old →
    n = (match kind with
      | .firmware => ⟨slotHeader o (old.img.getD ⟨[], []⟩), some o, old.img⟩
      | .image => ⟨slotHeader (old.fw.getD ⟨[], []⟩) o, old.fw, some o⟩) →
    ∃ t, exec (.fwStage src tag kind len w) s = .next t ∧ t.mgt.stagObj = none ∧ t.mgt.staging = s.mgt.staging ∧ t.mgt.dir.active = a ∧
      (if (s.stageCause kind o).isSome ∨ n.fits = false then t.mgt.slots = s.mgt.slots ∧ t.mgt.dir = s.mgt.dir ∧ Completes s t src tag (stat 1 2 0 0x18)
       else if w.writeOk = true ∧ w.readBackOk = true then t.mgt.slots = s.mgt.slots.set (1 - a) n ∧ t.mgt.dir.valid = s.mgt.dir.valid.set (1 - a) true ∧
         t.mgt.dir.seq = s.mgt.dir.seq + 2 ∧ Completes s t src tag okStat
       else t.mgt.slots = s.mgt.slots.set (1 - a) ⟨[], none, none⟩ ∧ t.mgt.dir.valid[1 - a]? = some false ∧ Completes s t src tag (stat 1 2 0 0x18)) ∧
      Frame s t [.regs, .qe, .hif, .evr, .nvm, .mgt, .freeCtr, .out])

/-- FW_ACTIVATE and ActivateFirmware (R343, R344): the other slot goes on trial with two attempts; a belayed module yields its pools first, any other flushes;
a slot that is not valid is refused. Completes: fwActivate, activateFirmware. -/
def Obligations.Activation : Prop :=
  (∀ (s : State) (src : AdmSrc) (tag : BitVec 16) (obj : ObjKind) (d : Directory), s.AdmTurn src tag false → s.admFree = true → s.phase = .online →
    s.mgt.dir.valid[1 - s.mgt.dir.active]? = some true →
    d = { s.mgt.dir with seq := s.mgt.dir.seq + 1, trial := some (1 - s.mgt.dir.active), attempts := 2 } →
    ((s.jnl.belay ≠ .belayed ∨ s.ownPools = [] → ∃ t, exec (.fwActivate src tag obj) s = .next t ∧
       t.mgt = { s.mgt with dir := d, dirNvm := s.mgt.dirNvm.set (1 - s.mgt.dirCur) (dirBytes d), dirCur := 1 - s.mgt.dirCur, activate := some ⟨src, tag, 1, s.ord.acc⟩ } ∧ Frame s t [.qe, .hif, .nvm, .mgt, .out]) ∧
     (s.jnl.belay = .belayed → s.ownPools ≠ [] → s.rop.yielding = none → ∃ t, exec (.fwActivate src tag obj) s = .next t ∧
       t.mgt = { s.mgt with dir := d, dirNvm := s.mgt.dirNvm.set (1 - s.mgt.dirCur) (dirBytes d), dirCur := 1 - s.mgt.dirCur, activate := some ⟨src, tag, 0, s.ord.acc⟩ } ∧
       t.rop = { s.rop with yielding := some ⟨s.ownPools.map (·.cur.id), none, 1, false, false⟩ } ∧ Frame s t [.qe, .hif, .rop, .nvm, .mgt, .out]))) ∧
  (∀ (s : State) (src : AdmSrc) (tag : BitVec 16) (obj : ObjKind), s.AdmTurn src tag false → s.admFree = true →
    s.mgt.dir.valid[1 - s.mgt.dir.active]? = some false → ∃ t, exec (.fwActivate src tag obj) s = .next t ∧ Completes s t src tag (stat 1 2) ∧
      Frame s t [.qe, .hif, .out]) ∧
  (∀ (s : State) (obj : ObjKind), s.admFree = true → s.phase = .online ∨ s.phase = .trustBoot ∧ s.mgt.bootHalt = true →
    exec (.activateFirmware obj) s = .next (State.startActivate { s with out := [] } .mctp 0)) ∧
  (∀ (s : State) (obj : ObjKind), s.phase = .trustBoot → s.mgt.bootHalt = true → s.mgt.dir.valid[1 - s.mgt.dir.active]? = some true →
    ∃ t, exec (.activateFirmware obj) s = .next t ∧ t.mgt.activate = some ⟨.mctp, 0, 3, s.ord.acc⟩ ∧
      t.mgt.dir.trial = some (1 - s.mgt.dir.active) ∧ Out.mctpCpl 0 okStat ∈ t.out ∧ Frame s t [.nvm, .mgt, .out])

/-! ### DMV -/

/-- DMV transfers (R255, R258, R259, R261): a finished descriptor leaves a record with status 0 and all its bytes and the channel takes the next one; a fault
in its lists halts the channel with status 1 or 3, the entry, its SPACE and the bytes moved before it; a burst with a bus error is tried again up to
DMV_RETRY.N times and then halts the channel with status 2; a channel pauses above the high watermark of its transmit queue. Non-posted requests that get no
answer (R329): a timeout fails what the request was for, counts, and quarantines the tag; a late completion is dropped, reported and counted; the quarantine
ends with the tag free. Completes: dmvCompletion, dmvBusError, dmvQueueDrain, completionTimeout, unexpectedCompletion, tagQuarantineExpiry. -/
def Obligations.DataMovers : Prop :=
  ((∀ (s : State) (ch n : Nat) (d : Desc) (blks : List BlockData), s.NoInjection → s.chan ch = ⟨.active, some d, []⟩ →
    d.firstFault s.hbmBytes = none → ∃ t, exec (.dmvCompletion ch n blks) s = .next t ∧ t.chan ch = ⟨.idle, none, []⟩ ∧
      t.dmv.recs = s.dmv.recs ++ [⟨ch, 0, min (d.retries + n) 255, d.tag, d.len, spaceCode d.space, false, 0, none, { d with retries := d.retries + n }, blks⟩] ∧
      Frame s t [.regs, .dmv, .hif, .out]) ∧
  (∀ (s : State) (ch n : Nat) (d : Desc) (q : List Desc) (blks : List BlockData) (x : ListFault), s.NoInjection → s.chan ch = ⟨.active, some d, q⟩ →
    d.firstFault s.hbmBytes = some x → ∃ t, exec (.dmvCompletion ch n blks) s = .next t ∧ t.chan ch = ⟨.halted, some d, q⟩ ∧
      t.dmv.recs = s.dmv.recs ++ [⟨ch, if x.align then 1 else 3, min d.retries 255, d.tag, x.moved, x.space, x.dst, x.entry, none, d, []⟩] ∧
      Frame s t [.regs, .dmv, .hif, .evr, .out]) ∧
  (∀ (s : State) (ch : Nat) (d : Desc) (q : List Desc) (e : HostErr) (x : DmvSpace) (side : Bool) (k m : Nat), s.chan ch = ⟨.active, some d, q⟩ →
    d.purpose = .destage d.port → m = max d.moved (min d.len ((if side then d.dst else d.src).upTo k)) →
    (d.burst < s.reg .dmvRetryN → e ≠ .translation → ∃ t, exec (.dmvBusError ch e x side k) s = .next t ∧
      t.chan ch = ⟨.active, some { d with moved := m, burst := d.burst + 1, retries := d.retries + 1, tlpRo := false }, q⟩ ∧ t.dmv.recs = s.dmv.recs) ∧
    (s.reg .dmvRetryN ≤ d.burst ∨ e = .translation → ∃ t, exec (.dmvBusError ch e x side k) s = .next t ∧
      t.chan ch = ⟨.halted, some { d with moved := m }, q⟩ ∧
      t.dmv.recs = s.dmv.recs ++ [⟨ch, 2, min d.retries 255, d.tag, m, spaceCode x, side, k, some e, d, []⟩] ∧
      Frame s t [.regs, .dmv, .hif, .evr, .out])) ∧
  (∀ (s : State) (ch port pct : Nat) (c : Chan) (d : Desc), s.dmv.chans = [(ch, c)] → c.active = some d → d.space = .memberQ → d.port = port →
    ∃ t, exec (.dmvQueueDrain false port pct) s = .next t ∧ tget t.dmv.fill (false, port) = some pct ∧ Frame s t [.regs, .dmv, .out] ∧
      (c.st = .active → s.reg .dmvPaceHwm < pct → (t.chan ch).st = .paused) ∧
      (c.st = .paused → pct < s.reg .dmvPaceLwm → (t.chan ch).st = .active))) ∧
  ((∀ (s : State) (port : PciePort) (tag : BitVec 14) (q : RingRef) (r : Sq), s.Shaped → tget (s.hport port).tags tag = some (.ring q) →
    s.sq q = some r → s.reg .hifTmoCntN port < 2 ^ 32 - 1 → ∃ t, exec (.completionTimeout port tag) s = .next t ∧
      tag ∈ (t.hport port).quar ∧ tget (t.hport port).tags tag = none ∧ t.reg .hifTmoCntN port = s.reg .hifTmoCntN port + 1 ∧
      t.sq q = some { r with fetch := .idle, pend := false }) ∧
  (∀ (s : State) (port : PciePort) (tag : BitVec 14), tget (s.hport port).tags tag = none → s.reg .hifLateCntN port < 2 ^ 32 - 1 →
    exec (.completionTimeout port tag) s = .next { s with out := [] } ∧
    ∃ t, exec (.unexpectedCompletion port tag) s = .next t ∧ t.out = [.aerAdvisory port] ∧ t.reg .hifLateCntN port = s.reg .hifLateCntN port + 1 ∧
      Frame s t [.regs, .out]) ∧
  (∀ (s : State) (port : PciePort) (tag : BitVec 14), s.Shaped → ∃ t, exec (.tagQuarantineExpiry port tag) s = .next t ∧
    (t.hport port).quar = (s.hport port).quar.filter (· ≠ tag) ∧ (t.hport port).tags = (s.hport port).tags ∧ Frame s t [.hif, .out]))

/-! ### Host ports -/

/-- Translations (R321, R322): a completion puts its entry into the cache, a failed one halts the channel without a retry, or ends the admin command whose
output waits for it with class 3 code 3; an Invalidate Request removes every entry that it covers at once and completes when no read under them is
outstanding. Completes: translationCompletion, invalidateRequest, invalidateCompletion. -/
def Obligations.Translations : Prop :=
  (∀ (s : State) (port : PciePort) (tag : BitVec 14) (ch : Nat) (d : Desc) (page base : BitVec 64) (k : Nat) (rd wr : Bool), s.Shaped →
    tget (s.hport port).tags tag = some (.xlat ch) → (s.chan ch).active = some d → (s.chan ch).st = .active → s.descSegs d = none →
    (∃ t, exec (.translationCompletion port tag (.ok page k rd wr base)) s = .next t ∧ (t.hport port).xlat.head? = some ⟨.pf1, page, k, rd, wr, base⟩ ∧
      tget (t.hport port).tags tag = none ∧ Frame s t [.hif, .out]) ∧
    (∃ t, exec (.translationCompletion port tag .fail) s = .next t ∧ (t.chan ch).st = .halted ∧ tget (t.hport port).tags tag = none)) ∧
  (∀ (s : State) (port : PciePort) (tag : BitVec 14) (q : RingRef) (tg : BitVec 16) (o : HostOut), s.Shaped →
    tget (s.hport port).tags tag = some (.xlatOut q tg) → s.hif.outs = [o] → o.q = q → o.tag = tg → (q, tg) ∉ s.qe.goneAdm →
    ∃ t, exec (.translationCompletion port tag .fail) s = .next t ∧ Completes s t (.ring q) tg (stat 3 3) ∧ t.hif.outs = [] ∧
      (∀ b, Out.hostBytes (.ring q) o.addr b ∉ t.out) ∧ Frame s t [.regs, .qe, .hif, .out]) ∧
  (∀ (s : State) (port : PciePort) (fn : Fn) (itag : BitVec 5) (page : BitVec 64) (k : Nat) (g : Bool), s.Shaped → (s.hport port).invals = [] →
    (s.hport port).tags = [] → ∃ t, exec (.invalidateRequest port fn itag page k g) s = .next t ∧ t.out = [.invalCpl port fn itag] ∧
      (∀ e, e ∈ (t.hport port).xlat ↔ e ∈ (s.hport port).xlat ∧ ¬ (e.fn = fn ∧ (e.page.toNat / 2 ^ max k 12 = page.toNat / 2 ^ max k 12 ∨
        e.page.toNat / 2 ^ e.log2 = page.toNat / 2 ^ e.log2))) ∧ (t.hport port).invals = [] ∧ Frame s t [.regs, .hif, .out]) ∧
  (∀ (s : State) (port : PciePort) (fn : Fn) (itag : BitVec 5) (ws : List (BitVec 14)), s.Shaped → (s.hport port).invals = [⟨fn, itag, ws⟩] →
    ((∀ w ∈ ws, tget (s.hport port).tags w = none) → ∃ t, exec (.invalidateCompletion port fn itag) s = .next t ∧ t.out = [.invalCpl port fn itag] ∧
      (t.hport port).invals = [] ∧ Frame s t [.regs, .hif, .out]) ∧
    ((∃ w ∈ ws, tget (s.hport port).tags w ≠ none) → ∃ t, exec (.invalidateCompletion port fn itag) s = .next t ∧ t.out = [] ∧
      (t.hport port).invals = [⟨fn, itag, ws⟩]))

/-- Resets of a host port and of a function (R208, R325 to R328): PERST#, a hot reset and the loss of the link remove every ring of the port and return it to
its reset state; a function-level reset does so for one function. The release of PERST# makes the configuration space answer and takes WAKE# away. Completes:
perstAsserted, hotReset, hifLinkDown, flr, perstReleased. -/
def Obligations.PortResets : Prop :=
  (∀ (s : State) (port : PciePort), s.Shaped → ∃ t, exec (.perstAsserted port) s = .next t ∧ t.pins.perst[port.val]? = some true ∧
    t.hport port = HPort.reset ∧ RingsGone t (fun q => q.port = port)) ∧
  (∀ (s : State) (port : PciePort), s.Shaped → ∃ t, exec (.hotReset port) s = .next t ∧ t.hport port = { HPort.reset with ready := (s.hport port).ready } ∧
    RingsGone t (fun q => q.port = port) ∧ t.pins = s.pins) ∧
  (∀ (s : State) (port : PciePort), s.Shaped → (s.hport port).linkUp = true → ∃ t, exec (.hifLinkDown port) s = .next t ∧
    t.hport port = { HPort.reset with ready := (s.hport port).ready } ∧ RingsGone t (fun q => q.port = port)) ∧
  (∀ (s : State) (port : PciePort), (s.hport port).linkUp = false → exec (.hifLinkDown port) s = .next { s with out := [] }) ∧
  (∀ (s : State) (port : PciePort) (fn : Fn), s.Shaped → ∃ t, exec (.flr port fn) s = .next t ∧ t.func port fn = Func.reset ∧
    RingsGone t (fun q => q.port = port ∧ q.fn = fn) ∧ t.pins = s.pins) ∧
  (∀ (s : State) (port : PciePort), s.Shaped → s.powered = true → ∃ t, exec (.perstReleased port) s = .next t ∧
    t.pins = { s.pins with perst := s.pins.perst.set port.val false, wake := s.pins.wake.set port.val false } ∧ (t.hport port).ready = true ∧
    Frame s t [.pins, .hif, .out])

/-- Links (R308, R309): a trained link has its rate and width, and F is computed anew at the next edge from the tables of R309; a Max_Payload_Size beyond 512
counts as 512, and the lower one of the two functions counts. Interrupts and requests that are not served (R35, R313, R314): unmasking a vector whose pending
bit is set sends its message at once and clears the bit; a poisoned write is dropped and reported; an unsupported request is answered, or its write dropped,
and counted. Completes: linkTrained, mpsWrite, msixUnmask, poisonedRequest, unsupportedRequest. -/
def Obligations.LinksAndRequests : Prop :=
  ((∀ (s : State) (port : PciePort) (rate width : Nat), s.Shaped → s.powered = true → s.pins.perst[port.val]? = some false → rate < 8 → width ≤ 16 →
    ∃ t, exec (.linkTrained port rate width) s = .next t ∧ t.hport port = { s.hport port with linkUp := true, rate := rate, width := width, linkPend := true, l1 := false } ∧
      Frame s t [.regs, .hif, .evr, .out]) ∧
  (∀ (s : State) (port : PciePort) (fn : Fn) (c : FnCfg), s.Shaped → s.powered = true → (s.hport port).ready = true →
    ∃ t, exec (.mpsWrite port fn c) s = .next t ∧ (t.func port fn).mps = min c.mps 512 ∧ (t.func port fn).ats = c.ats ∧ (t.func port fn).msixEn = c.msixEn ∧
      (t.func port fn).fnMask = c.fnMask ∧ (t.func port fn).ro = c.ro ∧ (t.hport port).linkPend = true ∧ Frame s t [.regs, .hif, .out]) ∧
  (linkFactor 7 16 512 = 64 ∧ linkFactor 7 8 512 = 32 ∧ linkFactor 6 16 512 = 32 ∧ linkFactor 6 8 512 = 16 ∧ linkFactor 5 16 512 = 16 ∧
    linkFactor 5 8 512 = 8 ∧ linkFactor 6 16 256 = 30 ∧ linkFactor 7 16 128 = 56 ∧ ∀ w m, linkFactor 4 w m = 0) ∧
  (∀ (s : State) (p : HPort), p ∈ s.linkFactors.hif.ports → p.linkPend = false) ∧
  (∀ h : HPort, h.mps = min h.pf0.mps h.pf1.mps)) ∧
  ((∀ (s : State) (port : PciePort) (fn : Fn) (v : Nat), s.Shaped → s.fnServes port fn = true → v < vectors fn → (s.func port fn).msixEn = true →
    (s.func port fn).fnMask = false → (s.func port fn).pba = [v] → ∃ t, exec (.msixUnmask port fn v) s = .next t ∧
      t.out = [.msix port fn v ((s.func port fn).entry v).addr ((s.func port fn).entry v).data] ∧ (t.func port fn).pba = [] ∧
      ((t.func port fn).entry v).mask = false ∧ Frame s t [.hif, .out]) ∧
  (∀ (s : State) (port : PciePort), s.reg .hifPoisonCntN port < 2 ^ 32 - 1 → ∃ t, exec (.poisonedRequest port) s = .next t ∧ t.out = [.aerPoison port] ∧
    t.reg .hifPoisonCntN port = s.reg .hifPoisonCntN port + 1 ∧ Frame s t [.regs, .out]) ∧
  (∀ (s : State) (port : PciePort) (k : UrKind), s.reg .hifDropCntN port < 2 ^ 32 - 1 → ∃ t, exec (.unsupportedRequest port k) s = .next t ∧
    t.out = [if k = .badWrite ∨ k = .vdm0 then .aerAdvisory port else .ur port] ∧ t.reg .hifDropCntN port = s.reg .hifDropCntN port + 1 ∧
    Frame s t [.regs, .out]))

/-- Power states and PME (R323, R324): D3hot stops the enabled rings of the function, D0 starts them again, PME_Turn_Off is acknowledged and takes functions
from D3hot to D3cold; a cleared PME_Status ends WAKE# when no function of the port holds it. Completes: pmcsrD3hot, pmcsrD0, pmeTurnOff, pmeStatusClear. -/
def Obligations.PowerManagement : Prop :=
  (∀ (s : State) (port : PciePort) (fn : Fn) (en : Bool), s.Shaped → (s.func port fn).d = .d0 → ∃ t, exec (.pmcsrD3hot port fn en) s = .next t ∧
    (t.func port fn).d = .d3hot ∧ (t.func port fn).pmeEn = en ∧ (∀ q r, s.sq q = some r → q.port = port → q.fn = fn → r.st = .enabled →
      t.sq q = some { r with st := .stopped }) ∧ (∀ q r, s.sq q = some r → q.port ≠ port ∨ q.fn ≠ fn → t.sq q = some r) ∧ Frame s t [.qe, .hif, .out]) ∧
  (∀ (s : State) (port : PciePort) (fn : Fn) (en : Bool) (q : RingRef) (r : Sq), s.Shaped → (s.func port fn).d = .d3hot → s.qe.sqs = [(q, r)] →
    q.port = port → q.fn = fn → r.st = .stopped → (∀ k, s.cq { q with pair := r.cqPair } = some k → k.held = false) →
    ∃ t x, exec (.pmcsrD0 port fn en) s = .next t ∧ (t.func port fn).d = .d0 ∧ (t.func port fn).pmeEn = en ∧ t.sq q = some x ∧ x.st = .enabled ∧ x.h = r.h ∧
      Frame s t [.qe, .hif, .out]) ∧
  (∀ (s : State) (port : PciePort), s.Shaped → (s.hport port).linkUp = true → ∃ t, exec (.pmeTurnOff port) s = .next t ∧ t.out = [.pmeToAck port] ∧
    (∀ fn, (s.func port fn).d = .d3hot → (t.func port fn).d = .d3cold) ∧ (∀ fn, (s.func port fn).d ≠ .d3hot → t.func port fn = s.func port fn) ∧
    Frame s t [.hif, .out]) ∧
  (∀ (s : State) (port : PciePort) (fn : Fn) (en : Bool), s.Shaped → ∃ t, exec (.pmeStatusClear port fn en) s = .next t ∧
    t.func port fn = { s.func port fn with pmeSt := false, pmeEn := en } ∧ ((∀ f, f ≠ fn → (s.func port f).pmeSt = false) → t.pins.wake[port.val]? = some false) ∧
    Frame s t [.pins, .hif, .out])

/-! ### Registers, the error latch and injection -/

/-- Register reads (R6, R37, R313, R393): a read answers the register's value in force to its source, clears the RC fields and changes nothing else of the
register file; the read of a low half latches the high half of the same instant; a read of rope time comes at some moment of the tick (R18, R26); over MCTP a
read answers with a completion byte, 0x01 for a size that is neither 4 nor 8. Completes: rcRegisterRead, latchedPairRead, mctpBarRead. -/
def Obligations.RegisterReads : Prop :=
  (∀ (s : State) (src : Src) (off : BitVec 22), s.RegTurn src off → off ≠ 0x30000 → ∃ t, exec (.rcRegisterRead src off) s = .next t ∧
    t.out = [if src = .mctp then .mctpReply true ((s.wordVal src off.toNat).setWidth 64) else .regData src ((s.wordVal src off.toNat).setWidth 64)] ∧
    (∀ e ∈ (fieldsAt off.toNat).1, e.2.acc = .rc → t.reg e.1 (copyIx src off.toNat (fieldsAt off.toNat).2) = 0) ∧
    (∀ f ix, (∀ e ∈ (fieldsAt off.toNat).1, e.1 = f → e.2.acc ≠ .rc) → t.regs.get f ix = s.regs.get f ix) ∧ t.regs.shadow = s.regs.shadow ∧
    t.regs.snaps = s.regs.snaps ∧ Frame s t [.regs, .out]) ∧
  (∀ (s : State) (src : Src) (f h : Fld) (v : Nat) (off : BitVec 22), s.pairHigh f = some (h, v) → off.toNat = f.spec.page + f.spec.off → s.RegTurn src off → off ≠ 0x30000 →
    ∃ t, exec (.latchedPairRead src off) s = .next t ∧ t.latched h = v % 2 ^ 32 ∧ t.fieldVal h 0 = v % 2 ^ 32 ∧ Frame s t [.regs, .out]) ∧
  (∀ (s : State) (src : Src), s.RegTurn src 0x30000 → exec (.rcRegisterRead src 0x30000) s = exec (.latchedPairRead src 0x30000) s ∧
    ∃ t n, exec (.latchedPairRead src 0x30000) s = .next t ∧ s.tck.now ≤ n ∧ n < (s.edge + 1) * s.periodNs ∧ t.tck = { s.tck with now := n } ∧
      t.latched .tckNowHiNs = n / 2 ^ 32 % 2 ^ 32 ∧
      t.out = [if src = .mctp then .mctpReply true (w64 (n % 2 ^ 32)) else .regData src (w64 (n % 2 ^ 32))] ∧ Frame s t [.regs, .tck, .freeCtr, .out]) ∧
  (∀ s : State, s.powered = true → s.reaches .mctp = true → ∃ t n, exec (.mctpBarRead 8 0x30000) s = .next t ∧ s.tck.now ≤ n ∧
    n < (s.edge + 1) * s.periodNs ∧ t.tck = { s.tck with now := n } ∧ t.out = [.mctpReply true (w64 n)] ∧ Frame s t [.regs, .tck, .freeCtr, .out]) ∧
  (∀ (s : State) (off : BitVec 32) (size : BitVec 8), s.powered = true → s.reaches .mctp = true → size = 4 ∨ size = 8 → off.toNat % size.toNat = 0 →
    off.toNat + size.toNat ≤ 2 ^ 22 → off ≠ 0x30000 → ∃ t, exec (.mctpBarRead size off) s = .next t ∧ t.out = [.mctpReply true (s.barRead .mctp off.toNat size.toNat).1] ∧
      Frame s t [.regs, .out]) ∧
  (∀ (s : State) (off : BitVec 32) (size : BitVec 8), s.powered = true → s.reaches .mctp = true → size ≠ 4 → size ≠ 8 →
    exec (.mctpBarRead size off) s = .next { s with out := [.mctpReply false 0] }) ∧
  (∀ (s : State) (off : BitVec 32) (size : BitVec 8), s.phase = .trustBoot → s.mgt.bootHalt = true → exec (.mctpBarRead size off) s = .next { s with out := [] }) ∧
  (∀ (s : State) (src : Src) (off : BitVec 22), s.powered = true → s.reaches src = false → src ≠ .mctp →
    ∃ t, exec (.rcRegisterRead src off) s = .next t ∧ t.out = [.ur (srcPort src)] ∧ OtherFields s t [⟨.hifDropCntN, (srcPort src).val⟩] ∧ Frame s t [.regs, .out])

/-- Register writes (R6, R7, R386, R387, R396, R397): each field is judged on its own. A legal value takes effect at once (Now), waits as a shadow for the
next edge (Tick), or goes to the staging copy; an illegal one, or a new one for a Boot field, is ignored and latched; a Boot field's own value is no write. A
size other than 4 and 8 bytes is latched with code 0x05. Completes: registerWrite, mctpBarWrite. -/
def Obligations.RegisterWrites : Prop :=
  (∀ (s : State) (src : Src) (off : BitVec 22) (data : BitVec 64) (f : Fld) (e : FSpec) (ix : Nat), s.RegTurn src off → (f, e) ∈ (fieldsAt off.toNat).1 →
    ix = copyIx src off.toNat (fieldsAt off.toNat).2 → e.acc = .rw → f.legal (e.take (data.setWidth 32)) = true →
    f ∉ winStaging → f ∉ injSlotFields → ∃ t, exec (.registerWrite src .pf0 off 4 data) s = .next t ∧
      (e.cls = .now ∨ e.cls = .staged → t.reg f ix = e.take (data.setWidth 32)) ∧
      (e.cls = .tick → t.reg f ix = s.reg f ix ∧ tget t.regs.shadow ⟨f, ix⟩ = some (w32 (e.take (data.setWidth 32)), src, off, data.setWidth 32)) ∧
      (e.cls = .boot → t.reg f ix = s.reg f ix) ∧ Frame s t [.regs, .rop, .mgt, .out]) ∧
  (∀ (s : State) (src : Src) (data : BitVec 64) (w : Win), s.powered = true → s.reaches src = true → s.rop.winsStg[s.reg .ropWinSelN]? = some w →
    (∃ t, exec (.registerWrite src .pf0 0x2B02C 4 data) s = .next t ∧ t.rop.wins = s.rop.wins ∧
      t.rop.winsStg = s.rop.winsStg.set (s.reg .ropWinSelN) { w with len := data.setWidth 24 } ∧ Frame s t [.rop, .out])) ∧
  (∀ (s : State) (data : BitVec 64) (x : InjSlot), s.powered = true → s.reaches .mctp = true → s.mgt.inj[s.reg .mgtInjSelSlot]? = some x →
    (detKinds x.det).contains (data.toNat / 65536 % 16) = true →
    (x.armed = false → ∃ t, exec (.registerWrite .mctp .pf0 0x2F20C 4 data) s = .next t ∧ 
      t.mgt.inj = s.mgt.inj.set (s.reg .mgtInjSelSlot) { x with subj := data.toNat % 65536, kind := data.toNat / 65536 % 16 } ∧ Frame s t [.mgt, .out]) ∧
    (x.armed = true → ∃ t, exec (.registerWrite .mctp .pf0 0x2F20C 4 data) s = .next t ∧ t.mgt = s.mgt ∧
      t.reg .mgtErrlogValid = 1 ∧ (s.reg .mgtErrlogValid ≠ 1 → t.reg .mgtErrlogCode = 1 ∧ t.reg .mgtErrlogAddrOffset = 0x2F20C) ∧ Frame s t [.regs, .out])) ∧
  (∀ (s : State) (src : Src) (off : BitVec 22) (data : BitVec 64) (f : Fld) (e : FSpec) (ix : Nat), s.RegTurn src off → fieldsAt off.toNat = ([(f, e)], ix) →
    e.acc = .rw → e.cls ≠ .boot → f.legal (e.take (data.setWidth 32)) = false → ∃ t, exec (.registerWrite src .pf0 off 4 data) s = .next t ∧
      Latched s t src 1 off.toNat (data.setWidth 32 : BitVec 32).toNat ∧ OtherFields s t latchKeys ∧ t.regs.shadow = s.regs.shadow ∧ Frame s t [.regs, .out]) ∧
  (∀ (s : State) (src : Src) (off : BitVec 22) (data : BitVec 64) (f : Fld) (e : FSpec) (ix : Nat), s.RegTurn src off → fieldsAt off.toNat = ([(f, e)], ix) →
    e.acc = .rw → e.cls = .boot → e.take (data.setWidth 32) ≠ s.reg f ix → ∃ t, exec (.registerWrite src .pf0 off 4 data) s = .next t ∧
      Latched s t src 2 off.toNat (data.setWidth 32 : BitVec 32).toNat ∧ OtherFields s t latchKeys ∧ Frame s t [.regs, .out]) ∧
  (∀ (s : State) (src : Src) (off : BitVec 22) (data : BitVec 64), s.RegTurn src off → (∀ e ∈ (fieldsAt off.toNat).1, e.2.acc = .ro ∨ e.2.acc = .rc) →
    exec (.registerWrite src .pf0 off 4 data) s = .next { s with out := [] }) ∧
  (∀ (s : State) (src : Src) (off : BitVec 22) (size : Nat) (data : BitVec 64), s.RegTurn src off → size ≠ 4 → size ≠ 8 →
    ∃ t, exec (.registerWrite src .pf0 off size data) s = .next t ∧ Latched s t src 5 off.toNat (data.setWidth 32 : BitVec 32).toNat ∧
      OtherFields s t (⟨.hifDropCntN, (srcPort src).val⟩ :: latchKeys) ∧ Frame s t [.regs, .out]) ∧
  (∀ (s : State) (src : Src) (off : BitVec 22) (data : BitVec 64), src ≠ .mctp → s.powered = true → s.fnServes (srcPort src) .pf1 = true → isPage off.toNat = true →
    ∃ t, exec (.registerWrite src .pf1 off 4 data) s = .next t ∧ OtherFields s t [⟨.hifDropCntN, (srcPort src).val⟩] ∧ Frame s t [.regs, .out]) ∧
  (∀ (s : State) (off : BitVec 32) (data : BitVec 64), s.powered = true → s.reaches .mctp = true → isPage off.toNat = true → off.toNat % 4 = 0 →
    ∃ t u, exec (.mctpBarWrite 4 off data) s = .next t ∧ exec (.registerWrite .mctp .pf0 (off.setWidth 22) 4 data) s = .next u ∧
      t = { u with out := [.mctpReply true 0] })

/-- Staged sets (R87, R139, R209, R263, R307, R389, R390): writing 1 to an APPLY bit takes a snapshot of the whole staging copy, in place of one taken earlier
in the tick, and changes nothing in force. At the edge the snapshot takes effect whole, or is latched with code 0x03 or 0x04 and changes nothing. Completes:
cchWmApply, seqPaceApply, dmvPaceApply, ropWinApply, qeAdmApply. -/
def Obligations.StagedSets : Prop :=
  (∀ (s : State) (src : Src), s.powered = true → s.reaches src = true →
    (exec (.cchWmApply src) s = .next (State.snapSet { s with out := [] } src 0)) ∧ (exec (.seqPaceApply src) s = .next (State.snapSet { s with out := [] } src 1)) ∧
    (exec (.dmvPaceApply src) s = .next (State.snapSet { s with out := [] } src 2)) ∧
    (exec (.ropWinApply src) s = .next (State.snapSet { s with out := [] } src 3))) ∧
  (∀ s : State, (s.powered = true → s.reaches .port0 = true → exec (.qeAdmApply 0) s = .next (State.snapSet { s with out := [] } .port0 4)) ∧
    (s.powered = true → s.reaches .port1 = true → exec (.qeAdmApply 1) s = .next (State.snapSet { s with out := [] } .port1 5))) ∧
  (∀ (s : State) (src : Src) (n : Nat), (∀ x ∈ (s.snapSet src n).regs.snaps, x.set = n → x.src = src ∧
      x.vals = (setFields n).1.map fun f => (⟨f, (setFields n).2⟩, s.regs.get f (setFields n).2)) ∧
    (∀ x ∈ (s.snapSet src n).regs.snaps, x.set = n → x.wins = if n = 3 then s.rop.winsStg else []) ∧
    ((s.snapSet src n).regs.snaps.filter fun x => x.set = n).length = 1 ∧ Frame s (s.snapSet src n) [.regs] ∧ OtherFields s (s.snapSet src n) []) ∧
  (∀ (s : State) (x : Snap), s.regs.snaps = [x] → x.set = 0 →
    (10 ≤ x.val .cchWmStgLwm → x.val .cchWmStgLwm < x.val .cchWmStgHwm → x.val .cchWmStgHwm ≤ 95 →
      s.applySets.reg .cchWmHwm = x.val .cchWmStgHwm ∧ s.applySets.reg .cchWmLwm = x.val .cchWmStgLwm ∧
      OtherFields s s.applySets [⟨.cchWmHwm, 0⟩, ⟨.cchWmLwm, 0⟩, ⟨.glbApplyStatFail, 0⟩] ∧ s.applySets.reg .glbApplyStatFail % 2 = 0) ∧
    (¬ (10 ≤ x.val .cchWmStgLwm ∧ x.val .cchWmStgLwm < x.val .cchWmStgHwm ∧ x.val .cchWmStgHwm ≤ 95) →
      Latched s s.applySets x.src 3 0x23014 0 ∧ OtherFields s s.applySets (⟨.glbApplyStatFail, 0⟩ :: latchKeys) ∧
      s.applySets.reg .glbApplyStatFail % 2 = 1) ∧ s.applySets.regs.snaps = [])

/-- Bits that a write of 1 clears (R37, R379, R395, R396), and the cursors: ERRLOG_CLEAR clears VALID and OVF together, GLB_ALERT_CLEAR and OVR_STAT_CLEAR the
bits of their mask and no other; EVR_CURSOR_WRITE holds a low half until the high half is written, and an 8-byte write sets the cursor at once. Arming (R401,
R405): over the management path, a write to MGT_INJ_ARM asks the selected slot to arm or to disarm at the next edge, and no other slot. Completes:
errlogClear, glbAlertClear, ovrStatClear, evrCursorWrite, injectArm, injectDisarm. -/
def Obligations.ClearedAndArmed : Prop :=
  ((∀ (s : State) (src : Src), s.powered = true → s.reaches src = true →
    (∃ t, exec (.errlogClear src) s = .next t ∧ t.reg .mgtErrlogValid = 0 ∧ t.reg .mgtErrlogOvf = 0 ∧
      OtherFields s t [⟨.mgtErrlogValid, 0⟩, ⟨.mgtErrlogOvf, 0⟩] ∧ Frame s t [.regs, .out]) ∧
    (∀ mask : BitVec 4, ∃ t, exec (.glbAlertClear src mask) s = .next t ∧
      t.reg .glbAlertFailStop = (if mask.getLsbD 0 then 0 else s.reg .glbAlertFailStop) ∧ t.reg .glbAlertBootHalt = (if mask.getLsbD 1 then 0 else s.reg .glbAlertBootHalt) ∧
      t.reg .glbAlertAddrConflict = (if mask.getLsbD 2 then 0 else s.reg .glbAlertAddrConflict) ∧ t.reg .glbAlertFatal = (if mask.getLsbD 3 then 0 else s.reg .glbAlertFatal) ∧
      (mask = 15 → t.alert = false) ∧ Frame s t [.regs, .out]) ∧
    (∀ mask : BitVec 5, ∃ t, exec (.ovrStatClear src mask) s = .next t ∧ t.reg .tckOvrStatHost = (if mask.getLsbD 0 then 0 else s.reg .tckOvrStatHost) ∧
      t.reg .tckOvrStatCod = (if mask.getLsbD 1 then 0 else s.reg .tckOvrStatCod) ∧ t.reg .tckOvrStatFix = (if mask.getLsbD 2 then 0 else s.reg .tckOvrStatFix) ∧
      t.reg .tckOvrStatMbr = (if mask.getLsbD 3 then 0 else s.reg .tckOvrStatMbr) ∧ t.reg .tckOvrStatRope = (if mask.getLsbD 4 then 0 else s.reg .tckOvrStatRope) ∧
      t.reg .tckOvrCntN = s.reg .tckOvrCntN ∧ Frame s t [.regs, .out]) ∧
    (∀ data : BitVec 64, s.Shaped →
      (exec (.evrCursorWrite src false 8 data) s = .next { s with out := [], evr := { s.evr with
        cursors := s.evr.cursors.set (srcIx src) data.toNat, curLo := s.evr.curLo.set (srcIx src) (data.setWidth 32) } }) ∧
      (exec (.evrCursorWrite src false 4 data) s = .next { s with out := [], evr := { s.evr with curLo := s.evr.curLo.set (srcIx src) (data.setWidth 32) } }) ∧
      (∀ lo, s.evr.curLo[srcIx src]? = some lo → exec (.evrCursorWrite src true 4 data) s = .next { s with out := [], evr := { s.evr with
        cursors := s.evr.cursors.set (srcIx src) (lo.toNat + 2 ^ 32 * (data.setWidth 32 : BitVec 32).toNat) } }))) ∧
  (∀ s : State, (s.qe.failAt.isSome = true → s.alerts.reg .glbAlertFailStop = 1) ∧ (s.mgt.bootHalt = true → s.alerts.reg .glbAlertBootHalt = 1) ∧
    (s.rop.conflicts ≠ [] → s.alerts.reg .glbAlertAddrConflict = 1) ∧ s.alerts.reg .glbAlertFatal = s.reg .glbAlertFatal)) ∧
  (∀ (s : State), s.powered = true → s.reaches .mctp = true →
    exec .injectArm s = .next { s with out := [], mgt := { s.mgt with inj := s.mgt.inj.modify (s.reg .mgtInjSelSlot) fun x => { x with armReq := some true } } } ∧
    exec .injectDisarm s = .next { s with out := [], mgt := { s.mgt with inj := s.mgt.inj.modify (s.reg .mgtInjSelSlot) fun x => { x with armReq := some false } } })

/-- The injection registers are hidden from the ports (R400): through PF0 of either port, a read of MGT offsets 0x200 to 0x2FF answers zero and changes nothing, a
write changes nothing but the port's HIF_DROP_CNT, which counts it, and nothing that a port writes to the register pages touches an injection slot. -/
def Obligations.InjectionHiddenFromPorts : Prop :=
  (∀ (s : State) (src : Src) (off : BitVec 22), src ≠ .mctp → s.powered = true → s.reaches src = true → 0x2F200 ≤ off.toNat → off.toNat ≤ 0x2F2FC →
    off.toNat % 4 = 0 → exec (.rcRegisterRead src off) s = .next { s with out := [.regData src 0] } ∧
    ∀ data : BitVec 64, ∃ t, exec (.registerWrite src .pf0 off 4 data) s = .next t ∧ t.mgt = s.mgt ∧ t.out = [] ∧
      OtherFields s t [⟨.hifDropCntN, (srcPort src).val⟩] ∧ t.regs.shadow = s.regs.shadow ∧ t.regs.snaps = s.regs.snaps ∧
      (s.reg .hifDropCntN (srcPort src).val < 2 ^ 32 - 1 → t.reg .hifDropCntN (srcPort src).val = s.reg .hifDropCntN (srcPort src).val + 1) ∧
      Frame s t [.regs, .out]) ∧
  (∀ (s : State) (src : Src) (fn : Fn) (off : BitVec 22) (size : Nat) (data : BitVec 64), src ≠ .mctp → isPage off.toNat = true →
    ∃ t, exec (.registerWrite src fn off size data) s = .next t ∧ t.mgt.inj = s.mgt.inj)

/-! ### Members and Ethernet ports -/

/-- Commands to members (R273, R274, R275, R283): a completion waits for step 3, and one that comes after its command's timeout is only counted; a command
that times out is aborted and goes out again on the member's next port under a new identifier, while in FAIL_STOP a write just ends; a command that waits for
its member's retry delay goes out again when the delay ends, as one more try, under the same identifier; a member without a path for MBR_RECONN.TICKS is
reported unreachable, is read for its label on every path that is up, and one that does not spin up ends the wake. Completes: memberCompletion, memberTimeout,
memberReconnExpiry, labelReadPoll, spinupLimit. -/
def Obligations.MemberCommands : Prop :=
  (∀ (s : State) (id : Nat) (st : MStatus) (pl : MPayload) (c : MCmd), s.NoInjection → s.mbr.dead.contains id = false →
    (s.mbr.cmds.find? fun c => c.id == id && c.due.isNone) = some c → (∀ e ∈ s.mbr.done, e.1 ≠ id) →
    exec (.memberCompletion id st pl) s = .next { s with out := [], mbr := { s.mbr with done := s.mbr.done ++ [(id, st, pl)] } }) ∧
  (∀ (s : State) (id : Nat) (st : MStatus) (pl : MPayload), s.mbr.dead.contains id = true → s.reg .mbrLateCntN < 2 ^ 32 - 1 →
    ∃ t, exec (.memberCompletion id st pl) s = .next t ∧ t.reg .mbrLateCntN = s.reg .mbrLateCntN + 1 ∧ OtherFields s t [⟨.mbrLateCntN, 0⟩] ∧ Frame s t [.regs, .out]) ∧
  (∀ (s : State) (c : MCmd), (s.mbr.cmds.find? fun x => x.id == c.id) = some c →
    (c.due = none ∧ (s.edge < c.edge + s.reg .mbrTmoTicks ∨ s.timerStands c = true)) ∨ (∃ e, c.due = some e ∧ s.edge < e) →
    exec (.memberTimeout c.id) s = .next { s with out := [] }) ∧
  (∀ (s : State) (c : MCmd) (m : IMember) (port e : Nat), (s.mbr.cmds.find? fun x => x.id == c.id) = some c → c.due = some e → e ≤ s.edge →
    s.member c.img = some m → ((s.upPorts m).find? fun q => decide (q > c.port)).or (s.upPorts m).head? = some port →
    ∃ t, exec (.memberTimeout c.id) s = .next t ∧ t.out = [.memberCmd { c with due := none, port := port, edge := s.edge, tries := c.tries + 1 }] ∧
      t.mbr = { s.mbr with cmds := s.mbr.cmds.filter (fun x => x.id ≠ c.id) ++ [{ c with due := none, port := port, edge := s.edge, tries := c.tries + 1 }] } ∧
      Frame s t [.mbr, .sched, .out]) ∧
  (∀ (s : State) (c : MCmd) (m : IMember) (port : Nat), (s.mbr.cmds.find? fun x => x.id == c.id) = some c → c.due = none →
    c.edge + s.reg .mbrTmoTicks ≤ s.edge → s.timerStands c = false → c.inj = false → s.phase ≠ .failStop ∨ c.op.isWrite = false → c.purpose ≠ .resvReport c.pool → c.purpose ≠ .preempt c.pool →
    c.tries < s.reg .mbrRetryN → s.member c.img = some m → ((s.upPorts m).find? fun q => decide (q > c.port)).or (s.upPorts m).head? = some port →
    ∃ t, exec (.memberTimeout c.id) s = .next t ∧ c.id ∈ t.mbr.dead ∧
      t.mbr.cmds = s.mbr.cmds.filter (fun x => x.id ≠ c.id) ++ [{ c with id := s.mbr.nextId, port := port, edge := s.edge, tries := c.tries + 1 }] ∧
      t.mbr.nextId = s.mbr.nextId + 1 ∧ t.mbr.members = s.mbr.members ∧
      t.out = [.memberAbort c.id, .memberCmd { c with id := s.mbr.nextId, port := port, edge := s.edge, tries := c.tries + 1 }] ∧
      (s.reg .mbrTmoCntN < 2 ^ 32 - 1 → t.reg .mbrTmoCntN = s.reg .mbrTmoCntN + 1)) ∧
  (∀ (s : State) (c : MCmd), (s.mbr.cmds.find? fun x => x.id == c.id) = some c → c.due = none → c.edge + s.reg .mbrTmoTicks ≤ s.edge →
    s.timerStands c = false → c.inj = false → s.phase = .failStop → c.op.isWrite = true → ∃ t, exec (.memberTimeout c.id) s = .next t ∧ t.out = [.memberAbort c.id] ∧
      t.mbr = { s.mbr with cmds := s.mbr.cmds.filter (fun x => x.id ≠ c.id), dead := s.mbr.dead ++ [c.id] } ∧ Frame s t [.regs, .mbr, .out]) ∧
  (∀ (s : State) (num e : Nat) (m : IMember), s.member num = some m → m.lastBroke = some e → m.admitted = true → m.unreach = none →
    (∀ x ∈ m.paths, x.up = false) → s.mbr.reports.contains (num, 0) = false →
    exec (.memberReconnExpiry num) s = .next (if e + s.reg .mbrReconnTicks ≤ s.edge then
      { s with out := [], mbr := { s.mbr with reports := s.mbr.reports ++ [(num, 0)] } } else { s with out := [] })) ∧
  (∀ (s : State) (num e : Nat) (m : IMember), s.member num = some m → m.unreach = some e → e < s.edge → (s.edge - e) % 125000 = 0 → m.admitted = true →
    s.placesOf num ≠ [] → ∃ t, exec (.labelReadPoll num) s = .next t ∧ (∀ port ∈ s.upPorts m, ∃ c ∈ t.mbr.cmds, c.img = num ∧ c.port = port ∧
      c.purpose = .label num) ∧ (∀ c ∈ s.mbr.cmds, c ∈ t.mbr.cmds) ∧ t.mbr.members = s.mbr.members ∧ Frame s t [.mbr, .sched, .out]) ∧
  (∀ (s : State) (p : Pool) (i e : Nat) (m : IMember), s.pool p.cur.id = some p → s.img p i = some m → m.spinning = some e →
    e + s.reg .mbrSpinupTicks ≤ s.edge → ∃ t, exec (.spinupLimit p.cur.id i) s = .next t ∧ t.mbr.reports = s.mbr.reports ++ [(m.num, 0)] ∧
      (t.member m.num).map (·.spinning) = some none ∧ (∀ x, t.pool p.cur.id = some x → ∀ r ∈ x.vols, r.power ≠ .waking) ∧
      Frame s t [.regs, .ord, .pools, .mbr, .evr, .out])

/-- Paths and Ethernet ports (R265, R266, R274, R275, R282, R292): a queue pair in error or a failed Keep Alive breaks the path, and its commands go to the
member's other paths with no retry counted; a reconnection no sooner than 125,000 edges after the break restores it at line rate; CNPs, CE marks and the rate
timer follow R282; a rope port that loses its link takes its paths DOWN; a pause counts on the image's priority only. Completes: rdmaQpError,
keepAliveFailure, pathReconnect, cnpReceived, ceFrameReceived, ccTimer, portLinkUp, portLinkDown, pfcPauseFrame. -/
def Obligations.MemberPaths : Prop :=
  (∀ (s : State) (num : Nat) (port : EthPort) (m : IMember), s.member num = some m → (∃ x ∈ m.paths, x.port = port.val ∧ x.up = true) →
    ∃ t, exec (.rdmaQpError num port) s = .next t ∧ exec (.keepAliveFailure num port) s = .next t ∧
      t.member num = some { m with paths := m.paths.map fun x => if x.port = port.val then { x with up := false, broke := s.edge } else x,
                                   lastBroke := if m.paths.any fun x => x.port ≠ port.val && x.up then m.lastBroke else some s.edge } ∧
      ((∃ x ∈ m.paths, x.port ≠ port.val ∧ x.up = true ∧ s.linkUp x.port = true) → ∀ c ∈ s.mbr.cmds, (∀ d ∈ s.mbr.cmds, d.id = c.id → d = c) →
        c.img = num → c.port = port.val → c.due = none → ∃ d ∈ t.mbr.cmds, d.id = c.id ∧ d.port ≠ port.val ∧ d.tries = c.tries ∧ d.op = c.op ∧ d.lba = c.lba) ∧
      Frame s t [.mbr, .sched, .out]) ∧
  (∀ (s : State) (num : Nat) (port : EthPort) (m : IMember) (x : MPath), s.member num = some m → (m.paths.find? fun x => x.port == port.val) = some x →
    x.up = false → s.linkUp port.val = true → m.admitted = true → m.unreach = none →
    (x.broke + 125000 ≤ s.edge → ∃ t, exec (.pathReconnect num port true) s = .next t ∧
      t.member num = some { m with lastBroke := none, paths := m.paths.map fun x => if x.port = port.val then
        { x with up := true, rate := s.lineRate port.val, rateK := 0 } else x } ∧ Frame s t [.mbr, .sched, .out]) ∧
    (s.edge < x.broke + 125000 → exec (.pathReconnect num port true) s = .next { s with out := [] }) ∧
    exec (.pathReconnect num port false) s = .next { s with out := [] }) ∧
  (∀ (s : State) (num : Nat) (port : EthPort) (now : Nat) (x : MPath), s.path num port.val = some x →
    (∃ t, exec (.cnpReceived num port now) s = .next t ∧ t.path num port.val = some (if s.ccPassed x.cnpRx now then
      { (MPath.cut { x with lastCnp := some now } (s.reg .mbrCcMin)) with cnpRx := some now } else { x with lastCnp := some now }) ∧ Frame s t [.regs, .mbr, .out]) ∧
    (∃ t, exec (.ceFrameReceived num port now) s = .next t ∧ t.out = (if s.ccPassed x.cnpTx now then [.cnp num port.val] else []) ∧
      t.path num port.val = some (if s.ccPassed x.cnpTx now then { x with cnpTx := some now } else x) ∧ Frame s t [.regs, .mbr, .out]) ∧
    (∃ t, exec (.ccTimer num port now) s = .next t ∧ t.path num port.val = some (if s.ccPassed x.lastCnp now then
      { (x.rise (s.reg .mbrCcStep) (s.lineRate port.val)) with lastCnp := some now } else x) ∧ Frame s t [.mbr, .out])) ∧
  (∀ (s : State) (port : EthPort), s.configured = true →
    exec (.portLinkUp port) s = .next { s with out := [], mbr := { s.mbr with
      linkUp := s.mbr.linkUp.set port.val true, pauseUntil := tdel s.mbr.pauseUntil port.val } } ∧
    (s.isMemberPort port.val = true → exec (.portLinkDown port) s = .next { s with out := [], mbr := { s.mbr with
      linkUp := s.mbr.linkUp.set port.val false, pauseUntil := tdel s.mbr.pauseUntil port.val } }) ∧
    (s.isMemberPort port.val = false → ∃ t, exec (.portLinkDown port) s = .next t ∧ t.mbr = { s.mbr with
      linkUp := s.mbr.linkUp.set port.val false, pauseUntil := tdel s.mbr.pauseUntil port.val } ∧
      (∀ a p, s.rop.peers = [(a, p)] → (p.paths.map (·.n)).Nodup → ∃ y, t.rop.peers = [(a, y)] ∧ ∀ x ∈ y.paths, x.n = port.val → x.up = false) ∧
      Frame s t [.regs, .mbr, .rop, .out])) ∧
  (∀ (s : State) (port : EthPort) (prio : BitVec 3) (q : BitVec 16) (im : Image), s.mgt.image = some im → s.configured = true → s.linkUp port.val = true →
    s.isMemberPort port.val = true → im.pfcEn = 1 →
    exec (.pfcPauseFrame port prio q) s = .next (if im.memVlan.toNat / 2 ^ 13 % 8 = prio.toNat then { s with out := [], mbr := { s.mbr with
      pauseUntil := if q = 0 then tdel s.mbr.pauseUntil port.val else tset s.mbr.pauseUntil port.val q.toNat } } else { s with out := [] }))

/-- The TAP (R433): while SYS_RST# is released, every instruction but IDCODE, SAMPLE/PRELOAD and BYPASS is taken as BYPASS, and no instruction at any time
touches a fuse or anything else outside the TAP. Completes: tapInstructionLoad. -/
def Obligations.TapTakesBypass : Prop :=
  ∀ (s : State) (ir : BitVec 8), ∃ t, exec (.tapInstructionLoad ir) s = .next t ∧ t.tru = s.tru ∧ Frame s t [.pins, .out] ∧
    t.pins = { s.pins with tapIr := t.pins.tapIr } ∧
    (s.pins.sysRst = false → t.pins.tapIr = if ir = 0x01 ∨ ir = 0x02 then ir else 0xFF) ∧
    (s.pins.sysRst = true → t.pins.tapIr = if ir ∈ [0x00, 0x01, 0x02, 0x05, 0x06, 0x09, 0x0A] then ir else 0xFF)

/-! ### The rope: frames, peers, partner -/

/-- Belay frames (R94, R96, R97, R289, R297, R298, R299), each taken once: the set-up waits to be checked and is logged when it is not the partner's; a block
goes into its slot of the receive area when an enabled window of its source covers it, is refused with WIN_NAK when it is whole and no window does, and is
dropped when it fails its footer; records go to the mirror ring slot for ring slot; a seal waits to be tested; confirmations and NAKs wait for step 3. A
duplicate and a frame with a bad header are dropped and counted. Completes: belaySetup, belayBlock, belayRecords, belaySeal, belayConfirm, sealNak, winNak. -/
def Obligations.BelayFrames : Prop :=
  (∀ (s : State) (h : FrameHdr) (p : Peer), s.FrameFrom 0x10 h p → p.seen h.seq = false → ∀ x : BelaySetupPayload,
    ∃ t, exec (.belaySetup h x) s = .next t ∧ Received s t h p ∧ (s.partnerAddr = some h.src → t.rop.setupRx = some x ∧ Frame s t [.rop, .out]) ∧
      (s.partnerAddr ≠ some h.src → t.rop.setupRx = s.rop.setupRx ∧ Frame s t [.regs, .rop, .evr, .out])) ∧
  (∀ (s : State) (h : FrameHdr) (p : Peer), s.FrameFrom 0x11 h p → p.seen h.seq = false → ∀ (slot : BitVec 64) (b : Block),
    (blockWhole b = true → s.windowTakes h.src slot.toNat = true → s.NoInjection → ∃ t, exec (.belayBlock h slot b) s = .next t ∧ Received s t h p ∧
      t.rop.recv = tset s.rop.recv slot.toNat b ∧ Frame s t [.rop, .out]) ∧
    (blockWhole b = true → s.windowTakes h.src slot.toNat = false → ∃ t, exec (.belayBlock h slot b) s = .next t ∧ t.rop.recv = s.rop.recv ∧
      Sent t h.src (.winNak h.seq slot.toNat) ∧ (s.reg .ropWinNakCntN < 2 ^ 32 - 1 → t.reg .ropWinNakCntN = s.reg .ropWinNakCntN + 1) ∧
      Frame s t [.regs, .rop, .evr, .out]) ∧
    (blockWhole b = false → ∃ t, exec (.belayBlock h slot b) s = .next t ∧ t.rop.recv = s.rop.recv ∧ t.peer h.src = some { p with heard := s.edge } ∧
      Frame s t [.rop, .out])) ∧
  (∀ (s : State) (h : FrameHdr) (p : Peer), s.FrameFrom 0x12 h p → p.seen h.seq = false → ∀ (first : BitVec 32) (recs : List JRec), recs.length ≤ 32 →
    ∃ t, exec (.belayRecords h first recs) s = .next t ∧ Received s t h p ∧ (∀ i r, recs[i]? = some r → tget t.rop.mirNew (first + w32 i) = some r) ∧
      t.rop.mirror = s.rop.mirror ∧ Frame s t [.rop, .out]) ∧
  (∀ (s : State) (h : FrameHdr) (p : Peer), s.FrameFrom 0x13 h p → p.seen h.seq = false → ∀ r : SealRec, ∃ t x, exec (.belaySeal h r) s = .next t ∧
    Received s t h p ∧ t.rop.rxSeals = s.rop.rxSeals.filter (fun y => y.srec.tick ≠ r.tick) ++ [x] ∧ x.srec = r ∧ x.edge = s.edge ∧ x.refused = false ∧ Frame s t [.rop, .out]) ∧
  (∀ (s : State) (h : FrameHdr) (p : Peer), s.FrameFrom 0x14 h p → p.seen h.seq = false → ∀ tick : BitVec 64, ∃ t, exec (.belayConfirm h tick) s = .next t ∧
    Received s t h p ∧ t.jnl = { s.jnl with confIn := s.jnl.confIn ++ [tick.toNat] } ∧ Frame s t [.jnl, .rop, .out]) ∧
  (∀ (s : State) (h : FrameHdr) (p : Peer), s.FrameFrom 0x15 h p → p.seen h.seq = false → ∀ tick : BitVec 64, ∃ t, exec (.sealNak h tick) s = .next t ∧
    Received s t h p ∧ t.jnl = { s.jnl with nakIn := s.jnl.nakIn ++ [tick.toNat] } ∧ Frame s t [.jnl, .rop, .out]) ∧
  (∀ (s : State) (h : FrameHdr) (p : Peer), s.FrameFrom 0x16 h p → p.seen h.seq = false → ∀ (n : BitVec 32) (slot : BitVec 64),
    ∃ t, exec (.winNak h n slot) s = .next t ∧ Received s t h p ∧ (t.peer h.src).map (·.unacked) =
      some (p.unacked.map fun u => if u.seq = n then { u with sent := u.sent - 4 } else u) ∧ Frame s t [.rop, .out]) ∧
  (∀ (s : State) (h : FrameHdr) (p : Peer), s.FrameFrom 0x14 h p → p.seen h.seq = true → ∀ tick : BitVec 64, ∃ t, exec (.belayConfirm h tick) s = .next t ∧
    OtherFields s t [⟨.ropDropCntN, 0⟩] ∧ Frame s t [.regs, .rop, .out]) ∧
  (∀ (s : State) (h : FrameHdr), s.ropeOn = true → s.reg .ropDropCntN < 2 ^ 32 - 1 → ∀ (tick : BitVec 64) (slot : BitVec 64) (b : Block),
    (s.hdrGood 0x14 h = false → ∃ t, exec (.belayConfirm h tick) s = .next t ∧ t.reg .ropDropCntN = s.reg .ropDropCntN + 1 ∧ Frame s t [.regs, .out]) ∧
    (s.hdrGood 0x11 h = false → ∃ t, exec (.belayBlock h slot b) s = .next t ∧ t.reg .ropDropCntN = s.reg .ropDropCntN + 1 ∧ Frame s t [.regs, .out]))

/-- Forwarding, directory and takeover frames (R246, R247, R301, R302, R303, R305): a forwarded command waits to be offered under its origin; data go to the
read that was forwarded or the command that is served; a reply waits for its edge; a claim is answered at once, and an answer counted; an update waits for the
next edge; YIELD begins to fence the pools named, and TAKEOVER_ACK is honoured once every pool of the yield is taken. Completes: fwdCmd, fwdData, fwdReply,
dirClaim, dirUpdate, yieldFrame, takeoverAck. -/
def Obligations.ForwardingFrames : Prop :=
  (∀ (s : State) (h : FrameHdr) (p : Peer), s.FrameFrom 0x20 h p → p.seen h.seq = false → ∀ fid port qid tag entry,
    ∃ t, exec (.fwdCmd h fid port qid tag entry) s = .next t ∧ Received s t h p ∧
      t.rop.fwdIn = s.rop.fwdIn ++ [(h.seq, .peer h.src fid port qid, entry, tag)] ∧ Frame s t [.rop, .out]) ∧
  (∀ (s : State) (h : FrameHdr) (p : Peer), s.FrameFrom 0x21 h p → p.seen h.seq = false → ∀ (fid : BitVec 64) (off : Nat) (bs : List Block) (c : Cmd),
    s.NoInjection → s.cmd c.id = some c → bs.all blockWhole = true →
    (∀ v n nf l, s.forwardedAs h.src fid = some c → c.op = .read v n nf l → ∃ t, exec (.fwdData h fid off bs) s = .next t ∧ Received s t h p ∧
      t.cmd c.id = some { c with rblks := c.rblks ++ (List.range bs.length).filterMap fun i => (bs[i]?).map fun b => ⟨v + off + i, .ready b⟩ } ∧
      Frame s t [.ord, .rop, .out]) ∧
    (s.forwardedAs h.src fid = none → s.servedFor h.src fid = some c → ∃ t, exec (.fwdData h fid off bs) s = .next t ∧ Received s t h p ∧
      t.cmd c.id = some (if bs = [] then { c with credit := max c.credit off } else
        { c with rcvd := c.rcvd ++ (List.range bs.length).filterMap fun i => (bs[i]?).map fun b => (off + i, b) }) ∧ Frame s t [.ord, .rop, .out])) ∧
  (∀ (s : State) (h : FrameHdr) (p : Peer), s.FrameFrom 0x21 h p → p.seen h.seq = false → ∀ (fid : BitVec 64) (off : Nat) (bs : List Block),
    bs.all blockWhole = false → ∃ t, exec (.fwdData h fid off bs) s = .next t ∧ t.peer h.src = some { p with heard := s.edge } ∧ Frame s t [.rop, .out]) ∧
  (∀ (s : State) (h : FrameHdr) (p : Peer), s.FrameFrom 0x22 h p → p.seen h.seq = false → ∀ (fid : BitVec 64) (st d : BitVec 16) (r : BitVec 64) (acc : BitVec 32),
    ∃ t x, exec (.fwdReply h fid st d r acc) s = .next t ∧ Received s t h p ∧ t.rop.replies = s.rop.replies ++ [(fid, x, acc)] ∧
      x.cls = st.setWidth 8 ∧ x.code = (st >>> 8).setWidth 8 ∧ x.detail = d ∧ x.result = r ∧ Frame s t [.rop, .out]) ∧
  (∀ (s : State) (h : FrameHdr) (p : Peer), s.FrameFrom 0x28 h p → p.seen h.seq = false → ∀ vol claimant : BitVec 12,
    (∃ t, exec (.dirClaim h vol claimant none) s = .next t ∧ Received s t h p ∧
      Sent t h.src (.dirClaim vol claimant (some (decide (s.poolOf vol = none ∧ tget s.rop.dir vol = none ∧ ¬ (s.selfAddr < claimant ∧ ∃ c ∈ s.rop.claims, c.vol = vol))))) ∧
      (¬ s.selfAddr < claimant → ∀ c ∈ t.rop.claims, c.vol = vol → c.refused = true) ∧ Frame s t [.rop, .out]) ∧
    (∀ free : Bool, ∃ t, exec (.dirClaim h vol claimant (some free)) s = .next t ∧ Received s t h p ∧ t.rop.claims = s.rop.claims.map (fun c => if c.vol = vol then
      { c with waits := c.waits.erase h.src, refused := c.refused || !free } else c) ∧ Frame s t [.rop, .out])) ∧
  (∀ (s : State) (h : FrameHdr) (p : Peer), s.FrameFrom 0x29 h p → p.seen h.seq = false → ∀ es : List DirEntry, ∃ t, exec (.dirUpdate h es) s = .next t ∧
    Received s t h p ∧ t.rop.dirNew = s.rop.dirNew ++ [(h.src, es)] ∧ t.rop.dir = s.rop.dir ∧ Frame s t [.rop, .out]) ∧
  (∀ (s : State) (h : FrameHdr) (p : Peer), s.FrameFrom 0x30 h p → p.seen h.seq = false → s.partnerAddr = some h.src → ∀ (pid : BitVec 16) (last : BitVec 64),
    (∀ k ∈ s.rop.takeovers, k.pool ≠ pid) → ∃ t k, exec (.yieldFrame h [pid] last) s = .next t ∧ Received s t h p ∧ t.rop.takeovers = s.rop.takeovers ++ [k] ∧
      k.pool = pid ∧ k.stage = .fencing ∧ k.byYield = true ∧ (k.imgs, k.jms) = s.membersOf pid ∧ Frame s t [.regs, .mbr, .rop, .sched, .out]) ∧
  (∀ (s : State) (h : FrameHdr) (p : Peer) (y : YieldSt), s.FrameFrom 0x31 h p → p.seen h.seq = false → s.rop.yielding = some y → s.partnerAddr = some h.src →
    y.sentAt ≠ none → ∀ pools : List (BitVec 16), ∃ t, exec (.takeoverAck h pools) s = .next t ∧ Received s t h p ∧
      t.rop.yielding = some { y with ack := decide (∀ pid ∈ y.pools, pid ∈ pools ∨ s.pool pid = none) } ∧ Frame s t [.rop, .out])

/-- Peers, heartbeats and announcements (R25, R290, R291, R293): the first ANNOUNCE of a module with this T enters it as UP with every path of a linked rope
port and sends it this module's directory; another T holds a joining module; this module's own address under another serial number is a conflict. A heartbeat
of the partner is counted and acknowledges what it names. Completes: announce, heartbeat, announceSend. -/
def Obligations.PeersAndHeartbeats : Prop :=
  (∀ (s : State) (h : FrameHdr) (serial : BitVec 128) (per : BitVec 3) (st : BitVec 8) (ips : List (BitVec 128)), s.ropeOn = true → s.hdrGood 0x01 h = true →
    s.rop.conflicts.contains serial = false →
    (h.src ≠ s.selfAddr → per.toNat = s.reg .tckCfgPeriod → s.peer h.src = none → ∃ t q, exec (.announce h serial per st ips) s = .next t ∧
      t.peer h.src = some q ∧ q.st = .up ∧ q.serial = serial ∧ q.ips = ips ∧ q.annState = st ∧ q.heard = s.edge ∧ q.paths = s.freshPaths ∧
      Sent t h.src (.dirUpdate s.ownDir) ∧ Frame s t [.rop, .out]) ∧
    (h.src ≠ s.selfAddr → per.toNat = s.reg .tckCfgPeriod → ∀ p, s.peer h.src = some p → p.st = .lost → ∃ t q, exec (.announce h serial per st ips) s = .next t ∧
      t.peer h.src = some q ∧ q.st = .up ∧ q.heard = s.edge ∧ q.paths = s.freshPaths ∧ Sent t h.src (.dirUpdate s.ownDir) ∧ Frame s t [.rop, .out]) ∧
    (h.src ≠ s.selfAddr → per.toNat ≠ s.reg .tckCfgPeriod → s.phase = .ropeJoin → s.mgt.held = false → ∃ t, exec (.announce h serial per st ips) s = .next t ∧
      t.mgt = { s.mgt with held := true, cause := 0x0C } ∧ t.rop = s.rop ∧ Frame s t [.regs, .evr, .mgt, .out]) ∧
    (h.src = s.selfAddr → serial ≠ s.part.serial → s.phase = .ropeJoin → ∃ t, exec (.announce h serial per st ips) s = .next t ∧
      t.mgt = { s.mgt with held := true, cause := 0x0D } ∧ t.rop = s.rop ∧ Frame s t [.regs, .evr, .mgt, .out]) ∧
    (h.src = s.selfAddr → serial ≠ s.part.serial → s.phase ≠ .ropeJoin → ∃ t, exec (.announce h serial per st ips) s = .next t ∧
      t.rop = { s.rop with conflicts := s.rop.conflicts ++ [serial] } ∧ t.alert = true ∧ Frame s t [.regs, .evr, .rop, .out])) ∧
  (∀ (s : State) (h : FrameHdr) (p : Peer) (path : Nat) (x : HbPayload), s.FrameFrom 0x02 h p → s.NoInjection → ∃ t q, exec (.heartbeat h path x) s = .next t ∧
    t.peer h.src = some q ∧ q.heard = s.edge ∧ q.modState = x.modState ∧ q.txSeq = p.txSeq ∧ (∀ u ∈ q.unacked, acked x.ackHigh x.ackMap u.seq = false) ∧
    (∀ u ∈ p.unacked, acked x.ackHigh x.ackMap u.seq = false → ∃ w ∈ q.unacked, w.seq = u.seq ∧ w.f = u.f ∧ w.retx = u.retx) ∧
    (∀ y ∈ q.paths, y.n = path → y.got = true) ∧ (s.partnerAddr = some h.src → t.rop.hbGot = true) ∧
    (s.partnerAddr ≠ some h.src → t.rop.hbGot = s.rop.hbGot) ∧ Frame s t [.rop, .out]) ∧
  (∀ s : State, s.announceDue = true → ∃ t, exec .announceSend s = .next t ∧ t.rop = { s.rop with annAt := some s.edge } ∧
    (∀ n ∈ s.ropePorts, s.linkUp n = true → Out.frame 0xFFFF n 0 false s.announceOf ∈ t.out ∧
      ∀ im, s.mgt.image = some im → ∀ ip ∈ im.seeds, Out.announceTo ip n s.announceOf ∈ t.out) ∧ Frame s t [.rop, .out]) ∧
  (∀ s : State, s.announceDue = false → exec .announceSend s = .next { s with out := [] })

/-- Retransmission, paths and lost peers (R289, R291, R292): a frame unacknowledged for four ticks goes out again, and the ninth time breaks the stream; a
path that is quiet or unlinked goes DOWN, and comes UP after sixteen ticks with frames; a peer unheard for three heartbeat intervals is LOST, no claim waits
for it any more, and the commands forwarded to it end with class 0x03 code 0x05. Completes: frameRetxTimeout, peerLostTimeout, pathDownTimeout, pathUp. -/
def Obligations.LinksOfTheRope : Prop :=
  (∀ (s : State) (a : BitVec 12) (p : Peer) (u : Unacked), s.peer a = some p → (p.unacked.find? fun x => x.seq == u.seq) = some u → u.sent + 4 ≤ s.edge →
    (u.retx < 8 → ∃ t q, exec (.frameRetxTimeout a u.seq) s = .next t ∧ t.peer a = some q ∧ (q.unacked.find? fun x => x.seq == u.seq) =
      some { u with sent := s.edge, retx := u.retx + 1 } ∧ t.out = [.frame (a.setWidth 16) (pathOf p a u.f) u.seq true u.f] ∧
      (s.reg .ropRetxCntN < 2 ^ 32 - 1 → t.reg .ropRetxCntN = s.reg .ropRetxCntN + 1) ∧ Frame s t [.regs, .rop, .out]) ∧
    (8 ≤ u.retx → s.partnerAddr ≠ some a → p.st = .up → ∃ t q, exec (.frameRetxTimeout a u.seq) s = .next t ∧ t.peer a = some q ∧ q.st = .lost ∧ q.unacked = [] ∧
      Frame s t [.ord, .cch, .rop, .out]) ∧
    (8 ≤ u.retx → s.partnerAddr = some a → s.jnl.belay ≠ .solo → ∃ t, exec (.frameRetxTimeout a u.seq) s = .next t ∧ t.jnl.belay = .solo ∧ t.rop.win0Off = true)) ∧
  (∀ (s : State) (a : BitVec 12) (p : Peer) (u : Unacked), s.peer a = some p → (p.unacked.find? fun x => x.seq == u.seq) = some u → s.edge < u.sent + 4 →
    exec (.frameRetxTimeout a u.seq) s = .next { s with out := [] }) ∧
  (∀ (s : State) (a : BitVec 12) (p : Peer), s.peer a = some p → p.st = .up →
    (p.heard + 3 * s.hbInterval a p ≤ s.edge ∨ p.upPaths = [] → ∃ t q, exec (.peerLostTimeout a) s = .next t ∧ t.peer a = some q ∧ q.st = .lost ∧
      q.unacked = [] ∧ q.txSeq = 0 ∧ q.rxHigh = 0 ∧ (∀ c ∈ s.rop.claims, c.waits = [a] → ∃ d ∈ t.rop.claims, d.vol = c.vol ∧ d.waits = []) ∧
      (∀ c ∈ t.ord.cmds, ∀ fid, c.st ≠ .forwarded a fid) ∧ Frame s t [.ord, .cch, .rop, .out]) ∧
    (s.edge < p.heard + 3 * s.hbInterval a p → p.upPaths ≠ [] → exec (.peerLostTimeout a) s = .next { s with out := [] })) ∧
  (∀ (s : State) (a : BitVec 12) (n : Nat) (p : Peer) (x : RPath), s.peer a = some p → (p.paths.find? fun x => x.n == n) = some x →
    (x.up = true → s.linkUp n = false ∨ s.partnerAddr = some a ∧ 3 ≤ x.quiet → ∃ t q, exec (.pathDownTimeout a n) s = .next t ∧ t.peer a = some q ∧
      (q.paths.find? fun y => y.n == n) = some { x with up := false, run := 0 } ∧
      (s.reg .ropPathFailCntN < 2 ^ 32 - 1 → t.reg .ropPathFailCntN = s.reg .ropPathFailCntN + 1) ∧ Frame s t [.regs, .rop, .out]) ∧
    (x.up = false → s.linkUp n = true → s.partnerAddr ≠ some a ∨ 16 ≤ x.run → ∃ t q, exec (.pathUp a n) s = .next t ∧ t.peer a = some q ∧
      (q.paths.find? fun y => y.n == n) = some { x with up := true, quiet := 0 } ∧ Frame s t [.rop, .out]) ∧
    (x.up = false → s.partnerAddr = some a → x.run < 16 → exec (.pathUp a n) s = .next { s with out := [] }))

/-- The partner and belay (R97, R297, R303, R305, R306): it is suspected at the third missed heartbeat; the lower address checks its reservations then, the
higher at the sixth, and again every 125,000 edges while a pool gives no answer; BELAY_SETUP goes out at the first edge it may and every 125,000 edges; a seal
still incomplete 2·b ticks after it arrived is refused; a yield makes its cold copies, then tells the partner, and is given up when nobody answers; a pool
goes home after its edges BELAYED. Completes: partnerSuspect, partnerCheck, partnerCheckRetry, belaySetupRetry, sealNakTimeout, yieldSend, handbackTimer,
yieldTimeout. -/
def Obligations.PartnerAndYield : Prop :=
  (∀ (s : State) (a : BitVec 12), s.partnerAddr = some a →
    (s.rop.partner = .up → 3 ≤ s.reg .ropHbMissN → ∃ t, exec .partnerSuspect s = .next t ∧ t.rop = { s.rop with partner := .suspect false } ∧
      Frame s t [.regs, .rop, .evr, .out]) ∧
    (s.rop.partner = .up → s.reg .ropHbMissN < 3 → exec .partnerSuspect s = .next { s with out := [] }) ∧
    (s.rop.partner = .suspect false → (if s.selfAddr < a then 3 else 6) ≤ s.reg .ropHbMissN → ∃ t, exec .partnerCheck s = .next t ∧ t.rop.partner = .suspect true ∧
      t.rop.checkAt = some s.edge ∧ t.rop.checkOk = [] ∧ Frame s t [.mbr, .rop, .sched, .out]) ∧
    (s.rop.partner = .suspect false → s.reg .ropHbMissN < (if s.selfAddr < a then 3 else 6) → exec .partnerCheck s = .next { s with out := [] }) ∧
    (s.rop.partner = .suspect true → s.rop.checkIds = [] → (∀ p ∈ s.pools, p.yielded = false) → (∃ p ∈ s.ownPools, s.rop.checkOk.contains p.cur.id = false) →
      ∀ e, s.rop.checkAt = some e → e + 125000 ≤ s.edge → ∃ t, exec .partnerCheckRetry s = .next t ∧ t.rop.partner = .suspect true ∧ t.rop.checkAt = some s.edge ∧
        Frame s t [.mbr, .rop, .sched, .out]) ∧
    (s.rop.partner = .suspect true → s.rop.checkIds = [] → (∀ p ∈ s.pools, p.yielded = false) → (∀ p ∈ s.ownPools, s.rop.checkOk.contains p.cur.id = true) →
      ∃ t, exec .partnerCheckRetry s = .next t ∧ t.rop.partner = .fencing ∧ Frame s t [.mbr, .rop, .sched, .out]) ∧
    (s.mayJoinPartner a = true → s.rop.setupRx = none → s.rop.setupSent = none → ∃ t, exec .belaySetupRetry s = .next t ∧ t.rop.setupSent = some s.edge ∧
      Sent t a (.belaySetup s.setupOf) ∧ Frame s t [.rop, .out]) ∧
    (∀ e, s.mayJoinPartner a = true → s.rop.setupRx = none → s.rop.setupSent = some e →
      (e + 125000 ≤ s.edge → ∃ t, exec .belaySetupRetry s = .next t ∧ t.rop.setupSent = some s.edge ∧ Sent t a (.belaySetup s.setupOf)) ∧
      (s.edge < e + 125000 → exec .belaySetupRetry s = .next { s with out := [] })) ∧
    (∀ x : RxSeal, s.rop.rxSeals = [x] → (s.sealedRecs x.srec).length < x.srec.count.toNat → s.peer a ≠ none →
      (x.refused = true → exec (.sealNakTimeout x.srec.tick) s = .next { s with out := [] }) ∧
      (x.edge + 2 * max 1 Config.belayDelay ≤ s.edge → x.refused = false → x.naks = 0 → ∃ t, exec (.sealNakTimeout x.srec.tick) s = .next t ∧ Sent t a (.sealNak x.srec.tick.toNat) ∧
        t.rop.rxSeals = [{ x with naks := 1, refused := true }] ∧ t.jnl = s.jnl) ∧
      (x.edge + 2 * max 1 Config.belayDelay ≤ s.edge → x.refused = false → 1 ≤ x.naks → ∃ t, exec (.sealNakTimeout x.srec.tick) s = .next t ∧ Sent t a (.sealNak x.srec.tick.toNat) ∧
        t.rop.rxSeals = [] ∧ t.jnl.belay = .solo) ∧
      (s.edge < x.edge + 2 * max 1 Config.belayDelay → exec (.sealNakTimeout x.srec.tick) s = .next { s with out := [] })) ∧
    (∀ y : YieldSt, s.rop.yielding = some y → y.sentAt = none → s.jnl.belay = .belayed → y.coldDone = true → s.jnl.coldWait = [] → s.jnl.sealedSlots = [] →
      s.jnl.seals = [] → s.peer a ≠ none → s.flushesDone = true → (∀ p ∈ s.pools, p.cur.id ∈ y.pools → p.settled = true ∨ p.oneCopy = true) → ∃ t, exec .yieldSend s = .next t ∧ Sent t a (.yield_ y.pools s.jnl.lastSeal) ∧
        t.rop.yielding = some { y with sentAt := some s.edge } ∧ (∀ p ∈ t.pools, p.cur.id ∈ y.pools → p.yielded = true) ∧ Frame s t [.rop, .pools, .out]) ∧
    (∀ p : Pool, s.pool p.cur.id = some p → s.phase = .online → s.reg .ropCfgHandback = 1 → p.cur.home = a → s.jnl.belay = .belayed → s.rop.yielding = none →
      p.yielded = false → (s.reg .ropHandbackTicks ≤ p.belayedFor → ∃ t, exec (.handbackTimer p.cur.id) s = .next t ∧
        t.rop.yielding = some ⟨[p.cur.id], none, 2, false, false⟩ ∧ Frame s t [.qe, .ord, .rop, .hif, .out]) ∧
        (p.belayedFor < s.reg .ropHandbackTicks → exec (.handbackTimer p.cur.id) s = .next { s with out := [] }))) ∧
  (∀ (s : State) (y : YieldSt) (e : Nat), s.rop.yielding = some y → y.sentAt = some e → y.reason = 2 → y.ack = false → s.phase = .online →
    e + s.reg .ropYieldTmoTicks ≤ s.edge → ∃ t, exec .yieldTimeout s = .next t ∧ t.phase = .bivouac .quiesce) ∧
  (∀ s : State, s.yieldLate = false → exec .yieldTimeout s = .next { s with out := [] })

/-- Rope time (R18, R20, R21, R23, R24, R294): the reference answers DELAY_REQ and sends TIME_SYNC at every 16th edge; with all four stamps the best
exchange's offset moves a FREE module once in ROPE_JOIN, keeps a locked one LOCKED within 1 µs and makes it HOLDOVER beyond, and the sixteenth close one
locks; four missing messages are HOLDOVER; an accepted pulse locks PPS. The servo's trim stays within its bound. Completes: delayReq, timeSync, delayResp,
timeSyncSend, delayReqSend, timingMessagesMissing, ppsInPulse, ppsLost. -/
def Obligations.RopeTime : Prop :=
  (∀ (s : State) (h : FrameHdr) (p : Peer) (path t4 : Nat), s.FrameFrom 0x04 h p → s.NoInjection → ∃ t, exec (.delayReq h path t4) s = .next t ∧
    t.out = (if s.tck.isRef then [.frame (h.src.setWidth 16) path 0 false (.delayResp t4)] else []) ∧ Frame s t [.rop, .out]) ∧
  (∀ (s : State) (h : FrameHdr) (p : Peer) (path t1 t2 : Nat) (pps : Bool), s.FrameFrom 0x03 h p → s.NoInjection → s.tck.lock = .free →
    ∃ t, exec (.timeSync h path t1 t2 h.src pps) s = .next t ∧ t.tck = { s.tck with syncers := tset s.tck.syncers h.src pps, refAddr := h.src,
                                                                                     sync := some (t1, t2, path, s.edge), reqSent := none, lastMsg := s.edge } ∧
      Frame s t [.tck, .rop, .out]) ∧
  (∀ (s : State) (h : FrameHdr) (p : Peer) (path t1 t2 : Nat), s.FrameFrom 0x03 h p → s.NoInjection → s.tck.lock ≠ .free → s.tck.isRef = false →
    s.tck.refAddr = h.src → s.tck.ppsLock = false → (∀ e ∈ s.tck.syncers, e.1 ≠ h.src → e.2 = false) →
    ∃ t, exec (.timeSync h path t1 t2 h.src true) s = .next t ∧ t.tck = { s.tck with syncers := tset s.tck.syncers h.src true,
                                                                                     sync := some (t1, t2, path, s.edge), reqSent := none, lastMsg := s.edge } ∧
      Frame s t [.tck, .rop, .out]) ∧
  (∀ (s : State) (h : FrameHdr) (p : Peer) (path t1 t2 t3 t4 q e : Nat) (o : Int), s.FrameFrom 0x05 h p → s.NoInjection → s.tck.sync = some (t1, t2, q, e) →
    s.tck.reqSent = some t3 → h.src = s.tck.refAddr → s.tck.isRef = false →
    (bestOf (((⟨(t2 : Int) - t1 + (t4 - t3), ((t2 : Int) - t1 - (t4 - t3)) / 2⟩ : Exchange) :: s.tck.exch).take 16)).map (·.offset) = some o →
    (s.tck.lock = .free → s.phase = .ropeJoin → ∃ t, exec (.delayResp h path t4) s = .next t ∧ t.tck.now = ((s.tck.now : Int) + -(o / 1000)).toNat ∧
      t.tck.lock = .acquiring ∧ t.tck.isLocal = false) ∧
    (s.tck.lock = .locked → o.natAbs ≤ 1000000 → ∃ t, exec (.delayResp h path t4) s = .next t ∧ t.tck.lock = .locked ∧ t.tck.now = s.tck.now ∧
      t.reg .tckOffsetPs = (BitVec.ofInt 32 o).toNat ∧ t.tck.sync = none ∧ -trimMax ≤ t.tck.trim ∧ t.tck.trim ≤ trimMax) ∧
    (s.tck.lock = .locked → 1000000 < o.natAbs → ∃ t, exec (.delayResp h path t4) s = .next t ∧ t.tck.lock = .holdover ∧ t.tck.trim = s.tck.trim ∧
      t.tck.now = s.tck.now) ∧
    (s.tck.lock = .acquiring → o.natAbs ≤ 10000 → s.tck.near = 15 → ∃ t, exec (.delayResp h path t4) s = .next t ∧ t.tck.lock = .locked)) ∧
  (∀ s : State, s.tck.isRef = true → s.ropeOn = true → s.edge % 16 = 0 → s.tck.syncAt ≠ some s.edge → ∃ t, exec .timeSyncSend s = .next t ∧
    t.tck = { s.tck with syncAt := some s.edge } ∧ (∀ e ∈ s.rop.peers, e.2.st = .up → ∀ n, e.2.upPaths.head? = some n →
      ∃ t1, Out.frame (e.1.setWidth 16) n 0 false (.timeSync t1 s.selfAddr s.tck.ppsLock) ∈ t.out) ∧ Frame s t [.tck, .freeCtr, .out]) ∧
  (∀ (s : State) (t1 t2 path e : Nat), s.tck.sync = some (t1, t2, path, e) → s.tck.reqSent = none → s.ropeOn = true → e + 8 ≤ s.edge →
    ∃ t t3, exec .delayReqSend s = .next t ∧ t.tck = { s.tck with reqSent := some t3 } ∧ t.out = [.frame (s.tck.refAddr.setWidth 16) path 0 false .delayReq] ∧
      s.tck.now * 1000 ≤ t3 ∧ Frame s t [.tck, .freeCtr, .out]) ∧
  (∀ s : State, s.tck.isRef = false → s.tck.lock = .locked ∨ s.tck.lock = .acquiring → s.tck.lastMsg + 64 < s.edge →
    ∃ t, exec .timingMessagesMissing s = .next t ∧ t.tck.lock = .holdover ∧ t.tck.trim = s.tck.trim ∧ Frame s t [.regs, .tck, .evr, .out]) ∧
  (∀ s : State, s.edge ≤ s.tck.lastMsg + 64 → exec .timingMessagesMissing s = .next { s with out := [] }) ∧
  (∀ (s : State) (sec : Nat), s.reg .tckCfgPpsEn = 1 → s.tck.lock ≠ .free → ∃ t, exec (.ppsInPulse (sec * 1000000000)) s = .next t ∧ t.tck.ppsLock = true ∧
    t.tck.ppsSec = sec ∧ t.tck.ppsMiss = 0 ∧ t.tck.now = s.tck.now ∧ Frame s t [.tck, .freeCtr, .out]) ∧
  (∀ s : State, s.tck.ppsLock = true → ∃ t, exec .ppsLost s = .next t ∧ t.tck.ppsLock = false ∧ t.tck.now = s.tck.now ∧
    Frame s t [.regs, .tck, .evr, .freeCtr, .out])

/-! ### Patrol, the trust unit and the recorder -/

/-- Timers of the pools and the journal (R75, R93, R109, R119, R134, R136): a gather window that has passed makes its entry due, last in the order of
offering; a bit of a quiet region begins to clear, and not before its ticks have passed; a MISSING member whose timer has reached the limit is FAILED; a scrub
cycle that has covered everything ends, late or not, and asks for its statement; a tail record 786,432 records old is appended again at the head. Completes:
gatherWindowExpiry, bitmapQuietExpiry, missingTimerExpiry, scrubCycleEnd, journalRelocation. -/
def Obligations.PatrolTimers : Prop :=
  (∀ (s : State) (pid : BitVec 16) (lid n : Nat) (e : GEntry), (s.cch.gather.find? fun e => e.isOf pid lid n) = some e → e.st = .open_ →
    (e.e0 + s.window e.vol ≤ s.edge → ∃ t, exec (.gatherWindowExpiry pid lid n) s = .next t ∧
      (t.cch.gather.find? fun e => e.isOf pid lid n) = some { e with st := .due, offered := s.cch.dueSeq } ∧ t.cch.dueSeq = s.cch.dueSeq + 1 ∧
      Frame s t [.cch, .out]) ∧
    (s.edge < e.e0 + s.window e.vol → exec (.gatherWindowExpiry pid lid n) s = .next { s with out := [] })) ∧
  (∀ (s : State) (p : Pool) (b : BmBit), s.pool p.cur.id = some p → (p.bitmap.find? fun x => x.vol == b.vol && x.region == b.region) = some b → b.st = .isSet →
    s.regionBusy p b.vol b.region = false → (∀ m ∈ p.nxt.members, m.state ≠ .missing ∧ m.state ≠ .returning) → s.jmReady p = true →
    p.resync.contains (b.vol, b.region) = false →
    (b.touched + s.reg .jnlBmQuietTicks ≤ s.edge → ∃ t x w, exec (.bitmapQuietExpiry p.cur.id b.vol b.region) s = .next t ∧ t.pool p.cur.id = some x ∧
      x.bitmap = p.bitmap.map (fun y => if y.vol = b.vol ∧ y.region = b.region then { y with st := .clearing w } else y) ∧ Frame s t [.regs, .pools, .mbr, .sched, .out]) ∧
    (s.edge < b.touched + s.reg .jnlBmQuietTicks → exec (.bitmapQuietExpiry p.cur.id b.vol b.region) s = .next { s with out := [] })) ∧
  (∀ (s : State) (p : Pool) (i e0 : Nat), s.pool p.cur.id = some p → tget p.missAt i = some e0 → p.memState i = .missing →
    (e0 + s.reg .seqMissLimitTicks ≤ s.edge → ∃ t x, exec (.missingTimerExpiry p.cur.id i) s = .next t ∧ t.pool p.cur.id = some x ∧ x.memState i = .failed ∧
      x.plan = true ∧ Frame s t (writes (.missingTimerExpiry p.cur.id i))) ∧
    (s.edge < e0 + s.reg .seqMissLimitTicks → exec (.missingTimerExpiry p.cur.id i) s = .next { s with out := [] })) ∧
  (∀ (s : State) (p : Pool) (sc : ScrubMeta), s.pool p.cur.id = some p → p.scrubRun = some sc →
    (s.scrubBusy p = false → p.scrubNext p.scrubList p.scrubPos = none → ∃ t x b, exec (.scrubCycleEnd p.cur.id) s = .next t ∧ t.pool p.cur.id = some x ∧ x.scrubRun = none ∧
      x.nxt.scrub = some { sc with late := decide (s.scrubDeadline sc < s.edge), pos := p.scrubPos, endEdge := s.edge } ∧ t.tru.reqs = s.tru.reqs ++ [.virek p.cur.id b] ∧ b.cycle = sc.cycle ∧
      b.endEdge = s.edge ∧ b.checked = sc.total ∧ b.late = decide (s.scrubDeadline sc < s.edge) ∧ Frame s t [.regs, .pools, .tru, .evr, .out]) ∧
    (s.scrubBusy p = true ∨ p.scrubNext p.scrubList p.scrubPos ≠ none → exec (.scrubCycleEnd p.cur.id) s = .next { s with out := [] })) ∧
  (∀ (s : State) (r : LiveRec) (rest : List LiveRec), s.jnl.live = r :: rest →
    (786432 ≤ s.jnl.used → ∃ t, exec .journalRelocation s = .next t ∧
      t.jnl.live = rest ++ [{ r with no := s.jnl.next, intent := { r.intent with flags := r.intent.flags ||| 16 }, tick := s.edge }] ∧ t.jnl.retireQ = [] ∧
      (s.jnl.retireQ.length < 2 ^ 20 → tget t.jnl.ring (s.jnl.next.toNat % ringSize) = some (.intent { r.intent with flags := r.intent.flags ||| 16 })) ∧
      Frame s t [.regs, .jnl, .rop, .out]) ∧
    (s.jnl.used < 786432 → exec .journalRelocation s = .next { s with out := [] }))

/-- The trust unit signs one object at a time, in order (R355, R357 to R360): a report takes the next index and completes its command with its bytes written
whole or not at all; a reservation comes first when the index has reached its mark, and an object whose reservation fails is produced unsigned; a statement
goes into the pool's metadata, at the head of the last 1,024. Completes: truSignatureDone. -/
def Obligations.SignaturesInOrder : Prop :=
  (∀ s : State, s.tru.reqs = [] ∨ s.pins.pwrFail = true → ∀ a b : Bool, exec (.truSignatureDone a b) s = .next { s with out := [] }) ∧
  (∀ (s : State) (tag : BitVec 16) (addr : BitVec 64) (len : BitVec 32) (nonce : BitVec 256) (rest : List SigReq) (a b : Bool),
    s.pins.pwrFail = false → s.tru.reqs = .report .mctp tag addr len nonce :: rest →
    (s.tru.q < s.tru.rHi → s.tru.q + 1 < 2 ^ 25 - 1048576 → ∃ t n, exec (.truSignatureDone a b) s = .next t ∧
      t.tru = { s.tru with reqs := rest, q := s.tru.q + 1 } ∧ Out.mctpCpl tag (okStat n) ∈ t.out ∧
      (len.toNat < n → ∀ bs, Out.hostBytes .mctp addr bs ∉ t.out) ∧ (n ≤ len.toNat → ∃ bs, Out.hostBytes .mctp addr bs ∈ t.out ∧ bs.length = n)) ∧
    (s.tru.q = s.tru.rHi → s.tru.q + 1 < 2 ^ 25 - 1048576 → ∃ t, exec (.truSignatureDone true true) s = .next t ∧ t.tru.reqs = rest ∧ t.tru.q = s.tru.q + 1 ∧
      t.tru.rHi = s.tru.rHi + 1024 ∧ t.tru.trec.rHi = s.tru.rHi + 1024 ∧ t.vlt.trust.rHi = s.tru.rHi + 1024 ∧ t.vlt.trust.valid = true) ∧
    (s.tru.q = s.tru.rHi → s.tru.q < 2 ^ 25 → ∃ t, exec (.truSignatureDone false b) s = .next t ∧ t.tru.reqs = rest ∧ t.tru.q = s.tru.q ∧
      t.tru.rHi = s.tru.rHi ∧ t.tru.persistFail = true) ∧
    (2 ^ 25 ≤ s.tru.q → ∃ t, exec (.truSignatureDone a b) s = .next t ∧ t.tru = { s.tru with reqs := rest })) ∧
  (∀ (s : State) (p : Pool) (v : Virek) (rest : List SigReq) (a b : Bool), s.pins.pwrFail = false → s.tru.reqs = .virek p.cur.id v :: rest → s.pool p.cur.id = some p →
    ∃ t x w, exec (.truSignatureDone a b) s = .next t ∧ t.tru.reqs = rest ∧ t.pool p.cur.id = some x ∧ x.nxt.vireks = (w :: p.nxt.vireks).take 1024 ∧
      w.cycle = v.cycle ∧ w.sig ≠ none ∧ (v.cycle = 1 → w.prev = 0) ∧ (∀ y l, p.nxt.vireks = y :: l → v.cycle ≠ 1 → w.prev = sha256 (virekBytes y)))

/-- Persistence of events, and a ring that stays held (R245, R377): a full page of 256 records goes to the vault's log, a NOR half is written when it is due
and the halves alternate, a failure is logged and stops nothing; a completion ring held for 1,024 edges without a record is logged once. Completes:
evrLogPageWrite, evrNorHalfWrite, cqStalled. -/
def Obligations.RecorderAndStalls : Prop :=
  (∀ s : State, (256 ≤ s.evr.waiting → s.vlt.evrLog.length < 3584 → ∃ t, exec .evrLogPageWrite s = .next t ∧ t.evr.waiting = s.evr.waiting - 256 ∧
      t.vlt.evrLog = t.evr.persist :: s.vlt.evrLog ∧ t.evr.recs = s.evr.recs ∧ Frame s t [.vlt, .evr, .out]) ∧
    (s.evr.waiting < 256 → exec .evrLogPageWrite s = .next { s with out := [] })) ∧
  (∀ s : State, (s.norDue = true → ∃ t, exec (.evrNorHalfWrite true) s = .next t ∧ t.evr = { s.evr with norHalf := 1 - s.evr.norHalf, norAt := some s.tck.now, norWant := false, norDirty := false, norFail := false, norTop := s.evr.next } ∧
      Frame s t [.regs, .evr, .out]) ∧
    (s.norDue = true → ∃ t, exec (.evrNorHalfWrite false) s = .next t ∧ t.evr.norFail = true ∧ t.evr.norTop = s.evr.norTop ∧ t.evr.norHalf = 1 - s.evr.norHalf ∧
      Frame s t [.regs, .evr, .out]) ∧
    (s.norDue = false → ∀ ok, exec (.evrNorHalfWrite ok) s = .next { s with out := [] })) ∧
  (∀ (s : State) (q : RingRef) (k : Cq), s.cq q = some k → k.held = true →
    (1024 ≤ k.idleEdges → k.stallLogged = false → ∃ t, exec (.cqStalled q) s = .next t ∧ t.cq q = some { k with stallLogged := true } ∧
      (s.reg .qeStallCntN < 2 ^ 32 - 1 → t.reg .qeStallCntN = s.reg .qeStallCntN + 1) ∧ Frame s t [.regs, .qe, .evr, .out]) ∧
    (k.idleEdges < 1024 ∨ k.stallLogged = true → exec (.cqStalled q) s = .next { s with out := [] }))
end

