-- ==== Sys2Proof/Laws/Crypto.lean ====
section
/-!
SUPPORT. Byte strings and AES: lengths, the two readings of a byte string undo each other, and CMAC's chain over a message cut in two.
-/
namespace Sys2Proof.Machine

@[simp] theorem length_leBytes : ∀ n v, (leBytes n v).length = n
  | 0, _ => rfl
  | n + 1, v => congrArg (· + 1) (length_leBytes n (v / 256))

theorem ofLe_lt : ∀ bs : List Byte, ofLe bs < 256 ^ bs.length
  | [] => by simp [ofLe]
  | b :: bs => by
    have h := ofLe_lt bs
    have hb := b.isLt
    simp only [ofLe, List.length_cons, Nat.pow_succ]
    omega

/-- A byte string is read back from its number. -/
theorem leBytes_ofLe : ∀ bs : List Byte, leBytes bs.length (ofLe bs) = bs
  | [] => rfl
  | b :: bs => by
    have hb := b.isLt
    have h1 : (b.toNat + 256 * ofLe bs) / 256 = ofLe bs := by omega
    have h2 : BitVec.ofNat 8 (b.toNat + 256 * ofLe bs) = b := by
      apply BitVec.eq_of_toNat_eq
      simp only [BitVec.toNat_ofNat]
      omega
    simp only [List.length_cons, ofLe, leBytes, h1, h2, leBytes_ofLe bs]

/-- A number is read back from its bytes. -/
theorem ofLe_leBytes : ∀ n v, ofLe (leBytes n v) = v % 256 ^ n
  | 0, v => by simp [leBytes, ofLe, Nat.mod_one]
  | n + 1, v => by
    have h : (BitVec.ofNat 8 v).toNat = v % 256 := BitVec.toNat_ofNat v 8
    rw [leBytes, ofLe, ofLe_leBytes n, h, Nat.pow_succ', Nat.mod_mul]

/-- Sixteen bytes are read back from their 128-bit value. -/
theorem leBytes_tagOf {bs : List Byte} (h : bs.length = 16) : leBytes 16 (tagOf bs).toNat = bs := by
  have hl := ofLe_lt bs
  rw [h] at hl
  have e : (tagOf bs).toNat = ofLe bs := by
    simp only [tagOf, BitVec.toNat_ofNat]
    exact Nat.mod_eq_of_lt (Nat.lt_of_lt_of_eq hl (by decide))
  rw [e, ← h, leBytes_ofLe]

@[simp] theorem length_xorBytes (a b : List Byte) : (xorBytes a b).length = min a.length b.length := by simp [xorBytes]

@[simp] theorem length_permBytes (ix : List Nat) (st : List Byte) : (permBytes ix st).length = ix.length := by simp [permBytes]

@[simp] theorem length_mixCols (co st : List Byte) : (mixCols co st).length = 16 := by simp [mixCols]

/-- Every word of a key schedule in the making has four bytes. -/
def WordsOk (n : Nat) (ws : Array (List Byte)) : Prop := ws.size = n ∧ ∀ i, i < n → (ws.getD i []).length = 4

theorem keyWord_ok {ws : Array (List Byte)} {n : Nat} (h : WordsOk n ws) (hn : 8 ≤ n) : WordsOk (n + 1) (keyWord ws n) := by
  obtain ⟨hs, hw⟩ := h
  have h1 := hw (n - 1) (by omega)
  have h8 := hw (n - 8) (by omega)
  have key : ∀ t : List Byte, t.length = 4 → WordsOk (n + 1) (ws.push (xorBytes (ws.getD (n - 8) []) t)) := by
    intro t ht
    refine ⟨by simp [hs], fun i hi => ?_⟩
    by_cases e : i = n
    · subst e
      simp [Array.getD, hs, Array.getElem_push] at *
      omega
    · have hi' : i < n := by omega
      have := hw i hi'
      simp only [Array.getD, hs, hi', Array.size_push, hi, dite_true] at this ⊢
      rw [Array.getInternal_eq_getElem, Array.getElem_push_lt (by omega)]
      exact this
  unfold keyWord
  dsimp only
  refine key _ ?_
  split
  · simp only [length_xorBytes, List.length_map, List.length_append, List.length_drop, List.length_take, List.length_cons, List.length_nil, h1]; rfl
  · split
    · rw [List.length_map]; exact h1
    · exact h1

theorem keyWords_ok {ws : Array (List Byte)} (h : WordsOk 8 ws) : ∀ k, WordsOk (8 + k) ((List.range k).foldl (fun ws i => keyWord ws (i + 8)) ws)
  | 0 => h
  | k + 1 => by
    rw [List.range_succ, List.foldl_append]
    have := keyWord_ok (keyWords_ok h k) (Nat.le_add_right 8 k)
    rw [Nat.add_comm 8 k] at this
    rw [Nat.add_comm 8 (k + 1)]
    exact this

/-- Every round key of a 32-byte key has sixteen bytes. -/
theorem length_roundKeys {key : List Byte} (h : key.length = 32) : ∀ k ∈ roundKeys key, k.length = 16 := by
  intro k hk
  have w0 : WordsOk 8 ((List.range 8).map fun i => (key.drop (4 * i)).take 4).toArray := by
    refine ⟨by simp, fun i hi => ?_⟩
    simp [Array.getD, hi, h]
    omega
  have hw := (keyWords_ok w0 52).2
  simp only [roundKeys, List.mem_map, List.mem_range] at hk
  obtain ⟨r, hr, rfl⟩ := hk
  have a : ∀ j, j < 4 → (((List.range 52).foldl (fun ws i => keyWord ws (i + 8))
      ((List.range 8).map fun i => (key.drop (4 * i)).take 4).toArray).getD (4 * r + j) []).length = 4 := fun j hj => hw _ (by omega)
  generalize (List.range 52).foldl _ _ = ws at a
  have e : List.range 4 = [0, 1, 2, 3] := rfl
  rw [e]
  simp only [List.flatMap_cons, List.flatMap_nil, List.length_append, List.length_nil, a 0 (by decide), a 1 (by decide), a 2 (by decide), a 3 (by decide)]

theorem roundKeys_length (key : List Byte) : (roundKeys key).length = 15 := by simp [roundKeys]

theorem length_aesEncWith {rks : List (List Byte)} (hr : rks ≠ []) (h : ∀ k ∈ rks, k.length = 16) (blk : List Byte) :
    (aesEncWith rks blk).length = 16 := by
  have hl : (rks.getLastD []).length = 16 := by
    have : rks.getLastD [] = rks.getLast hr := by cases rks with
      | nil => exact absurd rfl hr
      | cons a r => simp [List.getLastD]
    rw [this]
    exact h _ (List.getLast_mem hr)
  rw [aesEncWith, length_xorBytes, length_permBytes, hl]
  rfl

theorem length_cmacChain {rks : List (List Byte)} (hr : rks ≠ []) (h : ∀ k ∈ rks, k.length = 16) :
    ∀ n c m, c.length = 16 → (cmacChain rks n c m).length = 16
  | 0, _, _, hc => hc
  | n + 1, _, _, _ => length_cmacChain hr h n _ _ (length_aesEncWith hr h _)

/-- CMAC's chain over a message, cut after n blocks. -/
theorem cmacChain_add (rks : List (List Byte)) (k : Nat) : ∀ n c m, cmacChain rks (n + k) c m = cmacChain rks k (cmacChain rks n c m) (m.drop (16 * n))
  | 0, c, m => by simp [cmacChain]
  | n + 1, c, m => by
    rw [Nat.add_right_comm, cmacChain, cmacChain_add rks k n, cmacChain, List.drop_drop]
    congr 2
    omega

/-- What stands after its blocks does not matter to a chain. -/
theorem cmacChain_append (rks : List (List Byte)) : ∀ n c m r, 16 * n ≤ m.length → cmacChain rks n c (m ++ r) = cmacChain rks n c m
  | 0, _, _, _, _ => rfl
  | n + 1, c, m, r, h => by
    have h16 : 16 ≤ m.length := by omega
    rw [cmacChain, cmacChain, List.take_append_of_le_length h16, List.drop_append_of_le_length h16]
    exact cmacChain_append rks n _ _ r (by simp; omega)

theorem length_cmac {key : List Byte} (h : key.length = 32) (msg : List Byte) : (cmac key msg).length = 16 := by
  have hr : roundKeys key ≠ [] := fun e => by have := roundKeys_length key; rw [e] at this; simp at this
  rw [cmac, cmacLast]
  exact length_aesEncWith hr (length_roundKeys h) _

/-- Keys that the key-derivation function gives have 32 bytes. -/
theorem length_kdf {key : List Byte} (h : key.length = 32) (label ctx : List Byte) : (kdf key label ctx).length = 32 := by
  simp [kdf, length_cmac h]

@[simp] theorem length_sealKey (secret : BitVec 256) (vol : BitVec 12) : (sealKey secret vol).length = 32 :=
  length_kdf (by simp [keyBytes]) _ _

end Sys2Proof.Machine
end

