-- ==== Sys2Proof/Laws/Keep.lean ====
section
/-!
SUPPORT. What an operation keeps: the relation behind every frame and whole-machine invariant, and how it composes.
-/
namespace Sys2Proof.Machine

/-! ### The lists of fixed length -/

/-- Lengths of the lists of a part that stand for a fixed number of things. -/
def Pins.lens (x : Pins) : List Nat := [x.perst.length, x.wake.length]
def Hif.lens (x : Hif) : List Nat := [x.ports.length]
def Vlt.lens (x : Vlt) : List Nat := [x.areas.length, x.cycles.length]
def Mgt.lens (x : Mgt) : List Nat := [x.slots.length, x.dir.valid.length, x.dirNvm.length, x.inj.length]
def Evr.lens (x : Evr) : List Nat := [x.cursors.length, x.curLo.length]
def Dmv.lens (x : Dmv) : List Nat := [x.slotsUsed.length]
def Rop.lens (x : Rop) : List Nat := [x.wins.length, x.winsStg.length]
def Mbr.lens (x : Mbr) : List Nat := [x.linkUp.length]
def Tru.lens (x : Tru) : List Nat := [x.recNvm.length]

/-- A state whose parts have the lengths of a shaped one is shaped. -/
theorem State.Shaped.of {s t : State} (w : s.Shaped) (hp : t.pins.lens = s.pins.lens) (hh : t.hif.lens = s.hif.lens) (hv : t.vlt.lens = s.vlt.lens)
    (hm : t.mgt.lens = s.mgt.lens) (he : t.evr.lens = s.evr.lens) (hd : t.dmv.lens = s.dmv.lens) (hr : t.rop.lens = s.rop.lens) (hb : t.mbr.lens = s.mbr.lens)
    (ht : t.tru.lens = s.tru.lens) :
    t.Shaped := by
  simp only [Pins.lens, Hif.lens, Vlt.lens, Mgt.lens, Evr.lens, Dmv.lens, Rop.lens, Mbr.lens, Tru.lens, List.cons.injEq, and_true] at hp hh hv hm he hd hr hb ht
  exact ⟨⟨hp.1.trans w.pins.1, hp.2.trans w.pins.2⟩, hh.trans w.hif, ⟨hv.1.trans w.vlt.1, hv.2.trans w.vlt.2⟩,
    ⟨hm.1.trans w.mgt.1, hm.2.1.trans w.mgt.2.1, hm.2.2.1.trans w.mgt.2.2.1, hm.2.2.2.trans w.mgt.2.2.2⟩, ⟨he.1.trans w.evr.1, he.2.trans w.evr.2⟩, hd.trans w.dmv,
    ⟨hr.1.trans w.rop.1, hr.2.trans w.rop.2⟩, hb.trans w.mbr, ht.trans w.tru⟩

/-- An operation that turns `s` into `t` writes only the parts `ws`; it touches neither the queue nor the part, blows fuses but mends none, and keeps the
staging memory canonical and the lists of fixed length at their lengths. -/
structure Keep (s t : State) (ws : List Sec) : Prop where
  pending : t.pending = s.pending
  part    : t.part = s.part
  fw      : s.tru.fwFuses ≤ t.tru.fwFuses
  idx     : s.tru.idxFuses ≤ t.tru.idxFuses
  wf      : Memory.wf s.mgt.staging = true → Memory.wf t.mgt.staging = true
  shape   : s.Shaped → t.Shaped
  same    : ∀ k, k ∉ ws → k.same s t

/-- A list of parts within another, as a test. -/
def within (vs ws : List Sec) : Bool := vs.all fun k => ws.contains k

theorem within_mem {vs ws : List Sec} (h : within vs ws = true) {k : Sec} (hk : k ∈ vs) : k ∈ ws := by
  have := (List.all_eq_true.mp h) k hk
  simpa using this

theorem within_trans {us vs ws : List Sec} (h : within us vs = true) (h' : within vs ws = true) : within us ws = true := by
  refine List.all_eq_true.mpr fun k hk => ?_
  simpa using within_mem h' (within_mem h hk)

theorem Sec.same_refl (k : Sec) (s : State) : k.same s s := by
  cases k <;> simp [Sec.same]

theorem Sec.same_trans {k : Sec} {s t u : State} (h : k.same s t) (h' : k.same t u) : k.same s u := by
  cases k <;> simp_all [Sec.same]

theorem Keep.refl (s : State) (ws : List Sec) : Keep s s ws :=
  ⟨rfl, rfl, Nat.le_refl _, Nat.le_refl _, id, id, fun k _ => k.same_refl s⟩

theorem Keep.trans {s t u : State} {ws : List Sec} (h : Keep s t ws) (h' : Keep t u ws) : Keep s u ws :=
  ⟨h'.pending.trans h.pending, h'.part.trans h.part, Nat.le_trans h.fw h'.fw, Nat.le_trans h.idx h'.idx, fun w => h'.wf (h.wf w),
   fun w => h'.shape (h.shape w),
   fun k hk => Sec.same_trans (h.same k hk) (h'.same k hk)⟩

theorem Keep.mono {s t : State} {vs ws : List Sec} (h : Keep s t vs) (hw : within vs ws = true) : Keep s t ws :=
  ⟨h.pending, h.part, h.fw, h.idx, h.wf, h.shape, fun k hk => h.same k fun hv => hk (within_mem hw hv)⟩

/-- One more operation after a change. -/
theorem Keep.app {s u t : State} {vs ws : List Sec} (h : Keep u t vs) (hw : within vs ws = true) (h' : Keep s u ws) : Keep s t ws :=
  h'.trans (h.mono hw)

/-- One more record update after a change. -/
theorem Keep.lit {s u t : State} {ws : List Sec} (hp : t.pending = u.pending) (h' : Keep s u ws) (hq : t.part = u.part)
    (hf : u.tru.fwFuses ≤ t.tru.fwFuses) (hi : u.tru.idxFuses ≤ t.tru.idxFuses) (hm : Memory.wf u.mgt.staging = true → Memory.wf t.mgt.staging = true)
    (hg : u.Shaped → t.Shaped) (hs : ∀ k, k ∉ ws → k.same u t) : Keep s t ws :=
  h'.trans ⟨hp, hq, hf, hi, hm, hg, hs⟩

/-- The state of a pair that an operation answers. -/
theorem Keep.fst {α : Type} {s t : State} {a : α} {p : State × α} {ws : List Sec} (h : p = (t, a)) (hk : Keep s p.1 ws) : Keep s t ws := by
  subst h; exact hk

theorem Keep.snd {α : Type} {s t : State} {a : α} {p : α × State} {ws : List Sec} (h : p = (a, t)) (hk : Keep s p.2 ws) : Keep s t ws := by
  subst h; exact hk

theorem Keep.foldl {α : Type} {s : State} {ws : List Sec} {f : State → α → State} (hf : ∀ v a, Keep s v ws → Keep s (f v a) ws) :
    ∀ (l : List α) (u : State), Keep s u ws → Keep s (l.foldl f u) ws
  | [], _, h => h
  | a :: r, u, h => Keep.foldl hf r (f u a) (hf u a h)

theorem Keep.each {α : Type} {s u : State} {ws : List Sec} {l : List α} {f : State → α → State} (h : Keep s u ws)
    (hf : ∀ v a, Keep s v ws → Keep s (f v a) ws) : Keep s (u.each l f) ws := Keep.foldl hf l u h

theorem Keep.iff {s u : State} {ws : List Sec} {b : Bool} {f : State → State} (h : Keep s u ws) (hf : ∀ v, Keep s v ws → Keep s (f v) ws) :
    Keep s (u.iff b f) ws := by
  unfold State.iff; split
  · exact hf u h
  · exact h

end Sys2Proof.Machine
end

