-- ==== Sys2Proof/Laws/Ops.lean ====
section
/-!
SUPPORT. Laws of the shared operations of Ops: tables and the staging memory.
-/
namespace Sys2Proof.Machine
theorem Memory.wf_cons (a : Nat) (b : Byte) (r : List Host.Cell) :
    Memory.wf ((a, b) :: r) = true ↔ b ≠ erasedByte ∧ (∀ c ∈ r.head?, a < c.1) ∧ Memory.wf r = true := by
  cases r with
  | nil => simp [Memory.wf]
  | cons d r' => obtain ⟨a', b'⟩ := d; simp [Memory.wf, and_assoc]

/-- A byte written above `x` leaves the memory above `x`. -/
theorem Memory.write_above {x a : Nat} {b : Byte} {m : List Host.Cell} (hx : x < a) (hm : ∀ c ∈ m.head?, x < c.1) (hw : Memory.wf m = true) :
    ∀ c ∈ (Memory.write m a b).head?, x < c.1 := by
  cases m with
  | nil => unfold Memory.write; split <;> simp [hx]
  | cons d r =>
    obtain ⟨a', b'⟩ := d
    have h' : x < a' := by simpa using hm
    have hr := (Memory.wf_cons a' b' r).mp hw
    unfold Memory.write
    split
    · split <;> simp [hx, h']
    · split
      · split
        · intro c hc; have := hr.2.1 c hc; omega
        · simp [hx]
      · simp [h']

/-- Writing one byte keeps the canonical form of the staging memory. -/
theorem Memory.write_wf (a : Nat) (b : Byte) : ∀ m : List Host.Cell, Memory.wf m = true → Memory.wf (Memory.write m a b) = true
  | [], _ => by
    unfold Memory.write
    split
    · rfl
    · rename_i hb; simp [Memory.wf, hb]
  | (a', b') :: r, h => by
    have h3 := (Memory.wf_cons a' b' r).mp h
    unfold Memory.write
    split
    · rename_i h1
      split
      · exact h
      · rename_i h2; exact (Memory.wf_cons _ _ _).mpr ⟨h2, by simpa using h1, h⟩
    · split
      · rename_i h1 h2
        split
        · exact h3.2.2
        · rename_i h4; exact (Memory.wf_cons _ _ _).mpr ⟨h4, h2 ▸ h3.2.1, h3.2.2⟩
      · rename_i h1 h2
        exact (Memory.wf_cons _ _ _).mpr ⟨h3.1, Memory.write_above (by omega) h3.2.1 h3.2.2, Memory.write_wf a b r h3.2.2⟩

theorem Memory.read_cons (a : Nat) (b : Byte) (r : List Host.Cell) (x : Nat) : Memory.read ((a, b) :: r) x = if a = x then b else Memory.read r x := rfl

/-- The bytes of the memory after a write: the address written reads the byte, every other address what it read before. -/
theorem Memory.read_above {a : Nat} : ∀ m : List Host.Cell, Memory.wf m = true → (∀ c ∈ m.head?, a < c.1) → Memory.read m a = erasedByte
  | [], _, _ => rfl
  | (a', b') :: r, h, ha => by
    have h3 := (Memory.wf_cons a' b' r).mp h
    have : a < a' := by simpa using ha
    unfold Memory.read
    rw [if_neg (by omega)]
    exact Memory.read_above r h3.2.2 fun c hc => by have := h3.2.1 c hc; omega

theorem Memory.read_write (a : Nat) (b : Byte) (x : Nat) : ∀ m : List Host.Cell, Memory.wf m = true →
    Memory.read (Memory.write m a b) x = if x = a then b else Memory.read m x
  | [], _ => by
    unfold Memory.write
    by_cases hb : b = erasedByte <;> by_cases hx : x = a <;> simp [hb, hx, Memory.read, eq_comm] <;> omega
  | (a', b') :: r, h => by
    have h3 := (Memory.wf_cons a' b' r).mp h
    unfold Memory.write
    split
    · rename_i h1
      have habs : Memory.read ((a', b') :: r) a = erasedByte := Memory.read_above _ h (by simpa using h1)
      split
      · rename_i hb
        by_cases hx : x = a
        · subst hx; rw [if_pos rfl, habs, hb]
        · rw [if_neg hx]
      · by_cases hx : x = a
        · subst hx; simp [Memory.read]
        · rw [if_neg hx, Memory.read_cons a b, if_neg (by omega)]
    · split
      · rename_i h1 h2
        subst h2
        split
        · rename_i hb
          by_cases hx : x = a
          · subst hx; rw [if_pos rfl, hb]; exact Memory.read_above r h3.2.2 h3.2.1
          · rw [if_neg hx, Memory.read_cons, if_neg (by omega)]
        · by_cases hx : x = a
          · subst hx; simp [Memory.read]
          · rw [if_neg hx, Memory.read_cons, Memory.read_cons, if_neg (by omega), if_neg (by omega)]
      · rename_i h1 h2
        have ih := Memory.read_write a b x r h3.2.2
        by_cases hx : x = a'
        · subst hx
          rw [if_neg (by omega)]; simp [Memory.read]
        · rw [Memory.read_cons, Memory.read_cons, if_neg (fun e => hx e.symm), ih, if_neg (fun e : a' = x => hx e.symm)]

/-- Writing bytes keeps the canonical form. -/
theorem Memory.writeAll_wf : ∀ (bs : List Byte) (a : Nat) (m : List Host.Cell), Memory.wf m = true → Memory.wf (Memory.writeAll m a bs) = true
  | [], _, _, h => h
  | b :: r, a, m, h => Memory.writeAll_wf r (a + 1) _ (Memory.write_wf a b m h)

/-- The bytes after writing several: those written, and everything else as before. -/
theorem Memory.read_writeAll (x : Nat) : ∀ (bs : List Byte) (a : Nat) (m : List Host.Cell), Memory.wf m = true →
    Memory.read (Memory.writeAll m a bs) x = if a ≤ x ∧ x < a + bs.length then bs.getD (x - a) 0 else Memory.read m x
  | [], a, m, _ => by simp [Memory.writeAll] <;> omega
  | b :: r, a, m, h => by
    unfold Memory.writeAll
    rw [Memory.read_writeAll x r (a + 1) _ (Memory.write_wf a b m h), Memory.read_write a b x m h]
    by_cases hx : x = a
    · subst hx; rw [if_neg (by omega), if_pos rfl, if_pos (by simp)]; simp
    · by_cases h2 : a + 1 ≤ x ∧ x < a + 1 + r.length
      · rw [if_pos h2, if_pos (by simp; omega)]
        obtain ⟨k, rfl⟩ := Nat.exists_eq_add_of_le h2.1
        simp [show a + 1 + k - a = k + 1 by omega]
      · rw [if_neg h2, if_neg hx, if_neg (by simp; omega)]

/-! ### Sorting -/

theorem mem_insertBy {α : Type} {le : α → α → Bool} {a x : α} : ∀ l : List α, x ∈ insertBy le a l ↔ x = a ∨ x ∈ l
  | [] => by simp [insertBy]
  | b :: r => by
    unfold insertBy
    split
    · simp
    · rw [List.mem_cons, mem_insertBy r, List.mem_cons]; exact or_left_comm

theorem length_insertBy {α : Type} {le : α → α → Bool} {a : α} : ∀ l : List α, (insertBy le a l).length = l.length + 1
  | [] => rfl
  | b :: r => by
    unfold insertBy
    split
    · rfl
    · rw [List.length_cons, length_insertBy r]; rfl

/-- Sorting keeps the elements. -/
@[simp] theorem mem_sortBy {α : Type} {le : α → α → Bool} {x : α} : ∀ l : List α, x ∈ sortBy l le ↔ x ∈ l
  | [] => Iff.rfl
  | b :: r => by
    show x ∈ insertBy le b (sortBy r le) ↔ _
    rw [mem_insertBy, mem_sortBy r, List.mem_cons]

/-- Sorting keeps their number. -/
@[simp] theorem length_sortBy {α : Type} {le : α → α → Bool} : ∀ l : List α, (sortBy l le).length = l.length
  | [] => rfl
  | b :: r => (length_insertBy _).trans (congrArg (· + 1) (length_sortBy r))

/-! ### The lowest free number -/

theorem lowestFree_some {used : List Nat} {slot : Nat} : ∀ {fuel first : Nat}, first ≤ slot → slot < first + fuel → slot ∉ used →
    (∀ i, first ≤ i → i < slot → i ∈ used) → lowestFree used first fuel = some slot
  | 0, _, h1, h2, _, _ => absurd h2 (Nat.not_lt.mpr h1)
  | fuel + 1, first, h1, h2, h3, h4 => by
    unfold lowestFree
    by_cases e : first = slot
    · subst e; simp [h3]
    · simp only [List.contains_iff_mem, h4 first (Nat.le_refl _) (by omega), if_true]
      exact lowestFree_some (by omega) (by omega) h3 fun i a b => h4 i (by omega) b

theorem lowestFree_none {used : List Nat} : ∀ {fuel first : Nat}, (∀ i, first ≤ i → i < first + fuel → i ∈ used) → lowestFree used first fuel = none
  | 0, _, _ => rfl
  | fuel + 1, first, h => by
    unfold lowestFree
    simp only [List.contains_iff_mem, h first (Nat.le_refl _) (by omega), if_true]
    exact lowestFree_none fun i a b => h i (by omega) (by omega)

end Sys2Proof.Machine
end

