-- ==== Sys2Proof/Laws/KeepSet.lean ====
section
/-!
SUPPORT. What each form of record update keeps, one lemma for each set of parts that the model writes together.
-/
namespace Sys2Proof.Machine

theorem Tru.fwFuses_mk {x0 : TrustNums} {x1 : BitVec 32} {x2 : List (List Byte)} {x3 : Bool} {x4 : BitVec 320} {x5 : BitVec 32} {x6 : Nat} {x7 : Option (BitVec 256)} {x8 : Option (BitVec 256)} {x9 : Option (BitVec 256)} {x10 : Option (List Byte × List Byte)} {x11 : Nat} {x12 : Nat} {x13 : Nat} {x14 : Nat} {x15 : Nat} {x16 : Nat} {x17 : Bool} {x18 : Bool} {x19 : Bool} {x20 : Bool} {x21 : List SigReq} {x22 : Nat} : (Tru.mk x0 x1 x2 x3 x4 x5 x6 x7 x8 x9 x10 x11 x12 x13 x14 x15 x16 x17 x18 x19 x20 x21 x22).fwFuses = x14 := rfl
theorem Tru.idxFuses_mk {x0 : TrustNums} {x1 : BitVec 32} {x2 : List (List Byte)} {x3 : Bool} {x4 : BitVec 320} {x5 : BitVec 32} {x6 : Nat} {x7 : Option (BitVec 256)} {x8 : Option (BitVec 256)} {x9 : Option (BitVec 256)} {x10 : Option (List Byte × List Byte)} {x11 : Nat} {x12 : Nat} {x13 : Nat} {x14 : Nat} {x15 : Nat} {x16 : Nat} {x17 : Bool} {x18 : Bool} {x19 : Bool} {x20 : Bool} {x21 : List SigReq} {x22 : Nat} : (Tru.mk x0 x1 x2 x3 x4 x5 x6 x7 x8 x9 x10 x11 x12 x13 x14 x15 x16 x17 x18 x19 x20 x21 x22).idxFuses = x13 := rfl
theorem Mgt.slots_mk {x0 : Nat} {x1 : Nat} {x2 : Bool} {x3 : Bool} {x4 : Bool} {x5 : Bool} {x6 : Nat} {x7 : Directory} {x8 : List (List Byte)} {x9 : Nat} {x10 : List NvmSlot} {x11 : List Host.Cell} {x12 : Option ObjKind} {x13 : Bool} {x14 : Bool} {x15 : Option Image} {x16 : Option SignedObj} {x17 : Int} {x18 : Nat} {x19 : Option Nat} {x20 : Int} {x21 : Bool} {x22 : Bool} {x23 : List (BitVec 16 × Nat)} {x24 : List AdmWait} {x25 : Option Activation} {x26 : List (AdmSrc × BitVec 16 × Instr)} {x27 : List InjSlot} {x28 : Nat} {x29 : Bool} {x30 : Bool} : (Mgt.mk x0 x1 x2 x3 x4 x5 x6 x7 x8 x9 x10 x11 x12 x13 x14 x15 x16 x17 x18 x19 x20 x21 x22 x23 x24 x25 x26 x27 x28 x29 x30).slots = x10 := rfl
theorem Mgt.dir_mk {x0 : Nat} {x1 : Nat} {x2 : Bool} {x3 : Bool} {x4 : Bool} {x5 : Bool} {x6 : Nat} {x7 : Directory} {x8 : List (List Byte)} {x9 : Nat} {x10 : List NvmSlot} {x11 : List Host.Cell} {x12 : Option ObjKind} {x13 : Bool} {x14 : Bool} {x15 : Option Image} {x16 : Option SignedObj} {x17 : Int} {x18 : Nat} {x19 : Option Nat} {x20 : Int} {x21 : Bool} {x22 : Bool} {x23 : List (BitVec 16 × Nat)} {x24 : List AdmWait} {x25 : Option Activation} {x26 : List (AdmSrc × BitVec 16 × Instr)} {x27 : List InjSlot} {x28 : Nat} {x29 : Bool} {x30 : Bool} : (Mgt.mk x0 x1 x2 x3 x4 x5 x6 x7 x8 x9 x10 x11 x12 x13 x14 x15 x16 x17 x18 x19 x20 x21 x22 x23 x24 x25 x26 x27 x28 x29 x30).dir = x7 := rfl
theorem Mgt.dirNvm_mk {x0 : Nat} {x1 : Nat} {x2 : Bool} {x3 : Bool} {x4 : Bool} {x5 : Bool} {x6 : Nat} {x7 : Directory} {x8 : List (List Byte)} {x9 : Nat} {x10 : List NvmSlot} {x11 : List Host.Cell} {x12 : Option ObjKind} {x13 : Bool} {x14 : Bool} {x15 : Option Image} {x16 : Option SignedObj} {x17 : Int} {x18 : Nat} {x19 : Option Nat} {x20 : Int} {x21 : Bool} {x22 : Bool} {x23 : List (BitVec 16 × Nat)} {x24 : List AdmWait} {x25 : Option Activation} {x26 : List (AdmSrc × BitVec 16 × Instr)} {x27 : List InjSlot} {x28 : Nat} {x29 : Bool} {x30 : Bool} : (Mgt.mk x0 x1 x2 x3 x4 x5 x6 x7 x8 x9 x10 x11 x12 x13 x14 x15 x16 x17 x18 x19 x20 x21 x22 x23 x24 x25 x26 x27 x28 x29 x30).dirNvm = x8 := rfl
theorem Mgt.staging_mk {x0 : Nat} {x1 : Nat} {x2 : Bool} {x3 : Bool} {x4 : Bool} {x5 : Bool} {x6 : Nat} {x7 : Directory} {x8 : List (List Byte)} {x9 : Nat} {x10 : List NvmSlot} {x11 : List Host.Cell} {x12 : Option ObjKind} {x13 : Bool} {x14 : Bool} {x15 : Option Image} {x16 : Option SignedObj} {x17 : Int} {x18 : Nat} {x19 : Option Nat} {x20 : Int} {x21 : Bool} {x22 : Bool} {x23 : List (BitVec 16 × Nat)} {x24 : List AdmWait} {x25 : Option Activation} {x26 : List (AdmSrc × BitVec 16 × Instr)} {x27 : List InjSlot} {x28 : Nat} {x29 : Bool} {x30 : Bool} : (Mgt.mk x0 x1 x2 x3 x4 x5 x6 x7 x8 x9 x10 x11 x12 x13 x14 x15 x16 x17 x18 x19 x20 x21 x22 x23 x24 x25 x26 x27 x28 x29 x30).staging = x11 := rfl
theorem Pins.lens_mk {r : Pins} {x0 : Bool} {x1 : Bool} {x2 : Bool} {x3 : Bool} {x4 : Bool} {x5 : Bool} {x6 : Bool} {x8 : Bool} {x10 : BitVec 8} : (Pins.mk x0 x1 x2 x3 x4 x5 x6 r.perst x8 r.wake x10).lens = r.lens := rfl
theorem Hif.lens_mk {r : Hif} {x1 : List (BitVec 12)} {x2 : BitVec 32} {x3 : List (List Byte)} {x4 : List HostOut} : (Hif.mk r.ports x1 x2 x3 x4).lens = r.lens := rfl
theorem Vlt.lens_mk {r : Vlt} {x0 : List Nat} {x1 : List (Nat × Nat)} {x3 : Nat} {x4 : Bool} {x5 : Bool} {x7 : Nat} {x8 : Nat} {x9 : Nat} {x10 : BitVec 5} {x11 : Bool} {x12 : Bool} {x13 : Nat} {x14 : Nat} {x15 : Bool} {x16 : Bool} {x17 : Bool} {x18 : Option Nat} {x19 : TrustNums} {x20 : List Nat} {x21 : Nat} {x22 : Nat} {x23 : Option Nat} : (Vlt.mk x0 x1 r.areas x3 x4 x5 r.cycles x7 x8 x9 x10 x11 x12 x13 x14 x15 x16 x17 x18 x19 x20 x21 x22 x23).lens = r.lens := rfl
theorem Mgt.lens_mk {r : Mgt} {x0 : Nat} {x1 : Nat} {x2 : Bool} {x3 : Bool} {x4 : Bool} {x5 : Bool} {x6 : Nat} {x9 : Nat} {x11 : List Host.Cell} {x12 : Option ObjKind} {x13 : Bool} {x14 : Bool} {x15 : Option Image} {x16 : Option SignedObj} {x17 : Int} {x18 : Nat} {x19 : Option Nat} {x20 : Int} {x21 : Bool} {x22 : Bool} {x23 : List (BitVec 16 × Nat)} {x24 : List AdmWait} {x25 : Option Activation} {x26 : List (AdmSrc × BitVec 16 × Instr)} {x28 : Nat} {x29 : Bool} {x30 : Bool} : (Mgt.mk x0 x1 x2 x3 x4 x5 x6 r.dir r.dirNvm x9 r.slots x11 x12 x13 x14 x15 x16 x17 x18 x19 x20 x21 x22 x23 x24 x25 x26 r.inj x28 x29 x30).lens = r.lens := rfl
theorem Evr.lens_mk {r : Evr} {x0 : Nat} {x1 : Nat} {x2 : Bool} {x3 : List EvRec} {x4 : List (Nat × UnitLog)} {x5 : Bool} {x6 : List EvRec} {x7 : List EvRec} {x8 : List EvRec} {x9 : Nat} {x10 : Nat} {x11 : Nat} {x12 : Bool} {x13 : Nat} {x14 : Nat} {x15 : Bool} {x16 : Option Nat} {x17 : Bool} {x20 : List (AdmSrc × BitVec 16)} : (Evr.mk x0 x1 x2 x3 x4 x5 x6 x7 x8 x9 x10 x11 x12 x13 x14 x15 x16 x17 r.cursors r.curLo x20).lens = r.lens := rfl
theorem Dmv.lens_mk {r : Dmv} {x0 : List (Nat × Chan)} {x1 : List DmvRec} {x3 : List (Purpose × DmvSpace × Nat × Nat × Nat)} {x4 : Nat} {x5 : List ((Bool × Nat) × Nat)} : (Dmv.mk x0 x1 r.slotsUsed x3 x4 x5).lens = r.lens := rfl
theorem Rop.lens_mk {r : Rop} {x0 : List (BitVec 12 × Peer)} {x1 : Option Nat} {x2 : List (BitVec 128)} {x3 : PartnerSt} {x4 : Bool} {x5 : Bool} {x6 : Option Nat} {x7 : List (Nat × BitVec 16 × Nat)} {x8 : List (BitVec 16)} {x9 : Option Nat} {x10 : Option BelaySetupPayload} {x11 : Bool} {x14 : Bool} {x15 : Option Nat} {x16 : Nat} {x17 : List TxFrame} {x18 : List (Nat × Block)} {x19 : List (SealRec × List (BitVec 32 × JRec))} {x20 : List (BitVec 32 × JRec)} {x21 : List RxSeal} {x22 : List (BitVec 12 × DirEntry)} {x23 : List (BitVec 12 × List DirEntry)} {x24 : List DirEntry} {x25 : List Claim} {x26 : BitVec 64} {x27 : List (BitVec 32 × Origin × List RingUnit × BitVec 16)} {x28 : List (BitVec 64 × Stat × BitVec 32)} {x29 : Option YieldSt} {x30 : List Takeover} {x31 : List PoolMeta} : (Rop.mk x0 x1 x2 x3 x4 x5 x6 x7 x8 x9 x10 x11 r.wins r.winsStg x14 x15 x16 x17 x18 x19 x20 x21 x22 x23 x24 x25 x26 x27 x28 x29 x30 x31).lens = r.lens := rfl
theorem Mbr.lens_mk {r : Mbr} {x1 : List (Nat × Nat)} {x2 : List IMember} {x3 : List MCmd} {x4 : List Nat} {x5 : List (Nat × MStatus × MPayload)} {x6 : Nat} {x7 : List MReq} {x8 : List Nat} {x9 : Bool} {x10 : List (Nat × Nat)} : (Mbr.mk r.linkUp x1 x2 x3 x4 x5 x6 x7 x8 x9 x10).lens = r.lens := rfl
theorem Tru.lens_mk {r : Tru} {x0 : TrustNums} {x1 : BitVec 32} {x3 : Bool} {x4 : BitVec 320} {x5 : BitVec 32} {x6 : Nat} {x7 : Option (BitVec 256)} {x8 : Option (BitVec 256)} {x9 : Option (BitVec 256)} {x10 : Option (List Byte × List Byte)} {x11 : Nat} {x12 : Nat} {x13 : Nat} {x14 : Nat} {x15 : Nat} {x16 : Nat} {x17 : Bool} {x18 : Bool} {x19 : Bool} {x20 : Bool} {x21 : List SigReq} {x22 : Nat} : (Tru.mk x0 x1 r.recNvm x3 x4 x5 x6 x7 x8 x9 x10 x11 x12 x13 x14 x15 x16 x17 x18 x19 x20 x21 x22).lens = r.lens := rfl
theorem Keep.set_cch {s u : State} {ws : List Sec} {x0 : Cch} (h : Keep s u ws) (hw : within [.cch] ws = true) :
    Keep s { u with cch := x0 } ws :=
  h.trans ⟨rfl, rfl, Nat.le_refl _, Nat.le_refl _, id, fun w => w.of rfl rfl rfl rfl rfl rfl rfl rfl rfl, fun k hk => by cases k <;> first | exact absurd (within_mem hw (by decide)) hk | exact rfl | exact ⟨rfl, rfl, rfl⟩⟩

theorem Keep.set_cch_jnl {s u : State} {ws : List Sec} {x0 : Cch} {x1 : Jnl} (h : Keep s u ws) (hw : within [.cch, .jnl] ws = true) :
    Keep s { u with cch := x0, jnl := x1 } ws :=
  h.trans ⟨rfl, rfl, Nat.le_refl _, Nat.le_refl _, id, fun w => w.of rfl rfl rfl rfl rfl rfl rfl rfl rfl, fun k hk => by cases k <;> first | exact absurd (within_mem hw (by decide)) hk | exact rfl | exact ⟨rfl, rfl, rfl⟩⟩

theorem Keep.set_cch_jnl_rop {s u : State} {ws : List Sec} {x0 : Cch} {x1 : Jnl} {x2 : Rop} (h : Keep s u ws) (hw : within [.cch, .jnl, .rop] ws = true) (gr : x2.lens = u.rop.lens) :
    Keep s { u with cch := x0, jnl := x1, rop := x2 } ws :=
  h.trans ⟨rfl, rfl, Nat.le_refl _, Nat.le_refl _, id, fun w => w.of rfl rfl rfl rfl rfl rfl gr rfl rfl, fun k hk => by cases k <;> first | exact absurd (within_mem hw (by decide)) hk | exact rfl | exact ⟨rfl, rfl, rfl⟩⟩

theorem Keep.set_cch_pools_seq_mbr_rop {s u : State} {ws : List Sec} {x0 : Cch} {x1 : List Pool} {x2 : Seq} {x3 : Mbr} {x4 : Rop} (h : Keep s u ws) (hw : within [.cch, .pools, .seq, .mbr, .rop] ws = true) (gb : x3.lens = u.mbr.lens) (gr : x4.lens = u.rop.lens) :
    Keep s { u with cch := x0, pools := x1, seq := x2, mbr := x3, rop := x4 } ws :=
  h.trans ⟨rfl, rfl, Nat.le_refl _, Nat.le_refl _, id, fun w => w.of rfl rfl rfl rfl rfl rfl gr gb rfl, fun k hk => by cases k <;> first | exact absurd (within_mem hw (by decide)) hk | exact rfl | exact ⟨rfl, rfl, rfl⟩⟩

theorem Keep.set_cod {s u : State} {ws : List Sec} {x0 : Cod} (h : Keep s u ws) (hw : within [.cod] ws = true) :
    Keep s { u with cod := x0 } ws :=
  h.trans ⟨rfl, rfl, Nat.le_refl _, Nat.le_refl _, id, fun w => w.of rfl rfl rfl rfl rfl rfl rfl rfl rfl, fun k hk => by cases k <;> first | exact absurd (within_mem hw (by decide)) hk | exact rfl | exact ⟨rfl, rfl, rfl⟩⟩

theorem Keep.set_dmv {s u : State} {ws : List Sec} {x0 : Dmv} (h : Keep s u ws) (hw : within [.dmv] ws = true) (gd : x0.lens = u.dmv.lens) :
    Keep s { u with dmv := x0 } ws :=
  h.trans ⟨rfl, rfl, Nat.le_refl _, Nat.le_refl _, id, fun w => w.of rfl rfl rfl rfl rfl gd rfl rfl rfl, fun k hk => by cases k <;> first | exact absurd (within_mem hw (by decide)) hk | exact rfl | exact ⟨rfl, rfl, rfl⟩⟩

theorem Keep.set_dmv_vlt_tru {s u : State} {ws : List Sec} {x0 : Dmv} {x1 : Vlt} {x2 : Tru} (h : Keep s u ws) (hw : within [.dmv, .vlt, .tru] ws = true) (hf : x2.fwFuses = u.tru.fwFuses) (hi : x2.idxFuses = u.tru.idxFuses) (gd : x0.lens = u.dmv.lens) (gv : x1.lens = u.vlt.lens) (gt : x2.lens = u.tru.lens) :
    Keep s { u with dmv := x0, vlt := x1, tru := x2 } ws :=
  h.trans ⟨rfl, rfl, Nat.le_of_eq hf.symm, Nat.le_of_eq hi.symm, id, fun w => w.of rfl rfl gv rfl rfl gd rfl rfl gt, fun k hk => by cases k <;> first | exact absurd (within_mem hw (by decide)) hk | exact rfl | exact ⟨rfl, rfl, rfl⟩⟩

theorem Keep.set_evr {s u : State} {ws : List Sec} {x0 : Evr} (h : Keep s u ws) (hw : within [.evr] ws = true) (ge : x0.lens = u.evr.lens) :
    Keep s { u with evr := x0 } ws :=
  h.trans ⟨rfl, rfl, Nat.le_refl _, Nat.le_refl _, id, fun w => w.of rfl rfl rfl rfl ge rfl rfl rfl rfl, fun k hk => by cases k <;> first | exact absurd (within_mem hw (by decide)) hk | exact rfl | exact ⟨rfl, rfl, rfl⟩⟩

theorem Keep.set_fix {s u : State} {ws : List Sec} {x0 : Fix} (h : Keep s u ws) (hw : within [.fix] ws = true) :
    Keep s { u with fix := x0 } ws :=
  h.trans ⟨rfl, rfl, Nat.le_refl _, Nat.le_refl _, id, fun w => w.of rfl rfl rfl rfl rfl rfl rfl rfl rfl, fun k hk => by cases k <;> first | exact absurd (within_mem hw (by decide)) hk | exact rfl | exact ⟨rfl, rfl, rfl⟩⟩

theorem Keep.set_fix_rop_vlt {s u : State} {ws : List Sec} {x0 : Fix} {x1 : Rop} {x2 : Vlt} (h : Keep s u ws) (hw : within [.fix, .rop, .vlt] ws = true) (gr : x1.lens = u.rop.lens) (gv : x2.lens = u.vlt.lens) :
    Keep s { u with fix := x0, rop := x1, vlt := x2 } ws :=
  h.trans ⟨rfl, rfl, Nat.le_refl _, Nat.le_refl _, id, fun w => w.of rfl rfl gv rfl rfl rfl gr rfl rfl, fun k hk => by cases k <;> first | exact absurd (within_mem hw (by decide)) hk | exact rfl | exact ⟨rfl, rfl, rfl⟩⟩

theorem Keep.set_fix_tru {s u : State} {ws : List Sec} {x0 : Fix} {x1 : Tru} (h : Keep s u ws) (hw : within [.fix, .tru] ws = true) (hf : x1.fwFuses = u.tru.fwFuses) (hi : x1.idxFuses = u.tru.idxFuses) (gt : x1.lens = u.tru.lens) :
    Keep s { u with fix := x0, tru := x1 } ws :=
  h.trans ⟨rfl, rfl, Nat.le_of_eq hf.symm, Nat.le_of_eq hi.symm, id, fun w => w.of rfl rfl rfl rfl rfl rfl rfl rfl gt, fun k hk => by cases k <;> first | exact absurd (within_mem hw (by decide)) hk | exact rfl | exact ⟨rfl, rfl, rfl⟩⟩

theorem Keep.set_freeCtr {s u : State} {ws : List Sec} {x0 : Nat} (h : Keep s u ws) (hw : within [.freeCtr] ws = true) :
    Keep s { u with freeCtr := x0 } ws :=
  h.trans ⟨rfl, rfl, Nat.le_refl _, Nat.le_refl _, id, fun w => w.of rfl rfl rfl rfl rfl rfl rfl rfl rfl, fun k hk => by cases k <;> first | exact absurd (within_mem hw (by decide)) hk | exact rfl | exact ⟨rfl, rfl, rfl⟩⟩

theorem Keep.set_hif {s u : State} {ws : List Sec} {x0 : Hif} (h : Keep s u ws) (hw : within [.hif] ws = true) (gh : x0.lens = u.hif.lens) :
    Keep s { u with hif := x0 } ws :=
  h.trans ⟨rfl, rfl, Nat.le_refl _, Nat.le_refl _, id, fun w => w.of rfl gh rfl rfl rfl rfl rfl rfl rfl, fun k hk => by cases k <;> first | exact absurd (within_mem hw (by decide)) hk | exact rfl | exact ⟨rfl, rfl, rfl⟩⟩

theorem Keep.set_jnl {s u : State} {ws : List Sec} {x0 : Jnl} (h : Keep s u ws) (hw : within [.jnl] ws = true) :
    Keep s { u with jnl := x0 } ws :=
  h.trans ⟨rfl, rfl, Nat.le_refl _, Nat.le_refl _, id, fun w => w.of rfl rfl rfl rfl rfl rfl rfl rfl rfl, fun k hk => by cases k <;> first | exact absurd (within_mem hw (by decide)) hk | exact rfl | exact ⟨rfl, rfl, rfl⟩⟩

theorem Keep.set_jnl_pools {s u : State} {ws : List Sec} {x0 : Jnl} {x1 : List Pool} (h : Keep s u ws) (hw : within [.jnl, .pools] ws = true) :
    Keep s { u with jnl := x0, pools := x1 } ws :=
  h.trans ⟨rfl, rfl, Nat.le_refl _, Nat.le_refl _, id, fun w => w.of rfl rfl rfl rfl rfl rfl rfl rfl rfl, fun k hk => by cases k <;> first | exact absurd (within_mem hw (by decide)) hk | exact rfl | exact ⟨rfl, rfl, rfl⟩⟩

theorem Keep.set_mbr {s u : State} {ws : List Sec} {x0 : Mbr} (h : Keep s u ws) (hw : within [.mbr] ws = true) (gb : x0.lens = u.mbr.lens) :
    Keep s { u with mbr := x0 } ws :=
  h.trans ⟨rfl, rfl, Nat.le_refl _, Nat.le_refl _, id, fun w => w.of rfl rfl rfl rfl rfl rfl rfl gb rfl, fun k hk => by cases k <;> first | exact absurd (within_mem hw (by decide)) hk | exact rfl | exact ⟨rfl, rfl, rfl⟩⟩

theorem Keep.set_mbr_freeCtr {s u : State} {ws : List Sec} {x0 : Mbr} {x1 : Nat} (h : Keep s u ws) (hw : within [.mbr, .freeCtr] ws = true) (gb : x0.lens = u.mbr.lens) :
    Keep s { u with mbr := x0, freeCtr := x1 } ws :=
  h.trans ⟨rfl, rfl, Nat.le_refl _, Nat.le_refl _, id, fun w => w.of rfl rfl rfl rfl rfl rfl rfl gb rfl, fun k hk => by cases k <;> first | exact absurd (within_mem hw (by decide)) hk | exact rfl | exact ⟨rfl, rfl, rfl⟩⟩

theorem Keep.set_mbr_rop {s u : State} {ws : List Sec} {x0 : Mbr} {x1 : Rop} (h : Keep s u ws) (hw : within [.mbr, .rop] ws = true) (gb : x0.lens = u.mbr.lens) (gr : x1.lens = u.rop.lens) :
    Keep s { u with mbr := x0, rop := x1 } ws :=
  h.trans ⟨rfl, rfl, Nat.le_refl _, Nat.le_refl _, id, fun w => w.of rfl rfl rfl rfl rfl rfl gr gb rfl, fun k hk => by cases k <;> first | exact absurd (within_mem hw (by decide)) hk | exact rfl | exact ⟨rfl, rfl, rfl⟩⟩

theorem Keep.set_mbr_sched {s u : State} {ws : List Sec} {x0 : Mbr} {x1 : Sched} (h : Keep s u ws) (hw : within [.mbr, .sched] ws = true) (gb : x0.lens = u.mbr.lens) :
    Keep s { u with mbr := x0, sched := x1 } ws :=
  h.trans ⟨rfl, rfl, Nat.le_refl _, Nat.le_refl _, id, fun w => w.of rfl rfl rfl rfl rfl rfl rfl gb rfl, fun k hk => by cases k <;> first | exact absurd (within_mem hw (by decide)) hk | exact rfl | exact ⟨rfl, rfl, rfl⟩⟩

theorem Keep.set_mgt {s u : State} {ws : List Sec} {x0 : Mgt} (h : Keep s u ws) (hw : within [.mgt] ws = true) (hn : x0.slots = u.mgt.slots ∧ x0.dir = u.mgt.dir ∧ x0.dirNvm = u.mgt.dirNvm) (hs : x0.staging = u.mgt.staging) (gm : x0.lens = u.mgt.lens) :
    Keep s { u with mgt := x0 } ws :=
  h.trans ⟨rfl, rfl, Nat.le_refl _, Nat.le_refl _, fun w => hs ▸ w, fun w => w.of rfl rfl rfl gm rfl rfl rfl rfl rfl, fun k hk => by cases k <;> first | exact absurd (within_mem hw (by decide)) hk | exact rfl | exact ⟨rfl, rfl, rfl⟩ | exact hn | exact hs⟩

theorem Keep.set_ord {s u : State} {ws : List Sec} {x0 : Ord} (h : Keep s u ws) (hw : within [.ord] ws = true) :
    Keep s { u with ord := x0 } ws :=
  h.trans ⟨rfl, rfl, Nat.le_refl _, Nat.le_refl _, id, fun w => w.of rfl rfl rfl rfl rfl rfl rfl rfl rfl, fun k hk => by cases k <;> first | exact absurd (within_mem hw (by decide)) hk | exact rfl | exact ⟨rfl, rfl, rfl⟩⟩

theorem Keep.set_ord_jnl_pools_seq_rop {s u : State} {ws : List Sec} {x0 : Ord} {x1 : Jnl} {x2 : List Pool} {x3 : Seq} {x4 : Rop} (h : Keep s u ws) (hw : within [.ord, .jnl, .pools, .seq, .rop] ws = true) (gr : x4.lens = u.rop.lens) :
    Keep s { u with ord := x0, jnl := x1, pools := x2, seq := x3, rop := x4 } ws :=
  h.trans ⟨rfl, rfl, Nat.le_refl _, Nat.le_refl _, id, fun w => w.of rfl rfl rfl rfl rfl rfl gr rfl rfl, fun k hk => by cases k <;> first | exact absurd (within_mem hw (by decide)) hk | exact rfl | exact ⟨rfl, rfl, rfl⟩⟩

theorem Keep.set_ord_jnl_rop {s u : State} {ws : List Sec} {x0 : Ord} {x1 : Jnl} {x2 : Rop} (h : Keep s u ws) (hw : within [.ord, .jnl, .rop] ws = true) (gr : x2.lens = u.rop.lens) :
    Keep s { u with ord := x0, jnl := x1, rop := x2 } ws :=
  h.trans ⟨rfl, rfl, Nat.le_refl _, Nat.le_refl _, id, fun w => w.of rfl rfl rfl rfl rfl rfl gr rfl rfl, fun k hk => by cases k <;> first | exact absurd (within_mem hw (by decide)) hk | exact rfl | exact ⟨rfl, rfl, rfl⟩⟩

theorem Keep.set_ord_jnl_seq_mbr {s u : State} {ws : List Sec} {x0 : Ord} {x1 : Jnl} {x2 : Seq} {x3 : Mbr} (h : Keep s u ws) (hw : within [.ord, .jnl, .seq, .mbr] ws = true) (gb : x3.lens = u.mbr.lens) :
    Keep s { u with ord := x0, jnl := x1, seq := x2, mbr := x3 } ws :=
  h.trans ⟨rfl, rfl, Nat.le_refl _, Nat.le_refl _, id, fun w => w.of rfl rfl rfl rfl rfl rfl rfl gb rfl, fun k hk => by cases k <;> first | exact absurd (within_mem hw (by decide)) hk | exact rfl | exact ⟨rfl, rfl, rfl⟩⟩

theorem Keep.set_out {s u : State} {ws : List Sec} {x0 : List Out} (h : Keep s u ws) (hw : within [.out] ws = true) :
    Keep s { u with out := x0 } ws :=
  h.trans ⟨rfl, rfl, Nat.le_refl _, Nat.le_refl _, id, fun w => w.of rfl rfl rfl rfl rfl rfl rfl rfl rfl, fun k hk => by cases k <;> first | exact absurd (within_mem hw (by decide)) hk | exact rfl | exact ⟨rfl, rfl, rfl⟩⟩

theorem Keep.set_phase {s u : State} {ws : List Sec} {x0 : Phase} (h : Keep s u ws) (hw : within [.phase] ws = true) :
    Keep s { u with phase := x0 } ws :=
  h.trans ⟨rfl, rfl, Nat.le_refl _, Nat.le_refl _, id, fun w => w.of rfl rfl rfl rfl rfl rfl rfl rfl rfl, fun k hk => by cases k <;> first | exact absurd (within_mem hw (by decide)) hk | exact rfl | exact ⟨rfl, rfl, rfl⟩⟩

theorem Keep.set_phase_cch {s u : State} {ws : List Sec} {x0 : Phase} {x1 : Cch} (h : Keep s u ws) (hw : within [.phase, .cch] ws = true) :
    Keep s { u with phase := x0, cch := x1 } ws :=
  h.trans ⟨rfl, rfl, Nat.le_refl _, Nat.le_refl _, id, fun w => w.of rfl rfl rfl rfl rfl rfl rfl rfl rfl, fun k hk => by cases k <;> first | exact absurd (within_mem hw (by decide)) hk | exact rfl | exact ⟨rfl, rfl, rfl⟩⟩

theorem Keep.set_phase_mbr {s u : State} {ws : List Sec} {x0 : Phase} {x1 : Mbr} (h : Keep s u ws) (hw : within [.phase, .mbr] ws = true) (gb : x1.lens = u.mbr.lens) :
    Keep s { u with phase := x0, mbr := x1 } ws :=
  h.trans ⟨rfl, rfl, Nat.le_refl _, Nat.le_refl _, id, fun w => w.of rfl rfl rfl rfl rfl rfl rfl gb rfl, fun k hk => by cases k <;> first | exact absurd (within_mem hw (by decide)) hk | exact rfl | exact ⟨rfl, rfl, rfl⟩⟩

theorem Keep.set_phase_mbr_mgt {s u : State} {ws : List Sec} {x0 : Phase} {x1 : Mbr} {x2 : Mgt} (h : Keep s u ws) (hw : within [.phase, .mbr, .mgt] ws = true) (hn : x2.slots = u.mgt.slots ∧ x2.dir = u.mgt.dir ∧ x2.dirNvm = u.mgt.dirNvm) (hs : x2.staging = u.mgt.staging) (gb : x1.lens = u.mbr.lens) (gm : x2.lens = u.mgt.lens) :
    Keep s { u with phase := x0, mbr := x1, mgt := x2 } ws :=
  h.trans ⟨rfl, rfl, Nat.le_refl _, Nat.le_refl _, fun w => hs ▸ w, fun w => w.of rfl rfl rfl gm rfl rfl rfl gb rfl, fun k hk => by cases k <;> first | exact absurd (within_mem hw (by decide)) hk | exact rfl | exact ⟨rfl, rfl, rfl⟩ | exact hn | exact hs⟩

theorem Keep.set_phase_mgt {s u : State} {ws : List Sec} {x0 : Phase} {x1 : Mgt} (h : Keep s u ws) (hw : within [.phase, .mgt] ws = true) (hn : x1.slots = u.mgt.slots ∧ x1.dir = u.mgt.dir ∧ x1.dirNvm = u.mgt.dirNvm) (hs : x1.staging = u.mgt.staging) (gm : x1.lens = u.mgt.lens) :
    Keep s { u with phase := x0, mgt := x1 } ws :=
  h.trans ⟨rfl, rfl, Nat.le_refl _, Nat.le_refl _, fun w => hs ▸ w, fun w => w.of rfl rfl rfl gm rfl rfl rfl rfl rfl, fun k hk => by cases k <;> first | exact absurd (within_mem hw (by decide)) hk | exact rfl | exact ⟨rfl, rfl, rfl⟩ | exact hn | exact hs⟩

theorem Keep.set_phase_pins {s u : State} {ws : List Sec} {x0 : Phase} {x1 : Pins} (h : Keep s u ws) (hw : within [.phase, .pins] ws = true) (gp : x1.lens = u.pins.lens) :
    Keep s { u with phase := x0, pins := x1 } ws :=
  h.trans ⟨rfl, rfl, Nat.le_refl _, Nat.le_refl _, id, fun w => w.of gp rfl rfl rfl rfl rfl rfl rfl rfl, fun k hk => by cases k <;> first | exact absurd (within_mem hw (by decide)) hk | exact rfl | exact ⟨rfl, rfl, rfl⟩⟩

theorem Keep.set_phase_qe {s u : State} {ws : List Sec} {x0 : Phase} {x1 : Qe} (h : Keep s u ws) (hw : within [.phase, .qe] ws = true) :
    Keep s { u with phase := x0, qe := x1 } ws :=
  h.trans ⟨rfl, rfl, Nat.le_refl _, Nat.le_refl _, id, fun w => w.of rfl rfl rfl rfl rfl rfl rfl rfl rfl, fun k hk => by cases k <;> first | exact absurd (within_mem hw (by decide)) hk | exact rfl | exact ⟨rfl, rfl, rfl⟩⟩

theorem Keep.set_phase_vlt {s u : State} {ws : List Sec} {x0 : Phase} {x1 : Vlt} (h : Keep s u ws) (hw : within [.phase, .vlt] ws = true) (gv : x1.lens = u.vlt.lens) :
    Keep s { u with phase := x0, vlt := x1 } ws :=
  h.trans ⟨rfl, rfl, Nat.le_refl _, Nat.le_refl _, id, fun w => w.of rfl rfl gv rfl rfl rfl rfl rfl rfl, fun k hk => by cases k <;> first | exact absurd (within_mem hw (by decide)) hk | exact rfl | exact ⟨rfl, rfl, rfl⟩⟩

theorem Keep.set_phase_vlt_mgt {s u : State} {ws : List Sec} {x0 : Phase} {x1 : Vlt} {x2 : Mgt} (h : Keep s u ws) (hw : within [.phase, .vlt, .mgt] ws = true) (hn : x2.slots = u.mgt.slots ∧ x2.dir = u.mgt.dir ∧ x2.dirNvm = u.mgt.dirNvm) (hs : x2.staging = u.mgt.staging) (gv : x1.lens = u.vlt.lens) (gm : x2.lens = u.mgt.lens) :
    Keep s { u with phase := x0, vlt := x1, mgt := x2 } ws :=
  h.trans ⟨rfl, rfl, Nat.le_refl _, Nat.le_refl _, fun w => hs ▸ w, fun w => w.of rfl rfl gv gm rfl rfl rfl rfl rfl, fun k hk => by cases k <;> first | exact absurd (within_mem hw (by decide)) hk | exact rfl | exact ⟨rfl, rfl, rfl⟩ | exact hn | exact hs⟩

theorem Keep.set_pins {s u : State} {ws : List Sec} {x0 : Pins} (h : Keep s u ws) (hw : within [.pins] ws = true) (gp : x0.lens = u.pins.lens) :
    Keep s { u with pins := x0 } ws :=
  h.trans ⟨rfl, rfl, Nat.le_refl _, Nat.le_refl _, id, fun w => w.of gp rfl rfl rfl rfl rfl rfl rfl rfl, fun k hk => by cases k <;> first | exact absurd (within_mem hw (by decide)) hk | exact rfl | exact ⟨rfl, rfl, rfl⟩⟩

theorem Keep.set_pins_temps {s u : State} {ws : List Sec} {x0 : Pins} {x1 : List (Sensor × Int)} (h : Keep s u ws) (hw : within [.pins, .temps] ws = true) (gp : x0.lens = u.pins.lens) :
    Keep s { u with pins := x0, temps := x1 } ws :=
  h.trans ⟨rfl, rfl, Nat.le_refl _, Nat.le_refl _, id, fun w => w.of gp rfl rfl rfl rfl rfl rfl rfl rfl, fun k hk => by cases k <;> first | exact absurd (within_mem hw (by decide)) hk | exact rfl | exact ⟨rfl, rfl, rfl⟩⟩

theorem Keep.set_pins_vlt_tru_evr_mgt {s u : State} {ws : List Sec} {x0 : Pins} {x1 : Vlt} {x2 : Tru} {x3 : Evr} {x4 : Mgt} (h : Keep s u ws) (hw : within [.pins, .vlt, .tru, .evr, .mgt] ws = true) (hf : x2.fwFuses = u.tru.fwFuses) (hi : x2.idxFuses = u.tru.idxFuses) (hn : x4.slots = u.mgt.slots ∧ x4.dir = u.mgt.dir ∧ x4.dirNvm = u.mgt.dirNvm) (hs : x4.staging = u.mgt.staging) (gp : x0.lens = u.pins.lens) (gv : x1.lens = u.vlt.lens) (gt : x2.lens = u.tru.lens) (ge : x3.lens = u.evr.lens) (gm : x4.lens = u.mgt.lens) :
    Keep s { u with pins := x0, vlt := x1, tru := x2, evr := x3, mgt := x4 } ws :=
  h.trans ⟨rfl, rfl, Nat.le_of_eq hf.symm, Nat.le_of_eq hi.symm, fun w => hs ▸ w, fun w => w.of gp rfl gv gm ge rfl rfl rfl gt, fun k hk => by cases k <;> first | exact absurd (within_mem hw (by decide)) hk | exact rfl | exact ⟨rfl, rfl, rfl⟩ | exact hn | exact hs⟩

theorem Keep.set_pools {s u : State} {ws : List Sec} {x0 : List Pool} (h : Keep s u ws) (hw : within [.pools] ws = true) :
    Keep s { u with pools := x0 } ws :=
  h.trans ⟨rfl, rfl, Nat.le_refl _, Nat.le_refl _, id, fun w => w.of rfl rfl rfl rfl rfl rfl rfl rfl rfl, fun k hk => by cases k <;> first | exact absurd (within_mem hw (by decide)) hk | exact rfl | exact ⟨rfl, rfl, rfl⟩⟩

theorem Keep.set_pools_rop {s u : State} {ws : List Sec} {x0 : List Pool} {x1 : Rop} (h : Keep s u ws) (hw : within [.pools, .rop] ws = true) (gr : x1.lens = u.rop.lens) :
    Keep s { u with pools := x0, rop := x1 } ws :=
  h.trans ⟨rfl, rfl, Nat.le_refl _, Nat.le_refl _, id, fun w => w.of rfl rfl rfl rfl rfl rfl gr rfl rfl, fun k hk => by cases k <;> first | exact absurd (within_mem hw (by decide)) hk | exact rfl | exact ⟨rfl, rfl, rfl⟩⟩

theorem Keep.set_qe {s u : State} {ws : List Sec} {x0 : Qe} (h : Keep s u ws) (hw : within [.qe] ws = true) :
    Keep s { u with qe := x0 } ws :=
  h.trans ⟨rfl, rfl, Nat.le_refl _, Nat.le_refl _, id, fun w => w.of rfl rfl rfl rfl rfl rfl rfl rfl rfl, fun k hk => by cases k <;> first | exact absurd (within_mem hw (by decide)) hk | exact rfl | exact ⟨rfl, rfl, rfl⟩⟩

theorem Keep.set_qe_ord {s u : State} {ws : List Sec} {x0 : Qe} {x1 : Ord} (h : Keep s u ws) (hw : within [.qe, .ord] ws = true) :
    Keep s { u with qe := x0, ord := x1 } ws :=
  h.trans ⟨rfl, rfl, Nat.le_refl _, Nat.le_refl _, id, fun w => w.of rfl rfl rfl rfl rfl rfl rfl rfl rfl, fun k hk => by cases k <;> first | exact absurd (within_mem hw (by decide)) hk | exact rfl | exact ⟨rfl, rfl, rfl⟩⟩

theorem Keep.set_regs {s u : State} {ws : List Sec} {x0 : RegFile} (h : Keep s u ws) (hw : within [.regs] ws = true) :
    Keep s { u with regs := x0 } ws :=
  h.trans ⟨rfl, rfl, Nat.le_refl _, Nat.le_refl _, id, fun w => w.of rfl rfl rfl rfl rfl rfl rfl rfl rfl, fun k hk => by cases k <;> first | exact absurd (within_mem hw (by decide)) hk | exact rfl | exact ⟨rfl, rfl, rfl⟩⟩

theorem Keep.set_regs_evr {s u : State} {ws : List Sec} {x0 : RegFile} {x1 : Evr} (h : Keep s u ws) (hw : within [.regs, .evr] ws = true) (ge : x1.lens = u.evr.lens) :
    Keep s { u with regs := x0, evr := x1 } ws :=
  h.trans ⟨rfl, rfl, Nat.le_refl _, Nat.le_refl _, id, fun w => w.of rfl rfl rfl rfl ge rfl rfl rfl rfl, fun k hk => by cases k <;> first | exact absurd (within_mem hw (by decide)) hk | exact rfl | exact ⟨rfl, rfl, rfl⟩⟩

theorem Keep.set_rop {s u : State} {ws : List Sec} {x0 : Rop} (h : Keep s u ws) (hw : within [.rop] ws = true) (gr : x0.lens = u.rop.lens) :
    Keep s { u with rop := x0 } ws :=
  h.trans ⟨rfl, rfl, Nat.le_refl _, Nat.le_refl _, id, fun w => w.of rfl rfl rfl rfl rfl rfl gr rfl rfl, fun k hk => by cases k <;> first | exact absurd (within_mem hw (by decide)) hk | exact rfl | exact ⟨rfl, rfl, rfl⟩⟩

theorem Keep.set_rop_mgt {s u : State} {ws : List Sec} {x0 : Rop} {x1 : Mgt} (h : Keep s u ws) (hw : within [.rop, .mgt] ws = true) (hn : x1.slots = u.mgt.slots ∧ x1.dir = u.mgt.dir ∧ x1.dirNvm = u.mgt.dirNvm) (hs : x1.staging = u.mgt.staging) (gr : x0.lens = u.rop.lens) (gm : x1.lens = u.mgt.lens) :
    Keep s { u with rop := x0, mgt := x1 } ws :=
  h.trans ⟨rfl, rfl, Nat.le_refl _, Nat.le_refl _, fun w => hs ▸ w, fun w => w.of rfl rfl rfl gm rfl rfl gr rfl rfl, fun k hk => by cases k <;> first | exact absurd (within_mem hw (by decide)) hk | exact rfl | exact ⟨rfl, rfl, rfl⟩ | exact hn | exact hs⟩

theorem Keep.set_rop_sched {s u : State} {ws : List Sec} {x0 : Rop} {x1 : Sched} (h : Keep s u ws) (hw : within [.rop, .sched] ws = true) (gr : x0.lens = u.rop.lens) :
    Keep s { u with rop := x0, sched := x1 } ws :=
  h.trans ⟨rfl, rfl, Nat.le_refl _, Nat.le_refl _, id, fun w => w.of rfl rfl rfl rfl rfl rfl gr rfl rfl, fun k hk => by cases k <;> first | exact absurd (within_mem hw (by decide)) hk | exact rfl | exact ⟨rfl, rfl, rfl⟩⟩

theorem Keep.set_sched {s u : State} {ws : List Sec} {x0 : Sched} (h : Keep s u ws) (hw : within [.sched] ws = true) :
    Keep s { u with sched := x0 } ws :=
  h.trans ⟨rfl, rfl, Nat.le_refl _, Nat.le_refl _, id, fun w => w.of rfl rfl rfl rfl rfl rfl rfl rfl rfl, fun k hk => by cases k <;> first | exact absurd (within_mem hw (by decide)) hk | exact rfl | exact ⟨rfl, rfl, rfl⟩⟩

theorem Keep.set_seq {s u : State} {ws : List Sec} {x0 : Seq} (h : Keep s u ws) (hw : within [.seq] ws = true) :
    Keep s { u with seq := x0 } ws :=
  h.trans ⟨rfl, rfl, Nat.le_refl _, Nat.le_refl _, id, fun w => w.of rfl rfl rfl rfl rfl rfl rfl rfl rfl, fun k hk => by cases k <;> first | exact absurd (within_mem hw (by decide)) hk | exact rfl | exact ⟨rfl, rfl, rfl⟩⟩

theorem Keep.set_seq_sched {s u : State} {ws : List Sec} {x0 : Seq} {x1 : Sched} (h : Keep s u ws) (hw : within [.seq, .sched] ws = true) :
    Keep s { u with seq := x0, sched := x1 } ws :=
  h.trans ⟨rfl, rfl, Nat.le_refl _, Nat.le_refl _, id, fun w => w.of rfl rfl rfl rfl rfl rfl rfl rfl rfl, fun k hk => by cases k <;> first | exact absurd (within_mem hw (by decide)) hk | exact rfl | exact ⟨rfl, rfl, rfl⟩⟩

theorem Keep.set_tck {s u : State} {ws : List Sec} {x0 : Tck} (h : Keep s u ws) (hw : within [.tck] ws = true) :
    Keep s { u with tck := x0 } ws :=
  h.trans ⟨rfl, rfl, Nat.le_refl _, Nat.le_refl _, id, fun w => w.of rfl rfl rfl rfl rfl rfl rfl rfl rfl, fun k hk => by cases k <;> first | exact absurd (within_mem hw (by decide)) hk | exact rfl | exact ⟨rfl, rfl, rfl⟩⟩

theorem Keep.set_tck_freeCtr {s u : State} {ws : List Sec} {x0 : Tck} {x1 : Nat} (h : Keep s u ws) (hw : within [.tck, .freeCtr] ws = true) :
    Keep s { u with tck := x0, freeCtr := x1 } ws :=
  h.trans ⟨rfl, rfl, Nat.le_refl _, Nat.le_refl _, id, fun w => w.of rfl rfl rfl rfl rfl rfl rfl rfl rfl, fun k hk => by cases k <;> first | exact absurd (within_mem hw (by decide)) hk | exact rfl | exact ⟨rfl, rfl, rfl⟩⟩

theorem Keep.set_tck_rop_mgt {s u : State} {ws : List Sec} {x0 : Tck} {x1 : Rop} {x2 : Mgt} (h : Keep s u ws) (hw : within [.tck, .rop, .mgt] ws = true) (hn : x2.slots = u.mgt.slots ∧ x2.dir = u.mgt.dir ∧ x2.dirNvm = u.mgt.dirNvm) (hs : x2.staging = u.mgt.staging) (gr : x1.lens = u.rop.lens) (gm : x2.lens = u.mgt.lens) :
    Keep s { u with tck := x0, rop := x1, mgt := x2 } ws :=
  h.trans ⟨rfl, rfl, Nat.le_refl _, Nat.le_refl _, fun w => hs ▸ w, fun w => w.of rfl rfl rfl gm rfl rfl gr rfl rfl, fun k hk => by cases k <;> first | exact absurd (within_mem hw (by decide)) hk | exact rfl | exact ⟨rfl, rfl, rfl⟩ | exact hn | exact hs⟩

theorem Keep.set_tru {s u : State} {ws : List Sec} {x0 : Tru} (h : Keep s u ws) (hw : within [.tru] ws = true) (hf : x0.fwFuses = u.tru.fwFuses) (hi : x0.idxFuses = u.tru.idxFuses) (gt : x0.lens = u.tru.lens) :
    Keep s { u with tru := x0 } ws :=
  h.trans ⟨rfl, rfl, Nat.le_of_eq hf.symm, Nat.le_of_eq hi.symm, id, fun w => w.of rfl rfl rfl rfl rfl rfl rfl rfl gt, fun k hk => by cases k <;> first | exact absurd (within_mem hw (by decide)) hk | exact rfl | exact ⟨rfl, rfl, rfl⟩⟩

theorem Keep.set_vlt {s u : State} {ws : List Sec} {x0 : Vlt} (h : Keep s u ws) (hw : within [.vlt] ws = true) (gv : x0.lens = u.vlt.lens) :
    Keep s { u with vlt := x0 } ws :=
  h.trans ⟨rfl, rfl, Nat.le_refl _, Nat.le_refl _, id, fun w => w.of rfl rfl gv rfl rfl rfl rfl rfl rfl, fun k hk => by cases k <;> first | exact absurd (within_mem hw (by decide)) hk | exact rfl | exact ⟨rfl, rfl, rfl⟩⟩

theorem Keep.set_vlt_evr {s u : State} {ws : List Sec} {x0 : Vlt} {x1 : Evr} (h : Keep s u ws) (hw : within [.vlt, .evr] ws = true) (gv : x0.lens = u.vlt.lens) (ge : x1.lens = u.evr.lens) :
    Keep s { u with vlt := x0, evr := x1 } ws :=
  h.trans ⟨rfl, rfl, Nat.le_refl _, Nat.le_refl _, id, fun w => w.of rfl rfl gv rfl ge rfl rfl rfl rfl, fun k hk => by cases k <;> first | exact absurd (within_mem hw (by decide)) hk | exact rfl | exact ⟨rfl, rfl, rfl⟩⟩

theorem Keep.set_vlt_tru {s u : State} {ws : List Sec} {x0 : Vlt} {x1 : Tru} (h : Keep s u ws) (hw : within [.vlt, .tru] ws = true) (hf : x1.fwFuses = u.tru.fwFuses) (hi : x1.idxFuses = u.tru.idxFuses) (gv : x0.lens = u.vlt.lens) (gt : x1.lens = u.tru.lens) :
    Keep s { u with vlt := x0, tru := x1 } ws :=
  h.trans ⟨rfl, rfl, Nat.le_of_eq hf.symm, Nat.le_of_eq hi.symm, id, fun w => w.of rfl rfl gv rfl rfl rfl rfl rfl gt, fun k hk => by cases k <;> first | exact absurd (within_mem hw (by decide)) hk | exact rfl | exact ⟨rfl, rfl, rfl⟩⟩

theorem Keep.set_nvm {s u : State} {ws : List Sec} {x0 : Mgt} (h : Keep s u ws) (hw : within [.mgt, .nvm] ws = true) (hs : x0.staging = u.mgt.staging) (gm : x0.lens = u.mgt.lens) :
    Keep s { u with mgt := x0 } ws :=
  h.trans ⟨rfl, rfl, Nat.le_refl _, Nat.le_refl _, fun w => hs ▸ w, fun w => w.of rfl rfl rfl gm rfl rfl rfl rfl rfl, fun k hk => by cases k <;> first | exact absurd (within_mem hw (by decide)) hk | exact rfl | exact ⟨rfl, rfl, rfl⟩ | exact hs⟩

theorem Keep.set_wins {s u : State} {ws : List Sec} {x0 : Rop} (h : Keep s u ws) (hw : within [.rop] ws = true) (h8 : x0.wins.length = 8)
    (hs : x0.winsStg.length = u.rop.winsStg.length) : Keep s { u with rop := x0 } ws :=
  h.trans ⟨rfl, rfl, Nat.le_refl _, Nat.le_refl _, id, fun w => ⟨w.pins, w.hif, w.vlt, w.mgt, w.evr, w.dmv, ⟨h8, hs.trans w.rop.2⟩, w.mbr, w.tru⟩,
    fun k hk => by cases k <;> first | exact absurd (within_mem hw (by decide)) hk | exact rfl | exact ⟨rfl, rfl, rfl⟩⟩


theorem injScan_length (dets : List Nat) (attrs : List (Nat × Nat)) : ∀ l : List InjSlot, (injScan dets attrs l).1.length = l.length
  | [] => rfl
  | x :: r => by
    have ih := injScan_length dets attrs r
    unfold injScan
    dsimp only
    split
    · exact congrArg (· + 1) ih
    · split
      · exact congrArg (· + 1) ih
      · rfl

theorem Evr.foldAssign_lens (l : List EvRec) : ∀ e : Evr, (l.foldl Evr.assign e).lens = e.lens := by
  induction l with
  | nil => intro e; rfl
  | cons r l ih => intro e; exact (ih (e.assign r)).trans rfl

theorem pair_fst {α β : Type} (a : α) (b : β) : (a, b).1 = a := rfl
theorem pair_snd {α β : Type} (a : α) (b : β) : (a, b).2 = b := rfl

theorem Keep.foldlFst {α β : Type} {s : State} {ws : List Sec} {f : State × β → α → State × β} (hf : ∀ v a, Keep s v.1 ws → Keep s (f v a).1 ws) :
    ∀ {l : List α} {u : State × β}, Keep s u.1 ws → Keep s (l.foldl f u).1 ws := by
  intro l
  induction l with
  | nil => intro u h; exact h
  | cons a r ih => intro u h; exact ih (hf u a h)

theorem Keep.foldlSnd {α β : Type} {s : State} {ws : List Sec} {f : β × State → α → β × State} (hf : ∀ v a, Keep s v.2 ws → Keep s (f v a).2 ws) :
    ∀ {l : List α} {u : β × State}, Keep s u.2 ws → Keep s (l.foldl f u).2 ws := by
  intro l
  induction l with
  | nil => intro u h; exact h
  | cons a r ih => intro u h; exact ih (hf u a h)

theorem Keep.ite {s t u : State} {c : Prop} [Decidable c] {ws : List Sec} (h : Keep s t ws) (h' : Keep s u ws) : Keep s (if c then t else u) ws := by
  split <;> assumption

end Sys2Proof.Machine
end

