-- ==== Sys2Proof/Laws/KeepOps.lean ====
section
/-!
SUPPORT. What each operation of Machine/Ops.lean keeps: the parts of the state that it may write.
-/
namespace Sys2Proof.Machine

theorem State.clr_keep {s : State} : Keep s (State.clr s) [.out] := by
  unfold State.clr
  repeat' first
    | with_reducible assumption
    | with_reducible apply Keep.refl
    | decide
    | dsimp -proj only [pair_fst, pair_snd]
    | split
    | with_reducible apply Keep.set_out

theorem State.emit_keep {s : State} {o : Out} : Keep s (State.emit s o) [.out] := by
  unfold State.emit
  repeat' first
    | with_reducible assumption
    | with_reducible apply Keep.refl
    | decide
    | dsimp -proj only [pair_fst, pair_snd]
    | split
    | with_reducible apply Keep.set_out

theorem State.setReg_keep {s : State} {f : Fld} {v : Nat} {ix : optParam Nat 0} : Keep s (State.setReg s f v ix) [.regs] := by
  unfold State.setReg
  repeat' first
    | with_reducible assumption
    | with_reducible apply Keep.refl
    | decide
    | dsimp -proj only [pair_fst, pair_snd]
    | split
    | with_reducible apply Keep.set_regs

theorem State.bump_keep {s : State} {f : Fld} {n : optParam Nat 1} {ix : optParam Nat 0} : Keep s (State.bump s f n ix) [.regs] := by
  unfold State.bump
  repeat' first
    | with_reducible assumption
    | with_reducible apply Keep.refl
    | with_reducible apply Keep.ite
    | decide
    | dsimp -proj only [pair_fst, pair_snd]
    | split
    | with_reducible apply Keep.set_regs

theorem State.reach_keep {s : State} {r : EvRec} : Keep s (State.reach s r) [.regs, .evr] := by
  unfold State.reach
  repeat' first
    | with_reducible assumption
    | with_reducible apply Keep.refl
    | with_reducible apply Keep.ite
    | with_reducible apply Keep.app State.bump_keep
    | with_reducible exact Evr.lens_mk
    | (show (_ : List Nat) = _; first | with_reducible rfl | (simp [Evr.lens]; done) | rfl)
    | decide
    | dsimp -proj only [pair_fst, pair_snd]
    | split
    | with_reducible apply Keep.set_evr

theorem State.put_keep {s : State} {r : EvRec} : Keep s (State.put s r) [.regs, .evr] := by
  unfold State.put
  repeat' first
    | with_reducible assumption
    | with_reducible apply Keep.refl
    | with_reducible apply Keep.ite
    | with_reducible apply Keep.app State.reach_keep
    | with_reducible exact Evr.lens_mk
    | (show (_ : List Nat) = _; first | with_reducible rfl | (simp [Evr.lens]; done) | rfl)
    | decide
    | dsimp -proj only [pair_fst, pair_snd]
    | split
    | with_reducible apply Keep.set_evr

theorem State.log_keep {s : State} {e : Ev} {kind : optParam Nat 0} {subj : optParam Nat 0} {pool : optParam (BitVec 16) 0} {a : optParam Nat 0} {b : optParam Nat 0} {c : optParam Nat 0} {inj : optParam Bool false} : Keep s (State.log s e kind subj pool a b c inj) [.regs, .evr] := by
  unfold State.log
  repeat' first
    | with_reducible assumption
    | with_reducible apply Keep.refl
    | with_reducible apply Keep.ite
    | with_reducible apply Keep.app State.setReg_keep
    | with_reducible apply Keep.app State.put_keep
    | decide
    | dsimp -proj only [pair_fst, pair_snd]
    | split

theorem State.freeWord_keep {s : State} : Keep s (State.freeWord s).2 [.freeCtr] := by
  unfold State.freeWord
  repeat' first
    | with_reducible assumption
    | with_reducible apply Keep.refl
    | with_reducible apply Keep.fst (by assumption)
    | decide
    | dsimp -proj only [pair_fst, pair_snd]
    | split
    | with_reducible apply Keep.set_freeCtr

theorem State.oneCycle_keep {s0 s : State} {ws : List Sec} {f : State → State} (hk : Keep s0 s ws) (hw : within [.regs, .evr] ws = true) (h_f : ∀ v, Keep s0 v ws → Keep s0 (f v) ws) :
    Keep s0 (State.oneCycle s f) ws := by
  unfold State.oneCycle
  repeat' first
    | intro x_
    | with_reducible assumption
    | with_reducible apply Keep.refl
    | with_reducible apply h_f
    | with_reducible apply Keep.app State.reach_keep
    | with_reducible apply Keep.foldl
    | with_reducible apply Keep.foldlFst
    | with_reducible apply Keep.fst (by assumption)
    | with_reducible exact Evr.lens_mk
    | (show (_ : List Nat) = _; first | with_reducible rfl | (simp [Evr.lens]; done) | rfl)
    | exact within_trans (by decide) hw
    | decide
    | dsimp -proj only [pair_fst, pair_snd]
    | split
    | with_reducible apply Keep.set_evr

theorem State.elapse_keep {s : State} : Keep s (State.elapse s) [.tck, .freeCtr] := by
  unfold State.elapse
  repeat' first
    | with_reducible assumption
    | with_reducible apply Keep.refl
    | with_reducible apply Keep.app State.freeWord_keep
    | with_reducible apply Keep.fst (by assumption)
    | with_reducible apply Keep.snd (by assumption)
    | decide
    | dsimp -proj only [pair_fst, pair_snd]
    | split
    | with_reducible apply Keep.set_tck

theorem State.emits_keep {s : State} {os : List Out} : Keep s (State.emits s os) [.out] := by
  unfold State.emits
  repeat' first
    | with_reducible assumption
    | with_reducible apply Keep.refl
    | decide
    | dsimp -proj only [pair_fst, pair_snd]
    | split
    | with_reducible apply Keep.set_out

end Sys2Proof.Machine
end

