-- ==== Sys2Proof/Laws/KeepInject.lean ====
section
/-!
SUPPORT. What each operation of Machine/Inject.lean keeps: the parts of the state that it may write.
-/
namespace Sys2Proof.Machine

theorem State.inject_keep {s : State} {dets : List Nat} {attrs : List (Nat × Nat)} : Keep s (State.inject s dets attrs).1 [.regs, .mgt] := by
  unfold State.inject
  repeat' first
    | with_reducible assumption
    | with_reducible apply Keep.refl
    | with_reducible apply Keep.ite
    | with_reducible apply Keep.app State.bump_keep
    | with_reducible apply Keep.fst (by assumption)
    | with_reducible exact ⟨Mgt.slots_mk, Mgt.dir_mk, Mgt.dirNvm_mk⟩
    | with_reducible exact Mgt.staging_mk
    | with_reducible exact Mgt.lens_mk
    | (show (_ : List Nat) = _; first | with_reducible rfl | (simp [Mgt.lens, injScan_length]; done) | rfl)
    | decide
    | dsimp -proj only [pair_fst, pair_snd]
    | split
    | with_reducible apply Keep.set_mgt

theorem State.marked_keep {s0 s : State} {ws : List Sec} {b : Bool} {f : State → State} (hk : Keep s0 s ws) (hw : within [.mgt] ws = true) (h_f : ∀ v, Keep s0 v ws → Keep s0 (f v) ws) :
    Keep s0 (State.marked s b f) ws := by
  unfold State.marked
  repeat' first
    | with_reducible assumption
    | with_reducible apply Keep.refl
    | with_reducible apply h_f
    | with_reducible apply Keep.ite
    | with_reducible exact ⟨Mgt.slots_mk, Mgt.dir_mk, Mgt.dirNvm_mk⟩
    | with_reducible exact Mgt.staging_mk
    | with_reducible exact Mgt.lens_mk
    | (show (_ : List Nat) = _; first | with_reducible rfl | (simp [Mgt.lens]; done) | rfl)
    | exact within_trans (by decide) hw
    | decide
    | dsimp -proj only [pair_fst, pair_snd]
    | split
    | with_reducible apply Keep.set_mgt

theorem State.freeOf_keep {s : State} {l : List Nat} : Keep s (State.freeOf s l).1 [.freeCtr] := by
  unfold State.freeOf
  repeat' first
    | with_reducible assumption
    | with_reducible apply Keep.refl
    | with_reducible apply Keep.app State.freeWord_keep
    | with_reducible apply Keep.fst (by assumption)
    | with_reducible apply Keep.snd (by assumption)
    | decide
    | dsimp -proj only [pair_fst, pair_snd]
    | split

theorem State.coreFault_keep {s : State} {core : Nat} : Keep s (State.coreFault s core) [.regs, .fix, .evr] := by
  unfold State.coreFault
  repeat' first
    | with_reducible assumption
    | with_reducible apply Keep.refl
    | with_reducible apply Keep.ite
    | with_reducible apply Keep.app State.bump_keep
    | with_reducible apply Keep.app State.log_keep
    | decide
    | dsimp -proj only [pair_fst, pair_snd]
    | split
    | with_reducible apply Keep.set_fix

theorem State.tagTry_keep    {x2 : Nat} : ∀ {s : State} {tried : List Nat}, Keep s (State.tagTry s tried x2).1 [.regs, .fix, .evr, .mgt, .freeCtr] := by
  induction x2 with
  | zero =>
    intro s tried
    unfold State.tagTry
    repeat' first
      | with_reducible assumption
      | with_reducible apply Keep.refl
      | with_reducible apply Keep.ite
      | with_reducible apply Keep.app State.inject_keep
      | with_reducible apply Keep.app State.freeOf_keep
      | with_reducible apply Keep.app State.log_keep
      | with_reducible apply Keep.app State.coreFault_keep
      | with_reducible apply Keep.fst (by assumption)
      | decide
      | dsimp -proj only [pair_fst, pair_snd]
      | split
  | succ n ih =>
    intro s tried
    unfold State.tagTry
    repeat' first
      | with_reducible assumption
      | with_reducible apply Keep.refl
      | with_reducible apply Keep.app ih
      | with_reducible apply Keep.ite
      | with_reducible apply Keep.app State.inject_keep
      | with_reducible apply Keep.app State.freeOf_keep
      | with_reducible apply Keep.app State.log_keep
      | with_reducible apply Keep.app State.coreFault_keep
      | with_reducible apply Keep.fst (by assumption)
      | decide
      | dsimp -proj only [pair_fst, pair_snd]
      | split

theorem State.tagCheck_keep {s : State} {fault : Nat} : Keep s (State.tagCheck s fault).1 [.regs, .fix, .evr, .mgt, .freeCtr] := by
  unfold State.tagCheck
  repeat' first
    | with_reducible assumption
    | with_reducible apply Keep.refl
    | with_reducible apply Keep.ite
    | with_reducible apply Keep.app State.tagTry_keep
    | with_reducible apply Keep.fst (by assumption)
    | decide
    | dsimp -proj only [pair_fst, pair_snd]
    | split

theorem State.tagAll_keep  {fault : Nat}  {x2 : Nat} : ∀ {s : State}, Keep s (State.tagAll s fault x2).1 [.regs, .fix, .evr, .mgt, .freeCtr] := by
  induction x2 with
  | zero =>
    intro s
    unfold State.tagAll
    repeat' first
      | with_reducible assumption
      | with_reducible apply Keep.refl
      | with_reducible apply Keep.app State.tagCheck_keep
      | with_reducible apply Keep.fst (by assumption)
      | decide
      | dsimp -proj only [pair_fst, pair_snd]
      | split
  | succ n ih =>
    intro s
    unfold State.tagAll
    repeat' first
      | with_reducible assumption
      | with_reducible apply Keep.refl
      | with_reducible apply Keep.app ih
      | with_reducible apply Keep.app State.tagCheck_keep
      | with_reducible apply Keep.fst (by assumption)
      | decide
      | dsimp -proj only [pair_fst, pair_snd]
      | split

theorem State.selfCheck_keep {s : State} : Keep s (State.selfCheck s) [.regs, .cod, .evr, .mgt, .freeCtr] := by
  unfold State.selfCheck
  repeat' first
    | with_reducible assumption
    | with_reducible apply Keep.refl
    | with_reducible apply Keep.ite
    | with_reducible apply Keep.app State.bump_keep
    | with_reducible apply Keep.app State.inject_keep
    | with_reducible apply Keep.app State.freeOf_keep
    | with_reducible apply Keep.app State.log_keep
    | with_reducible apply Keep.fst (by assumption)
    | decide
    | dsimp -proj only [pair_fst, pair_snd]
    | split
    | with_reducible apply Keep.set_cod

theorem State.decodeWord_keep {s : State} {unit : Nat} {vol : Nat} {n : Nat} {d : BlockData} : Keep s (State.decodeWord s unit vol n d).1 [.regs, .evr] := by
  unfold State.decodeWord
  repeat' first
    | with_reducible assumption
    | with_reducible apply Keep.refl
    | with_reducible apply Keep.ite
    | with_reducible apply Keep.app State.bump_keep
    | with_reducible apply Keep.app State.log_keep
    | with_reducible apply Keep.fst (by assumption)
    | decide
    | dsimp -proj only [pair_fst, pair_snd]
    | split

theorem State.ingress_keep {s : State} {vol : Nat} {port : Nat} {d : BlockData} : Keep s (State.ingress s vol port d).1 [.regs, .evr, .mgt] := by
  unfold State.ingress
  repeat' first
    | with_reducible assumption
    | with_reducible apply Keep.refl
    | with_reducible apply Keep.ite
    | with_reducible apply Keep.app State.inject_keep
    | with_reducible apply Keep.app State.decodeWord_keep
    | with_reducible apply Keep.fst (by assumption)
    | decide
    | dsimp -proj only [pair_fst, pair_snd]
    | split

theorem State.ingressAll_keep {s : State} {vol : Nat} {port : Nat} {fault : Nat} {ds : List BlockData} : Keep s (State.ingressAll s vol port fault ds).1 [.regs, .fix, .evr, .mgt, .freeCtr] := by
  unfold State.ingressAll
  repeat' first
    | intro x_
    | with_reducible assumption
    | with_reducible apply Keep.refl
    | with_reducible apply Keep.app State.ingress_keep
    | with_reducible apply Keep.app State.tagCheck_keep
    | with_reducible apply Keep.foldl
    | with_reducible apply Keep.foldlFst
    | with_reducible apply Keep.fst (by assumption)
    | decide
    | dsimp -proj only [pair_fst, pair_snd]
    | split

theorem State.etherFrame_keep {s : State} {port : Nat} : Keep s (State.etherFrame s port) [.regs, .mgt] := by
  unfold State.etherFrame
  repeat' first
    | with_reducible assumption
    | with_reducible apply Keep.refl
    | with_reducible apply Keep.app State.inject_keep
    | with_reducible apply Keep.fst (by assumption)
    | decide
    | dsimp -proj only [pair_fst, pair_snd]
    | split

theorem State.ropeWord_keep {s : State} {vol : Nat} {d : BlockData} : Keep s (State.ropeWord s vol d).1 [.regs, .evr, .mgt] := by
  unfold State.ropeWord
  repeat' first
    | with_reducible assumption
    | with_reducible apply Keep.refl
    | with_reducible apply Keep.app State.inject_keep
    | with_reducible apply Keep.app State.decodeWord_keep
    | with_reducible apply Keep.fst (by assumption)
    | decide
    | dsimp -proj only [pair_fst, pair_snd]
    | split

end Sys2Proof.Machine
end

