-- ==== Sys2Proof/Laws/KeepSched.lean ====
section
/-!
SUPPORT. What each operation of Machine/Sched.lean keeps: the parts of the state that it may write.
-/
namespace Sys2Proof.Machine

theorem State.chargeAlways_keep {s : State} {l : List (BClass × Nat)} : Keep s (State.chargeAlways s l) [.sched] := by
  unfold State.chargeAlways
  repeat' first
    | intro x_
    | with_reducible assumption
    | with_reducible apply Keep.refl
    | with_reducible apply Keep.foldl
    | with_reducible apply Keep.foldlFst
    | with_reducible apply Keep.fst (by assumption)
    | decide
    | dsimp -proj only [pair_fst, pair_snd]
    | split
    | with_reducible apply Keep.set_sched

theorem State.openBudgets_keep {s : State} : Keep s (State.openBudgets s) [.sched] := by
  unfold State.openBudgets
  repeat' first
    | intro x_
    | with_reducible assumption
    | with_reducible apply Keep.refl
    | with_reducible apply Keep.ite
    | with_reducible apply Keep.foldl
    | with_reducible apply Keep.foldlFst
    | with_reducible apply Keep.fst (by assumption)
    | decide
    | dsimp -proj only [pair_fst, pair_snd]
    | split
    | with_reducible apply Keep.set_sched

theorem State.allot_keep {s0 s : State} {ws : List Sec} {fg : Bool} {l : List (BClass × Nat)} {go : State → State} (hk : Keep s0 s ws) (hw : within [.seq, .sched] ws = true) (h_go : ∀ v, Keep s0 v ws → Keep s0 (go v) ws) :
    Keep s0 (State.allot s fg l go) ws := by
  unfold State.allot
  repeat' first
    | with_reducible assumption
    | with_reducible apply Keep.refl
    | with_reducible apply h_go
    | with_reducible apply Keep.ite
    | exact within_trans (by decide) hw
    | decide
    | dsimp -proj only [pair_fst, pair_snd]
    | split
    | with_reducible apply Keep.set_sched
    | with_reducible apply Keep.set_seq_sched

theorem State.withShare_keep {s0 s : State} {ws : List Sec} {f : State → State} (hk : Keep s0 s ws) (hw : within [.sched] ws = true) (h_f : ∀ v, Keep s0 v ws → Keep s0 (f v) ws) :
    Keep s0 (State.withShare s f) ws := by
  unfold State.withShare
  repeat' first
    | with_reducible assumption
    | with_reducible apply Keep.refl
    | with_reducible apply h_f
    | with_reducible apply Keep.ite
    | exact within_trans (by decide) hw
    | decide
    | dsimp -proj only [pair_fst, pair_snd]
    | split
    | with_reducible apply Keep.set_sched

end Sys2Proof.Machine
end

