-- ==== Sys2Proof/Laws/KeepPools.lean ====
section
/-!
SUPPORT. What each operation of Machine/Pools.lean keeps: the parts of the state that it may write.
-/
namespace Sys2Proof.Machine

theorem State.send_keep {s : State} {r : MReq} {img : Nat} {port : Nat} : Keep s (State.send s r img port) [.mbr, .out] := by
  unfold State.send
  repeat' first
    | with_reducible assumption
    | with_reducible apply Keep.refl
    | with_reducible apply Keep.app State.emit_keep
    | with_reducible exact Mbr.lens_mk
    | (show (_ : List Nat) = _; first | with_reducible rfl | (simp [Mbr.lens]; done) | rfl)
    | decide
    | dsimp -proj only [pair_fst, pair_snd]
    | split
    | with_reducible apply Keep.set_mbr

theorem State.updPool_keep {s : State} {id : BitVec 16} {f : Pool → Pool} : Keep s (State.updPool s id f) [.pools] := by
  unfold State.updPool
  repeat' first
    | with_reducible assumption
    | with_reducible apply Keep.refl
    | decide
    | dsimp -proj only [pair_fst, pair_snd]
    | split
    | with_reducible apply Keep.set_pools

theorem State.sendAll_keep {s : State} {l : List (MReq × Nat × Nat)} : Keep s (State.sendAll s l).1 [.mbr, .out] := by
  unfold State.sendAll
  repeat' first
    | intro x_
    | with_reducible assumption
    | with_reducible apply Keep.refl
    | with_reducible apply Keep.app State.send_keep
    | with_reducible apply Keep.foldl
    | with_reducible apply Keep.foldlFst
    | with_reducible apply Keep.fst (by assumption)
    | decide
    | dsimp -proj only [pair_fst, pair_snd]
    | split

theorem State.sendNow_keep {s : State} {rs : List MReq} : Keep s (State.sendNow s rs).1 [.mbr, .sched, .out] := by
  unfold State.sendNow
  repeat' first
    | intro x_
    | with_reducible assumption
    | with_reducible apply Keep.refl
    | with_reducible apply Keep.app State.chargeAlways_keep
    | with_reducible apply Keep.app State.sendAll_keep
    | with_reducible apply Keep.foldl
    | with_reducible apply Keep.foldlFst
    | with_reducible apply Keep.fst (by assumption)
    | decide
    | dsimp -proj only [pair_fst, pair_snd]
    | split

theorem State.admitReqs_keep {s0 s : State} {ws : List Sec} {fg : Bool} {rs : List MReq} {more : List (BClass × Nat)} {go : State → List Nat → State} (hk : Keep s0 s ws) (hw : within [.seq, .mbr, .sched, .out] ws = true) (h_go : ∀ v a0, Keep s0 v ws → Keep s0 (go v a0) ws) :
    Keep s0 (State.admitReqs s fg rs more go) ws := by
  unfold State.admitReqs
  repeat' first
    | intro x_
    | with_reducible assumption
    | with_reducible apply Keep.refl
    | with_reducible apply h_go
    | with_reducible apply Keep.ite
    | with_reducible apply State.allot_keep
    | with_reducible apply Keep.app State.sendAll_keep
    | with_reducible apply Keep.fst (by assumption)
    | exact within_trans (by decide) hw
    | decide
    | dsimp -proj only [pair_fst, pair_snd]
    | split

theorem State.loseBlock_keep {s : State} {pid : BitVec 16} {v : BitVec 12} {b : Nat} {cause : Nat} {layout : Nat} : Keep s (State.loseBlock s pid v b cause layout) [.regs, .pools, .evr] := by
  unfold State.loseBlock
  repeat' first
    | intro x_
    | with_reducible assumption
    | with_reducible apply Keep.refl
    | with_reducible apply Keep.app State.updPool_keep
    | with_reducible apply Keep.app State.log_keep
    | with_reducible apply Keep.iff
    | decide
    | dsimp -proj only [pair_fst, pair_snd]
    | split

theorem State.updImg_keep {s : State} {num : Nat} {f : IMember → IMember} : Keep s (State.updImg s num f) [.mbr] := by
  unfold State.updImg
  repeat' first
    | with_reducible assumption
    | with_reducible apply Keep.refl
    | with_reducible exact Mbr.lens_mk
    | (show (_ : List Nat) = _; first | with_reducible rfl | (simp [Mbr.lens]; done) | rfl)
    | decide
    | dsimp -proj only [pair_fst, pair_snd]
    | split
    | with_reducible apply Keep.set_mbr

theorem State.trimLost_keep {s : State} {pid : BitVec 16} {v : BitVec 12} {bs : List Nat} : Keep s (State.trimLost s pid v bs) [.pools] := by
  unfold State.trimLost
  repeat' first
    | intro x_
    | with_reducible assumption
    | with_reducible apply Keep.refl
    | with_reducible apply Keep.ite
    | with_reducible apply Keep.app State.updPool_keep
    | with_reducible apply Keep.foldl
    | with_reducible apply Keep.foldlFst
    | with_reducible apply Keep.fst (by assumption)
    | decide
    | dsimp -proj only [pair_fst, pair_snd]
    | split

end Sys2Proof.Machine
end

