-- ==== Sys2Proof/Laws/KeepZone.lean ====
section
/-!
SUPPORT. What each operation of Machine/Zone.lean keeps: the parts of the state that it may write.
-/
namespace Sys2Proof.Machine

theorem State.jmSend_keep {s : State} {p : Pool} {blks : List (Nat × Block)} {purpose : MPurpose} : Keep s (State.jmSend s p blks purpose).1 [.pools, .mbr, .sched, .out] := by
  unfold State.jmSend
  repeat' first
    | intro x_
    | with_reducible assumption
    | with_reducible apply Keep.refl
    | with_reducible apply Keep.ite
    | with_reducible apply Keep.app State.updPool_keep
    | with_reducible apply Keep.app State.sendNow_keep
    | with_reducible apply Keep.foldl
    | with_reducible apply Keep.foldlFst
    | with_reducible apply Keep.fst (by assumption)
    | decide
    | dsimp -proj only [pair_fst, pair_snd]
    | split

end Sys2Proof.Machine
end

