-- ==== Sys2Proof/Laws/KeepCache.lean ====
section
/-!
SUPPORT. What each operation of Machine/Cache.lean keeps: the parts of the state that it may write.
-/
namespace Sys2Proof.Machine

theorem State.supersede_keep {s : State} {pool : BitVec 16} {vol : BitVec 12} {vbn : Nat} {slot : Nat} : Keep s (State.supersede s pool vol vbn slot) [.cch] := by
  unfold State.supersede
  repeat' first
    | intro x_
    | with_reducible assumption
    | with_reducible apply Keep.refl
    | with_reducible apply Keep.each
    | decide
    | dsimp -proj only [pair_fst, pair_snd]
    | split
    | with_reducible apply Keep.set_cch

theorem State.updSlot_keep {s : State} {i : Nat} {f : Slot → Slot} : Keep s (State.updSlot s i f) [.cch] := by
  unfold State.updSlot
  repeat' first
    | with_reducible assumption
    | with_reducible apply Keep.refl
    | decide
    | dsimp -proj only [pair_fst, pair_snd]
    | split
    | with_reducible apply Keep.set_cch

theorem State.dropSlots_keep {s : State} {l : List Nat} : Keep s (State.dropSlots s l) [.cch] := by
  unfold State.dropSlots
  repeat' first
    | with_reducible assumption
    | with_reducible apply Keep.refl
    | decide
    | dsimp -proj only [pair_fst, pair_snd]
    | split
    | with_reducible apply Keep.set_cch

theorem State.gather_keep {s : State} {pool : BitVec 16} {vol : BitVec 12} {layout : Nat} {stripe : Nat} {vstripe : Nat} {vbn : Nat} {slot : Nat} : Keep s (State.gather s pool vol layout stripe vstripe vbn slot) [.regs, .cch] := by
  unfold State.gather
  repeat' first
    | intro x_
    | with_reducible assumption
    | with_reducible apply Keep.refl
    | with_reducible apply Keep.ite
    | with_reducible apply Keep.app State.bump_keep
    | with_reducible apply Keep.app State.updSlot_keep
    | with_reducible apply Keep.foldl
    | with_reducible apply Keep.foldlFst
    | with_reducible apply Keep.fst (by assumption)
    | decide
    | dsimp -proj only [pair_fst, pair_snd]
    | split
    | with_reducible apply Keep.set_cch

theorem State.unhold_keep {s : State} {n : Nat} : Keep s (State.unhold s n) [.cch] := by
  unfold State.unhold
  repeat' first
    | with_reducible assumption
    | with_reducible apply Keep.refl
    | decide
    | dsimp -proj only [pair_fst, pair_snd]
    | split
    | with_reducible apply Keep.set_cch

theorem State.throttle_keep {s : State} : Keep s (State.throttle s) [.regs, .cch, .evr] := by
  unfold State.throttle
  repeat' first
    | intro x_
    | with_reducible assumption
    | with_reducible apply Keep.refl
    | with_reducible apply Keep.ite
    | with_reducible apply Keep.app State.log_keep
    | with_reducible apply Keep.iff
    | decide
    | dsimp -proj only [pair_fst, pair_snd]
    | split
    | with_reducible apply Keep.set_cch

theorem State.freeSlot_keep {s : State} {i : Nat} {onMembers : Bool} : Keep s (State.freeSlot s i onMembers) [.cch, .jnl] := by
  unfold State.freeSlot
  repeat' first
    | with_reducible assumption
    | with_reducible apply Keep.refl
    | with_reducible apply Keep.ite
    | decide
    | dsimp -proj only [pair_fst, pair_snd]
    | split
    | with_reducible apply Keep.set_cch_jnl

theorem State.freeSuperseded_keep {s : State} : Keep s (State.freeSuperseded s) [.cch, .jnl] := by
  unfold State.freeSuperseded
  repeat' first
    | intro x_
    | with_reducible assumption
    | with_reducible apply Keep.refl
    | with_reducible apply Keep.app State.freeSlot_keep
    | with_reducible apply Keep.each
    | decide
    | dsimp -proj only [pair_fst, pair_snd]
    | split

theorem State.unhold122_keep {s : State} {pool : BitVec 16} : Keep s (State.unhold122 s pool) [.cch] := by
  unfold State.unhold122
  repeat' first
    | with_reducible assumption
    | with_reducible apply Keep.refl
    | decide
    | dsimp -proj only [pair_fst, pair_snd]
    | split
    | with_reducible apply Keep.set_cch

theorem State.openWaiting_keep {s : State} : Keep s (State.openWaiting s) [.cch] := by
  unfold State.openWaiting
  repeat' first
    | intro x_
    | with_reducible assumption
    | with_reducible apply Keep.refl
    | with_reducible apply Keep.foldl
    | with_reducible apply Keep.foldlFst
    | with_reducible apply Keep.fst (by assumption)
    | decide
    | dsimp -proj only [pair_fst, pair_snd]
    | split
    | with_reducible apply Keep.set_cch

end Sys2Proof.Machine
end

