-- ==== Sys2Proof/Laws/KeepJournal.lean ====
section
/-!
SUPPORT. What each operation of Machine/Journal.lean keeps: the parts of the state that it may write.
-/
namespace Sys2Proof.Machine

theorem State.belaySend_keep {s : State} {f : TxFrame} : Keep s (State.belaySend s f) [.rop] := by
  unfold State.belaySend
  repeat' first
    | with_reducible assumption
    | with_reducible apply Keep.refl
    | with_reducible exact Rop.lens_mk
    | (show (_ : List Nat) = _; first | with_reducible rfl | (simp [Rop.lens]; done) | rfl)
    | decide
    | dsimp -proj only [pair_fst, pair_snd]
    | split
    | with_reducible apply Keep.set_rop

theorem State.jpush_keep {s : State} {r : JRec} : Keep s (State.jpush s r) [.jnl, .rop] := by
  unfold State.jpush
  repeat' first
    | intro x_
    | with_reducible assumption
    | with_reducible apply Keep.refl
    | with_reducible apply Keep.app State.belaySend_keep
    | with_reducible apply Keep.iff
    | decide
    | dsimp -proj only [pair_fst, pair_snd]
    | split
    | with_reducible apply Keep.set_jnl

theorem State.appendRetires_keep   {x1 : Nat} : ∀ {s : State}, Keep s (State.appendRetires s x1) [.jnl, .rop] := by
  induction x1 with
  | zero =>
    intro s
    unfold State.appendRetires
    repeat' first
      | with_reducible assumption
      | with_reducible apply Keep.refl
      | with_reducible apply Keep.app State.jpush_keep
      | decide
      | dsimp -proj only [pair_fst, pair_snd]
      | split
      | with_reducible apply Keep.set_jnl
  | succ n ih =>
    intro s
    unfold State.appendRetires
    repeat' first
      | with_reducible assumption
      | with_reducible apply Keep.refl
      | with_reducible apply Keep.app ih
      | with_reducible apply Keep.app State.jpush_keep
      | decide
      | dsimp -proj only [pair_fst, pair_snd]
      | split
      | with_reducible apply Keep.set_jnl

theorem State.appendIntent_keep {s : State} {flags : Nat} {vol : BitVec 12} {gen : Nat} {acc : Nat} {run : Nat × Nat × Nat} : Keep s (State.appendIntent s flags vol gen acc run) [.jnl, .rop] := by
  unfold State.appendIntent
  repeat' first
    | with_reducible assumption
    | with_reducible apply Keep.refl
    | with_reducible apply Keep.app State.jpush_keep
    | decide
    | dsimp -proj only [pair_fst, pair_snd]
    | split
    | with_reducible apply Keep.set_jnl

theorem State.relocate_keep {s : State} : Keep s (State.relocate s) [.regs, .jnl, .rop] := by
  unfold State.relocate
  repeat' first
    | with_reducible assumption
    | with_reducible apply Keep.refl
    | with_reducible apply Keep.ite
    | with_reducible apply Keep.app State.bump_keep
    | with_reducible apply Keep.app State.jpush_keep
    | with_reducible apply Keep.app State.appendRetires_keep
    | decide
    | dsimp -proj only [pair_fst, pair_snd]
    | split
    | with_reducible apply Keep.set_jnl

theorem State.sealCut_keep {s : State} : Keep s (State.sealCut s) [.regs, .jnl, .rop, .mgt] := by
  unfold State.sealCut
  repeat' first
    | intro x_
    | with_reducible assumption
    | with_reducible apply Keep.refl
    | with_reducible apply Keep.ite
    | with_reducible apply Keep.app State.belaySend_keep
    | with_reducible apply Keep.app State.inject_keep
    | with_reducible apply Keep.iff
    | with_reducible apply Keep.fst (by assumption)
    | decide
    | dsimp -proj only [pair_fst, pair_snd]
    | split
    | with_reducible apply Keep.set_jnl

theorem State.belayDown_keep {s : State} : Keep s (State.belayDown s) [.regs, .cch, .jnl, .rop, .evr] := by
  unfold State.belayDown
  repeat' first
    | with_reducible assumption
    | with_reducible apply Keep.refl
    | with_reducible apply Keep.ite
    | with_reducible apply Keep.app State.log_keep
    | with_reducible exact Rop.lens_mk
    | (show (_ : List Nat) = _; first | with_reducible rfl | (simp [Rop.lens]; done) | rfl)
    | decide
    | dsimp -proj only [pair_fst, pair_snd]
    | split
    | with_reducible apply Keep.set_cch_jnl_rop

theorem State.coldAppend_keep {s : State} {pid : BitVec 16} {tick : Nat} {nums : List (BitVec 32)} {mark : Bool} : Keep s (State.coldAppend s pid tick nums mark) [.jnl, .pools, .mbr, .sched, .out] := by
  unfold State.coldAppend
  repeat' first
    | intro x_
    | with_reducible assumption
    | with_reducible apply Keep.refl
    | with_reducible apply Keep.ite
    | with_reducible apply Keep.app State.jmSend_keep
    | with_reducible apply Keep.app State.updPool_keep
    | with_reducible apply Keep.iff
    | with_reducible apply Keep.fst (by assumption)
    | decide
    | dsimp -proj only [pair_fst, pair_snd]
    | split
    | with_reducible apply Keep.set_jnl

theorem State.secure_keep {s : State} {need : LiveRec → Bool} {nums : List (BitVec 32)} : Keep s (State.secure s need nums) [.ord, .cch, .jnl] := by
  unfold State.secure
  repeat' first
    | intro x_
    | with_reducible assumption
    | with_reducible apply Keep.refl
    | with_reducible apply Keep.ite
    | with_reducible apply Keep.app State.freeSuperseded_keep
    | with_reducible apply Keep.foldl
    | with_reducible apply Keep.foldlFst
    | with_reducible apply Keep.fst (by assumption)
    | decide
    | dsimp -proj only [pair_fst, pair_snd]
    | split
    | with_reducible apply Keep.set_cch
    | with_reducible apply Keep.set_ord

theorem State.secureSolo_keep {s : State} : Keep s (State.secureSolo s) [.ord, .cch, .jnl, .pools, .mbr, .sched, .out] := by
  unfold State.secureSolo
  repeat' first
    | intro x_
    | with_reducible assumption
    | with_reducible apply Keep.refl
    | with_reducible apply Keep.app State.coldAppend_keep
    | with_reducible apply Keep.app State.secure_keep
    | with_reducible apply Keep.each
    | decide
    | dsimp -proj only [pair_fst, pair_snd]
    | split
    | with_reducible apply Keep.set_jnl

theorem State.retirePass_keep {s : State} : Keep s (State.retirePass s) [.cch, .jnl] := by
  unfold State.retirePass
  repeat' first
    | with_reducible assumption
    | with_reducible apply Keep.refl
    | with_reducible apply Keep.ite
    | decide
    | dsimp -proj only [pair_fst, pair_snd]
    | split
    | with_reducible apply Keep.set_cch_jnl

theorem State.honour_keep   {x1 : Nat} : ∀ {s : State}, Keep s (State.honour s x1) [.regs, .ord, .cch, .jnl, .evr] := by
  induction x1 with
  | zero =>
    intro s
    unfold State.honour
    repeat' first
      | intro x_
      | with_reducible assumption
      | with_reducible apply Keep.refl
      | with_reducible apply Keep.ite
      | with_reducible apply Keep.app State.log_keep
      | with_reducible apply Keep.app State.secure_keep
      | with_reducible apply Keep.iff
      | decide
      | dsimp -proj only [pair_fst, pair_snd]
      | split
      | with_reducible apply Keep.set_jnl
      | with_reducible apply Keep.set_cch
  | succ n ih =>
    intro s
    unfold State.honour
    repeat' first
      | intro x_
      | with_reducible assumption
      | with_reducible apply Keep.refl
      | with_reducible apply Keep.app ih
      | with_reducible apply Keep.ite
      | with_reducible apply Keep.app State.log_keep
      | with_reducible apply Keep.app State.secure_keep
      | with_reducible apply Keep.iff
      | decide
      | dsimp -proj only [pair_fst, pair_snd]
      | split
      | with_reducible apply Keep.set_jnl
      | with_reducible apply Keep.set_cch

theorem State.resendSeal_keep {s : State} {x : SealSt} : Keep s (State.resendSeal s x) [.regs, .rop] := by
  unfold State.resendSeal
  repeat' first
    | with_reducible assumption
    | with_reducible apply Keep.refl
    | with_reducible apply Keep.app State.bump_keep
    | with_reducible exact Rop.lens_mk
    | (show (_ : List Nat) = _; first | with_reducible rfl | (simp [Rop.lens]; done) | rfl)
    | decide
    | dsimp -proj only [pair_fst, pair_snd]
    | split
    | with_reducible apply Keep.set_rop

theorem State.nakSeal_keep {s : State} {tick : Nat} : Keep s (State.nakSeal s tick) [.regs, .cch, .jnl, .rop, .evr] := by
  unfold State.nakSeal
  repeat' first
    | with_reducible assumption
    | with_reducible apply Keep.refl
    | with_reducible apply Keep.ite
    | with_reducible apply Keep.app State.resendSeal_keep
    | with_reducible apply Keep.app State.belayDown_keep
    | decide
    | dsimp -proj only [pair_fst, pair_snd]
    | split
    | with_reducible apply Keep.set_jnl

theorem State.takeBelay_keep {s : State} : Keep s (State.takeBelay s) [.regs, .ord, .cch, .jnl, .rop, .evr] := by
  unfold State.takeBelay
  repeat' first
    | intro x_
    | with_reducible assumption
    | with_reducible apply Keep.refl
    | with_reducible apply Keep.app State.honour_keep
    | with_reducible apply Keep.app State.nakSeal_keep
    | with_reducible apply Keep.each
    | decide
    | dsimp -proj only [pair_fst, pair_snd]
    | split
    | with_reducible apply Keep.set_jnl

theorem State.join_keep {s : State} : Keep s (State.join s) [.jnl, .rop] := by
  unfold State.join
  repeat' first
    | with_reducible assumption
    | with_reducible apply Keep.refl
    | with_reducible exact Rop.lens_mk
    | (show (_ : List Nat) = _; first | with_reducible rfl | (simp [Rop.lens]; done) | rfl)
    | decide
    | dsimp -proj only [pair_fst, pair_snd]
    | split
    | with_reducible apply Keep.set_jnl
    | with_reducible apply Keep.set_rop

theorem State.coldDone_keep {s : State} : Keep s (State.coldDone s) [.ord, .cch, .jnl, .pools, .mbr, .sched, .out] := by
  unfold State.coldDone
  repeat' first
    | intro x_
    | with_reducible assumption
    | with_reducible apply Keep.refl
    | with_reducible apply Keep.ite
    | with_reducible apply Keep.app State.coldAppend_keep
    | with_reducible apply Keep.app State.secure_keep
    | with_reducible apply Keep.each
    | decide
    | dsimp -proj only [pair_fst, pair_snd]
    | split
    | with_reducible apply Keep.set_jnl_pools

end Sys2Proof.Machine
end

