-- ==== Sys2Proof/Laws/KeepTasks.lean ====
section
/-!
SUPPORT. What each operation of Machine/Tasks.lean keeps: the parts of the state that it may write.
-/
namespace Sys2Proof.Machine

theorem State.newTask_keep {s : State} {kind : TaskKind} {pool : BitVec 16} {layout : Nat} {stripe : Nat} {offs : List Nat} {bad : List (Nat × Nat)} : Keep s (State.newTask s kind pool layout stripe offs bad) [.seq] := by
  unfold State.newTask
  repeat' first
    | with_reducible assumption
    | with_reducible apply Keep.refl
    | decide
    | dsimp -proj only [pair_fst, pair_snd]
    | split
    | with_reducible apply Keep.set_seq

theorem State.useMatrix_keep {s : State} {d : LayoutDesc} {er : List Nat} : Keep s (State.useMatrix s d er) [.regs, .cod] := by
  unfold State.useMatrix
  repeat' first
    | with_reducible assumption
    | with_reducible apply Keep.refl
    | with_reducible apply Keep.ite
    | with_reducible apply Keep.app State.bump_keep
    | decide
    | dsimp -proj only [pair_fst, pair_snd]
    | split
    | with_reducible apply Keep.set_cod

theorem State.updTask_keep {s : State} {id : Nat} {f : Task → Task} : Keep s (State.updTask s id f) [.seq] := by
  unfold State.updTask
  repeat' first
    | with_reducible assumption
    | with_reducible apply Keep.refl
    | decide
    | dsimp -proj only [pair_fst, pair_snd]
    | split
    | with_reducible apply Keep.set_seq

theorem State.dropTask_keep {s : State} {id : Nat} : Keep s (State.dropTask s id) [.seq] := by
  unfold State.dropTask
  repeat' first
    | with_reducible assumption
    | with_reducible apply Keep.refl
    | decide
    | dsimp -proj only [pair_fst, pair_snd]
    | split
    | with_reducible apply Keep.set_seq

end Sys2Proof.Machine
end

