-- ==== Sys2Proof/Laws/KeepTaskRun.lean ====
section
/-!
SUPPORT. What each operation of Machine/TaskRun.lean keeps: the parts of the state that it may write.
-/
namespace Sys2Proof.Machine

theorem State.updCmd_keep {s : State} {id : Nat} {f : Cmd → Cmd} : Keep s (State.updCmd s id f) [.ord] := by
  unfold State.updCmd
  repeat' first
    | with_reducible assumption
    | with_reducible apply Keep.refl
    | decide
    | dsimp -proj only [pair_fst, pair_snd]
    | split
    | with_reducible apply Keep.set_ord

theorem State.setBlk_keep {s : State} {cmd : Nat} {vbn : Nat} {st : RBlkSt} : Keep s (State.setBlk s cmd vbn st) [.ord] := by
  unfold State.setBlk
  repeat' first
    | with_reducible assumption
    | with_reducible apply Keep.refl
    | with_reducible apply Keep.app State.updCmd_keep
    | decide
    | dsimp -proj only [pair_fst, pair_snd]
    | split

theorem State.encodeCopyBack_keep {s : State} {p : Pool} {g : Geo} {t : Task} {m : Nat} : Keep s (State.encodeCopyBack s p g t m) [.seq] := by
  unfold State.encodeCopyBack
  repeat' first
    | with_reducible assumption
    | with_reducible apply Keep.refl
    | with_reducible apply Keep.ite
    | with_reducible apply Keep.app State.updTask_keep
    | decide
    | dsimp -proj only [pair_fst, pair_snd]
    | split

theorem State.encodeUnit_keep {s : State} {p : Pool} {g : Geo} {t : Task} : Keep s (State.encodeUnit s p g t) [.seq] := by
  unfold State.encodeUnit
  repeat' first
    | with_reducible assumption
    | with_reducible apply Keep.refl
    | with_reducible apply Keep.ite
    | with_reducible apply Keep.app State.updTask_keep
    | decide
    | dsimp -proj only [pair_fst, pair_snd]
    | split

theorem State.undoDestage_keep {s : State} {t : Task} {bad : List (Nat × Nat)} {held : Bool} : Keep s (State.undoDestage s t bad held) [.cch] := by
  unfold State.undoDestage
  repeat' first
    | intro x_
    | with_reducible assumption
    | with_reducible apply Keep.refl
    | with_reducible apply Keep.app State.updSlot_keep
    | with_reducible apply Keep.each
    | with_reducible apply Keep.foldl
    | with_reducible apply Keep.foldlFst
    | with_reducible apply Keep.fst (by assumption)
    | decide
    | dsimp -proj only [pair_fst, pair_snd]
    | split
    | with_reducible apply Keep.set_cch

theorem State.stopTask_keep {s : State} {t : Task} : Keep s (State.stopTask s t) [.seq] := by
  unfold State.stopTask
  repeat' first
    | with_reducible assumption
    | with_reducible apply Keep.refl
    | with_reducible apply Keep.ite
    | with_reducible apply Keep.app State.dropTask_keep
    | with_reducible apply Keep.app State.updTask_keep
    | decide
    | dsimp -proj only [pair_fst, pair_snd]
    | split

theorem State.endTask_keep {s : State} {t : Task} : Keep s (State.endTask s t) [.cch, .pools, .seq] := by
  unfold State.endTask
  repeat' first
    | with_reducible assumption
    | with_reducible apply Keep.refl
    | with_reducible apply Keep.ite
    | with_reducible apply Keep.app State.updPool_keep
    | with_reducible apply Keep.app State.undoDestage_keep
    | with_reducible apply Keep.app State.stopTask_keep
    | with_reducible apply Keep.app State.updTask_keep
    | decide
    | dsimp -proj only [pair_fst, pair_snd]
    | split
    | with_reducible apply Keep.set_pools

theorem State.tagTask_keep {s : State} {p : Pool} {g : Geo} {id : Nat} : Keep s (State.tagTask s p g id) [.regs, .cch, .pools, .seq, .fix, .evr, .mgt, .freeCtr] := by
  unfold State.tagTask
  repeat' first
    | with_reducible assumption
    | with_reducible apply Keep.refl
    | with_reducible apply Keep.ite
    | with_reducible apply Keep.app State.tagAll_keep
    | with_reducible apply Keep.app State.endTask_keep
    | with_reducible apply Keep.fst (by assumption)
    | decide
    | dsimp -proj only [pair_fst, pair_snd]
    | split

theorem State.chooseTargets_keep {s : State} {p : Pool} {g : Geo} {t : Task} {xs : List Nat} : Keep s (State.chooseTargets s p g t xs).1 [.regs, .pools, .evr] := by
  unfold State.chooseTargets
  repeat' first
    | intro x_
    | with_reducible assumption
    | with_reducible apply Keep.refl
    | with_reducible apply Keep.ite
    | with_reducible apply Keep.app State.updPool_keep
    | with_reducible apply Keep.app State.log_keep
    | with_reducible apply Keep.foldl
    | with_reducible apply Keep.foldlFst
    | with_reducible apply Keep.iff
    | with_reducible apply Keep.fst (by assumption)
    | decide
    | dsimp -proj only [pair_fst, pair_snd]
    | split

theorem State.holdStripe_keep {s : State} {t : Task} : Keep s (State.holdStripe s t) [.pools, .seq] := by
  unfold State.holdStripe
  repeat' first
    | with_reducible assumption
    | with_reducible apply Keep.refl
    | with_reducible apply Keep.app State.updPool_keep
    | with_reducible apply Keep.app State.dropTask_keep
    | decide
    | dsimp -proj only [pair_fst, pair_snd]
    | split

theorem State.loseStrips_keep {s : State} {p : Pool} {g : Geo} {n : Nat} {o : Nat} {l : List (Nat × Nat)} : Keep s (State.loseStrips s p g n o l) [.regs, .pools, .evr] := by
  unfold State.loseStrips
  repeat' first
    | intro x_
    | with_reducible assumption
    | with_reducible apply Keep.refl
    | with_reducible apply Keep.ite
    | with_reducible apply Keep.app State.loseBlock_keep
    | with_reducible apply Keep.each
    | decide
    | dsimp -proj only [pair_fst, pair_snd]
    | split

theorem State.encodeRestore_keep {s : State} {p : Pool} {g : Geo} {t : Task} : Keep s (State.encodeRestore s p g t) [.regs, .pools, .seq, .evr] := by
  unfold State.encodeRestore
  repeat' first
    | intro x_
    | with_reducible assumption
    | with_reducible apply Keep.refl
    | with_reducible apply Keep.ite
    | with_reducible apply Keep.app State.bump_keep
    | with_reducible apply Keep.app State.chooseTargets_keep
    | with_reducible apply Keep.app State.holdStripe_keep
    | with_reducible apply Keep.app State.loseStrips_keep
    | with_reducible apply Keep.app State.updTask_keep
    | with_reducible apply Keep.each
    | with_reducible apply Keep.fst (by assumption)
    | decide
    | dsimp -proj only [pair_fst, pair_snd]
    | split

theorem State.encodeDestage_keep {s : State} {p : Pool} {g : Geo} {t : Task} {e : GEntry} : Keep s (State.encodeDestage s p g t e) [.cch, .seq] := by
  unfold State.encodeDestage
  repeat' first
    | with_reducible assumption
    | with_reducible apply Keep.refl
    | with_reducible apply Keep.ite
    | with_reducible apply Keep.app State.dropTask_keep
    | with_reducible apply Keep.app State.undoDestage_keep
    | with_reducible apply Keep.app State.updTask_keep
    | decide
    | dsimp -proj only [pair_fst, pair_snd]
    | split

theorem State.fixEffects_keep {s : State} {p : Pool} {g : Geo} {n : Nat} {o : Nat} {f : OffFix} : Keep s (State.fixEffects s p g n o f) [.regs, .pools, .evr] := by
  unfold State.fixEffects
  repeat' first
    | intro x_
    | with_reducible assumption
    | with_reducible apply Keep.refl
    | with_reducible apply Keep.app State.log_keep
    | with_reducible apply Keep.app State.loseStrips_keep
    | with_reducible apply Keep.each
    | with_reducible apply Keep.iff
    | decide
    | dsimp -proj only [pair_fst, pair_snd]
    | split

theorem State.countScrub_keep {s : State} {pid : BitVec 16} {f : OffFix} : Keep s (State.countScrub s pid f) [.regs, .pools] := by
  unfold State.countScrub
  repeat' first
    | with_reducible assumption
    | with_reducible apply Keep.refl
    | with_reducible apply Keep.app State.bump_keep
    | with_reducible apply Keep.app State.updPool_keep
    | decide
    | dsimp -proj only [pair_fst, pair_snd]
    | split

theorem State.checkOff_keep {s : State} {p : Pool} {g : Geo} {t : Task} {o : Nat} : Keep s (State.checkOff s p g t o) [.regs, .pools, .seq, .evr] := by
  unfold State.checkOff
  repeat' first
    | with_reducible assumption
    | with_reducible apply Keep.refl
    | with_reducible apply Keep.app State.fixEffects_keep
    | with_reducible apply Keep.app State.bump_keep
    | with_reducible apply Keep.app State.countScrub_keep
    | with_reducible apply Keep.app State.updTask_keep
    | decide
    | dsimp -proj only [pair_fst, pair_snd]
    | split

theorem State.encodeTask_keep {s : State} {p : Pool} {g : Geo} {t : Task} : Keep s (State.encodeTask s p g t) [.regs, .cch, .pools, .seq, .fix, .evr, .mgt, .freeCtr] := by
  unfold State.encodeTask
  repeat' first
    | intro x_
    | with_reducible assumption
    | with_reducible apply Keep.refl
    | with_reducible apply Keep.app State.encodeCopyBack_keep
    | with_reducible apply Keep.app State.encodeUnit_keep
    | with_reducible apply Keep.app State.dropTask_keep
    | with_reducible apply Keep.app State.tagTask_keep
    | with_reducible apply Keep.app State.encodeRestore_keep
    | with_reducible apply Keep.app State.encodeDestage_keep
    | with_reducible apply Keep.app State.checkOff_keep
    | with_reducible apply Keep.app State.updTask_keep
    | with_reducible apply Keep.each
    | decide
    | dsimp -proj only [pair_fst, pair_snd]
    | split

theorem State.admitSegs_keep  {p : Pool} {g : Geo} {id : Nat}  {x4 : Nat} : ∀ {s : State}, Keep s (State.admitSegs s p g id x4) [.regs, .cch, .cod, .pools, .seq, .fix, .evr, .mgt, .sched, .freeCtr] := by
  induction x4 with
  | zero =>
    intro s
    unfold State.admitSegs
    repeat' first
      | intro x_
      | with_reducible assumption
      | with_reducible apply Keep.refl
      | with_reducible apply Keep.ite
      | with_reducible apply Keep.app State.useMatrix_keep
      | with_reducible apply Keep.app State.encodeTask_keep
      | with_reducible apply State.allot_keep
      | with_reducible apply Keep.app State.selfCheck_keep
      | with_reducible apply Keep.app State.updTask_keep
      | with_reducible apply Keep.each
      | decide
      | dsimp -proj only [pair_fst, pair_snd]
      | split
      | with_reducible apply Keep.set_sched
  | succ n ih =>
    intro s
    unfold State.admitSegs
    repeat' first
      | intro x_
      | with_reducible assumption
      | with_reducible apply Keep.refl
      | with_reducible apply Keep.app ih
      | with_reducible apply Keep.ite
      | with_reducible apply Keep.app State.useMatrix_keep
      | with_reducible apply Keep.app State.encodeTask_keep
      | with_reducible apply State.allot_keep
      | with_reducible apply Keep.app State.selfCheck_keep
      | with_reducible apply Keep.app State.updTask_keep
      | with_reducible apply Keep.each
      | decide
      | dsimp -proj only [pair_fst, pair_snd]
      | split
      | with_reducible apply Keep.set_sched

theorem State.stepTask_keep {s : State} {id : Nat} : Keep s (State.stepTask s id) [.regs, .cch, .cod, .pools, .seq, .fix, .mbr, .evr, .mgt, .sched, .freeCtr, .out] := by
  unfold State.stepTask
  repeat' first
    | intro x_
    | with_reducible assumption
    | with_reducible apply Keep.refl
    | with_reducible apply Keep.ite
    | with_reducible apply State.admitReqs_keep
    | with_reducible apply Keep.app State.admitSegs_keep
    | with_reducible apply Keep.app State.updTask_keep
    | decide
    | dsimp -proj only [pair_fst, pair_snd]
    | split

theorem State.stepWrites_keep {s : State} {id : Nat} : Keep s (State.stepWrites s id) [.seq, .mbr, .sched, .out] := by
  unfold State.stepWrites
  repeat' first
    | intro x_
    | with_reducible assumption
    | with_reducible apply Keep.refl
    | with_reducible apply Keep.ite
    | with_reducible apply State.admitReqs_keep
    | with_reducible apply Keep.app State.updTask_keep
    | with_reducible apply Keep.each
    | decide
    | dsimp -proj only [pair_fst, pair_snd]
    | split

theorem State.runTask_keep {s : State} {id : Nat} : Keep s (State.runTask s id) [.regs, .cch, .cod, .pools, .seq, .fix, .mbr, .evr, .mgt, .sched, .freeCtr, .out] := by
  unfold State.runTask
  repeat' first
    | intro x_
    | with_reducible assumption
    | with_reducible apply Keep.refl
    | with_reducible apply Keep.ite
    | with_reducible apply State.marked_keep
    | with_reducible apply Keep.app State.stepTask_keep
    | with_reducible apply Keep.app State.stepWrites_keep
    | decide
    | dsimp -proj only [pair_fst, pair_snd]
    | split

theorem State.fillFor_keep {s : State} {c : Cmd} {pool : BitVec 16} {vbn : Nat} {b : Block} : Keep s (State.fillFor s c pool vbn b) [.cch] := by
  unfold State.fillFor
  repeat' first
    | with_reducible assumption
    | with_reducible apply Keep.refl
    | with_reducible apply Keep.ite
    | decide
    | dsimp -proj only [pair_fst, pair_snd]
    | split
    | with_reducible apply Keep.set_cch

theorem State.rewrite_keep {s : State} {p : Pool} {g : Geo} {n : Nat} {w : TWrite} {second : Bool} : Keep s (State.rewrite s p g n w second) [.mbr, .sched, .out] := by
  unfold State.rewrite
  repeat' first
    | with_reducible assumption
    | with_reducible apply Keep.refl
    | with_reducible apply Keep.app State.sendNow_keep
    | with_reducible apply Keep.fst (by assumption)
    | decide
    | dsimp -proj only [pair_fst, pair_snd]
    | split

end Sys2Proof.Machine
end

