-- ==== Sys2Proof/Laws/KeepMembers.lean ====
section
/-!
SUPPORT. What each operation of Machine/Members.lean keeps: the parts of the state that it may write.
-/
namespace Sys2Proof.Machine

theorem State.degrade_keep {s : State} {cmd : Nat} {pid : BitVec 16} {lid : Nat} {n : Nat} {x : Nat} {o : Nat} {vbn : Nat} {repair : Bool} : Keep s (State.degrade s cmd pid lid n x o vbn repair) [.ord, .seq] := by
  unfold State.degrade
  repeat' first
    | with_reducible assumption
    | with_reducible apply Keep.refl
    | with_reducible apply Keep.app State.newTask_keep
    | with_reducible apply Keep.app State.setBlk_keep
    | decide
    | dsimp -proj only [pair_fst, pair_snd]
    | split

theorem State.journalExposure_keep {s : State} : Keep s (State.journalExposure s) [.regs, .pools, .evr] := by
  unfold State.journalExposure
  repeat' first
    | intro x_
    | with_reducible assumption
    | with_reducible apply Keep.refl
    | with_reducible apply Keep.app State.updPool_keep
    | with_reducible apply Keep.app State.log_keep
    | with_reducible apply Keep.each
    | with_reducible apply Keep.iff
    | decide
    | dsimp -proj only [pair_fst, pair_snd]
    | split

theorem State.conditions_keep {s : State} : Keep s (State.conditions s) [.regs, .pools, .evr] := by
  unfold State.conditions
  repeat' first
    | intro x_
    | with_reducible assumption
    | with_reducible apply Keep.refl
    | with_reducible apply Keep.app State.updPool_keep
    | with_reducible apply Keep.app State.log_keep
    | with_reducible apply Keep.each
    | with_reducible apply Keep.iff
    | decide
    | dsimp -proj only [pair_fst, pair_snd]
    | split

theorem State.workLost_keep {s : State} {c : MCmd} : Keep s (State.workLost s c) [.ord, .cch, .pools, .seq] := by
  unfold State.workLost
  repeat' first
    | intro x_
    | with_reducible assumption
    | with_reducible apply Keep.refl
    | with_reducible apply Keep.ite
    | with_reducible apply Keep.app State.degrade_keep
    | with_reducible apply Keep.app State.endTask_keep
    | with_reducible apply Keep.app State.updTask_keep
    | with_reducible apply Keep.each
    | decide
    | dsimp -proj only [pair_fst, pair_snd]
    | split

theorem State.report_keep {s : State} {num : Nat} {what : Nat} : Keep s (State.report s num what) [.mbr] := by
  unfold State.report
  repeat' first
    | with_reducible assumption
    | with_reducible apply Keep.refl
    | with_reducible exact Mbr.lens_mk
    | (show (_ : List Nat) = _; first | with_reducible rfl | (simp [Mbr.lens]; done) | rfl)
    | decide
    | dsimp -proj only [pair_fst, pair_snd]
    | split
    | with_reducible apply Keep.set_mbr

theorem State.mismatch_keep {s : State} {pid : BitVec 16} {i : Nat} {vbn : Nat} : Keep s (State.mismatch s pid i vbn) [.regs, .evr] := by
  unfold State.mismatch
  repeat' first
    | with_reducible assumption
    | with_reducible apply Keep.refl
    | with_reducible apply Keep.app State.bump_keep
    | with_reducible apply Keep.app State.log_keep
    | decide
    | dsimp -proj only [pair_fst, pair_snd]
    | split

theorem State.catchUpEnd_keep {s : State} {pid : BitVec 16} {i : Nat} : Keep s (State.catchUpEnd s pid i) [.regs, .cch, .pools, .evr] := by
  unfold State.catchUpEnd
  repeat' first
    | with_reducible assumption
    | with_reducible apply Keep.refl
    | with_reducible apply Keep.ite
    | with_reducible apply Keep.app State.updPool_keep
    | with_reducible apply Keep.app State.log_keep
    | with_reducible apply Keep.app State.unhold122_keep
    | decide
    | dsimp -proj only [pair_fst, pair_snd]
    | split

theorem State.pickJms_keep {s : State} : Keep s (State.pickJms s) [.pools] := by
  unfold State.pickJms
  repeat' first
    | intro x_
    | with_reducible assumption
    | with_reducible apply Keep.refl
    | with_reducible apply Keep.app State.updPool_keep
    | with_reducible apply Keep.each
    | decide
    | dsimp -proj only [pair_fst, pair_snd]
    | split

theorem State.mediaErr_keep {s : State} {num : Nat} : Keep s (State.mediaErr s num) [.regs, .mbr, .evr] := by
  unfold State.mediaErr
  repeat' first
    | with_reducible assumption
    | with_reducible apply Keep.refl
    | with_reducible apply Keep.ite
    | with_reducible apply Keep.app State.bump_keep
    | with_reducible apply Keep.app State.log_keep
    | with_reducible apply Keep.app State.updImg_keep
    | with_reducible exact Mbr.lens_mk
    | (show (_ : List Nat) = _; first | with_reducible rfl | (simp [Mbr.lens]; done) | rfl)
    | decide
    | dsimp -proj only [pair_fst, pair_snd]
    | split
    | with_reducible apply Keep.set_mbr

theorem State.resvConflict_keep {s : State} {pid : BitVec 16} : Keep s (State.resvConflict s pid) [.regs, .pools, .evr] := by
  unfold State.resvConflict
  repeat' first
    | with_reducible assumption
    | with_reducible apply Keep.refl
    | with_reducible apply Keep.ite
    | with_reducible apply Keep.app State.bump_keep
    | with_reducible apply Keep.app State.updPool_keep
    | with_reducible apply Keep.app State.log_keep
    | decide
    | dsimp -proj only [pair_fst, pair_snd]
    | split

theorem State.leave_keep {s : State} {pid : BitVec 16} {i : Nat} : Keep s (State.leave s pid i) [.ord, .cch, .jnl, .pools, .seq, .mbr] := by
  unfold State.leave
  repeat' first
    | intro x_
    | with_reducible assumption
    | with_reducible apply Keep.refl
    | with_reducible apply Keep.ite
    | with_reducible apply Keep.app State.updPool_keep
    | with_reducible apply Keep.app State.workLost_keep
    | with_reducible apply Keep.app State.endTask_keep
    | with_reducible apply Keep.each
    | with_reducible exact Mbr.lens_mk
    | (show (_ : List Nat) = _; first | with_reducible rfl | (simp [Mbr.lens]; done) | rfl)
    | decide
    | dsimp -proj only [pair_fst, pair_snd]
    | split
    | with_reducible apply Keep.set_ord_jnl_seq_mbr

theorem State.onErasure_keep {s : State} {pid : BitVec 16} {i : Nat} : Keep s (State.onErasure s pid i) [.cch, .pools] := by
  unfold State.onErasure
  repeat' first
    | intro x_
    | with_reducible assumption
    | with_reducible apply Keep.refl
    | with_reducible apply Keep.ite
    | with_reducible apply Keep.app State.updPool_keep
    | with_reducible apply Keep.app State.unhold122_keep
    | with_reducible apply Keep.each
    | with_reducible apply Keep.iff
    | decide
    | dsimp -proj only [pair_fst, pair_snd]
    | split

theorem State.memFail_keep {s : State} {pid : BitVec 16} {i : Nat} : Keep s (State.memFail s pid i) [.regs, .ord, .cch, .jnl, .pools, .seq, .mbr, .evr] := by
  unfold State.memFail
  repeat' first
    | with_reducible assumption
    | with_reducible apply Keep.refl
    | with_reducible apply Keep.ite
    | with_reducible apply Keep.app State.bump_keep
    | with_reducible apply Keep.app State.leave_keep
    | with_reducible apply Keep.app State.updPool_keep
    | with_reducible apply Keep.app State.log_keep
    | with_reducible apply Keep.app State.onErasure_keep
    | decide
    | dsimp -proj only [pair_fst, pair_snd]
    | split

theorem State.memUnreach_keep {s : State} {pid : BitVec 16} {i : Nat} : Keep s (State.memUnreach s pid i) [.regs, .ord, .cch, .jnl, .pools, .seq, .mbr, .evr] := by
  unfold State.memUnreach
  repeat' first
    | with_reducible assumption
    | with_reducible apply Keep.refl
    | with_reducible apply Keep.ite
    | with_reducible apply Keep.app State.leave_keep
    | with_reducible apply Keep.app State.updPool_keep
    | with_reducible apply Keep.app State.log_keep
    | with_reducible apply Keep.app State.onErasure_keep
    | decide
    | dsimp -proj only [pair_fst, pair_snd]
    | split

theorem State.memReach_keep {s : State} {pid : BitVec 16} {i : Nat} : Keep s (State.memReach s pid i) [.regs, .cch, .pools, .evr] := by
  unfold State.memReach
  repeat' first
    | with_reducible assumption
    | with_reducible apply Keep.refl
    | with_reducible apply Keep.ite
    | with_reducible apply Keep.app State.updPool_keep
    | with_reducible apply Keep.app State.catchUpEnd_keep
    | with_reducible apply Keep.app State.unhold122_keep
    | decide
    | dsimp -proj only [pair_fst, pair_snd]
    | split

theorem State.takeReports_keep {s : State} : Keep s (State.takeReports s) [.regs, .ord, .cch, .jnl, .pools, .seq, .mbr, .evr] := by
  unfold State.takeReports
  repeat' first
    | intro x_
    | with_reducible assumption
    | with_reducible apply Keep.refl
    | with_reducible apply Keep.app State.memFail_keep
    | with_reducible apply Keep.app State.memUnreach_keep
    | with_reducible apply Keep.app State.memReach_keep
    | with_reducible apply Keep.app State.updImg_keep
    | with_reducible apply Keep.each
    | with_reducible exact Mbr.lens_mk
    | (show (_ : List Nat) = _; first | with_reducible rfl | (simp [Mbr.lens]; done) | rfl)
    | decide
    | dsimp -proj only [pair_fst, pair_snd]
    | split
    | with_reducible apply Keep.set_mbr

theorem State.takeDeclared_keep {s : State} : Keep s (State.takeDeclared s) [.regs, .ord, .cch, .jnl, .pools, .seq, .mbr, .evr, .mgt] := by
  unfold State.takeDeclared
  repeat' first
    | intro x_
    | with_reducible assumption
    | with_reducible apply Keep.refl
    | with_reducible apply Keep.app State.memFail_keep
    | with_reducible apply Keep.each
    | with_reducible exact ⟨Mgt.slots_mk, Mgt.dir_mk, Mgt.dirNvm_mk⟩
    | with_reducible exact Mgt.staging_mk
    | with_reducible exact Mgt.lens_mk
    | (show (_ : List Nat) = _; first | with_reducible rfl | (simp [Mgt.lens]; done) | rfl)
    | decide
    | dsimp -proj only [pair_fst, pair_snd]
    | split
    | with_reducible apply Keep.set_mgt

theorem State.missingExpiry_keep {s : State} {pid : BitVec 16} {i : Nat} : Keep s (State.missingExpiry s pid i) [.regs, .ord, .cch, .jnl, .pools, .seq, .mbr, .evr] := by
  unfold State.missingExpiry
  repeat' first
    | with_reducible assumption
    | with_reducible apply Keep.refl
    | with_reducible apply Keep.ite
    | with_reducible apply Keep.app State.memFail_keep
    | decide
    | dsimp -proj only [pair_fst, pair_snd]
    | split

theorem State.missingTimers_keep {s : State} : Keep s (State.missingTimers s) [.regs, .ord, .cch, .jnl, .pools, .seq, .mbr, .evr] := by
  unfold State.missingTimers
  repeat' first
    | intro x_
    | with_reducible assumption
    | with_reducible apply Keep.refl
    | with_reducible apply Keep.app State.missingExpiry_keep
    | with_reducible apply Keep.each
    | decide
    | dsimp -proj only [pair_fst, pair_snd]
    | split

theorem State.beyond_keep {s : State} {p : Pool} {g : Geo} {n : Nat} {o : Nat} {er : List Nat} : Keep s (State.beyond s p g n o er).1 [.regs, .pools, .evr] := by
  unfold State.beyond
  repeat' first
    | with_reducible assumption
    | with_reducible apply Keep.refl
    | with_reducible apply Keep.ite
    | with_reducible apply Keep.app State.loseStrips_keep
    | with_reducible apply Keep.fst (by assumption)
    | decide
    | dsimp -proj only [pair_fst, pair_snd]
    | split

theorem State.publishPools_keep {s : State} : Keep s (State.publishPools s) [.regs, .pools, .evr] := by
  unfold State.publishPools
  repeat' first
    | intro x_
    | with_reducible assumption
    | with_reducible apply Keep.refl
    | with_reducible apply Keep.ite
    | with_reducible apply Keep.app State.updPool_keep
    | with_reducible apply Keep.app State.log_keep
    | with_reducible apply Keep.each
    | decide
    | dsimp -proj only [pair_fst, pair_snd]
    | split

theorem State.replaceJms_keep {s : State} : Keep s (State.replaceJms s) [.regs, .pools, .evr] := by
  unfold State.replaceJms
  repeat' first
    | intro x_
    | with_reducible assumption
    | with_reducible apply Keep.refl
    | with_reducible apply Keep.ite
    | with_reducible apply Keep.app State.updPool_keep
    | with_reducible apply Keep.app State.log_keep
    | with_reducible apply Keep.each
    | with_reducible apply Keep.iff
    | decide
    | dsimp -proj only [pair_fst, pair_snd]
    | split

end Sys2Proof.Machine
end

