-- ==== Sys2Proof/Laws/KeepOutcomes.lean ====
section
/-!
SUPPORT. What each operation of Machine/Outcomes.lean keeps: the parts of the state that it may write.
-/
namespace Sys2Proof.Machine

theorem State.stripDone_keep {s : State} {t : Task} {x : Nat} : Keep s (State.stripDone s t x) [.regs, .pools] := by
  unfold State.stripDone
  repeat' first
    | with_reducible assumption
    | with_reducible apply Keep.refl
    | with_reducible apply Keep.app State.bump_keep
    | with_reducible apply Keep.app State.updPool_keep
    | decide
    | dsimp -proj only [pair_fst, pair_snd]
    | split

theorem State.renameId_keep {s : State} {old : Nat} {new : Nat} : Keep s (State.renameId s old new) [.ord, .jnl, .pools, .seq, .rop] := by
  unfold State.renameId
  repeat' first
    | with_reducible assumption
    | with_reducible apply Keep.refl
    | with_reducible apply Keep.ite
    | with_reducible exact Rop.lens_mk
    | (show (_ : List Nat) = _; first | with_reducible rfl | (simp [Rop.lens]; done) | rfl)
    | decide
    | dsimp -proj only [pair_fst, pair_snd]
    | split
    | with_reducible apply Keep.set_ord_jnl_pools_seq_rop

theorem State.reissue_keep {s : State} {c : MCmd} {count : Bool} : Keep s (State.reissue s c count) [.mbr, .sched, .out] := by
  unfold State.reissue
  repeat' first
    | with_reducible assumption
    | with_reducible apply Keep.refl
    | with_reducible apply Keep.ite
    | with_reducible apply Keep.app State.chargeAlways_keep
    | with_reducible apply Keep.app State.emit_keep
    | with_reducible exact Mbr.lens_mk
    | (show (_ : List Nat) = _; first | with_reducible rfl | (simp [Mbr.lens]; done) | rfl)
    | decide
    | dsimp -proj only [pair_fst, pair_snd]
    | split
    | with_reducible apply Keep.set_mbr

theorem State.unwait_keep {s : State} {pid : BitVec 16} {id : Nat} {ok : Bool} : Keep s (State.unwait s pid id ok) [.ord, .jnl, .pools, .rop] := by
  unfold State.unwait
  repeat' first
    | with_reducible assumption
    | with_reducible apply Keep.refl
    | with_reducible apply Keep.app State.updPool_keep
    | with_reducible exact Rop.lens_mk
    | (show (_ : List Nat) = _; first | with_reducible rfl | (simp [Rop.lens]; done) | rfl)
    | decide
    | dsimp -proj only [pair_fst, pair_snd]
    | split
    | with_reducible apply Keep.set_ord_jnl_rop

theorem State.refuseMember_keep {s : State} {num : Nat} {cause : Nat} : Keep s (State.refuseMember s num cause) [.regs, .mbr, .evr] := by
  unfold State.refuseMember
  repeat' first
    | with_reducible assumption
    | with_reducible apply Keep.refl
    | with_reducible apply Keep.app State.bump_keep
    | with_reducible apply Keep.app State.log_keep
    | with_reducible apply Keep.app State.updImg_keep
    | decide
    | dsimp -proj only [pair_fst, pair_snd]
    | split

theorem State.openPaths_keep {s : State} {num : Nat} : Keep s (State.openPaths s num) [.regs, .mbr, .evr] := by
  unfold State.openPaths
  repeat' first
    | intro x_
    | with_reducible assumption
    | with_reducible apply Keep.refl
    | with_reducible apply Keep.ite
    | with_reducible apply Keep.app State.log_keep
    | with_reducible apply Keep.app State.updImg_keep
    | with_reducible apply Keep.each
    | with_reducible apply Keep.iff
    | with_reducible exact Mbr.lens_mk
    | (show (_ : List Nat) = _; first | with_reducible rfl | (simp [Mbr.lens]; done) | rfl)
    | decide
    | dsimp -proj only [pair_fst, pair_snd]
    | split
    | with_reducible apply Keep.set_mbr

theorem State.admitEnd_keep {s : State} {num : Nat} {info : Option NsInfo} : Keep s (State.admitEnd s num info) [.regs, .mbr, .evr] := by
  unfold State.admitEnd
  repeat' first
    | with_reducible assumption
    | with_reducible apply Keep.refl
    | with_reducible apply Keep.ite
    | with_reducible apply Keep.app State.refuseMember_keep
    | with_reducible apply Keep.app State.updImg_keep
    | with_reducible apply Keep.app State.openPaths_keep
    | decide
    | dsimp -proj only [pair_fst, pair_snd]
    | split

theorem State.zoneRead_keep {s : State} {p : Pool} {r : Rerep} {scan : Bool} {c : MCmd} {bs : List Block} : Keep s (State.zoneRead s p r scan c bs) [.regs, .pools, .mbr, .evr, .sched, .out] := by
  unfold State.zoneRead
  repeat' first
    | intro x_
    | with_reducible assumption
    | with_reducible apply Keep.refl
    | with_reducible apply Keep.ite
    | with_reducible apply Keep.app State.updPool_keep
    | with_reducible apply Keep.app State.sendNow_keep
    | with_reducible apply Keep.app State.mismatch_keep
    | with_reducible apply Keep.iff
    | with_reducible apply Keep.fst (by assumption)
    | decide
    | dsimp -proj only [pair_fst, pair_snd]
    | split

theorem State.rerepDone_keep {s : State} {c : MCmd} {scan : Bool} {ok : Bool} {bs : List Block} : Keep s (State.rerepDone s c scan ok bs) [.regs, .pools, .mbr, .evr, .sched, .out] := by
  unfold State.rerepDone
  repeat' first
    | with_reducible assumption
    | with_reducible apply Keep.refl
    | with_reducible apply Keep.ite
    | with_reducible apply Keep.app State.zoneRead_keep
    | with_reducible apply Keep.app State.updPool_keep
    | decide
    | dsimp -proj only [pair_fst, pair_snd]
    | split

theorem State.copyGone_keep {s : State} {c : MCmd} : Keep s (State.copyGone s c) [.regs, .pools, .mbr, .evr, .sched, .out] := by
  unfold State.copyGone
  repeat' first
    | with_reducible assumption
    | with_reducible apply Keep.refl
    | with_reducible apply Keep.app State.rerepDone_keep
    | decide
    | dsimp -proj only [pair_fst, pair_snd]
    | split

theorem State.cmdGone_keep {s : State} {c : MCmd} : Keep s (State.cmdGone s c) [.regs, .ord, .cch, .jnl, .pools, .seq, .mbr, .rop, .evr, .sched, .out] := by
  unfold State.cmdGone
  repeat' first
    | with_reducible assumption
    | with_reducible apply Keep.refl
    | with_reducible apply Keep.ite
    | with_reducible apply Keep.app State.unwait_keep
    | with_reducible apply Keep.app State.admitEnd_keep
    | with_reducible apply Keep.app State.workLost_keep
    | with_reducible apply Keep.app State.report_keep
    | with_reducible apply Keep.app State.copyGone_keep
    | decide
    | dsimp -proj only [pair_fst, pair_snd]
    | split

theorem State.memTimeout_keep {s : State} {id : Nat} : Keep s (State.memTimeout s id) [.regs, .ord, .cch, .jnl, .pools, .seq, .mbr, .rop, .evr, .mgt, .sched, .out] := by
  unfold State.memTimeout
  repeat' first
    | intro x_
    | with_reducible assumption
    | with_reducible apply Keep.refl
    | with_reducible apply Keep.ite
    | with_reducible apply Keep.app State.bump_keep
    | with_reducible apply State.marked_keep
    | with_reducible apply Keep.app State.renameId_keep
    | with_reducible apply Keep.app State.reissue_keep
    | with_reducible apply Keep.app State.cmdGone_keep
    | with_reducible apply Keep.app State.emit_keep
    | with_reducible exact Mbr.lens_mk
    | (show (_ : List Nat) = _; first | with_reducible rfl | (simp [Mbr.lens]; done) | rfl)
    | decide
    | dsimp -proj only [pair_fst, pair_snd]
    | split
    | with_reducible apply Keep.set_mbr

theorem State.memTimers_keep {s : State} : Keep s (State.memTimers s) [.regs, .ord, .cch, .jnl, .pools, .seq, .mbr, .rop, .evr, .mgt, .sched, .out] := by
  unfold State.memTimers
  repeat' first
    | intro x_
    | with_reducible assumption
    | with_reducible apply Keep.refl
    | with_reducible apply Keep.app State.memTimeout_keep
    | with_reducible apply Keep.each
    | decide
    | dsimp -proj only [pair_fst, pair_snd]
    | split

theorem State.bitmapDone_keep {s : State} : Keep s (State.bitmapDone s) [.pools] := by
  unfold State.bitmapDone
  repeat' first
    | with_reducible assumption
    | with_reducible apply Keep.refl
    | decide
    | dsimp -proj only [pair_fst, pair_snd]
    | split
    | with_reducible apply Keep.set_pools

theorem State.repairAcked_keep {s : State} {c : MCmd} {lid : Nat} {n : Nat} {x : Nat} {second : Bool} : Keep s (State.repairAcked s c lid n x second) [.mbr, .sched, .out] := by
  unfold State.repairAcked
  repeat' first
    | with_reducible assumption
    | with_reducible apply Keep.refl
    | with_reducible apply Keep.app State.sendNow_keep
    | with_reducible apply Keep.fst (by assumption)
    | decide
    | dsimp -proj only [pair_fst, pair_snd]
    | split

theorem State.unitPut_keep {s : State} {id : Nat} {vbn : Nat} {b : Block} : Keep s (State.unitPut s id vbn b) [.seq] := by
  unfold State.unitPut
  repeat' first
    | with_reducible assumption
    | with_reducible apply Keep.refl
    | with_reducible apply Keep.app State.updTask_keep
    | decide
    | dsimp -proj only [pair_fst, pair_snd]
    | split

theorem State.unitRead_keep {s : State} {c : MCmd} {id : Nat} {lid : Nat} {n : Nat} {x : Nat} {bs : List Block} : Keep s (State.unitRead s c id lid n x bs) [.regs, .seq, .evr] := by
  unfold State.unitRead
  repeat' first
    | intro x_
    | with_reducible assumption
    | with_reducible apply Keep.refl
    | with_reducible apply Keep.ite
    | with_reducible apply Keep.app State.newTask_keep
    | with_reducible apply Keep.app State.unitPut_keep
    | with_reducible apply Keep.app State.mismatch_keep
    | with_reducible apply Keep.app State.updTask_keep
    | with_reducible apply Keep.each
    | decide
    | dsimp -proj only [pair_fst, pair_snd]
    | split

theorem State.readBacks_keep {s : State} {c : MCmd} {id : Nat} {x : Nat} : Keep s (State.readBacks s c id x) [.mbr, .sched, .out] := by
  unfold State.readBacks
  repeat' first
    | intro x_
    | with_reducible assumption
    | with_reducible apply Keep.refl
    | with_reducible apply Keep.ite
    | with_reducible apply Keep.app State.sendNow_keep
    | with_reducible apply Keep.each
    | with_reducible apply Keep.fst (by assumption)
    | decide
    | dsimp -proj only [pair_fst, pair_snd]
    | split

theorem State.taskRead_keep {s : State} {c : MCmd} {id : Nat} {x : Nat} {bs : List Block} : Keep s (State.taskRead s c id x bs) [.regs, .seq, .evr] := by
  unfold State.taskRead
  repeat' first
    | intro x_
    | with_reducible assumption
    | with_reducible apply Keep.refl
    | with_reducible apply Keep.ite
    | with_reducible apply Keep.app State.mismatch_keep
    | with_reducible apply Keep.app State.updTask_keep
    | with_reducible apply Keep.each
    | decide
    | dsimp -proj only [pair_fst, pair_snd]
    | split

theorem State.cmdRead_keep {s : State} {c : MCmd} {cmd : Nat} {lid : Nat} {n : Nat} {x : Nat} {bs : List Block} : Keep s (State.cmdRead s c cmd lid n x bs) [.regs, .ord, .cch, .seq, .evr] := by
  unfold State.cmdRead
  repeat' first
    | intro x_
    | with_reducible assumption
    | with_reducible apply Keep.refl
    | with_reducible apply Keep.ite
    | with_reducible apply Keep.app State.fillFor_keep
    | with_reducible apply Keep.app State.mismatch_keep
    | with_reducible apply Keep.app State.degrade_keep
    | with_reducible apply Keep.app State.setBlk_keep
    | with_reducible apply Keep.each
    | decide
    | dsimp -proj only [pair_fst, pair_snd]
    | split

theorem State.repairFailed_keep {s : State} {c : MCmd} {lid : Nat} {n : Nat} {x : Nat} {o : Nat} {second : Bool} {counts : Bool} : Keep s (State.repairFailed s c lid n x o second counts) [.regs, .seq, .mbr, .evr] := by
  unfold State.repairFailed
  repeat' first
    | intro x_
    | with_reducible assumption
    | with_reducible apply Keep.refl
    | with_reducible apply Keep.ite
    | with_reducible apply Keep.app State.newTask_keep
    | with_reducible apply Keep.app State.mediaErr_keep
    | with_reducible apply Keep.app State.log_keep
    | with_reducible apply Keep.iff
    | decide
    | dsimp -proj only [pair_fst, pair_snd]
    | split

theorem State.readBackDone_keep {s : State} {c : MCmd} {lid : Nat} {n : Nat} {x : Nat} {second : Bool} {bs : List Block} : Keep s (State.readBackDone s c lid n x second bs) [.regs, .seq, .mbr, .evr] := by
  unfold State.readBackDone
  repeat' first
    | with_reducible assumption
    | with_reducible apply Keep.refl
    | with_reducible apply Keep.ite
    | with_reducible apply Keep.app State.bump_keep
    | with_reducible apply Keep.app State.log_keep
    | with_reducible apply Keep.app State.mismatch_keep
    | with_reducible apply Keep.app State.repairFailed_keep
    | decide
    | dsimp -proj only [pair_fst, pair_snd]
    | split

theorem State.labelDone_keep {s : State} {c : MCmd} {pl : MPayload} : Keep s (State.labelDone s c pl) [.mbr] := by
  unfold State.labelDone
  repeat' first
    | intro x_
    | with_reducible assumption
    | with_reducible apply Keep.refl
    | with_reducible apply Keep.ite
    | with_reducible apply Keep.app State.report_keep
    | with_reducible apply Keep.app State.updImg_keep
    | with_reducible apply Keep.iff
    | decide
    | dsimp -proj only [pair_fst, pair_snd]
    | split

theorem State.stripAcked_keep {s : State} {id : Nat} {x : Nat} : Keep s (State.stripAcked s id x) [.regs, .pools, .seq] := by
  unfold State.stripAcked
  repeat' first
    | with_reducible assumption
    | with_reducible apply Keep.refl
    | with_reducible apply Keep.ite
    | with_reducible apply Keep.app State.stripDone_keep
    | with_reducible apply Keep.app State.updTask_keep
    | decide
    | dsimp -proj only [pair_fst, pair_snd]
    | split

theorem State.memOk_keep {s : State} {c : MCmd} {pl : MPayload} : Keep s (State.memOk s c pl) [.regs, .ord, .cch, .jnl, .pools, .seq, .mbr, .rop, .evr, .sched, .out] := by
  unfold State.memOk
  repeat' first
    | intro x_
    | with_reducible assumption
    | with_reducible apply Keep.refl
    | with_reducible apply Keep.ite
    | with_reducible apply Keep.app State.updCmd_keep
    | with_reducible apply Keep.app State.repairAcked_keep
    | with_reducible apply Keep.app State.unitRead_keep
    | with_reducible apply Keep.app State.readBacks_keep
    | with_reducible apply Keep.app State.unwait_keep
    | with_reducible apply Keep.app State.admitEnd_keep
    | with_reducible apply Keep.app State.taskRead_keep
    | with_reducible apply Keep.app State.cmdRead_keep
    | with_reducible apply Keep.app State.rerepDone_keep
    | with_reducible apply Keep.app State.readBackDone_keep
    | with_reducible apply Keep.app State.labelDone_keep
    | with_reducible apply Keep.app State.stripAcked_keep
    | with_reducible apply Keep.app State.updTask_keep
    | with_reducible apply Keep.foldl
    | with_reducible apply Keep.foldlFst
    | with_reducible apply Keep.fst (by assumption)
    | with_reducible exact Rop.lens_mk
    | (show (_ : List Nat) = _; first | with_reducible rfl | (simp [Rop.lens]; done) | rfl)
    | decide
    | dsimp -proj only [pair_fst, pair_snd]
    | split
    | with_reducible apply Keep.set_rop
    | with_reducible apply Keep.set_pools

theorem State.delay_keep {s : State} {c : MCmd} : Keep s (State.delay s c) [.mbr, .freeCtr] := by
  unfold State.delay
  repeat' first
    | with_reducible assumption
    | with_reducible apply Keep.refl
    | with_reducible exact Mbr.lens_mk
    | (show (_ : List Nat) = _; first | with_reducible rfl | (simp [Mbr.lens]; done) | rfl)
    | decide
    | dsimp -proj only [pair_fst, pair_snd]
    | split
    | with_reducible apply Keep.set_mbr_freeCtr

theorem State.receive_keep {s : State} {c : MCmd} {bs : List Block} : Keep s (State.receive s c bs).1 [.regs, .fix, .evr, .mgt, .freeCtr] := by
  unfold State.receive
  repeat' first
    | intro x_
    | with_reducible assumption
    | with_reducible apply Keep.refl
    | with_reducible apply Keep.ite
    | with_reducible apply Keep.app State.inject_keep
    | with_reducible apply Keep.app State.decodeWord_keep
    | with_reducible apply Keep.app State.tagCheck_keep
    | with_reducible apply Keep.foldl
    | with_reducible apply Keep.foldlFst
    | with_reducible apply Keep.fst (by assumption)
    | decide
    | dsimp -proj only [pair_fst, pair_snd]
    | split

theorem State.memReadFailed_keep {s : State} {c : MCmd} : Keep s (State.memReadFailed s c) [.regs, .ord, .cch, .jnl, .pools, .seq, .mbr, .rop, .evr, .sched, .out] := by
  unfold State.memReadFailed
  repeat' first
    | with_reducible assumption
    | with_reducible apply Keep.refl
    | with_reducible apply Keep.app State.unitRead_keep
    | with_reducible apply Keep.app State.unwait_keep
    | with_reducible apply Keep.app State.taskRead_keep
    | with_reducible apply Keep.app State.cmdRead_keep
    | with_reducible apply Keep.app State.rerepDone_keep
    | with_reducible apply Keep.app State.readBackDone_keep
    | decide
    | dsimp -proj only [pair_fst, pair_snd]
    | split

theorem State.memWriteFailed_keep {s : State} {c : MCmd} : Keep s (State.memWriteFailed s c) [.regs, .ord, .cch, .jnl, .pools, .seq, .mbr, .rop, .evr, .sched, .out] := by
  unfold State.memWriteFailed
  repeat' first
    | with_reducible assumption
    | with_reducible apply Keep.refl
    | with_reducible apply Keep.app State.unwait_keep
    | with_reducible apply Keep.app State.updPool_keep
    | with_reducible apply Keep.app State.rerepDone_keep
    | with_reducible apply Keep.app State.updTask_keep
    | with_reducible apply Keep.app State.repairFailed_keep
    | decide
    | dsimp -proj only [pair_fst, pair_snd]
    | split
    | with_reducible apply Keep.set_cch

theorem State.memDone_keep {s : State} {id : Nat} {st : MStatus} {pl : MPayload} : Keep s (State.memDone s id st pl) [.regs, .ord, .cch, .jnl, .pools, .seq, .fix, .mbr, .rop, .evr, .mgt, .sched, .freeCtr, .out] := by
  unfold State.memDone
  repeat' first
    | intro x_
    | with_reducible assumption
    | with_reducible apply Keep.refl
    | with_reducible apply Keep.ite
    | with_reducible apply State.marked_keep
    | with_reducible apply Keep.app State.unwait_keep
    | with_reducible apply Keep.app State.memOk_keep
    | with_reducible apply Keep.app State.admitEnd_keep
    | with_reducible apply Keep.app State.delay_keep
    | with_reducible apply Keep.app State.receive_keep
    | with_reducible apply Keep.app State.resvConflict_keep
    | with_reducible apply Keep.app State.workLost_keep
    | with_reducible apply Keep.app State.report_keep
    | with_reducible apply Keep.app State.mediaErr_keep
    | with_reducible apply Keep.app State.cmdGone_keep
    | with_reducible apply Keep.app State.memReadFailed_keep
    | with_reducible apply Keep.app State.copyGone_keep
    | with_reducible apply Keep.app State.memWriteFailed_keep
    | with_reducible apply Keep.iff
    | with_reducible apply Keep.fst (by assumption)
    | with_reducible exact Mbr.lens_mk
    | (show (_ : List Nat) = _; first | with_reducible rfl | (simp [Mbr.lens]; done) | rfl)
    | decide
    | dsimp -proj only [pair_fst, pair_snd]
    | split
    | with_reducible apply Keep.set_mbr
    | with_reducible apply Keep.set_seq

theorem State.takeDone_keep {s : State} : Keep s (State.takeDone s) [.regs, .ord, .cch, .jnl, .pools, .seq, .fix, .mbr, .rop, .evr, .mgt, .sched, .freeCtr, .out] := by
  unfold State.takeDone
  repeat' first
    | intro x_
    | with_reducible assumption
    | with_reducible apply Keep.refl
    | with_reducible apply Keep.app State.memDone_keep
    | with_reducible apply Keep.each
    | with_reducible exact Mbr.lens_mk
    | (show (_ : List Nat) = _; first | with_reducible rfl | (simp [Mbr.lens]; done) | rfl)
    | decide
    | dsimp -proj only [pair_fst, pair_snd]
    | split
    | with_reducible apply Keep.set_mbr

end Sys2Proof.Machine
end

