-- ==== Sys2Proof/Laws/KeepTaskDone.lean ====
section
/-!
SUPPORT. What each operation of Machine/TaskDone.lean keeps: the parts of the state that it may write.
-/
namespace Sys2Proof.Machine

theorem State.unrecord_keep {s : State} {l : List (Nat × Nat)} : Keep s (State.unrecord s l) [.cch, .jnl] := by
  unfold State.unrecord
  repeat' first
    | intro x_
    | with_reducible assumption
    | with_reducible apply Keep.refl
    | with_reducible apply Keep.ite
    | with_reducible apply Keep.app State.updSlot_keep
    | with_reducible apply Keep.app State.freeSlot_keep
    | with_reducible apply Keep.each
    | decide
    | dsimp -proj only [pair_fst, pair_snd]
    | split

theorem State.sweepDone_keep {s : State} {t : Task} : Keep s (State.sweepDone s t) [.pools, .seq] := by
  unfold State.sweepDone
  repeat' first
    | with_reducible assumption
    | with_reducible apply Keep.refl
    | with_reducible apply Keep.ite
    | with_reducible apply Keep.app State.dropTask_keep
    | decide
    | dsimp -proj only [pair_fst, pair_snd]
    | split
    | with_reducible apply Keep.set_pools

theorem State.covered_keep {s : State} {pid : BitVec 16} {m : Nat} {lid : Nat} {n : Nat} : Keep s (State.covered s pid m lid n) [.regs, .cch, .pools, .evr] := by
  unfold State.covered
  repeat' first
    | with_reducible assumption
    | with_reducible apply Keep.refl
    | with_reducible apply Keep.app State.updPool_keep
    | with_reducible apply Keep.app State.catchUpEnd_keep
    | decide
    | dsimp -proj only [pair_fst, pair_snd]
    | split

theorem State.restoreDone_keep {s : State} {t : Task} : Keep s (State.restoreDone s t) [.regs, .cch, .pools, .seq, .evr] := by
  unfold State.restoreDone
  repeat' first
    | intro x_
    | with_reducible assumption
    | with_reducible apply Keep.refl
    | with_reducible apply Keep.app State.covered_keep
    | with_reducible apply Keep.app State.dropTask_keep
    | with_reducible apply Keep.app State.unhold122_keep
    | with_reducible apply Keep.each
    | decide
    | dsimp -proj only [pair_fst, pair_snd]
    | split

theorem State.unitDone_keep {s : State} {t : Task} : Keep s (State.unitDone s t) [.regs, .pools, .seq] := by
  unfold State.unitDone
  repeat' first
    | intro x_
    | with_reducible assumption
    | with_reducible apply Keep.refl
    | with_reducible apply Keep.app State.bump_keep
    | with_reducible apply Keep.app State.updPool_keep
    | with_reducible apply Keep.app State.dropTask_keep
    | with_reducible apply Keep.iff
    | decide
    | dsimp -proj only [pair_fst, pair_snd]
    | split

theorem State.copyBackDone_keep {s : State} {t : Task} : Keep s (State.copyBackDone s t) [.pools, .seq] := by
  unfold State.copyBackDone
  repeat' first
    | with_reducible assumption
    | with_reducible apply Keep.refl
    | with_reducible apply Keep.app State.updPool_keep
    | with_reducible apply Keep.app State.dropTask_keep
    | decide
    | dsimp -proj only [pair_fst, pair_snd]
    | split

theorem State.scrubDone_keep {s : State} {t : Task} : Keep s (State.scrubDone s t) [.pools, .seq] := by
  unfold State.scrubDone
  repeat' first
    | with_reducible assumption
    | with_reducible apply Keep.refl
    | with_reducible apply Keep.app State.updPool_keep
    | with_reducible apply Keep.app State.dropTask_keep
    | decide
    | dsimp -proj only [pair_fst, pair_snd]
    | split

theorem State.markFrond_keep {s : State} {pid : BitVec 16} {lid : Nat} {n : Nat} : Keep s (State.markFrond s pid lid n) [.pools, .seq] := by
  unfold State.markFrond
  repeat' first
    | intro x_
    | with_reducible assumption
    | with_reducible apply Keep.refl
    | with_reducible apply Keep.ite
    | with_reducible apply Keep.app State.updPool_keep
    | with_reducible apply Keep.iff
    | decide
    | dsimp -proj only [pair_fst, pair_snd]
    | split
    | with_reducible apply Keep.set_seq

theorem State.flushMembers_keep {s : State} {t : Task} {cmds : List Nat} : Keep s (State.flushMembers s t cmds) [.ord, .mbr, .sched, .out] := by
  unfold State.flushMembers
  repeat' first
    | intro x_
    | with_reducible assumption
    | with_reducible apply Keep.refl
    | with_reducible apply Keep.app State.updCmd_keep
    | with_reducible apply Keep.app State.sendNow_keep
    | with_reducible apply Keep.each
    | with_reducible apply Keep.fst (by assumption)
    | decide
    | dsimp -proj only [pair_fst, pair_snd]
    | split

theorem State.retireSlot_keep {s : State} {i : Nat} : Keep s (State.retireSlot s i) [.cch, .jnl] := by
  unfold State.retireSlot
  repeat' first
    | with_reducible assumption
    | with_reducible apply Keep.refl
    | with_reducible apply Keep.ite
    | with_reducible apply Keep.app State.updSlot_keep
    | with_reducible apply Keep.app State.freeSlot_keep
    | decide
    | dsimp -proj only [pair_fst, pair_snd]
    | split

theorem State.destageRetired_keep {s : State} {t : Task} : Keep s (State.destageRetired s t) [.ord, .cch, .jnl, .pools, .seq, .mbr, .sched, .out] := by
  unfold State.destageRetired
  repeat' first
    | intro x_
    | with_reducible assumption
    | with_reducible apply Keep.refl
    | with_reducible apply Keep.ite
    | with_reducible apply Keep.app State.trimLost_keep
    | with_reducible apply Keep.app State.unrecord_keep
    | with_reducible apply Keep.app State.markFrond_keep
    | with_reducible apply Keep.app State.dropTask_keep
    | with_reducible apply Keep.app State.flushMembers_keep
    | with_reducible apply Keep.app State.retireSlot_keep
    | with_reducible apply Keep.each
    | with_reducible apply Keep.iff
    | decide
    | dsimp -proj only [pair_fst, pair_snd]
    | split
    | with_reducible apply Keep.set_cch

theorem State.resyncDone_keep {s : State} {t : Task} {v : BitVec 12} {r : Nat} : Keep s (State.resyncDone s t v r) [.pools, .seq] := by
  unfold State.resyncDone
  repeat' first
    | with_reducible assumption
    | with_reducible apply Keep.refl
    | with_reducible apply Keep.ite
    | with_reducible apply Keep.app State.updPool_keep
    | with_reducible apply Keep.app State.dropTask_keep
    | decide
    | dsimp -proj only [pair_fst, pair_snd]
    | split

theorem State.finishTask_keep {s : State} {t : Task} : Keep s (State.finishTask s t) [.regs, .ord, .cch, .jnl, .pools, .seq, .mbr, .evr, .sched, .out] := by
  unfold State.finishTask
  repeat' first
    | with_reducible assumption
    | with_reducible apply Keep.refl
    | with_reducible apply Keep.ite
    | with_reducible apply Keep.app State.dropTask_keep
    | with_reducible apply Keep.app State.sweepDone_keep
    | with_reducible apply Keep.app State.restoreDone_keep
    | with_reducible apply Keep.app State.unitDone_keep
    | with_reducible apply Keep.app State.unhold122_keep
    | with_reducible apply Keep.app State.copyBackDone_keep
    | with_reducible apply Keep.app State.scrubDone_keep
    | with_reducible apply Keep.app State.destageRetired_keep
    | with_reducible apply Keep.app State.endTask_keep
    | with_reducible apply Keep.app State.resyncDone_keep
    | decide
    | dsimp -proj only [pair_fst, pair_snd]
    | split

theorem State.finishTasks_keep {s : State} : Keep s (State.finishTasks s) [.regs, .ord, .cch, .jnl, .pools, .seq, .mbr, .evr, .mgt, .sched, .out] := by
  unfold State.finishTasks
  repeat' first
    | intro x_
    | with_reducible assumption
    | with_reducible apply Keep.refl
    | with_reducible apply State.marked_keep
    | with_reducible apply Keep.app State.finishTask_keep
    | with_reducible apply Keep.app State.endTask_keep
    | with_reducible apply Keep.each
    | decide
    | dsimp -proj only [pair_fst, pair_snd]
    | split
    | with_reducible apply Keep.set_seq

theorem State.unitLost_keep {s : State} {p : Pool} {g : Geo} {t : Task} {o : Nat} {unit : Option (Nat × Nat × Nat)} {cause : Nat} : Keep s (State.unitLost s p g t o unit cause) [.regs, .cch, .pools, .seq, .evr] := by
  unfold State.unitLost
  repeat' first
    | with_reducible assumption
    | with_reducible apply Keep.refl
    | with_reducible apply Keep.ite
    | with_reducible apply Keep.app State.newTask_keep
    | with_reducible apply Keep.app State.unitPut_keep
    | with_reducible apply Keep.app State.loseStrips_keep
    | with_reducible apply Keep.app State.endTask_keep
    | decide
    | dsimp -proj only [pair_fst, pair_snd]
    | split

theorem State.repairOff_keep {s : State} {p : Pool} {g : Geo} {t : Task} {o : Nat} {second : Bool} {l : List (Nat × BlockData × Nat)} : Keep s (State.repairOff s p g t o second l) [.mbr, .sched, .out] := by
  unfold State.repairOff
  repeat' first
    | intro x_
    | with_reducible assumption
    | with_reducible apply Keep.refl
    | with_reducible apply Keep.ite
    | with_reducible apply Keep.app State.rewrite_keep
    | with_reducible apply Keep.each
    | decide
    | dsimp -proj only [pair_fst, pair_snd]
    | split

theorem State.giveBlock_keep {s : State} {p : Pool} {g : Geo} {t : Task} {o : Nat} {cmds : List (Nat × Nat)} {unit : Option (Nat × Nat × Nat)} {b : Block} : Keep s (State.giveBlock s p g t o cmds unit b) [.ord, .cch, .seq] := by
  unfold State.giveBlock
  repeat' first
    | intro x_
    | with_reducible assumption
    | with_reducible apply Keep.refl
    | with_reducible apply Keep.ite
    | with_reducible apply Keep.app State.fillFor_keep
    | with_reducible apply Keep.app State.unitPut_keep
    | with_reducible apply Keep.app State.setBlk_keep
    | with_reducible apply Keep.each
    | decide
    | dsimp -proj only [pair_fst, pair_snd]
    | split

theorem State.reconDone_keep {s : State} {t : Task} {cmds : List (Nat × Nat)} {unit : Option (Nat × Nat × Nat)} {repair : Bool} : Keep s (State.reconDone s t cmds unit repair) [.regs, .ord, .cch, .pools, .seq, .fix, .mbr, .evr, .mgt, .sched, .freeCtr, .out] := by
  unfold State.reconDone
  repeat' first
    | intro x_
    | with_reducible assumption
    | with_reducible apply Keep.refl
    | with_reducible apply Keep.ite
    | with_reducible apply Keep.app State.updCmd_keep
    | with_reducible apply Keep.app State.unitLost_keep
    | with_reducible apply Keep.app State.dropTask_keep
    | with_reducible apply Keep.app State.mediaErr_keep
    | with_reducible apply Keep.app State.log_keep
    | with_reducible apply Keep.app State.beyond_keep
    | with_reducible apply Keep.app State.repairOff_keep
    | with_reducible apply Keep.app State.giveBlock_keep
    | with_reducible apply Keep.app State.setBlk_keep
    | with_reducible apply Keep.app State.tagCheck_keep
    | with_reducible apply Keep.each
    | with_reducible apply Keep.iff
    | with_reducible apply Keep.fst (by assumption)
    | decide
    | dsimp -proj only [pair_fst, pair_snd]
    | split

theorem State.deliverRecon_keep {s : State} : Keep s (State.deliverRecon s) [.regs, .ord, .cch, .pools, .seq, .fix, .mbr, .evr, .mgt, .sched, .freeCtr, .out] := by
  unfold State.deliverRecon
  repeat' first
    | intro x_
    | with_reducible assumption
    | with_reducible apply Keep.refl
    | with_reducible apply State.marked_keep
    | with_reducible apply Keep.app State.reconDone_keep
    | with_reducible apply Keep.each
    | decide
    | dsimp -proj only [pair_fst, pair_snd]
    | split

theorem State.settleSlices_keep {s : State} : Keep s (State.settleSlices s) [.ord] := by
  unfold State.settleSlices
  repeat' first
    | with_reducible assumption
    | with_reducible apply Keep.refl
    | with_reducible apply Keep.ite
    | decide
    | dsimp -proj only [pair_fst, pair_snd]
    | split
    | with_reducible apply Keep.set_ord

end Sys2Proof.Machine
end

