-- ==== Sys2Proof/Laws/KeepMeta.lean ====
section
/-!
SUPPORT. What each operation of Machine/Meta.lean keeps: the parts of the state that it may write.
-/
namespace Sys2Proof.Machine

theorem State.startCommit_keep {s : State} {p : Pool} : Keep s (State.startCommit s p) [.pools, .mbr, .sched, .out] := by
  unfold State.startCommit
  repeat' first
    | with_reducible assumption
    | with_reducible apply Keep.refl
    | with_reducible apply Keep.ite
    | with_reducible apply Keep.app State.jmSend_keep
    | with_reducible apply Keep.app State.updPool_keep
    | with_reducible apply Keep.fst (by assumption)
    | decide
    | dsimp -proj only [pair_fst, pair_snd]
    | split

theorem State.startCommits_keep {s : State} : Keep s (State.startCommits s) [.pools, .mbr, .sched, .out] := by
  unfold State.startCommits
  repeat' first
    | intro x_
    | with_reducible assumption
    | with_reducible apply Keep.refl
    | with_reducible apply Keep.app State.startCommit_keep
    | with_reducible apply Keep.each
    | decide
    | dsimp -proj only [pair_fst, pair_snd]
    | split

theorem State.stepCopy_keep {s : State} {p : Pool} {scan : Bool} : Keep s (State.stepCopy s p scan) [.pools, .seq, .mbr, .sched, .out] := by
  unfold State.stepCopy
  repeat' first
    | intro x_
    | with_reducible assumption
    | with_reducible apply Keep.refl
    | with_reducible apply Keep.ite
    | with_reducible apply Keep.app State.updPool_keep
    | with_reducible apply Keep.app State.sendNow_keep
    | with_reducible apply State.admitReqs_keep
    | with_reducible apply Keep.fst (by assumption)
    | decide
    | dsimp -proj only [pair_fst, pair_snd]
    | split

theorem State.discardEntries_keep {s : State} {pid : BitVec 16} {lid : Nat} : Keep s (State.discardEntries s pid lid) [.cch, .jnl] := by
  unfold State.discardEntries
  repeat' first
    | intro x_
    | with_reducible assumption
    | with_reducible apply Keep.refl
    | with_reducible apply Keep.app State.unrecord_keep
    | with_reducible apply Keep.each
    | decide
    | dsimp -proj only [pair_fst, pair_snd]
    | split
    | with_reducible apply Keep.set_cch

theorem State.stopFrond_keep {s : State} {pid : BitVec 16} {f : FrondMeta} : Keep s (State.stopFrond s pid f) [.cch, .jnl, .pools, .seq] := by
  unfold State.stopFrond
  repeat' first
    | intro x_
    | with_reducible assumption
    | with_reducible apply Keep.refl
    | with_reducible apply Keep.app State.updPool_keep
    | with_reducible apply Keep.app State.discardEntries_keep
    | with_reducible apply Keep.app State.endTask_keep
    | with_reducible apply Keep.each
    | decide
    | dsimp -proj only [pair_fst, pair_snd]
    | split

theorem State.writeBit_keep {s : State} {pid : BitVec 16} {v : BitVec 12} {r : Nat} {on : Bool} : Keep s (State.writeBit s pid v r on) [.regs, .pools, .mbr, .sched, .out] := by
  unfold State.writeBit
  repeat' first
    | with_reducible assumption
    | with_reducible apply Keep.refl
    | with_reducible apply Keep.ite
    | with_reducible apply Keep.app State.jmSend_keep
    | with_reducible apply Keep.app State.bump_keep
    | with_reducible apply Keep.app State.updPool_keep
    | with_reducible apply Keep.fst (by assumption)
    | decide
    | dsimp -proj only [pair_fst, pair_snd]
    | split

theorem State.bitsReady_keep {s : State} {pid : BitVec 16} {regs : List (BitVec 12 × Nat)} : Keep s (State.bitsReady s pid regs).1 [.regs, .pools, .mbr, .sched, .out] := by
  unfold State.bitsReady
  repeat' first
    | intro x_
    | with_reducible assumption
    | with_reducible apply Keep.refl
    | with_reducible apply Keep.ite
    | with_reducible apply Keep.app State.updPool_keep
    | with_reducible apply Keep.app State.writeBit_keep
    | with_reducible apply Keep.foldl
    | with_reducible apply Keep.foldlFst
    | with_reducible apply Keep.fst (by assumption)
    | decide
    | dsimp -proj only [pair_fst, pair_snd]
    | split

theorem State.quietExpiry_keep {s : State} {pid : BitVec 16} {v : BitVec 12} {r : Nat} : Keep s (State.quietExpiry s pid v r) [.regs, .pools, .mbr, .sched, .out] := by
  unfold State.quietExpiry
  repeat' first
    | with_reducible assumption
    | with_reducible apply Keep.refl
    | with_reducible apply Keep.ite
    | with_reducible apply Keep.app State.updPool_keep
    | with_reducible apply Keep.app State.writeBit_keep
    | decide
    | dsimp -proj only [pair_fst, pair_snd]
    | split

theorem State.quietTimers_keep {s : State} : Keep s (State.quietTimers s) [.regs, .pools, .mbr, .sched, .out] := by
  unfold State.quietTimers
  repeat' first
    | intro x_
    | with_reducible assumption
    | with_reducible apply Keep.refl
    | with_reducible apply Keep.app State.quietExpiry_keep
    | with_reducible apply Keep.each
    | decide
    | dsimp -proj only [pair_fst, pair_snd]
    | split

theorem State.rewriteBits_keep {s : State} : Keep s (State.rewriteBits s) [.regs, .pools, .mbr, .sched, .out] := by
  unfold State.rewriteBits
  repeat' first
    | intro x_
    | with_reducible assumption
    | with_reducible apply Keep.refl
    | with_reducible apply Keep.app State.writeBit_keep
    | with_reducible apply Keep.each
    | with_reducible apply Keep.iff
    | decide
    | dsimp -proj only [pair_fst, pair_snd]
    | split

theorem State.stepRereps_keep {s : State} : Keep s (State.stepRereps s) [.pools, .seq, .mbr, .sched, .out] := by
  unfold State.stepRereps
  repeat' first
    | intro x_
    | with_reducible assumption
    | with_reducible apply Keep.refl
    | with_reducible apply Keep.app State.stepCopy_keep
    | with_reducible apply Keep.each
    | decide
    | dsimp -proj only [pair_fst, pair_snd]
    | split

theorem State.unregister_keep {s : State} : Keep s (State.unregister s) [.mbr, .sched, .out] := by
  unfold State.unregister
  repeat' first
    | intro x_
    | with_reducible assumption
    | with_reducible apply Keep.refl
    | with_reducible apply Keep.ite
    | with_reducible apply Keep.app State.chargeAlways_keep
    | with_reducible apply Keep.app State.updImg_keep
    | with_reducible apply Keep.app State.send_keep
    | with_reducible apply Keep.each
    | with_reducible exact Mbr.lens_mk
    | (show (_ : List Nat) = _; first | with_reducible rfl | (simp [Mbr.lens]; done) | rfl)
    | decide
    | dsimp -proj only [pair_fst, pair_snd]
    | split
    | with_reducible apply Keep.set_mbr

theorem State.sendAsked_keep {s : State} : Keep s (State.sendAsked s) [.mbr, .sched, .out] := by
  unfold State.sendAsked
  repeat' first
    | intro x_
    | with_reducible assumption
    | with_reducible apply Keep.refl
    | with_reducible apply Keep.app State.unregister_keep
    | with_reducible apply Keep.app State.sendAll_keep
    | with_reducible apply Keep.foldl
    | with_reducible apply Keep.foldlFst
    | with_reducible apply Keep.fst (by assumption)
    | with_reducible exact Mbr.lens_mk
    | (show (_ : List Nat) = _; first | with_reducible rfl | (simp [Mbr.lens]; done) | rfl)
    | decide
    | dsimp -proj only [pair_fst, pair_snd]
    | split
    | with_reducible apply Keep.set_mbr
    | with_reducible apply Keep.set_mbr_sched
    | with_reducible apply Keep.set_sched

theorem State.purgeVol_keep {s : State} {pid : BitVec 16} {v : BitVec 12} : Keep s (State.purgeVol s pid v) [.cch, .jnl] := by
  unfold State.purgeVol
  repeat' first
    | with_reducible assumption
    | with_reducible apply Keep.refl
    | decide
    | dsimp -proj only [pair_fst, pair_snd]
    | split
    | with_reducible apply Keep.set_cch_jnl

theorem State.commitVols_keep {s : State} {pid : BitVec 16} {old : PoolMeta} {new : PoolMeta} : Keep s (State.commitVols s pid old new) [.cch, .jnl, .pools] := by
  unfold State.commitVols
  repeat' first
    | intro x_
    | with_reducible assumption
    | with_reducible apply Keep.refl
    | with_reducible apply Keep.app State.updPool_keep
    | with_reducible apply Keep.app State.purgeVol_keep
    | with_reducible apply Keep.each
    | with_reducible apply Keep.iff
    | decide
    | dsimp -proj only [pair_fst, pair_snd]
    | split

theorem State.endFrond_keep {s : State} {pid : BitVec 16} {f : FrondMeta} : Keep s (State.endFrond s pid f) [.regs, .pools, .evr] := by
  unfold State.endFrond
  repeat' first
    | with_reducible assumption
    | with_reducible apply Keep.refl
    | with_reducible apply Keep.ite
    | with_reducible apply Keep.app State.updPool_keep
    | with_reducible apply Keep.app State.log_keep
    | decide
    | dsimp -proj only [pair_fst, pair_snd]
    | split

theorem State.switchFrond_keep {s : State} {pid : BitVec 16} {before : PoolMeta} {f : FrondMeta} : Keep s (State.switchFrond s pid before f) [.regs, .cch, .jnl, .pools, .evr] := by
  unfold State.switchFrond
  repeat' first
    | with_reducible assumption
    | with_reducible apply Keep.refl
    | with_reducible apply Keep.ite
    | with_reducible apply Keep.app State.updPool_keep
    | with_reducible apply Keep.app State.log_keep
    | with_reducible apply Keep.app State.discardEntries_keep
    | decide
    | dsimp -proj only [pair_fst, pair_snd]
    | split
    | with_reducible apply Keep.set_cch

theorem State.commitFrond_keep {s : State} {pid : BitVec 16} {old : PoolMeta} {new : PoolMeta} : Keep s (State.commitFrond s pid old new) [.regs, .cch, .jnl, .pools, .evr] := by
  unfold State.commitFrond
  repeat' first
    | with_reducible assumption
    | with_reducible apply Keep.refl
    | with_reducible apply Keep.ite
    | with_reducible apply Keep.app State.endFrond_keep
    | with_reducible apply Keep.app State.updPool_keep
    | with_reducible apply Keep.app State.switchFrond_keep
    | with_reducible apply Keep.app State.log_keep
    | decide
    | dsimp -proj only [pair_fst, pair_snd]
    | split

theorem State.copyBackEnds_keep {s : State} {pid : BitVec 16} : Keep s (State.copyBackEnds s pid) [.regs, .pools, .evr] := by
  unfold State.copyBackEnds
  repeat' first
    | intro x_
    | with_reducible assumption
    | with_reducible apply Keep.refl
    | with_reducible apply Keep.app State.updPool_keep
    | with_reducible apply Keep.app State.log_keep
    | with_reducible apply Keep.each
    | decide
    | dsimp -proj only [pair_fst, pair_snd]
    | split

theorem State.takeCommit_keep {s : State} {pid : BitVec 16} : Keep s (State.takeCommit s pid) [.regs, .cch, .jnl, .pools, .evr] := by
  unfold State.takeCommit
  repeat' first
    | with_reducible assumption
    | with_reducible apply Keep.refl
    | with_reducible apply Keep.ite
    | with_reducible apply Keep.app State.commitVols_keep
    | with_reducible apply Keep.app State.updPool_keep
    | with_reducible apply Keep.app State.commitFrond_keep
    | with_reducible apply Keep.app State.unhold122_keep
    | with_reducible apply Keep.app State.copyBackEnds_keep
    | decide
    | dsimp -proj only [pair_fst, pair_snd]
    | split

theorem State.takeCommits_keep {s : State} : Keep s (State.takeCommits s) [.regs, .cch, .jnl, .pools, .evr] := by
  unfold State.takeCommits
  repeat' first
    | intro x_
    | with_reducible assumption
    | with_reducible apply Keep.refl
    | with_reducible apply Keep.app State.takeCommit_keep
    | with_reducible apply Keep.each
    | decide
    | dsimp -proj only [pair_fst, pair_snd]
    | split

end Sys2Proof.Machine
end

