-- ==== Sys2Proof/Laws/KeepComplete.lean ====
section
/-!
SUPPORT. What each operation of Machine/Complete.lean keeps: the parts of the state that it may write.
-/
namespace Sys2Proof.Machine

theorem State.updSq_keep {s : State} {q : RingRef} {f : Sq → Sq} : Keep s (State.updSq s q f) [.qe] := by
  unfold State.updSq
  repeat' first
    | with_reducible assumption
    | with_reducible apply Keep.refl
    | decide
    | dsimp -proj only [pair_fst, pair_snd]
    | split
    | with_reducible apply Keep.set_qe

theorem State.updCq_keep {s : State} {q : RingRef} {f : Cq → Cq} : Keep s (State.updCq s q f) [.qe] := by
  unfold State.updCq
  repeat' first
    | with_reducible assumption
    | with_reducible apply Keep.refl
    | decide
    | dsimp -proj only [pair_fst, pair_snd]
    | split
    | with_reducible apply Keep.set_qe

theorem State.eligible_keep {s : State} {q : RingRef} {tag : BitVec 16} {st : Stat} {accd : Option Nat} {cmd : Option Nat} : Keep s (State.eligible s q tag st accd cmd) [.qe] := by
  unfold State.eligible
  repeat' first
    | with_reducible assumption
    | with_reducible apply Keep.refl
    | decide
    | dsimp -proj only [pair_fst, pair_snd]
    | split
    | with_reducible apply Keep.set_qe

theorem State.admDone_keep {s : State} {src : AdmSrc} {tag : BitVec 16} {st : Stat} : Keep s (State.admDone s src tag st) [.regs, .qe, .out] := by
  unfold State.admDone
  repeat' first
    | with_reducible assumption
    | with_reducible apply Keep.refl
    | with_reducible apply Keep.ite
    | with_reducible apply Keep.app State.bump_keep
    | with_reducible apply Keep.app State.eligible_keep
    | with_reducible apply Keep.app State.emit_keep
    | decide
    | dsimp -proj only [pair_fst, pair_snd]
    | split
    | with_reducible apply Keep.set_qe

end Sys2Proof.Machine
end

