-- ==== Sys2Proof/Laws/KeepLinks.lean ====
section
/-!
SUPPORT. What each operation of Machine/Links.lean keeps: the parts of the state that it may write.
-/
namespace Sys2Proof.Machine

theorem State.updHport_keep {s : State} {p : PciePort} {f : HPort → HPort} : Keep s (State.updHport s p f) [.hif] := by
  unfold State.updHport
  repeat' first
    | with_reducible assumption
    | with_reducible apply Keep.refl
    | with_reducible exact Hif.lens_mk
    | (show (_ : List Nat) = _; first | with_reducible rfl | (simp [Hif.lens]; done) | rfl)
    | decide
    | dsimp -proj only [pair_fst, pair_snd]
    | split
    | with_reducible apply Keep.set_hif

theorem State.takeTag_keep {s : State} {p : PciePort} {u : TagUse} : Keep s (State.takeTag s p u).1 [.hif] := by
  unfold State.takeTag
  repeat' first
    | with_reducible assumption
    | with_reducible apply Keep.refl
    | with_reducible apply Keep.app State.updHport_keep
    | with_reducible apply Keep.fst (by assumption)
    | decide
    | dsimp -proj only [pair_fst, pair_snd]
    | split

theorem State.lookup_keep {s : State} {port : PciePort} {fn : Fn} {write : Bool} {rs : List (Nat × Nat)} {u : TagUse} : Keep s (State.lookup s port fn write rs u).1 [.regs, .hif, .out] := by
  unfold State.lookup
  repeat' first
    | with_reducible assumption
    | with_reducible apply Keep.refl
    | with_reducible apply Keep.ite
    | with_reducible apply Keep.app State.bump_keep
    | with_reducible apply Keep.app State.updHport_keep
    | with_reducible apply Keep.app State.takeTag_keep
    | with_reducible apply Keep.app State.emit_keep
    | with_reducible apply Keep.fst (by assumption)
    | decide
    | dsimp -proj only [pair_fst, pair_snd]
    | split

theorem State.dropTags_keep {s : State} {p : PciePort} {u : TagUse} : Keep s (State.dropTags s p u) [.hif] := by
  unfold State.dropTags
  repeat' first
    | with_reducible assumption
    | with_reducible apply Keep.refl
    | with_reducible apply Keep.app State.updHport_keep
    | decide
    | dsimp -proj only [pair_fst, pair_snd]
    | split

theorem State.updPeer_keep {s : State} {a : BitVec 12} {f : Peer → Peer} : Keep s (State.updPeer s a f) [.rop] := by
  unfold State.updPeer
  repeat' first
    | with_reducible assumption
    | with_reducible apply Keep.refl
    | with_reducible exact Rop.lens_mk
    | (show (_ : List Nat) = _; first | with_reducible rfl | (simp [Rop.lens]; done) | rfl)
    | decide
    | dsimp -proj only [pair_fst, pair_snd]
    | split
    | with_reducible apply Keep.set_rop

theorem State.sendSeq_keep {s : State} {dst : BitVec 12} {f : TxFrame} : Keep s (State.sendSeq s dst f) [.rop, .out] := by
  unfold State.sendSeq
  repeat' first
    | with_reducible assumption
    | with_reducible apply Keep.refl
    | with_reducible apply Keep.app State.updPeer_keep
    | with_reducible apply Keep.app State.emit_keep
    | decide
    | dsimp -proj only [pair_fst, pair_snd]
    | split

theorem State.updFn_keep {s : State} {p : PciePort} {fn : Fn} {f : Func → Func} : Keep s (State.updFn s p fn f) [.hif] := by
  unfold State.updFn
  repeat' first
    | with_reducible assumption
    | with_reducible apply Keep.refl
    | with_reducible apply Keep.app State.updHport_keep
    | decide
    | dsimp -proj only [pair_fst, pair_snd]
    | split

theorem State.sendPlain_keep {s : State} {dst : BitVec 16} {path : Nat} {f : TxFrame} : Keep s (State.sendPlain s dst path f) [.out] := by
  unfold State.sendPlain
  repeat' first
    | with_reducible assumption
    | with_reducible apply Keep.refl
    | with_reducible apply Keep.app State.emit_keep
    | decide
    | dsimp -proj only [pair_fst, pair_snd]
    | split

theorem State.hostOut_keep {s : State} {src : AdmSrc} {tag : BitVec 16} {addr : BitVec 64} {bytes : List Byte} {st : Stat} : Keep s (State.hostOut s src tag addr bytes st) [.regs, .qe, .hif, .out] := by
  unfold State.hostOut
  repeat' first
    | intro x_
    | with_reducible assumption
    | with_reducible apply Keep.refl
    | with_reducible apply Keep.ite
    | with_reducible apply Keep.app State.admDone_keep
    | with_reducible apply Keep.app State.lookup_keep
    | with_reducible apply Keep.app State.emit_keep
    | with_reducible apply Keep.each
    | with_reducible apply Keep.iff
    | with_reducible apply Keep.fst (by assumption)
    | with_reducible exact Hif.lens_mk
    | (show (_ : List Nat) = _; first | with_reducible rfl | (simp [Hif.lens]; done) | rfl)
    | decide
    | dsimp -proj only [pair_fst, pair_snd]
    | split
    | with_reducible apply Keep.set_hif

theorem State.linkReplay_keep {s : State} {port : PciePort} : Keep s (State.linkReplay s port) [.regs, .mgt] := by
  unfold State.linkReplay
  repeat' first
    | with_reducible assumption
    | with_reducible apply Keep.refl
    | with_reducible apply Keep.app State.inject_keep
    | with_reducible apply Keep.fst (by assumption)
    | decide
    | dsimp -proj only [pair_fst, pair_snd]
    | split

theorem State.unsupported_keep {s : State} {port : PciePort} {isRead : Bool} : Keep s (State.unsupported s port isRead) [.regs, .out] := by
  unfold State.unsupported
  repeat' first
    | with_reducible assumption
    | with_reducible apply Keep.refl
    | with_reducible apply Keep.ite
    | with_reducible apply Keep.app State.bump_keep
    | with_reducible apply Keep.app State.emit_keep
    | decide
    | dsimp -proj only [pair_fst, pair_snd]
    | split

theorem State.withhold_keep {s : State} {port : PciePort} {u : TagUse} : Keep s (State.withhold s port u).1 [.regs, .hif, .mgt] := by
  unfold State.withhold
  repeat' first
    | with_reducible assumption
    | with_reducible apply Keep.refl
    | with_reducible apply Keep.ite
    | with_reducible apply Keep.app State.inject_keep
    | with_reducible apply Keep.app State.updHport_keep
    | with_reducible apply Keep.fst (by assumption)
    | decide
    | dsimp -proj only [pair_fst, pair_snd]
    | split

theorem State.hostAnswer_keep {s : State} {port : PciePort} {u : TagUse} : Keep s (State.hostAnswer s port u).1 [.regs, .hif, .mgt] := by
  unfold State.hostAnswer
  repeat' first
    | with_reducible assumption
    | with_reducible apply Keep.refl
    | with_reducible apply Keep.app State.withhold_keep
    | with_reducible apply Keep.app State.linkReplay_keep
    | with_reducible apply Keep.fst (by assumption)
    | decide
    | dsimp -proj only [pair_fst, pair_snd]
    | split

theorem State.takeOuts_keep {s : State} {q : RingRef} {tag : BitVec 16} : Keep s (State.takeOuts s q tag).1 [.hif] := by
  unfold State.takeOuts
  repeat' first
    | with_reducible assumption
    | with_reducible apply Keep.refl
    | with_reducible apply Keep.fst (by assumption)
    | with_reducible exact Hif.lens_mk
    | (show (_ : List Nat) = _; first | with_reducible rfl | (simp [Hif.lens]; done) | rfl)
    | decide
    | dsimp -proj only [pair_fst, pair_snd]
    | split
    | with_reducible apply Keep.set_hif

end Sys2Proof.Machine
end

