-- ==== Sys2Proof/Laws/KeepOrd.lean ====
section
/-!
SUPPORT. What each operation of Machine/Ord.lean keeps: the parts of the state that it may write.
-/
namespace Sys2Proof.Machine

theorem State.placeFwd_keep {s : State} {id : Nat} {owner : BitVec 12} : Keep s (State.placeFwd s id owner) [.ord, .rop, .out] := by
  unfold State.placeFwd
  repeat' first
    | with_reducible assumption
    | with_reducible apply Keep.refl
    | with_reducible apply Keep.app State.updCmd_keep
    | with_reducible apply Keep.app State.sendSeq_keep
    | with_reducible exact Rop.lens_mk
    | (show (_ : List Nat) = _; first | with_reducible rfl | (simp [Rop.lens]; done) | rfl)
    | decide
    | dsimp -proj only [pair_fst, pair_snd]
    | split
    | with_reducible apply Keep.set_rop

theorem State.setPower_keep {s : State} {v : BitVec 12} {st : VPower} : Keep s (State.setPower s v st) [.pools] := by
  unfold State.setPower
  repeat' first
    | with_reducible assumption
    | with_reducible apply Keep.refl
    | with_reducible apply Keep.ite
    | decide
    | dsimp -proj only [pair_fst, pair_snd]
    | split
    | with_reducible apply Keep.set_pools

theorem State.wakeVol_keep {s : State} {v : BitVec 12} : Keep s (State.wakeVol s v) [.pools] := by
  unfold State.wakeVol
  repeat' first
    | with_reducible assumption
    | with_reducible apply Keep.refl
    | with_reducible apply Keep.ite
    | with_reducible apply Keep.app State.setPower_keep
    | decide
    | dsimp -proj only [pair_fst, pair_snd]
    | split

theorem State.touchVol_keep {s : State} {v : BitVec 12} {isFlush : Bool} : Keep s (State.touchVol s v isFlush).1 [.pools] := by
  unfold State.touchVol
  repeat' first
    | with_reducible assumption
    | with_reducible apply Keep.refl
    | with_reducible apply Keep.ite
    | with_reducible apply Keep.app State.wakeVol_keep
    | with_reducible apply Keep.app State.setPower_keep
    | with_reducible apply Keep.fst (by assumption)
    | decide
    | dsimp -proj only [pair_fst, pair_snd]
    | split
    | with_reducible apply Keep.set_pools

theorem State.dueVol_keep {s : State} {v : BitVec 12} {fua : Bool} : Keep s (State.dueVol s v fua) [.cch] := by
  unfold State.dueVol
  repeat' first
    | intro x_
    | with_reducible assumption
    | with_reducible apply Keep.refl
    | with_reducible apply Keep.foldl
    | with_reducible apply Keep.foldlFst
    | with_reducible apply Keep.fst (by assumption)
    | decide
    | dsimp -proj only [pair_fst, pair_snd]
    | split
    | with_reducible apply Keep.set_cch

theorem State.endCmd_keep {s : State} {id : Nat} {st : Stat} : Keep s (State.endCmd s id st) [.ord] := by
  unfold State.endCmd
  repeat' first
    | with_reducible assumption
    | with_reducible apply Keep.refl
    | with_reducible apply Keep.app State.updCmd_keep
    | decide
    | dsimp -proj only [pair_fst, pair_snd]
    | split

theorem State.doPower_keep {s : State} {c : Cmd} {tgt : Nat} : Keep s (State.doPower s c tgt) [.ord, .cch, .pools] := by
  unfold State.doPower
  repeat' first
    | with_reducible assumption
    | with_reducible apply Keep.refl
    | with_reducible apply Keep.ite
    | with_reducible apply Keep.app State.updCmd_keep
    | with_reducible apply Keep.app State.wakeVol_keep
    | with_reducible apply Keep.app State.dueVol_keep
    | with_reducible apply Keep.app State.endCmd_keep
    | with_reducible apply Keep.app State.setPower_keep
    | decide
    | dsimp -proj only [pair_fst, pair_snd]
    | split
    | with_reducible apply Keep.set_pools

theorem State.readLine_keep {s : State} {q : RingRef} : Keep s (State.readLine s q) [.qe, .hif, .out] := by
  unfold State.readLine
  repeat' first
    | with_reducible assumption
    | with_reducible apply Keep.refl
    | with_reducible apply Keep.app State.updSq_keep
    | with_reducible apply Keep.app State.takeTag_keep
    | with_reducible apply Keep.app State.emit_keep
    | with_reducible apply Keep.fst (by assumption)
    | decide
    | dsimp -proj only [pair_fst, pair_snd]
    | split

theorem State.stopFetch_keep {s : State} {q : RingRef} : Keep s (State.stopFetch s q) [.qe, .hif, .out] := by
  unfold State.stopFetch
  repeat' first
    | with_reducible assumption
    | with_reducible apply Keep.refl
    | with_reducible apply Keep.ite
    | with_reducible apply Keep.app State.readLine_keep
    | with_reducible apply Keep.app State.updSq_keep
    | decide
    | dsimp -proj only [pair_fst, pair_snd]
    | split

theorem State.fetchNext_keep {s : State} {q : RingRef} : Keep s (State.fetchNext s q) [.qe, .hif, .out] := by
  unfold State.fetchNext
  repeat' first
    | with_reducible assumption
    | with_reducible apply Keep.refl
    | with_reducible apply Keep.ite
    | with_reducible apply Keep.app State.updSq_keep
    | with_reducible apply Keep.app State.takeTag_keep
    | with_reducible apply Keep.app State.emit_keep
    | with_reducible apply Keep.app State.stopFetch_keep
    | with_reducible apply Keep.fst (by assumption)
    | decide
    | dsimp -proj only [pair_fst, pair_snd]
    | split

theorem State.consume_keep {s : State} {q : RingRef} {n : Nat} : Keep s (State.consume s q n) [.qe, .hif, .out] := by
  unfold State.consume
  repeat' first
    | with_reducible assumption
    | with_reducible apply Keep.refl
    | with_reducible apply Keep.app State.fetchNext_keep
    | with_reducible apply Keep.app State.updSq_keep
    | decide
    | dsimp -proj only [pair_fst, pair_snd]
    | split

theorem State.acceptCmd_keep {s : State} {id : Nat} : Keep s (State.acceptCmd s id) [.qe, .ord, .cch, .pools, .rop, .hif, .out] := by
  unfold State.acceptCmd
  repeat' first
    | with_reducible assumption
    | with_reducible apply Keep.refl
    | with_reducible apply Keep.ite
    | with_reducible apply Keep.app State.updCmd_keep
    | with_reducible apply Keep.app State.placeFwd_keep
    | with_reducible apply Keep.app State.touchVol_keep
    | with_reducible apply Keep.app State.doPower_keep
    | with_reducible apply Keep.app State.consume_keep
    | with_reducible apply Keep.fst (by assumption)
    | decide
    | dsimp -proj only [pair_fst, pair_snd]
    | split
    | with_reducible apply Keep.set_ord
    | with_reducible apply Keep.set_cch

theorem State.grantAll_keep   {x1 : Nat} : ∀ {s : State}, Keep s (State.grantAll s x1) [.qe, .ord, .cch, .pools, .rop, .hif, .out] := by
  induction x1 with
  | zero =>
    intro s
    unfold State.grantAll
    repeat' first
      | with_reducible assumption
      | with_reducible apply Keep.refl
      | with_reducible apply Keep.app State.acceptCmd_keep
      | decide
      | dsimp -proj only [pair_fst, pair_snd]
      | split
      | with_reducible apply Keep.set_ord
  | succ n ih =>
    intro s
    unfold State.grantAll
    repeat' first
      | with_reducible assumption
      | with_reducible apply Keep.refl
      | with_reducible apply Keep.app ih
      | with_reducible apply Keep.app State.acceptCmd_keep
      | decide
      | dsimp -proj only [pair_fst, pair_snd]
      | split
      | with_reducible apply Keep.set_ord

theorem State.offerCmd_keep {s : State} {c : Cmd} : Keep s (State.offerCmd s c) [.regs, .qe, .ord, .cch, .pools, .rop, .hif, .evr, .out] := by
  unfold State.offerCmd
  repeat' first
    | intro x_
    | with_reducible assumption
    | with_reducible apply Keep.refl
    | with_reducible apply Keep.ite
    | with_reducible apply Keep.app State.bump_keep
    | with_reducible apply Keep.app State.grantAll_keep
    | with_reducible apply Keep.app State.log_keep
    | with_reducible apply Keep.app State.updSq_keep
    | with_reducible apply Keep.app State.acceptCmd_keep
    | with_reducible apply Keep.iff
    | decide
    | dsimp -proj only [pair_fst, pair_snd]
    | split
    | with_reducible apply Keep.set_ord

theorem State.releaseLock_keep {s : State} {id : Nat} : Keep s (State.releaseLock s id) [.ord] := by
  unfold State.releaseLock
  repeat' first
    | with_reducible assumption
    | with_reducible apply Keep.refl
    | decide
    | dsimp -proj only [pair_fst, pair_snd]
    | split
    | with_reducible apply Keep.set_ord

theorem State.dropRequest_keep {s : State} {id : Nat} : Keep s (State.dropRequest s id) [.ord] := by
  unfold State.dropRequest
  repeat' first
    | with_reducible assumption
    | with_reducible apply Keep.refl
    | decide
    | dsimp -proj only [pair_fst, pair_snd]
    | split
    | with_reducible apply Keep.set_ord

end Sys2Proof.Machine
end

