-- ==== Sys2Proof/Laws/KeepRings.lean ====
section
/-!
SUPPORT. What each operation of Machine/Rings.lean keeps: the parts of the state that it may write.
-/
namespace Sys2Proof.Machine

theorem State.forwardEntry_keep {s : State} {q : RingRef} {units : Nat} {tag : BitVec 16} {vol : BitVec 12} {op : IoOp} {owner : BitVec 12} : Keep s (State.forwardEntry s q units tag vol op owner) [.qe, .ord, .cch, .rop, .hif, .out] := by
  unfold State.forwardEntry
  repeat' first
    | with_reducible assumption
    | with_reducible apply Keep.refl
    | with_reducible apply Keep.ite
    | with_reducible apply Keep.app State.placeFwd_keep
    | with_reducible apply Keep.app State.endCmd_keep
    | with_reducible apply Keep.app State.updSq_keep
    | with_reducible apply Keep.app State.consume_keep
    | decide
    | dsimp -proj only [pair_fst, pair_snd]
    | split
    | with_reducible apply Keep.set_ord
    | with_reducible apply Keep.set_cch

theorem State.offerIo_keep {s : State} {q : RingRef} {units : Nat} {tag : BitVec 16} {vol : BitVec 12} {op : IoOp} : Keep s (State.offerIo s q units tag vol op) [.regs, .qe, .ord, .cch, .pools, .rop, .hif, .evr, .out] := by
  unfold State.offerIo
  repeat' first
    | with_reducible assumption
    | with_reducible apply Keep.refl
    | with_reducible apply Keep.app State.offerCmd_keep
    | with_reducible apply Keep.app State.forwardEntry_keep
    | decide
    | dsimp -proj only [pair_fst, pair_snd]
    | split

theorem State.offerWaiting_keep {s : State} : Keep s (State.offerWaiting s) [.regs, .qe, .ord, .cch, .pools, .rop, .hif, .evr, .out] := by
  unfold State.offerWaiting
  repeat' first
    | intro x_
    | with_reducible assumption
    | with_reducible apply Keep.refl
    | with_reducible apply Keep.ite
    | with_reducible apply Keep.app State.offerIo_keep
    | with_reducible apply Keep.each
    | decide
    | dsimp -proj only [pair_fst, pair_snd]
    | split

theorem State.reject_keep {s : State} {q : RingRef} {units : Nat} {tag : BitVec 16} {st : Stat} : Keep s (State.reject s q units tag st) [.regs, .qe, .hif, .out] := by
  unfold State.reject
  repeat' first
    | with_reducible assumption
    | with_reducible apply Keep.refl
    | with_reducible apply Keep.app State.bump_keep
    | with_reducible apply Keep.app State.consume_keep
    | with_reducible apply Keep.app State.eligible_keep
    | decide
    | dsimp -proj only [pair_fst, pair_snd]
    | split

theorem State.ring_keep {s : State} {port : PciePort} {fn : Fn} {slot : Nat} : Keep s (State.ring s port fn slot) [.regs, .qe, .hif, .out] := by
  unfold State.ring
  repeat' first
    | with_reducible assumption
    | with_reducible apply Keep.refl
    | with_reducible apply Keep.ite
    | with_reducible apply Keep.app State.bump_keep
    | with_reducible apply Keep.app State.readLine_keep
    | with_reducible apply Keep.app State.updSq_keep
    | with_reducible apply Keep.app State.updCq_keep
    | with_reducible apply Keep.app State.takeTag_keep
    | with_reducible apply Keep.app State.emit_keep
    | with_reducible apply Keep.fst (by assumption)
    | decide
    | dsimp -proj only [pair_fst, pair_snd]
    | split

theorem execDoorbell_keep {port : PciePort} {fn : Fn} {slot : Nat} {s : State} {t_ : State} (h : execDoorbell port fn slot s = .next t_) : Keep s t_ [.regs, .qe, .hif, .mgt, .out] := by
  unfold execDoorbell at h
  try dsimp -proj only at h
  repeat' split at h
  all_goals
    injection h with h
    subst h
    repeat' first
      | with_reducible assumption
      | with_reducible apply Keep.refl
      | with_reducible apply Keep.ite
      | with_reducible apply Keep.app State.ring_keep
      | with_reducible apply Keep.app State.clr_keep
      | with_reducible apply Keep.app State.linkReplay_keep
      | with_reducible apply Keep.app State.unsupported_keep
      | decide
      | dsimp -proj only [pair_fst, pair_snd]
      | split

theorem State.offerRow_keep {s : State} {q : RingRef} {hd : EntryHdr} {op : IoOp} : Keep s (State.offerRow s q hd op) [.regs, .qe, .ord, .cch, .pools, .rop, .hif, .evr, .out] := by
  unfold State.offerRow
  repeat' first
    | with_reducible assumption
    | with_reducible apply Keep.refl
    | with_reducible apply Keep.ite
    | with_reducible apply Keep.app State.reject_keep
    | with_reducible apply Keep.app State.offerIo_keep
    | decide
    | dsimp -proj only [pair_fst, pair_snd]
    | split

theorem execWriteZeroes_keep {q : RingRef} {hd : EntryHdr} {vbn : BitVec 64} {count : BitVec 32} {members : Bool} {s : State} {t_ : State} (h : execWriteZeroes q hd vbn count members s = .next t_) : Keep s t_ [.regs, .qe, .ord, .cch, .pools, .rop, .hif, .evr, .out] := by
  unfold execWriteZeroes at h
  try dsimp -proj only at h
  repeat' split at h
  all_goals
    injection h with h
    subst h
    repeat' first
      | with_reducible assumption
      | with_reducible apply Keep.refl
      | with_reducible apply Keep.app State.offerRow_keep
      | with_reducible apply Keep.app State.clr_keep
      | decide
      | dsimp -proj only [pair_fst, pair_snd]
      | split

theorem execRead_keep {q : RingRef} {hd : EntryHdr} {vbn : BitVec 64} {count : BitVec 32} {noFill : Bool} {list : List ListEnt} {s : State} {t_ : State} (h : execRead q hd vbn count noFill list s = .next t_) : Keep s t_ [.regs, .qe, .ord, .cch, .pools, .rop, .hif, .evr, .out] := by
  unfold execRead at h
  try dsimp -proj only at h
  repeat' split at h
  all_goals
    injection h with h
    subst h
    repeat' first
      | with_reducible assumption
      | with_reducible apply Keep.refl
      | with_reducible apply Keep.app State.offerRow_keep
      | with_reducible apply Keep.app State.clr_keep
      | decide
      | dsimp -proj only [pair_fst, pair_snd]
      | split

theorem execPad_keep {q : RingRef} {units : Nat} {s : State} {t_ : State} (h : execPad q units s = .next t_) : Keep s t_ [.qe, .hif, .out] := by
  unfold execPad at h
  try dsimp -proj only at h
  repeat' split at h
  all_goals
    injection h with h
    subst h
    repeat' first
      | with_reducible assumption
      | with_reducible apply Keep.refl
      | with_reducible apply Keep.ite
      | with_reducible apply Keep.app State.consume_keep
      | with_reducible apply Keep.app State.clr_keep
      | decide
      | dsimp -proj only [pair_fst, pair_snd]
      | split

theorem execSealClose_keep {q : RingRef} {hd : EntryHdr} {handle : BitVec 32} {addr : BitVec 64} {s : State} {t_ : State} (h : execSealClose q hd handle addr s = .next t_) : Keep s t_ [.regs, .qe, .ord, .cch, .pools, .rop, .hif, .evr, .out] := by
  unfold execSealClose at h
  try dsimp -proj only at h
  repeat' split at h
  all_goals
    injection h with h
    subst h
    repeat' first
      | with_reducible assumption
      | with_reducible apply Keep.refl
      | with_reducible apply Keep.app State.offerRow_keep
      | with_reducible apply Keep.app State.clr_keep
      | decide
      | dsimp -proj only [pair_fst, pair_snd]
      | split

theorem execVerify_keep {q : RingRef} {hd : EntryHdr} {vbn : BitVec 64} {count : BitVec 32} {s : State} {t_ : State} (h : execVerify q hd vbn count s = .next t_) : Keep s t_ [.regs, .qe, .ord, .cch, .pools, .rop, .hif, .evr, .out] := by
  unfold execVerify at h
  try dsimp -proj only at h
  repeat' split at h
  all_goals
    injection h with h
    subst h
    repeat' first
      | with_reducible assumption
      | with_reducible apply Keep.refl
      | with_reducible apply Keep.app State.offerRow_keep
      | with_reducible apply Keep.app State.clr_keep
      | decide
      | dsimp -proj only [pair_fst, pair_snd]
      | split

theorem execSealAppend_keep {q : RingRef} {hd : EntryHdr} {vbn : BitVec 64} {bytes : BitVec 32} {handle : BitVec 32} {store : Bool} {members : Bool} {list : List ListEnt} {s : State} {t_ : State} (h : execSealAppend q hd vbn bytes handle store members list s = .next t_) : Keep s t_ [.regs, .qe, .ord, .cch, .pools, .rop, .hif, .evr, .out] := by
  unfold execSealAppend at h
  try dsimp -proj only at h
  repeat' split at h
  all_goals
    injection h with h
    subst h
    repeat' first
      | with_reducible assumption
      | with_reducible apply Keep.refl
      | with_reducible apply Keep.app State.offerRow_keep
      | with_reducible apply Keep.app State.clr_keep
      | decide
      | dsimp -proj only [pair_fst, pair_snd]
      | split

theorem State.segFailed_keep {s : State} {q : RingRef} {units : Nat} {tag : BitVec 16} : Keep s (State.segFailed s q units tag) [.qe, .hif, .out] := by
  unfold State.segFailed
  repeat' first
    | with_reducible assumption
    | with_reducible apply Keep.refl
    | with_reducible apply Keep.app State.consume_keep
    | with_reducible apply Keep.app State.eligible_keep
    | decide
    | dsimp -proj only [pair_fst, pair_snd]
    | split

theorem State.readSeg_keep {s : State} {q : RingRef} {units : Nat} {tag : BitVec 16} {e : ListEnt} : Keep s (State.readSeg s q units tag e) [.regs, .qe, .hif, .out] := by
  unfold State.readSeg
  repeat' first
    | with_reducible assumption
    | with_reducible apply Keep.refl
    | with_reducible apply Keep.ite
    | with_reducible apply Keep.app State.segFailed_keep
    | with_reducible apply Keep.app State.takeTag_keep
    | with_reducible apply Keep.app State.lookup_keep
    | with_reducible apply Keep.app State.emit_keep
    | with_reducible apply Keep.fst (by assumption)
    | decide
    | dsimp -proj only [pair_fst, pair_snd]
    | split

theorem State.segmentRead_keep {s : State} {q : RingRef} {us : List RingUnit} {ents : List ListEnt} {chains : Nat} {seg : List ListEnt} : Keep s (State.segmentRead s q us ents chains seg) [.regs, .qe, .ord, .cch, .pools, .rop, .hif, .evr, .out] := by
  unfold State.segmentRead
  repeat' first
    | with_reducible assumption
    | with_reducible apply Keep.refl
    | with_reducible apply Keep.app State.reject_keep
    | with_reducible apply Keep.app State.readSeg_keep
    | with_reducible apply Keep.app State.offerIo_keep
    | with_reducible apply Keep.app State.updSq_keep
    | decide
    | dsimp -proj only [pair_fst, pair_snd]
    | split

theorem State.fetchErr_keep {s : State} {q : RingRef} : Keep s (State.fetchErr s q) [.regs, .qe, .evr] := by
  unfold State.fetchErr
  repeat' first
    | with_reducible assumption
    | with_reducible apply Keep.refl
    | with_reducible apply Keep.app State.bump_keep
    | with_reducible apply Keep.app State.log_keep
    | with_reducible apply Keep.app State.updSq_keep
    | decide
    | dsimp -proj only [pair_fst, pair_snd]
    | split

theorem execListSegmentReply_keep {q : RingRef} {r : HostRead (List ListEnt)} {s : State} {t_ : State} (h : execListSegmentReply q r s = .next t_) : Keep s t_ [.regs, .qe, .ord, .cch, .pools, .rop, .hif, .evr, .mgt, .out] := by
  unfold execListSegmentReply at h
  try dsimp -proj only at h
  repeat' split at h
  all_goals
    injection h with h
    subst h
    repeat' first
      | with_reducible assumption
      | with_reducible apply Keep.refl
      | with_reducible apply Keep.ite
      | with_reducible apply Keep.app State.segmentRead_keep
      | with_reducible apply Keep.app State.dropTags_keep
      | with_reducible apply Keep.app State.segFailed_keep
      | with_reducible apply Keep.app State.fetchErr_keep
      | with_reducible apply Keep.app State.hostAnswer_keep
      | with_reducible apply Keep.app State.clr_keep
      | with_reducible apply Keep.fst (by assumption)
      | decide
      | dsimp -proj only [pair_fst, pair_snd]
      | split

theorem State.entryRead_keep {s : State} {q : RingRef} {us : List RingUnit} : Keep s (State.entryRead s q us) [.regs, .qe, .ord, .cch, .pools, .rop, .hif, .evr, .out] := by
  unfold State.entryRead
  repeat' first
    | with_reducible assumption
    | with_reducible apply Keep.refl
    | with_reducible apply Keep.ite
    | with_reducible apply Keep.app State.reject_keep
    | with_reducible apply Keep.app State.readSeg_keep
    | with_reducible apply Keep.app State.offerIo_keep
    | with_reducible apply Keep.app State.updSq_keep
    | with_reducible apply Keep.app State.consume_keep
    | with_reducible apply Keep.app State.eligible_keep
    | decide
    | dsimp -proj only [pair_fst, pair_snd]
    | split
    | with_reducible apply Keep.set_qe

theorem State.malformed_keep {s : State} {q : RingRef} {cause : Nat} {idx : Nat} {lo : Nat} {hi : Nat} : Keep s (State.malformed s q cause idx lo hi) [.phase, .regs, .qe, .ord, .evr] := by
  unfold State.malformed
  repeat' first
    | intro x_
    | with_reducible assumption
    | with_reducible apply Keep.refl
    | with_reducible apply Keep.ite
    | with_reducible apply Keep.app State.setReg_keep
    | with_reducible apply Keep.app State.dropRequest_keep
    | with_reducible apply Keep.app State.log_keep
    | with_reducible apply Keep.each
    | decide
    | dsimp -proj only [pair_fst, pair_snd]
    | split
    | with_reducible apply Keep.set_phase_qe

theorem State.firstRead_keep {s : State} {q : RingRef} {u : RingUnit} : Keep s (State.firstRead s q u) [.phase, .regs, .qe, .ord, .cch, .pools, .rop, .hif, .evr, .out] := by
  unfold State.firstRead
  repeat' first
    | with_reducible assumption
    | with_reducible apply Keep.refl
    | with_reducible apply Keep.ite
    | with_reducible apply Keep.app State.entryRead_keep
    | with_reducible apply Keep.app State.updSq_keep
    | with_reducible apply Keep.app State.malformed_keep
    | with_reducible apply Keep.app State.consume_keep
    | with_reducible apply Keep.app State.takeTag_keep
    | with_reducible apply Keep.app State.emit_keep
    | with_reducible apply Keep.app State.stopFetch_keep
    | with_reducible apply Keep.fst (by assumption)
    | decide
    | dsimp -proj only [pair_fst, pair_snd]
    | split

theorem execEntryUnitReply_keep {q : RingRef} {r : HostRead (List RingUnit)} {s : State} {t_ : State} (h : execEntryUnitReply q r s = .next t_) : Keep s t_ [.phase, .regs, .qe, .ord, .cch, .pools, .rop, .hif, .evr, .mgt, .out] := by
  unfold execEntryUnitReply at h
  try dsimp -proj only at h
  repeat' split at h
  all_goals
    injection h with h
    subst h
    repeat' first
      | with_reducible assumption
      | with_reducible apply Keep.refl
      | with_reducible apply Keep.ite
      | with_reducible apply Keep.app State.entryRead_keep
      | with_reducible apply Keep.app State.firstRead_keep
      | with_reducible apply Keep.app State.dropTags_keep
      | with_reducible apply Keep.app State.fetchErr_keep
      | with_reducible apply Keep.app State.hostAnswer_keep
      | with_reducible apply Keep.app State.clr_keep
      | with_reducible apply Keep.fst (by assumption)
      | decide
      | dsimp -proj only [pair_fst, pair_snd]
      | split

theorem execVolumePower_keep {q : RingRef} {hd : EntryHdr} {target : BitVec 8} {s : State} {t_ : State} (h : execVolumePower q hd target s = .next t_) : Keep s t_ [.regs, .qe, .ord, .cch, .pools, .rop, .hif, .evr, .out] := by
  unfold execVolumePower at h
  try dsimp -proj only at h
  repeat' split at h
  all_goals
    injection h with h
    subst h
    repeat' first
      | with_reducible assumption
      | with_reducible apply Keep.refl
      | with_reducible apply Keep.app State.offerRow_keep
      | with_reducible apply Keep.app State.clr_keep
      | decide
      | dsimp -proj only [pair_fst, pair_snd]
      | split

theorem State.takeHead_keep {s : State} {q : RingRef} {hc : BitVec 32} : Keep s (State.takeHead s q hc) [.phase, .regs, .qe, .ord, .evr] := by
  unfold State.takeHead
  repeat' first
    | with_reducible assumption
    | with_reducible apply Keep.refl
    | with_reducible apply Keep.ite
    | with_reducible apply Keep.app State.malformed_keep
    | with_reducible apply Keep.app State.updCq_keep
    | decide
    | dsimp -proj only [pair_fst, pair_snd]
    | split

theorem State.lineRead_keep {s : State} {q : RingRef} {u : RingUnit} : Keep s (State.lineRead s q u) [.phase, .regs, .qe, .ord, .hif, .evr, .out] := by
  unfold State.lineRead
  repeat' first
    | intro x_
    | with_reducible assumption
    | with_reducible apply Keep.refl
    | with_reducible apply Keep.ite
    | with_reducible apply Keep.app State.bump_keep
    | with_reducible apply Keep.app State.fetchNext_keep
    | with_reducible apply Keep.app State.log_keep
    | with_reducible apply Keep.app State.takeHead_keep
    | with_reducible apply Keep.app State.updSq_keep
    | with_reducible apply Keep.app State.malformed_keep
    | with_reducible apply Keep.app State.updCq_keep
    | with_reducible apply Keep.app State.stopFetch_keep
    | with_reducible apply Keep.iff
    | decide
    | dsimp -proj only [pair_fst, pair_snd]
    | split

theorem execHostLineReply_keep {q : RingRef} {r : HostRead RingUnit} {s : State} {t_ : State} (h : execHostLineReply q r s = .next t_) : Keep s t_ [.phase, .regs, .qe, .ord, .hif, .evr, .mgt, .out] := by
  unfold execHostLineReply at h
  try dsimp -proj only at h
  repeat' split at h
  all_goals
    injection h with h
    subst h
    repeat' first
      | with_reducible assumption
      | with_reducible apply Keep.refl
      | with_reducible apply Keep.ite
      | with_reducible apply Keep.app State.dropTags_keep
      | with_reducible apply Keep.app State.fetchErr_keep
      | with_reducible apply Keep.app State.hostAnswer_keep
      | with_reducible apply Keep.app State.updCq_keep
      | with_reducible apply Keep.app State.lineRead_keep
      | with_reducible apply Keep.app State.clr_keep
      | with_reducible apply Keep.fst (by assumption)
      | decide
      | dsimp -proj only [pair_fst, pair_snd]
      | split

theorem execSealRestore_keep {q : RingRef} {hd : EntryHdr} {addr : BitVec 64} {ctx : HostRead SealCtxImg} {s : State} {t_ : State} (h : execSealRestore q hd addr ctx s = .next t_) : Keep s t_ [.regs, .qe, .ord, .cch, .pools, .rop, .hif, .evr, .out] := by
  unfold execSealRestore at h
  try dsimp -proj only at h
  repeat' split at h
  all_goals
    injection h with h
    subst h
    repeat' first
      | with_reducible assumption
      | with_reducible apply Keep.refl
      | with_reducible apply Keep.app State.offerRow_keep
      | with_reducible apply Keep.app State.clr_keep
      | decide
      | dsimp -proj only [pair_fst, pair_snd]
      | split

theorem execWrite_keep {q : RingRef} {hd : EntryHdr} {vbn : BitVec 64} {count : BitVec 32} {members : Bool} {list : List ListEnt} {s : State} {t_ : State} (h : execWrite q hd vbn count members list s = .next t_) : Keep s t_ [.regs, .qe, .ord, .cch, .pools, .rop, .hif, .evr, .out] := by
  unfold execWrite at h
  try dsimp -proj only at h
  repeat' split at h
  all_goals
    injection h with h
    subst h
    repeat' first
      | with_reducible assumption
      | with_reducible apply Keep.refl
      | with_reducible apply Keep.app State.offerRow_keep
      | with_reducible apply Keep.app State.clr_keep
      | decide
      | dsimp -proj only [pair_fst, pair_snd]
      | split

theorem execAbort_keep {q : RingRef} {hd : EntryHdr} {targetQ : BitVec 16} {targetTag : BitVec 16} {s : State} {t_ : State} (h : execAbort q hd targetQ targetTag s = .next t_) : Keep s t_ [.regs, .qe, .ord, .cch, .pools, .rop, .hif, .evr, .out] := by
  unfold execAbort at h
  try dsimp -proj only at h
  repeat' split at h
  all_goals
    injection h with h
    subst h
    repeat' first
      | with_reducible assumption
      | with_reducible apply Keep.refl
      | with_reducible apply Keep.ite
      | with_reducible apply Keep.app State.reject_keep
      | with_reducible apply Keep.app State.offerRow_keep
      | with_reducible apply Keep.app State.clr_keep
      | decide
      | dsimp -proj only [pair_fst, pair_snd]
      | split

theorem execSealOpen_keep {q : RingRef} {hd : EntryHdr} {prio : BitVec 8} {label : BitVec 384} {s : State} {t_ : State} (h : execSealOpen q hd prio label s = .next t_) : Keep s t_ [.regs, .qe, .ord, .cch, .pools, .rop, .hif, .evr, .out] := by
  unfold execSealOpen at h
  try dsimp -proj only at h
  repeat' split at h
  all_goals
    injection h with h
    subst h
    repeat' first
      | with_reducible assumption
      | with_reducible apply Keep.refl
      | with_reducible apply Keep.app State.offerRow_keep
      | with_reducible apply Keep.app State.clr_keep
      | decide
      | dsimp -proj only [pair_fst, pair_snd]
      | split

theorem execFlush_keep {q : RingRef} {hd : EntryHdr} {s : State} {t_ : State} (h : execFlush q hd s = .next t_) : Keep s t_ [.regs, .qe, .ord, .cch, .pools, .rop, .hif, .evr, .out] := by
  unfold execFlush at h
  try dsimp -proj only at h
  repeat' split at h
  all_goals
    injection h with h
    subst h
    repeat' first
      | with_reducible assumption
      | with_reducible apply Keep.refl
      | with_reducible apply Keep.app State.offerRow_keep
      | with_reducible apply Keep.app State.clr_keep
      | decide
      | dsimp -proj only [pair_fst, pair_snd]
      | split

theorem execSealSave_keep {q : RingRef} {hd : EntryHdr} {handle : BitVec 32} {addr : BitVec 64} {s : State} {t_ : State} (h : execSealSave q hd handle addr s = .next t_) : Keep s t_ [.regs, .qe, .ord, .cch, .pools, .rop, .hif, .evr, .out] := by
  unfold execSealSave at h
  try dsimp -proj only at h
  repeat' split at h
  all_goals
    injection h with h
    subst h
    repeat' first
      | with_reducible assumption
      | with_reducible apply Keep.refl
      | with_reducible apply Keep.app State.offerRow_keep
      | with_reducible apply Keep.app State.clr_keep
      | decide
      | dsimp -proj only [pair_fst, pair_snd]
      | split

end Sys2Proof.Machine
end

