-- ==== Sys2Proof/Laws/KeepDmv.lean ====
section
/-!
SUPPORT. What each operation of Machine/Dmv.lean keeps: the parts of the state that it may write.
-/
namespace Sys2Proof.Machine

theorem State.dmvRecord_keep {s : State} {ch : Nat} {status : Nat} {d : Desc} {moved : Nat} {space : Nat} {payload : List BlockData} {inDst : Bool} {entry : Nat} {err : Option HostErr} : Keep s (State.dmvRecord s ch status d moved space payload inDst entry err) [.dmv] := by
  unfold State.dmvRecord
  repeat' first
    | with_reducible assumption
    | with_reducible apply Keep.refl
    | with_reducible exact Dmv.lens_mk
    | (show (_ : List Nat) = _; first | with_reducible rfl | (simp [Dmv.lens]; done) | rfl)
    | decide
    | dsimp -proj only [pair_fst, pair_snd]
    | split
    | with_reducible apply Keep.set_dmv

theorem State.setChan_keep {s : State} {ch : Nat} {c : Chan} : Keep s (State.setChan s ch c) [.dmv] := by
  unfold State.setChan
  repeat' first
    | with_reducible assumption
    | with_reducible apply Keep.refl
    | with_reducible apply Keep.ite
    | with_reducible exact Dmv.lens_mk
    | (show (_ : List Nat) = _; first | with_reducible rfl | (simp [Dmv.lens]; done) | rfl)
    | decide
    | dsimp -proj only [pair_fst, pair_snd]
    | split
    | with_reducible apply Keep.set_dmv

theorem State.dmvBadList_keep {s : State} {ch : Nat} {f : ListFault} : Keep s (State.dmvBadList s ch f) [.regs, .dmv, .evr] := by
  unfold State.dmvBadList
  repeat' first
    | with_reducible assumption
    | with_reducible apply Keep.refl
    | with_reducible apply Keep.ite
    | with_reducible apply Keep.app State.dmvRecord_keep
    | with_reducible apply Keep.app State.bump_keep
    | with_reducible apply Keep.app State.setChan_keep
    | with_reducible apply Keep.app State.log_keep
    | decide
    | dsimp -proj only [pair_fst, pair_snd]
    | split

theorem State.xlate_keep {s : State} {ch : Nat} {d : Desc} : Keep s (State.xlate s ch d).1 [.regs, .hif, .out] := by
  unfold State.xlate
  repeat' first
    | with_reducible assumption
    | with_reducible apply Keep.refl
    | with_reducible apply Keep.app State.lookup_keep
    | with_reducible apply Keep.fst (by assumption)
    | decide
    | dsimp -proj only [pair_fst, pair_snd]
    | split

theorem State.dmvFail_keep {s : State} {ch : Nat} {err : HostErr} {space : DmvSpace} {inDst : Bool} {entry : Nat} : Keep s (State.dmvFail s ch err space inDst entry) [.regs, .dmv, .hif, .evr] := by
  unfold State.dmvFail
  repeat' first
    | with_reducible assumption
    | with_reducible apply Keep.refl
    | with_reducible apply Keep.ite
    | with_reducible apply Keep.app State.dmvRecord_keep
    | with_reducible apply Keep.app State.bump_keep
    | with_reducible apply Keep.app State.setChan_keep
    | with_reducible apply Keep.app State.dropTags_keep
    | with_reducible apply Keep.app State.log_keep
    | decide
    | dsimp -proj only [pair_fst, pair_snd]
    | split

theorem State.startDesc_keep {s : State} {ch : Nat} {st : ChanSt} {d : Desc} {rest : List Desc} : Keep s (State.startDesc s ch st d rest) [.regs, .dmv, .hif, .evr, .out] := by
  unfold State.startDesc
  repeat' first
    | with_reducible assumption
    | with_reducible apply Keep.refl
    | with_reducible apply Keep.ite
    | with_reducible apply Keep.app State.setChan_keep
    | with_reducible apply Keep.app State.xlate_keep
    | with_reducible apply Keep.app State.dmvFail_keep
    | with_reducible apply Keep.app State.takeTag_keep
    | with_reducible apply Keep.fst (by assumption)
    | decide
    | dsimp -proj only [pair_fst, pair_snd]
    | split

theorem State.activate_keep {s : State} {ch : Nat} {d : Desc} {rest : List Desc} : Keep s (State.activate s ch d rest) [.regs, .dmv, .hif, .evr, .out] := by
  unfold State.activate
  repeat' first
    | intro x_
    | with_reducible assumption
    | with_reducible apply Keep.refl
    | with_reducible apply Keep.ite
    | with_reducible apply Keep.app State.dmvBadList_keep
    | with_reducible apply Keep.app State.startDesc_keep
    | with_reducible apply Keep.app State.bump_keep
    | with_reducible apply Keep.app State.setChan_keep
    | with_reducible apply Keep.iff
    | decide
    | dsimp -proj only [pair_fst, pair_snd]
    | split

theorem State.issue_keep {s : State} {ch : Nat} {d : Desc} : Keep s (State.issue s ch d).1 [.regs, .dmv, .hif, .evr, .out] := by
  unfold State.issue
  repeat' first
    | intro x_
    | with_reducible assumption
    | with_reducible apply Keep.refl
    | with_reducible apply Keep.ite
    | with_reducible apply Keep.app State.dmvRecord_keep
    | with_reducible apply Keep.app State.bump_keep
    | with_reducible apply Keep.app State.setChan_keep
    | with_reducible apply Keep.app State.activate_keep
    | with_reducible apply Keep.iff
    | with_reducible apply Keep.fst (by assumption)
    | with_reducible exact Dmv.lens_mk
    | (show (_ : List Nat) = _; first | with_reducible rfl | (simp [Dmv.lens]; done) | rfl)
    | decide
    | dsimp -proj only [pair_fst, pair_snd]
    | split
    | with_reducible apply Keep.set_dmv

theorem State.transfer_keep {s : State} {p : Purpose} {space : DmvSpace} {port : Nat} {bytes : Nat} {handle : optParam Nat 0} : Keep s (State.transfer s p space port bytes handle).1 [.regs, .dmv, .hif, .evr, .out] := by
  unfold State.transfer
  repeat' first
    | with_reducible assumption
    | with_reducible apply Keep.refl
    | with_reducible apply Keep.app State.issue_keep
    | with_reducible apply Keep.fst (by assumption)
    | decide
    | dsimp -proj only [pair_fst, pair_snd]
    | split

theorem State.feedQueues_keep   {x1 : Nat} : ∀ {s : State}, Keep s (State.feedQueues s x1) [.regs, .dmv, .hif, .evr, .out] := by
  induction x1 with
  | zero =>
    intro s
    unfold State.feedQueues
    repeat' first
      | with_reducible assumption
      | with_reducible apply Keep.refl
      | with_reducible apply Keep.ite
      | with_reducible apply Keep.app State.transfer_keep
      | with_reducible apply Keep.fst (by assumption)
      | with_reducible exact Dmv.lens_mk
      | (show (_ : List Nat) = _; first | with_reducible rfl | (simp [Dmv.lens]; done) | rfl)
      | decide
      | dsimp -proj only [pair_fst, pair_snd]
      | split
      | with_reducible apply Keep.set_dmv
  | succ n ih =>
    intro s
    unfold State.feedQueues
    repeat' first
      | with_reducible assumption
      | with_reducible apply Keep.refl
      | with_reducible apply Keep.app ih
      | with_reducible apply Keep.ite
      | with_reducible apply Keep.app State.transfer_keep
      | with_reducible apply Keep.fst (by assumption)
      | with_reducible exact Dmv.lens_mk
      | (show (_ : List Nat) = _; first | with_reducible rfl | (simp [Dmv.lens]; done) | rfl)
      | decide
      | dsimp -proj only [pair_fst, pair_snd]
      | split
      | with_reducible apply Keep.set_dmv

theorem State.feed_keep {s : State} : Keep s (State.feed s) [.regs, .dmv, .hif, .evr, .out] := by
  unfold State.feed
  repeat' first
    | with_reducible assumption
    | with_reducible apply Keep.refl
    | with_reducible apply Keep.app State.feedQueues_keep
    | decide
    | dsimp -proj only [pair_fst, pair_snd]
    | split

theorem State.transferKept_keep {s : State} {p : Purpose} {space : DmvSpace} {port : Nat} {bytes : Nat} {handle : optParam Nat 0} : Keep s (State.transferKept s p space port bytes handle) [.regs, .dmv, .hif, .evr, .out] := by
  unfold State.transferKept
  repeat' first
    | with_reducible assumption
    | with_reducible apply Keep.refl
    | with_reducible apply Keep.ite
    | with_reducible apply Keep.app State.transfer_keep
    | with_reducible apply Keep.fst (by assumption)
    | with_reducible exact Dmv.lens_mk
    | (show (_ : List Nat) = _; first | with_reducible rfl | (simp [Dmv.lens]; done) | rfl)
    | decide
    | dsimp -proj only [pair_fst, pair_snd]
    | split
    | with_reducible apply Keep.set_dmv

theorem State.reissueKept_keep {s : State} : Keep s (State.reissueKept s) [.regs, .dmv, .hif, .evr, .out] := by
  unfold State.reissueKept
  repeat' first
    | intro x_
    | with_reducible assumption
    | with_reducible apply Keep.refl
    | with_reducible apply Keep.ite
    | with_reducible apply Keep.app State.transferKept_keep
    | with_reducible apply Keep.each
    | with_reducible exact Dmv.lens_mk
    | (show (_ : List Nat) = _; first | with_reducible rfl | (simp [Dmv.lens]; done) | rfl)
    | decide
    | dsimp -proj only [pair_fst, pair_snd]
    | split
    | with_reducible apply Keep.set_dmv

theorem State.dmvResume_keep {s : State} {ch : Nat} : Keep s (State.dmvResume s ch) [.regs, .dmv, .hif, .evr, .out] := by
  unfold State.dmvResume
  repeat' first
    | with_reducible assumption
    | with_reducible apply Keep.refl
    | with_reducible apply Keep.ite
    | with_reducible apply Keep.app State.activate_keep
    | with_reducible exact Dmv.lens_mk
    | (show (_ : List Nat) = _; first | with_reducible rfl | (simp [Dmv.lens]; done) | rfl)
    | decide
    | dsimp -proj only [pair_fst, pair_snd]
    | split
    | with_reducible apply Keep.set_dmv

theorem State.dmvClear_keep {s : State} {ch : Nat} : Keep s (State.dmvClear s ch) [.dmv] := by
  unfold State.dmvClear
  repeat' first
    | intro x_
    | with_reducible assumption
    | with_reducible apply Keep.refl
    | with_reducible apply Keep.ite
    | with_reducible apply Keep.app State.dmvRecord_keep
    | with_reducible apply Keep.app State.setChan_keep
    | with_reducible apply Keep.each
    | with_reducible exact Dmv.lens_mk
    | (show (_ : List Nat) = _; first | with_reducible rfl | (simp [Dmv.lens]; done) | rfl)
    | decide
    | dsimp -proj only [pair_fst, pair_snd]
    | split
    | with_reducible apply Keep.set_dmv

theorem State.takeRecs_keep {s : State} : Keep s (State.takeRecs s).1 [.dmv] := by
  unfold State.takeRecs
  repeat' first
    | with_reducible assumption
    | with_reducible apply Keep.refl
    | with_reducible apply Keep.fst (by assumption)
    | with_reducible exact Dmv.lens_mk
    | (show (_ : List Nat) = _; first | with_reducible rfl | (simp [Dmv.lens]; done) | rfl)
    | decide
    | dsimp -proj only [pair_fst, pair_snd]
    | split
    | with_reducible apply Keep.set_dmv

theorem State.nextDesc_keep {s : State} {ch : Nat} : Keep s (State.nextDesc s ch) [.regs, .dmv, .hif, .evr, .out] := by
  unfold State.nextDesc
  repeat' first
    | with_reducible assumption
    | with_reducible apply Keep.refl
    | with_reducible apply Keep.app State.setChan_keep
    | with_reducible apply Keep.app State.activate_keep
    | decide
    | dsimp -proj only [pair_fst, pair_snd]
    | split

theorem State.dmvFill_keep {s : State} {rope : Bool} {port : Nat} {pct : Nat} : Keep s (State.dmvFill s rope port pct) [.regs, .dmv] := by
  unfold State.dmvFill
  repeat' first
    | intro x_
    | with_reducible assumption
    | with_reducible apply Keep.refl
    | with_reducible apply Keep.ite
    | with_reducible apply Keep.app State.bump_keep
    | with_reducible apply Keep.app State.setChan_keep
    | with_reducible apply Keep.each
    | with_reducible exact Dmv.lens_mk
    | (show (_ : List Nat) = _; first | with_reducible rfl | (simp [Dmv.lens]; done) | rfl)
    | decide
    | dsimp -proj only [pair_fst, pair_snd]
    | split
    | with_reducible apply Keep.set_dmv

theorem execDmvQueueDrain_keep {rope : Bool} {port : Nat} {fillPct : Nat} {s : State} {t_ : State} (h : execDmvQueueDrain rope port fillPct s = .next t_) : Keep s t_ [.regs, .dmv, .out] := by
  unfold execDmvQueueDrain at h
  try dsimp -proj only at h
  repeat' split at h
  all_goals
    injection h with h
    subst h
    repeat' first
      | with_reducible assumption
      | with_reducible apply Keep.refl
      | with_reducible apply Keep.app State.clr_keep
      | with_reducible apply Keep.app State.dmvFill_keep
      | decide
      | dsimp -proj only [pair_fst, pair_snd]
      | split

theorem State.dmvFinish_keep {s : State} {ch : Nat} {retries : Nat} {payload : List BlockData} : Keep s (State.dmvFinish s ch retries payload) [.regs, .dmv, .hif, .evr, .out] := by
  unfold State.dmvFinish
  repeat' first
    | with_reducible assumption
    | with_reducible apply Keep.refl
    | with_reducible apply Keep.app State.dmvRecord_keep
    | with_reducible apply Keep.app State.dmvBadList_keep
    | with_reducible apply Keep.app State.bump_keep
    | with_reducible apply Keep.app State.dropTags_keep
    | with_reducible apply Keep.app State.nextDesc_keep
    | decide
    | dsimp -proj only [pair_fst, pair_snd]
    | split

theorem State.dmvError_keep {s : State} {ch : Nat} {err : HostErr} {space : DmvSpace} {inDst : Bool} {entry : Nat} : Keep s (State.dmvError s ch err space inDst entry) [.regs, .dmv, .hif, .evr, .out] := by
  unfold State.dmvError
  repeat' first
    | with_reducible assumption
    | with_reducible apply Keep.refl
    | with_reducible apply Keep.ite
    | with_reducible apply Keep.app State.startDesc_keep
    | with_reducible apply Keep.app State.bump_keep
    | with_reducible apply Keep.app State.dropTags_keep
    | with_reducible apply Keep.app State.dmvFail_keep
    | decide
    | dsimp -proj only [pair_fst, pair_snd]
    | split

theorem State.dmvDone_keep {s : State} {ch : Nat} {retries : Nat} {payload : List BlockData} : Keep s (State.dmvDone s ch retries payload) [.regs, .dmv, .hif, .evr, .mgt, .out] := by
  unfold State.dmvDone
  repeat' first
    | intro x_
    | with_reducible assumption
    | with_reducible apply Keep.refl
    | with_reducible apply Keep.ite
    | with_reducible apply State.marked_keep
    | with_reducible apply Keep.app State.inject_keep
    | with_reducible apply Keep.app State.withhold_keep
    | with_reducible apply Keep.app State.dmvFinish_keep
    | with_reducible apply Keep.app State.dmvError_keep
    | with_reducible apply Keep.fst (by assumption)
    | decide
    | dsimp -proj only [pair_fst, pair_snd]
    | split

theorem execDmvCompletion_keep {ch : Nat} {retries : Nat} {payload : List BlockData} {s : State} {t_ : State} (h : execDmvCompletion ch retries payload s = .next t_) : Keep s t_ [.regs, .dmv, .hif, .evr, .mgt, .out] := by
  unfold execDmvCompletion at h
  try dsimp -proj only at h
  repeat' split at h
  all_goals
    injection h with h
    subst h
    repeat' first
      | with_reducible assumption
      | with_reducible apply Keep.refl
      | with_reducible apply Keep.app State.dmvDone_keep
      | with_reducible apply Keep.app State.clr_keep
      | decide
      | dsimp -proj only [pair_fst, pair_snd]
      | split

theorem execDmvBusError_keep {ch : Nat} {err : HostErr} {space : DmvSpace} {inDst : Bool} {entry : Nat} {s : State} {t_ : State} (h : execDmvBusError ch err space inDst entry s = .next t_) : Keep s t_ [.regs, .dmv, .hif, .evr, .out] := by
  unfold execDmvBusError at h
  try dsimp -proj only at h
  repeat' split at h
  all_goals
    injection h with h
    subst h
    repeat' first
      | with_reducible assumption
      | with_reducible apply Keep.refl
      | with_reducible apply Keep.app State.clr_keep
      | with_reducible apply Keep.app State.dmvError_keep
      | decide
      | dsimp -proj only [pair_fst, pair_snd]
      | split

end Sys2Proof.Machine
end

