-- ==== Sys2Proof/Laws/KeepIoRun.lean ====
section
/-!
SUPPORT. What each operation of Machine/IoRun.lean keeps: the parts of the state that it may write.
-/
namespace Sys2Proof.Machine

theorem State.failSlice_keep {s : State} {c : Cmd} {sl : Slice} : Keep s (State.failSlice s c sl) [.ord, .cch, .jnl] := by
  unfold State.failSlice
  repeat' first
    | with_reducible assumption
    | with_reducible apply Keep.refl
    | with_reducible apply Keep.app State.updCmd_keep
    | with_reducible apply Keep.app State.dropSlots_keep
    | decide
    | dsimp -proj only [pair_fst, pair_snd]
    | split
    | with_reducible apply Keep.set_jnl

theorem State.gatherOld_keep {s : State} {p : Pool} {d : LayoutDesc} {vol : BitVec 12} {b : Nat} {slot : Nat} : Keep s (State.gatherOld s p d vol b slot) [.regs, .cch] := by
  unfold State.gatherOld
  repeat' first
    | with_reducible assumption
    | with_reducible apply Keep.refl
    | with_reducible apply Keep.app State.gather_keep
    | decide
    | dsimp -proj only [pair_fst, pair_snd]
    | split

theorem State.gatherBlk_keep {s : State} {p : Pool} {d : LayoutDesc} {vol : BitVec 12} {b : Nat} {slot : Nat} : Keep s (State.gatherBlk s p d vol b slot) [.regs, .cch] := by
  unfold State.gatherBlk
  repeat' first
    | with_reducible assumption
    | with_reducible apply Keep.refl
    | with_reducible apply Keep.ite
    | with_reducible apply Keep.app State.gatherOld_keep
    | with_reducible apply Keep.app State.gather_keep
    | decide
    | dsimp -proj only [pair_fst, pair_snd]
    | split

theorem State.journalSlice_keep {s : State} {c : Cmd} {sl : Slice} : Keep s (State.journalSlice s c sl) [.regs, .ord, .cch, .jnl, .rop] := by
  unfold State.journalSlice
  repeat' first
    | intro x_
    | with_reducible assumption
    | with_reducible apply Keep.refl
    | with_reducible apply Keep.app State.supersede_keep
    | with_reducible apply Keep.app State.updCmd_keep
    | with_reducible apply Keep.app State.updSlot_keep
    | with_reducible apply Keep.app State.appendIntent_keep
    | with_reducible apply Keep.app State.failSlice_keep
    | with_reducible apply Keep.app State.gatherBlk_keep
    | with_reducible apply Keep.each
    | decide
    | dsimp -proj only [pair_fst, pair_snd]
    | split
    | with_reducible apply Keep.set_jnl

theorem State.journalAll_keep {s : State} : Keep s (State.journalAll s) [.regs, .ord, .cch, .jnl, .rop] := by
  unfold State.journalAll
  repeat' first
    | intro x_
    | with_reducible assumption
    | with_reducible apply Keep.refl
    | with_reducible apply Keep.app State.journalSlice_keep
    | with_reducible apply Keep.each
    | decide
    | dsimp -proj only [pair_fst, pair_snd]
    | split

theorem State.egress_keep {s : State} {c : Cmd} {vbns : List Nat} : Keep s (State.egress s c vbns).1 [.regs, .mgt] := by
  unfold State.egress
  repeat' first
    | intro x_
    | with_reducible assumption
    | with_reducible apply Keep.refl
    | with_reducible apply Keep.ite
    | with_reducible apply Keep.app State.inject_keep
    | with_reducible apply Keep.foldl
    | with_reducible apply Keep.foldlFst
    | with_reducible apply Keep.fst (by assumption)
    | decide
    | dsimp -proj only [pair_fst, pair_snd]
    | split

theorem State.failCmd_keep {s : State} {id : Nat} {st : Stat} : Keep s (State.failCmd s id st) [.ord] := by
  unfold State.failCmd
  repeat' first
    | with_reducible assumption
    | with_reducible apply Keep.refl
    | with_reducible apply Keep.app State.updCmd_keep
    | decide
    | dsimp -proj only [pair_fst, pair_snd]
    | split

theorem State.releaseBlks_keep {s : State} {c : Cmd} : Keep s (State.releaseBlks s c) [.regs, .ord, .cch, .dmv, .rop, .hif, .evr, .mgt, .out] := by
  unfold State.releaseBlks
  repeat' first
    | intro x_
    | with_reducible assumption
    | with_reducible apply Keep.refl
    | with_reducible apply Keep.ite
    | with_reducible apply Keep.app State.updCmd_keep
    | with_reducible apply Keep.app State.egress_keep
    | with_reducible apply Keep.app State.failCmd_keep
    | with_reducible apply Keep.app State.sendSeq_keep
    | with_reducible apply Keep.app State.transfer_keep
    | with_reducible apply Keep.app State.unhold_keep
    | with_reducible apply Keep.app State.emit_keep
    | with_reducible apply Keep.each
    | with_reducible apply Keep.iff
    | with_reducible apply Keep.fst (by assumption)
    | decide
    | dsimp -proj only [pair_fst, pair_snd]
    | split

theorem State.sendNeeds_keep {s : State} {p : Pool} {c : Cmd} : Keep s (State.sendNeeds s p c) [.ord, .seq, .mbr, .sched, .out] := by
  unfold State.sendNeeds
  repeat' first
    | intro x_
    | with_reducible assumption
    | with_reducible apply Keep.refl
    | with_reducible apply Keep.ite
    | with_reducible apply Keep.app State.updCmd_keep
    | with_reducible apply State.admitReqs_keep
    | with_reducible apply Keep.app State.degrade_keep
    | with_reducible apply Keep.each
    | decide
    | dsimp -proj only [pair_fst, pair_snd]
    | split

theorem State.admitWrite_keep {s : State} {p : Pool} {d : LayoutDesc} {r : VolRun} {c : Cmd} {v : Nat} {total : Nat} {zero : Bool} : Keep s (State.admitWrite s p d r c v total zero) [.regs, .ord, .cch, .jnl, .pools, .seq, .dmv, .hif, .evr, .sched, .out] := by
  unfold State.admitWrite
  repeat' first
    | intro x_
    | with_reducible assumption
    | with_reducible apply Keep.refl
    | with_reducible apply Keep.ite
    | with_reducible apply Keep.app State.updCmd_keep
    | with_reducible apply Keep.app State.updPool_keep
    | with_reducible apply State.allot_keep
    | with_reducible apply Keep.app State.transferKept_keep
    | decide
    | dsimp -proj only [pair_fst, pair_snd]
    | split
    | with_reducible apply Keep.set_cch_jnl

theorem State.verifyHeld_keep {s : State} {p : Pool} {v : BitVec 12} {b : Nat} {blk : Block} : Keep s (State.verifyHeld s p v b blk).1 [.regs, .fix, .evr, .mgt, .freeCtr] := by
  unfold State.verifyHeld
  repeat' first
    | with_reducible assumption
    | with_reducible apply Keep.refl
    | with_reducible apply Keep.app State.inject_keep
    | with_reducible apply Keep.app State.tagCheck_keep
    | with_reducible apply Keep.fst (by assumption)
    | decide
    | dsimp -proj only [pair_fst, pair_snd]
    | split

theorem State.heldMismatch_keep {s : State} {p : Pool} {v : BitVec 12} {b : Nat} : Keep s (State.heldMismatch s p v b) [.regs, .evr] := by
  unfold State.heldMismatch
  repeat' first
    | with_reducible assumption
    | with_reducible apply Keep.refl
    | with_reducible apply Keep.app State.bump_keep
    | with_reducible apply Keep.app State.log_keep
    | decide
    | dsimp -proj only [pair_fst, pair_snd]
    | split

theorem State.partnerCopy_keep {s : State} {p : Pool} {sl : Slot} : Keep s (State.partnerCopy s p sl).1 [.freeCtr] := by
  unfold State.partnerCopy
  repeat' first
    | with_reducible assumption
    | with_reducible apply Keep.refl
    | with_reducible apply Keep.ite
    | with_reducible apply Keep.fst (by assumption)
    | decide
    | dsimp -proj only [pair_fst, pair_snd]
    | split
    | with_reducible apply Keep.set_freeCtr

theorem State.startBlk_keep {s : State} {p : Pool} {c : Cmd} {b : Nat} {verify : Bool} : Keep s (State.startBlk s p c b verify) [.regs, .ord, .cch, .fix, .evr, .mgt, .freeCtr] := by
  unfold State.startBlk
  repeat' first
    | with_reducible assumption
    | with_reducible apply Keep.refl
    | with_reducible apply Keep.ite
    | with_reducible apply Keep.app State.updCmd_keep
    | with_reducible apply Keep.app State.updSlot_keep
    | with_reducible apply Keep.app State.verifyHeld_keep
    | with_reducible apply Keep.app State.log_keep
    | with_reducible apply Keep.app State.heldMismatch_keep
    | with_reducible apply Keep.app State.partnerCopy_keep
    | with_reducible apply Keep.fst (by assumption)
    | decide
    | dsimp -proj only [pair_fst, pair_snd]
    | split
    | with_reducible apply Keep.set_cch

theorem State.admitRead_keep {s : State} {p : Pool} {c : Cmd} {v : Nat} {total : Nat} {verify : Bool} : Keep s (State.admitRead s p c v total verify) [.regs, .ord, .cch, .seq, .fix, .evr, .mgt, .sched, .freeCtr] := by
  unfold State.admitRead
  repeat' first
    | intro x_
    | with_reducible assumption
    | with_reducible apply Keep.refl
    | with_reducible apply Keep.ite
    | with_reducible apply Keep.app State.updCmd_keep
    | with_reducible apply Keep.app State.bump_keep
    | with_reducible apply Keep.app State.startBlk_keep
    | with_reducible apply State.allot_keep
    | with_reducible apply Keep.each
    | decide
    | dsimp -proj only [pair_fst, pair_snd]
    | split
    | with_reducible apply Keep.set_cch

theorem State.failUnjournalled_keep {s : State} {c : Cmd} : Keep s (State.failUnjournalled s c) [.ord, .cch, .jnl] := by
  unfold State.failUnjournalled
  repeat' first
    | intro x_
    | with_reducible assumption
    | with_reducible apply Keep.refl
    | with_reducible apply Keep.app State.failSlice_keep
    | with_reducible apply Keep.each
    | decide
    | dsimp -proj only [pair_fst, pair_snd]
    | split

theorem State.failFrom_keep {s : State} {c : Cmd} {slice : Nat} : Keep s (State.failFrom s c slice) [.ord, .cch, .jnl] := by
  unfold State.failFrom
  repeat' first
    | intro x_
    | with_reducible assumption
    | with_reducible apply Keep.refl
    | with_reducible apply Keep.app State.failSlice_keep
    | with_reducible apply Keep.each
    | decide
    | dsimp -proj only [pair_fst, pair_snd]
    | split

theorem State.streamSlots_keep {s : State} {slots : List Nat} : Keep s (State.streamSlots s slots) [.rop] := by
  unfold State.streamSlots
  repeat' first
    | intro x_
    | with_reducible assumption
    | with_reducible apply Keep.refl
    | with_reducible apply Keep.iff
    | with_reducible exact Rop.lens_mk
    | (show (_ : List Nat) = _; first | with_reducible rfl | (simp [Rop.lens]; done) | rfl)
    | decide
    | dsimp -proj only [pair_fst, pair_snd]
    | split
    | with_reducible apply Keep.set_rop

theorem State.landSlice_keep {s : State} {c : Cmd} {sl : Slice} {blks : List (Nat × BlockData)} : Keep s (State.landSlice s c sl blks) [.ord, .cch, .rop] := by
  unfold State.landSlice
  repeat' first
    | intro x_
    | with_reducible assumption
    | with_reducible apply Keep.refl
    | with_reducible apply Keep.ite
    | with_reducible apply Keep.app State.updCmd_keep
    | with_reducible apply Keep.app State.updSlot_keep
    | with_reducible apply Keep.app State.streamSlots_keep
    | with_reducible apply Keep.each
    | decide
    | dsimp -proj only [pair_fst, pair_snd]
    | split

theorem State.endRead_keep {s : State} {c : Cmd} {total : Nat} {verify : Bool} : Keep s (State.endRead s c total verify) [.ord, .cch] := by
  unfold State.endRead
  repeat' first
    | with_reducible assumption
    | with_reducible apply Keep.refl
    | with_reducible apply Keep.ite
    | with_reducible apply Keep.app State.updCmd_keep
    | with_reducible apply Keep.app State.endCmd_keep
    | with_reducible apply Keep.app State.unhold_keep
    | decide
    | dsimp -proj only [pair_fst, pair_snd]
    | split

theorem State.endWrite_keep {s : State} {c : Cmd} {total : Nat} : Keep s (State.endWrite s c total) [.ord] := by
  unfold State.endWrite
  repeat' first
    | with_reducible assumption
    | with_reducible apply Keep.refl
    | with_reducible apply Keep.ite
    | with_reducible apply Keep.app State.endCmd_keep
    | decide
    | dsimp -proj only [pair_fst, pair_snd]
    | split

end Sys2Proof.Machine
end

