-- ==== Sys2Proof/Laws/KeepSeals.lean ====
section
/-!
SUPPORT. What each operation of Machine/Seals.lean keeps: the parts of the state that it may write.
-/
namespace Sys2Proof.Machine

theorem State.sealOut_keep {s : State} {c : Cmd} {addr : BitVec 64} {bs : List Byte} : Keep s (State.sealOut s c addr bs).1 [.regs, .ord, .dmv, .rop, .hif, .evr, .out] := by
  unfold State.sealOut
  repeat' first
    | with_reducible assumption
    | with_reducible apply Keep.refl
    | with_reducible apply Keep.ite
    | with_reducible apply Keep.app State.updCmd_keep
    | with_reducible apply Keep.app State.sendSeq_keep
    | with_reducible apply Keep.app State.endCmd_keep
    | with_reducible apply Keep.app State.transfer_keep
    | with_reducible apply Keep.app State.emit_keep
    | with_reducible apply Keep.fst (by assumption)
    | decide
    | dsimp -proj only [pair_fst, pair_snd]
    | split

theorem State.saveSeal_keep {s : State} {c : Cmd} {h : BitVec 32} {addr : BitVec 64} : Keep s (State.saveSeal s c h addr) [.regs, .ord, .fix, .dmv, .rop, .hif, .evr, .out] := by
  unfold State.saveSeal
  repeat' first
    | intro x_
    | with_reducible assumption
    | with_reducible apply Keep.refl
    | with_reducible apply Keep.ite
    | with_reducible apply Keep.app State.updCmd_keep
    | with_reducible apply Keep.app State.sealOut_keep
    | with_reducible apply Keep.app State.endCmd_keep
    | with_reducible apply Keep.iff
    | with_reducible apply Keep.fst (by assumption)
    | decide
    | dsimp -proj only [pair_fst, pair_snd]
    | split
    | with_reducible apply Keep.set_fix

theorem State.closeSeal_keep {s : State} {p : Pool} {c : Cmd} {h : BitVec 32} {addr : BitVec 64} : Keep s (State.closeSeal s p c h addr) [.regs, .ord, .dmv, .rop, .hif, .evr, .out] := by
  unfold State.closeSeal
  repeat' first
    | with_reducible assumption
    | with_reducible apply Keep.refl
    | with_reducible apply Keep.app State.sealOut_keep
    | with_reducible apply Keep.app State.endCmd_keep
    | with_reducible apply Keep.fst (by assumption)
    | decide
    | dsimp -proj only [pair_fst, pair_snd]
    | split

theorem State.newCtx_keep {s t : State} {c : SealCtx} {h : BitVec 32} (e : State.newCtx s c = some (t, h)) : Keep s t [.fix] := by
  unfold State.newCtx at e
  obtain ⟨slot, _, e⟩ := Option.map_eq_some_iff.mp e
  injection e with e _
  subst e
  exact Keep.set_fix (Keep.refl _ _) (by decide)

theorem State.restoreCtx_keep {s : State} {c : Cmd} {img : Option SealCtxImg} : Keep s (State.restoreCtx s c img) [.regs, .ord, .fix, .evr] := by
  unfold State.restoreCtx
  repeat' first
    | with_reducible assumption
    | with_reducible apply Keep.refl
    | with_reducible apply Keep.ite
    | with_reducible apply Keep.app State.endCmd_keep
    | with_reducible apply Keep.app State.log_keep
    | with_reducible apply Keep.app (State.newCtx_keep (by assumption))
    | decide
    | dsimp -proj only [pair_fst, pair_snd]
    | split
    | with_reducible apply Keep.set_fix

theorem State.restoreSeal_keep {s : State} {c : Cmd} {ctx : Option (HostRead SealCtxImg)} : Keep s (State.restoreSeal s c ctx) [.regs, .ord, .fix, .dmv, .hif, .evr, .out] := by
  unfold State.restoreSeal
  repeat' first
    | with_reducible assumption
    | with_reducible apply Keep.refl
    | with_reducible apply Keep.ite
    | with_reducible apply Keep.app State.updCmd_keep
    | with_reducible apply Keep.app State.restoreCtx_keep
    | with_reducible apply Keep.app State.endCmd_keep
    | with_reducible apply Keep.app State.transfer_keep
    | with_reducible apply Keep.fst (by assumption)
    | decide
    | dsimp -proj only [pair_fst, pair_snd]
    | split

theorem State.admitAppend_keep {s : State} {c : Cmd} {bytes : Nat} {h : BitVec 32} : Keep s (State.admitAppend s c bytes h) [.regs, .ord, .seq, .dmv, .hif, .evr, .sched, .out] := by
  unfold State.admitAppend
  repeat' first
    | intro x_
    | with_reducible assumption
    | with_reducible apply Keep.refl
    | with_reducible apply Keep.ite
    | with_reducible apply Keep.app State.updCmd_keep
    | with_reducible apply Keep.app State.endCmd_keep
    | with_reducible apply State.allot_keep
    | with_reducible apply Keep.app State.transferKept_keep
    | decide
    | dsimp -proj only [pair_fst, pair_snd]
    | split

theorem State.openSeal_keep {s : State} {c : Cmd} {prio : BitVec 8} {label : BitVec 384} : Keep s (State.openSeal s c prio label) [.ord, .fix] := by
  unfold State.openSeal
  repeat' first
    | with_reducible assumption
    | with_reducible apply Keep.refl
    | with_reducible apply Keep.app State.endCmd_keep
    | with_reducible apply Keep.app (State.newCtx_keep (by assumption))
    | decide
    | dsimp -proj only [pair_fst, pair_snd]
    | split

theorem State.setCtx_keep {s : State} {c : SealCtx} : Keep s (State.setCtx s c) [.fix] := by
  unfold State.setCtx
  repeat' first
    | with_reducible assumption
    | with_reducible apply Keep.refl
    | decide
    | dsimp -proj only [pair_fst, pair_snd]
    | split
    | with_reducible apply Keep.set_fix

theorem State.endAppend_keep {s : State} {c : Cmd} {bytes : Nat} {h : BitVec 32} {store : Bool} : Keep s (State.endAppend s c bytes h store) [.ord, .fix] := by
  unfold State.endAppend
  repeat' first
    | with_reducible assumption
    | with_reducible apply Keep.refl
    | with_reducible apply Keep.ite
    | with_reducible apply Keep.app State.endCmd_keep
    | with_reducible apply Keep.app State.setCtx_keep
    | decide
    | dsimp -proj only [pair_fst, pair_snd]
    | split

theorem State.dropCtx_keep {s : State} {h : BitVec 32} : Keep s (State.dropCtx s h) [.fix] := by
  unfold State.dropCtx
  repeat' first
    | with_reducible assumption
    | with_reducible apply Keep.refl
    | decide
    | dsimp -proj only [pair_fst, pair_snd]
    | split
    | with_reducible apply Keep.set_fix

theorem State.sealWritten_keep {s : State} {c : Cmd} : Keep s (State.sealWritten s c) [.ord, .fix] := by
  unfold State.sealWritten
  repeat' first
    | with_reducible assumption
    | with_reducible apply Keep.refl
    | with_reducible apply Keep.app State.endCmd_keep
    | with_reducible apply Keep.app State.dropCtx_keep
    | decide
    | dsimp -proj only [pair_fst, pair_snd]
    | split
    | with_reducible apply Keep.set_fix

end Sys2Proof.Machine
end

