-- ==== Sys2Proof/Laws/KeepCmdRun.lean ====
section
/-!
SUPPORT. What each operation of Machine/CmdRun.lean keeps: the parts of the state that it may write.
-/
namespace Sys2Proof.Machine

theorem State.moveReads_keep {s : State} : Keep s (State.moveReads s) [.regs, .ord, .cch, .seq, .dmv, .mbr, .rop, .hif, .evr, .mgt, .sched, .out] := by
  unfold State.moveReads
  repeat' first
    | intro x_
    | with_reducible assumption
    | with_reducible apply Keep.refl
    | with_reducible apply Keep.ite
    | with_reducible apply Keep.app State.releaseBlks_keep
    | with_reducible apply Keep.app State.sendNeeds_keep
    | with_reducible apply Keep.each
    | decide
    | dsimp -proj only [pair_fst, pair_snd]
    | split

theorem State.pullFwd_keep {s : State} {c : Cmd} : Keep s (State.pullFwd s c) [.regs, .ord, .seq, .dmv, .hif, .evr, .sched, .out] := by
  unfold State.pullFwd
  repeat' first
    | intro x_
    | with_reducible assumption
    | with_reducible apply Keep.refl
    | with_reducible apply Keep.ite
    | with_reducible apply Keep.app State.updCmd_keep
    | with_reducible apply State.allot_keep
    | with_reducible apply Keep.app State.transferKept_keep
    | decide
    | dsimp -proj only [pair_fst, pair_snd]
    | split

theorem State.offerLocal_keep {s : State} {c : Cmd} : Keep s (State.offerLocal s c) [.regs, .ord, .cch, .jnl, .pools, .seq, .fix, .dmv, .rop, .hif, .evr, .mgt, .sched, .freeCtr, .out] := by
  unfold State.offerLocal
  repeat' first
    | with_reducible assumption
    | with_reducible apply Keep.refl
    | with_reducible apply Keep.ite
    | with_reducible apply Keep.app State.saveSeal_keep
    | with_reducible apply Keep.app State.closeSeal_keep
    | with_reducible apply Keep.app State.restoreSeal_keep
    | with_reducible apply Keep.app State.failCmd_keep
    | with_reducible apply Keep.app State.endCmd_keep
    | with_reducible apply Keep.app State.admitWrite_keep
    | with_reducible apply Keep.app State.admitAppend_keep
    | with_reducible apply Keep.app State.admitRead_keep
    | with_reducible apply Keep.app State.openSeal_keep
    | decide
    | dsimp -proj only [pair_fst, pair_snd]
    | split

theorem State.offerSlice_keep {s : State} {c : Cmd} : Keep s (State.offerSlice s c) [.regs, .ord, .cch, .jnl, .pools, .seq, .fix, .dmv, .rop, .hif, .evr, .mgt, .sched, .freeCtr, .out] := by
  unfold State.offerSlice
  repeat' first
    | with_reducible assumption
    | with_reducible apply Keep.refl
    | with_reducible apply Keep.app State.pullFwd_keep
    | with_reducible apply Keep.app State.offerLocal_keep
    | decide
    | dsimp -proj only [pair_fst, pair_snd]
    | split

theorem State.offerSlices_keep {s : State} : Keep s (State.offerSlices s) [.regs, .ord, .cch, .jnl, .pools, .seq, .fix, .dmv, .rop, .hif, .evr, .mgt, .sched, .freeCtr, .out] := by
  unfold State.offerSlices
  repeat' first
    | intro x_
    | with_reducible assumption
    | with_reducible apply Keep.refl
    | with_reducible apply Keep.ite
    | with_reducible apply Keep.app State.offerSlice_keep
    | with_reducible apply Keep.foldl
    | with_reducible apply Keep.foldlFst
    | with_reducible apply Keep.fst (by assumption)
    | decide
    | dsimp -proj only [pair_fst, pair_snd]
    | split
    | with_reducible apply Keep.set_sched

theorem State.flushTrack_keep {s : State} : Keep s (State.flushTrack s) [.ord] := by
  unfold State.flushTrack
  repeat' first
    | intro x_
    | with_reducible assumption
    | with_reducible apply Keep.refl
    | with_reducible apply Keep.app State.updCmd_keep
    | with_reducible apply Keep.each
    | decide
    | dsimp -proj only [pair_fst, pair_snd]
    | split

theorem State.wakeFailed_keep {s : State} {pid : BitVec 16} : Keep s (State.wakeFailed s pid) [.regs, .ord, .pools, .evr] := by
  unfold State.wakeFailed
  repeat' first
    | intro x_
    | with_reducible assumption
    | with_reducible apply Keep.refl
    | with_reducible apply Keep.app State.endCmd_keep
    | with_reducible apply Keep.app State.log_keep
    | with_reducible apply Keep.app State.setPower_keep
    | with_reducible apply Keep.each
    | decide
    | dsimp -proj only [pair_fst, pair_snd]
    | split

theorem State.spinDown_keep {s : State} {p : Pool} : Keep s (State.spinDown s p) [.pools, .mbr, .sched, .out] := by
  unfold State.spinDown
  repeat' first
    | intro x_
    | with_reducible assumption
    | with_reducible apply Keep.refl
    | with_reducible apply Keep.ite
    | with_reducible apply Keep.app State.chargeAlways_keep
    | with_reducible apply Keep.app State.updPool_keep
    | with_reducible apply Keep.app State.updImg_keep
    | with_reducible apply Keep.app State.emit_keep
    | with_reducible apply Keep.each
    | decide
    | dsimp -proj only [pair_fst, pair_snd]
    | split

theorem State.endEntering_keep {s : State} {r : VolRun} : Keep s (State.endEntering s r) [.ord, .pools] := by
  unfold State.endEntering
  repeat' first
    | with_reducible assumption
    | with_reducible apply Keep.refl
    | with_reducible apply Keep.app State.endCmd_keep
    | decide
    | dsimp -proj only [pair_fst, pair_snd]
    | split
    | with_reducible apply Keep.set_pools

theorem State.endPower_keep {s : State} {v : BitVec 12} : Keep s (State.endPower s v) [.ord, .pools] := by
  unfold State.endPower
  repeat' first
    | intro x_
    | with_reducible assumption
    | with_reducible apply Keep.refl
    | with_reducible apply Keep.app State.endCmd_keep
    | with_reducible apply Keep.each
    | decide
    | dsimp -proj only [pair_fst, pair_snd]
    | split
    | with_reducible apply Keep.set_pools

theorem State.releaseHeld_keep {s : State} {v : BitVec 12} : Keep s (State.releaseHeld s v) [.ord] := by
  unfold State.releaseHeld
  repeat' first
    | with_reducible assumption
    | with_reducible apply Keep.refl
    | decide
    | dsimp -proj only [pair_fst, pair_snd]
    | split
    | with_reducible apply Keep.set_ord

theorem State.spinUp_keep {s : State} {p : Pool} : Keep s (State.spinUp s p) [.mbr, .sched, .out] := by
  unfold State.spinUp
  repeat' first
    | intro x_
    | with_reducible assumption
    | with_reducible apply Keep.refl
    | with_reducible apply Keep.ite
    | with_reducible apply Keep.app State.chargeAlways_keep
    | with_reducible apply Keep.app State.updImg_keep
    | with_reducible apply Keep.app State.send_keep
    | with_reducible apply Keep.each
    | decide
    | dsimp -proj only [pair_fst, pair_snd]
    | split

theorem State.stepVolPower_keep {s : State} {v : BitVec 12} : Keep s (State.stepVolPower s v) [.ord, .pools, .mbr, .sched, .out] := by
  unfold State.stepVolPower
  repeat' first
    | intro x_
    | with_reducible assumption
    | with_reducible apply Keep.refl
    | with_reducible apply Keep.ite
    | with_reducible apply Keep.app State.endEntering_keep
    | with_reducible apply Keep.app State.spinDown_keep
    | with_reducible apply Keep.app State.updPool_keep
    | with_reducible apply Keep.app State.endPower_keep
    | with_reducible apply Keep.app State.releaseHeld_keep
    | with_reducible apply Keep.app State.setPower_keep
    | with_reducible apply Keep.app State.spinUp_keep
    | with_reducible apply Keep.foldl
    | with_reducible apply Keep.foldlFst
    | with_reducible apply Keep.iff
    | with_reducible apply Keep.fst (by assumption)
    | decide
    | dsimp -proj only [pair_fst, pair_snd]
    | split
    | with_reducible apply Keep.set_pools

theorem State.stepPowers_keep {s : State} : Keep s (State.stepPowers s) [.ord, .pools, .mbr, .sched, .out] := by
  unfold State.stepPowers
  repeat' first
    | intro x_
    | with_reducible assumption
    | with_reducible apply Keep.refl
    | with_reducible apply Keep.app State.spinDown_keep
    | with_reducible apply Keep.app State.stepVolPower_keep
    | with_reducible apply Keep.each
    | with_reducible apply Keep.iff
    | decide
    | dsimp -proj only [pair_fst, pair_snd]
    | split

theorem State.landLocal_keep {s : State} : Keep s (State.landLocal s) [.regs, .ord, .cch, .jnl, .fix, .rop, .evr, .mgt, .freeCtr] := by
  unfold State.landLocal
  repeat' first
    | intro x_
    | with_reducible assumption
    | with_reducible apply Keep.refl
    | with_reducible apply Keep.ite
    | with_reducible apply Keep.app State.failFrom_keep
    | with_reducible apply Keep.app State.streamSlots_keep
    | with_reducible apply Keep.app State.failCmd_keep
    | with_reducible apply Keep.app State.tagAll_keep
    | with_reducible apply Keep.app State.landSlice_keep
    | with_reducible apply Keep.each
    | with_reducible apply Keep.fst (by assumption)
    | decide
    | dsimp -proj only [pair_fst, pair_snd]
    | split

theorem State.settleCmd_keep {s : State} {id : Nat} : Keep s (State.settleCmd s id) [.ord, .cch, .fix] := by
  unfold State.settleCmd
  repeat' first
    | with_reducible assumption
    | with_reducible apply Keep.refl
    | with_reducible apply Keep.ite
    | with_reducible apply Keep.app State.endRead_keep
    | with_reducible apply Keep.app State.endAppend_keep
    | with_reducible apply Keep.app State.endWrite_keep
    | with_reducible apply Keep.app State.sealWritten_keep
    | decide
    | dsimp -proj only [pair_fst, pair_snd]
    | split

theorem State.settleCmds_keep {s : State} : Keep s (State.settleCmds s) [.ord, .cch, .fix] := by
  unfold State.settleCmds
  repeat' first
    | intro x_
    | with_reducible assumption
    | with_reducible apply Keep.refl
    | with_reducible apply Keep.app State.settleCmd_keep
    | with_reducible apply Keep.each
    | decide
    | dsimp -proj only [pair_fst, pair_snd]
    | split

theorem State.pushed_keep {s : State} {c : Cmd} {vbns : List Nat} {st : RBlkSt} : Keep s (State.pushed s c vbns st) [.ord, .cch, .rop, .out] := by
  unfold State.pushed
  repeat' first
    | intro x_
    | with_reducible assumption
    | with_reducible apply Keep.refl
    | with_reducible apply Keep.ite
    | with_reducible apply Keep.app State.updCmd_keep
    | with_reducible apply Keep.app State.sendSeq_keep
    | with_reducible apply Keep.app State.unhold_keep
    | with_reducible apply Keep.iff
    | decide
    | dsimp -proj only [pair_fst, pair_snd]
    | split

theorem State.pullFailed_keep {s : State} {c : Cmd} {slice : Nat} {e : HostErr} : Keep s (State.pullFailed s c slice e) [.ord, .cch, .jnl] := by
  unfold State.pullFailed
  repeat' first
    | with_reducible assumption
    | with_reducible apply Keep.refl
    | with_reducible apply Keep.app State.failFrom_keep
    | with_reducible apply Keep.app State.failCmd_keep
    | decide
    | dsimp -proj only [pair_fst, pair_snd]
    | split

theorem State.sendStream_keep {s : State} {c : Cmd} {owner : BitVec 12} {fid : BitVec 64} {total : Nat} : Keep s (State.sendStream s c owner fid total) [.ord, .rop, .out] := by
  unfold State.sendStream
  repeat' first
    | intro x_
    | with_reducible assumption
    | with_reducible apply Keep.refl
    | with_reducible apply Keep.ite
    | with_reducible apply Keep.app State.updCmd_keep
    | with_reducible apply Keep.app State.sendSeq_keep
    | with_reducible apply Keep.foldl
    | with_reducible apply Keep.foldlFst
    | with_reducible apply Keep.fst (by assumption)
    | decide
    | dsimp -proj only [pair_fst, pair_snd]
    | split

theorem State.pulled_keep {s : State} {c : Cmd} {slice : Nat} {payload : List BlockData} : Keep s (State.pulled s c slice payload) [.regs, .ord, .cch, .jnl, .fix, .dmv, .rop, .hif, .evr, .mgt, .freeCtr, .out] := by
  unfold State.pulled
  repeat' first
    | with_reducible assumption
    | with_reducible apply Keep.refl
    | with_reducible apply Keep.ite
    | with_reducible apply Keep.app State.updCmd_keep
    | with_reducible apply Keep.app State.failFrom_keep
    | with_reducible apply Keep.app State.failCmd_keep
    | with_reducible apply Keep.app State.ingressAll_keep
    | with_reducible apply Keep.app State.sendSeq_keep
    | with_reducible apply Keep.app State.landSlice_keep
    | with_reducible apply Keep.app State.transferKept_keep
    | with_reducible apply Keep.app State.sendStream_keep
    | with_reducible apply Keep.fst (by assumption)
    | decide
    | dsimp -proj only [pair_fst, pair_snd]
    | split

theorem State.descEnd_keep {s : State} {r : DmvRec} : Keep s (State.descEnd s r) [.regs, .ord, .cch, .jnl, .fix, .dmv, .rop, .hif, .evr, .mgt, .freeCtr, .out] := by
  unfold State.descEnd
  repeat' first
    | with_reducible assumption
    | with_reducible apply Keep.refl
    | with_reducible apply Keep.ite
    | with_reducible apply Keep.app State.pushed_keep
    | with_reducible apply Keep.app State.restoreCtx_keep
    | with_reducible apply Keep.app State.failCmd_keep
    | with_reducible apply Keep.app State.pullFailed_keep
    | with_reducible apply Keep.app State.endCmd_keep
    | with_reducible apply Keep.app State.pulled_keep
    | with_reducible apply Keep.app State.sealWritten_keep
    | with_reducible apply Keep.app State.transferKept_keep
    | decide
    | dsimp -proj only [pair_fst, pair_snd]
    | split

theorem State.takeDmv_keep {s : State} : Keep s (State.takeDmv s) [.regs, .ord, .cch, .jnl, .fix, .dmv, .rop, .hif, .evr, .mgt, .freeCtr, .out] := by
  unfold State.takeDmv
  repeat' first
    | intro x_
    | with_reducible assumption
    | with_reducible apply Keep.refl
    | with_reducible apply Keep.ite
    | with_reducible apply Keep.app State.reissueKept_keep
    | with_reducible apply Keep.app State.dmvResume_keep
    | with_reducible apply Keep.app State.descEnd_keep
    | with_reducible apply Keep.app State.dmvClear_keep
    | with_reducible apply Keep.app State.takeRecs_keep
    | with_reducible apply Keep.each
    | with_reducible apply Keep.fst (by assumption)
    | decide
    | dsimp -proj only [pair_fst, pair_snd]
    | split

theorem State.flushDue_keep {s : State} {c : Cmd} : Keep s (State.flushDue s c) [.cch] := by
  unfold State.flushDue
  repeat' first
    | intro x_
    | with_reducible assumption
    | with_reducible apply Keep.refl
    | with_reducible apply Keep.ite
    | with_reducible apply Keep.each
    | decide
    | dsimp -proj only [pair_fst, pair_snd]
    | split
    | with_reducible apply Keep.set_cch

theorem State.stepFlush_keep {s : State} {c : Cmd} : Keep s (State.stepFlush s c) [.ord, .cch] := by
  unfold State.stepFlush
  repeat' first
    | with_reducible assumption
    | with_reducible apply Keep.refl
    | with_reducible apply Keep.ite
    | with_reducible apply Keep.app State.flushDue_keep
    | with_reducible apply Keep.app State.endCmd_keep
    | decide
    | dsimp -proj only [pair_fst, pair_snd]
    | split

theorem State.stepFlushes_keep {s : State} : Keep s (State.stepFlushes s) [.ord, .cch] := by
  unfold State.stepFlushes
  repeat' first
    | intro x_
    | with_reducible assumption
    | with_reducible apply Keep.refl
    | with_reducible apply Keep.app State.stepFlush_keep
    | with_reducible apply Keep.app State.flushTrack_keep
    | with_reducible apply Keep.each
    | decide
    | dsimp -proj only [pair_fst, pair_snd]
    | split

theorem State.endFwd_keep {s : State} {c : Cmd} {st : Stat} {acc : Nat} : Keep s (State.endFwd s c st acc) [.ord, .cch] := by
  unfold State.endFwd
  repeat' first
    | with_reducible assumption
    | with_reducible apply Keep.refl
    | with_reducible apply Keep.app State.updCmd_keep
    | with_reducible apply Keep.app State.unhold_keep
    | decide
    | dsimp -proj only [pair_fst, pair_snd]
    | split

theorem State.takeReplies_keep {s : State} : Keep s (State.takeReplies s) [.ord, .cch, .rop] := by
  unfold State.takeReplies
  repeat' first
    | intro x_
    | with_reducible assumption
    | with_reducible apply Keep.refl
    | with_reducible apply Keep.ite
    | with_reducible apply Keep.app State.endFwd_keep
    | with_reducible apply Keep.each
    | with_reducible exact Rop.lens_mk
    | (show (_ : List Nat) = _; first | with_reducible rfl | (simp [Rop.lens]; done) | rfl)
    | decide
    | dsimp -proj only [pair_fst, pair_snd]
    | split
    | with_reducible apply Keep.set_rop

theorem State.needMembers_keep {s : State} {p : Pool} : Keep s (State.needMembers s p) [.mbr, .sched, .out] := by
  unfold State.needMembers
  repeat' first
    | intro x_
    | with_reducible assumption
    | with_reducible apply Keep.refl
    | with_reducible apply Keep.app State.spinUp_keep
    | with_reducible apply Keep.iff
    | decide
    | dsimp -proj only [pair_fst, pair_snd]
    | split

end Sys2Proof.Machine
end

