-- ==== Sys2Proof/Laws/KeepPosting.lean ====
section
/-!
SUPPORT. What each operation of Machine/Posting.lean keeps: the parts of the state that it may write.
-/
namespace Sys2Proof.Machine

theorem State.recOut_keep {s : State} {k : RingRef} {r : CplRec} : Keep s (State.recOut s k r) [.qe, .ord] := by
  unfold State.recOut
  repeat' first
    | with_reducible assumption
    | with_reducible apply Keep.refl
    | decide
    | dsimp -proj only [pair_fst, pair_snd]
    | split
    | with_reducible apply Keep.set_qe_ord

theorem State.postOne_keep {s : State} {k : RingRef} {r : CplRec} : Keep s (State.postOne s k r) [.qe, .out] := by
  unfold State.postOne
  repeat' first
    | with_reducible assumption
    | with_reducible apply Keep.refl
    | with_reducible apply Keep.app State.updCq_keep
    | with_reducible apply Keep.app State.emit_keep
    | decide
    | dsimp -proj only [pair_fst, pair_snd]
    | split

theorem State.reread_keep {s : State} {k : RingRef} : Keep s (State.reread s k) [.qe, .hif, .out] := by
  unfold State.reread
  repeat' first
    | with_reducible assumption
    | with_reducible apply Keep.refl
    | with_reducible apply Keep.ite
    | with_reducible apply Keep.app State.updCq_keep
    | with_reducible apply Keep.app State.takeTag_keep
    | with_reducible apply Keep.app State.emit_keep
    | with_reducible apply Keep.fst (by assumption)
    | decide
    | dsimp -proj only [pair_fst, pair_snd]
    | split

theorem State.postRing_keep {s : State} {k : RingRef} {news : List CplRec} : Keep s (State.postRing s k news) [.regs, .qe, .ord, .hif, .out] := by
  unfold State.postRing
  repeat' first
    | intro x_
    | with_reducible assumption
    | with_reducible apply Keep.refl
    | with_reducible apply Keep.ite
    | with_reducible apply Keep.app State.bump_keep
    | with_reducible apply Keep.app State.recOut_keep
    | with_reducible apply Keep.app State.readLine_keep
    | with_reducible apply Keep.app State.updSq_keep
    | with_reducible apply Keep.app State.postOne_keep
    | with_reducible apply Keep.app State.updCq_keep
    | with_reducible apply Keep.app State.reread_keep
    | with_reducible apply Keep.each
    | with_reducible apply Keep.iff
    | decide
    | dsimp -proj only [pair_fst, pair_snd]
    | split
    | with_reducible apply Keep.set_qe

theorem State.cqStall_keep {s : State} {k : RingRef} : Keep s (State.cqStall s k) [.regs, .qe, .evr] := by
  unfold State.cqStall
  repeat' first
    | with_reducible assumption
    | with_reducible apply Keep.refl
    | with_reducible apply Keep.ite
    | with_reducible apply Keep.app State.bump_keep
    | with_reducible apply Keep.app State.log_keep
    | with_reducible apply Keep.app State.updCq_keep
    | decide
    | dsimp -proj only [pair_fst, pair_snd]
    | split

theorem State.postAll_keep {s : State} : Keep s (State.postAll s) [.regs, .qe, .ord, .hif, .evr, .out] := by
  unfold State.postAll
  repeat' first
    | intro x_
    | with_reducible assumption
    | with_reducible apply Keep.refl
    | with_reducible apply Keep.app State.bump_keep
    | with_reducible apply Keep.app State.postRing_keep
    | with_reducible apply Keep.app State.cqStall_keep
    | with_reducible apply Keep.each
    | decide
    | dsimp -proj only [pair_fst, pair_snd]
    | split
    | with_reducible apply Keep.set_qe
    | with_reducible apply Keep.set_ord

theorem State.setPme_keep {s : State} {p : PciePort} {fn : Fn} : Keep s (State.setPme s p fn) [.pins, .hif, .out] := by
  unfold State.setPme
  repeat' first
    | with_reducible assumption
    | with_reducible apply Keep.refl
    | with_reducible apply Keep.ite
    | with_reducible apply Keep.app State.updFn_keep
    | with_reducible apply Keep.app State.emit_keep
    | with_reducible exact Pins.lens_mk
    | (show (_ : List Nat) = _; first | with_reducible rfl | (simp [Pins.lens]; done) | rfl)
    | decide
    | dsimp -proj only [pair_fst, pair_snd]
    | split
    | with_reducible apply Keep.set_pins

theorem State.pmeWaits_keep {s : State} : Keep s (State.pmeWaits s) [.pins, .hif, .out] := by
  unfold State.pmeWaits
  repeat' first
    | intro x_
    | with_reducible assumption
    | with_reducible apply Keep.refl
    | with_reducible apply Keep.app State.setPme_keep
    | with_reducible apply Keep.each
    | with_reducible apply Keep.iff
    | decide
    | dsimp -proj only [pair_fst, pair_snd]
    | split

theorem State.collect_keep {s : State} : Keep s (State.collect s) [.regs, .qe, .ord, .rop, .out] := by
  unfold State.collect
  repeat' first
    | intro x_
    | with_reducible assumption
    | with_reducible apply Keep.refl
    | with_reducible apply Keep.app State.updCmd_keep
    | with_reducible apply Keep.app State.bump_keep
    | with_reducible apply Keep.app State.releaseLock_keep
    | with_reducible apply Keep.app State.sendSeq_keep
    | with_reducible apply Keep.each
    | decide
    | dsimp -proj only [pair_fst, pair_snd]
    | split
    | with_reducible apply Keep.set_ord
    | with_reducible apply Keep.set_qe

theorem State.abortCmd_keep {s : State} {t : Cmd} : Keep s (State.abortCmd s t) [.regs, .ord, .cch, .jnl, .sched] := by
  unfold State.abortCmd
  repeat' first
    | with_reducible assumption
    | with_reducible apply Keep.refl
    | with_reducible apply Keep.app State.updCmd_keep
    | with_reducible apply Keep.app State.bump_keep
    | with_reducible apply Keep.app State.failUnjournalled_keep
    | with_reducible apply Keep.app State.endCmd_keep
    | with_reducible apply Keep.app State.unhold_keep
    | decide
    | dsimp -proj only [pair_fst, pair_snd]
    | split
    | with_reducible apply Keep.set_sched

theorem State.decideAbort_keep {s : State} {a : Cmd} : Keep s (State.decideAbort s a) [.regs, .ord, .cch, .jnl, .sched] := by
  unfold State.decideAbort
  repeat' first
    | with_reducible assumption
    | with_reducible apply Keep.refl
    | with_reducible apply Keep.ite
    | with_reducible apply Keep.app State.bump_keep
    | with_reducible apply Keep.app State.endCmd_keep
    | with_reducible apply Keep.app State.abortCmd_keep
    | decide
    | dsimp -proj only [pair_fst, pair_snd]
    | split

theorem State.arbitrate_keep {s : State} : Keep s (State.arbitrate s) [.regs, .ord, .cch, .jnl, .sched] := by
  unfold State.arbitrate
  repeat' first
    | intro x_
    | with_reducible assumption
    | with_reducible apply Keep.refl
    | with_reducible apply Keep.ite
    | with_reducible apply Keep.app State.decideAbort_keep
    | with_reducible apply Keep.each
    | decide
    | dsimp -proj only [pair_fst, pair_snd]
    | split

theorem State.devLines_keep {s : State} : Keep s (State.devLines s) [.qe, .out] := by
  unfold State.devLines
  repeat' first
    | intro x_
    | with_reducible assumption
    | with_reducible apply Keep.refl
    | with_reducible apply Keep.ite
    | with_reducible apply Keep.app State.emit_keep
    | with_reducible apply Keep.each
    | decide
    | dsimp -proj only [pair_fst, pair_snd]
    | split
    | with_reducible apply Keep.set_qe

theorem State.raise_keep {s : State} {p : PciePort} {fn : Fn} {v : Nat} : Keep s (State.raise s p fn v) [.hif, .out] := by
  unfold State.raise
  repeat' first
    | with_reducible assumption
    | with_reducible apply Keep.refl
    | with_reducible apply Keep.ite
    | with_reducible apply Keep.app State.updFn_keep
    | with_reducible apply Keep.app State.emit_keep
    | decide
    | dsimp -proj only [pair_fst, pair_snd]
    | split

theorem State.interrupts_keep {s : State} : Keep s (State.interrupts s) [.qe, .hif, .out] := by
  unfold State.interrupts
  repeat' first
    | intro x_
    | with_reducible assumption
    | with_reducible apply Keep.refl
    | with_reducible apply Keep.app State.raise_keep
    | with_reducible apply Keep.each
    | decide
    | dsimp -proj only [pair_fst, pair_snd]
    | split
    | with_reducible apply Keep.set_qe

theorem State.post_keep {s : State} : Keep s (State.post s) [.pins, .regs, .qe, .ord, .cch, .jnl, .pools, .rop, .hif, .evr, .sched, .out] := by
  unfold State.post
  repeat' first
    | with_reducible assumption
    | with_reducible apply Keep.refl
    | with_reducible apply Keep.app State.grantAll_keep
    | with_reducible apply Keep.app State.postAll_keep
    | with_reducible apply Keep.app State.pmeWaits_keep
    | with_reducible apply Keep.app State.collect_keep
    | with_reducible apply Keep.app State.arbitrate_keep
    | with_reducible apply Keep.app State.devLines_keep
    | with_reducible apply Keep.app State.interrupts_keep
    | decide
    | dsimp -proj only [pair_fst, pair_snd]
    | split

theorem State.pmeAll_keep {s : State} : Keep s (State.pmeAll s) [.pins, .hif, .out] := by
  unfold State.pmeAll
  repeat' first
    | intro x_
    | with_reducible assumption
    | with_reducible apply Keep.refl
    | with_reducible apply Keep.app State.setPme_keep
    | with_reducible apply Keep.each
    | decide
    | dsimp -proj only [pair_fst, pair_snd]
    | split

theorem execCqStalled_keep {q : RingRef} {s : State} {t_ : State} (h : execCqStalled q s = .next t_) : Keep s t_ [.regs, .qe, .evr, .out] := by
  unfold execCqStalled at h
  try dsimp -proj only at h
  repeat' split at h
  all_goals
    injection h with h
    subst h
    repeat' first
      | with_reducible assumption
      | with_reducible apply Keep.refl
      | with_reducible apply Keep.app State.cqStall_keep
      | with_reducible apply Keep.app State.clr_keep
      | decide
      | dsimp -proj only [pair_fst, pair_snd]
      | split

end Sys2Proof.Machine
end

