-- ==== Sys2Proof/Laws/KeepTrust.lean ====
section
/-!
SUPPORT. What each operation of Machine/Trust.lean keeps: the parts of the state that it may write.
-/
namespace Sys2Proof.Machine

theorem State.writeTrust_keep {s : State} : Keep s (State.writeTrust s) [.tru, .out] := by
  unfold State.writeTrust
  repeat' first
    | with_reducible assumption
    | with_reducible apply Keep.refl
    | with_reducible apply Keep.app State.emit_keep
    | with_reducible exact Tru.fwFuses_mk
    | with_reducible exact Tru.idxFuses_mk
    | with_reducible exact Tru.lens_mk
    | (show (_ : List Nat) = _; first | with_reducible rfl | (simp [Tru.lens]; done) | rfl)
    | decide
    | dsimp -proj only [pair_fst, pair_snd]
    | split
    | with_reducible apply Keep.set_tru

theorem State.raiseFloors_keep {s : State} {fw img : Nat} : Keep s (State.raiseFloors s fw img) [.vlt, .tru, .out] := by
  unfold State.raiseFloors
  dsimp -proj only
  refine Keep.app State.writeTrust_keep (by decide) ?_
  exact ⟨rfl, rfl, Nat.le_max_left _ _, Nat.le_refl _, id, fun w => w.of rfl rfl rfl rfl rfl rfl rfl rfl rfl, (by intro k hk; cases k <;> first | exact absurd (by decide) hk | exact rfl | exact ⟨rfl, rfl, rfl⟩)⟩

/-- A copy of the trust record says nothing of the fuses and of the copies. -/
theorem Tru.readCopy_keeps {t x : Tru} {serial : BitVec 128} {bs : List Byte} {n : Nat} (h : t.readCopy serial bs = some (n, x)) :
    x.fwFuses = t.fwFuses ∧ x.idxFuses = t.idxFuses ∧ x.lens = t.lens := by
  unfold Tru.readCopy at h
  dsimp only at h
  split at h
  · cases h; exact ⟨rfl, rfl, rfl⟩
  · cases h

theorem State.readTrust_keep {s : State} : Keep s (State.readTrust s) [.tru] := by
  unfold State.readTrust
  dsimp -proj only
  refine Keep.set_tru (Keep.refl _ _) (by decide) ?_ ?_ ?_
  all_goals
    split
    · rename_i ha hb
      split
      · first | exact (Tru.readCopy_keeps hb).1 | exact (Tru.readCopy_keeps hb).2.1 | exact (Tru.readCopy_keeps hb).2.2
      · first | exact (Tru.readCopy_keeps ha).1 | exact (Tru.readCopy_keeps ha).2.1 | exact (Tru.readCopy_keeps ha).2.2
    · rename_i h _; first | exact (Tru.readCopy_keeps h).1 | exact (Tru.readCopy_keeps h).2.1 | exact (Tru.readCopy_keeps h).2.2
    · rename_i h; first | exact (Tru.readCopy_keeps h).1 | exact (Tru.readCopy_keeps h).2.1 | exact (Tru.readCopy_keeps h).2.2
    · rfl

theorem State.copyCerts_keep {s : State} : Keep s (State.copyCerts s) [.tru] := by
  unfold State.copyCerts
  repeat' first
    | with_reducible assumption
    | with_reducible apply Keep.refl
    | with_reducible apply Keep.ite
    | with_reducible exact Tru.fwFuses_mk
    | with_reducible exact Tru.idxFuses_mk
    | with_reducible exact Tru.lens_mk
    | (show (_ : List Nat) = _; first | with_reducible rfl | (simp [Tru.lens]; done) | rfl)
    | decide
    | dsimp -proj only [pair_fst, pair_snd]
    | split
    | with_reducible apply Keep.set_tru

theorem State.reserve_keep {s : State} {persistOk recordOk : Bool} : Keep s (State.reserve s persistOk recordOk).1 [.regs, .vlt, .tru, .evr, .out] := by
  have hfuse : Keep s (if s.tru.rHi + 1024 > s.tru.idxFuses * fuseStep ∧ s.tru.idxFuses < 256 then
      { s with tru := { s.tru with idxFuses := s.tru.idxFuses + 1 } } else s) [.regs, .vlt, .tru, .evr, .out] := by
    split
    · exact ⟨rfl, rfl, Nat.le_refl _, Nat.le_succ _, id, fun w => w.of rfl rfl rfl rfl rfl rfl rfl rfl rfl, (by intro k hk; cases k <;> first | exact absurd (by decide) hk | exact rfl | exact ⟨rfl, rfl, rfl⟩)⟩
    · exact Keep.refl _ _
  unfold State.reserve
  dsimp -proj only
  generalize (if s.tru.rHi + 1024 > s.tru.idxFuses * fuseStep ∧ s.tru.idxFuses < 256 then
      { s with tru := { s.tru with idxFuses := s.tru.idxFuses + 1 } } else s) = u at hfuse
  repeat' first
    | with_reducible assumption
    | with_reducible apply Keep.app State.log_keep
    | with_reducible apply Keep.app State.writeTrust_keep
    | with_reducible exact Tru.lens_mk
    | with_reducible exact Tru.fwFuses_mk
    | with_reducible exact Tru.idxFuses_mk
    | with_reducible exact Vlt.lens_mk
    | decide
    | split
    | dsimp -proj only [pair_fst, pair_snd]
    | with_reducible apply Keep.set_tru
    | with_reducible apply Keep.set_vlt_tru

theorem State.nextIndex_keep {s : State} {persistOk : Bool} {recordOk : Bool} : Keep s (State.nextIndex s persistOk recordOk).1 [.regs, .vlt, .tru, .evr, .out] := by
  unfold State.nextIndex
  repeat' first
    | intro x_
    | with_reducible assumption
    | with_reducible apply Keep.refl
    | with_reducible apply Keep.ite
    | with_reducible apply Keep.app State.bump_keep
    | with_reducible apply Keep.app State.reserve_keep
    | with_reducible apply Keep.app State.log_keep
    | with_reducible apply Keep.iff
    | with_reducible apply Keep.fst (by assumption)
    | with_reducible exact Tru.fwFuses_mk
    | with_reducible exact Tru.idxFuses_mk
    | with_reducible exact Tru.lens_mk
    | (show (_ : List Nat) = _; first | with_reducible rfl | (simp [Tru.lens]; done) | rfl)
    | decide
    | dsimp -proj only [pair_fst, pair_snd]
    | split
    | with_reducible apply Keep.set_tru

theorem State.finishReport_keep {s : State} {src : AdmSrc} {tag : BitVec 16} {addr : BitVec 64} {len : BitVec 32} {nonce : BitVec 256} {persistOk : Bool} {recordOk : Bool} : Keep s (State.finishReport s src tag addr len nonce persistOk recordOk) [.regs, .qe, .hif, .vlt, .tru, .evr, .out] := by
  unfold State.finishReport
  repeat' first
    | with_reducible assumption
    | with_reducible apply Keep.refl
    | with_reducible apply Keep.ite
    | with_reducible apply Keep.app State.nextIndex_keep
    | with_reducible apply Keep.app State.hostOut_keep
    | with_reducible apply Keep.fst (by assumption)
    | decide
    | dsimp -proj only [pair_fst, pair_snd]
    | split

theorem State.finishVirek_keep {s : State} {pool : BitVec 16} {body : Virek} {persistOk : Bool} {recordOk : Bool} : Keep s (State.finishVirek s pool body persistOk recordOk) [.regs, .pools, .vlt, .tru, .evr, .out] := by
  unfold State.finishVirek
  repeat' first
    | with_reducible assumption
    | with_reducible apply Keep.refl
    | with_reducible apply Keep.ite
    | with_reducible apply Keep.app State.nextIndex_keep
    | with_reducible apply Keep.app State.updPool_keep
    | with_reducible apply Keep.fst (by assumption)
    | decide
    | dsimp -proj only [pair_fst, pair_snd]
    | split

theorem State.signDone_keep {s : State} {persistOk : Bool} {recordOk : Bool} : Keep s (State.signDone s persistOk recordOk) [.regs, .qe, .pools, .hif, .vlt, .tru, .evr, .out] := by
  unfold State.signDone
  repeat' first
    | with_reducible assumption
    | with_reducible apply Keep.refl
    | with_reducible apply Keep.ite
    | with_reducible apply Keep.app State.finishReport_keep
    | with_reducible apply Keep.app State.finishVirek_keep
    | with_reducible exact Tru.fwFuses_mk
    | with_reducible exact Tru.idxFuses_mk
    | with_reducible exact Tru.lens_mk
    | (show (_ : List Nat) = _; first | with_reducible rfl | (simp [Tru.lens]; done) | rfl)
    | decide
    | dsimp -proj only [pair_fst, pair_snd]
    | split
    | with_reducible apply Keep.set_tru

theorem execTruSignatureDone_keep {persistOk : Bool} {recordOk : Bool} {s : State} {t_ : State} (h : execTruSignatureDone persistOk recordOk s = .next t_) : Keep s t_ [.regs, .qe, .pools, .hif, .vlt, .tru, .evr, .out] := by
  unfold execTruSignatureDone at h
  try dsimp -proj only at h
  repeat' split at h
  all_goals
    injection h with h
    subst h
    repeat' first
      | with_reducible assumption
      | with_reducible apply Keep.refl
      | with_reducible apply Keep.app State.signDone_keep
      | with_reducible apply Keep.app State.clr_keep
      | decide
      | dsimp -proj only [pair_fst, pair_snd]
      | split

end Sys2Proof.Machine
end

