-- ==== Sys2Proof/Laws/KeepEvents.lean ====
section
/-!
SUPPORT. What each operation of Machine/Events.lean keeps: the parts of the state that it may write.
-/
namespace Sys2Proof.Machine

theorem State.writeLog_keep {s : State} {padded : Bool} : Keep s (State.writeLog s padded) [.regs, .vlt, .evr] := by
  unfold State.writeLog
  repeat' first
    | intro x_
    | with_reducible assumption
    | with_reducible apply Keep.refl
    | with_reducible apply Keep.ite
    | with_reducible apply Keep.app State.log_keep
    | with_reducible apply Keep.iff
    | with_reducible exact Vlt.lens_mk
    | with_reducible exact Evr.lens_mk
    | (show (_ : List Nat) = _; first | with_reducible rfl | (simp [Vlt.lens, Evr.lens]; done) | rfl)
    | decide
    | dsimp -proj only [pair_fst, pair_snd]
    | split
    | with_reducible apply Keep.set_vlt_evr

theorem State.saveEvents_keep {s : State} : Keep s (State.saveEvents s) [.regs, .vlt, .evr] := by
  unfold State.saveEvents
  repeat' first
    | intro x_
    | with_reducible assumption
    | with_reducible apply Keep.refl
    | with_reducible apply Keep.app State.writeLog_keep
    | with_reducible apply Keep.foldl
    | with_reducible apply Keep.foldlFst
    | with_reducible apply Keep.fst (by assumption)
    | with_reducible exact Evr.lens_mk
    | (show (_ : List Nat) = _; first | with_reducible rfl | (simp [Evr.lens]; done) | rfl)
    | decide
    | dsimp -proj only [pair_fst, pair_snd]
    | split
    | with_reducible apply Keep.set_evr

theorem State.clearEvents_keep {s : State} {src : AdmSrc} {tag : BitVec 16} : Keep s (State.clearEvents s src tag) [.regs, .qe, .evr, .out] := by
  unfold State.clearEvents
  repeat' first
    | with_reducible assumption
    | with_reducible apply Keep.refl
    | with_reducible apply Keep.app State.bump_keep
    | with_reducible apply Keep.app State.admDone_keep
    | with_reducible apply Keep.app State.reach_keep
    | with_reducible exact Evr.lens_mk
    | (show (_ : List Nat) = _; first | with_reducible rfl | (simp [Evr.lens]; done) | rfl)
    | decide
    | dsimp -proj only [pair_fst, pair_snd]
    | split
    | with_reducible apply Keep.set_evr

theorem State.clearAll_keep {s : State} : Keep s (State.clearAll s) [.regs, .qe, .evr, .out] := by
  unfold State.clearAll
  repeat' first
    | intro x_
    | with_reducible assumption
    | with_reducible apply Keep.refl
    | with_reducible apply Keep.app State.clearEvents_keep
    | with_reducible apply Keep.each
    | with_reducible exact Evr.lens_mk
    | (show (_ : List Nat) = _; first | with_reducible rfl | (simp [Evr.lens]; done) | rfl)
    | decide
    | dsimp -proj only [pair_fst, pair_snd]
    | split
    | with_reducible apply Keep.set_evr

theorem State.writeCursor_keep {s : State} {src : Src} {high : Bool} {size : Nat} {data : BitVec 64} : Keep s (State.writeCursor s src high size data) [.evr] := by
  unfold State.writeCursor
  repeat' first
    | with_reducible assumption
    | with_reducible apply Keep.refl
    | with_reducible apply Keep.ite
    | with_reducible exact Evr.lens_mk
    | (show (_ : List Nat) = _; first | with_reducible rfl | (simp [Evr.lens]; done) | rfl)
    | decide
    | dsimp -proj only [pair_fst, pair_snd]
    | split
    | with_reducible apply Keep.set_evr

theorem State.norWrite_keep {s : State} {ok : Bool} : Keep s (State.norWrite s ok) [.regs, .evr] := by
  unfold State.norWrite
  repeat' first
    | with_reducible assumption
    | with_reducible apply Keep.refl
    | with_reducible apply Keep.ite
    | with_reducible apply Keep.app State.bump_keep
    | with_reducible apply Keep.app State.log_keep
    | with_reducible exact Evr.lens_mk
    | (show (_ : List Nat) = _; first | with_reducible rfl | (simp [Evr.lens]; done) | rfl)
    | decide
    | dsimp -proj only [pair_fst, pair_snd]
    | split
    | with_reducible apply Keep.set_evr

theorem execEvrNorHalfWrite_keep {ok : Bool} {s : State} {t_ : State} (h : execEvrNorHalfWrite ok s = .next t_) : Keep s t_ [.regs, .evr, .out] := by
  unfold execEvrNorHalfWrite at h
  try dsimp -proj only at h
  repeat' split at h
  all_goals
    injection h with h
    subst h
    repeat' first
      | with_reducible assumption
      | with_reducible apply Keep.refl
      | with_reducible apply Keep.app State.norWrite_keep
      | with_reducible apply Keep.app State.clr_keep
      | decide
      | dsimp -proj only [pair_fst, pair_snd]
      | split

theorem execEvrLogPageWrite_keep {s : State} {t_ : State} (h : execEvrLogPageWrite s = .next t_) : Keep s t_ [.regs, .vlt, .evr, .out] := by
  unfold execEvrLogPageWrite at h
  try dsimp -proj only at h
  repeat' split at h
  all_goals
    injection h with h
    subst h
    repeat' first
      | with_reducible assumption
      | with_reducible apply Keep.refl
      | with_reducible apply Keep.app State.writeLog_keep
      | with_reducible apply Keep.app State.clr_keep
      | decide
      | dsimp -proj only [pair_fst, pair_snd]
      | split

theorem State.takeHeader_keep {s : State} {valid : Bool} : Keep s (State.takeHeader s valid) [.evr] := by
  unfold State.takeHeader
  repeat' first
    | intro x_
    | with_reducible assumption
    | with_reducible apply Keep.refl
    | with_reducible apply Keep.ite
    | with_reducible apply Keep.foldl
    | with_reducible apply Keep.foldlFst
    | with_reducible apply Keep.fst (by assumption)
    | with_reducible exact Evr.lens_mk
    | (show (_ : List Nat) = _; first | with_reducible rfl | (simp [Evr.lens]; done) | rfl)
    | exact (Evr.foldAssign_lens _ _).trans rfl
    | decide
    | dsimp -proj only [pair_fst, pair_snd]
    | split
    | with_reducible apply Keep.set_evr

end Sys2Proof.Machine
end

