-- ==== Sys2Proof/Laws/KeepAdmin.lean ====
section
/-!
SUPPORT. What each operation of Machine/Admin.lean keeps: the parts of the state that it may write.
-/
namespace Sys2Proof.Machine

theorem State.makeRing_keep {s : State} {port : PciePort} {a : QueueAttrs} : Keep s (State.makeRing s port a) [.qe] := by
  unfold State.makeRing
  repeat' first
    | with_reducible assumption
    | with_reducible apply Keep.refl
    | with_reducible apply Keep.ite
    | decide
    | dsimp -proj only [pair_fst, pair_snd]
    | split
    | with_reducible apply Keep.set_qe

theorem State.checked_keep {s0 s : State} {ws : List Sec} {src : AdmSrc} {tag : BitVec 16} {fs : List (Option Stat)} {go : State → State} (hk : Keep s0 s ws) (hw : within [.regs, .qe, .out] ws = true) (h_go : ∀ v, Keep s0 v ws → Keep s0 (go v) ws) :
    Keep s0 (State.checked s src tag fs go) ws := by
  unfold State.checked
  repeat' first
    | with_reducible assumption
    | with_reducible apply Keep.refl
    | with_reducible apply h_go
    | with_reducible apply Keep.app State.admDone_keep
    | exact within_trans (by decide) hw
    | decide
    | dsimp -proj only [pair_fst, pair_snd]
    | split

theorem State.withRead_keep {α : Type} {s0 s : State} {ws : List Sec} {src : AdmSrc} {tag : BitVec 16} {r : HostRead α} {go : State → α → State} (hk : Keep s0 s ws) (hw : within [.regs, .qe, .out] ws = true) (h_go : ∀ v a0, Keep s0 v ws → Keep s0 (go v a0) ws) :
    Keep s0 (State.withRead s src tag r go) ws := by
  unfold State.withRead
  repeat' first
    | with_reducible assumption
    | with_reducible apply Keep.refl
    | with_reducible apply h_go
    | with_reducible apply Keep.app State.admDone_keep
    | exact within_trans (by decide) hw
    | decide
    | dsimp -proj only [pair_fst, pair_snd]
    | split

theorem State.importSecret_keep {s : State} {src : AdmSrc} {tag : BitVec 16} {w : HostRead (BitVec 320)} : Keep s (State.importSecret s src tag w) [.regs, .qe, .tru, .out] := by
  unfold State.importSecret
  repeat' first
    | intro x_
    | with_reducible assumption
    | with_reducible apply Keep.refl
    | with_reducible apply Keep.app State.admDone_keep
    | with_reducible apply State.withRead_keep
    | with_reducible exact Tru.fwFuses_mk
    | with_reducible exact Tru.idxFuses_mk
    | with_reducible exact Tru.lens_mk
    | (show (_ : List Nat) = _; first | with_reducible rfl | (simp [Tru.lens]; done) | rfl)
    | decide
    | dsimp -proj only [pair_fst, pair_snd]
    | split
    | with_reducible apply Keep.set_tru

theorem State.importKt_keep {s : State} {src : AdmSrc} {tag : BitVec 16} {key : HostRead (BitVec 256)} : Keep s (State.importKt s src tag key) [.regs, .qe, .tru, .out] := by
  unfold State.importKt
  repeat' first
    | intro x_
    | with_reducible assumption
    | with_reducible apply Keep.refl
    | with_reducible apply Keep.app State.admDone_keep
    | with_reducible apply State.withRead_keep
    | with_reducible exact Tru.fwFuses_mk
    | with_reducible exact Tru.idxFuses_mk
    | with_reducible exact Tru.lens_mk
    | (show (_ : List Nat) = _; first | with_reducible rfl | (simp [Tru.lens]; done) | rfl)
    | decide
    | dsimp -proj only [pair_fst, pair_snd]
    | split
    | with_reducible apply Keep.set_tru

theorem State.importKr_keep {s : State} {src : AdmSrc} {tag : BitVec 16} {key : HostRead (BitVec 256)} : Keep s (State.importKr s src tag key) [.regs, .qe, .tru, .out] := by
  unfold State.importKr
  repeat' first
    | intro x_
    | with_reducible assumption
    | with_reducible apply Keep.refl
    | with_reducible apply Keep.ite
    | with_reducible apply Keep.app State.writeTrust_keep
    | with_reducible apply Keep.app State.admDone_keep
    | with_reducible apply State.withRead_keep
    | with_reducible exact Tru.fwFuses_mk
    | with_reducible exact Tru.idxFuses_mk
    | with_reducible exact Tru.lens_mk
    | (show (_ : List Nat) = _; first | with_reducible rfl | (simp [Tru.lens]; done) | rfl)
    | decide
    | dsimp -proj only [pair_fst, pair_snd]
    | split
    | with_reducible apply Keep.set_tru

theorem State.takeAdm_keep {s0 s : State} {ws : List Sec} {src : AdmSrc} {tag : BitVec 16} {early : Bool} {go : State → State} (hk : Keep s0 s ws) (hw : within [.regs, .qe, .hif, .out] ws = true) (h_go : ∀ v, Keep s0 v ws → Keep s0 (go v) ws) :
    Keep s0 (State.takeAdm s src tag early go) ws := by
  unfold State.takeAdm
  repeat' first
    | with_reducible assumption
    | with_reducible apply Keep.refl
    | with_reducible apply h_go
    | with_reducible apply Keep.ite
    | with_reducible apply Keep.app State.admDone_keep
    | with_reducible apply Keep.app State.reject_keep
    | with_reducible apply Keep.app State.consume_keep
    | exact within_trans (by decide) hw
    | decide
    | dsimp -proj only [pair_fst, pair_snd]
    | split
    | with_reducible apply Keep.set_qe

theorem State.enableRing_keep {s : State} {q : RingRef} {isCq : Bool} : Keep s (State.enableRing s q isCq).1 [.regs, .qe, .hif, .out] := by
  unfold State.enableRing
  repeat' first
    | with_reducible assumption
    | with_reducible apply Keep.refl
    | with_reducible apply Keep.ite
    | with_reducible apply Keep.app State.ring_keep
    | with_reducible apply Keep.app State.updSq_keep
    | with_reducible apply Keep.app State.updCq_keep
    | with_reducible apply Keep.fst (by assumption)
    | decide
    | dsimp -proj only [pair_fst, pair_snd]
    | split

theorem State.queueCmd_keep {s0 s : State} {ws : List Sec} {src : AdmSrc} {tag : BitVec 16} {isData : Bool} {pair : Nat} {go : State → RingRef → State × Stat} (hk : Keep s0 s ws) (hw : within [.regs, .qe, .out] ws = true) (h_go : ∀ v a0, Keep s0 v ws → Keep s0 (go v a0).1 ws) :
    Keep s0 (State.queueCmd s src tag isData pair go) ws := by
  unfold State.queueCmd
  repeat' first
    | with_reducible assumption
    | with_reducible apply Keep.refl
    | with_reducible apply h_go
    | with_reducible apply Keep.ite
    | with_reducible apply Keep.app State.admDone_keep
    | exact within_trans (by decide) hw
    | decide
    | dsimp -proj only [pair_fst, pair_snd]
    | split

theorem execEnableQueue_keep {src : AdmSrc} {tag : BitVec 16} {isCq : Bool} {isData : Bool} {pair : Nat} {s : State} {t_ : State} (h : execEnableQueue src tag isCq isData pair s = .next t_) : Keep s t_ [.regs, .qe, .hif, .out] := by
  unfold execEnableQueue at h
  try dsimp -proj only at h
  repeat' split at h
  all_goals
    injection h with h
    subst h
    repeat' first
      | intro x_
      | with_reducible assumption
      | with_reducible apply Keep.refl
      | with_reducible apply State.takeAdm_keep
      | with_reducible apply Keep.app State.enableRing_keep
      | with_reducible apply State.queueCmd_keep
      | with_reducible apply Keep.app State.clr_keep
      | with_reducible apply Keep.fst (by assumption)
      | decide
      | dsimp -proj only [pair_fst, pair_snd]
      | split

theorem State.takeSerial_keep {s0 s : State} {ws : List Sec} {src : AdmSrc} {tag : BitVec 16} {early : Bool} {i : Instr} {run : State → State} (hk : Keep s0 s ws) (hw : within [.regs, .qe, .hif, .mgt, .out] ws = true) (h_run : ∀ v, Keep s0 v ws → Keep s0 (run v) ws) :
    Keep s0 (State.takeSerial s src tag early i run) ws := by
  unfold State.takeSerial
  repeat' first
    | intro x_
    | with_reducible assumption
    | with_reducible apply Keep.refl
    | with_reducible apply h_run
    | with_reducible apply Keep.ite
    | with_reducible apply State.takeAdm_keep
    | with_reducible exact ⟨Mgt.slots_mk, Mgt.dir_mk, Mgt.dirNvm_mk⟩
    | with_reducible exact Mgt.staging_mk
    | with_reducible exact Mgt.lens_mk
    | (show (_ : List Nat) = _; first | with_reducible rfl | (simp [Mgt.lens]; done) | rfl)
    | exact within_trans (by decide) hw
    | decide
    | dsimp -proj only [pair_fst, pair_snd]
    | split
    | with_reducible apply Keep.set_mgt

theorem State.disableRing_keep {s : State} {q : RingRef} {isCq : Bool} : Keep s (State.disableRing s q isCq).1 [.qe, .ord, .cch, .pools, .rop, .hif, .out] := by
  unfold State.disableRing
  repeat' first
    | with_reducible assumption
    | with_reducible apply Keep.refl
    | with_reducible apply Keep.ite
    | with_reducible apply Keep.app State.dropRequest_keep
    | with_reducible apply Keep.app State.dropTags_keep
    | with_reducible apply Keep.app State.grantAll_keep
    | with_reducible apply Keep.app State.updSq_keep
    | with_reducible apply Keep.app State.updCq_keep
    | with_reducible apply Keep.fst (by assumption)
    | decide
    | dsimp -proj only [pair_fst, pair_snd]
    | split

theorem execDisableQueue_keep {src : AdmSrc} {tag : BitVec 16} {isCq : Bool} {isData : Bool} {pair : Nat} {s : State} {t_ : State} (h : execDisableQueue src tag isCq isData pair s = .next t_) : Keep s t_ [.regs, .qe, .ord, .cch, .pools, .rop, .hif, .out] := by
  unfold execDisableQueue at h
  try dsimp -proj only at h
  repeat' split at h
  all_goals
    injection h with h
    subst h
    repeat' first
      | intro x_
      | with_reducible assumption
      | with_reducible apply Keep.refl
      | with_reducible apply State.takeAdm_keep
      | with_reducible apply State.queueCmd_keep
      | with_reducible apply Keep.app State.disableRing_keep
      | with_reducible apply Keep.app State.clr_keep
      | with_reducible apply Keep.fst (by assumption)
      | decide
      | dsimp -proj only [pair_fst, pair_snd]
      | split

theorem execKeyImportRopeKey_keep {src : AdmSrc} {tag : BitVec 16} {addr : BitVec 64} {key : HostRead (BitVec 256)} {s : State} {t_ : State} (h : execKeyImportRopeKey src tag addr key s = .next t_) : Keep s t_ [.regs, .qe, .hif, .tru, .mgt, .out] := by
  unfold execKeyImportRopeKey at h
  try dsimp -proj only at h
  repeat' split at h
  all_goals
    injection h with h
    subst h
    repeat' first
      | intro x_
      | with_reducible assumption
      | with_reducible apply Keep.refl
      | with_reducible apply State.checked_keep
      | with_reducible apply State.takeSerial_keep
      | with_reducible apply Keep.app State.importKr_keep
      | with_reducible apply Keep.app State.clr_keep
      | decide
      | dsimp -proj only [pair_fst, pair_snd]
      | split

theorem State.listVols_keep {s : State} {src : AdmSrc} {tag : BitVec 16} {addr : BitVec 64} {len : BitVec 32} {scope : BitVec 8} {first : BitVec 16} : Keep s (State.listVols s src tag addr len scope first) [.regs, .qe, .hif, .out] := by
  unfold State.listVols
  repeat' first
    | intro x_
    | with_reducible assumption
    | with_reducible apply Keep.refl
    | with_reducible apply Keep.ite
    | with_reducible apply State.checked_keep
    | with_reducible apply Keep.app State.hostOut_keep
    | decide
    | dsimp -proj only [pair_fst, pair_snd]
    | split

theorem execListVolumes_keep {src : AdmSrc} {tag : BitVec 16} {addr : BitVec 64} {len : BitVec 32} {scope : BitVec 8} {first : BitVec 16} {s : State} {t_ : State} (h : execListVolumes src tag addr len scope first s = .next t_) : Keep s t_ [.regs, .qe, .hif, .out] := by
  unfold execListVolumes at h
  try dsimp -proj only at h
  repeat' split at h
  all_goals
    injection h with h
    subst h
    repeat' first
      | intro x_
      | with_reducible assumption
      | with_reducible apply Keep.refl
      | with_reducible apply Keep.app State.listVols_keep
      | with_reducible apply State.takeAdm_keep
      | with_reducible apply Keep.app State.clr_keep
      | decide
      | dsimp -proj only [pair_fst, pair_snd]
      | split

theorem execKeyImportTransferKey_keep {src : AdmSrc} {tag : BitVec 16} {addr : BitVec 64} {key : HostRead (BitVec 256)} {s : State} {t_ : State} (h : execKeyImportTransferKey src tag addr key s = .next t_) : Keep s t_ [.regs, .qe, .hif, .tru, .mgt, .out] := by
  unfold execKeyImportTransferKey at h
  try dsimp -proj only at h
  repeat' split at h
  all_goals
    injection h with h
    subst h
    repeat' first
      | intro x_
      | with_reducible assumption
      | with_reducible apply Keep.refl
      | with_reducible apply State.checked_keep
      | with_reducible apply State.takeSerial_keep
      | with_reducible apply Keep.app State.importKt_keep
      | with_reducible apply Keep.app State.clr_keep
      | decide
      | dsimp -proj only [pair_fst, pair_snd]
      | split

theorem State.identifyVol_keep {s : State} {src : AdmSrc} {tag : BitVec 16} {vol : BitVec 12} {addr : BitVec 64} : Keep s (State.identifyVol s src tag vol addr) [.regs, .qe, .hif, .out] := by
  unfold State.identifyVol
  repeat' first
    | intro x_
    | with_reducible assumption
    | with_reducible apply Keep.refl
    | with_reducible apply Keep.ite
    | with_reducible apply State.checked_keep
    | with_reducible apply Keep.app State.hostOut_keep
    | decide
    | dsimp -proj only [pair_fst, pair_snd]
    | split

theorem execIdentifyVolume_keep {src : AdmSrc} {tag : BitVec 16} {vol : BitVec 12} {addr : BitVec 64} {s : State} {t_ : State} (h : execIdentifyVolume src tag vol addr s = .next t_) : Keep s t_ [.regs, .qe, .hif, .out] := by
  unfold execIdentifyVolume at h
  try dsimp -proj only at h
  repeat' split at h
  all_goals
    injection h with h
    subst h
    repeat' first
      | intro x_
      | with_reducible assumption
      | with_reducible apply Keep.refl
      | with_reducible apply Keep.app State.identifyVol_keep
      | with_reducible apply State.takeAdm_keep
      | with_reducible apply Keep.app State.clr_keep
      | decide
      | dsimp -proj only [pair_fst, pair_snd]
      | split

theorem execCreateQueue_keep {src : AdmSrc} {tag : BitVec 16} {a : QueueAttrs} {s : State} {t_ : State} (h : execCreateQueue src tag a s = .next t_) : Keep s t_ [.regs, .qe, .hif, .out] := by
  unfold execCreateQueue at h
  try dsimp -proj only at h
  repeat' split at h
  all_goals
    injection h with h
    subst h
    repeat' first
      | intro x_
      | with_reducible assumption
      | with_reducible apply Keep.refl
      | with_reducible apply Keep.app State.makeRing_keep
      | with_reducible apply State.takeAdm_keep
      | with_reducible apply State.queueCmd_keep
      | with_reducible apply Keep.app State.clr_keep
      | decide
      | dsimp -proj only [pair_fst, pair_snd]
      | split

theorem execKeyImportPoolSecret_keep {src : AdmSrc} {tag : BitVec 16} {addr : BitVec 64} {key : HostRead (BitVec 320)} {s : State} {t_ : State} (h : execKeyImportPoolSecret src tag addr key s = .next t_) : Keep s t_ [.regs, .qe, .hif, .tru, .mgt, .out] := by
  unfold execKeyImportPoolSecret at h
  try dsimp -proj only at h
  repeat' split at h
  all_goals
    injection h with h
    subst h
    repeat' first
      | intro x_
      | with_reducible assumption
      | with_reducible apply Keep.refl
      | with_reducible apply Keep.app State.importSecret_keep
      | with_reducible apply State.checked_keep
      | with_reducible apply State.takeSerial_keep
      | with_reducible apply Keep.app State.clr_keep
      | decide
      | dsimp -proj only [pair_fst, pair_snd]
      | split

theorem State.getEvents_keep {s : State} {src : AdmSrc} {tag : BitVec 16} {addr : BitVec 64} {len : BitVec 32} {first : BitVec 64} {area : BitVec 8} : Keep s (State.getEvents s src tag addr len first area) [.regs, .qe, .hif, .out] := by
  unfold State.getEvents
  repeat' first
    | intro x_
    | with_reducible assumption
    | with_reducible apply Keep.refl
    | with_reducible apply State.checked_keep
    | with_reducible apply Keep.app State.hostOut_keep
    | decide
    | dsimp -proj only [pair_fst, pair_snd]
    | split

theorem execGetEvents_keep {src : AdmSrc} {tag : BitVec 16} {addr : BitVec 64} {len : BitVec 32} {first : BitVec 64} {area : BitVec 8} {s : State} {t_ : State} (h : execGetEvents src tag addr len first area s = .next t_) : Keep s t_ [.regs, .qe, .hif, .out] := by
  unfold execGetEvents at h
  try dsimp -proj only at h
  repeat' split at h
  all_goals
    injection h with h
    subst h
    repeat' first
      | intro x_
      | with_reducible assumption
      | with_reducible apply Keep.refl
      | with_reducible apply State.takeAdm_keep
      | with_reducible apply Keep.app State.getEvents_keep
      | with_reducible apply Keep.app State.clr_keep
      | decide
      | dsimp -proj only [pair_fst, pair_snd]
      | split

theorem State.dropPair_keep {s : State} {q : RingRef} : Keep s (State.dropPair s q) [.qe] := by
  unfold State.dropPair
  repeat' first
    | with_reducible assumption
    | with_reducible apply Keep.refl
    | with_reducible apply Keep.ite
    | decide
    | dsimp -proj only [pair_fst, pair_snd]
    | split
    | with_reducible apply Keep.set_qe

theorem State.deleteRing_keep {s : State} {q : RingRef} {isCq : Bool} : Keep s (State.deleteRing s q isCq).1 [.qe] := by
  unfold State.deleteRing
  repeat' first
    | with_reducible assumption
    | with_reducible apply Keep.refl
    | with_reducible apply Keep.ite
    | with_reducible apply Keep.app State.dropPair_keep
    | with_reducible apply Keep.fst (by assumption)
    | decide
    | dsimp -proj only [pair_fst, pair_snd]
    | split
    | with_reducible apply Keep.set_qe

theorem execDeleteQueue_keep {src : AdmSrc} {tag : BitVec 16} {isCq : Bool} {isData : Bool} {pair : Nat} {s : State} {t_ : State} (h : execDeleteQueue src tag isCq isData pair s = .next t_) : Keep s t_ [.regs, .qe, .hif, .out] := by
  unfold execDeleteQueue at h
  try dsimp -proj only at h
  repeat' split at h
  all_goals
    injection h with h
    subst h
    repeat' first
      | intro x_
      | with_reducible assumption
      | with_reducible apply Keep.refl
      | with_reducible apply State.takeAdm_keep
      | with_reducible apply Keep.app State.deleteRing_keep
      | with_reducible apply State.queueCmd_keep
      | with_reducible apply Keep.app State.clr_keep
      | with_reducible apply Keep.fst (by assumption)
      | decide
      | dsimp -proj only [pair_fst, pair_snd]
      | split

theorem State.auditReport_keep {s : State} {src : AdmSrc} {tag : BitVec 16} {addr : BitVec 64} {len : BitVec 32} {nonce : BitVec 256} : Keep s (State.auditReport s src tag addr len nonce) [.regs, .qe, .tru, .out] := by
  unfold State.auditReport
  repeat' first
    | intro x_
    | with_reducible assumption
    | with_reducible apply Keep.refl
    | with_reducible apply State.checked_keep
    | with_reducible exact Tru.fwFuses_mk
    | with_reducible exact Tru.idxFuses_mk
    | with_reducible exact Tru.lens_mk
    | (show (_ : List Nat) = _; first | with_reducible rfl | (simp [Tru.lens]; done) | rfl)
    | decide
    | dsimp -proj only [pair_fst, pair_snd]
    | split
    | with_reducible apply Keep.set_tru

theorem execAuditRequestReport_keep {src : AdmSrc} {tag : BitVec 16} {addr : BitVec 64} {len : BitVec 32} {nonce : BitVec 256} {s : State} {t_ : State} (h : execAuditRequestReport src tag addr len nonce s = .next t_) : Keep s t_ [.regs, .qe, .hif, .tru, .out] := by
  unfold execAuditRequestReport at h
  try dsimp -proj only at h
  repeat' split at h
  all_goals
    injection h with h
    subst h
    repeat' first
      | intro x_
      | with_reducible assumption
      | with_reducible apply Keep.refl
      | with_reducible apply State.takeAdm_keep
      | with_reducible apply Keep.app State.auditReport_keep
      | with_reducible apply Keep.app State.clr_keep
      | decide
      | dsimp -proj only [pair_fst, pair_snd]
      | split

theorem State.auditVirek_keep {s : State} {src : AdmSrc} {tag : BitVec 16} {addr : BitVec 64} {len : BitVec 32} {pool : BitVec 16} {cycle : BitVec 32} : Keep s (State.auditVirek s src tag addr len pool cycle) [.regs, .qe, .hif, .out] := by
  unfold State.auditVirek
  repeat' first
    | intro x_
    | with_reducible assumption
    | with_reducible apply Keep.refl
    | with_reducible apply Keep.ite
    | with_reducible apply State.checked_keep
    | with_reducible apply Keep.app State.hostOut_keep
    | decide
    | dsimp -proj only [pair_fst, pair_snd]
    | split

theorem execAuditRequestStatement_keep {src : AdmSrc} {tag : BitVec 16} {addr : BitVec 64} {len : BitVec 32} {pool : BitVec 16} {cycle : BitVec 32} {s : State} {t_ : State} (h : execAuditRequestStatement src tag addr len pool cycle s = .next t_) : Keep s t_ [.regs, .qe, .hif, .out] := by
  unfold execAuditRequestStatement at h
  try dsimp -proj only at h
  repeat' split at h
  all_goals
    injection h with h
    subst h
    repeat' first
      | intro x_
      | with_reducible assumption
      | with_reducible apply Keep.refl
      | with_reducible apply State.takeAdm_keep
      | with_reducible apply Keep.app State.auditVirek_keep
      | with_reducible apply Keep.app State.clr_keep
      | decide
      | dsimp -proj only [pair_fst, pair_snd]
      | split

theorem State.identify_keep {s : State} {src : AdmSrc} {tag : BitVec 16} {addr : BitVec 64} : Keep s (State.identify s src tag addr) [.regs, .qe, .hif, .out] := by
  unfold State.identify
  repeat' first
    | intro x_
    | with_reducible assumption
    | with_reducible apply Keep.refl
    | with_reducible apply State.checked_keep
    | with_reducible apply Keep.app State.hostOut_keep
    | decide
    | dsimp -proj only [pair_fst, pair_snd]
    | split

theorem execIdentifyModule_keep {src : AdmSrc} {tag : BitVec 16} {addr : BitVec 64} {s : State} {t_ : State} (h : execIdentifyModule src tag addr s = .next t_) : Keep s t_ [.regs, .qe, .hif, .out] := by
  unfold execIdentifyModule at h
  try dsimp -proj only at h
  repeat' split at h
  all_goals
    injection h with h
    subst h
    repeat' first
      | intro x_
      | with_reducible assumption
      | with_reducible apply Keep.refl
      | with_reducible apply State.takeAdm_keep
      | with_reducible apply Keep.app State.identify_keep
      | with_reducible apply Keep.app State.clr_keep
      | decide
      | dsimp -proj only [pair_fst, pair_snd]
      | split

theorem execClearEvents_keep {src : AdmSrc} {tag : BitVec 16} {s : State} {t_ : State} (h : execClearEvents src tag s = .next t_) : Keep s t_ [.regs, .qe, .hif, .evr, .out] := by
  unfold execClearEvents at h
  try dsimp -proj only at h
  repeat' split at h
  all_goals
    injection h with h
    subst h
    repeat' first
      | intro x_
      | with_reducible assumption
      | with_reducible apply Keep.refl
      | with_reducible apply State.takeAdm_keep
      | with_reducible apply Keep.app State.clr_keep
      | with_reducible exact Evr.lens_mk
      | (show (_ : List Nat) = _; first | with_reducible rfl | (simp [Evr.lens]; done) | rfl)
      | decide
      | dsimp -proj only [pair_fst, pair_snd]
      | split
      | with_reducible apply Keep.set_evr

end Sys2Proof.Machine
end

