-- ==== Sys2Proof/Laws/KeepAdminPool.lean ====
section
/-!
SUPPORT. What each operation of Machine/AdminPool.lean keeps: the parts of the state that it may write.
-/
namespace Sys2Proof.Machine

theorem State.admWait_keep {s : State} {src : AdmSrc} {tag : BitVec 16} {pid : BitVec 16} {st : Stat} {also : optParam (Option (BitVec 16)) none} {bytes : optParam (Option (BitVec 64 × List Byte)) none} : Keep s (State.admWait s src tag pid st also bytes) [.mgt] := by
  unfold State.admWait
  repeat' first
    | with_reducible assumption
    | with_reducible apply Keep.refl
    | with_reducible exact ⟨Mgt.slots_mk, Mgt.dir_mk, Mgt.dirNvm_mk⟩
    | with_reducible exact Mgt.staging_mk
    | with_reducible exact Mgt.lens_mk
    | (show (_ : List Nat) = _; first | with_reducible rfl | (simp [Mgt.lens]; done) | rfl)
    | decide
    | dsimp -proj only [pair_fst, pair_snd]
    | split
    | with_reducible apply Keep.set_mgt

theorem State.onPool_keep {s0 s : State} {ws : List Sec} {src : AdmSrc} {tag : BitVec 16} {pid : BitVec 16} {go : State → Pool → State} (hk : Keep s0 s ws) (hw : within [.regs, .qe, .out] ws = true) (h_go : ∀ v a0, Keep s0 v ws → Keep s0 (go v a0) ws) :
    Keep s0 (State.onPool s src tag pid go) ws := by
  unfold State.onPool
  repeat' first
    | with_reducible assumption
    | with_reducible apply Keep.refl
    | with_reducible apply h_go
    | with_reducible apply Keep.ite
    | with_reducible apply Keep.app State.admDone_keep
    | exact within_trans (by decide) hw
    | decide
    | dsimp -proj only [pair_fst, pair_snd]
    | split

theorem State.poolRelease_keep {s : State} {src : AdmSrc} {tag : BitVec 16} {pid : BitVec 16} {v : BitVec 12} {vbn : BitVec 64} {count : BitVec 32} : Keep s (State.poolRelease s src tag pid v vbn count) [.regs, .qe, .pools, .mgt, .out] := by
  unfold State.poolRelease
  repeat' first
    | intro x_
    | with_reducible assumption
    | with_reducible apply Keep.refl
    | with_reducible apply Keep.ite
    | with_reducible apply Keep.app State.admWait_keep
    | with_reducible apply Keep.app State.admDone_keep
    | with_reducible apply Keep.app State.updPool_keep
    | with_reducible apply State.onPool_keep
    | decide
    | dsimp -proj only [pair_fst, pair_snd]
    | split

theorem State.checkDomains_keep {s : State} {pid : BitVec 16} {g : Geo} : Keep s (State.checkDomains s pid g) [.regs, .evr] := by
  unfold State.checkDomains
  repeat' first
    | intro x_
    | with_reducible assumption
    | with_reducible apply Keep.refl
    | with_reducible apply Keep.app State.log_keep
    | with_reducible apply Keep.each
    | decide
    | dsimp -proj only [pair_fst, pair_snd]
    | split

theorem State.joinMembers_keep {s : State} {pid : BitVec 16} {idxs : List Nat} : Keep s (State.joinMembers s pid idxs) [.mbr] := by
  unfold State.joinMembers
  repeat' first
    | intro x_
    | with_reducible assumption
    | with_reducible apply Keep.refl
    | with_reducible apply Keep.app State.updImg_keep
    | with_reducible apply Keep.each
    | with_reducible exact Mbr.lens_mk
    | (show (_ : List Nat) = _; first | with_reducible rfl | (simp [Mbr.lens]; done) | rfl)
    | decide
    | dsimp -proj only [pair_fst, pair_snd]
    | split
    | with_reducible apply Keep.set_mbr

theorem State.poolCreate_keep {s : State} {src : AdmSrc} {tag : BitVec 16} {pid : BitVec 16} {addr : BitVec 64} {len : BitVec 32} {blk : HostRead PoolCreateBlk} : Keep s (State.poolCreate s src tag pid addr len blk) [.regs, .qe, .pools, .mbr, .tru, .evr, .mgt, .out] := by
  unfold State.poolCreate
  repeat' first
    | intro x_
    | with_reducible assumption
    | with_reducible apply Keep.refl
    | with_reducible apply Keep.ite
    | with_reducible apply Keep.app State.admWait_keep
    | with_reducible apply Keep.app State.checkDomains_keep
    | with_reducible apply Keep.app State.admDone_keep
    | with_reducible apply State.checked_keep
    | with_reducible apply Keep.app State.log_keep
    | with_reducible apply Keep.app State.joinMembers_keep
    | with_reducible apply State.withRead_keep
    | with_reducible apply Keep.iff
    | with_reducible exact Tru.fwFuses_mk
    | with_reducible exact Tru.idxFuses_mk
    | with_reducible exact Tru.lens_mk
    | (show (_ : List Nat) = _; first | with_reducible rfl | (simp [Tru.lens]; done) | rfl)
    | decide
    | dsimp -proj only [pair_fst, pair_snd]
    | split
    | with_reducible apply Keep.set_tru
    | with_reducible apply Keep.set_pools

theorem State.poolReadLost_keep {s : State} {src : AdmSrc} {tag : BitVec 16} {pid : BitVec 16} {addr : BitVec 64} {len : BitVec 32} {first : Nat} : Keep s (State.poolReadLost s src tag pid addr len first) [.regs, .qe, .hif, .out] := by
  unfold State.poolReadLost
  repeat' first
    | intro x_
    | with_reducible assumption
    | with_reducible apply Keep.refl
    | with_reducible apply State.checked_keep
    | with_reducible apply State.onPool_keep
    | with_reducible apply Keep.app State.hostOut_keep
    | decide
    | dsimp -proj only [pair_fst, pair_snd]
    | split

theorem State.poolFail_keep {s : State} {src : AdmSrc} {tag : BitVec 16} {pid : BitVec 16} {i : Nat} : Keep s (State.poolFail s src tag pid i) [.regs, .qe, .mgt, .out] := by
  unfold State.poolFail
  repeat' first
    | intro x_
    | with_reducible assumption
    | with_reducible apply Keep.refl
    | with_reducible apply Keep.ite
    | with_reducible apply Keep.app State.admWait_keep
    | with_reducible apply Keep.app State.admDone_keep
    | with_reducible apply State.onPool_keep
    | with_reducible exact ⟨Mgt.slots_mk, Mgt.dir_mk, Mgt.dirNvm_mk⟩
    | with_reducible exact Mgt.staging_mk
    | with_reducible exact Mgt.lens_mk
    | (show (_ : List Nat) = _; first | with_reducible rfl | (simp [Mgt.lens]; done) | rfl)
    | decide
    | dsimp -proj only [pair_fst, pair_snd]
    | split
    | with_reducible apply Keep.set_mgt

theorem State.frondCancel_keep {s : State} {src : AdmSrc} {tag : BitVec 16} {pid : BitVec 16} : Keep s (State.frondCancel s src tag pid) [.regs, .qe, .pools, .out] := by
  unfold State.frondCancel
  repeat' first
    | intro x_
    | with_reducible assumption
    | with_reducible apply Keep.refl
    | with_reducible apply Keep.ite
    | with_reducible apply Keep.app State.admDone_keep
    | with_reducible apply Keep.app State.updPool_keep
    | with_reducible apply State.onPool_keep
    | decide
    | dsimp -proj only [pair_fst, pair_snd]
    | split

theorem State.frondStart_keep {s : State} {src : AdmSrc} {tag : BitVec 16} {pid : BitVec 16} {addr : BitVec 64} {len : BitVec 32} {blk : HostRead FrondBlk} : Keep s (State.frondStart s src tag pid addr len blk) [.regs, .qe, .pools, .evr, .mgt, .out] := by
  unfold State.frondStart
  repeat' first
    | intro x_
    | with_reducible assumption
    | with_reducible apply Keep.refl
    | with_reducible apply Keep.ite
    | with_reducible apply Keep.app State.admWait_keep
    | with_reducible apply Keep.app State.checkDomains_keep
    | with_reducible apply Keep.app State.admDone_keep
    | with_reducible apply Keep.app State.updPool_keep
    | with_reducible apply State.checked_keep
    | with_reducible apply State.onPool_keep
    | with_reducible apply State.withRead_keep
    | with_reducible apply Keep.foldl
    | with_reducible apply Keep.foldlFst
    | with_reducible apply Keep.fst (by assumption)
    | decide
    | dsimp -proj only [pair_fst, pair_snd]
    | split

theorem State.poolAttr_keep {s : State} {src : AdmSrc} {tag : BitVec 16} {pid : BitVec 16} {en : Nat} {days : Nat} : Keep s (State.poolAttr s src tag pid en days) [.regs, .qe, .pools, .mgt, .out] := by
  unfold State.poolAttr
  repeat' first
    | intro x_
    | with_reducible assumption
    | with_reducible apply Keep.refl
    | with_reducible apply Keep.ite
    | with_reducible apply Keep.app State.admWait_keep
    | with_reducible apply Keep.app State.admDone_keep
    | with_reducible apply Keep.app State.updPool_keep
    | with_reducible apply State.onPool_keep
    | decide
    | dsimp -proj only [pair_fst, pair_snd]
    | split

theorem State.poolAdd_keep {s : State} {src : AdmSrc} {tag : BitVec 16} {pid : BitVec 16} {addr : BitVec 64} {len : BitVec 32} {blk : HostRead (List Nat)} : Keep s (State.poolAdd s src tag pid addr len blk) [.regs, .qe, .pools, .mbr, .mgt, .out] := by
  unfold State.poolAdd
  repeat' first
    | intro x_
    | with_reducible assumption
    | with_reducible apply Keep.refl
    | with_reducible apply Keep.ite
    | with_reducible apply Keep.app State.admWait_keep
    | with_reducible apply Keep.app State.admDone_keep
    | with_reducible apply Keep.app State.updPool_keep
    | with_reducible apply State.checked_keep
    | with_reducible apply State.onPool_keep
    | with_reducible apply Keep.app State.joinMembers_keep
    | with_reducible apply State.withRead_keep
    | decide
    | dsimp -proj only [pair_fst, pair_snd]
    | split

theorem State.poolRemove_keep {s : State} {src : AdmSrc} {tag : BitVec 16} {pid : BitVec 16} {addr : BitVec 64} {len : BitVec 32} {blk : HostRead (List Nat)} : Keep s (State.poolRemove s src tag pid addr len blk) [.regs, .qe, .pools, .mbr, .mgt, .out] := by
  unfold State.poolRemove
  repeat' first
    | intro x_
    | with_reducible assumption
    | with_reducible apply Keep.refl
    | with_reducible apply Keep.ite
    | with_reducible apply Keep.app State.admWait_keep
    | with_reducible apply Keep.app State.admDone_keep
    | with_reducible apply Keep.app State.updPool_keep
    | with_reducible apply State.checked_keep
    | with_reducible apply State.onPool_keep
    | with_reducible apply State.withRead_keep
    | with_reducible apply Keep.foldl
    | with_reducible apply Keep.foldlFst
    | with_reducible apply Keep.iff
    | with_reducible apply Keep.fst (by assumption)
    | with_reducible exact Mbr.lens_mk
    | (show (_ : List Nat) = _; first | with_reducible rfl | (simp [Mbr.lens]; done) | rfl)
    | decide
    | dsimp -proj only [pair_fst, pair_snd]
    | split
    | with_reducible apply Keep.set_mbr

theorem State.poolStatus_keep {s : State} {src : AdmSrc} {tag : BitVec 16} {pid : BitVec 16} : Keep s (State.poolStatus s src tag pid) [.regs, .qe, .out] := by
  unfold State.poolStatus
  repeat' first
    | intro x_
    | with_reducible assumption
    | with_reducible apply Keep.refl
    | with_reducible apply Keep.app State.admDone_keep
    | with_reducible apply State.onPool_keep
    | decide
    | dsimp -proj only [pair_fst, pair_snd]
    | split

theorem State.onVolume_keep {s0 s : State} {ws : List Sec} {src : AdmSrc} {tag : BitVec 16} {v : BitVec 12} {go : State → Pool → VolMeta → State} (hk : Keep s0 s ws) (hw : within [.regs, .qe, .out] ws = true) (h_go : ∀ v a0 a1, Keep s0 v ws → Keep s0 (go v a0 a1) ws) :
    Keep s0 (State.onVolume s src tag v go) ws := by
  unfold State.onVolume
  repeat' first
    | with_reducible assumption
    | with_reducible apply Keep.refl
    | with_reducible apply h_go
    | with_reducible apply Keep.app State.admDone_keep
    | exact within_trans (by decide) hw
    | decide
    | dsimp -proj only [pair_fst, pair_snd]
    | split

theorem State.updFrond_keep {s : State} {p : Pool} {g : FrondMeta → FrondMeta} : Keep s (State.updFrond s p g) [.pools] := by
  unfold State.updFrond
  repeat' first
    | with_reducible assumption
    | with_reducible apply Keep.refl
    | with_reducible apply Keep.ite
    | decide
    | dsimp -proj only [pair_fst, pair_snd]
    | split
    | with_reducible apply Keep.set_pools

theorem State.volDelete_keep {s : State} {src : AdmSrc} {tag : BitVec 16} {v : BitVec 12} : Keep s (State.volDelete s src tag v) [.regs, .qe, .pools, .mgt, .out] := by
  unfold State.volDelete
  repeat' first
    | intro x_
    | with_reducible assumption
    | with_reducible apply Keep.refl
    | with_reducible apply Keep.ite
    | with_reducible apply Keep.app State.admWait_keep
    | with_reducible apply State.onVolume_keep
    | with_reducible apply Keep.app State.admDone_keep
    | with_reducible apply Keep.app State.updPool_keep
    | with_reducible apply Keep.app State.updFrond_keep
    | decide
    | dsimp -proj only [pair_fst, pair_snd]
    | split

theorem State.volAttr_keep {s : State} {src : AdmSrc} {tag : BitVec 16} {v : BitVec 12} {attr : Nat} {value : Nat} : Keep s (State.volAttr s src tag v attr value) [.regs, .qe, .pools, .mgt, .out] := by
  unfold State.volAttr
  repeat' first
    | intro x_
    | with_reducible assumption
    | with_reducible apply Keep.refl
    | with_reducible apply Keep.app State.admWait_keep
    | with_reducible apply State.onVolume_keep
    | with_reducible apply Keep.app State.admDone_keep
    | with_reducible apply Keep.app State.updPool_keep
    | decide
    | dsimp -proj only [pair_fst, pair_snd]
    | split

theorem State.poolDelete_keep {s : State} {src : AdmSrc} {tag : BitVec 16} {pid : BitVec 16} : Keep s (State.poolDelete s src tag pid) [.regs, .qe, .pools, .mgt, .out] := by
  unfold State.poolDelete
  repeat' first
    | intro x_
    | with_reducible assumption
    | with_reducible apply Keep.refl
    | with_reducible apply Keep.ite
    | with_reducible apply Keep.app State.admWait_keep
    | with_reducible apply Keep.app State.admDone_keep
    | with_reducible apply Keep.app State.updPool_keep
    | with_reducible apply State.onPool_keep
    | decide
    | dsimp -proj only [pair_fst, pair_snd]
    | split

theorem State.addVolume_keep {s : State} {p : Pool} {v : BitVec 12} {size : Nat} {lid : Nat} {ext : List Nat} {fext : List Nat} : Keep s (State.addVolume s p v size lid ext fext) [.pools] := by
  unfold State.addVolume
  repeat' first
    | with_reducible assumption
    | with_reducible apply Keep.refl
    | with_reducible apply Keep.ite
    | with_reducible apply Keep.app State.updPool_keep
    | with_reducible apply Keep.app State.updFrond_keep
    | decide
    | dsimp -proj only [pair_fst, pair_snd]
    | split

theorem State.volCreate_keep {s : State} {src : AdmSrc} {tag : BitVec 16} {v : BitVec 12} {pid : BitVec 16} {size : BitVec 64} : Keep s (State.volCreate s src tag v pid size) [.regs, .qe, .pools, .rop, .mgt, .out] := by
  unfold State.volCreate
  repeat' first
    | intro x_
    | with_reducible assumption
    | with_reducible apply Keep.refl
    | with_reducible apply Keep.ite
    | with_reducible apply Keep.app State.admWait_keep
    | with_reducible apply Keep.app State.admDone_keep
    | with_reducible apply Keep.app State.sendSeq_keep
    | with_reducible apply State.checked_keep
    | with_reducible apply Keep.app State.addVolume_keep
    | with_reducible apply Keep.each
    | with_reducible exact ⟨Mgt.slots_mk, Mgt.dir_mk, Mgt.dirNvm_mk⟩
    | with_reducible exact Mgt.staging_mk
    | with_reducible exact Mgt.lens_mk
    | with_reducible exact Rop.lens_mk
    | (show (_ : List Nat) = _; first | with_reducible rfl | (simp [Mgt.lens, Rop.lens]; done) | rfl)
    | decide
    | dsimp -proj only [pair_fst, pair_snd]
    | split
    | with_reducible apply Keep.set_rop_mgt

theorem State.poolReplace_keep {s : State} {src : AdmSrc} {tag : BitVec 16} {pid : BitVec 16} {i : Nat} {img : Nat} : Keep s (State.poolReplace s src tag pid i img) [.regs, .qe, .pools, .mbr, .evr, .mgt, .out] := by
  unfold State.poolReplace
  repeat' first
    | intro x_
    | with_reducible assumption
    | with_reducible apply Keep.refl
    | with_reducible apply Keep.ite
    | with_reducible apply Keep.app State.admWait_keep
    | with_reducible apply Keep.app State.checkDomains_keep
    | with_reducible apply Keep.app State.admDone_keep
    | with_reducible apply Keep.app State.updPool_keep
    | with_reducible apply State.onPool_keep
    | with_reducible apply Keep.app State.joinMembers_keep
    | with_reducible apply Keep.each
    | with_reducible exact Mbr.lens_mk
    | (show (_ : List Nat) = _; first | with_reducible rfl | (simp [Mbr.lens]; done) | rfl)
    | decide
    | dsimp -proj only [pair_fst, pair_snd]
    | split
    | with_reducible apply Keep.set_mbr

theorem State.volGrow_keep {s : State} {src : AdmSrc} {tag : BitVec 16} {v : BitVec 12} {size : BitVec 64} : Keep s (State.volGrow s src tag v size) [.regs, .qe, .pools, .mgt, .out] := by
  unfold State.volGrow
  repeat' first
    | intro x_
    | with_reducible assumption
    | with_reducible apply Keep.refl
    | with_reducible apply Keep.ite
    | with_reducible apply Keep.app State.admWait_keep
    | with_reducible apply State.onVolume_keep
    | with_reducible apply Keep.app State.admDone_keep
    | with_reducible apply Keep.app State.updPool_keep
    | with_reducible apply Keep.app State.updFrond_keep
    | with_reducible apply Keep.iff
    | decide
    | dsimp -proj only [pair_fst, pair_snd]
    | split

theorem State.settleClaims_keep {s : State} : Keep s (State.settleClaims s) [.regs, .qe, .pools, .rop, .mgt, .out] := by
  unfold State.settleClaims
  repeat' first
    | intro x_
    | with_reducible assumption
    | with_reducible apply Keep.refl
    | with_reducible apply Keep.ite
    | with_reducible apply Keep.app State.admWait_keep
    | with_reducible apply Keep.app State.admDone_keep
    | with_reducible apply Keep.app State.addVolume_keep
    | with_reducible apply Keep.each
    | with_reducible exact ⟨Mgt.slots_mk, Mgt.dir_mk, Mgt.dirNvm_mk⟩
    | with_reducible exact Mgt.staging_mk
    | with_reducible exact Mgt.lens_mk
    | with_reducible exact Rop.lens_mk
    | (show (_ : List Nat) = _; first | with_reducible rfl | (simp [Mgt.lens, Rop.lens]; done) | rfl)
    | decide
    | dsimp -proj only [pair_fst, pair_snd]
    | split
    | with_reducible apply Keep.set_rop_mgt

theorem State.dropPools_keep {s : State} : Keep s (State.dropPools s) [.pools] := by
  unfold State.dropPools
  repeat' first
    | with_reducible assumption
    | with_reducible apply Keep.refl
    | decide
    | dsimp -proj only [pair_fst, pair_snd]
    | split
    | with_reducible apply Keep.set_pools

theorem State.admCommits_keep {s : State} : Keep s (State.admCommits s) [.regs, .qe, .pools, .hif, .mgt, .out] := by
  unfold State.admCommits
  repeat' first
    | intro x_
    | with_reducible assumption
    | with_reducible apply Keep.refl
    | with_reducible apply Keep.app State.admDone_keep
    | with_reducible apply Keep.app State.updPool_keep
    | with_reducible apply Keep.app State.hostOut_keep
    | with_reducible apply Keep.app State.dropPools_keep
    | with_reducible apply Keep.each
    | with_reducible exact ⟨Mgt.slots_mk, Mgt.dir_mk, Mgt.dirNvm_mk⟩
    | with_reducible exact Mgt.staging_mk
    | with_reducible exact Mgt.lens_mk
    | (show (_ : List Nat) = _; first | with_reducible rfl | (simp [Mgt.lens]; done) | rfl)
    | decide
    | dsimp -proj only [pair_fst, pair_snd]
    | split
    | with_reducible apply Keep.set_mgt

theorem execVolumeOpCreate_keep {src : AdmSrc} {tag : BitVec 16} {vol : BitVec 12} {pool : BitVec 16} {size : BitVec 64} {s : State} {t_ : State} (h : execVolumeOpCreate src tag vol pool size s = .next t_) : Keep s t_ [.regs, .qe, .pools, .rop, .hif, .mgt, .out] := by
  unfold execVolumeOpCreate at h
  try dsimp -proj only at h
  repeat' split at h
  all_goals
    injection h with h
    subst h
    repeat' first
      | intro x_
      | with_reducible assumption
      | with_reducible apply Keep.refl
      | with_reducible apply State.takeSerial_keep
      | with_reducible apply Keep.app State.clr_keep
      | with_reducible apply Keep.app State.volCreate_keep
      | decide
      | dsimp -proj only [pair_fst, pair_snd]
      | split

theorem execVolumeOpSetAttr_keep {src : AdmSrc} {tag : BitVec 16} {vol : BitVec 12} {attr : Nat} {value : Nat} {s : State} {t_ : State} (h : execVolumeOpSetAttr src tag vol attr value s = .next t_) : Keep s t_ [.regs, .qe, .pools, .hif, .mgt, .out] := by
  unfold execVolumeOpSetAttr at h
  try dsimp -proj only at h
  repeat' split at h
  all_goals
    injection h with h
    subst h
    repeat' first
      | intro x_
      | with_reducible assumption
      | with_reducible apply Keep.refl
      | with_reducible apply State.takeSerial_keep
      | with_reducible apply Keep.app State.volAttr_keep
      | with_reducible apply Keep.app State.clr_keep
      | decide
      | dsimp -proj only [pair_fst, pair_snd]
      | split

theorem execReplaceMember_keep {src : AdmSrc} {tag : BitVec 16} {pool : BitVec 16} {idx : Nat} {img : Nat} {s : State} {t_ : State} (h : execReplaceMember src tag pool idx img s = .next t_) : Keep s t_ [.regs, .qe, .pools, .mbr, .hif, .evr, .mgt, .out] := by
  unfold execReplaceMember at h
  try dsimp -proj only at h
  repeat' split at h
  all_goals
    injection h with h
    subst h
    repeat' first
      | intro x_
      | with_reducible assumption
      | with_reducible apply Keep.refl
      | with_reducible apply State.takeSerial_keep
      | with_reducible apply Keep.app State.clr_keep
      | with_reducible apply Keep.app State.poolReplace_keep
      | decide
      | dsimp -proj only [pair_fst, pair_snd]
      | split

theorem execVolumeOpGrow_keep {src : AdmSrc} {tag : BitVec 16} {vol : BitVec 12} {size : BitVec 64} {s : State} {t_ : State} (h : execVolumeOpGrow src tag vol size s = .next t_) : Keep s t_ [.regs, .qe, .pools, .hif, .mgt, .out] := by
  unfold execVolumeOpGrow at h
  try dsimp -proj only at h
  repeat' split at h
  all_goals
    injection h with h
    subst h
    repeat' first
      | intro x_
      | with_reducible assumption
      | with_reducible apply Keep.refl
      | with_reducible apply State.takeSerial_keep
      | with_reducible apply Keep.app State.clr_keep
      | with_reducible apply Keep.app State.volGrow_keep
      | decide
      | dsimp -proj only [pair_fst, pair_snd]
      | split

theorem execPoolOpSetAttr_keep {src : AdmSrc} {tag : BitVec 16} {pool : BitVec 16} {scrubEn : Nat} {period : Nat} {s : State} {t_ : State} (h : execPoolOpSetAttr src tag pool scrubEn period s = .next t_) : Keep s t_ [.regs, .qe, .pools, .hif, .mgt, .out] := by
  unfold execPoolOpSetAttr at h
  try dsimp -proj only at h
  repeat' split at h
  all_goals
    injection h with h
    subst h
    repeat' first
      | intro x_
      | with_reducible assumption
      | with_reducible apply Keep.refl
      | with_reducible apply Keep.app State.poolAttr_keep
      | with_reducible apply State.takeSerial_keep
      | with_reducible apply Keep.app State.clr_keep
      | decide
      | dsimp -proj only [pair_fst, pair_snd]
      | split

theorem execRemoveMembers_keep {src : AdmSrc} {tag : BitVec 16} {pool : BitVec 16} {blkAddr : BitVec 64} {blkLen : BitVec 32} {blk : HostRead (List Nat)} {s : State} {t_ : State} (h : execRemoveMembers src tag pool blkAddr blkLen blk s = .next t_) : Keep s t_ [.regs, .qe, .pools, .mbr, .hif, .mgt, .out] := by
  unfold execRemoveMembers at h
  try dsimp -proj only at h
  repeat' split at h
  all_goals
    injection h with h
    subst h
    repeat' first
      | intro x_
      | with_reducible assumption
      | with_reducible apply Keep.refl
      | with_reducible apply State.takeSerial_keep
      | with_reducible apply Keep.app State.poolRemove_keep
      | with_reducible apply Keep.app State.clr_keep
      | decide
      | dsimp -proj only [pair_fst, pair_snd]
      | split

theorem execAddMembers_keep {src : AdmSrc} {tag : BitVec 16} {pool : BitVec 16} {blkAddr : BitVec 64} {blkLen : BitVec 32} {blk : HostRead (List Nat)} {s : State} {t_ : State} (h : execAddMembers src tag pool blkAddr blkLen blk s = .next t_) : Keep s t_ [.regs, .qe, .pools, .mbr, .hif, .mgt, .out] := by
  unfold execAddMembers at h
  try dsimp -proj only at h
  repeat' split at h
  all_goals
    injection h with h
    subst h
    repeat' first
      | intro x_
      | with_reducible assumption
      | with_reducible apply Keep.refl
      | with_reducible apply State.takeSerial_keep
      | with_reducible apply Keep.app State.poolAdd_keep
      | with_reducible apply Keep.app State.clr_keep
      | decide
      | dsimp -proj only [pair_fst, pair_snd]
      | split

theorem execPoolOpCreate_keep {src : AdmSrc} {tag : BitVec 16} {pool : BitVec 16} {blkAddr : BitVec 64} {blkLen : BitVec 32} {blk : HostRead PoolCreateBlk} {s : State} {t_ : State} (h : execPoolOpCreate src tag pool blkAddr blkLen blk s = .next t_) : Keep s t_ [.regs, .qe, .pools, .mbr, .hif, .tru, .evr, .mgt, .out] := by
  unfold execPoolOpCreate at h
  try dsimp -proj only at h
  repeat' split at h
  all_goals
    injection h with h
    subst h
    repeat' first
      | intro x_
      | with_reducible assumption
      | with_reducible apply Keep.refl
      | with_reducible apply Keep.app State.poolCreate_keep
      | with_reducible apply State.takeSerial_keep
      | with_reducible apply Keep.app State.clr_keep
      | decide
      | dsimp -proj only [pair_fst, pair_snd]
      | split

theorem execPoolOpDelete_keep {src : AdmSrc} {tag : BitVec 16} {pool : BitVec 16} {s : State} {t_ : State} (h : execPoolOpDelete src tag pool s = .next t_) : Keep s t_ [.regs, .qe, .pools, .hif, .mgt, .out] := by
  unfold execPoolOpDelete at h
  try dsimp -proj only at h
  repeat' split at h
  all_goals
    injection h with h
    subst h
    repeat' first
      | intro x_
      | with_reducible assumption
      | with_reducible apply Keep.refl
      | with_reducible apply State.takeSerial_keep
      | with_reducible apply Keep.app State.clr_keep
      | with_reducible apply Keep.app State.poolDelete_keep
      | decide
      | dsimp -proj only [pair_fst, pair_snd]
      | split

theorem execReleaseLost_keep {src : AdmSrc} {tag : BitVec 16} {pool : BitVec 16} {vol : BitVec 12} {vbn : BitVec 64} {count : BitVec 32} {s : State} {t_ : State} (h : execReleaseLost src tag pool vol vbn count s = .next t_) : Keep s t_ [.regs, .qe, .pools, .hif, .mgt, .out] := by
  unfold execReleaseLost at h
  try dsimp -proj only at h
  repeat' split at h
  all_goals
    injection h with h
    subst h
    repeat' first
      | intro x_
      | with_reducible assumption
      | with_reducible apply Keep.refl
      | with_reducible apply Keep.app State.poolRelease_keep
      | with_reducible apply State.takeSerial_keep
      | with_reducible apply Keep.app State.clr_keep
      | decide
      | dsimp -proj only [pair_fst, pair_snd]
      | split

theorem execReadLost_keep {src : AdmSrc} {tag : BitVec 16} {pool : BitVec 16} {blkAddr : BitVec 64} {blkLen : BitVec 32} {first : Nat} {s : State} {t_ : State} (h : execReadLost src tag pool blkAddr blkLen first s = .next t_) : Keep s t_ [.regs, .qe, .hif, .mgt, .out] := by
  unfold execReadLost at h
  try dsimp -proj only at h
  repeat' split at h
  all_goals
    injection h with h
    subst h
    repeat' first
      | intro x_
      | with_reducible assumption
      | with_reducible apply Keep.refl
      | with_reducible apply Keep.app State.poolReadLost_keep
      | with_reducible apply State.takeSerial_keep
      | with_reducible apply Keep.app State.clr_keep
      | decide
      | dsimp -proj only [pair_fst, pair_snd]
      | split

theorem execDeclareFailed_keep {src : AdmSrc} {tag : BitVec 16} {pool : BitVec 16} {idx : Nat} {s : State} {t_ : State} (h : execDeclareFailed src tag pool idx s = .next t_) : Keep s t_ [.regs, .qe, .hif, .mgt, .out] := by
  unfold execDeclareFailed at h
  try dsimp -proj only at h
  repeat' split at h
  all_goals
    injection h with h
    subst h
    repeat' first
      | intro x_
      | with_reducible assumption
      | with_reducible apply Keep.refl
      | with_reducible apply Keep.app State.poolFail_keep
      | with_reducible apply State.takeSerial_keep
      | with_reducible apply Keep.app State.clr_keep
      | decide
      | dsimp -proj only [pair_fst, pair_snd]
      | split

theorem execVolumeOpDelete_keep {src : AdmSrc} {tag : BitVec 16} {vol : BitVec 12} {s : State} {t_ : State} (h : execVolumeOpDelete src tag vol s = .next t_) : Keep s t_ [.regs, .qe, .pools, .hif, .mgt, .out] := by
  unfold execVolumeOpDelete at h
  try dsimp -proj only at h
  repeat' split at h
  all_goals
    injection h with h
    subst h
    repeat' first
      | intro x_
      | with_reducible assumption
      | with_reducible apply Keep.refl
      | with_reducible apply State.takeSerial_keep
      | with_reducible apply Keep.app State.volDelete_keep
      | with_reducible apply Keep.app State.clr_keep
      | decide
      | dsimp -proj only [pair_fst, pair_snd]
      | split

theorem execFrondCancel_keep {src : AdmSrc} {tag : BitVec 16} {pool : BitVec 16} {s : State} {t_ : State} (h : execFrondCancel src tag pool s = .next t_) : Keep s t_ [.regs, .qe, .pools, .hif, .mgt, .out] := by
  unfold execFrondCancel at h
  try dsimp -proj only at h
  repeat' split at h
  all_goals
    injection h with h
    subst h
    repeat' first
      | intro x_
      | with_reducible assumption
      | with_reducible apply Keep.refl
      | with_reducible apply Keep.app State.frondCancel_keep
      | with_reducible apply State.takeSerial_keep
      | with_reducible apply Keep.app State.clr_keep
      | decide
      | dsimp -proj only [pair_fst, pair_snd]
      | split

theorem execFrondStart_keep {src : AdmSrc} {tag : BitVec 16} {pool : BitVec 16} {blkAddr : BitVec 64} {blkLen : BitVec 32} {blk : HostRead FrondBlk} {s : State} {t_ : State} (h : execFrondStart src tag pool blkAddr blkLen blk s = .next t_) : Keep s t_ [.regs, .qe, .pools, .hif, .evr, .mgt, .out] := by
  unfold execFrondStart at h
  try dsimp -proj only at h
  repeat' split at h
  all_goals
    injection h with h
    subst h
    repeat' first
      | intro x_
      | with_reducible assumption
      | with_reducible apply Keep.refl
      | with_reducible apply Keep.app State.frondStart_keep
      | with_reducible apply State.takeSerial_keep
      | with_reducible apply Keep.app State.clr_keep
      | decide
      | dsimp -proj only [pair_fst, pair_snd]
      | split

theorem execPoolOpStatus_keep {src : AdmSrc} {tag : BitVec 16} {pool : BitVec 16} {s : State} {t_ : State} (h : execPoolOpStatus src tag pool s = .next t_) : Keep s t_ [.regs, .qe, .hif, .mgt, .out] := by
  unfold execPoolOpStatus at h
  try dsimp -proj only at h
  repeat' split at h
  all_goals
    injection h with h
    subst h
    repeat' first
      | intro x_
      | with_reducible assumption
      | with_reducible apply Keep.refl
      | with_reducible apply State.takeSerial_keep
      | with_reducible apply Keep.app State.poolStatus_keep
      | with_reducible apply Keep.app State.clr_keep
      | decide
      | dsimp -proj only [pair_fst, pair_snd]
      | split

end Sys2Proof.Machine
end

