-- ==== Sys2Proof/Laws/KeepPeers.lean ====
section
/-!
SUPPORT. What each operation of Machine/Peers.lean keeps: the parts of the state that it may write.
-/
namespace Sys2Proof.Machine

theorem State.announceAll_keep {s : State} : Keep s (State.announceAll s) [.rop, .out] := by
  unfold State.announceAll
  repeat' first
    | intro x_
    | with_reducible assumption
    | with_reducible apply Keep.refl
    | with_reducible apply Keep.ite
    | with_reducible apply Keep.app State.sendPlain_keep
    | with_reducible apply Keep.app State.emit_keep
    | with_reducible apply Keep.each
    | with_reducible exact Rop.lens_mk
    | (show (_ : List Nat) = _; first | with_reducible rfl | (simp [Rop.lens]; done) | rfl)
    | decide
    | dsimp -proj only [pair_fst, pair_snd]
    | split
    | with_reducible apply Keep.set_rop

theorem State.heartbeats_keep {s : State} : Keep s (State.heartbeats s) [.rop, .out] := by
  unfold State.heartbeats
  repeat' first
    | intro x_
    | with_reducible assumption
    | with_reducible apply Keep.refl
    | with_reducible apply Keep.ite
    | with_reducible apply Keep.app State.sendPlain_keep
    | with_reducible apply Keep.app State.updPeer_keep
    | with_reducible apply Keep.each
    | decide
    | dsimp -proj only [pair_fst, pair_snd]
    | split

theorem State.losePeer_keep {s : State} {a : BitVec 12} : Keep s (State.losePeer s a) [.ord, .cch, .rop] := by
  unfold State.losePeer
  repeat' first
    | intro x_
    | with_reducible assumption
    | with_reducible apply Keep.refl
    | with_reducible apply Keep.ite
    | with_reducible apply Keep.app State.updCmd_keep
    | with_reducible apply Keep.app State.unhold_keep
    | with_reducible apply Keep.app State.updPeer_keep
    | with_reducible apply Keep.each
    | with_reducible exact Rop.lens_mk
    | (show (_ : List Nat) = _; first | with_reducible rfl | (simp [Rop.lens]; done) | rfl)
    | decide
    | dsimp -proj only [pair_fst, pair_snd]
    | split
    | with_reducible apply Keep.set_rop

theorem State.breakStream_keep {s : State} {a : BitVec 12} : Keep s (State.breakStream s a) [.regs, .ord, .cch, .jnl, .rop, .evr] := by
  unfold State.breakStream
  repeat' first
    | with_reducible assumption
    | with_reducible apply Keep.refl
    | with_reducible apply Keep.ite
    | with_reducible apply Keep.app State.losePeer_keep
    | with_reducible apply Keep.app State.updPeer_keep
    | with_reducible apply Keep.app State.belayDown_keep
    | decide
    | dsimp -proj only [pair_fst, pair_snd]
    | split

theorem State.retxOne_keep {s : State} {a : BitVec 12} {n : BitVec 32} : Keep s (State.retxOne s a n) [.regs, .ord, .cch, .jnl, .rop, .evr, .out] := by
  unfold State.retxOne
  repeat' first
    | with_reducible assumption
    | with_reducible apply Keep.refl
    | with_reducible apply Keep.ite
    | with_reducible apply Keep.app State.bump_keep
    | with_reducible apply Keep.app State.breakStream_keep
    | with_reducible apply Keep.app State.updPeer_keep
    | with_reducible apply Keep.app State.emit_keep
    | decide
    | dsimp -proj only [pair_fst, pair_snd]
    | split

theorem State.retxAll_keep {s : State} : Keep s (State.retxAll s) [.regs, .ord, .cch, .jnl, .rop, .evr, .out] := by
  unfold State.retxAll
  repeat' first
    | intro x_
    | with_reducible assumption
    | with_reducible apply Keep.refl
    | with_reducible apply Keep.app State.retxOne_keep
    | with_reducible apply Keep.each
    | decide
    | dsimp -proj only [pair_fst, pair_snd]
    | split

theorem State.peerTimeout_keep {s : State} {a : BitVec 12} : Keep s (State.peerTimeout s a) [.ord, .cch, .rop] := by
  unfold State.peerTimeout
  repeat' first
    | with_reducible assumption
    | with_reducible apply Keep.refl
    | with_reducible apply Keep.ite
    | with_reducible apply Keep.app State.losePeer_keep
    | decide
    | dsimp -proj only [pair_fst, pair_snd]
    | split

theorem State.peerTimeouts_keep {s : State} : Keep s (State.peerTimeouts s) [.ord, .cch, .rop] := by
  unfold State.peerTimeouts
  repeat' first
    | intro x_
    | with_reducible assumption
    | with_reducible apply Keep.refl
    | with_reducible apply Keep.app State.peerTimeout_keep
    | with_reducible apply Keep.each
    | decide
    | dsimp -proj only [pair_fst, pair_snd]
    | split

theorem State.pathUp_keep {s : State} {a : BitVec 12} {n : Nat} : Keep s (State.pathUp s a n) [.rop] := by
  unfold State.pathUp
  repeat' first
    | with_reducible assumption
    | with_reducible apply Keep.refl
    | with_reducible apply Keep.ite
    | with_reducible apply Keep.app State.updPeer_keep
    | decide
    | dsimp -proj only [pair_fst, pair_snd]
    | split

theorem State.pathDown_keep {s : State} {a : BitVec 12} {n : Nat} : Keep s (State.pathDown s a n) [.regs, .rop] := by
  unfold State.pathDown
  repeat' first
    | with_reducible assumption
    | with_reducible apply Keep.refl
    | with_reducible apply Keep.ite
    | with_reducible apply Keep.app State.bump_keep
    | with_reducible apply Keep.app State.updPeer_keep
    | decide
    | dsimp -proj only [pair_fst, pair_snd]
    | split

theorem State.pathTicks_keep {s : State} : Keep s (State.pathTicks s) [.regs, .rop] := by
  unfold State.pathTicks
  repeat' first
    | intro x_
    | with_reducible assumption
    | with_reducible apply Keep.refl
    | with_reducible apply Keep.app State.pathUp_keep
    | with_reducible apply Keep.app State.pathDown_keep
    | with_reducible apply Keep.each
    | with_reducible exact Rop.lens_mk
    | (show (_ : List Nat) = _; first | with_reducible rfl | (simp [Rop.lens]; done) | rfl)
    | decide
    | dsimp -proj only [pair_fst, pair_snd]
    | split
    | with_reducible apply Keep.set_rop

theorem State.hear_keep {s : State} {a : BitVec 12} {fresh : Option (BitVec 128 × List (BitVec 128) × BitVec 8)} : Keep s (State.hear s a fresh) [.rop, .out] := by
  unfold State.hear
  repeat' first
    | with_reducible assumption
    | with_reducible apply Keep.refl
    | with_reducible apply Keep.ite
    | with_reducible apply Keep.app State.sendSeq_keep
    | with_reducible apply Keep.app State.updPeer_keep
    | with_reducible exact Rop.lens_mk
    | (show (_ : List Nat) = _; first | with_reducible rfl | (simp [Rop.lens]; done) | rfl)
    | decide
    | dsimp -proj only [pair_fst, pair_snd]
    | split
    | with_reducible apply Keep.set_rop

theorem State.withFrame_keep {s0 s : State} {ws : List Sec} {typ : Nat} {h : FrameHdr} {go : State → State} (hk : Keep s0 s ws) (hw : within [.regs] ws = true) (h_go : ∀ v, Keep s0 v ws → Keep s0 (go v) ws) :
    Keep s0 (State.withFrame s typ h go) ws := by
  unfold State.withFrame
  repeat' first
    | with_reducible assumption
    | with_reducible apply Keep.refl
    | with_reducible apply h_go
    | with_reducible apply Keep.ite
    | with_reducible apply Keep.app State.bump_keep
    | exact within_trans (by decide) hw
    | decide
    | dsimp -proj only [pair_fst, pair_snd]
    | split

theorem State.withSeq_keep {s0 s : State} {ws : List Sec} {typ : Nat} {h : FrameHdr} {go : State → State} (hk : Keep s0 s ws) (hw : within [.regs, .rop, .out] ws = true) (h_go : ∀ v, Keep s0 v ws → Keep s0 (go v) ws) :
    Keep s0 (State.withSeq s typ h go) ws := by
  unfold State.withSeq
  repeat' first
    | intro x_
    | with_reducible assumption
    | with_reducible apply Keep.refl
    | with_reducible apply h_go
    | with_reducible apply Keep.ite
    | with_reducible apply Keep.app State.bump_keep
    | with_reducible apply Keep.app State.hear_keep
    | with_reducible apply Keep.app State.updPeer_keep
    | with_reducible apply State.withFrame_keep
    | exact within_trans (by decide) hw
    | decide
    | dsimp -proj only [pair_fst, pair_snd]
    | split

theorem State.onPath_keep {s : State} {a : BitVec 12} {n : Nat} : Keep s (State.onPath s a n) [.rop] := by
  unfold State.onPath
  repeat' first
    | with_reducible assumption
    | with_reducible apply Keep.refl
    | with_reducible apply Keep.app State.updPeer_keep
    | decide
    | dsimp -proj only [pair_fst, pair_snd]
    | split

theorem State.withSeqIf_keep {s0 s : State} {ws : List Sec} {typ : Nat} {h : FrameHdr} {ok : State → State × Bool} {go : State → State} {bad : State → State} (hk : Keep s0 s ws) (hw : within [.regs, .rop, .out] ws = true) (h_ok : ∀ v, Keep s0 v ws → Keep s0 (ok v).1 ws) (h_go : ∀ v, Keep s0 v ws → Keep s0 (go v) ws) (h_bad : ∀ v, Keep s0 v ws → Keep s0 (bad v) ws) :
    Keep s0 (State.withSeqIf s typ h ok go bad) ws := by
  unfold State.withSeqIf
  repeat' first
    | intro x_
    | with_reducible assumption
    | with_reducible apply Keep.refl
    | with_reducible apply h_ok
    | with_reducible apply h_go
    | with_reducible apply h_bad
    | with_reducible apply Keep.ite
    | with_reducible apply Keep.app State.bump_keep
    | with_reducible apply Keep.app State.hear_keep
    | with_reducible apply Keep.app State.updPeer_keep
    | with_reducible apply State.withFrame_keep
    | exact within_trans (by decide) hw
    | decide
    | dsimp -proj only [pair_fst, pair_snd]
    | split

theorem State.takeAcks_keep {s : State} {a : BitVec 12} {hi : BitVec 32} {map : BitVec 64} : Keep s (State.takeAcks s a hi map) [.rop] := by
  unfold State.takeAcks
  repeat' first
    | with_reducible assumption
    | with_reducible apply Keep.refl
    | with_reducible apply Keep.ite
    | with_reducible apply Keep.app State.updPeer_keep
    | decide
    | dsimp -proj only [pair_fst, pair_snd]
    | split

theorem State.heartbeatIn_keep {s : State} {h : FrameHdr} {path : Nat} {p : HbPayload} : Keep s (State.heartbeatIn s h path p) [.regs, .rop, .out] := by
  unfold State.heartbeatIn
  repeat' first
    | intro x_
    | with_reducible assumption
    | with_reducible apply Keep.refl
    | with_reducible apply Keep.ite
    | with_reducible apply Keep.app State.onPath_keep
    | with_reducible apply Keep.app State.hear_keep
    | with_reducible apply Keep.app State.takeAcks_keep
    | with_reducible apply Keep.app State.updPeer_keep
    | with_reducible apply State.withFrame_keep
    | with_reducible apply Keep.iff
    | with_reducible exact Rop.lens_mk
    | (show (_ : List Nat) = _; first | with_reducible rfl | (simp [Rop.lens]; done) | rfl)
    | decide
    | dsimp -proj only [pair_fst, pair_snd]
    | split
    | with_reducible apply Keep.set_rop

theorem State.addrConflict_keep {s : State} {serial : BitVec 128} : Keep s (State.addrConflict s serial) [.regs, .rop, .evr, .mgt] := by
  unfold State.addrConflict
  repeat' first
    | with_reducible assumption
    | with_reducible apply Keep.refl
    | with_reducible apply Keep.ite
    | with_reducible apply Keep.app State.setReg_keep
    | with_reducible apply Keep.app State.log_keep
    | with_reducible exact ⟨Mgt.slots_mk, Mgt.dir_mk, Mgt.dirNvm_mk⟩
    | with_reducible exact Mgt.staging_mk
    | with_reducible exact Mgt.lens_mk
    | with_reducible exact Rop.lens_mk
    | (show (_ : List Nat) = _; first | with_reducible rfl | (simp [Mgt.lens, Rop.lens]; done) | rfl)
    | decide
    | dsimp -proj only [pair_fst, pair_snd]
    | split
    | with_reducible apply Keep.set_mgt
    | with_reducible apply Keep.set_rop

theorem State.announceIn_keep {s : State} {h : FrameHdr} {serial : BitVec 128} {period : BitVec 3} {state : BitVec 8} {ips : List (BitVec 128)} : Keep s (State.announceIn s h serial period state ips) [.regs, .rop, .evr, .mgt, .out] := by
  unfold State.announceIn
  repeat' first
    | with_reducible assumption
    | with_reducible apply Keep.refl
    | with_reducible apply Keep.ite
    | with_reducible apply Keep.app State.bump_keep
    | with_reducible apply Keep.app State.hear_keep
    | with_reducible apply Keep.app State.addrConflict_keep
    | with_reducible apply Keep.app State.log_keep
    | with_reducible exact ⟨Mgt.slots_mk, Mgt.dir_mk, Mgt.dirNvm_mk⟩
    | with_reducible exact Mgt.staging_mk
    | with_reducible exact Mgt.lens_mk
    | (show (_ : List Nat) = _; first | with_reducible rfl | (simp [Mgt.lens]; done) | rfl)
    | decide
    | dsimp -proj only [pair_fst, pair_snd]
    | split
    | with_reducible apply Keep.set_mgt

end Sys2Proof.Machine
end

