-- ==== Sys2Proof/Laws/KeepPatrol.lean ====
section
/-!
SUPPORT. What each operation of Machine/Patrol.lean keeps: the parts of the state that it may write.
-/
namespace Sys2Proof.Machine

theorem State.scrubEnd_keep {s : State} {pid : BitVec 16} : Keep s (State.scrubEnd s pid) [.regs, .pools, .tru, .evr] := by
  unfold State.scrubEnd
  repeat' first
    | intro x_
    | with_reducible assumption
    | with_reducible apply Keep.refl
    | with_reducible apply Keep.ite
    | with_reducible apply Keep.app State.updPool_keep
    | with_reducible apply Keep.app State.log_keep
    | with_reducible apply Keep.iff
    | with_reducible exact Tru.fwFuses_mk
    | with_reducible exact Tru.idxFuses_mk
    | with_reducible exact Tru.lens_mk
    | (show (_ : List Nat) = _; first | with_reducible rfl | (simp [Tru.lens]; done) | rfl)
    | decide
    | dsimp -proj only [pair_fst, pair_snd]
    | split
    | with_reducible apply Keep.set_tru

theorem execScrubCycleEnd_keep {pool : BitVec 16} {s : State} {t_ : State} (h : execScrubCycleEnd pool s = .next t_) : Keep s t_ [.regs, .pools, .tru, .evr, .out] := by
  unfold execScrubCycleEnd at h
  try dsimp -proj only at h
  repeat' split at h
  all_goals
    injection h with h
    subst h
    repeat' first
      | with_reducible assumption
      | with_reducible apply Keep.refl
      | with_reducible apply Keep.app State.scrubEnd_keep
      | with_reducible apply Keep.app State.clr_keep
      | decide
      | dsimp -proj only [pair_fst, pair_snd]
      | split

theorem State.pace_keep {s : State} : Keep s (State.pace s) [.regs, .pools, .seq, .evr] := by
  unfold State.pace
  repeat' first
    | intro x_
    | with_reducible assumption
    | with_reducible apply Keep.refl
    | with_reducible apply Keep.ite
    | with_reducible apply Keep.app State.updPool_keep
    | with_reducible apply Keep.app State.log_keep
    | with_reducible apply Keep.each
    | with_reducible apply Keep.foldl
    | with_reducible apply Keep.foldlFst
    | with_reducible apply Keep.fst (by assumption)
    | decide
    | dsimp -proj only [pair_fst, pair_snd]
    | split
    | with_reducible apply Keep.set_seq

theorem State.markDue_keep {s : State} : Keep s (State.markDue s) [.cch] := by
  unfold State.markDue
  repeat' first
    | intro x_
    | with_reducible assumption
    | with_reducible apply Keep.refl
    | with_reducible apply Keep.each
    | decide
    | dsimp -proj only [pair_fst, pair_snd]
    | split
    | with_reducible apply Keep.set_cch

theorem State.passRange_keep {s : State} {p : Pool} {h : Pool} {fd : LayoutDesc} {v : BitVec 12} {first : Nat} : Keep s (State.passRange s p h fd v first) [.regs, .cch] := by
  unfold State.passRange
  repeat' first
    | intro x_
    | with_reducible assumption
    | with_reducible apply Keep.refl
    | with_reducible apply Keep.app State.gather_keep
    | with_reducible apply Keep.each
    | decide
    | dsimp -proj only [pair_fst, pair_snd]
    | split

theorem State.passSlots_keep {s : State} : Keep s (State.passSlots s) [.regs, .cch, .pools] := by
  unfold State.passSlots
  repeat' first
    | intro x_
    | with_reducible assumption
    | with_reducible apply Keep.refl
    | with_reducible apply Keep.app State.updPool_keep
    | with_reducible apply Keep.app State.passRange_keep
    | with_reducible apply Keep.each
    | decide
    | dsimp -proj only [pair_fst, pair_snd]
    | split

theorem State.runSome_keep {s : State} {f : Task → Bool} : Keep s (State.runSome s f) [.regs, .cch, .cod, .pools, .seq, .fix, .mbr, .evr, .mgt, .sched, .freeCtr, .out] := by
  unfold State.runSome
  repeat' first
    | intro x_
    | with_reducible assumption
    | with_reducible apply Keep.refl
    | with_reducible apply Keep.app State.runTask_keep
    | with_reducible apply Keep.each
    | decide
    | dsimp -proj only [pair_fst, pair_snd]
    | split

theorem State.deferredOf_keep {s t : State} : Keep s (State.deferredOf s t) [.seq, .sched] :=
  Keep.set_seq_sched (Keep.refl _ _) (by decide)

theorem State.offerStripe_keep {s : State} {kind : TaskKind} {p : Pool} {d : LayoutDesc} {n : Nat} {offs : List Nat} : Keep s (State.offerStripe s kind p d n offs).1 [.regs, .cch, .cod, .pools, .seq, .fix, .mbr, .evr, .mgt, .sched, .freeCtr, .out] := by
  unfold State.offerStripe
  repeat' first
    | with_reducible assumption
    | with_reducible apply Keep.refl
    | with_reducible apply Keep.ite
    | with_reducible apply Keep.app State.newTask_keep
    | with_reducible apply Keep.app State.runTask_keep
    | with_reducible apply Keep.app State.deferredOf_keep
    | with_reducible apply Keep.fst (by assumption)
    | decide
    | dsimp -proj only [pair_fst, pair_snd]
    | split

theorem State.offerWhile_keep {α : Type} {s0 s : State} {ws : List Sec} {l : List α} {f : State → α → State × Bool} (hk : Keep s0 s ws) (hw : within [] ws = true) (h_f : ∀ v a0, Keep s0 v ws → Keep s0 (f v a0).1 ws) :
    Keep s0 (State.offerWhile s l f) ws := by
  unfold State.offerWhile
  repeat' first
    | intro x_
    | with_reducible assumption
    | with_reducible apply Keep.refl
    | with_reducible apply h_f
    | with_reducible apply Keep.ite
    | with_reducible apply Keep.foldl
    | with_reducible apply Keep.foldlFst
    | with_reducible apply Keep.fst (by assumption)
    | exact within_trans (by decide) hw
    | decide
    | dsimp -proj only [pair_fst, pair_snd]
    | split

theorem State.offerSweep_keep {s : State} {h : Pool} {fd : LayoutDesc} {l : List Nat} : Keep s (State.offerSweep s h fd l) [.regs, .cch, .cod, .pools, .seq, .fix, .mbr, .evr, .mgt, .sched, .freeCtr, .out] := by
  unfold State.offerSweep
  repeat' first
    | intro x_
    | with_reducible assumption
    | with_reducible apply Keep.refl
    | with_reducible apply Keep.app State.offerStripe_keep
    | with_reducible apply State.offerWhile_keep
    | with_reducible apply Keep.fst (by assumption)
    | decide
    | dsimp -proj only [pair_fst, pair_snd]
    | split

theorem State.offerResidue_keep {s : State} {p : Pool} : Keep s (State.offerResidue s p) [.regs, .cch, .cod, .pools, .seq, .fix, .mbr, .evr, .mgt, .sched, .freeCtr, .out] := by
  unfold State.offerResidue
  repeat' first
    | with_reducible assumption
    | with_reducible apply Keep.refl
    | with_reducible apply Keep.ite
    | with_reducible apply Keep.app State.runSome_keep
    | with_reducible apply Keep.app State.offerSweep_keep
    | decide
    | dsimp -proj only [pair_fst, pair_snd]
    | split

theorem State.remapFree_keep {s : State} {p : Pool} {g : Geo} {n : Nat} : Keep s (State.remapFree s p g n) [.regs, .pools, .evr] := by
  unfold State.remapFree
  repeat' first
    | intro x_
    | with_reducible assumption
    | with_reducible apply Keep.refl
    | with_reducible apply Keep.ite
    | with_reducible apply Keep.app State.chooseTargets_keep
    | with_reducible apply Keep.app State.stripDone_keep
    | with_reducible apply Keep.each
    | with_reducible apply Keep.fst (by assumption)
    | decide
    | dsimp -proj only [pair_fst, pair_snd]
    | split

theorem State.offerItem_keep {s : State} {pid : BitVec 16} {i : PlanItem} : Keep s (State.offerItem s pid i).1 [.regs, .cch, .cod, .pools, .seq, .fix, .mbr, .evr, .mgt, .sched, .freeCtr, .out] := by
  unfold State.offerItem
  repeat' first
    | with_reducible assumption
    | with_reducible apply Keep.refl
    | with_reducible apply Keep.ite
    | with_reducible apply Keep.app State.offerStripe_keep
    | with_reducible apply Keep.app State.remapFree_keep
    | with_reducible apply Keep.fst (by assumption)
    | decide
    | dsimp -proj only [pair_fst, pair_snd]
    | split

theorem State.offerRebuild_keep {s : State} {p : Pool} : Keep s (State.offerRebuild s p) [.regs, .cch, .cod, .pools, .seq, .fix, .mbr, .evr, .mgt, .sched, .freeCtr, .out] := by
  unfold State.offerRebuild
  repeat' first
    | intro x_
    | with_reducible assumption
    | with_reducible apply Keep.refl
    | with_reducible apply Keep.app State.runSome_keep
    | with_reducible apply Keep.app State.offerItem_keep
    | with_reducible apply State.offerWhile_keep
    | with_reducible apply Keep.fst (by assumption)
    | decide
    | dsimp -proj only [pair_fst, pair_snd]
    | split

theorem State.offerResync_keep {s : State} {p : Pool} : Keep s (State.offerResync s p) [.regs, .cch, .cod, .pools, .seq, .fix, .mbr, .evr, .mgt, .sched, .freeCtr, .out] := by
  unfold State.offerResync
  repeat' first
    | intro x_
    | with_reducible assumption
    | with_reducible apply Keep.refl
    | with_reducible apply Keep.app State.offerStripe_keep
    | with_reducible apply State.offerWhile_keep
    | with_reducible apply Keep.fst (by assumption)
    | decide
    | dsimp -proj only [pair_fst, pair_snd]
    | split

theorem State.offerCopyBack_keep {s : State} {p : Pool} : Keep s (State.offerCopyBack s p) [.regs, .cch, .cod, .pools, .seq, .fix, .mbr, .evr, .mgt, .sched, .freeCtr, .out] := by
  unfold State.offerCopyBack
  repeat' first
    | intro x_
    | with_reducible assumption
    | with_reducible apply Keep.refl
    | with_reducible apply Keep.ite
    | with_reducible apply Keep.app State.offerStripe_keep
    | with_reducible apply Keep.app State.updPool_keep
    | with_reducible apply State.offerWhile_keep
    | with_reducible apply Keep.fst (by assumption)
    | decide
    | dsimp -proj only [pair_fst, pair_snd]
    | split

theorem State.scrubOne_keep {s : State} {pid : BitVec 16} {l : List (Nat × Nat)} : Keep s (State.scrubOne s pid l).1 [.regs, .cch, .cod, .pools, .seq, .fix, .mbr, .evr, .mgt, .sched, .freeCtr, .out] := by
  unfold State.scrubOne
  repeat' first
    | with_reducible assumption
    | with_reducible apply Keep.refl
    | with_reducible apply Keep.ite
    | with_reducible apply Keep.app State.offerStripe_keep
    | with_reducible apply Keep.app State.updPool_keep
    | with_reducible apply Keep.fst (by assumption)
    | decide
    | dsimp -proj only [pair_fst, pair_snd]
    | split

theorem State.scrubStart_keep {s : State} {p : Pool} : Keep s (State.scrubStart s p) [.pools] := by
  unfold State.scrubStart
  repeat' first
    | with_reducible assumption
    | with_reducible apply Keep.refl
    | with_reducible apply Keep.ite
    | with_reducible apply Keep.app State.updPool_keep
    | decide
    | dsimp -proj only [pair_fst, pair_snd]
    | split

theorem State.stepScrub_keep {s : State} {p : Pool} : Keep s (State.stepScrub s p) [.regs, .cch, .cod, .pools, .seq, .fix, .mbr, .tru, .evr, .mgt, .sched, .freeCtr, .out] := by
  unfold State.stepScrub
  repeat' first
    | intro x_
    | with_reducible assumption
    | with_reducible apply Keep.refl
    | with_reducible apply Keep.ite
    | with_reducible apply State.offerWhile_keep
    | with_reducible apply Keep.app State.scrubOne_keep
    | with_reducible apply Keep.app State.scrubStart_keep
    | with_reducible apply Keep.app State.stepCopy_keep
    | with_reducible apply Keep.app State.scrubEnd_keep
    | with_reducible apply Keep.fst (by assumption)
    | decide
    | dsimp -proj only [pair_fst, pair_snd]
    | split

theorem State.beginSweep_keep {s : State} {pid : BitVec 16} : Keep s (State.beginSweep s pid) [.pools] := by
  unfold State.beginSweep
  repeat' first
    | with_reducible assumption
    | with_reducible apply Keep.refl
    | with_reducible apply Keep.app State.updPool_keep
    | decide
    | dsimp -proj only [pair_fst, pair_snd]
    | split

theorem State.commitSwitch_keep {s : State} {p : Pool} {h : Pool} {f : FrondMeta} : Keep s (State.commitSwitch s p h f) [.pools] := by
  unfold State.commitSwitch
  repeat' first
    | with_reducible assumption
    | with_reducible apply Keep.refl
    | with_reducible apply Keep.ite
    | with_reducible apply Keep.app State.updPool_keep
    | decide
    | dsimp -proj only [pair_fst, pair_snd]
    | split

theorem State.offerUnit_keep {s : State} {p : Pool} {h : Pool} {fd : LayoutDesc} {v : BitVec 12} {first : Nat} : Keep s (State.offerUnit s p h fd v first).1 [.regs, .pools, .seq, .mbr, .sched, .out] := by
  unfold State.offerUnit
  repeat' first
    | intro x_
    | with_reducible assumption
    | with_reducible apply Keep.refl
    | with_reducible apply Keep.ite
    | with_reducible apply Keep.app State.newTask_keep
    | with_reducible apply Keep.app State.bitsReady_keep
    | with_reducible apply Keep.app State.updPool_keep
    | with_reducible apply Keep.app State.sendAll_keep
    | with_reducible apply Keep.app State.updTask_keep
    | with_reducible apply Keep.each
    | with_reducible apply Keep.fst (by assumption)
    | decide
    | dsimp -proj only [pair_fst, pair_snd]
    | split
    | with_reducible apply Keep.set_sched

theorem State.releaseOld_keep {s : State} {p : Pool} {f : FrondMeta} : Keep s (State.releaseOld s p f) [.pools] := by
  unfold State.releaseOld
  repeat' first
    | with_reducible assumption
    | with_reducible apply Keep.refl
    | with_reducible apply Keep.ite
    | with_reducible apply Keep.app State.updPool_keep
    | decide
    | dsimp -proj only [pair_fst, pair_snd]
    | split

theorem State.stepFrond_keep {s : State} {p : Pool} : Keep s (State.stepFrond s p) [.regs, .cch, .jnl, .cod, .pools, .seq, .fix, .mbr, .evr, .mgt, .sched, .freeCtr, .out] := by
  unfold State.stepFrond
  repeat' first
    | intro x_
    | with_reducible assumption
    | with_reducible apply Keep.refl
    | with_reducible apply Keep.ite
    | with_reducible apply Keep.app State.stopFrond_keep
    | with_reducible apply Keep.app State.updPool_keep
    | with_reducible apply Keep.app State.beginSweep_keep
    | with_reducible apply Keep.app State.commitSwitch_keep
    | with_reducible apply State.offerWhile_keep
    | with_reducible apply Keep.app State.offerSweep_keep
    | with_reducible apply Keep.app State.offerUnit_keep
    | with_reducible apply Keep.app State.releaseOld_keep
    | with_reducible apply Keep.fst (by assumption)
    | decide
    | dsimp -proj only [pair_fst, pair_snd]
    | split

theorem State.background_keep {s : State} : Keep s (State.background s) [.regs, .cch, .jnl, .cod, .pools, .seq, .fix, .mbr, .tru, .evr, .mgt, .sched, .freeCtr, .out] := by
  unfold State.background
  repeat' first
    | intro x_
    | with_reducible assumption
    | with_reducible apply Keep.refl
    | with_reducible apply Keep.app State.runSome_keep
    | with_reducible apply Keep.app State.offerResidue_keep
    | with_reducible apply Keep.app State.offerRebuild_keep
    | with_reducible apply Keep.app State.offerResync_keep
    | with_reducible apply Keep.app State.offerCopyBack_keep
    | with_reducible apply Keep.app State.stepScrub_keep
    | with_reducible apply Keep.app State.stepFrond_keep
    | with_reducible apply Keep.each
    | decide
    | dsimp -proj only [pair_fst, pair_snd]
    | split

theorem State.runFg_keep {s : State} : Keep s (State.runFg s) [.regs, .cch, .cod, .pools, .seq, .fix, .mbr, .evr, .mgt, .sched, .freeCtr, .out] := by
  unfold State.runFg
  repeat' first
    | with_reducible assumption
    | with_reducible apply Keep.refl
    | with_reducible apply Keep.app State.runSome_keep
    | decide
    | dsimp -proj only [pair_fst, pair_snd]
    | split

theorem State.offerDestage_keep {s : State} {e0 : GEntry} : Keep s (State.offerDestage s e0) [.regs, .cch, .cod, .pools, .seq, .fix, .mbr, .evr, .mgt, .sched, .freeCtr, .out] := by
  unfold State.offerDestage
  repeat' first
    | intro x_
    | with_reducible assumption
    | with_reducible apply Keep.refl
    | with_reducible apply Keep.ite
    | with_reducible apply Keep.app State.newTask_keep
    | with_reducible apply Keep.app State.bitsReady_keep
    | with_reducible apply Keep.app State.updSlot_keep
    | with_reducible apply Keep.app State.runTask_keep
    | with_reducible apply Keep.app State.deferredOf_keep
    | with_reducible apply Keep.each
    | with_reducible apply Keep.fst (by assumption)
    | decide
    | dsimp -proj only [pair_fst, pair_snd]
    | split
    | with_reducible apply Keep.set_cch

theorem State.offerDestages_keep {s : State} : Keep s (State.offerDestages s) [.regs, .cch, .cod, .pools, .seq, .fix, .mbr, .evr, .mgt, .sched, .freeCtr, .out] := by
  unfold State.offerDestages
  repeat' first
    | intro x_
    | with_reducible assumption
    | with_reducible apply Keep.refl
    | with_reducible apply Keep.app State.offerDestage_keep
    | with_reducible apply Keep.each
    | decide
    | dsimp -proj only [pair_fst, pair_snd]
    | split

theorem State.passCursors_keep {s : State} : Keep s (State.passCursors s) [.pools] := by
  unfold State.passCursors
  repeat' first
    | with_reducible assumption
    | with_reducible apply Keep.refl
    | decide
    | dsimp -proj only [pair_fst, pair_snd]
    | split
    | with_reducible apply Keep.set_pools

theorem execBitmapQuietExpiry_keep {pool : BitVec 16} {vol : BitVec 12} {region : Nat} {s : State} {t_ : State} (h : execBitmapQuietExpiry pool vol region s = .next t_) : Keep s t_ [.regs, .pools, .mbr, .sched, .out] := by
  unfold execBitmapQuietExpiry at h
  try dsimp -proj only at h
  repeat' split at h
  all_goals
    injection h with h
    subst h
    repeat' first
      | with_reducible assumption
      | with_reducible apply Keep.refl
      | with_reducible apply Keep.app State.quietExpiry_keep
      | with_reducible apply Keep.app State.clr_keep
      | decide
      | dsimp -proj only [pair_fst, pair_snd]
      | split

theorem execMissingTimerExpiry_keep {pool : BitVec 16} {idx : Nat} {s : State} {t_ : State} (h : execMissingTimerExpiry pool idx s = .next t_) : Keep s t_ [.regs, .ord, .cch, .jnl, .pools, .seq, .mbr, .evr, .out] := by
  unfold execMissingTimerExpiry at h
  try dsimp -proj only at h
  repeat' split at h
  all_goals
    injection h with h
    subst h
    repeat' first
      | with_reducible assumption
      | with_reducible apply Keep.refl
      | with_reducible apply Keep.app State.clr_keep
      | with_reducible apply Keep.app State.missingExpiry_keep
      | decide
      | dsimp -proj only [pair_fst, pair_snd]
      | split

theorem State.resyncEnd_keep {s : State} {pid : BitVec 16} : Keep s (State.resyncEnd s pid) [.pools] := by
  unfold State.resyncEnd
  repeat' first
    | with_reducible assumption
    | with_reducible apply Keep.refl
    | with_reducible apply Keep.ite
    | with_reducible apply Keep.app State.updPool_keep
    | decide
    | dsimp -proj only [pair_fst, pair_snd]
    | split

theorem execResyncComplete_keep {pool : BitVec 16} {s : State} {t_ : State} (h : execResyncComplete pool s = .next t_) : Keep s t_ [.pools, .out] := by
  unfold execResyncComplete at h
  try dsimp -proj only at h
  repeat' split at h
  all_goals
    injection h with h
    subst h
    repeat' first
      | with_reducible assumption
      | with_reducible apply Keep.refl
      | with_reducible apply Keep.app State.resyncEnd_keep
      | with_reducible apply Keep.app State.clr_keep
      | decide
      | dsimp -proj only [pair_fst, pair_snd]
      | split

theorem State.windowExpiry_keep {s : State} {pid : BitVec 16} {layout : Nat} {stripe : Nat} : Keep s (State.windowExpiry s pid layout stripe) [.cch] := by
  unfold State.windowExpiry
  repeat' first
    | with_reducible assumption
    | with_reducible apply Keep.refl
    | with_reducible apply Keep.ite
    | decide
    | dsimp -proj only [pair_fst, pair_snd]
    | split
    | with_reducible apply Keep.set_cch

theorem execGatherWindowExpiry_keep {pool : BitVec 16} {layout : Nat} {stripe : Nat} {s : State} {t_ : State} (h : execGatherWindowExpiry pool layout stripe s = .next t_) : Keep s t_ [.cch, .out] := by
  unfold execGatherWindowExpiry at h
  try dsimp -proj only at h
  repeat' split at h
  all_goals
    injection h with h
    subst h
    repeat' first
      | with_reducible assumption
      | with_reducible apply Keep.refl
      | with_reducible apply Keep.app State.windowExpiry_keep
      | with_reducible apply Keep.app State.clr_keep
      | decide
      | dsimp -proj only [pair_fst, pair_snd]
      | split

theorem execJournalRelocation_keep {s : State} {t_ : State} (h : execJournalRelocation s = .next t_) : Keep s t_ [.regs, .jnl, .rop, .out] := by
  unfold execJournalRelocation at h
  try dsimp -proj only at h
  repeat' split at h
  all_goals
    injection h with h
    subst h
    repeat' first
      | with_reducible assumption
      | with_reducible apply Keep.refl
      | with_reducible apply Keep.app State.relocate_keep
      | with_reducible apply Keep.app State.clr_keep
      | decide
      | dsimp -proj only [pair_fst, pair_snd]
      | split

end Sys2Proof.Machine
end

