-- ==== Sys2Proof/Laws/KeepRecover.lean ====
section
/-!
SUPPORT. What each operation of Machine/Recover.lean keeps: the parts of the state that it may write.
-/
namespace Sys2Proof.Machine

theorem State.addPool_keep {s : State} {p : Pool} : Keep s (State.addPool s p) [.pools] := by
  unfold State.addPool
  repeat' first
    | with_reducible assumption
    | with_reducible apply Keep.refl
    | decide
    | dsimp -proj only [pair_fst, pair_snd]
    | split
    | with_reducible apply Keep.set_pools

theorem State.catchUpBack_keep {s : State} {pid : BitVec 16} {dirty : List (BitVec 12 × Nat)} : Keep s (State.catchUpBack s pid dirty) [.regs, .cch, .pools, .evr] := by
  unfold State.catchUpBack
  repeat' first
    | intro x_
    | with_reducible assumption
    | with_reducible apply Keep.refl
    | with_reducible apply Keep.app State.updPool_keep
    | with_reducible apply Keep.app State.catchUpEnd_keep
    | with_reducible apply Keep.each
    | decide
    | dsimp -proj only [pair_fst, pair_snd]
    | split

theorem State.loadIntent_keep {s : State} {pid : BitVec 16} {area : Bool} {blocks : List (Nat × Block)} {r : Intent} : Keep s (State.loadIntent s pid area blocks r) [.regs, .cch, .jnl, .pools, .rop] := by
  unfold State.loadIntent
  repeat' first
    | intro x_
    | with_reducible assumption
    | with_reducible apply Keep.refl
    | with_reducible apply Keep.ite
    | with_reducible apply Keep.app State.supersede_keep
    | with_reducible apply Keep.app State.updPool_keep
    | with_reducible apply Keep.app State.appendIntent_keep
    | with_reducible apply Keep.app State.gatherOld_keep
    | with_reducible apply Keep.app State.gatherBlk_keep
    | with_reducible apply Keep.each
    | with_reducible apply Keep.foldl
    | with_reducible apply Keep.foldlFst
    | with_reducible apply Keep.fst (by assumption)
    | decide
    | dsimp -proj only [pair_fst, pair_snd]
    | split
    | with_reducible apply Keep.set_cch

theorem State.replay_keep {s : State} {pid : BitVec 16} {area : Bool} {c : JournalCopy} : Keep s (State.replay s pid area c) [.regs, .cch, .jnl, .pools, .rop] := by
  unfold State.replay
  repeat' first
    | intro x_
    | with_reducible assumption
    | with_reducible apply Keep.refl
    | with_reducible apply Keep.app State.loadIntent_keep
    | with_reducible apply Keep.app State.freeSuperseded_keep
    | with_reducible apply Keep.each
    | decide
    | dsimp -proj only [pair_fst, pair_snd]
    | split

theorem State.takeOver_keep {s : State} {t : Takeover} : Keep s (State.takeOver s t) [.regs, .cch, .jnl, .pools, .rop, .evr] := by
  unfold State.takeOver
  repeat' first
    | with_reducible assumption
    | with_reducible apply Keep.refl
    | with_reducible apply Keep.app State.addPool_keep
    | with_reducible apply Keep.app State.catchUpBack_keep
    | with_reducible apply Keep.app State.replay_keep
    | with_reducible apply Keep.app State.log_keep
    | decide
    | dsimp -proj only [pair_fst, pair_snd]
    | split

theorem State.reconcilePool_keep {s : State} {i : ReconInfo} : Keep s (State.reconcilePool s i) [.regs, .cch, .jnl, .pools, .rop, .evr] := by
  unfold State.reconcilePool
  repeat' first
    | intro x_
    | with_reducible assumption
    | with_reducible apply Keep.refl
    | with_reducible apply Keep.ite
    | with_reducible apply Keep.app State.catchUpBack_keep
    | with_reducible apply Keep.app State.replay_keep
    | with_reducible apply Keep.app State.updPool_keep
    | with_reducible apply Keep.app State.log_keep
    | with_reducible apply Keep.iff
    | decide
    | dsimp -proj only [pair_fst, pair_snd]
    | split

theorem State.reconcile_keep {s : State} {is : List ReconInfo} : Keep s (State.reconcile s is) [.regs, .cch, .jnl, .pools, .rop, .evr] := by
  unfold State.reconcile
  repeat' first
    | intro x_
    | with_reducible assumption
    | with_reducible apply Keep.refl
    | with_reducible apply Keep.app State.reconcilePool_keep
    | with_reducible apply Keep.each
    | decide
    | dsimp -proj only [pair_fst, pair_snd]
    | split

theorem State.assemble_keep {s : State} {m : PoolMeta} {reach : List Bool} {taken : Bool} : Keep s (State.assemble s m reach taken) [.regs, .pools, .evr] := by
  unfold State.assemble
  repeat' first
    | with_reducible assumption
    | with_reducible apply Keep.refl
    | with_reducible apply Keep.app State.addPool_keep
    | with_reducible apply Keep.app State.log_keep
    | decide
    | dsimp -proj only [pair_fst, pair_snd]
    | split

theorem State.assemblyFail_keep {s : State} {m : PoolMeta} : Keep s (State.assemblyFail s m) [.regs, .pools, .evr] := by
  unfold State.assemblyFail
  repeat' first
    | with_reducible assumption
    | with_reducible apply Keep.refl
    | with_reducible apply Keep.app State.addPool_keep
    | with_reducible apply Keep.app State.log_keep
    | decide
    | dsimp -proj only [pair_fst, pair_snd]
    | split

theorem State.noMeta_keep {s : State} {pid : BitVec 16} : Keep s (State.noMeta s pid) [.regs, .evr] := by
  unfold State.noMeta
  repeat' first
    | with_reducible assumption
    | with_reducible apply Keep.refl
    | with_reducible apply Keep.app State.log_keep
    | decide
    | dsimp -proj only [pair_fst, pair_snd]
    | split

theorem State.checkLabels_keep {s : State} {m : PoolMeta} : Keep s (State.checkLabels s m) [.regs, .mbr, .evr] := by
  unfold State.checkLabels
  repeat' first
    | intro x_
    | with_reducible assumption
    | with_reducible apply Keep.refl
    | with_reducible apply Keep.ite
    | with_reducible apply Keep.app State.bump_keep
    | with_reducible apply Keep.app State.log_keep
    | with_reducible apply Keep.app State.updImg_keep
    | with_reducible apply Keep.each
    | decide
    | dsimp -proj only [pair_fst, pair_snd]
    | split

theorem State.registerAll_keep {s : State} {m : PoolMeta} : Keep s (State.registerAll s m) [.mbr, .sched, .out] := by
  unfold State.registerAll
  repeat' first
    | intro x_
    | with_reducible assumption
    | with_reducible apply Keep.refl
    | with_reducible apply Keep.app State.chargeAlways_keep
    | with_reducible apply Keep.app State.updImg_keep
    | with_reducible apply Keep.app State.send_keep
    | with_reducible apply Keep.each
    | decide
    | dsimp -proj only [pair_fst, pair_snd]
    | split

theorem State.takePool_keep {s : State} {r : PoolRead} : Keep s (State.takePool s r) [.regs, .pools, .mbr, .rop, .evr, .sched, .out] := by
  unfold State.takePool
  repeat' first
    | intro x_
    | with_reducible assumption
    | with_reducible apply Keep.refl
    | with_reducible apply Keep.ite
    | with_reducible apply Keep.app State.assemble_keep
    | with_reducible apply Keep.app State.assemblyFail_keep
    | with_reducible apply Keep.app State.noMeta_keep
    | with_reducible apply Keep.app State.sendNow_keep
    | with_reducible apply Keep.app State.checkLabels_keep
    | with_reducible apply Keep.app State.log_keep
    | with_reducible apply Keep.app State.registerAll_keep
    | with_reducible apply Keep.iff
    | with_reducible apply Keep.fst (by assumption)
    | with_reducible exact Rop.lens_mk
    | (show (_ : List Nat) = _; first | with_reducible rfl | (simp [Rop.lens]; done) | rfl)
    | decide
    | dsimp -proj only [pair_fst, pair_snd]
    | split
    | with_reducible apply Keep.set_rop

theorem State.finishSwitches_keep {s : State} : Keep s (State.finishSwitches s) [.pools] := by
  unfold State.finishSwitches
  repeat' first
    | intro x_
    | with_reducible assumption
    | with_reducible apply Keep.refl
    | with_reducible apply Keep.ite
    | with_reducible apply Keep.app State.updPool_keep
    | with_reducible apply Keep.each
    | decide
    | dsimp -proj only [pair_fst, pair_snd]
    | split

theorem State.assemblePools_keep {s : State} {rs : List PoolRead} : Keep s (State.assemblePools s rs) [.regs, .pools, .mbr, .rop, .evr, .sched, .out] := by
  unfold State.assemblePools
  repeat' first
    | intro x_
    | with_reducible assumption
    | with_reducible apply Keep.refl
    | with_reducible apply Keep.app State.takePool_keep
    | with_reducible apply Keep.app State.finishSwitches_keep
    | with_reducible apply Keep.each
    | decide
    | dsimp -proj only [pair_fst, pair_snd]
    | split

end Sys2Proof.Machine
end

