-- ==== Sys2Proof/Laws/KeepBelay.lean ====
section
/-!
SUPPORT. What each operation of Machine/Belay.lean keeps: the parts of the state that it may write.
-/
namespace Sys2Proof.Machine

theorem State.drainBelay_keep   {x1 : Nat} : ∀ {s : State}, Keep s (State.drainBelay s x1) [.regs, .dmv, .rop, .hif, .evr, .sched, .out] := by
  induction x1 with
  | zero =>
    intro s
    unfold State.drainBelay
    repeat' first
      | with_reducible assumption
      | with_reducible apply Keep.refl
      | with_reducible apply Keep.ite
      | with_reducible apply Keep.app State.sendSeq_keep
      | with_reducible apply Keep.app State.transfer_keep
      | with_reducible apply Keep.fst (by assumption)
      | with_reducible exact Rop.lens_mk
      | (show (_ : List Nat) = _; first | with_reducible rfl | (simp [Rop.lens]; done) | rfl)
      | decide
      | dsimp -proj only [pair_fst, pair_snd]
      | split
      | with_reducible apply Keep.set_sched
      | with_reducible apply Keep.set_rop_sched
  | succ n ih =>
    intro s
    unfold State.drainBelay
    repeat' first
      | with_reducible assumption
      | with_reducible apply Keep.refl
      | with_reducible apply Keep.app ih
      | with_reducible apply Keep.ite
      | with_reducible apply Keep.app State.sendSeq_keep
      | with_reducible apply Keep.app State.transfer_keep
      | with_reducible apply Keep.fst (by assumption)
      | with_reducible exact Rop.lens_mk
      | (show (_ : List Nat) = _; first | with_reducible rfl | (simp [Rop.lens]; done) | rfl)
      | decide
      | dsimp -proj only [pair_fst, pair_snd]
      | split
      | with_reducible apply Keep.set_sched
      | with_reducible apply Keep.set_rop_sched

theorem State.joinPartner_keep {s : State} {a : BitVec 12} {p : BelaySetupPayload} : Keep s (State.joinPartner s a p) [.jnl, .rop] := by
  unfold State.joinPartner
  repeat' first
    | with_reducible assumption
    | with_reducible apply Keep.refl
    | with_reducible apply Keep.app State.join_keep
    | with_reducible exact Rop.lens_mk
    | (show (_ : List Nat) = _; first | with_reducible rfl | (simp [Rop.lens]; done) | rfl)
    | decide
    | dsimp -proj only [pair_fst, pair_snd]
    | split
    | with_reducible apply Keep.set_rop

theorem State.checkSetup_keep {s : State} {a : BitVec 12} : Keep s (State.checkSetup s a) [.regs, .jnl, .rop, .evr] := by
  unfold State.checkSetup
  repeat' first
    | with_reducible assumption
    | with_reducible apply Keep.refl
    | with_reducible apply Keep.app State.log_keep
    | with_reducible apply Keep.app State.joinPartner_keep
    | with_reducible exact Rop.lens_mk
    | (show (_ : List Nat) = _; first | with_reducible rfl | (simp [Rop.lens]; done) | rfl)
    | decide
    | dsimp -proj only [pair_fst, pair_snd]
    | split
    | with_reducible apply Keep.set_rop

theorem State.sendSetup_keep {s : State} {a : BitVec 12} : Keep s (State.sendSetup s a) [.rop, .out] := by
  unfold State.sendSetup
  repeat' first
    | with_reducible assumption
    | with_reducible apply Keep.refl
    | with_reducible apply Keep.app State.sendSeq_keep
    | with_reducible exact Rop.lens_mk
    | (show (_ : List Nat) = _; first | with_reducible rfl | (simp [Rop.lens]; done) | rfl)
    | decide
    | dsimp -proj only [pair_fst, pair_snd]
    | split
    | with_reducible apply Keep.set_rop

theorem State.stepSetup_keep {s : State} : Keep s (State.stepSetup s) [.regs, .jnl, .rop, .evr, .out] := by
  unfold State.stepSetup
  repeat' first
    | with_reducible assumption
    | with_reducible apply Keep.refl
    | with_reducible apply Keep.ite
    | with_reducible apply Keep.app State.checkSetup_keep
    | with_reducible apply Keep.app State.sendSetup_keep
    | decide
    | dsimp -proj only [pair_fst, pair_snd]
    | split

theorem State.refuseSeal_keep {s : State} {a : BitVec 12} {x : RxSeal} {drop : List (BitVec 32)} : Keep s (State.refuseSeal s a x drop) [.regs, .cch, .jnl, .rop, .evr, .out] := by
  unfold State.refuseSeal
  repeat' first
    | with_reducible assumption
    | with_reducible apply Keep.refl
    | with_reducible apply Keep.ite
    | with_reducible apply Keep.app State.sendSeq_keep
    | with_reducible apply Keep.app State.log_keep
    | with_reducible apply Keep.app State.belayDown_keep
    | with_reducible exact Rop.lens_mk
    | (show (_ : List Nat) = _; first | with_reducible rfl | (simp [Rop.lens]; done) | rfl)
    | decide
    | dsimp -proj only [pair_fst, pair_snd]
    | split
    | with_reducible apply Keep.set_rop

theorem State.testSeal_keep {s : State} {a : BitVec 12} {x : RxSeal} : Keep s (State.testSeal s a x) [.regs, .cch, .jnl, .rop, .evr, .out] := by
  unfold State.testSeal
  repeat' first
    | with_reducible assumption
    | with_reducible apply Keep.refl
    | with_reducible apply Keep.ite
    | with_reducible apply Keep.app State.sendSeq_keep
    | with_reducible apply Keep.app State.refuseSeal_keep
    | with_reducible exact Rop.lens_mk
    | (show (_ : List Nat) = _; first | with_reducible rfl | (simp [Rop.lens]; done) | rfl)
    | decide
    | dsimp -proj only [pair_fst, pair_snd]
    | split
    | with_reducible apply Keep.set_rop

theorem State.testSeals_keep {s : State} : Keep s (State.testSeals s) [.regs, .cch, .jnl, .rop, .evr, .out] := by
  unfold State.testSeals
  repeat' first
    | intro x_
    | with_reducible assumption
    | with_reducible apply Keep.refl
    | with_reducible apply Keep.app State.testSeal_keep
    | with_reducible apply Keep.each
    | decide
    | dsimp -proj only [pair_fst, pair_snd]
    | split

theorem State.sealNakIn_keep {s : State} {h : FrameHdr} {tick : Nat} : Keep s (State.sealNakIn s h tick) [.regs, .jnl, .rop, .out] := by
  unfold State.sealNakIn
  repeat' first
    | intro x_
    | with_reducible assumption
    | with_reducible apply Keep.refl
    | with_reducible apply State.withSeq_keep
    | decide
    | dsimp -proj only [pair_fst, pair_snd]
    | split
    | with_reducible apply Keep.set_jnl

theorem State.setupIn_keep {s : State} {h : FrameHdr} {p : BelaySetupPayload} : Keep s (State.setupIn s h p) [.regs, .rop, .evr, .out] := by
  unfold State.setupIn
  repeat' first
    | intro x_
    | with_reducible assumption
    | with_reducible apply Keep.refl
    | with_reducible apply Keep.ite
    | with_reducible apply State.withSeq_keep
    | with_reducible apply Keep.app State.log_keep
    | with_reducible exact Rop.lens_mk
    | (show (_ : List Nat) = _; first | with_reducible rfl | (simp [Rop.lens]; done) | rfl)
    | decide
    | dsimp -proj only [pair_fst, pair_snd]
    | split
    | with_reducible apply Keep.set_rop

theorem State.freeRecv_keep {s : State} {rs : List (BitVec 32 × JRec)} : Keep s (State.freeRecv s rs) [.rop] := by
  unfold State.freeRecv
  repeat' first
    | with_reducible assumption
    | with_reducible apply Keep.refl
    | with_reducible apply Keep.ite
    | with_reducible exact Rop.lens_mk
    | (show (_ : List Nat) = _; first | with_reducible rfl | (simp [Rop.lens]; done) | rfl)
    | decide
    | dsimp -proj only [pair_fst, pair_snd]
    | split
    | with_reducible apply Keep.set_rop

theorem State.recordsIn_keep {s : State} {h : FrameHdr} {first : BitVec 32} {recs : List JRec} : Keep s (State.recordsIn s h first recs) [.regs, .rop, .out] := by
  unfold State.recordsIn
  repeat' first
    | intro x_
    | with_reducible assumption
    | with_reducible apply Keep.refl
    | with_reducible apply State.withSeq_keep
    | with_reducible apply Keep.app State.freeRecv_keep
    | with_reducible apply Keep.foldl
    | with_reducible apply Keep.foldlFst
    | with_reducible apply Keep.fst (by assumption)
    | with_reducible exact Rop.lens_mk
    | (show (_ : List Nat) = _; first | with_reducible rfl | (simp [Rop.lens]; done) | rfl)
    | decide
    | dsimp -proj only [pair_fst, pair_snd]
    | split
    | with_reducible apply Keep.set_rop

theorem State.confirmIn_keep {s : State} {h : FrameHdr} {tick : Nat} : Keep s (State.confirmIn s h tick) [.regs, .jnl, .rop, .out] := by
  unfold State.confirmIn
  repeat' first
    | intro x_
    | with_reducible assumption
    | with_reducible apply Keep.refl
    | with_reducible apply State.withSeq_keep
    | decide
    | dsimp -proj only [pair_fst, pair_snd]
    | split
    | with_reducible apply Keep.set_jnl

theorem State.refuseBlock_keep {s : State} {h : FrameHdr} {slot : Nat} : Keep s (State.refuseBlock s h slot) [.regs, .rop, .evr, .out] := by
  unfold State.refuseBlock
  repeat' first
    | with_reducible assumption
    | with_reducible apply Keep.refl
    | with_reducible apply Keep.ite
    | with_reducible apply Keep.app State.bump_keep
    | with_reducible apply Keep.app State.sendSeq_keep
    | with_reducible apply Keep.app State.log_keep
    | with_reducible exact Rop.lens_mk
    | (show (_ : List Nat) = _; first | with_reducible rfl | (simp [Rop.lens]; done) | rfl)
    | decide
    | dsimp -proj only [pair_fst, pair_snd]
    | split
    | with_reducible apply Keep.set_rop

theorem State.belayBlockIn_keep {s : State} {h : FrameHdr} {slot : Nat} {b : Block} : Keep s (State.belayBlockIn s h slot b) [.regs, .rop, .evr, .mgt, .out] := by
  unfold State.belayBlockIn
  repeat' first
    | intro x_
    | with_reducible assumption
    | with_reducible apply Keep.refl
    | with_reducible apply Keep.ite
    | with_reducible apply Keep.app State.ropeWord_keep
    | with_reducible apply State.withSeqIf_keep
    | with_reducible apply Keep.app State.refuseBlock_keep
    | with_reducible apply Keep.fst (by assumption)
    | with_reducible exact Rop.lens_mk
    | (show (_ : List Nat) = _; first | with_reducible rfl | (simp [Rop.lens]; done) | rfl)
    | decide
    | dsimp -proj only [pair_fst, pair_snd]
    | split
    | with_reducible apply Keep.set_rop

theorem State.winNakIn_keep {s : State} {h : FrameHdr} {n : BitVec 32} : Keep s (State.winNakIn s h n) [.regs, .rop, .out] := by
  unfold State.winNakIn
  repeat' first
    | intro x_
    | with_reducible assumption
    | with_reducible apply Keep.refl
    | with_reducible apply State.withSeq_keep
    | with_reducible apply Keep.app State.updPeer_keep
    | decide
    | dsimp -proj only [pair_fst, pair_snd]
    | split

theorem State.sealIn_keep {s : State} {h : FrameHdr} {r : SealRec} : Keep s (State.sealIn s h r) [.regs, .rop, .out] := by
  unfold State.sealIn
  repeat' first
    | intro x_
    | with_reducible assumption
    | with_reducible apply Keep.refl
    | with_reducible apply State.withSeq_keep
    | with_reducible exact Rop.lens_mk
    | (show (_ : List Nat) = _; first | with_reducible rfl | (simp [Rop.lens]; done) | rfl)
    | decide
    | dsimp -proj only [pair_fst, pair_snd]
    | split
    | with_reducible apply Keep.set_rop

end Sys2Proof.Machine
end

