-- ==== Sys2Proof/Laws/KeepForward.lean ====
section
/-!
SUPPORT. What each operation of Machine/Forward.lean keeps: the parts of the state that it may write.
-/
namespace Sys2Proof.Machine

theorem State.dirSync_keep {s : State} : Keep s (State.dirSync s) [.rop, .out] := by
  unfold State.dirSync
  repeat' first
    | intro x_
    | with_reducible assumption
    | with_reducible apply Keep.refl
    | with_reducible apply Keep.ite
    | with_reducible apply Keep.app State.sendSeq_keep
    | with_reducible apply Keep.each
    | with_reducible exact Rop.lens_mk
    | (show (_ : List Nat) = _; first | with_reducible rfl | (simp [Rop.lens]; done) | rfl)
    | decide
    | dsimp -proj only [pair_fst, pair_snd]
    | split
    | with_reducible apply Keep.set_rop

theorem State.moveFwds_keep {s : State} : Keep s (State.moveFwds s) [.regs, .ord, .seq, .dmv, .hif, .evr, .sched, .out] := by
  unfold State.moveFwds
  repeat' first
    | intro x_
    | with_reducible assumption
    | with_reducible apply Keep.refl
    | with_reducible apply Keep.ite
    | with_reducible apply Keep.app State.updCmd_keep
    | with_reducible apply State.allot_keep
    | with_reducible apply Keep.app State.transferKept_keep
    | with_reducible apply Keep.app State.emit_keep
    | with_reducible apply Keep.foldl
    | with_reducible apply Keep.foldlFst
    | with_reducible apply Keep.fst (by assumption)
    | decide
    | dsimp -proj only [pair_fst, pair_snd]
    | split

theorem State.offerOne_keep {s : State} {org : Origin} {us : List RingUnit} {tag : BitVec 16} : Keep s (State.offerOne s org us tag) [.regs, .qe, .ord, .cch, .pools, .rop, .hif, .evr, .out] := by
  unfold State.offerOne
  repeat' first
    | with_reducible assumption
    | with_reducible apply Keep.refl
    | with_reducible apply Keep.app State.updCmd_keep
    | with_reducible apply Keep.app State.sendSeq_keep
    | with_reducible apply Keep.app State.offerCmd_keep
    | decide
    | dsimp -proj only [pair_fst, pair_snd]
    | split

theorem State.offerFwds_keep {s : State} : Keep s (State.offerFwds s) [.regs, .qe, .ord, .cch, .pools, .rop, .hif, .evr, .out] := by
  unfold State.offerFwds
  repeat' first
    | intro x_
    | with_reducible assumption
    | with_reducible apply Keep.refl
    | with_reducible apply Keep.ite
    | with_reducible apply Keep.app State.offerOne_keep
    | with_reducible apply Keep.foldl
    | with_reducible apply Keep.foldlFst
    | with_reducible apply Keep.fst (by assumption)
    | with_reducible exact Rop.lens_mk
    | (show (_ : List Nat) = _; first | with_reducible rfl | (simp [Rop.lens]; done) | rfl)
    | decide
    | dsimp -proj only [pair_fst, pair_snd]
    | split
    | with_reducible apply Keep.set_rop

theorem State.applyDir_keep {s : State} : Keep s (State.applyDir s) [.rop] := by
  unfold State.applyDir
  repeat' first
    | intro x_
    | with_reducible assumption
    | with_reducible apply Keep.refl
    | with_reducible apply Keep.foldl
    | with_reducible apply Keep.foldlFst
    | with_reducible apply Keep.fst (by assumption)
    | with_reducible exact Rop.lens_mk
    | (show (_ : List Nat) = _; first | with_reducible rfl | (simp [Rop.lens]; done) | rfl)
    | decide
    | dsimp -proj only [pair_fst, pair_snd]
    | split
    | with_reducible apply Keep.set_rop

theorem State.fwdReplyIn_keep {s : State} {h : FrameHdr} {fid : BitVec 64} {st : Stat} {acc : BitVec 32} : Keep s (State.fwdReplyIn s h fid st acc) [.regs, .rop, .out] := by
  unfold State.fwdReplyIn
  repeat' first
    | intro x_
    | with_reducible assumption
    | with_reducible apply Keep.refl
    | with_reducible apply State.withSeq_keep
    | with_reducible exact Rop.lens_mk
    | (show (_ : List Nat) = _; first | with_reducible rfl | (simp [Rop.lens]; done) | rfl)
    | decide
    | dsimp -proj only [pair_fst, pair_snd]
    | split
    | with_reducible apply Keep.set_rop

theorem State.claimIn_keep {s : State} {h : FrameHdr} {vol : BitVec 12} {claimant : BitVec 12} {answer : Option Bool} : Keep s (State.claimIn s h vol claimant answer) [.regs, .rop, .out] := by
  unfold State.claimIn
  repeat' first
    | intro x_
    | with_reducible assumption
    | with_reducible apply Keep.refl
    | with_reducible apply Keep.ite
    | with_reducible apply State.withSeq_keep
    | with_reducible apply Keep.app State.sendSeq_keep
    | with_reducible exact Rop.lens_mk
    | (show (_ : List Nat) = _; first | with_reducible rfl | (simp [Rop.lens]; done) | rfl)
    | decide
    | dsimp -proj only [pair_fst, pair_snd]
    | split
    | with_reducible apply Keep.set_rop

theorem State.dirUpdateIn_keep {s : State} {h : FrameHdr} {es : List DirEntry} : Keep s (State.dirUpdateIn s h es) [.regs, .rop, .out] := by
  unfold State.dirUpdateIn
  repeat' first
    | intro x_
    | with_reducible assumption
    | with_reducible apply Keep.refl
    | with_reducible apply State.withSeq_keep
    | with_reducible exact Rop.lens_mk
    | (show (_ : List Nat) = _; first | with_reducible rfl | (simp [Rop.lens]; done) | rfl)
    | decide
    | dsimp -proj only [pair_fst, pair_snd]
    | split
    | with_reducible apply Keep.set_rop

theorem State.writeData_keep {s : State} {c : Cmd} {off : Nat} {bs : List Block} : Keep s (State.writeData s c off bs) [.ord] := by
  unfold State.writeData
  repeat' first
    | with_reducible assumption
    | with_reducible apply Keep.refl
    | with_reducible apply Keep.ite
    | with_reducible apply Keep.app State.updCmd_keep
    | decide
    | dsimp -proj only [pair_fst, pair_snd]
    | split

theorem State.readData_keep {s : State} {c : Cmd} {v : Nat} {off : Nat} {bs : List Block} : Keep s (State.readData s c v off bs) [.ord] := by
  unfold State.readData
  repeat' first
    | with_reducible assumption
    | with_reducible apply Keep.refl
    | with_reducible apply Keep.app State.updCmd_keep
    | decide
    | dsimp -proj only [pair_fst, pair_snd]
    | split

theorem State.fwdDataIn_keep {s : State} {h : FrameHdr} {fid : BitVec 64} {off : Nat} {bs : List Block} : Keep s (State.fwdDataIn s h fid off bs) [.regs, .ord, .rop, .evr, .mgt, .out] := by
  unfold State.fwdDataIn
  repeat' first
    | intro x_
    | with_reducible assumption
    | with_reducible apply Keep.refl
    | with_reducible apply Keep.ite
    | with_reducible apply Keep.app State.ropeWord_keep
    | with_reducible apply State.withSeqIf_keep
    | with_reducible apply Keep.app State.writeData_keep
    | with_reducible apply Keep.app State.readData_keep
    | with_reducible apply Keep.foldl
    | with_reducible apply Keep.foldlFst
    | with_reducible apply Keep.fst (by assumption)
    | decide
    | dsimp -proj only [pair_fst, pair_snd]
    | split

theorem State.fwdCmdIn_keep {s : State} {h : FrameHdr} {fid : BitVec 64} {port : PciePort} {qid : BitVec 16} {tag : BitVec 16} {entry : List RingUnit} : Keep s (State.fwdCmdIn s h fid port qid tag entry) [.regs, .rop, .out] := by
  unfold State.fwdCmdIn
  repeat' first
    | intro x_
    | with_reducible assumption
    | with_reducible apply Keep.refl
    | with_reducible apply State.withSeq_keep
    | with_reducible exact Rop.lens_mk
    | (show (_ : List Nat) = _; first | with_reducible rfl | (simp [Rop.lens]; done) | rfl)
    | decide
    | dsimp -proj only [pair_fst, pair_snd]
    | split
    | with_reducible apply Keep.set_rop

end Sys2Proof.Machine
end

