-- ==== Sys2Proof/Laws/KeepTakeover.lean ====
section
/-!
SUPPORT. What each operation of Machine/Takeover.lean keeps: the parts of the state that it may write.
-/
namespace Sys2Proof.Machine

theorem State.sendImg_keep {s : State} {img : Nat} {idx : Nat} {pool : BitVec 16} {op : MOp} {lba : Nat} {count : Nat} {purpose : MPurpose} : Keep s (State.sendImg s img idx pool op lba count purpose).1 [.mbr, .sched, .out] := by
  unfold State.sendImg
  repeat' first
    | with_reducible assumption
    | with_reducible apply Keep.refl
    | with_reducible apply Keep.app State.chargeAlways_keep
    | with_reducible apply Keep.app State.send_keep
    | with_reducible apply Keep.fst (by assumption)
    | decide
    | dsimp -proj only [pair_fst, pair_snd]
    | split

theorem State.askReport_keep {s : State} {p : Pool} {lo : Nat} : Keep s (State.askReport s p lo) [.mbr, .rop, .sched, .out] := by
  unfold State.askReport
  repeat' first
    | with_reducible assumption
    | with_reducible apply Keep.refl
    | with_reducible apply Keep.app State.sendImg_keep
    | with_reducible apply Keep.fst (by assumption)
    | with_reducible exact Rop.lens_mk
    | (show (_ : List Nat) = _; first | with_reducible rfl | (simp [Rop.lens]; done) | rfl)
    | decide
    | dsimp -proj only [pair_fst, pair_snd]
    | split
    | with_reducible apply Keep.set_rop

theorem State.startCheck_keep {s : State} : Keep s (State.startCheck s) [.mbr, .rop, .sched, .out] := by
  unfold State.startCheck
  repeat' first
    | intro x_
    | with_reducible assumption
    | with_reducible apply Keep.refl
    | with_reducible apply Keep.app State.askReport_keep
    | with_reducible apply Keep.each
    | with_reducible exact Rop.lens_mk
    | (show (_ : List Nat) = _; first | with_reducible rfl | (simp [Rop.lens]; done) | rfl)
    | decide
    | dsimp -proj only [pair_fst, pair_snd]
    | split
    | with_reducible apply Keep.set_rop

theorem State.beginCheck_keep {s : State} {a : BitVec 12} : Keep s (State.beginCheck s a) [.mbr, .rop, .sched, .out] := by
  unfold State.beginCheck
  repeat' first
    | with_reducible assumption
    | with_reducible apply Keep.refl
    | with_reducible apply Keep.ite
    | with_reducible apply Keep.app State.startCheck_keep
    | decide
    | dsimp -proj only [pair_fst, pair_snd]
    | split

theorem State.refuseRequest_keep {s : State} {c : Cmd} {st : Stat} : Keep s (State.refuseRequest s c st) [.qe, .ord, .rop, .hif, .out] := by
  unfold State.refuseRequest
  repeat' first
    | with_reducible assumption
    | with_reducible apply Keep.refl
    | with_reducible apply Keep.app State.dropRequest_keep
    | with_reducible apply Keep.app State.sendSeq_keep
    | with_reducible apply Keep.app State.consume_keep
    | with_reducible apply Keep.app State.eligible_keep
    | decide
    | dsimp -proj only [pair_fst, pair_snd]
    | split

theorem State.startYield_keep {s : State} {pools : List (BitVec 16)} {reason : Nat} : Keep s (State.startYield s pools reason) [.qe, .ord, .rop, .hif, .out] := by
  unfold State.startYield
  repeat' first
    | intro x_
    | with_reducible assumption
    | with_reducible apply Keep.refl
    | with_reducible apply Keep.ite
    | with_reducible apply Keep.app State.refuseRequest_keep
    | with_reducible apply Keep.each
    | with_reducible exact Rop.lens_mk
    | (show (_ : List Nat) = _; first | with_reducible rfl | (simp [Rop.lens]; done) | rfl)
    | decide
    | dsimp -proj only [pair_fst, pair_snd]
    | split
    | with_reducible apply Keep.set_rop

theorem State.coldAll_keep {s : State} {pools : List (BitVec 16)} : Keep s (State.coldAll s pools) [.jnl, .pools, .mbr, .sched, .out] := by
  unfold State.coldAll
  repeat' first
    | intro x_
    | with_reducible assumption
    | with_reducible apply Keep.refl
    | with_reducible apply Keep.app State.updPool_keep
    | with_reducible apply Keep.app State.coldAppend_keep
    | with_reducible apply Keep.each
    | decide
    | dsimp -proj only [pair_fst, pair_snd]
    | split

theorem State.sendYield_keep {s : State} {y : YieldSt} : Keep s (State.sendYield s y) [.pools, .rop, .out] := by
  unfold State.sendYield
  repeat' first
    | with_reducible assumption
    | with_reducible apply Keep.refl
    | with_reducible apply Keep.ite
    | with_reducible apply Keep.app State.sendSeq_keep
    | with_reducible exact Rop.lens_mk
    | (show (_ : List Nat) = _; first | with_reducible rfl | (simp [Rop.lens]; done) | rfl)
    | decide
    | dsimp -proj only [pair_fst, pair_snd]
    | split
    | with_reducible apply Keep.set_pools_rop

theorem State.flushAll_keep {s : State} {pools : List (BitVec 16)} : Keep s (State.flushAll s pools) [.mbr, .sched, .out] := by
  unfold State.flushAll
  repeat' first
    | intro x_
    | with_reducible assumption
    | with_reducible apply Keep.refl
    | with_reducible apply Keep.app State.sendNow_keep
    | with_reducible apply Keep.each
    | with_reducible apply Keep.fst (by assumption)
    | decide
    | dsimp -proj only [pair_fst, pair_snd]
    | split

theorem State.stepYield_keep {s : State} : Keep s (State.stepYield s) [.jnl, .pools, .mbr, .rop, .sched, .out] := by
  unfold State.stepYield
  repeat' first
    | intro x_
    | with_reducible assumption
    | with_reducible apply Keep.refl
    | with_reducible apply Keep.ite
    | with_reducible apply Keep.app State.coldAll_keep
    | with_reducible apply Keep.app State.sendYield_keep
    | with_reducible apply Keep.app State.flushAll_keep
    | with_reducible apply Keep.iff
    | with_reducible exact Rop.lens_mk
    | (show (_ : List Nat) = _; first | with_reducible rfl | (simp [Rop.lens]; done) | rfl)
    | decide
    | dsimp -proj only [pair_fst, pair_snd]
    | split
    | with_reducible apply Keep.set_rop

theorem State.handback_keep {s : State} {pid : BitVec 16} : Keep s (State.handback s pid) [.qe, .ord, .rop, .hif, .out] := by
  unfold State.handback
  repeat' first
    | with_reducible assumption
    | with_reducible apply Keep.refl
    | with_reducible apply Keep.ite
    | with_reducible apply Keep.app State.startYield_keep
    | decide
    | dsimp -proj only [pair_fst, pair_snd]
    | split

theorem State.handbacks_keep {s : State} : Keep s (State.handbacks s) [.qe, .ord, .pools, .rop, .hif, .out] := by
  unfold State.handbacks
  repeat' first
    | intro x_
    | with_reducible assumption
    | with_reducible apply Keep.refl
    | with_reducible apply Keep.ite
    | with_reducible apply Keep.app State.handback_keep
    | with_reducible apply Keep.each
    | decide
    | dsimp -proj only [pair_fst, pair_snd]
    | split
    | with_reducible apply Keep.set_pools

theorem State.endAll_keep {s : State} {who : Cmd → Bool} {st : Stat} : Keep s (State.endAll s who st) [.ord, .cch, .jnl] := by
  unfold State.endAll
  repeat' first
    | intro x_
    | with_reducible assumption
    | with_reducible apply Keep.refl
    | with_reducible apply Keep.app State.updCmd_keep
    | with_reducible apply Keep.app State.failUnjournalled_keep
    | with_reducible apply Keep.app State.endCmd_keep
    | with_reducible apply Keep.app State.unhold_keep
    | with_reducible apply Keep.each
    | decide
    | dsimp -proj only [pair_fst, pair_snd]
    | split

theorem State.activated_keep {s : State} : Keep s (State.activated s) [.regs, .qe, .mgt, .out] := by
  unfold State.activated
  repeat' first
    | with_reducible assumption
    | with_reducible apply Keep.refl
    | with_reducible apply Keep.app State.admDone_keep
    | with_reducible exact ⟨Mgt.slots_mk, Mgt.dir_mk, Mgt.dirNvm_mk⟩
    | with_reducible exact Mgt.staging_mk
    | with_reducible exact Mgt.lens_mk
    | (show (_ : List Nat) = _; first | with_reducible rfl | (simp [Mgt.lens]; done) | rfl)
    | decide
    | dsimp -proj only [pair_fst, pair_snd]
    | split
    | with_reducible apply Keep.set_mgt

theorem State.dropPool_keep {s : State} {pid : BitVec 16} : Keep s (State.dropPool s pid) [.cch, .jnl, .pools, .seq, .mbr, .rop] := by
  unfold State.dropPool
  repeat' first
    | intro x_
    | with_reducible assumption
    | with_reducible apply Keep.refl
    | with_reducible apply Keep.app State.purgeVol_keep
    | with_reducible apply Keep.each
    | with_reducible exact Rop.lens_mk
    | with_reducible exact Mbr.lens_mk
    | (show (_ : List Nat) = _; first | with_reducible rfl | (simp [Rop.lens, Mbr.lens]; done) | rfl)
    | decide
    | dsimp -proj only [pair_fst, pair_snd]
    | split
    | with_reducible apply Keep.set_cch_pools_seq_mbr_rop

theorem State.movePool_keep {s : State} {pid : BitVec 16} {owner : BitVec 12} : Keep s (State.movePool s pid owner) [.qe, .ord, .cch, .jnl, .pools, .seq, .mbr, .rop, .hif, .out] := by
  unfold State.movePool
  repeat' first
    | intro x_
    | with_reducible assumption
    | with_reducible apply Keep.refl
    | with_reducible apply Keep.app State.refuseRequest_keep
    | with_reducible apply Keep.app State.dropPool_keep
    | with_reducible apply Keep.app State.endAll_keep
    | with_reducible apply Keep.each
    | decide
    | dsimp -proj only [pair_fst, pair_snd]
    | split

theorem State.honourYield_keep {s : State} : Keep s (State.honourYield s) [.regs, .qe, .ord, .cch, .jnl, .pools, .seq, .mbr, .rop, .hif, .mgt, .out] := by
  unfold State.honourYield
  repeat' first
    | intro x_
    | with_reducible assumption
    | with_reducible apply Keep.refl
    | with_reducible apply Keep.ite
    | with_reducible apply Keep.app State.activated_keep
    | with_reducible apply Keep.app State.setReg_keep
    | with_reducible apply Keep.app State.movePool_keep
    | with_reducible apply Keep.app State.endAll_keep
    | with_reducible apply Keep.each
    | with_reducible apply Keep.iff
    | with_reducible exact Rop.lens_mk
    | (show (_ : List Nat) = _; first | with_reducible rfl | (simp [Rop.lens]; done) | rfl)
    | decide
    | dsimp -proj only [pair_fst, pair_snd]
    | split
    | with_reducible apply Keep.set_rop
    | with_reducible apply Keep.set_qe

theorem State.dropYielded_keep {s : State} : Keep s (State.dropYielded s) [.qe, .ord, .cch, .jnl, .pools, .seq, .mbr, .rop, .hif, .out] := by
  unfold State.dropYielded
  repeat' first
    | intro x_
    | with_reducible assumption
    | with_reducible apply Keep.refl
    | with_reducible apply Keep.app State.movePool_keep
    | with_reducible apply Keep.each
    | decide
    | dsimp -proj only [pair_fst, pair_snd]
    | split

theorem State.updTake_keep {s : State} {pid : BitVec 16} {f : Takeover → Takeover} : Keep s (State.updTake s pid f) [.rop] := by
  unfold State.updTake
  repeat' first
    | with_reducible assumption
    | with_reducible apply Keep.refl
    | with_reducible exact Rop.lens_mk
    | (show (_ : List Nat) = _; first | with_reducible rfl | (simp [Rop.lens]; done) | rfl)
    | decide
    | dsimp -proj only [pair_fst, pair_snd]
    | split
    | with_reducible apply Keep.set_rop

theorem State.zoneReads_keep {s : State} {e : Nat × Nat} {pid : BitVec 16} {lba : Nat} {n : Nat} : Keep s (State.zoneReads s e pid lba n).1 [.mbr, .sched, .out] := by
  unfold State.zoneReads
  repeat' first
    | intro x_
    | with_reducible assumption
    | with_reducible apply Keep.refl
    | with_reducible apply Keep.app State.sendImg_keep
    | with_reducible apply Keep.foldl
    | with_reducible apply Keep.foldlFst
    | with_reducible apply Keep.fst (by assumption)
    | decide
    | dsimp -proj only [pair_fst, pair_snd]
    | split

theorem State.readTaken_keep {s : State} {t : Takeover} : Keep s (State.readTaken s t) [.mbr, .rop, .sched, .out] := by
  unfold State.readTaken
  repeat' first
    | intro x_
    | with_reducible assumption
    | with_reducible apply Keep.refl
    | with_reducible apply Keep.app State.updTake_keep
    | with_reducible apply Keep.app State.zoneReads_keep
    | with_reducible apply Keep.foldl
    | with_reducible apply Keep.foldlFst
    | with_reducible apply Keep.fst (by assumption)
    | decide
    | dsimp -proj only [pair_fst, pair_snd]
    | split

theorem State.publishTaken_keep {s : State} {t : Takeover} : Keep s (State.publishTaken s t) [.regs, .cch, .jnl, .pools, .rop, .evr, .out] := by
  unfold State.publishTaken
  repeat' first
    | with_reducible assumption
    | with_reducible apply Keep.refl
    | with_reducible apply Keep.ite
    | with_reducible apply Keep.app State.bump_keep
    | with_reducible apply Keep.app State.takeOver_keep
    | with_reducible apply Keep.app State.sendSeq_keep
    | with_reducible apply Keep.app State.log_keep
    | with_reducible exact Rop.lens_mk
    | (show (_ : List Nat) = _; first | with_reducible rfl | (simp [Rop.lens]; done) | rfl)
    | decide
    | dsimp -proj only [pair_fst, pair_snd]
    | split
    | with_reducible apply Keep.set_rop

theorem State.readMaps_keep {s : State} {t : Takeover} : Keep s (State.readMaps s t) [.mbr, .rop, .sched, .out] := by
  unfold State.readMaps
  repeat' first
    | intro x_
    | with_reducible assumption
    | with_reducible apply Keep.refl
    | with_reducible apply Keep.app State.updTake_keep
    | with_reducible apply Keep.app State.zoneReads_keep
    | with_reducible apply Keep.foldl
    | with_reducible apply Keep.foldlFst
    | with_reducible apply Keep.fst (by assumption)
    | decide
    | dsimp -proj only [pair_fst, pair_snd]
    | split

theorem State.stepTakeovers_keep {s : State} : Keep s (State.stepTakeovers s) [.regs, .cch, .jnl, .pools, .mbr, .rop, .evr, .sched, .out] := by
  unfold State.stepTakeovers
  repeat' first
    | intro x_
    | with_reducible assumption
    | with_reducible apply Keep.refl
    | with_reducible apply Keep.ite
    | with_reducible apply Keep.app State.readTaken_keep
    | with_reducible apply Keep.app State.updTake_keep
    | with_reducible apply Keep.app State.publishTaken_keep
    | with_reducible apply Keep.app State.readMaps_keep
    | with_reducible apply Keep.each
    | decide
    | dsimp -proj only [pair_fst, pair_snd]
    | split

theorem State.nextReports_keep {s : State} : Keep s (State.nextReports s) [.mbr, .rop, .sched, .out] := by
  unfold State.nextReports
  repeat' first
    | intro x_
    | with_reducible assumption
    | with_reducible apply Keep.refl
    | with_reducible apply Keep.app State.askReport_keep
    | with_reducible apply Keep.each
    | with_reducible exact Rop.lens_mk
    | (show (_ : List Nat) = _; first | with_reducible rfl | (simp [Rop.lens]; done) | rfl)
    | decide
    | dsimp -proj only [pair_fst, pair_snd]
    | split
    | with_reducible apply Keep.set_rop

theorem State.sendImgs_keep {s : State} {l : List (Nat × Nat)} {pool : BitVec 16} {op : MOp} {lba : Nat} {count : Nat} {purpose : MPurpose} : Keep s (State.sendImgs s l pool op lba count purpose).1 [.mbr, .sched, .out] := by
  unfold State.sendImgs
  repeat' first
    | intro x_
    | with_reducible assumption
    | with_reducible apply Keep.refl
    | with_reducible apply Keep.app State.sendImg_keep
    | with_reducible apply Keep.foldl
    | with_reducible apply Keep.foldlFst
    | with_reducible apply Keep.fst (by assumption)
    | decide
    | dsimp -proj only [pair_fst, pair_snd]
    | split

theorem State.startFence_keep {s : State} {pid : BitVec 16} {byYield : Bool} : Keep s (State.startFence s pid byYield) [.mbr, .rop, .sched, .out] := by
  unfold State.startFence
  repeat' first
    | with_reducible assumption
    | with_reducible apply Keep.refl
    | with_reducible apply Keep.ite
    | with_reducible apply Keep.app State.sendImgs_keep
    | with_reducible apply Keep.fst (by assumption)
    | with_reducible exact Rop.lens_mk
    | (show (_ : List Nat) = _; first | with_reducible rfl | (simp [Rop.lens]; done) | rfl)
    | decide
    | dsimp -proj only [pair_fst, pair_snd]
    | split
    | with_reducible apply Keep.set_rop

theorem State.startFencing_keep {s : State} {a : BitVec 12} : Keep s (State.startFencing s a) [.mbr, .rop, .sched, .out] := by
  unfold State.startFencing
  repeat' first
    | intro x_
    | with_reducible assumption
    | with_reducible apply Keep.refl
    | with_reducible apply Keep.app State.startFence_keep
    | with_reducible apply Keep.each
    | with_reducible exact Rop.lens_mk
    | (show (_ : List Nat) = _; first | with_reducible rfl | (simp [Rop.lens]; done) | rfl)
    | decide
    | dsimp -proj only [pair_fst, pair_snd]
    | split
    | with_reducible apply Keep.set_rop

theorem State.stepCheck_keep {s : State} {a : BitVec 12} : Keep s (State.stepCheck s a) [.mbr, .rop, .sched, .out] := by
  unfold State.stepCheck
  repeat' first
    | with_reducible assumption
    | with_reducible apply Keep.refl
    | with_reducible apply Keep.ite
    | with_reducible apply Keep.app State.startCheck_keep
    | with_reducible apply Keep.app State.nextReports_keep
    | with_reducible apply Keep.app State.startFencing_keep
    | decide
    | dsimp -proj only [pair_fst, pair_snd]
    | split

theorem State.suspect_keep {s : State} {a : BitVec 12} : Keep s (State.suspect s a) [.regs, .rop, .evr] := by
  unfold State.suspect
  repeat' first
    | with_reducible assumption
    | with_reducible apply Keep.refl
    | with_reducible apply Keep.ite
    | with_reducible apply Keep.app State.log_keep
    | with_reducible exact Rop.lens_mk
    | (show (_ : List Nat) = _; first | with_reducible rfl | (simp [Rop.lens]; done) | rfl)
    | decide
    | dsimp -proj only [pair_fst, pair_snd]
    | split
    | with_reducible apply Keep.set_rop

theorem State.fenceDone_keep {s : State} {a : BitVec 12} : Keep s (State.fenceDone s a) [.regs, .cch, .jnl, .rop, .evr] := by
  unfold State.fenceDone
  repeat' first
    | with_reducible assumption
    | with_reducible apply Keep.refl
    | with_reducible apply Keep.ite
    | with_reducible apply Keep.app State.log_keep
    | with_reducible apply Keep.app State.belayDown_keep
    | with_reducible exact Rop.lens_mk
    | (show (_ : List Nat) = _; first | with_reducible rfl | (simp [Rop.lens]; done) | rfl)
    | decide
    | dsimp -proj only [pair_fst, pair_snd]
    | split
    | with_reducible apply Keep.set_rop

theorem State.stepPartner_keep {s : State} : Keep s (State.stepPartner s) [.regs, .cch, .jnl, .mbr, .rop, .evr, .sched, .out] := by
  unfold State.stepPartner
  repeat' first
    | with_reducible assumption
    | with_reducible apply Keep.refl
    | with_reducible apply Keep.ite
    | with_reducible apply Keep.app State.setReg_keep
    | with_reducible apply Keep.app State.log_keep
    | with_reducible apply Keep.app State.stepCheck_keep
    | with_reducible apply Keep.app State.suspect_keep
    | with_reducible apply Keep.app State.fenceDone_keep
    | with_reducible apply Keep.app State.beginCheck_keep
    | with_reducible exact Rop.lens_mk
    | (show (_ : List Nat) = _; first | with_reducible rfl | (simp [Rop.lens]; done) | rfl)
    | decide
    | dsimp -proj only [pair_fst, pair_snd]
    | split
    | with_reducible apply Keep.set_rop

theorem State.ackIn_keep {s : State} {h : FrameHdr} {pools : List (BitVec 16)} : Keep s (State.ackIn s h pools) [.regs, .rop, .out] := by
  unfold State.ackIn
  repeat' first
    | intro x_
    | with_reducible assumption
    | with_reducible apply Keep.refl
    | with_reducible apply Keep.ite
    | with_reducible apply State.withSeq_keep
    | with_reducible exact Rop.lens_mk
    | (show (_ : List Nat) = _; first | with_reducible rfl | (simp [Rop.lens]; done) | rfl)
    | decide
    | dsimp -proj only [pair_fst, pair_snd]
    | split
    | with_reducible apply Keep.set_rop

theorem State.yieldIn_keep {s : State} {h : FrameHdr} {pools : List (BitVec 16)} : Keep s (State.yieldIn s h pools) [.regs, .mbr, .rop, .sched, .out] := by
  unfold State.yieldIn
  repeat' first
    | intro x_
    | with_reducible assumption
    | with_reducible apply Keep.refl
    | with_reducible apply Keep.ite
    | with_reducible apply State.withSeq_keep
    | with_reducible apply Keep.app State.startFence_keep
    | with_reducible apply Keep.each
    | decide
    | dsimp -proj only [pair_fst, pair_snd]
    | split

end Sys2Proof.Machine
end

