-- ==== Sys2Proof/Laws/KeepRope.lean ====
section
/-!
SUPPORT. What each operation of Machine/Rope.lean keeps: the parts of the state that it may write.
-/
namespace Sys2Proof.Machine

theorem State.withPartner_keep {s0 s : State} {ws : List Sec} {go : State → BitVec 12 → State} (hk : Keep s0 s ws) (hw : within [] ws = true) (h_go : ∀ v a0, Keep s0 v ws → Keep s0 (go v a0) ws) :
    Keep s0 (State.withPartner s go) ws := by
  unfold State.withPartner
  repeat' first
    | with_reducible assumption
    | with_reducible apply Keep.refl
    | with_reducible apply h_go
    | exact within_trans (by decide) hw
    | decide
    | dsimp -proj only [pair_fst, pair_snd]
    | split

theorem execPartnerCheck_keep {s : State} {t_ : State} (h : execPartnerCheck s = .next t_) : Keep s t_ [.mbr, .rop, .sched, .out] := by
  unfold execPartnerCheck at h
  try dsimp -proj only at h
  repeat' split at h
  all_goals
    injection h with h
    subst h
    repeat' first
      | intro x_
      | with_reducible assumption
      | with_reducible apply Keep.refl
      | with_reducible apply State.withPartner_keep
      | with_reducible apply Keep.app State.clr_keep
      | with_reducible apply Keep.app State.beginCheck_keep
      | decide
      | dsimp -proj only [pair_fst, pair_snd]
      | split

theorem execTakeoverAck_keep {h : FrameHdr} {pools : List (BitVec 16)} {s : State} {t_ : State} (h : execTakeoverAck h pools s = .next t_) : Keep s t_ [.regs, .rop, .out] := by
  unfold execTakeoverAck at h
  try dsimp -proj only at h
  repeat' split at h
  all_goals
    injection h with h
    subst h
    repeat' first
      | with_reducible assumption
      | with_reducible apply Keep.refl
      | with_reducible apply Keep.app State.clr_keep
      | with_reducible apply Keep.app State.ackIn_keep
      | decide
      | dsimp -proj only [pair_fst, pair_snd]
      | split

theorem execPartnerCheckRetry_keep {s : State} {t_ : State} (h : execPartnerCheckRetry s = .next t_) : Keep s t_ [.mbr, .rop, .sched, .out] := by
  unfold execPartnerCheckRetry at h
  try dsimp -proj only at h
  repeat' split at h
  all_goals
    injection h with h
    subst h
    repeat' first
      | intro x_
      | with_reducible assumption
      | with_reducible apply Keep.refl
      | with_reducible apply Keep.ite
      | with_reducible apply Keep.app State.stepCheck_keep
      | with_reducible apply State.withPartner_keep
      | with_reducible apply Keep.app State.clr_keep
      | decide
      | dsimp -proj only [pair_fst, pair_snd]
      | split

theorem execFwdReply_keep {h : FrameHdr} {fid : BitVec 64} {status : BitVec 16} {detail : BitVec 16} {result : BitVec 64} {acc : BitVec 32} {s : State} {t_ : State} (h : execFwdReply h fid status detail result acc s = .next t_) : Keep s t_ [.regs, .rop, .out] := by
  unfold execFwdReply at h
  try dsimp -proj only at h
  repeat' split at h
  all_goals
    injection h with h
    subst h
    repeat' first
      | with_reducible assumption
      | with_reducible apply Keep.refl
      | with_reducible apply Keep.app State.fwdReplyIn_keep
      | with_reducible apply Keep.app State.clr_keep
      | decide
      | dsimp -proj only [pair_fst, pair_snd]
      | split

theorem execSealNak_keep {h : FrameHdr} {tick : BitVec 64} {s : State} {t_ : State} (h : execSealNak h tick s = .next t_) : Keep s t_ [.regs, .jnl, .rop, .out] := by
  unfold execSealNak at h
  try dsimp -proj only at h
  repeat' split at h
  all_goals
    injection h with h
    subst h
    repeat' first
      | with_reducible assumption
      | with_reducible apply Keep.refl
      | with_reducible apply Keep.app State.sealNakIn_keep
      | with_reducible apply Keep.app State.clr_keep
      | decide
      | dsimp -proj only [pair_fst, pair_snd]
      | split

theorem execYieldFrame_keep {h : FrameHdr} {pools : List (BitVec 16)} {_lastSealed : BitVec 64} {s : State} {t_ : State} (h : execYieldFrame h pools _lastSealed s = .next t_) : Keep s t_ [.regs, .mbr, .rop, .sched, .out] := by
  unfold execYieldFrame at h
  try dsimp -proj only at h
  repeat' split at h
  all_goals
    injection h with h
    subst h
    repeat' first
      | with_reducible assumption
      | with_reducible apply Keep.refl
      | with_reducible apply Keep.app State.yieldIn_keep
      | with_reducible apply Keep.app State.clr_keep
      | decide
      | dsimp -proj only [pair_fst, pair_snd]
      | split

theorem execBelaySetup_keep {h : FrameHdr} {p : BelaySetupPayload} {s : State} {t_ : State} (h : execBelaySetup h p s = .next t_) : Keep s t_ [.regs, .rop, .evr, .out] := by
  unfold execBelaySetup at h
  try dsimp -proj only at h
  repeat' split at h
  all_goals
    injection h with h
    subst h
    repeat' first
      | with_reducible assumption
      | with_reducible apply Keep.refl
      | with_reducible apply Keep.app State.setupIn_keep
      | with_reducible apply Keep.app State.clr_keep
      | decide
      | dsimp -proj only [pair_fst, pair_snd]
      | split

theorem execBelaySetupRetry_keep {s : State} {t_ : State} (h : execBelaySetupRetry s = .next t_) : Keep s t_ [.regs, .jnl, .rop, .evr, .out] := by
  unfold execBelaySetupRetry at h
  try dsimp -proj only at h
  repeat' split at h
  all_goals
    injection h with h
    subst h
    repeat' first
      | with_reducible assumption
      | with_reducible apply Keep.refl
      | with_reducible apply Keep.app State.stepSetup_keep
      | with_reducible apply Keep.app State.clr_keep
      | decide
      | dsimp -proj only [pair_fst, pair_snd]
      | split

theorem execPathDownTimeout_keep {peer : BitVec 12} {path : Nat} {s : State} {t_ : State} (h : execPathDownTimeout peer path s = .next t_) : Keep s t_ [.regs, .rop, .out] := by
  unfold execPathDownTimeout at h
  try dsimp -proj only at h
  repeat' split at h
  all_goals
    injection h with h
    subst h
    repeat' first
      | with_reducible assumption
      | with_reducible apply Keep.refl
      | with_reducible apply Keep.app State.pathDown_keep
      | with_reducible apply Keep.app State.clr_keep
      | decide
      | dsimp -proj only [pair_fst, pair_snd]
      | split

theorem execHandbackTimer_keep {pool : BitVec 16} {s : State} {t_ : State} (h : execHandbackTimer pool s = .next t_) : Keep s t_ [.qe, .ord, .rop, .hif, .out] := by
  unfold execHandbackTimer at h
  try dsimp -proj only at h
  repeat' split at h
  all_goals
    injection h with h
    subst h
    repeat' first
      | with_reducible assumption
      | with_reducible apply Keep.refl
      | with_reducible apply Keep.app State.handback_keep
      | with_reducible apply Keep.app State.clr_keep
      | decide
      | dsimp -proj only [pair_fst, pair_snd]
      | split

theorem execDirClaim_keep {h : FrameHdr} {vol : BitVec 12} {claimant : BitVec 12} {answer : Option Bool} {s : State} {t_ : State} (h : execDirClaim h vol claimant answer s = .next t_) : Keep s t_ [.regs, .rop, .out] := by
  unfold execDirClaim at h
  try dsimp -proj only at h
  repeat' split at h
  all_goals
    injection h with h
    subst h
    repeat' first
      | with_reducible assumption
      | with_reducible apply Keep.refl
      | with_reducible apply Keep.app State.claimIn_keep
      | with_reducible apply Keep.app State.clr_keep
      | decide
      | dsimp -proj only [pair_fst, pair_snd]
      | split

theorem execYieldSend_keep {s : State} {t_ : State} (h : execYieldSend s = .next t_) : Keep s t_ [.jnl, .pools, .mbr, .rop, .sched, .out] := by
  unfold execYieldSend at h
  try dsimp -proj only at h
  repeat' split at h
  all_goals
    injection h with h
    subst h
    repeat' first
      | with_reducible assumption
      | with_reducible apply Keep.refl
      | with_reducible apply Keep.app State.stepYield_keep
      | with_reducible apply Keep.app State.clr_keep
      | decide
      | dsimp -proj only [pair_fst, pair_snd]
      | split

theorem execPeerLostTimeout_keep {peer : BitVec 12} {s : State} {t_ : State} (h : execPeerLostTimeout peer s = .next t_) : Keep s t_ [.ord, .cch, .rop, .out] := by
  unfold execPeerLostTimeout at h
  try dsimp -proj only at h
  repeat' split at h
  all_goals
    injection h with h
    subst h
    repeat' first
      | with_reducible assumption
      | with_reducible apply Keep.refl
      | with_reducible apply Keep.app State.peerTimeout_keep
      | with_reducible apply Keep.app State.clr_keep
      | decide
      | dsimp -proj only [pair_fst, pair_snd]
      | split

theorem execPartnerSuspect_keep {s : State} {t_ : State} (h : execPartnerSuspect s = .next t_) : Keep s t_ [.regs, .rop, .evr, .out] := by
  unfold execPartnerSuspect at h
  try dsimp -proj only at h
  repeat' split at h
  all_goals
    injection h with h
    subst h
    repeat' first
      | intro x_
      | with_reducible assumption
      | with_reducible apply Keep.refl
      | with_reducible apply Keep.app State.suspect_keep
      | with_reducible apply State.withPartner_keep
      | with_reducible apply Keep.app State.clr_keep
      | decide
      | dsimp -proj only [pair_fst, pair_snd]
      | split

theorem execBelayRecords_keep {h : FrameHdr} {first : BitVec 32} {recs : List JRec} {s : State} {t_ : State} (h : execBelayRecords h first recs s = .next t_) : Keep s t_ [.regs, .rop, .out] := by
  unfold execBelayRecords at h
  try dsimp -proj only at h
  repeat' split at h
  all_goals
    injection h with h
    subst h
    repeat' first
      | with_reducible assumption
      | with_reducible apply Keep.refl
      | with_reducible apply Keep.app State.recordsIn_keep
      | with_reducible apply Keep.app State.clr_keep
      | decide
      | dsimp -proj only [pair_fst, pair_snd]
      | split

theorem execBelayConfirm_keep {h : FrameHdr} {tick : BitVec 64} {s : State} {t_ : State} (h : execBelayConfirm h tick s = .next t_) : Keep s t_ [.regs, .jnl, .rop, .out] := by
  unfold execBelayConfirm at h
  try dsimp -proj only at h
  repeat' split at h
  all_goals
    injection h with h
    subst h
    repeat' first
      | with_reducible assumption
      | with_reducible apply Keep.refl
      | with_reducible apply Keep.app State.confirmIn_keep
      | with_reducible apply Keep.app State.clr_keep
      | decide
      | dsimp -proj only [pair_fst, pair_snd]
      | split

theorem execFrameRetxTimeout_keep {peer : BitVec 12} {seq : BitVec 32} {s : State} {t_ : State} (h : execFrameRetxTimeout peer seq s = .next t_) : Keep s t_ [.regs, .ord, .cch, .jnl, .rop, .evr, .out] := by
  unfold execFrameRetxTimeout at h
  try dsimp -proj only at h
  repeat' split at h
  all_goals
    injection h with h
    subst h
    repeat' first
      | with_reducible assumption
      | with_reducible apply Keep.refl
      | with_reducible apply Keep.app State.retxOne_keep
      | with_reducible apply Keep.app State.clr_keep
      | decide
      | dsimp -proj only [pair_fst, pair_snd]
      | split

theorem execAnnounceSend_keep {s : State} {t_ : State} (h : execAnnounceSend s = .next t_) : Keep s t_ [.rop, .out] := by
  unfold execAnnounceSend at h
  try dsimp -proj only at h
  repeat' split at h
  all_goals
    injection h with h
    subst h
    repeat' first
      | with_reducible assumption
      | with_reducible apply Keep.refl
      | with_reducible apply Keep.app State.announceAll_keep
      | with_reducible apply Keep.app State.clr_keep
      | decide
      | dsimp -proj only [pair_fst, pair_snd]
      | split

theorem execBelayBlock_keep {h : FrameHdr} {slot : BitVec 64} {blk : Block} {s : State} {t_ : State} (h : execBelayBlock h slot blk s = .next t_) : Keep s t_ [.regs, .rop, .evr, .mgt, .out] := by
  unfold execBelayBlock at h
  try dsimp -proj only at h
  repeat' split at h
  all_goals
    injection h with h
    subst h
    repeat' first
      | with_reducible assumption
      | with_reducible apply Keep.refl
      | with_reducible apply Keep.app State.belayBlockIn_keep
      | with_reducible apply Keep.app State.clr_keep
      | decide
      | dsimp -proj only [pair_fst, pair_snd]
      | split

theorem execSealNakTimeout_keep {tick : BitVec 64} {s : State} {t_ : State} (h : execSealNakTimeout tick s = .next t_) : Keep s t_ [.regs, .cch, .jnl, .rop, .evr, .out] := by
  unfold execSealNakTimeout at h
  try dsimp -proj only at h
  repeat' split at h
  all_goals
    injection h with h
    subst h
    repeat' first
      | intro x_
      | with_reducible assumption
      | with_reducible apply Keep.refl
      | with_reducible apply Keep.app State.testSeal_keep
      | with_reducible apply State.withPartner_keep
      | with_reducible apply Keep.app State.clr_keep
      | with_reducible apply Keep.each
      | decide
      | dsimp -proj only [pair_fst, pair_snd]
      | split

theorem execWinNak_keep {h : FrameHdr} {seq : BitVec 32} {_slot : BitVec 64} {s : State} {t_ : State} (h : execWinNak h seq _slot s = .next t_) : Keep s t_ [.regs, .rop, .out] := by
  unfold execWinNak at h
  try dsimp -proj only at h
  repeat' split at h
  all_goals
    injection h with h
    subst h
    repeat' first
      | with_reducible assumption
      | with_reducible apply Keep.refl
      | with_reducible apply Keep.app State.winNakIn_keep
      | with_reducible apply Keep.app State.clr_keep
      | decide
      | dsimp -proj only [pair_fst, pair_snd]
      | split

theorem execDirUpdate_keep {h : FrameHdr} {es : List DirEntry} {s : State} {t_ : State} (h : execDirUpdate h es s = .next t_) : Keep s t_ [.regs, .rop, .out] := by
  unfold execDirUpdate at h
  try dsimp -proj only at h
  repeat' split at h
  all_goals
    injection h with h
    subst h
    repeat' first
      | with_reducible assumption
      | with_reducible apply Keep.refl
      | with_reducible apply Keep.app State.dirUpdateIn_keep
      | with_reducible apply Keep.app State.clr_keep
      | decide
      | dsimp -proj only [pair_fst, pair_snd]
      | split

theorem execFwdData_keep {h : FrameHdr} {fid : BitVec 64} {off : Nat} {blocks : List Block} {s : State} {t_ : State} (h : execFwdData h fid off blocks s = .next t_) : Keep s t_ [.regs, .ord, .rop, .evr, .mgt, .out] := by
  unfold execFwdData at h
  try dsimp -proj only at h
  repeat' split at h
  all_goals
    injection h with h
    subst h
    repeat' first
      | with_reducible assumption
      | with_reducible apply Keep.refl
      | with_reducible apply Keep.app State.clr_keep
      | with_reducible apply Keep.app State.fwdDataIn_keep
      | decide
      | dsimp -proj only [pair_fst, pair_snd]
      | split

theorem execFwdCmd_keep {h : FrameHdr} {fid : BitVec 64} {port : PciePort} {qid : BitVec 16} {tag : BitVec 16} {entry : List RingUnit} {s : State} {t_ : State} (h : execFwdCmd h fid port qid tag entry s = .next t_) : Keep s t_ [.regs, .rop, .out] := by
  unfold execFwdCmd at h
  try dsimp -proj only at h
  repeat' split at h
  all_goals
    injection h with h
    subst h
    repeat' first
      | with_reducible assumption
      | with_reducible apply Keep.refl
      | with_reducible apply Keep.app State.fwdCmdIn_keep
      | with_reducible apply Keep.app State.clr_keep
      | decide
      | dsimp -proj only [pair_fst, pair_snd]
      | split

theorem execBelaySeal_keep {h : FrameHdr} {r : SealRec} {s : State} {t_ : State} (h : execBelaySeal h r s = .next t_) : Keep s t_ [.regs, .rop, .out] := by
  unfold execBelaySeal at h
  try dsimp -proj only at h
  repeat' split at h
  all_goals
    injection h with h
    subst h
    repeat' first
      | with_reducible assumption
      | with_reducible apply Keep.refl
      | with_reducible apply Keep.app State.sealIn_keep
      | with_reducible apply Keep.app State.clr_keep
      | decide
      | dsimp -proj only [pair_fst, pair_snd]
      | split

theorem execPathUp_keep {peer : BitVec 12} {path : Nat} {s : State} {t_ : State} (h : execPathUp peer path s = .next t_) : Keep s t_ [.rop, .out] := by
  unfold execPathUp at h
  try dsimp -proj only at h
  repeat' split at h
  all_goals
    injection h with h
    subst h
    repeat' first
      | with_reducible assumption
      | with_reducible apply Keep.refl
      | with_reducible apply Keep.app State.pathUp_keep
      | with_reducible apply Keep.app State.clr_keep
      | decide
      | dsimp -proj only [pair_fst, pair_snd]
      | split

theorem execHeartbeat_keep {h : FrameHdr} {path : Nat} {p : HbPayload} {s : State} {t_ : State} (h : execHeartbeat h path p s = .next t_) : Keep s t_ [.regs, .rop, .mgt, .out] := by
  unfold execHeartbeat at h
  try dsimp -proj only at h
  repeat' split at h
  all_goals
    injection h with h
    subst h
    repeat' first
      | with_reducible assumption
      | with_reducible apply Keep.refl
      | with_reducible apply Keep.app State.etherFrame_keep
      | with_reducible apply Keep.app State.heartbeatIn_keep
      | with_reducible apply Keep.app State.clr_keep
      | decide
      | dsimp -proj only [pair_fst, pair_snd]
      | split

theorem execAnnounce_keep {h : FrameHdr} {serial : BitVec 128} {period : BitVec 3} {state : BitVec 8} {ips : List (BitVec 128)} {s : State} {t_ : State} (h : execAnnounce h serial period state ips s = .next t_) : Keep s t_ [.regs, .rop, .evr, .mgt, .out] := by
  unfold execAnnounce at h
  try dsimp -proj only at h
  repeat' split at h
  all_goals
    injection h with h
    subst h
    repeat' first
      | with_reducible assumption
      | with_reducible apply Keep.refl
      | with_reducible apply Keep.app State.announceIn_keep
      | with_reducible apply Keep.app State.clr_keep
      | decide
      | dsimp -proj only [pair_fst, pair_snd]
      | split

end Sys2Proof.Machine
end

