-- ==== Sys2Proof/Laws/KeepTime.lean ====
section
/-!
SUPPORT. What each operation of Machine/Time.lean keeps: the parts of the state that it may write.
-/
namespace Sys2Proof.Machine

theorem State.stamp_keep {s : State} : Keep s (State.stamp s).2 [.freeCtr] := by
  unfold State.stamp
  repeat' first
    | with_reducible assumption
    | with_reducible apply Keep.refl
    | with_reducible apply Keep.app State.freeWord_keep
    | with_reducible apply Keep.fst (by assumption)
    | with_reducible apply Keep.snd (by assumption)
    | decide
    | dsimp -proj only [pair_fst, pair_snd]
    | split

theorem State.sendSync_keep {s : State} : Keep s (State.sendSync s) [.tck, .freeCtr, .out] := by
  unfold State.sendSync
  repeat' first
    | intro x_
    | with_reducible assumption
    | with_reducible apply Keep.refl
    | with_reducible apply Keep.ite
    | with_reducible apply Keep.app State.stamp_keep
    | with_reducible apply Keep.app State.sendPlain_keep
    | with_reducible apply Keep.each
    | with_reducible apply Keep.fst (by assumption)
    | with_reducible apply Keep.snd (by assumption)
    | decide
    | dsimp -proj only [pair_fst, pair_snd]
    | split
    | with_reducible apply Keep.set_tck

theorem State.sendDelayReq_keep {s : State} : Keep s (State.sendDelayReq s) [.tck, .freeCtr, .out] := by
  unfold State.sendDelayReq
  repeat' first
    | with_reducible assumption
    | with_reducible apply Keep.refl
    | with_reducible apply Keep.ite
    | with_reducible apply Keep.app State.stamp_keep
    | with_reducible apply Keep.app State.sendPlain_keep
    | with_reducible apply Keep.fst (by assumption)
    | with_reducible apply Keep.snd (by assumption)
    | decide
    | dsimp -proj only [pair_fst, pair_snd]
    | split
    | with_reducible apply Keep.set_tck

theorem State.servo_keep {s : State} : Keep s (State.servo s) [.tck, .freeCtr] := by
  unfold State.servo
  repeat' first
    | with_reducible assumption
    | with_reducible apply Keep.refl
    | decide
    | dsimp -proj only [pair_fst, pair_snd]
    | split
    | with_reducible apply Keep.set_tck_freeCtr

theorem State.takeRef_keep {s : State} : Keep s (State.takeRef s) [.tck, .freeCtr] := by
  unfold State.takeRef
  repeat' first
    | intro x_
    | with_reducible assumption
    | with_reducible apply Keep.refl
    | with_reducible apply Keep.app State.servo_keep
    | with_reducible apply Keep.iff
    | decide
    | dsimp -proj only [pair_fst, pair_snd]
    | split
    | with_reducible apply Keep.set_tck

theorem State.adoptLocal_keep {s : State} : Keep s (State.adoptLocal s) [.tck, .freeCtr] := by
  unfold State.adoptLocal
  repeat' first
    | with_reducible assumption
    | with_reducible apply Keep.refl
    | with_reducible apply Keep.app State.takeRef_keep
    | decide
    | dsimp -proj only [pair_fst, pair_snd]
    | split
    | with_reducible apply Keep.set_tck

theorem State.chooseRef_keep {s : State} : Keep s (State.chooseRef s) [.tck, .freeCtr] := by
  unfold State.chooseRef
  repeat' first
    | with_reducible assumption
    | with_reducible apply Keep.refl
    | with_reducible apply Keep.ite
    | with_reducible apply Keep.app State.takeRef_keep
    | decide
    | dsimp -proj only [pair_fst, pair_snd]
    | split
    | with_reducible apply Keep.set_tck

theorem State.holdover_keep {s : State} : Keep s (State.holdover s) [.tck] := by
  unfold State.holdover
  repeat' first
    | with_reducible assumption
    | with_reducible apply Keep.refl
    | decide
    | dsimp -proj only [pair_fst, pair_snd]
    | split
    | with_reducible apply Keep.set_tck

theorem State.testSync_keep {s : State} : Keep s (State.testSync s) [.regs, .tck, .evr] := by
  unfold State.testSync
  repeat' first
    | with_reducible assumption
    | with_reducible apply Keep.refl
    | with_reducible apply Keep.ite
    | with_reducible apply Keep.app State.holdover_keep
    | with_reducible apply Keep.app State.log_keep
    | decide
    | dsimp -proj only [pair_fst, pair_snd]
    | split
    | with_reducible apply Keep.set_tck

theorem State.ppsUnlock_keep {s : State} : Keep s (State.ppsUnlock s) [.regs, .tck, .evr, .freeCtr] := by
  unfold State.ppsUnlock
  repeat' first
    | with_reducible assumption
    | with_reducible apply Keep.refl
    | with_reducible apply Keep.ite
    | with_reducible apply Keep.app State.chooseRef_keep
    | with_reducible apply Keep.app State.log_keep
    | decide
    | dsimp -proj only [pair_fst, pair_snd]
    | split
    | with_reducible apply Keep.set_tck

theorem State.ppsBad_keep {s : State} {sec : Nat} : Keep s (State.ppsBad s sec) [.regs, .tck, .evr, .freeCtr] := by
  unfold State.ppsBad
  repeat' first
    | intro x_
    | with_reducible assumption
    | with_reducible apply Keep.refl
    | with_reducible apply Keep.app State.ppsUnlock_keep
    | with_reducible apply Keep.iff
    | decide
    | dsimp -proj only [pair_fst, pair_snd]
    | split
    | with_reducible apply Keep.set_tck

theorem State.ppsEdge_keep {s : State} {before : Nat} : Keep s (State.ppsEdge s before) [.regs, .tck, .evr, .freeCtr, .out] := by
  unfold State.ppsEdge
  repeat' first
    | intro x_
    | with_reducible assumption
    | with_reducible apply Keep.refl
    | with_reducible apply Keep.app State.ppsBad_keep
    | with_reducible apply Keep.app State.emit_keep
    | with_reducible apply Keep.iff
    | decide
    | dsimp -proj only [pair_fst, pair_snd]
    | split
    | with_reducible apply Keep.set_tck

theorem State.advance_keep {s : State} : Keep s (State.advance s) [.regs, .tck, .evr, .freeCtr, .out] := by
  unfold State.advance
  repeat' first
    | with_reducible assumption
    | with_reducible apply Keep.refl
    | with_reducible apply Keep.app State.ppsEdge_keep
    | decide
    | dsimp -proj only [pair_fst, pair_snd]
    | split
    | with_reducible apply Keep.set_tck

theorem State.ppsPulse_keep {s : State} {t : Nat} : Keep s (State.ppsPulse s t) [.regs, .tck, .evr, .freeCtr] := by
  unfold State.ppsPulse
  repeat' first
    | intro x_
    | with_reducible assumption
    | with_reducible apply Keep.refl
    | with_reducible apply Keep.ite
    | with_reducible apply Keep.app State.chooseRef_keep
    | with_reducible apply Keep.app State.ppsBad_keep
    | with_reducible apply Keep.app State.servo_keep
    | with_reducible apply Keep.iff
    | decide
    | dsimp -proj only [pair_fst, pair_snd]
    | split
    | with_reducible apply Keep.set_tck

theorem execPpsInPulse_keep {at_ : Nat} {s : State} {t_ : State} (h : execPpsInPulse at_ s = .next t_) : Keep s t_ [.regs, .tck, .evr, .freeCtr, .out] := by
  unfold execPpsInPulse at h
  try dsimp -proj only at h
  repeat' split at h
  all_goals
    injection h with h
    subst h
    repeat' first
      | with_reducible assumption
      | with_reducible apply Keep.refl
      | with_reducible apply Keep.app State.ppsPulse_keep
      | with_reducible apply Keep.app State.clr_keep
      | decide
      | dsimp -proj only [pair_fst, pair_snd]
      | split

theorem execTimingMessagesMissing_keep {s : State} {t_ : State} (h : execTimingMessagesMissing s = .next t_) : Keep s t_ [.regs, .tck, .evr, .out] := by
  unfold execTimingMessagesMissing at h
  try dsimp -proj only at h
  repeat' split at h
  all_goals
    injection h with h
    subst h
    repeat' first
      | with_reducible assumption
      | with_reducible apply Keep.refl
      | with_reducible apply Keep.app State.testSync_keep
      | with_reducible apply Keep.app State.clr_keep
      | decide
      | dsimp -proj only [pair_fst, pair_snd]
      | split

theorem execDelayReqSend_keep {s : State} {t_ : State} (h : execDelayReqSend s = .next t_) : Keep s t_ [.tck, .freeCtr, .out] := by
  unfold execDelayReqSend at h
  try dsimp -proj only at h
  repeat' split at h
  all_goals
    injection h with h
    subst h
    repeat' first
      | with_reducible assumption
      | with_reducible apply Keep.refl
      | with_reducible apply Keep.app State.clr_keep
      | with_reducible apply Keep.app State.sendDelayReq_keep
      | decide
      | dsimp -proj only [pair_fst, pair_snd]
      | split

theorem State.stepTime_keep {s : State} {d : Int} : Keep s (State.stepTime s d) [.tck, .rop, .mgt] := by
  unfold State.stepTime
  repeat' first
    | with_reducible assumption
    | with_reducible apply Keep.refl
    | with_reducible exact ⟨Mgt.slots_mk, Mgt.dir_mk, Mgt.dirNvm_mk⟩
    | with_reducible exact Mgt.staging_mk
    | with_reducible exact Mgt.lens_mk
    | with_reducible exact Rop.lens_mk
    | (show (_ : List Nat) = _; first | with_reducible rfl | (simp [Mgt.lens, Rop.lens]; done) | rfl)
    | decide
    | dsimp -proj only [pair_fst, pair_snd]
    | split
    | with_reducible apply Keep.set_tck
    | with_reducible apply Keep.set_tck_rop_mgt

theorem State.split_keep {s : State} : Keep s (State.split s) [.regs, .tck, .evr] := by
  unfold State.split
  repeat' first
    | with_reducible assumption
    | with_reducible apply Keep.refl
    | with_reducible apply Keep.ite
    | with_reducible apply Keep.app State.log_keep
    | decide
    | dsimp -proj only [pair_fst, pair_snd]
    | split
    | with_reducible apply Keep.set_tck

theorem State.takeOffset_keep {s : State} {o : Int} : Keep s (State.takeOffset s o) [.regs, .tck, .rop, .evr, .mgt, .freeCtr] := by
  unfold State.takeOffset
  repeat' first
    | with_reducible assumption
    | with_reducible apply Keep.refl
    | with_reducible apply Keep.ite
    | with_reducible apply Keep.app State.setReg_keep
    | with_reducible apply Keep.app State.holdover_keep
    | with_reducible apply Keep.app State.log_keep
    | with_reducible apply Keep.app State.servo_keep
    | with_reducible apply Keep.app State.stepTime_keep
    | with_reducible apply Keep.app State.split_keep
    | decide
    | dsimp -proj only [pair_fst, pair_snd]
    | split
    | with_reducible apply Keep.set_tck

theorem State.delayRespIn_keep {s : State} {h : FrameHdr} {path : Nat} {t4 : Nat} : Keep s (State.delayRespIn s h path t4) [.regs, .tck, .rop, .evr, .mgt, .freeCtr, .out] := by
  unfold State.delayRespIn
  repeat' first
    | intro x_
    | with_reducible assumption
    | with_reducible apply Keep.refl
    | with_reducible apply Keep.ite
    | with_reducible apply Keep.app State.takeOffset_keep
    | with_reducible apply Keep.app State.onPath_keep
    | with_reducible apply Keep.app State.hear_keep
    | with_reducible apply State.withFrame_keep
    | decide
    | dsimp -proj only [pair_fst, pair_snd]
    | split
    | with_reducible apply Keep.set_tck

theorem execDelayResp_keep {h : FrameHdr} {path : Nat} {t4 : Nat} {s : State} {t_ : State} (h : execDelayResp h path t4 s = .next t_) : Keep s t_ [.regs, .tck, .rop, .evr, .mgt, .freeCtr, .out] := by
  unfold execDelayResp at h
  try dsimp -proj only at h
  repeat' split at h
  all_goals
    injection h with h
    subst h
    repeat' first
      | with_reducible assumption
      | with_reducible apply Keep.refl
      | with_reducible apply Keep.app State.etherFrame_keep
      | with_reducible apply Keep.app State.delayRespIn_keep
      | with_reducible apply Keep.app State.clr_keep
      | decide
      | dsimp -proj only [pair_fst, pair_snd]
      | split

theorem State.syncIn_keep {s : State} {h : FrameHdr} {path : Nat} {t1 : Nat} {t2 : Nat} {ref : BitVec 12} {pps : Bool} : Keep s (State.syncIn s h path t1 t2 ref pps) [.regs, .tck, .rop, .freeCtr, .out] := by
  unfold State.syncIn
  repeat' first
    | intro x_
    | with_reducible assumption
    | with_reducible apply Keep.refl
    | with_reducible apply Keep.ite
    | with_reducible apply Keep.app State.onPath_keep
    | with_reducible apply Keep.app State.chooseRef_keep
    | with_reducible apply Keep.app State.hear_keep
    | with_reducible apply State.withFrame_keep
    | decide
    | dsimp -proj only [pair_fst, pair_snd]
    | split
    | with_reducible apply Keep.set_tck

theorem execTimeSync_keep {h : FrameHdr} {path : Nat} {t1 : Nat} {t2 : Nat} {refAddr : BitVec 12} {pps : Bool} {s : State} {t_ : State} (h : execTimeSync h path t1 t2 refAddr pps s = .next t_) : Keep s t_ [.regs, .tck, .rop, .mgt, .freeCtr, .out] := by
  unfold execTimeSync at h
  try dsimp -proj only at h
  repeat' split at h
  all_goals
    injection h with h
    subst h
    repeat' first
      | with_reducible assumption
      | with_reducible apply Keep.refl
      | with_reducible apply Keep.app State.etherFrame_keep
      | with_reducible apply Keep.app State.syncIn_keep
      | with_reducible apply Keep.app State.clr_keep
      | decide
      | dsimp -proj only [pair_fst, pair_snd]
      | split

theorem execTimeSyncSend_keep {s : State} {t_ : State} (h : execTimeSyncSend s = .next t_) : Keep s t_ [.tck, .freeCtr, .out] := by
  unfold execTimeSyncSend at h
  try dsimp -proj only at h
  repeat' split at h
  all_goals
    injection h with h
    subst h
    repeat' first
      | with_reducible assumption
      | with_reducible apply Keep.refl
      | with_reducible apply Keep.app State.sendSync_keep
      | with_reducible apply Keep.app State.clr_keep
      | decide
      | dsimp -proj only [pair_fst, pair_snd]
      | split

theorem execPpsLost_keep {s : State} {t_ : State} (h : execPpsLost s = .next t_) : Keep s t_ [.regs, .tck, .evr, .freeCtr, .out] := by
  unfold execPpsLost at h
  try dsimp -proj only at h
  repeat' split at h
  all_goals
    injection h with h
    subst h
    repeat' first
      | with_reducible assumption
      | with_reducible apply Keep.refl
      | with_reducible apply Keep.app State.ppsUnlock_keep
      | with_reducible apply Keep.app State.clr_keep
      | decide
      | dsimp -proj only [pair_fst, pair_snd]
      | split

theorem State.delayReqIn_keep {s : State} {h : FrameHdr} {path : Nat} {t4 : Nat} : Keep s (State.delayReqIn s h path t4) [.regs, .rop, .out] := by
  unfold State.delayReqIn
  repeat' first
    | intro x_
    | with_reducible assumption
    | with_reducible apply Keep.refl
    | with_reducible apply Keep.ite
    | with_reducible apply Keep.app State.onPath_keep
    | with_reducible apply Keep.app State.hear_keep
    | with_reducible apply Keep.app State.sendPlain_keep
    | with_reducible apply State.withFrame_keep
    | decide
    | dsimp -proj only [pair_fst, pair_snd]
    | split

theorem execDelayReq_keep {h : FrameHdr} {path : Nat} {t4 : Nat} {s : State} {t_ : State} (h : execDelayReq h path t4 s = .next t_) : Keep s t_ [.regs, .rop, .mgt, .out] := by
  unfold execDelayReq at h
  try dsimp -proj only at h
  repeat' split at h
  all_goals
    injection h with h
    subst h
    repeat' first
      | with_reducible assumption
      | with_reducible apply Keep.refl
      | with_reducible apply Keep.app State.etherFrame_keep
      | with_reducible apply Keep.app State.clr_keep
      | with_reducible apply Keep.app State.delayReqIn_keep
      | decide
      | dsimp -proj only [pair_fst, pair_snd]
      | split

end Sys2Proof.Machine
end

