-- ==== Sys2Proof/Laws/KeepPower.lean ====
section
/-!
SUPPORT. What each operation of Machine/Power.lean keeps: the parts of the state that it may write.
-/
namespace Sys2Proof.Machine

theorem State.cold_keep {s : State} {n : Nat} : Keep s (State.cold s n) [.phase, .pins, .regs, .tck, .qe, .ord, .cch, .jnl, .cod, .pools, .seq, .fix, .dmv, .mbr, .rop, .hif, .vlt, .tru, .evr, .mgt, .sched] :=
  ⟨rfl, rfl, Nat.le_refl _, Nat.le_refl _, id,
   fun w => ⟨⟨w.pins.1, rfl⟩, rfl, w.vlt, ⟨w.mgt.1, w.mgt.2.1, w.mgt.2.2.1, rfl⟩, ⟨rfl, rfl⟩, rfl, ⟨rfl, rfl⟩, rfl, w.tru⟩, (by intro k hk; cases k <;> first | exact absurd (by decide) hk | exact rfl | exact ⟨rfl, rfl, rfl⟩)⟩

theorem State.enterReset_keep {s : State} {flushed : optParam Nat 0} : Keep s (State.enterReset s flushed) [.phase, .pins, .regs, .tck, .qe, .ord, .cch, .jnl, .cod, .pools, .seq, .fix, .dmv, .mbr, .rop, .hif, .vlt, .tru, .evr, .mgt, .sched] := by
  unfold State.enterReset
  repeat' first
    | with_reducible assumption
    | with_reducible apply Keep.refl
    | with_reducible apply Keep.app State.cold_keep
    | decide
    | dsimp -proj only [pair_fst, pair_snd]
    | split
    | with_reducible apply Keep.set_phase

theorem State.runSlot_keep {s : State} {slot : Nat} : Keep s (State.runSlot s slot) [.phase, .mgt] := by
  unfold State.runSlot
  repeat' first
    | with_reducible assumption
    | with_reducible apply Keep.refl
    | with_reducible exact ⟨Mgt.slots_mk, Mgt.dir_mk, Mgt.dirNvm_mk⟩
    | with_reducible exact Mgt.staging_mk
    | with_reducible exact Mgt.lens_mk
    | (show (_ : List Nat) = _; first | with_reducible rfl | (simp [Mgt.lens]; done) | rfl)
    | decide
    | dsimp -proj only [pair_fst, pair_snd]
    | split
    | with_reducible apply Keep.set_phase_mgt

theorem State.writeDir_keep {s : State} {f : Directory → Directory} (hv : ∀ d, (f d).valid.length = d.valid.length) : Keep s (State.writeDir s f) [.nvm, .mgt] := by
  unfold State.writeDir
  exact Keep.set_nvm (Keep.refl _ _) (by decide) rfl (by simp [Mgt.lens, hv])

/-- The directory that a start reads names two slots. -/
theorem dirAtStart_valid (cs : List (List Byte)) : (dirAtStart cs).1.valid.length = 2 := by
  have h : ∀ {bs : List Byte} {d : Directory}, dirOf bs = some d → d.valid.length = 2 := by
    intro bs d e
    unfold dirOf at e
    split at e
    · cases e; rfl
    · cases e
  unfold dirAtStart
  split
  · rename_i ha hb
    split
    · exact h hb
    · exact h ha
  · rename_i ha _; exact h ha
  · rename_i hb; exact h hb
  · rfl

theorem State.readDir_keep {s : State} : Keep s (State.readDir s) [.nvm, .mgt] :=
  ⟨rfl, rfl, Nat.le_refl _, Nat.le_refl _, id,
   fun w => ⟨w.pins, w.hif, w.vlt, ⟨w.mgt.1, dirAtStart_valid _, w.mgt.2.2.1, w.mgt.2.2.2⟩, w.evr, w.dmv, w.rop, w.mbr, w.tru⟩, (by intro k hk; cases k <;> first | exact absurd (by decide) hk | exact rfl | exact ⟨rfl, rfl, rfl⟩)⟩

theorem State.bootHalt_keep {s : State} {cause : Nat} : Keep s (State.bootHalt s cause) [.regs, .mgt] := by
  unfold State.bootHalt
  repeat' first
    | with_reducible assumption
    | with_reducible apply Keep.refl
    | with_reducible apply Keep.app State.setReg_keep
    | with_reducible exact ⟨Mgt.slots_mk, Mgt.dir_mk, Mgt.dirNvm_mk⟩
    | with_reducible exact Mgt.staging_mk
    | with_reducible exact Mgt.lens_mk
    | (show (_ : List Nat) = _; first | with_reducible rfl | (simp [Mgt.lens]; done) | rfl)
    | decide
    | dsimp -proj only [pair_fst, pair_snd]
    | split
    | with_reducible apply Keep.set_mgt

theorem State.slotFail_keep {s : State} {cause : Nat} : Keep s (State.slotFail s cause) [.phase, .regs, .evr, .mgt] := by
  unfold State.slotFail
  repeat' first
    | with_reducible assumption
    | with_reducible apply Keep.refl
    | with_reducible apply Keep.ite
    | with_reducible apply Keep.app State.bootHalt_keep
    | with_reducible apply Keep.app State.runSlot_keep
    | with_reducible apply Keep.app State.log_keep
    | with_reducible exact ⟨Mgt.slots_mk, Mgt.dir_mk, Mgt.dirNvm_mk⟩
    | with_reducible exact Mgt.staging_mk
    | with_reducible exact Mgt.lens_mk
    | (show (_ : List Nat) = _; first | with_reducible rfl | (simp [Mgt.lens]; done) | rfl)
    | decide
    | dsimp -proj only [pair_fst, pair_snd]
    | split
    | with_reducible apply Keep.set_mgt

theorem State.readyPorts_keep {s : State} : Keep s (State.readyPorts s) [.hif] := by
  unfold State.readyPorts
  repeat' first
    | with_reducible assumption
    | with_reducible apply Keep.refl
    | with_reducible exact Hif.lens_mk
    | (show (_ : List Nat) = _; first | with_reducible rfl | (simp [Hif.lens]; done) | rfl)
    | decide
    | dsimp -proj only [pair_fst, pair_snd]
    | split
    | with_reducible apply Keep.set_hif

theorem State.startBoot_keep {s : State} {dirOk : Bool} : Keep s (State.startBoot s dirOk) [.phase, .regs, .hif, .evr, .nvm, .mgt] := by
  unfold State.startBoot
  repeat' first
    | with_reducible assumption
    | with_reducible apply Keep.refl
    | with_reducible apply Keep.ite
    | with_reducible apply Keep.app State.runSlot_keep
    | with_reducible apply Keep.app (State.writeDir_keep ?_)
    | with_reducible apply Keep.app State.log_keep
    | with_reducible apply Keep.app State.readDir_keep
    | with_reducible apply Keep.app State.slotFail_keep
    | with_reducible apply Keep.app State.readyPorts_keep
    | with_reducible exact ⟨Mgt.slots_mk, Mgt.dir_mk, Mgt.dirNvm_mk⟩
    | with_reducible exact Mgt.staging_mk
    | with_reducible exact Mgt.lens_mk
    | (show (_ : List Nat) = _; first | with_reducible rfl | (simp [Mgt.lens]; done) | rfl)
    | (intro d_; show (_ : Nat) = _; first | rfl | exact List.length_set)
    | (show (_ : Nat) = _; first | exact List.length_set | rfl)
    | decide
    | dsimp -proj only [pair_fst, pair_snd]
    | split
    | with_reducible apply Keep.set_mgt

theorem State.vaultEdge_keep {s : State} : Keep s (State.vaultEdge s) [.regs, .vlt, .evr] := by
  unfold State.vaultEdge
  repeat' first
    | with_reducible assumption
    | with_reducible apply Keep.refl
    | with_reducible apply Keep.ite
    | with_reducible apply Keep.app State.log_keep
    | with_reducible exact Vlt.lens_mk
    | (show (_ : List Nat) = _; first | with_reducible rfl | (simp [Vlt.lens]; done) | rfl)
    | decide
    | dsimp -proj only [pair_fst, pair_snd]
    | split
    | with_reducible apply Keep.set_vlt

theorem State.startBivouac_keep {s : State} {cause : Nat} : Keep s (State.startBivouac s cause) [.phase, .regs, .vlt, .evr] := by
  unfold State.startBivouac
  repeat' first
    | with_reducible assumption
    | with_reducible apply Keep.refl
    | with_reducible apply Keep.app State.log_keep
    | with_reducible exact Vlt.lens_mk
    | (show (_ : List Nat) = _; first | with_reducible rfl | (simp [Vlt.lens]; done) | rfl)
    | decide
    | dsimp -proj only [pair_fst, pair_snd]
    | split
    | with_reducible apply Keep.set_phase_vlt

theorem execSysRstAsserted_keep {heldNs : Nat} {s : State} {t_ : State} (h : execSysRstAsserted heldNs s = .next t_) : Keep s t_ [.phase, .pins, .regs, .tck, .qe, .ord, .cch, .jnl, .cod, .pools, .seq, .fix, .dmv, .mbr, .rop, .hif, .vlt, .tru, .evr, .mgt, .sched, .out] := by
  unfold execSysRstAsserted at h
  try dsimp -proj only at h
  repeat' split at h
  all_goals
    injection h with h
    subst h
    repeat' first
      | with_reducible assumption
      | with_reducible apply Keep.refl
      | with_reducible apply Keep.ite
      | with_reducible apply Keep.app State.enterReset_keep
      | with_reducible apply Keep.app State.clr_keep
      | with_reducible exact Pins.lens_mk
      | (show (_ : List Nat) = _; first | with_reducible rfl | (simp [Pins.lens]; done) | rfl)
      | decide
      | dsimp -proj only [pair_fst, pair_snd]
      | split
      | with_reducible apply Keep.set_pins

theorem State.updFlush_keep {s : State} {g : Flush → Flush} : Keep s (State.updFlush s g) [.vlt] := by
  unfold State.updFlush
  repeat' first
    | with_reducible assumption
    | with_reducible apply Keep.refl
    | with_reducible exact Vlt.lens_mk
    | (show (_ : List Nat) = _; first | with_reducible rfl | (simp [Vlt.lens]; done) | rfl)
    | decide
    | dsimp -proj only [pair_fst, pair_snd]
    | split
    | with_reducible apply Keep.set_vlt

theorem State.sealed2_keep {s : State} {ms : Nat} {pages : Nat} {digest : BitVec 64} : Keep s (State.sealed2 s ms pages digest) [.phase, .vlt] := by
  unfold State.sealed2
  repeat' first
    | with_reducible assumption
    | with_reducible apply Keep.refl
    | with_reducible apply Keep.ite
    | with_reducible apply Keep.app State.updFlush_keep
    | decide
    | dsimp -proj only [pair_fst, pair_snd]
    | split
    | with_reducible apply Keep.set_phase

theorem execPhase2Written_keep {ms : Nat} {w : PhaseWrite} {s : State} {t_ : State} (h : execPhase2Written ms w s = .next t_) : Keep s t_ [.phase, .vlt, .out] := by
  unfold execPhase2Written at h
  try dsimp -proj only at h
  repeat' split at h
  all_goals
    injection h with h
    subst h
    repeat' first
      | with_reducible assumption
      | with_reducible apply Keep.refl
      | with_reducible apply Keep.app State.sealed2_keep
      | with_reducible apply Keep.app State.clr_keep
      | decide
      | dsimp -proj only [pair_fst, pair_snd]
      | split

theorem execPwrFailAsserted_keep {heldNs : Nat} {s : State} {t_ : State} (h : execPwrFailAsserted heldNs s = .next t_) : Keep s t_ [.phase, .pins, .regs, .vlt, .evr, .out] := by
  unfold execPwrFailAsserted at h
  try dsimp -proj only at h
  repeat' split at h
  all_goals
    injection h with h
    subst h
    repeat' first
      | with_reducible assumption
      | with_reducible apply Keep.refl
      | with_reducible apply Keep.ite
      | with_reducible apply Keep.app State.startBivouac_keep
      | with_reducible apply Keep.app State.clr_keep
      | with_reducible exact Pins.lens_mk
      | with_reducible exact Vlt.lens_mk
      | (show (_ : List Nat) = _; first | with_reducible rfl | (simp [Pins.lens, Vlt.lens]; done) | rfl)
      | decide
      | dsimp -proj only [pair_fst, pair_snd]
      | split
      | with_reducible apply Keep.set_pins
      | with_reducible apply Keep.set_vlt

theorem execRailsValid_keep {s : State} {t_ : State} (h : execRailsValid s = .next t_) : Keep s t_ [.phase, .pins, .regs, .tck, .qe, .ord, .cch, .jnl, .cod, .pools, .seq, .fix, .dmv, .mbr, .rop, .hif, .vlt, .tru, .evr, .mgt, .sched, .out] := by
  unfold execRailsValid at h
  try dsimp -proj only at h
  repeat' split at h
  all_goals
    injection h with h
    subst h
    repeat' first
      | with_reducible assumption
      | with_reducible apply Keep.refl
      | with_reducible apply Keep.ite
      | with_reducible apply Keep.app State.enterReset_keep
      | with_reducible apply Keep.app State.clr_keep
      | with_reducible exact Pins.lens_mk
      | (show (_ : List Nat) = _; first | with_reducible rfl | (simp [Pins.lens]; done) | rfl)
      | decide
      | dsimp -proj only [pair_fst, pair_snd]
      | split
      | with_reducible apply Keep.set_pins

theorem execPwrFailDeasserted_keep {s : State} {t_ : State} (h : execPwrFailDeasserted s = .next t_) : Keep s t_ [.phase, .pins, .regs, .tck, .qe, .ord, .cch, .jnl, .cod, .pools, .seq, .fix, .dmv, .mbr, .rop, .hif, .vlt, .tru, .evr, .mgt, .sched, .out] := by
  unfold execPwrFailDeasserted at h
  try dsimp -proj only at h
  repeat' split at h
  all_goals
    injection h with h
    subst h
    repeat' first
      | with_reducible assumption
      | with_reducible apply Keep.refl
      | with_reducible apply Keep.ite
      | with_reducible apply Keep.app State.enterReset_keep
      | with_reducible apply Keep.app State.clr_keep
      | with_reducible exact Pins.lens_mk
      | (show (_ : List Nat) = _; first | with_reducible rfl | (simp [Pins.lens]; done) | rfl)
      | decide
      | dsimp -proj only [pair_fst, pair_snd]
      | split
      | with_reducible apply Keep.set_pins

theorem State.offRelease_keep {s : State} {dirOk : Bool} : Keep s (State.offRelease s dirOk) [.phase, .pins, .regs, .tck, .qe, .ord, .cch, .jnl, .cod, .pools, .seq, .fix, .dmv, .mbr, .rop, .hif, .vlt, .tru, .evr, .nvm, .mgt, .sched] := by
  unfold State.offRelease
  repeat' first
    | with_reducible assumption
    | with_reducible apply Keep.refl
    | with_reducible apply Keep.ite
    | with_reducible apply Keep.app State.enterReset_keep
    | with_reducible apply Keep.app State.startBoot_keep
    | with_reducible exact ⟨Mgt.slots_mk, Mgt.dir_mk, Mgt.dirNvm_mk⟩
    | with_reducible exact Mgt.staging_mk
    | with_reducible exact Mgt.lens_mk
    | (show (_ : List Nat) = _; first | with_reducible rfl | (simp [Mgt.lens]; done) | rfl)
    | decide
    | dsimp -proj only [pair_fst, pair_snd]
    | split
    | with_reducible apply Keep.set_mgt

theorem execSysRstReleased_keep {slotSel : Bool} {testEnLow : Bool} {dirOk : Bool} {s : State} {t_ : State} (h : execSysRstReleased slotSel testEnLow dirOk s = .next t_) : Keep s t_ [.phase, .pins, .regs, .tck, .qe, .ord, .cch, .jnl, .cod, .pools, .seq, .fix, .dmv, .mbr, .rop, .hif, .vlt, .tru, .evr, .nvm, .mgt, .sched, .out] := by
  unfold execSysRstReleased at h
  try dsimp -proj only at h
  repeat' split at h
  all_goals
    injection h with h
    subst h
    repeat' first
      | with_reducible assumption
      | with_reducible apply Keep.refl
      | with_reducible apply Keep.ite
      | with_reducible apply Keep.app State.offRelease_keep
      | with_reducible apply Keep.app State.startBoot_keep
      | with_reducible apply Keep.app State.clr_keep
      | with_reducible exact Pins.lens_mk
      | (show (_ : List Nat) = _; first | with_reducible rfl | (simp [Pins.lens]; done) | rfl)
      | decide
      | dsimp -proj only [pair_fst, pair_snd]
      | split
      | with_reducible apply Keep.set_pins

theorem State.emergency_keep {s : State} {cause : Nat} : Keep s (State.emergency s cause) [.phase, .pins, .regs, .tck, .qe, .ord, .cch, .jnl, .cod, .pools, .seq, .fix, .dmv, .mbr, .rop, .hif, .vlt, .tru, .evr, .mgt, .sched] := by
  unfold State.emergency
  repeat' first
    | with_reducible assumption
    | with_reducible apply Keep.refl
    | with_reducible apply Keep.app State.startBivouac_keep
    | with_reducible apply Keep.app State.cold_keep
    | with_reducible exact Vlt.lens_mk
    | (show (_ : List Nat) = _; first | with_reducible rfl | (simp [Vlt.lens]; done) | rfl)
    | decide
    | dsimp -proj only [pair_fst, pair_snd]
    | split
    | with_reducible apply Keep.set_phase_vlt

theorem execSysClkLoss_keep {s : State} {t_ : State} (h : execSysClkLoss s = .next t_) : Keep s t_ [.phase, .pins, .regs, .tck, .qe, .ord, .cch, .jnl, .cod, .pools, .seq, .fix, .dmv, .mbr, .rop, .hif, .vlt, .tru, .evr, .mgt, .sched, .out] := by
  unfold execSysClkLoss at h
  try dsimp -proj only at h
  repeat' split at h
  all_goals
    injection h with h
    subst h
    repeat' first
      | with_reducible assumption
      | with_reducible apply Keep.refl
      | with_reducible apply Keep.ite
      | with_reducible apply Keep.app State.emergency_keep
      | with_reducible apply Keep.app State.clr_keep
      | with_reducible exact Pins.lens_mk
      | (show (_ : List Nat) = _; first | with_reducible rfl | (simp [Pins.lens]; done) | rfl)
      | decide
      | dsimp -proj only [pair_fst, pair_snd]
      | split
      | with_reducible apply Keep.set_pins

theorem State.dieFail_keep {s : State} {die : Nat} : Keep s (State.dieFail s die) [.regs, .vlt, .evr] := by
  unfold State.dieFail
  repeat' first
    | with_reducible assumption
    | with_reducible apply Keep.refl
    | with_reducible apply Keep.ite
    | with_reducible apply Keep.app State.log_keep
    | with_reducible exact Vlt.lens_mk
    | (show (_ : List Nat) = _; first | with_reducible rfl | (simp [Vlt.lens]; done) | rfl)
    | decide
    | dsimp -proj only [pair_fst, pair_snd]
    | split
    | with_reducible apply Keep.set_vlt

theorem execVaultEraseDone_keep {ok : Bool} {die : Nat} {s : State} {t_ : State} (h : execVaultEraseDone ok die s = .next t_) : Keep s t_ [.regs, .vlt, .evr, .out] := by
  unfold execVaultEraseDone at h
  try dsimp -proj only at h
  repeat' split at h
  all_goals
    injection h with h
    subst h
    repeat' first
      | with_reducible assumption
      | with_reducible apply Keep.refl
      | with_reducible apply Keep.ite
      | with_reducible apply Keep.app State.dieFail_keep
      | with_reducible apply Keep.app State.clr_keep
      | with_reducible exact Vlt.lens_mk
      | (show (_ : List Nat) = _; first | with_reducible rfl | (simp [Vlt.lens]; done) | rfl)
      | decide
      | dsimp -proj only [pair_fst, pair_snd]
      | split
      | with_reducible apply Keep.set_vlt

theorem execHold12vSample_keep {mv : BitVec 16} {s : State} {t_ : State} (h : execHold12vSample mv s = .next t_) : Keep s t_ [.vlt, .out] := by
  unfold execHold12vSample at h
  try dsimp -proj only at h
  repeat' split at h
  all_goals
    injection h with h
    subst h
    repeat' first
      | with_reducible assumption
      | with_reducible apply Keep.refl
      | with_reducible apply Keep.app State.clr_keep
      | with_reducible exact Vlt.lens_mk
      | (show (_ : List Nat) = _; first | with_reducible rfl | (simp [Vlt.lens]; done) | rfl)
      | decide
      | dsimp -proj only [pair_fst, pair_snd]
      | split
      | with_reducible apply Keep.set_vlt

theorem State.turnOff_keep {s : State} {flushed : Bool} : Keep s (State.turnOff s flushed) [.phase, .pins, .regs, .tck, .qe, .ord, .cch, .jnl, .cod, .pools, .seq, .fix, .dmv, .mbr, .rop, .hif, .vlt, .tru, .evr, .mgt, .sched] := by
  unfold State.turnOff
  repeat' first
    | with_reducible assumption
    | with_reducible apply Keep.refl
    | with_reducible apply Keep.ite
    | with_reducible apply Keep.app State.cold_keep
    | with_reducible exact Pins.lens_mk
    | (show (_ : List Nat) = _; first | with_reducible rfl | (simp [Pins.lens]; done) | rfl)
    | decide
    | dsimp -proj only [pair_fst, pair_snd]
    | split
    | with_reducible apply Keep.set_phase_pins

theorem State.holdLow_keep {s : State} : Keep s (State.holdLow s) [.phase, .pins, .regs, .tck, .qe, .ord, .cch, .jnl, .cod, .pools, .seq, .fix, .dmv, .mbr, .rop, .hif, .vlt, .tru, .evr, .mgt, .sched] := by
  unfold State.holdLow
  repeat' first
    | intro x_
    | with_reducible assumption
    | with_reducible apply Keep.refl
    | with_reducible apply Keep.app State.turnOff_keep
    | with_reducible apply Keep.iff
    | decide
    | dsimp -proj only [pair_fst, pair_snd]
    | split
    | with_reducible apply Keep.set_phase

theorem execHold12vLow_keep {s : State} {t_ : State} (h : execHold12vLow s = .next t_) : Keep s t_ [.phase, .pins, .regs, .tck, .qe, .ord, .cch, .jnl, .cod, .pools, .seq, .fix, .dmv, .mbr, .rop, .hif, .vlt, .tru, .evr, .mgt, .sched, .out] := by
  unfold execHold12vLow at h
  try dsimp -proj only at h
  repeat' split at h
  all_goals
    injection h with h
    subst h
    repeat' first
      | with_reducible assumption
      | with_reducible apply Keep.refl
      | with_reducible apply Keep.app State.holdLow_keep
      | with_reducible apply Keep.app State.clr_keep
      | decide
      | dsimp -proj only [pair_fst, pair_snd]
      | split

theorem State.sense_keep {s : State} {x : Sensor} {t : Int} : Keep s (State.sense s x t) [.pins, .temps] := by
  unfold State.sense
  repeat' first
    | with_reducible assumption
    | with_reducible apply Keep.refl
    | with_reducible apply Keep.ite
    | with_reducible exact Pins.lens_mk
    | (show (_ : List Nat) = _; first | with_reducible rfl | (simp [Pins.lens]; done) | rfl)
    | decide
    | dsimp -proj only [pair_fst, pair_snd]
    | split
    | with_reducible apply Keep.set_pins_temps

theorem execCriticalTemperature_keep {sensor : Sensor} {tempC : Int} {s : State} {t_ : State} (h : execCriticalTemperature sensor tempC s = .next t_) : Keep s t_ [.phase, .pins, .temps, .regs, .tck, .qe, .ord, .cch, .jnl, .cod, .pools, .seq, .fix, .dmv, .mbr, .rop, .hif, .vlt, .tru, .evr, .mgt, .sched, .out] := by
  unfold execCriticalTemperature at h
  try dsimp -proj only at h
  repeat' split at h
  all_goals
    injection h with h
    subst h
    repeat' first
      | with_reducible assumption
      | with_reducible apply Keep.refl
      | with_reducible apply Keep.ite
      | with_reducible apply Keep.app State.emergency_keep
      | with_reducible apply Keep.app State.sense_keep
      | with_reducible apply Keep.app State.clr_keep
      | decide
      | dsimp -proj only [pair_fst, pair_snd]
      | split

theorem execVaultProgramFail_keep {die : Nat} {s : State} {t_ : State} (h : execVaultProgramFail die s = .next t_) : Keep s t_ [.regs, .vlt, .evr, .out] := by
  unfold execVaultProgramFail at h
  try dsimp -proj only at h
  repeat' split at h
  all_goals
    injection h with h
    subst h
    repeat' first
      | with_reducible assumption
      | with_reducible apply Keep.refl
      | with_reducible apply Keep.app State.dieFail_keep
      | with_reducible apply Keep.app State.clr_keep
      | decide
      | dsimp -proj only [pair_fst, pair_snd]
      | split

theorem State.portsDown_keep {s : State} : Keep s (State.portsDown s) [.mbr, .rop] := by
  unfold State.portsDown
  repeat' first
    | with_reducible assumption
    | with_reducible apply Keep.refl
    | with_reducible exact Rop.lens_mk
    | with_reducible exact Mbr.lens_mk
    | (show (_ : List Nat) = _; first | with_reducible rfl | (simp [Rop.lens, Mbr.lens]; done) | rfl)
    | decide
    | dsimp -proj only [pair_fst, pair_snd]
    | split
    | with_reducible apply Keep.set_mbr_rop

theorem State.quiesced_keep {s : State} : Keep s (State.quiesced s) [.phase, .tck, .dmv, .mbr, .rop, .hif, .vlt, .tru] := by
  unfold State.quiesced
  repeat' first
    | intro x_
    | with_reducible assumption
    | with_reducible apply Keep.refl
    | with_reducible apply Keep.ite
    | with_reducible apply Keep.app State.portsDown_keep
    | with_reducible apply Keep.app State.holdover_keep
    | with_reducible apply Keep.iff
    | with_reducible exact Tru.fwFuses_mk
    | with_reducible exact Tru.idxFuses_mk
    | with_reducible exact Hif.lens_mk
    | with_reducible exact Vlt.lens_mk
    | with_reducible exact Dmv.lens_mk
    | with_reducible exact Tru.lens_mk
    | (show (_ : List Nat) = _; first | with_reducible rfl | (simp [Hif.lens, Vlt.lens, Dmv.lens, Tru.lens]; done) | rfl)
    | decide
    | dsimp -proj only [pair_fst, pair_snd]
    | split
    | with_reducible apply Keep.set_hif
    | with_reducible apply Keep.set_dmv_vlt_tru
    | with_reducible apply Keep.set_phase_vlt

theorem execQuiesceDone_keep {s : State} {t_ : State} (h : execQuiesceDone s = .next t_) : Keep s t_ [.phase, .tck, .dmv, .mbr, .rop, .hif, .vlt, .tru, .out] := by
  unfold execQuiesceDone at h
  try dsimp -proj only at h
  repeat' split at h
  all_goals
    injection h with h
    subst h
    repeat' first
      | with_reducible assumption
      | with_reducible apply Keep.refl
      | with_reducible apply Keep.app State.quiesced_keep
      | with_reducible apply Keep.app State.clr_keep
      | decide
      | dsimp -proj only [pair_fst, pair_snd]
      | split

theorem State.closeBivouac_keep {s : State} : Keep s (State.closeBivouac s) [.phase, .pins, .regs, .tck, .qe, .ord, .cch, .jnl, .cod, .pools, .seq, .fix, .dmv, .mbr, .rop, .hif, .vlt, .tru, .evr, .nvm, .mgt, .sched] := by
  unfold State.closeBivouac
  repeat' first
    | with_reducible assumption
    | with_reducible apply Keep.refl
    | with_reducible apply Keep.ite
    | with_reducible apply Keep.app State.offRelease_keep
    | with_reducible apply Keep.app State.enterReset_keep
    | with_reducible apply Keep.app State.saveEvents_keep
    | with_reducible apply Keep.app State.log_keep
    | with_reducible apply Keep.app State.turnOff_keep
    | with_reducible apply Keep.app State.startBoot_keep
    | with_reducible apply Keep.app State.cold_keep
    | with_reducible exact Vlt.lens_mk
    | (show (_ : List Nat) = _; first | with_reducible rfl | (simp [Vlt.lens]; done) | rfl)
    | decide
    | dsimp -proj only [pair_fst, pair_snd]
    | split
    | with_reducible apply Keep.set_phase
    | with_reducible apply Keep.set_phase_vlt

theorem execBivouacClose_keep {s : State} {t_ : State} (h : execBivouacClose s = .next t_) : Keep s t_ [.phase, .pins, .regs, .tck, .qe, .ord, .cch, .jnl, .cod, .pools, .seq, .fix, .dmv, .mbr, .rop, .hif, .vlt, .tru, .evr, .nvm, .mgt, .sched, .out] := by
  unfold execBivouacClose at h
  try dsimp -proj only at h
  repeat' split at h
  all_goals
    injection h with h
    subst h
    repeat' first
      | with_reducible assumption
      | with_reducible apply Keep.refl
      | with_reducible apply Keep.app State.closeBivouac_keep
      | with_reducible apply Keep.app State.clr_keep
      | decide
      | dsimp -proj only [pair_fst, pair_snd]
      | split

theorem execRailsFall_keep {s : State} {t_ : State} (h : execRailsFall s = .next t_) : Keep s t_ [.phase, .pins, .regs, .tck, .qe, .ord, .cch, .jnl, .cod, .pools, .seq, .fix, .dmv, .mbr, .rop, .hif, .vlt, .tru, .evr, .mgt, .sched, .out] := by
  unfold execRailsFall at h
  try dsimp -proj only at h
  repeat' split at h
  all_goals
    injection h with h
    subst h
    repeat' first
      | with_reducible assumption
      | with_reducible apply Keep.refl
      | with_reducible apply Keep.ite
      | with_reducible apply Keep.app State.cold_keep
      | with_reducible apply Keep.app State.clr_keep
      | with_reducible exact Pins.lens_mk
      | (show (_ : List Nat) = _; first | with_reducible rfl | (simp [Pins.lens]; done) | rfl)
      | decide
      | dsimp -proj only [pair_fst, pair_snd]
      | split
      | with_reducible apply Keep.set_pins
      | with_reducible apply Keep.set_phase

theorem execSensorWarning_keep {sensor : Sensor} {tempC : Int} {s : State} {t_ : State} (h : execSensorWarning sensor tempC s = .next t_) : Keep s t_ [.phase, .pins, .temps, .regs, .hif, .evr, .nvm, .mgt, .out] := by
  unfold execSensorWarning at h
  try dsimp -proj only at h
  repeat' split at h
  all_goals
    injection h with h
    subst h
    repeat' first
      | with_reducible assumption
      | with_reducible apply Keep.refl
      | with_reducible apply Keep.ite
      | with_reducible apply Keep.app State.sense_keep
      | with_reducible apply Keep.app State.startBoot_keep
      | with_reducible apply Keep.app State.clr_keep
      | decide
      | dsimp -proj only [pair_fst, pair_snd]
      | split

theorem State.sealed1_keep {s : State} {ms : Nat} {pages : Nat} {digest : BitVec 64} : Keep s (State.sealed1 s ms pages digest) [.phase, .vlt] := by
  unfold State.sealed1
  repeat' first
    | with_reducible assumption
    | with_reducible apply Keep.refl
    | with_reducible apply Keep.ite
    | with_reducible apply Keep.app State.updFlush_keep
    | decide
    | dsimp -proj only [pair_fst, pair_snd]
    | split
    | with_reducible apply Keep.set_phase

theorem execPhase1Written_keep {ms : Nat} {w : PhaseWrite} {s : State} {t_ : State} (h : execPhase1Written ms w s = .next t_) : Keep s t_ [.phase, .vlt, .out] := by
  unfold execPhase1Written at h
  try dsimp -proj only at h
  repeat' split at h
  all_goals
    injection h with h
    subst h
    repeat' first
      | with_reducible assumption
      | with_reducible apply Keep.refl
      | with_reducible apply Keep.app State.clr_keep
      | with_reducible apply Keep.app State.sealed1_keep
      | decide
      | dsimp -proj only [pair_fst, pair_snd]
      | split

end Sys2Proof.Machine
end

