-- ==== Sys2Proof/Laws/KeepRegs.lean ====
section
/-!
SUPPORT. What each operation of Machine/Regs.lean keeps: the parts of the state that it may write.
-/
namespace Sys2Proof.Machine

theorem State.ddtStep_keep {s : State} : Keep s (State.ddtStep s) [.hif] := by
  unfold State.ddtStep
  repeat' first
    | with_reducible assumption
    | with_reducible apply Keep.refl
    | with_reducible apply Keep.ite
    | with_reducible exact Hif.lens_mk
    | (show (_ : List Nat) = _; first | with_reducible rfl | (simp [Hif.lens]; done) | rfl)
    | decide
    | dsimp -proj only [pair_fst, pair_snd]
    | split
    | with_reducible apply Keep.set_hif

theorem State.trySet_keep {s t : State} {x : Snap} (h : State.trySet s x = .ok t) : Keep s t [.regs, .qe, .rop] := by
  unfold State.trySet at h
  try dsimp -proj only at h
  repeat' split at h
  all_goals first
    | (cases h; done)
    | skip
  all_goals
    cases h
    repeat' first
      | with_reducible assumption
      | with_reducible apply Keep.refl
      | with_reducible apply Keep.app State.setReg_keep
      | with_reducible apply Keep.app State.updSq_keep
      | with_reducible apply Keep.app State.makeRing_keep
      | decide
      | with_reducible apply Keep.set_wins
      | exact List.length_map _
      | rfl

theorem State.reject__keep {s : State} {src : Src} {code : Nat} {off : Nat} {val : Nat} : Keep s (State.reject_ s src code off val) [.regs] := by
  unfold State.reject_
  repeat' first
    | with_reducible assumption
    | with_reducible apply Keep.refl
    | with_reducible apply Keep.ite
    | with_reducible apply Keep.app State.setReg_keep
    | with_reducible apply Keep.app State.bump_keep
    | decide
    | dsimp -proj only [pair_fst, pair_snd]
    | split

theorem State.applySets_keep {s : State} : Keep s (State.applySets s) [.regs, .qe, .rop] := by
  unfold State.applySets
  repeat' first
    | intro x_
    | with_reducible assumption
    | with_reducible apply Keep.refl
    | with_reducible apply Keep.app State.setReg_keep
    | with_reducible apply Keep.app (State.trySet_keep (by assumption))
    | with_reducible apply Keep.app State.reject__keep
    | with_reducible apply Keep.each
    | decide
    | dsimp -proj only [pair_fst, pair_snd]
    | split
    | with_reducible apply Keep.set_regs

theorem State.applyShadows_keep {s : State} : Keep s (State.applyShadows s) [.regs] := by
  unfold State.applyShadows
  repeat' first
    | intro x_
    | with_reducible assumption
    | with_reducible apply Keep.refl
    | with_reducible apply Keep.ite
    | with_reducible apply Keep.app State.setReg_keep
    | with_reducible apply Keep.app State.reject__keep
    | with_reducible apply Keep.each
    | decide
    | dsimp -proj only [pair_fst, pair_snd]
    | split
    | with_reducible apply Keep.set_regs

theorem State.alerts_keep {s : State} : Keep s (State.alerts s) [.regs] := by
  unfold State.alerts
  repeat' first
    | with_reducible assumption
    | with_reducible apply Keep.refl
    | with_reducible apply Keep.ite
    | with_reducible apply Keep.app State.setReg_keep
    | decide
    | dsimp -proj only [pair_fst, pair_snd]
    | split

theorem State.stageWin_keep {s : State} {f : Fld} {v : Nat} : Keep s (State.stageWin s f v) [.rop] := by
  unfold State.stageWin
  repeat' first
    | with_reducible assumption
    | with_reducible apply Keep.refl
    | with_reducible exact Rop.lens_mk
    | (show (_ : List Nat) = _; first | with_reducible rfl | (simp [Rop.lens]; done) | rfl)
    | decide
    | dsimp -proj only [pair_fst, pair_snd]
    | split
    | with_reducible apply Keep.set_rop

theorem State.updInj_keep {s : State} {f : InjSlot → InjSlot} : Keep s (State.updInj s f) [.mgt] := by
  unfold State.updInj
  repeat' first
    | with_reducible assumption
    | with_reducible apply Keep.refl
    | with_reducible exact ⟨Mgt.slots_mk, Mgt.dir_mk, Mgt.dirNvm_mk⟩
    | with_reducible exact Mgt.staging_mk
    | with_reducible exact Mgt.lens_mk
    | (show (_ : List Nat) = _; first | with_reducible rfl | (simp [Mgt.lens]; done) | rfl)
    | decide
    | dsimp -proj only [pair_fst, pair_snd]
    | split
    | with_reducible apply Keep.set_mgt

theorem State.putField_keep {s : State} {src : Src} {f : Fld} {e : FSpec} {ix : Nat} {off : Nat} {v : Nat} {w : BitVec 32} : Keep s (State.putField s src f e ix off v w) [.regs, .rop, .mgt] := by
  unfold State.putField
  repeat' first
    | with_reducible assumption
    | with_reducible apply Keep.refl
    | with_reducible apply Keep.ite
    | with_reducible apply Keep.app State.stageWin_keep
    | with_reducible apply Keep.app State.updInj_keep
    | with_reducible apply Keep.app State.setReg_keep
    | decide
    | dsimp -proj only [pair_fst, pair_snd]
    | split
    | with_reducible apply Keep.set_regs

theorem State.snapSet_keep {s : State} {src : Src} {n : Nat} : Keep s (State.snapSet s src n) [.regs] := by
  unfold State.snapSet
  repeat' first
    | with_reducible assumption
    | with_reducible apply Keep.refl
    | with_reducible apply Keep.ite
    | decide
    | dsimp -proj only [pair_fst, pair_snd]
    | split
    | with_reducible apply Keep.set_regs

theorem State.writeField_keep {s : State} {src : Src} {off : Nat} {ix : Nat} {w : BitVec 32} {f : Fld} {e : FSpec} : Keep s (State.writeField s src off ix w f e) [.regs, .rop, .mgt] := by
  unfold State.writeField
  repeat' first
    | with_reducible assumption
    | with_reducible apply Keep.refl
    | with_reducible apply Keep.ite
    | with_reducible apply Keep.app State.putField_keep
    | with_reducible apply Keep.app State.reject__keep
    | with_reducible apply Keep.app State.snapSet_keep
    | decide
    | dsimp -proj only [pair_fst, pair_snd]
    | split

theorem State.writeWord_keep {s : State} {src : Src} {off : Nat} {w : BitVec 32} : Keep s (State.writeWord s src off w) [.regs, .rop, .mgt] := by
  unfold State.writeWord
  repeat' first
    | intro x_
    | with_reducible assumption
    | with_reducible apply Keep.refl
    | with_reducible apply Keep.ite
    | with_reducible apply Keep.app State.bump_keep
    | with_reducible apply Keep.app State.writeField_keep
    | with_reducible apply Keep.each
    | decide
    | dsimp -proj only [pair_fst, pair_snd]
    | split

theorem State.sendUnmasked_keep {s : State} {port : PciePort} {fn : Fn} : Keep s (State.sendUnmasked s port fn) [.hif, .out] := by
  unfold State.sendUnmasked
  repeat' first
    | intro x_
    | with_reducible assumption
    | with_reducible apply Keep.refl
    | with_reducible apply Keep.ite
    | with_reducible apply Keep.app State.updFn_keep
    | with_reducible apply Keep.app State.emit_keep
    | with_reducible apply Keep.each
    | decide
    | dsimp -proj only [pair_fst, pair_snd]
    | split

theorem State.writeMsix_keep {s : State} {port : PciePort} {fn : Fn} {off : Nat} {w : BitVec 32} : Keep s (State.writeMsix s port fn off w) [.hif, .out] := by
  unfold State.writeMsix
  repeat' first
    | with_reducible assumption
    | with_reducible apply Keep.refl
    | with_reducible apply Keep.ite
    | with_reducible apply Keep.app State.updFn_keep
    | with_reducible apply Keep.app State.sendUnmasked_keep
    | decide
    | dsimp -proj only [pair_fst, pair_snd]
    | split

theorem State.dropWrite_keep {s : State} {src : Src} {aer : Bool} : Keep s (State.dropWrite s src aer) [.regs, .out] := by
  unfold State.dropWrite
  repeat' first
    | with_reducible assumption
    | with_reducible apply Keep.refl
    | with_reducible apply Keep.ite
    | with_reducible apply Keep.app State.bump_keep
    | with_reducible apply Keep.app State.unsupported_keep
    | decide
    | dsimp -proj only [pair_fst, pair_snd]
    | split

theorem State.barWrite_keep {s : State} {src : Src} {fn : Fn} {off : Nat} {size : Nat} {data : BitVec 64} : Keep s (State.barWrite s src fn off size data) [.regs, .qe, .rop, .hif, .evr, .mgt, .out] := by
  unfold State.barWrite
  repeat' first
    | with_reducible assumption
    | with_reducible apply Keep.refl
    | with_reducible apply Keep.ite
    | with_reducible apply Keep.app State.writeWord_keep
    | with_reducible apply Keep.app State.ring_keep
    | with_reducible apply Keep.app State.writeMsix_keep
    | with_reducible apply Keep.app State.dropWrite_keep
    | with_reducible apply Keep.app State.writeCursor_keep
    | with_reducible apply Keep.app State.reject__keep
    | decide
    | dsimp -proj only [pair_fst, pair_snd]
    | split

theorem State.writeReg_keep {s : State} {src : Src} {fn : Fn} {off : Nat} {size : Nat} {data : BitVec 64} : Keep s (State.writeReg s src fn off size data) [.regs, .qe, .rop, .hif, .evr, .mgt, .out] := by
  unfold State.writeReg
  repeat' first
    | with_reducible assumption
    | with_reducible apply Keep.refl
    | with_reducible apply Keep.ite
    | with_reducible apply Keep.app State.barWrite_keep
    | with_reducible apply Keep.app State.unsupported_keep
    | decide
    | dsimp -proj only [pair_fst, pair_snd]
    | split

theorem execDmvPaceApply_keep {src : Src} {s : State} {t_ : State} (h : execDmvPaceApply src s = .next t_) : Keep s t_ [.regs, .qe, .rop, .hif, .evr, .mgt, .out] := by
  unfold execDmvPaceApply at h
  try dsimp -proj only at h
  repeat' split at h
  all_goals
    injection h with h
    subst h
    repeat' first
      | with_reducible assumption
      | with_reducible apply Keep.refl
      | with_reducible apply Keep.app State.writeReg_keep
      | with_reducible apply Keep.app State.clr_keep
      | decide
      | dsimp -proj only [pair_fst, pair_snd]
      | split

theorem execInjectDisarm_keep {s : State} {t_ : State} (h : execInjectDisarm s = .next t_) : Keep s t_ [.regs, .qe, .rop, .hif, .evr, .mgt, .out] := by
  unfold execInjectDisarm at h
  try dsimp -proj only at h
  repeat' split at h
  all_goals
    injection h with h
    subst h
    repeat' first
      | with_reducible assumption
      | with_reducible apply Keep.refl
      | with_reducible apply Keep.app State.writeReg_keep
      | with_reducible apply Keep.app State.clr_keep
      | decide
      | dsimp -proj only [pair_fst, pair_snd]
      | split

theorem execMctpBarWrite_keep {size : BitVec 8} {off : BitVec 32} {data : BitVec 64} {s : State} {t_ : State} (h : execMctpBarWrite size off data s = .next t_) : Keep s t_ [.regs, .qe, .rop, .hif, .evr, .mgt, .out] := by
  unfold execMctpBarWrite at h
  try dsimp -proj only at h
  repeat' split at h
  all_goals
    injection h with h
    subst h
    repeat' first
      | with_reducible assumption
      | with_reducible apply Keep.refl
      | with_reducible apply Keep.ite
      | with_reducible apply Keep.app State.writeReg_keep
      | with_reducible apply Keep.app State.clr_keep
      | with_reducible apply Keep.app State.emit_keep
      | decide
      | dsimp -proj only [pair_fst, pair_snd]
      | split

theorem State.portRegs_keep {s : State} {port : PciePort} : Keep s (State.portRegs s port) [.regs, .evr] := by
  unfold State.portRegs
  repeat' first
    | intro x_
    | with_reducible assumption
    | with_reducible apply Keep.refl
    | with_reducible apply Keep.foldl
    | with_reducible apply Keep.foldlFst
    | with_reducible apply Keep.fst (by assumption)
    | with_reducible exact Evr.lens_mk
    | (show (_ : List Nat) = _; first | with_reducible rfl | (simp [Evr.lens]; done) | rfl)
    | decide
    | dsimp -proj only [pair_fst, pair_snd]
    | split
    | with_reducible apply Keep.set_regs_evr

theorem execRopWinApply_keep {src : Src} {s : State} {t_ : State} (h : execRopWinApply src s = .next t_) : Keep s t_ [.regs, .qe, .rop, .hif, .evr, .mgt, .out] := by
  unfold execRopWinApply at h
  try dsimp -proj only at h
  repeat' split at h
  all_goals
    injection h with h
    subst h
    repeat' first
      | with_reducible assumption
      | with_reducible apply Keep.refl
      | with_reducible apply Keep.app State.writeReg_keep
      | with_reducible apply Keep.app State.clr_keep
      | decide
      | dsimp -proj only [pair_fst, pair_snd]
      | split

theorem execInjectArm_keep {s : State} {t_ : State} (h : execInjectArm s = .next t_) : Keep s t_ [.regs, .qe, .rop, .hif, .evr, .mgt, .out] := by
  unfold execInjectArm at h
  try dsimp -proj only at h
  repeat' split at h
  all_goals
    injection h with h
    subst h
    repeat' first
      | with_reducible assumption
      | with_reducible apply Keep.refl
      | with_reducible apply Keep.app State.writeReg_keep
      | with_reducible apply Keep.app State.clr_keep
      | decide
      | dsimp -proj only [pair_fst, pair_snd]
      | split

theorem execOvrStatClear_keep {src : Src} {mask : BitVec 5} {s : State} {t_ : State} (h : execOvrStatClear src mask s = .next t_) : Keep s t_ [.regs, .qe, .rop, .hif, .evr, .mgt, .out] := by
  unfold execOvrStatClear at h
  try dsimp -proj only at h
  repeat' split at h
  all_goals
    injection h with h
    subst h
    repeat' first
      | with_reducible assumption
      | with_reducible apply Keep.refl
      | with_reducible apply Keep.app State.writeReg_keep
      | with_reducible apply Keep.app State.clr_keep
      | decide
      | dsimp -proj only [pair_fst, pair_snd]
      | split

theorem State.readEffect_keep {s : State} {f : Fld} {e : FSpec} {ix : Nat} : Keep s (State.readEffect s f e ix) [.regs] := by
  unfold State.readEffect
  repeat' first
    | with_reducible assumption
    | with_reducible apply Keep.refl
    | with_reducible apply Keep.ite
    | with_reducible apply Keep.app State.setReg_keep
    | decide
    | dsimp -proj only [pair_fst, pair_snd]
    | split
    | with_reducible apply Keep.set_regs

theorem State.readWord_keep {s : State} {src : Src} {off : Nat} : Keep s (State.readWord s src off).2 [.regs] := by
  unfold State.readWord
  repeat' first
    | intro x_
    | with_reducible assumption
    | with_reducible apply Keep.refl
    | with_reducible apply Keep.ite
    | with_reducible apply Keep.app State.readEffect_keep
    | with_reducible apply Keep.each
    | with_reducible apply Keep.fst (by assumption)
    | decide
    | dsimp -proj only [pair_fst, pair_snd]
    | split

theorem State.barRead4_keep {s : State} {src : Src} {off : Nat} : Keep s (State.barRead4 s src off).2 [.regs] := by
  unfold State.barRead4
  repeat' first
    | with_reducible assumption
    | with_reducible apply Keep.refl
    | with_reducible apply Keep.ite
    | with_reducible apply Keep.app State.readWord_keep
    | with_reducible apply Keep.fst (by assumption)
    | with_reducible apply Keep.snd (by assumption)
    | decide
    | dsimp -proj only [pair_fst, pair_snd]
    | split

theorem State.barRead_keep {s : State} {src : Src} {off : Nat} {size : Nat} : Keep s (State.barRead s src off size).2 [.regs] := by
  unfold State.barRead
  repeat' first
    | with_reducible assumption
    | with_reducible apply Keep.refl
    | with_reducible apply Keep.ite
    | with_reducible apply Keep.app State.barRead4_keep
    | with_reducible apply Keep.fst (by assumption)
    | with_reducible apply Keep.snd (by assumption)
    | decide
    | dsimp -proj only [pair_fst, pair_snd]
    | split

theorem State.readReg_keep {s : State} {src : Src} {off : Nat} {size : Nat} : Keep s (State.readReg s src off size) [.regs, .tck, .freeCtr, .out] := by
  unfold State.readReg
  repeat' first
    | intro x_
    | with_reducible assumption
    | with_reducible apply Keep.refl
    | with_reducible apply Keep.ite
    | with_reducible apply Keep.app State.elapse_keep
    | with_reducible apply Keep.app State.barRead_keep
    | with_reducible apply Keep.app State.unsupported_keep
    | with_reducible apply Keep.app State.emit_keep
    | with_reducible apply Keep.iff
    | with_reducible apply Keep.fst (by assumption)
    | with_reducible apply Keep.snd (by assumption)
    | decide
    | dsimp -proj only [pair_fst, pair_snd]
    | split

theorem execRcRegisterRead_keep {src : Src} {off : BitVec 22} {s : State} {t_ : State} (h : execRcRegisterRead src off s = .next t_) : Keep s t_ [.regs, .tck, .freeCtr, .out] := by
  unfold execRcRegisterRead at h
  try dsimp -proj only at h
  repeat' split at h
  all_goals
    injection h with h
    subst h
    repeat' first
      | with_reducible assumption
      | with_reducible apply Keep.refl
      | with_reducible apply Keep.app State.readReg_keep
      | with_reducible apply Keep.app State.clr_keep
      | decide
      | dsimp -proj only [pair_fst, pair_snd]
      | split

theorem execEvrCursorWrite_keep {src : Src} {high : Bool} {size : Nat} {data : BitVec 64} {s : State} {t_ : State} (h : execEvrCursorWrite src high size data s = .next t_) : Keep s t_ [.regs, .qe, .rop, .hif, .evr, .mgt, .out] := by
  unfold execEvrCursorWrite at h
  try dsimp -proj only at h
  repeat' split at h
  all_goals
    injection h with h
    subst h
    repeat' first
      | with_reducible assumption
      | with_reducible apply Keep.refl
      | with_reducible apply Keep.ite
      | with_reducible apply Keep.app State.writeReg_keep
      | with_reducible apply Keep.app State.clr_keep
      | decide
      | dsimp -proj only [pair_fst, pair_snd]
      | split

theorem execCchWmApply_keep {src : Src} {s : State} {t_ : State} (h : execCchWmApply src s = .next t_) : Keep s t_ [.regs, .qe, .rop, .hif, .evr, .mgt, .out] := by
  unfold execCchWmApply at h
  try dsimp -proj only at h
  repeat' split at h
  all_goals
    injection h with h
    subst h
    repeat' first
      | with_reducible assumption
      | with_reducible apply Keep.refl
      | with_reducible apply Keep.app State.writeReg_keep
      | with_reducible apply Keep.app State.clr_keep
      | decide
      | dsimp -proj only [pair_fst, pair_snd]
      | split

theorem execGlbAlertClear_keep {src : Src} {mask : BitVec 4} {s : State} {t_ : State} (h : execGlbAlertClear src mask s = .next t_) : Keep s t_ [.regs, .qe, .rop, .hif, .evr, .mgt, .out] := by
  unfold execGlbAlertClear at h
  try dsimp -proj only at h
  repeat' split at h
  all_goals
    injection h with h
    subst h
    repeat' first
      | with_reducible assumption
      | with_reducible apply Keep.refl
      | with_reducible apply Keep.app State.writeReg_keep
      | with_reducible apply Keep.app State.clr_keep
      | decide
      | dsimp -proj only [pair_fst, pair_snd]
      | split

theorem execMctpBarRead_keep {size : BitVec 8} {off : BitVec 32} {s : State} {t_ : State} (h : execMctpBarRead size off s = .next t_) : Keep s t_ [.regs, .tck, .freeCtr, .out] := by
  unfold execMctpBarRead at h
  try dsimp -proj only at h
  repeat' split at h
  all_goals
    injection h with h
    subst h
    repeat' first
      | with_reducible assumption
      | with_reducible apply Keep.refl
      | with_reducible apply Keep.ite
      | with_reducible apply Keep.app State.readReg_keep
      | with_reducible apply Keep.app State.clr_keep
      | with_reducible apply Keep.app State.emit_keep
      | decide
      | dsimp -proj only [pair_fst, pair_snd]
      | split

theorem execRegisterWrite_keep {src : Src} {fn : Fn} {off : BitVec 22} {size : Nat} {data : BitVec 64} {s : State} {t_ : State} (h : execRegisterWrite src fn off size data s = .next t_) : Keep s t_ [.regs, .qe, .rop, .hif, .evr, .mgt, .out] := by
  unfold execRegisterWrite at h
  try dsimp -proj only at h
  repeat' split at h
  all_goals
    injection h with h
    subst h
    repeat' first
      | with_reducible assumption
      | with_reducible apply Keep.refl
      | with_reducible apply Keep.app State.writeReg_keep
      | with_reducible apply Keep.app State.clr_keep
      | decide
      | dsimp -proj only [pair_fst, pair_snd]
      | split

theorem execQeAdmApply_keep {port : PciePort} {s : State} {t_ : State} (h : execQeAdmApply port s = .next t_) : Keep s t_ [.regs, .qe, .rop, .hif, .evr, .mgt, .out] := by
  unfold execQeAdmApply at h
  try dsimp -proj only at h
  repeat' split at h
  all_goals
    injection h with h
    subst h
    repeat' first
      | with_reducible assumption
      | with_reducible apply Keep.refl
      | with_reducible apply Keep.ite
      | with_reducible apply Keep.app State.writeReg_keep
      | with_reducible apply Keep.app State.clr_keep
      | decide
      | dsimp -proj only [pair_fst, pair_snd]
      | split

theorem execSeqPaceApply_keep {src : Src} {s : State} {t_ : State} (h : execSeqPaceApply src s = .next t_) : Keep s t_ [.regs, .qe, .rop, .hif, .evr, .mgt, .out] := by
  unfold execSeqPaceApply at h
  try dsimp -proj only at h
  repeat' split at h
  all_goals
    injection h with h
    subst h
    repeat' first
      | with_reducible assumption
      | with_reducible apply Keep.refl
      | with_reducible apply Keep.app State.writeReg_keep
      | with_reducible apply Keep.app State.clr_keep
      | decide
      | dsimp -proj only [pair_fst, pair_snd]
      | split

theorem execErrlogClear_keep {src : Src} {s : State} {t_ : State} (h : execErrlogClear src s = .next t_) : Keep s t_ [.regs, .qe, .rop, .hif, .evr, .mgt, .out] := by
  unfold execErrlogClear at h
  try dsimp -proj only at h
  repeat' split at h
  all_goals
    injection h with h
    subst h
    repeat' first
      | with_reducible assumption
      | with_reducible apply Keep.refl
      | with_reducible apply Keep.app State.writeReg_keep
      | with_reducible apply Keep.app State.clr_keep
      | decide
      | dsimp -proj only [pair_fst, pair_snd]
      | split

theorem execLatchedPairRead_keep {src : Src} {off : BitVec 22} {s : State} {t_ : State} (h : execLatchedPairRead src off s = .next t_) : Keep s t_ [.regs, .tck, .freeCtr, .out] := by
  unfold execLatchedPairRead at h
  try dsimp -proj only at h
  repeat' split at h
  all_goals
    injection h with h
    subst h
    repeat' first
      | with_reducible assumption
      | with_reducible apply Keep.refl
      | with_reducible apply Keep.app State.readReg_keep
      | with_reducible apply Keep.app State.clr_keep
      | decide
      | dsimp -proj only [pair_fst, pair_snd]
      | split

end Sys2Proof.Machine
end

