-- ==== Sys2Proof/Laws/KeepHif.lean ====
section
/-!
SUPPORT. What each operation of Machine/Hif.lean keeps: the parts of the state that it may write.
-/
namespace Sys2Proof.Machine

theorem State.invalDone_keep {s : State} {port : PciePort} {which : Inval → Bool} : Keep s (State.invalDone s port which) [.regs, .hif, .out] := by
  unfold State.invalDone
  repeat' first
    | intro x_
    | with_reducible assumption
    | with_reducible apply Keep.refl
    | with_reducible apply Keep.app State.bump_keep
    | with_reducible apply Keep.app State.updHport_keep
    | with_reducible apply Keep.app State.emit_keep
    | with_reducible apply Keep.each
    | decide
    | dsimp -proj only [pair_fst, pair_snd]
    | split

theorem State.linkFactors_keep {s : State} : Keep s (State.linkFactors s) [.hif] := by
  unfold State.linkFactors
  repeat' first
    | with_reducible assumption
    | with_reducible apply Keep.refl
    | with_reducible apply Keep.ite
    | with_reducible exact Hif.lens_mk
    | (show (_ : List Nat) = _; first | with_reducible rfl | (simp [Hif.lens]; done) | rfl)
    | decide
    | dsimp -proj only [pair_fst, pair_snd]
    | split
    | with_reducible apply Keep.set_hif

theorem execPoisonedRequest_keep {port : PciePort} {s : State} {t_ : State} (h : execPoisonedRequest port s = .next t_) : Keep s t_ [.regs, .out] := by
  unfold execPoisonedRequest at h
  try dsimp -proj only at h
  repeat' split at h
  all_goals
    injection h with h
    subst h
    repeat' first
      | with_reducible assumption
      | with_reducible apply Keep.refl
      | with_reducible apply Keep.app State.bump_keep
      | with_reducible apply Keep.app State.clr_keep
      | with_reducible apply Keep.app State.emit_keep
      | decide
      | dsimp -proj only [pair_fst, pair_snd]
      | split

theorem execTagQuarantineExpiry_keep {port : PciePort} {tag : BitVec 14} {s : State} {t_ : State} (h : execTagQuarantineExpiry port tag s = .next t_) : Keep s t_ [.hif, .out] := by
  unfold execTagQuarantineExpiry at h
  try dsimp -proj only at h
  repeat' split at h
  all_goals
    injection h with h
    subst h
    repeat' first
      | with_reducible assumption
      | with_reducible apply Keep.refl
      | with_reducible apply Keep.app State.updHport_keep
      | with_reducible apply Keep.app State.clr_keep
      | decide
      | dsimp -proj only [pair_fst, pair_snd]
      | split

theorem State.lateCpl_keep {s : State} {port : PciePort} {tag : BitVec 14} : Keep s (State.lateCpl s port tag) [.regs, .out] := by
  unfold State.lateCpl
  repeat' first
    | with_reducible assumption
    | with_reducible apply Keep.refl
    | with_reducible apply Keep.ite
    | with_reducible apply Keep.app State.bump_keep
    | with_reducible apply Keep.app State.emit_keep
    | decide
    | dsimp -proj only [pair_fst, pair_snd]
    | split

theorem execUnexpectedCompletion_keep {port : PciePort} {tag : BitVec 14} {s : State} {t_ : State} (h : execUnexpectedCompletion port tag s = .next t_) : Keep s t_ [.regs, .out] := by
  unfold execUnexpectedCompletion at h
  try dsimp -proj only at h
  repeat' split at h
  all_goals
    injection h with h
    subst h
    repeat' first
      | with_reducible assumption
      | with_reducible apply Keep.refl
      | with_reducible apply Keep.app State.lateCpl_keep
      | with_reducible apply Keep.app State.clr_keep
      | decide
      | dsimp -proj only [pair_fst, pair_snd]
      | split

theorem execInvalidateCompletion_keep {port : PciePort} {fn : Fn} {itag : BitVec 5} {s : State} {t_ : State} (h : execInvalidateCompletion port fn itag s = .next t_) : Keep s t_ [.regs, .hif, .out] := by
  unfold execInvalidateCompletion at h
  try dsimp -proj only at h
  repeat' split at h
  all_goals
    injection h with h
    subst h
    repeat' first
      | with_reducible assumption
      | with_reducible apply Keep.refl
      | with_reducible apply Keep.app State.invalDone_keep
      | with_reducible apply Keep.app State.clr_keep
      | decide
      | dsimp -proj only [pair_fst, pair_snd]
      | split

theorem execMsixUnmask_keep {port : PciePort} {fn : Fn} {vector : Nat} {s : State} {t_ : State} (h : execMsixUnmask port fn vector s = .next t_) : Keep s t_ [.regs, .hif, .out] := by
  unfold execMsixUnmask at h
  try dsimp -proj only at h
  repeat' split at h
  all_goals
    injection h with h
    subst h
    repeat' first
      | with_reducible assumption
      | with_reducible apply Keep.refl
      | with_reducible apply Keep.ite
      | with_reducible apply Keep.app State.updFn_keep
      | with_reducible apply Keep.app State.sendUnmasked_keep
      | with_reducible apply Keep.app State.clr_keep
      | with_reducible apply Keep.app State.unsupported_keep
      | decide
      | dsimp -proj only [pair_fst, pair_snd]
      | split

theorem State.orphan_keep {s : State} {c : Cmd} : Keep s (State.orphan s c) [.ord, .cch, .jnl, .sched] := by
  unfold State.orphan
  repeat' first
    | with_reducible assumption
    | with_reducible apply Keep.refl
    | with_reducible apply Keep.ite
    | with_reducible apply Keep.app State.updCmd_keep
    | with_reducible apply Keep.app State.failUnjournalled_keep
    | with_reducible apply Keep.app State.failCmd_keep
    | with_reducible apply Keep.app State.endCmd_keep
    | with_reducible apply Keep.app State.unhold_keep
    | decide
    | dsimp -proj only [pair_fst, pair_snd]
    | split
    | with_reducible apply Keep.set_sched

theorem State.dropDescs_keep {s : State} {gone : Desc → Bool} : Keep s (State.dropDescs s gone) [.regs, .dmv, .hif, .evr, .out] := by
  unfold State.dropDescs
  repeat' first
    | intro x_
    | with_reducible assumption
    | with_reducible apply Keep.refl
    | with_reducible apply Keep.ite
    | with_reducible apply Keep.app State.setChan_keep
    | with_reducible apply Keep.app State.nextDesc_keep
    | with_reducible apply Keep.each
    | with_reducible exact Dmv.lens_mk
    | (show (_ : List Nat) = _; first | with_reducible rfl | (simp [Dmv.lens]; done) | rfl)
    | decide
    | dsimp -proj only [pair_fst, pair_snd]
    | split
    | with_reducible apply Keep.set_dmv

theorem State.removeRings_keep {s : State} {inScope : RingRef → Bool} : Keep s (State.removeRings s inScope) [.regs, .qe, .ord, .cch, .jnl, .dmv, .hif, .evr, .sched, .out] := by
  unfold State.removeRings
  repeat' first
    | intro x_
    | with_reducible assumption
    | with_reducible apply Keep.refl
    | with_reducible apply Keep.ite
    | with_reducible apply Keep.app State.bump_keep
    | with_reducible apply Keep.app State.dropRequest_keep
    | with_reducible apply Keep.app State.admDone_keep
    | with_reducible apply Keep.app State.orphan_keep
    | with_reducible apply Keep.app State.dropDescs_keep
    | with_reducible apply Keep.each
    | with_reducible apply Keep.foldl
    | with_reducible apply Keep.foldlFst
    | with_reducible apply Keep.fst (by assumption)
    | with_reducible exact Hif.lens_mk
    | (show (_ : List Nat) = _; first | with_reducible rfl | (simp [Hif.lens]; done) | rfl)
    | decide
    | dsimp -proj only [pair_fst, pair_snd]
    | split
    | with_reducible apply Keep.set_ord
    | with_reducible apply Keep.set_qe
    | with_reducible apply Keep.set_hif

theorem State.resetPort_keep {s : State} {port : PciePort} {ready : Bool} : Keep s (State.resetPort s port ready) [.regs, .qe, .ord, .cch, .jnl, .dmv, .hif, .evr, .sched, .out] := by
  unfold State.resetPort
  repeat' first
    | with_reducible assumption
    | with_reducible apply Keep.refl
    | with_reducible apply Keep.app State.setReg_keep
    | with_reducible apply Keep.app State.updHport_keep
    | with_reducible apply Keep.app State.portRegs_keep
    | with_reducible apply Keep.app State.removeRings_keep
    | decide
    | dsimp -proj only [pair_fst, pair_snd]
    | split

theorem execHifLinkDown_keep {port : PciePort} {s : State} {t_ : State} (h : execHifLinkDown port s = .next t_) : Keep s t_ [.regs, .qe, .ord, .cch, .jnl, .dmv, .hif, .evr, .sched, .out] := by
  unfold execHifLinkDown at h
  try dsimp -proj only at h
  repeat' split at h
  all_goals
    injection h with h
    subst h
    repeat' first
      | with_reducible assumption
      | with_reducible apply Keep.refl
      | with_reducible apply Keep.ite
      | with_reducible apply Keep.app State.bump_keep
      | with_reducible apply Keep.app State.resetPort_keep
      | with_reducible apply Keep.app State.log_keep
      | with_reducible apply Keep.app State.clr_keep
      | decide
      | dsimp -proj only [pair_fst, pair_snd]
      | split

theorem execHotReset_keep {port : PciePort} {s : State} {t_ : State} (h : execHotReset port s = .next t_) : Keep s t_ [.regs, .qe, .ord, .cch, .jnl, .dmv, .hif, .evr, .sched, .out] := by
  unfold execHotReset at h
  try dsimp -proj only at h
  repeat' split at h
  all_goals
    injection h with h
    subst h
    repeat' first
      | with_reducible assumption
      | with_reducible apply Keep.refl
      | with_reducible apply Keep.app State.resetPort_keep
      | with_reducible apply Keep.app State.clr_keep
      | decide
      | dsimp -proj only [pair_fst, pair_snd]
      | split

theorem State.trained_keep {s : State} {port : PciePort} {rate : Nat} {width : Nat} : Keep s (State.trained s port rate width) [.regs, .hif, .evr] := by
  unfold State.trained
  repeat' first
    | intro x_
    | with_reducible assumption
    | with_reducible apply Keep.refl
    | with_reducible apply Keep.ite
    | with_reducible apply Keep.app State.log_keep
    | with_reducible apply Keep.app State.updHport_keep
    | with_reducible apply Keep.iff
    | decide
    | dsimp -proj only [pair_fst, pair_snd]
    | split

theorem execLinkTrained_keep {port : PciePort} {rate : Nat} {width : Nat} {s : State} {t_ : State} (h : execLinkTrained port rate width s = .next t_) : Keep s t_ [.regs, .hif, .evr, .out] := by
  unfold execLinkTrained at h
  try dsimp -proj only at h
  repeat' split at h
  all_goals
    injection h with h
    subst h
    repeat' first
      | with_reducible assumption
      | with_reducible apply Keep.refl
      | with_reducible apply Keep.app State.trained_keep
      | with_reducible apply Keep.app State.clr_keep
      | decide
      | dsimp -proj only [pair_fst, pair_snd]
      | split

theorem State.clearPme_keep {s : State} {port : PciePort} {fn : Fn} {pmeEn : Bool} : Keep s (State.clearPme s port fn pmeEn) [.pins, .hif] := by
  unfold State.clearPme
  repeat' first
    | with_reducible assumption
    | with_reducible apply Keep.refl
    | with_reducible apply Keep.ite
    | with_reducible apply Keep.app State.updFn_keep
    | with_reducible exact Pins.lens_mk
    | (show (_ : List Nat) = _; first | with_reducible rfl | (simp [Pins.lens]; done) | rfl)
    | decide
    | dsimp -proj only [pair_fst, pair_snd]
    | split
    | with_reducible apply Keep.set_pins

theorem execPmeStatusClear_keep {port : PciePort} {fn : Fn} {pmeEn : Bool} {s : State} {t_ : State} (h : execPmeStatusClear port fn pmeEn s = .next t_) : Keep s t_ [.pins, .hif, .out] := by
  unfold execPmeStatusClear at h
  try dsimp -proj only at h
  repeat' split at h
  all_goals
    injection h with h
    subst h
    repeat' first
      | with_reducible assumption
      | with_reducible apply Keep.refl
      | with_reducible apply Keep.app State.clearPme_keep
      | with_reducible apply Keep.app State.clr_keep
      | decide
      | dsimp -proj only [pair_fst, pair_snd]
      | split

theorem State.invalidate_keep {s : State} {port : PciePort} {fn : Fn} {itag : BitVec 5} {page : BitVec 64} {log2 : Nat} : Keep s (State.invalidate s port fn itag page log2) [.regs, .hif, .out] := by
  unfold State.invalidate
  repeat' first
    | with_reducible assumption
    | with_reducible apply Keep.refl
    | with_reducible apply Keep.ite
    | with_reducible apply Keep.app State.invalDone_keep
    | with_reducible apply Keep.app State.updHport_keep
    | decide
    | dsimp -proj only [pair_fst, pair_snd]
    | split

theorem execInvalidateRequest_keep {port : PciePort} {fn : Fn} {itag : BitVec 5} {page : BitVec 64} {sizeLog2 : Nat} {_global : Bool} {s : State} {t_ : State} (h : execInvalidateRequest port fn itag page sizeLog2 _global s = .next t_) : Keep s t_ [.regs, .hif, .out] := by
  unfold execInvalidateRequest at h
  try dsimp -proj only at h
  repeat' split at h
  all_goals
    injection h with h
    subst h
    repeat' first
      | with_reducible assumption
      | with_reducible apply Keep.refl
      | with_reducible apply Keep.app State.invalidate_keep
      | with_reducible apply Keep.app State.clr_keep
      | decide
      | dsimp -proj only [pair_fst, pair_snd]
      | split

theorem State.resetFn_keep {s : State} {port : PciePort} {fn : Fn} : Keep s (State.resetFn s port fn) [.regs, .qe, .ord, .cch, .jnl, .dmv, .hif, .evr, .sched, .out] := by
  unfold State.resetFn
  repeat' first
    | with_reducible assumption
    | with_reducible apply Keep.refl
    | with_reducible apply Keep.ite
    | with_reducible apply Keep.app State.setReg_keep
    | with_reducible apply Keep.app State.updFn_keep
    | with_reducible apply Keep.app State.updHport_keep
    | with_reducible apply Keep.app State.portRegs_keep
    | with_reducible apply Keep.app State.removeRings_keep
    | decide
    | dsimp -proj only [pair_fst, pair_snd]
    | split

theorem execFlr_keep {port : PciePort} {fn : Fn} {s : State} {t_ : State} (h : execFlr port fn s = .next t_) : Keep s t_ [.regs, .qe, .ord, .cch, .jnl, .dmv, .hif, .evr, .sched, .out] := by
  unfold execFlr at h
  try dsimp -proj only at h
  repeat' split at h
  all_goals
    injection h with h
    subst h
    repeat' first
      | with_reducible assumption
      | with_reducible apply Keep.refl
      | with_reducible apply Keep.app State.resetFn_keep
      | with_reducible apply Keep.app State.clr_keep
      | decide
      | dsimp -proj only [pair_fst, pair_snd]
      | split

theorem State.config_keep {s : State} {port : PciePort} {fn : Fn} {c : FnCfg} : Keep s (State.config s port fn c) [.regs, .hif, .out] := by
  unfold State.config
  repeat' first
    | intro x_
    | with_reducible assumption
    | with_reducible apply Keep.refl
    | with_reducible apply Keep.ite
    | with_reducible apply Keep.app State.setReg_keep
    | with_reducible apply Keep.app State.updFn_keep
    | with_reducible apply Keep.app State.sendUnmasked_keep
    | with_reducible apply Keep.app State.updHport_keep
    | with_reducible apply Keep.iff
    | decide
    | dsimp -proj only [pair_fst, pair_snd]
    | split

theorem execMpsWrite_keep {port : PciePort} {fn : Fn} {cfg : FnCfg} {s : State} {t_ : State} (h : execMpsWrite port fn cfg s = .next t_) : Keep s t_ [.regs, .hif, .out] := by
  unfold execMpsWrite at h
  try dsimp -proj only at h
  repeat' split at h
  all_goals
    injection h with h
    subst h
    repeat' first
      | with_reducible assumption
      | with_reducible apply Keep.refl
      | with_reducible apply Keep.app State.config_keep
      | with_reducible apply Keep.app State.clr_keep
      | decide
      | dsimp -proj only [pair_fst, pair_snd]
      | split

theorem State.pmcsr_keep {s : State} {port : PciePort} {fn : Fn} {d3 : Bool} {pmeEn : Bool} : Keep s (State.pmcsr s port fn d3 pmeEn) [.qe, .hif, .out] := by
  unfold State.pmcsr
  repeat' first
    | intro x_
    | with_reducible assumption
    | with_reducible apply Keep.refl
    | with_reducible apply Keep.ite
    | with_reducible apply Keep.app State.updFn_keep
    | with_reducible apply Keep.app State.readLine_keep
    | with_reducible apply Keep.app State.updHport_keep
    | with_reducible apply Keep.app State.updSq_keep
    | with_reducible apply Keep.each
    | decide
    | dsimp -proj only [pair_fst, pair_snd]
    | split
    | with_reducible apply Keep.set_qe

theorem execPmcsrD0_keep {port : PciePort} {fn : Fn} {pmeEn : Bool} {s : State} {t_ : State} (h : execPmcsrD0 port fn pmeEn s = .next t_) : Keep s t_ [.qe, .hif, .out] := by
  unfold execPmcsrD0 at h
  try dsimp -proj only at h
  repeat' split at h
  all_goals
    injection h with h
    subst h
    repeat' first
      | with_reducible assumption
      | with_reducible apply Keep.refl
      | with_reducible apply Keep.app State.pmcsr_keep
      | with_reducible apply Keep.app State.clr_keep
      | decide
      | dsimp -proj only [pair_fst, pair_snd]
      | split

theorem execUnsupportedRequest_keep {port : PciePort} {kind : UrKind} {s : State} {t_ : State} (h : execUnsupportedRequest port kind s = .next t_) : Keep s t_ [.regs, .out] := by
  unfold execUnsupportedRequest at h
  try dsimp -proj only at h
  repeat' split at h
  all_goals
    injection h with h
    subst h
    repeat' first
      | with_reducible assumption
      | with_reducible apply Keep.refl
      | with_reducible apply Keep.app State.clr_keep
      | with_reducible apply Keep.app State.unsupported_keep
      | decide
      | dsimp -proj only [pair_fst, pair_snd]
      | split

theorem State.xlatFail_keep {s : State} {port : PciePort} {u : TagUse} : Keep s (State.xlatFail s port u) [.regs, .qe, .dmv, .hif, .evr, .out] := by
  unfold State.xlatFail
  repeat' first
    | intro x_
    | with_reducible assumption
    | with_reducible apply Keep.refl
    | with_reducible apply Keep.ite
    | with_reducible apply Keep.app State.takeOuts_keep
    | with_reducible apply Keep.app State.admDone_keep
    | with_reducible apply Keep.app State.dmvFail_keep
    | with_reducible apply Keep.app State.segFailed_keep
    | with_reducible apply Keep.each
    | with_reducible apply Keep.fst (by assumption)
    | decide
    | dsimp -proj only [pair_fst, pair_snd]
    | split

theorem State.timedOut_keep {s : State} {port : PciePort} {tag : BitVec 14} : Keep s (State.timedOut s port tag) [.regs, .qe, .dmv, .hif, .evr, .mgt, .out] := by
  unfold State.timedOut
  repeat' first
    | intro x_
    | with_reducible assumption
    | with_reducible apply Keep.refl
    | with_reducible apply Keep.ite
    | with_reducible apply Keep.app State.bump_keep
    | with_reducible apply State.marked_keep
    | with_reducible apply Keep.app State.updHport_keep
    | with_reducible apply Keep.app State.fetchErr_keep
    | with_reducible apply Keep.app State.updCq_keep
    | with_reducible apply Keep.app State.xlatFail_keep
    | with_reducible apply Keep.app State.dmvError_keep
    | decide
    | dsimp -proj only [pair_fst, pair_snd]
    | split

theorem execCompletionTimeout_keep {port : PciePort} {tag : BitVec 14} {s : State} {t_ : State} (h : execCompletionTimeout port tag s = .next t_) : Keep s t_ [.regs, .qe, .dmv, .hif, .evr, .mgt, .out] := by
  unfold execCompletionTimeout at h
  try dsimp -proj only at h
  repeat' split at h
  all_goals
    injection h with h
    subst h
    repeat' first
      | with_reducible assumption
      | with_reducible apply Keep.refl
      | with_reducible apply Keep.app State.timedOut_keep
      | with_reducible apply Keep.app State.clr_keep
      | decide
      | dsimp -proj only [pair_fst, pair_snd]
      | split

theorem State.turnOffPort_keep {s : State} {port : PciePort} : Keep s (State.turnOffPort s port) [.hif, .out] := by
  unfold State.turnOffPort
  repeat' first
    | with_reducible assumption
    | with_reducible apply Keep.refl
    | with_reducible apply Keep.ite
    | with_reducible apply Keep.app State.updHport_keep
    | with_reducible apply Keep.app State.emit_keep
    | decide
    | dsimp -proj only [pair_fst, pair_snd]
    | split

theorem execPmeTurnOff_keep {port : PciePort} {s : State} {t_ : State} (h : execPmeTurnOff port s = .next t_) : Keep s t_ [.hif, .out] := by
  unfold execPmeTurnOff at h
  try dsimp -proj only at h
  repeat' split at h
  all_goals
    injection h with h
    subst h
    repeat' first
      | with_reducible assumption
      | with_reducible apply Keep.refl
      | with_reducible apply Keep.app State.turnOffPort_keep
      | with_reducible apply Keep.app State.clr_keep
      | decide
      | dsimp -proj only [pair_fst, pair_snd]
      | split

theorem State.xlatAgain_keep {s : State} {u : TagUse} : Keep s (State.xlatAgain s u) [.regs, .qe, .dmv, .hif, .evr, .out] := by
  unfold State.xlatAgain
  repeat' first
    | intro x_
    | with_reducible assumption
    | with_reducible apply Keep.refl
    | with_reducible apply Keep.ite
    | with_reducible apply Keep.app State.takeOuts_keep
    | with_reducible apply Keep.app State.xlate_keep
    | with_reducible apply Keep.app State.dmvFail_keep
    | with_reducible apply Keep.app State.readSeg_keep
    | with_reducible apply Keep.app State.hostOut_keep
    | with_reducible apply Keep.each
    | with_reducible apply Keep.fst (by assumption)
    | decide
    | dsimp -proj only [pair_fst, pair_snd]
    | split

theorem State.translated_keep {s : State} {port : PciePort} {tag : BitVec 14} {r : Xlat} : Keep s (State.translated s port tag r) [.regs, .qe, .dmv, .hif, .evr, .out] := by
  unfold State.translated
  repeat' first
    | with_reducible assumption
    | with_reducible apply Keep.refl
    | with_reducible apply Keep.ite
    | with_reducible apply Keep.app State.bump_keep
    | with_reducible apply Keep.app State.xlatAgain_keep
    | with_reducible apply Keep.app State.updHport_keep
    | with_reducible apply Keep.app State.xlatFail_keep
    | decide
    | dsimp -proj only [pair_fst, pair_snd]
    | split

theorem execTranslationCompletion_keep {port : PciePort} {tag : BitVec 14} {r : Xlat} {s : State} {t_ : State} (h : execTranslationCompletion port tag r s = .next t_) : Keep s t_ [.regs, .qe, .dmv, .hif, .evr, .out] := by
  unfold execTranslationCompletion at h
  try dsimp -proj only at h
  repeat' split at h
  all_goals
    injection h with h
    subst h
    repeat' first
      | with_reducible assumption
      | with_reducible apply Keep.refl
      | with_reducible apply Keep.app State.translated_keep
      | with_reducible apply Keep.app State.clr_keep
      | decide
      | dsimp -proj only [pair_fst, pair_snd]
      | split

theorem execPmcsrD3hot_keep {port : PciePort} {fn : Fn} {pmeEn : Bool} {s : State} {t_ : State} (h : execPmcsrD3hot port fn pmeEn s = .next t_) : Keep s t_ [.qe, .hif, .out] := by
  unfold execPmcsrD3hot at h
  try dsimp -proj only at h
  repeat' split at h
  all_goals
    injection h with h
    subst h
    repeat' first
      | with_reducible assumption
      | with_reducible apply Keep.refl
      | with_reducible apply Keep.app State.pmcsr_keep
      | with_reducible apply Keep.app State.clr_keep
      | decide
      | dsimp -proj only [pair_fst, pair_snd]
      | split

theorem execPerstAsserted_keep {port : PciePort} {s : State} {t_ : State} (h : execPerstAsserted port s = .next t_) : Keep s t_ [.pins, .regs, .qe, .ord, .cch, .jnl, .dmv, .hif, .evr, .sched, .out] := by
  unfold execPerstAsserted at h
  try dsimp -proj only at h
  repeat' split at h
  all_goals
    injection h with h
    subst h
    repeat' first
      | with_reducible assumption
      | with_reducible apply Keep.refl
      | with_reducible apply Keep.app State.resetPort_keep
      | with_reducible apply Keep.app State.clr_keep
      | with_reducible exact Pins.lens_mk
      | (show (_ : List Nat) = _; first | with_reducible rfl | (simp [Pins.lens]; done) | rfl)
      | decide
      | dsimp -proj only [pair_fst, pair_snd]
      | split
      | with_reducible apply Keep.set_pins

theorem execPerstReleased_keep {port : PciePort} {s : State} {t_ : State} (h : execPerstReleased port s = .next t_) : Keep s t_ [.pins, .hif, .out] := by
  unfold execPerstReleased at h
  try dsimp -proj only at h
  repeat' split at h
  all_goals
    injection h with h
    subst h
    repeat' first
      | with_reducible assumption
      | with_reducible apply Keep.refl
      | with_reducible apply Keep.ite
      | with_reducible apply Keep.app State.updHport_keep
      | with_reducible apply Keep.app State.clr_keep
      | with_reducible exact Pins.lens_mk
      | (show (_ : List Nat) = _; first | with_reducible rfl | (simp [Pins.lens]; done) | rfl)
      | decide
      | dsimp -proj only [pair_fst, pair_snd]
      | split
      | with_reducible apply Keep.set_pins

end Sys2Proof.Machine
end

