-- ==== Sys2Proof/Laws/KeepMbr.lean ====
section
/-!
SUPPORT. What each operation of Machine/Mbr.lean keeps: the parts of the state that it may write.
-/
namespace Sys2Proof.Machine

theorem State.spinLimit_keep {s : State} {pid : BitVec 16} {i : Nat} : Keep s (State.spinLimit s pid i) [.regs, .ord, .pools, .mbr, .evr] := by
  unfold State.spinLimit
  repeat' first
    | with_reducible assumption
    | with_reducible apply Keep.refl
    | with_reducible apply Keep.ite
    | with_reducible apply Keep.app State.wakeFailed_keep
    | with_reducible apply Keep.app State.report_keep
    | with_reducible apply Keep.app State.updImg_keep
    | with_reducible exact Mbr.lens_mk
    | (show (_ : List Nat) = _; first | with_reducible rfl | (simp [Mbr.lens]; done) | rfl)
    | decide
    | dsimp -proj only [pair_fst, pair_snd]
    | split
    | with_reducible apply Keep.set_mbr

theorem State.spinLimits_keep {s : State} : Keep s (State.spinLimits s) [.regs, .ord, .pools, .mbr, .evr] := by
  unfold State.spinLimits
  repeat' first
    | intro x_
    | with_reducible assumption
    | with_reducible apply Keep.refl
    | with_reducible apply Keep.app State.spinLimit_keep
    | with_reducible apply Keep.each
    | decide
    | dsimp -proj only [pair_fst, pair_snd]
    | split

theorem State.labelRead_keep {s : State} {num : Nat} {port : Nat} : Keep s (State.labelRead s num port) [.mbr, .sched, .out] := by
  unfold State.labelRead
  repeat' first
    | with_reducible assumption
    | with_reducible apply Keep.refl
    | with_reducible apply Keep.ite
    | with_reducible apply Keep.app State.chargeAlways_keep
    | with_reducible apply Keep.app State.send_keep
    | decide
    | dsimp -proj only [pair_fst, pair_snd]
    | split

theorem State.labelPoll_keep {s : State} {num : Nat} : Keep s (State.labelPoll s num) [.mbr, .sched, .out] := by
  unfold State.labelPoll
  repeat' first
    | intro x_
    | with_reducible assumption
    | with_reducible apply Keep.refl
    | with_reducible apply Keep.ite
    | with_reducible apply Keep.app State.labelRead_keep
    | with_reducible apply Keep.each
    | decide
    | dsimp -proj only [pair_fst, pair_snd]
    | split

theorem State.reconnExpiry_keep {s : State} {num : Nat} : Keep s (State.reconnExpiry s num) [.mbr] := by
  unfold State.reconnExpiry
  repeat' first
    | with_reducible assumption
    | with_reducible apply Keep.refl
    | with_reducible apply Keep.ite
    | with_reducible apply Keep.app State.report_keep
    | decide
    | dsimp -proj only [pair_fst, pair_snd]
    | split

theorem State.memberTimers_keep {s : State} : Keep s (State.memberTimers s) [.mbr, .sched, .out] := by
  unfold State.memberTimers
  repeat' first
    | intro x_
    | with_reducible assumption
    | with_reducible apply Keep.refl
    | with_reducible apply Keep.app State.labelPoll_keep
    | with_reducible apply Keep.app State.reconnExpiry_keep
    | with_reducible apply Keep.each
    | decide
    | dsimp -proj only [pair_fst, pair_snd]
    | split

theorem State.askAdmit_keep {s : State} {num : Nat} {port : Nat} : Keep s (State.askAdmit s num port) [.mbr, .sched, .out] := by
  unfold State.askAdmit
  repeat' first
    | with_reducible assumption
    | with_reducible apply Keep.refl
    | with_reducible apply Keep.app State.chargeAlways_keep
    | with_reducible apply Keep.app State.send_keep
    | decide
    | dsimp -proj only [pair_fst, pair_snd]
    | split

theorem State.pauseTick_keep {s : State} : Keep s (State.pauseTick s) [.mbr] := by
  unfold State.pauseTick
  repeat' first
    | with_reducible assumption
    | with_reducible apply Keep.refl
    | with_reducible apply Keep.ite
    | with_reducible exact Mbr.lens_mk
    | (show (_ : List Nat) = _; first | with_reducible rfl | (simp [Mbr.lens]; done) | rfl)
    | decide
    | dsimp -proj only [pair_fst, pair_snd]
    | split
    | with_reducible apply Keep.set_mbr

theorem execSpinupLimit_keep {pool : BitVec 16} {idx : Nat} {s : State} {t_ : State} (h : execSpinupLimit pool idx s = .next t_) : Keep s t_ [.regs, .ord, .pools, .mbr, .evr, .out] := by
  unfold execSpinupLimit at h
  try dsimp -proj only at h
  repeat' split at h
  all_goals
    injection h with h
    subst h
    repeat' first
      | with_reducible assumption
      | with_reducible apply Keep.refl
      | with_reducible apply Keep.app State.spinLimit_keep
      | with_reducible apply Keep.app State.clr_keep
      | decide
      | dsimp -proj only [pair_fst, pair_snd]
      | split

theorem execTapInstructionLoad_keep {ir : BitVec 8} {s : State} {t_ : State} (h : execTapInstructionLoad ir s = .next t_) : Keep s t_ [.pins, .out] := by
  unfold execTapInstructionLoad at h
  try dsimp -proj only at h
  repeat' split at h
  all_goals
    injection h with h
    subst h
    repeat' first
      | with_reducible assumption
      | with_reducible apply Keep.refl
      | with_reducible apply Keep.app State.clr_keep
      | with_reducible exact Pins.lens_mk
      | (show (_ : List Nat) = _; first | with_reducible rfl | (simp [Pins.lens]; done) | rfl)
      | decide
      | dsimp -proj only [pair_fst, pair_snd]
      | split
      | with_reducible apply Keep.set_pins

theorem State.moveCmds_keep {s : State} {num : Nat} {stuck : Nat → Bool} : Keep s (State.moveCmds s num stuck) [.mbr, .sched, .out] := by
  unfold State.moveCmds
  repeat' first
    | intro x_
    | with_reducible assumption
    | with_reducible apply Keep.refl
    | with_reducible apply Keep.app State.reissue_keep
    | with_reducible apply Keep.each
    | with_reducible exact Mbr.lens_mk
    | (show (_ : List Nat) = _; first | with_reducible rfl | (simp [Mbr.lens]; done) | rfl)
    | decide
    | dsimp -proj only [pair_fst, pair_snd]
    | split
    | with_reducible apply Keep.set_mbr

theorem State.breakPath_keep {s : State} {num : Nat} {port : Nat} : Keep s (State.breakPath s num port) [.mbr, .sched, .out] := by
  unfold State.breakPath
  repeat' first
    | with_reducible assumption
    | with_reducible apply Keep.refl
    | with_reducible apply Keep.ite
    | with_reducible apply Keep.app State.moveCmds_keep
    | with_reducible apply Keep.app State.updImg_keep
    | decide
    | dsimp -proj only [pair_fst, pair_snd]
    | split

theorem execKeepAliveFailure_keep {member : Nat} {port : EthPort} {s : State} {t_ : State} (h : execKeepAliveFailure member port s = .next t_) : Keep s t_ [.mbr, .sched, .out] := by
  unfold execKeepAliveFailure at h
  try dsimp -proj only at h
  repeat' split at h
  all_goals
    injection h with h
    subst h
    repeat' first
      | with_reducible assumption
      | with_reducible apply Keep.refl
      | with_reducible apply Keep.app State.breakPath_keep
      | with_reducible apply Keep.app State.clr_keep
      | decide
      | dsimp -proj only [pair_fst, pair_snd]
      | split

theorem State.updPath_keep {s : State} {num : Nat} {port : Nat} {f : MPath → MPath} : Keep s (State.updPath s num port f) [.mbr] := by
  unfold State.updPath
  repeat' first
    | with_reducible assumption
    | with_reducible apply Keep.refl
    | with_reducible apply Keep.app State.updImg_keep
    | decide
    | dsimp -proj only [pair_fst, pair_snd]
    | split

theorem State.cnpIn_keep {s : State} {num : Nat} {port : Nat} {now : Nat} : Keep s (State.cnpIn s num port now) [.regs, .mbr] := by
  unfold State.cnpIn
  repeat' first
    | intro x_
    | with_reducible assumption
    | with_reducible apply Keep.refl
    | with_reducible apply Keep.app State.updPath_keep
    | with_reducible apply Keep.app State.bump_keep
    | with_reducible apply Keep.iff
    | decide
    | dsimp -proj only [pair_fst, pair_snd]
    | split

theorem execCnpReceived_keep {member : Nat} {port : EthPort} {atUs : Nat} {s : State} {t_ : State} (h : execCnpReceived member port atUs s = .next t_) : Keep s t_ [.regs, .mbr, .out] := by
  unfold execCnpReceived at h
  try dsimp -proj only at h
  repeat' split at h
  all_goals
    injection h with h
    subst h
    repeat' first
      | with_reducible assumption
      | with_reducible apply Keep.refl
      | with_reducible apply Keep.app State.clr_keep
      | with_reducible apply Keep.app State.cnpIn_keep
      | decide
      | dsimp -proj only [pair_fst, pair_snd]
      | split

theorem State.portLink_keep {s : State} {port : Nat} {up : Bool} : Keep s (State.portLink s port up) [.regs, .mbr, .rop] := by
  unfold State.portLink
  repeat' first
    | intro x_
    | with_reducible assumption
    | with_reducible apply Keep.refl
    | with_reducible apply Keep.ite
    | with_reducible apply Keep.app State.pathDown_keep
    | with_reducible apply Keep.each
    | with_reducible apply Keep.iff
    | with_reducible exact Mbr.lens_mk
    | (show (_ : List Nat) = _; first | with_reducible rfl | (simp [Mbr.lens]; done) | rfl)
    | decide
    | dsimp -proj only [pair_fst, pair_snd]
    | split
    | with_reducible apply Keep.set_mbr

theorem execPortLinkUp_keep {port : EthPort} {s : State} {t_ : State} (h : execPortLinkUp port s = .next t_) : Keep s t_ [.regs, .mbr, .rop, .out] := by
  unfold execPortLinkUp at h
  try dsimp -proj only at h
  repeat' split at h
  all_goals
    injection h with h
    subst h
    repeat' first
      | with_reducible assumption
      | with_reducible apply Keep.refl
      | with_reducible apply Keep.app State.portLink_keep
      | with_reducible apply Keep.app State.clr_keep
      | decide
      | dsimp -proj only [pair_fst, pair_snd]
      | split

theorem State.memCompletion_keep {s : State} {id : Nat} {st : MStatus} {pl : MPayload} : Keep s (State.memCompletion s id st pl) [.regs, .mbr, .mgt] := by
  unfold State.memCompletion
  repeat' first
    | with_reducible assumption
    | with_reducible apply Keep.refl
    | with_reducible apply Keep.ite
    | with_reducible apply Keep.app State.bump_keep
    | with_reducible apply Keep.app State.inject_keep
    | with_reducible apply Keep.app State.etherFrame_keep
    | with_reducible apply Keep.fst (by assumption)
    | with_reducible exact Mbr.lens_mk
    | (show (_ : List Nat) = _; first | with_reducible rfl | (simp [Mbr.lens]; done) | rfl)
    | decide
    | dsimp -proj only [pair_fst, pair_snd]
    | split
    | with_reducible apply Keep.set_mbr

theorem execMemberCompletion_keep {id : Nat} {status : MStatus} {payload : MPayload} {s : State} {t_ : State} (h : execMemberCompletion id status payload s = .next t_) : Keep s t_ [.regs, .mbr, .mgt, .out] := by
  unfold execMemberCompletion at h
  try dsimp -proj only at h
  repeat' split at h
  all_goals
    injection h with h
    subst h
    repeat' first
      | with_reducible assumption
      | with_reducible apply Keep.refl
      | with_reducible apply Keep.app State.memCompletion_keep
      | with_reducible apply Keep.app State.clr_keep
      | decide
      | dsimp -proj only [pair_fst, pair_snd]
      | split

theorem State.pauseIn_keep {s : State} {port : Nat} {prio : Nat} {quanta : Nat} : Keep s (State.pauseIn s port prio quanta) [.mbr] := by
  unfold State.pauseIn
  repeat' first
    | with_reducible assumption
    | with_reducible apply Keep.refl
    | with_reducible apply Keep.ite
    | with_reducible exact Mbr.lens_mk
    | (show (_ : List Nat) = _; first | with_reducible rfl | (simp [Mbr.lens]; done) | rfl)
    | decide
    | dsimp -proj only [pair_fst, pair_snd]
    | split
    | with_reducible apply Keep.set_mbr

theorem execPfcPauseFrame_keep {port : EthPort} {prio : BitVec 3} {quanta : BitVec 16} {s : State} {t_ : State} (h : execPfcPauseFrame port prio quanta s = .next t_) : Keep s t_ [.mbr, .out] := by
  unfold execPfcPauseFrame at h
  try dsimp -proj only at h
  repeat' split at h
  all_goals
    injection h with h
    subst h
    repeat' first
      | with_reducible assumption
      | with_reducible apply Keep.refl
      | with_reducible apply Keep.app State.pauseIn_keep
      | with_reducible apply Keep.app State.clr_keep
      | decide
      | dsimp -proj only [pair_fst, pair_snd]
      | split

theorem execMemberReconnExpiry_keep {member : Nat} {s : State} {t_ : State} (h : execMemberReconnExpiry member s = .next t_) : Keep s t_ [.mbr, .out] := by
  unfold execMemberReconnExpiry at h
  try dsimp -proj only at h
  repeat' split at h
  all_goals
    injection h with h
    subst h
    repeat' first
      | with_reducible assumption
      | with_reducible apply Keep.refl
      | with_reducible apply Keep.app State.reconnExpiry_keep
      | with_reducible apply Keep.app State.clr_keep
      | decide
      | dsimp -proj only [pair_fst, pair_snd]
      | split

theorem State.ccRise_keep {s : State} {num : Nat} {port : Nat} {now : Nat} : Keep s (State.ccRise s num port now) [.mbr] := by
  unfold State.ccRise
  repeat' first
    | intro x_
    | with_reducible assumption
    | with_reducible apply Keep.refl
    | with_reducible apply Keep.app State.updPath_keep
    | with_reducible apply Keep.iff
    | decide
    | dsimp -proj only [pair_fst, pair_snd]
    | split

theorem execCcTimer_keep {member : Nat} {port : EthPort} {atUs : Nat} {s : State} {t_ : State} (h : execCcTimer member port atUs s = .next t_) : Keep s t_ [.mbr, .out] := by
  unfold execCcTimer at h
  try dsimp -proj only at h
  repeat' split at h
  all_goals
    injection h with h
    subst h
    repeat' first
      | with_reducible assumption
      | with_reducible apply Keep.refl
      | with_reducible apply Keep.app State.ccRise_keep
      | with_reducible apply Keep.app State.clr_keep
      | decide
      | dsimp -proj only [pair_fst, pair_snd]
      | split

theorem State.reconnect_keep {s : State} {num : Nat} {port : Nat} {ok : Bool} : Keep s (State.reconnect s num port ok) [.mbr, .sched, .out] := by
  unfold State.reconnect
  repeat' first
    | intro x_
    | with_reducible assumption
    | with_reducible apply Keep.refl
    | with_reducible apply Keep.ite
    | with_reducible apply Keep.app State.askAdmit_keep
    | with_reducible apply Keep.app State.moveCmds_keep
    | with_reducible apply Keep.app State.labelRead_keep
    | with_reducible apply Keep.app State.updImg_keep
    | with_reducible apply Keep.iff
    | decide
    | dsimp -proj only [pair_fst, pair_snd]
    | split

theorem execPathReconnect_keep {member : Nat} {port : EthPort} {ok : Bool} {s : State} {t_ : State} (h : execPathReconnect member port ok s = .next t_) : Keep s t_ [.mbr, .sched, .out] := by
  unfold execPathReconnect at h
  try dsimp -proj only at h
  repeat' split at h
  all_goals
    injection h with h
    subst h
    repeat' first
      | with_reducible assumption
      | with_reducible apply Keep.refl
      | with_reducible apply Keep.app State.reconnect_keep
      | with_reducible apply Keep.app State.clr_keep
      | decide
      | dsimp -proj only [pair_fst, pair_snd]
      | split

theorem execRdmaQpError_keep {member : Nat} {port : EthPort} {s : State} {t_ : State} (h : execRdmaQpError member port s = .next t_) : Keep s t_ [.mbr, .sched, .out] := by
  unfold execRdmaQpError at h
  try dsimp -proj only at h
  repeat' split at h
  all_goals
    injection h with h
    subst h
    repeat' first
      | with_reducible assumption
      | with_reducible apply Keep.refl
      | with_reducible apply Keep.app State.breakPath_keep
      | with_reducible apply Keep.app State.clr_keep
      | decide
      | dsimp -proj only [pair_fst, pair_snd]
      | split

theorem execLabelReadPoll_keep {member : Nat} {s : State} {t_ : State} (h : execLabelReadPoll member s = .next t_) : Keep s t_ [.mbr, .sched, .out] := by
  unfold execLabelReadPoll at h
  try dsimp -proj only at h
  repeat' split at h
  all_goals
    injection h with h
    subst h
    repeat' first
      | with_reducible assumption
      | with_reducible apply Keep.refl
      | with_reducible apply Keep.app State.labelPoll_keep
      | with_reducible apply Keep.app State.clr_keep
      | decide
      | dsimp -proj only [pair_fst, pair_snd]
      | split

theorem State.ceIn_keep {s : State} {num : Nat} {port : Nat} {now : Nat} : Keep s (State.ceIn s num port now) [.regs, .mbr, .out] := by
  unfold State.ceIn
  repeat' first
    | intro x_
    | with_reducible assumption
    | with_reducible apply Keep.refl
    | with_reducible apply Keep.app State.updPath_keep
    | with_reducible apply Keep.app State.bump_keep
    | with_reducible apply Keep.app State.emit_keep
    | with_reducible apply Keep.iff
    | decide
    | dsimp -proj only [pair_fst, pair_snd]
    | split

theorem execCeFrameReceived_keep {member : Nat} {port : EthPort} {atUs : Nat} {s : State} {t_ : State} (h : execCeFrameReceived member port atUs s = .next t_) : Keep s t_ [.regs, .mbr, .out] := by
  unfold execCeFrameReceived at h
  try dsimp -proj only at h
  repeat' split at h
  all_goals
    injection h with h
    subst h
    repeat' first
      | with_reducible assumption
      | with_reducible apply Keep.refl
      | with_reducible apply Keep.app State.ceIn_keep
      | with_reducible apply Keep.app State.clr_keep
      | decide
      | dsimp -proj only [pair_fst, pair_snd]
      | split

theorem execMemberTimeout_keep {id : Nat} {s : State} {t_ : State} (h : execMemberTimeout id s = .next t_) : Keep s t_ [.regs, .ord, .cch, .jnl, .pools, .seq, .mbr, .rop, .evr, .mgt, .sched, .out] := by
  unfold execMemberTimeout at h
  try dsimp -proj only at h
  repeat' split at h
  all_goals
    injection h with h
    subst h
    repeat' first
      | with_reducible assumption
      | with_reducible apply Keep.refl
      | with_reducible apply Keep.app State.memTimeout_keep
      | with_reducible apply Keep.app State.clr_keep
      | decide
      | dsimp -proj only [pair_fst, pair_snd]
      | split

theorem execPortLinkDown_keep {port : EthPort} {s : State} {t_ : State} (h : execPortLinkDown port s = .next t_) : Keep s t_ [.regs, .mbr, .rop, .out] := by
  unfold execPortLinkDown at h
  try dsimp -proj only at h
  repeat' split at h
  all_goals
    injection h with h
    subst h
    repeat' first
      | with_reducible assumption
      | with_reducible apply Keep.refl
      | with_reducible apply Keep.app State.portLink_keep
      | with_reducible apply Keep.app State.clr_keep
      | decide
      | dsimp -proj only [pair_fst, pair_snd]
      | split

end Sys2Proof.Machine
end

