-- ==== Sys2Proof/Laws/KeepDetect.lean ====
section
/-!
SUPPORT. What each operation of Machine/Detect.lean keeps: the parts of the state that it may write.
-/
namespace Sys2Proof.Machine

theorem State.mapInj_keep {s : State} {f : InjSlot → InjSlot} : Keep s (State.mapInj s f) [.mgt] := by
  unfold State.mapInj
  repeat' first
    | with_reducible assumption
    | with_reducible apply Keep.refl
    | with_reducible exact ⟨Mgt.slots_mk, Mgt.dir_mk, Mgt.dirNvm_mk⟩
    | with_reducible exact Mgt.staging_mk
    | with_reducible exact Mgt.lens_mk
    | (show (_ : List Nat) = _; first | with_reducible rfl | (simp [Mgt.lens]; done) | rfl)
    | decide
    | dsimp -proj only [pair_fst, pair_snd]
    | split
    | with_reducible apply Keep.set_mgt

theorem State.tickInj_keep {s : State} {det : Nat} : Keep s (State.tickInj s det).1 [.regs, .mgt] := by
  unfold State.tickInj
  repeat' first
    | with_reducible assumption
    | with_reducible apply Keep.refl
    | with_reducible apply Keep.ite
    | with_reducible apply Keep.app State.bump_keep
    | with_reducible apply Keep.app State.mapInj_keep
    | with_reducible apply Keep.fst (by assumption)
    | decide
    | dsimp -proj only [pair_fst, pair_snd]
    | split

theorem State.disarm_keep {s : State} : Keep s (State.disarm s) [.regs, .evr, .mgt] := by
  unfold State.disarm
  repeat' first
    | intro x_
    | with_reducible assumption
    | with_reducible apply Keep.refl
    | with_reducible apply Keep.ite
    | with_reducible apply Keep.app State.mapInj_keep
    | with_reducible apply Keep.app State.log_keep
    | with_reducible apply Keep.each
    | decide
    | dsimp -proj only [pair_fst, pair_snd]
    | split

theorem State.arm_keep {s : State} : Keep s (State.arm s) [.regs, .evr, .mgt] := by
  unfold State.arm
  repeat' first
    | intro x_
    | with_reducible assumption
    | with_reducible apply Keep.refl
    | with_reducible apply Keep.ite
    | with_reducible apply Keep.app State.mapInj_keep
    | with_reducible apply Keep.app State.log_keep
    | with_reducible apply Keep.app State.reject__keep
    | with_reducible apply Keep.each
    | with_reducible exact ⟨Mgt.slots_mk, Mgt.dir_mk, Mgt.dirNvm_mk⟩
    | with_reducible exact Mgt.staging_mk
    | with_reducible exact Mgt.lens_mk
    | (show (_ : List Nat) = _; first | with_reducible rfl | (simp [Mgt.lens]; done) | rfl)
    | decide
    | dsimp -proj only [pair_fst, pair_snd]
    | split
    | with_reducible apply Keep.set_mgt

theorem State.injectStep_keep {s : State} : Keep s (State.injectStep s) [.regs, .evr, .mgt] := by
  unfold State.injectStep
  repeat' first
    | with_reducible assumption
    | with_reducible apply Keep.refl
    | with_reducible apply Keep.app State.tickInj_keep
    | with_reducible apply Keep.app State.bump_keep
    | with_reducible apply Keep.app State.disarm_keep
    | with_reducible apply Keep.app State.arm_keep
    | with_reducible apply Keep.fst (by assumption)
    | decide
    | dsimp -proj only [pair_fst, pair_snd]
    | split

theorem State.countCores_keep {s : State} : Keep s (State.countCores s) [.fix] := by
  unfold State.countCores
  repeat' first
    | with_reducible assumption
    | with_reducible apply Keep.refl
    | decide
    | dsimp -proj only [pair_fst, pair_snd]
    | split
    | with_reducible apply Keep.set_fix

end Sys2Proof.Machine
end

