-- ==== Sys2Proof/Laws/KeepBoot.lean ====
section
/-!
SUPPORT. What each operation of Machine/Boot.lean keeps: the parts of the state that it may write.
-/
namespace Sys2Proof.Machine

theorem State.startDiscovery_keep {s : State} : Keep s (State.startDiscovery s) [.phase, .mbr, .mgt, .sched, .out] := by
  unfold State.startDiscovery
  repeat' first
    | intro x_
    | with_reducible assumption
    | with_reducible apply Keep.refl
    | with_reducible apply Keep.app State.askAdmit_keep
    | with_reducible apply Keep.each
    | with_reducible exact ⟨Mgt.slots_mk, Mgt.dir_mk, Mgt.dirNvm_mk⟩
    | with_reducible exact Mgt.staging_mk
    | with_reducible exact Mgt.lens_mk
    | with_reducible exact Mbr.lens_mk
    | (show (_ : List Nat) = _; first | with_reducible rfl | (simp [Mgt.lens, Mbr.lens]; done) | rfl)
    | decide
    | dsimp -proj only [pair_fst, pair_snd]
    | split
    | with_reducible apply Keep.set_phase_mbr_mgt

theorem State.joinExpiry_keep {s : State} : Keep s (State.joinExpiry s) [.phase, .tck, .mbr, .mgt, .sched, .freeCtr, .out] := by
  unfold State.joinExpiry
  repeat' first
    | intro x_
    | with_reducible assumption
    | with_reducible apply Keep.refl
    | with_reducible apply Keep.ite
    | with_reducible apply Keep.app State.startDiscovery_keep
    | with_reducible apply Keep.app State.adoptLocal_keep
    | with_reducible apply Keep.iff
    | decide
    | dsimp -proj only [pair_fst, pair_snd]
    | split

theorem State.endDiscovery_keep {s : State} : Keep s (State.endDiscovery s) [.phase, .mbr] := by
  unfold State.endDiscovery
  repeat' first
    | with_reducible assumption
    | with_reducible apply Keep.refl
    | with_reducible apply Keep.ite
    | with_reducible exact Mbr.lens_mk
    | (show (_ : List Nat) = _; first | with_reducible rfl | (simp [Mbr.lens]; done) | rfl)
    | decide
    | dsimp -proj only [pair_fst, pair_snd]
    | split
    | with_reducible apply Keep.set_phase_mbr

theorem State.discoveryDone_keep {s : State} : Keep s (State.discoveryDone s) [.phase, .mbr] := by
  unfold State.discoveryDone
  repeat' first
    | with_reducible assumption
    | with_reducible apply Keep.refl
    | with_reducible apply Keep.ite
    | with_reducible apply Keep.app State.endDiscovery_keep
    | decide
    | dsimp -proj only [pair_fst, pair_snd]
    | split

theorem State.joinDone_keep {s : State} : Keep s (State.joinDone s) [.phase, .mbr, .mgt, .sched, .out] := by
  unfold State.joinDone
  repeat' first
    | with_reducible assumption
    | with_reducible apply Keep.refl
    | with_reducible apply Keep.ite
    | with_reducible apply Keep.app State.startDiscovery_keep
    | decide
    | dsimp -proj only [pair_fst, pair_snd]
    | split

theorem State.discoveryExpiry_keep {s : State} : Keep s (State.discoveryExpiry s) [.phase, .mbr] := by
  unfold State.discoveryExpiry
  repeat' first
    | with_reducible assumption
    | with_reducible apply Keep.refl
    | with_reducible apply Keep.ite
    | with_reducible apply Keep.app State.endDiscovery_keep
    | decide
    | dsimp -proj only [pair_fst, pair_snd]
    | split

theorem State.stepStart_keep {s : State} : Keep s (State.stepStart s) [.phase, .tck, .mbr, .mgt, .sched, .freeCtr, .out] := by
  unfold State.stepStart
  repeat' first
    | with_reducible assumption
    | with_reducible apply Keep.refl
    | with_reducible apply Keep.app State.joinExpiry_keep
    | with_reducible apply Keep.app State.discoveryDone_keep
    | with_reducible apply Keep.app State.joinDone_keep
    | with_reducible apply Keep.app State.discoveryExpiry_keep
    | decide
    | dsimp -proj only [pair_fst, pair_snd]
    | split

theorem execRopeJoinExpiry_keep {s : State} {t_ : State} (h : execRopeJoinExpiry s = .next t_) : Keep s t_ [.phase, .tck, .mbr, .mgt, .sched, .freeCtr, .out] := by
  unfold execRopeJoinExpiry at h
  try dsimp -proj only at h
  repeat' split at h
  all_goals
    injection h with h
    subst h
    repeat' first
      | with_reducible assumption
      | with_reducible apply Keep.refl
      | with_reducible apply Keep.app State.joinExpiry_keep
      | with_reducible apply Keep.app State.clr_keep
      | decide
      | dsimp -proj only [pair_fst, pair_snd]
      | split

theorem execMemberDiscoveryExpiry_keep {s : State} {t_ : State} (h : execMemberDiscoveryExpiry s = .next t_) : Keep s t_ [.phase, .mbr, .out] := by
  unfold execMemberDiscoveryExpiry at h
  try dsimp -proj only at h
  repeat' split at h
  all_goals
    injection h with h
    subst h
    repeat' first
      | with_reducible assumption
      | with_reducible apply Keep.refl
      | with_reducible apply Keep.app State.discoveryExpiry_keep
      | with_reducible apply Keep.app State.clr_keep
      | decide
      | dsimp -proj only [pair_fst, pair_snd]
      | split

theorem execRopeJoinDone_keep {s : State} {t_ : State} (h : execRopeJoinDone s = .next t_) : Keep s t_ [.phase, .mbr, .mgt, .sched, .out] := by
  unfold execRopeJoinDone at h
  try dsimp -proj only at h
  repeat' split at h
  all_goals
    injection h with h
    subst h
    repeat' first
      | with_reducible assumption
      | with_reducible apply Keep.refl
      | with_reducible apply Keep.app State.joinDone_keep
      | with_reducible apply Keep.app State.clr_keep
      | decide
      | dsimp -proj only [pair_fst, pair_snd]
      | split

theorem State.newSaved_keep {s : State} : Keep s (State.newSaved s) [.fix, .tru] := by
  unfold State.newSaved
  repeat' first
    | with_reducible assumption
    | with_reducible apply Keep.refl
    | with_reducible exact Tru.fwFuses_mk
    | with_reducible exact Tru.idxFuses_mk
    | with_reducible exact Tru.lens_mk
    | (show (_ : List Nat) = _; first | with_reducible rfl | (simp [Tru.lens]; done) | rfl)
    | decide
    | dsimp -proj only [pair_fst, pair_snd]
    | split
    | with_reducible apply Keep.set_fix_tru

theorem State.updArea_keep {s : State} {a : Nat} {g : Flush → Flush} : Keep s (State.updArea s a g) [.vlt] := by
  unfold State.updArea
  repeat' first
    | with_reducible assumption
    | with_reducible apply Keep.refl
    | with_reducible exact Vlt.lens_mk
    | (show (_ : List Nat) = _; first | with_reducible rfl | (simp [Vlt.lens]; done) | rfl)
    | decide
    | dsimp -proj only [pair_fst, pair_snd]
    | split
    | with_reducible apply Keep.set_vlt

theorem State.logIncomplete_keep {s : State} : Keep s (State.logIncomplete s) [.regs, .vlt, .evr, .freeCtr] := by
  unfold State.logIncomplete
  repeat' first
    | intro x_
    | with_reducible assumption
    | with_reducible apply Keep.refl
    | with_reducible apply Keep.app State.log_keep
    | with_reducible apply Keep.app State.updArea_keep
    | with_reducible apply Keep.app State.freeWord_keep
    | with_reducible apply Keep.each
    | with_reducible apply Keep.fst (by assumption)
    | with_reducible apply Keep.snd (by assumption)
    | decide
    | dsimp -proj only [pair_fst, pair_snd]
    | split

theorem State.loadFlush_keep {s : State} {a : Nat} {f : Flush} {ph2Ok : Bool} : Keep s (State.loadFlush s a f ph2Ok) [.regs, .fix, .rop, .vlt] := by
  unfold State.loadFlush
  repeat' first
    | with_reducible assumption
    | with_reducible apply Keep.refl
    | with_reducible apply Keep.ite
    | with_reducible apply Keep.app State.bump_keep
    | with_reducible exact Vlt.lens_mk
    | with_reducible exact Rop.lens_mk
    | (show (_ : List Nat) = _; first | with_reducible rfl | (simp [Vlt.lens, Rop.lens]; done) | rfl)
    | decide
    | dsimp -proj only [pair_fst, pair_snd]
    | split
    | with_reducible apply Keep.set_fix_rop_vlt

theorem State.vaultRecovered_keep {s : State} {ph1Ok : Bool} {ph2Ok : Bool} : Keep s (State.vaultRecovered s ph1Ok ph2Ok) [.phase, .regs, .fix, .rop, .vlt, .tru, .evr, .mgt, .freeCtr] := by
  unfold State.vaultRecovered
  repeat' first
    | with_reducible assumption
    | with_reducible apply Keep.refl
    | with_reducible apply Keep.ite
    | with_reducible apply Keep.app State.newSaved_keep
    | with_reducible apply Keep.app State.logIncomplete_keep
    | with_reducible apply Keep.app State.loadFlush_keep
    | with_reducible apply Keep.app State.log_keep
    | with_reducible exact ⟨Mgt.slots_mk, Mgt.dir_mk, Mgt.dirNvm_mk⟩
    | with_reducible exact Mgt.staging_mk
    | with_reducible exact Vlt.lens_mk
    | with_reducible exact Mgt.lens_mk
    | (show (_ : List Nat) = _; first | with_reducible rfl | (simp [Vlt.lens, Mgt.lens]; done) | rfl)
    | decide
    | dsimp -proj only [pair_fst, pair_snd]
    | split
    | with_reducible apply Keep.set_phase_vlt_mgt

theorem execVaultRecoveryDone_keep {ph1Ok : Bool} {ph2Ok : Bool} {s : State} {t_ : State} (h : execVaultRecoveryDone ph1Ok ph2Ok s = .next t_) : Keep s t_ [.phase, .regs, .fix, .rop, .vlt, .tru, .evr, .mgt, .freeCtr, .out] := by
  unfold execVaultRecoveryDone at h
  try dsimp -proj only at h
  repeat' split at h
  all_goals
    injection h with h
    subst h
    repeat' first
      | with_reducible assumption
      | with_reducible apply Keep.refl
      | with_reducible apply Keep.app State.vaultRecovered_keep
      | with_reducible apply Keep.app State.clr_keep
      | decide
      | dsimp -proj only [pair_fst, pair_snd]
      | split

theorem State.goOnline_keep {s : State} : Keep s (State.goOnline s) [.phase, .pins, .regs, .hif, .vlt, .mgt, .out] := by
  unfold State.goOnline
  repeat' first
    | with_reducible assumption
    | with_reducible apply Keep.refl
    | with_reducible apply Keep.app State.setReg_keep
    | with_reducible apply Keep.app State.updArea_keep
    | with_reducible apply Keep.app State.pmeAll_keep
    | with_reducible exact ⟨Mgt.slots_mk, Mgt.dir_mk, Mgt.dirNvm_mk⟩
    | with_reducible exact Mgt.staging_mk
    | with_reducible exact Hif.lens_mk
    | with_reducible exact Mgt.lens_mk
    | (show (_ : List Nat) = _; first | with_reducible rfl | (simp [Hif.lens, Mgt.lens]; done) | rfl)
    | decide
    | dsimp -proj only [pair_fst, pair_snd]
    | split
    | with_reducible apply Keep.set_phase_mgt
    | with_reducible apply Keep.set_hif

theorem State.reconciled_keep {s : State} {infos : List ReconInfo} : Keep s (State.reconciled s infos) [.phase, .pins, .regs, .cch, .jnl, .pools, .rop, .hif, .vlt, .evr, .mgt, .out] := by
  unfold State.reconciled
  repeat' first
    | with_reducible assumption
    | with_reducible apply Keep.refl
    | with_reducible apply Keep.ite
    | with_reducible apply Keep.app State.reconcile_keep
    | with_reducible apply Keep.app State.goOnline_keep
    | decide
    | dsimp -proj only [pair_fst, pair_snd]
    | split

theorem execJournalReconcileDone_keep {infos : List ReconInfo} {s : State} {t_ : State} (h : execJournalReconcileDone infos s = .next t_) : Keep s t_ [.phase, .pins, .regs, .cch, .jnl, .pools, .rop, .hif, .vlt, .evr, .mgt, .out] := by
  unfold execJournalReconcileDone at h
  try dsimp -proj only at h
  repeat' split at h
  all_goals
    injection h with h
    subst h
    repeat' first
      | with_reducible assumption
      | with_reducible apply Keep.refl
      | with_reducible apply Keep.app State.reconciled_keep
      | with_reducible apply Keep.app State.clr_keep
      | decide
      | dsimp -proj only [pair_fst, pair_snd]
      | split

theorem State.loadImage_keep {s : State} {i : Image} : Keep s (State.loadImage s i) [.regs, .mgt] := by
  unfold State.loadImage
  repeat' first
    | intro x_
    | with_reducible assumption
    | with_reducible apply Keep.refl
    | with_reducible apply Keep.app State.setReg_keep
    | with_reducible apply Keep.each
    | with_reducible exact ⟨Mgt.slots_mk, Mgt.dir_mk, Mgt.dirNvm_mk⟩
    | with_reducible exact Mgt.staging_mk
    | with_reducible exact Mgt.lens_mk
    | (show (_ : List Nat) = _; first | with_reducible rfl | (simp [Mgt.lens]; done) | rfl)
    | decide
    | dsimp -proj only [pair_fst, pair_snd]
    | split
    | with_reducible apply Keep.set_mgt

theorem State.configLoaded_keep {s : State} {o : SignedObj} : Keep s (State.configLoaded s o) [.phase, .regs, .evr, .mgt] := by
  unfold State.configLoaded
  repeat' first
    | with_reducible assumption
    | with_reducible apply Keep.refl
    | with_reducible apply Keep.ite
    | with_reducible apply Keep.app State.log_keep
    | with_reducible apply Keep.app State.loadImage_keep
    | with_reducible apply Keep.app State.slotFail_keep
    | decide
    | dsimp -proj only [pair_fst, pair_snd]
    | split
    | with_reducible apply Keep.set_phase

theorem execConfigLoadDone_keep {img : SignedObj} {s : State} {t_ : State} (h : execConfigLoadDone img s = .next t_) : Keep s t_ [.phase, .regs, .evr, .mgt, .out] := by
  unfold execConfigLoadDone at h
  try dsimp -proj only at h
  repeat' split at h
  all_goals
    injection h with h
    subst h
    repeat' first
      | with_reducible assumption
      | with_reducible apply Keep.refl
      | with_reducible apply Keep.app State.configLoaded_keep
      | with_reducible apply Keep.app State.clr_keep
      | decide
      | dsimp -proj only [pair_fst, pair_snd]
      | split

theorem State.trustStart_keep {s : State} {evrValid : Bool} : Keep s (State.trustStart s evrValid) [.tru, .evr, .out] := by
  unfold State.trustStart
  repeat' first
    | intro x_
    | with_reducible assumption
    | with_reducible apply Keep.refl
    | with_reducible apply Keep.ite
    | with_reducible apply Keep.app State.readTrust_keep
    | with_reducible apply Keep.app State.writeTrust_keep
    | with_reducible apply Keep.app State.takeHeader_keep
    | with_reducible apply Keep.app State.copyCerts_keep
    | with_reducible apply Keep.iff
    | with_reducible exact Tru.fwFuses_mk
    | with_reducible exact Tru.idxFuses_mk
    | with_reducible exact Tru.lens_mk
    | (show (_ : List Nat) = _; first | with_reducible rfl | (simp [Tru.lens]; done) | rfl)
    | decide
    | dsimp -proj only [pair_fst, pair_snd]
    | split
    | with_reducible apply Keep.set_tru

theorem State.trustBooted_keep {s : State} {fw : SignedObj} {hdr : List Byte} {evrValid : Bool} : Keep s (State.trustBooted s fw hdr evrValid) [.phase, .regs, .tru, .evr, .mgt, .out] := by
  unfold State.trustBooted
  repeat' first
    | with_reducible assumption
    | with_reducible apply Keep.refl
    | with_reducible apply Keep.ite
    | with_reducible apply Keep.app State.trustStart_keep
    | with_reducible apply Keep.app State.slotFail_keep
    | with_reducible exact ⟨Mgt.slots_mk, Mgt.dir_mk, Mgt.dirNvm_mk⟩
    | with_reducible exact Mgt.staging_mk
    | with_reducible exact Mgt.lens_mk
    | (show (_ : List Nat) = _; first | with_reducible rfl | (simp [Mgt.lens]; done) | rfl)
    | decide
    | dsimp -proj only [pair_fst, pair_snd]
    | split
    | with_reducible apply Keep.set_phase_mgt

theorem execTrustBootDone_keep {body block hdr : List Byte} {evrHeaderValid : Bool} {s : State} {t_ : State} (h : execTrustBootDone body block hdr evrHeaderValid s = .next t_) : Keep s t_ [.phase, .regs, .tru, .evr, .mgt, .out] := by
  unfold execTrustBootDone at h
  try dsimp -proj only at h
  repeat' split at h
  all_goals
    injection h with h
    subst h
    repeat' first
      | with_reducible assumption
      | with_reducible apply Keep.refl
      | with_reducible apply Keep.app State.trustBooted_keep
      | with_reducible apply Keep.app State.clr_keep
      | decide
      | dsimp -proj only [pair_fst, pair_snd]
      | split

theorem State.memoryReady_keep {s : State} {hbmOk : Bool} : Keep s (State.memoryReady s hbmOk) [.phase, .regs, .cch, .mgt] := by
  unfold State.memoryReady
  repeat' first
    | with_reducible assumption
    | with_reducible apply Keep.refl
    | with_reducible apply Keep.ite
    | with_reducible apply Keep.app State.bootHalt_keep
    | decide
    | dsimp -proj only [pair_fst, pair_snd]
    | split
    | with_reducible apply Keep.set_phase_cch

theorem execMemoryInitDone_keep {hbmOk : Bool} {s : State} {t_ : State} (h : execMemoryInitDone hbmOk s = .next t_) : Keep s t_ [.phase, .regs, .cch, .mgt, .out] := by
  unfold execMemoryInitDone at h
  try dsimp -proj only at h
  repeat' split at h
  all_goals
    injection h with h
    subst h
    repeat' first
      | with_reducible assumption
      | with_reducible apply Keep.refl
      | with_reducible apply Keep.app State.memoryReady_keep
      | with_reducible apply Keep.app State.clr_keep
      | decide
      | dsimp -proj only [pair_fst, pair_snd]
      | split

theorem State.poolsAssembled_keep {s : State} {reads : List PoolRead} : Keep s (State.poolsAssembled s reads) [.phase, .regs, .pools, .mbr, .rop, .evr, .sched, .out] := by
  unfold State.poolsAssembled
  repeat' first
    | with_reducible assumption
    | with_reducible apply Keep.refl
    | with_reducible apply Keep.ite
    | with_reducible apply Keep.app State.assemblePools_keep
    | decide
    | dsimp -proj only [pair_fst, pair_snd]
    | split
    | with_reducible apply Keep.set_phase

theorem execPoolAssemblyDone_keep {reads : List PoolRead} {s : State} {t_ : State} (h : execPoolAssemblyDone reads s = .next t_) : Keep s t_ [.phase, .regs, .pools, .mbr, .rop, .evr, .sched, .out] := by
  unfold execPoolAssemblyDone at h
  try dsimp -proj only at h
  repeat' split at h
  all_goals
    injection h with h
    subst h
    repeat' first
      | with_reducible assumption
      | with_reducible apply Keep.refl
      | with_reducible apply Keep.app State.poolsAssembled_keep
      | with_reducible apply Keep.app State.clr_keep
      | decide
      | dsimp -proj only [pair_fst, pair_snd]
      | split

theorem execMemberDiscoveryDone_keep {s : State} {t_ : State} (h : execMemberDiscoveryDone s = .next t_) : Keep s t_ [.phase, .mbr, .out] := by
  unfold execMemberDiscoveryDone at h
  try dsimp -proj only at h
  repeat' split at h
  all_goals
    injection h with h
    subst h
    repeat' first
      | with_reducible assumption
      | with_reducible apply Keep.refl
      | with_reducible apply Keep.app State.discoveryDone_keep
      | with_reducible apply Keep.app State.clr_keep
      | decide
      | dsimp -proj only [pair_fst, pair_snd]
      | split

end Sys2Proof.Machine
end

