-- ==== Sys2Proof/Laws/KeepFirmware.lean ====
section
/-!
SUPPORT. What each operation of Machine/Firmware.lean keeps: the parts of the state that it may write.
-/
namespace Sys2Proof.Machine

theorem State.restart_keep {s : State} : Keep s (State.restart s) [.phase, .pins, .regs, .tck, .qe, .ord, .cch, .jnl, .cod, .pools, .seq, .fix, .dmv, .mbr, .rop, .hif, .vlt, .tru, .evr, .nvm, .mgt, .sched] := by
  unfold State.restart
  repeat' first
    | with_reducible assumption
    | with_reducible apply Keep.refl
    | with_reducible apply Keep.app State.enterReset_keep
    | with_reducible apply Keep.app State.saveEvents_keep
    | with_reducible apply Keep.app State.startBoot_keep
    | decide
    | dsimp -proj only [pair_fst, pair_snd]
    | split

theorem State.commitTrial_keep {s : State} : Keep s (State.commitTrial s) [.regs, .vlt, .tru, .evr, .nvm, .mgt, .out] := by
  unfold State.commitTrial
  repeat' first
    | with_reducible assumption
    | with_reducible apply Keep.refl
    | with_reducible apply Keep.ite
    | with_reducible apply Keep.app (State.writeDir_keep ?_)
    | with_reducible apply Keep.app State.log_keep
    | with_reducible apply Keep.app State.raiseFloors_keep
    | with_reducible exact ⟨Mgt.slots_mk, Mgt.dir_mk, Mgt.dirNvm_mk⟩
    | with_reducible exact Mgt.staging_mk
    | with_reducible exact Mgt.lens_mk
    | (show (_ : List Nat) = _; first | with_reducible rfl | (simp [Mgt.lens]; done) | rfl)
    | (intro d_; show (_ : Nat) = _; first | rfl | exact List.length_set)
    | (show (_ : Nat) = _; first | exact List.length_set | rfl)
    | decide
    | dsimp -proj only [pair_fst, pair_snd]
    | split
    | with_reducible apply Keep.set_mgt

theorem State.startActivate_keep {s : State} {src : AdmSrc} {tag : BitVec 16} : Keep s (State.startActivate s src tag) [.regs, .qe, .ord, .rop, .hif, .nvm, .mgt, .out] := by
  unfold State.startActivate
  repeat' first
    | with_reducible assumption
    | with_reducible apply Keep.refl
    | with_reducible apply Keep.ite
    | with_reducible apply Keep.app State.admDone_keep
    | with_reducible apply Keep.app (State.writeDir_keep ?_)
    | with_reducible apply Keep.app State.startYield_keep
    | with_reducible exact ⟨Mgt.slots_mk, Mgt.dir_mk, Mgt.dirNvm_mk⟩
    | with_reducible exact Mgt.staging_mk
    | with_reducible exact Mgt.lens_mk
    | (show (_ : List Nat) = _; first | with_reducible rfl | (simp [Mgt.lens]; done) | rfl)
    | (intro d_; show (_ : Nat) = _; first | rfl | exact List.length_set)
    | (show (_ : Nat) = _; first | exact List.length_set | rfl)
    | decide
    | dsimp -proj only [pair_fst, pair_snd]
    | split
    | with_reducible apply Keep.set_mgt

theorem State.stageFailed_keep {s : State} {src : AdmSrc} {tag : BitVec 16} {cause : Nat} : Keep s (State.stageFailed s src tag cause) [.regs, .qe, .evr, .out] := by
  unfold State.stageFailed
  repeat' first
    | with_reducible assumption
    | with_reducible apply Keep.refl
    | with_reducible apply Keep.app State.admDone_keep
    | with_reducible apply Keep.app State.log_keep
    | decide
    | dsimp -proj only [pair_fst, pair_snd]
    | split

theorem State.stageObj_keep {s : State} {src : AdmSrc} {tag : BitVec 16} {kind : ObjKind} {len : BitVec 32} {w : StageWrite} : Keep s (State.stageObj s src tag kind len w) [.regs, .qe, .evr, .nvm, .mgt, .freeCtr, .out] := by
  unfold State.stageObj
  repeat' first
    | intro x_
    | with_reducible assumption
    | with_reducible apply Keep.refl
    | with_reducible apply Keep.ite
    | with_reducible apply State.marked_keep
    | with_reducible apply Keep.app State.inject_keep
    | with_reducible apply Keep.app State.admDone_keep
    | with_reducible apply Keep.app State.stageFailed_keep
    | with_reducible apply State.checked_keep
    | with_reducible apply Keep.app (State.writeDir_keep ?_)
    | with_reducible apply Keep.app State.freeWord_keep
    | with_reducible apply Keep.fst (by assumption)
    | with_reducible apply Keep.snd (by assumption)
    | with_reducible exact ⟨Mgt.slots_mk, Mgt.dir_mk, Mgt.dirNvm_mk⟩
    | with_reducible exact Mgt.staging_mk
    | with_reducible exact Mgt.lens_mk
    | (show (_ : List Nat) = _; first | with_reducible rfl | (simp [Mgt.lens]; done) | rfl)
    | (intro d_; show (_ : Nat) = _; first | rfl | exact List.length_set)
    | (show (_ : Nat) = _; first | exact List.length_set | rfl)
    | decide
    | dsimp -proj only [pair_fst, pair_snd]
    | split
    | with_reducible apply Keep.set_nvm

theorem State.runSerial_keep {s : State} {i : Instr} : Keep s (State.runSerial s i) [.regs, .qe, .ord, .pools, .mbr, .rop, .hif, .tru, .evr, .nvm, .mgt, .freeCtr, .out] := by
  unfold State.runSerial
  repeat' first
    | intro x_
    | with_reducible assumption
    | with_reducible apply Keep.refl
    | with_reducible apply Keep.app State.poolRelease_keep
    | with_reducible apply Keep.app State.startActivate_keep
    | with_reducible apply Keep.app State.poolCreate_keep
    | with_reducible apply Keep.app State.poolReadLost_keep
    | with_reducible apply Keep.app State.poolFail_keep
    | with_reducible apply Keep.app State.frondCancel_keep
    | with_reducible apply Keep.app State.importSecret_keep
    | with_reducible apply Keep.app State.frondStart_keep
    | with_reducible apply Keep.app State.poolAttr_keep
    | with_reducible apply State.checked_keep
    | with_reducible apply Keep.app State.stageObj_keep
    | with_reducible apply Keep.app State.poolAdd_keep
    | with_reducible apply Keep.app State.importKt_keep
    | with_reducible apply Keep.app State.poolRemove_keep
    | with_reducible apply Keep.app State.importKr_keep
    | with_reducible apply Keep.app State.poolStatus_keep
    | with_reducible apply Keep.app State.volDelete_keep
    | with_reducible apply Keep.app State.volAttr_keep
    | with_reducible apply Keep.app State.poolDelete_keep
    | with_reducible apply Keep.app State.volCreate_keep
    | with_reducible apply Keep.app State.poolReplace_keep
    | with_reducible apply Keep.app State.volGrow_keep
    | decide
    | dsimp -proj only [pair_fst, pair_snd]
    | split

theorem State.stepSerial_keep   {x1 : Nat} : ∀ {s : State}, Keep s (State.stepSerial s x1) [.regs, .qe, .ord, .pools, .mbr, .rop, .hif, .tru, .evr, .nvm, .mgt, .freeCtr, .out] := by
  induction x1 with
  | zero =>
    intro s
    unfold State.stepSerial
    repeat' first
      | with_reducible assumption
      | with_reducible apply Keep.refl
      | with_reducible apply Keep.ite
      | with_reducible apply Keep.app State.runSerial_keep
      | with_reducible exact ⟨Mgt.slots_mk, Mgt.dir_mk, Mgt.dirNvm_mk⟩
      | with_reducible exact Mgt.staging_mk
      | with_reducible exact Mgt.lens_mk
      | (show (_ : List Nat) = _; first | with_reducible rfl | (simp [Mgt.lens]; done) | rfl)
      | decide
      | dsimp -proj only [pair_fst, pair_snd]
      | split
      | with_reducible apply Keep.set_mgt
  | succ n ih =>
    intro s
    unfold State.stepSerial
    repeat' first
      | with_reducible assumption
      | with_reducible apply Keep.refl
      | with_reducible apply Keep.app ih
      | with_reducible apply Keep.ite
      | with_reducible apply Keep.app State.runSerial_keep
      | with_reducible exact ⟨Mgt.slots_mk, Mgt.dir_mk, Mgt.dirNvm_mk⟩
      | with_reducible exact Mgt.staging_mk
      | with_reducible exact Mgt.lens_mk
      | (show (_ : List Nat) = _; first | with_reducible rfl | (simp [Mgt.lens]; done) | rfl)
      | decide
      | dsimp -proj only [pair_fst, pair_snd]
      | split
      | with_reducible apply Keep.set_mgt

theorem State.shutdownMark_keep {s : State} : Keep s (State.shutdownMark s) [.jnl, .pools, .mbr, .sched, .out] := by
  unfold State.shutdownMark
  repeat' first
    | intro x_
    | with_reducible assumption
    | with_reducible apply Keep.refl
    | with_reducible apply Keep.app State.updPool_keep
    | with_reducible apply Keep.app State.coldAppend_keep
    | with_reducible apply Keep.each
    | decide
    | dsimp -proj only [pair_fst, pair_snd]
    | split

theorem State.stepActivate_keep {s : State} : Keep s (State.stepActivate s) [.regs, .qe, .cch, .jnl, .pools, .mbr, .mgt, .sched, .out] := by
  unfold State.stepActivate
  repeat' first
    | intro x_
    | with_reducible assumption
    | with_reducible apply Keep.refl
    | with_reducible apply Keep.ite
    | with_reducible apply Keep.app State.activated_keep
    | with_reducible apply Keep.app State.dueVol_keep
    | with_reducible apply Keep.app State.shutdownMark_keep
    | with_reducible apply Keep.app State.flushAll_keep
    | with_reducible apply Keep.each
    | with_reducible exact ⟨Mgt.slots_mk, Mgt.dir_mk, Mgt.dirNvm_mk⟩
    | with_reducible exact Mgt.staging_mk
    | with_reducible exact Mgt.lens_mk
    | (show (_ : List Nat) = _; first | with_reducible rfl | (simp [Mgt.lens]; done) | rfl)
    | decide
    | dsimp -proj only [pair_fst, pair_snd]
    | split
    | with_reducible apply Keep.set_mgt

theorem execFwActivate_keep {src : AdmSrc} {tag : BitVec 16} {obj : ObjKind} {s : State} {t_ : State} (h : execFwActivate src tag obj s = .next t_) : Keep s t_ [.regs, .qe, .ord, .rop, .hif, .nvm, .mgt, .out] := by
  unfold execFwActivate at h
  try dsimp -proj only at h
  repeat' split at h
  all_goals
    injection h with h
    subst h
    repeat' first
      | intro x_
      | with_reducible assumption
      | with_reducible apply Keep.refl
      | with_reducible apply Keep.app State.startActivate_keep
      | with_reducible apply State.takeSerial_keep
      | with_reducible apply Keep.app State.clr_keep
      | decide
      | dsimp -proj only [pair_fst, pair_snd]
      | split

theorem execTrialCommit_keep {s : State} {t_ : State} (h : execTrialCommit s = .next t_) : Keep s t_ [.regs, .vlt, .tru, .evr, .nvm, .mgt, .out] := by
  unfold execTrialCommit at h
  try dsimp -proj only at h
  repeat' split at h
  all_goals
    injection h with h
    subst h
    repeat' first
      | with_reducible assumption
      | with_reducible apply Keep.refl
      | with_reducible apply Keep.app State.commitTrial_keep
      | with_reducible apply Keep.app State.clr_keep
      | decide
      | dsimp -proj only [pair_fst, pair_snd]
      | split

theorem State.stageChunk_keep {s : State} {obj : ObjKind} {off : Nat} {data : List Byte} : Keep s (State.stageChunk s obj off data) [.staging, .mgt] := by
  refine ⟨rfl, rfl, Nat.le_refl _, Nat.le_refl _, fun h => ?_, fun w => w.of rfl rfl rfl rfl rfl rfl rfl rfl rfl, (by intro k hk; cases k <;> first | exact absurd (by decide) hk | exact rfl | exact ⟨rfl, rfl, rfl⟩)⟩
  refine Memory.writeAll_wf _ _ _ ?_
  split
  · exact h
  · rfl

theorem execRequestFirmwareData_keep {obj : ObjKind} {off : BitVec 32} {data : List Byte} {s : State} {t_ : State} (h : execRequestFirmwareData obj off data s = .next t_) : Keep s t_ [.staging, .mgt, .out] := by
  unfold execRequestFirmwareData at h
  try dsimp -proj only at h
  repeat' split at h
  all_goals
    injection h with h
    subst h
    repeat' first
      | with_reducible assumption
      | with_reducible apply Keep.refl
      | with_reducible apply Keep.ite
      | with_reducible apply Keep.app State.stageChunk_keep
      | with_reducible apply Keep.app State.clr_keep
      | decide
      | dsimp -proj only [pair_fst, pair_snd]
      | split

theorem execActivateFirmware_keep {obj : ObjKind} {s : State} {t_ : State} (h : execActivateFirmware obj s = .next t_) : Keep s t_ [.regs, .qe, .ord, .rop, .hif, .nvm, .mgt, .out] := by
  unfold execActivateFirmware at h
  try dsimp -proj only at h
  repeat' split at h
  all_goals
    injection h with h
    subst h
    repeat' first
      | intro x_
      | with_reducible assumption
      | with_reducible apply Keep.refl
      | with_reducible apply Keep.ite
      | with_reducible apply Keep.app State.startActivate_keep
      | with_reducible apply State.takeSerial_keep
      | with_reducible apply Keep.app State.clr_keep
      | decide
      | dsimp -proj only [pair_fst, pair_snd]
      | split

theorem State.download_keep {s : State} {src : AdmSrc} {tag : BitVec 16} {addr : BitVec 64} {obj : ObjKind} {off : BitVec 32} {len : BitVec 32} {chunk : HostRead (List Byte)} : Keep s (State.download s src tag addr obj off len chunk) [.regs, .qe, .staging, .mgt, .out] := by
  unfold State.download
  repeat' first
    | intro x_
    | with_reducible assumption
    | with_reducible apply Keep.refl
    | with_reducible apply Keep.app State.admDone_keep
    | with_reducible apply State.checked_keep
    | with_reducible apply Keep.app State.stageChunk_keep
    | with_reducible apply State.withRead_keep
    | decide
    | dsimp -proj only [pair_fst, pair_snd]
    | split

theorem execFwDownload_keep {src : AdmSrc} {tag : BitVec 16} {addr : BitVec 64} {obj : ObjKind} {off : BitVec 32} {len : BitVec 32} {chunk : HostRead (List Byte)} {s : State} {t_ : State} (h : execFwDownload src tag addr obj off len chunk s = .next t_) : Keep s t_ [.regs, .qe, .hif, .staging, .mgt, .out] := by
  unfold execFwDownload at h
  try dsimp -proj only at h
  repeat' split at h
  all_goals
    injection h with h
    subst h
    repeat' first
      | intro x_
      | with_reducible assumption
      | with_reducible apply Keep.refl
      | with_reducible apply State.takeAdm_keep
      | with_reducible apply Keep.app State.download_keep
      | with_reducible apply Keep.app State.clr_keep
      | decide
      | dsimp -proj only [pair_fst, pair_snd]
      | split

theorem execFwStage_keep {src : AdmSrc} {tag : BitVec 16} {obj : ObjKind} {len : BitVec 32} {w : StageWrite} {s : State} {t_ : State} (h : execFwStage src tag obj len w s = .next t_) : Keep s t_ [.regs, .qe, .hif, .evr, .nvm, .mgt, .freeCtr, .out] := by
  unfold execFwStage at h
  try dsimp -proj only at h
  repeat' split at h
  all_goals
    injection h with h
    subst h
    repeat' first
      | intro x_
      | with_reducible assumption
      | with_reducible apply Keep.refl
      | with_reducible apply State.takeSerial_keep
      | with_reducible apply Keep.app State.stageObj_keep
      | with_reducible apply Keep.app State.clr_keep
      | decide
      | dsimp -proj only [pair_fst, pair_snd]
      | split

end Sys2Proof.Machine
end

