-- ==== Sys2Proof/Laws/KeepTick.lean ====
section
/-!
SUPPORT. What each operation of Machine/Tick.lean keeps: the parts of the state that it may write.
-/
namespace Sys2Proof.Machine

theorem State.setOvr_keep {s : State} {m : BitVec 5} : Keep s (State.setOvr s m) [.regs] := by
  unfold State.setOvr
  repeat' first
    | intro x_
    | with_reducible assumption
    | with_reducible apply Keep.refl
    | with_reducible apply Keep.app State.setReg_keep
    | with_reducible apply Keep.each
    | with_reducible apply Keep.iff
    | decide
    | dsimp -proj only [pair_fst, pair_snd]
    | split

theorem State.overrun_keep {s : State} : Keep s (State.overrun s) [.regs, .tck, .evr, .sched] := by
  unfold State.overrun
  repeat' first
    | intro x_
    | with_reducible assumption
    | with_reducible apply Keep.refl
    | with_reducible apply Keep.ite
    | with_reducible apply Keep.app State.bump_keep
    | with_reducible apply Keep.app State.setOvr_keep
    | with_reducible apply Keep.app State.log_keep
    | with_reducible apply Keep.foldl
    | with_reducible apply Keep.foldlFst
    | with_reducible apply Keep.fst (by assumption)
    | decide
    | dsimp -proj only [pair_fst, pair_snd]
    | split
    | with_reducible apply Keep.set_sched
    | with_reducible apply Keep.set_tck

theorem State.showCounts_keep {s : State} : Keep s (State.showCounts s) [.regs] := by
  unfold State.showCounts
  repeat' first
    | intro x_
    | with_reducible assumption
    | with_reducible apply Keep.refl
    | with_reducible apply Keep.ite
    | with_reducible apply Keep.app State.setReg_keep
    | with_reducible apply Keep.foldl
    | with_reducible apply Keep.foldlFst
    | with_reducible apply Keep.fst (by assumption)
    | decide
    | dsimp -proj only [pair_fst, pair_snd]
    | split

theorem State.retireAll_keep {s : State} : Keep s (State.retireAll s) [.jnl, .rop] := by
  unfold State.retireAll
  repeat' first
    | with_reducible assumption
    | with_reducible apply Keep.refl
    | with_reducible apply Keep.app State.appendRetires_keep
    | decide
    | dsimp -proj only [pair_fst, pair_snd]
    | split

theorem State.sendBelay_keep {s : State} : Keep s (State.sendBelay s) [.regs, .dmv, .rop, .hif, .evr, .sched, .out] := by
  unfold State.sendBelay
  repeat' first
    | intro x_
    | with_reducible assumption
    | with_reducible apply Keep.refl
    | with_reducible apply Keep.app State.drainBelay_keep
    | with_reducible apply Keep.foldl
    | with_reducible apply Keep.foldlFst
    | with_reducible apply Keep.fst (by assumption)
    | decide
    | dsimp -proj only [pair_fst, pair_snd]
    | split

theorem State.step5Stop_keep {s : State} : Keep s (State.step5Stop s) [.regs, .ord, .cch, .jnl, .pools, .seq, .dmv, .rop, .hif, .vlt, .evr, .sched, .out] := by
  unfold State.step5Stop
  repeat' first
    | with_reducible assumption
    | with_reducible apply Keep.refl
    | with_reducible apply Keep.ite
    | with_reducible apply Keep.app State.showCounts_keep
    | with_reducible apply Keep.app State.feed_keep
    | with_reducible apply Keep.app State.retireAll_keep
    | with_reducible apply Keep.app State.writeLog_keep
    | with_reducible apply Keep.app State.openBudgets_keep
    | with_reducible apply Keep.app State.sendBelay_keep
    | with_reducible apply Keep.app State.journalAll_keep
    | with_reducible apply Keep.app State.pace_keep
    | decide
    | dsimp -proj only [pair_fst, pair_snd]
    | split

theorem State.step5Start_keep {s : State} : Keep s (State.step5Start s) [.regs, .pools, .seq, .dmv, .mbr, .rop, .hif, .vlt, .evr, .sched, .out] := by
  unfold State.step5Start
  repeat' first
    | with_reducible assumption
    | with_reducible apply Keep.refl
    | with_reducible apply Keep.ite
    | with_reducible apply Keep.app State.showCounts_keep
    | with_reducible apply Keep.app State.feed_keep
    | with_reducible apply Keep.app State.startCommits_keep
    | with_reducible apply Keep.app State.writeLog_keep
    | with_reducible apply Keep.app State.openBudgets_keep
    | with_reducible apply Keep.app State.sendBelay_keep
    | with_reducible apply Keep.app State.pace_keep
    | decide
    | dsimp -proj only [pair_fst, pair_snd]
    | split

theorem State.step5_keep {s : State} : Keep s (State.step5 s) [.regs, .qe, .ord, .cch, .jnl, .cod, .pools, .seq, .fix, .dmv, .mbr, .rop, .hif, .vlt, .tru, .evr, .mgt, .sched, .freeCtr, .out] := by
  unfold State.step5
  repeat' first
    | intro x_
    | with_reducible assumption
    | with_reducible apply Keep.refl
    | with_reducible apply Keep.app State.showCounts_keep
    | with_reducible apply Keep.app State.feed_keep
    | with_reducible apply Keep.app State.markDue_keep
    | with_reducible apply Keep.app State.dirSync_keep
    | with_reducible apply Keep.app State.retireAll_keep
    | with_reducible apply Keep.app State.moveFwds_keep
    | with_reducible apply Keep.app State.moveReads_keep
    | with_reducible apply Keep.app State.startCommits_keep
    | with_reducible apply Keep.app State.offerWaiting_keep
    | with_reducible apply Keep.app State.throttle_keep
    | with_reducible apply Keep.app State.passSlots_keep
    | with_reducible apply Keep.app State.background_keep
    | with_reducible apply Keep.app State.runFg_keep
    | with_reducible apply Keep.app State.offerSlices_keep
    | with_reducible apply Keep.app State.writeLog_keep
    | with_reducible apply State.withShare_keep
    | with_reducible apply Keep.app State.quietTimers_keep
    | with_reducible apply Keep.app State.rewriteBits_keep
    | with_reducible apply Keep.app State.openBudgets_keep
    | with_reducible apply Keep.app State.sendBelay_keep
    | with_reducible apply Keep.app State.stepRereps_keep
    | with_reducible apply Keep.app State.offerFwds_keep
    | with_reducible apply Keep.app State.relocate_keep
    | with_reducible apply Keep.app State.flushTrack_keep
    | with_reducible apply Keep.app State.journalAll_keep
    | with_reducible apply Keep.app State.sendAsked_keep
    | with_reducible apply Keep.app State.pace_keep
    | with_reducible apply Keep.app State.offerDestages_keep
    | decide
    | dsimp -proj only [pair_fst, pair_snd]
    | split

theorem State.lastStep_keep {s : State} : Keep s (State.lastStep s) [.regs, .qe, .ord, .cch, .jnl, .cod, .pools, .seq, .fix, .dmv, .mbr, .rop, .hif, .vlt, .tru, .evr, .mgt, .sched, .freeCtr, .out] := by
  unfold State.lastStep
  repeat' first
    | with_reducible assumption
    | with_reducible apply Keep.refl
    | with_reducible apply Keep.app State.step5Stop_keep
    | with_reducible apply Keep.app State.step5Start_keep
    | with_reducible apply Keep.app State.step5_keep
    | decide
    | dsimp -proj only [pair_fst, pair_snd]
    | split

theorem State.flushEdge_keep {s : State} : Keep s (State.flushEdge s) [.pins, .regs, .qe, .ord, .cch, .jnl, .pools, .rop, .hif, .vlt, .evr, .sched, .out] := by
  unfold State.flushEdge
  repeat' first
    | intro x_
    | with_reducible assumption
    | with_reducible apply Keep.refl
    | with_reducible apply Keep.app State.post_keep
    | with_reducible apply Keep.app State.ddtStep_keep
    | with_reducible apply Keep.app State.applySets_keep
    | with_reducible apply Keep.app State.applyShadows_keep
    | with_reducible apply Keep.app State.vaultEdge_keep
    | with_reducible apply Keep.app State.alerts_keep
    | with_reducible apply Keep.iff
    | decide
    | dsimp -proj only [pair_fst, pair_snd]
    | split

theorem State.pmeEvents_keep {s : State} : Keep s (State.pmeEvents s) [.pins, .hif, .out] := by
  unfold State.pmeEvents
  repeat' first
    | intro x_
    | with_reducible assumption
    | with_reducible apply Keep.refl
    | with_reducible apply Keep.ite
    | with_reducible apply Keep.app State.pmeAll_keep
    | with_reducible apply Keep.iff
    | with_reducible exact Hif.lens_mk
    | (show (_ : List Nat) = _; first | with_reducible rfl | (simp [Hif.lens]; done) | rfl)
    | decide
    | dsimp -proj only [pair_fst, pair_snd]
    | split
    | with_reducible apply Keep.set_hif

theorem State.step4_keep {s : State} : Keep s (State.step4 s) [.pins, .regs, .tck, .qe, .ord, .cch, .jnl, .pools, .rop, .hif, .evr, .sched, .freeCtr, .out] := by
  unfold State.step4
  repeat' first
    | with_reducible assumption
    | with_reducible apply Keep.refl
    | with_reducible apply Keep.app State.post_keep
    | with_reducible apply Keep.app State.announceAll_keep
    | with_reducible apply Keep.app State.heartbeats_keep
    | with_reducible apply Keep.app State.pmeEvents_keep
    | with_reducible apply Keep.app State.sendSync_keep
    | with_reducible apply Keep.app State.sendDelayReq_keep
    | decide
    | dsimp -proj only [pair_fst, pair_snd]
    | split

theorem State.lateYield_keep {s : State} : Keep s (State.lateYield s) [.phase, .regs, .qe, .rop, .vlt, .evr, .mgt, .out] := by
  unfold State.lateYield
  repeat' first
    | intro x_
    | with_reducible assumption
    | with_reducible apply Keep.refl
    | with_reducible apply Keep.ite
    | with_reducible apply Keep.app State.admDone_keep
    | with_reducible apply Keep.app State.startBivouac_keep
    | with_reducible apply Keep.iff
    | with_reducible exact ⟨Mgt.slots_mk, Mgt.dir_mk, Mgt.dirNvm_mk⟩
    | with_reducible exact Mgt.staging_mk
    | with_reducible exact Mgt.lens_mk
    | with_reducible exact Rop.lens_mk
    | (show (_ : List Nat) = _; first | with_reducible rfl | (simp [Mgt.lens, Rop.lens]; done) | rfl)
    | decide
    | dsimp -proj only [pair_fst, pair_snd]
    | split
    | with_reducible apply Keep.set_rop
    | with_reducible apply Keep.set_mgt

theorem State.invalidations_keep {s : State} : Keep s (State.invalidations s) [.regs, .hif, .out] := by
  unfold State.invalidations
  repeat' first
    | with_reducible assumption
    | with_reducible apply Keep.refl
    | with_reducible apply Keep.app State.invalDone_keep
    | decide
    | dsimp -proj only [pair_fst, pair_snd]
    | split

theorem State.failStopStep_keep {s : State} : Keep s (State.failStopStep s) [.phase, .regs, .qe, .ord, .cch, .jnl, .rop, .hif, .vlt, .evr, .out] := by
  unfold State.failStopStep
  repeat' first
    | with_reducible assumption
    | with_reducible apply Keep.refl
    | with_reducible apply Keep.ite
    | with_reducible apply Keep.app State.setReg_keep
    | with_reducible apply Keep.app State.endAll_keep
    | with_reducible apply Keep.app State.startYield_keep
    | with_reducible apply Keep.app State.startBivouac_keep
    | with_reducible exact Rop.lens_mk
    | (show (_ : List Nat) = _; first | with_reducible rfl | (simp [Rop.lens]; done) | rfl)
    | decide
    | dsimp -proj only [pair_fst, pair_snd]
    | split
    | with_reducible apply Keep.set_qe
    | with_reducible apply Keep.set_rop

theorem State.step3_keep {s : State} : Keep s (State.step3 s) [.phase, .regs, .tck, .qe, .ord, .cch, .jnl, .pools, .seq, .fix, .dmv, .mbr, .rop, .hif, .vlt, .tru, .evr, .nvm, .mgt, .sched, .freeCtr, .out] := by
  unfold State.step3
  repeat' first
    | intro x_
    | with_reducible assumption
    | with_reducible apply Keep.refl
    | with_reducible apply Keep.app State.journalExposure_keep
    | with_reducible apply Keep.app State.commitTrial_keep
    | with_reducible apply Keep.app State.stepSerial_keep
    | with_reducible apply State.marked_keep
    | with_reducible apply Keep.app State.settleClaims_keep
    | with_reducible apply Keep.app State.retxAll_keep
    | with_reducible apply Keep.app State.secureSolo_keep
    | with_reducible apply Keep.app State.conditions_keep
    | with_reducible apply Keep.app State.stepYield_keep
    | with_reducible apply Keep.app State.memTimers_keep
    | with_reducible apply Keep.app State.finishTasks_keep
    | with_reducible apply Keep.app State.spinLimits_keep
    | with_reducible apply Keep.app State.stepPowers_keep
    | with_reducible apply Keep.app State.landLocal_keep
    | with_reducible apply Keep.app State.settleCmds_keep
    | with_reducible apply Keep.app State.freeSuperseded_keep
    | with_reducible apply Keep.app State.retirePass_keep
    | with_reducible apply Keep.app State.handbacks_keep
    | with_reducible apply Keep.app State.lateYield_keep
    | with_reducible apply Keep.app State.peerTimeouts_keep
    | with_reducible apply Keep.app State.invalidations_keep
    | with_reducible apply Keep.app State.takeDmv_keep
    | with_reducible apply Keep.app State.takeBelay_keep
    | with_reducible apply Keep.app State.failStopStep_keep
    | with_reducible apply Keep.app State.stepFlushes_keep
    | with_reducible apply Keep.app State.takeCommits_keep
    | with_reducible apply Keep.app State.openWaiting_keep
    | with_reducible apply Keep.app State.takeReplies_keep
    | with_reducible apply Keep.app State.honourYield_keep
    | with_reducible apply Keep.app State.stepSetup_keep
    | with_reducible apply Keep.app State.dropYielded_keep
    | with_reducible apply Keep.app State.admCommits_keep
    | with_reducible apply Keep.app State.coldDone_keep
    | with_reducible apply Keep.app State.stepActivate_keep
    | with_reducible apply Keep.app State.pickJms_keep
    | with_reducible apply Keep.app State.testSeals_keep
    | with_reducible apply Keep.app State.bitmapDone_keep
    | with_reducible apply Keep.app State.takeDone_keep
    | with_reducible apply Keep.app State.takeReports_keep
    | with_reducible apply Keep.app State.stepTakeovers_keep
    | with_reducible apply Keep.app State.memberTimers_keep
    | with_reducible apply Keep.app State.stepPartner_keep
    | with_reducible apply Keep.app State.takeDeclared_keep
    | with_reducible apply Keep.app State.stepStart_keep
    | with_reducible apply Keep.app State.needMembers_keep
    | with_reducible apply Keep.app State.missingTimers_keep
    | with_reducible apply Keep.app State.deliverRecon_keep
    | with_reducible apply Keep.app State.settleSlices_keep
    | with_reducible apply Keep.each
    | decide
    | dsimp -proj only [pair_fst, pair_snd]
    | split
    | with_reducible apply Keep.set_cch

theorem State.stepGen_keep {s : State} {pid : BitVec 16} {v : BitVec 12} : Keep s (State.stepGen s pid v) [.regs, .pools, .evr] := by
  unfold State.stepGen
  repeat' first
    | intro x_
    | with_reducible assumption
    | with_reducible apply Keep.refl
    | with_reducible apply Keep.ite
    | with_reducible apply Keep.app State.updPool_keep
    | with_reducible apply Keep.app State.log_keep
    | with_reducible apply Keep.iff
    | decide
    | dsimp -proj only [pair_fst, pair_snd]
    | split

theorem State.stepGens_keep {s : State} : Keep s (State.stepGens s) [.regs, .pools, .evr] := by
  unfold State.stepGens
  repeat' first
    | intro x_
    | with_reducible assumption
    | with_reducible apply Keep.refl
    | with_reducible apply Keep.app State.stepGen_keep
    | with_reducible apply Keep.each
    | decide
    | dsimp -proj only [pair_fst, pair_snd]
    | split

theorem State.dropWin0_keep {s : State} : Keep s (State.dropWin0 s) [.rop] := by
  unfold State.dropWin0
  repeat' first
    | with_reducible assumption
    | with_reducible apply Keep.refl
    | with_reducible apply Keep.ite
    | with_reducible exact Rop.lens_mk
    | (show (_ : List Nat) = _; first | with_reducible rfl | (simp [Rop.lens]; done) | rfl)
    | decide
    | dsimp -proj only [pair_fst, pair_snd]
    | split
    | with_reducible apply Keep.set_rop

theorem State.heldLines_keep {s : State} : Keep s (State.heldLines s) [.qe, .hif, .out] := by
  unfold State.heldLines
  repeat' first
    | intro x_
    | with_reducible assumption
    | with_reducible apply Keep.refl
    | with_reducible apply Keep.app State.reread_keep
    | with_reducible apply Keep.each
    | decide
    | dsimp -proj only [pair_fst, pair_snd]
    | split

theorem State.step1_keep {s : State} : Keep s (State.step1 s) [.regs, .tck, .qe, .pools, .fix, .mbr, .rop, .hif, .vlt, .evr, .mgt, .freeCtr, .out] := by
  unfold State.step1
  repeat' first
    | with_reducible assumption
    | with_reducible apply Keep.refl
    | with_reducible apply Keep.app State.publishPools_keep
    | with_reducible apply Keep.app State.ddtStep_keep
    | with_reducible apply Keep.app State.chooseRef_keep
    | with_reducible apply Keep.app State.applySets_keep
    | with_reducible apply Keep.app State.injectStep_keep
    | with_reducible apply Keep.app State.testSync_keep
    | with_reducible apply Keep.app State.applyShadows_keep
    | with_reducible apply Keep.app State.vaultEdge_keep
    | with_reducible apply Keep.app State.stepGens_keep
    | with_reducible apply Keep.app State.pauseTick_keep
    | with_reducible apply Keep.app State.clearAll_keep
    | with_reducible apply Keep.app State.applyDir_keep
    | with_reducible apply Keep.app State.dropWin0_keep
    | with_reducible apply Keep.app State.heldLines_keep
    | with_reducible apply Keep.app State.replaceJms_keep
    | with_reducible apply Keep.app State.pathTicks_keep
    | with_reducible apply Keep.app State.passCursors_keep
    | with_reducible apply Keep.app State.linkFactors_keep
    | with_reducible apply Keep.app State.alerts_keep
    | with_reducible apply Keep.app State.countCores_keep
    | decide
    | dsimp -proj only [pair_fst, pair_snd]
    | split

theorem State.steps1to4_keep {s : State} : Keep s (State.steps1to4 s) [.phase, .pins, .regs, .tck, .qe, .ord, .cch, .jnl, .pools, .seq, .fix, .dmv, .mbr, .rop, .hif, .vlt, .tru, .evr, .nvm, .mgt, .sched, .freeCtr, .out] := by
  unfold State.steps1to4
  repeat' first
    | with_reducible assumption
    | with_reducible apply Keep.refl
    | with_reducible apply Keep.app State.sealCut_keep
    | with_reducible apply Keep.app State.step4_keep
    | with_reducible apply Keep.app State.step3_keep
    | with_reducible apply Keep.app State.step1_keep
    | decide
    | dsimp -proj only [pair_fst, pair_snd]
    | split
    | with_reducible apply Keep.set_sched

theorem State.edgeWork_keep {s : State} : Keep s (State.edgeWork s) [.phase, .pins, .regs, .tck, .qe, .ord, .cch, .jnl, .cod, .pools, .seq, .fix, .dmv, .mbr, .rop, .hif, .vlt, .tru, .evr, .nvm, .mgt, .sched, .freeCtr, .out] := by
  unfold State.edgeWork
  repeat' first
    | with_reducible assumption
    | with_reducible apply Keep.refl
    | with_reducible apply Keep.ite
    | with_reducible apply Keep.app State.lastStep_keep
    | with_reducible apply Keep.app State.restart_keep
    | with_reducible apply Keep.app State.flushEdge_keep
    | with_reducible apply Keep.app State.steps1to4_keep
    | decide
    | dsimp -proj only [pair_fst, pair_snd]
    | split

theorem State.tick_keep {s : State} : Keep s (State.tick s) [.phase, .pins, .regs, .tck, .qe, .ord, .cch, .jnl, .cod, .pools, .seq, .fix, .dmv, .mbr, .rop, .hif, .vlt, .tru, .evr, .nvm, .mgt, .sched, .freeCtr, .out] := by
  unfold State.tick
  repeat' first
    | intro x_
    | with_reducible assumption
    | with_reducible apply Keep.refl
    | with_reducible apply Keep.ite
    | with_reducible apply Keep.app State.overrun_keep
    | with_reducible apply Keep.app State.edgeWork_keep
    | with_reducible apply State.oneCycle_keep
    | with_reducible apply Keep.app State.advance_keep
    | decide
    | dsimp -proj only [pair_fst, pair_snd]
    | split

theorem execTickEdge_keep {s : State} {t_ : State} (h : execTickEdge s = .next t_) : Keep s t_ [.phase, .pins, .regs, .tck, .qe, .ord, .cch, .jnl, .cod, .pools, .seq, .fix, .dmv, .mbr, .rop, .hif, .vlt, .tru, .evr, .nvm, .mgt, .sched, .freeCtr, .out] := by
  unfold execTickEdge at h
  try dsimp -proj only at h
  repeat' split at h
  all_goals
    injection h with h
    subst h
    repeat' first
      | with_reducible assumption
      | with_reducible apply Keep.refl
      | with_reducible apply Keep.app State.tick_keep
      | with_reducible apply Keep.app State.clr_keep
      | decide
      | dsimp -proj only [pair_fst, pair_snd]
      | split

theorem execYieldTimeout_keep {s : State} {t_ : State} (h : execYieldTimeout s = .next t_) : Keep s t_ [.phase, .regs, .qe, .rop, .vlt, .evr, .mgt, .out] := by
  unfold execYieldTimeout at h
  try dsimp -proj only at h
  repeat' split at h
  all_goals
    injection h with h
    subst h
    repeat' first
      | with_reducible assumption
      | with_reducible apply Keep.refl
      | with_reducible apply Keep.app State.lateYield_keep
      | with_reducible apply Keep.app State.clr_keep
      | decide
      | dsimp -proj only [pair_fst, pair_snd]
      | split

end Sys2Proof.Machine
end

