-- ==== Sys2Proof/Laws/State.lean ====
section
/-!
SUPPORT. Reading a part of the state after an update of another: one lemma for each part and update.
-/
namespace Sys2Proof.Machine

/-! ### clr -/
@[simp] theorem State.clr_pending (s : State) : (s.clr).pending = s.pending := rfl
@[simp] theorem State.clr_part (s : State) : (s.clr).part = s.part := rfl
@[simp] theorem State.clr_phase (s : State) : (s.clr).phase = s.phase := rfl
@[simp] theorem State.clr_pins (s : State) : (s.clr).pins = s.pins := rfl
@[simp] theorem State.clr_temps (s : State) : (s.clr).temps = s.temps := rfl
@[simp] theorem State.clr_regs (s : State) : (s.clr).regs = s.regs := rfl
@[simp] theorem State.clr_tck (s : State) : (s.clr).tck = s.tck := rfl
@[simp] theorem State.clr_qe (s : State) : (s.clr).qe = s.qe := rfl
@[simp] theorem State.clr_ord (s : State) : (s.clr).ord = s.ord := rfl
@[simp] theorem State.clr_cch (s : State) : (s.clr).cch = s.cch := rfl
@[simp] theorem State.clr_jnl (s : State) : (s.clr).jnl = s.jnl := rfl
@[simp] theorem State.clr_cod (s : State) : (s.clr).cod = s.cod := rfl
@[simp] theorem State.clr_pools (s : State) : (s.clr).pools = s.pools := rfl
@[simp] theorem State.clr_seq (s : State) : (s.clr).seq = s.seq := rfl
@[simp] theorem State.clr_fix (s : State) : (s.clr).fix = s.fix := rfl
@[simp] theorem State.clr_dmv (s : State) : (s.clr).dmv = s.dmv := rfl
@[simp] theorem State.clr_mbr (s : State) : (s.clr).mbr = s.mbr := rfl
@[simp] theorem State.clr_rop (s : State) : (s.clr).rop = s.rop := rfl
@[simp] theorem State.clr_hif (s : State) : (s.clr).hif = s.hif := rfl
@[simp] theorem State.clr_vlt (s : State) : (s.clr).vlt = s.vlt := rfl
@[simp] theorem State.clr_tru (s : State) : (s.clr).tru = s.tru := rfl
@[simp] theorem State.clr_evr (s : State) : (s.clr).evr = s.evr := rfl
@[simp] theorem State.clr_mgt (s : State) : (s.clr).mgt = s.mgt := rfl
@[simp] theorem State.clr_sched (s : State) : (s.clr).sched = s.sched := rfl
@[simp] theorem State.clr_freeCtr (s : State) : (s.clr).freeCtr = s.freeCtr := rfl
@[simp] theorem State.clr_out (s : State) : s.clr.out = [] := rfl

/-! ### emit -/
@[simp] theorem State.emit_pending (s : State) (o : Out) : (s.emit o).pending = s.pending := rfl
@[simp] theorem State.emit_part (s : State) (o : Out) : (s.emit o).part = s.part := rfl
@[simp] theorem State.emit_phase (s : State) (o : Out) : (s.emit o).phase = s.phase := rfl
@[simp] theorem State.emit_pins (s : State) (o : Out) : (s.emit o).pins = s.pins := rfl
@[simp] theorem State.emit_temps (s : State) (o : Out) : (s.emit o).temps = s.temps := rfl
@[simp] theorem State.emit_regs (s : State) (o : Out) : (s.emit o).regs = s.regs := rfl
@[simp] theorem State.emit_tck (s : State) (o : Out) : (s.emit o).tck = s.tck := rfl
@[simp] theorem State.emit_qe (s : State) (o : Out) : (s.emit o).qe = s.qe := rfl
@[simp] theorem State.emit_ord (s : State) (o : Out) : (s.emit o).ord = s.ord := rfl
@[simp] theorem State.emit_cch (s : State) (o : Out) : (s.emit o).cch = s.cch := rfl
@[simp] theorem State.emit_jnl (s : State) (o : Out) : (s.emit o).jnl = s.jnl := rfl
@[simp] theorem State.emit_cod (s : State) (o : Out) : (s.emit o).cod = s.cod := rfl
@[simp] theorem State.emit_pools (s : State) (o : Out) : (s.emit o).pools = s.pools := rfl
@[simp] theorem State.emit_seq (s : State) (o : Out) : (s.emit o).seq = s.seq := rfl
@[simp] theorem State.emit_fix (s : State) (o : Out) : (s.emit o).fix = s.fix := rfl
@[simp] theorem State.emit_dmv (s : State) (o : Out) : (s.emit o).dmv = s.dmv := rfl
@[simp] theorem State.emit_mbr (s : State) (o : Out) : (s.emit o).mbr = s.mbr := rfl
@[simp] theorem State.emit_rop (s : State) (o : Out) : (s.emit o).rop = s.rop := rfl
@[simp] theorem State.emit_hif (s : State) (o : Out) : (s.emit o).hif = s.hif := rfl
@[simp] theorem State.emit_vlt (s : State) (o : Out) : (s.emit o).vlt = s.vlt := rfl
@[simp] theorem State.emit_tru (s : State) (o : Out) : (s.emit o).tru = s.tru := rfl
@[simp] theorem State.emit_evr (s : State) (o : Out) : (s.emit o).evr = s.evr := rfl
@[simp] theorem State.emit_mgt (s : State) (o : Out) : (s.emit o).mgt = s.mgt := rfl
@[simp] theorem State.emit_sched (s : State) (o : Out) : (s.emit o).sched = s.sched := rfl
@[simp] theorem State.emit_freeCtr (s : State) (o : Out) : (s.emit o).freeCtr = s.freeCtr := rfl
@[simp] theorem State.emit_out (s : State) (o : Out) : (s.emit o).out = s.out ++ [o] := rfl

/-! ### emits -/
@[simp] theorem State.emits_pending (s : State) (os : List Out) : (s.emits os).pending = s.pending := rfl
@[simp] theorem State.emits_part (s : State) (os : List Out) : (s.emits os).part = s.part := rfl
@[simp] theorem State.emits_phase (s : State) (os : List Out) : (s.emits os).phase = s.phase := rfl
@[simp] theorem State.emits_pins (s : State) (os : List Out) : (s.emits os).pins = s.pins := rfl
@[simp] theorem State.emits_temps (s : State) (os : List Out) : (s.emits os).temps = s.temps := rfl
@[simp] theorem State.emits_regs (s : State) (os : List Out) : (s.emits os).regs = s.regs := rfl
@[simp] theorem State.emits_tck (s : State) (os : List Out) : (s.emits os).tck = s.tck := rfl
@[simp] theorem State.emits_qe (s : State) (os : List Out) : (s.emits os).qe = s.qe := rfl
@[simp] theorem State.emits_ord (s : State) (os : List Out) : (s.emits os).ord = s.ord := rfl
@[simp] theorem State.emits_cch (s : State) (os : List Out) : (s.emits os).cch = s.cch := rfl
@[simp] theorem State.emits_jnl (s : State) (os : List Out) : (s.emits os).jnl = s.jnl := rfl
@[simp] theorem State.emits_cod (s : State) (os : List Out) : (s.emits os).cod = s.cod := rfl
@[simp] theorem State.emits_pools (s : State) (os : List Out) : (s.emits os).pools = s.pools := rfl
@[simp] theorem State.emits_seq (s : State) (os : List Out) : (s.emits os).seq = s.seq := rfl
@[simp] theorem State.emits_fix (s : State) (os : List Out) : (s.emits os).fix = s.fix := rfl
@[simp] theorem State.emits_dmv (s : State) (os : List Out) : (s.emits os).dmv = s.dmv := rfl
@[simp] theorem State.emits_mbr (s : State) (os : List Out) : (s.emits os).mbr = s.mbr := rfl
@[simp] theorem State.emits_rop (s : State) (os : List Out) : (s.emits os).rop = s.rop := rfl
@[simp] theorem State.emits_hif (s : State) (os : List Out) : (s.emits os).hif = s.hif := rfl
@[simp] theorem State.emits_vlt (s : State) (os : List Out) : (s.emits os).vlt = s.vlt := rfl
@[simp] theorem State.emits_tru (s : State) (os : List Out) : (s.emits os).tru = s.tru := rfl
@[simp] theorem State.emits_evr (s : State) (os : List Out) : (s.emits os).evr = s.evr := rfl
@[simp] theorem State.emits_mgt (s : State) (os : List Out) : (s.emits os).mgt = s.mgt := rfl
@[simp] theorem State.emits_sched (s : State) (os : List Out) : (s.emits os).sched = s.sched := rfl
@[simp] theorem State.emits_freeCtr (s : State) (os : List Out) : (s.emits os).freeCtr = s.freeCtr := rfl
@[simp] theorem State.emits_out (s : State) (os : List Out) : (s.emits os).out = s.out ++ os := rfl

/-! ### setReg -/
@[simp] theorem State.setReg_pending (s : State) (f : Fld) (v ix : Nat) : (s.setReg f v ix).pending = s.pending := rfl
@[simp] theorem State.setReg_part (s : State) (f : Fld) (v ix : Nat) : (s.setReg f v ix).part = s.part := rfl
@[simp] theorem State.setReg_phase (s : State) (f : Fld) (v ix : Nat) : (s.setReg f v ix).phase = s.phase := rfl
@[simp] theorem State.setReg_pins (s : State) (f : Fld) (v ix : Nat) : (s.setReg f v ix).pins = s.pins := rfl
@[simp] theorem State.setReg_temps (s : State) (f : Fld) (v ix : Nat) : (s.setReg f v ix).temps = s.temps := rfl
@[simp] theorem State.setReg_tck (s : State) (f : Fld) (v ix : Nat) : (s.setReg f v ix).tck = s.tck := rfl
@[simp] theorem State.setReg_qe (s : State) (f : Fld) (v ix : Nat) : (s.setReg f v ix).qe = s.qe := rfl
@[simp] theorem State.setReg_ord (s : State) (f : Fld) (v ix : Nat) : (s.setReg f v ix).ord = s.ord := rfl
@[simp] theorem State.setReg_cch (s : State) (f : Fld) (v ix : Nat) : (s.setReg f v ix).cch = s.cch := rfl
@[simp] theorem State.setReg_jnl (s : State) (f : Fld) (v ix : Nat) : (s.setReg f v ix).jnl = s.jnl := rfl
@[simp] theorem State.setReg_cod (s : State) (f : Fld) (v ix : Nat) : (s.setReg f v ix).cod = s.cod := rfl
@[simp] theorem State.setReg_pools (s : State) (f : Fld) (v ix : Nat) : (s.setReg f v ix).pools = s.pools := rfl
@[simp] theorem State.setReg_seq (s : State) (f : Fld) (v ix : Nat) : (s.setReg f v ix).seq = s.seq := rfl
@[simp] theorem State.setReg_fix (s : State) (f : Fld) (v ix : Nat) : (s.setReg f v ix).fix = s.fix := rfl
@[simp] theorem State.setReg_dmv (s : State) (f : Fld) (v ix : Nat) : (s.setReg f v ix).dmv = s.dmv := rfl
@[simp] theorem State.setReg_mbr (s : State) (f : Fld) (v ix : Nat) : (s.setReg f v ix).mbr = s.mbr := rfl
@[simp] theorem State.setReg_rop (s : State) (f : Fld) (v ix : Nat) : (s.setReg f v ix).rop = s.rop := rfl
@[simp] theorem State.setReg_hif (s : State) (f : Fld) (v ix : Nat) : (s.setReg f v ix).hif = s.hif := rfl
@[simp] theorem State.setReg_vlt (s : State) (f : Fld) (v ix : Nat) : (s.setReg f v ix).vlt = s.vlt := rfl
@[simp] theorem State.setReg_tru (s : State) (f : Fld) (v ix : Nat) : (s.setReg f v ix).tru = s.tru := rfl
@[simp] theorem State.setReg_evr (s : State) (f : Fld) (v ix : Nat) : (s.setReg f v ix).evr = s.evr := rfl
@[simp] theorem State.setReg_mgt (s : State) (f : Fld) (v ix : Nat) : (s.setReg f v ix).mgt = s.mgt := rfl
@[simp] theorem State.setReg_sched (s : State) (f : Fld) (v ix : Nat) : (s.setReg f v ix).sched = s.sched := rfl
@[simp] theorem State.setReg_freeCtr (s : State) (f : Fld) (v ix : Nat) : (s.setReg f v ix).freeCtr = s.freeCtr := rfl
@[simp] theorem State.setReg_out (s : State) (f : Fld) (v ix : Nat) : (s.setReg f v ix).out = s.out := rfl

/-! ### updSq -/
@[simp] theorem State.updSq_pending (s : State) (q : RingRef) (f : Sq → Sq) : (s.updSq q f).pending = s.pending := rfl
@[simp] theorem State.updSq_part (s : State) (q : RingRef) (f : Sq → Sq) : (s.updSq q f).part = s.part := rfl
@[simp] theorem State.updSq_phase (s : State) (q : RingRef) (f : Sq → Sq) : (s.updSq q f).phase = s.phase := rfl
@[simp] theorem State.updSq_pins (s : State) (q : RingRef) (f : Sq → Sq) : (s.updSq q f).pins = s.pins := rfl
@[simp] theorem State.updSq_temps (s : State) (q : RingRef) (f : Sq → Sq) : (s.updSq q f).temps = s.temps := rfl
@[simp] theorem State.updSq_regs (s : State) (q : RingRef) (f : Sq → Sq) : (s.updSq q f).regs = s.regs := rfl
@[simp] theorem State.updSq_tck (s : State) (q : RingRef) (f : Sq → Sq) : (s.updSq q f).tck = s.tck := rfl
@[simp] theorem State.updSq_ord (s : State) (q : RingRef) (f : Sq → Sq) : (s.updSq q f).ord = s.ord := rfl
@[simp] theorem State.updSq_cch (s : State) (q : RingRef) (f : Sq → Sq) : (s.updSq q f).cch = s.cch := rfl
@[simp] theorem State.updSq_jnl (s : State) (q : RingRef) (f : Sq → Sq) : (s.updSq q f).jnl = s.jnl := rfl
@[simp] theorem State.updSq_cod (s : State) (q : RingRef) (f : Sq → Sq) : (s.updSq q f).cod = s.cod := rfl
@[simp] theorem State.updSq_pools (s : State) (q : RingRef) (f : Sq → Sq) : (s.updSq q f).pools = s.pools := rfl
@[simp] theorem State.updSq_seq (s : State) (q : RingRef) (f : Sq → Sq) : (s.updSq q f).seq = s.seq := rfl
@[simp] theorem State.updSq_fix (s : State) (q : RingRef) (f : Sq → Sq) : (s.updSq q f).fix = s.fix := rfl
@[simp] theorem State.updSq_dmv (s : State) (q : RingRef) (f : Sq → Sq) : (s.updSq q f).dmv = s.dmv := rfl
@[simp] theorem State.updSq_mbr (s : State) (q : RingRef) (f : Sq → Sq) : (s.updSq q f).mbr = s.mbr := rfl
@[simp] theorem State.updSq_rop (s : State) (q : RingRef) (f : Sq → Sq) : (s.updSq q f).rop = s.rop := rfl
@[simp] theorem State.updSq_hif (s : State) (q : RingRef) (f : Sq → Sq) : (s.updSq q f).hif = s.hif := rfl
@[simp] theorem State.updSq_vlt (s : State) (q : RingRef) (f : Sq → Sq) : (s.updSq q f).vlt = s.vlt := rfl
@[simp] theorem State.updSq_tru (s : State) (q : RingRef) (f : Sq → Sq) : (s.updSq q f).tru = s.tru := rfl
@[simp] theorem State.updSq_evr (s : State) (q : RingRef) (f : Sq → Sq) : (s.updSq q f).evr = s.evr := rfl
@[simp] theorem State.updSq_mgt (s : State) (q : RingRef) (f : Sq → Sq) : (s.updSq q f).mgt = s.mgt := rfl
@[simp] theorem State.updSq_sched (s : State) (q : RingRef) (f : Sq → Sq) : (s.updSq q f).sched = s.sched := rfl
@[simp] theorem State.updSq_freeCtr (s : State) (q : RingRef) (f : Sq → Sq) : (s.updSq q f).freeCtr = s.freeCtr := rfl
@[simp] theorem State.updSq_out (s : State) (q : RingRef) (f : Sq → Sq) : (s.updSq q f).out = s.out := rfl

/-! ### updCq -/
@[simp] theorem State.updCq_pending (s : State) (q : RingRef) (f : Cq → Cq) : (s.updCq q f).pending = s.pending := rfl
@[simp] theorem State.updCq_part (s : State) (q : RingRef) (f : Cq → Cq) : (s.updCq q f).part = s.part := rfl
@[simp] theorem State.updCq_phase (s : State) (q : RingRef) (f : Cq → Cq) : (s.updCq q f).phase = s.phase := rfl
@[simp] theorem State.updCq_pins (s : State) (q : RingRef) (f : Cq → Cq) : (s.updCq q f).pins = s.pins := rfl
@[simp] theorem State.updCq_temps (s : State) (q : RingRef) (f : Cq → Cq) : (s.updCq q f).temps = s.temps := rfl
@[simp] theorem State.updCq_regs (s : State) (q : RingRef) (f : Cq → Cq) : (s.updCq q f).regs = s.regs := rfl
@[simp] theorem State.updCq_tck (s : State) (q : RingRef) (f : Cq → Cq) : (s.updCq q f).tck = s.tck := rfl
@[simp] theorem State.updCq_ord (s : State) (q : RingRef) (f : Cq → Cq) : (s.updCq q f).ord = s.ord := rfl
@[simp] theorem State.updCq_cch (s : State) (q : RingRef) (f : Cq → Cq) : (s.updCq q f).cch = s.cch := rfl
@[simp] theorem State.updCq_jnl (s : State) (q : RingRef) (f : Cq → Cq) : (s.updCq q f).jnl = s.jnl := rfl
@[simp] theorem State.updCq_cod (s : State) (q : RingRef) (f : Cq → Cq) : (s.updCq q f).cod = s.cod := rfl
@[simp] theorem State.updCq_pools (s : State) (q : RingRef) (f : Cq → Cq) : (s.updCq q f).pools = s.pools := rfl
@[simp] theorem State.updCq_seq (s : State) (q : RingRef) (f : Cq → Cq) : (s.updCq q f).seq = s.seq := rfl
@[simp] theorem State.updCq_fix (s : State) (q : RingRef) (f : Cq → Cq) : (s.updCq q f).fix = s.fix := rfl
@[simp] theorem State.updCq_dmv (s : State) (q : RingRef) (f : Cq → Cq) : (s.updCq q f).dmv = s.dmv := rfl
@[simp] theorem State.updCq_mbr (s : State) (q : RingRef) (f : Cq → Cq) : (s.updCq q f).mbr = s.mbr := rfl
@[simp] theorem State.updCq_rop (s : State) (q : RingRef) (f : Cq → Cq) : (s.updCq q f).rop = s.rop := rfl
@[simp] theorem State.updCq_hif (s : State) (q : RingRef) (f : Cq → Cq) : (s.updCq q f).hif = s.hif := rfl
@[simp] theorem State.updCq_vlt (s : State) (q : RingRef) (f : Cq → Cq) : (s.updCq q f).vlt = s.vlt := rfl
@[simp] theorem State.updCq_tru (s : State) (q : RingRef) (f : Cq → Cq) : (s.updCq q f).tru = s.tru := rfl
@[simp] theorem State.updCq_evr (s : State) (q : RingRef) (f : Cq → Cq) : (s.updCq q f).evr = s.evr := rfl
@[simp] theorem State.updCq_mgt (s : State) (q : RingRef) (f : Cq → Cq) : (s.updCq q f).mgt = s.mgt := rfl
@[simp] theorem State.updCq_sched (s : State) (q : RingRef) (f : Cq → Cq) : (s.updCq q f).sched = s.sched := rfl
@[simp] theorem State.updCq_freeCtr (s : State) (q : RingRef) (f : Cq → Cq) : (s.updCq q f).freeCtr = s.freeCtr := rfl
@[simp] theorem State.updCq_out (s : State) (q : RingRef) (f : Cq → Cq) : (s.updCq q f).out = s.out := rfl

/-! ### updPeer -/
@[simp] theorem State.updPeer_pending (s : State) (a : BitVec 12) (f : Peer → Peer) : (s.updPeer a f).pending = s.pending := rfl
@[simp] theorem State.updPeer_part (s : State) (a : BitVec 12) (f : Peer → Peer) : (s.updPeer a f).part = s.part := rfl
@[simp] theorem State.updPeer_phase (s : State) (a : BitVec 12) (f : Peer → Peer) : (s.updPeer a f).phase = s.phase := rfl
@[simp] theorem State.updPeer_pins (s : State) (a : BitVec 12) (f : Peer → Peer) : (s.updPeer a f).pins = s.pins := rfl
@[simp] theorem State.updPeer_temps (s : State) (a : BitVec 12) (f : Peer → Peer) : (s.updPeer a f).temps = s.temps := rfl
@[simp] theorem State.updPeer_regs (s : State) (a : BitVec 12) (f : Peer → Peer) : (s.updPeer a f).regs = s.regs := rfl
@[simp] theorem State.updPeer_tck (s : State) (a : BitVec 12) (f : Peer → Peer) : (s.updPeer a f).tck = s.tck := rfl
@[simp] theorem State.updPeer_qe (s : State) (a : BitVec 12) (f : Peer → Peer) : (s.updPeer a f).qe = s.qe := rfl
@[simp] theorem State.updPeer_ord (s : State) (a : BitVec 12) (f : Peer → Peer) : (s.updPeer a f).ord = s.ord := rfl
@[simp] theorem State.updPeer_cch (s : State) (a : BitVec 12) (f : Peer → Peer) : (s.updPeer a f).cch = s.cch := rfl
@[simp] theorem State.updPeer_jnl (s : State) (a : BitVec 12) (f : Peer → Peer) : (s.updPeer a f).jnl = s.jnl := rfl
@[simp] theorem State.updPeer_cod (s : State) (a : BitVec 12) (f : Peer → Peer) : (s.updPeer a f).cod = s.cod := rfl
@[simp] theorem State.updPeer_pools (s : State) (a : BitVec 12) (f : Peer → Peer) : (s.updPeer a f).pools = s.pools := rfl
@[simp] theorem State.updPeer_seq (s : State) (a : BitVec 12) (f : Peer → Peer) : (s.updPeer a f).seq = s.seq := rfl
@[simp] theorem State.updPeer_fix (s : State) (a : BitVec 12) (f : Peer → Peer) : (s.updPeer a f).fix = s.fix := rfl
@[simp] theorem State.updPeer_dmv (s : State) (a : BitVec 12) (f : Peer → Peer) : (s.updPeer a f).dmv = s.dmv := rfl
@[simp] theorem State.updPeer_mbr (s : State) (a : BitVec 12) (f : Peer → Peer) : (s.updPeer a f).mbr = s.mbr := rfl
@[simp] theorem State.updPeer_hif (s : State) (a : BitVec 12) (f : Peer → Peer) : (s.updPeer a f).hif = s.hif := rfl
@[simp] theorem State.updPeer_vlt (s : State) (a : BitVec 12) (f : Peer → Peer) : (s.updPeer a f).vlt = s.vlt := rfl
@[simp] theorem State.updPeer_tru (s : State) (a : BitVec 12) (f : Peer → Peer) : (s.updPeer a f).tru = s.tru := rfl
@[simp] theorem State.updPeer_evr (s : State) (a : BitVec 12) (f : Peer → Peer) : (s.updPeer a f).evr = s.evr := rfl
@[simp] theorem State.updPeer_mgt (s : State) (a : BitVec 12) (f : Peer → Peer) : (s.updPeer a f).mgt = s.mgt := rfl
@[simp] theorem State.updPeer_sched (s : State) (a : BitVec 12) (f : Peer → Peer) : (s.updPeer a f).sched = s.sched := rfl
@[simp] theorem State.updPeer_freeCtr (s : State) (a : BitVec 12) (f : Peer → Peer) : (s.updPeer a f).freeCtr = s.freeCtr := rfl
@[simp] theorem State.updPeer_out (s : State) (a : BitVec 12) (f : Peer → Peer) : (s.updPeer a f).out = s.out := rfl

/-! ### updHport -/
@[simp] theorem State.updHport_pending (s : State) (p : PciePort) (f : HPort → HPort) : (s.updHport p f).pending = s.pending := rfl
@[simp] theorem State.updHport_part (s : State) (p : PciePort) (f : HPort → HPort) : (s.updHport p f).part = s.part := rfl
@[simp] theorem State.updHport_phase (s : State) (p : PciePort) (f : HPort → HPort) : (s.updHport p f).phase = s.phase := rfl
@[simp] theorem State.updHport_pins (s : State) (p : PciePort) (f : HPort → HPort) : (s.updHport p f).pins = s.pins := rfl
@[simp] theorem State.updHport_temps (s : State) (p : PciePort) (f : HPort → HPort) : (s.updHport p f).temps = s.temps := rfl
@[simp] theorem State.updHport_regs (s : State) (p : PciePort) (f : HPort → HPort) : (s.updHport p f).regs = s.regs := rfl
@[simp] theorem State.updHport_tck (s : State) (p : PciePort) (f : HPort → HPort) : (s.updHport p f).tck = s.tck := rfl
@[simp] theorem State.updHport_qe (s : State) (p : PciePort) (f : HPort → HPort) : (s.updHport p f).qe = s.qe := rfl
@[simp] theorem State.updHport_ord (s : State) (p : PciePort) (f : HPort → HPort) : (s.updHport p f).ord = s.ord := rfl
@[simp] theorem State.updHport_cch (s : State) (p : PciePort) (f : HPort → HPort) : (s.updHport p f).cch = s.cch := rfl
@[simp] theorem State.updHport_jnl (s : State) (p : PciePort) (f : HPort → HPort) : (s.updHport p f).jnl = s.jnl := rfl
@[simp] theorem State.updHport_cod (s : State) (p : PciePort) (f : HPort → HPort) : (s.updHport p f).cod = s.cod := rfl
@[simp] theorem State.updHport_pools (s : State) (p : PciePort) (f : HPort → HPort) : (s.updHport p f).pools = s.pools := rfl
@[simp] theorem State.updHport_seq (s : State) (p : PciePort) (f : HPort → HPort) : (s.updHport p f).seq = s.seq := rfl
@[simp] theorem State.updHport_fix (s : State) (p : PciePort) (f : HPort → HPort) : (s.updHport p f).fix = s.fix := rfl
@[simp] theorem State.updHport_dmv (s : State) (p : PciePort) (f : HPort → HPort) : (s.updHport p f).dmv = s.dmv := rfl
@[simp] theorem State.updHport_mbr (s : State) (p : PciePort) (f : HPort → HPort) : (s.updHport p f).mbr = s.mbr := rfl
@[simp] theorem State.updHport_rop (s : State) (p : PciePort) (f : HPort → HPort) : (s.updHport p f).rop = s.rop := rfl
@[simp] theorem State.updHport_vlt (s : State) (p : PciePort) (f : HPort → HPort) : (s.updHport p f).vlt = s.vlt := rfl
@[simp] theorem State.updHport_tru (s : State) (p : PciePort) (f : HPort → HPort) : (s.updHport p f).tru = s.tru := rfl
@[simp] theorem State.updHport_evr (s : State) (p : PciePort) (f : HPort → HPort) : (s.updHport p f).evr = s.evr := rfl
@[simp] theorem State.updHport_mgt (s : State) (p : PciePort) (f : HPort → HPort) : (s.updHport p f).mgt = s.mgt := rfl
@[simp] theorem State.updHport_sched (s : State) (p : PciePort) (f : HPort → HPort) : (s.updHport p f).sched = s.sched := rfl
@[simp] theorem State.updHport_freeCtr (s : State) (p : PciePort) (f : HPort → HPort) : (s.updHport p f).freeCtr = s.freeCtr := rfl
@[simp] theorem State.updHport_out (s : State) (p : PciePort) (f : HPort → HPort) : (s.updHport p f).out = s.out := rfl

/-! ### updFn -/
@[simp] theorem State.updFn_pending (s : State) (p : PciePort) (fn : Fn) (f : Func → Func) : (s.updFn p fn f).pending = s.pending := rfl
@[simp] theorem State.updFn_part (s : State) (p : PciePort) (fn : Fn) (f : Func → Func) : (s.updFn p fn f).part = s.part := rfl
@[simp] theorem State.updFn_phase (s : State) (p : PciePort) (fn : Fn) (f : Func → Func) : (s.updFn p fn f).phase = s.phase := rfl
@[simp] theorem State.updFn_pins (s : State) (p : PciePort) (fn : Fn) (f : Func → Func) : (s.updFn p fn f).pins = s.pins := rfl
@[simp] theorem State.updFn_temps (s : State) (p : PciePort) (fn : Fn) (f : Func → Func) : (s.updFn p fn f).temps = s.temps := rfl
@[simp] theorem State.updFn_regs (s : State) (p : PciePort) (fn : Fn) (f : Func → Func) : (s.updFn p fn f).regs = s.regs := rfl
@[simp] theorem State.updFn_tck (s : State) (p : PciePort) (fn : Fn) (f : Func → Func) : (s.updFn p fn f).tck = s.tck := rfl
@[simp] theorem State.updFn_qe (s : State) (p : PciePort) (fn : Fn) (f : Func → Func) : (s.updFn p fn f).qe = s.qe := rfl
@[simp] theorem State.updFn_ord (s : State) (p : PciePort) (fn : Fn) (f : Func → Func) : (s.updFn p fn f).ord = s.ord := rfl
@[simp] theorem State.updFn_cch (s : State) (p : PciePort) (fn : Fn) (f : Func → Func) : (s.updFn p fn f).cch = s.cch := rfl
@[simp] theorem State.updFn_jnl (s : State) (p : PciePort) (fn : Fn) (f : Func → Func) : (s.updFn p fn f).jnl = s.jnl := rfl
@[simp] theorem State.updFn_cod (s : State) (p : PciePort) (fn : Fn) (f : Func → Func) : (s.updFn p fn f).cod = s.cod := rfl
@[simp] theorem State.updFn_pools (s : State) (p : PciePort) (fn : Fn) (f : Func → Func) : (s.updFn p fn f).pools = s.pools := rfl
@[simp] theorem State.updFn_seq (s : State) (p : PciePort) (fn : Fn) (f : Func → Func) : (s.updFn p fn f).seq = s.seq := rfl
@[simp] theorem State.updFn_fix (s : State) (p : PciePort) (fn : Fn) (f : Func → Func) : (s.updFn p fn f).fix = s.fix := rfl
@[simp] theorem State.updFn_dmv (s : State) (p : PciePort) (fn : Fn) (f : Func → Func) : (s.updFn p fn f).dmv = s.dmv := rfl
@[simp] theorem State.updFn_mbr (s : State) (p : PciePort) (fn : Fn) (f : Func → Func) : (s.updFn p fn f).mbr = s.mbr := rfl
@[simp] theorem State.updFn_rop (s : State) (p : PciePort) (fn : Fn) (f : Func → Func) : (s.updFn p fn f).rop = s.rop := rfl
@[simp] theorem State.updFn_vlt (s : State) (p : PciePort) (fn : Fn) (f : Func → Func) : (s.updFn p fn f).vlt = s.vlt := rfl
@[simp] theorem State.updFn_tru (s : State) (p : PciePort) (fn : Fn) (f : Func → Func) : (s.updFn p fn f).tru = s.tru := rfl
@[simp] theorem State.updFn_evr (s : State) (p : PciePort) (fn : Fn) (f : Func → Func) : (s.updFn p fn f).evr = s.evr := rfl
@[simp] theorem State.updFn_mgt (s : State) (p : PciePort) (fn : Fn) (f : Func → Func) : (s.updFn p fn f).mgt = s.mgt := rfl
@[simp] theorem State.updFn_sched (s : State) (p : PciePort) (fn : Fn) (f : Func → Func) : (s.updFn p fn f).sched = s.sched := rfl
@[simp] theorem State.updFn_freeCtr (s : State) (p : PciePort) (fn : Fn) (f : Func → Func) : (s.updFn p fn f).freeCtr = s.freeCtr := rfl
@[simp] theorem State.updFn_out (s : State) (p : PciePort) (fn : Fn) (f : Func → Func) : (s.updFn p fn f).out = s.out := rfl

/-! ### updPool -/
@[simp] theorem State.updPool_pending (s : State) (i : BitVec 16) (f : Pool → Pool) : (s.updPool i f).pending = s.pending := rfl
@[simp] theorem State.updPool_part (s : State) (i : BitVec 16) (f : Pool → Pool) : (s.updPool i f).part = s.part := rfl
@[simp] theorem State.updPool_phase (s : State) (i : BitVec 16) (f : Pool → Pool) : (s.updPool i f).phase = s.phase := rfl
@[simp] theorem State.updPool_pins (s : State) (i : BitVec 16) (f : Pool → Pool) : (s.updPool i f).pins = s.pins := rfl
@[simp] theorem State.updPool_temps (s : State) (i : BitVec 16) (f : Pool → Pool) : (s.updPool i f).temps = s.temps := rfl
@[simp] theorem State.updPool_regs (s : State) (i : BitVec 16) (f : Pool → Pool) : (s.updPool i f).regs = s.regs := rfl
@[simp] theorem State.updPool_tck (s : State) (i : BitVec 16) (f : Pool → Pool) : (s.updPool i f).tck = s.tck := rfl
@[simp] theorem State.updPool_qe (s : State) (i : BitVec 16) (f : Pool → Pool) : (s.updPool i f).qe = s.qe := rfl
@[simp] theorem State.updPool_ord (s : State) (i : BitVec 16) (f : Pool → Pool) : (s.updPool i f).ord = s.ord := rfl
@[simp] theorem State.updPool_cch (s : State) (i : BitVec 16) (f : Pool → Pool) : (s.updPool i f).cch = s.cch := rfl
@[simp] theorem State.updPool_jnl (s : State) (i : BitVec 16) (f : Pool → Pool) : (s.updPool i f).jnl = s.jnl := rfl
@[simp] theorem State.updPool_cod (s : State) (i : BitVec 16) (f : Pool → Pool) : (s.updPool i f).cod = s.cod := rfl
@[simp] theorem State.updPool_seq (s : State) (i : BitVec 16) (f : Pool → Pool) : (s.updPool i f).seq = s.seq := rfl
@[simp] theorem State.updPool_fix (s : State) (i : BitVec 16) (f : Pool → Pool) : (s.updPool i f).fix = s.fix := rfl
@[simp] theorem State.updPool_dmv (s : State) (i : BitVec 16) (f : Pool → Pool) : (s.updPool i f).dmv = s.dmv := rfl
@[simp] theorem State.updPool_mbr (s : State) (i : BitVec 16) (f : Pool → Pool) : (s.updPool i f).mbr = s.mbr := rfl
@[simp] theorem State.updPool_rop (s : State) (i : BitVec 16) (f : Pool → Pool) : (s.updPool i f).rop = s.rop := rfl
@[simp] theorem State.updPool_hif (s : State) (i : BitVec 16) (f : Pool → Pool) : (s.updPool i f).hif = s.hif := rfl
@[simp] theorem State.updPool_vlt (s : State) (i : BitVec 16) (f : Pool → Pool) : (s.updPool i f).vlt = s.vlt := rfl
@[simp] theorem State.updPool_tru (s : State) (i : BitVec 16) (f : Pool → Pool) : (s.updPool i f).tru = s.tru := rfl
@[simp] theorem State.updPool_evr (s : State) (i : BitVec 16) (f : Pool → Pool) : (s.updPool i f).evr = s.evr := rfl
@[simp] theorem State.updPool_mgt (s : State) (i : BitVec 16) (f : Pool → Pool) : (s.updPool i f).mgt = s.mgt := rfl
@[simp] theorem State.updPool_sched (s : State) (i : BitVec 16) (f : Pool → Pool) : (s.updPool i f).sched = s.sched := rfl
@[simp] theorem State.updPool_freeCtr (s : State) (i : BitVec 16) (f : Pool → Pool) : (s.updPool i f).freeCtr = s.freeCtr := rfl
@[simp] theorem State.updPool_out (s : State) (i : BitVec 16) (f : Pool → Pool) : (s.updPool i f).out = s.out := rfl

/-! ### updCmd -/
@[simp] theorem State.updCmd_pending (s : State) (i : Nat) (f : Cmd → Cmd) : (s.updCmd i f).pending = s.pending := rfl
@[simp] theorem State.updCmd_part (s : State) (i : Nat) (f : Cmd → Cmd) : (s.updCmd i f).part = s.part := rfl
@[simp] theorem State.updCmd_phase (s : State) (i : Nat) (f : Cmd → Cmd) : (s.updCmd i f).phase = s.phase := rfl
@[simp] theorem State.updCmd_pins (s : State) (i : Nat) (f : Cmd → Cmd) : (s.updCmd i f).pins = s.pins := rfl
@[simp] theorem State.updCmd_temps (s : State) (i : Nat) (f : Cmd → Cmd) : (s.updCmd i f).temps = s.temps := rfl
@[simp] theorem State.updCmd_regs (s : State) (i : Nat) (f : Cmd → Cmd) : (s.updCmd i f).regs = s.regs := rfl
@[simp] theorem State.updCmd_tck (s : State) (i : Nat) (f : Cmd → Cmd) : (s.updCmd i f).tck = s.tck := rfl
@[simp] theorem State.updCmd_qe (s : State) (i : Nat) (f : Cmd → Cmd) : (s.updCmd i f).qe = s.qe := rfl
@[simp] theorem State.updCmd_cch (s : State) (i : Nat) (f : Cmd → Cmd) : (s.updCmd i f).cch = s.cch := rfl
@[simp] theorem State.updCmd_jnl (s : State) (i : Nat) (f : Cmd → Cmd) : (s.updCmd i f).jnl = s.jnl := rfl
@[simp] theorem State.updCmd_cod (s : State) (i : Nat) (f : Cmd → Cmd) : (s.updCmd i f).cod = s.cod := rfl
@[simp] theorem State.updCmd_pools (s : State) (i : Nat) (f : Cmd → Cmd) : (s.updCmd i f).pools = s.pools := rfl
@[simp] theorem State.updCmd_seq (s : State) (i : Nat) (f : Cmd → Cmd) : (s.updCmd i f).seq = s.seq := rfl
@[simp] theorem State.updCmd_fix (s : State) (i : Nat) (f : Cmd → Cmd) : (s.updCmd i f).fix = s.fix := rfl
@[simp] theorem State.updCmd_dmv (s : State) (i : Nat) (f : Cmd → Cmd) : (s.updCmd i f).dmv = s.dmv := rfl
@[simp] theorem State.updCmd_mbr (s : State) (i : Nat) (f : Cmd → Cmd) : (s.updCmd i f).mbr = s.mbr := rfl
@[simp] theorem State.updCmd_rop (s : State) (i : Nat) (f : Cmd → Cmd) : (s.updCmd i f).rop = s.rop := rfl
@[simp] theorem State.updCmd_hif (s : State) (i : Nat) (f : Cmd → Cmd) : (s.updCmd i f).hif = s.hif := rfl
@[simp] theorem State.updCmd_vlt (s : State) (i : Nat) (f : Cmd → Cmd) : (s.updCmd i f).vlt = s.vlt := rfl
@[simp] theorem State.updCmd_tru (s : State) (i : Nat) (f : Cmd → Cmd) : (s.updCmd i f).tru = s.tru := rfl
@[simp] theorem State.updCmd_evr (s : State) (i : Nat) (f : Cmd → Cmd) : (s.updCmd i f).evr = s.evr := rfl
@[simp] theorem State.updCmd_mgt (s : State) (i : Nat) (f : Cmd → Cmd) : (s.updCmd i f).mgt = s.mgt := rfl
@[simp] theorem State.updCmd_sched (s : State) (i : Nat) (f : Cmd → Cmd) : (s.updCmd i f).sched = s.sched := rfl
@[simp] theorem State.updCmd_freeCtr (s : State) (i : Nat) (f : Cmd → Cmd) : (s.updCmd i f).freeCtr = s.freeCtr := rfl
@[simp] theorem State.updCmd_out (s : State) (i : Nat) (f : Cmd → Cmd) : (s.updCmd i f).out = s.out := rfl

/-! ### updImg -/
@[simp] theorem State.updImg_pending (s : State) (n : Nat) (f : IMember → IMember) : (s.updImg n f).pending = s.pending := rfl
@[simp] theorem State.updImg_part (s : State) (n : Nat) (f : IMember → IMember) : (s.updImg n f).part = s.part := rfl
@[simp] theorem State.updImg_phase (s : State) (n : Nat) (f : IMember → IMember) : (s.updImg n f).phase = s.phase := rfl
@[simp] theorem State.updImg_pins (s : State) (n : Nat) (f : IMember → IMember) : (s.updImg n f).pins = s.pins := rfl
@[simp] theorem State.updImg_temps (s : State) (n : Nat) (f : IMember → IMember) : (s.updImg n f).temps = s.temps := rfl
@[simp] theorem State.updImg_regs (s : State) (n : Nat) (f : IMember → IMember) : (s.updImg n f).regs = s.regs := rfl
@[simp] theorem State.updImg_tck (s : State) (n : Nat) (f : IMember → IMember) : (s.updImg n f).tck = s.tck := rfl
@[simp] theorem State.updImg_qe (s : State) (n : Nat) (f : IMember → IMember) : (s.updImg n f).qe = s.qe := rfl
@[simp] theorem State.updImg_ord (s : State) (n : Nat) (f : IMember → IMember) : (s.updImg n f).ord = s.ord := rfl
@[simp] theorem State.updImg_cch (s : State) (n : Nat) (f : IMember → IMember) : (s.updImg n f).cch = s.cch := rfl
@[simp] theorem State.updImg_jnl (s : State) (n : Nat) (f : IMember → IMember) : (s.updImg n f).jnl = s.jnl := rfl
@[simp] theorem State.updImg_cod (s : State) (n : Nat) (f : IMember → IMember) : (s.updImg n f).cod = s.cod := rfl
@[simp] theorem State.updImg_pools (s : State) (n : Nat) (f : IMember → IMember) : (s.updImg n f).pools = s.pools := rfl
@[simp] theorem State.updImg_seq (s : State) (n : Nat) (f : IMember → IMember) : (s.updImg n f).seq = s.seq := rfl
@[simp] theorem State.updImg_fix (s : State) (n : Nat) (f : IMember → IMember) : (s.updImg n f).fix = s.fix := rfl
@[simp] theorem State.updImg_dmv (s : State) (n : Nat) (f : IMember → IMember) : (s.updImg n f).dmv = s.dmv := rfl
@[simp] theorem State.updImg_rop (s : State) (n : Nat) (f : IMember → IMember) : (s.updImg n f).rop = s.rop := rfl
@[simp] theorem State.updImg_hif (s : State) (n : Nat) (f : IMember → IMember) : (s.updImg n f).hif = s.hif := rfl
@[simp] theorem State.updImg_vlt (s : State) (n : Nat) (f : IMember → IMember) : (s.updImg n f).vlt = s.vlt := rfl
@[simp] theorem State.updImg_tru (s : State) (n : Nat) (f : IMember → IMember) : (s.updImg n f).tru = s.tru := rfl
@[simp] theorem State.updImg_evr (s : State) (n : Nat) (f : IMember → IMember) : (s.updImg n f).evr = s.evr := rfl
@[simp] theorem State.updImg_mgt (s : State) (n : Nat) (f : IMember → IMember) : (s.updImg n f).mgt = s.mgt := rfl
@[simp] theorem State.updImg_sched (s : State) (n : Nat) (f : IMember → IMember) : (s.updImg n f).sched = s.sched := rfl
@[simp] theorem State.updImg_freeCtr (s : State) (n : Nat) (f : IMember → IMember) : (s.updImg n f).freeCtr = s.freeCtr := rfl
@[simp] theorem State.updImg_out (s : State) (n : Nat) (f : IMember → IMember) : (s.updImg n f).out = s.out := rfl

/-! ### updPath -/
@[simp] theorem State.updPath_pending (s : State) (n p : Nat) (f : MPath → MPath) : (s.updPath n p f).pending = s.pending := rfl
@[simp] theorem State.updPath_part (s : State) (n p : Nat) (f : MPath → MPath) : (s.updPath n p f).part = s.part := rfl
@[simp] theorem State.updPath_phase (s : State) (n p : Nat) (f : MPath → MPath) : (s.updPath n p f).phase = s.phase := rfl
@[simp] theorem State.updPath_pins (s : State) (n p : Nat) (f : MPath → MPath) : (s.updPath n p f).pins = s.pins := rfl
@[simp] theorem State.updPath_temps (s : State) (n p : Nat) (f : MPath → MPath) : (s.updPath n p f).temps = s.temps := rfl
@[simp] theorem State.updPath_regs (s : State) (n p : Nat) (f : MPath → MPath) : (s.updPath n p f).regs = s.regs := rfl
@[simp] theorem State.updPath_tck (s : State) (n p : Nat) (f : MPath → MPath) : (s.updPath n p f).tck = s.tck := rfl
@[simp] theorem State.updPath_qe (s : State) (n p : Nat) (f : MPath → MPath) : (s.updPath n p f).qe = s.qe := rfl
@[simp] theorem State.updPath_ord (s : State) (n p : Nat) (f : MPath → MPath) : (s.updPath n p f).ord = s.ord := rfl
@[simp] theorem State.updPath_cch (s : State) (n p : Nat) (f : MPath → MPath) : (s.updPath n p f).cch = s.cch := rfl
@[simp] theorem State.updPath_jnl (s : State) (n p : Nat) (f : MPath → MPath) : (s.updPath n p f).jnl = s.jnl := rfl
@[simp] theorem State.updPath_cod (s : State) (n p : Nat) (f : MPath → MPath) : (s.updPath n p f).cod = s.cod := rfl
@[simp] theorem State.updPath_pools (s : State) (n p : Nat) (f : MPath → MPath) : (s.updPath n p f).pools = s.pools := rfl
@[simp] theorem State.updPath_seq (s : State) (n p : Nat) (f : MPath → MPath) : (s.updPath n p f).seq = s.seq := rfl
@[simp] theorem State.updPath_fix (s : State) (n p : Nat) (f : MPath → MPath) : (s.updPath n p f).fix = s.fix := rfl
@[simp] theorem State.updPath_dmv (s : State) (n p : Nat) (f : MPath → MPath) : (s.updPath n p f).dmv = s.dmv := rfl
@[simp] theorem State.updPath_rop (s : State) (n p : Nat) (f : MPath → MPath) : (s.updPath n p f).rop = s.rop := rfl
@[simp] theorem State.updPath_hif (s : State) (n p : Nat) (f : MPath → MPath) : (s.updPath n p f).hif = s.hif := rfl
@[simp] theorem State.updPath_vlt (s : State) (n p : Nat) (f : MPath → MPath) : (s.updPath n p f).vlt = s.vlt := rfl
@[simp] theorem State.updPath_tru (s : State) (n p : Nat) (f : MPath → MPath) : (s.updPath n p f).tru = s.tru := rfl
@[simp] theorem State.updPath_evr (s : State) (n p : Nat) (f : MPath → MPath) : (s.updPath n p f).evr = s.evr := rfl
@[simp] theorem State.updPath_mgt (s : State) (n p : Nat) (f : MPath → MPath) : (s.updPath n p f).mgt = s.mgt := rfl
@[simp] theorem State.updPath_sched (s : State) (n p : Nat) (f : MPath → MPath) : (s.updPath n p f).sched = s.sched := rfl
@[simp] theorem State.updPath_freeCtr (s : State) (n p : Nat) (f : MPath → MPath) : (s.updPath n p f).freeCtr = s.freeCtr := rfl
@[simp] theorem State.updPath_out (s : State) (n p : Nat) (f : MPath → MPath) : (s.updPath n p f).out = s.out := rfl

/-! ### updTask -/
@[simp] theorem State.updTask_pending (s : State) (n : Nat) (f : Task → Task) : (s.updTask n f).pending = s.pending := rfl
@[simp] theorem State.updTask_part (s : State) (n : Nat) (f : Task → Task) : (s.updTask n f).part = s.part := rfl
@[simp] theorem State.updTask_phase (s : State) (n : Nat) (f : Task → Task) : (s.updTask n f).phase = s.phase := rfl
@[simp] theorem State.updTask_pins (s : State) (n : Nat) (f : Task → Task) : (s.updTask n f).pins = s.pins := rfl
@[simp] theorem State.updTask_temps (s : State) (n : Nat) (f : Task → Task) : (s.updTask n f).temps = s.temps := rfl
@[simp] theorem State.updTask_regs (s : State) (n : Nat) (f : Task → Task) : (s.updTask n f).regs = s.regs := rfl
@[simp] theorem State.updTask_tck (s : State) (n : Nat) (f : Task → Task) : (s.updTask n f).tck = s.tck := rfl
@[simp] theorem State.updTask_qe (s : State) (n : Nat) (f : Task → Task) : (s.updTask n f).qe = s.qe := rfl
@[simp] theorem State.updTask_ord (s : State) (n : Nat) (f : Task → Task) : (s.updTask n f).ord = s.ord := rfl
@[simp] theorem State.updTask_cch (s : State) (n : Nat) (f : Task → Task) : (s.updTask n f).cch = s.cch := rfl
@[simp] theorem State.updTask_jnl (s : State) (n : Nat) (f : Task → Task) : (s.updTask n f).jnl = s.jnl := rfl
@[simp] theorem State.updTask_cod (s : State) (n : Nat) (f : Task → Task) : (s.updTask n f).cod = s.cod := rfl
@[simp] theorem State.updTask_pools (s : State) (n : Nat) (f : Task → Task) : (s.updTask n f).pools = s.pools := rfl
@[simp] theorem State.updTask_fix (s : State) (n : Nat) (f : Task → Task) : (s.updTask n f).fix = s.fix := rfl
@[simp] theorem State.updTask_dmv (s : State) (n : Nat) (f : Task → Task) : (s.updTask n f).dmv = s.dmv := rfl
@[simp] theorem State.updTask_mbr (s : State) (n : Nat) (f : Task → Task) : (s.updTask n f).mbr = s.mbr := rfl
@[simp] theorem State.updTask_rop (s : State) (n : Nat) (f : Task → Task) : (s.updTask n f).rop = s.rop := rfl
@[simp] theorem State.updTask_hif (s : State) (n : Nat) (f : Task → Task) : (s.updTask n f).hif = s.hif := rfl
@[simp] theorem State.updTask_vlt (s : State) (n : Nat) (f : Task → Task) : (s.updTask n f).vlt = s.vlt := rfl
@[simp] theorem State.updTask_tru (s : State) (n : Nat) (f : Task → Task) : (s.updTask n f).tru = s.tru := rfl
@[simp] theorem State.updTask_evr (s : State) (n : Nat) (f : Task → Task) : (s.updTask n f).evr = s.evr := rfl
@[simp] theorem State.updTask_mgt (s : State) (n : Nat) (f : Task → Task) : (s.updTask n f).mgt = s.mgt := rfl
@[simp] theorem State.updTask_sched (s : State) (n : Nat) (f : Task → Task) : (s.updTask n f).sched = s.sched := rfl
@[simp] theorem State.updTask_freeCtr (s : State) (n : Nat) (f : Task → Task) : (s.updTask n f).freeCtr = s.freeCtr := rfl
@[simp] theorem State.updTask_out (s : State) (n : Nat) (f : Task → Task) : (s.updTask n f).out = s.out := rfl

/-! ### updSlot -/
@[simp] theorem State.updSlot_pending (s : State) (i : Nat) (f : Slot → Slot) : (s.updSlot i f).pending = s.pending := rfl
@[simp] theorem State.updSlot_part (s : State) (i : Nat) (f : Slot → Slot) : (s.updSlot i f).part = s.part := rfl
@[simp] theorem State.updSlot_phase (s : State) (i : Nat) (f : Slot → Slot) : (s.updSlot i f).phase = s.phase := rfl
@[simp] theorem State.updSlot_pins (s : State) (i : Nat) (f : Slot → Slot) : (s.updSlot i f).pins = s.pins := rfl
@[simp] theorem State.updSlot_temps (s : State) (i : Nat) (f : Slot → Slot) : (s.updSlot i f).temps = s.temps := rfl
@[simp] theorem State.updSlot_regs (s : State) (i : Nat) (f : Slot → Slot) : (s.updSlot i f).regs = s.regs := rfl
@[simp] theorem State.updSlot_tck (s : State) (i : Nat) (f : Slot → Slot) : (s.updSlot i f).tck = s.tck := rfl
@[simp] theorem State.updSlot_qe (s : State) (i : Nat) (f : Slot → Slot) : (s.updSlot i f).qe = s.qe := rfl
@[simp] theorem State.updSlot_ord (s : State) (i : Nat) (f : Slot → Slot) : (s.updSlot i f).ord = s.ord := rfl
@[simp] theorem State.updSlot_jnl (s : State) (i : Nat) (f : Slot → Slot) : (s.updSlot i f).jnl = s.jnl := rfl
@[simp] theorem State.updSlot_cod (s : State) (i : Nat) (f : Slot → Slot) : (s.updSlot i f).cod = s.cod := rfl
@[simp] theorem State.updSlot_pools (s : State) (i : Nat) (f : Slot → Slot) : (s.updSlot i f).pools = s.pools := rfl
@[simp] theorem State.updSlot_seq (s : State) (i : Nat) (f : Slot → Slot) : (s.updSlot i f).seq = s.seq := rfl
@[simp] theorem State.updSlot_fix (s : State) (i : Nat) (f : Slot → Slot) : (s.updSlot i f).fix = s.fix := rfl
@[simp] theorem State.updSlot_dmv (s : State) (i : Nat) (f : Slot → Slot) : (s.updSlot i f).dmv = s.dmv := rfl
@[simp] theorem State.updSlot_mbr (s : State) (i : Nat) (f : Slot → Slot) : (s.updSlot i f).mbr = s.mbr := rfl
@[simp] theorem State.updSlot_rop (s : State) (i : Nat) (f : Slot → Slot) : (s.updSlot i f).rop = s.rop := rfl
@[simp] theorem State.updSlot_hif (s : State) (i : Nat) (f : Slot → Slot) : (s.updSlot i f).hif = s.hif := rfl
@[simp] theorem State.updSlot_vlt (s : State) (i : Nat) (f : Slot → Slot) : (s.updSlot i f).vlt = s.vlt := rfl
@[simp] theorem State.updSlot_tru (s : State) (i : Nat) (f : Slot → Slot) : (s.updSlot i f).tru = s.tru := rfl
@[simp] theorem State.updSlot_evr (s : State) (i : Nat) (f : Slot → Slot) : (s.updSlot i f).evr = s.evr := rfl
@[simp] theorem State.updSlot_mgt (s : State) (i : Nat) (f : Slot → Slot) : (s.updSlot i f).mgt = s.mgt := rfl
@[simp] theorem State.updSlot_sched (s : State) (i : Nat) (f : Slot → Slot) : (s.updSlot i f).sched = s.sched := rfl
@[simp] theorem State.updSlot_freeCtr (s : State) (i : Nat) (f : Slot → Slot) : (s.updSlot i f).freeCtr = s.freeCtr := rfl
@[simp] theorem State.updSlot_out (s : State) (i : Nat) (f : Slot → Slot) : (s.updSlot i f).out = s.out := rfl

/-! ### updTake -/
@[simp] theorem State.updTake_pending (s : State) (i : BitVec 16) (f : Takeover → Takeover) : (s.updTake i f).pending = s.pending := rfl
@[simp] theorem State.updTake_part (s : State) (i : BitVec 16) (f : Takeover → Takeover) : (s.updTake i f).part = s.part := rfl
@[simp] theorem State.updTake_phase (s : State) (i : BitVec 16) (f : Takeover → Takeover) : (s.updTake i f).phase = s.phase := rfl
@[simp] theorem State.updTake_pins (s : State) (i : BitVec 16) (f : Takeover → Takeover) : (s.updTake i f).pins = s.pins := rfl
@[simp] theorem State.updTake_temps (s : State) (i : BitVec 16) (f : Takeover → Takeover) : (s.updTake i f).temps = s.temps := rfl
@[simp] theorem State.updTake_regs (s : State) (i : BitVec 16) (f : Takeover → Takeover) : (s.updTake i f).regs = s.regs := rfl
@[simp] theorem State.updTake_tck (s : State) (i : BitVec 16) (f : Takeover → Takeover) : (s.updTake i f).tck = s.tck := rfl
@[simp] theorem State.updTake_qe (s : State) (i : BitVec 16) (f : Takeover → Takeover) : (s.updTake i f).qe = s.qe := rfl
@[simp] theorem State.updTake_ord (s : State) (i : BitVec 16) (f : Takeover → Takeover) : (s.updTake i f).ord = s.ord := rfl
@[simp] theorem State.updTake_cch (s : State) (i : BitVec 16) (f : Takeover → Takeover) : (s.updTake i f).cch = s.cch := rfl
@[simp] theorem State.updTake_jnl (s : State) (i : BitVec 16) (f : Takeover → Takeover) : (s.updTake i f).jnl = s.jnl := rfl
@[simp] theorem State.updTake_cod (s : State) (i : BitVec 16) (f : Takeover → Takeover) : (s.updTake i f).cod = s.cod := rfl
@[simp] theorem State.updTake_pools (s : State) (i : BitVec 16) (f : Takeover → Takeover) : (s.updTake i f).pools = s.pools := rfl
@[simp] theorem State.updTake_seq (s : State) (i : BitVec 16) (f : Takeover → Takeover) : (s.updTake i f).seq = s.seq := rfl
@[simp] theorem State.updTake_fix (s : State) (i : BitVec 16) (f : Takeover → Takeover) : (s.updTake i f).fix = s.fix := rfl
@[simp] theorem State.updTake_dmv (s : State) (i : BitVec 16) (f : Takeover → Takeover) : (s.updTake i f).dmv = s.dmv := rfl
@[simp] theorem State.updTake_mbr (s : State) (i : BitVec 16) (f : Takeover → Takeover) : (s.updTake i f).mbr = s.mbr := rfl
@[simp] theorem State.updTake_hif (s : State) (i : BitVec 16) (f : Takeover → Takeover) : (s.updTake i f).hif = s.hif := rfl
@[simp] theorem State.updTake_vlt (s : State) (i : BitVec 16) (f : Takeover → Takeover) : (s.updTake i f).vlt = s.vlt := rfl
@[simp] theorem State.updTake_tru (s : State) (i : BitVec 16) (f : Takeover → Takeover) : (s.updTake i f).tru = s.tru := rfl
@[simp] theorem State.updTake_evr (s : State) (i : BitVec 16) (f : Takeover → Takeover) : (s.updTake i f).evr = s.evr := rfl
@[simp] theorem State.updTake_mgt (s : State) (i : BitVec 16) (f : Takeover → Takeover) : (s.updTake i f).mgt = s.mgt := rfl
@[simp] theorem State.updTake_sched (s : State) (i : BitVec 16) (f : Takeover → Takeover) : (s.updTake i f).sched = s.sched := rfl
@[simp] theorem State.updTake_freeCtr (s : State) (i : BitVec 16) (f : Takeover → Takeover) : (s.updTake i f).freeCtr = s.freeCtr := rfl
@[simp] theorem State.updTake_out (s : State) (i : BitVec 16) (f : Takeover → Takeover) : (s.updTake i f).out = s.out := rfl

/-! ### updInj -/
@[simp] theorem State.updInj_pending (s : State) (f : InjSlot → InjSlot) : (s.updInj f).pending = s.pending := rfl
@[simp] theorem State.updInj_part (s : State) (f : InjSlot → InjSlot) : (s.updInj f).part = s.part := rfl
@[simp] theorem State.updInj_phase (s : State) (f : InjSlot → InjSlot) : (s.updInj f).phase = s.phase := rfl
@[simp] theorem State.updInj_pins (s : State) (f : InjSlot → InjSlot) : (s.updInj f).pins = s.pins := rfl
@[simp] theorem State.updInj_temps (s : State) (f : InjSlot → InjSlot) : (s.updInj f).temps = s.temps := rfl
@[simp] theorem State.updInj_regs (s : State) (f : InjSlot → InjSlot) : (s.updInj f).regs = s.regs := rfl
@[simp] theorem State.updInj_tck (s : State) (f : InjSlot → InjSlot) : (s.updInj f).tck = s.tck := rfl
@[simp] theorem State.updInj_qe (s : State) (f : InjSlot → InjSlot) : (s.updInj f).qe = s.qe := rfl
@[simp] theorem State.updInj_ord (s : State) (f : InjSlot → InjSlot) : (s.updInj f).ord = s.ord := rfl
@[simp] theorem State.updInj_cch (s : State) (f : InjSlot → InjSlot) : (s.updInj f).cch = s.cch := rfl
@[simp] theorem State.updInj_jnl (s : State) (f : InjSlot → InjSlot) : (s.updInj f).jnl = s.jnl := rfl
@[simp] theorem State.updInj_cod (s : State) (f : InjSlot → InjSlot) : (s.updInj f).cod = s.cod := rfl
@[simp] theorem State.updInj_pools (s : State) (f : InjSlot → InjSlot) : (s.updInj f).pools = s.pools := rfl
@[simp] theorem State.updInj_seq (s : State) (f : InjSlot → InjSlot) : (s.updInj f).seq = s.seq := rfl
@[simp] theorem State.updInj_fix (s : State) (f : InjSlot → InjSlot) : (s.updInj f).fix = s.fix := rfl
@[simp] theorem State.updInj_dmv (s : State) (f : InjSlot → InjSlot) : (s.updInj f).dmv = s.dmv := rfl
@[simp] theorem State.updInj_mbr (s : State) (f : InjSlot → InjSlot) : (s.updInj f).mbr = s.mbr := rfl
@[simp] theorem State.updInj_rop (s : State) (f : InjSlot → InjSlot) : (s.updInj f).rop = s.rop := rfl
@[simp] theorem State.updInj_hif (s : State) (f : InjSlot → InjSlot) : (s.updInj f).hif = s.hif := rfl
@[simp] theorem State.updInj_vlt (s : State) (f : InjSlot → InjSlot) : (s.updInj f).vlt = s.vlt := rfl
@[simp] theorem State.updInj_tru (s : State) (f : InjSlot → InjSlot) : (s.updInj f).tru = s.tru := rfl
@[simp] theorem State.updInj_evr (s : State) (f : InjSlot → InjSlot) : (s.updInj f).evr = s.evr := rfl
@[simp] theorem State.updInj_sched (s : State) (f : InjSlot → InjSlot) : (s.updInj f).sched = s.sched := rfl
@[simp] theorem State.updInj_freeCtr (s : State) (f : InjSlot → InjSlot) : (s.updInj f).freeCtr = s.freeCtr := rfl
@[simp] theorem State.updInj_out (s : State) (f : InjSlot → InjSlot) : (s.updInj f).out = s.out := rfl

/-! ### updArea -/
@[simp] theorem State.updArea_pending (s : State) (a : Nat) (f : Flush → Flush) : (s.updArea a f).pending = s.pending := rfl
@[simp] theorem State.updArea_part (s : State) (a : Nat) (f : Flush → Flush) : (s.updArea a f).part = s.part := rfl
@[simp] theorem State.updArea_phase (s : State) (a : Nat) (f : Flush → Flush) : (s.updArea a f).phase = s.phase := rfl
@[simp] theorem State.updArea_pins (s : State) (a : Nat) (f : Flush → Flush) : (s.updArea a f).pins = s.pins := rfl
@[simp] theorem State.updArea_temps (s : State) (a : Nat) (f : Flush → Flush) : (s.updArea a f).temps = s.temps := rfl
@[simp] theorem State.updArea_regs (s : State) (a : Nat) (f : Flush → Flush) : (s.updArea a f).regs = s.regs := rfl
@[simp] theorem State.updArea_tck (s : State) (a : Nat) (f : Flush → Flush) : (s.updArea a f).tck = s.tck := rfl
@[simp] theorem State.updArea_qe (s : State) (a : Nat) (f : Flush → Flush) : (s.updArea a f).qe = s.qe := rfl
@[simp] theorem State.updArea_ord (s : State) (a : Nat) (f : Flush → Flush) : (s.updArea a f).ord = s.ord := rfl
@[simp] theorem State.updArea_cch (s : State) (a : Nat) (f : Flush → Flush) : (s.updArea a f).cch = s.cch := rfl
@[simp] theorem State.updArea_jnl (s : State) (a : Nat) (f : Flush → Flush) : (s.updArea a f).jnl = s.jnl := rfl
@[simp] theorem State.updArea_cod (s : State) (a : Nat) (f : Flush → Flush) : (s.updArea a f).cod = s.cod := rfl
@[simp] theorem State.updArea_pools (s : State) (a : Nat) (f : Flush → Flush) : (s.updArea a f).pools = s.pools := rfl
@[simp] theorem State.updArea_seq (s : State) (a : Nat) (f : Flush → Flush) : (s.updArea a f).seq = s.seq := rfl
@[simp] theorem State.updArea_fix (s : State) (a : Nat) (f : Flush → Flush) : (s.updArea a f).fix = s.fix := rfl
@[simp] theorem State.updArea_dmv (s : State) (a : Nat) (f : Flush → Flush) : (s.updArea a f).dmv = s.dmv := rfl
@[simp] theorem State.updArea_mbr (s : State) (a : Nat) (f : Flush → Flush) : (s.updArea a f).mbr = s.mbr := rfl
@[simp] theorem State.updArea_rop (s : State) (a : Nat) (f : Flush → Flush) : (s.updArea a f).rop = s.rop := rfl
@[simp] theorem State.updArea_hif (s : State) (a : Nat) (f : Flush → Flush) : (s.updArea a f).hif = s.hif := rfl
@[simp] theorem State.updArea_tru (s : State) (a : Nat) (f : Flush → Flush) : (s.updArea a f).tru = s.tru := rfl
@[simp] theorem State.updArea_evr (s : State) (a : Nat) (f : Flush → Flush) : (s.updArea a f).evr = s.evr := rfl
@[simp] theorem State.updArea_mgt (s : State) (a : Nat) (f : Flush → Flush) : (s.updArea a f).mgt = s.mgt := rfl
@[simp] theorem State.updArea_sched (s : State) (a : Nat) (f : Flush → Flush) : (s.updArea a f).sched = s.sched := rfl
@[simp] theorem State.updArea_freeCtr (s : State) (a : Nat) (f : Flush → Flush) : (s.updArea a f).freeCtr = s.freeCtr := rfl
@[simp] theorem State.updArea_out (s : State) (a : Nat) (f : Flush → Flush) : (s.updArea a f).out = s.out := rfl

/-! ### belaySend -/
@[simp] theorem State.belaySend_pending (s : State) (f : TxFrame) : (s.belaySend f).pending = s.pending := rfl
@[simp] theorem State.belaySend_part (s : State) (f : TxFrame) : (s.belaySend f).part = s.part := rfl
@[simp] theorem State.belaySend_phase (s : State) (f : TxFrame) : (s.belaySend f).phase = s.phase := rfl
@[simp] theorem State.belaySend_pins (s : State) (f : TxFrame) : (s.belaySend f).pins = s.pins := rfl
@[simp] theorem State.belaySend_temps (s : State) (f : TxFrame) : (s.belaySend f).temps = s.temps := rfl
@[simp] theorem State.belaySend_regs (s : State) (f : TxFrame) : (s.belaySend f).regs = s.regs := rfl
@[simp] theorem State.belaySend_tck (s : State) (f : TxFrame) : (s.belaySend f).tck = s.tck := rfl
@[simp] theorem State.belaySend_qe (s : State) (f : TxFrame) : (s.belaySend f).qe = s.qe := rfl
@[simp] theorem State.belaySend_ord (s : State) (f : TxFrame) : (s.belaySend f).ord = s.ord := rfl
@[simp] theorem State.belaySend_cch (s : State) (f : TxFrame) : (s.belaySend f).cch = s.cch := rfl
@[simp] theorem State.belaySend_jnl (s : State) (f : TxFrame) : (s.belaySend f).jnl = s.jnl := rfl
@[simp] theorem State.belaySend_cod (s : State) (f : TxFrame) : (s.belaySend f).cod = s.cod := rfl
@[simp] theorem State.belaySend_pools (s : State) (f : TxFrame) : (s.belaySend f).pools = s.pools := rfl
@[simp] theorem State.belaySend_seq (s : State) (f : TxFrame) : (s.belaySend f).seq = s.seq := rfl
@[simp] theorem State.belaySend_fix (s : State) (f : TxFrame) : (s.belaySend f).fix = s.fix := rfl
@[simp] theorem State.belaySend_dmv (s : State) (f : TxFrame) : (s.belaySend f).dmv = s.dmv := rfl
@[simp] theorem State.belaySend_mbr (s : State) (f : TxFrame) : (s.belaySend f).mbr = s.mbr := rfl
@[simp] theorem State.belaySend_hif (s : State) (f : TxFrame) : (s.belaySend f).hif = s.hif := rfl
@[simp] theorem State.belaySend_vlt (s : State) (f : TxFrame) : (s.belaySend f).vlt = s.vlt := rfl
@[simp] theorem State.belaySend_tru (s : State) (f : TxFrame) : (s.belaySend f).tru = s.tru := rfl
@[simp] theorem State.belaySend_evr (s : State) (f : TxFrame) : (s.belaySend f).evr = s.evr := rfl
@[simp] theorem State.belaySend_mgt (s : State) (f : TxFrame) : (s.belaySend f).mgt = s.mgt := rfl
@[simp] theorem State.belaySend_sched (s : State) (f : TxFrame) : (s.belaySend f).sched = s.sched := rfl
@[simp] theorem State.belaySend_freeCtr (s : State) (f : TxFrame) : (s.belaySend f).freeCtr = s.freeCtr := rfl
@[simp] theorem State.belaySend_out (s : State) (f : TxFrame) : (s.belaySend f).out = s.out := rfl

/-! ### report -/
@[simp] theorem State.report_pending (s : State) (n w : Nat) : (s.report n w).pending = s.pending := rfl
@[simp] theorem State.report_part (s : State) (n w : Nat) : (s.report n w).part = s.part := rfl
@[simp] theorem State.report_phase (s : State) (n w : Nat) : (s.report n w).phase = s.phase := rfl
@[simp] theorem State.report_pins (s : State) (n w : Nat) : (s.report n w).pins = s.pins := rfl
@[simp] theorem State.report_temps (s : State) (n w : Nat) : (s.report n w).temps = s.temps := rfl
@[simp] theorem State.report_regs (s : State) (n w : Nat) : (s.report n w).regs = s.regs := rfl
@[simp] theorem State.report_tck (s : State) (n w : Nat) : (s.report n w).tck = s.tck := rfl
@[simp] theorem State.report_qe (s : State) (n w : Nat) : (s.report n w).qe = s.qe := rfl
@[simp] theorem State.report_ord (s : State) (n w : Nat) : (s.report n w).ord = s.ord := rfl
@[simp] theorem State.report_cch (s : State) (n w : Nat) : (s.report n w).cch = s.cch := rfl
@[simp] theorem State.report_jnl (s : State) (n w : Nat) : (s.report n w).jnl = s.jnl := rfl
@[simp] theorem State.report_cod (s : State) (n w : Nat) : (s.report n w).cod = s.cod := rfl
@[simp] theorem State.report_pools (s : State) (n w : Nat) : (s.report n w).pools = s.pools := rfl
@[simp] theorem State.report_seq (s : State) (n w : Nat) : (s.report n w).seq = s.seq := rfl
@[simp] theorem State.report_fix (s : State) (n w : Nat) : (s.report n w).fix = s.fix := rfl
@[simp] theorem State.report_dmv (s : State) (n w : Nat) : (s.report n w).dmv = s.dmv := rfl
@[simp] theorem State.report_rop (s : State) (n w : Nat) : (s.report n w).rop = s.rop := rfl
@[simp] theorem State.report_hif (s : State) (n w : Nat) : (s.report n w).hif = s.hif := rfl
@[simp] theorem State.report_vlt (s : State) (n w : Nat) : (s.report n w).vlt = s.vlt := rfl
@[simp] theorem State.report_tru (s : State) (n w : Nat) : (s.report n w).tru = s.tru := rfl
@[simp] theorem State.report_evr (s : State) (n w : Nat) : (s.report n w).evr = s.evr := rfl
@[simp] theorem State.report_mgt (s : State) (n w : Nat) : (s.report n w).mgt = s.mgt := rfl
@[simp] theorem State.report_sched (s : State) (n w : Nat) : (s.report n w).sched = s.sched := rfl
@[simp] theorem State.report_freeCtr (s : State) (n w : Nat) : (s.report n w).freeCtr = s.freeCtr := rfl
@[simp] theorem State.report_out (s : State) (n w : Nat) : (s.report n w).out = s.out := rfl

/-! ### chargeAlways -/
@[simp] theorem State.chargeAlways_pending (s : State) (l : List (BClass × Nat)) : (s.chargeAlways l).pending = s.pending := rfl
@[simp] theorem State.chargeAlways_part (s : State) (l : List (BClass × Nat)) : (s.chargeAlways l).part = s.part := rfl
@[simp] theorem State.chargeAlways_phase (s : State) (l : List (BClass × Nat)) : (s.chargeAlways l).phase = s.phase := rfl
@[simp] theorem State.chargeAlways_pins (s : State) (l : List (BClass × Nat)) : (s.chargeAlways l).pins = s.pins := rfl
@[simp] theorem State.chargeAlways_temps (s : State) (l : List (BClass × Nat)) : (s.chargeAlways l).temps = s.temps := rfl
@[simp] theorem State.chargeAlways_regs (s : State) (l : List (BClass × Nat)) : (s.chargeAlways l).regs = s.regs := rfl
@[simp] theorem State.chargeAlways_tck (s : State) (l : List (BClass × Nat)) : (s.chargeAlways l).tck = s.tck := rfl
@[simp] theorem State.chargeAlways_qe (s : State) (l : List (BClass × Nat)) : (s.chargeAlways l).qe = s.qe := rfl
@[simp] theorem State.chargeAlways_ord (s : State) (l : List (BClass × Nat)) : (s.chargeAlways l).ord = s.ord := rfl
@[simp] theorem State.chargeAlways_cch (s : State) (l : List (BClass × Nat)) : (s.chargeAlways l).cch = s.cch := rfl
@[simp] theorem State.chargeAlways_jnl (s : State) (l : List (BClass × Nat)) : (s.chargeAlways l).jnl = s.jnl := rfl
@[simp] theorem State.chargeAlways_cod (s : State) (l : List (BClass × Nat)) : (s.chargeAlways l).cod = s.cod := rfl
@[simp] theorem State.chargeAlways_pools (s : State) (l : List (BClass × Nat)) : (s.chargeAlways l).pools = s.pools := rfl
@[simp] theorem State.chargeAlways_seq (s : State) (l : List (BClass × Nat)) : (s.chargeAlways l).seq = s.seq := rfl
@[simp] theorem State.chargeAlways_fix (s : State) (l : List (BClass × Nat)) : (s.chargeAlways l).fix = s.fix := rfl
@[simp] theorem State.chargeAlways_dmv (s : State) (l : List (BClass × Nat)) : (s.chargeAlways l).dmv = s.dmv := rfl
@[simp] theorem State.chargeAlways_mbr (s : State) (l : List (BClass × Nat)) : (s.chargeAlways l).mbr = s.mbr := rfl
@[simp] theorem State.chargeAlways_rop (s : State) (l : List (BClass × Nat)) : (s.chargeAlways l).rop = s.rop := rfl
@[simp] theorem State.chargeAlways_hif (s : State) (l : List (BClass × Nat)) : (s.chargeAlways l).hif = s.hif := rfl
@[simp] theorem State.chargeAlways_vlt (s : State) (l : List (BClass × Nat)) : (s.chargeAlways l).vlt = s.vlt := rfl
@[simp] theorem State.chargeAlways_tru (s : State) (l : List (BClass × Nat)) : (s.chargeAlways l).tru = s.tru := rfl
@[simp] theorem State.chargeAlways_evr (s : State) (l : List (BClass × Nat)) : (s.chargeAlways l).evr = s.evr := rfl
@[simp] theorem State.chargeAlways_mgt (s : State) (l : List (BClass × Nat)) : (s.chargeAlways l).mgt = s.mgt := rfl
@[simp] theorem State.chargeAlways_freeCtr (s : State) (l : List (BClass × Nat)) : (s.chargeAlways l).freeCtr = s.freeCtr := rfl
@[simp] theorem State.chargeAlways_out (s : State) (l : List (BClass × Nat)) : (s.chargeAlways l).out = s.out := rfl

/-! ### stageWin -/
@[simp] theorem State.stageWin_pending (s : State) (f : Fld) (v : Nat) : (s.stageWin f v).pending = s.pending := rfl
@[simp] theorem State.stageWin_part (s : State) (f : Fld) (v : Nat) : (s.stageWin f v).part = s.part := rfl
@[simp] theorem State.stageWin_phase (s : State) (f : Fld) (v : Nat) : (s.stageWin f v).phase = s.phase := rfl
@[simp] theorem State.stageWin_pins (s : State) (f : Fld) (v : Nat) : (s.stageWin f v).pins = s.pins := rfl
@[simp] theorem State.stageWin_temps (s : State) (f : Fld) (v : Nat) : (s.stageWin f v).temps = s.temps := rfl
@[simp] theorem State.stageWin_regs (s : State) (f : Fld) (v : Nat) : (s.stageWin f v).regs = s.regs := rfl
@[simp] theorem State.stageWin_tck (s : State) (f : Fld) (v : Nat) : (s.stageWin f v).tck = s.tck := rfl
@[simp] theorem State.stageWin_qe (s : State) (f : Fld) (v : Nat) : (s.stageWin f v).qe = s.qe := rfl
@[simp] theorem State.stageWin_ord (s : State) (f : Fld) (v : Nat) : (s.stageWin f v).ord = s.ord := rfl
@[simp] theorem State.stageWin_cch (s : State) (f : Fld) (v : Nat) : (s.stageWin f v).cch = s.cch := rfl
@[simp] theorem State.stageWin_jnl (s : State) (f : Fld) (v : Nat) : (s.stageWin f v).jnl = s.jnl := rfl
@[simp] theorem State.stageWin_cod (s : State) (f : Fld) (v : Nat) : (s.stageWin f v).cod = s.cod := rfl
@[simp] theorem State.stageWin_pools (s : State) (f : Fld) (v : Nat) : (s.stageWin f v).pools = s.pools := rfl
@[simp] theorem State.stageWin_seq (s : State) (f : Fld) (v : Nat) : (s.stageWin f v).seq = s.seq := rfl
@[simp] theorem State.stageWin_fix (s : State) (f : Fld) (v : Nat) : (s.stageWin f v).fix = s.fix := rfl
@[simp] theorem State.stageWin_dmv (s : State) (f : Fld) (v : Nat) : (s.stageWin f v).dmv = s.dmv := rfl
@[simp] theorem State.stageWin_mbr (s : State) (f : Fld) (v : Nat) : (s.stageWin f v).mbr = s.mbr := rfl
@[simp] theorem State.stageWin_hif (s : State) (f : Fld) (v : Nat) : (s.stageWin f v).hif = s.hif := rfl
@[simp] theorem State.stageWin_vlt (s : State) (f : Fld) (v : Nat) : (s.stageWin f v).vlt = s.vlt := rfl
@[simp] theorem State.stageWin_tru (s : State) (f : Fld) (v : Nat) : (s.stageWin f v).tru = s.tru := rfl
@[simp] theorem State.stageWin_evr (s : State) (f : Fld) (v : Nat) : (s.stageWin f v).evr = s.evr := rfl
@[simp] theorem State.stageWin_mgt (s : State) (f : Fld) (v : Nat) : (s.stageWin f v).mgt = s.mgt := rfl
@[simp] theorem State.stageWin_sched (s : State) (f : Fld) (v : Nat) : (s.stageWin f v).sched = s.sched := rfl
@[simp] theorem State.stageWin_freeCtr (s : State) (f : Fld) (v : Nat) : (s.stageWin f v).freeCtr = s.freeCtr := rfl
@[simp] theorem State.stageWin_out (s : State) (f : Fld) (v : Nat) : (s.stageWin f v).out = s.out := rfl

/-! ### put -/
@[simp] theorem State.put_pending (s : State) (r : EvRec) : (s.put r).pending = s.pending := (State.put_keep (s := s)).pending
@[simp] theorem State.put_part (s : State) (r : EvRec) : (s.put r).part = s.part := (State.put_keep (s := s)).part
@[simp] theorem State.put_phase (s : State) (r : EvRec) : (s.put r).phase = s.phase := (State.put_keep (s := s)).same .phase (by decide)
@[simp] theorem State.put_pins (s : State) (r : EvRec) : (s.put r).pins = s.pins := (State.put_keep (s := s)).same .pins (by decide)
@[simp] theorem State.put_temps (s : State) (r : EvRec) : (s.put r).temps = s.temps := (State.put_keep (s := s)).same .temps (by decide)
@[simp] theorem State.put_tck (s : State) (r : EvRec) : (s.put r).tck = s.tck := (State.put_keep (s := s)).same .tck (by decide)
@[simp] theorem State.put_qe (s : State) (r : EvRec) : (s.put r).qe = s.qe := (State.put_keep (s := s)).same .qe (by decide)
@[simp] theorem State.put_ord (s : State) (r : EvRec) : (s.put r).ord = s.ord := (State.put_keep (s := s)).same .ord (by decide)
@[simp] theorem State.put_cch (s : State) (r : EvRec) : (s.put r).cch = s.cch := (State.put_keep (s := s)).same .cch (by decide)
@[simp] theorem State.put_jnl (s : State) (r : EvRec) : (s.put r).jnl = s.jnl := (State.put_keep (s := s)).same .jnl (by decide)
@[simp] theorem State.put_cod (s : State) (r : EvRec) : (s.put r).cod = s.cod := (State.put_keep (s := s)).same .cod (by decide)
@[simp] theorem State.put_pools (s : State) (r : EvRec) : (s.put r).pools = s.pools := (State.put_keep (s := s)).same .pools (by decide)
@[simp] theorem State.put_seq (s : State) (r : EvRec) : (s.put r).seq = s.seq := (State.put_keep (s := s)).same .seq (by decide)
@[simp] theorem State.put_fix (s : State) (r : EvRec) : (s.put r).fix = s.fix := (State.put_keep (s := s)).same .fix (by decide)
@[simp] theorem State.put_dmv (s : State) (r : EvRec) : (s.put r).dmv = s.dmv := (State.put_keep (s := s)).same .dmv (by decide)
@[simp] theorem State.put_mbr (s : State) (r : EvRec) : (s.put r).mbr = s.mbr := (State.put_keep (s := s)).same .mbr (by decide)
@[simp] theorem State.put_rop (s : State) (r : EvRec) : (s.put r).rop = s.rop := (State.put_keep (s := s)).same .rop (by decide)
@[simp] theorem State.put_hif (s : State) (r : EvRec) : (s.put r).hif = s.hif := (State.put_keep (s := s)).same .hif (by decide)
@[simp] theorem State.put_vlt (s : State) (r : EvRec) : (s.put r).vlt = s.vlt := (State.put_keep (s := s)).same .vlt (by decide)
@[simp] theorem State.put_tru (s : State) (r : EvRec) : (s.put r).tru = s.tru := (State.put_keep (s := s)).same .tru (by decide)
@[simp] theorem State.put_mgt (s : State) (r : EvRec) : (s.put r).mgt = s.mgt := (State.put_keep (s := s)).same .mgt (by decide)
@[simp] theorem State.put_sched (s : State) (r : EvRec) : (s.put r).sched = s.sched := (State.put_keep (s := s)).same .sched (by decide)
@[simp] theorem State.put_freeCtr (s : State) (r : EvRec) : (s.put r).freeCtr = s.freeCtr := (State.put_keep (s := s)).same .freeCtr (by decide)
@[simp] theorem State.put_out (s : State) (r : EvRec) : (s.put r).out = s.out := (State.put_keep (s := s)).same .out (by decide)

/-! ### log -/
@[simp] theorem State.log_pending (s : State) (e : Ev) (k n : Nat) (p : BitVec 16) (a b c : Nat) (i : Bool) : (s.log e k n p a b c i).pending = s.pending := (State.log_keep (s := s)).pending
@[simp] theorem State.log_part (s : State) (e : Ev) (k n : Nat) (p : BitVec 16) (a b c : Nat) (i : Bool) : (s.log e k n p a b c i).part = s.part := (State.log_keep (s := s)).part
@[simp] theorem State.log_phase (s : State) (e : Ev) (k n : Nat) (p : BitVec 16) (a b c : Nat) (i : Bool) : (s.log e k n p a b c i).phase = s.phase := (State.log_keep (s := s)).same .phase (by decide)
@[simp] theorem State.log_pins (s : State) (e : Ev) (k n : Nat) (p : BitVec 16) (a b c : Nat) (i : Bool) : (s.log e k n p a b c i).pins = s.pins := (State.log_keep (s := s)).same .pins (by decide)
@[simp] theorem State.log_temps (s : State) (e : Ev) (k n : Nat) (p : BitVec 16) (a b c : Nat) (i : Bool) : (s.log e k n p a b c i).temps = s.temps := (State.log_keep (s := s)).same .temps (by decide)
@[simp] theorem State.log_tck (s : State) (e : Ev) (k n : Nat) (p : BitVec 16) (a b c : Nat) (i : Bool) : (s.log e k n p a b c i).tck = s.tck := (State.log_keep (s := s)).same .tck (by decide)
@[simp] theorem State.log_qe (s : State) (e : Ev) (k n : Nat) (p : BitVec 16) (a b c : Nat) (i : Bool) : (s.log e k n p a b c i).qe = s.qe := (State.log_keep (s := s)).same .qe (by decide)
@[simp] theorem State.log_ord (s : State) (e : Ev) (k n : Nat) (p : BitVec 16) (a b c : Nat) (i : Bool) : (s.log e k n p a b c i).ord = s.ord := (State.log_keep (s := s)).same .ord (by decide)
@[simp] theorem State.log_cch (s : State) (e : Ev) (k n : Nat) (p : BitVec 16) (a b c : Nat) (i : Bool) : (s.log e k n p a b c i).cch = s.cch := (State.log_keep (s := s)).same .cch (by decide)
@[simp] theorem State.log_jnl (s : State) (e : Ev) (k n : Nat) (p : BitVec 16) (a b c : Nat) (i : Bool) : (s.log e k n p a b c i).jnl = s.jnl := (State.log_keep (s := s)).same .jnl (by decide)
@[simp] theorem State.log_cod (s : State) (e : Ev) (k n : Nat) (p : BitVec 16) (a b c : Nat) (i : Bool) : (s.log e k n p a b c i).cod = s.cod := (State.log_keep (s := s)).same .cod (by decide)
@[simp] theorem State.log_pools (s : State) (e : Ev) (k n : Nat) (p : BitVec 16) (a b c : Nat) (i : Bool) : (s.log e k n p a b c i).pools = s.pools := (State.log_keep (s := s)).same .pools (by decide)
@[simp] theorem State.log_seq (s : State) (e : Ev) (k n : Nat) (p : BitVec 16) (a b c : Nat) (i : Bool) : (s.log e k n p a b c i).seq = s.seq := (State.log_keep (s := s)).same .seq (by decide)
@[simp] theorem State.log_fix (s : State) (e : Ev) (k n : Nat) (p : BitVec 16) (a b c : Nat) (i : Bool) : (s.log e k n p a b c i).fix = s.fix := (State.log_keep (s := s)).same .fix (by decide)
@[simp] theorem State.log_dmv (s : State) (e : Ev) (k n : Nat) (p : BitVec 16) (a b c : Nat) (i : Bool) : (s.log e k n p a b c i).dmv = s.dmv := (State.log_keep (s := s)).same .dmv (by decide)
@[simp] theorem State.log_mbr (s : State) (e : Ev) (k n : Nat) (p : BitVec 16) (a b c : Nat) (i : Bool) : (s.log e k n p a b c i).mbr = s.mbr := (State.log_keep (s := s)).same .mbr (by decide)
@[simp] theorem State.log_rop (s : State) (e : Ev) (k n : Nat) (p : BitVec 16) (a b c : Nat) (i : Bool) : (s.log e k n p a b c i).rop = s.rop := (State.log_keep (s := s)).same .rop (by decide)
@[simp] theorem State.log_hif (s : State) (e : Ev) (k n : Nat) (p : BitVec 16) (a b c : Nat) (i : Bool) : (s.log e k n p a b c i).hif = s.hif := (State.log_keep (s := s)).same .hif (by decide)
@[simp] theorem State.log_vlt (s : State) (e : Ev) (k n : Nat) (p : BitVec 16) (a b c : Nat) (i : Bool) : (s.log e k n p a b c i).vlt = s.vlt := (State.log_keep (s := s)).same .vlt (by decide)
@[simp] theorem State.log_tru (s : State) (e : Ev) (k n : Nat) (p : BitVec 16) (a b c : Nat) (i : Bool) : (s.log e k n p a b c i).tru = s.tru := (State.log_keep (s := s)).same .tru (by decide)
@[simp] theorem State.log_mgt (s : State) (e : Ev) (k n : Nat) (p : BitVec 16) (a b c : Nat) (i : Bool) : (s.log e k n p a b c i).mgt = s.mgt := (State.log_keep (s := s)).same .mgt (by decide)
@[simp] theorem State.log_sched (s : State) (e : Ev) (k n : Nat) (p : BitVec 16) (a b c : Nat) (i : Bool) : (s.log e k n p a b c i).sched = s.sched := (State.log_keep (s := s)).same .sched (by decide)
@[simp] theorem State.log_freeCtr (s : State) (e : Ev) (k n : Nat) (p : BitVec 16) (a b c : Nat) (i : Bool) : (s.log e k n p a b c i).freeCtr = s.freeCtr := (State.log_keep (s := s)).same .freeCtr (by decide)
@[simp] theorem State.log_out (s : State) (e : Ev) (k n : Nat) (p : BitVec 16) (a b c : Nat) (i : Bool) : (s.log e k n p a b c i).out = s.out := (State.log_keep (s := s)).same .out (by decide)

/-! ### bump -/
@[simp] theorem State.bump_pending (s : State) (f : Fld) (n ix : Nat) : (s.bump f n ix).pending = s.pending := (State.bump_keep (s := s)).pending
@[simp] theorem State.bump_part (s : State) (f : Fld) (n ix : Nat) : (s.bump f n ix).part = s.part := (State.bump_keep (s := s)).part
@[simp] theorem State.bump_phase (s : State) (f : Fld) (n ix : Nat) : (s.bump f n ix).phase = s.phase := (State.bump_keep (s := s)).same .phase (by decide)
@[simp] theorem State.bump_pins (s : State) (f : Fld) (n ix : Nat) : (s.bump f n ix).pins = s.pins := (State.bump_keep (s := s)).same .pins (by decide)
@[simp] theorem State.bump_temps (s : State) (f : Fld) (n ix : Nat) : (s.bump f n ix).temps = s.temps := (State.bump_keep (s := s)).same .temps (by decide)
@[simp] theorem State.bump_tck (s : State) (f : Fld) (n ix : Nat) : (s.bump f n ix).tck = s.tck := (State.bump_keep (s := s)).same .tck (by decide)
@[simp] theorem State.bump_qe (s : State) (f : Fld) (n ix : Nat) : (s.bump f n ix).qe = s.qe := (State.bump_keep (s := s)).same .qe (by decide)
@[simp] theorem State.bump_ord (s : State) (f : Fld) (n ix : Nat) : (s.bump f n ix).ord = s.ord := (State.bump_keep (s := s)).same .ord (by decide)
@[simp] theorem State.bump_cch (s : State) (f : Fld) (n ix : Nat) : (s.bump f n ix).cch = s.cch := (State.bump_keep (s := s)).same .cch (by decide)
@[simp] theorem State.bump_jnl (s : State) (f : Fld) (n ix : Nat) : (s.bump f n ix).jnl = s.jnl := (State.bump_keep (s := s)).same .jnl (by decide)
@[simp] theorem State.bump_cod (s : State) (f : Fld) (n ix : Nat) : (s.bump f n ix).cod = s.cod := (State.bump_keep (s := s)).same .cod (by decide)
@[simp] theorem State.bump_pools (s : State) (f : Fld) (n ix : Nat) : (s.bump f n ix).pools = s.pools := (State.bump_keep (s := s)).same .pools (by decide)
@[simp] theorem State.bump_seq (s : State) (f : Fld) (n ix : Nat) : (s.bump f n ix).seq = s.seq := (State.bump_keep (s := s)).same .seq (by decide)
@[simp] theorem State.bump_fix (s : State) (f : Fld) (n ix : Nat) : (s.bump f n ix).fix = s.fix := (State.bump_keep (s := s)).same .fix (by decide)
@[simp] theorem State.bump_dmv (s : State) (f : Fld) (n ix : Nat) : (s.bump f n ix).dmv = s.dmv := (State.bump_keep (s := s)).same .dmv (by decide)
@[simp] theorem State.bump_mbr (s : State) (f : Fld) (n ix : Nat) : (s.bump f n ix).mbr = s.mbr := (State.bump_keep (s := s)).same .mbr (by decide)
@[simp] theorem State.bump_rop (s : State) (f : Fld) (n ix : Nat) : (s.bump f n ix).rop = s.rop := (State.bump_keep (s := s)).same .rop (by decide)
@[simp] theorem State.bump_hif (s : State) (f : Fld) (n ix : Nat) : (s.bump f n ix).hif = s.hif := (State.bump_keep (s := s)).same .hif (by decide)
@[simp] theorem State.bump_vlt (s : State) (f : Fld) (n ix : Nat) : (s.bump f n ix).vlt = s.vlt := (State.bump_keep (s := s)).same .vlt (by decide)
@[simp] theorem State.bump_tru (s : State) (f : Fld) (n ix : Nat) : (s.bump f n ix).tru = s.tru := (State.bump_keep (s := s)).same .tru (by decide)
@[simp] theorem State.bump_evr (s : State) (f : Fld) (n ix : Nat) : (s.bump f n ix).evr = s.evr := (State.bump_keep (s := s)).same .evr (by decide)
@[simp] theorem State.bump_mgt (s : State) (f : Fld) (n ix : Nat) : (s.bump f n ix).mgt = s.mgt := (State.bump_keep (s := s)).same .mgt (by decide)
@[simp] theorem State.bump_sched (s : State) (f : Fld) (n ix : Nat) : (s.bump f n ix).sched = s.sched := (State.bump_keep (s := s)).same .sched (by decide)
@[simp] theorem State.bump_freeCtr (s : State) (f : Fld) (n ix : Nat) : (s.bump f n ix).freeCtr = s.freeCtr := (State.bump_keep (s := s)).same .freeCtr (by decide)
@[simp] theorem State.bump_out (s : State) (f : Fld) (n ix : Nat) : (s.bump f n ix).out = s.out := (State.bump_keep (s := s)).same .out (by decide)

end Sys2Proof.Machine
end

