-- ==== Sys2Proof/Laws/Tables.lean ====
section
/-!
SUPPORT. Laws of the tables, of the register file and of the updates by key: what is read after a write, and that everything else is left alone.
-/
namespace Sys2Proof.Machine

/-! ### Tables -/

theorem tget_tset {κ α : Type} [DecidableEq κ] (l : List (κ × α)) (k : κ) (a : α) (k' : κ) :
    tget (tset l k a) k' = if k' = k then some a else tget l k' := by
  induction l with
  | nil =>
    by_cases h : k' = k
    · simp [tset, tget, h]
    · simp [tset, tget, h, Ne.symm h]
  | cons e r ih =>
    obtain ⟨j, b⟩ := e
    by_cases hj : j = k
    · subst hj
      by_cases h : k' = j
      · subst h; simp [tset, tget]
      · simp [tset, tget, h, Ne.symm h]
    · by_cases h : j = k'
      · subst h; simp [tset, tget, hj]
      · simp [tset, tget, hj, h, ih]

@[simp] theorem tget_tset_same {κ α : Type} [DecidableEq κ] (l : List (κ × α)) (k : κ) (a : α) : tget (tset l k a) k = some a := by
  rw [tget_tset, if_pos rfl]

theorem tget_tset_ne {κ α : Type} [DecidableEq κ] {l : List (κ × α)} {k k' : κ} {a : α} (h : k' ≠ k) : tget (tset l k a) k' = tget l k' := by
  rw [tget_tset, if_neg h]

theorem tget_tupd {κ α : Type} [DecidableEq κ] (l : List (κ × α)) (k : κ) (f : α → α) (k' : κ) :
    tget (tupd l k f) k' = if k' = k then (tget l k').map f else tget l k' := by
  induction l with
  | nil => by_cases h : k' = k <;> simp [tupd, tget, h]
  | cons e r ih =>
    obtain ⟨j, b⟩ := e
    have ih' : tget (List.map (fun e => if e.1 = k then (e.1, f e.2) else e) r) k' = if k' = k then (tget r k').map f else tget r k' := ih
    by_cases hj : j = k
    · subst hj
      by_cases h : j = k'
      · subst h; simp [tupd, tget]
      · simp only [tupd, List.map_cons, if_true, tget, if_neg h, ih', fun e : k' = j => h e.symm, if_false]
    · by_cases h : j = k'
      · subst h; simp [tupd, tget, hj]
      · simp only [tupd, List.map_cons, if_neg hj, tget, if_neg h, ih']

@[simp] theorem tget_tupd_same {κ α : Type} [DecidableEq κ] (l : List (κ × α)) (k : κ) (f : α → α) : tget (tupd l k f) k = (tget l k).map f := by
  rw [tget_tupd, if_pos rfl]

theorem tget_tupd_ne {κ α : Type} [DecidableEq κ] {l : List (κ × α)} {k k' : κ} {f : α → α} (h : k' ≠ k) : tget (tupd l k f) k' = tget l k' := by
  rw [tget_tupd, if_neg h]

theorem tget_tdel {κ α : Type} [DecidableEq κ] (l : List (κ × α)) (k k' : κ) : tget (tdel l k) k' = if k' = k then none else tget l k' := by
  induction l with
  | nil => simp [tdel, tget]
  | cons e r ih =>
    obtain ⟨j, b⟩ := e
    have ih' : tget (List.filter (fun e => !decide (e.1 = k)) r) k' = if k' = k then none else tget r k' := ih
    by_cases hj : j = k
    · subst hj
      by_cases h : k' = j
      · subst h; simp only [tdel, List.filter, decide_true, Bool.not_true, ih', if_true]
      · simp only [tdel, List.filter, decide_true, Bool.not_true, ih', if_neg h, tget, if_neg (Ne.symm h)]
    · by_cases h : j = k'
      · subst h; simp [tdel, tget, hj]
      · simp only [tdel, List.filter, hj, decide_false, Bool.not_false, tget, if_neg h, ih']

/-! ### Changes of the elements that meet a test -/

/-- A key is in the table when reading it answers. -/
theorem tget_ne_none {κ α : Type} [DecidableEq κ] (l : List (κ × α)) (k : κ) : tget l k ≠ none ↔ k ∈ l.map (·.1) := by
  induction l with
  | nil => simp [tget]
  | cons a r ih =>
    obtain ⟨k', a⟩ := a
    unfold tget
    by_cases e : k' = k
    · simp [e]
    · simp [e, Ne.symm e] at ih ⊢; exact ih

/-- A new key at the end. -/
theorem tget_append {κ α : Type} [DecidableEq κ] (l : List (κ × α)) (k : κ) (x : α) (h : tget l k = none) : tget (l ++ [(k, x)]) k = some x := by
  induction l with
  | nil => simp [tget]
  | cons a r ih =>
    obtain ⟨k', a⟩ := a
    rw [List.cons_append]
    unfold tget at h ⊢
    by_cases e : k' = k
    · simp [e] at h
    · simp only [e, if_false] at h ⊢
      exact ih h

theorem updIf_map {α β : Type} {g : α → β} {f : α → α} (hg : ∀ a, g (f a) = g a) (l : List α) (p : α → Bool) : (updIf l p f).map g = l.map g := by
  simp only [updIf, List.map_map]
  refine List.map_congr_left fun a _ => ?_
  simp only [Function.comp]; split
  · exact hg a
  · rfl

@[simp] theorem updIf_length {α : Type} (l : List α) (p : α → Bool) (f : α → α) : (updIf l p f).length = l.length := List.length_map _

/-- Finding after a change that the test does not see. -/
theorem find_updIf {α : Type} (l : List α) (p q : α → Bool) (f : α → α) (hq : ∀ a, q (f a) = q a) :
    (updIf l p f).find? q = (l.find? q).map fun a => if p a then f a else a := by
  induction l with
  | nil => rfl
  | cons a r ih =>
    have ih' : (List.map (fun a => if p a then f a else a) r).find? q = (r.find? q).map fun a => if p a then f a else a := ih
    simp only [updIf, List.map_cons, List.find?_cons, ih']
    by_cases hp : p a <;> by_cases hq' : q a <;> simp [hp, hq', hq]

/-! ### Registers -/

theorem RegFile.get_set (r : RegFile) (f : Fld) (v : BitVec 32) (ix : Nat) (g : Fld) (jx : Nat) :
    (r.set f v ix).get g jx = if g = f ∧ jx = ix then v else r.get g jx := by
  unfold RegFile.get RegFile.set
  rw [tget_tset]
  by_cases h : g = f ∧ jx = ix
  · obtain ⟨rfl, rfl⟩ := h; simp
  · rw [if_neg (fun e => h ⟨congrArg RegKey.f e, congrArg RegKey.ix e⟩), if_neg h]

@[simp] theorem RegFile.get_set_same (r : RegFile) (f : Fld) (v : BitVec 32) (ix : Nat) : (r.set f v ix).get f ix = v := by
  rw [RegFile.get_set, if_pos ⟨rfl, rfl⟩]

theorem RegFile.get_set_ne {r : RegFile} {f g : Fld} {v : BitVec 32} {ix jx : Nat} (h : g ≠ f) : (r.set f v ix).get g jx = r.get g jx := by
  rw [RegFile.get_set, if_neg fun e => h e.1]

@[simp] theorem State.setReg_get (s : State) (f : Fld) (v ix : Nat) (g : Fld) (jx : Nat) :
    (s.setReg f v ix).regs.get g jx = if g = f ∧ jx = ix then w32 v else s.regs.get g jx := RegFile.get_set ..

theorem State.reg_setReg (s : State) (f : Fld) (v ix : Nat) (g : Fld) (jx : Nat) :
    (s.setReg f v ix).reg g jx = if g = f ∧ jx = ix then v % 2 ^ 32 else s.reg g jx := by
  unfold State.reg
  rw [State.setReg_get]
  split
  · exact BitVec.toNat_ofNat ..
  · rfl

theorem State.bump_get (s : State) (f : Fld) (n ix : Nat) (g : Fld) (jx : Nat) :
    (s.bump f n ix).regs.get g jx = if n ≠ 0 ∧ g = f ∧ jx = ix then countUp f (s.regs.get f ix) n else s.regs.get g jx := by
  unfold State.bump
  by_cases h : n = 0
  · simp [h]
  · simp [h, RegFile.get_set]

/-- A counter that is not at its end goes up by one. -/
theorem State.bump_reg (s : State) (f : Fld) (ix : Nat) (h : s.reg f ix < 2 ^ 32 - 1) : (s.bump f 1 ix).reg f ix = s.reg f ix + 1 := by
  have hr : (s.regs.get f ix).toNat = s.reg f ix := rfl
  have hc : countUp f (s.regs.get f ix) 1 = w32 (s.reg f ix + 1) := by
    unfold countUp
    rw [hr, if_pos (by omega)]
  show (((s.bump f 1 ix)).regs.get f ix).toNat = _
  rw [State.bump_get, if_pos ⟨by decide, rfl, rfl⟩, hc]
  show (BitVec.ofNat 32 _).toNat = _
  rw [BitVec.toNat_ofNat, Nat.mod_eq_of_lt (by omega)]

/-- A counter leaves every other field alone. -/
theorem State.bump_other (s : State) (f : Fld) (n ix : Nat) : OtherFields s (s.bump f n ix) [⟨f, ix⟩] := by
  intro g jx hg
  rw [State.bump_get, if_neg]
  rintro ⟨-, rfl, rfl⟩
  exact hg (List.mem_singleton.mpr rfl)

/-- Setting a field leaves every other field alone. -/
theorem State.setReg_other (s : State) (f : Fld) (v ix : Nat) : OtherFields s (s.setReg f v ix) [⟨f, ix⟩] := by
  intro g jx hg
  rw [State.setReg_get, if_neg]
  rintro ⟨rfl, rfl⟩
  exact hg (List.mem_singleton.mpr rfl)

/-! ### Frames -/

/-- The frame of an operation from what it keeps. -/
theorem Frame.of_keep {s t : State} {vs ws : List Sec} (h : Keep s t vs) (hw : within vs ws = true) : Frame s t ws :=
  ⟨h.pending, h.part, (h.mono hw).same⟩

/-- A frame may name more parts than are written. -/
theorem Frame.mono {s t : State} {vs ws : List Sec} (h : Frame s t vs) (hw : within vs ws = true) : Frame s t ws :=
  ⟨h.1, h.2.1, fun k hk => h.2.2 k fun hv => hk (within_mem hw hv)⟩

/-- Frames compose. -/
theorem Frame.trans {s t u : State} {ws : List Sec} (h : Frame s t ws) (h' : Frame t u ws) : Frame s u ws :=
  ⟨h'.1.trans h.1, h'.2.1.trans h.2.1, fun k hk => Sec.same_trans (h.2.2 k hk) (h'.2.2 k hk)⟩

end Sys2Proof.Machine
end

