-- ==== Sys2Proof/Laws/Logs.lean ====
section
/-!
SUPPORT. What logging an event leaves alone: every register field but the fatal alert and the count of lost records, and EVR's cursors, its copies and its
requests.
-/
namespace Sys2Proof.Machine

theorem State.reach_reg {s : State} {r : EvRec} {f : Fld} {ix : Nat} (h : f ≠ .evrLostCntN) : (s.reach r).reg f ix = s.reg f ix := by
  unfold State.reach
  dsimp -proj only
  split
  · rfl
  · split
    · rfl
    · split
      · rfl
      · unfold State.bump State.reg
        rw [if_neg (by decide)]
        exact congrArg _ (RegFile.get_set_ne h)

theorem State.put_reg {s : State} {r : EvRec} {f : Fld} {ix : Nat} (h : f ≠ .evrLostCntN) : (s.put r).reg f ix = s.reg f ix := by
  unfold State.put
  split
  · rfl
  · exact State.reach_reg h

/-- A register field after logging an event. -/
theorem State.log_reg {s : State} {e : Ev} {k n : Nat} {p : BitVec 16} {a b c : Nat} {i : Bool} {f : Fld} {ix : Nat} (h : f ≠ .evrLostCntN)
    (h' : f ≠ .glbAlertFatal) : (s.log e k n p a b c i).reg f ix = s.reg f ix := by
  unfold State.log
  dsimp only
  split
  · unfold State.setReg State.reg
    rw [show ({ s.put _ with regs := _ } : State).regs = _ from rfl, RegFile.get_set_ne h']
    exact State.put_reg h
  · exact State.put_reg h

/-- What of EVR's state logging leaves alone. -/
def Evr.rest (e : Evr) : Evr := { e with next := 0, mark := 0, intake := [], units := [], batch := [], recs := [], cairn := [], waiting := 0, norDirty := false }

theorem State.reach_rest {s : State} {r : EvRec} : (s.reach r).evr.rest = s.evr.rest := by
  unfold State.reach
  dsimp -proj only
  split
  · rfl
  · split
    · rfl
    · split
      · rfl
      · unfold State.bump; rw [if_neg (by decide)]; rfl

theorem State.put_rest {s : State} {r : EvRec} : (s.put r).evr.rest = s.evr.rest := by
  unfold State.put
  split
  · rfl
  · exact State.reach_rest

theorem State.log_rest {s : State} {e : Ev} {k n : Nat} {p : BitVec 16} {a b c : Nat} {i : Bool} : (s.log e k n p a b c i).evr.rest = s.evr.rest := by
  unfold State.log
  dsimp only
  split
  · exact State.put_rest
  · exact State.put_rest

/-- EVR's copies, cursors and requests after logging an event. -/
theorem State.log_evr {s : State} {e : Ev} {k n : Nat} {p : BitVec 16} {a b c : Nat} {i : Bool} :
    let t := s.log e k n p a b c i
    t.evr.taken = s.evr.taken ∧ t.evr.batching = s.evr.batching ∧ t.evr.cleared = s.evr.cleared ∧ t.evr.persist = s.evr.persist ∧ t.evr.norFail = s.evr.norFail ∧
      t.evr.norHalf = s.evr.norHalf ∧ t.evr.norTop = s.evr.norTop ∧ t.evr.norAt = s.evr.norAt ∧ t.evr.norWant = s.evr.norWant ∧
      t.evr.cursors = s.evr.cursors ∧ t.evr.curLo = s.evr.curLo ∧ t.evr.clearReq = s.evr.clearReq := by
  have h := State.log_rest (s := s) (e := e) (k := k) (n := n) (p := p) (a := a) (b := b) (c := c) (i := i)
  simp only [Evr.rest, Evr.mk.injEq] at h
  simp only [h, and_self]

end Sys2Proof.Machine
end

