-- ==== Sys2Proof/WellFormed.lean ====
section
/-!
DEFINITION. Which commands the boundary can carry: numbers within the fields that carry them, lists within the lengths that the rules allow. A meaning is
defined on every command; the checks that the module itself makes are part of the meanings.
-/
namespace Sys2Proof

/-- A pair number within its function's pairs (R183). -/
def ringWf (q : RingRef) : Bool := decide (q.pair < if q.fn = .pf0 then 8 else 16384)

/-- Admin commands come from PF0 rings or over MCTP (R183, R224). -/
def admWf (src : AdmSrc) : Bool :=
  match src with
  | .ring q => q.fn == .pf0 && ringWf q
  | .mctp => true

/-- An entry takes 1 to 16 units (R188). -/
def hdrWf (hd : EntryHdr) : Bool := decide (1 ≤ hd.units ∧ hd.units ≤ 16)

/-- What a read of host memory brings keeps to a bound. -/
def HostRead.within {α : Type} (r : HostRead α) (p : α → Bool) : Bool :=
  match r with
  | .ok a => p a
  | .err _ => true

/-- An access carries 1 to 64 bytes; the module itself judges its size and alignment (R313, R397). -/
def accessWf (size : Nat) : Bool := decide (1 ≤ size ∧ size ≤ 64)

/-- A journal record: an intent of 1 to 256 blocks, a retire of 1 to 6 numbers (R89, R90). -/
def recordWf (r : JRec) : Bool :=
  match r with
  | .intent i => decide (1 ≤ i.count ∧ i.count ≤ 256)
  | .retire l => decide (1 ≤ l.length ∧ l.length ≤ 6)
  | .sealed _ => true

/-- Can the boundary carry this command? -/
def wellFormed (i : Instr) : Bool :=
  match i with
  | .pwrFailAsserted _ => true
  | .pwrFailDeasserted => true
  | .sysRstAsserted _ => true
  | .sysRstReleased _ _ _ => true
  | .railsValid => true
  | .railsFall => true
  | .sysClkLoss => true
  | .ppsInPulse _ => true
  | .ppsLost => true
  | .sensorWarning _ _ => true
  | .criticalTemperature _ _ => true
  | .hold12vSample _ => true
  | .hold12vLow => true
  | .tickEdge => true
  | .journalRelocation => true
  | .gatherWindowExpiry _ _ _ => true
  | .bitmapQuietExpiry _ _ _ => true
  | .scrubCycleEnd _ => true
  | .doorbell _ _ slot => decide (slot < 16384)
  | .hostLineReply q _ => ringWf q
  | .entryUnitReply q r => ringWf q && r.within fun us => decide (1 ≤ us.length ∧ us.length ≤ 16)
  | .listSegmentReply q r => ringWf q && r.within fun es => decide (4 ≤ es.length ∧ es.length ≤ 256)
  | .pad q units => ringWf q && decide (1 ≤ units ∧ units ≤ 16)
  | .read q hd _ _ _ _ => ringWf q && hdrWf hd
  | .write q hd _ _ _ _ => ringWf q && hdrWf hd
  | .flush q hd => ringWf q && hdrWf hd
  | .abort q hd _ _ => ringWf q && hdrWf hd
  | .verify q hd _ _ => ringWf q && hdrWf hd
  | .sealOpen q hd _ _ => ringWf q && hdrWf hd
  | .sealAppend q hd _ _ _ _ _ _ => ringWf q && hdrWf hd
  | .sealClose q hd _ _ => ringWf q && hdrWf hd
  | .sealSave q hd _ _ => ringWf q && hdrWf hd
  | .sealRestore q hd _ _ => ringWf q && hdrWf hd
  | .volumePower q hd _ => ringWf q && hdrWf hd
  | .writeZeroes q hd _ _ _ => ringWf q && hdrWf hd
  | .identifyModule src _ _ => admWf src
  | .identifyVolume src _ _ _ => admWf src
  | .createQueue src _ a => admWf src && decide (a.exp < 256 ∧ a.pair < 65536 ∧ a.cqPair < 65536 ∧ a.vector < 65536 ∧ a.bh < 65536)
  | .deleteQueue src _ _ _ _ => admWf src
  | .enableQueue src _ _ _ _ => admWf src
  | .disableQueue src _ _ _ _ => admWf src
  | .listVolumes src _ _ _ _ _ => admWf src
  | .poolOpCreate src _ _ _ _ _ => admWf src
  | .poolOpDelete src _ _ => admWf src
  | .addMembers src _ _ _ _ _ => admWf src
  | .removeMembers src _ _ _ _ _ => admWf src
  | .declareFailed src _ _ idx => admWf src && decide (idx < 65536)
  | .replaceMember src _ _ idx img => admWf src && decide (idx < 65536 ∧ img < 2 ^ 32)
  | .frondStart src _ _ _ _ _ => admWf src
  | .frondCancel src _ _ => admWf src
  | .readLost src _ _ _ _ first => admWf src && decide (first < 2 ^ 32)
  | .releaseLost src _ _ _ _ _ => admWf src
  | .poolOpSetAttr src _ _ scrubEn period => admWf src && decide (scrubEn < 256 ∧ period < 65536)
  | .poolOpStatus src _ _ => admWf src
  | .volumeOpCreate src _ _ _ _ => admWf src
  | .volumeOpDelete src _ _ => admWf src
  | .volumeOpSetAttr src _ _ attr value => admWf src && decide (attr < 256 ∧ value < 65536)
  | .volumeOpGrow src _ _ _ => admWf src
  | .getEvents src _ _ _ _ _ => admWf src
  | .auditRequestReport src _ _ _ _ => admWf src
  | .auditRequestStatement src _ _ _ _ _ => admWf src
  | .clearEvents src _ => admWf src
  | .fwDownload src _ _ _ _ len chunk => admWf src && chunk.within fun bs => bs.length == len.toNat
  | .fwStage src _ _ _ _ => admWf src
  | .fwActivate src _ _ => admWf src
  | .activateFirmware _ => true
  | .keyImportTransferKey src _ _ _ => admWf src
  | .keyImportRopeKey src _ _ _ => admWf src
  | .keyImportPoolSecret src _ _ _ => admWf src
  | .dmvCompletion ch _ payload => decide (ch < 1024 ∧ payload.length ≤ 65536)
  | .dmvBusError ch _ _ _ _ => decide (ch < 1024)
  | .dmvQueueDrain _ port fillPct => decide (port < 16 ∧ fillPct ≤ 100)
  | .completionTimeout _ _ => true
  | .unexpectedCompletion _ _ => true
  | .tagQuarantineExpiry _ _ => true
  | .translationCompletion _ _ _ => true
  | .invalidateRequest _ _ _ _ sizeLog2 _ => decide (12 ≤ sizeLog2 ∧ sizeLog2 ≤ 64)
  | .invalidateCompletion _ _ _ => true
  | .perstAsserted _ => true
  | .perstReleased _ => true
  | .hotReset _ => true
  | .flr _ _ => true
  | .hifLinkDown _ => true
  | .linkTrained _ rate width => decide (1 ≤ rate ∧ rate ≤ 6) && [1, 2, 4, 8, 16].contains width
  | .mpsWrite _ _ cfg => [128, 256, 512, 1024, 2048, 4096].contains cfg.mps && decide (cfg.msiEn ≤ 32)
  | .pmcsrD3hot _ _ _ => true
  | .pmcsrD0 _ _ _ => true
  | .pmeTurnOff _ => true
  | .msixUnmask _ fn vector => decide (vector < if fn = .pf0 then 32 else 2048)
  | .poisonedRequest _ => true
  | .unsupportedRequest _ _ => true
  | .registerWrite _ _ _ size _ => accessWf size
  | .rcRegisterRead _ _ => true
  | .latchedPairRead _ _ => true
  | .cchWmApply _ => true
  | .seqPaceApply _ => true
  | .dmvPaceApply _ => true
  | .ropWinApply _ => true
  | .qeAdmApply _ => true
  | .errlogClear _ => true
  | .glbAlertClear _ _ => true
  | .ovrStatClear _ _ => true
  | .evrCursorWrite _ _ size _ => accessWf size
  | .injectArm => true
  | .injectDisarm => true
  | .mctpBarRead _ _ => true
  | .mctpBarWrite _ _ _ => true
  | .memberCompletion _ _ _ => true
  | .memberTimeout _ => true
  | .rdmaQpError member _ => decide (member < 2 ^ 32)
  | .keepAliveFailure member _ => decide (member < 2 ^ 32)
  | .pathReconnect member _ _ => decide (member < 2 ^ 32)
  | .memberReconnExpiry member => decide (member < 2 ^ 32)
  | .labelReadPoll member => decide (member < 2 ^ 32)
  | .missingTimerExpiry _ idx => decide (idx < 1024)
  | .spinupLimit _ idx => decide (idx < 1024)
  | .cnpReceived member _ _ => decide (member < 2 ^ 32)
  | .ceFrameReceived member _ _ => decide (member < 2 ^ 32)
  | .ccTimer member _ _ => decide (member < 2 ^ 32)
  | .portLinkDown _ => true
  | .portLinkUp _ => true
  | .announce _ _ _ _ _ => true
  | .heartbeat _ path _ => decide (path < 16)
  | .timeSync _ path _ _ _ _ => decide (path < 16)
  | .delayReq _ path _ => decide (path < 16)
  | .delayResp _ path _ => decide (path < 16)
  | .belaySetup _ _ => true
  | .belayBlock _ _ _ => true
  | .belayRecords _ _ recs => decide (1 ≤ recs.length ∧ recs.length ≤ 32) && recs.all recordWf
  | .belaySeal _ _ => true
  | .belayConfirm _ _ => true
  | .sealNak _ _ => true
  | .winNak _ _ _ => true
  | .fwdCmd _ _ _ _ _ entry => decide (1 ≤ entry.length ∧ entry.length ≤ 16)
  | .fwdData _ _ _ _ => true
  | .fwdReply _ _ _ _ _ _ => true
  | .dirClaim _ _ _ _ => true
  | .dirUpdate _ _ => true
  | .yieldFrame _ _ _ => true
  | .takeoverAck _ _ => true
  | .yieldSend => true
  | .announceSend => true
  | .timeSyncSend => true
  | .delayReqSend => true
  | .frameRetxTimeout _ _ => true
  | .peerLostTimeout _ => true
  | .pathDownTimeout _ path => decide (path < 16)
  | .pathUp _ path => decide (path < 16)
  | .partnerSuspect => true
  | .partnerCheck => true
  | .partnerCheckRetry => true
  | .belaySetupRetry => true
  | .sealNakTimeout _ => true
  | .yieldTimeout => true
  | .handbackTimer _ => true
  | .timingMessagesMissing => true
  | .cqStalled q => ringWf q
  | .ropeJoinExpiry => true
  | .memberDiscoveryExpiry => true
  | .trustBootDone _ _ _ _ => true
  | .configLoadDone _ => true
  | .memoryInitDone _ => true
  | .vaultRecoveryDone _ _ => true
  | .ropeJoinDone => true
  | .memberDiscoveryDone => true
  | .poolAssemblyDone _ => true
  | .journalReconcileDone _ => true
  | .resyncComplete _ => true
  | .trialCommit => true
  | .quiesceDone => true
  | .phase1Written _ _ => true
  | .phase2Written _ _ => true
  | .bivouacClose => true
  | .vaultEraseDone _ die => decide (die < 64)
  | .vaultProgramFail die => decide (die < 64)
  | .truSignatureDone _ _ => true
  | .evrLogPageWrite => true
  | .evrNorHalfWrite _ => true
  | .pmeStatusClear _ _ _ => true
  | .requestFirmwareData _ _ _ => true
  | .pfcPauseFrame _ _ _ => true
  | .tapInstructionLoad _ => true

end Sys2Proof
end

