-- ==== Sys2Proof/Tests/Slice0.lean ====
section
/-!
SUPPORT. Small tests: what the boundary cannot carry is refused, values written out from the spec, and for the hypotheses of each statement a state and
operands that meet them.
-/
namespace Sys2Proof.Tests
open Sys2Proof Sys2Proof.Machine

/-! ### What the boundary cannot carry -/

def q0 : RingRef := ⟨0, .pf1, 0⟩
def a0 : RingRef := ⟨0, .pf0, 0⟩
def e0 : EntryHdr := { units := 1, tag := 7, vol := 0x021 }

theorem test_wf_ring : wellFormed (.pad ⟨0, .pf0, 8⟩ 1) = false ∧ wellFormed (.pad ⟨0, .pf1, 16384⟩ 1) = false := by decide
theorem test_wf_adm : wellFormed (.clearEvents (.ring q0) 0) = false := by decide
theorem test_wf_hdr : wellFormed (.flush q0 { e0 with units := 17 }) = false ∧ wellFormed (.flush q0 { e0 with units := 0 }) = false := by decide
theorem test_wf_pad : wellFormed (.pad q0 0) = false ∧ wellFormed (.pad q0 17) = false := by decide
theorem test_wf_access : wellFormed (.registerWrite .port0 .pf0 0 0 0) = false := by decide
def h0 : FrameHdr := { version := 1, retx := false, ropeId := 0, src := 0x011, dst := 0x010, seq := 0, edge := 0, len := 0, crc := 0 }

theorem test_wf_record : wellFormed (.belayRecords h0 0 [.retire []]) = false := by decide
theorem test_wf_doorbell : wellFormed (.doorbell 0 .pf1 16384) = false := by decide
theorem test_wf_units : wellFormed (.entryUnitReply q0 (.ok [])) = false := by decide
theorem test_wf_segment : wellFormed (.listSegmentReply q0 (.ok [])) = false := by decide
theorem test_wf_channel : wellFormed (.dmvBusError 1024 .timeout .host0 false 0) = false := by decide

-- One thread: each of the many kernel evaluations below would take a stack of its own.
set_option Elab.async false

/-! ### Small states that meet the hypotheses of the statements -/

def img0 : Image :=
  { secVersion := 0, boundSerial := 0, variants := 1, build := 0, sectionsOk := true, digest := 0, ropeId := 0, ropeAddr := 0x010, partner := some 0x011
    period := 1, ppsEn := 0, roles := 0x00FF, split := 0, dmvModes := 0, wakeEn := 0, subVendor := 0, subId := 0, joinTicks := 125000, discTicks := 7500000
    metaGib := 4, dirtyGib := 1, belayGib := 1, udpPort := 4791, handback := 0, timeDscp := 0, ropeVlan := 0, multicast := 0, ropeIps := [], seeds := []
    memVlan := 0, pfcEn := 0, memDscp := 0, memIps := [], discovery := [], members := [], pools := [(1, 0x010)], gDefault := 1024, wtDefault := 0
    rcDefault := 0, soloDefault := 0, faultDefault := 0, scrubDefault := 30, regionDefault := 4, testPerm := 0, exportPerm := 0 }

def fw0 : SignedObj := ⟨[], []⟩
def flush1 : Flush :=
  { num := 1, failStop := false, boot := 1, edge := 0, lastSeal := 0, ph1 := some (1, 2), ph2 := some (1, 2), consumed := false, incLogged := false
    jnl := none, cch := none, fix := some { Fix.reset with saveSeq := 3 }, pools := [], locks := [], overflow := [], evRecs := 0, mirror := [], recv := [] }

/-- Reset, at another phase. -/
def atPhase (p : Phase) : State := { State.reset with phase := p }

/-- The module in reset with a slot directory in its first copy. -/
def nvmDir (d : Directory) : State := { State.reset with mgt := { Mgt.reset with dirNvm := [dirBytes d, []] } }
/-- A metadata read of the pool: three copies that no block backs. -/
def poolRead0 : PoolRead := { id := 1, copies := [], holder := none, reachable := [true, true, true] }

def portUp : HPort := { HPort.reset with rate := 5, width := 16, f := 4, linkUp := true, ready := true }
def sq0 : Sq :=
  { st := .enabled, base := 0, exp := 4, hostLine := 0, devLine := 64, cqPair := 0, bh := 4, relaxed := false, c := 0, h := 0, p := 0, pend := false
    fetch := .idle }
def cq0 : Cq :=
  { base := 4096, exp := 4, hostLine := 0, devLine := 64, vector := none, t := 0, hc := 0, enabled := true, held := false, overflow := [], waiting := []
    idleEdges := 0, stallLogged := false, lineRead := false }

/-- A layout of family 2 with k = 2 on members 0 to 2. -/
def lay0 : LayoutDesc :=
  { id := 1, family := 2, stripExp := 16, k := 2, m := 1, l := 0, g := 0, n := 3, s := 0, levels := 0, memberList := 1, seed := 0, hBase := 0
    count := 8, zone := 1048576, rsvdZero := true, crc := 0 }
def attrs0 : VolAttrs := { g := 1024, wt := false, noFill := false, solo := 0, fault := 0, readOnly := false }
def vol0 : VolMeta := { id := 0x021, size := 64, layout := 1, extents := [0], attrs := attrs0, limit := 100, power := .active }
def meta0 : PoolMeta :=
  { id := 1, commit := 5, home := 0x010, layouts := [lay0], lists := [(1, [0, 1, 2])], members := [⟨10, .active⟩, ⟨11, .active⟩, ⟨12, .active⟩]
    jms := [0, 1, 2], remap := [], regionExp := 4, wrapped := 0, krCheck := 0, lost := [], scrubEn := false, scrubDays := 30, scrub := none, frond := none
    vireks := [], unrest := [], volumes := [vol0] }
def pool0 : Pool := Pool.assembled meta0 0 [true, true, true] 0 false

def path3 : MPath := { port := 3, up := true, broke := 0, rate := 800, rateK := 0, cnpRx := none, cnpTx := none, lastCnp := none }
def mem0 : IMember :=
  { num := 10, dom1 := none, dom2 := none, lbas := 0, mdts := 65536, admitted := true, refused := none, checked := true, unreach := none, lastBroke := none
    media := [], lowPower := false, spinning := none, ready := true, paths := [path3, { path3 with port := 4 }], resvReg := true, blank := false, label := some (1, 0) }

def peer0 : Peer :=
  { serial := 5, st := .up, heard := 0, ips := [], annState := 11, modState := .online, paths := [⟨0, true, true, 5, 0⟩], txSeq := 3, unacked := []
    rxHigh := 0, rxAbove := [], hbDue := 0 }

/-- ONLINE, both ports up, one data pair and one admin pair on port 0, one pool with one volume. -/
def onl : State :=
  { State.reset with
    phase := .online
    pins := { State.reset.pins with sysRst := false, perst := [false, false] }
    hif := { Hif.reset with ports := [portUp, portUp] }
    qe := { Qe.reset with sqs := [(q0, sq0), (a0, sq0)], cqs := [(q0, cq0), (a0, cq0)] }
    cch := { Cch.reset with dirtySlots := 64, recvSlots := 64, cleanSlots := 64 }
    regs := { State.reset.regs with vals := [(⟨.ropAddrSelf, 0⟩, 0x010), (⟨.ropAddrHasPartner, 0⟩, 1), (⟨.ropAddrPartner, 0⟩, 0x011)] }
    rop := { Rop.reset with peers := [(0x011, peer0)], partner := .up }
    mbr := { Mbr.reset with linkUp := List.replicate 16 true, members := [mem0, { mem0 with num := 13, blank := true, label := none }] }
    pools := [pool0]
    evr := { Evr.reset with taken := true }
    mgt := { Mgt.reset with image := some img0, fw := some fw0 } }

/-- The data ring of port 0 as given. -/
def fetching (r : Sq) : State := { onl with qe := { onl.qe with sqs := [(q0, r)] } }

def list1 : List ListEnt := [⟨0x1000, 4096, 0, 0⟩]

/-- A running command of the data ring. -/
def cmd0 : Cmd :=
  { id := 1, org := .ring q0, units := 1, tag := 9, vol := 0x021, op := .write 0 1 false list1, acc := some 0, accEdge := 0, st := .running, next := 0
    slices := [], rblks := [], fail := none, lastGen := 0, repaired := 0, set := [], slotsLeft := [], mflush := [], credit := 0, rcvd := []
    aborted := false, lockHeld := true, pulled := [] }
def withCmd (c : Cmd) : State := { onl with ord := { Ord.reset with acc := 1, cmds := [c], nextCmd := 2 } }
def virek0 : Virek :=
  { signer := 0, addr := 0x010, pool := 1, ropeId := 0, cycle := 3, period := 30, layout := 1, startEdge := 0, endEdge := 1, taiBase := 0, checked := 8
    repaired := 0, parity := 0, unresolved := 0, lostCount := 0, late := false, takeover := false, prev := 0, lostDigest := 0, fwDigest := 0, sig := none }
/-- The one pool as given. -/
def withPool (p : Pool) : State := { onl with pools := [p] }
def frond0 : FrondMeta :=
  { layout := 2, srcPool := 1, dstPool := 0, phase := .copying, vol := 0x021, vbn := 0, extents := [(0x021, [0])], marks := [] }
def attrsQ : QueueAttrs :=
  { isCq := false, isData := true, base := 0x10000, hostLine := 0x2000, devLine := 0x2040, exp := 6, pair := 5, cqPair := 5, vector := 0xFFFF, bh := 1
    relaxed := false }
/-- A completion ring for data pair 5 with the lines of `attrsQ`. -/
def cq5 : Cq := { cq0 with base := 0x20000, hostLine := 0x2000, devLine := 0x2040 }
def withCq5 : State := { onl with qe := { onl.qe with cqs := onl.qe.cqs ++ [(⟨0, .pf1, 5⟩, cq5)] } }
/-- The data pair 5 as well, disabled or not. -/
def withSq5 (r : Sq) : State := { withCq5 with qe := { withCq5.qe with sqs := onl.qe.sqs ++ [(⟨0, .pf1, 5⟩, { r with cqPair := 5 })] } }
def createBlk : PoolCreateBlk :=
  let d : LayoutDesc := { lay0 with stripExp := 16, count := 512, memberList := 0 }
  { desc := { d with crc := layCrc d }, regionExp := 4, secretSrc := 0, exportReq := 0, scrubEn := 1, scrubPeriod := 30, n := 3, rsvdZero := true
    members := [20, 21, 22] }
def blankMem (n : Nat) : IMember := { mem0 with num := n, blank := true, label := none, lbas := 2 ^ 30 }
/-- Three blank image members, and the rope storage key. -/
def creating : State :=
  { onl with mbr := { Mbr.reset with members := [blankMem 20, blankMem 21, blankMem 22] }, tru := { Tru.reset with kr := some 5 } }
/-- Layout 1 with room for two extents. -/
def poolBig : Pool := Pool.assembled { meta0 with layouts := [{ lay0 with count := 512 }] } 0 [true, true, true] 0 false
def frondBlk : FrondBlk :=
  let d : LayoutDesc := { lay0 with id := 2, hBase := 512, count := 256, memberList := 0 }
  { desc := { d with crc := layCrc d }, dstPool := 0, members := [0, 1, 2], rsvdZero := true }
def desc0 : Desc :=
  { tag := 1, prio := 0, weight := 1, len := 4096, space := .memberQ, port := 3, purpose := .destage 3, src := buildList 4096 [dataEnt .hbm 0 1048576 4096]
    dst := buildList 8192 [dataEnt .memberQ 3 0 4096], relaxed := false, moved := 0, cover := 0, retries := 0, burst := 0, ptag := none }
def withChan (c : Chan) : State := { onl with dmv := { Dmv.reset with chans := [(40, c)] } }
def lossy : Pool := { pool0 with nxt := { pool0.nxt with lost := [⟨4, 4, 0x021, 1, 0, 1⟩] } }
def wide : Pool := { pool0 with nxt := { pool0.nxt with members := pool0.nxt.members ++ [⟨13, .active⟩] } }
def lame : Pool := pool0.setMem 2 .failed
def frondy : Pool :=
  { pool0 with
    cur := { meta0 with frond := some frond0, layouts := [lay0, { lay0 with id := 2, hBase := 512 }] }
    nxt := { meta0 with frond := some frond0, layouts := [lay0, { lay0 with id := 2, hBase := 512 }] } }

def withPort (h : HPort) : State := { onl with hif := { Hif.reset with ports := [h, portUp] } }
def withMem (m : IMember) : State := { onl with mbr := { onl.mbr with members := [m] } }
def mcmd0 : MCmd :=
  { id := 7, img := 10, pool := 1, idx := 0, port := 3, op := .read, lba := 0, count := 1, offs := [0], blks := [], purpose := .other, edge := 0, born := 0, tries := 0
    fg := false, inj := false }
/-- A member command in flight, at an edge. -/
def withMcmd (c : MCmd) (edge : Nat) : State :=
  { onl with tck := { Tck.reset with now := 8000 * edge }, mbr := { onl.mbr with cmds := [c], nextId := 8 } }
def withSnap (hwm lwm : BitVec 32) : State :=
  { onl with regs := { onl.regs with snaps := [⟨0, .port1, [(⟨.cchWmStgHwm, 0⟩, hwm), (⟨.cchWmStgLwm, 0⟩, lwm)], []⟩] } }
def snap0 (hwm lwm : BitVec 32) : Snap := ⟨0, .port1, [(⟨.cchWmStgHwm, 0⟩, hwm), (⟨.cchWmStgLwm, 0⟩, lwm)], []⟩

/-- A frame of the partner, its header CRC right. -/
def frm (typ : Nat) (seq : BitVec 32) : FrameHdr :=
  let h : FrameHdr := { h0 with seq := seq }
  { h with crc := crc32c (hdrBytes typ h) }
def win0 : Win := { base := 0, len := 4, peer := 0x011, en := true }
def withWin : State := { onl with rop := { onl.rop with wins := onl.rop.wins.set 0 win0 } }
def foot0 : Footer :=
  { guard := guard64 0, role := 0, vol := 0x021, refTag := 0, tag := 0, gen := 0, flags := 0, vbn := 0, layout := 1, strip := 0, stripeGen := 0, crc := 0 }
/-- A block whose footer CRC and guard are right, and one whose CRC is not. -/
def blk0 : Block := ⟨0, { foot0 with crc := footCrc foot0 }⟩
def blkBad : Block := ⟨0, { foot0 with crc := footCrc foot0 + 1 }⟩
def fwd0 : Cmd := { cmd0 with op := .read 0 8 false list1, st := .forwarded 0x011 77 }
def served0 : Cmd := { cmd0 with org := .peer 0x011 77 0 0 }
def withPeer (p : Peer) : State := { onl with rop := { onl.rop with peers := [(0x011, p)] } }
def unack0 : Unacked := { seq := 2, f := .delayReq, sent := 0, retx := 0 }
/-- At an edge. -/
def atEdge (s : State) (n : Nat) : State := { s with tck := { s.tck with now := 8000 * n } }
def yld0 : YieldSt := { pools := [1], sentAt := some 0, reason := 2, coldDone := true, ack := false }
def withYield (y : YieldSt) : State := { onl with rop := { onl.rop with yielding := some y }, jnl := { Jnl.reset with belay := .belayed } }
def partnerIs (p : PartnerSt) (miss : BitVec 32) : State :=
  { onl with rop := { onl.rop with partner := p }, regs := { onl.regs with vals := onl.regs.vals ++ [(⟨.ropHbMissN, 0⟩, miss)] } }
def rxSeal0 : RxSeal := { srec := { first := 0, count := 1, tick := 5, crc := 0, blocks := 0, own := 0 }, edge := 0, naks := 0, refused := false }
def withSeal (x : RxSeal) : State := { onl with rop := { onl.rop with rxSeals := [x] }, jnl := { Jnl.reset with belay := .belayed } }
def withTck (t : Tck) : State := { onl with tck := t }
/-- A servo with a TIME_SYNC taken at 1,000 and a DELAY_REQ sent at 3,000. -/
def servo (l : LockSt) : Tck := { Tck.reset with lock := l, isLocal := false, refAddr := 0x011, sync := some (0, 1000, 10, 0), reqSent := some 3000 }
def gent0 : GEntry :=
  { pool := 1, vol := 0x021, layout := 1, stripe := 0, vstripe := 0, first := [], second := [], snap := [], e0 := 0, e0b := 0, st := .open_, offered := 0
    fua := false, curFua := false, heldR122 := false, again := false, skip := [], badAt := [], flushFor := [] }
def bit0 : BmBit := { vol := 0x021, region := 0, st := .isSet, was := true, touched := 0 }
def mbr3 : Mbr := { onl.mbr with members := onl.mbr.members ++ [{ mem0 with num := 11, label := some (1, 1) }, { mem0 with num := 12, label := some (1, 2) }] }
def bitPool : Pool := { pool0 with bitmap := [bit0] }
def missPool : Pool := { pool0.setMem 2 .missing with missAt := [(2, 0)] }
def scrub0 : ScrubMeta :=
  { cycle := 1, startEdge := 0, period := 1, total := 8, cursor := 8, pos := (1, 8), endEdge := 0, repaired := 0, parity := 0, unresolved := 0, late := false, takeover := false }
def scrubPool (c : ScrubMeta) : Pool := { pool0 with scrubRun := some c, scrubOff := 11, scrubPos := (65536, 3) }
def live0 : LiveRec :=
  { no := 0, intent := { flags := 0, vol := 0x021, slot := 0, vbn := 0, gen := 1, count := 1, acc := 0 }, slots := [0], all := [0], anyOn := false, tick := 0 }
def sigReq (len : BitVec 32) : SigReq := .report .mctp 3 64 len 5
def withReqs (q rHi : Nat) (rs : List SigReq) : State := { onl with tru := { Tru.reset with q := q, rHi := rHi, reqs := rs } }
def recent (n : Nat) : State := { onl with evr := { onl.evr with waiting := n, next := 300 } }
def withCq (k : Cq) : State := { onl with qe := { onl.qe with cqs := [(q0, k)] } }

theorem atEdge_edge (s : State) (n : Nat) (h : s.regs.get .tckCfgPeriod = 1) : (atEdge s n).edge = n := by
  simp [atEdge, State.edge, State.periodNs, State.reg, h]
theorem blk0_whole : blockWhole blk0 = true := by simp [blockWhole, blk0, foot0, footCrc, footMid]
theorem blkBad_not : blockWhole blkBad = false := by simp [blockWhole, blkBad, foot0, footCrc, footMid]
/-- FLUSH and READ as R188, R211 and R214 lay them out: lap 0, one unit, tag 7, volume 0x021; READ of one block into 4,096 bytes at 0x1000. -/
def unitFlush : RingUnit := 0x0021000700030100
def unitRead : RingUnit :=
  0x00000000000000000000000000000000_00000000000010000000000000001000_00000000000000000000000100000001_0000000000000000_0021000700010100
/-- A READ of one block whose list stands in a 64-byte segment at 0x2000. -/
def unitChain : RingUnit :=
  0x00000000000000000000000000000000_00000001000000400000000000002000_00000000000000000000000000000001_0000000000000000_0021000701010100
theorem next_ne (x : BitVec 32) : x + 1 ≠ x := by simp

/-! ### Entries written out from their encodings -/

theorem test_decode_flush : decodeIo [unitFlush] = some .flush := by decide +kernel
theorem test_decode_read : decodeIo [unitRead] = some (.read 0 1 false list1) := by decide +kernel

/-! ### The hypotheses of each statement can be met, at the boundaries of each clause -/

theorem test_hyp_FusesNeverFall : ∃ s t : State, step s = .next t := ⟨{ onl with pending := [.tagQuarantineExpiry 0 5] }, _, rfl⟩
theorem test_hyp_StagingMemoryStaysCanonical : ∃ s t : State, Memory.wf s.mgt.staging = true ∧ step s = .next t :=
  ⟨{ onl with pending := [.tagQuarantineExpiry 0 5], mgt := { onl.mgt with staging := [(3, 1), (9, 0)] } }, _, rfl, rfl⟩
theorem test_hyp_ShapesStay : ∃ s t : State, s.Shaped ∧ step s = .next t :=
  ⟨{ onl with pending := [.tagQuarantineExpiry 0 5] }, _, by constructor <;> decide, rfl⟩


def ctx0 : SealCtx := { vol := 0x021, handle := 0, length := 3, chain := 0, held := [1, 2, 3], prio := 0, openEdge := 0, label := 0 }
def withCtxs (l : List (Nat × SealCtx)) : State := { onl with fix := { onl.fix with ctxs := l } }
/-- A table that has every slot below n. -/
def ctxsTo (n : Nat) : List (Nat × SealCtx) := (List.range n).map fun i => (i, ctx0)
theorem ctxsTo_full (n i : Nat) : tget (ctxsTo n) i ≠ none ↔ i < n := by
  rw [tget_ne_none, ctxsTo, List.map_map]
  simp
theorem ctxsTo_free (n : Nat) : tget (ctxsTo n) n = none := by
  cases h : tget (ctxsTo n) n with
  | none => rfl
  | some x => exact absurd ((ctxsTo_full n n).mp (by rw [h]; nofun)) (Nat.lt_irrefl n)
theorem withCtxs_full (n : Nat) : ∀ i < n, tget (withCtxs (ctxsTo n)).fix.ctxs i ≠ none := fun i hi => (ctxsTo_full n i).mpr hi
theorem ctxBinding_any (k : BitVec 256) (i : SealCtxImg) (z : BitVec 128) : ctxBinding k { i with binding := z } = ctxBinding k i := rfl
/-- A saved context, bound under the context key. -/
def saved0 : SealCtxImg :=
  { format := 1, vol := 0x021, handle := 5, seqNo := 7, length := 3, chain := 0, held := 0x030201, heldLen := 3, prio := 0, openEdge := 0
    ropeId := w32 (onl.reg .ropIdRope), ropeAddr := onl.selfAddr, label := 0, binding := 0 }
def withSaved (l : List (Nat × SealCtx)) : State := { onl with fix := { onl.fix with ctxs := l, saved := [(5, 7)] } }
def bound0 : SealCtxImg := { saved0 with binding := ctxBinding onl.fix.kCtx saved0 }
theorem bound0_accepted (l : List (Nat × SealCtx)) : (withSaved l).ctxAccepted 0x021 bound0 = true := by
  have h1 : bound0.binding = ctxBinding (withSaved l).fix.kCtx bound0 := (ctxBinding_any _ saved0 _).symm
  have h2 : bound0.format = 1 := rfl
  have h3 : bound0.ropeId = w32 ((withSaved l).reg .ropIdRope) := rfl
  have h4 : bound0.ropeAddr = (withSaved l).selfAddr := rfl
  have h5 : bound0.vol = 0x021 := rfl
  have h6 : tget (withSaved l).fix.saved bound0.handle = some bound0.seqNo := rfl
  simp only [State.ctxAccepted, ← h1, h2, ← h3, ← h4, h5, h6, decide_true, beq_self_eq_true, Bool.and_true]

theorem test_hyp_ObjectSeals :
    (∃ (x : SealCtx), x.chain = 0 ∧ x.held = []) ∧
    (∀ n ∈ [0, 1, 65535], ∃ s : State, n < sealSlots ∧ tget s.fix.ctxs n = none ∧ ∀ i < n, tget s.fix.ctxs i ≠ none) ∧
    (∃ s : State, ∀ i < sealSlots, tget s.fix.ctxs i ≠ none) ∧
    (∃ (s : State) (c : Cmd) (bytes : Nat) (h : BitVec 32) (x : SealCtx) (p : Pool), (∀ l ∈ c.slices, l.settled = true) ∧ c.fail = none ∧ bytes ≤ c.next ∧
      s.sealCtx c.vol h = some x ∧ s.poolOf c.vol = some p) ∧
    (∃ (c : Cmd) (f : Stat), (∀ l ∈ c.slices, l.settled = true) ∧ c.fail = some f) ∧
    (∃ (s : State) (c : Cmd) (h : BitVec 32), s.sealCtx c.vol h = none) ∧
    (∃ (s : State) (c : Cmd) (h : BitVec 32) (a : BitVec 64) (x : SealCtx), s.sealCtx c.vol h = some x ∧ c.op = .sealClose h a) ∧
    (∃ (s : State) (c : Cmd) (h : BitVec 32) (a : BitVec 64) (x : SealCtx), s.sealCtx c.vol h = some x ∧ c.op = .sealSave h a) ∧
    (∀ n ∈ [0, 65535], ∃ (s : State) (c : Cmd) (i : SealCtxImg), s.ctxAccepted c.vol i = true ∧ n < sealSlots ∧ tget s.fix.ctxs n = none ∧
      ∀ j < n, tget s.fix.ctxs j ≠ none) ∧
    (∃ (s : State) (c : Cmd) (i : SealCtxImg), s.ctxAccepted c.vol i = false) :=
  ⟨⟨{ ctx0 with held := [] }, rfl, rfl⟩,
   fun n h => ⟨withCtxs (ctxsTo n), (by decide : ∀ n ∈ [0, 1, 65535], n < sealSlots) n h, ctxsTo_free n, fun i hi => (ctxsTo_full n i).mpr hi⟩,
   ⟨withCtxs (ctxsTo sealSlots), withCtxs_full sealSlots⟩,
   ⟨withCtxs [(0, ctx0)], { cmd0 with pulled := [(0, [4, 5])], next := 2 }, 2, 0, ctx0, pool0, by decide +kernel, rfl, by decide, rfl, by decide +kernel⟩,
   ⟨{ cmd0 with fail := some (stat 3 1) }, stat 3 1, by decide +kernel, rfl⟩,
   ⟨onl, cmd0, 0, rfl⟩,
   ⟨withCtxs [(0, ctx0)], { cmd0 with op := .sealClose 0 64 }, 0, 64, ctx0, rfl, rfl⟩,
   ⟨withCtxs [(0, ctx0)], { cmd0 with op := .sealSave 0 64 }, 0, 64, ctx0, rfl, rfl⟩,
   fun n h => ⟨withSaved (ctxsTo n), cmd0, bound0, bound0_accepted _, (by decide : ∀ n ∈ [0, 65535], n < sealSlots) n h, ctxsTo_free n,
     fun i hi => (ctxsTo_full n i).mpr hi⟩,
   ⟨onl, cmd0, { saved0 with format := 2 }, by simp [State.ctxAccepted, saved0]⟩⟩

theorem test_hyp_StepRunsTheFrontCommand :
    ∃ (s : State) (c : Instr) (rest : List Instr), s.pending = c :: rest :=
  ⟨{ onl with pending := [.announceSend, .tickEdge] }, .announceSend, [.tickEdge], by decide +kernel⟩

theorem test_hyp_PowerPins :
    (∃ (s : State) (ns : Nat), 1000 ≤ ns ∧ s.phase = .online) ∧
    (∃ (s : State) (ns : Nat), 1000 ≤ ns ∧ s.phase = .bivouac .close) ∧
    (∃ (s : State) (ns : Nat), 1000 ≤ ns ∧ s.phase = .trustBoot) ∧
    (∃ (_ : State) (ns : Nat), ns < 1000) ∧
    (∃ (s : State), (s.phase ≠ .bivouac .off ∨ s.vlt.cause ≠ 0 ∨ s.pins.rails = false)) ∧
    (∃ (s : State), (s.phase ≠ .bivouac .off ∨ s.vlt.cause ≠ 0 ∨ s.pins.rails = false)) ∧
    (∃ (s : State), s.phase = .bivouac .off ∧ s.vlt.cause = 0 ∧ s.pins.rails = true) ∧
    (∃ (s : State), s.phase = .powerOff) ∧
    (∃ (s : State), s.phase = .bivouac .off ∧ s.vlt.cause = 0 ∧ s.pins.pwrFail = false) ∧
    (∃ (s : State), s.phase ≠ .powerOff ∧ (s.phase ≠ .bivouac .off ∨ s.vlt.cause ≠ 0 ∨ s.pins.pwrFail = true)) ∧
    (∃ (s : State), (¬ s.onHoldUp)) ∧
    (∃ (s : State), s.onHoldUp) :=
  ⟨⟨onl, 1000, by decide +kernel⟩,
   ⟨(atPhase (.bivouac .close)), 1000, by decide +kernel⟩,
   ⟨(atPhase .trustBoot), 1000, by decide +kernel⟩,
   ⟨onl, 999, by decide +kernel⟩,
   ⟨onl, by decide +kernel⟩,
   ⟨{ atPhase (.bivouac .off) with vlt := { Vlt.reset with cause := 1 } }, by decide +kernel⟩,
   ⟨(atPhase (.bivouac .off)), by decide +kernel⟩,
   ⟨(atPhase .powerOff), by decide +kernel⟩,
   ⟨(atPhase (.bivouac .off)), by decide +kernel⟩,
   ⟨onl, by decide +kernel⟩,
   ⟨onl, by unfold State.onHoldUp; decide +kernel⟩,
   ⟨{ atPhase (.bivouac .close) with vlt := { Vlt.reset with onHold := true } }, by unfold State.onHoldUp; decide +kernel⟩⟩

theorem test_hyp_SystemReset :
    (∃ (s : State) (ns : Nat), (1000 ≤ ns ∧ s.phase ≠ .powerOff) ∧ s.notInBivouac) ∧
    (∃ (s : State) (ns : Nat), 1000 ≤ ns ∧ s.phase ∈ [.bivouac .quiesce, .bivouac .phase1, .bivouac .phase2, .bivouac .close]) ∧
    (∃ (s : State) (ns : Nat), 1000 ≤ ns ∧ (s.phase = .powerOff ∨ s.phase = .bivouac .off)) ∧
    (∃ (s : State) (ns : Nat), 1000 ≤ ns ∧ (s.phase = .powerOff ∨ s.phase = .bivouac .off)) ∧
    (∃ (_ : State) (ns : Nat), ns < 1000) ∧
    (∃ (s : State) (_ : Bool) (_ : Bool), s.pins.sysRst = true ∧ s.phase = .reset ∧ s.startDir.trial = none) ∧
    (∃ (s : State) (_ : Bool) (_ : Bool), s.pins.sysRst = true ∧ s.phase = .reset ∧ s.startDir.trial = some 1 ∧ 0 < s.startDir.attempts) ∧
    (∃ (s : State) (_ : Bool) (_ : Bool), s.pins.sysRst = true ∧ s.phase = .reset ∧ s.startDir.trial = some 1 ∧ s.startDir.attempts = 0) :=
  ⟨⟨onl, 1000, by decide +kernel, by intro b h; cases h⟩,
   ⟨(atPhase (.bivouac .phase2)), 1000, by decide +kernel⟩,
   ⟨(atPhase (.bivouac .off)), 1000, by decide +kernel⟩,
   ⟨(atPhase .powerOff), 1000, by decide +kernel⟩,
   ⟨onl, 999, by decide +kernel⟩,
   ⟨State.reset, true, true, by decide +kernel⟩,
   ⟨(nvmDir ⟨5, 0, some 1, 1, [true, true]⟩), false, false, by decide +kernel⟩,
   ⟨(nvmDir ⟨5, 0, some 1, 0, [true, true]⟩), false, false, by decide +kernel⟩⟩

theorem test_hyp_ClockAndSensors :
    (∃ (s : State), s.pins.pwrFail = false ∧ (s.phase = .online ∨ s.phase = .failStop)) ∧
    (∃ (s : State), s.pins.pwrFail = false ∧ (s.phase = .online ∨ s.phase = .failStop)) ∧
    (∃ (s : State), s.pins.pwrFail = false ∧ s.starting) ∧
    (∃ (s : State), (s.pins.pwrFail = true ∨ s.phase ∈ [.powerOff, .reset, .bivouac .quiesce, .bivouac .phase1, .bivouac .phase2, .bivouac .close, .bivouac .off])) ∧
    (∃ (s : State), (s.pins.pwrFail = true ∨ s.phase ∈ [.powerOff, .reset, .bivouac .quiesce, .bivouac .phase1, .bivouac .phase2, .bivouac .close, .bivouac .off])) ∧
    (∃ (s : State) (x : Sensor) (v : Int), (s.phase ≠ .reset ∨ s.mgt.waitCool = false) ∧ warnAt x ≤ v) ∧
    (∃ (s : State) (x : Sensor) (v : Int), (s.phase ≠ .reset ∨ s.mgt.waitCool = false) ∧ (∀ e ∈ tset s.temps x v, e.2 ≤ warnAt e.1 - 5)) ∧
    (∃ (s : State) (x : Sensor) (v : Int), s.phase = .reset ∧ s.mgt.waitCool = true ∧ s.startDir.trial = none ∧ (∀ e ∈ tset s.temps x v, e.2 < warnAt e.1)) ∧
    (∃ (s : State) (x : Sensor) (v : Int), critAt x ≤ v ∧ (s.phase = .online ∨ s.phase = .failStop)) ∧
    (∃ (s : State) (x : Sensor) (v : Int), critAt x ≤ v ∧ (s.phase = .online ∨ s.phase = .failStop)) :=
  ⟨⟨onl, by decide +kernel⟩,
   ⟨(atPhase .failStop), by decide +kernel⟩,
   ⟨(atPhase .journalReconcile), by decide +kernel, by unfold State.starting; decide +kernel⟩,
   ⟨(atPhase (.bivouac .off)), by decide +kernel⟩,
   ⟨{ onl with pins := { onl.pins with pwrFail := true } }, by decide +kernel⟩,
   ⟨onl, .die, 105, by decide +kernel⟩,
   ⟨onl, .die, 95, by decide +kernel⟩,
   ⟨{ State.reset with mgt := { Mgt.reset with waitCool := true } }, .die, 20, by decide +kernel⟩,
   ⟨onl, .die, 200, by decide +kernel⟩,
   ⟨onl, .vault, 200, by decide +kernel⟩⟩

theorem test_hyp_BivouacSteps :
    (∃ (s : State), s.phase = .bivouac .quiesce) ∧
    (∃ (s : State) (a : Nat) (_ : Nat) (_ : PhaseWrite), s.phase = .bivouac .phase1 ∧ s.vlt.flushing = some a) ∧
    (∃ (s : State) (a : Nat) (_ : Nat) (_ : PhaseWrite), s.phase = .bivouac .phase2 ∧ s.vlt.flushing = some a) ∧
    (∃ (s : State), s.phase = .bivouac .close ∧ s.vlt.failStopFlush = false ∧ s.pins.rails = true ∧ s.pins.sysRstHeld = false) ∧
    (∃ (s : State), s.phase = .bivouac .close ∧ s.vlt.failStopFlush = true ∧ s.pins.rails = true ∧ s.pins.sysRstHeld = false) ∧
    (∃ (s : State), s.phase = .bivouac .close ∧ s.pins.rails = false) ∧
    (∃ (s : State), s.phase = .bivouac .close ∧ s.vlt.failStopFlush = false ∧ s.pins.rails = true ∧ s.pins.sysRstHeld = true ∧ s.pins.sysRst = false ∧ s.vlt.cause ≠ 1 ∧ s.startDir.trial = none) :=
  ⟨⟨(atPhase (.bivouac .quiesce)), by decide +kernel⟩,
   ⟨{ atPhase (.bivouac .phase1) with vlt := { Vlt.reset with flushing := some 0, areas := [some flush1, none] } }, 0, 5, ⟨3, 9⟩, by decide +kernel⟩,
   ⟨{ atPhase (.bivouac .phase2) with vlt := { Vlt.reset with flushing := some 0, areas := [some flush1, none] } }, 0, 5, ⟨3, 9⟩, by decide +kernel⟩,
   ⟨(atPhase (.bivouac .close)), by decide +kernel⟩,
   ⟨{ atPhase (.bivouac .close) with vlt := { Vlt.reset with failStopFlush := true } }, by decide +kernel⟩,
   ⟨{ atPhase (.bivouac .close) with pins := { State.reset.pins with rails := false } }, by decide +kernel⟩,
   ⟨{ atPhase (.bivouac .close) with pins := { State.reset.pins with sysRst := false, sysRstHeld := true } }, by decide +kernel⟩⟩

theorem test_hyp_VaultWrites :
    (∃ (s : State), (s.phase = .bivouac .phase1 ∨ s.phase = .bivouac .phase2)) ∧
    (∃ (s : State), (s.phase = .bivouac .phase1 ∨ s.phase = .bivouac .phase2)) ∧
    (∃ (s : State), s.phase ≠ .bivouac .phase1 ∧ s.phase ≠ .bivouac .phase2) ∧
    (∃ (s : State) (_ : Nat), s.vlt.erasing = true) ∧
    (∃ (s : State) (_ : Nat), s.vlt.erasing = true) ∧
    (∃ (s : State) (die : Nat) (n : Nat), s.vlt.dies.contains die = true ∧ (tget s.vlt.fails die).getD 0 = n ∧ n < 2) ∧
    (∃ (s : State) (die : Nat) (n : Nat), s.vlt.dies.contains die = true ∧ (tget s.vlt.fails die).getD 0 = n ∧ n < 2) ∧
    (∃ (s : State) (die : Nat) (n : Nat), s.vlt.dies.contains die = true ∧ (tget s.vlt.fails die).getD 0 = n ∧ 2 ≤ n) ∧
    (∃ (s : State) (die : Nat), s.vlt.dies.contains die = false) :=
  ⟨⟨(atPhase (.bivouac .phase1)), by decide +kernel⟩,
   ⟨{ atPhase (.bivouac .phase2) with pins := { State.reset.pins with rails := false } }, by decide +kernel⟩,
   ⟨onl, by decide +kernel⟩,
   ⟨{ onl with vlt := { Vlt.reset with erasing := true } }, 0, by decide +kernel⟩,
   ⟨{ onl with vlt := { Vlt.reset with erasing := true } }, 0, by decide +kernel⟩,
   ⟨onl, 63, 0, by decide +kernel⟩,
   ⟨{ onl with vlt := { Vlt.reset with fails := [(63, 1)] } }, 63, 1, by decide +kernel⟩,
   ⟨{ onl with vlt := { Vlt.reset with fails := [(63, 2)] } }, 63, 2, by decide +kernel⟩,
   ⟨onl, 64, by decide +kernel⟩⟩

theorem test_hyp_TrustBootVerifiesFirmware :
    ∃ (s : State) (fw : SignedObj) (fw' : SignedObj) (hdr : List Byte) (hdr' : List Byte) (_ : Bool), s.booting .trustBoot = true ∧ s.slotFw fw hdr = (fw', hdr') :=
  ⟨(atPhase .trustBoot), fw0, fw0, [], [], true, by decide +kernel⟩

theorem test_hyp_ConfigLoadChecksTheImage :
    ∃ (s : State) (c : SignedObj) (o : SignedObj) (i : Image), s.booting .configLoad = true ∧ ((s.mgt.slots[s.mgt.slot]?).bind (·.img)).getD c = o ∧ readImage o.body (blkDigest o.block) = i :=
  ⟨(atPhase .configLoad), fw0, fw0, (readImage [] (blkDigest [])), by decide +kernel⟩

theorem test_hyp_StartMemoryAndJoin :
    (∃ (s : State) (i : Image), s.booting .memoryInit = true ∧ s.mgt.image = some i) ∧
    (∃ (_ : Image) (_ : Variant) (k : Nat), k < 7) ∧
    (∃ (_ : Image) (_ : Variant) (k : Nat), k < 7) ∧
    (∃ (s : State), s.booting .memoryInit = true) ∧
    (∃ (s : State) (a : Nat) (f : Flush) (g : Flush), s.booting .vaultRecovery = true ∧ f.ph1.isSome = true ∧ f.consumed = false ∧ (s.vlt.areas = [some f, none] ∧ a = 0 ∨ s.vlt.areas = [none, some f] ∧ a = 1 ∨ g.ph1.isSome = true ∧ g.num < f.num ∧ (s.vlt.areas = [some f, some g] ∧ a = 0 ∨ s.vlt.areas = [some g, some f] ∧ a = 1))) ∧
    (∃ (s : State) (a : Nat) (f : Flush) (g : Flush), s.booting .vaultRecovery = true ∧ f.ph1.isSome = true ∧ f.consumed = false ∧ (s.vlt.areas = [some f, none] ∧ a = 0 ∨ s.vlt.areas = [none, some f] ∧ a = 1 ∨ g.ph1.isSome = true ∧ g.num < f.num ∧ (s.vlt.areas = [some f, some g] ∧ a = 0 ∨ s.vlt.areas = [some g, some f] ∧ a = 1))) ∧
    (∃ (s : State) (a : Nat) (f : Flush) (g : Flush), s.booting .vaultRecovery = true ∧ f.ph1.isSome = true ∧ f.consumed = false ∧ (s.vlt.areas = [some f, none] ∧ a = 0 ∨ s.vlt.areas = [none, some f] ∧ a = 1 ∨ g.ph1.isSome = true ∧ g.num < f.num ∧ (s.vlt.areas = [some f, some g] ∧ a = 0 ∨ s.vlt.areas = [some g, some f] ∧ a = 1))) ∧
    (∃ (s : State) (a : Nat) (f : Flush) (g : Flush), s.booting .vaultRecovery = true ∧ f.ph1.isSome = true ∧ f.consumed = false ∧ (s.vlt.areas = [some f, none] ∧ a = 0 ∨ s.vlt.areas = [none, some f] ∧ a = 1 ∨ g.ph1.isSome = true ∧ g.num < f.num ∧ (s.vlt.areas = [some f, some g] ∧ a = 0 ∨ s.vlt.areas = [some g, some f] ∧ a = 1))) ∧
    (∃ (s : State) (a : Nat) (f : Flush) (_ : Bool), s.booting .vaultRecovery = true ∧ f.ph1.isSome = true ∧ f.consumed = false ∧ (s.vlt.areas = [some f, none] ∧ a = 0 ∨ s.vlt.areas = [none, some f] ∧ a = 1)) ∧
    (∃ (s : State) (a : Nat) (f : Flush) (_ : Bool), s.booting .vaultRecovery = true ∧ f.ph1.isSome = true ∧ f.consumed = false ∧ (s.vlt.areas = [some f, none] ∧ a = 0 ∨ s.vlt.areas = [none, some f] ∧ a = 1)) ∧
    (∃ (s : State) (_ : Bool) (_ : Bool), s.booting .vaultRecovery = true ∧ s.vlt.areas = [none, none]) ∧
    (∃ (s : State) (i : Image), (s.booting .ropeJoin = true ∧ s.mgt.held = false ∧ s.mgt.image = some i ∧ s.tck.lock = .locked) ∧ (∀ a, s.partnerAddr = some a → s.peerUp a = true)) ∧
    (∃ (s : State) (i : Image), s.booting .ropeJoin = true ∧ s.mgt.held = false ∧ s.mgt.image = some i ∧ s.tck.isLocal = false ∧ s.mgt.joinAt + s.reg .mgtJoinTicks ≤ (s.edge : Int)) ∧
    (∃ (s : State), s.booting .ropeJoin = true ∧ s.mgt.held = true) ∧
    (∃ (s : State), s.booting .memberDiscovery = true ∧ (∀ m ∈ s.mbr.members, m.checked = true)) ∧
    (∃ (s : State), s.booting .memberDiscovery = true ∧ s.mgt.discAt + s.reg .mgtDiscTicks ≤ s.edge) ∧
    (∃ (s : State), s.booting .memberDiscovery = true ∧ s.edge < s.mgt.discAt + s.reg .mgtDiscTicks) :=
  ⟨⟨{ onl with phase := .memoryInit }, img0, by decide +kernel⟩,
   ⟨img0, .h96, 0, by decide +kernel⟩,
   ⟨img0, .h96, 6, by decide +kernel⟩,
   ⟨{ onl with phase := .memoryInit }, by decide +kernel⟩,
   ⟨{ atPhase .vaultRecovery with vlt := { Vlt.reset with areas := [some flush1, none] } }, 0, flush1, flush1, by decide +kernel⟩,
   ⟨{ atPhase .vaultRecovery with vlt := { Vlt.reset with areas := [none, some { flush1 with ph2 := none }] } }, 1, { flush1 with ph2 := none }, flush1, by decide +kernel⟩,
   ⟨{ atPhase .vaultRecovery with vlt := { Vlt.reset with areas := [some { flush1 with num := 2 }, some flush1] } }, 0, { flush1 with num := 2 }, flush1, by decide +kernel⟩,
   ⟨{ atPhase .vaultRecovery with vlt := { Vlt.reset with areas := [some flush1, some { flush1 with num := 2 }] } }, 1, { flush1 with num := 2 }, flush1, by decide +kernel⟩,
   ⟨{ atPhase .vaultRecovery with vlt := { Vlt.reset with areas := [some flush1, none] } }, 0, flush1, true, by decide +kernel⟩,
   ⟨{ atPhase .vaultRecovery with vlt := { Vlt.reset with areas := [none, some flush1] } }, 1, flush1, false, by decide +kernel⟩,
   ⟨(atPhase .vaultRecovery), false, false, by decide +kernel⟩,
   ⟨{ onl with phase := .ropeJoin, tck := { Tck.reset with lock := .locked } }, img0, by decide +kernel, by intro k h; have e := Option.some.inj h; subst e; decide +kernel⟩,
   ⟨{ onl with phase := .ropeJoin, tck := { Tck.reset with isLocal := false, now := 1000000000 } }, img0, by decide +kernel⟩,
   ⟨{ onl with phase := .ropeJoin, mgt := { Mgt.reset with held := true } }, by decide +kernel⟩,
   ⟨{ onl with phase := .memberDiscovery, mbr := { Mbr.reset with members := [mem0] } }, by decide +kernel⟩,
   ⟨{ onl with phase := .memberDiscovery, mbr := { Mbr.reset with members := [mem0] }, tck := { Tck.reset with now := 60000000000 } }, by decide +kernel⟩,
   ⟨{ onl with phase := .memberDiscovery, regs := { onl.regs with vals := onl.regs.vals ++ [(⟨.mgtDiscTicks, 0⟩, 7500000)] } }, by decide +kernel⟩⟩

theorem test_hyp_AssemblyToOnline :
    (∃ (s : State) (_ : List PoolRead), s.booting .poolAssembly = true) ∧
    (∃ (s : State) (r : PoolRead), s.booting .poolAssembly = true ∧ s.pools = [] ∧ s.heldByPartner r.holder = false ∧ r.copies = []) ∧
    (∃ (s : State) (_ : List ReconInfo), s.booting .journalReconcile = true) :=
  ⟨⟨{ onl with phase := .poolAssembly, pools := [] }, [poolRead0], by decide +kernel⟩,
   ⟨{ onl with phase := .poolAssembly, pools := [] }, poolRead0, by decide +kernel⟩,
   ⟨{ onl with phase := .journalReconcile }, [], by decide +kernel⟩⟩

theorem test_hyp_CommitAndResync :
    (∃ (s : State) (fw : SignedObj) (i : Image), s.phase = .online ∧ s.mgt.onTrial = true ∧ s.mgt.committed = false ∧ s.jnl.belay = .belayed ∧ s.mgt.fw = some fw ∧ s.mgt.image = some i) ∧
    (∃ (s : State), (s.phase ≠ .online ∨ s.mgt.onTrial = false ∨ s.mgt.committed = true)) ∧
    (∃ (s : State) (p : Pool), s.pool p.cur.id = some p ∧ p.offline = true ∧ p.unassembled = false ∧ p.resync = [] ∧ p.rsLeft = [] ∧ 0 < p.cur.commit) ∧
    (∃ (s : State) (p : Pool), s.pool p.cur.id = some p ∧ (p.resync ≠ [] ∨ p.rsLeft ≠ [])) :=
  ⟨⟨{ onl with mgt := { onl.mgt with onTrial := true }, jnl := { Jnl.reset with belay := .belayed } }, fw0, img0, by decide +kernel⟩,
   ⟨onl, by decide +kernel⟩,
   ⟨{ onl with pools := [{ pool0 with offline := true }] }, { pool0 with offline := true }, by decide +kernel⟩,
   ⟨{ onl with pools := [{ pool0 with offline := true, resync := [(0x021, 0)] }] }, { pool0 with offline := true, resync := [(0x021, 0)] }, by decide +kernel⟩⟩

theorem test_hyp_TickEdges :
    (∃ (s : State), s.phase ∈ [.powerOff, .reset, .bivouac .off]) ∧
    (∃ (s : State), 0 < s.tck.increment ∧ s.tck.acc ≤ s.clr.advance.tck.now * 2 ^ 32) ∧
    (∃ (s : State), 0 < s.tck.increment ∧ s.tck.acc ≤ s.clr.advance.tck.now * 2 ^ 32) ∧
    (∃ (s : State), s.phase ∈ [.bivouac .phase1, .bivouac .phase2, .bivouac .close] ∧ s.vlt.failStopFlush = false) ∧
    (∃ (s : State), s.ticking = true ∧ s.phase ∉ [.bivouac .phase1, .bivouac .phase2, .bivouac .close] ∧ s.mayRestart = false) :=
  ⟨⟨State.reset, by decide +kernel⟩,
   ⟨onl, by decide +kernel⟩,
   ⟨{ onl with tck := { Tck.reset with now := 8000, acc := 34359738368001, trim := -17179869 } }, by decide +kernel⟩,
   ⟨(atPhase (.bivouac .close)), by decide +kernel⟩,
   ⟨onl, by decide +kernel⟩⟩

theorem test_hyp_DoorbellsAndFetches :
    (∃ (s : State) (port : PciePort) (fn : Fn) (pair : Nat) (r : Sq), s.NoInjection ∧ (s.fnServes port fn = true ∧ s.sq ⟨port, fn, pair⟩ = some r ∧ r.st = .enabled ∧ s.phase = .online ∧ r.fetch = .idle) ∧ (∀ c, s.cq ⟨port, fn, r.cqPair⟩ = some c → c.held = false)) ∧
    (∃ (s : State) (port : PciePort) (fn : Fn) (pair : Nat) (r : Sq), s.NoInjection ∧ (s.fnServes port fn = true ∧ s.sq ⟨port, fn, pair⟩ = some r ∧ r.st = .enabled ∧ s.phase = .online ∧ r.fetch ≠ .idle) ∧ (∀ c, s.cq ⟨port, fn, r.cqPair⟩ = some c → c.held = false)) ∧
    (∃ (s : State) (port : PciePort) (fn : Fn) (pair : Nat), s.NoInjection ∧ s.fnServes port fn = true ∧ s.sq ⟨port, fn, pair⟩ = none ∧ s.reg .qeDbIgnCntN < 2 ^ 32 - 1) ∧
    (∃ (s : State) (port : PciePort) (fn : Fn) (_ : Nat), s.NoInjection ∧ s.fnServes port fn = false) ∧
    (∃ (s : State) (q : RingRef) (r : Sq) (k : Cq) (u : RingUnit), s.NoInjection ∧ (s.sq q = some r ∧ r.fetch = .line ∧ r.st = .enabled ∧ s.phase = .online ∧ s.cq q = some k) ∧ (∀ i, 8 ≤ i → i < 64 → ub u i = 0) ∧ (k.t - w32 (uf u 4 4)).toNat ≤ 2 ^ k.exp ∧ (w32 (uf u 0 4) - r.h).toNat ≤ 2 ^ r.exp ∧ w32 (uf u 0 4) ≠ r.c ∧ s.qe.reads < fetchMax) ∧
    (∃ (s : State) (q : RingRef) (r : Sq) (u : RingUnit), s.NoInjection ∧ s.sq q = some r ∧ r.fetch = .first ∧ ub u 0 = r.c.toNat / 2 ^ r.exp % 256 ∧ 2 ≤ ub u 1 ∧ ub u 1 ≤ 16 ∧ r.c.toNat % 2 ^ r.exp + ub u 1 ≤ 2 ^ r.exp ∧ ub u 1 ≤ (r.p - r.c).toNat ∧ ub u 2 ≠ 0x3F) ∧
    (∃ (s : State) (q : RingRef) (r : Sq) (u : RingUnit), s.NoInjection ∧ s.sq q = some r ∧ r.fetch = .first ∧ ub u 0 = r.c.toNat / 2 ^ r.exp % 256 ∧ 2 ≤ ub u 1 ∧ ub u 1 ≤ 16 ∧ r.c.toNat % 2 ^ r.exp + ub u 1 ≤ 2 ^ r.exp ∧ ub u 1 ≤ (r.p - r.c).toNat ∧ ub u 2 ≠ 0x3F) ∧
    (∃ (s : State) (q : RingRef) (r : Sq) (n : Nat), s.takesEntry q = true ∧ s.sq q = some r ∧ 1 ≤ n ∧ n ≤ 16) ∧
    (∃ (s : State) (q : RingRef) (r : Sq) (n : Nat), s.takesEntry q = true ∧ s.sq q = some r ∧ 1 ≤ n ∧ n ≤ 16) :=
  ⟨⟨onl, 0, .pf1, 0, sq0, by unfold State.NoInjection; decide +kernel, by decide +kernel, by intro k h; have e := Option.some.inj h; subst e; decide +kernel⟩,
   ⟨{ onl with qe := { onl.qe with sqs := [(q0, { sq0 with fetch := .line })] } }, 0, .pf1, 0, { sq0 with fetch := .line }, by unfold State.NoInjection; decide +kernel, by decide +kernel, by intro k h; have e := Option.some.inj h; subst e; decide +kernel⟩,
   ⟨onl, 0, .pf1, 16383, by unfold State.NoInjection; decide +kernel, by decide +kernel⟩,
   ⟨{ onl with hif := { Hif.reset with ports := [{ portUp with pf1 := { Func.reset with d := .d3hot } }, portUp] } }, 0, .pf1, 0, by unfold State.NoInjection; decide +kernel, by decide +kernel⟩,
   ⟨{ onl with qe := { onl.qe with sqs := [(q0, { sq0 with fetch := .line })] } }, q0, { sq0 with fetch := .line }, cq0, 16, by unfold State.NoInjection; decide +kernel, by decide +kernel, fun i h1 h2 => (by decide +kernel : ∀ j : Fin 64, 8 ≤ j.val → ub 16 j.val = 0) ⟨i, h2⟩ h1, by decide +kernel⟩,
   ⟨(fetching { sq0 with fetch := .first, p := 16 }), q0, { sq0 with fetch := .first, p := 16 }, 0x011000, by unfold State.NoInjection; decide +kernel, by decide +kernel⟩,
   ⟨(fetching { sq0 with fetch := .first, p := 16 }), q0, { sq0 with fetch := .first, p := 16 }, 0x010200, by unfold State.NoInjection; decide +kernel, by decide +kernel⟩,
   ⟨(fetching { sq0 with fetch := .first, p := 16 }), q0, { sq0 with fetch := .first, p := 16 }, 16, by decide +kernel⟩,
   ⟨onl, q0, sq0, 1, by decide +kernel⟩⟩

theorem test_hyp_RingFaultsStop :
    (∃ (s : State) (q : RingRef) (r : Sq) (u : RingUnit) (cause : Nat), s.NoInjection ∧ s.sq q = some r ∧ r.fetch = .first ∧ s.phase = .online ∧ (let d := (ub u 0 + 256 - r.c.toNat / 2 ^ r.exp % 256) % 256; d ≠ 0 ∧ d ≠ 255 ∧ cause = 5 ∨ d = 0 ∧ ub u 1 = 0 ∧ cause = 0 ∨ d = 0 ∧ 16 < ub u 1 ∧ cause = 1 ∨ d = 0 ∧ 1 ≤ ub u 1 ∧ ub u 1 ≤ 16 ∧ 2 ^ r.exp < r.c.toNat % 2 ^ r.exp + ub u 1 ∧ cause = 2 ∨ d = 0 ∧ 1 ≤ ub u 1 ∧ ub u 1 ≤ 16 ∧ r.c.toNat % 2 ^ r.exp + ub u 1 ≤ 2 ^ r.exp ∧ (r.p - r.c).toNat < ub u 1 ∧ cause = 6)) ∧
    (∃ (s : State) (q : RingRef) (r : Sq) (u : RingUnit) (cause : Nat), s.NoInjection ∧ s.sq q = some r ∧ r.fetch = .first ∧ s.phase = .online ∧ (let d := (ub u 0 + 256 - r.c.toNat / 2 ^ r.exp % 256) % 256; d ≠ 0 ∧ d ≠ 255 ∧ cause = 5 ∨ d = 0 ∧ ub u 1 = 0 ∧ cause = 0 ∨ d = 0 ∧ 16 < ub u 1 ∧ cause = 1 ∨ d = 0 ∧ 1 ≤ ub u 1 ∧ ub u 1 ≤ 16 ∧ 2 ^ r.exp < r.c.toNat % 2 ^ r.exp + ub u 1 ∧ cause = 2 ∨ d = 0 ∧ 1 ≤ ub u 1 ∧ ub u 1 ≤ 16 ∧ r.c.toNat % 2 ^ r.exp + ub u 1 ≤ 2 ^ r.exp ∧ (r.p - r.c).toNat < ub u 1 ∧ cause = 6)) ∧
    (∃ (s : State) (q : RingRef) (r : Sq) (u : RingUnit) (cause : Nat), s.NoInjection ∧ s.sq q = some r ∧ r.fetch = .first ∧ s.phase = .online ∧ (let d := (ub u 0 + 256 - r.c.toNat / 2 ^ r.exp % 256) % 256; d ≠ 0 ∧ d ≠ 255 ∧ cause = 5 ∨ d = 0 ∧ ub u 1 = 0 ∧ cause = 0 ∨ d = 0 ∧ 16 < ub u 1 ∧ cause = 1 ∨ d = 0 ∧ 1 ≤ ub u 1 ∧ ub u 1 ≤ 16 ∧ 2 ^ r.exp < r.c.toNat % 2 ^ r.exp + ub u 1 ∧ cause = 2 ∨ d = 0 ∧ 1 ≤ ub u 1 ∧ ub u 1 ≤ 16 ∧ r.c.toNat % 2 ^ r.exp + ub u 1 ≤ 2 ^ r.exp ∧ (r.p - r.c).toNat < ub u 1 ∧ cause = 6)) ∧
    (∃ (s : State) (q : RingRef) (r : Sq) (u : RingUnit) (cause : Nat), s.NoInjection ∧ s.sq q = some r ∧ r.fetch = .first ∧ s.phase = .online ∧ (let d := (ub u 0 + 256 - r.c.toNat / 2 ^ r.exp % 256) % 256; d ≠ 0 ∧ d ≠ 255 ∧ cause = 5 ∨ d = 0 ∧ ub u 1 = 0 ∧ cause = 0 ∨ d = 0 ∧ 16 < ub u 1 ∧ cause = 1 ∨ d = 0 ∧ 1 ≤ ub u 1 ∧ ub u 1 ≤ 16 ∧ 2 ^ r.exp < r.c.toNat % 2 ^ r.exp + ub u 1 ∧ cause = 2 ∨ d = 0 ∧ 1 ≤ ub u 1 ∧ ub u 1 ≤ 16 ∧ r.c.toNat % 2 ^ r.exp + ub u 1 ≤ 2 ^ r.exp ∧ (r.p - r.c).toNat < ub u 1 ∧ cause = 6)) ∧
    (∃ (s : State) (q : RingRef) (r : Sq) (u : RingUnit) (cause : Nat), s.NoInjection ∧ s.sq q = some r ∧ r.fetch = .first ∧ s.phase = .online ∧ (let d := (ub u 0 + 256 - r.c.toNat / 2 ^ r.exp % 256) % 256; d ≠ 0 ∧ d ≠ 255 ∧ cause = 5 ∨ d = 0 ∧ ub u 1 = 0 ∧ cause = 0 ∨ d = 0 ∧ 16 < ub u 1 ∧ cause = 1 ∨ d = 0 ∧ 1 ≤ ub u 1 ∧ ub u 1 ≤ 16 ∧ 2 ^ r.exp < r.c.toNat % 2 ^ r.exp + ub u 1 ∧ cause = 2 ∨ d = 0 ∧ 1 ≤ ub u 1 ∧ ub u 1 ≤ 16 ∧ r.c.toNat % 2 ^ r.exp + ub u 1 ≤ 2 ^ r.exp ∧ (r.p - r.c).toNat < ub u 1 ∧ cause = 6)) ∧
    (∃ (s : State) (q : RingRef) (r : Sq) (k : Cq) (u : RingUnit), s.NoInjection ∧ (s.sq q = some r ∧ r.fetch = .line ∧ s.phase = .online ∧ s.cq q = some k) ∧ (∀ i, 8 ≤ i → i < 64 → ub u i = 0) ∧ (k.t - w32 (uf u 4 4)).toNat ≤ 2 ^ k.exp ∧ 2 ^ r.exp < (w32 (uf u 0 4) - r.h).toNat) ∧
    (∃ (s : State) (q : RingRef) (r : Sq) (k : Cq) (u : RingUnit), s.NoInjection ∧ (s.sq q = some r ∧ r.fetch = .line ∧ s.phase = .online ∧ s.cq q = some k) ∧ (∀ i, 8 ≤ i → i < 64 → ub u i = 0) ∧ 2 ^ k.exp < (k.t - w32 (uf u 4 4)).toNat) :=
  ⟨⟨(fetching { sq0 with fetch := .first, p := 16 }), q0, { sq0 with fetch := .first, p := 16 }, 0x010101, 5, by unfold State.NoInjection; decide +kernel, by decide +kernel⟩,
   ⟨(fetching { sq0 with fetch := .first, p := 16 }), q0, { sq0 with fetch := .first, p := 16 }, 0x010000, 0, by unfold State.NoInjection; decide +kernel, by decide +kernel⟩,
   ⟨(fetching { sq0 with fetch := .first, p := 16 }), q0, { sq0 with fetch := .first, p := 16 }, 0x011100, 1, by unfold State.NoInjection; decide +kernel, by decide +kernel⟩,
   ⟨(fetching { sq0 with fetch := .first, c := 15, h := 15, p := 31 }), q0, { sq0 with fetch := .first, c := 15, h := 15, p := 31 }, 0x010200, 2, by unfold State.NoInjection; decide +kernel, by decide +kernel⟩,
   ⟨(fetching { sq0 with fetch := .first, p := 1 }), q0, { sq0 with fetch := .first, p := 1 }, 0x010200, 6, by unfold State.NoInjection; decide +kernel, by decide +kernel⟩,
   ⟨(fetching { sq0 with fetch := .line }), q0, { sq0 with fetch := .line }, cq0, 17, by unfold State.NoInjection; decide +kernel, by decide +kernel, fun i h1 h2 => (by decide +kernel : ∀ j : Fin 64, 8 ≤ j.val → ub 17 j.val = 0) ⟨i, h2⟩ h1, by decide +kernel⟩,
   ⟨(fetching { sq0 with fetch := .line }), q0, { sq0 with fetch := .line }, cq0, 0xFFFFFFEF00000000, by unfold State.NoInjection; decide +kernel, by decide +kernel, fun i h1 h2 => (by decide +kernel : ∀ j : Fin 64, 8 ≤ j.val → ub 0xFFFFFFEF00000000 j.val = 0) ⟨i, h2⟩ h1, by decide +kernel⟩⟩

theorem test_hyp_EntriesDecodeAsEncoded :
    ∃ (_ : Nat) (_ : BitVec 16) (_ : BitVec 12) (chained : Bool) (op : IoOp), op.spelled chained = true :=
  ⟨3, 7, 0x021, false, (.read 5 (2 ^ 32 - 1) true (List.replicate 46 ⟨64, 64, 0, 0⟩)), by decide +kernel⟩

theorem test_hyp_IoCommandsAccepted :
    (∃ (s : State) (c : Instr) (q : RingRef) (hd : EntryHdr) (op : IoOp), ioOf c = some (q, hd, op) ∧ s.RowReady q hd op ∧ (∀ x, op ≠ .volPower x) ∧ (∀ a b, op ≠ .abort a b) ∧ s.powerOf hd.vol = .active ∧ (op.lock ≠ none → s.LockFree hd.vol)) ∧
    (∃ (s : State) (c : Instr) (q : RingRef) (hd : EntryHdr) (op : IoOp), ioOf c = some (q, hd, op) ∧ s.RowReady q hd op ∧ (∀ x, op ≠ .volPower x) ∧ (∀ a b, op ≠ .abort a b) ∧ s.powerOf hd.vol = .active ∧ (op.lock ≠ none → s.LockFree hd.vol)) ∧
    (∃ (s : State) (c : Instr) (q : RingRef) (hd : EntryHdr) (op : IoOp), ioOf c = some (q, hd, op) ∧ s.RowReady q hd op ∧ (∀ x, op ≠ .volPower x) ∧ (∀ a b, op ≠ .abort a b) ∧ s.powerOf hd.vol = .active ∧ (op.lock ≠ none → s.LockFree hd.vol)) ∧
    (∃ (s : State) (c : Instr) (q : RingRef) (hd : EntryHdr) (op : IoOp), ioOf c = some (q, hd, op) ∧ s.RowReady q hd op ∧ (∀ x, op ≠ .volPower x) ∧ (∀ a b, op ≠ .abort a b) ∧ s.powerOf hd.vol = .active ∧ (op.lock ≠ none → s.LockFree hd.vol)) :=
  ⟨⟨onl, (.read q0 e0 0 1 false list1), q0, e0, (.read 0 1 false list1), by decide +kernel, by constructor <;> first | decide +kernel | exact ⟨64, by decide +kernel⟩ | rfl, nofun, nofun, by decide +kernel, fun _ => by unfold State.LockFree; decide +kernel⟩,
   ⟨onl, (.write q0 e0 63 1 false list1), q0, e0, (.write 63 1 false list1), by decide +kernel, by constructor <;> first | decide +kernel | exact ⟨64, by decide +kernel⟩ | rfl, nofun, nofun, by decide +kernel, fun _ => by unfold State.LockFree; decide +kernel⟩,
   ⟨onl, (.flush q0 e0), q0, e0, .flush, by decide +kernel, by constructor <;> first | decide +kernel | exact ⟨64, by decide +kernel⟩ | rfl, nofun, nofun, by decide +kernel, fun _ => by unfold State.LockFree; decide +kernel⟩,
   ⟨onl, (.verify q0 e0 0 64), q0, e0, (.verify 0 64), by decide +kernel, by constructor <;> first | decide +kernel | exact ⟨64, by decide +kernel⟩ | rfl, nofun, nofun, by decide +kernel, fun _ => by unfold State.LockFree; decide +kernel⟩⟩

theorem test_hyp_FlushAbortVolumePower :
    (∃ (s : State) (q : RingRef) (hd : EntryHdr), s.RowReady q hd .flush ∧ s.powerOf hd.vol = .active) ∧
    (∃ (s : State) (q : RingRef) (hd : EntryHdr) (tq : BitVec 16) (tt : BitVec 16) (w : Cmd), s.RowReady q hd (.abort tq tt) ∧ s.ord.cmds = [w] ∧ w.org = .ring q ∧ ringQid q = tq ∧ w.tag = tt ∧ w.acc.isSome = true ∧ w.st = .running) ∧
    (∃ (s : State) (q : RingRef) (hd : EntryHdr) (tq : BitVec 16) (tt : BitVec 16), s.RowReady q hd (.abort tq tt) ∧ s.ord.cmds = []) ∧
    (∃ (s : State) (q : RingRef) (hd : EntryHdr) (x : BitVec 8), s.RowReady q hd (.volPower x.toNat) ∧ x.toNat < 2 ∧ ((s.poolOf hd.vol).bind (·.run hd.vol)).isSome = true ∧ (s.powerOf hd.vol = .active ∨ s.powerOf hd.vol = .idle)) ∧
    (∃ (s : State) (q : RingRef) (hd : EntryHdr) (x : BitVec 8), s.RowReady q hd (.volPower x.toNat) ∧ x.toNat < 2 ∧ ((s.poolOf hd.vol).bind (·.run hd.vol)).isSome = true ∧ (s.powerOf hd.vol = .active ∨ s.powerOf hd.vol = .idle)) ∧
    (∃ (s : State) (q : RingRef) (hd : EntryHdr), s.RowReady q hd (.volPower 2) ∧ ((s.poolOf hd.vol).bind (·.run hd.vol)).isSome = true ∧ s.powerOf hd.vol = .active) :=
  ⟨⟨onl, q0, e0, by constructor <;> first | decide +kernel | exact ⟨64, by decide +kernel⟩ | rfl, by decide +kernel⟩,
   ⟨(withCmd cmd0), q0, { e0 with vol := 0 }, 0, 9, cmd0, by constructor <;> first | decide +kernel | exact ⟨64, by decide +kernel⟩ | rfl, by decide +kernel⟩,
   ⟨onl, q0, { e0 with vol := 0 }, 0, 9, by constructor <;> first | decide +kernel | exact ⟨64, by decide +kernel⟩ | rfl, by decide +kernel⟩,
   ⟨onl, q0, e0, 0, by constructor <;> first | decide +kernel | exact ⟨64, by decide +kernel⟩ | rfl, by decide +kernel⟩,
   ⟨onl, q0, e0, 1, by constructor <;> first | decide +kernel | exact ⟨64, by decide +kernel⟩ | rfl, by decide +kernel⟩,
   ⟨onl, q0, e0, by constructor <;> first | decide +kernel | exact ⟨64, by decide +kernel⟩ | rfl, by decide +kernel⟩⟩

theorem test_hyp_IoEntriesRejected :
    (∃ (s : State) (c : Instr) (q : RingRef) (hd : EntryHdr) (op : IoOp), ioOf c = some (q, hd, op) ∧ s.takesEntry q = true ∧ q.fn = .pf0) ∧
    (∃ (s : State) (c : Instr) (q : RingRef) (hd : EntryHdr) (op : IoOp), ioOf c = some (q, hd, op) ∧ s.takesEntry q = true ∧ q.fn = .pf1 ∧ unitsFault op hd.units op.chained = none ∧ s.dupTag q hd.tag = true) ∧
    (∃ (s : State) (c : Instr) (q : RingRef) (hd : EntryHdr) (op : IoOp) (v : Nat) (n : Nat), (ioOf c = some (q, hd, op) ∧ s.takesEntry q = true ∧ q.fn = .pf1 ∧ unitsFault op hd.units op.chained = none ∧ s.dupTag q hd.tag = false ∧ listReserved op = none) ∧ ((∃ nf l, op = .read v n nf l) ∨ (∃ m l, op = .write v n m l) ∨ op = .verify v n ∨ (∃ m, op = .writeZeroes v n m)) ∧ (n < 1 ∨ 65536 < n)) ∧
    (∃ (s : State) (c : Instr) (q : RingRef) (hd : EntryHdr) (op : IoOp) (v : Nat) (n : Nat), (ioOf c = some (q, hd, op) ∧ s.takesEntry q = true ∧ q.fn = .pf1 ∧ unitsFault op hd.units op.chained = none ∧ s.dupTag q hd.tag = false ∧ listReserved op = none) ∧ ((∃ nf l, op = .read v n nf l) ∨ (∃ m l, op = .write v n m l) ∨ op = .verify v n ∨ (∃ m, op = .writeZeroes v n m)) ∧ (n < 1 ∨ 65536 < n)) ∧
    (∃ (s : State) (c : Instr) (q : RingRef) (hd : EntryHdr) (op : IoOp) (v : Nat) (n : Nat), (ioOf c = some (q, hd, op) ∧ s.takesEntry q = true ∧ q.fn = .pf1 ∧ unitsFault op hd.units op.chained = none ∧ s.dupTag q hd.tag = false ∧ listReserved op = none) ∧ ((∃ nf l, op = .read v n nf l) ∨ (∃ m l, op = .write v n m l) ∨ op = .verify v n ∨ (∃ m, op = .writeZeroes v n m)) ∧ 1 ≤ n ∧ n ≤ 65536 ∧ entriesOf op op.chained = none ∧ listFault op op.chained = none ∧ s.lookVol hd.vol = .unknown) ∧
    (∃ (s : State) (c : Instr) (q : RingRef) (hd : EntryHdr) (op : IoOp) (v : Nat) (n : Nat), (ioOf c = some (q, hd, op) ∧ s.takesEntry q = true ∧ q.fn = .pf1 ∧ unitsFault op hd.units op.chained = none ∧ s.dupTag q hd.tag = false ∧ listReserved op = none) ∧ ((∃ nf l, op = .read v n nf l) ∨ (∃ m l, op = .write v n m l) ∨ op = .verify v n ∨ (∃ m, op = .writeZeroes v n m)) ∧ 1 ≤ n ∧ n ≤ 65536 ∧ entriesOf op op.chained = none ∧ listFault op op.chained = none ∧ s.lookVol hd.vol = .unknown) ∧
    (∃ (s : State) (c : Instr) (q : RingRef) (hd : EntryHdr) (op : IoOp) (v : Nat) (n : Nat) (size : Nat), (ioOf c = some (q, hd, op) ∧ s.takesEntry q = true ∧ q.fn = .pf1 ∧ unitsFault op hd.units op.chained = none ∧ s.dupTag q hd.tag = false ∧ listReserved op = none) ∧ ((∃ nf l, op = .read v n nf l) ∨ (∃ m l, op = .write v n m l) ∨ op = .verify v n ∨ (∃ m, op = .writeZeroes v n m)) ∧ 1 ≤ n ∧ n ≤ 65536 ∧ entriesOf op op.chained = none ∧ listFault op op.chained = none ∧ s.lookVol hd.vol = .here size ∧ size < v + n) ∧
    (∃ (s : State) (c : Instr) (q : RingRef) (hd : EntryHdr) (op : IoOp) (v : Nat) (n : Nat) (size : Nat), (ioOf c = some (q, hd, op) ∧ s.takesEntry q = true ∧ q.fn = .pf1 ∧ unitsFault op hd.units op.chained = none ∧ s.dupTag q hd.tag = false ∧ listReserved op = none) ∧ ((∃ nf l, op = .read v n nf l) ∨ (∃ m l, op = .write v n m l) ∨ op = .verify v n ∨ (∃ m, op = .writeZeroes v n m)) ∧ 1 ≤ n ∧ n ≤ 65536 ∧ entriesOf op op.chained = none ∧ listFault op op.chained = none ∧ s.lookVol hd.vol = .here size ∧ size < v + n) :=
  ⟨⟨onl, (.flush a0 e0), a0, e0, .flush, by decide +kernel⟩,
   ⟨(withCmd { cmd0 with tag := 7 }), (.flush q0 e0), q0, e0, .flush, by decide +kernel⟩,
   ⟨onl, (.read q0 e0 0 0 false list1), q0, e0, (.read 0 0 false list1), 0, 0, by decide +kernel, by first | exact .inl ⟨_, _, rfl⟩ | exact .inr (.inl ⟨_, _, rfl⟩) | exact .inr (.inr (.inl rfl)) | exact .inr (.inr (.inr ⟨_, rfl⟩)), by decide +kernel⟩,
   ⟨onl, (.verify q0 e0 0 65537), q0, e0, (.verify 0 65537), 0, 65537, by decide +kernel, by first | exact .inl ⟨_, _, rfl⟩ | exact .inr (.inl ⟨_, _, rfl⟩) | exact .inr (.inr (.inl rfl)) | exact .inr (.inr (.inr ⟨_, rfl⟩)), by decide +kernel⟩,
   ⟨onl, (.verify q0 { e0 with vol := 0x022 } 0 65536), q0, { e0 with vol := 0x022 }, (.verify 0 65536), 0, 65536, by decide +kernel, by first | exact .inl ⟨_, _, rfl⟩ | exact .inr (.inl ⟨_, _, rfl⟩) | exact .inr (.inr (.inl rfl)) | exact .inr (.inr (.inr ⟨_, rfl⟩)), by decide +kernel⟩,
   ⟨onl, (.write q0 { e0 with vol := 0x022 } 0 1 true list1), q0, { e0 with vol := 0x022 }, (.write 0 1 true list1), 0, 1, by decide +kernel, by first | exact .inl ⟨_, _, rfl⟩ | exact .inr (.inl ⟨_, _, rfl⟩) | exact .inr (.inr (.inl rfl)) | exact .inr (.inr (.inr ⟨_, rfl⟩)), by decide +kernel⟩,
   ⟨onl, (.writeZeroes q0 e0 64 1 true), q0, e0, (.writeZeroes 64 1 true), 64, 1, 64, by decide +kernel, by first | exact .inl ⟨_, _, rfl⟩ | exact .inr (.inl ⟨_, _, rfl⟩) | exact .inr (.inr (.inl rfl)) | exact .inr (.inr (.inr ⟨_, rfl⟩)), by decide +kernel⟩,
   ⟨onl, (.read q0 e0 64 1 true list1), q0, e0, (.read 64 1 true list1), 64, 1, 64, by decide +kernel, by first | exact .inl ⟨_, _, rfl⟩ | exact .inr (.inl ⟨_, _, rfl⟩) | exact .inr (.inr (.inl rfl)) | exact .inr (.inr (.inr ⟨_, rfl⟩)), by decide +kernel⟩⟩

set_option maxRecDepth 100000 in
theorem test_hyp_EntriesRunTheirCommands :
    (∃ (s : State) (q : RingRef) (r : Sq) (hd : EntryHdr) (u : RingUnit) (op : IoOp), s.NoInjection ∧ (s.sq q = some r ∧ r.fetch = .first ∧ ub u 0 = r.c.toNat / 2 ^ r.exp % 256 ∧ ub u 1 = 1 ∧ 1 ≤ (r.p - r.c).toNat ∧ hd.units = 1 ∧ hd.tag = BitVec.ofNat 16 (uf u 4 2) ∧ hd.vol = BitVec.ofNat 12 (uf u 6 2) ∧ ub u 2 ≠ 0x3F ∧ earlyFault true [u] = none ∧ decodeIo [u] = some op ∧ reservedFault [u] = none ∧ entriesFault [u] = none ∧ op.chained = false) ∧ s.RowReady q hd op ∧ (∀ x, op ≠ .volPower x) ∧ (∀ a b, op ≠ .abort a b) ∧ s.powerOf hd.vol = .active ∧ (op.lock ≠ none → s.LockFree hd.vol)) ∧
    (∃ (s : State) (q : RingRef) (r : Sq) (hd : EntryHdr) (u : RingUnit) (op : IoOp), s.NoInjection ∧ (s.sq q = some r ∧ r.fetch = .first ∧ ub u 0 = r.c.toNat / 2 ^ r.exp % 256 ∧ ub u 1 = 1 ∧ 1 ≤ (r.p - r.c).toNat ∧ hd.units = 1 ∧ hd.tag = BitVec.ofNat 16 (uf u 4 2) ∧ hd.vol = BitVec.ofNat 12 (uf u 6 2) ∧ ub u 2 ≠ 0x3F ∧ earlyFault true [u] = none ∧ decodeIo [u] = some op ∧ reservedFault [u] = none ∧ entriesFault [u] = none ∧ op.chained = false) ∧ s.RowReady q hd op ∧ (∀ x, op ≠ .volPower x) ∧ (∀ a b, op ≠ .abort a b) ∧ s.powerOf hd.vol = .active ∧ (op.lock ≠ none → s.LockFree hd.vol)) ∧
    (∃ (s : State) (q : RingRef) (r : Sq) (u : RingUnit) (e : ListEnt) (v : Nat) (n : Nat) (nf : Bool) (seg : List ListEnt), s.NoInjection ∧ (s.sq q = some r ∧ r.fetch = .segment [u] [e] 1 e ∧ s.takesEntry q = true ∧ q.fn = .pf1 ∧ decodeIo [u] = some (.read v n nf [e]) ∧ e.typ = 1 ∧ seg.length = e.len.toNat / 16 ∧ (∀ x ∈ readSegs (n * 4096) 0 seg, x.rsvd = 0) ∧ s.segHeld q = false ∧ segScan (n * 4096) 2 0 0 1 seg = .whole ∧ s.rangeFault (BitVec.ofNat 12 (uf u 6 2)) (.read v n nf [e]) = none) ∧ (∃ m, s.lookVol (BitVec.ofNat 12 (uf u 6 2)) = .here m) ∧ s.powerOf (BitVec.ofNat 12 (uf u 6 2)) = .active ∧ s.LockFree (BitVec.ofNat 12 (uf u 6 2))) ∧
    (∃ (s : State) (q : RingRef) (r : Sq) (u : RingUnit) (us : List RingUnit) (ents : List ListEnt) (n : Nat) (e : ListEnt) (_ : HostErr), s.NoInjection ∧ s.sq q = some r ∧ (r.fetch = .first ∨ r.fetch = .rest u ∨ r.fetch = .segment us ents n e) ∧ s.reg .qeFetchErrCntN < 2 ^ 32 - 1 ∧ r.fetch ≠ .segment us ents n e) ∧
    (∃ (s : State) (q : RingRef) (r : Sq) (u : RingUnit) (us : List RingUnit) (ents : List ListEnt) (n : Nat) (e : ListEnt) (_ : HostErr), s.NoInjection ∧ s.sq q = some r ∧ (r.fetch = .first ∨ r.fetch = .rest u ∨ r.fetch = .segment us ents n e) ∧ s.reg .qeFetchErrCntN < 2 ^ 32 - 1 ∧ r.fetch ≠ .segment us ents n e) ∧
    (∃ (s : State) (q : RingRef) (r : Sq) (u : RingUnit) (us : List RingUnit) (ents : List ListEnt) (n : Nat) (e : ListEnt) (err : HostErr), s.NoInjection ∧ s.sq q = some r ∧ (r.fetch = .first ∨ r.fetch = .rest u ∨ r.fetch = .segment us ents n e) ∧ s.reg .qeFetchErrCntN < 2 ^ 32 - 1 ∧ r.fetch = .segment us ents n e ∧ s.segHeld q = false ∧ err ≠ .translation) ∧
    (∃ (s : State) (q : RingRef) (r : Sq) (us : List RingUnit) (ents : List ListEnt) (n : Nat) (e : ListEnt), s.NoInjection ∧ s.sq q = some r ∧ r.fetch = .segment us ents n e ∧ s.segHeld q = false) :=
  ⟨⟨(fetching { sq0 with fetch := .first, p := 1 }), q0, { sq0 with fetch := .first, p := 1 }, e0, unitFlush, .flush, by unfold State.NoInjection; decide +kernel, by decide +kernel, by constructor <;> first | decide +kernel | exact ⟨64, by decide +kernel⟩ | rfl, nofun, nofun, by decide +kernel, fun _ => by unfold State.LockFree; decide +kernel⟩,
   ⟨(fetching { sq0 with fetch := .first, p := 1 }), q0, { sq0 with fetch := .first, p := 1 }, e0, unitRead, (.read 0 1 false list1), by unfold State.NoInjection; decide +kernel, by decide +kernel, by constructor <;> first | decide +kernel | exact ⟨64, by decide +kernel⟩ | rfl, nofun, nofun, by decide +kernel, fun _ => by unfold State.LockFree; decide +kernel⟩,
   ⟨(fetching { sq0 with fetch := .segment [unitChain] [⟨0x2000, 64, 1, 0⟩] 1 ⟨0x2000, 64, 1, 0⟩, c := 1, p := 1 }), q0, { sq0 with fetch := .segment [unitChain] [⟨0x2000, 64, 1, 0⟩] 1 ⟨0x2000, 64, 1, 0⟩, c := 1, p := 1 }, unitChain, ⟨0x2000, 64, 1, 0⟩, 0, 1, false, [⟨0x1000, 2048, 0, 0⟩, ⟨0x1000, 2048, 0, 0⟩, ⟨0x1000, 2048, 0, 0⟩, ⟨0x1000, 2048, 0, 0⟩], by unfold State.NoInjection; decide +kernel, by decide +kernel, ⟨64, by decide +kernel⟩, by decide +kernel, by unfold State.LockFree; decide +kernel⟩,
   ⟨(fetching { sq0 with fetch := .first }), q0, { sq0 with fetch := .first }, 0, [], [], 0, ⟨0, 0, 0, 0⟩, .timeout, by unfold State.NoInjection; decide +kernel, by decide +kernel⟩,
   ⟨(fetching { sq0 with fetch := .rest 5 }), q0, { sq0 with fetch := .rest 5 }, 5, [], [], 0, ⟨0, 0, 0, 0⟩, .poisoned, by unfold State.NoInjection; decide +kernel, by decide +kernel⟩,
   ⟨(fetching { sq0 with fetch := .segment [0] [] 1 ⟨0, 0, 0, 0⟩ }), q0, { sq0 with fetch := .segment [0] [] 1 ⟨0, 0, 0, 0⟩ }, 0, [0], [], 1, ⟨0, 0, 0, 0⟩, .aborted, by unfold State.NoInjection; decide +kernel, by decide +kernel⟩,
   ⟨(fetching { sq0 with fetch := .segment [unitChain] [] 1 ⟨0, 0, 0, 0⟩ }), q0, { sq0 with fetch := .segment [unitChain] [] 1 ⟨0, 0, 0, 0⟩ }, [unitChain], [], 1, ⟨0, 0, 0, 0⟩, by unfold State.NoInjection; decide +kernel, by decide +kernel⟩⟩

theorem test_hyp_IdentityAndRequests :
    (∃ (s : State) (src : AdmSrc) (tag : BitVec 16) (addr : BitVec 64), s.AdmTurn src tag true ∧ s.OutNow src ∧ addr.toNat % 64 = 0) ∧
    (∃ (s : State) (src : AdmSrc) (tag : BitVec 16) (vol : BitVec 12) (addr : BitVec 64), s.AdmTurn src tag true ∧ s.OutNow src ∧ addr.toNat % 64 = 0 ∧ s.volKnown vol = true) ∧
    (∃ (s : State) (src : AdmSrc) (tag : BitVec 16) (vol : BitVec 12) (addr : BitVec 64), s.AdmTurn src tag true ∧ addr.toNat % 64 = 0 ∧ s.volKnown vol = false) ∧
    (∃ (s : State) (src : AdmSrc) (tag : BitVec 16) (addr : BitVec 64) (len : BitVec 32) (scope : BitVec 8) (_ : BitVec 16), s.AdmTurn src tag false ∧ s.OutNow src ∧ scope.toNat ≤ 1 ∧ addr.toNat % 64 = 0 ∧ len.toNat % 64 = 0) ∧
    (∃ (s : State) (src : AdmSrc) (tag : BitVec 16) (addr : BitVec 64) (len : BitVec 32) (scope : BitVec 8) (_ : BitVec 16), s.AdmTurn src tag false ∧ s.OutNow src ∧ scope.toNat ≤ 1 ∧ addr.toNat % 64 = 0 ∧ len.toNat % 64 = 0) ∧
    (∃ (s : State) (src : AdmSrc) (tag : BitVec 16) (addr : BitVec 64) (len : BitVec 32) (_ : BitVec 64) (area : BitVec 8), s.AdmTurn src tag true ∧ s.OutNow src ∧ area.toNat ≤ 1 ∧ addr.toNat % 64 = 0 ∧ len.toNat % 64 = 0) ∧
    (∃ (s : State) (src : AdmSrc) (tag : BitVec 16) (addr : BitVec 64) (len : BitVec 32) (_ : BitVec 64) (area : BitVec 8), s.AdmTurn src tag true ∧ s.OutNow src ∧ area.toNat ≤ 1 ∧ addr.toNat % 64 = 0 ∧ len.toNat % 64 = 0) ∧
    (∃ (s : State) (src : AdmSrc) (tag : BitVec 16) (addr : BitVec 64) (len : BitVec 32) (pool : BitVec 16) (p : Pool) (v : Virek) (more : List Virek), s.AdmTurn src tag true ∧ s.OutNow src ∧ s.pool pool = some p ∧ p.cur.vireks = v :: more ∧ addr.toNat % 64 = 0 ∧ len.toNat % 64 = 0) ∧
    (∃ (s : State) (src : AdmSrc) (tag : BitVec 16) (addr : BitVec 64) (len : BitVec 32) (_ : BitVec 256), s.AdmTurn src tag true ∧ addr.toNat % 64 = 0 ∧ len.toNat % 64 = 0) ∧
    (∃ (s : State) (src : AdmSrc) (tag : BitVec 16), s.AdmTurn src tag false) :=
  ⟨⟨onl, .mctp, 3, 64, by simp only [State.AdmTurn]; decide +kernel, by simp only [State.OutNow] <;> decide +kernel, by decide +kernel⟩,
   ⟨onl, (.ring a0), 3, 0x021, 64, by simp only [State.AdmTurn]; decide +kernel, by simp only [State.OutNow] <;> decide +kernel, by decide +kernel⟩,
   ⟨onl, .mctp, 3, 0x022, 64, by simp only [State.AdmTurn]; decide +kernel, by decide +kernel⟩,
   ⟨onl, (.ring a0), 3, 64, 64, 1, 0, by simp only [State.AdmTurn]; decide +kernel, by simp only [State.OutNow] <;> decide +kernel, by decide +kernel⟩,
   ⟨onl, .mctp, 3, 64, 64, 0, 0, by simp only [State.AdmTurn]; decide +kernel, by simp only [State.OutNow] <;> decide +kernel, by decide +kernel⟩,
   ⟨{ onl with evr := { onl.evr with recs := [⟨9, 0, .tickOverrun, false, false, 0, 0, 0, 0, 0, 0, 0⟩, ⟨8, 0, .tickOverrun, false, false, 0, 0, 0, 0, 0, 0, 0⟩], next := 10 } }, (.ring a0), 3, 64, 64, 8, 0, by simp only [State.AdmTurn]; decide +kernel, by simp only [State.OutNow] <;> decide +kernel, by decide +kernel⟩,
   ⟨onl, .mctp, 3, 64, 64, 8, 1, by simp only [State.AdmTurn]; decide +kernel, by simp only [State.OutNow] <;> decide +kernel, by decide +kernel⟩,
   ⟨(withPool { pool0 with cur := { meta0 with vireks := [virek0] } }), (.ring a0), 3, 64, 1024, 1, { pool0 with cur := { meta0 with vireks := [virek0] } }, virek0, [], by simp only [State.AdmTurn]; decide +kernel, by simp only [State.OutNow] <;> decide +kernel, by decide +kernel⟩,
   ⟨onl, (.ring a0), 3, 64, 1024, 5, by simp only [State.AdmTurn]; decide +kernel, by decide +kernel⟩,
   ⟨onl, (.ring a0), 3, by simp only [State.AdmTurn]; decide +kernel⟩⟩

theorem test_hyp_KeyImports :
    (∃ (s : State) (tag : BitVec 16) (addr : BitVec 64) (_ : BitVec 256), s.AdmTurn .mctp tag true ∧ s.admFree = true ∧ addr.toNat % 64 = 0) ∧
    (∃ (s : State) (q : RingRef) (tag : BitVec 16) (addr : BitVec 64) (_ : HostRead (BitVec 256)), s.AdmTurn (.ring q) tag true ∧ s.admFree = true ∧ addr.toNat % 64 = 0) ∧
    (∃ (s : State) (src : AdmSrc) (tag : BitVec 16) (addr : BitVec 64) (_ : BitVec 320) (kt : BitVec 256), s.AdmTurn src tag true ∧ s.admFree = true ∧ addr.toNat % 64 = 0 ∧ s.tru.kt = some kt) ∧
    (∃ (s : State) (src : AdmSrc) (tag : BitVec 16) (addr : BitVec 64) (_ : BitVec 320), s.AdmTurn src tag true ∧ s.admFree = true ∧ addr.toNat % 64 = 0 ∧ s.tru.kt = none) :=
  ⟨⟨onl, 3, 64, 5, by simp only [State.AdmTurn]; decide +kernel, by decide +kernel⟩,
   ⟨onl, a0, 3, 64, (.ok 5), by simp only [State.AdmTurn]; decide +kernel, by decide +kernel⟩,
   ⟨{ onl with tru := { Tru.reset with kt := some 5 } }, (.ring a0), 3, 64, 1, 5, by simp only [State.AdmTurn]; decide +kernel, by decide +kernel⟩,
   ⟨onl, .mctp, 3, 64, 1, by simp only [State.AdmTurn]; decide +kernel, by decide +kernel⟩⟩

theorem test_hyp_RopeKeyImport :
    (∃ (s : State) (tag : BitVec 16) (addr : BitVec 64) (k : BitVec 256), s.AdmTurn .mctp tag true ∧ (s.admFree = true ∧ addr.toNat % 64 = 0) ∧ (∀ p ∈ s.pools, p.nxt.krCheck = keyCheck k)) ∧
    (∃ (s : State) (tag : BitVec 16) (addr : BitVec 64) (k : BitVec 256) (p : Pool), s.AdmTurn .mctp tag true ∧ (s.admFree = true ∧ addr.toNat % 64 = 0) ∧ p ∈ s.pools ∧ p.nxt.krCheck ≠ keyCheck k) :=
  ⟨⟨(withPool { pool0 with nxt := { pool0.nxt with krCheck := keyCheck 5 } }), 3, 64, 5, by simp only [State.AdmTurn]; decide +kernel, by decide +kernel, List.forall_mem_singleton.mpr rfl⟩,
   ⟨(withPool { pool0 with nxt := { pool0.nxt with krCheck := keyCheck 5 + 1 } }), 3, 64, 5, { pool0 with nxt := { pool0.nxt with krCheck := keyCheck 5 + 1 } }, by simp only [State.AdmTurn]; decide +kernel, by decide +kernel, List.mem_singleton.mpr rfl, next_ne _⟩⟩

theorem test_hyp_QueueCommands :
    (∃ (s : State) (q : RingRef) (tag : BitVec 16) (a : QueueAttrs), s.AdmTurn (.ring q) tag false ∧ s.queueFault q.port a = none ∧ a.isCq = false) ∧
    (∃ (s : State) (q : RingRef) (tag : BitVec 16) (a : QueueAttrs), s.AdmTurn (.ring q) tag false ∧ s.queueFault q.port a = none ∧ a.isCq = true) ∧
    (∃ (s : State) (q : RingRef) (tag : BitVec 16) (a : QueueAttrs) (off : Nat), s.AdmTurn (.ring q) tag false ∧ s.queueFault q.port a = some off) ∧
    (∃ (s : State) (q : RingRef) (tag : BitVec 16) (d : Bool) (n : Nat) (r : Sq), s.AdmTurn (.ring q) tag false ∧ named q d n ≠ q ∧ s.sq (named q d n) = some r ∧ isAdmin0 (named q d n) = false ∧ r.st = .disabled) ∧
    (∃ (s : State) (q : RingRef) (tag : BitVec 16) (d : Bool) (n : Nat) (r : Sq), s.AdmTurn (.ring q) tag false ∧ named q d n ≠ q ∧ s.sq (named q d n) = some r ∧ isAdmin0 (named q d n) = false ∧ r.st = .disabled ∧ s.ringBusy (named q d n) = false) ∧
    (∃ (s : State) (q : RingRef) (tag : BitVec 16) (d : Bool) (n : Nat) (r : Sq), s.AdmTurn (.ring q) tag false ∧ (named q d n ≠ q ∧ s.sq (named q d n) = some r ∧ isAdmin0 (named q d n) = false ∧ r.st ≠ .disabled) ∧ (∀ id, r.fetch ≠ .waiting id)) ∧
    (∃ (s : State) (_ : BitVec 16) (_ : QueueAttrs) (_ : Bool) (_ : Bool) (_ : Nat), s.phase = .online) ∧
    (∃ (s : State) (q : RingRef) (tag : BitVec 16) (_ : Bool), s.AdmTurn (.ring q) tag false ∧ s.sq ⟨q.port, .pf0, 0⟩ ≠ none ∧ s.cq ⟨q.port, .pf0, 0⟩ ≠ none) :=
  ⟨⟨withCq5, a0, 3, attrsQ, by simp only [State.AdmTurn]; decide +kernel, by decide +kernel⟩,
   ⟨onl, a0, 3, { attrsQ with isCq := true }, by simp only [State.AdmTurn]; decide +kernel, by decide +kernel⟩,
   ⟨onl, a0, 3, { attrsQ with base := 1 }, 8, by simp only [State.AdmTurn]; decide +kernel, by decide +kernel⟩,
   ⟨(withSq5 { sq0 with st := .disabled }), a0, 3, true, 5, { sq0 with st := .disabled, cqPair := 5 }, by simp only [State.AdmTurn]; decide +kernel, by decide +kernel⟩,
   ⟨(withSq5 { sq0 with st := .disabled }), a0, 3, true, 5, { sq0 with st := .disabled, cqPair := 5 }, by simp only [State.AdmTurn]; decide +kernel, by decide +kernel⟩,
   ⟨(withSq5 sq0), a0, 3, true, 5, { sq0 with cqPair := 5 }, by simp only [State.AdmTurn]; decide +kernel, by decide +kernel, nofun⟩,
   ⟨onl, 3, attrsQ, false, true, 5, by decide +kernel⟩,
   ⟨onl, a0, 3, true, by simp only [State.AdmTurn]; decide +kernel, by decide +kernel⟩⟩

theorem test_hyp_SerialAndEarlyCommands :
    (∃ (s : State) (src : AdmSrc) (tag : BitVec 16) (_ : BitVec 16), s.AdmTurn src tag false ∧ s.admFree = false) ∧
    (∃ (s : State) (_ : BitVec 16) (_ : BitVec 16), s.phase ∈ [.trustBoot, .configLoad, .memoryInit, .vaultRecovery, .ropeJoin, .memberDiscovery, .poolAssembly, .journalReconcile, .failStop]) :=
  ⟨⟨{ onl with mgt := { onl.mgt with admQ := [(.mctp, 1, .tickEdge)] } }, (.ring a0), 3, 1, by simp only [State.AdmTurn]; decide +kernel, by decide +kernel⟩,
   ⟨(atPhase .failStop), 3, 1, by decide +kernel⟩⟩

theorem test_hyp_PoolCreation :
    (∃ (s : State) (src : AdmSrc) (tag : BitVec 16) (pid : BitVec 16) (addr : BitVec 64) (len : BitVec 32) (b : PoolCreateBlk) (kr : BitVec 256), s.AdmTurn src tag false ∧ s.admFree = true ∧ 1 ≤ pid.toNat ∧ pid.toNat ≤ 0xFFFE ∧ s.pool pid = none ∧ (∀ e ∈ s.rop.dir, e.2.pool ≠ pid) ∧ addr.toNat % 64 = 0 ∧ len.toNat % 64 = 0 ∧ s.createFault pid len b = none ∧ s.tru.kr = some kr ∧ b.exportReq = 0 ∧ s.pools.length < 64 ∧ (b.secretSrc = 0 ∨ b.secretSrc = 1 ∧ s.tru.imported ≠ none)) ∧
    (∃ (s : State) (src : AdmSrc) (tag : BitVec 16) (pid : BitVec 16) (addr : BitVec 64) (len : BitVec 32) (b : PoolCreateBlk) (kr : BitVec 256), s.AdmTurn src tag false ∧ s.admFree = true ∧ 1 ≤ pid.toNat ∧ pid.toNat ≤ 0xFFFE ∧ s.pool pid = none ∧ (∀ e ∈ s.rop.dir, e.2.pool ≠ pid) ∧ addr.toNat % 64 = 0 ∧ len.toNat % 64 = 0 ∧ s.createFault pid len b = none ∧ s.tru.kr = some kr ∧ b.exportReq = 0 ∧ s.pools.length < 64 ∧ (b.secretSrc = 0 ∨ b.secretSrc = 1 ∧ s.tru.imported ≠ none)) ∧
    (∃ (s : State) (src : AdmSrc) (tag : BitVec 16) (pid : BitVec 16) (addr : BitVec 64) (len : BitVec 32) (b : PoolCreateBlk), s.AdmTurn src tag false ∧ s.admFree = true ∧ 1 ≤ pid.toNat ∧ pid.toNat ≤ 0xFFFE ∧ s.pool pid = none ∧ (∀ e ∈ s.rop.dir, e.2.pool ≠ pid) ∧ addr.toNat % 64 = 0 ∧ len.toNat % 64 = 0 ∧ s.createFault pid len b = none ∧ (s.tru.kr = none ∨ b.secretSrc = 1 ∧ s.tru.imported = none)) ∧
    (∃ (s : State) (src : AdmSrc) (tag : BitVec 16) (pid : BitVec 16) (addr : BitVec 64) (len : BitVec 32) (b : PoolCreateBlk), s.AdmTurn src tag false ∧ s.admFree = true ∧ 1 ≤ pid.toNat ∧ pid.toNat ≤ 0xFFFE ∧ s.pool pid = none ∧ (∀ e ∈ s.rop.dir, e.2.pool ≠ pid) ∧ addr.toNat % 64 = 0 ∧ len.toNat % 64 = 0 ∧ s.createFault pid len b = none ∧ (s.tru.kr = none ∨ b.secretSrc = 1 ∧ s.tru.imported = none)) :=
  ⟨⟨creating, (.ring a0), 3, 2, 64, 192, createBlk, 5, by simp only [State.AdmTurn]; decide +kernel, by decide +kernel⟩,
   ⟨{ creating with tru := { creating.tru with imported := some 6 } }, .mctp, 3, 2, 64, 192, { createBlk with secretSrc := 1 }, 5, by simp only [State.AdmTurn]; decide +kernel, by decide +kernel⟩,
   ⟨{ creating with tru := Tru.reset }, .mctp, 3, 2, 64, 192, createBlk, by simp only [State.AdmTurn]; decide +kernel, by decide +kernel⟩,
   ⟨creating, (.ring a0), 3, 2, 64, 192, { createBlk with secretSrc := 1 }, by simp only [State.AdmTurn]; decide +kernel, by decide +kernel⟩⟩

theorem test_hyp_PoolOperations :
    (∃ (s : State) (src : AdmSrc) (tag : BitVec 16) (p : Pool), s.AdmTurn src tag false ∧ s.admFree = true ∧ s.pool p.cur.id = some p ∧ p.deleting = none) ∧
    (∃ (s : State) (src : AdmSrc) (tag : BitVec 16) (p : Pool), s.AdmTurn src tag false ∧ s.admFree = true ∧ s.pool p.cur.id = some p ∧ p.deleting = none ∧ (p.cur.volumes = [] ∧ p.nxt.volumes = [] ∧ p.cur.frond = none ∧ p.nxt.frond = none)) ∧
    (∃ (s : State) (src : AdmSrc) (tag : BitVec 16) (p : Pool), s.AdmTurn src tag false ∧ s.admFree = true ∧ s.pool p.cur.id = some p ∧ p.deleting = none ∧ (p.cur.volumes ≠ [] ∨ p.nxt.volumes ≠ [])) ∧
    (∃ (s : State) (src : AdmSrc) (tag : BitVec 16) (p : Pool) (en : Nat) (days : Nat), s.AdmTurn src tag false ∧ s.admFree = true ∧ s.pool p.cur.id = some p ∧ p.deleting = none ∧ en ≤ 1 ∧ 1 ≤ days ∧ days ≤ 3650) ∧
    (∃ (s : State) (src : AdmSrc) (tag : BitVec 16) (p : Pool) (en : Nat) (days : Nat), s.AdmTurn src tag false ∧ s.admFree = true ∧ s.pool p.cur.id = some p ∧ p.deleting = none ∧ en ≤ 1 ∧ 1 ≤ days ∧ days ≤ 3650) ∧
    (∃ (s : State) (src : AdmSrc) (tag : BitVec 16) (p : Pool) (en : Nat) (days : Nat), s.AdmTurn src tag false ∧ s.admFree = true ∧ s.pool p.cur.id = some p ∧ p.deleting = none ∧ (1 < en ∨ days < 1 ∨ 3650 < days)) ∧
    (∃ (s : State) (src : AdmSrc) (tag : BitVec 16) (p : Pool) (en : Nat) (days : Nat), s.AdmTurn src tag false ∧ s.admFree = true ∧ s.pool p.cur.id = some p ∧ p.deleting = none ∧ (1 < en ∨ days < 1 ∨ 3650 < days)) ∧
    (∃ (s : State) (src : AdmSrc) (tag : BitVec 16) (p : Pool) (en : Nat) (days : Nat), s.AdmTurn src tag false ∧ s.admFree = true ∧ s.pool p.cur.id = some p ∧ p.deleting = none ∧ (1 < en ∨ days < 1 ∨ 3650 < days)) ∧
    (∃ (s : State) (src : AdmSrc) (tag : BitVec 16) (p : Pool) (addr : BitVec 64) (len : BitVec 32) (_ : Nat), s.AdmTurn src tag false ∧ (s.admFree = true ∧ s.pool p.cur.id = some p ∧ p.deleting = none ∧ addr.toNat % 64 = 0 ∧ len.toNat % 64 = 0) ∧ s.OutNow src) ∧
    (∃ (s : State) (src : AdmSrc) (tag : BitVec 16) (p : Pool) (v : BitVec 12) (vbn : BitVec 64) (count : BitVec 32) (l : List LostExt), s.AdmTurn src tag false ∧ s.admFree = true ∧ s.pool p.cur.id = some p ∧ p.deleting = none ∧ p.vol v ≠ none ∧ lostCutRange p.nxt.lost v vbn.toNat count.toNat = some l) ∧
    (∃ (s : State) (src : AdmSrc) (tag : BitVec 16) (pid : BitVec 16), s.AdmTurn src tag false ∧ s.admFree = true ∧ s.pool pid = none) ∧
    (∃ (l : List LostExt) (l' : List LostExt) (v : BitVec 12) (b : Nat) (n : Nat) (_ : BitVec 12) (_ : Nat), lostCutRange l v b n = some l') :=
  ⟨⟨onl, (.ring a0), 3, pool0, by simp only [State.AdmTurn]; decide +kernel, by decide +kernel⟩,
   ⟨(withPool { pool0 with cur := { meta0 with volumes := [] }, nxt := { meta0 with volumes := [] } }), .mctp, 3, { pool0 with cur := { meta0 with volumes := [] }, nxt := { meta0 with volumes := [] } }, by simp only [State.AdmTurn]; decide +kernel, by decide +kernel⟩,
   ⟨onl, .mctp, 3, pool0, by simp only [State.AdmTurn]; decide +kernel, by decide +kernel⟩,
   ⟨onl, .mctp, 3, pool0, 1, 3650, by simp only [State.AdmTurn]; decide +kernel, by decide +kernel⟩,
   ⟨onl, (.ring a0), 3, pool0, 0, 1, by simp only [State.AdmTurn]; decide +kernel, by decide +kernel⟩,
   ⟨onl, .mctp, 3, pool0, 2, 1, by simp only [State.AdmTurn]; decide +kernel, by decide +kernel⟩,
   ⟨onl, .mctp, 3, pool0, 1, 3651, by simp only [State.AdmTurn]; decide +kernel, by decide +kernel⟩,
   ⟨onl, .mctp, 3, pool0, 1, 0, by simp only [State.AdmTurn]; decide +kernel, by decide +kernel⟩,
   ⟨(withPool lossy), (.ring a0), 3, lossy, 64, 64, 0, by simp only [State.AdmTurn]; decide +kernel, by decide +kernel, by simp only [State.OutNow] <;> decide +kernel⟩,
   ⟨(withPool lossy), (.ring a0), 3, lossy, 0x021, 5, 2, [⟨4, 1, 0x021, 1, 0, 1⟩, ⟨7, 1, 0x021, 1, 0, 1⟩], by simp only [State.AdmTurn]; decide +kernel, by decide +kernel⟩,
   ⟨onl, .mctp, 3, 2, by simp only [State.AdmTurn]; decide +kernel, by decide +kernel⟩,
   ⟨[⟨4, 4, 0x021, 1, 0, 1⟩], [⟨4, 1, 0x021, 1, 0, 1⟩, ⟨7, 1, 0x021, 1, 0, 1⟩], 0x021, 5, 2, 0x021, 6, by decide +kernel⟩⟩

theorem test_hyp_PoolMembers :
    (∃ (s : State) (src : AdmSrc) (tag : BitVec 16) (p : Pool) (addr : BitVec 64) (len : BitVec 32) (nums : List Nat), s.AdmTurn src tag false ∧ s.admFree = true ∧ s.pool p.cur.id = some p ∧ p.deleting = none ∧ addr.toNat % 64 = 0 ∧ len.toNat % 64 = 0 ∧ s.joinFault p nums = false ∧ p.nxt.members.length + nums.length ≤ 1024) ∧
    (∃ (s : State) (src : AdmSrc) (tag : BitVec 16) (p : Pool) (addr : BitVec 64) (len : BitVec 32) (i : Nat) (m : MemberRec), s.AdmTurn src tag false ∧ s.admFree = true ∧ s.pool p.cur.id = some p ∧ p.deleting = none ∧ addr.toNat % 64 = 0 ∧ len.toNat % 64 = 0 ∧ p.nxt.members[i]? = some m ∧ m.img ≠ holeImg ∧ p.usesMember i = false ∧ p.journalUses i = false) ∧
    (∃ (s : State) (src : AdmSrc) (tag : BitVec 16) (p : Pool) (i : Nat) (m : MemberRec), s.AdmTurn src tag false ∧ s.admFree = true ∧ s.pool p.cur.id = some p ∧ p.deleting = none ∧ p.nxt.members[i]? = some m ∧ m.img ≠ holeImg ∧ s.mgt.declared = []) ∧
    (∃ (s : State) (src : AdmSrc) (tag : BitVec 16) (p : Pool) (i : Nat) (img : Nat) (m : MemberRec), s.AdmTurn src tag false ∧ s.admFree = true ∧ s.pool p.cur.id = some p ∧ p.deleting = none ∧ p.nxt.members[i]? = some m ∧ m.img ≠ holeImg ∧ m.state = .failed ∧ s.imgUsed img = false ∧ s.mayJoin img p.cur.id i = true) :=
  ⟨⟨onl, (.ring a0), 3, pool0, 64, 64, [13], by simp only [State.AdmTurn]; decide +kernel, by decide +kernel⟩,
   ⟨(withPool wide), .mctp, 3, wide, 64, 64, 3, ⟨13, .active⟩, by simp only [State.AdmTurn]; decide +kernel, by decide +kernel⟩,
   ⟨onl, .mctp, 3, pool0, 2, ⟨12, .active⟩, by simp only [State.AdmTurn]; decide +kernel, by decide +kernel⟩,
   ⟨(withPool lame), .mctp, 3, lame, 2, 13, ⟨12, .failed⟩, by simp only [State.AdmTurn]; decide +kernel, by decide +kernel⟩⟩

theorem test_hyp_Fronds :
    (∃ (s : State) (src : AdmSrc) (tag : BitVec 16) (p : Pool) (addr : BitVec 64) (len : BitVec 32) (b : FrondBlk), s.AdmTurn src tag false ∧ s.admFree = true ∧ s.pool p.cur.id = some p ∧ p.deleting = none ∧ addr.toNat % 64 = 0 ∧ len.toNat % 64 = 0 ∧ b.dstPool = 0 ∧ s.frondFault p p b = none) ∧
    (∃ (s : State) (src : AdmSrc) (tag : BitVec 16) (p : Pool) (f : FrondMeta), s.AdmTurn src tag false ∧ s.admFree = true ∧ s.pool p.cur.id = some p ∧ p.deleting = none ∧ p.nxt.frond = some f ∧ f.srcPool = p.cur.id ∧ f.phase ≠ .switched) ∧
    (∃ (s : State) (src : AdmSrc) (tag : BitVec 16) (p : Pool) (f : FrondMeta), s.AdmTurn src tag false ∧ s.admFree = true ∧ s.pool p.cur.id = some p ∧ p.deleting = none ∧ p.nxt.frond = some f ∧ f.srcPool = p.cur.id ∧ f.phase = .switched) ∧
    (∃ (s : State) (src : AdmSrc) (tag : BitVec 16) (p : Pool), s.AdmTurn src tag false ∧ s.admFree = true ∧ s.pool p.cur.id = some p ∧ p.deleting = none ∧ p.nxt.frond = none) :=
  ⟨⟨{ onl with pools := [poolBig], mbr := { Mbr.reset with members := [blankMem 10, blankMem 11, blankMem 12] } }, (.ring a0), 3, poolBig, 64, 128, frondBlk, by simp only [State.AdmTurn]; decide +kernel, by decide +kernel⟩,
   ⟨(withPool frondy), .mctp, 3, frondy, frond0, by simp only [State.AdmTurn]; decide +kernel, by decide +kernel⟩,
   ⟨(withPool { frondy with cur := { frondy.cur with frond := some { frond0 with phase := .switched } }, nxt := { frondy.cur with frond := some { frond0 with phase := .switched } } }), .mctp, 3, { frondy with cur := { frondy.cur with frond := some { frond0 with phase := .switched } }, nxt := { frondy.cur with frond := some { frond0 with phase := .switched } } }, { frond0 with phase := .switched }, by simp only [State.AdmTurn]; decide +kernel, by decide +kernel⟩,
   ⟨onl, .mctp, 3, pool0, by simp only [State.AdmTurn]; decide +kernel, by decide +kernel⟩⟩

theorem test_hyp_Volumes :
    (∃ (s : State) (src : AdmSrc) (tag : BitVec 16) (v : BitVec 12) (p : Pool) (size : BitVec 64) (lid : Nat) (ext : List Nat) (fext : List Nat), s.AdmTurn src tag false ∧ (s.admFree = true ∧ s.volKnown v = false ∧ v ≠ 0 ∧ (∀ x ∈ s.pools, ∀ m ∈ x.nxt.volumes, m.id ≠ v) ∧ s.pool p.cur.id = some p ∧ p.deleting = none ∧ 1 ≤ size.toNat ∧ size.toNat ≤ 2 ^ 48) ∧ s.extentsFor p v size.toNat = .ok (lid, ext, fext) ∧ (∀ e ∈ s.rop.peers, e.2.st ≠ .up) ∧ p.nxt.frond = none) ∧
    (∃ (s : State) (src : AdmSrc) (tag : BitVec 16) (v : BitVec 12) (p : Pool) (size : BitVec 64) (lid : Nat) (ext : List Nat) (fext : List Nat) (a : _) (y : _), s.AdmTurn src tag false ∧ (s.admFree = true ∧ s.volKnown v = false ∧ v ≠ 0 ∧ (∀ x ∈ s.pools, ∀ m ∈ x.nxt.volumes, m.id ≠ v) ∧ s.pool p.cur.id = some p ∧ p.deleting = none ∧ 1 ≤ size.toNat ∧ size.toNat ≤ 2 ^ 48) ∧ s.extentsFor p v size.toNat = .ok (lid, ext, fext) ∧ s.rop.peers = [(a, y)] ∧ y.st = .up) ∧
    (∃ (s : State) (src : AdmSrc) (tag : BitVec 16) (v : BitVec 12) (p : Pool) (m : VolMeta), s.AdmTurn src tag false ∧ s.admFree = true ∧ s.poolOf v = some p ∧ s.pool p.cur.id = some p ∧ ((p.nxt.volumes.find? fun m => m.id == v) = some m) ∧ (∃ c ∈ s.ord.cmds, c.vol = v ∧ c.acc ≠ none)) ∧
    (∃ (s : State) (src : AdmSrc) (tag : BitVec 16) (v : BitVec 12) (p : Pool) (m : VolMeta), s.AdmTurn src tag false ∧ s.admFree = true ∧ s.poolOf v = some p ∧ s.pool p.cur.id = some p ∧ ((p.nxt.volumes.find? fun m => m.id == v) = some m) ∧ (∀ c ∈ s.ord.cmds, c.vol ≠ v) ∧ (∀ e ∈ s.fix.ctxs, e.2.vol ≠ v) ∧ p.nxt.frond = none) ∧
    (∃ (s : State) (src : AdmSrc) (tag : BitVec 16) (v : BitVec 12) (p : Pool) (m : VolMeta) (attr : Nat) (value : Nat) (a : _), s.AdmTurn src tag false ∧ s.admFree = true ∧ s.poolOf v = some p ∧ s.pool p.cur.id = some p ∧ ((p.nxt.volumes.find? fun m => m.id == v) = some m) ∧ setAttr m.attrs attr value = some (some a)) ∧
    (∃ (s : State) (src : AdmSrc) (tag : BitVec 16) (v : BitVec 12) (p : Pool) (m : VolMeta) (value : Nat), s.AdmTurn src tag false ∧ s.admFree = true ∧ s.poolOf v = some p ∧ s.pool p.cur.id = some p ∧ ((p.nxt.volumes.find? fun m => m.id == v) = some m) ∧ 3 ≤ value) ∧
    (∃ (s : State) (src : AdmSrc) (tag : BitVec 16) (v : BitVec 12) (p : Pool) (m : VolMeta) (size : BitVec 64), s.AdmTurn src tag false ∧ s.admFree = true ∧ s.poolOf v = some p ∧ s.pool p.cur.id = some p ∧ ((p.nxt.volumes.find? fun m => m.id == v) = some m) ∧ size.toNat < m.size) ∧
    (∃ (s : State) (src : AdmSrc) (tag : BitVec 16) (v : BitVec 12) (p : Pool) (m : VolMeta) (size : BitVec 64) (lid : Nat) (ext : List Nat) (fext : List Nat), s.AdmTurn src tag false ∧ (s.admFree = true ∧ s.poolOf v = some p ∧ s.pool p.cur.id = some p ∧ ((p.nxt.volumes.find? fun m => m.id == v) = some m) ∧ m.size ≤ size.toNat ∧ size.toNat ≤ 2 ^ 48 ∧ p.nxt.frond = none) ∧ s.extentsFor p v size.toNat = .ok (lid, ext, fext)) ∧
    (∃ (s : State) (src : AdmSrc) (tag : BitVec 16) (v : BitVec 12) (p : Pool) (m : VolMeta) (size : BitVec 64) (lid : Nat) (ext : List Nat) (fext : List Nat), s.AdmTurn src tag false ∧ (s.admFree = true ∧ s.poolOf v = some p ∧ s.pool p.cur.id = some p ∧ ((p.nxt.volumes.find? fun m => m.id == v) = some m) ∧ m.size ≤ size.toNat ∧ size.toNat ≤ 2 ^ 48 ∧ p.nxt.frond = none) ∧ s.extentsFor p v size.toNat = .ok (lid, ext, fext)) :=
  ⟨⟨{ withPool poolBig with rop := Rop.reset }, (.ring a0), 3, 0x022, poolBig, 1, 1, [1], [], by simp only [State.AdmTurn]; decide +kernel, by decide +kernel, rfl, by decide +kernel⟩,
   ⟨(withPool poolBig), .mctp, 3, 0x022, poolBig, 1, 1, [1], [], 0x011, peer0, by simp only [State.AdmTurn]; decide +kernel, by decide +kernel, rfl, by decide +kernel⟩,
   ⟨(withCmd cmd0), .mctp, 3, 0x021, pool0, vol0, by simp only [State.AdmTurn]; decide +kernel, by decide +kernel⟩,
   ⟨onl, .mctp, 3, 0x021, pool0, vol0, by simp only [State.AdmTurn]; decide +kernel, by decide +kernel⟩,
   ⟨onl, .mctp, 3, 0x021, pool0, vol0, 5, 2, { attrs0 with fault := 2 }, by simp only [State.AdmTurn]; decide +kernel, by decide +kernel⟩,
   ⟨onl, .mctp, 3, 0x021, pool0, vol0, 3, by simp only [State.AdmTurn]; decide +kernel, by decide +kernel⟩,
   ⟨onl, .mctp, 3, 0x021, pool0, vol0, 63, by simp only [State.AdmTurn]; decide +kernel, by decide +kernel⟩,
   ⟨(withPool poolBig), .mctp, 3, 0x021, poolBig, vol0, (256 * 33), 1, [0, 1], [], by simp only [State.AdmTurn]; decide +kernel, by decide +kernel, rfl⟩,
   ⟨(withPool poolBig), .mctp, 3, 0x021, poolBig, vol0, 64, 1, [0], [], by simp only [State.AdmTurn]; decide +kernel, by decide +kernel, rfl⟩⟩

theorem test_hyp_StagedObjects :
    (∃ (s : State) (src : AdmSrc) (tag : BitVec 16) (addr : BitVec 64) (obj : ObjKind) (off : BitVec 32) (len : BitVec 32) (bs : List Byte), s.AdmTurn src tag true ∧ Memory.wf s.mgt.staging = true ∧ addr.toNat % 64 = 0 ∧ len.toNat % 4096 = 0 ∧ len.toNat ≤ 1048576 ∧ off.toNat % 4096 = 0 ∧ off.toNat + len.toNat ≤ 16777216 ∧ bs.length = len.toNat ∧ (s.mgt.stagObj = none ∨ s.mgt.stagObj = some obj)) ∧
    (∃ (s : State) (src : AdmSrc) (tag : BitVec 16) (addr : BitVec 64) (obj : ObjKind) (off : BitVec 32) (len : BitVec 32) (bs : List Byte), s.AdmTurn src tag true ∧ Memory.wf s.mgt.staging = true ∧ addr.toNat % 64 = 0 ∧ len.toNat % 4096 = 0 ∧ len.toNat ≤ 1048576 ∧ off.toNat % 4096 = 0 ∧ off.toNat + len.toNat ≤ 16777216 ∧ bs.length = len.toNat ∧ (s.mgt.stagObj = none ∨ s.mgt.stagObj = some obj)) ∧
    (∃ (s : State) (_ : ObjKind) (off : BitVec 32) (bs : List Byte), (s.configured = true ∨ s.phase = .trustBoot ∧ s.mgt.bootHalt = true) ∧ Memory.wf s.mgt.staging = true ∧ off.toNat + bs.length ≤ 16777216) ∧
    (∃ (s : State) (_ : ObjKind) (off : BitVec 32) (bs : List Byte), (s.configured = true ∨ s.phase = .trustBoot ∧ s.mgt.bootHalt = true) ∧ Memory.wf s.mgt.staging = true ∧ off.toNat + bs.length ≤ 16777216) ∧
    (∃ (s : State) (src : AdmSrc) (tag : BitVec 16) (kind : ObjKind) (len : BitVec 32) (_ : StageWrite) (o : SignedObj) (a : Nat) (old : NvmSlot) (n : NvmSlot), s.AdmTurn src tag true ∧ s.admFree = true ∧ s.NoInjection ∧ len.toNat ≤ 16777216 ∧ s.staged kind len.toNat = o ∧ (s.mgt.dir.active = a ∧ a < 2 ∧ s.mgt.slots.length = 2 ∧ s.mgt.dir.valid.length = 2 ∧ s.mgt.slots[a]? = some old) ∧ n = (match kind with | .firmware => ⟨slotHeader o (old.img.getD ⟨[], []⟩), some o, old.img⟩ | .image => ⟨slotHeader (old.fw.getD ⟨[], []⟩) o, old.fw, some o⟩)) ∧
    (∃ (s : State) (src : AdmSrc) (tag : BitVec 16) (kind : ObjKind) (len : BitVec 32) (_ : StageWrite) (o : SignedObj) (a : Nat) (old : NvmSlot) (n : NvmSlot), s.AdmTurn src tag true ∧ s.admFree = true ∧ s.NoInjection ∧ len.toNat ≤ 16777216 ∧ s.staged kind len.toNat = o ∧ (s.mgt.dir.active = a ∧ a < 2 ∧ s.mgt.slots.length = 2 ∧ s.mgt.dir.valid.length = 2 ∧ s.mgt.slots[a]? = some old) ∧ n = (match kind with | .firmware => ⟨slotHeader o (old.img.getD ⟨[], []⟩), some o, old.img⟩ | .image => ⟨slotHeader (old.fw.getD ⟨[], []⟩) o, old.fw, some o⟩)) :=
  ⟨⟨onl, (.ring a0), 3, 64, .firmware, 0, 4096, (List.replicate 4096 5), by simp only [State.AdmTurn]; decide +kernel, by decide +kernel⟩,
   ⟨onl, .mctp, 3, 64, .firmware, 16777216, 0, [], by simp only [State.AdmTurn]; decide +kernel, by decide +kernel⟩,
   ⟨onl, .firmware, 0, [1, 2], by decide +kernel⟩,
   ⟨{ onl with mgt := { onl.mgt with stagObj := some .image, staging := [(7, 7)] } }, .firmware, 0, [1, 2], by decide +kernel⟩,
   ⟨{ onl with mgt := { onl.mgt with dir := ⟨0, 0, none, 0, [true, true]⟩, slots := [⟨[], none, none⟩, ⟨[], none, none⟩] } }, (.ring a0), 3, .firmware, 0, ⟨true, true⟩, (onl.staged .firmware 0), 0, ⟨[], none, none⟩, ⟨slotHeader (onl.staged .firmware 0) ⟨[], []⟩, some (onl.staged .firmware 0), none⟩, by simp only [State.AdmTurn]; decide +kernel, by decide +kernel, by unfold State.NoInjection; decide +kernel, by decide +kernel, rfl, by decide +kernel, rfl⟩,
   ⟨{ onl with mgt := { onl.mgt with dir := ⟨0, 1, none, 0, [true, true]⟩, slots := [⟨[], none, none⟩, ⟨[], none, none⟩] } }, .mctp, 3, .image, 4096, ⟨false, true⟩, (onl.staged .image 4096), 1, ⟨[], none, none⟩, ⟨slotHeader ⟨[], []⟩ (onl.staged .image 4096), none, some (onl.staged .image 4096)⟩, by simp only [State.AdmTurn]; decide +kernel, by decide +kernel, by unfold State.NoInjection; decide +kernel, by decide +kernel, rfl, by decide +kernel, rfl⟩⟩

theorem test_hyp_Activation :
    (∃ (s : State) (src : AdmSrc) (tag : BitVec 16) (_ : ObjKind) (d : Directory), s.AdmTurn src tag false ∧ s.admFree = true ∧ s.phase = .online ∧ s.mgt.dir.valid[1 - s.mgt.dir.active]? = some true ∧ d = { s.mgt.dir with seq := s.mgt.dir.seq + 1, trial := some (1 - s.mgt.dir.active), attempts := 2 } ∧ (s.jnl.belay ≠ .belayed ∨ s.ownPools = [])) ∧
    (∃ (s : State) (src : AdmSrc) (tag : BitVec 16) (_ : ObjKind) (d : Directory), s.AdmTurn src tag false ∧ s.admFree = true ∧ s.phase = .online ∧ s.mgt.dir.valid[1 - s.mgt.dir.active]? = some true ∧ d = { s.mgt.dir with seq := s.mgt.dir.seq + 1, trial := some (1 - s.mgt.dir.active), attempts := 2 } ∧ s.jnl.belay = .belayed ∧ s.ownPools ≠ [] ∧ s.rop.yielding = none) ∧
    (∃ (s : State) (src : AdmSrc) (tag : BitVec 16) (_ : ObjKind), s.AdmTurn src tag false ∧ s.admFree = true ∧ s.mgt.dir.valid[1 - s.mgt.dir.active]? = some false) ∧
    (∃ (s : State) (_ : ObjKind), s.admFree = true ∧ (s.phase = .online ∨ s.phase = .trustBoot ∧ s.mgt.bootHalt = true)) ∧
    (∃ (s : State) (_ : ObjKind), s.phase = .trustBoot ∧ s.mgt.bootHalt = true ∧ s.mgt.dir.valid[1 - s.mgt.dir.active]? = some true) :=
  ⟨⟨{ onl with mgt := { onl.mgt with dir := ⟨0, 0, none, 0, [true, true]⟩ } }, (.ring a0), 3, .firmware, ⟨1, 0, some 1, 2, [true, true]⟩, by simp only [State.AdmTurn]; decide +kernel, by decide +kernel⟩,
   ⟨{ onl with mgt := { onl.mgt with dir := ⟨0, 0, none, 0, [true, true]⟩ }, jnl := { Jnl.reset with belay := .belayed } }, (.ring a0), 3, .firmware, ⟨1, 0, some 1, 2, [true, true]⟩, by simp only [State.AdmTurn]; decide +kernel, by decide +kernel⟩,
   ⟨onl, .mctp, 3, .image, by simp only [State.AdmTurn]; decide +kernel, by decide +kernel⟩,
   ⟨onl, .image, by decide +kernel⟩,
   ⟨{ atPhase .trustBoot with mgt := { Mgt.reset with bootHalt := true, dir := ⟨0, 0, none, 0, [true, true]⟩ } }, .image, by decide +kernel⟩⟩

theorem test_hyp_DataMovers :
    (∃ (s : State) (ch : Nat) (_ : Nat) (d : Desc) (_ : List BlockData), s.NoInjection ∧ s.chan ch = ⟨.active, some d, []⟩ ∧ d.firstFault s.hbmBytes = none) ∧
    (∃ (s : State) (ch : Nat) (_ : Nat) (d : Desc) (q : List Desc) (_ : List BlockData) (x : ListFault), s.NoInjection ∧ s.chan ch = ⟨.active, some d, q⟩ ∧ d.firstFault s.hbmBytes = some x) ∧
    (∃ (s : State) (ch : Nat) (d : Desc) (q : List Desc) (e : HostErr) (_ : DmvSpace) (side : Bool) (k : Nat) (m : Nat), s.chan ch = ⟨.active, some d, q⟩ ∧ d.purpose = .destage d.port ∧ m = max d.moved (min d.len ((if side then d.dst else d.src).upTo k)) ∧ d.burst < s.reg .dmvRetryN ∧ e ≠ .translation) ∧
    (∃ (s : State) (ch : Nat) (d : Desc) (q : List Desc) (e : HostErr) (_ : DmvSpace) (side : Bool) (k : Nat) (m : Nat), s.chan ch = ⟨.active, some d, q⟩ ∧ d.purpose = .destage d.port ∧ m = max d.moved (min d.len ((if side then d.dst else d.src).upTo k)) ∧ d.burst < s.reg .dmvRetryN ∧ e ≠ .translation) ∧
    (∃ (s : State) (ch : Nat) (d : Desc) (q : List Desc) (e : HostErr) (_ : DmvSpace) (side : Bool) (k : Nat) (m : Nat), s.chan ch = ⟨.active, some d, q⟩ ∧ d.purpose = .destage d.port ∧ m = max d.moved (min d.len ((if side then d.dst else d.src).upTo k)) ∧ (s.reg .dmvRetryN ≤ d.burst ∨ e = .translation)) ∧
    (∃ (s : State) (ch : Nat) (d : Desc) (q : List Desc) (e : HostErr) (_ : DmvSpace) (side : Bool) (k : Nat) (m : Nat), s.chan ch = ⟨.active, some d, q⟩ ∧ d.purpose = .destage d.port ∧ m = max d.moved (min d.len ((if side then d.dst else d.src).upTo k)) ∧ (s.reg .dmvRetryN ≤ d.burst ∨ e = .translation)) ∧
    (∃ (s : State) (ch : Nat) (port : Nat) (pct : Nat) (c : Chan) (d : Desc), s.dmv.chans = [(ch, c)] ∧ c.active = some d ∧ d.space = .memberQ ∧ d.port = port ∧ c.st = .active ∧ s.reg .dmvPaceHwm < pct) ∧
    (∃ (s : State) (ch : Nat) (port : Nat) (pct : Nat) (c : Chan) (d : Desc), s.dmv.chans = [(ch, c)] ∧ c.active = some d ∧ d.space = .memberQ ∧ d.port = port ∧ c.st = .paused ∧ pct < s.reg .dmvPaceLwm) ∧
    (∃ (s : State) (port : PciePort) (tag : BitVec 14) (q : RingRef) (r : Sq), s.Shaped ∧ tget (s.hport port).tags tag = some (.ring q) ∧ s.sq q = some r ∧ s.reg .hifTmoCntN port < 2 ^ 32 - 1) ∧
    (∃ (s : State) (port : PciePort) (tag : BitVec 14), tget (s.hport port).tags tag = none ∧ s.reg .hifLateCntN port < 2 ^ 32 - 1) ∧
    (∃ (s : State) (_ : PciePort) (_ : BitVec 14), s.Shaped) :=
  ⟨⟨(withChan ⟨.active, some desc0, []⟩), 40, 2, desc0, [], by unfold State.NoInjection; decide +kernel, by decide +kernel⟩,
   ⟨(withChan ⟨.active, some { desc0 with len := 4095 }, [desc0]⟩), 40, 2, { desc0 with len := 4095 }, [desc0], [], ⟨true, 0xFFFF, 0, false, 0⟩, by unfold State.NoInjection; decide +kernel, by decide +kernel⟩,
   ⟨(withChan ⟨.active, some desc0, [desc0]⟩), 40, desc0, [desc0], .timeout, .memberQ, true, 3, 4096, by decide +kernel⟩,
   ⟨(withChan ⟨.active, some desc0, []⟩), 40, desc0, [], .timeout, .hbm, false, 0, 0, by decide +kernel⟩,
   ⟨(withChan ⟨.active, some { desc0 with burst := 3 }, [desc0]⟩), 40, { desc0 with burst := 3 }, [desc0], .timeout, .memberQ, true, 3, 4096, by decide +kernel⟩,
   ⟨(withChan ⟨.active, some desc0, []⟩), 40, desc0, [], .translation, .host0, false, 0, 0, by decide +kernel⟩,
   ⟨(withChan ⟨.active, some desc0, []⟩), 40, 3, 100, ⟨.active, some desc0, []⟩, desc0, by decide +kernel⟩,
   ⟨(withChan ⟨.paused, some desc0, []⟩), 40, 3, 0, ⟨.paused, some desc0, []⟩, desc0, by decide +kernel⟩,
   ⟨{ withPort { portUp with tags := [(5, .ring q0)] } with qe := { onl.qe with sqs := [(q0, { sq0 with fetch := .first, pend := true })] } }, 0, 5, q0, { sq0 with fetch := .first, pend := true }, by constructor <;> decide +kernel, by decide +kernel⟩,
   ⟨onl, 0, 5, by decide +kernel⟩,
   ⟨(withPort { portUp with quar := [5, 6] }), 0, 5, by constructor <;> decide +kernel⟩⟩

theorem test_hyp_Translations :
    (∃ (s : State) (port : PciePort) (tag : BitVec 14) (ch : Nat) (d : Desc) (_ : BitVec 64) (_ : BitVec 64) (_ : Nat) (_ : Bool) (_ : Bool), s.Shaped ∧ tget (s.hport port).tags tag = some (.xlat ch) ∧ (s.chan ch).active = some d ∧ (s.chan ch).st = .active ∧ s.descSegs d = none) ∧
    (∃ (s : State) (port : PciePort) (tag : BitVec 14) (q : RingRef) (tg : BitVec 16) (o : HostOut), s.Shaped ∧ tget (s.hport port).tags tag = some (.xlatOut q tg) ∧ s.hif.outs = [o] ∧ o.q = q ∧ o.tag = tg ∧ (q, tg) ∉ s.qe.goneAdm) ∧
    (∃ (s : State) (port : PciePort) (_ : Fn) (_ : BitVec 5) (_ : BitVec 64) (_ : Nat) (_ : Bool), s.Shaped ∧ (s.hport port).invals = [] ∧ (s.hport port).tags = []) ∧
    (∃ (s : State) (port : PciePort) (fn : Fn) (itag : BitVec 5) (ws : List (BitVec 14)), s.Shaped ∧ (s.hport port).invals = [⟨fn, itag, ws⟩] ∧ (∀ w ∈ ws, tget (s.hport port).tags w = none)) ∧
    (∃ (s : State) (port : PciePort) (fn : Fn) (itag : BitVec 5) (ws : List (BitVec 14)), s.Shaped ∧ (s.hport port).invals = [⟨fn, itag, ws⟩] ∧ (∃ w ∈ ws, tget (s.hport port).tags w ≠ none)) :=
  ⟨⟨{ withPort { portUp with tags := [(5, .xlat 40)] } with dmv := { Dmv.reset with chans := [(40, ⟨.active, some desc0, []⟩)] } }, 0, 5, 40, desc0, 4096, 8192, 12, true, true, by constructor <;> decide +kernel, by decide +kernel⟩,
   ⟨{ withPort { portUp with tags := [(5, .xlatOut a0 9)] } with hif := { ({ withPort { portUp with tags := [(5, .xlatOut a0 9)] } with out := [] } : State).hif with outs := [⟨a0, 9, 64, [1], okStat⟩] } }, 0, 5, a0, 9, ⟨a0, 9, 64, [1], okStat⟩, by constructor <;> decide +kernel, by decide +kernel⟩,
   ⟨(withPort { portUp with xlat := [⟨.pf1, 4096, 12, true, true, 0⟩, ⟨.pf1, 8192, 12, true, true, 0⟩, ⟨.pf0, 4096, 12, true, true, 0⟩] }), 0, .pf1, 3, 4096, 12, false, by constructor <;> decide +kernel, by decide +kernel⟩,
   ⟨(withPort { portUp with invals := [⟨.pf1, 3, [5]⟩] }), 0, .pf1, 3, [5], by constructor <;> decide +kernel, by decide +kernel, List.forall_mem_singleton.mpr (by decide +kernel)⟩,
   ⟨(withPort { portUp with invals := [⟨.pf1, 3, [5]⟩], tags := [(5, .ring q0)] }), 0, .pf1, 3, [5], by constructor <;> decide +kernel, by decide +kernel, ⟨5, by decide +kernel, by decide +kernel⟩⟩⟩

theorem test_hyp_PortResets :
    (∃ (s : State) (_ : PciePort), s.Shaped) ∧
    (∃ (s : State) (_ : PciePort), s.Shaped) ∧
    (∃ (s : State) (port : PciePort), s.Shaped ∧ (s.hport port).linkUp = true) ∧
    (∃ (s : State) (port : PciePort), (s.hport port).linkUp = false) ∧
    (∃ (s : State) (_ : PciePort) (_ : Fn), s.Shaped) ∧
    (∃ (s : State) (_ : PciePort), s.Shaped ∧ s.powered = true) :=
  ⟨⟨{ withCmd cmd0 with qe := { onl.qe with outAdm := [(a0, 7)], elig := [⟨q0, q0, some 0, cplOf q0 3 okStat 0, none⟩] } }, 0, by constructor <;> decide +kernel⟩,
   ⟨{ withCmd cmd0 with qe := { onl.qe with outAdm := [(a0, 7)] } }, 0, by constructor <;> decide +kernel⟩,
   ⟨(withCmd cmd0), 0, by constructor <;> decide +kernel, by decide +kernel⟩,
   ⟨{ onl with hif := Hif.reset }, 1, by decide +kernel⟩,
   ⟨{ withCmd cmd0 with qe := { onl.qe with outAdm := [(a0, 7)] } }, 0, .pf0, by constructor <;> decide +kernel⟩,
   ⟨{ onl with pins := State.reset.pins }, 1, by constructor <;> decide +kernel, by decide +kernel⟩⟩

theorem test_hyp_LinksAndRequests :
    (∃ (s : State) (port : PciePort) (rate : Nat) (width : Nat), s.Shaped ∧ s.powered = true ∧ s.pins.perst[port.val]? = some false ∧ rate < 8 ∧ width ≤ 16) ∧
    (∃ (s : State) (port : PciePort) (rate : Nat) (width : Nat), s.Shaped ∧ s.powered = true ∧ s.pins.perst[port.val]? = some false ∧ rate < 8 ∧ width ≤ 16) ∧
    (∃ (s : State) (port : PciePort) (_ : Fn) (_ : FnCfg), s.Shaped ∧ s.powered = true ∧ (s.hport port).ready = true) ∧
    (∃ (s : State) (p : HPort), p ∈ s.linkFactors.hif.ports) ∧
    (∃ (s : State) (port : PciePort) (fn : Fn) (v : Nat), s.Shaped ∧ s.fnServes port fn = true ∧ v < vectors fn ∧ ((s.func port fn).msixEn = true) ∧ ((s.func port fn).fnMask = false) ∧ ((s.func port fn).pba = [v])) ∧
    (∃ (s : State) (port : PciePort), s.reg .hifPoisonCntN port < 2 ^ 32 - 1) ∧
    (∃ (s : State) (port : PciePort) (_ : UrKind), s.reg .hifDropCntN port < 2 ^ 32 - 1) ∧
    (∃ (s : State) (port : PciePort) (_ : UrKind), s.reg .hifDropCntN port < 2 ^ 32 - 1) :=
  ⟨⟨onl, 0, 7, 16, by constructor <;> decide +kernel, by decide +kernel⟩,
   ⟨onl, 1, 0, 0, by constructor <;> decide +kernel, by decide +kernel⟩,
   ⟨onl, 0, .pf1, ⟨512, false, true, true, false, 3, 2⟩, by constructor <;> decide +kernel, by decide +kernel⟩,
   ⟨{ onl with hif := { Hif.reset with ports := [{ portUp with linkPend := true }, portUp] } }, (({ onl with hif := { Hif.reset with ports := [{ portUp with linkPend := true }, portUp] } } : State).linkFactors.hif.ports.headD .reset), by decide +kernel⟩,
   ⟨(withPort { portUp with pf1 := { Func.reset with msixEn := true, pba := [2047] } }), 0, .pf1, 2047, by constructor <;> decide +kernel, by decide +kernel⟩,
   ⟨onl, 0, by decide +kernel⟩,
   ⟨onl, 0, .badWrite, by decide +kernel⟩,
   ⟨onl, 1, .io, by decide +kernel⟩⟩

theorem test_hyp_PowerManagement :
    (∃ (s : State) (port : PciePort) (fn : Fn) (_ : Bool), s.Shaped ∧ ((s.func port fn).d = .d0)) ∧
    (∃ (s : State) (port : PciePort) (fn : Fn) (_ : Bool) (q : RingRef) (r : Sq), s.Shaped ∧ (((s.func port fn).d = .d3hot) ∧ s.qe.sqs = [(q, r)] ∧ q.port = port ∧ q.fn = fn ∧ r.st = .stopped) ∧ (∀ k, s.cq { q with pair := r.cqPair } = some k → k.held = false)) ∧
    (∃ (s : State) (port : PciePort), s.Shaped ∧ (s.hport port).linkUp = true) ∧
    (∃ (s : State) (_ : PciePort) (_ : Fn) (_ : Bool), s.Shaped) :=
  ⟨⟨onl, 0, .pf1, true, by constructor <;> decide +kernel, by decide +kernel⟩,
   ⟨{ withPort { portUp with pf1 := { Func.reset with d := .d3hot } } with qe := { onl.qe with sqs := [(q0, { sq0 with st := .stopped })] } }, 0, .pf1, true, q0, { sq0 with st := .stopped }, by constructor <;> decide +kernel, by decide +kernel, by intro k h; have e := Option.some.inj h; subst e; decide +kernel⟩,
   ⟨(withPort { portUp with pf1 := { Func.reset with d := .d3hot } }), 0, by constructor <;> decide +kernel, by decide +kernel⟩,
   ⟨(withPort { portUp with pf1 := { Func.reset with pmeSt := true } }), 0, .pf1, true, by constructor <;> decide +kernel⟩⟩

theorem test_hyp_RegisterReads :
    (∃ (s : State) (src : Src) (off : BitVec 22), s.RegTurn src off ∧ off ≠ 0x30000) ∧
    (∃ (s : State) (src : Src) (f : Fld) (h : Fld) (v : Nat) (off : BitVec 22), (s.pairHigh f = some (h, v) ∧ off.toNat = f.spec.page + f.spec.off) ∧ s.RegTurn src off ∧ off ≠ 0x30000) ∧
    (∃ (s : State) (src : Src), s.RegTurn src 0x30000) ∧
    (∃ (s : State), s.powered = true ∧ s.reaches .mctp = true) ∧
    (∃ (s : State) (off : BitVec 32) (size : BitVec 8), s.powered = true ∧ s.reaches .mctp = true ∧ (size = 4 ∨ size = 8) ∧ off.toNat % size.toNat = 0 ∧ off.toNat + size.toNat ≤ 2 ^ 22 ∧ off ≠ 0x30000) ∧
    (∃ (s : State) (off : BitVec 32) (size : BitVec 8), s.powered = true ∧ s.reaches .mctp = true ∧ (size = 4 ∨ size = 8) ∧ off.toNat % size.toNat = 0 ∧ off.toNat + size.toNat ≤ 2 ^ 22 ∧ off ≠ 0x30000) ∧
    (∃ (s : State) (off : BitVec 32) (size : BitVec 8), s.powered = true ∧ s.reaches .mctp = true ∧ (size = 4 ∨ size = 8) ∧ off.toNat % size.toNat = 0 ∧ off.toNat + size.toNat ≤ 2 ^ 22 ∧ off ≠ 0x30000) ∧
    (∃ (s : State) (_ : BitVec 32) (size : BitVec 8), s.powered = true ∧ s.reaches .mctp = true ∧ size ≠ 4 ∧ size ≠ 8) ∧
    (∃ (s : State) (_ : BitVec 32) (_ : BitVec 8), s.phase = .trustBoot ∧ s.mgt.bootHalt = true) ∧
    (∃ (s : State) (src : Src) (_ : BitVec 22), s.powered = true ∧ s.reaches src = false ∧ src ≠ .mctp) :=
  ⟨⟨onl, .port0, 0x2101C, by constructor <;> decide +kernel, by decide +kernel⟩,
   ⟨{ onl with ord := { Ord.reset with acc := 2 ^ 32 + 5 } }, .port1, .ordAccLoN, .ordAccHiN, 1, 0x22008, by decide +kernel, by constructor <;> decide +kernel, by decide +kernel⟩,
   ⟨{ onl with tck := { Tck.reset with now := 2 ^ 33 + 7 } }, .port0, by constructor <;> decide +kernel⟩,
   ⟨{ onl with tck := { Tck.reset with now := 2 ^ 33 + 7 } }, by decide +kernel⟩,
   ⟨onl, 0x2E000, 8, by decide +kernel⟩,
   ⟨onl, 0x2E000, 4, by decide +kernel⟩,
   ⟨onl, 0x3FFFF8, 8, by decide +kernel⟩,
   ⟨onl, 0x2E000, 2, by decide +kernel⟩,
   ⟨{ atPhase .trustBoot with mgt := { Mgt.reset with bootHalt := true } }, 0x2E000, 4, by decide +kernel⟩,
   ⟨(withPort { portUp with pf0 := { Func.reset with d := .d3hot } }), .port0, 0x2101C, by decide +kernel⟩⟩

theorem test_hyp_RegisterWrites :
    (∃ (s : State) (src : Src) (off : BitVec 22) (data : BitVec 64) (f : Fld) (e : FSpec) (ix : Nat), s.RegTurn src off ∧ (f, e) ∈ (fieldsAt off.toNat).1 ∧ ix = copyIx src off.toNat (fieldsAt off.toNat).2 ∧ e.acc = .rw ∧ f.legal (e.take (data.setWidth 32)) = true ∧ f ∉ winStaging ∧ f ∉ injSlotFields ∧ e.cls = .tick) ∧
    (∃ (s : State) (src : Src) (off : BitVec 22) (data : BitVec 64) (f : Fld) (e : FSpec) (ix : Nat), s.RegTurn src off ∧ (f, e) ∈ (fieldsAt off.toNat).1 ∧ ix = copyIx src off.toNat (fieldsAt off.toNat).2 ∧ e.acc = .rw ∧ f.legal (e.take (data.setWidth 32)) = true ∧ f ∉ winStaging ∧ f ∉ injSlotFields ∧ e.cls = .staged) ∧
    (∃ (s : State) (src : Src) (off : BitVec 22) (data : BitVec 64) (f : Fld) (e : FSpec) (ix : Nat), s.RegTurn src off ∧ (f, e) ∈ (fieldsAt off.toNat).1 ∧ ix = copyIx src off.toNat (fieldsAt off.toNat).2 ∧ e.acc = .rw ∧ f.legal (e.take (data.setWidth 32)) = true ∧ f ∉ winStaging ∧ f ∉ injSlotFields ∧ e.cls = .now) ∧
    (∃ (s : State) (src : Src) (off : BitVec 22) (data : BitVec 64) (f : Fld) (e : FSpec) (ix : Nat), s.RegTurn src off ∧ (f, e) ∈ (fieldsAt off.toNat).1 ∧ ix = copyIx src off.toNat (fieldsAt off.toNat).2 ∧ e.acc = .rw ∧ f.legal (e.take (data.setWidth 32)) = true ∧ f ∉ winStaging ∧ f ∉ injSlotFields ∧ e.cls = .boot) ∧
    (∃ (s : State) (src : Src) (_ : BitVec 64) (w : Win), s.powered = true ∧ s.reaches src = true ∧ s.rop.winsStg[s.reg .ropWinSelN]? = some w) ∧
    (∃ (s : State) (data : BitVec 64) (x : InjSlot), s.powered = true ∧ s.reaches .mctp = true ∧ s.mgt.inj[s.reg .mgtInjSelSlot]? = some x ∧ (detKinds x.det).contains (data.toNat / 65536 % 16) = true ∧ x.armed = false) ∧
    (∃ (s : State) (data : BitVec 64) (x : InjSlot), s.powered = true ∧ s.reaches .mctp = true ∧ s.mgt.inj[s.reg .mgtInjSelSlot]? = some x ∧ (detKinds x.det).contains (data.toNat / 65536 % 16) = true ∧ x.armed = true) ∧
    (∃ (s : State) (src : Src) (off : BitVec 22) (data : BitVec 64) (f : Fld) (e : FSpec) (ix : Nat), s.RegTurn src off ∧ fieldsAt off.toNat = ([(f, e)], ix) ∧ e.acc = .rw ∧ e.cls ≠ .boot ∧ f.legal (e.take (data.setWidth 32)) = false) ∧
    (∃ (s : State) (src : Src) (off : BitVec 22) (data : BitVec 64) (f : Fld) (e : FSpec) (ix : Nat), s.RegTurn src off ∧ fieldsAt off.toNat = ([(f, e)], ix) ∧ e.acc = .rw ∧ e.cls = .boot ∧ e.take (data.setWidth 32) ≠ s.reg f ix) ∧
    (∃ (s : State) (src : Src) (off : BitVec 22) (_ : BitVec 64), s.RegTurn src off ∧ (∀ e ∈ (fieldsAt off.toNat).1, e.2.acc = .ro ∨ e.2.acc = .rc)) ∧
    (∃ (s : State) (src : Src) (off : BitVec 22) (_ : BitVec 64), s.RegTurn src off ∧ (∀ e ∈ (fieldsAt off.toNat).1, e.2.acc = .ro ∨ e.2.acc = .rc)) ∧
    (∃ (s : State) (src : Src) (off : BitVec 22) (size : Nat) (_ : BitVec 64), s.RegTurn src off ∧ size ≠ 4 ∧ size ≠ 8) ∧
    (∃ (s : State) (src : Src) (off : BitVec 22) (_ : BitVec 64), src ≠ .mctp ∧ s.powered = true ∧ s.fnServes (srcPort src) .pf1 = true ∧ isPage off.toNat = true) ∧
    (∃ (s : State) (off : BitVec 32) (_ : BitVec 64), s.powered = true ∧ s.reaches .mctp = true ∧ isPage off.toNat = true ∧ off.toNat % 4 = 0) :=
  ⟨⟨onl, .port0, 0x25008, 5, .codLaneEnEn, Fld.codLaneEnEn.spec, 0, by constructor <;> decide +kernel, by decide +kernel⟩,
   ⟨onl, .mctp, 0x23010, (80 + 256 * 70), .cchWmStgLwm, Fld.cchWmStgLwm.spec, 0, by constructor <;> decide +kernel, by decide +kernel⟩,
   ⟨onl, .port1, 0x21020, 7, .qeQselQid, Fld.qeQselQid.spec, 0, by constructor <;> decide +kernel, by decide +kernel⟩,
   ⟨onl, .mctp, 0x2B008, 47600, .ropCfgUdpPort, Fld.ropCfgUdpPort.spec, 0, by constructor <;> decide +kernel, by decide +kernel⟩,
   ⟨onl, .port0, 255, Win.reset, by decide +kernel⟩,
   ⟨{ onl with mgt := { onl.mgt with inj := List.replicate 4 { InjSlot.reset with det := 1 } } }, 5, { InjSlot.reset with det := 1 }, by decide +kernel⟩,
   ⟨{ onl with mgt := { onl.mgt with inj := List.replicate 4 { InjSlot.reset with det := 1, armed := true } } }, 5, { InjSlot.reset with det := 1, armed := true }, by decide +kernel⟩,
   ⟨onl, .port0, 0x27018, 0, .seqMissLimitTicks, Fld.seqMissLimitTicks.spec, 0, by constructor <;> decide +kernel, by decide +kernel⟩,
   ⟨onl, .mctp, 0x2A004, 1, .mbrSplitMode, Fld.mbrSplitMode.spec, 0, by constructor <;> decide +kernel, by decide +kernel⟩,
   ⟨onl, .mctp, 0x2A008, 1, by constructor <;> decide +kernel, by decide +kernel⟩,
   ⟨onl, .mctp, 0x30FFC, 1, by constructor <;> decide +kernel, by decide +kernel⟩,
   ⟨onl, .mctp, 0x2A008, 2, 1, by constructor <;> decide +kernel, by decide +kernel⟩,
   ⟨onl, .port0, 0x25008, 1, by decide +kernel⟩,
   ⟨onl, 0x25008, 1, by decide +kernel⟩⟩

theorem test_hyp_StagedSets :
    (∃ (s : State) (src : Src), s.powered = true ∧ s.reaches src = true) ∧
    (∃ (s : State), s.powered = true ∧ s.reaches .port0 = true) ∧
    (∃ (s : State), s.powered = true ∧ s.reaches .port1 = true) ∧
    (∃ (s : State) (x : Snap), s.regs.snaps = [x] ∧ x.set = 0) ∧
    (∃ (s : State) (x : Snap), s.regs.snaps = [x] ∧ x.set = 0 ∧ 10 ≤ x.val .cchWmStgLwm ∧ x.val .cchWmStgLwm < x.val .cchWmStgHwm ∧ x.val .cchWmStgHwm ≤ 95) ∧
    (∃ (s : State) (x : Snap), s.regs.snaps = [x] ∧ x.set = 0 ∧ (¬ (10 ≤ x.val .cchWmStgLwm ∧ x.val .cchWmStgLwm < x.val .cchWmStgHwm ∧ x.val .cchWmStgHwm ≤ 95))) ∧
    (∃ (s : State) (x : Snap), s.regs.snaps = [x] ∧ x.set = 0 ∧ (¬ (10 ≤ x.val .cchWmStgLwm ∧ x.val .cchWmStgLwm < x.val .cchWmStgHwm ∧ x.val .cchWmStgHwm ≤ 95))) :=
  ⟨⟨onl, .port1, by decide +kernel⟩,
   ⟨onl, by decide +kernel⟩,
   ⟨onl, by decide +kernel⟩,
   ⟨(withSnap 80 70), (snap0 80 70), by decide +kernel⟩,
   ⟨(withSnap 95 10), (snap0 95 10), by decide +kernel⟩,
   ⟨(withSnap 96 10), (snap0 96 10), by decide +kernel⟩,
   ⟨(withSnap 70 70), (snap0 70 70), by decide +kernel⟩⟩

theorem test_hyp_ClearedAndArmed :
    (∃ (s : State) (src : Src), s.powered = true ∧ s.reaches src = true) ∧
    (∃ (s : State) (src : Src) (_ : BitVec 4), s.powered = true ∧ s.reaches src = true) ∧
    (∃ (s : State) (src : Src) (_ : BitVec 5), s.powered = true ∧ s.reaches src = true) ∧
    (∃ (s : State) (src : Src) (_ : BitVec 64), (s.powered = true ∧ s.reaches src = true) ∧ s.Shaped) ∧
    (∃ (s : State) (src : Src) (_ : BitVec 64) (lo : BitVec 32), (s.powered = true ∧ s.reaches src = true) ∧ s.Shaped ∧ s.evr.curLo[srcIx src]? = some lo) ∧
    (∃ (s : State), s.qe.failAt.isSome = true) ∧
    (∃ (s : State), s.mgt.bootHalt = true) ∧
    (∃ (s : State), s.rop.conflicts ≠ []) ∧
    (∃ (s : State), s.powered = true ∧ s.reaches .mctp = true) :=
  ⟨⟨{ onl with regs := { onl.regs with vals := [(⟨.mgtErrlogValid, 0⟩, 1), (⟨.mgtErrlogOvf, 0⟩, 1)] } }, .mctp, by decide +kernel⟩,
   ⟨{ onl with regs := { onl.regs with vals := [(⟨.glbAlertFatal, 0⟩, 1), (⟨.glbAlertFailStop, 0⟩, 1)] } }, .mctp, 8, by decide +kernel⟩,
   ⟨{ onl with regs := { onl.regs with vals := [(⟨.tckOvrStatCod, 0⟩, 1), (⟨.tckOvrStatMbr, 0⟩, 1)] } }, .port1, 2, by decide +kernel⟩,
   ⟨onl, .mctp, (2 ^ 40 + 5), by decide +kernel, by constructor <;> decide +kernel⟩,
   ⟨{ onl with evr := { onl.evr with curLo := [1, 2, 3] } }, .mctp, 9, 3, by decide +kernel, by constructor <;> decide +kernel, by decide +kernel⟩,
   ⟨{ onl with qe := { onl.qe with failAt := some 3 } }, by decide +kernel⟩,
   ⟨{ onl with mgt := { onl.mgt with bootHalt := true } }, by decide +kernel⟩,
   ⟨{ onl with rop := { onl.rop with conflicts := [3] } }, by decide +kernel⟩,
   ⟨onl, by decide +kernel⟩⟩

theorem test_hyp_InjectionHiddenFromPorts :
    (∃ (s : State) (src : Src) (off : BitVec 22), src ≠ .mctp ∧ s.powered = true ∧ s.reaches src = true ∧ 0x2F200 ≤ off.toNat ∧ off.toNat ≤ 0x2F2FC ∧ off.toNat % 4 = 0) ∧
    (∃ (s : State) (src : Src) (off : BitVec 22), src ≠ .mctp ∧ s.powered = true ∧ s.reaches src = true ∧ 0x2F200 ≤ off.toNat ∧ off.toNat ≤ 0x2F2FC ∧ off.toNat % 4 = 0) ∧
    (∃ (s : State) (src : Src) (off : BitVec 22) (_ : BitVec 64), src ≠ .mctp ∧ s.powered = true ∧ s.reaches src = true ∧ 0x2F200 ≤ off.toNat ∧ off.toNat ≤ 0x2F2FC ∧ off.toNat % 4 = 0) ∧
    (∃ (_ : State) (src : Src) (_ : Fn) (off : BitVec 22) (_ : Nat) (_ : BitVec 64), src ≠ .mctp ∧ isPage off.toNat = true) :=
  ⟨⟨onl, .port1, 0x2F200, by decide +kernel⟩,
   ⟨onl, .port1, 0x2F2FC, by decide +kernel⟩,
   ⟨onl, .port0, 0x2F20C, 5, by decide +kernel⟩,
   ⟨onl, .port0, .pf1, 0x2F20C, 4, 5, by decide +kernel⟩⟩

theorem test_hyp_MemberCommands :
    (∃ (s : State) (id : Nat) (_ : MStatus) (_ : MPayload) (c : MCmd), s.NoInjection ∧ s.mbr.dead.contains id = false ∧ ((s.mbr.cmds.find? fun c => c.id == id && c.due.isNone) = some c) ∧ (∀ e ∈ s.mbr.done, e.1 ≠ id)) ∧
    (∃ (s : State) (id : Nat) (_ : MStatus) (_ : MPayload), s.mbr.dead.contains id = true ∧ s.reg .mbrLateCntN < 2 ^ 32 - 1) ∧
    (∃ (s : State) (c : MCmd), ((s.mbr.cmds.find? fun x => x.id == c.id) = some c) ∧ ((c.due = none ∧ (s.edge < c.edge + s.reg .mbrTmoTicks ∨ s.timerStands c = true)) ∨ (∃ e, c.due = some e ∧ s.edge < e))) ∧
    (∃ (s : State) (c : MCmd), ((s.mbr.cmds.find? fun x => x.id == c.id) = some c) ∧ ((c.due = none ∧ (s.edge < c.edge + s.reg .mbrTmoTicks ∨ s.timerStands c = true)) ∨ (∃ e, c.due = some e ∧ s.edge < e))) ∧
    (∃ (s : State) (c : MCmd) (m : IMember) (port : Nat) (e : Nat), ((s.mbr.cmds.find? fun x => x.id == c.id) = some c) ∧ c.due = some e ∧ e ≤ s.edge ∧ s.member c.img = some m ∧ (((s.upPorts m).find? fun q => decide (q > c.port)).or (s.upPorts m).head? = some port)) ∧
    (∃ (s : State) (c : MCmd) (m : IMember) (port : Nat), ((s.mbr.cmds.find? fun x => x.id == c.id) = some c) ∧ c.due = none ∧ c.edge + s.reg .mbrTmoTicks ≤ s.edge ∧ s.timerStands c = false ∧ c.inj = false ∧ (s.phase ≠ .failStop ∨ c.op.isWrite = false) ∧ c.purpose ≠ .resvReport c.pool ∧ c.purpose ≠ .preempt c.pool ∧ c.tries < s.reg .mbrRetryN ∧ s.member c.img = some m ∧ (((s.upPorts m).find? fun q => decide (q > c.port)).or (s.upPorts m).head? = some port)) ∧
    (∃ (s : State) (c : MCmd), ((s.mbr.cmds.find? fun x => x.id == c.id) = some c) ∧ c.due = none ∧ c.edge + s.reg .mbrTmoTicks ≤ s.edge ∧ s.timerStands c = false ∧ c.inj = false ∧ s.phase = .failStop ∧ c.op.isWrite = true) ∧
    (∃ (s : State) (num : Nat) (e : Nat) (m : IMember), s.member num = some m ∧ m.lastBroke = some e ∧ m.admitted = true ∧ m.unreach = none ∧ (∀ x ∈ m.paths, x.up = false) ∧ s.mbr.reports.contains (num, 0) = false) ∧
    (∃ (s : State) (num : Nat) (e : Nat) (m : IMember), s.member num = some m ∧ m.unreach = some e ∧ e < s.edge ∧ (s.edge - e) % 125000 = 0 ∧ m.admitted = true ∧ s.placesOf num ≠ []) ∧
    (∃ (s : State) (p : Pool) (i : Nat) (e : Nat) (m : IMember), s.pool p.cur.id = some p ∧ s.img p i = some m ∧ m.spinning = some e ∧ e + s.reg .mbrSpinupTicks ≤ s.edge) :=
  ⟨⟨(withMcmd mcmd0 5), 7, .success, .none, mcmd0, by unfold State.NoInjection; decide +kernel, by decide +kernel⟩,
   ⟨{ onl with mbr := { onl.mbr with dead := [7] } }, 7, .success, .none, by decide +kernel⟩,
   ⟨(withMcmd mcmd0 499999), mcmd0, by decide +kernel⟩,
   ⟨(withMcmd { mcmd0 with due := some 6 } 5), { mcmd0 with due := some 6 }, by decide +kernel⟩,
   ⟨(withMcmd { mcmd0 with due := some 5 } 5), { mcmd0 with due := some 5 }, mem0, 4, 5, by decide +kernel⟩,
   ⟨(withMcmd mcmd0 500000), mcmd0, mem0, 4, by decide +kernel⟩,
   ⟨{ withMcmd { mcmd0 with op := .write true } 500000 with phase := .failStop }, { mcmd0 with op := .write true }, by decide +kernel⟩,
   ⟨{ onl with tck := { Tck.reset with now := 8000 * 625000 }, mbr := { onl.mbr with members := [{ mem0 with lastBroke := some 0, paths := [{ path3 with up := false }] }] } }, 10, 0, { mem0 with lastBroke := some 0, paths := [{ path3 with up := false }] }, by decide +kernel⟩,
   ⟨{ onl with tck := { Tck.reset with now := 8000 * 125000 }, mbr := { onl.mbr with members := [{ mem0 with unreach := some 0 }] } }, 10, 0, { mem0 with unreach := some 0 }, by decide +kernel⟩,
   ⟨{ onl with tck := { Tck.reset with now := 8000 * 3750000 }, mbr := { onl.mbr with members := [{ mem0 with spinning := some 0 }] } }, pool0, 0, 0, { mem0 with spinning := some 0 }, by decide +kernel⟩⟩

theorem test_hyp_MemberPaths :
    (∃ (s : State) (num : Nat) (port : EthPort) (m : IMember), s.member num = some m ∧ (∃ x ∈ m.paths, x.port = port.val ∧ x.up = true)) ∧
    (∃ (s : State) (num : Nat) (port : EthPort) (m : IMember) (x : MPath), s.member num = some m ∧ ((m.paths.find? fun x => x.port == port.val) = some x) ∧ x.up = false ∧ s.linkUp port.val = true ∧ m.admitted = true ∧ m.unreach = none) ∧
    (∃ (s : State) (num : Nat) (port : EthPort) (m : IMember) (x : MPath), s.member num = some m ∧ ((m.paths.find? fun x => x.port == port.val) = some x) ∧ x.up = false ∧ s.linkUp port.val = true ∧ m.admitted = true ∧ m.unreach = none ∧ x.broke + 125000 ≤ s.edge) ∧
    (∃ (s : State) (num : Nat) (port : EthPort) (m : IMember) (x : MPath), s.member num = some m ∧ ((m.paths.find? fun x => x.port == port.val) = some x) ∧ x.up = false ∧ s.linkUp port.val = true ∧ m.admitted = true ∧ m.unreach = none ∧ s.edge < x.broke + 125000) ∧
    (∃ (s : State) (num : Nat) (port : EthPort) (_ : Nat) (x : MPath), s.path num port.val = some x) ∧
    (∃ (s : State) (_ : EthPort), s.configured = true) ∧
    (∃ (s : State) (port : EthPort), s.configured = true ∧ s.isMemberPort port.val = true) ∧
    (∃ (s : State) (port : EthPort), s.configured = true ∧ s.isMemberPort port.val = false) ∧
    (∃ (s : State) (port : EthPort) (_ : BitVec 3) (_ : BitVec 16) (im : Image), s.mgt.image = some im ∧ s.configured = true ∧ s.linkUp port.val = true ∧ s.isMemberPort port.val = true ∧ im.pfcEn = 1) :=
  ⟨⟨{ onl with mbr := { onl.mbr with cmds := [mcmd0] } }, 10, 3, mem0, by decide +kernel⟩,
   ⟨(withMem { mem0 with paths := [{ path3 with up := false }] }), 10, 3, { mem0 with paths := [{ path3 with up := false }] }, { path3 with up := false }, by decide +kernel⟩,
   ⟨{ withMem { mem0 with paths := [{ path3 with up := false, rate := 5, rateK := 2 }] } with tck := { Tck.reset with now := 8000 * 125000 } }, 10, 3, { mem0 with paths := [{ path3 with up := false, rate := 5, rateK := 2 }] }, { path3 with up := false, rate := 5, rateK := 2 }, by decide +kernel⟩,
   ⟨{ withMem { mem0 with paths := [{ path3 with up := false }] } with tck := { Tck.reset with now := 8000 * 124999 } }, 10, 3, { mem0 with paths := [{ path3 with up := false }] }, { path3 with up := false }, by decide +kernel⟩,
   ⟨onl, 10, 3, 50, path3, by decide +kernel⟩,
   ⟨onl, 15, by decide +kernel⟩,
   ⟨onl, 9, by decide +kernel⟩,
   ⟨{ onl with rop := { onl.rop with peers := [(0x011, { peer0 with paths := [⟨10, true, true, 5, 0⟩, ⟨11, true, true, 5, 0⟩] })] } }, 10, by decide +kernel⟩,
   ⟨{ onl with mgt := { onl.mgt with image := some { img0 with pfcEn := 1, memVlan := 0x8000 } } }, 3, 4, 7, { img0 with pfcEn := 1, memVlan := 0x8000 }, by decide +kernel⟩⟩

theorem test_hyp_TapTakesBypass :
    (∃ (s : State) (_ : BitVec 8), s.pins.sysRst = false) ∧
    (∃ (s : State) (_ : BitVec 8), s.pins.sysRst = true) :=
  ⟨⟨onl, 0x02, by decide +kernel⟩,
   ⟨State.reset, 0x33, by decide +kernel⟩⟩

theorem test_hyp_BelayFrames :
    (∃ (s : State) (h : FrameHdr) (p : Peer) (_ : BelaySetupPayload), s.FrameFrom 0x10 h p ∧ p.seen h.seq = false ∧ s.partnerAddr = some h.src) ∧
    (∃ (s : State) (h : FrameHdr) (p : Peer) (_ : BelaySetupPayload), s.FrameFrom 0x10 h p ∧ p.seen h.seq = false ∧ s.partnerAddr ≠ some h.src) ∧
    (∃ (s : State) (h : FrameHdr) (p : Peer) (slot : BitVec 64) (b : Block), s.FrameFrom 0x11 h p ∧ p.seen h.seq = false ∧ blockWhole b = true ∧ s.windowTakes h.src slot.toNat = true ∧ s.NoInjection) ∧
    (∃ (s : State) (h : FrameHdr) (p : Peer) (slot : BitVec 64) (b : Block), s.FrameFrom 0x11 h p ∧ p.seen h.seq = false ∧ blockWhole b = true ∧ s.windowTakes h.src slot.toNat = false) ∧
    (∃ (s : State) (h : FrameHdr) (p : Peer) (_ : BitVec 64) (b : Block), s.FrameFrom 0x11 h p ∧ p.seen h.seq = false ∧ blockWhole b = false) ∧
    (∃ (s : State) (h : FrameHdr) (p : Peer) (_ : BitVec 32) (recs : List JRec), s.FrameFrom 0x12 h p ∧ p.seen h.seq = false ∧ recs.length ≤ 32) ∧
    (∃ (s : State) (h : FrameHdr) (p : Peer) (_ : SealRec), s.FrameFrom 0x13 h p ∧ p.seen h.seq = false) ∧
    (∃ (s : State) (h : FrameHdr) (p : Peer) (_ : BitVec 64), s.FrameFrom 0x14 h p ∧ p.seen h.seq = false) ∧
    (∃ (s : State) (h : FrameHdr) (p : Peer) (_ : BitVec 64), s.FrameFrom 0x15 h p ∧ p.seen h.seq = false) ∧
    (∃ (s : State) (h : FrameHdr) (p : Peer) (_ : BitVec 32) (_ : BitVec 64), s.FrameFrom 0x16 h p ∧ p.seen h.seq = false) ∧
    (∃ (s : State) (h : FrameHdr) (p : Peer) (_ : BitVec 64), s.FrameFrom 0x14 h p ∧ p.seen h.seq = true) ∧
    (∃ (s : State) (h : FrameHdr) (_ : BitVec 64) (_ : BitVec 64) (_ : Block), s.ropeOn = true ∧ s.reg .ropDropCntN < 2 ^ 32 - 1 ∧ s.hdrGood 0x14 h = false) ∧
    (∃ (s : State) (h : FrameHdr) (_ : BitVec 64) (_ : BitVec 64) (_ : Block), s.ropeOn = true ∧ s.reg .ropDropCntN < 2 ^ 32 - 1 ∧ s.hdrGood 0x11 h = false) :=
  ⟨⟨onl, (frm 0x10 1), peer0, ⟨64, 64, 0x010, 0, 1⟩, by constructor <;> decide +kernel, by decide +kernel⟩,
   ⟨{ onl with regs := { onl.regs with vals := [(⟨.ropAddrSelf, 0⟩, 0x010)] } }, (frm 0x10 1), peer0, ⟨64, 64, 0x010, 0, 1⟩, by constructor <;> decide +kernel, by decide +kernel⟩,
   ⟨withWin, (frm 0x11 1), peer0, 3, blk0, by constructor <;> decide +kernel, by decide +kernel, blk0_whole, by decide +kernel, by unfold State.NoInjection; decide +kernel⟩,
   ⟨withWin, (frm 0x11 1), peer0, 4, blk0, by constructor <;> decide +kernel, by decide +kernel, blk0_whole, by decide +kernel⟩,
   ⟨withWin, (frm 0x11 1), peer0, 3, blkBad, by constructor <;> decide +kernel, by decide +kernel, blkBad_not⟩,
   ⟨onl, (frm 0x12 1), peer0, 7, [.retire [1], .retire [2]], by constructor <;> decide +kernel, by decide +kernel⟩,
   ⟨onl, (frm 0x13 1), peer0, rxSeal0.srec, by constructor <;> decide +kernel, by decide +kernel⟩,
   ⟨onl, (frm 0x14 1), peer0, 5, by constructor <;> decide +kernel, by decide +kernel⟩,
   ⟨onl, (frm 0x15 1), peer0, 5, by constructor <;> decide +kernel, by decide +kernel⟩,
   ⟨(withPeer { peer0 with unacked := [unack0] }), (frm 0x16 1), { peer0 with unacked := [unack0] }, 2, 5, by constructor <;> decide +kernel, by decide +kernel⟩,
   ⟨onl, (frm 0x14 0), peer0, 5, by constructor <;> decide +kernel, by decide +kernel⟩,
   ⟨onl, h0, 5, 5, blk0, by decide +kernel⟩,
   ⟨onl, h0, 5, 5, blk0, by decide +kernel⟩⟩

theorem test_hyp_ForwardingFrames :
    (∃ (s : State) (h : FrameHdr) (p : Peer) (_ : BitVec 64) (_ : PciePort) (_ : BitVec 16) (_ : BitVec 16) (_ : List RingUnit), s.FrameFrom 0x20 h p ∧ p.seen h.seq = false) ∧
    (∃ (s : State) (h : FrameHdr) (p : Peer) (fid : BitVec 64) (_ : Nat) (bs : List Block) (c : Cmd) (v : _) (n : _) (nf : _) (l : _), s.FrameFrom 0x21 h p ∧ p.seen h.seq = false ∧ s.NoInjection ∧ s.cmd c.id = some c ∧ bs.all blockWhole = true ∧ s.forwardedAs h.src fid = some c ∧ c.op = .read v n nf l) ∧
    (∃ (s : State) (h : FrameHdr) (p : Peer) (fid : BitVec 64) (_ : Nat) (bs : List Block) (c : Cmd), s.FrameFrom 0x21 h p ∧ p.seen h.seq = false ∧ s.NoInjection ∧ s.cmd c.id = some c ∧ bs.all blockWhole = true ∧ s.forwardedAs h.src fid = none ∧ s.servedFor h.src fid = some c) ∧
    (∃ (s : State) (h : FrameHdr) (p : Peer) (_ : BitVec 64) (_ : Nat) (bs : List Block), s.FrameFrom 0x21 h p ∧ p.seen h.seq = false ∧ bs.all blockWhole = false) ∧
    (∃ (s : State) (h : FrameHdr) (p : Peer) (_ : BitVec 64) (_ : BitVec 16) (_ : BitVec 16) (_ : BitVec 64) (_ : BitVec 32), s.FrameFrom 0x22 h p ∧ p.seen h.seq = false) ∧
    (∃ (s : State) (h : FrameHdr) (p : Peer) (_ : BitVec 12) (_ : BitVec 12), s.FrameFrom 0x28 h p ∧ p.seen h.seq = false) ∧
    (∃ (s : State) (h : FrameHdr) (p : Peer) (_ : BitVec 12) (_ : BitVec 12) (_ : Bool), s.FrameFrom 0x28 h p ∧ p.seen h.seq = false) ∧
    (∃ (s : State) (h : FrameHdr) (p : Peer) (_ : List DirEntry), s.FrameFrom 0x29 h p ∧ p.seen h.seq = false) ∧
    (∃ (s : State) (h : FrameHdr) (p : Peer) (pid : BitVec 16) (_ : BitVec 64), s.FrameFrom 0x30 h p ∧ p.seen h.seq = false ∧ s.partnerAddr = some h.src ∧ (∀ k ∈ s.rop.takeovers, k.pool ≠ pid)) ∧
    (∃ (s : State) (h : FrameHdr) (p : Peer) (y : YieldSt) (_ : List (BitVec 16)), s.FrameFrom 0x31 h p ∧ p.seen h.seq = false ∧ s.rop.yielding = some y ∧ s.partnerAddr = some h.src ∧ y.sentAt ≠ none) :=
  ⟨⟨onl, (frm 0x20 1), peer0, 77, 0, 3, 9, [5], by constructor <;> decide +kernel, by decide +kernel⟩,
   ⟨(withCmd fwd0), (frm 0x21 1), peer0, 77, 3, [blk0], fwd0, 0, 8, false, list1, by constructor <;> decide +kernel, by decide +kernel, by unfold State.NoInjection; decide +kernel, by decide +kernel, by simp [blk0_whole], by decide +kernel⟩,
   ⟨(withCmd served0), (frm 0x21 1), peer0, 77, 3, [blk0], served0, by constructor <;> decide +kernel, by decide +kernel, by unfold State.NoInjection; decide +kernel, by decide +kernel, by simp [blk0_whole], by decide +kernel⟩,
   ⟨(withCmd served0), (frm 0x21 1), peer0, 77, 3, [blkBad], by constructor <;> decide +kernel, by decide +kernel, by simp [blkBad_not]⟩,
   ⟨onl, (frm 0x22 1), peer0, 77, 0x0102, 3, 4, 5, by constructor <;> decide +kernel, by decide +kernel⟩,
   ⟨onl, (frm 0x28 1), peer0, 0x021, 0x011, by constructor <;> decide +kernel, by decide +kernel⟩,
   ⟨{ onl with rop := { onl.rop with claims := [⟨0x022, [0x011], false⟩] } }, (frm 0x28 1), peer0, 0x022, 0x010, false, by constructor <;> decide +kernel, by decide +kernel⟩,
   ⟨onl, (frm 0x29 1), peer0, [⟨0x030, 2, 0x011⟩], by constructor <;> decide +kernel, by decide +kernel⟩,
   ⟨{ onl with rop := { onl.rop with known := [{ meta0 with id := 2 }] } }, (frm 0x30 1), peer0, 2, 5, by constructor <;> decide +kernel, by decide +kernel⟩,
   ⟨(withYield yld0), (frm 0x31 1), peer0, yld0, [1], by constructor <;> decide +kernel, by decide +kernel⟩⟩

theorem test_hyp_PeersAndHeartbeats :
    (∃ (s : State) (h : FrameHdr) (serial : BitVec 128) (per : BitVec 3) (_ : BitVec 8) (_ : List (BitVec 128)), s.ropeOn = true ∧ s.hdrGood 0x01 h = true ∧ s.rop.conflicts.contains serial = false ∧ h.src ≠ s.selfAddr ∧ per.toNat = s.reg .tckCfgPeriod ∧ s.peer h.src = none) ∧
    (∃ (s : State) (h : FrameHdr) (serial : BitVec 128) (per : BitVec 3) (_ : BitVec 8) (_ : List (BitVec 128)) (p : _), s.ropeOn = true ∧ s.hdrGood 0x01 h = true ∧ s.rop.conflicts.contains serial = false ∧ h.src ≠ s.selfAddr ∧ per.toNat = s.reg .tckCfgPeriod ∧ s.peer h.src = some p ∧ p.st = .lost) ∧
    (∃ (s : State) (h : FrameHdr) (serial : BitVec 128) (per : BitVec 3) (_ : BitVec 8) (_ : List (BitVec 128)), s.ropeOn = true ∧ s.hdrGood 0x01 h = true ∧ s.rop.conflicts.contains serial = false ∧ h.src ≠ s.selfAddr ∧ per.toNat ≠ s.reg .tckCfgPeriod ∧ s.phase = .ropeJoin ∧ s.mgt.held = false) ∧
    (∃ (s : State) (h : FrameHdr) (serial : BitVec 128) (_ : BitVec 3) (_ : BitVec 8) (_ : List (BitVec 128)), s.ropeOn = true ∧ s.hdrGood 0x01 h = true ∧ s.rop.conflicts.contains serial = false ∧ h.src = s.selfAddr ∧ serial ≠ s.part.serial ∧ s.phase = .ropeJoin) ∧
    (∃ (s : State) (h : FrameHdr) (serial : BitVec 128) (_ : BitVec 3) (_ : BitVec 8) (_ : List (BitVec 128)), s.ropeOn = true ∧ s.hdrGood 0x01 h = true ∧ s.rop.conflicts.contains serial = false ∧ h.src = s.selfAddr ∧ serial ≠ s.part.serial ∧ s.phase ≠ .ropeJoin) ∧
    (∃ (s : State) (h : FrameHdr) (p : Peer) (_ : Nat) (_ : HbPayload), s.FrameFrom 0x02 h p ∧ s.NoInjection ∧ s.partnerAddr = some h.src) ∧
    (∃ (s : State) (h : FrameHdr) (p : Peer) (_ : Nat) (_ : HbPayload), s.FrameFrom 0x02 h p ∧ s.NoInjection ∧ s.partnerAddr ≠ some h.src) ∧
    (∃ (s : State), s.announceDue = true) ∧
    (∃ (s : State), s.announceDue = false) :=
  ⟨⟨{ onl with rop := Rop.reset }, (frm 1 0), 5, 1, 11, [3], by decide +kernel⟩,
   ⟨(withPeer { peer0 with st := .lost }), (frm 1 0), 5, 1, 11, [3], { peer0 with st := .lost }, by decide +kernel⟩,
   ⟨{ onl with phase := .ropeJoin }, (frm 1 0), 5, 2, 11, [3], by decide +kernel⟩,
   ⟨{ onl with phase := .ropeJoin, regs := { onl.regs with vals := [(⟨.ropAddrSelf, 0⟩, 0x011)] } }, (frm 1 0), 5, 1, 11, [3], by decide +kernel⟩,
   ⟨{ onl with regs := { onl.regs with vals := [(⟨.ropAddrSelf, 0⟩, 0x011)] } }, (frm 1 0), 5, 1, 11, [3], by decide +kernel⟩,
   ⟨(withPeer { peer0 with unacked := [unack0, { unack0 with seq := 1 }, { unack0 with seq := 3 }] }), (frm 2 0), { peer0 with unacked := [unack0, { unack0 with seq := 1 }, { unack0 with seq := 3 }] }, 0, ⟨.failStop, .solo, 0, 0, 1, 2⟩, by constructor <;> decide +kernel, by unfold State.NoInjection; decide +kernel, by decide +kernel⟩,
   ⟨{ onl with regs := { onl.regs with vals := [(⟨.ropAddrSelf, 0⟩, 0x010)] } }, (frm 2 0), peer0, 0, ⟨.online, .solo, 0, 0, 1, 2⟩, by constructor <;> decide +kernel, by unfold State.NoInjection; decide +kernel, by decide +kernel⟩,
   ⟨(atEdge onl 1024), by decide +kernel⟩,
   ⟨(atEdge onl 16), by decide +kernel⟩⟩

theorem test_hyp_LinksOfTheRope :
    (∃ (s : State) (a : BitVec 12) (p : Peer) (u : Unacked), s.peer a = some p ∧ ((p.unacked.find? fun x => x.seq == u.seq) = some u) ∧ u.sent + 4 ≤ s.edge ∧ u.retx < 8) ∧
    (∃ (s : State) (a : BitVec 12) (p : Peer) (u : Unacked), s.peer a = some p ∧ ((p.unacked.find? fun x => x.seq == u.seq) = some u) ∧ u.sent + 4 ≤ s.edge ∧ 8 ≤ u.retx ∧ s.partnerAddr ≠ some a ∧ p.st = .up) ∧
    (∃ (s : State) (a : BitVec 12) (p : Peer) (u : Unacked), s.peer a = some p ∧ ((p.unacked.find? fun x => x.seq == u.seq) = some u) ∧ u.sent + 4 ≤ s.edge ∧ 8 ≤ u.retx ∧ s.partnerAddr = some a ∧ s.jnl.belay ≠ .solo) ∧
    (∃ (s : State) (a : BitVec 12) (p : Peer) (u : Unacked), s.peer a = some p ∧ ((p.unacked.find? fun x => x.seq == u.seq) = some u) ∧ s.edge < u.sent + 4) ∧
    (∃ (s : State) (a : BitVec 12) (p : Peer), s.peer a = some p ∧ p.st = .up ∧ (p.heard + 3 * s.hbInterval a p ≤ s.edge ∨ p.upPaths = [])) ∧
    (∃ (s : State) (a : BitVec 12) (p : Peer), s.peer a = some p ∧ p.st = .up ∧ (p.heard + 3 * s.hbInterval a p ≤ s.edge ∨ p.upPaths = [])) ∧
    (∃ (s : State) (a : BitVec 12) (p : Peer), s.peer a = some p ∧ p.st = .up ∧ s.edge < p.heard + 3 * s.hbInterval a p ∧ p.upPaths ≠ []) ∧
    (∃ (s : State) (a : BitVec 12) (n : Nat) (p : Peer) (x : RPath), s.peer a = some p ∧ ((p.paths.find? fun x => x.n == n) = some x) ∧ x.up = true ∧ (s.linkUp n = false ∨ s.partnerAddr = some a ∧ 3 ≤ x.quiet)) ∧
    (∃ (s : State) (a : BitVec 12) (n : Nat) (p : Peer) (x : RPath), s.peer a = some p ∧ ((p.paths.find? fun x => x.n == n) = some x) ∧ x.up = true ∧ (s.linkUp n = false ∨ s.partnerAddr = some a ∧ 3 ≤ x.quiet)) ∧
    (∃ (s : State) (a : BitVec 12) (n : Nat) (p : Peer) (x : RPath), s.peer a = some p ∧ ((p.paths.find? fun x => x.n == n) = some x) ∧ x.up = false ∧ s.linkUp n = true ∧ (s.partnerAddr ≠ some a ∨ 16 ≤ x.run)) ∧
    (∃ (s : State) (a : BitVec 12) (n : Nat) (p : Peer) (x : RPath), s.peer a = some p ∧ ((p.paths.find? fun x => x.n == n) = some x) ∧ x.up = false ∧ s.partnerAddr = some a ∧ x.run < 16) :=
  ⟨⟨(atEdge (withPeer { peer0 with unacked := [unack0] }) 4), 0x011, { peer0 with unacked := [unack0] }, unack0, by decide +kernel⟩,
   ⟨{ atEdge (withPeer { peer0 with unacked := [{ unack0 with retx := 8 }] }) 4 with regs := State.reset.regs }, 0x011, { peer0 with unacked := [{ unack0 with retx := 8 }] }, { unack0 with retx := 8 }, by decide +kernel⟩,
   ⟨{ atEdge (withPeer { peer0 with unacked := [{ unack0 with retx := 8 }] }) 4 with jnl := { Jnl.reset with belay := .joining } }, 0x011, { peer0 with unacked := [{ unack0 with retx := 8 }] }, { unack0 with retx := 8 }, by decide +kernel⟩,
   ⟨(atEdge (withPeer { peer0 with unacked := [unack0] }) 3), 0x011, { peer0 with unacked := [unack0] }, unack0, by decide +kernel⟩,
   ⟨{ atEdge onl 3 with rop := { onl.rop with claims := [⟨0x022, [0x011], false⟩] } }, 0x011, peer0, by decide +kernel⟩,
   ⟨{ withPeer { peer0 with paths := [] } with ord := { Ord.reset with cmds := [fwd0] } }, 0x011, { peer0 with paths := [] }, by decide +kernel⟩,
   ⟨(atEdge onl 2), 0x011, peer0, by decide +kernel⟩,
   ⟨(withPeer { peer0 with paths := [⟨0, true, false, 5, 3⟩] }), 0x011, 0, { peer0 with paths := [⟨0, true, false, 5, 3⟩] }, ⟨0, true, false, 5, 3⟩, by decide +kernel⟩,
   ⟨{ onl with mbr := Mbr.reset }, 0x011, 0, peer0, ⟨0, true, true, 5, 0⟩, by decide +kernel⟩,
   ⟨(withPeer { peer0 with paths := [⟨0, false, false, 16, 3⟩] }), 0x011, 0, { peer0 with paths := [⟨0, false, false, 16, 3⟩] }, ⟨0, false, false, 16, 3⟩, by decide +kernel⟩,
   ⟨(withPeer { peer0 with paths := [⟨0, false, false, 15, 3⟩] }), 0x011, 0, { peer0 with paths := [⟨0, false, false, 15, 3⟩] }, ⟨0, false, false, 15, 3⟩, by decide +kernel⟩⟩

theorem test_hyp_PartnerAndYield :
    (∃ (s : State) (a : BitVec 12), s.partnerAddr = some a ∧ s.rop.partner = .up ∧ 3 ≤ s.reg .ropHbMissN) ∧
    (∃ (s : State) (a : BitVec 12), s.partnerAddr = some a ∧ s.rop.partner = .up ∧ s.reg .ropHbMissN < 3) ∧
    (∃ (s : State) (a : BitVec 12), s.partnerAddr = some a ∧ s.rop.partner = .suspect false ∧ (if s.selfAddr < a then 3 else 6) ≤ s.reg .ropHbMissN) ∧
    (∃ (s : State) (a : BitVec 12), s.partnerAddr = some a ∧ s.rop.partner = .suspect false ∧ s.reg .ropHbMissN < (if s.selfAddr < a then 3 else 6)) ∧
    (∃ (s : State) (a : BitVec 12) (e : Nat), s.partnerAddr = some a ∧ s.rop.partner = .suspect true ∧ s.rop.checkIds = [] ∧ (∀ p ∈ s.pools, p.yielded = false) ∧ (∃ p ∈ s.ownPools, s.rop.checkOk.contains p.cur.id = false) ∧ s.rop.checkAt = some e ∧ e + 125000 ≤ s.edge) ∧
    (∃ (s : State) (a : BitVec 12), s.partnerAddr = some a ∧ s.rop.partner = .suspect true ∧ s.rop.checkIds = [] ∧ (∀ p ∈ s.pools, p.yielded = false) ∧ (∀ p ∈ s.ownPools, s.rop.checkOk.contains p.cur.id = true)) ∧
    (∃ (s : State) (a : BitVec 12), s.partnerAddr = some a ∧ s.mayJoinPartner a = true ∧ s.rop.setupRx = none ∧ s.rop.setupSent = none) ∧
    (∃ (s : State) (a : BitVec 12) (e : Nat), s.partnerAddr = some a ∧ s.mayJoinPartner a = true ∧ s.rop.setupRx = none ∧ s.rop.setupSent = some e ∧ e + 125000 ≤ s.edge) ∧
    (∃ (s : State) (a : BitVec 12) (e : Nat), s.partnerAddr = some a ∧ s.mayJoinPartner a = true ∧ s.rop.setupRx = none ∧ s.rop.setupSent = some e ∧ s.edge < e + 125000) ∧
    (∃ (s : State) (a : BitVec 12) (x : RxSeal), s.partnerAddr = some a ∧ s.rop.rxSeals = [x] ∧ (s.sealedRecs x.srec).length < x.srec.count.toNat ∧ s.peer a ≠ none ∧ x.refused = true) ∧
    (∃ (s : State) (a : BitVec 12) (x : RxSeal), (s.partnerAddr = some a ∧ s.rop.rxSeals = [x] ∧ (s.sealedRecs x.srec).length < x.srec.count.toNat ∧ s.peer a ≠ none) ∧ x.edge + 2 * max 1 Config.belayDelay ≤ s.edge ∧ x.refused = false ∧ x.naks = 0) ∧
    (∃ (s : State) (a : BitVec 12) (x : RxSeal), (s.partnerAddr = some a ∧ s.rop.rxSeals = [x] ∧ (s.sealedRecs x.srec).length < x.srec.count.toNat ∧ s.peer a ≠ none) ∧ x.edge + 2 * max 1 Config.belayDelay ≤ s.edge ∧ x.refused = false ∧ 1 ≤ x.naks) ∧
    (∃ (s : State) (a : BitVec 12) (x : RxSeal), (s.partnerAddr = some a ∧ s.rop.rxSeals = [x] ∧ (s.sealedRecs x.srec).length < x.srec.count.toNat ∧ s.peer a ≠ none) ∧ s.edge < x.edge + 2 * max 1 Config.belayDelay) ∧
    (∃ (s : State) (a : BitVec 12) (y : YieldSt), s.partnerAddr = some a ∧ s.rop.yielding = some y ∧ y.sentAt = none ∧ s.jnl.belay = .belayed ∧ y.coldDone = true ∧ s.jnl.coldWait = [] ∧ s.jnl.sealedSlots = [] ∧ s.jnl.seals = [] ∧ s.peer a ≠ none ∧ s.flushesDone = true ∧ (∀ p ∈ s.pools, p.cur.id ∈ y.pools → p.settled = true ∨ p.oneCopy = true)) ∧
    (∃ (s : State) (a : BitVec 12) (p : Pool), s.partnerAddr = some a ∧ s.pool p.cur.id = some p ∧ s.phase = .online ∧ s.reg .ropCfgHandback = 1 ∧ p.cur.home = a ∧ s.jnl.belay = .belayed ∧ s.rop.yielding = none ∧ p.yielded = false ∧ s.reg .ropHandbackTicks ≤ p.belayedFor) ∧
    (∃ (s : State) (a : BitVec 12) (p : Pool), s.partnerAddr = some a ∧ s.pool p.cur.id = some p ∧ s.phase = .online ∧ s.reg .ropCfgHandback = 1 ∧ p.cur.home = a ∧ s.jnl.belay = .belayed ∧ s.rop.yielding = none ∧ p.yielded = false ∧ p.belayedFor < s.reg .ropHandbackTicks) ∧
    (∃ (s : State) (y : YieldSt) (e : Nat), s.rop.yielding = some y ∧ y.sentAt = some e ∧ y.reason = 2 ∧ y.ack = false ∧ s.phase = .online ∧ e + s.reg .ropYieldTmoTicks ≤ s.edge) ∧
    (∃ (s : State), s.yieldLate = false) :=
  ⟨⟨(partnerIs .up 3), 0x011, by decide +kernel⟩,
   ⟨(partnerIs .up 2), 0x011, by decide +kernel⟩,
   ⟨(partnerIs (.suspect false) 3), 0x011, by decide +kernel⟩,
   ⟨(partnerIs (.suspect false) 2), 0x011, by decide +kernel⟩,
   ⟨{ partnerIs (.suspect true) 3 with rop := { onl.rop with partner := .suspect true, checkAt := some 0 }, tck := { Tck.reset with now := 8000 * 125000 } }, 0x011, 0, by decide +kernel⟩,
   ⟨{ partnerIs (.suspect true) 3 with rop := { onl.rop with partner := .suspect true, checkOk := [1] } }, 0x011, by decide +kernel⟩,
   ⟨onl, 0x011, by decide +kernel⟩,
   ⟨{ onl with rop := { onl.rop with setupSent := some 0 }, tck := { Tck.reset with now := 8000 * 125000 } }, 0x011, 0, by decide +kernel⟩,
   ⟨{ onl with rop := { onl.rop with setupSent := some 0 }, tck := { Tck.reset with now := 8000 * 124999 } }, 0x011, 0, by decide +kernel⟩,
   ⟨(atEdge (withSeal { rxSeal0 with refused := true }) (2 * max 1 Config.belayDelay)), 0x011, { rxSeal0 with refused := true }, by decide +kernel⟩,
   ⟨(atEdge (withSeal rxSeal0) (2 * max 1 Config.belayDelay)), 0x011, rxSeal0, by decide +kernel, by rw [atEdge_edge _ _ (by decide)]; exact Nat.le_of_eq (Nat.zero_add _), by decide +kernel⟩,
   ⟨(atEdge (withSeal { rxSeal0 with naks := 1 }) (2 * max 1 Config.belayDelay)), 0x011, { rxSeal0 with naks := 1 }, by decide +kernel, by rw [atEdge_edge _ _ (by decide)]; exact Nat.le_of_eq (Nat.zero_add _), by decide +kernel⟩,
   ⟨(atEdge (withSeal rxSeal0) 1), 0x011, rxSeal0, by decide +kernel, by rw [atEdge_edge _ _ (by decide)]; exact Nat.lt_of_lt_of_le (by decide) (Nat.le_trans (Nat.mul_le_mul_left 2 (Nat.le_max_left 1 _)) (Nat.le_add_left _ _))⟩,
   ⟨(withYield { yld0 with sentAt := none }), 0x011, { yld0 with sentAt := none }, by decide +kernel⟩,
   ⟨{ onl with regs := { onl.regs with vals := onl.regs.vals ++ [(⟨.ropCfgHandback, 0⟩, 1)] }, jnl := { Jnl.reset with belay := .belayed }, pools := [{ pool0 with cur := { meta0 with home := 0x011 }, belayedFor := 7500000 }] }, 0x011, { pool0 with cur := { meta0 with home := 0x011 }, belayedFor := 7500000 }, by decide +kernel⟩,
   ⟨{ onl with regs := { onl.regs with vals := onl.regs.vals ++ [(⟨.ropCfgHandback, 0⟩, 1)] }, jnl := { Jnl.reset with belay := .belayed }, pools := [{ pool0 with cur := { meta0 with home := 0x011 }, belayedFor := 7499999 }] }, 0x011, { pool0 with cur := { meta0 with home := 0x011 }, belayedFor := 7499999 }, by decide +kernel⟩,
   ⟨(atEdge (withYield yld0) 125000), yld0, 0, by decide +kernel⟩,
   ⟨(atEdge (withYield yld0) 124999), by decide +kernel⟩⟩

theorem test_hyp_RopeTime :
    (∃ (s : State) (h : FrameHdr) (p : Peer) (_ : Nat) (_ : Nat), s.FrameFrom 0x04 h p ∧ s.NoInjection) ∧
    (∃ (s : State) (h : FrameHdr) (p : Peer) (_ : Nat) (_ : Nat) (_ : Nat) (_ : Bool), s.FrameFrom 0x03 h p ∧ s.NoInjection ∧ s.tck.lock = .free) ∧
    (∃ (s : State) (h : FrameHdr) (p : Peer) (_ : Nat) (_ : Nat) (_ : Nat), s.FrameFrom 0x03 h p ∧ s.NoInjection ∧ (s.tck.lock ≠ .free ∧ s.tck.isRef = false ∧ s.tck.refAddr = h.src ∧ s.tck.ppsLock = false) ∧ (∀ e ∈ s.tck.syncers, e.1 ≠ h.src → e.2 = false)) ∧
    (∃ (s : State) (h : FrameHdr) (p : Peer) (_ : Nat) (t1 : Nat) (t2 : Nat) (t3 : Nat) (t4 : Nat) (q : Nat) (e : Nat) (o : Int), s.FrameFrom 0x05 h p ∧ s.NoInjection ∧ s.tck.sync = some (t1, t2, q, e) ∧ s.tck.reqSent = some t3 ∧ h.src = s.tck.refAddr ∧ s.tck.isRef = false ∧ (bestOf (((⟨(t2 : Int) - t1 + (t4 - t3), ((t2 : Int) - t1 - (t4 - t3)) / 2⟩ : Exchange) :: s.tck.exch).take 16)).map (·.offset) = some o ∧ s.tck.lock = .free ∧ s.phase = .ropeJoin) ∧
    (∃ (s : State) (h : FrameHdr) (p : Peer) (_ : Nat) (t1 : Nat) (t2 : Nat) (t3 : Nat) (t4 : Nat) (q : Nat) (e : Nat) (o : Int), s.FrameFrom 0x05 h p ∧ s.NoInjection ∧ s.tck.sync = some (t1, t2, q, e) ∧ s.tck.reqSent = some t3 ∧ h.src = s.tck.refAddr ∧ s.tck.isRef = false ∧ (bestOf (((⟨(t2 : Int) - t1 + (t4 - t3), ((t2 : Int) - t1 - (t4 - t3)) / 2⟩ : Exchange) :: s.tck.exch).take 16)).map (·.offset) = some o ∧ s.tck.lock = .locked ∧ o.natAbs ≤ 1000000) ∧
    (∃ (s : State) (h : FrameHdr) (p : Peer) (_ : Nat) (t1 : Nat) (t2 : Nat) (t3 : Nat) (t4 : Nat) (q : Nat) (e : Nat) (o : Int), s.FrameFrom 0x05 h p ∧ s.NoInjection ∧ s.tck.sync = some (t1, t2, q, e) ∧ s.tck.reqSent = some t3 ∧ h.src = s.tck.refAddr ∧ s.tck.isRef = false ∧ (bestOf (((⟨(t2 : Int) - t1 + (t4 - t3), ((t2 : Int) - t1 - (t4 - t3)) / 2⟩ : Exchange) :: s.tck.exch).take 16)).map (·.offset) = some o ∧ s.tck.lock = .locked ∧ 1000000 < o.natAbs) ∧
    (∃ (s : State) (h : FrameHdr) (p : Peer) (_ : Nat) (t1 : Nat) (t2 : Nat) (t3 : Nat) (t4 : Nat) (q : Nat) (e : Nat) (o : Int), s.FrameFrom 0x05 h p ∧ s.NoInjection ∧ s.tck.sync = some (t1, t2, q, e) ∧ s.tck.reqSent = some t3 ∧ h.src = s.tck.refAddr ∧ s.tck.isRef = false ∧ (bestOf (((⟨(t2 : Int) - t1 + (t4 - t3), ((t2 : Int) - t1 - (t4 - t3)) / 2⟩ : Exchange) :: s.tck.exch).take 16)).map (·.offset) = some o ∧ s.tck.lock = .acquiring ∧ o.natAbs ≤ 10000 ∧ s.tck.near = 15) ∧
    (∃ (s : State), s.tck.isRef = true ∧ s.ropeOn = true ∧ s.edge % 16 = 0 ∧ s.tck.syncAt ≠ some s.edge) ∧
    (∃ (s : State) (t1 : Nat) (t2 : Nat) (path : Nat) (e : Nat), s.tck.sync = some (t1, t2, path, e) ∧ s.tck.reqSent = none ∧ s.ropeOn = true ∧ e + 8 ≤ s.edge) ∧
    (∃ (s : State), s.tck.isRef = false ∧ (s.tck.lock = .locked ∨ s.tck.lock = .acquiring) ∧ s.tck.lastMsg + 64 < s.edge) ∧
    (∃ (s : State), s.tck.isRef = false ∧ (s.tck.lock = .locked ∨ s.tck.lock = .acquiring) ∧ s.tck.lastMsg + 64 < s.edge) ∧
    (∃ (s : State), s.edge ≤ s.tck.lastMsg + 64) ∧
    (∃ (s : State) (_ : Nat), s.reg .tckCfgPpsEn = 1 ∧ s.tck.lock ≠ .free) ∧
    (∃ (s : State), s.tck.ppsLock = true) :=
  ⟨⟨onl, (frm 4 0), peer0, 0, 55, by constructor <;> decide +kernel, by unfold State.NoInjection; decide +kernel⟩,
   ⟨onl, (frm 3 0), peer0, 0, 1000, 2000, true, by constructor <;> decide +kernel, by unfold State.NoInjection; decide +kernel, by decide +kernel⟩,
   ⟨(withTck { Tck.reset with lock := .locked, refAddr := 0x011 }), (frm 3 0), peer0, 0, 1000, 2000, by constructor <;> decide +kernel, by unfold State.NoInjection; decide +kernel, by decide +kernel, by intro e h; cases h⟩,
   ⟨{ withTck (servo .free) with phase := .ropeJoin }, (frm 5 0), peer0, 0, 0, 1000, 3000, 4000, 10, 0, 0, by constructor <;> decide +kernel, by unfold State.NoInjection; decide +kernel, by decide +kernel⟩,
   ⟨(withTck (servo .locked)), (frm 5 0), peer0, 0, 0, 1000, 3000, 4000, 10, 0, 0, by constructor <;> decide +kernel, by unfold State.NoInjection; decide +kernel, by decide +kernel⟩,
   ⟨(withTck { servo .locked with sync := some (0, 3000000, 10, 0) }), (frm 5 0), peer0, 0, 0, 3000000, 3000, 3000, 10, 0, 1500000, by constructor <;> decide +kernel, by unfold State.NoInjection; decide +kernel, by decide +kernel⟩,
   ⟨(withTck { servo .acquiring with near := 15 }), (frm 5 0), peer0, 0, 0, 1000, 3000, 4000, 10, 0, 0, by constructor <;> decide +kernel, by unfold State.NoInjection; decide +kernel, by decide +kernel⟩,
   ⟨(withTck { Tck.reset with isRef := true }), by decide +kernel⟩,
   ⟨(withTck { servo .locked with reqSent := none, now := 64000 }), 0, 1000, 10, 0, by decide +kernel⟩,
   ⟨(atEdge (withTck { Tck.reset with lock := .locked }) 65), by decide +kernel⟩,
   ⟨(atEdge (withTck { Tck.reset with lock := .acquiring }) 65), by decide +kernel⟩,
   ⟨(atEdge (withTck { Tck.reset with lock := .locked }) 64), by decide +kernel⟩,
   ⟨{ withTck { Tck.reset with lock := .locked } with regs := { onl.regs with vals := [(⟨.tckCfgPpsEn, 0⟩, 1)] } }, 7, by decide +kernel⟩,
   ⟨(withTck { Tck.reset with ppsLock := true }), by decide +kernel⟩⟩

theorem test_hyp_PatrolTimers :
    (∃ (s : State) (pid : BitVec 16) (lid : Nat) (n : Nat) (e : GEntry), ((s.cch.gather.find? fun e => e.isOf pid lid n) = some e) ∧ e.st = .open_ ∧ e.e0 + s.window e.vol ≤ s.edge) ∧
    (∃ (s : State) (pid : BitVec 16) (lid : Nat) (n : Nat) (e : GEntry), ((s.cch.gather.find? fun e => e.isOf pid lid n) = some e) ∧ e.st = .open_ ∧ s.edge < e.e0 + s.window e.vol) ∧
    (∃ (s : State) (p : Pool) (b : BmBit), s.pool p.cur.id = some p ∧ ((p.bitmap.find? fun x => x.vol == b.vol && x.region == b.region) = some b) ∧ b.st = .isSet ∧ s.regionBusy p b.vol b.region = false ∧ (∀ m ∈ p.nxt.members, m.state ≠ .missing ∧ m.state ≠ .returning) ∧ s.jmReady p = true ∧ p.resync.contains (b.vol, b.region) = false ∧ b.touched + s.reg .jnlBmQuietTicks ≤ s.edge) ∧
    (∃ (s : State) (p : Pool) (b : BmBit), s.pool p.cur.id = some p ∧ ((p.bitmap.find? fun x => x.vol == b.vol && x.region == b.region) = some b) ∧ b.st = .isSet ∧ s.regionBusy p b.vol b.region = false ∧ (∀ m ∈ p.nxt.members, m.state ≠ .missing ∧ m.state ≠ .returning) ∧ s.jmReady p = true ∧ p.resync.contains (b.vol, b.region) = false ∧ s.edge < b.touched + s.reg .jnlBmQuietTicks) ∧
    (∃ (s : State) (p : Pool) (i : Nat) (e0 : Nat), s.pool p.cur.id = some p ∧ tget p.missAt i = some e0 ∧ p.memState i = .missing ∧ e0 + s.reg .seqMissLimitTicks ≤ s.edge) ∧
    (∃ (s : State) (p : Pool) (i : Nat) (e0 : Nat), s.pool p.cur.id = some p ∧ tget p.missAt i = some e0 ∧ p.memState i = .missing ∧ s.edge < e0 + s.reg .seqMissLimitTicks) ∧
    (∃ (s : State) (p : Pool) (sc : ScrubMeta), s.pool p.cur.id = some p ∧ p.scrubRun = some sc ∧ s.scrubBusy p = false ∧ p.scrubNext p.scrubList p.scrubPos = none) ∧
    (∃ (s : State) (p : Pool) (sc : ScrubMeta), s.pool p.cur.id = some p ∧ p.scrubRun = some sc ∧ (s.scrubBusy p = true ∨ p.scrubNext p.scrubList p.scrubPos ≠ none)) ∧
    (∃ (s : State) (r : LiveRec) (rest : List LiveRec), s.jnl.live = r :: rest ∧ 786432 ≤ s.jnl.used) ∧
    (∃ (s : State) (r : LiveRec) (rest : List LiveRec), s.jnl.live = r :: rest ∧ s.jnl.used < 786432) :=
  ⟨⟨{ atEdge onl 1024 with cch := { onl.cch with gather := [gent0] } }, 1, 1, 0, gent0, by decide +kernel⟩,
   ⟨{ atEdge onl 1023 with cch := { onl.cch with gather := [gent0] } }, 1, 1, 0, gent0, by decide +kernel⟩,
   ⟨{ atEdge (withPool bitPool) 65536 with mbr := mbr3 }, bitPool, bit0, by decide +kernel⟩,
   ⟨{ atEdge (withPool bitPool) 65535 with mbr := mbr3 }, bitPool, bit0, by decide +kernel⟩,
   ⟨(atEdge (withPool missPool) 7500000), missPool, 2, 0, by decide +kernel⟩,
   ⟨(atEdge (withPool missPool) 7499999), missPool, 2, 0, by decide +kernel⟩,
   ⟨(withPool (scrubPool scrub0)), (scrubPool scrub0), scrub0, by decide +kernel⟩,
   ⟨(withPool { scrubPool { scrub0 with cursor := 7 } with scrubPos := (65536, 2) }), { scrubPool { scrub0 with cursor := 7 } with scrubPos := (65536, 2) }, { scrub0 with cursor := 7 }, by decide +kernel⟩,
   ⟨{ onl with jnl := { Jnl.reset with live := [live0], next := 786432 } }, live0, [], by decide +kernel⟩,
   ⟨{ onl with jnl := { Jnl.reset with live := [live0], next := 786431 } }, live0, [], by decide +kernel⟩⟩

theorem test_hyp_SignaturesInOrder :
    (∃ (s : State) (_ : Bool) (_ : Bool), (s.tru.reqs = [] ∨ s.pins.pwrFail = true)) ∧
    (∃ (s : State) (tag : BitVec 16) (addr : BitVec 64) (len : BitVec 32) (nonce : BitVec 256) (rest : List SigReq) (_ : Bool) (_ : Bool), s.pins.pwrFail = false ∧ s.tru.reqs = .report .mctp tag addr len nonce :: rest ∧ s.tru.q < s.tru.rHi ∧ s.tru.q + 1 < 2 ^ 25 - 1048576) ∧
    (∃ (s : State) (tag : BitVec 16) (addr : BitVec 64) (len : BitVec 32) (nonce : BitVec 256) (rest : List SigReq) (_ : Bool) (_ : Bool), s.pins.pwrFail = false ∧ s.tru.reqs = .report .mctp tag addr len nonce :: rest ∧ s.tru.q < s.tru.rHi ∧ s.tru.q + 1 < 2 ^ 25 - 1048576) ∧
    (∃ (s : State) (tag : BitVec 16) (addr : BitVec 64) (len : BitVec 32) (nonce : BitVec 256) (rest : List SigReq) (_ : Bool) (_ : Bool), s.pins.pwrFail = false ∧ s.tru.reqs = .report .mctp tag addr len nonce :: rest ∧ s.tru.q = s.tru.rHi ∧ s.tru.q + 1 < 2 ^ 25 - 1048576) ∧
    (∃ (s : State) (tag : BitVec 16) (addr : BitVec 64) (len : BitVec 32) (nonce : BitVec 256) (rest : List SigReq) (_ : Bool) (_ : Bool), s.pins.pwrFail = false ∧ s.tru.reqs = .report .mctp tag addr len nonce :: rest ∧ s.tru.q = s.tru.rHi ∧ s.tru.q < 2 ^ 25) ∧
    (∃ (s : State) (tag : BitVec 16) (addr : BitVec 64) (len : BitVec 32) (nonce : BitVec 256) (rest : List SigReq) (_ : Bool) (_ : Bool), s.pins.pwrFail = false ∧ s.tru.reqs = .report .mctp tag addr len nonce :: rest ∧ 2 ^ 25 ≤ s.tru.q) ∧
    (∃ (s : State) (p : Pool) (v : Virek) (rest : List SigReq) (_ : Bool) (_ : Bool), s.pins.pwrFail = false ∧ s.tru.reqs = .virek p.cur.id v :: rest ∧ s.pool p.cur.id = some p) :=
  ⟨⟨onl, true, true, by decide +kernel⟩,
   ⟨(withReqs 5 10 [sigReq 65536]), 3, 64, 65536, 5, [], true, true, by decide +kernel⟩,
   ⟨(withReqs 5 10 [sigReq 64]), 3, 64, 64, 5, [], true, true, by decide +kernel⟩,
   ⟨(withReqs 1024 1024 [sigReq 4096]), 3, 64, 4096, 5, [], true, true, by decide +kernel⟩,
   ⟨(withReqs 1024 1024 [sigReq 4096]), 3, 64, 4096, 5, [], true, true, by decide +kernel⟩,
   ⟨(withReqs (2 ^ 25) (2 ^ 25) [sigReq 4096]), 3, 64, 4096, 5, [], true, true, by decide +kernel⟩,
   ⟨(withReqs 5 10 [.virek 1 virek0]), pool0, virek0, [], true, true, by decide +kernel⟩⟩

theorem test_hyp_RecorderAndStalls :
    (∃ (s : State), 256 ≤ s.evr.waiting ∧ s.vlt.evrLog.length < 3584) ∧
    (∃ (s : State), s.evr.waiting < 256) ∧
    (∃ (s : State), s.norDue = true) ∧
    (∃ (s : State), s.norDue = true) ∧
    (∃ (s : State) (_ : Bool), s.norDue = false) ∧
    (∃ (s : State) (q : RingRef) (k : Cq), s.cq q = some k ∧ k.held = true ∧ 1024 ≤ k.idleEdges ∧ k.stallLogged = false) ∧
    (∃ (s : State) (q : RingRef) (k : Cq), s.cq q = some k ∧ k.held = true ∧ (k.idleEdges < 1024 ∨ k.stallLogged = true)) :=
  ⟨⟨(recent 256), by decide +kernel⟩,
   ⟨(recent 255), by decide +kernel⟩,
   ⟨{ onl with evr := { onl.evr with norWant := true, norDirty := true, next := 5 } }, by decide +kernel⟩,
   ⟨{ onl with evr := { onl.evr with norWant := true, norDirty := true, next := 5 } }, by decide +kernel⟩,
   ⟨onl, true, by decide +kernel⟩,
   ⟨(withCq { cq0 with held := true, idleEdges := 1024 }), q0, { cq0 with held := true, idleEdges := 1024 }, by decide +kernel⟩,
   ⟨(withCq { cq0 with held := true, idleEdges := 1023 }), q0, { cq0 with held := true, idleEdges := 1023 }, by decide +kernel⟩⟩

end Sys2Proof.Tests
end

section
/-!
The state right after reset (R6, R24, R231).
-/
namespace Sys2Proof.Machine

/-- After reset every stored field holds the reset value of its row. -/
theorem State.reset_reg (f : Fld) (ix : Nat) : State.reset.reg f ix = f.spec.reset % 2 ^ 32 := BitVec.toNat_ofNat ..

/-- The lists that stand for a fixed number of things have that many after reset. -/
theorem State.reset_shaped : State.reset.Shaped where
  pins := by decide
  hif := by decide
  vlt := by decide
  mgt := by decide
  evr := by decide
  dmv := by decide
  rop := by decide
  mbr := by decide
  tru := by decide

/-- Settles O6: the units' parts as `State.reset` lists them, the register fields by their rows, the lists by their lengths. -/
theorem resetState : Obligations.ResetState := by
  unfold Obligations.ResetState
  refine ⟨?_, ?_, State.reset_shaped⟩
  · exact ⟨rfl, rfl, rfl, rfl, rfl, rfl, rfl, rfl, rfl, rfl, rfl, rfl, rfl, rfl⟩
  · simp only [State.reset_reg]
    decide

end Sys2Proof.Machine
end

section
/-!
Frames of whole commands, and what a change leaves of the register file: the layer that the facts about reads and writes share.
-/
namespace Sys2Proof.Machine

variable {s t u : State}

/-- The frame of a command that starts and then writes some parts. -/
theorem Frame.of_clr_keep {vs : List Sec} (h : Keep s.clr t vs) : Frame s t (.out :: vs) := by
  have hv : within vs (.out :: vs) = true := List.all_eq_true.mpr fun k hk => List.contains_iff_mem.mpr (List.mem_cons_of_mem _ hk)
  have hclr : Keep s s.clr (.out :: vs) := State.clr_keep.mono (by simp [within])
  exact Frame.of_keep (h.app hv hclr) (List.all_eq_true.mpr fun k hk => List.contains_iff_mem.mpr hk)

/-! ### What a change leaves of the register file -/

theorem OtherFields.refl (s : State) (ks : List RegKey) : OtherFields s s ks := fun _ _ _ => rfl

theorem OtherFields.trans {ks : List RegKey} (h : OtherFields s t ks) (h' : OtherFields t u ks) : OtherFields s u ks :=
  fun f ix hk => (h' f ix hk).trans (h f ix hk)

theorem OtherFields.mono {ks ks' : List RegKey} (h : OtherFields s t ks) (hs : ks ⊆ ks') : OtherFields s t ks' :=
  fun f ix hk => h f ix fun hm => hk (hs hm)

theorem OtherFields.reg_eq {ks : List RegKey} {f : Fld} {ix : Nat} (h : OtherFields s t ks) (hk : (⟨f, ix⟩ : RegKey) ∉ ks) : t.reg f ix = s.reg f ix :=
  congrArg BitVec.toNat (h f ix hk)

/-- Setting one of several fields leaves the others alone. -/
theorem OtherFields.setReg {ks : List RegKey} {f : Fld} {v ix : Nat} (h : OtherFields s t ks) (hk : (⟨f, ix⟩ : RegKey) ∈ ks) : OtherFields s (t.setReg f v ix) ks :=
  h.trans ((t.setReg_other f v ix).mono (List.cons_subset.mpr ⟨hk, List.nil_subset _⟩))

/-- The edge's number follows from TCK's clock and period. -/
theorem OtherFields.edge_eq {ks : List RegKey} (h : OtherFields s t ks) (hk : (⟨.tckCfgPeriod, 0⟩ : RegKey) ∉ ks) (hn : t.tck = s.tck) : t.edge = s.edge := by
  unfold State.edge State.periodNs
  rw [hn, h.reg_eq hk]

theorem State.setReg_edge {f : Fld} (v ix : Nat) (hf : Fld.tckCfgPeriod ≠ f) : (s.setReg f v ix).edge = s.edge :=
  OtherFields.edge_eq (s.setReg_other f v ix) (by simp [hf]) rfl

end Sys2Proof.Machine
end

section
/-!
The register file as the register map shapes it: the rows of the tables, the fields of an offset, which fields form a pair of halves. Facts of the tables of
chapter 20 that reads and writes both rest on.
-/
namespace Sys2Proof.Machine

/-! ### The rows of the register tables -/

/-- No field has two rows. -/
theorem Fld.rows_nodup : (Fld.rows.map (·.1)).Nodup := by decide +kernel

/-- No field that software writes as RW is one of the error latch's own (R396). -/
theorem Fld.rw_not_latch : ∀ e ∈ Fld.rows, e.2.acc = .rw → ∀ k ∈ latchKeys, k.f ≠ e.1 := by decide +kernel

/-- The registers of which each port has its own copy (R389) hold no Boot field. -/
theorem Fld.boot_not_portOwn : ∀ e ∈ Fld.rows, e.2.cls = .boot → ¬(0x21040 ≤ e.2.page + e.2.off ∧ e.2.page + e.2.off ≤ 0x21067) := by decide +kernel

/-- A field is no wider than its register. -/
theorem FSpec.take_lt (e : FSpec) (w : BitVec 32) : e.take w < 2 ^ 32 :=
  Nat.lt_of_le_of_lt (Nat.le_trans (Nat.mod_le ..) (Nat.div_le_self ..)) w.isLt

/-! ### The fields of an offset -/

theorem mem_rows_of_fieldsAt {off : Nat} {e : Fld × FSpec} (h : e ∈ (fieldsAt off).1) : e ∈ Fld.rows :=
  (List.mem_filter.mp h).1

theorem fieldsAt_nodup (off : Nat) : ((fieldsAt off).1.map (·.1)).Nodup :=
  Fld.rows_nodup.sublist (List.filter_sublist.map _)

/-- The fields of an offset around one of them: it stands there once. -/
theorem fieldsAt_split {off : Nat} {f : Fld} {e : FSpec} (h : (f, e) ∈ (fieldsAt off).1) :
    ∃ l r, (fieldsAt off).1 = l ++ (f, e) :: r ∧ f ∉ l.map (·.1) ∧ f ∉ r.map (·.1) := by
  obtain ⟨l, r, hlr⟩ := List.append_of_mem h
  have hn : (l.map (·.1) ++ f :: r.map (·.1)).Nodup := by
    rw [← List.map_cons (f := (·.1)) (a := (f, e)), ← List.map_append, ← hlr]
    exact fieldsAt_nodup off
  obtain ⟨-, hr, hdisjoint⟩ := List.nodup_append.mp hn
  exact ⟨l, r, hlr, fun hm => hdisjoint f hm f List.mem_cons_self rfl, (List.nodup_cons.mp hr).1⟩

/-- A Boot field has one copy, whoever accesses it. -/
theorem copyIx_of_boot {src : Src} {off ix : Nat} {f : Fld} {e : FSpec} (hm : (f, e) ∈ (fieldsAt off).1) (hb : e.cls = .boot) : copyIx src off ix = ix := by
  refine if_neg fun hr => Fld.boot_not_portOwn _ (mem_rows_of_fieldsAt hm) hb ?_
  have ho := (List.mem_filter.mp hm).2
  rw [if_neg (by omega), beq_iff_eq] at ho
  simpa only [ho] using hr

/-! ### Pairs of halves (R37, R155, R248, R384) -/

/-- The low halves, each with its high half. -/
def halfPairs : List (Fld × Fld) :=
  [(.tckNowLoNs, .tckNowHiNs), (.tckEdgeLoN, .tckEdgeHiN), (.seqFrondCurLoVbn, .seqFrondCurHiVbn), (.ordAccLoN, .ordAccHiN),
   (.evrNextLoSeq, .evrNextHiSeq), (.evrOldestLoSeq, .evrOldestHiSeq), (.evrPersistLoSeq, .evrPersistHiSeq)]

/-- The model latches for no other pairs. -/
theorem State.mem_halfPairs {s : State} {f h : Fld} {v : Nat} (hp : s.pairHigh f = some (h, v)) : (f, h) ∈ halfPairs := by
  unfold State.pairHigh at hp
  split at hp <;> cases hp <;> decide

/-- A low half is read-only and fills its register. -/
theorem halfPairs_register : ∀ p ∈ halfPairs, p.1.spec.acc = .ro ∧ fieldsAt (p.1.spec.page + p.1.spec.off) = ([(p.1, p.1.spec)], 0) := by decide +kernel

/-- A high half reads as what the last read of its low half latched. -/
theorem State.fieldVal_high {s : State} {f h : Fld} {ix : Nat} (hp : (f, h) ∈ halfPairs) : s.fieldVal h ix = s.latched h := by
  simp only [halfPairs, List.mem_cons, Prod.mk.injEq, List.not_mem_nil, or_false] at hp
  rcases hp with ⟨-, rfl⟩ | ⟨-, rfl⟩ | ⟨-, rfl⟩ | ⟨-, rfl⟩ | ⟨-, rfl⟩ | ⟨-, rfl⟩ | ⟨-, rfl⟩ <;> rfl

/-! ### Regions of BAR0 (R312) -/

theorem isPage_iff {off : Nat} : isPage off = true ↔ (0x10000 ≤ off ∧ off < 0x11000) ∨ (0x20000 ≤ off ∧ off < 0x31000) := by
  simp only [isPage, Bool.or_eq_true, decide_eq_true_eq]

/-- A register page lies in none of the other regions. -/
theorem isPage_bounds {off : Nat} (h : isPage off = true) : 0x10000 ≤ off ∧ off < 0x31000 := by
  have := isPage_iff.mp h
  omega

end Sys2Proof.Machine
end

section
/-!
Register reads: what a read by a source comes to on a register page, what reading a field leaves, and that the outputs of the command before play no part.
-/
namespace Sys2Proof.Machine

variable {s : State} {src : Src}

/-! ### Reads of one register -/

/-- What a source sees come back from a read (R313, R393). -/
def readReply (src : Src) (v : BitVec 64) : Out := if src = .mctp then .mctpReply true v else .regData src v

/-- A read that is served: within the map, aligned, and the source reaches it. -/
theorem State.readReg_served {off size : Nat} (hp : s.powered = true) (hr : s.reaches src = true) (ha : off % size = 0) (hb : off + size ≤ 2 ^ 22) :
    s.readReg src off size = ((s.iff (decide (off = 0x30000)) State.elapse).barRead src off size).2.emit
      (readReply src ((s.iff (decide (off = 0x30000)) State.elapse).barRead src off size).1) := by
  unfold State.readReg
  rw [if_neg (by rw [hp]; decide), if_neg (by rw [hr]; decide), if_neg (by omega)]
  rfl

theorem State.barRead4_page {off : Nat} (h : isPage off = true) : s.barRead4 src off = s.readWord src off := by
  have := isPage_bounds h
  unfold State.barRead4
  rw [if_neg (by omega), if_pos h]

/-- A 4-byte read on a register page answers the register's word. -/
theorem State.barRead_page {off : Nat} (h : isPage off = true) :
    s.barRead src off 4 = ((s.readWord src off).1.setWidth 64, (s.readWord src off).2) := by
  unfold State.barRead
  rw [State.barRead4_page h]
  rfl

theorem State.readWord_fst (off : Nat) : (s.readWord src off).1 = s.wordVal src off := by
  unfold State.readWord
  dsimp only
  split <;> rfl

theorem State.readWord_snd {off : Nat} (h : hidden src off = false) :
    (s.readWord src off).2 = s.each (fieldsAt off).1 fun s e => s.readEffect e.1 e.2 (copyIx src off (fieldsAt off).2) := by
  unfold State.readWord
  dsimp only
  rw [if_neg (by rw [h]; decide)]

/-- The word of a register that one field fills. -/
theorem State.wordVal_full {off ix : Nat} {f : Fld} {e : FSpec} (h : hidden src off = false) (hf : fieldsAt off = ([(f, e)], ix)) (hlo : e.lo = 0) (hhi : e.hi = 31) :
    s.wordVal src off = w32 (s.fieldVal f (copyIx src off ix)) := by
  unfold State.wordVal
  rw [if_neg (by rw [h]; decide), hf]
  refine BitVec.eq_of_toNat_eq ?_
  simp [FSpec.put, hlo, hhi, w32]

/-! ### What reading a field leaves -/

/-- A low half's read latches its high half. -/
def State.latchHigh (s : State) (h : Fld) (v : Nat) : State := { s with regs := { s.regs with latch := tset s.regs.latch h (w32 v) } }

@[simp] theorem State.latched_latchHigh (h : Fld) (v : Nat) : (s.latchHigh h v).latched h = v % 2 ^ 32 := by
  simp [State.latched, State.latchHigh, w32]

/-- Reading an RC field clears it (R6). -/
def State.clearRc (s : State) (f : Fld) (e : FSpec) (ix : Nat) : State := if e.acc = .rc then s.setReg f 0 ix else s

/-- Reading a field that is a low half latches its high half. -/
def State.latchPair (s : State) (f : Fld) : State := (s.pairHigh f).elim s fun p => s.latchHigh p.1 p.2

theorem State.readEffect_eq (f : Fld) (e : FSpec) (ix : Nat) : s.readEffect f e ix = (s.clearRc f e ix).latchPair f := by
  unfold State.readEffect State.latchPair
  show (match (s.clearRc f e ix).pairHigh f with
    | some (h, v) => (s.clearRc f e ix).latchHigh h v
    | none => s.clearRc f e ix) = _
  cases (s.clearRc f e ix).pairHigh f <;> rfl

/-- Latching a high half changes nothing of the register file but the latches. -/
theorem State.latchPair_regs (f : Fld) :
    (s.latchPair f).regs.vals = s.regs.vals ∧ (s.latchPair f).regs.shadow = s.regs.shadow ∧ (s.latchPair f).regs.snaps = s.regs.snaps := by
  unfold State.latchPair
  cases s.pairHigh f <;> exact ⟨rfl, rfl, rfl⟩

/-- Clearing changes nothing of the register file but the values. -/
theorem State.clearRc_regs (f : Fld) (e : FSpec) (ix : Nat) :
    (s.clearRc f e ix).regs.shadow = s.regs.shadow ∧ (s.clearRc f e ix).regs.snaps = s.regs.snaps := by
  unfold State.clearRc
  split <;> exact ⟨rfl, rfl⟩

/-- Reading a field: an RC field is cleared, nothing else of the fields' values changes. -/
theorem State.readEffect_get (f : Fld) (e : FSpec) (ix : Nat) (g : Fld) (jx : Nat) :
    (s.readEffect f e ix).regs.get g jx = if e.acc = .rc ∧ g = f ∧ jx = ix then 0 else s.regs.get g jx := by
  have hval : (s.readEffect f e ix).regs.get g jx = (s.clearRc f e ix).regs.get g jx := by
    rw [State.readEffect_eq, RegFile.get, (State.latchPair_regs f).1]
    rfl
  rw [hval, State.clearRc]
  by_cases hrc : e.acc = .rc
  · simp only [hrc, if_true, true_and, State.setReg_get]
    rfl
  · simp only [hrc, if_false, false_and]

theorem State.readEffect_shadow (f : Fld) (e : FSpec) (ix : Nat) : (s.readEffect f e ix).regs.shadow = s.regs.shadow := by
  rw [State.readEffect_eq, (State.latchPair_regs f).2.1, (State.clearRc_regs f e ix).1]

theorem State.readEffect_snaps (f : Fld) (e : FSpec) (ix : Nat) : (s.readEffect f e ix).regs.snaps = s.regs.snaps := by
  rw [State.readEffect_eq, (State.latchPair_regs f).2.2, (State.clearRc_regs f e ix).2]

/-- Reading a low half that is not RC latches the high half and does nothing else. -/
theorem State.readEffect_low {f h : Fld} {e : FSpec} {ix v : Nat} (hp : s.pairHigh f = some (h, v)) (ha : e.acc ≠ .rc) :
    s.readEffect f e ix = s.latchHigh h v := by
  rw [State.readEffect_eq, State.clearRc, if_neg ha, State.latchPair, hp]
  rfl

section Fields
variable (l : List (Fld × FSpec)) (ix : Nat)

/-- Reading several fields clears those that are RC and leaves the values of the others. -/
theorem State.each_readEffect_get (g : Fld) (jx : Nat) : ∀ s : State, (s.each l fun s e => s.readEffect e.1 e.2 ix).regs.get g jx =
    if (∃ e ∈ l, e.2.acc = .rc ∧ e.1 = g) ∧ jx = ix then 0 else s.regs.get g jx := by
  induction l with
  | nil => intro s; simp [State.each]
  | cons a r ih =>
    intro s
    show ((s.readEffect a.1 a.2 ix).each r _).regs.get g jx = _
    have hcons : (∃ e ∈ a :: r, e.2.acc = .rc ∧ e.1 = g) ∧ jx = ix ↔
        ((∃ e ∈ r, e.2.acc = .rc ∧ e.1 = g) ∧ jx = ix) ∨ (a.2.acc = .rc ∧ g = a.1 ∧ jx = ix) := by
      simp only [List.mem_cons, or_and_right, exists_or, exists_eq_left]
      rw [and_assoc, or_comm, eq_comm (a := g)]
    rw [ih, State.readEffect_get]
    split
    next hr => rw [if_pos (hcons.mpr (.inl hr))]
    next hr =>
      split
      next ha => rw [if_pos (hcons.mpr (.inr ha))]
      next ha => rw [if_neg fun h => (hcons.mp h).elim hr ha]

theorem State.each_readEffect_shadow : ∀ s : State, (s.each l fun s e => s.readEffect e.1 e.2 ix).regs.shadow = s.regs.shadow := by
  induction l with
  | nil => exact fun s => rfl
  | cons a r ih => exact fun s => (ih _).trans (State.readEffect_shadow ..)

theorem State.each_readEffect_snaps : ∀ s : State, (s.each l fun s e => s.readEffect e.1 e.2 ix).regs.snaps = s.regs.snaps := by
  induction l with
  | nil => exact fun s => rfl
  | cons a r ih => exact fun s => (ih _).trans (State.readEffect_snaps ..)

end Fields

/-- The read of a low half's register latches the high half of the same instant. -/
theorem State.readWord_low {f h : Fld} {v : Nat} (hp : s.pairHigh f = some (h, v)) (hs : hidden src (f.spec.page + f.spec.off) = false) :
    (s.readWord src (f.spec.page + f.spec.off)).2 = s.latchHigh h v := by
  obtain ⟨hro, hat⟩ := halfPairs_register _ (State.mem_halfPairs hp)
  rw [State.readWord_snd hs, hat]
  exact State.readEffect_low hp (by rw [hro]; decide)

/-! ### The outputs of the command before -/

@[simp] theorem State.clr_powered : s.clr.powered = s.powered := rfl
@[simp] theorem State.clr_reaches : s.clr.reaches src = s.reaches src := rfl
theorem State.clr_wordVal (off : Nat) : s.clr.wordVal src off = s.wordVal src off := rfl

theorem State.clr_readEffect (f : Fld) (e : FSpec) (ix : Nat) : s.clr.readEffect f e ix = (s.readEffect f e ix).clr := by
  have hrc : s.clr.clearRc f e ix = (s.clearRc f e ix).clr := by
    unfold State.clearRc
    split <;> rfl
  have hlatch : ∀ u : State, u.clr.latchPair f = (u.latchPair f).clr := by
    intro u
    unfold State.latchPair
    rw [show u.clr.pairHigh f = u.pairHigh f from rfl]
    cases u.pairHigh f <;> rfl
  rw [State.readEffect_eq, State.readEffect_eq, hrc, hlatch]

theorem State.clr_each {α : Type} {f : State → α → State} (hf : ∀ s a, f s.clr a = (f s a).clr) (l : List α) : ∀ s : State, s.clr.each l f = (s.each l f).clr := by
  induction l with
  | nil => exact fun s => rfl
  | cons a r ih =>
    intro s
    show (f s.clr a).each r f = _
    rw [hf, ih]
    rfl

theorem State.clr_readWord (off : Nat) : s.clr.readWord src off = ((s.readWord src off).1, (s.readWord src off).2.clr) := by
  refine Prod.ext ?_ ?_
  · rw [State.readWord_fst, State.readWord_fst, State.clr_wordVal]
  · by_cases h : hidden src off = true
    · unfold State.readWord
      dsimp only
      rw [if_pos h, if_pos h]
    · rw [Bool.not_eq_true] at h
      rw [State.readWord_snd h, State.readWord_snd h]
      exact State.clr_each (fun s e => State.clr_readEffect ..) _ s

theorem State.clr_ddt (port : Nat) : s.clr.ddt port = s.ddt port := by
  have hbody : s.clr.ddtBody port = s.ddtBody port := rfl
  unfold State.ddt
  rw [hbody]
  rfl

@[simp] theorem State.clr_func (port : PciePort) (fn : Fn) : s.clr.func port fn = s.func port fn := rfl

theorem State.clr_recorder (off : Nat) : s.clr.recorder src off = s.recorder src off := rfl

/-- Either answer of a test, without the outputs. -/
theorem State.clr_ite {α : Type} (c : Prop) [Decidable c] (p q : α × State) :
    ((if c then p else q).1, (if c then p else q).2.clr) = if c then (p.1, p.2.clr) else (q.1, q.2.clr) := by
  split <;> rfl

theorem State.clr_barRead4 (off : Nat) : s.clr.barRead4 src off = ((s.barRead4 src off).1, (s.barRead4 src off).2.clr) := by
  unfold State.barRead4
  simp only [State.clr_readWord, State.clr_ddt, State.clr_recorder, State.clr_func, State.clr_ite]

/-- A read answers the same whatever the command before has sent. -/
theorem State.clr_barRead (off size : Nat) : s.clr.barRead src off size = ((s.barRead src off size).1, (s.barRead src off size).2.clr) := by
  unfold State.barRead
  dsimp only
  rw [State.clr_barRead4]
  dsimp only
  rw [State.clr_barRead4, State.clr_ite]

theorem State.RegTurn.clr {off : BitVec 22} (h : s.RegTurn src off) : s.clr.RegTurn src off := ⟨h.powered, h.reaches, h.page, h.aligned, h.shown⟩

/-! ### Rope time (R18, R26) -/

theorem State.periodNs_pos (s : State) : 0 < s.periodNs := Nat.mul_pos (by decide) (Nat.pow_pos (by decide))

/-- The next edge lies ahead. -/
theorem State.now_lt_nextEdge (s : State) : s.tck.now < (s.edge + 1) * s.periodNs := by
  rw [Nat.mul_comm]
  exact Nat.lt_mul_div_succ s.tck.now s.periodNs_pos

/-- When time passes within the tick, the clock does not go back and the next edge does not fall. -/
theorem State.elapse_now (s : State) : s.tck.now ≤ s.elapse.tck.now ∧ s.elapse.tck.now < (s.edge + 1) * s.periodNs := by
  have hlt := s.now_lt_nextEdge
  have hmod := Nat.mod_lt (Config.word s.freeCtr).toNat (Nat.sub_pos_of_lt hlt)
  show s.tck.now ≤ s.tck.now + _ % _ ∧ s.tck.now + _ % _ < _
  omega

/-- Nothing hides rope time. -/
theorem hidden_time (src : Src) : hidden src 0x30000 = false ∧ hidden src 0x30004 = false := by
  cases src <;> decide

/-- The registers of rope time's two halves. -/
theorem fieldsAt_time :
    fieldsAt 0x30000 = ([(.tckNowLoNs, Fld.tckNowLoNs.spec)], 0) ∧ fieldsAt 0x30004 = ([(.tckNowHiNs, Fld.tckNowHiNs.spec)], 0) := by decide +kernel

theorem State.wordVal_timeLo : s.wordVal src 0x30000 = w32 s.tck.now :=
  State.wordVal_full (hidden_time src).1 fieldsAt_time.1 rfl rfl

theorem State.wordVal_timeHi : s.wordVal src 0x30004 = w32 (s.latched .tckNowHiNs) :=
  State.wordVal_full (hidden_time src).2 fieldsAt_time.2 rfl rfl

/-- The read of rope time's low half latches its high half. -/
theorem State.readWord_time : s.readWord src 0x30000 = (w32 s.tck.now, s.latchHigh .tckNowHiNs (s.tck.now / 2 ^ 32)) :=
  Prod.ext ((State.readWord_fst _).trans State.wordVal_timeLo) (State.readWord_low (f := .tckNowLoNs) rfl (hidden_time src).1)

/-- Two words make the number whose halves they are. -/
theorem w32_append (n : Nat) : w32 (n / 2 ^ 32 % 2 ^ 32) ++ w32 n = w64 n := by
  refine BitVec.eq_of_toNat_eq ?_
  rw [BitVec.toNat_append, ← Nat.shiftLeft_add_eq_or_of_lt (w32 n).isLt, Nat.shiftLeft_eq]
  simp only [w32, w64, BitVec.toNat_ofNat]
  omega

/-- An 8-byte read of rope time answers one instant (R37). -/
theorem State.barRead_time : s.barRead .mctp 0x30000 8 = (w64 s.tck.now, ((s.latchHigh .tckNowHiNs (s.tck.now / 2 ^ 32)).readWord .mctp 0x30004).2) := by
  unfold State.barRead
  rw [State.barRead4_page (by decide), State.readWord_time]
  dsimp only
  rw [if_pos rfl, State.barRead4_page (by decide)]
  refine Prod.ext ?_ rfl
  dsimp only
  rw [State.readWord_fst, State.wordVal_timeHi, State.latched_latchHigh]
  exact w32_append _

end Sys2Proof.Machine
end

section
/-!
The commands that read registers, and the obligation on register reads.
-/
namespace Sys2Proof.Machine

/-! ### The commands -/

theorem exec_rcRegisterRead (src : Src) (off : BitVec 22) (s : State) : exec (.rcRegisterRead src off) s = .next (s.clr.readReg src off.toNat 4) := rfl

theorem exec_latchedPairRead (src : Src) (off : BitVec 22) (s : State) : exec (.latchedPairRead src off) s = .next (s.clr.readReg src off.toNat 4) := rfl

theorem exec_mctpBarRead_sized {size : BitVec 8} (h : size = 4 ∨ size = 8) (off : BitVec 32) (s : State) :
    exec (.mctpBarRead size off) s = .next (s.clr.readReg .mctp off.toNat size.toNat) := if_pos (.inl h)

/-- A source's 4-byte read of a register other than rope time's low half. -/
theorem State.RegTurn.readReg {s : State} {src : Src} {off : BitVec 22} (h : s.RegTurn src off) (ht : off.toNat ≠ 0x30000) :
    s.readReg src off.toNat 4 = (s.readWord src off.toNat).2.emit (readReply src ((s.wordVal src off.toNat).setWidth 64)) := by
  have := isPage_bounds h.page
  rw [State.readReg_served h.powered h.reaches h.aligned (by omega), decide_eq_false ht, ← State.readWord_fst]
  show (s.barRead src off.toNat 4).2.emit (readReply src (s.barRead src off.toNat 4).1) = _
  rw [State.barRead_page h.page]

/-- A source's 4-byte read of rope time's low half: some way into the tick, it answers the clock and latches the high half. -/
theorem State.RegTurn.readReg_time {s : State} {src : Src} (h : s.RegTurn src 0x30000) :
    s.readReg src 0x30000 4 = (s.elapse.latchHigh .tckNowHiNs (s.elapse.tck.now / 2 ^ 32)).emit (readReply src ((w32 s.elapse.tck.now).setWidth 64)) := by
  rw [State.readReg_served h.powered h.reaches (by decide) (by decide)]
  show (s.elapse.barRead src 0x30000 4).2.emit (readReply src (s.elapse.barRead src 0x30000 4).1) = _
  rw [State.barRead_page (by decide), State.readWord_time]

/-- A read request from a port that does not serve it ends as unsupported. -/
theorem State.readReg_unreached {s : State} {src : Src} {off size : Nat} (hp : s.powered = true) (hr : s.reaches src = false) (hm : src ≠ .mctp) :
    s.readReg src off size = s.unsupported (srcPort src) true := by
  unfold State.readReg
  rw [if_neg (by rw [hp]; decide), if_pos (by rw [hr]; decide), if_neg hm]

/-- An unsupported request counts in the port's HIF_DROP_CNT and touches no other field. -/
theorem State.unsupported_other (s : State) (port : PciePort) (isRead : Bool) : OtherFields s (s.unsupported port isRead) [⟨.hifDropCntN, port.val⟩] := by
  unfold State.unsupported
  dsimp only
  split <;> exact s.bump_other _ _ _

theorem ne_of_offset_ne {n : Nat} {off c : BitVec n} (h : off ≠ c) : off.toNat ≠ c.toNat := fun e => h (BitVec.eq_of_toNat_eq e)

/-! ### The clauses -/

theorem rcRegisterRead_reads {s : State} {src : Src} {off : BitVec 22} (h : s.RegTurn src off) (ht : off ≠ 0x30000) :
    ∃ t, exec (.rcRegisterRead src off) s = .next t ∧
      t.out = [if src = .mctp then .mctpReply true ((s.wordVal src off.toNat).setWidth 64) else .regData src ((s.wordVal src off.toNat).setWidth 64)] ∧
      (∀ e ∈ (fieldsAt off.toNat).1, e.2.acc = .rc → t.reg e.1 (copyIx src off.toNat (fieldsAt off.toNat).2) = 0) ∧
      (∀ f ix, (∀ e ∈ (fieldsAt off.toNat).1, e.1 = f → e.2.acc ≠ .rc) → t.regs.get f ix = s.regs.get f ix) ∧ t.regs.shadow = s.regs.shadow ∧
      t.regs.snaps = s.regs.snaps ∧ Frame s t [.regs, .out] := by
  have hout : (s.clr.readWord src off.toNat).2.out = [] := State.readWord_keep.same .out (by decide)
  have hsnd := State.readWord_snd (s := s.clr) h.shown
  refine ⟨_, (exec_rcRegisterRead ..).trans (congrArg _ (h.clr.readReg (ne_of_offset_ne ht))), ?_, ?_, ?_, ?_, ?_, ?_⟩
  · rw [State.emit_out, hout, State.clr_wordVal]
    rfl
  · intro e he hrc
    rw [State.reg, State.emit_regs, hsnd, State.each_readEffect_get, if_pos ⟨⟨e, he, hrc, rfl⟩, rfl⟩]
    rfl
  · intro f ix hf
    rw [State.emit_regs, hsnd, State.each_readEffect_get, if_neg]
    · rfl
    · rintro ⟨⟨e, he, hrc, hef⟩, -⟩
      exact hf e he hef hrc
  · rw [State.emit_regs, hsnd, State.each_readEffect_shadow]
    rfl
  · rw [State.emit_regs, hsnd, State.each_readEffect_snaps]
    rfl
  · exact (Frame.of_clr_keep (State.emit_keep.app (by decide) (State.readWord_keep.mono (vs := [.regs]) (ws := [.regs, .out]) (by decide)))).mono (by decide)

theorem latchedPairRead_latches {s : State} {src : Src} {f h : Fld} {v : Nat} {off : BitVec 22} (hp : s.pairHigh f = some (h, v))
    (hoff : off.toNat = f.spec.page + f.spec.off) (hturn : s.RegTurn src off) (ht : off ≠ 0x30000) :
    ∃ t, exec (.latchedPairRead src off) s = .next t ∧ t.latched h = v % 2 ^ 32 ∧ t.fieldVal h 0 = v % 2 ^ 32 ∧ Frame s t [.regs, .out] := by
  have hshown := hturn.shown
  rw [hoff] at hshown
  have hread : (s.clr.readWord src off.toNat).2 = s.clr.latchHigh h v := by
    rw [hoff]
    exact State.readWord_low hp hshown
  have hkeep : Keep s.clr (s.clr.readWord src off.toNat).2 [.regs, .out] := State.readWord_keep.mono (by decide)
  have hlatch : ((s.clr.readWord src off.toNat).2.emit (readReply src ((s.clr.wordVal src off.toNat).setWidth 64))).latched h = v % 2 ^ 32 := by
    rw [hread]
    exact State.latched_latchHigh ..
  refine ⟨_, (exec_latchedPairRead ..).trans (congrArg _ (hturn.clr.readReg (ne_of_offset_ne ht))), hlatch, ?_,
    (Frame.of_clr_keep (State.emit_keep.app (by decide) hkeep)).mono (by decide)⟩
  rw [State.fieldVal_high (State.mem_halfPairs hp)]
  exact hlatch

theorem latchedPairRead_time {s : State} {src : Src} (h : s.RegTurn src 0x30000) :
    ∃ t n, exec (.latchedPairRead src 0x30000) s = .next t ∧ s.tck.now ≤ n ∧ n < (s.edge + 1) * s.periodNs ∧ t.tck = { s.tck with now := n } ∧
      t.latched .tckNowHiNs = n / 2 ^ 32 % 2 ^ 32 ∧
      t.out = [if src = .mctp then .mctpReply true (w64 (n % 2 ^ 32)) else .regData src (w64 (n % 2 ^ 32))] ∧ Frame s t [.regs, .tck, .freeCtr, .out] := by
  obtain ⟨hge, hlt⟩ := s.clr.elapse_now
  have hword : ((w32 s.clr.elapse.tck.now).setWidth 64 : BitVec 64) = w64 (s.clr.elapse.tck.now % 2 ^ 32) := by
    refine BitVec.eq_of_toNat_eq ?_
    simp only [w32, w64, BitVec.toNat_setWidth, BitVec.toNat_ofNat]
  refine ⟨_, s.clr.elapse.tck.now, (exec_latchedPairRead ..).trans (congrArg _ h.clr.readReg_time), hge, hlt, rfl, State.latched_latchHigh .., ?_,
    Frame.of_keep (execLatchedPairRead_keep (off := 0x30000) (congrArg Host.Outcome.next h.clr.readReg_time)) (by decide)⟩
  rw [hword]
  rfl

theorem mctpBarRead_time {s : State} (hp : s.powered = true) (hr : s.reaches .mctp = true) :
    ∃ t n, exec (.mctpBarRead 8 0x30000) s = .next t ∧ s.tck.now ≤ n ∧ n < (s.edge + 1) * s.periodNs ∧ t.tck = { s.tck with now := n } ∧
      t.out = [.mctpReply true (w64 n)] ∧ Frame s t [.regs, .tck, .freeCtr, .out] := by
  obtain ⟨hge, hlt⟩ := s.clr.elapse_now
  have hread : s.clr.readReg .mctp 0x30000 8 = (s.clr.elapse.barRead .mctp 0x30000 8).2.emit (.mctpReply true (w64 s.clr.elapse.tck.now)) := by
    rw [State.readReg_served (s := s.clr) (src := .mctp) hp hr (by decide) (by decide)]
    show (s.clr.elapse.barRead .mctp 0x30000 8).2.emit (readReply .mctp (s.clr.elapse.barRead .mctp 0x30000 8).1) = _
    rw [State.barRead_time]
    rfl
  have hkeep : Keep s.clr.elapse (s.clr.elapse.barRead .mctp 0x30000 8).2 [.regs] := State.barRead_keep
  refine ⟨_, s.clr.elapse.tck.now, (exec_mctpBarRead_sized (.inr rfl) ..).trans (congrArg _ hread), hge, hlt, hkeep.same .tck (by decide), ?_, ?_⟩
  · rw [State.emit_out, hkeep.same .out (by decide)]
    rfl
  · exact Frame.of_keep (execMctpBarRead_keep (size := 8) (off := 0x30000) (congrArg Host.Outcome.next hread)) (by decide)

theorem mctpBarRead_reads {s : State} {off : BitVec 32} {size : BitVec 8} (hp : s.powered = true) (hr : s.reaches .mctp = true) (hz : size = 4 ∨ size = 8)
    (ha : off.toNat % size.toNat = 0) (hb : off.toNat + size.toNat ≤ 2 ^ 22) (ht : off ≠ 0x30000) :
    ∃ t, exec (.mctpBarRead size off) s = .next t ∧ t.out = [.mctpReply true (s.barRead .mctp off.toNat size.toNat).1] ∧ Frame s t [.regs, .out] := by
  have hread : s.clr.readReg .mctp off.toNat size.toNat =
      (s.clr.barRead .mctp off.toNat size.toNat).2.emit (.mctpReply true (s.clr.barRead .mctp off.toNat size.toNat).1) := by
    rw [State.readReg_served (s := s.clr) (src := .mctp) hp hr ha hb, decide_eq_false (show ¬off.toNat = 0x30000 from ne_of_offset_ne ht)]
    rfl
  have hkeep : Keep s.clr (s.clr.barRead .mctp off.toNat size.toNat).2 [.regs] := State.barRead_keep
  refine ⟨_, (exec_mctpBarRead_sized hz ..).trans (congrArg _ hread), ?_,
    (Frame.of_clr_keep (State.emit_keep.app (by decide) (hkeep.mono (ws := [.regs, .out]) (by decide)))).mono (by decide)⟩
  rw [State.emit_out, hkeep.same .out (by decide), State.clr_barRead]
  rfl

theorem mctpBarRead_missized {s : State} {size : BitVec 8} (off : BitVec 32) (hp : s.powered = true) (hr : s.reaches .mctp = true) (h4 : size ≠ 4) (h8 : size ≠ 8) :
    exec (.mctpBarRead size off) s = .next { s with out := [.mctpReply false 0] } := by
  refine if_neg ?_
  rw [State.clr_powered, hp, State.clr_reaches, hr]
  rintro ((h | h) | h | h)
  · exact h4 h
  · exact h8 h
  · cases h
  · cases h

/-- A module that has halted in TRUST_BOOT does not answer over MCTP (R334). -/
theorem mctpBarRead_bootHalt {s : State} (size : BitVec 8) (off : BitVec 32) (ht : s.phase = .trustBoot) (hh : s.mgt.bootHalt = true) :
    exec (.mctpBarRead size off) s = .next { s with out := [] } := by
  have hp : s.clr.powered = true := by simp [State.powered, ht]
  have hr : s.clr.reaches .mctp = false := by simp [State.reaches, ht, hh]
  refine (if_pos (.inr (.inr (by rw [hr]; rfl)))).trans (congrArg _ ?_)
  unfold State.readReg
  rw [if_neg (by rw [hp]; decide), if_pos (by rw [hr]; decide), if_pos rfl]
  rfl

theorem rcRegisterRead_unreached {s : State} {src : Src} (off : BitVec 22) (hp : s.powered = true) (hr : s.reaches src = false) (hm : src ≠ .mctp) :
    ∃ t, exec (.rcRegisterRead src off) s = .next t ∧ t.out = [.ur (srcPort src)] ∧ OtherFields s t [⟨.hifDropCntN, (srcPort src).val⟩] ∧
      Frame s t [.regs, .out] := by
  refine ⟨_, (exec_rcRegisterRead ..).trans (congrArg _ (State.readReg_unreached hp hr hm)), ?_, s.clr.unsupported_other _ _,
    (Frame.of_clr_keep State.unsupported_keep).mono (by decide)⟩
  exact congrArg (· ++ [Out.ur (srcPort src)]) (s.clr.bump_out ..)

/-- Settles O44: each clause is the shape of a read that is served, or the branch of one that is not. -/
theorem registerReads : Obligations.RegisterReads := by
  unfold Obligations.RegisterReads
  exact ⟨fun _ _ _ => rcRegisterRead_reads, fun _ _ _ _ _ _ => latchedPairRead_latches, fun _ _ h => ⟨rfl, latchedPairRead_time h⟩,
    fun _ => mctpBarRead_time, fun _ _ _ => mctpBarRead_reads, fun _ off _ => mctpBarRead_missized off, fun _ off size => mctpBarRead_bootHalt size off,
    fun _ _ off => rcRegisterRead_unreached off⟩

end Sys2Proof.Machine
end

section
/-!
Register writes: what a write by a source comes to on a register page, what judging one field can change, and what the error latch takes.
-/
namespace Sys2Proof.Machine

variable {s t u : State} {src : Src}

/-! ### The error latch (R396) -/

theorem State.bump_shadow (f : Fld) (n ix : Nat) : (s.bump f n ix).regs.shadow = s.regs.shadow := by
  unfold State.bump
  split <;> rfl

theorem State.setReg_shadow (f : Fld) (v ix : Nat) : (s.setReg f v ix).regs.shadow = s.regs.shadow := rfl

theorem State.reject_shadow (src : Src) (code off val : Nat) : (s.reject_ src code off val).regs.shadow = s.regs.shadow := by
  unfold State.reject_
  dsimp only
  split <;> simp only [State.setReg_shadow, State.bump_shadow]

/-- A rejection touches the error latch's fields and no other. -/
theorem State.reject_other (src : Src) (code off val : Nat) : OtherFields s (s.reject_ src code off val) latchKeys := by
  have hcnt : OtherFields s (s.bump .mgtErrlogCntN) latchKeys := (s.bump_other _ _ _).mono (by decide)
  unfold State.reject_
  dsimp only
  split
  · exact hcnt.setReg (by decide)
  · exact ((((((hcnt.setReg (by decide)).setReg (by decide)).setReg (by decide)).setReg (by decide)).setReg (by decide)).setReg (by decide)).setReg (by decide)

theorem pageUnit_lt {off : Nat} (h : off < 2 ^ 32) : pageUnit off < 2 ^ 32 := by
  unfold pageUnit
  split <;> omega

theorem srcIx_lt (src : Src) : srcIx src < 2 ^ 32 := by cases src <;> decide

/-- What the latch holds after a rejection. -/
theorem State.reject_latched {code off val : Nat} (hc : code < 2 ^ 32) (ho : off < 2 ^ 32) (hv : val < 2 ^ 32) :
    Latched s (s.reject_ src code off val) src code off val := by
  have hcnt : OtherFields s (s.bump .mgtErrlogCntN) [⟨.mgtErrlogCntN, 0⟩] := s.bump_other _ _ _
  have hb : ∀ f, f ≠ .mgtErrlogCntN → (s.bump .mgtErrlogCntN).reg f = s.reg f := fun f hf => hcnt.reg_eq (by simpa using hf)
  have hedge : (s.bump .mgtErrlogCntN).edge = s.edge := hcnt.edge_eq (by decide) (by simp)
  unfold Latched State.reject_
  dsimp only
  rw [hb _ (by decide)]
  refine ⟨fun h1 => ?_, fun h1 => ?_⟩
  · rw [if_pos h1]
    simp [State.reg_setReg, hb, h1]
  · rw [if_neg h1]
    have hkept : ∀ {n : Nat}, n < 2 ^ 32 → n % 4294967296 = n := Nat.mod_eq_of_lt
    simp [State.reg_setReg, State.setReg_edge, hedge, hb, srcCode, hkept hc, hkept (pageUnit_lt ho), hkept (srcIx_lt src), hkept ho, hkept hv]

/-- A later change of none of the latch's fields leaves what the latch took. -/
theorem Latched.of_other {code off val : Nat} {ks : List RegKey} (h : Latched s t src code off val) (ho : OtherFields t u ks) (hk : ∀ k ∈ latchKeys, k ∉ ks) :
    Latched s u src code off val := by
  have hr : ∀ k ∈ latchKeys, u.reg k.f k.ix = t.reg k.f k.ix := fun k hm => ho.reg_eq (hk k hm)
  simp only [latchKeys, List.forall_mem_cons] at hr
  obtain ⟨hcode, hunit, hsrc, hovf, hvalid, hoff, hval, hedge, -⟩ := hr
  unfold Latched
  rw [hcode, hunit, hsrc, hovf, hvalid, hoff, hval, hedge]
  exact h

/-- After a rejection the latch is full. -/
theorem Latched.valid {code off val : Nat} (h : Latched s t src code off val) : t.reg .mgtErrlogValid = 1 := by
  by_cases h1 : s.reg .mgtErrlogValid = 1
  · exact (h.1 h1).2.1
  · exact (h.2 h1).1

/-! ### Judging one field (R386) -/

/-- A field's copy holds the value and the pending shadow that it held. -/
def SameField (s t : State) (k : RegKey) : Prop := t.regs.get k.f k.ix = s.regs.get k.f k.ix ∧ tget t.regs.shadow k = tget s.regs.shadow k

theorem SameField.refl (s : State) (k : RegKey) : SameField s s k := ⟨rfl, rfl⟩

theorem SameField.trans {k : RegKey} (h : SameField s t k) (h' : SameField t u k) : SameField s u k := ⟨h'.1.trans h.1, h'.2.trans h.2⟩

theorem SameField.reg_eq {f : Fld} {ix : Nat} (h : SameField s t ⟨f, ix⟩) : t.reg f ix = s.reg f ix := congrArg BitVec.toNat h.1

theorem State.setReg_same {k : RegKey} {f : Fld} {ix : Nat} (v : Nat) (h : k ≠ ⟨f, ix⟩) : SameField s (s.setReg f v ix) k :=
  ⟨s.setReg_other f v ix k.f k.ix (fun hm => h (List.mem_singleton.mp hm)), rfl⟩

theorem State.reject_same {k : RegKey} (code off val : Nat) (h : k ∉ latchKeys) : SameField s (s.reject_ src code off val) k :=
  ⟨s.reject_other src code off val k.f k.ix h, congrArg (tget · k) (s.reject_shadow ..)⟩

/-- A Tick field takes a legal value as a shadow that awaits the next edge (R7). -/
def State.setShadow (s : State) (src : Src) (f : Fld) (ix off v : Nat) (w : BitVec 32) : State :=
  { s with regs := { s.regs with shadow := tset s.regs.shadow ⟨f, ix⟩ (w32 v, src, BitVec.ofNat 22 off, w) } }

section Field
variable (src : Src) (off ix v : Nat) (w : BitVec 32) {f : Fld} {e : FSpec}

/-- A legal value for a field of the plain kind takes effect under the field's class. -/
theorem State.putField_plain (hw : f ∉ winStaging) (hi : f ∉ injSlotFields) (hv : f ≠ .mgtErrlogValid) (ha : e.acc ≠ .w1c) :
    s.putField src f e ix off v w = if e.cls = .tick then s.setShadow src f ix off v w else s.setReg f v ix := by
  unfold State.putField
  split
  -- the branches of the window's staging fields, of the injection slot's fields, of the error latch, and of every other field
  iterate 4 exact absurd (by decide) hw
  iterate 6 exact absurd (by decide) hi
  · exact absurd rfl hv
  · rw [if_neg ha]
    cases e.cls <;> rfl

/-- Giving a field a value leaves the other fields alone, but for the error latch's VALID and OVF. -/
theorem State.putField_same {k : RegKey} (hk : k ≠ ⟨f, ix⟩) (hl : k ∉ latchKeys) : SameField s (s.putField src f e ix off v w) k := by
  have hlatch : ∀ g : Fld, ⟨g, 0⟩ ∈ latchKeys → k ≠ ⟨g, 0⟩ := fun g hg h => hl (h ▸ hg)
  unfold State.putField
  split
  -- windows and injection slots lie outside the register file
  iterate 10 exact ⟨rfl, rfl⟩
  · exact (State.setReg_same _ (hlatch _ (by decide))).trans (State.setReg_same _ (hlatch _ (by decide)))
  · split
    · exact State.setReg_same _ hk
    · split
      · exact ⟨rfl, tget_tset_ne hk⟩
      iterate 3 exact State.setReg_same _ hk

/-- The judgement of an RW field that is no Boot field. -/
theorem State.writeField_rw (ha : e.acc = .rw) (hb : e.cls ≠ .boot) :
    s.writeField src off ix w f e =
      if !f.legal (e.take w) || !s.injLegal f (e.take w) then s.reject_ src 1 off w.toNat else s.putField src f e ix off (e.take w) w := by
  unfold State.writeField
  simp only [ha, hb, if_false]

/-- The judgement of a Boot field: its own value is no write, another is latched (R386). -/
theorem State.writeField_boot (ha : e.acc = .rw) (hb : e.cls = .boot) :
    s.writeField src off ix w f e = if e.take w = s.reg f ix then s else s.reject_ src 2 off w.toNat := by
  unfold State.writeField
  simp only [ha, hb, if_true]

/-- A write to a read-only field is no write. -/
theorem State.writeField_readOnly (ha : e.acc = .ro ∨ e.acc = .rc) : s.writeField src off ix w f e = s := by
  unfold State.writeField
  rcases ha with ha | ha <;> rw [ha]

/-- Judging a field leaves the others alone, but for those of the error latch. -/
theorem State.writeField_same {k : RegKey} (hk : k ≠ ⟨f, ix⟩) (hl : k ∉ latchKeys) : SameField s (s.writeField src off ix w f e) k := by
  unfold State.writeField
  dsimp only
  split
  · exact .refl ..
  · exact .refl ..
  · split
    · split <;> exact ⟨rfl, rfl⟩
    · exact .refl ..
  · split
    · exact State.putField_same _ _ _ _ _ hk hl
    · exact .refl ..
  · split
    · split
      · exact .refl ..
      · exact State.reject_same _ _ _ hl
    · split
      · exact State.reject_same _ _ _ hl
      · exact State.putField_same _ _ _ _ _ hk hl

/-- Only a slot's own fields are judged against the injection slot. -/
theorem State.injLegal_of_plain (hi : f ∉ injSlotFields) : s.injLegal f v = true := by
  unfold State.injLegal
  dsimp only
  split
  iterate 5 exact absurd (by decide) hi
  · rfl

end Field

/-! ### Writes of one register -/

theorem State.writeWord_shown {off : Nat} {w : BitVec 32} (h : hidden src off = false) :
    s.writeWord src off w = s.each (fieldsAt off).1 fun s e => s.writeField src off (copyIx src off (fieldsAt off).2) w e.1 e.2 := by
  unfold State.writeWord
  rw [if_neg (by rw [h]; decide)]

theorem State.each_writeField_same {off ix : Nat} {w : BitVec 32} {k : RegKey} (hl : k ∉ latchKeys) (l : List (Fld × FSpec)) (hk : k.f ∉ l.map (·.1)) :
    ∀ s : State, SameField s (s.each l fun s e => s.writeField src off ix w e.1 e.2) k := by
  induction l with
  | nil => exact fun s => .refl s k
  | cons a r ih =>
    rw [List.map_cons, List.mem_cons, not_or] at hk
    exact fun s => (State.writeField_same src off ix w (fun h => hk.1 (congrArg RegKey.f h)) hl).trans (ih hk.2 _)

/-- A write's effect on one field of the register is the judgement of that field: its neighbours play no part. -/
theorem State.writeWord_at {off ix : Nat} {w : BitVec 32} {f : Fld} {e : FSpec} (hs : hidden src off = false) (hm : (f, e) ∈ (fieldsAt off).1)
    (hix : ix = copyIx src off (fieldsAt off).2) (hl : ⟨f, ix⟩ ∉ latchKeys) :
    ∃ u, SameField s u ⟨f, ix⟩ ∧ SameField (u.writeField src off ix w f e) (s.writeWord src off w) ⟨f, ix⟩ := by
  obtain ⟨l, r, hlr, hfl, hfr⟩ := fieldsAt_split hm
  have hw : s.writeWord src off w = (((s.each l fun s e => s.writeField src off ix w e.1 e.2).writeField src off ix w f e).each r
      fun s e => s.writeField src off ix w e.1 e.2) := by
    rw [State.writeWord_shown hs, ← hix, hlr]
    exact List.foldl_append
  exact ⟨_, State.each_writeField_same hl l hfl s, hw ▸ State.each_writeField_same hl r hfr _⟩

/-- A write to a register that one field fills is the judgement of that field. -/
theorem State.writeWord_single {off ix : Nat} {w : BitVec 32} {f : Fld} {e : FSpec} (hs : hidden src off = false) (hf : fieldsAt off = ([(f, e)], ix)) :
    s.writeWord src off w = s.writeField src off (copyIx src off ix) w f e := by
  rw [State.writeWord_shown hs, hf]
  rfl

/-! ### Writes on a register page -/

theorem State.writeReg_reaches {off size : Nat} {data : BitVec 64} (hp : s.powered = true) (hr : s.reaches src = true) :
    s.writeReg src .pf0 off size data = s.barWrite src .pf0 off size data := by
  unfold State.writeReg
  rw [if_neg (by rw [hp]; decide)]
  cases src
  case mctp => exact if_pos hr
  case port0 => exact if_pos hr
  case port1 => exact if_pos hr

/-- An aligned 4-byte write on a register page is a write of the register's word. -/
theorem State.barWrite_word {off : Nat} {data : BitVec 64} (h : isPage off = true) (ha : off % 4 = 0) :
    s.barWrite src .pf0 off 4 data = s.writeWord src off (data.setWidth 32) := by
  have := isPage_bounds h
  unfold State.barWrite
  dsimp only
  rw [if_neg (by omega), if_neg (by omega), if_neg (by omega), if_neg (by simp), if_pos h, if_neg (by simp [ha]), if_neg (by decide)]

/-- A write of another size than 4 or 8 bytes is latched with code 0x05 and dropped (R397). -/
theorem State.barWrite_missized {off size : Nat} {data : BitVec 64} (h : isPage off = true) (h4 : size ≠ 4) (h8 : size ≠ 8) :
    s.barWrite src .pf0 off size data = (s.reject_ src 5 off (data.setWidth 32 : BitVec 32).toNat).dropWrite src true := by
  have := isPage_bounds h
  unfold State.barWrite
  dsimp only
  rw [if_neg (by omega), if_neg (by omega), if_neg (by omega), if_neg (by simp), if_pos h, if_pos (by simp [h4, h8])]

/-- PF1 has no register pages: a write there is dropped. -/
theorem State.barWrite_pf1 {off size : Nat} {data : BitVec 64} (h : isPage off = true) (hm : src ≠ .mctp) :
    s.barWrite src .pf1 off size data = s.dropWrite src false := by
  have := isPage_bounds h
  unfold State.barWrite
  dsimp only
  rw [if_neg (by omega), if_neg (by omega), if_neg (by omega), if_pos ⟨rfl, hm⟩]

/-- A dropped write counts in the port's HIF_DROP_CNT and touches no other field. -/
theorem State.dropWrite_other (s : State) (src : Src) (aer : Bool) : OtherFields s (s.dropWrite src aer) [⟨.hifDropCntN, (srcPort src).val⟩] := by
  unfold State.dropWrite
  split
  · exact .refl _ _
  · split
    · exact s.unsupported_other _ _
    · exact s.bump_other _ _ _

theorem State.RegTurn.writeReg {off : BitVec 22} {data : BitVec 64} (h : s.RegTurn src off) :
    s.writeReg src .pf0 off.toNat 4 data = s.writeWord src off.toNat (data.setWidth 32) :=
  (State.writeReg_reaches h.powered h.reaches).trans (State.barWrite_word h.page h.aligned)

end Sys2Proof.Machine
end

section
/-!
The commands that write registers, and the obligation on register writes.
-/
namespace Sys2Proof.Machine

theorem exec_registerWrite (src : Src) (fn : Fn) (off : BitVec 22) (size : Nat) (data : BitVec 64) (s : State) :
    exec (.registerWrite src fn off size data) s = .next (s.clr.writeReg src fn off.toNat size data) := rfl

theorem exec_registerWrite_word {s : State} {src : Src} {off : BitVec 22} {data : BitVec 64} (h : s.RegTurn src off) :
    exec (.registerWrite src .pf0 off 4 data) s = .next (s.clr.writeWord src off.toNat (data.setWidth 32)) :=
  (exec_registerWrite ..).trans (congrArg _ h.clr.writeReg)

/-! ### Legal values -/

/-- A legal value of an RW field of the plain kind: it takes effect at once, waits for the edge, or is judged as a Boot field's (R7, R386). -/
theorem registerWrite_legal {s : State} {src : Src} {off : BitVec 22} {data : BitVec 64} {f : Fld} {e : FSpec} {ix : Nat} (h : s.RegTurn src off)
    (hm : (f, e) ∈ (fieldsAt off.toNat).1) (hix : ix = copyIx src off.toNat (fieldsAt off.toNat).2) (ha : e.acc = .rw)
    (hlegal : f.legal (e.take (data.setWidth 32)) = true) (hw : f ∉ winStaging) (hi : f ∉ injSlotFields) :
    ∃ t, exec (.registerWrite src .pf0 off 4 data) s = .next t ∧
      (e.cls = .now ∨ e.cls = .staged → t.reg f ix = e.take (data.setWidth 32)) ∧
      (e.cls = .tick → t.reg f ix = s.reg f ix ∧ tget t.regs.shadow ⟨f, ix⟩ = some (w32 (e.take (data.setWidth 32)), src, off, data.setWidth 32)) ∧
      (e.cls = .boot → t.reg f ix = s.reg f ix) ∧ Frame s t [.regs, .rop, .mgt, .out] := by
  have hrow := Fld.rw_not_latch _ (mem_rows_of_fieldsAt hm) ha
  have hl : (⟨f, ix⟩ : RegKey) ∉ latchKeys := fun hk => hrow _ hk rfl
  have hv : f ≠ .mgtErrlogValid := fun hf => hrow ⟨.mgtErrlogValid, 0⟩ (by decide) hf.symm
  obtain ⟨u, hsu, hut⟩ := State.writeWord_at (s := s.clr) (w := data.setWidth 32) h.shown hm hix hl
  have hput : e.cls ≠ .boot → u.writeField src off.toNat ix (data.setWidth 32) f e =
      if e.cls = .tick then u.setShadow src f ix off.toNat (e.take (data.setWidth 32)) (data.setWidth 32) else u.setReg f (e.take (data.setWidth 32)) ix := by
    intro hb
    rw [State.writeField_rw _ _ _ _ ha hb, hlegal, State.injLegal_of_plain _ hi, State.putField_plain _ _ _ _ _ hw hi hv (by rw [ha]; decide)]
    rfl
  refine ⟨_, exec_registerWrite_word h, fun hc => ?_, fun hc => ?_, fun hc => ?_, (Frame.of_clr_keep State.writeWord_keep).mono (by decide)⟩
  · have hne : e.cls ≠ .boot ∧ e.cls ≠ .tick := by rcases hc with hc | hc <;> rw [hc] <;> decide
    rw [hut.reg_eq, hput hne.1, if_neg hne.2, State.reg_setReg, if_pos ⟨rfl, rfl⟩, Nat.mod_eq_of_lt (e.take_lt _)]
  · rw [hput (by rw [hc]; decide), if_pos hc] at hut
    refine ⟨hut.reg_eq.trans hsu.reg_eq, hut.2.trans ?_⟩
    rw [State.setShadow, tget_tset_same, BitVec.ofNat_toNat, BitVec.setWidth_eq]
  · rw [State.writeField_boot _ _ _ _ ha hc] at hut
    split at hut
    · exact hut.reg_eq.trans hsu.reg_eq
    · exact hut.reg_eq.trans ((State.reject_same _ _ _ hl).reg_eq.trans hsu.reg_eq)

/-! ### Staging copies that are not stored fields: the belay windows (R307) and the injection slots (R401) -/

theorem fieldsAt_winLen : fieldsAt 0x2B02C = ([(.ropWinStgLenSlots, Fld.ropWinStgLenSlots.spec)], 0) := by decide +kernel

theorem fieldsAt_injTgt : fieldsAt 0x2F20C = ([(.mgtInjTgtSubj, Fld.mgtInjTgtSubj.spec), (.mgtInjTgtKind, Fld.mgtInjTgtKind.spec)], 0) := by decide +kernel

/-- Changing an element that is there. -/
theorem modify_eq_set_of_getElem? {α : Type} {a : α} (f : α → α) : ∀ {l : List α} {n : Nat}, l[n]? = some a → l.modify n f = l.set n (f a)
  | [], _, h => nomatch h
  | b :: r, 0, h => by
    cases h
    rfl
  | b :: r, n + 1, h => congrArg (b :: ·) (modify_eq_set_of_getElem? f (l := r) (n := n) h)

theorem registerWrite_window {s : State} {src : Src} {w : Win} (data : BitVec 64) (hp : s.powered = true) (hr : s.reaches src = true)
    (hw : s.rop.winsStg[s.reg .ropWinSelN]? = some w) :
    ∃ t, exec (.registerWrite src .pf0 0x2B02C 4 data) s = .next t ∧ t.rop.wins = s.rop.wins ∧
      t.rop.winsStg = s.rop.winsStg.set (s.reg .ropWinSelN) { w with len := data.setWidth 24 } ∧ Frame s t [.rop, .out] := by
  have hturn : s.RegTurn src 0x2B02C := ⟨hp, hr, by decide, by decide, by cases src <;> decide⟩
  have hword : s.clr.writeWord src 0x2B02C (data.setWidth 32) =
      s.clr.stageWin .ropWinStgLenSlots (Fld.ropWinStgLenSlots.spec.take (data.setWidth 32)) := by
    rw [State.writeWord_single (off := 0x2B02C) hturn.shown fieldsAt_winLen, State.writeField_rw _ _ _ _ (by decide) (by decide)]
    rfl
  have hlen : BitVec.ofNat 24 (Fld.ropWinStgLenSlots.spec.take (data.setWidth 32)) = data.setWidth 24 := by
    refine BitVec.eq_of_toNat_eq ?_
    rw [show Fld.ropWinStgLenSlots.spec = ⟨0x2B000, 0x02C, 23, 0, .rw, 0, .staged⟩ from rfl]
    simp only [FSpec.take, BitVec.toNat_ofNat, BitVec.toNat_setWidth]
    omega
  refine ⟨_, (exec_registerWrite_word hturn).trans (congrArg _ hword), rfl, ?_, (Frame.of_clr_keep State.stageWin_keep).mono (by decide)⟩
  rw [← hlen]
  exact modify_eq_set_of_getElem? _ hw

/-- A write to an injection slot's target judges SUBJ, then KIND. -/
theorem State.writeWord_injTgt {s : State} {w : BitVec 32} : s.writeWord .mctp 0x2F20C w =
    (s.writeField .mctp 0x2F20C 0 w .mgtInjTgtSubj Fld.mgtInjTgtSubj.spec).writeField .mctp 0x2F20C 0 w .mgtInjTgtKind Fld.mgtInjTgtKind.spec := by
  rw [State.writeWord_shown (by decide), fieldsAt_injTgt]
  rfl

theorem State.injSel_eq {s : State} {x : InjSlot} (h : s.mgt.inj[s.reg .mgtInjSelSlot]? = some x) : s.injSel = x := by
  rw [State.injSel, List.getD_eq_getElem?_getD, h]
  rfl

/-- The selected injection slot after a change of it. -/
theorem State.updInj_inj {s : State} {x : InjSlot} (f : InjSlot → InjSlot) (h : s.mgt.inj[s.reg .mgtInjSelSlot]? = some x) :
    (s.updInj f).mgt.inj = s.mgt.inj.set (s.reg .mgtInjSelSlot) (f x) := modify_eq_set_of_getElem? f h

theorem State.updInj_getElem? {s : State} {x : InjSlot} (f : InjSlot → InjSlot) (h : s.mgt.inj[s.reg .mgtInjSelSlot]? = some x) :
    (s.updInj f).mgt.inj[(s.updInj f).reg .mgtInjSelSlot]? = some (f x) := by
  rw [State.updInj_inj f h]
  exact List.getElem?_set_self (List.getElem?_eq_some_iff.mp h).1

/-- The two fields of an injection slot's target, as a write carries them. -/
theorem injTgt_take (data : BitVec 64) : Fld.mgtInjTgtSubj.spec.take (data.setWidth 32) = data.toNat % 65536 ∧
    Fld.mgtInjTgtKind.spec.take (data.setWidth 32) = data.toNat / 65536 % 16 := by
  rw [show Fld.mgtInjTgtSubj.spec = ⟨0x2F000, 0x20C, 15, 0, .rw, 0, .now⟩ from rfl,
    show Fld.mgtInjTgtKind.spec = ⟨0x2F000, 0x20C, 19, 16, .rw, 0, .now⟩ from rfl]
  simp only [FSpec.take, BitVec.toNat_setWidth]
  omega

theorem State.writeField_injSubj {s : State} {src : Src} {off ix : Nat} {w : BitVec 32} :
    s.writeField src off ix w .mgtInjTgtSubj Fld.mgtInjTgtSubj.spec =
      if s.injSel.armed then s.reject_ src 1 off w.toNat else s.updInj fun x => { x with subj := Fld.mgtInjTgtSubj.spec.take w } := by
  have hlegal : ∀ v, Fld.mgtInjTgtSubj.legal v = true ∧ s.injLegal .mgtInjTgtSubj v = !s.injSel.armed := fun _ => ⟨rfl, rfl⟩
  rw [State.writeField_rw _ _ _ _ (by decide) (by decide), (hlegal _).1, (hlegal _).2]
  cases s.injSel.armed <;> rfl

theorem State.writeField_injKind {s : State} {src : Src} {off ix : Nat} {w : BitVec 32} :
    s.writeField src off ix w .mgtInjTgtKind Fld.mgtInjTgtKind.spec =
      if s.injSel.armed = true ∨ (detKinds s.injSel.det).contains (Fld.mgtInjTgtKind.spec.take w) = false then s.reject_ src 1 off w.toNat
      else s.updInj fun x => { x with kind := Fld.mgtInjTgtKind.spec.take w } := by
  have hlegal : ∀ v, Fld.mgtInjTgtKind.legal v = true ∧ s.injLegal .mgtInjTgtKind v = (!s.injSel.armed && (detKinds s.injSel.det).contains v) :=
    fun _ => ⟨rfl, rfl⟩
  rw [State.writeField_rw _ _ _ _ (by decide) (by decide), (hlegal _).1, (hlegal _).2]
  cases s.injSel.armed
  · cases (detKinds s.injSel.det).contains (Fld.mgtInjTgtKind.spec.take w) <;> rfl
  · rfl

theorem registerWrite_injTgt_free {s : State} {data : BitVec 64} {x : InjSlot} (hp : s.powered = true) (hr : s.reaches .mctp = true)
    (hx : s.mgt.inj[s.reg .mgtInjSelSlot]? = some x) (hk : (detKinds x.det).contains (data.toNat / 65536 % 16) = true) (hfree : x.armed = false) :
    ∃ t, exec (.registerWrite .mctp .pf0 0x2F20C 4 data) s = .next t ∧
      t.mgt.inj = s.mgt.inj.set (s.reg .mgtInjSelSlot) { x with subj := data.toNat % 65536, kind := data.toNat / 65536 % 16 } ∧ Frame s t [.mgt, .out] := by
  have hturn : s.RegTurn .mctp 0x2F20C := ⟨hp, hr, by decide, by decide, by decide⟩
  obtain ⟨hsubj, hkind⟩ := injTgt_take data
  have hx' := State.updInj_getElem? (s := s.clr) (fun y => { y with subj := data.toNat % 65536 }) hx
  have hword : s.clr.writeWord .mctp 0x2F20C (data.setWidth 32) =
      (s.clr.updInj fun y => { y with subj := data.toNat % 65536 }).updInj fun y => { y with kind := data.toNat / 65536 % 16 } := by
    rw [State.writeWord_injTgt, State.writeField_injSubj, State.injSel_eq (s := s.clr) hx, if_neg (by rw [hfree]; decide), hsubj,
      State.writeField_injKind, State.injSel_eq hx', hkind, if_neg (by rw [hfree, hk]; decide)]
  refine ⟨_, (exec_registerWrite_word hturn).trans (congrArg _ hword), ?_,
    (Frame.of_clr_keep (State.updInj_keep.app (by decide) State.updInj_keep)).mono (by decide)⟩
  rw [State.updInj_inj _ hx', State.updInj_inj (s := s.clr) _ hx]
  exact List.set_set ..

/-- An armed slot takes no write of its target (R401, R405): both fields are latched. -/
theorem State.writeWord_injTgt_armed {s : State} {x : InjSlot} (hx : s.mgt.inj[s.reg .mgtInjSelSlot]? = some x) (harmed : x.armed = true) (w : BitVec 32) :
    s.writeWord .mctp 0x2F20C w = (s.reject_ .mctp 1 0x2F20C w.toNat).reject_ .mctp 1 0x2F20C w.toNat := by
  have hsel : (s.reject_ .mctp 1 0x2F20C w.toNat).injSel = s.injSel := by
    rw [State.injSel, State.reject__keep.same .mgt (by decide), OtherFields.reg_eq (s.reject_other _ _ _ _) (by decide)]
    rfl
  rw [State.writeWord_injTgt, State.writeField_injSubj, State.injSel_eq hx, if_pos harmed, State.writeField_injKind, hsel, State.injSel_eq hx, if_pos (.inl harmed)]

/-- A second rejection on the latch leaves what the first one filled it with (R396). -/
theorem State.reject_reject_latch {s : State} {src : Src} {code off val : Nat} (hc : code < 2 ^ 32) (ho : off < 2 ^ 32) (hv : val < 2 ^ 32) :
    ((s.reject_ src code off val).reject_ src code off val).reg .mgtErrlogValid = 1 ∧
      (s.reg .mgtErrlogValid ≠ 1 → ((s.reject_ src code off val).reject_ src code off val).reg .mgtErrlogCode = code ∧
        ((s.reject_ src code off val).reject_ src code off val).reg .mgtErrlogAddrOffset = off) := by
  have hfirst := State.reject_latched (s := s) (src := src) hc ho hv
  have hsecond := State.reject_latched (s := s.reject_ src code off val) (src := src) hc ho hv
  refine ⟨hsecond.valid, fun hne => ?_⟩
  obtain ⟨-, -, hcode, hoff⟩ := hsecond.1 hfirst.valid
  obtain ⟨-, hcode', -, -, hoff', -⟩ := hfirst.2 hne
  exact ⟨hcode.trans hcode', hoff.trans hoff'⟩

theorem registerWrite_injTgt_armed {s : State} {data : BitVec 64} {x : InjSlot} (hp : s.powered = true) (hr : s.reaches .mctp = true)
    (hx : s.mgt.inj[s.reg .mgtInjSelSlot]? = some x) (harmed : x.armed = true) :
    ∃ t, exec (.registerWrite .mctp .pf0 0x2F20C 4 data) s = .next t ∧ t.mgt = s.mgt ∧
      t.reg .mgtErrlogValid = 1 ∧ (s.reg .mgtErrlogValid ≠ 1 → t.reg .mgtErrlogCode = 1 ∧ t.reg .mgtErrlogAddrOffset = 0x2F20C) ∧ Frame s t [.regs, .out] := by
  have hturn : s.RegTurn .mctp 0x2F20C := ⟨hp, hr, by decide, by decide, by decide⟩
  have hword := State.writeWord_injTgt_armed (s := s.clr) hx harmed (data.setWidth 32)
  obtain ⟨hvalid, hfirst⟩ := State.reject_reject_latch (s := s.clr) (src := .mctp) (code := 1) (off := 0x2F20C) (by decide) (by decide)
    (data.setWidth 32 : BitVec 32).isLt
  have hkeep : Keep s.clr ((s.clr.reject_ .mctp 1 0x2F20C (data.setWidth 32 : BitVec 32).toNat).reject_ .mctp 1 0x2F20C (data.setWidth 32 : BitVec 32).toNat) [.regs] :=
    State.reject__keep.app (by decide) State.reject__keep
  exact ⟨_, (exec_registerWrite_word hturn).trans (congrArg _ hword), hkeep.same .mgt (by decide), hvalid, hfirst, (Frame.of_clr_keep hkeep).mono (by decide)⟩

/-! ### Writes that are no write, or are latched (R386, R396, R397) -/

theorem registerWrite_illegal {s : State} {src : Src} {off : BitVec 22} {data : BitVec 64} {f : Fld} {e : FSpec} {ix : Nat} (h : s.RegTurn src off)
    (hf : fieldsAt off.toNat = ([(f, e)], ix)) (ha : e.acc = .rw) (hb : e.cls ≠ .boot) (hi : f.legal (e.take (data.setWidth 32)) = false) :
    ∃ t, exec (.registerWrite src .pf0 off 4 data) s = .next t ∧ Latched s t src 1 off.toNat (data.setWidth 32 : BitVec 32).toNat ∧
      OtherFields s t latchKeys ∧ t.regs.shadow = s.regs.shadow ∧ Frame s t [.regs, .out] := by
  have hword : s.clr.writeWord src off.toNat (data.setWidth 32) = s.clr.reject_ src 1 off.toNat (data.setWidth 32 : BitVec 32).toNat := by
    rw [State.writeWord_single h.shown hf, State.writeField_rw _ _ _ _ ha hb, hi]
    rfl
  exact ⟨_, (exec_registerWrite_word h).trans (congrArg _ hword), State.reject_latched (s := s.clr) (by decide) (by omega) (BitVec.isLt _),
    s.clr.reject_other _ _ _ _, s.clr.reject_shadow .., (Frame.of_clr_keep State.reject__keep).mono (by decide)⟩

theorem registerWrite_boot {s : State} {src : Src} {off : BitVec 22} {data : BitVec 64} {f : Fld} {e : FSpec} {ix : Nat} (h : s.RegTurn src off)
    (hf : fieldsAt off.toNat = ([(f, e)], ix)) (ha : e.acc = .rw) (hb : e.cls = .boot) (hne : e.take (data.setWidth 32) ≠ s.reg f ix) :
    ∃ t, exec (.registerWrite src .pf0 off 4 data) s = .next t ∧ Latched s t src 2 off.toNat (data.setWidth 32 : BitVec 32).toNat ∧
      OtherFields s t latchKeys ∧ Frame s t [.regs, .out] := by
  have hcopy : copyIx src off.toNat ix = ix := copyIx_of_boot (f := f) (by rw [hf]; exact List.mem_singleton.mpr rfl) hb
  have hword : s.clr.writeWord src off.toNat (data.setWidth 32) = s.clr.reject_ src 2 off.toNat (data.setWidth 32 : BitVec 32).toNat := by
    rw [State.writeWord_single h.shown hf, hcopy, State.writeField_boot _ _ _ _ ha hb]
    exact if_neg hne
  exact ⟨_, (exec_registerWrite_word h).trans (congrArg _ hword), State.reject_latched (s := s.clr) (by decide) (by omega) (BitVec.isLt _),
    s.clr.reject_other _ _ _ _, (Frame.of_clr_keep State.reject__keep).mono (by decide)⟩

theorem registerWrite_readOnly {s : State} {src : Src} {off : BitVec 22} (data : BitVec 64) (h : s.RegTurn src off)
    (hro : ∀ e ∈ (fieldsAt off.toNat).1, e.2.acc = .ro ∨ e.2.acc = .rc) : exec (.registerWrite src .pf0 off 4 data) s = .next { s with out := [] } := by
  refine (exec_registerWrite_word h).trans (congrArg _ ?_)
  rw [State.writeWord_shown h.shown]
  exact List.foldlRecOn (motive := fun t => t = s.clr) _ _ rfl fun t ht e he => (State.writeField_readOnly _ _ _ _ (hro e he)).trans ht

theorem registerWrite_missized {s : State} {src : Src} {off : BitVec 22} {size : Nat} {data : BitVec 64} (h : s.RegTurn src off) (h4 : size ≠ 4) (h8 : size ≠ 8) :
    ∃ t, exec (.registerWrite src .pf0 off size data) s = .next t ∧ Latched s t src 5 off.toNat (data.setWidth 32 : BitVec 32).toNat ∧
      OtherFields s t (⟨.hifDropCntN, (srcPort src).val⟩ :: latchKeys) ∧ Frame s t [.regs, .out] := by
  have hwrite := (State.writeReg_reaches (data := data) h.clr.powered h.clr.reaches).trans (State.barWrite_missized h.page h4 h8)
  have hlatch : Latched s (s.clr.reject_ src 5 off.toNat (data.setWidth 32 : BitVec 32).toNat) src 5 off.toNat (data.setWidth 32 : BitVec 32).toNat :=
    State.reject_latched (s := s.clr) (by decide) (by omega) (BitVec.isLt _)
  have hdrop := State.dropWrite_other (s.clr.reject_ src 5 off.toNat (data.setWidth 32 : BitVec 32).toNat) src true
  have hrej := s.clr.reject_other src 5 off.toNat (data.setWidth 32 : BitVec 32).toNat
  have hkeep : Keep s.clr ((s.clr.reject_ src 5 off.toNat (data.setWidth 32 : BitVec 32).toNat).dropWrite src true) [.regs, .out] :=
    State.dropWrite_keep.app (by decide) (State.reject__keep.mono (by decide))
  refine ⟨_, (exec_registerWrite ..).trans (congrArg _ hwrite), hlatch.of_other hdrop ?_, ?_, (Frame.of_clr_keep hkeep).mono (by decide)⟩
  · simp [latchKeys]
  · exact (hrej.mono (List.subset_cons_self ..)).trans (hdrop.mono (by simp))

theorem registerWrite_pf1 {s : State} {src : Src} {off : BitVec 22} {data : BitVec 64} (hm : src ≠ .mctp) (hp : s.powered = true)
    (hs : s.fnServes (srcPort src) .pf1 = true) (hpage : isPage off.toNat = true) :
    ∃ t, exec (.registerWrite src .pf1 off 4 data) s = .next t ∧ OtherFields s t [⟨.hifDropCntN, (srcPort src).val⟩] ∧ Frame s t [.regs, .out] := by
  have hwrite : s.clr.writeReg src .pf1 off.toNat 4 data = s.clr.dropWrite src false := by
    rw [← State.barWrite_pf1 (data := data) (size := 4) hpage hm]
    unfold State.writeReg
    rw [if_neg (by rw [State.clr_powered, hp]; decide)]
    cases src
    case mctp => exact absurd rfl hm
    case port0 => exact if_pos hs
    case port1 => exact if_pos hs
  exact ⟨_, (exec_registerWrite ..).trans (congrArg _ hwrite), s.clr.dropWrite_other src false, (Frame.of_clr_keep State.dropWrite_keep).mono (by decide)⟩

/-! ### The management path (R393) -/

theorem mctpBarWrite_word {s : State} {off : BitVec 32} {data : BitVec 64} (hp : s.powered = true) (hr : s.reaches .mctp = true)
    (hpage : isPage off.toNat = true) (ha : off.toNat % 4 = 0) :
    ∃ t u, exec (.mctpBarWrite 4 off data) s = .next t ∧ exec (.registerWrite .mctp .pf0 (off.setWidth 22) 4 data) s = .next u ∧
      t = { u with out := [.mctpReply true 0] } := by
  have hb := isPage_bounds hpage
  have hoff : (off.setWidth 22).toNat = off.toNat := by
    rw [BitVec.toNat_setWidth]
    omega
  have hwrite : s.clr.writeReg .mctp .pf0 off.toNat 4 data = s.clr.writeWord .mctp off.toNat (data.setWidth 32) :=
    (State.writeReg_reaches (s := s.clr) (src := .mctp) hp hr).trans (State.barWrite_word hpage ha)
  have hout : (s.clr.writeWord .mctp off.toNat (data.setWidth 32)).out = [] := State.writeWord_keep.same .out (by decide)
  have hexec : exec (.mctpBarWrite 4 off data) s = .next ((s.clr.writeReg .mctp .pf0 off.toNat 4 data).emit (.mctpReply true 0)) := by
    show execMctpBarWrite 4 off data s = _
    unfold execMctpBarWrite
    dsimp only
    rw [if_neg (by rw [State.clr_powered, State.clr_reaches, hp, hr]; decide), if_neg (by omega), decide_eq_false (show ¬off.toNat < 0x10000 by omega)]
    simp [ha, show off.toNat + 4 ≤ 4194304 by omega]
  refine ⟨_, _, hexec, exec_registerWrite .., ?_⟩
  rw [hoff, hwrite, State.emit, hout]
  rfl

/-- Settles O45: each clause is one way the judgement of a field can end, carried from the field to the register and to the command. -/
theorem registerWrites : Obligations.RegisterWrites := by
  unfold Obligations.RegisterWrites
  exact ⟨fun _ _ _ _ _ _ _ => registerWrite_legal, fun _ _ data _ => registerWrite_window data,
    fun _ _ _ hp hr hx hk => ⟨registerWrite_injTgt_free hp hr hx hk, registerWrite_injTgt_armed hp hr hx⟩,
    fun _ _ _ _ _ _ _ => registerWrite_illegal, fun _ _ _ _ _ _ _ => registerWrite_boot, fun _ _ _ data => registerWrite_readOnly data,
    fun _ _ _ _ _ => registerWrite_missized, fun _ _ _ _ => registerWrite_pf1, fun _ _ _ => mctpBarWrite_word⟩

end Sys2Proof.Machine
end

section
/-!
An admin command whose turn it is (R195, R225, R341): what taking it leaves, and what each of its ends does: a completion, bytes to the host, a change to a
pool that waits for its commit. The layer that the facts about POOL_OP share.
-/
namespace Sys2Proof.Machine

variable {s t u : State} {src : AdmSrc} {tag : BitVec 16} {early : Bool}

/-! ### What fetching entries leaves alone (R193, R195) -/

/-- The eligible records, the admin commands whose ring is gone, and the registers of the functions are as they were. -/
structure FetchOnly (s t : State) : Prop where
  elig : t.qe.elig = s.qe.elig
  gone : t.qe.goneAdm = s.qe.goneAdm
  func : ∀ port fn, t.func port fn = s.func port fn

theorem FetchOnly.refl (s : State) : FetchOnly s s := ⟨rfl, rfl, fun _ _ => rfl⟩

theorem FetchOnly.trans (h : FetchOnly s t) (h' : FetchOnly t u) : FetchOnly s u :=
  ⟨h'.elig.trans h.elig, h'.gone.trans h.gone, fun port fn => (h'.func port fn).trans (h.func port fn)⟩

theorem FetchOnly.updSq (h : FetchOnly s t) (q : RingRef) (f : Sq → Sq) : FetchOnly s (t.updSq q f) := ⟨h.elig, h.gone, h.func⟩

theorem FetchOnly.emit (h : FetchOnly s t) (o : Out) : FetchOnly s (t.emit o) := ⟨h.elig, h.gone, h.func⟩

/-- A change of a port that its functions do not see. -/
theorem State.updHport_func {port : PciePort} {f : HPort → HPort} (h0 : ∀ h, (f h).pf0 = h.pf0) (h1 : ∀ h, (f h).pf1 = h.pf1) (port' : PciePort) (fn : Fn) :
    (s.updHport port f).func port' fn = s.func port' fn := by
  have hp : (s.updHport port f).hport port' = s.hport port' ∨ (s.updHport port f).hport port' = f (s.hport port') := by
    simp only [State.hport, State.updHport, List.getD_eq_getElem?_getD, List.getElem?_modify]
    cases s.hif.ports[port'.val]? with
    | none => exact .inl rfl
    | some h => by_cases e : port.val = port'.val <;> simp [e]
  cases fn <;> rcases hp with hp | hp <;> simp only [State.func, hp, h0, h1]

theorem FetchOnly.takeTag (s : State) (port : PciePort) (use : TagUse) : FetchOnly s (s.takeTag port use).1 := by
  unfold State.takeTag
  split
  · exact ⟨rfl, rfl, State.updHport_func (fun _ => rfl) fun _ => rfl⟩
  · exact .refl s

theorem FetchOnly.readLine (s : State) (q : RingRef) : FetchOnly s (s.readLine q) :=
  ((FetchOnly.takeTag s q.port (.ring q)).updSq ..).emit _

theorem FetchOnly.stopFetch (s : State) (q : RingRef) : FetchOnly s (s.stopFetch q) := by
  unfold State.stopFetch
  split
  · exact .refl s
  · split
    · exact .readLine s q
    · exact (FetchOnly.refl s).updSq ..

theorem FetchOnly.fetchNext (s : State) (q : RingRef) : FetchOnly s (s.fetchNext q) := by
  unfold State.fetchNext
  split
  · exact .refl s
  · split
    · exact (FetchOnly.refl s).updSq ..
    · split
      · exact .stopFetch s q
      · split
        · exact (FetchOnly.refl s).updSq ..
        · exact ((FetchOnly.takeTag s q.port (.ring q)).updSq ..).emit _

theorem FetchOnly.consume (s : State) (q : RingRef) (n : Nat) : FetchOnly s (s.consume q n) :=
  ((FetchOnly.refl s).updSq ..).trans (.fetchNext _ q)

/-! ### Taking an admin command (R195, R341) -/

/-- A command has been taken: from a ring, at most QE, the host port and the outputs have changed, and its ring is not one that a reset has removed. -/
structure Taken (s u : State) (src : AdmSrc) (tag : BitVec 16) : Prop where
  frame : Frame s u [.qe, .hif, .out]
  fetch : FetchOnly s u
  here  : ∀ q, src = .ring q → (q, tag) ∉ u.qe.goneAdm

theorem Taken.pool (h : Taken s u src tag) (pid : BitVec 16) : u.pool pid = s.pool pid := by
  have hp : u.pools = s.pools := h.frame.2.2 .pools (by decide)
  unfold State.pool
  rw [hp]

theorem Taken.mgt (h : Taken s u src tag) : u.mgt = s.mgt := h.frame.2.2 .mgt (by decide)

/-- What is sent to the host at once stays so (R320). -/
theorem Taken.outNow (h : Taken s u src tag) (ho : s.OutNow src) : u.OutNow src := by
  cases src with
  | mctp => trivial
  | ring q => exact (congrArg Func.ats (h.fetch.func q.port q.fn)).trans ho

theorem Taken.clr (hg : ∀ q, src = .ring q → (q, tag) ∉ s.qe.goneAdm) : Taken s s.clr src tag :=
  ⟨Frame.of_keep State.clr_keep (by decide), ⟨rfl, rfl, fun _ _ => rfl⟩, hg⟩

/-- The entry that a ring offers is outstanding from then on, and its ring has moved past it. -/
theorem Taken.consume {q : RingRef} (hg : (q, tag) ∉ s.qe.goneAdm) (adm : List (RingRef × BitVec 16)) :
    Taken s (State.consume { s.clr with qe := { s.clr.qe with outAdm := adm } } q 1) (.ring q) tag := by
  have h0 : FetchOnly s { s.clr with qe := { s.clr.qe with outAdm := adm } } := ⟨rfl, rfl, fun _ _ => rfl⟩
  have hf := h0.trans (.consume _ q 1)
  have hk : Keep s.clr { s.clr with qe := { s.clr.qe with outAdm := adm } } [.qe, .hif, .out] := Keep.set_qe (.refl _ _) (by decide)
  refine ⟨(Frame.of_clr_keep (hk.trans State.consume_keep)).mono (by decide), hf, fun q' e => ?_⟩
  cases e
  rw [hf.gone]
  exact hg

/-- A command whose turn it is is carried out, on a state that taking it leaves. -/
theorem State.AdmTurn.takeAdm (h : s.AdmTurn src tag early) : ∃ u, Taken s u src tag ∧ ∀ go, s.clr.takeAdm src tag early go = go u := by
  cases src with
  | mctp =>
    have hc : (s.clr.phase == .online || (early && s.clr.configured)) = true := by
      rcases h with h | ⟨he, hc⟩
      · simp [h]
      · rw [he, show s.clr.configured = s.configured from rfl, hc, Bool.and_self, Bool.or_true]
    exact ⟨s.clr, .clr nofun, fun go => if_pos hc⟩
  | ring q =>
    obtain ⟨hfn, hgone, hturn⟩ := h
    have h1 : q.fn ≠ .pf1 := by rw [hfn]; decide
    rcases hturn with ⟨hout, hbusy⟩ | ⟨hout, hdone, htakes⟩
    · refine ⟨s.clr, .clr (by rintro _ ⟨⟩; exact hgone), fun go => ?_⟩
      have hb : s.clr.admBusy (.ring q) tag = false := hbusy
      simp [State.takeAdm, h1, hout, hb]
    · refine ⟨_, .consume hgone (s.qe.outAdm ++ [(q, tag)]), fun go => ?_⟩
      have ht : s.clr.takesEntry q = true := htakes
      simp [State.takeAdm, h1, hout, hdone, ht]

/-- A serial command whose turn it is is carried out when none is under way (R225). -/
theorem State.AdmTurn.takeSerial (h : s.AdmTurn src tag early) (hf : s.admFree = true) :
    ∃ u, Taken s u src tag ∧ ∀ i run, s.clr.takeSerial src tag early i run = run u := by
  obtain ⟨u, hu, hgo⟩ := h.takeAdm
  refine ⟨u, hu, fun i run => ?_⟩
  have hfree : u.admFree = true := by unfold State.admFree at hf ⊢; rw [hu.mgt]; exact hf
  unfold State.takeSerial
  rw [hgo, if_pos hfree]

/-! ### A completion, with and without bytes to the host (R224) -/

/-- A command from a ring that stands completes with a record that is eligible from then on, and is outstanding no more. -/
theorem State.admDone_ring {q : RingRef} (hg : (q, tag) ∉ u.qe.goneAdm) (st : Stat) :
    u.admDone (.ring q) tag st = State.eligible
      { u with qe := { u.qe with outAdm := u.qe.outAdm.filter fun e => !(e.1 == q && e.2 == tag), doneAdm := u.qe.doneAdm ++ [(q, tag)] } }
      q tag st none none := if_neg (by simpa using hg)

theorem State.admDone_frame (hg : ∀ q, src = .ring q → (q, tag) ∉ u.qe.goneAdm) (st : Stat) : Frame u (u.admDone src tag st) [.qe, .hif, .out] := by
  cases src with
  | mctp => exact Frame.of_keep State.emit_keep (by decide)
  | ring q =>
    rw [State.admDone_ring (hg q rfl)]
    exact Frame.of_keep (Keep.app State.eligible_keep (by decide) (Keep.set_qe (.refl u [.qe]) (by decide))) (by decide)

theorem Taken.completes (h : Taken s u src tag) (st : Stat) : Completes s (u.admDone src tag st) src tag st := by
  cases src with
  | mctp => exact List.mem_append_right _ (List.mem_singleton.mpr rfl)
  | ring q =>
    rw [State.admDone_ring (h.here q rfl)]
    refine ⟨congrArg (· ++ _) h.fetch.elig, fun hm => ?_⟩
    simpa using (List.mem_filter.mp hm).2

/-- A command that ends at once: its completion, and its frame. -/
theorem Taken.admDone (h : Taken s u src tag) (st : Stat) :
    Completes s (u.admDone src tag st) src tag st ∧ Frame s (u.admDone src tag st) [.qe, .hif, .out] :=
  ⟨h.completes st, h.frame.trans (State.admDone_frame h.here st)⟩

/-- Bytes that have gone out are not taken back. -/
theorem Taken.emit (h : Taken s u src tag) (o : Out) : Taken s (u.emit o) src tag :=
  ⟨h.frame.trans (Frame.of_keep State.emit_keep (by decide)), h.fetch.emit o, h.here⟩

theorem Taken.hands (h : Taken s u src tag) {addr : BitVec 64} {bytes : List Byte} (hb : Hands u src addr bytes) (st : Stat) :
    Hands (u.admDone src tag st) src addr bytes := by
  refine hb.imp_right fun hm => ?_
  cases src with
  | mctp => exact List.mem_append_left _ hm
  | ring q =>
    rw [State.admDone_ring (h.here q rfl)]
    exact hm

/-- Without a translation, bytes go out and the command completes (R320). -/
theorem State.OutNow.hostOut (ho : u.OutNow src) (hg : ∀ q, src = .ring q → (q, tag) ∉ u.qe.goneAdm) (addr : BitVec 64) (bytes : List Byte) (st : Stat) :
    u.hostOut src tag addr bytes st = (u.iff (!bytes.isEmpty) fun s => s.emit (.hostBytes src addr bytes)).admDone src tag st := by
  cases src with
  | mctp => rfl
  | ring q =>
    have ha : (u.func q.port q.fn).ats = false := ho
    simp [State.hostOut, State.lookup, hg q rfl, ha]

theorem Taken.hostOut (h : Taken s u src tag) (ho : s.OutNow src) (addr : BitVec 64) (bytes : List Byte) (st : Stat) :
    Hands (u.hostOut src tag addr bytes st) src addr bytes ∧ Completes s (u.hostOut src tag addr bytes st) src tag st ∧
      Frame s (u.hostOut src tag addr bytes st) [.qe, .hif, .out] := by
  rw [(h.outNow ho).hostOut h.here]
  cases bytes with
  | nil => exact ⟨.inl rfl, h.admDone st⟩
  | cons b r =>
    have hh : Hands (u.emit (.hostBytes src addr (b :: r))) src addr (b :: r) := .inr (List.mem_append_right _ (List.mem_singleton.mpr rfl))
    exact ⟨(h.emit _).hands hh st, (h.emit _).admDone st⟩

/-! ### A change to a pool, and its commit (R105) -/

/-- Reading a pool after a change to it that keeps its id. -/
theorem State.pool_updPool {pid : BitVec 16} {f : Pool → Pool} (hf : ∀ p, (f p).cur.id = p.cur.id) : (s.updPool pid f).pool pid = (s.pool pid).map f := by
  unfold State.pool State.updPool
  rw [find_updIf _ _ _ _ fun p => congrArg (· == pid) (hf p)]
  refine Option.map_congr fun p hp => if_pos ?_
  exact List.find?_some (p := fun p : Pool => p.cur.id == pid) hp

theorem State.admWait_waits (s : State) (src : AdmSrc) (tag pid : BitVec 16) (st : Stat) : WaitsFor (s.admWait src tag pid st) src tag pid st :=
  ⟨_, List.mem_append_right _ (List.mem_singleton.mpr rfl), rfl, rfl, rfl, rfl, rfl, rfl⟩

/-- A command that asks for a change to a pool: the pool as asked for, the wait for its commit, and the frame. -/
theorem Taken.changesPool {pid : BitVec 16} {p : Pool} {f : Pool → Pool} (h : Taken s u src tag) (hp : s.pool pid = some p)
    (st : Stat) (hf : ∀ p, (f p).cur.id = p.cur.id := by exact fun _ => rfl) :
    ((u.updPool pid f).admWait src tag pid st).pool pid = some (f p) ∧ WaitsFor ((u.updPool pid f).admWait src tag pid st) src tag pid st ∧
      Frame s ((u.updPool pid f).admWait src tag pid st) [.qe, .hif, .pools, .mgt, .out] := by
  have hk : Keep u ((u.updPool pid f).admWait src tag pid st) [.pools, .mgt] :=
    Keep.app State.admWait_keep (by decide) (State.updPool_keep.mono (by decide))
  refine ⟨?_, State.admWait_waits .., (h.frame.mono (by decide)).trans (Frame.of_keep hk (by decide))⟩
  show (u.updPool pid f).pool pid = _
  rw [State.pool_updPool hf, h.pool, hp]
  rfl

/-! ### The pool that a POOL_OP names (R226) -/

theorem State.onPool_some {pid : BitVec 16} {p : Pool} (hp : s.pool pid = some p) (hd : p.deleting = none) (go : State → Pool → State) :
    s.onPool src tag pid go = go s p := by
  simp [State.onPool, hp, hd]

theorem State.onPool_none {pid : BitVec 16} (hp : s.pool pid = none) (go : State → Pool → State) :
    s.onPool src tag pid go = s.admDone src tag (stat 1 2 0 0x1A) := by
  simp [State.onPool, hp]

end Sys2Proof.Machine
end

section
/-!
POOL_OP DELETE, SET_ATTR, STATUS, READ_LOST and RELEASE_LOST, the lost-extent list that RELEASE_LOST cuts, and the obligation on them.
-/
namespace Sys2Proof.Machine

variable {s u : State} {src : AdmSrc} {tag : BitVec 16} {p : Pool}

/-! ### The commands -/

theorem exec_poolOpDelete (src : AdmSrc) (tag pid : BitVec 16) (s : State) :
    exec (.poolOpDelete src tag pid) s = .next (s.clr.takeSerial src tag false (.poolOpDelete src tag pid) fun s => s.poolDelete src tag pid) := rfl

theorem exec_poolOpSetAttr (src : AdmSrc) (tag pid : BitVec 16) (en days : Nat) (s : State) :
    exec (.poolOpSetAttr src tag pid en days) s =
      .next (s.clr.takeSerial src tag false (.poolOpSetAttr src tag pid en days) fun s => s.poolAttr src tag pid en days) := rfl

theorem exec_poolOpStatus (src : AdmSrc) (tag pid : BitVec 16) (s : State) :
    exec (.poolOpStatus src tag pid) s = .next (s.clr.takeSerial src tag false (.poolOpStatus src tag pid) fun s => s.poolStatus src tag pid) := rfl

theorem exec_readLost (src : AdmSrc) (tag pid : BitVec 16) (addr : BitVec 64) (len : BitVec 32) (first : Nat) (s : State) :
    exec (.readLost src tag pid addr len first) s =
      .next (s.clr.takeSerial src tag false (.readLost src tag pid addr len first) fun s => s.poolReadLost src tag pid addr len first) := rfl

theorem exec_releaseLost (src : AdmSrc) (tag pid : BitVec 16) (v : BitVec 12) (vbn : BitVec 64) (count : BitVec 32) (s : State) :
    exec (.releaseLost src tag pid v vbn count) s =
      .next (s.clr.takeSerial src tag false (.releaseLost src tag pid v vbn count) fun s => s.poolRelease src tag pid v vbn count) := rfl

/-! ### What each does on a pool that stands -/

section Stands

variable {pid : BitVec 16} (hp : s.pool pid = some p) (hd : p.deleting = none)
include hp hd

theorem State.poolDelete_empty (hc : p.cur.volumes = []) (hn : p.nxt.volumes = []) (hcf : p.cur.frond = none) (hnf : p.nxt.frond = none) :
    s.poolDelete src tag pid = (s.updPool pid fun p => { p with deleting := some p.nextCommit }).admWait src tag pid okStat := by
  unfold State.poolDelete
  rw [State.onPool_some hp hd, if_neg (by simp [hc, hn, hcf, hnf])]

theorem State.poolDelete_holding (hv : p.cur.volumes ≠ [] ∨ p.nxt.volumes ≠ []) : s.poolDelete src tag pid = s.admDone src tag (stat 5 5) := by
  unfold State.poolDelete
  rw [State.onPool_some hp hd, if_pos (by rcases hv with hv | hv <;> simp [hv])]

theorem State.poolAttr_legal {en days : Nat} (he : en ≤ 1) (h1 : 1 ≤ days) (hm : days ≤ 3650) :
    s.poolAttr src tag pid en days =
      (s.updPool pid fun p => p.change fun m => { m with scrubEn := en == 1, scrubDays := days }).admWait src tag pid okStat := by
  unfold State.poolAttr
  rw [State.onPool_some hp hd, if_neg (by omega)]

theorem State.poolAttr_illegal {en days : Nat} (h : 1 < en ∨ days < 1 ∨ 3650 < days) : s.poolAttr src tag pid en days = s.admDone src tag (stat 1 13) := by
  unfold State.poolAttr
  rw [State.onPool_some hp hd, if_pos h]

theorem State.poolStatus_some : s.poolStatus src tag pid = s.admDone src tag (okStat p.statusWord) := State.onPool_some hp hd _

theorem State.poolReadLost_aligned {addr : BitVec 64} {len : BitVec 32} (ha : addr.toNat % 64 = 0) (hl : len.toNat % 64 = 0) (first : Nat) :
    s.poolReadLost src tag pid addr len first =
      s.hostOut src tag addr (((p.pub.lost.drop first).take (len.toNat / 32)).flatMap lostBytes)
        (okStat (((p.pub.lost.drop first).take (len.toNat / 32)).length + 2 ^ 32 * p.pub.lost.length)) := by
  have hm : misaligned [addr.toNat, len.toNat] = none := by simp [misaligned, ha, hl]
  unfold State.poolReadLost
  rw [State.onPool_some hp hd, hm]
  rfl

theorem State.poolRelease_cut {v : BitVec 12} {vbn : BitVec 64} {count : BitVec 32} {l : List LostExt} (hv : p.vol v ≠ none)
    (hl : lostCutRange p.nxt.lost v vbn.toNat count.toNat = some l) :
    s.poolRelease src tag pid v vbn count =
      (s.updPool pid fun p => p.change fun m => { m with lost := l }).admWait src tag pid (okStat (lostIn p.nxt.lost v vbn.toNat count.toNat)) := by
  unfold State.poolRelease
  rw [State.onPool_some hp hd, if_neg (by simpa using hv)]
  dsimp only
  rw [hl]

end Stands

/-! ### Cutting a range out of the lost-extent list (R129) -/

/-- Does an entry list a block of a volume? -/
def listsBlock (e : LostExt) (w : BitVec 12) (k : Nat) : Prop := e.vol = w ∧ e.vbn ≤ k ∧ k < e.vbn + e.count

/-- What of an entry stays when a range is taken out. -/
def cutEntry (e : LostExt) (v : BitVec 12) (b n : Nat) : List LostExt :=
  if e.vol = v ∧ e.vbn < b + n ∧ b < e.vbn + e.count then
    [{ e with count := b - e.vbn }, { e with vbn := max e.vbn (b + n), count := e.vbn + e.count - max e.vbn (b + n) }].filter fun x => x.count ≠ 0
  else [e]

/-- The list after a cut is made of what stays of each entry. -/
theorem lostCutRange_some {l l' : List LostExt} {v : BitVec 12} {b n : Nat} (h : lostCutRange l v b n = some l') : l' = l.flatMap (cutEntry · v b n) := by
  have h' : (if (l.flatMap (cutEntry · v b n)).length ≤ lostMax then some (l.flatMap (cutEntry · v b n)) else none) = some l' := h
  split at h'
  · exact (Option.some.inj h').symm
  · cases h'

/-- Dropping empty entries loses no block. -/
theorem listsBlock_filter (es : List LostExt) (w : BitVec 12) (k : Nat) :
    (∃ x ∈ es.filter fun x => x.count ≠ 0, listsBlock x w k) ↔ ∃ x ∈ es, listsBlock x w k := by
  refine exists_congr fun x => ?_
  rw [List.mem_filter]
  refine ⟨fun ⟨⟨hm, _⟩, hx⟩ => ⟨hm, hx⟩, fun ⟨hm, hx⟩ => ⟨⟨hm, ?_⟩, hx⟩⟩
  obtain ⟨_, hlo, hhi⟩ := hx
  exact decide_eq_true (by omega)

/-- What stays of an entry lists its blocks outside the range, and no other. -/
theorem listsBlock_cutEntry (e : LostExt) (v : BitVec 12) (b n : Nat) (w : BitVec 12) (k : Nat) :
    (∃ x ∈ cutEntry e v b n, listsBlock x w k) ↔ listsBlock e w k ∧ ¬(w = v ∧ b ≤ k ∧ k < b + n) := by
  unfold cutEntry
  split
  case isTrue hc =>
    obtain ⟨hv, hlo, hhi⟩ := hc
    rw [listsBlock_filter]
    simp only [List.mem_cons, List.not_mem_nil, or_false, exists_eq_or_imp, exists_eq_left, listsBlock, hv]
    by_cases hw : v = w
    · simp only [hw, true_and]
      omega
    · simp [hw]
  case isFalse hc =>
    simp only [List.mem_singleton, exists_eq_left, listsBlock]
    refine ⟨fun ⟨hv, hlo, hhi⟩ => ⟨⟨hv, hlo, hhi⟩, ?_⟩, And.left⟩
    rintro ⟨rfl, hb, hn⟩
    exact hc ⟨hv, by omega, by omega⟩

/-- RELEASE_LOST takes the blocks of the range off the list, and no other. -/
theorem listsBlock_lostCutRange {l l' : List LostExt} {v : BitVec 12} {b n : Nat} (h : lostCutRange l v b n = some l') (w : BitVec 12) (k : Nat) :
    (∃ e ∈ l', listsBlock e w k) ↔ (∃ e ∈ l, listsBlock e w k) ∧ ¬(w = v ∧ b ≤ k ∧ k < b + n) := by
  rw [lostCutRange_some h]
  calc (∃ x ∈ l.flatMap (cutEntry · v b n), listsBlock x w k)
    _ ↔ ∃ e ∈ l, ∃ x ∈ cutEntry e v b n, listsBlock x w k := by simp only [List.mem_flatMap]; grind
    _ ↔ ∃ e ∈ l, listsBlock e w k ∧ ¬(w = v ∧ b ≤ k ∧ k < b + n) := by simp only [listsBlock_cutEntry]
    _ ↔ _ := by simp only [← and_assoc, exists_and_right]

/-! ### The clauses -/

/-- Settles O33: each command's turn gives the state that it runs on; there it ends at once, or asks for its change and waits for the commit. -/
theorem poolOperations : Obligations.PoolOperations := by
  unfold Obligations.PoolOperations
  refine ⟨fun s src tag p hturn hfree hp hd => ?_, fun s src tag pid hturn hfree hp => ?_, fun l l' v b n h w k => listsBlock_lostCutRange h w k⟩
  · obtain ⟨u, hu, hrun⟩ := hturn.takeSerial hfree
    have hpu : u.pool p.cur.id = some p := (hu.pool _).trans hp
    refine ⟨fun ⟨hc, hn, hcf, hnf⟩ => ?_, fun hv => ?_, fun en days he h1 hm => ?_, fun en days h => ?_, ?_, fun addr len first ha hl ho => ?_,
      fun v vbn count l hv hl => ?_⟩
    · rw [exec_poolOpDelete, hrun, State.poolDelete_empty hpu hd hc hn hcf hnf]
      exact ⟨_, rfl, hu.changesPool hp _⟩
    · rw [exec_poolOpDelete, hrun, State.poolDelete_holding hpu hd hv]
      exact ⟨_, rfl, hu.admDone _⟩
    · rw [exec_poolOpSetAttr, hrun, State.poolAttr_legal hpu hd he h1 hm]
      exact ⟨_, rfl, hu.changesPool hp _⟩
    · rw [exec_poolOpSetAttr, hrun, State.poolAttr_illegal hpu hd h]
      exact ⟨_, rfl, hu.admDone _⟩
    · rw [exec_poolOpStatus, hrun, State.poolStatus_some hpu hd]
      exact ⟨_, rfl, hu.admDone _⟩
    · rw [exec_readLost, hrun, State.poolReadLost_aligned hpu hd ha hl]
      exact ⟨_, rfl, hu.hostOut ho ..⟩
    · rw [exec_releaseLost, hrun, State.poolRelease_cut hpu hd hv hl]
      exact ⟨_, rfl, hu.changesPool hp _⟩
  · obtain ⟨u, hu, hrun⟩ := hturn.takeSerial hfree
    have hpu : u.pool pid = none := (hu.pool _).trans hp
    refine ⟨?_, ?_⟩
    · rw [exec_poolOpStatus, hrun, show u.poolStatus src tag pid = _ from State.onPool_none hpu _]
      exact ⟨_, rfl, hu.admDone _⟩
    · rw [exec_poolOpDelete, hrun, show u.poolDelete src tag pid = _ from State.onPool_none hpu _]
      exact ⟨_, rfl, hu.admDone _⟩

end Sys2Proof.Machine
end

section
/-!
SYS_RST# (R85, R340, R369, R426): what its assertion discards in each state, and the start that its release begins with the slot of R334.
-/
namespace Sys2Proof.Machine

variable {s : State}

/-! ### Assertion -/

/-- A reset discards everything volatile, whatever the pins (R85). -/
theorem State.enterReset_afterReset (s : State) (p : Pins) (o : List Out) : AfterReset s (State.enterReset { s with out := o, pins := p }) where
  pending := rfl
  part := rfl
  temps := rfl
  volatile_ := ⟨rfl, rfl, rfl, rfl, rfl, rfl, rfl, rfl, rfl, rfl, rfl, rfl, rfl, rfl, rfl⟩
  vault := ⟨rfl, rfl, rfl, rfl, rfl⟩
  trust := ⟨rfl, rfl, rfl, rfl, rfl, rfl, rfl, rfl, rfl, rfl, rfl, rfl, rfl⟩
  nvm := ⟨rfl, rfl, rfl, rfl⟩

theorem sysRstAsserted_short {ns : Nat} (h : ns < 1000) : exec (.sysRstAsserted ns) s = .next { s with out := [] } := if_pos h

section Long
variable {ns : Nat} (hn : 1000 ≤ ns)
include hn

theorem sysRstAsserted_resets (h0 : s.phase ≠ .powerOff) (hb : s.notInBivouac) :
    exec (.sysRstAsserted ns) s = .next (State.enterReset { s with out := [], pins := { s.pins with sysRst := true } }) := by
  refine (if_neg (Nat.not_lt.mpr hn)).trans (congrArg _ ?_)
  split
  case h_1 h => exact absurd h h0
  case h_2 h => exact absurd h (hb _)
  case h_3 h => exact absurd h (hb _)
  case h_4 h => exact absurd h (hb _)
  case h_5 h => exact absurd h (hb _)
  case h_6 h => exact absurd h (hb _)
  all_goals rfl

theorem sysRstAsserted_heldOff (h : s.phase ∈ [.bivouac .quiesce, .bivouac .phase1, .bivouac .phase2, .bivouac .close]) :
    exec (.sysRstAsserted ns) s = .next { s with out := [], pins := { s.pins with sysRst := true, sysRstHeld := true } } := by
  refine (if_neg (Nat.not_lt.mpr hn)).trans (congrArg _ ?_)
  simp only [List.mem_cons, List.not_mem_nil, or_false] at h
  rcases h with h | h | h | h <;> simp only [State.clr_phase, h] <;> rfl

theorem sysRstAsserted_seen (h : s.phase = .powerOff ∨ s.phase = .bivouac .off) :
    exec (.sysRstAsserted ns) s = .next { s with out := [], pins := { s.pins with sysRst := true } } := by
  refine (if_neg (Nat.not_lt.mpr hn)).trans (congrArg _ ?_)
  rcases h with h | h <;> simp only [State.clr_phase, h] <;> rfl

end Long

/-! ### Release (R334) -/

/-- What MGT holds once a start has chosen its first slot, with the directory then in force and its copies. -/
def State.startMgt (s : State) (d : Directory) (nvm : List (List Byte)) (cur : Nat) : Mgt :=
  { s.mgt with waitCool := false, relRst := s.tck.now, dir := d, dirNvm := nvm, dirCur := cur, first := s.firstSlot s.pins.slotSel
               slot := s.firstSlot s.pins.slotSel, onTrial := d.trial == some (s.firstSlot s.pins.slotSel) }

/-- MGT after a start that writes the directory: the other copy, with a sequence number one higher (R333). -/
def State.chargedMgt (s : State) (d : Directory) : Mgt :=
  let cur := 1 - (dirAtStart s.mgt.dirNvm).2
  let d : Directory := { d with seq := s.startDir.seq + 1 }
  s.startMgt d (s.mgt.dirNvm.set cur (dirBytes d)) cur

section Start
variable {n : Nat}

theorem State.firstSlot_noTrial (h : s.startDir.trial = none) (sel : Bool) :
    s.firstSlot sel = if sel then 1 - s.startDir.active else s.startDir.active := by
  unfold State.firstSlot
  rw [h]

theorem State.firstSlot_trial (h : s.startDir.trial = some n) (ha : 0 < s.startDir.attempts) (sel : Bool) :
    s.firstSlot sel = if sel then 1 - n else n := by
  unfold State.firstSlot
  simp only [h, ha, if_true]

theorem State.firstSlot_spent (h : s.startDir.trial = some n) (ha : s.startDir.attempts = 0) (sel : Bool) :
    s.firstSlot sel = if sel then 1 - s.startDir.active else s.startDir.active := by
  unfold State.firstSlot
  simp only [h, ha, Nat.lt_irrefl, if_false]

theorem State.startBoot_noTrial (h : s.startDir.trial = none) :
    (s.startBoot true).phase = .trustBoot ∧ (s.startBoot true).mgt = s.startMgt s.startDir s.mgt.dirNvm (dirAtStart s.mgt.dirNvm).2 := by
  unfold State.startMgt
  rw [State.firstSlot_noTrial h]
  unfold State.startBoot
  dsimp only
  split
  case h_1 n ht => exact absurd (h.symm.trans ht) (by simp)
  case h_2 => exact ⟨rfl, rfl⟩

/-- An attempt is charged before it is made (R334). -/
theorem State.startBoot_trial (h : s.startDir.trial = some n) (ha : 0 < s.startDir.attempts) :
    (s.startBoot true).phase = .trustBoot ∧ (s.startBoot true).mgt = s.chargedMgt { s.startDir with attempts := s.startDir.attempts - 1 } := by
  unfold State.chargedMgt State.startMgt
  rw [State.firstSlot_trial h ha]
  unfold State.startBoot
  dsimp only
  split
  case h_1 t ht =>
    cases h.symm.trans ht
    split
    case isTrue => exact ⟨rfl, rfl⟩
    case isFalse h0 => exact absurd ha h0
  case h_2 ht => exact absurd (h.symm.trans ht) (by simp)

/-- A trial without an attempt left is over: the active slot runs (R334). -/
theorem State.startBoot_spent (h : s.startDir.trial = some n) (ha : s.startDir.attempts = 0) :
    (s.startBoot true).phase = .trustBoot ∧ (s.startBoot true).mgt = s.chargedMgt { s.startDir with trial := none, attempts := 0 } := by
  unfold State.chargedMgt State.startMgt
  rw [State.firstSlot_spent h ha]
  unfold State.startBoot
  dsimp only
  split
  case h_1 t ht =>
    split
    case isTrue h0 => exact absurd ha (Nat.ne_of_gt h0)
    case isFalse =>
      refine ⟨rfl, ?_⟩
      unfold State.runSlot
      rw [if_pos rfl]
      simp only [State.log_mgt]
      rfl
  case h_2 ht => exact absurd (h.symm.trans ht) (by simp)

end Start

/-- The state on which the start runs that a release of SYS_RST# begins: the straps are sampled (R334). -/
def State.strapped (s : State) (sel ten : Bool) : State :=
  { s with out := [], pins := { s.pins with sysRst := false, slotSel := sel, testEn := ten, sysClk := true } }

theorem sysRstReleased_starts (sel ten ok : Bool) (hr : s.pins.sysRst = true) (hp : s.phase = .reset) :
    exec (.sysRstReleased sel ten ok) s = .next ((s.strapped sel ten).startBoot ok) := by
  refine (if_neg (by simp [hr])).trans (congrArg _ ?_)
  split
  case h_1 => rfl
  all_goals next h => cases hp.symm.trans h

theorem State.strapped_frame (s : State) (sel ten ok : Bool) :
    Frame s ((s.strapped sel ten).startBoot ok) [.phase, .pins, .regs, .hif, .evr, .nvm, .mgt, .out] := by
  have hk : Keep s.clr (s.strapped sel ten) [.pins] := Keep.set_pins (.refl _ _) (by decide) rfl
  exact (Frame.of_clr_keep (State.startBoot_keep.app (ws := [.phase, .pins, .regs, .hif, .evr, .nvm, .mgt]) (by decide) (hk.mono (by decide)))).mono (by decide)

theorem State.strapped_startBoot_pins (s : State) (sel ten ok : Bool) : ((s.strapped sel ten).startBoot ok).pins = (s.strapped sel ten).pins :=
  State.startBoot_keep.same .pins (by decide)

/-- Settles O9: each state's branch of the assertion, and the three cases of the directory that a release in RESET starts from. -/
theorem systemReset : Obligations.SystemReset := by
  unfold Obligations.SystemReset
  refine ⟨⟨fun s ns hn h0 hb => ⟨_, sysRstAsserted_resets hn h0 hb, rfl, rfl, s.enterReset_afterReset _ _⟩, fun s ns hn => sysRstAsserted_heldOff hn,
    fun s ns hn => sysRstAsserted_seen hn, fun s ns => sysRstAsserted_short⟩, fun s sel ten hr hp => ?_⟩
  refine ⟨_, sysRstReleased_starts sel ten true hr hp, ?_⟩
  have hpins := s.strapped_startBoot_pins sel ten true
  have hframe := s.strapped_frame sel ten true
  cases ht : s.startDir.trial with
  | none =>
    obtain ⟨hphase, hmgt⟩ := State.startBoot_noTrial (s := s.strapped sel ten) ht
    rw [hmgt]
    exact ⟨hphase, hpins, rfl, rfl, rfl, rfl, nofun, nofun, nofun, fun _ => ⟨rfl, rfl⟩, hframe⟩
  | some n =>
    by_cases ha : 0 < s.startDir.attempts
    · obtain ⟨hphase, hmgt⟩ := State.startBoot_trial (s := s.strapped sel ten) ht ha
      rw [hmgt]
      exact ⟨hphase, hpins, rfl, rfl, rfl, rfl, fun _ _ _ => rfl, fun _ _ h0 => absurd ha (by omega), fun _ _ => rfl, nofun, hframe⟩
    · obtain ⟨hphase, hmgt⟩ := State.startBoot_spent (s := s.strapped sel ten) ht (Nat.eq_zero_of_not_pos ha)
      rw [hmgt]
      exact ⟨hphase, hpins, rfl, rfl, rfl, rfl, fun _ _ h1 => absurd h1 ha, fun _ _ _ => rfl, fun _ _ => rfl, nofun, hframe⟩

end Sys2Proof.Machine
end

section
/-!
What an operation leaves of every pool: the layer that the timers' facts rest on.
-/
namespace Sys2Proof.Machine

variable {s t u : State}

/-- The pools of two states have the same ids in the same order, and agree in one aspect. -/
def SamePools {β : Type} (f : Pool → β) (s t : State) : Prop := t.pools.map (fun p => (p.cur.id, f p)) = s.pools.map fun p => (p.cur.id, f p)

section
variable {β : Type} {f : Pool → β}

theorem SamePools.trans (h : SamePools f s t) (h' : SamePools f t u) : SamePools f s u := Eq.trans h' h

theorem SamePools.of_pools (h : t.pools = s.pools) : SamePools f s t := by rw [SamePools, h]

theorem SamePools.of_keep {ws : List Sec} (h : Keep s t ws) (hw : .pools ∉ ws) : SamePools f s t := .of_pools (h.same .pools hw)

/-- A change of some pools that the aspect does not see. -/
theorem SamePools.of_map {g : Pool → Pool} (hp : t.pools = s.pools.map g) (hg : ∀ p, (g p).cur.id = p.cur.id ∧ f (g p) = f p) : SamePools f s t := by
  rw [SamePools, hp, List.map_map]
  exact List.map_congr_left fun p _ => Prod.ext (hg p).1 (hg p).2

theorem SamePools.updPool (s : State) (pid : BitVec 16) {g : Pool → Pool} (hg : ∀ p, (g p).cur.id = p.cur.id ∧ f (g p) = f p := by exact fun _ => ⟨rfl, rfl⟩) :
    SamePools f s (s.updPool pid g) := by
  refine .of_map rfl fun p => ?_
  split
  · exact hg p
  · exact ⟨rfl, rfl⟩

theorem SamePools.each {α : Type} {l : List α} {g : State → α → State} (hg : ∀ v a, SamePools f v (g v a)) (s : State) : SamePools f s (s.each l g) := by
  induction l generalizing s with
  | nil => exact .of_pools rfl
  | cons a l ih => exact (hg s a).trans (ih _)

/-- A pool that stands still stands, and agrees in the aspect. -/
theorem SamePools.pool {pid : BitVec 16} {p : Pool} (h : SamePools f s t) (hp : s.pool pid = some p) : ∃ q, t.pool pid = some q ∧ f q = f p := by
  have read : ∀ v : State, (v.pools.map fun p => (p.cur.id, f p)).find? (·.1 == pid) = (v.pool pid).map fun p => (p.cur.id, f p) :=
    fun _ => List.find?_map ..
  have ht := (read t).symm.trans ((congrArg _ h).trans (read s))
  rw [hp] at ht
  obtain ⟨q, hq, hfq⟩ := Option.map_eq_some_iff.mp ht
  exact ⟨q, hq, congrArg Prod.snd hfq⟩

end

theorem State.pool_of_pools (h : t.pools = s.pools) (pid : BitVec 16) : t.pool pid = s.pool pid := by
  unfold State.pool
  rw [h]

/-- The edge's number follows from the registers and the clock. -/
theorem State.edge_of (hr : t.regs = s.regs) (ht : t.tck = s.tck) : t.edge = s.edge := by
  unfold State.edge State.periodNs State.reg
  rw [hr, ht]

end Sys2Proof.Machine
end

section
/-!
The timers of the pools and the journal, each with its rule: the gather window (R75), the quiet bits (R109), MISSING members (R119), the end of a scrub cycle
(R136) and the relocation of the journal's tail (R93).
-/
namespace Sys2Proof.Machine

variable {s t u : State}

/-! ### The gather window (R75) -/

section Gather
variable {pid : BitVec 16} {lid n : Nat} {e : GEntry}

theorem Cch.makeDue_open {c : Cch} (hf : (c.gather.find? fun e => e.isOf pid lid n) = some e) (ho : e.st = .open_) (fua : Bool) :
    c.makeDue pid lid n fua = { c.updEntry pid lid n (fun e => { e with st := .due, offered := c.dueSeq, fua := e.fua || fua }) with dueSeq := c.dueSeq + 1 } := by
  unfold Cch.makeDue
  rw [hf]
  dsimp only
  rw [ho]

/-- The entry of a stripe after a change to it. -/
theorem Cch.find_updEntry {c : Cch} {g : GEntry → GEntry} (hf : (c.gather.find? fun e => e.isOf pid lid n) = some e)
    (hg : ∀ e : GEntry, (g e).isOf pid lid n = e.isOf pid lid n := by exact fun _ => rfl) : ((c.updEntry pid lid n g).gather.find? fun e => e.isOf pid lid n) = some (g e) := by
  have he : e.isOf pid lid n = true := List.find?_some (p := fun e : GEntry => e.isOf pid lid n) hf
  show (updIf c.gather _ g).find? _ = _
  rw [find_updIf _ _ _ _ hg, hf]
  exact congrArg some (if_pos he)

variable (hf : (s.cch.gather.find? fun e => e.isOf pid lid n) = some e)
include hf

theorem State.windowExpiry_early (h : s.edge < e.e0 + s.window e.vol) : s.windowExpiry pid lid n = s := by
  unfold State.windowExpiry
  rw [hf]
  exact if_neg fun ⟨_, hd⟩ => absurd hd (Nat.not_le.mpr h)

theorem gatherWindowExpiry_early (h : s.edge < e.e0 + s.window e.vol) : exec (.gatherWindowExpiry pid lid n) s = .next { s with out := [] } :=
  congrArg Host.Outcome.next (State.windowExpiry_early (s := s.clr) hf h)

variable (ho : e.st = .open_)
include ho

theorem State.windowExpiry_due (h : e.e0 + s.window e.vol ≤ s.edge) :
    s.windowExpiry pid lid n = { s with cch := s.cch.makeDue pid lid n false } := by
  unfold State.windowExpiry
  rw [hf]
  exact if_pos ⟨ho, h⟩

theorem gatherWindowExpiry_due (h : e.e0 + s.window e.vol ≤ s.edge) :
    ∃ t, exec (.gatherWindowExpiry pid lid n) s = .next t ∧
      (t.cch.gather.find? fun e => e.isOf pid lid n) = some { e with st := .due, offered := s.cch.dueSeq } ∧ t.cch.dueSeq = s.cch.dueSeq + 1 ∧
      Frame s t [.cch, .out] := by
  refine ⟨_, rfl, ?_, ?_, Frame.of_clr_keep State.windowExpiry_keep |>.mono (by decide)⟩ <;>
    rw [State.windowExpiry_due (s := s.clr) hf ho h, State.clr_cch, Cch.makeDue_open hf ho]
  refine (Cch.find_updEntry hf).trans ?_
  rw [Bool.or_false]

end Gather

/-! ### Quiet bits (R109) -/

/-- A bitmap with the bit of a region in a state. -/
def putBit (l : List BmBit) (v : BitVec 12) (r : Nat) (st : BmSt) : List BmBit :=
  updIf l (fun b => b.vol == v && b.region == r) fun b => { b with st := st }

theorem updIf_updIf {α : Type} {l : List α} {p : α → Bool} {f g : α → α} (hp : ∀ a, p (f a) = p a) : updIf (updIf l p f) p g = updIf l p fun a => g (f a) := by
  simp only [updIf, List.map_map]
  refine List.map_congr_left fun a _ => ?_
  by_cases h : p a <;> simp [h, hp]

theorem putBit_eq_map (l : List BmBit) (v : BitVec 12) (r : Nat) (st : BmSt) :
    putBit l v r st = l.map fun y => if y.vol = v ∧ y.region = r then { y with st := st } else y := by
  simp [putBit, updIf]

/-- A write to the journal members leaves the bitmaps alone. -/
theorem State.jmSend_bitmaps (s : State) (p : Pool) (blks : List (Nat × Block)) (purpose : MPurpose) :
    SamePools Pool.bitmap s (s.jmSend p blks purpose).1 := by
  unfold State.jmSend
  refine (SamePools.updPool s p.cur.id).trans (.of_keep (ws := [.mbr, .sched, .out]) (Keep.foldlFst (fun v i hv => ?_) (.refl _ _)) (by decide))
  dsimp only
  split
  · exact hv
  · exact State.sendNow_keep.app (by decide) hv

/-- Writing a bit as clear: it is clearing until the journal members have acknowledged it. -/
theorem State.writeBit_clearing {pid : BitVec 16} {p : Pool} (v : BitVec 12) (r : Nat) (hp : s.pool pid = some p) :
    ∃ x w, (s.writeBit pid v r false).pool pid = some x ∧ x.bitmap = putBit p.bitmap v r (.clearing w) := by
  have hput : ∀ st, (s.updPool pid fun p => { p with bitmap := putBit p.bitmap v r st }).pool pid = some { p with bitmap := putBit p.bitmap v r st } :=
    fun st => (State.pool_updPool (by exact fun _ => rfl)).trans (congrArg _ hp)
  unfold State.writeBit
  dsimp only
  split
  case h_1 hn => cases hn.symm.trans (hput _)
  case h_2 q hq =>
    cases hq.symm.trans (hput _)
    generalize hj : State.jmSend _ _ _ _ = sw
    obtain ⟨q, hq, hb⟩ := (hj ▸ State.jmSend_bitmaps _ _ _ _ : SamePools Pool.bitmap _ sw.1).pool hq
    refine ⟨{ q with bitmap := putBit q.bitmap v r (.clearing sw.2) }, sw.2, ?_, ?_⟩
    · rw [State.pool_of_pools (State.bump_pools ..)]
      exact (State.pool_updPool (by exact fun _ => rfl)).trans (congrArg _ hq)
    · show putBit q.bitmap v r _ = _
      rw [hb]
      exact updIf_updIf fun _ => rfl

section Quiet
variable {p : Pool} {b : BmBit} (hp : s.pool p.cur.id = some p) (hb : (p.bitmap.find? fun x => x.vol == b.vol && x.region == b.region) = some b)
  (hs : b.st = .isSet) (hbusy : s.regionBusy p b.vol b.region = false)
include hp hb hs hbusy

theorem State.quietExpiry_early (h : s.edge < b.touched + s.reg .jnlBmQuietTicks) : s.quietExpiry p.cur.id b.vol b.region = s := by
  unfold State.quietExpiry
  rw [hp]
  dsimp only
  rw [hb]
  simp [hs, hbusy, h]

theorem State.quietExpiry_quiet (ha : ∀ m ∈ p.nxt.members, m.state ≠ .missing ∧ m.state ≠ .returning) (hj : s.jmReady p = true)
    (hr : p.resync.contains (b.vol, b.region) = false) (h : b.touched + s.reg .jnlBmQuietTicks ≤ s.edge) :
    s.quietExpiry p.cur.id b.vol b.region = s.writeBit p.cur.id b.vol b.region false := by
  have haway : (p.nxt.members.any fun m => m.state == .missing || m.state == .returning) = false := by simpa using ha
  unfold State.quietExpiry
  rw [hp]
  dsimp only
  rw [hb]
  simp only [hs, hbusy, haway, hj, hr, decide_eq_false (Nat.not_lt.mpr h)]
  rfl

theorem bitmapQuietExpiry_quiet (ha : ∀ m ∈ p.nxt.members, m.state ≠ .missing ∧ m.state ≠ .returning) (hj : s.jmReady p = true)
    (hr : p.resync.contains (b.vol, b.region) = false) (h : b.touched + s.reg .jnlBmQuietTicks ≤ s.edge) :
    ∃ t x w, exec (.bitmapQuietExpiry p.cur.id b.vol b.region) s = .next t ∧ t.pool p.cur.id = some x ∧
      x.bitmap = p.bitmap.map (fun y => if y.vol = b.vol ∧ y.region = b.region then { y with st := .clearing w } else y) ∧
      Frame s t [.regs, .pools, .mbr, .sched, .out] := by
  obtain ⟨x, w, hx, hbm⟩ := State.writeBit_clearing (s := s.clr) b.vol b.region hp
  refine ⟨_, x, w, rfl, ?_, hbm.trans (putBit_eq_map ..), (Frame.of_clr_keep State.quietExpiry_keep).mono (by decide)⟩
  rw [State.quietExpiry_quiet (s := s.clr) hp hb hs hbusy ha hj hr h, hx]

end Quiet

/-! ### MISSING members (R119) -/

/-- The ids of the pools and the states of their members, which ending work leaves alone. -/
abbrev SameMembers : State → State → Prop := SamePools fun p => p.nxt.members

theorem State.endTask_members (s : State) (t : Task) : SameMembers s (s.endTask t) := by
  unfold State.endTask
  split
  · exact .of_keep (State.stopTask_keep.app (ws := [.cch, .seq]) (by decide) (State.undoDestage_keep.mono (by decide))) (by decide)
  · exact .of_keep State.updTask_keep (by decide)
  · exact (SamePools.of_keep State.stopTask_keep (by decide)).trans (.updPool ..)
  · refine .of_map rfl fun p => ?_
    split
    · split <;> exact ⟨rfl, rfl⟩
    · exact ⟨rfl, rfl⟩
  · exact .of_keep State.stopTask_keep (by decide)
  · exact .of_keep State.stopTask_keep (by decide)
  · exact .of_keep State.stopTask_keep (by decide)
  · exact .of_keep State.stopTask_keep (by decide)
  · exact .of_keep State.stopTask_keep (by decide)
  · exact .of_keep State.stopTask_keep (by decide)

theorem State.workLost_members (s : State) (c : MCmd) : SameMembers s (s.workLost c) := by
  have hstop : ∀ (id : Nat) (f : Task → Task), SameMembers s (match (s.updTask id f).task id with
      | some t => (s.updTask id f).endTask t
      | none => s.updTask id f) := by
    intro id f
    refine (SamePools.of_keep State.updTask_keep (by decide)).trans (t := s.updTask id f) ?_
    split
    · exact State.endTask_members _ _
    · exact .of_pools rfl
  unfold State.workLost
  dsimp only
  split
  · exact hstop _ _
  · exact hstop _ _
  · split
    · exact .of_pools rfl
    · exact .each (fun v o => .of_keep State.degrade_keep (by decide)) s
  all_goals exact .of_pools rfl

theorem State.leave_members (s : State) (pid : BitVec 16) (i : Nat) : SameMembers s (s.leave pid i) := by
  unfold State.leave
  dsimp only
  refine SamePools.trans ?_ (SamePools.updPool _ pid)
  refine SamePools.trans ?_ (.each (fun v c => ?_) _)
  · refine SamePools.trans (.of_pools (by exact rfl)) (.each (fun v id => ?_) _)
    split
    · exact State.endTask_members _ _
    · exact .of_pools rfl
  · split
    · exact State.workLost_members _ _
    · exact .of_pools rfl

theorem Pool.pauseFrond_members (p : Pool) : p.pauseFrond.cur.id = p.cur.id ∧ p.pauseFrond.nxt.members = p.nxt.members := by
  unfold Pool.pauseFrond
  split
  · split <;> exact ⟨rfl, rfl⟩
  · exact ⟨rfl, rfl⟩

theorem State.onErasure_members (s : State) (pid : BitVec 16) (i : Nat) : SameMembers s (s.onErasure pid i) := by
  unfold State.onErasure
  refine .trans (.trans (.updPool s pid fun p => ?_) (.of_keep State.unhold122_keep (by decide))) (.each (fun v p => ?_) _)
  · split <;> exact ⟨rfl, rfl⟩
  · split
    · unfold State.iff
      split
      · exact .updPool _ _ Pool.pauseFrond_members
      · exact .of_pools rfl
    · exact .of_pools rfl

/-- A member set FAILED is FAILED; so is one that the pool does not have. -/
theorem Pool.memState_setMem_failed (p : Pool) (i : Nat) : (p.setMem i .failed).memState i = .failed := by
  unfold Pool.memState
  show (((p.nxt.members.modify i _)[i]?).map _).getD _ = _
  rw [List.getElem?_modify]
  cases p.nxt.members[i]? <;> simp

theorem Pool.memState_of_members {p q : Pool} (h : q.nxt.members = p.nxt.members) (i : Nat) : q.memState i = p.memState i := by
  unfold Pool.memState
  rw [h]

/-- A member that fails is FAILED, and the pool's plan is built. -/
theorem State.memFail_failed {pid : BitVec 16} {p : Pool} {i : Nat} (hp : s.pool pid = some p) (hm : p.memState i ≠ .failed) :
    ∃ x, (s.memFail pid i).pool pid = some x ∧ x.memState i = .failed ∧ x.plan = true := by
  unfold State.memFail
  rw [hp]
  dsimp only
  rw [if_neg hm]
  have hbump := (State.pool_of_pools (s.bump_pools .mbrTmoCntN (s.mbr.cmds.filter fun c => c.pool == pid && c.idx == i).length 0) pid).trans hp
  obtain ⟨q, hq, -⟩ := (State.leave_members _ pid i).pool hbump
  have hset := (State.pool_updPool (by exact fun _ => rfl)).trans (congrArg (Option.map fun p : Pool =>
    { p.setMem i .failed with missAt := tdel p.missAt i, catchup := p.catchup.filter (fun e => e.1 ≠ i), cuLeft := p.cuLeft.filter fun e => e.1 ≠ i }) hq)
  obtain ⟨x, hx, hmem⟩ := (State.onErasure_members _ pid i).pool hset
  refine ⟨_, (State.pool_of_pools (State.log_pools ..) pid).trans ((State.pool_updPool (by exact fun _ => rfl)).trans (congrArg _ hx)), ?_, rfl⟩
  exact (Pool.memState_of_members hmem i).trans (q.memState_setMem_failed i)

section Missing
variable {p : Pool} {i e0 : Nat} (hp : s.pool p.cur.id = some p) (ht : tget p.missAt i = some e0)
include hp ht

theorem State.missingExpiry_early (h : s.edge < e0 + s.reg .seqMissLimitTicks) : s.missingExpiry p.cur.id i = s := by
  unfold State.missingExpiry
  rw [hp]
  dsimp only
  rw [ht]
  exact if_neg (by simp [Nat.not_le.mpr h])

theorem State.missingExpiry_due (hm : p.memState i = .missing) (h : e0 + s.reg .seqMissLimitTicks ≤ s.edge) :
    s.missingExpiry p.cur.id i = s.memFail p.cur.id i := by
  unfold State.missingExpiry
  rw [hp]
  dsimp only
  rw [ht]
  exact if_pos (by simp [hm, h])

theorem missingTimerExpiry_due (hm : p.memState i = .missing) (h : e0 + s.reg .seqMissLimitTicks ≤ s.edge) :
    ∃ t x, exec (.missingTimerExpiry p.cur.id i) s = .next t ∧ t.pool p.cur.id = some x ∧ x.memState i = .failed ∧ x.plan = true ∧
      Frame s t (writes (.missingTimerExpiry p.cur.id i)) := by
  obtain ⟨x, hx, hfail, hplan⟩ := State.memFail_failed (s := s.clr) (i := i) hp (by rw [hm]; decide)
  refine ⟨_, x, rfl, ?_, hfail, hplan, (Frame.of_clr_keep State.missingExpiry_keep).mono rfl⟩
  rw [State.missingExpiry_due (s := s.clr) hp ht hm h, hx]

end Missing

/-! ### The end of a scrub cycle (R136) -/

/-- The record of a cycle that ends at this edge. -/
def State.endedScrub (s : State) (p : Pool) (sc : ScrubMeta) : ScrubMeta :=
  { sc with late := decide (s.scrubDeadline sc < s.edge), pos := p.scrubPos, endEdge := s.edge }

/-- The body of the statement that a cycle's end asks for. -/
def State.scrubBody (s : State) (p : Pool) (sc : ScrubMeta) : Virek :=
  s.virekOf p (s.endedScrub p sc) ((p.cur.volumes.head?.map (·.layout)).getD ((p.cur.layouts.head?.map (·.id)).getD 0))

/-- A pool whose cycle has ended: the record of it is asked for, and the cycle's run-time state is cleared. -/
def Pool.cycleEnded (p : Pool) (sc : ScrubMeta) : Pool :=
  { (p.change fun m => { m with scrub := some sc }) with scrubRun := none, scrubOff := 0, scrubPos := (0, 0), scrubRedo := [] }

/-- The records of a cycle's end. -/
def State.logCycleEnd (s : State) (pid : BitVec 16) (late : Bool) (cycle : Nat) : State :=
  (s.iff late fun s => s.log .scrubLate 3 pid.toNat pid cycle).log .scrubCycleEnd 3 pid.toNat pid cycle

theorem State.logCycleEnd_keep {s : State} {pid : BitVec 16} {late : Bool} {cycle : Nat} : Keep s (s.logCycleEnd pid late cycle) [.regs, .evr] :=
  State.log_keep.app (by decide) (Keep.iff (.refl s _) fun _ hv => State.log_keep.app (by decide) hv)

/-- TRU is asked for a signature. -/
def State.requestSig (s : State) (r : SigReq) : State := { s with tru := { s.tru with reqs := s.tru.reqs ++ [r] } }

theorem State.requestSig_reqs (s : State) (r : SigReq) : (s.requestSig r).tru.reqs = s.tru.reqs ++ [r] := rfl

theorem State.requestSig_pool (s : State) (r : SigReq) (pid : BitVec 16) : (s.requestSig r).pool pid = s.pool pid := rfl

section Scrub
variable {p : Pool} {sc : ScrubMeta} (hp : s.pool p.cur.id = some p) (hr : p.scrubRun = some sc)
include hp hr

theorem State.scrubEnd_running (h : s.scrubBusy p = true ∨ p.scrubNext p.scrubList p.scrubPos ≠ none) : s.scrubEnd p.cur.id = s := by
  unfold State.scrubEnd
  rw [hp]
  dsimp only
  rw [hr]
  exact if_pos (by simpa [Option.isSome_iff_ne_none] using h)

theorem State.scrubEnd_covered (hb : s.scrubBusy p = false) (hn : p.scrubNext p.scrubList p.scrubPos = none) :
    s.scrubEnd p.cur.id = (((s.updPool p.cur.id (·.cycleEnded (s.endedScrub p sc))).logCycleEnd p.cur.id (s.endedScrub p sc).late sc.cycle).requestSig
      (.virek p.cur.id (s.scrubBody p sc))) := by
  unfold State.scrubEnd
  rw [hp]
  dsimp only
  rw [hr]
  dsimp only
  rw [if_neg (by simp [hb, hn])]
  rfl

theorem scrubCycleEnd_covered (hb : s.scrubBusy p = false) (hn : p.scrubNext p.scrubList p.scrubPos = none) :
    ∃ t x b, exec (.scrubCycleEnd p.cur.id) s = .next t ∧ t.pool p.cur.id = some x ∧ x.scrubRun = none ∧
      x.nxt.scrub = some { sc with late := decide (s.scrubDeadline sc < s.edge), pos := p.scrubPos, endEdge := s.edge } ∧
      t.tru.reqs = s.tru.reqs ++ [.virek p.cur.id b] ∧ b.cycle = sc.cycle ∧ b.endEdge = s.edge ∧ b.checked = sc.total ∧
      b.late = decide (s.scrubDeadline sc < s.edge) ∧ Frame s t [.regs, .pools, .tru, .evr, .out] := by
  refine ⟨_, p.cycleEnded (s.clr.endedScrub p sc), s.clr.scrubBody p sc, rfl, ?_, rfl, rfl, ?_, rfl, rfl, rfl, rfl,
    (Frame.of_clr_keep State.scrubEnd_keep).mono (by decide)⟩ <;> rw [State.scrubEnd_covered (s := s.clr) hp hr hb hn]
  · rw [State.requestSig_pool, State.pool_of_pools (State.logCycleEnd_keep.same .pools (by decide)), State.pool_updPool (by exact fun _ => rfl), show s.clr.pool p.cur.id = _ from hp]
    rfl
  · rw [State.requestSig_reqs, State.logCycleEnd_keep.same .tru (by decide)]
    rfl

end Scrub

/-! ### Relocation of the journal's tail (R93) -/

theorem State.jpush_jnl (s : State) (r : JRec) : (s.jpush r).jnl = s.jnl.push r := by
  unfold State.jpush State.iff
  dsimp only
  split <;> rfl

/-- One retire record takes the first six numbers that wait (R90). -/
def State.retireSix (s : State) : State :=
  { s.jpush (.retire (s.jnl.retireQ.take 6)) with jnl := { (s.jpush (.retire (s.jnl.retireQ.take 6))).jnl with retireQ := s.jnl.retireQ.drop 6 } }

theorem State.retireSix_jnl (s : State) :
    s.retireSix.jnl = { s.jnl.push (.retire (s.jnl.retireQ.take 6)) with retireQ := s.jnl.retireQ.drop 6 } := by
  unfold State.retireSix
  rw [State.jpush_jnl]

theorem State.appendRetires_waiting {s : State} (h : s.jnl.retireQ ≠ []) (fuel : Nat) : s.appendRetires (fuel + 1) = s.retireSix.appendRetires fuel := by
  rw [State.appendRetires]
  split
  case h_1 hq => exact absurd hq h
  case h_2 => rfl

/-- With fuel enough every number that waits is retired, and the unretired records stay. -/
theorem State.appendRetires_all (fuel : Nat) : ∀ s : State, s.jnl.retireQ.length ≤ fuel →
    (s.appendRetires fuel).jnl.live = s.jnl.live ∧ (s.appendRetires fuel).jnl.retireQ = [] := by
  induction fuel with
  | zero => exact fun s h => ⟨rfl, List.eq_nil_of_length_eq_zero (Nat.le_zero.mp h)⟩
  | succ fuel ih =>
    intro s h
    by_cases hq : s.jnl.retireQ = []
    · simp [State.appendRetires, hq]
    · rw [State.appendRetires_waiting hq]
      have hrest : s.retireSix.jnl.retireQ.length ≤ fuel := by
        rw [State.retireSix_jnl]
        simp only [List.length_drop]
        omega
      obtain ⟨hlive, hnil⟩ := ih _ hrest
      exact ⟨hlive.trans (by rw [State.retireSix_jnl]; rfl), hnil⟩

/-- Retire records take one place of the ring for each six numbers that wait; the others hold what they held. -/
theorem State.appendRetires_ring (k fuel : Nat) : ∀ s : State, (∀ j, 6 * j < s.jnl.retireQ.length → (s.jnl.next + BitVec.ofNat 32 j).toNat % ringSize ≠ k) →
    tget (s.appendRetires fuel).jnl.ring k = tget s.jnl.ring k := by
  induction fuel with
  | zero => exact fun _ _ => rfl
  | succ fuel ih =>
    intro s h
    by_cases hq : s.jnl.retireQ = []
    · simp [State.appendRetires, hq]
    · rw [State.appendRetires_waiting hq, ih, State.retireSix_jnl]
      · exact tget_tset_ne (by simpa using (h 0 (by simpa [List.length_pos_iff] using hq)).symm)
      · intro j hj
        rw [State.retireSix_jnl] at hj ⊢
        have hj' : 6 * (j + 1) < s.jnl.retireQ.length := by
          simp only [List.length_drop] at hj
          omega
        have hnext : s.jnl.next + 1 + BitVec.ofNat 32 j = s.jnl.next + BitVec.ofNat 32 (j + 1) := by
          rw [BitVec.add_assoc, BitVec.add_comm 1, BitVec.ofNat_add]
          rfl
        exact hnext ▸ h _ hj'

/-- The tail record is appended again at the head with the relocated flag, and its old number waits to retire. -/
def State.moveTail (s : State) (r : LiveRec) (rest : List LiveRec) : State :=
  let i := { r.intent with flags := r.intent.flags ||| 16 }
  let t := s.jpush (.intent i)
  { t with jnl := { t.jnl with live := rest ++ [{ r with no := s.jnl.next, intent := i, tick := t.edge }], retireQ := t.jnl.retireQ ++ [r.no] } }

theorem State.moveTail_jnl (s : State) (r : LiveRec) (rest : List LiveRec) :
    (s.moveTail r rest).jnl = { s.jnl.push (.intent { r.intent with flags := r.intent.flags ||| 16 }) with
      live := rest ++ [{ r with no := s.jnl.next, intent := { r.intent with flags := r.intent.flags ||| 16 }, tick := s.edge }]
      retireQ := s.jnl.retireQ ++ [r.no] } := by
  have he : ∀ x, (s.jpush x).edge = s.edge := fun x => State.edge_of (State.jpush_keep.same .regs (by decide)) (State.jpush_keep.same .tck (by decide))
  unfold State.moveTail
  dsimp only
  rw [he, State.jpush_jnl]
  rfl

section Relocation
variable {r : LiveRec} {rest : List LiveRec} (hl : s.jnl.live = r :: rest)
include hl

theorem State.relocate_full (h : 786432 ≤ s.jnl.used) :
    s.relocate = ((s.moveTail r rest).appendRetires ((s.moveTail r rest).jnl.retireQ.length + 1)).bump .jnlRelocCntN := by
  unfold State.relocate
  rw [hl]
  exact if_pos h

theorem State.relocate_early (h : s.jnl.used < 786432) : s.relocate = s := by
  unfold State.relocate
  rw [hl]
  exact if_neg (Nat.not_le.mpr h)

end Relocation

/-- The records that retire the numbers behind a new record stand elsewhere in the ring, when they are no more than its places. -/
theorem ring_apart (n : BitVec 32) {j : Nat} (hj : j + 1 < ringSize) : (n + 1 + BitVec.ofNat 32 j).toNat % ringSize ≠ n.toNat % ringSize := by
  unfold ringSize at *
  simp only [BitVec.toNat_add, BitVec.toNat_ofNat, show (1 : BitVec 32).toNat = 1 from rfl]
  omega

theorem journalRelocation_full {r : LiveRec} {rest : List LiveRec} (hl : s.jnl.live = r :: rest) (h : 786432 ≤ s.jnl.used) :
    ∃ t, exec .journalRelocation s = .next t ∧
      t.jnl.live = rest ++ [{ r with no := s.jnl.next, intent := { r.intent with flags := r.intent.flags ||| 16 }, tick := s.edge }] ∧ t.jnl.retireQ = [] ∧
      (s.jnl.retireQ.length < 2 ^ 20 → tget t.jnl.ring (s.jnl.next.toNat % ringSize) = some (.intent { r.intent with flags := r.intent.flags ||| 16 })) ∧
      Frame s t [.regs, .jnl, .rop, .out] := by
  refine ⟨_, rfl, ?_⟩
  have hj : s.clr.relocate.jnl = _ := (congrArg State.jnl (State.relocate_full (s := s.clr) hl h)).trans (State.bump_jnl ..)
  obtain ⟨hlive, hnil⟩ := State.appendRetires_all _ (s.clr.moveTail r rest) (Nat.le_succ _)
  rw [hj]
  refine ⟨hlive.trans (by rw [State.moveTail_jnl]; rfl), hnil, fun hq => ?_, (Frame.of_clr_keep State.relocate_keep).mono (by decide)⟩
  rw [State.appendRetires_ring]
  · rw [State.moveTail_jnl]
    exact tget_tset_same ..
  · intro j hlt
    rw [State.moveTail_jnl] at hlt ⊢
    simp only [List.length_append, List.length_singleton] at hlt
    exact ring_apart _ (by unfold ringSize; simp only [State.clr_jnl] at hlt; omega)

/-! ### The obligation -/

/-- Settles O58: each timer has its case before its time, where nothing changes, and its case at it. -/
theorem patrolTimers : Obligations.PatrolTimers := by
  unfold Obligations.PatrolTimers
  refine ⟨fun s pid lid n e hf ho => ⟨gatherWindowExpiry_due hf ho, gatherWindowExpiry_early hf⟩, fun s p b hp hb hs hbusy ha hj hr => ⟨fun h => ?_, fun h => ?_⟩,
    fun s p i e0 hp ht hm => ⟨missingTimerExpiry_due hp ht hm, fun h => congrArg Host.Outcome.next (State.missingExpiry_early (s := s.clr) hp ht h)⟩,
    fun s p sc hp hr => ⟨scrubCycleEnd_covered hp hr, fun h => congrArg Host.Outcome.next (State.scrubEnd_running (s := s.clr) hp hr h)⟩,
    fun s r rest hl => ⟨journalRelocation_full hl, fun h => congrArg Host.Outcome.next (State.relocate_early (s := s.clr) hl h)⟩⟩
  · exact bitmapQuietExpiry_quiet hp hb hs hbusy ha hj hr h
  · exact congrArg Host.Outcome.next (State.quietExpiry_early (s := s.clr) hp hb hs hbusy h)

end Sys2Proof.Machine
end

section
/-!
MEMORY_INIT to MEMBER_DISCOVERY (R66, R69, R175, R337, R339, R371): how HBM is laid out, which flush VAULT_RECOVERY takes, and when the states end.
-/
namespace Sys2Proof.Machine

variable {s t u : State}

/-! ### MEMORY_INIT (R66, R69) -/

/-- First bytes of regions that lie one after the other from an address on, their sizes in MiB. -/
def startsFrom (a : Nat) : List Nat → List Nat
  | [] => []
  | n :: l => a :: startsFrom (a + n * 2 ^ 20) l

theorem regionBases_eq (i : Image) (v : Variant) : regionBases i v = startsFrom 0 (regionSizes i v) := by
  have fold : ∀ (l acc : List Nat) (a : Nat),
      (l.foldl (fun (acc : List Nat × Nat) n => (acc.1 ++ [acc.2], acc.2 + n * 2 ^ 20)) (acc, a)).1 = acc ++ startsFrom a l := by
    intro l
    induction l with
    | nil => exact fun acc a => (List.append_nil acc).symm
    | cons n l ih =>
      intro acc a
      rw [List.foldl_cons, ih, List.append_assoc]
      rfl
  exact fold (regionSizes i v) [] 0

/-- A region begins where the one before it ends. -/
theorem startsFrom_succ : ∀ (l : List Nat) (a k : Nat), k + 1 < l.length →
    ∃ b, (startsFrom a l)[k]? = some b ∧ (startsFrom a l)[k + 1]? = some (b + l.getD k 0 * 2 ^ 20)
  | _ :: _ :: _, a, 0, _ => ⟨a, rfl, rfl⟩
  | n :: l, a, k + 1, h => startsFrom_succ l (a + n * 2 ^ 20) k (Nat.lt_of_succ_lt_succ h)

theorem State.memoryReady_failed (hb : s.booting .memoryInit = true) : s.memoryReady false = s.bootHalt 0x0E := by
  unfold State.memoryReady
  rw [if_neg (by simp [hb]), if_pos (by decide)]

/-- An area of whole GiB holds as many slots of 4,160 bytes as fit. -/
theorem slotsIn_gib (n : Nat) : slotsIn (n * 1024) = n * 2 ^ 30 / 4160 := by
  unfold slotsIn
  rw [Nat.mul_assoc, show 1024 * 2 ^ 20 = 2 ^ 30 from rfl]

theorem State.memoryReady_laid {i : Image} (hb : s.booting .memoryInit = true) (hi : s.mgt.image = some i) :
    s.memoryReady true = { s with phase := .vaultRecovery, cch := { s.cch with
      dirtySlots := i.dirtyGib * 2 ^ 30 / 4160, recvSlots := recvGib i * 2 ^ 30 / 4160
      cleanSlots := (hbmMib s.part.variant - regionsMib i) * 2 ^ 20 / 4160, regions := regionBases i s.part.variant } } := by
  unfold State.memoryReady
  rw [if_neg (by simp [hb]), if_neg (by decide), hi]
  dsimp only
  rw [slotsIn_gib, slotsIn_gib]
  rfl

theorem memoryInitDone_failed (hb : s.booting .memoryInit = true) :
    ∃ t, exec (.memoryInitDone false) s = .next t ∧ t.phase = .memoryInit ∧ t.mgt = { s.mgt with bootHalt := true, cause := 0x0E } ∧
      t.reg .glbAlertBootHalt = 1 ∧ Frame s t [.regs, .mgt, .out] := by
  have hp : s.phase = .memoryInit := by
    simp only [State.booting, Bool.and_eq_true, beq_iff_eq] at hb
    exact hb.1.1
  refine ⟨s.clr.bootHalt 0x0E, congrArg Host.Outcome.next (State.memoryReady_failed (s := s.clr) hb), hp, rfl, ?_, (Frame.of_clr_keep State.bootHalt_keep).mono (by decide)⟩
  unfold State.bootHalt
  rw [State.reg_setReg]
  rfl

/-! ### VAULT_RECOVERY (R371) -/

/-- ROPE_JOIN begins: the next target begins to be erased (R365), and the period counts from this edge (R337). -/
def State.enterRopeJoin (s : State) : State := { s with phase := .ropeJoin, vlt := s.vlt.eraseTarget, mgt := { s.mgt with joinAt := s.edge } }

theorem State.enterRopeJoin_keep : Keep s s.enterRopeJoin [.phase, .vlt, .mgt] := Keep.set_phase_vlt_mgt (.refl _ _) (by decide) ⟨rfl, rfl, rfl⟩ rfl rfl rfl

/-- Every flush that the areas hold has its phase 1 seal, so none is logged as incomplete. -/
def Vlt.complete (v : Vlt) : Prop := ∀ e ∈ v.flushes, e.2.ph1.isSome = true

theorem State.logIncomplete_of_complete (h : s.vlt.complete) : s.logIncomplete = s := by
  have hnone : (s.vlt.flushes.filter fun e => e.2.ph1.isNone && !e.2.incLogged) = [] :=
    List.filter_eq_nil_iff.mpr fun e he => by simp [Option.isSome_iff_ne_none.mp (h e he)]
  unfold State.logIncomplete
  rw [hnone]
  rfl

section Recovery
variable (hb : s.booting .vaultRecovery = true) (hc : s.vlt.complete)
include hb hc

theorem State.vaultRecovered_none (hn : s.vlt.candidate = none) (ok1 ok2 : Bool) : s.vaultRecovered ok1 ok2 = s.newSaved.enterRopeJoin := by
  unfold State.vaultRecovered
  rw [if_neg (by simp [hb]), State.logIncomplete_of_complete hc]
  dsimp only
  rw [hn]
  rfl

variable {a : Nat} {f : Flush} (hf : s.vlt.candidate = some (a, f))
include hf

theorem State.vaultRecovered_loads (ok2 : Bool) : s.vaultRecovered true ok2 = (s.loadFlush a f ok2).enterRopeJoin := by
  unfold State.vaultRecovered
  rw [if_neg (by simp [hb]), State.logIncomplete_of_complete hc]
  dsimp only
  rw [hf]
  rfl

theorem State.vaultRecovered_bad (ok2 : Bool) : s.vaultRecovered false ok2 = (s.log .vaultFlushBad).newSaved.enterRopeJoin := by
  unfold State.vaultRecovered
  rw [if_neg (by simp [hb]), State.logIncomplete_of_complete hc]
  dsimp only
  rw [hf]
  rfl

end Recovery

/-- The areas hold a flush that no start has consumed, and it is the newest. -/
def Vlt.Holds (v : Vlt) (a : Nat) (f g : Flush) : Prop :=
  v.areas = [some f, none] ∧ a = 0 ∨ v.areas = [none, some f] ∧ a = 1 ∨
    g.ph1.isSome = true ∧ g.num < f.num ∧ (v.areas = [some f, some g] ∧ a = 0 ∨ v.areas = [some g, some f] ∧ a = 1)

theorem Vlt.flushes_of_areas {v : Vlt} {x y : Option Flush} (h : v.areas = [x, y]) :
    v.flushes = (x.map fun f => (0, f)).toList ++ (y.map fun f => (1, f)).toList := by
  unfold Vlt.flushes
  rw [h]
  cases x <;> cases y <;> rfl

/-- The newest flush is the one to recover (R371). -/
theorem Vlt.Holds.candidate {v : Vlt} {a : Nat} {f g : Flush} (h : v.Holds a f g) (h1 : f.ph1.isSome = true) (hu : f.consumed = false) :
    v.complete ∧ v.candidate = some (a, f) := by
  unfold Vlt.complete Vlt.candidate
  rcases h with ⟨ha, rfl⟩ | ⟨ha, rfl⟩ | ⟨hg, hn, ⟨ha, rfl⟩ | ⟨ha, rfl⟩⟩ <;> rw [Vlt.flushes_of_areas ha]
  · simp [h1, hu]
  · simp [h1, hu]
  · cases hgc : g.consumed <;> simp [h1, hu, hg, hgc, BitVec.not_lt.mpr (BitVec.le_of_lt hn)]
  · cases hgc : g.consumed <;> simp [h1, hu, hg, hgc, hn]

/-- Empty areas hold nothing to recover. -/
theorem Vlt.candidate_of_empty {v : Vlt} (h : v.areas = [none, none]) : v.complete ∧ v.candidate = none := by
  unfold Vlt.complete Vlt.candidate
  rw [Vlt.flushes_of_areas h]
  exact ⟨fun _ he => absurd he List.not_mem_nil, rfl⟩

section Load
variable (s : State) (a : Nat) (f : Flush) (ok2 : Bool)

theorem State.loadFlush_edge : (s.loadFlush a f ok2).edge = s.edge :=
  OtherFields.edge_eq (State.bump_other _ .vltFlushCntN 1 0) (by decide) (State.bump_tck ..)

theorem State.loadFlush_mgt : (s.loadFlush a f ok2).mgt = s.mgt := State.loadFlush_keep.same .mgt (by decide)

theorem State.loadFlush_vlt : (s.loadFlush a f ok2).vlt = { s.vlt with
    loaded := some a, recovered := true, ph2Loaded := f.ph2.isSome && ok2, lastMs := ((if f.ph2.isSome && ok2 then f.ph2 else f.ph1).map (·.1)).getD 0 } :=
  State.bump_vlt ..

theorem State.loadFlush_rop : (s.loadFlush a f ok2).rop = if f.ph2.isSome && ok2 then { s.rop with mirror := f.mirror, recv := f.recv } else s.rop :=
  State.bump_rop ..

theorem State.loadFlush_fix {x : Fix} (hx : f.fix = some x) : (s.loadFlush a f ok2).fix =
    { s.fix with ctxs := x.ctxs, reuse := x.reuse, saved := x.saved, kCtx := x.kCtx, saveSeq := x.saveSeq } := by
  unfold State.loadFlush
  rw [State.bump_fix, hx]
  rfl

end Load

/-- VAULT_RECOVERY loads the newest flush: phase 1 always, phase 2 when it was sealed. -/
theorem vaultRecoveryDone_loads {a : Nat} {f g : Flush} (hb : s.booting .vaultRecovery = true) (h1 : f.ph1.isSome = true) (hu : f.consumed = false)
    (hh : s.vlt.Holds a f g) :
    ∃ t, exec (.vaultRecoveryDone true true) s = .next t ∧ t.phase = .ropeJoin ∧ t.mgt = { s.mgt with joinAt := s.edge } ∧ t.vlt.loaded = some a ∧
      t.vlt.recovered = true ∧ t.vlt.ph2Loaded = f.ph2.isSome ∧
      (∀ x, f.fix = some x → t.fix = { s.fix with ctxs := x.ctxs, reuse := x.reuse, saved := x.saved, kCtx := x.kCtx, saveSeq := x.saveSeq }) ∧
      (f.ph2.isSome = true → t.rop = { s.rop with mirror := f.mirror, recv := f.recv }) ∧ (f.ph2.isSome = false → t.rop = s.rop) ∧
      Frame s t [.phase, .regs, .fix, .rop, .vlt, .mgt, .out] := by
  obtain ⟨hc, hf⟩ := hh.candidate h1 hu
  have hk : Keep s.clr (s.clr.loadFlush a f true).enterRopeJoin [.phase, .regs, .fix, .rop, .vlt, .mgt] :=
    State.enterRopeJoin_keep.app (by decide) (State.loadFlush_keep.mono (by decide))
  have hv := s.clr.loadFlush_vlt a f true
  have hr := s.clr.loadFlush_rop a f true
  rw [Bool.and_true] at hv hr
  refine ⟨(s.clr.loadFlush a f true).enterRopeJoin, congrArg Host.Outcome.next (State.vaultRecovered_loads (s := s.clr) hb hc hf true), rfl, ?_, ?_, ?_, ?_, fun x hx => ?_,
    fun h2 => ?_, fun h2 => ?_, (Frame.of_clr_keep hk).mono (by decide)⟩
  · unfold State.enterRopeJoin
    rw [State.loadFlush_edge, State.loadFlush_mgt]
    rfl
  · exact congrArg (fun v : Vlt => v.eraseTarget.loaded) hv
  · exact congrArg (fun v : Vlt => v.eraseTarget.recovered) hv
  · exact congrArg (fun v : Vlt => v.eraseTarget.ph2Loaded) hv
  · exact s.clr.loadFlush_fix a f true hx
  · exact hr.trans (if_pos h2)
  · exact hr.trans (if_neg (by simp [h2]))

/-- When phase 1 cannot be read the table of saved contexts is made anew (R175), and nothing is loaded. -/
theorem vaultRecoveryDone_bad {a : Nat} {f : Flush} (b : Bool) (hb : s.booting .vaultRecovery = true) (hc : s.vlt.complete)
    (hf : s.vlt.candidate = some (a, f)) :
    ∃ t, exec (.vaultRecoveryDone false b) s = .next t ∧ t.phase = .ropeJoin ∧ t.vlt.loaded = s.vlt.loaded ∧ t.vlt.areas = s.vlt.areas ∧
      t.fix = { s.fix with saved := [], kCtx := Config.trng s.tru.trng } ∧ Frame s t [.phase, .regs, .fix, .vlt, .tru, .evr, .mgt, .out] := by
  have hlog : Keep s.clr (s.clr.log .vaultFlushBad) [.regs, .evr] := State.log_keep
  have hk : Keep s.clr (s.clr.log .vaultFlushBad).newSaved.enterRopeJoin [.phase, .regs, .fix, .vlt, .tru, .evr, .mgt] :=
    State.enterRopeJoin_keep.app (by decide) (State.newSaved_keep.app (by decide) (hlog.mono (by decide)))
  have hv : (s.clr.log .vaultFlushBad).newSaved.vlt = s.vlt := State.log_vlt ..
  refine ⟨_, congrArg Host.Outcome.next (State.vaultRecovered_bad (s := s.clr) hb hc hf b), rfl, ?_, ?_, ?_, (Frame.of_clr_keep hk).mono (by decide)⟩
  · exact congrArg (fun v : Vlt => v.eraseTarget.loaded) hv
  · exact congrArg (fun v : Vlt => v.eraseTarget.areas) hv
  · show (s.clr.log .vaultFlushBad).newSaved.fix = _
    unfold State.newSaved
    rw [State.log_fix, State.log_tru]
    rfl

/-! ### ROPE_JOIN (R337, R339) -/

/-- What asking one member leaves as it is, asking all of them leaves. -/
theorem State.askAll_same {γ : Type} {g : State → γ} (h : ∀ v num port, g (State.askAdmit v num port) = g v) (l : List ImgMember) (port : Nat) :
    ∀ s : State, g (s.each l fun v m => v.askAdmit m.num port) = g s := by
  induction l with
  | nil => exact fun _ => rfl
  | cons m l ih => exact fun s => (ih (s.askAdmit m.num port)).trans (h s m.num port)

/-- MEMBER_DISCOVERY begins: its period counts from this edge, and every member of the image is to be asked. -/
theorem State.startDiscovery_asks {i : Image} (hi : s.mgt.image = some i) :
    s.startDiscovery.phase = .memberDiscovery ∧ s.startDiscovery.mgt = { s.mgt with discAt := s.edge } ∧
      s.startDiscovery.mbr.members = i.members.map IMember.fresh := by
  unfold State.startDiscovery
  rw [hi]
  exact ⟨State.askAll_same (g := State.phase) (fun _ _ _ => rfl) .., State.askAll_same (g := State.mgt) (fun _ _ _ => rfl) ..,
    State.askAll_same (g := fun v => v.mbr.members) (fun _ _ _ => rfl) ..⟩

section Join
variable {i : Image} (hb : s.booting .ropeJoin = true) (hh : s.mgt.held = false)
include hb hh

theorem State.joinDone_joined (hj : s.joined = true) : s.joinDone = s.startDiscovery := if_pos (by simp [hb, hh, hj])

theorem State.joinExpiry_due (hl : s.tck.isLocal = false) (h : s.mgt.joinAt + s.reg .mgtJoinTicks ≤ (s.edge : Int)) : s.joinExpiry = s.startDiscovery := by
  unfold State.joinExpiry
  rw [if_pos (by simp [hb, hh, h]), State.iff, if_neg (by simp [hl])]

end Join

theorem State.joined_iff : s.joined = true ↔ s.tck.lock = .locked ∧ ∀ a, s.partnerAddr = some a → s.peerUp a = true := by
  unfold State.joined
  cases s.partnerAddr <;> simp

theorem State.joinDone_held (hh : s.mgt.held = true) : s.joinDone = s := if_neg (by simp [hh])

theorem State.joinExpiry_held (hh : s.mgt.held = true) : s.joinExpiry = s := if_neg (by simp [hh])

/-! ### The obligation -/

/-- Settles O15: each state's end on the state that it finds, and its guard where it does not end. -/
theorem startMemoryAndJoin : Obligations.StartMemoryAndJoin := by
  unfold Obligations.StartMemoryAndJoin
  refine ⟨⟨fun s i hb hi => congrArg Host.Outcome.next (State.memoryReady_laid (s := s.clr) hb hi), fun i v k => ?_, fun s => memoryInitDone_failed,
      fun s a f g hb h1 hu hh => vaultRecoveryDone_loads hb h1 hu hh, fun s a f b hb h1 hu hh => ?_, fun s a b hb hn => ?_⟩,
    fun s i hb hh hi hl hp => ?_, fun s i hb hh hi hl he => ?_,
    fun s hb hh => ⟨congrArg Host.Outcome.next (State.joinDone_held (s := s.clr) hh), congrArg Host.Outcome.next (State.joinExpiry_held (s := s.clr) hh)⟩,
    fun s hb hm => congrArg Host.Outcome.next (if_pos ?_), fun s hb he => congrArg Host.Outcome.next (if_pos ?_),
    fun s hb he => congrArg Host.Outcome.next (if_neg ?_)⟩
  · rw [regionBases_eq]
    exact ⟨rfl, fun hk => startsFrom_succ _ _ _ (Nat.succ_lt_succ hk)⟩
  · obtain ⟨hc, hf⟩ := Vlt.Holds.candidate (g := f) (hh.elim .inl fun h => .inr (.inl h)) h1 hu
    exact vaultRecoveryDone_bad b hb hc hf
  · obtain ⟨hc, hf⟩ := Vlt.candidate_of_empty hn
    exact congrArg Host.Outcome.next (State.vaultRecovered_none (s := s.clr) hb hc hf a b)
  · obtain ⟨hphase, hmgt, hmem⟩ := State.startDiscovery_asks (s := s.clr) hi
    exact ⟨_, congrArg Host.Outcome.next (State.joinDone_joined (s := s.clr) hb hh (State.joined_iff.mpr ⟨hl, hp⟩)), hphase, hmgt, hmem,
      (Frame.of_clr_keep State.startDiscovery_keep).mono (by decide)⟩
  · obtain ⟨hphase, hmgt, hmem⟩ := State.startDiscovery_asks (s := s.clr) hi
    exact ⟨_, congrArg Host.Outcome.next (State.joinExpiry_due (s := s.clr) hb hh hl he), hphase, hmgt, hmem,
      (Frame.of_clr_keep State.startDiscovery_keep).mono (by decide)⟩
  · show (s.booting .memberDiscovery && s.mbr.members.all (·.checked)) = true
    simpa [hb] using hm
  · show (s.booting .memberDiscovery && decide (s.edge ≥ s.mgt.discAt + s.reg .mgtDiscTicks)) = true
    simpa [hb] using he
  · show ¬(s.booting .memberDiscovery && decide (s.edge ≥ s.mgt.discAt + s.reg .mgtDiscTicks)) = true
    simpa [hb] using he

end Sys2Proof.Machine
end

section
/-!
The members of a pool: ADD_MEMBERS, REMOVE_MEMBERS, DECLARE_FAILED and REPLACE_MEMBER (R119, R130, R142, R226), and the obligation on them.
-/
namespace Sys2Proof.Machine

variable {s t u v : State} {src : AdmSrc} {tag pid : BitVec 16} {p : Pool} {i : Nat} {m : MemberRec}

/-! ### The commands -/

theorem exec_addMembers (src : AdmSrc) (tag pid : BitVec 16) (addr : BitVec 64) (len : BitVec 32) (blk : HostRead (List Nat)) (s : State) :
    exec (.addMembers src tag pid addr len blk) s =
      .next (s.clr.takeSerial src tag false (.addMembers src tag pid addr len blk) fun s => s.poolAdd src tag pid addr len blk) := rfl

theorem exec_removeMembers (src : AdmSrc) (tag pid : BitVec 16) (addr : BitVec 64) (len : BitVec 32) (blk : HostRead (List Nat)) (s : State) :
    exec (.removeMembers src tag pid addr len blk) s =
      .next (s.clr.takeSerial src tag false (.removeMembers src tag pid addr len blk) fun s => s.poolRemove src tag pid addr len blk) := rfl

theorem exec_declareFailed (src : AdmSrc) (tag pid : BitVec 16) (i : Nat) (s : State) :
    exec (.declareFailed src tag pid i) s = .next (s.clr.takeSerial src tag false (.declareFailed src tag pid i) fun s => s.poolFail src tag pid i) := rfl

theorem exec_replaceMember (src : AdmSrc) (tag pid : BitVec 16) (i img : Nat) (s : State) :
    exec (.replaceMember src tag pid i img) s =
      .next (s.clr.takeSerial src tag false (.replaceMember src tag pid i img) fun s => s.poolReplace src tag pid i img) := rfl

/-! ### What taking a command leaves of the checks on members -/

theorem State.geo_of_mbr (h : t.mbr = s.mbr) : t.geo = s.geo := by
  have hdoms : t.domsOf = s.domsOf := by
    funext p i
    unfold State.domsOf State.img
    rw [h]
  funext p d
  unfold State.geo
  rw [hdoms]

section
variable (h : Taken s u src tag)
include h

theorem Taken.pools : u.pools = s.pools := h.frame.2.2 .pools (by decide)

theorem Taken.mbr : u.mbr = s.mbr := h.frame.2.2 .mbr (by decide)

theorem Taken.imgUsed (num : Nat) : u.imgUsed num = s.imgUsed num := by
  unfold State.imgUsed
  rw [h.pools]

theorem Taken.mayJoin (num : Nat) (pid : BitVec 16) (i : Nat) : u.mayJoin num pid i = s.mayJoin num pid i := by
  unfold State.mayJoin
  rw [h.mbr]

theorem Taken.joinFault (p : Pool) (nums : List Nat) : u.joinFault p nums = s.joinFault p nums := by
  simp only [State.joinFault, h.imgUsed, h.mayJoin]

theorem Taken.unrestored (p : Pool) (i : Nat) : u.unrestored p i = s.unrestored p i := by
  unfold State.unrestored
  rw [State.geo_of_mbr h.mbr]

/-- A command that has changed some parts waits for the commit of a pool: the wait, and the frame. -/
theorem Taken.waits {vs ws : List Sec} (hk : Keep u v vs) (pid : BitVec 16) (st : Stat) (hv : within vs ws = true)
    (hw : within [.qe, .hif, .mgt, .out] ws = true) :
    WaitsFor (v.admWait src tag pid st) src tag pid st ∧ Frame s (v.admWait src tag pid st) ws := by
  have hwait : Keep u (v.admWait src tag pid st) ws := (hk.mono hv).trans (State.admWait_keep.mono (within_trans (by decide) hw))
  exact ⟨State.admWait_waits .., (h.frame.mono (within_trans (by decide) hw)).trans ⟨hwait.pending, hwait.part, hwait.same⟩⟩

end

theorem State.checked_aligned {addr : BitVec 64} {len : BitVec 32} (ha : addr.toNat % 64 = 0) (hl : len.toNat % 64 = 0) (go : State → State) :
    s.checked src tag [misaligned [addr.toNat, len.toNat]] go = go s := by
  simp [State.checked, misaligned, ha, hl]

/-! ### The changes that are asked for (R142, R226) -/

/-- Reading a pool that stands after a change to it. -/
theorem State.pool_updPool_some {f : Pool → Pool} (hp : s.pool pid = some p) (hf : ∀ p, (f p).cur.id = p.cur.id := by exact fun _ => rfl) :
    (s.updPool pid f).pool pid = some (f p) := by
  rw [State.pool_updPool hf, hp]
  rfl

theorem State.joinMembers_pool (s : State) (pid : BitVec 16) (idxs : List Nat) (pid' : BitVec 16) : (s.joinMembers pid idxs).pool pid' = s.pool pid' :=
  State.pool_of_pools (State.joinMembers_keep.same .pools (by decide)) pid'

theorem State.joinMembers_leaving (pid : BitVec 16) (idxs : List Nat) (s : State) : (s.joinMembers pid idxs).mbr.leaving = s.mbr.leaving := by
  induction idxs generalizing s with
  | nil => rfl
  | cons i r ih =>
    refine (ih _).trans ?_
    dsimp only
    split
    · rfl
    · split <;> rfl

/-- ADD_MEMBERS: the namespaces take the next indices of a pool, and join there. -/
def State.addToPool (s : State) (p : Pool) (pid : BitVec 16) (nums : List Nat) : State :=
  (s.updPool pid fun p => p.change fun m => { m with members := m.members ++ nums.map fun k => ⟨k, .active⟩ }).joinMembers pid
    ((List.range nums.length).map (· + p.nxt.members.length))

theorem State.addToPool_keep (s : State) (p : Pool) (pid : BitVec 16) (nums : List Nat) : Keep s (s.addToPool p pid nums) [.pools, .mbr] :=
  (State.updPool_keep.mono (by decide)).trans (State.joinMembers_keep.mono (by decide))

theorem State.addToPool_pool (hp : s.pool pid = some p) (nums : List Nat) :
    ∃ x, (s.addToPool p pid nums).pool pid = some x ∧ x.nxt.members = p.nxt.members ++ nums.map fun k => ⟨k, .active⟩ :=
  ⟨_, (State.joinMembers_pool ..).trans (State.pool_updPool_some hp), rfl⟩

/-- A namespace that served a pool is to leave. -/
def State.leaves (s : State) (img : Nat) : State := { s with mbr := { s.mbr with leaving := s.mbr.leaving ++ [img] } }

theorem State.leaves_keep (s : State) (img : Nat) : Keep s (s.leaves img) [.mbr] := Keep.set_mbr (.refl ..) (by decide) rfl

/-- REMOVE_MEMBERS of one member: its namespace is to leave, and its index stays as a hole. -/
def State.leaveHole (s : State) (pid : BitVec 16) (i img : Nat) : State :=
  (s.leaves img).updPool pid fun p => p.change fun m => { m with members := m.members.modify i fun _ => ⟨holeImg, .failed⟩ }

theorem State.leaveHole_keep (s : State) (pid : BitVec 16) (i img : Nat) : Keep s (s.leaveHole pid i img) [.pools, .mbr] :=
  ((s.leaves_keep img).mono (by decide)).trans (State.updPool_keep.mono (by decide))

theorem State.leaveHole_pool (hp : s.pool pid = some p) (hm : p.nxt.members[i]? = some m) (img : Nat) :
    ∃ x, (s.leaveHole pid i img).pool pid = some x ∧ x.nxt.members = p.nxt.members.set i ⟨holeImg, .failed⟩ :=
  ⟨_, State.pool_updPool_some hp, modify_eq_set_of_getElem? _ hm⟩

/-- DECLARE_FAILED: the member is named for the next edge (R11). -/
def State.nameFailed (s : State) (pid : BitVec 16) (i : Nat) : State := { s with mgt := { s.mgt with declared := s.mgt.declared ++ [(pid, i)] } }

theorem State.nameFailed_keep (s : State) (pid : BitVec 16) (i : Nat) : Keep s (s.nameFailed pid i) [.mgt] :=
  Keep.set_mgt (.refl ..) (by decide) ⟨rfl, rfl, rfl⟩ rfl rfl

/-- The exposure of the layouts that have a member on their list is logged (R58). -/
def State.checkLayoutsOf (s : State) (pid : BitVec 16) (i : Nat) : State :=
  match s.pool pid with
  | some q => s.each (q.cur.layouts.filter fun d => (q.listOf d).contains i) fun s d => s.checkDomains pid (s.geo q d)
  | none => s

theorem State.checkLayoutsOf_keep (s : State) (pid : BitVec 16) (i : Nat) : Keep s (s.checkLayoutsOf pid i) [.regs, .evr] := by
  unfold State.checkLayoutsOf
  split
  · exact .each (.refl ..) fun _ _ h => h.trans State.checkDomains_keep
  · exact .refl ..

/-- REPLACE_MEMBER: the old namespace is to leave, the new one joins at its index in COPYBACK, and the strips listed are unrestored (R130). -/
def State.putReplacement (s : State) (pid : BitVec 16) (i old img : Nat) (left : List (Nat × Nat × Nat)) : State :=
  (((s.leaves old).updPool pid fun p => p.change fun m =>
    { m with members := m.members.modify i (fun _ => ⟨img, .copyback⟩), unrest := m.unrest ++ left }).joinMembers pid [i]).checkLayoutsOf pid i

section
variable (s) (pid) (i old img : Nat) (left : List (Nat × Nat × Nat))

theorem State.putReplacement_keep : Keep s (s.putReplacement pid i old img left) [.regs, .pools, .mbr, .evr] :=
  ((((s.leaves_keep old).mono (by decide)).trans (State.updPool_keep.mono (by decide))).trans (State.joinMembers_keep.mono (by decide))).trans
    ((State.checkLayoutsOf_keep ..).mono (by decide))

theorem State.putReplacement_leaving : (s.putReplacement pid i old img left).mbr.leaving = s.mbr.leaving ++ [old] :=
  (congrArg Mbr.leaving ((State.checkLayoutsOf_keep ..).same .mbr (by decide))).trans (State.joinMembers_leaving ..)

end

theorem State.putReplacement_pool (hp : s.pool pid = some p) (hm : p.nxt.members[i]? = some m) (old img : Nat) (left : List (Nat × Nat × Nat)) :
    ∃ x, (s.putReplacement pid i old img left).pool pid = some x ∧ x.nxt.members = p.nxt.members.set i ⟨img, .copyback⟩ ∧
      x.nxt.unrest = p.nxt.unrest ++ left :=
  ⟨_, (State.pool_of_pools ((State.checkLayoutsOf_keep ..).same .pools (by decide)) pid).trans
    ((State.joinMembers_pool ..).trans (State.pool_updPool_some (s := s.leaves old) hp)), modify_eq_set_of_getElem? _ hm, rfl⟩

/-! ### What each command does on a pool that stands -/

section Stands
variable (hp : s.pool pid = some p) (hd : p.deleting = none)
include hp hd

theorem State.poolAdd_joins {addr : BitVec 64} {len : BitVec 32} {nums : List Nat} (ha : addr.toNat % 64 = 0) (hl : len.toNat % 64 = 0)
    (hf : s.joinFault p nums = false) (hn : p.nxt.members.length + nums.length ≤ 1024) :
    s.poolAdd src tag pid addr len (.ok nums) = (s.addToPool p pid nums).admWait src tag pid okStat := by
  unfold State.poolAdd
  rw [State.onPool_some hp hd, State.checked_aligned ha hl]
  dsimp only [State.withRead]
  rw [if_neg (by simp [hf]), if_neg (by omega)]
  rfl

theorem State.poolRemove_unused {addr : BitVec 64} {len : BitVec 32} (ha : addr.toNat % 64 = 0) (hl : len.toNat % 64 = 0) (hm : p.nxt.members[i]? = some m)
    (hi : m.img ≠ holeImg) (hu : p.usesMember i = false) (hj : p.journalUses i = false) :
    s.poolRemove src tag pid addr len (.ok [i]) = (s.leaveHole pid i m.img).admWait src tag pid okStat := by
  unfold State.poolRemove
  rw [State.onPool_some hp hd, State.checked_aligned ha hl]
  simp [State.withRead, List.eraseDups_cons, hm, hi, hu, hj, State.leaveHole, State.leaves]

theorem State.poolFail_some (hm : p.nxt.members[i]? = some m) (hi : m.img ≠ holeImg) :
    s.poolFail src tag pid i = (s.nameFailed pid i).admWait src tag pid okStat := by
  unfold State.poolFail
  rw [State.onPool_some hp hd, hm]
  exact if_neg hi

theorem State.poolReplace_failed {img : Nat} (hm : p.nxt.members[i]? = some m) (hi : m.img ≠ holeImg) (hs : m.state = .failed) (hu : s.imgUsed img = false)
    (hj : s.mayJoin img pid i = true) :
    s.poolReplace src tag pid i img = (s.putReplacement pid i m.img img (s.unrestored p i)).admWait src tag pid okStat := by
  unfold State.poolReplace
  rw [State.onPool_some hp hd, hm]
  dsimp only
  rw [if_neg hi, if_neg (by simp [hu, hj]), if_neg (by simp [hs])]
  rfl

end Stands

/-! ### A member that fails at the edge (R11, R119) -/

/-- A member that fails is FAILED under its own namespace, whether or not it was so before. -/
theorem State.memFail_keepsImg (hp : s.pool pid = some p) (hm : p.nxt.members[i]? = some m) :
    ∃ x, (s.memFail pid i).pool pid = some x ∧ x.nxt.members[i]? = some ⟨m.img, .failed⟩ := by
  have hst : p.memState i = m.state := by simp [Pool.memState, hm]
  by_cases hf : m.state = .failed
  · refine ⟨p, ?_, hm.trans (by rw [← hf])⟩
    unfold State.memFail
    rw [hp]
    dsimp only
    rw [if_pos (hst.trans hf), hp]
  · unfold State.memFail
    rw [hp]
    dsimp only
    rw [if_neg (by rwa [hst])]
    have hbump := (State.pool_of_pools (s.bump_pools .mbrTmoCntN (s.mbr.cmds.filter fun c => c.pool == pid && c.idx == i).length 0) pid).trans hp
    obtain ⟨q, hq, hqm⟩ := (State.leave_members _ pid i).pool hbump
    obtain ⟨x, hx, hxm⟩ := (State.onErasure_members _ pid i).pool (State.pool_updPool_some (f := fun p =>
      { p.setMem i .failed with missAt := tdel p.missAt i, catchup := p.catchup.filter (fun e => e.1 ≠ i), cuLeft := p.cuLeft.filter fun e => e.1 ≠ i }) hq)
    refine ⟨_, (State.pool_of_pools (State.log_pools ..) pid).trans (State.pool_updPool_some hx), ?_⟩
    show x.nxt.members[i]? = _
    rw [hxm]
    show (q.nxt.members.modify i _)[i]? = _
    rw [List.getElem?_modify_eq, hqm, hm]
    rfl

/-- The edge takes in a member that DECLARE_FAILED named. -/
theorem State.takeDeclared_fails (h : s.mgt.declared = [(pid, i)]) (hp : s.pool pid = some p) (hm : p.nxt.members[i]? = some m) :
    ∃ x, s.takeDeclared.pool pid = some x ∧ x.nxt.members[i]? = some ⟨m.img, .failed⟩ := by
  unfold State.takeDeclared
  rw [h]
  exact State.memFail_keepsImg (s := { s with mgt := { s.mgt with declared := [] } }) hp hm

/-! ### The clauses -/

section Clauses
variable (hturn : s.AdmTurn src tag false) (hfree : s.admFree = true) (hp : s.pool pid = some p) (hd : p.deleting = none)
include hturn hfree hp hd

theorem addMembers_joins {addr : BitVec 64} {len : BitVec 32} {nums : List Nat} (ha : addr.toNat % 64 = 0) (hl : len.toNat % 64 = 0)
    (hf : s.joinFault p nums = false) (hn : p.nxt.members.length + nums.length ≤ 1024) :
    ∃ t x, exec (.addMembers src tag pid addr len (.ok nums)) s = .next t ∧ t.pool pid = some x ∧
      x.nxt.members = p.nxt.members ++ nums.map (fun k => ⟨k, .active⟩) ∧ WaitsFor t src tag pid okStat ∧
      Frame s t [.qe, .pools, .mbr, .hif, .mgt, .out] := by
  obtain ⟨u, hu, hrun⟩ := hturn.takeSerial hfree
  have hpu : u.pool pid = some p := (hu.pool _).trans hp
  rw [exec_addMembers, hrun, State.poolAdd_joins hpu hd ha hl ((hu.joinFault p nums).trans hf) hn]
  obtain ⟨x, hx, hmem⟩ := State.addToPool_pool hpu nums
  exact ⟨_, x, rfl, hx, hmem, hu.waits (State.addToPool_keep ..) pid okStat (by decide) (by decide)⟩

theorem removeMembers_leavesHole {addr : BitVec 64} {len : BitVec 32} (ha : addr.toNat % 64 = 0) (hl : len.toNat % 64 = 0)
    (hm : p.nxt.members[i]? = some m) (hi : m.img ≠ holeImg) (huse : p.usesMember i = false) (hj : p.journalUses i = false) :
    ∃ t x, exec (.removeMembers src tag pid addr len (.ok [i])) s = .next t ∧ t.pool pid = some x ∧
      x.nxt.members = p.nxt.members.set i ⟨holeImg, .failed⟩ ∧ t.mbr = { s.mbr with leaving := s.mbr.leaving ++ [m.img] } ∧
      WaitsFor t src tag pid okStat ∧ Frame s t [.qe, .pools, .mbr, .hif, .mgt, .out] := by
  obtain ⟨u, hu, hrun⟩ := hturn.takeSerial hfree
  have hpu : u.pool pid = some p := (hu.pool _).trans hp
  rw [exec_removeMembers, hrun, State.poolRemove_unused hpu hd ha hl hm hi huse hj, ← hu.mbr]
  obtain ⟨x, hx, hmem⟩ := State.leaveHole_pool hpu hm m.img
  exact ⟨_, x, rfl, hx, hmem, rfl, hu.waits (State.leaveHole_keep ..) pid okStat (by decide) (by decide)⟩

theorem declareFailed_fails (hm : p.nxt.members[i]? = some m) (hi : m.img ≠ holeImg) (hn : s.mgt.declared = []) :
    ∃ t x, exec (.declareFailed src tag pid i) s = .next t ∧ t.mgt.declared = [(pid, i)] ∧ (State.takeDeclared t).pool pid = some x ∧
      x.nxt.members[i]? = some ⟨m.img, .failed⟩ ∧ WaitsFor t src tag pid okStat ∧ Frame s t [.qe, .hif, .mgt, .out] := by
  obtain ⟨u, hu, hrun⟩ := hturn.takeSerial hfree
  have hpu : u.pool pid = some p := (hu.pool _).trans hp
  have hdecl : ((u.nameFailed pid i).admWait src tag pid okStat).mgt.declared = [(pid, i)] := by
    show u.mgt.declared ++ _ = _
    rw [hu.mgt, hn]
    rfl
  rw [exec_declareFailed, hrun, State.poolFail_some hpu hd hm hi]
  obtain ⟨x, hx, hmem⟩ := State.takeDeclared_fails hdecl hpu hm
  exact ⟨_, x, rfl, hdecl, hx, hmem, hu.waits (State.nameFailed_keep ..) pid okStat (by decide) (by decide)⟩

theorem replaceMember_copyback {img : Nat} (hm : p.nxt.members[i]? = some m) (hi : m.img ≠ holeImg) (hs : m.state = .failed) (huse : s.imgUsed img = false)
    (hj : s.mayJoin img pid i = true) :
    ∃ t x, exec (.replaceMember src tag pid i img) s = .next t ∧ t.pool pid = some x ∧
      x.nxt.members = p.nxt.members.set i ⟨img, .copyback⟩ ∧ x.nxt.unrest = p.nxt.unrest ++ s.unrestored p i ∧ WaitsFor t src tag pid okStat ∧
      t.mbr.leaving = s.mbr.leaving ++ [m.img] ∧ Frame s t [.regs, .qe, .pools, .mbr, .hif, .evr, .mgt, .out] := by
  obtain ⟨u, hu, hrun⟩ := hturn.takeSerial hfree
  have hpu : u.pool pid = some p := (hu.pool _).trans hp
  rw [exec_replaceMember, hrun, State.poolReplace_failed hpu hd hm hi hs ((hu.imgUsed _).trans huse) ((hu.mayJoin ..).trans hj), hu.unrestored, ← hu.mbr]
  obtain ⟨x, hx, hmem, hleft⟩ := State.putReplacement_pool hpu hm m.img img (s.unrestored p i)
  exact ⟨_, x, rfl, hx, hmem, hleft, and_left_comm.mp ⟨State.putReplacement_leaving ..,
    hu.waits (State.putReplacement_keep ..) pid okStat (by decide) (by decide)⟩⟩

end Clauses

/-! ### The obligation -/

/-- Settles O34: each command's turn gives the state that it runs on; there it changes the member list, or names the member for the edge, and waits for the
commit. That a removed member's index stays a hole and that a declared failure acts at the next edge are log entry 25 of the notes. -/
theorem poolMembers : Obligations.PoolMembers := by
  unfold Obligations.PoolMembers
  exact ⟨fun _ _ _ _ _ _ _ ht hf hp hd ha hl hj hn => addMembers_joins ht hf hp hd ha hl hj hn,
    fun _ _ _ _ _ _ _ _ ht hf hp hd ha hl hm hi hu hj => removeMembers_leavesHole ht hf hp hd ha hl hm hi hu hj,
    fun _ _ _ _ _ _ ht hf hp hd hm hi hn => declareFailed_fails ht hf hp hd hm hi hn,
    fun _ _ _ _ _ _ _ ht hf hp hd hm hi hs hu hj => replaceMember_copyback ht hf hp hd hm hi hs hu hj⟩

end Sys2Proof.Machine
end

section
/-!
A command without a lock at its acceptance (R195, R231), and what FLUSH, ABORT and VOLUME_POWER fix there (R219, R238, R241).
-/
namespace Sys2Proof.Machine

variable {s t u v : State} {q : RingRef} {hd : EntryHdr} {op : IoOp} {k : Cmd}

/-! ### The ring after its entry (R195) -/

/-- A change of a ring that leaves its H alone. -/
theorem State.updSq_h {f : Sq → Sq} (s : State) (q : RingRef) (hf : ∀ r, (f r).h = r.h := by exact fun _ => rfl) :
    ((s.updSq q f).sq q).map (·.h) = (s.sq q).map (·.h) := by
  simp [State.sq, State.updSq, Function.comp_def, hf]

theorem State.takeTag_sq (s : State) (port : PciePort) (use : TagUse) (q : RingRef) : (s.takeTag port use).1.sq q = s.sq q :=
  congrArg (fun x : Qe => tget x.sqs q) (State.takeTag_keep.same .qe (by decide))

theorem State.readLine_h (s : State) (q : RingRef) : ((s.readLine q).sq q).map (·.h) = (s.sq q).map (·.h) :=
  (State.updSq_h (f := fun r => { r with pend := false, fetch := .line }) _ q).trans (congrArg _ (State.takeTag_sq ..))

theorem State.stopFetch_h (s : State) (q : RingRef) : ((s.stopFetch q).sq q).map (·.h) = (s.sq q).map (·.h) := by
  unfold State.stopFetch
  split
  · rfl
  · split
    · exact State.readLine_h s q
    · exact State.updSq_h s q

/-- Fetching goes on at c: H stays. -/
theorem State.fetchNext_h (s : State) (q : RingRef) : ((s.fetchNext q).sq q).map (·.h) = (s.sq q).map (·.h) := by
  unfold State.fetchNext
  split
  · rfl
  · split
    · exact State.updSq_h s q
    · split
      · exact State.stopFetch_h s q
      · split
        · exact State.updSq_h s q
        · exact (State.updSq_h (f := fun r => { r with fetch := .first }) _ q).trans (congrArg _ (State.takeTag_sq ..))

theorem State.consume_h (s : State) (q : RingRef) (n : Nat) : ((s.consume q n).sq q).map (·.h) = (s.sq q).map fun r => r.h + w32 n := by
  unfold State.consume
  rw [State.fetchNext_h]
  simp [State.sq, State.updSq, Function.comp_def]

/-! ### The number of the next command -/

/-- The fold behind `freshCmd` ends above its start and above every command that it meets. -/
theorem freshFold_above (l : List Cmd) (n : Nat) :
    n ≤ l.foldl (fun n c => max n (c.id + 1)) n ∧ ∀ c ∈ l, c.id < l.foldl (fun n c => max n (c.id + 1)) n := by
  induction l generalizing n with
  | nil => exact ⟨Nat.le_refl n, List.forall_mem_nil _⟩
  | cons a r ih =>
    obtain ⟨hstart, hmem⟩ := ih (max n (a.id + 1))
    simp only [List.foldl_cons, List.forall_mem_cons]
    exact ⟨by omega, by omega, hmem⟩

/-- A new command's number is that of no command there is. -/
theorem Ord.freshCmd_ne {o : Ord} (h : k ∈ o.cmds) : k.id ≠ o.freshCmd :=
  Nat.ne_of_lt ((freshFold_above o.cmds o.nextCmd).2 k h)

/-! ### A command that has just been accepted (R231) -/

/-- What acceptance gives a command for good: whose it is, and its number. -/
def Cmd.entry (c : Cmd) : Nat × Origin × Nat × BitVec 16 × BitVec 12 × IoOp × Option Nat × Nat :=
  (c.id, c.org, c.units, c.tag, c.vol, c.op, c.acc, c.accEdge)

/-- A command has been accepted, and it stands after the commands there were, which are as they stood. -/
structure Entered (s u : State) (q : RingRef) (hd : EntryHdr) (op : IoOp) (k : Cmd) : Prop where
  cmds  : u.ord.cmds = s.ord.cmds ++ [k]
  entry : k.entry = (s.ord.freshCmd, .ring q, hd.units, hd.tag, hd.vol, op, some s.ord.acc, s.edge)
  acc   : u.ord.acc = s.ord.acc + 1
  moved : (u.sq q).map (·.h) = (s.sq q).map fun r => r.h + w32 hd.units

theorem Entered.accepted (h : Entered s t q hd op k) : Accepted s t q hd op k := by
  obtain ⟨hcmds, hentry, hacc, hmoved⟩ := h
  simp only [Cmd.entry, Prod.mk.injEq] at hentry
  obtain ⟨hid, horg, hunits, htag, hvol, hop, hnum, hedge⟩ := hentry
  exact { mem := by simp [hcmds], cmd := ⟨hid, horg, hunits, htag, hvol, hop⟩, acc := ⟨hnum, hedge, hacc⟩
          others := fun c hc => by simp [hcmds, hc], moved := hmoved }

theorem Entered.id_eq (h : Entered s t q hd op k) : k.id = s.ord.freshCmd := congrArg (·.1) h.entry

/-- Changing commands by the new number changes the new command alone. -/
theorem updIf_fresh {o : Ord} {f : Cmd → Cmd} (hid : k.id = o.freshCmd) :
    updIf (o.cmds ++ [k]) (fun c => c.id == o.freshCmd) f = o.cmds ++ [f k] := by
  have hold : updIf o.cmds (fun c => c.id == o.freshCmd) f = o.cmds :=
    (List.map_congr_left fun c hc => if_neg (by simpa using Ord.freshCmd_ne hc)).trans (List.map_id _)
  show List.map _ _ = _
  rw [List.map_append, List.map_singleton, if_pos (by simp [hid])]
  exact congrArg (· ++ [f k]) hold

theorem Entered.updCmd (h : Entered s u q hd op k) {f : Cmd → Cmd} (hf : (f k).entry = k.entry := by rfl) :
    Entered s (u.updCmd s.ord.freshCmd f) q hd op (f k) where
  cmds  := (congrArg (updIf · _ f) h.cmds).trans (updIf_fresh h.id_eq)
  entry := hf.trans h.entry
  acc   := h.acc
  moved := h.moved

/-- A change that neither ORD nor QE sees. -/
theorem Entered.of_same (h : Entered s u q hd op k) (hord : v.ord = u.ord) (hqe : v.qe = u.qe) : Entered s v q hd op k where
  cmds  := hord ▸ h.cmds
  entry := h.entry
  acc   := hord ▸ h.acc
  moved := (congrArg (fun x : Qe => (tget x.sqs q).map (·.h)) hqe).trans h.moved

theorem Entered.endCmd (h : Entered s u q hd op k) (hk : k.st = .accepted) (st : Stat) :
    Entered s (u.endCmd s.ord.freshCmd st) q hd op { k with st := .eligible st } := by
  obtain ⟨f, hend, hf⟩ : ∃ f, u.endCmd s.ord.freshCmd st = u.updCmd s.ord.freshCmd f ∧ f k = { k with st := .eligible st } := by
    refine ⟨_, rfl, ?_⟩
    rw [hk]
  rw [hend, ← hf]
  exact h.updCmd (by rw [hf]; rfl)

/-! ### Volume power (R219) -/

theorem Pool.run_updRun {p : Pool} {vol : BitVec 12} {r : VolRun} (h : p.run vol = some r) (f : VolRun → VolRun)
    (hf : ∀ r, (f r).id = r.id := by exact fun _ => rfl) : (p.updRun vol f).run vol = some (f r) := by
  show (updIf p.vols _ f).find? _ = _
  rw [find_updIf _ _ _ _ fun r => congrArg (· == vol) (hf r), show p.vols.find? _ = some r from h]
  exact congrArg some (if_pos (List.find?_some (p := fun r : VolRun => r.id == vol) h))

/-- The pool of a volume after a change of every pool that leaves the metadata in effect. -/
theorem State.poolOf_map {g : Pool → Pool} (ht : t.pools = s.pools.map g) (hg : ∀ p, (g p).cur = p.cur) (vol : BitVec 12) :
    t.poolOf vol = (s.poolOf vol).map g := by
  have htest : (fun p : Pool => (p.vol vol).isSome) ∘ g = fun p => (p.vol vol).isSome :=
    funext fun p => by simp only [Function.comp_apply, Pool.vol, hg]
  unfold State.poolOf
  rw [ht, List.find?_map, htest]

theorem State.poolOf_of_pools (h : t.pools = s.pools) (vol : BitVec 12) : t.poolOf vol = s.poolOf vol := by
  unfold State.poolOf
  rw [h]

theorem State.powerOf_of_pools (h : t.pools = s.pools) (vol : BitVec 12) : t.powerOf vol = s.powerOf vol := by
  unfold State.powerOf
  rw [State.poolOf_of_pools h]

/-- A volume's power state is kept in its run-time state. -/
theorem State.powerOf_of_run {vol : BitVec 12} {r : VolRun} (h : (s.poolOf vol).bind (·.run vol) = some r) : s.powerOf vol = r.power := by
  simp [State.powerOf, h]

theorem State.run_setPower {vol : BitVec 12} {r : VolRun} (h : (s.poolOf vol).bind (·.run vol) = some r) (st : VPower) :
    ((s.setPower vol st).poolOf vol).bind (·.run vol) = some { r with power := st } := by
  obtain ⟨p, hp, hr⟩ := Option.bind_eq_some_iff.mp h
  rw [State.poolOf_map (s := s) rfl (fun p => by split <;> rfl), hp]
  show Pool.run (if _ then _ else _) vol = _
  rw [if_pos (by simp [hr])]
  exact Pool.run_updRun hr fun r => { r with power := st }

/-- The command that asked for a volume's power state is remembered with it. -/
def State.rememberPower (s : State) (vol : BitVec 12) (id : Nat) (want : VPower) : State :=
  { s with pools := s.pools.map fun p => p.updRun vol fun r => { r with powerCmd := some id, powerTgt := want } }

theorem State.run_rememberPower {vol : BitVec 12} {r : VolRun} (h : (s.poolOf vol).bind (·.run vol) = some r) (id : Nat) (want : VPower) :
    ((s.rememberPower vol id want).poolOf vol).bind (·.run vol) = some { r with powerCmd := some id, powerTgt := want } := by
  obtain ⟨p, hp, hr⟩ := Option.bind_eq_some_iff.mp h
  rw [State.poolOf_map (s := s) (g := fun p => p.updRun vol fun r => { r with powerCmd := some id, powerTgt := want }) rfl fun _ => rfl, hp]
  exact Pool.run_updRun hr fun r => { r with powerCmd := some id, powerTgt := want }

/-- ACTIVE or IDLE asked of a volume that is ACTIVE or IDLE: the volume is in that state at once, and the command ends with the state before it. -/
theorem State.doPower_atOnce {c : Cmd} {tgt : Nat} {want : VPower} (htgt : tgt ≠ 2)
    (hwant : (if tgt = 0 then VPower.active else if tgt = 1 then .idle else .standby) = want)
    (hrun : ((u.poolOf c.vol).bind (·.run c.vol)).isSome = true) (hcur : u.powerOf c.vol = .active ∨ u.powerOf c.vol = .idle) :
    ∃ w, u.doPower c tgt = w.endCmd c.id (okStat (powerCode (u.powerOf c.vol))) ∧ Keep u w [.pools] ∧ w.powerOf c.vol = want := by
  obtain ⟨r, hr⟩ := Option.isSome_iff_exists.mp hrun
  have hdo : u.doPower c tgt = if want = u.powerOf c.vol then u.endCmd c.id (okStat (powerCode (u.powerOf c.vol)))
      else (u.setPower c.vol want).endCmd c.id (okStat (powerCode (u.powerOf c.vol))) := by
    unfold State.doPower
    rcases hcur with h | h <;> simp only [h, hwant, if_neg htgt]
  rw [hdo]
  split
  · next hsame => exact ⟨u, rfl, .refl .., hsame.symm⟩
  · exact ⟨_, rfl, State.setPower_keep, State.powerOf_of_run (State.run_setPower hr _)⟩

/-- STANDBY asked of an ACTIVE volume: the volume is ENTERING, and the command runs on. -/
theorem State.doPower_standby {c : Cmd} (hrun : ((u.poolOf c.vol).bind (·.run c.vol)).isSome = true) (hcur : u.powerOf c.vol = .active) :
    ∃ w, u.doPower c 2 = w.updCmd c.id (fun c => { c with st := .running, lastGen := 0 }) ∧ Keep u w [.cch, .pools] ∧ w.powerOf c.vol = .entering := by
  obtain ⟨r, hr⟩ := Option.isSome_iff_exists.mp hrun
  have hdo : u.doPower c 2 = State.updCmd (((u.setPower c.vol .entering).dueVol c.vol false).rememberPower c.vol c.id .standby) c.id
      fun c => { c with st := .running, lastGen := 0 } := by
    unfold State.doPower
    simp only [hcur]
    rfl
  have hset : (((u.setPower c.vol .entering).dueVol c.vol false).poolOf c.vol).bind (·.run c.vol) = some { r with power := .entering } := by
    rw [State.poolOf_of_pools (State.dueVol_keep.same .pools (by decide))]
    exact State.run_setPower hr _
  exact ⟨_, hdo, Keep.set_pools (Keep.app State.dueVol_keep (by decide) (State.setPower_keep.mono (by decide))) (by decide),
    State.powerOf_of_run (State.run_rememberPower hset ..)⟩

/-! ### Offering an entry that passes every check (R195, R231, R439) -/

/-- The command that an entry is offered as. -/
def State.newCmd (s : State) (q : RingRef) (hd : EntryHdr) (op : IoOp) : Cmd := { Cmd.new (.ring q) hd.units hd.tag hd.vol op with id := s.ord.freshCmd }

/-- ORD holds the new command. -/
def State.offered (s : State) (q : RingRef) (hd : EntryHdr) (op : IoOp) : State :=
  { s.clr with ord := { s.ord with cmds := s.ord.cmds ++ [s.newCmd q hd op], nextCmd := s.ord.freshCmd + 1 } }

/-- The new command as it stands with its acceptance number. -/
def State.numberedCmd (s : State) (q : RingRef) (hd : EntryHdr) (op : IoOp) : Cmd :=
  { s.newCmd q hd op with acc := some s.ord.acc, accEdge := s.edge, lockHeld := op.lock.isSome }

/-- What acceptance does to every command from a ring: it takes its number, and its ring moves past its entry. -/
def State.entered (s : State) (q : RingRef) (hd : EntryHdr) (op : IoOp) : State :=
  State.consume (State.updCmd { s.offered q hd op with ord := { (s.offered q hd op).ord with acc := s.ord.acc + 1 } } s.ord.freshCmd
    fun c => { c with acc := some s.ord.acc, accEdge := s.edge, lockHeld := c.op.lock.isSome }) q hd.units

theorem State.offered_cmd (s : State) (q : RingRef) (hd : EntryHdr) (op : IoOp) : (s.offered q hd op).cmd s.ord.freshCmd = some (s.newCmd q hd op) := by
  have hold : s.ord.cmds.find? (fun c => c.id == s.ord.freshCmd) = none := List.find?_eq_none.mpr fun c hc => by simpa using Ord.freshCmd_ne hc
  show (s.ord.cmds ++ [s.newCmd q hd op]).find? _ = _
  rw [List.find?_append, hold]
  simp [State.newCmd]

theorem State.offered_keep (s : State) (q : RingRef) (hd : EntryHdr) (op : IoOp) : Keep s (s.offered q hd op) [.ord, .out] :=
  Keep.set_ord (State.clr_keep.mono (by decide)) (by decide)

theorem State.entered_keep (s : State) (q : RingRef) (hd : EntryHdr) (op : IoOp) : Keep s (s.entered q hd op) [.qe, .ord, .hif, .out] :=
  Keep.app State.consume_keep (by decide) (Keep.app State.updCmd_keep (by decide) (Keep.set_ord ((s.offered_keep q hd op).mono (by decide)) (by decide)))

theorem State.entered_pools (s : State) (q : RingRef) (hd : EntryHdr) (op : IoOp) : (s.entered q hd op).pools = s.pools :=
  (s.entered_keep q hd op).same .pools (by decide)

theorem State.poolOf_entered (vol : BitVec 12) : (s.entered q hd op).poolOf vol = s.poolOf vol := State.poolOf_of_pools (s.entered_pools ..) vol

theorem State.powerOf_entered (vol : BitVec 12) : (s.entered q hd op).powerOf vol = s.powerOf vol := State.powerOf_of_pools (s.entered_pools ..) vol

theorem State.entered_enters (s : State) (q : RingRef) (hd : EntryHdr) (op : IoOp) : Entered s (s.entered q hd op) q hd op (s.numberedCmd q hd op) := by
  have hkeep : Keep _ (s.entered q hd op) [.qe, .hif, .out] := State.consume_keep
  have hord := hkeep.same .ord (by decide)
  exact ⟨(congrArg Ord.cmds hord).trans (updIf_fresh rfl), rfl, congrArg Ord.acc hord, State.consume_h ..⟩

/-- An entry for a volume of this module, or for none, goes to ORD. -/
theorem State.offerIo_here (h : if op.volless then hd.vol = 0 else ∃ n, s.lookVol hd.vol = VolAt.here n) (units : Nat) (tag : BitVec 16) :
    s.offerIo q units tag hd.vol op = s.offerCmd (Cmd.new (.ring q) units tag hd.vol op) := by
  unfold State.offerIo
  split
  · rfl
  all_goals
    obtain ⟨n, hn⟩ := h
    rw [hn]

/-- An entry that passes every check and takes no lock is accepted at once. -/
theorem State.RowReady.offerRow (h : s.RowReady q hd op) (hl : op.lock = none) :
    s.clr.offerRow q hd op = (s.offered q hd op).acceptCmd s.ord.freshCmd := by
  obtain ⟨htakes, hdata, hunits, htag, hrsvd, hchecks, hvol⟩ := h
  have hpass : (if q.fn = .pf0 then some (stat 1 1) else (unitsFault op hd.units op.chained).or ((if s.dupTag q hd.tag then some (stat 1 8) else none).or
      ((listReserved op).or (s.opFault hd.vol op op.chained)))) = none := by
    simp [hdata, hunits, htag, hrsvd, hchecks]
  have hoffer : s.clr.offerRow q hd op = s.clr.offerIo q hd.units hd.tag hd.vol op := by
    unfold State.offerRow
    rw [if_neg (by simp [show s.clr.takesEntry q = true from htakes])]
    exact congrArg (fun f : Option Stat => match f with
      | some st => s.clr.reject q hd.units hd.tag st
      | none => s.clr.offerIo q hd.units hd.tag hd.vol op) hpass
  rw [hoffer, State.offerIo_here (s := s.clr) hvol]
  unfold State.offerCmd
  dsimp only
  rw [show (Cmd.new (.ring q) hd.units hd.tag hd.vol op).op.lock = none from hl]
  rfl

/-! ### FLUSH (R238) -/

/-- A command that a FLUSH may wait for: it has not failed and is not finished. -/
def Cmd.unfailed (c : Cmd) : Bool :=
  match c.st with
  | .eligible st => st.cls == 0
  | .accepted | .running | .held | .forwarded _ _ => true
  | .finished => false

/-- The accepted writes that a FLUSH of a volume, itself numbered `id`, covers. -/
def State.coveredWrites (s : State) (id : Nat) (vol : BitVec 12) : List Nat :=
  (s.ord.cmds.filter fun w => w.vol == vol && w.op.writes && w.acc.isSome && w.id ≠ id && w.unfailed).map (·.id)

/-- The dirty slots that a FLUSH of a volume covers. -/
def State.dirtySlotsOf (s : State) (vol : BitVec 12) : List Nat :=
  (s.cch.slots.filter fun e => e.2.vol == vol && e.2.st == .dirty && !e.2.mirror).map (·.1)

theorem State.mem_dirtySlotsOf {vol : BitVec 12} {i : Nat} :
    i ∈ s.dirtySlotsOf vol ↔ ∃ x, (i, x) ∈ s.cch.slots ∧ x.vol = vol ∧ x.st = .dirty ∧ x.mirror = false := by
  unfold State.dirtySlotsOf
  rw [List.mem_map]
  constructor
  · rintro ⟨⟨j, x⟩, hx, rfl⟩
    obtain ⟨hmem, htest⟩ := List.mem_filter.mp hx
    simp only [Bool.and_eq_true, beq_iff_eq, Bool.not_eq_true'] at htest
    obtain ⟨⟨hvol, hst⟩, hmirror⟩ := htest
    exact ⟨x, hmem, hvol, hst, hmirror⟩
  · rintro ⟨x, hmem, hvol, hst, hmirror⟩
    exact ⟨(i, x), List.mem_filter.mpr ⟨hmem, by simp only [hvol, hst, hmirror, beq_self_eq_true, Bool.not_false, Bool.and_self]⟩, rfl⟩

/-- A FLUSH covers commands that stood before it, never itself. -/
theorem Entered.mem_coveredWrites (h : Entered s u q hd op k) {vol : BitVec 12} {i : Nat} :
    i ∈ u.coveredWrites s.ord.freshCmd vol ↔
      ∃ w ∈ s.ord.cmds, w.id = i ∧ w.vol = vol ∧ w.op.writes = true ∧ w.acc.isSome = true ∧ w.unfailed = true := by
  simp only [State.coveredWrites, h.cmds, List.mem_map, List.mem_filter, List.mem_append, List.mem_singleton, Bool.and_eq_true, beq_iff_eq, decide_eq_true_eq]
  constructor
  · rintro ⟨w, ⟨hw | rfl, ⟨⟨⟨hvol, hop⟩, hacc⟩, hid⟩, hun⟩, rfl⟩
    · exact ⟨w, hw, rfl, hvol, hop, hacc, hun⟩
    · exact absurd h.id_eq hid
  · rintro ⟨w, hw, rfl, hvol, hop, hacc, hun⟩
    exact ⟨w, ⟨.inl hw, ⟨⟨⟨hvol, hop⟩, hacc⟩, Ord.freshCmd_ne hw⟩, hun⟩, rfl⟩

/-- A FLUSH of an ACTIVE volume runs at once, with what it covers. -/
theorem State.offered_flush (hpow : s.powerOf hd.vol = .active) :
    (s.offered q hd .flush).acceptCmd s.ord.freshCmd = (s.entered q hd .flush).updCmd s.ord.freshCmd fun c =>
      { c with set := (s.entered q hd .flush).coveredWrites s.ord.freshCmd hd.vol, slotsLeft := (s.entered q hd .flush).dirtySlotsOf hd.vol, st := .running } := by
  have htouch : (s.entered q hd .flush).touchVol hd.vol true = (s.entered q hd .flush, false) := by
    unfold State.touchVol
    rw [State.powerOf_entered, hpow]
  unfold State.acceptCmd
  rw [State.offered_cmd]
  exact congrArg (fun x : State × Bool => x.1.updCmd s.ord.freshCmd fun c =>
    { c with set := (s.entered q hd .flush).coveredWrites s.ord.freshCmd hd.vol, slotsLeft := (s.entered q hd .flush).dirtySlotsOf hd.vol
             st := if x.2 then .held else .running }) htouch

theorem flush_covers (hr : s.RowReady q hd .flush) (hpow : s.powerOf hd.vol = .active) :
    ∃ t k, exec (.flush q hd) s = .next t ∧ Accepted s t q hd .flush k ∧
      (∀ i, i ∈ k.slotsLeft ↔ ∃ x, (i, x) ∈ s.cch.slots ∧ x.vol = hd.vol ∧ x.st = .dirty ∧ x.mirror = false) ∧
      (∀ w ∈ s.ord.cmds, w.vol = hd.vol → w.op.writes = true → w.acc.isSome = true → w.st = .running → w.id ∈ k.set) ∧
      ∀ i ∈ k.set, ∃ w ∈ s.ord.cmds, w.id = i ∧ w.vol = hd.vol ∧ w.op.writes = true ∧ w.acc.isSome = true ∧ w.st ≠ .finished := by
  have hent := s.entered_enters q hd .flush
  have hcch : (s.entered q hd .flush).cch = s.cch := (s.entered_keep q hd .flush).same .cch (by decide)
  refine ⟨_, _, congrArg Host.Outcome.next ((hr.offerRow rfl).trans (State.offered_flush hpow)), hent.updCmd.accepted, fun i => ?_, ?_, ?_⟩
  · rw [← hcch]
    exact State.mem_dirtySlotsOf
  · intro w hw hvol hop hacc hst
    exact hent.mem_coveredWrites.mpr ⟨w, hw, rfl, hvol, hop, hacc, by simp [Cmd.unfailed, hst]⟩
  · intro i hi
    obtain ⟨w, hw, hid, hvol, hop, hacc, hun⟩ := hent.mem_coveredWrites.mp hi
    exact ⟨w, hw, hid, hvol, hop, hacc, fun hst => by simp [Cmd.unfailed, hst] at hun⟩

/-! ### ABORT (R241) -/

/-- What an ABORT does at its acceptance: it waits for its target, on the stream to the owner of the target's volume when the target is forwarded. -/
def State.abortAt (s : State) (id : Nat) (target : Option Cmd) : State :=
  match target with
  | none => s
  | some t => match t.st with
    | .forwarded owner _ => (s.updCmd id fun c => { c with set := [t.id] }).placeFwd id owner
    | .accepted | .running | .held | .eligible _ | .finished => s.updCmd id fun c => { c with set := [t.id] }

theorem State.abortAt_running {w : Cmd} (hst : w.st = .running) (s : State) (id : Nat) :
    s.abortAt id (some w) = s.updCmd id fun c => { c with set := [w.id] } := by
  simp only [State.abortAt, hst]

theorem State.offered_abort (s : State) (q : RingRef) (hd : EntryHdr) (tq tt : BitVec 16) :
    (s.offered q hd (.abort tq tt)).acceptCmd s.ord.freshCmd = (s.entered q hd (.abort tq tt)).abortAt s.ord.freshCmd
      ((s.entered q hd (.abort tq tt)).abortTarget (s.newCmd q hd (.abort tq tt)) tq tt) := by
  unfold State.acceptCmd
  rw [State.offered_cmd]
  rfl

/-- The header of an ABORT names no volume, and the entry is offered like any other. -/
theorem abort_accepts {tq tt : BitVec 16} (hr : s.RowReady q hd (.abort tq tt)) :
    exec (.abort q hd tq tt) s = .next ((s.entered q hd (.abort tq tt)).abortAt s.ord.freshCmd
      ((s.entered q hd (.abort tq tt)).abortTarget (s.newCmd q hd (.abort tq tt)) tq tt)) := by
  have hvol : hd.vol = 0 := hr.vol
  exact congrArg Host.Outcome.next ((if_neg fun ⟨_, _, hne, _⟩ => hne hvol).trans ((hr.offerRow rfl).trans (State.offered_abort ..)))

/-- The one other command stands on the ring that is named, under the tag that is named. -/
theorem Entered.abortTarget_only {c w : Cmd} {tq tt : BitVec 16} (h : Entered s u q hd op k) (hc : c.id = s.ord.freshCmd) (hcq : c.org = .ring q)
    (hw : s.ord.cmds = [w]) (hq : w.org = .ring q) (htq : ringQid q = tq) (htt : w.tag = tt) (hacc : w.acc.isSome = true) :
    u.abortTarget c tq tt = some w := by
  have hid : w.id ≠ c.id := hc ▸ Ord.freshCmd_ne (hw ▸ List.mem_singleton.mpr rfl)
  unfold State.abortTarget
  rw [h.cmds, hw]
  exact List.find?_cons_of_pos (by simp [hid, hcq, hq, Origin.names, htq, htt, hacc])

theorem Entered.abortTarget_none {c : Cmd} {tq tt : BitVec 16} (h : Entered s u q hd op k) (hc : c.id = s.ord.freshCmd) (hs : s.ord.cmds = []) :
    u.abortTarget c tq tt = none := by
  unfold State.abortTarget
  rw [h.cmds, hs]
  exact List.find?_eq_none.mpr (by simp [hc, h.id_eq])

theorem abort_takesTarget {tq tt : BitVec 16} {w : Cmd} (hr : s.RowReady q hd (.abort tq tt)) (hw : s.ord.cmds = [w]) (hq : w.org = .ring q)
    (htq : ringQid q = tq) (htt : w.tag = tt) (hacc : w.acc.isSome = true) (hst : w.st = .running) :
    ∃ t k, exec (.abort q hd tq tt) s = .next t ∧ Accepted s t q hd (.abort tq tt) k ∧ k.set = [w.id] ∧ Frame s t [.qe, .ord, .hif, .out] := by
  have hent := s.entered_enters q hd (.abort tq tt)
  rw [abort_accepts hr, hent.abortTarget_only rfl rfl hw hq htq htt hacc, State.abortAt_running hst]
  exact ⟨_, _, rfl, hent.updCmd.accepted, rfl, .of_keep (Keep.app State.updCmd_keep (by decide) (s.entered_keep ..)) (by decide)⟩

theorem abort_withoutTarget {tq tt : BitVec 16} (hr : s.RowReady q hd (.abort tq tt)) (hs : s.ord.cmds = []) :
    ∃ t k, exec (.abort q hd tq tt) s = .next t ∧ Accepted s t q hd (.abort tq tt) k ∧ k.set = [] ∧ Frame s t [.qe, .ord, .hif, .out] := by
  have hent := s.entered_enters q hd (.abort tq tt)
  rw [abort_accepts hr, hent.abortTarget_none rfl hs]
  exact ⟨_, _, rfl, hent.accepted, rfl, .of_keep (s.entered_keep ..) (by decide)⟩

/-! ### VOLUME_POWER (R219) -/

theorem State.offered_volPower (s : State) (q : RingRef) (hd : EntryHdr) (tgt : Nat) :
    (s.offered q hd (.volPower tgt)).acceptCmd s.ord.freshCmd =
      (s.entered q hd (.volPower tgt)).doPower { s.newCmd q hd (.volPower tgt) with acc := some s.ord.acc } tgt := by
  unfold State.acceptCmd
  rw [State.offered_cmd]
  rfl

theorem volumePower_accepts {x : BitVec 8} (hr : s.RowReady q hd (.volPower x.toNat)) :
    exec (.volumePower q hd x) s = .next ((s.entered q hd (.volPower x.toNat)).doPower
      { s.newCmd q hd (.volPower x.toNat) with acc := some s.ord.acc } x.toNat) :=
  congrArg Host.Outcome.next ((hr.offerRow rfl).trans (State.offered_volPower ..))

/-- The state that a VOLUME_POWER asks for with target 0 or 1. -/
theorem wantedPower_of_lt_two {x : BitVec 8} (hx : x.toNat < 2) :
    (if x.toNat = 0 then VPower.active else if x.toNat = 1 then .idle else .standby) = if x = 0 then .active else .idle := by
  have hzero : x = 0 ↔ x.toNat = 0 := BitVec.toNat_inj.symm
  simp only [hzero]
  split
  · rfl
  · exact if_pos (by omega)

theorem volumePower_atOnce {x : BitVec 8} (hr : s.RowReady q hd (.volPower x.toNat)) (hx : x.toNat < 2)
    (hrun : ((s.poolOf hd.vol).bind (·.run hd.vol)).isSome = true) (hpow : s.powerOf hd.vol = .active ∨ s.powerOf hd.vol = .idle) :
    ∃ t k, exec (.volumePower q hd x) s = .next t ∧ Accepted s t q hd (.volPower x.toNat) k ∧
      k.st = .eligible (okStat (if s.powerOf hd.vol = .active then 0 else 1)) ∧ t.powerOf hd.vol = (if x = 0 then .active else .idle) := by
  have hcode : powerCode (s.powerOf hd.vol) = if s.powerOf hd.vol = .active then 0 else 1 := by
    rcases hpow with h | h <;> rw [h] <;> rfl
  obtain ⟨w, hdo, hkeep, hw⟩ := State.doPower_atOnce (u := s.entered q hd (.volPower x.toNat))
    (c := { s.newCmd q hd (.volPower x.toNat) with acc := some s.ord.acc }) (tgt := x.toNat) (by omega) (wantedPower_of_lt_two hx)
    (by rw [State.poolOf_entered]; exact hrun) (by rw [State.powerOf_entered]; exact hpow)
  have hent := (s.entered_enters q hd (.volPower x.toNat)).of_same (hkeep.same .ord (by decide)) (hkeep.same .qe (by decide))
  rw [volumePower_accepts hr, hdo, State.powerOf_entered, ← hcode]
  exact ⟨_, _, rfl, (hent.endCmd rfl _).accepted, rfl, (State.powerOf_of_pools (State.endCmd_keep.same .pools (by decide)) _).trans hw⟩

theorem volumePower_entersStandby (hr : s.RowReady q hd (.volPower 2)) (hrun : ((s.poolOf hd.vol).bind (·.run hd.vol)).isSome = true)
    (hpow : s.powerOf hd.vol = .active) :
    ∃ t k, exec (.volumePower q hd 2) s = .next t ∧ Accepted s t q hd (.volPower 2) k ∧ k.st = .running ∧ t.powerOf hd.vol = .entering := by
  obtain ⟨w, hdo, hkeep, hw⟩ := State.doPower_standby (u := s.entered q hd (.volPower 2)) (c := { s.newCmd q hd (.volPower 2) with acc := some s.ord.acc })
    (by rw [State.poolOf_entered]; exact hrun) (by rw [State.powerOf_entered]; exact hpow)
  have hent := (s.entered_enters q hd (.volPower 2)).of_same (hkeep.same .ord (by decide)) (hkeep.same .qe (by decide))
  exact ⟨_, _, (volumePower_accepts (x := 2) hr).trans (congrArg Host.Outcome.next hdo), hent.updCmd.accepted, rfl, hw⟩

/-! ### The obligation -/

/-- Settles O23: an entry that passes every check and takes no lock is accepted at once, and what each of the three fixes there is read off the command as it
then stands. That ACTIVE asked of an IDLE volume is answered with 1 and makes it ACTIVE is log entry 28 of the notes. -/
theorem flushAbortVolumePower : Obligations.FlushAbortVolumePower := by
  unfold Obligations.FlushAbortVolumePower
  exact ⟨fun _ _ _ hr hpow => flush_covers hr hpow,
    fun _ _ _ _ _ _ hr hw hq htq htt hacc hst => abort_takesTarget hr hw hq htq htt hacc hst,
    fun _ _ _ _ _ hr hs => abort_withoutTarget hr hs,
    fun _ _ _ _ hr hx hrun hpow => volumePower_atOnce hr hx hrun hpow,
    fun _ _ _ hr hrun hpow => volumePower_entersStandby hr hrun hpow⟩

end Sys2Proof.Machine
end
